-- ==== Sys2Proof/Word.lean ====
section
/-! DEFINITION. Word.lean: the widths the manual gives its bits (R16, R17). -/
namespace Sys2Proof

/-- A byte of host memory, device DRAM, a descriptor or an entry. -/
abbrev Byte := BitVec 8

/-- A register word: registers are 32 bits wide and little-endian (R17). -/
abbrev Word := BitVec 32

/-- A 64-bit value: fences, DEVTIME words, frame numbers, signatures (R31, R91, R135, R200). -/
abbrev DWord := BitVec 64

end Sys2Proof
end

