-- ==== Sys2Proof/Parts/Audio.lean ====
section
/-! DEFINITION. Parts/Audio.lean: the state of the audio block: gains, streams, chime voices, output processing, TDM ports (R364-R383). -/
namespace Sys2Proof.Machine

/-- A ramped gain (R366): the current 32-bit value, the target, the step and the samples left. -/
structure Gain where
  g      : Nat
  target : Nat
  step   : Int
  left   : Nat
deriving DecidableEq, Repr

/-- The state of a biquad in direct form I (R374). -/
structure Biquad where
  x1 : Int
  x2 : Int
  y1 : Int
  y2 : Int
deriving DecidableEq, Repr

/-- Processing state of an output (R374-R376, R379): ducking gain, biquads of the main path and of the chime path, compressor gain in dB and limiter
gain as fixed point of 96 places, the 96 newest samples of the main path before the limiter, newest first. -/
structure AudOut where
  duck : Gain
  main : Vector Biquad 8
  chime : Vector Biquad 8
  comp : Int
  lim  : Int
  line : List Int
deriving DecidableEq, Repr

/-- A queued host buffer of a stream (R369). -/
structure StreamBuf where
  ring  : Fin 4
  order : Nat
  addr  : Nat
  len   : Nat
  last  : Bool
deriving DecidableEq, Repr

/-- An open stream (R368-R370). `frames` are the frames held in audio SRAM as Q31 samples; `part` counts fractions of a frame consumed, in 1/2,000. -/
structure Stream where
  ply     : Fin 64
  handle  : Nat
  chans   : Nat
  fmt     : Nat
  rate    : Nat
  first   : Nat
  started : Bool
  frames  : List (List Int)
  part    : Nat
  bufs    : List StreamBuf
  /-- The last buffer held had LAST set. -/
  last    : Bool
  /-- Ramping to silence (R370, R382): asked for, then running; the AUD_OPEN with CLOSE that waits for it. -/
  closing : Bool
  fade    : Option Gain
  closer  : Option (Fin 4 × Nat)
deriving DecidableEq, Repr

/-- What a chime voice plays (R377, R378, R380). `ply` is none for voice 15. -/
structure Playing where
  ply     : Option (Fin 64)
  classA  : Bool
  wave    : Fin 16
  mask    : Nat
  gain    : Nat
  /-- Times still to play; none until stopped. -/
  left    : Option Nat
  pos     : Nat
  desc    : Option (Fin 4 × Nat)
  sounds  : Bool
  stop    : Bool
  ended    : Bool
  closing : Bool
  fade    : Option Gain
  /-- The MEM take of its next block was refused: it waits (R46, R378). -/
  hold    : Bool
deriving DecidableEq, Repr

/-- A TDM port (R372, R383). -/
structure Tdm where
  clkLost : Bool
  slips   : Nat
deriving DecidableEq, Repr

/-- The block of 48 samples that is being processed (R364). Of each output: the samples of its main path after ducking, with those of its chime path,
that are still to go through its EQ, compressor and limiter, and those that have, newest first. `pos` samples are done; free values count from `free`. -/
structure AudBlock where
  pos  : Nat
  rest : Vector (List (Int × Int)) 32
  sent : Vector (List Int) 32
  conv : Vector (List (List Int)) 4
  free : Nat
deriving DecidableEq, Repr

/-- The audio block. -/
structure Audio where
  /-- Crosspoints by input x 32 + output; an unlisted one is 0. Values written and those waiting for the next boundary (R366). -/
  xp      : List (Nat × Gain)
  xset    : List (Nat × Word)
  xpend   : List Nat
  /-- Coefficients written, by output x 64 + biquad x 8 + coefficient (R374). -/
  eq      : List (Nat × Word)
  outs    : Vector AudOut 32
  streams : List Stream
  voices  : Vector (Option Playing) 16
  /-- Voices reserved for class A plies (R377). -/
  owner   : Vector (Option (Fin 64)) 15
  tdm     : Vector Tdm 4
  /-- Outputs and TDM ports that are locked, as masks (R381). -/
  lockOut : Nat
  lockTdm : Nat
  /-- Policy bindings whose event has been raised and whose chime has not been triggered yet (R380). -/
  due     : List Nat
  /-- Waveforms lost to uncorrectable DRAM errors (R318, R382). -/
  lost    : List (Fin 16)
  /-- The block in hand; none before the first epoch boundary and while the audio block does not run. -/
  block   : Option AudBlock
deriving DecidableEq, Repr

/-- Converted samples of a block, whose values the manual does not fix (R367, R372; log entry 72): mixer inputs' samples at 96 kHz by input, frames of
the TDM ports whose outputs are rate-converted, and frames that slave conversion repeated or dropped. -/
structure AudioIn where
  inputs : List (Nat × List Int)
  conv   : Vector (List (List Int)) 4
  slips  : Vector Nat 4
deriving DecidableEq, Repr

end Sys2Proof.Machine
end

