-- ==== Sys2Proof/Parts/Dram.lean ====
section
/-! DEFINITION. Parts/Dram.lean: the device DRAM (R35, R283): its bytes, and under which key each 64-byte unit was last written. -/
namespace Sys2Proof.Machine

/-- Device DRAM. `cells` holds the plain bytes in canonical form: addresses strictly rising, no byte 0 listed.
A unit's key generation is `unitKey` of the unit, or else `granKey` of its 64 KiB granule, or else 0: never written.
The cells themselves hold the ciphertext of those bytes under that key (`Dram.cipher`). -/
structure Dram where
  cells   : List Host.Cell
  unitKey : List (Nat × Nat)
  granKey : List (Nat × Nat)
deriving DecidableEq, Repr

end Sys2Proof.Machine
end

