-- ==== Sys2Proof/Parts/Gfx.lean ====
section
/-! DEFINITION. Parts/Gfx.lean: the state of the raster engine and the shader clusters (R206-R258): pipeline state, draws, passes, jobs, waves,
clusters, and the rasteriser's fragments. -/
namespace Sys2Proof.Machine

/-- Pipeline state of one stage (R210): SHADER, RESOURCES, CONST. -/
structure Stage where
  code   : Nat
  vregs  : Nat
  sregs  : Nat
  lds    : Nat
  wx     : Nat
  wy     : Nat
  wz     : Nat
  /-- Address of the resource table. -/
  table  : Nat
  /-- Constants by scalar register. -/
  consts : List (Nat × Word)
deriving DecidableEq, Repr

/-- A colour or depth/stencil target (R210). -/
structure Target where
  enable : Bool
  format : Nat
  ozc    : Bool
  load   : Nat
  store  : Nat
  addr   : Nat
  stride : Nat
  header : Nat
  clear  : Nat
deriving DecidableEq, Repr

/-- The RASTER packet's state (R210). -/
structure Raster where
  vx : Word
  vy : Word
  vw : Word
  vh : Word
  /-- d4-d7: scissor, cull, depth and stencil fields. -/
  d4 : Nat
  d5 : Nat
  d6 : Nat
  d7 : Nat
deriving DecidableEq, Repr

/-- Every item of pipeline state (R206): vertex, fragment and compute stages; targets 0-3 colour, 4 depth/stencil; BLEND dwords. -/
structure Pipe where
  stages  : Vector Stage 3
  targets : Vector Target 5
  raster  : Raster
  blend   : Vector Nat 4
deriving DecidableEq, Repr

/-- What a vertex shader exported for one vertex: position, and varyings by number (R249). -/
structure VertOut where
  pos  : List Word
  vars : List (Nat × List Word)
deriving DecidableEq, Repr

/-- A draw of a pass (R210, R237). Vertices are numbered by instance x count + position. -/
structure Draw where
  pipe     : Pipe
  topo     : Nat
  count    : Nat
  insts    : Nat
  first    : Nat
  firstInst : Nat
  /-- Indexed: index size in bytes, primitive restart, vertex offset, index buffer address. -/
  indexed  : Option (Nat × Bool × Int × Nat)
  /-- Next vertex wave to launch: instance and first position. -/
  nextInst : Nat
  nextPos  : Nat
  /-- Positions at which the index restarts the primitive. -/
  restarts : List Nat
  outs     : List (Nat × VertOut)
  /-- Vertex waves in flight. -/
  inFlight : Nat
deriving DecidableEq, Repr

/-- One pixel of a quad as the rasteriser gives it (log entry 62): samples covered, depth of each sample, depth and 1/w at the pixel centre, and
interpolated varyings (four words each). -/
structure FragLane where
  cover : Nat
  depth : List Word
  z     : Word
  invw  : Word
  vars  : List Word
deriving DecidableEq, Repr

/-- A 2 x 2 quad of one primitive: even pixel coordinates, instance, primitive within it, facing. -/
structure FragQuad where
  x     : Nat
  y     : Nat
  inst  : Nat
  prim  : Nat
  front : Bool
  lanes : Vector FragLane 4
deriving DecidableEq, Repr

/-- Up to 8 quads of one tile of one draw: a fragment wave before its launch (R237). `order` numbers the waves of a pass. -/
structure FragWave where
  draw  : Nat
  tile  : Nat
  order : Nat
  quads : List FragQuad
deriving DecidableEq, Repr

/-- A shaded fragment: place in the order of primitives, pixel, samples that take its colours, samples covered and their depths where the
shader wrote depth, exports by slot. -/
structure FragOut where
  order  : Nat
  pixel  : Nat
  cover  : Nat
  late   : Bool
  depth  : List Word
  colours : List (Nat × List Word)
  draw   : Nat
deriving DecidableEq, Repr

/-- An open pass (R210, R214-R219). -/
structure Pass where
  width    : Nat
  height   : Nat
  samples  : Nat
  pls      : Bool
  binMax   : Nat
  spill    : Nat
  spillUnits : Nat
  targets  : Vector Target 5
  draws    : List Draw
  /-- The draw that is being binned is the last of `draws`. -/
  binning  : Bool
  frags    : List FragWave
  nextOrder : Nat
  pages    : Nat
  /-- What the draw being binned still has to put into lists, a page of 64 KiB at a time (R214); none before its vertices are shaded. -/
  owe      : Option (List (List FragQuad))
  partials : Nat
  /-- Tiles in the spill area (R217) with their contents: cells and pixel-local words. -/
  spilled  : List (Nat × List (Nat × Nat) × List (Nat × Word))
  /-- A render runs: true is the final one. Tiles still to be taken by a cluster. -/
  render   : Option Bool
  todo     : List Nat
  /-- Tiles that this render has handled. -/
  tilesDone : List Nat
deriving DecidableEq, Repr

/-- A dispatch in progress (R210, R237). -/
structure Dispatch where
  stage : Stage
  nx    : Nat
  ny    : Nat
  nz    : Nat
  next  : Nat
deriving DecidableEq, Repr

/-- A reconvergence stack entry (R248): saved AMASK and resume address, with what ELSE, BREAK and CONT refer to. -/
structure StackEntry where
  mask   : BitVec 32
  isLoop : Bool
  ifMask : BitVec 32
  resume : Nat
  stop   : Nat
  cont   : BitVec 32
deriving DecidableEq, Repr

/-- What a wave works on (R237). -/
inductive WaveWork where
  | vertex (draw inst first count : Nat)
  /-- Lanes whose interlock region is open, and lanes that have left theirs (R220); `late` where the shader writes depth. -/
  | fragment (frag : FragWave) (inRegion left : BitVec 32) (late : Bool)
  | compute (group : Nat)
deriving DecidableEq, Repr

/-- A wave (R236, R240, R257). Registers are sparse: an unlisted one is 0. Vector registers are keyed by register x 32 + lane. -/
structure Wave where
  id      : Nat
  /-- Partition (R237). -/
  part    : Nat
  work    : WaveWork
  stage   : Stage
  pc      : Nat
  amask   : BitVec 32
  live    : BitVec 32
  killed  : BitVec 32
  v       : List (Nat × Word)
  s       : List (Nat × Word)
  p       : Vector (BitVec 32) 8
  stack   : List StackEntry
  /-- Waits at BAR. -/
  barrier : Bool
  /-- Exports by lane x 32 + slot: vertex 0 position, 1 + n varying n; fragment 0-3 colour, 16 depth. -/
  outs    : List (Nat × List Word)
deriving DecidableEq, Repr

/-- A workgroup resident on a cluster: its index, its waves, its local data store. A byte of the store that it has not written reads as a free value
(log entry 77), picked by `seed`. -/
structure WorkGroup where
  id    : Nat
  waves : Nat
  size  : Nat
  lds   : List (Nat × Byte)
  seed  : Nat
deriving DecidableEq, Repr

/-- A cluster's context: what preemption saves (R229, R257). `cells` is the tile memory, by pixel x 32 + sample x 8 + slot (slot 5 stencil). -/
structure Context where
  waves  : List Wave
  groups : List WorkGroup
  tile   : Option Nat
  cells  : List (Nat × Nat)
  pls    : List (Nat × Word)
  outs   : List FragOut
deriving DecidableEq, Repr

/-- A shader cluster (R226, R229, R235). -/
structure Cluster where
  /-- The job it holds, by descriptor order. -/
  job    : Option Nat
  ctx    : Context
  /-- L1 lines by device address / 64, last filled first (R255). -/
  l1     : List (Nat × List Byte)
  /-- Lines of the instruction cache and of the texture cache, by device address / 64, last filled first (R235). What a line holds is what the
  job's `code` or `tex` holds there. -/
  icache : List Nat
  tcache : List Nat
  /-- The preemption signal has been sent: it issues nothing (R229). -/
  saving : Bool
  /-- Held beyond the ply's class A reservation (R58, R227). -/
  beyond : Bool
  /-- Order of placement. -/
  placed : Nat
  /-- The class A job for which it is being saved, or was (R227). -/
  dest   : Option Nat
deriving DecidableEq, Repr

/-- A buffer that is being read: address, length, position in bytes, and how far its 64-byte units have been transferred. -/
structure CmdBuf where
  addr : Nat
  len  : Nat
  pos  : Nat
  read : Nat
deriving DecidableEq, Repr

/-- A job (R206). -/
structure Job where
  /-- The descriptor's order of acceptance names the job. -/
  order    : Nat
  ply      : Fin 64
  ring     : Fin 4
  seq      : Word
  compute  : Bool
  want     : Nat
  deadline : Nat
  wcet     : Nat
  armed    : Nat
  started  : Option Nat
  /-- Buffers that are being read, the innermost first; none once the command buffer has ended (R208). -/
  bufs     : List CmdBuf
  pipe     : Pipe
  save     : Option (Nat × Nat)
  pass     : Option Pass
  dispatches : List Dispatch
  saved    : List Context
  nextWave : Nat
  nextGroup : Nat
  missed   : Bool
  /-- The job has stopped early, with its completion status (R209). -/
  ended    : Option Nat
  /-- Code as it stood when the job started (R243), and textures and resource entries as of the last invalidation (R225). -/
  code     : Dram
  tex      : Dram
deriving DecidableEq, Repr

/-- A cluster's saved state on its way from the L2's save buffer to a job's save area (R229): the job's order, its ply, the area's address and size
in 64 KiB units, and the 64-byte transfers that it takes. -/
structure SavedImage where
  order : Nat
  ply   : Fin 64
  addr  : Nat
  size  : Nat
  units : Nat
deriving DecidableEq, Repr

/-- The raster engine. -/
structure Gfx where
  jobs     : List Job
  clusters : Vector Cluster 16
  nextPlace : Nat
  preempts : Nat
  partials : Nat
  misses   : Nat
  /-- The save buffer of the L2: up to 4 clusters' states (R229). -/
  saves    : List SavedImage
deriving DecidableEq, Repr

end Sys2Proof.Machine
end

