-- ==== Sys2Proof/Parts/Ply.lean ====
section
/-! DEFINITION. Parts/Ply.lean: the state of one ply: page registers, rings, descriptors in flight, fences, tables, events, migration
(R22, R66-R130). -/
namespace Sys2Proof.Machine

/-- Class of a ply, fixed when it is created (R23). -/
inductive PlyClass where | a | b | c
deriving DecidableEq, Repr

/-- State of a ply (R108). -/
inductive PlyState where | absent | active | draining | quiesced | faulted | orphaned
deriving DecidableEq, Repr

/-- Cause of a quiesce, weakest first (R109). -/
inductive Cause where | none | manager | fault | orphan
deriving DecidableEq, Repr

/-- How far an accepted descriptor has come (R85-R87). -/
inductive DescPhase where
  /-- Accepted: it holds a RING credit and waits for the head of its ring. -/
  | accepted
  /-- Parsed and checked, waiting in order for a completion entry (R86). -/
  | waitEntry
  /-- Parsed, checked and reserved; held while its wait fence is unreached (R86). -/
  | parsed
  /-- Dispatched to its engine. -/
  | dispatched
  /-- The engine has finished; retirement follows (R87). -/
  | finished
deriving DecidableEq, Repr

/-- One accepted descriptor. -/
structure InFlight where
  bytes    : List Byte
  seq      : Word
  /-- Order of acceptance over the whole device (R90, R445). -/
  order    : Nat
  phase    : DescPhase
  /-- A completion entry is reserved for it (R86). -/
  reserved : Bool
  /-- Its RING credit comes from the standing reservation (R55). -/
  standing : Bool
  status   : Nat
  /-- Completion bytes 16-31. -/
  result   : List Byte
  /-- Device memory read at parse: layer state and coefficient block, touch configuration, effect record. -/
  block    : List Byte
  /-- Progress of a copy, fill or check in bytes, or DEVTIME at the start of a wait. -/
  mark     : Nat
  /-- Bytes of host data that a COPY or CHECK is reading. -/
  reading  : Nat
  /-- DEVTIME at which it became armed: parsed, checked and its wait reached (R25, R93). -/
  armedAt  : Option Nat
  /-- A LAYER whose state block and coefficient block have been read and checked (R159, R161, R191). -/
  seen     : Bool
deriving DecidableEq, Repr

/-- Where the service procedure of a non-polled ring stands (R76). -/
inductive RingRead where
  /-- Asleep, or never started. -/
  | idle
  /-- The read of record.prod is outstanding. -/
  | record
  /-- A read of `n` slots is outstanding. -/
  | slots (n : Nat)
  /-- The record read that follows ASLEEP = 1 is outstanding. -/
  | confirm
  /-- A RING take was refused (R75). -/
  | stalled
deriving DecidableEq, Repr

/-- A submission ring: RING_CTL, RING_STATUS, RING_BASE and the device's side of the protocol (R72-R76). -/
structure SubRing where
  enable    : Bool
  log2Depth : Nat
  poll      : Bool
  vec       : Nat
  vecEn     : Bool
  base      : DWord
  error     : Bool
  asleep    : Bool
  setupErr  : Bool
  cons      : Word
  prod      : Word
  read      : RingRead
  again     : Bool
  queue     : List InFlight
deriving DecidableEq, Repr

/-- What waits for a completion entry, in order (R86, R87, R98, R116). -/
inductive CqWait where
  /-- A descriptor of a ring waits for its reservation, by its order of acceptance. -/
  | reserve (ring : Fin 4) (order : Nat)
  /-- An event entry: bytes 0-31, PHASE and SUPPRESSED not yet set. -/
  | event (bytes : List Byte)
  /-- A DISCARDED entry that held no reservation, and its descriptor's IRQ flag. -/
  | entry (bytes : List Byte) (irq : Bool)
deriving DecidableEq, Repr

/-- Re-read of the completion ring's CONS (R78). -/
inductive ConsRead where | none | first | second
deriving DecidableEq, Repr

/-- The completion ring. -/
structure CplRing where
  enable    : Bool
  log2Depth : Nat
  base      : DWord
  asleep    : Bool
  setupErr  : Bool
  prod      : Word
  cons      : Word
  reserved  : Nat
  waiters   : List CqWait
  reread    : ConsRead
  /-- A NUDGE.CQ came during a re-read: one more is pending (R75, R78). -/
  again     : Bool
  /-- Events dropped since the last EVENTS_LOST (R98). -/
  dropped   : Nat
deriving DecidableEq, Repr

/-- One 64 KiB page of the ply's device-side tables (R90). -/
structure Pte where
  page  : Nat
  read  : Bool
  write : Bool
deriving DecidableEq, Repr

/-- One dirty-log window (R125). -/
structure LogWindow where
  base  : Nat
  pages : Nat
  mapA  : Nat
  mapB  : Nat
deriving DecidableEq, Repr

/-- Dirty logging of the ply's host writes (R125, R126). `lines` are the active bitmaps' lines the device has set bits in, by line
address; `cached` names the lines in the 64-entry cache, most recent first. -/
structure DirtyLog where
  on      : Bool
  windows : List LogWindow
  useB    : Bool
  outside : Bool
  lines   : List (Nat × List Byte)
  cached  : List Nat
deriving DecidableEq, Repr

/-- Migration of the ply (R127-R130). -/
structure Migration where
  /-- 0 none, 1 source, 2 destination. -/
  role     : Nat
  agreed   : Bool
  /-- The peer's measurements have matched an entry of the policy in this session (R129). -/
  attested : Bool
  /-- Generation of the session's migration key (R128, R129). -/
  key      : Nat
  /-- Records that the export or import command in hand has done: it waits for MEM credits between two of them (R46). -/
  done     : Nat
  /-- Export: the round in hand, device pages still to export in it, pages written since they were last read. -/
  tracking : Bool
  round    : Nat
  todo     : List Nat
  dirty    : List Nat
  stateDue : Bool
  seq      : Nat
  /-- Export: SEQ of each granule's latest record, to which the state record's tables are rebased (R127). -/
  sent     : List (Nat × Nat)
  /-- Import: the last accepted SEQ. -/
  lastSeq  : Nat
  imported : Bool
  /-- Import: granule that holds each accepted device page, and the granule of each accepted SEQ (R127, R130). -/
  placed   : List (Nat × Nat)
  bySeq    : List (Nat × Nat)
deriving DecidableEq, Repr

/-- A ring as a ply state record carries it (R127): LOG2_DEPTH, POLL, VEC, VEC_EN, base, device index. -/
structure RingRecord where
  enable    : Bool
  log2Depth : Nat
  poll      : Bool
  vec       : Nat
  vecEn     : Bool
  base      : DWord
  index     : Word
deriving DecidableEq, Repr

/-- A migration record as Elytra decrypts it (R127, R128): a granule, or the ply state with its tables rebased to SEQ, its policy slot and its shares
by kind. The verdict of its tag is part of the command's data (log entry 31). -/
inductive MigRecord where
  | granule (tagOk : Bool) (seq addr : Nat) (data : List Byte)
  | plyState (tagOk : Bool) (seq : Nat) (fences : List (Nat × DWord)) (pollUs : Nat) (dbrBase evtVec : DWord) (fenceSel : Nat)
      (rings : Vector RingRecord 4) (cq : RingRecord) (tables : List (Nat × Nat × Bool × Bool)) (slot : Nat) (shares : Vector (Nat × Nat) 6)
deriving DecidableEq, Repr

/-- One ply. -/
structure Ply where
  cls       : PlyClass
  state     : PlyState
  cause     : Cause
  port      : Fin 4
  pasid     : Nat
  /-- An IOMMU refusal has ended every write to the ply's host memory (R121). -/
  hostDead  : Bool
  pollUs    : Nat
  dbrBase   : DWord
  evtVec    : DWord
  evtLost   : Nat
  fenceSel  : Nat
  fenceStage : Word
  fenceLatch : Word
  /-- Fences by index; an unlisted fence holds 0 (R91). -/
  fences    : List (Nat × DWord)
  rings     : Vector SubRing 4
  cq        : CplRing
  /-- A poll's reads outstanding: PROD, as known when the poll was issued, of each ring that it reads; none once the ring has been disabled since
  (R74, R82, R83). -/
  pollOut   : Option (Vector (Option Word) 4)
  pollDefer : Bool
  /-- HTAG credits the outstanding poll holds. -/
  pollTags  : Nat
  tables    : List (Nat × Pte)
  /-- A share change swaps in at the next epoch boundary (R113). -/
  shareDue  : Bool
  /-- Kinds that a PLY_SHARE of this epoch has changed, with the GUAR and CAP that were pending before the first one (R113). -/
  shareBase : List (Nat × Nat × Nat)
  log       : DirtyLog
  mig       : Migration
deriving DecidableEq, Repr

/-- What a device-issued host read is for (R44, R295, R326). -/
inductive ReadFor where
  | record (ply : Fin 64) (ring : Fin 4)
  | slots (ply : Fin 64) (ring : Fin 4)
  | cons (ply : Fin 64)
  | audio (ply : Fin 64) (stream : Nat)
  /-- Host data of a COPY or CHECK, by its order of acceptance. -/
  | data (ply : Fin 64) (order : Nat)
  /-- The host buffer of a mailbox command, by its order. -/
  | buffer (order : Nat)
  /-- Its data is dropped when it completes (R74, R114). -/
  | other
deriving DecidableEq, Repr

/-- An outstanding read request of a port and the HTAG credit it holds (R44). `ply` is none for the device holder. -/
structure HostRead where
  port    : Fin 4
  ply     : Option (Fin 64)
  what    : ReadFor
  addr    : Nat
  len     : Nat
deriving DecidableEq, Repr

/-- Access types and engines that PLY_FAULTED carries in DATA (R121; codes: log entry 22). -/
inductive Engine where | weevil | copy | raster | carder | audio | touch | haptics | whorl | ely
deriving DecidableEq, Repr

end Sys2Proof.Machine
end

