-- ==== Sys2Proof/Parts/Sense.lean ====
section
/-! DEFINITION. Parts/Sense.lean: capacitive touch (R384-R407) and piezo haptics (R408-R421). -/
namespace Sys2Proof.Machine

/-- A panel as the policy divides the electrodes (R384). -/
structure PanelPolicy where
  classA   : Bool
  owner    : Nat
  drvFirst : Nat
  drvCount : Nat
  snsFirst : Nat
  snsCount : Nat
deriving DecidableEq, Repr

/-- What the policy fixes for a haptic channel (R421): ACC_PRESENT, HAP_SENSE, HAP_LIM. -/
structure HapPolicy where
  acc   : Bool
  sense : Word
  lim   : Word
deriving DecidableEq, Repr

/-- Baseline state of a node (R393-R396): baseline, touched, suspect, consecutive scans above its baseline by more than TOUCH_THR, sum of its raw
counts since the last baseline update. -/
structure Node where
  base    : Int
  touched : Bool
  suspect : Bool
  above   : Nat
  sum     : Nat
deriving DecidableEq, Repr

/-- A contact (R397, R398). -/
structure Contact where
  id       : Nat
  x        : Nat
  y        : Nat
  strength : Nat
  size     : Nat
  suspect  : Bool
  /-- Its DOWN has been reported since reports last stopped (R401). -/
  told     : Bool
  /-- DEVTIME at which it came, and of its next PERSISTENT_TOUCH (R397). -/
  since    : Nat
  persist  : Nat
deriving DecidableEq, Repr

/-- Raw counts of one pass of a scan: the nodes, drive by drive, and the listen window's counts of the senses (R389-R391). -/
structure TouchPass where
  raw    : List Nat
  listen : List Int
deriving DecidableEq, Repr

/-- A scan in progress: DEVTIME of its start, the frequency entry of each pass, whether it recaptures the baselines (R390, R392, R395),
and its passes where it has ended and waits for the class A panel's results (R64). -/
structure Scan where
  start   : Nat
  entries : List (Fin 8)
  recap   : Bool
  done    : Option (List TouchPass)
deriving DecidableEq, Repr

/-- Which stored baselines the panel's next first scan consults (R395, R396). -/
inductive StartRef where | flash | kept | none
deriving DecidableEq, Repr

/-- Stored baselines with the panel map they belong to (R396, R402). -/
structure TouchRef where
  panel0 : Word
  panel1 : Word
  base   : List Int
deriving DecidableEq, Repr

/-- A touch panel. -/
structure Panel where
  /-- Configuration block in force; none while the panel has none (R387). -/
  cfg      : Option (List Byte)
  /-- A block that takes effect at the next scan. -/
  next     : Option (List Byte)
  scanning : Bool
  scan     : Option Scan
  /-- The next scan recaptures every baseline (R395); it is the panel's first (R395, R396). -/
  recap    : Bool
  first    : Bool
  ref      : StartRef
  nodes    : List Node
  /-- Scans since the last baseline update (R393). -/
  drift    : Nat
  noise    : Bool
  freq     : Fin 8
  /-- Last score of each frequency entry, and of the last scan (R391, R392). -/
  scores   : Vector Nat 8
  score    : Nat
  /-- Consecutive scans above NOISE_ENTER / 2, above NOISE_ENTER, and below NOISE_EXIT in the mode. -/
  half     : Nat
  high     : Nat
  low      : Nat
  contacts : List Contact
  periodUs : Nat
  /-- NOISE_FORCE of the block in force at the start of the last scan (R405, R481). -/
  force    : Bool
deriving DecidableEq, Repr

/-- The commands of TCH_CMD (R402). -/
inductive TchCmd where | recal | selftest | refStore
deriving DecidableEq, Repr

/-- A fault that a self-test lists (R403): kind, electrode, second electrode or 0xFF. -/
structure TchFault where
  kind  : Nat
  elec  : Nat
  other : Nat
deriving DecidableEq, Repr

/-- What the front end measures in a self-test (R403): every node with each drive alone; couplings between electrodes of one kind in units of
1/16,384 pF; per electrode of the panel, whether it reached 90 % of VAON and whether it fell to 10 % within 5 us. -/
structure TchMeasure where
  nodes     : List Nat
  couplings : List (Nat × Nat × Nat)
  charged   : List Bool
  released  : List Bool
deriving DecidableEq, Repr

/-- The touch front end. -/
structure Touch where
  panels  : Vector Panel 4
  /-- TCH_CMD in progress: command and panel; TCH_CMD_STATUS. -/
  running : Option (TchCmd × Fin 4)
  result  : Nat
  lastCmd : Nat
  nFaults : Nat
  faults  : List TchFault
  /-- Touch reference area of the flash (R402). -/
  stored  : Vector (Option TouchRef) 4
  /-- Baselines retained in the always-on island through WATCH (R396). -/
  kept    : Vector (Option TouchRef) 4
  /-- Wake scan (R404, R405): BLOCKED, the groups' nodes of the X and the Y axis once captured, scans since the last update, the touched position of
  the last scans, newest first, and TCH_WAKE_STATUS. -/
  blocked : Bool
  wakeX   : List Node
  wakeY   : List Node
  wakeN   : Nat
  trail   : List (Option (Nat × Nat))
  woke    : Bool
  wakeKind : Nat
  wakeAt  : Nat × Nat
deriving DecidableEq, Repr

/-- Where a haptic trigger comes from (R414). -/
inductive HapSrc where
  | pin
  | zone
  | desc (ply : Fin 64) (ring : Fin 4) (order : Nat)
deriving DecidableEq, Repr

/-- A trigger of a slot's effect at a gain and priority (R411, R414, R415). -/
structure Trigger where
  src  : HapSrc
  slot : Fin 32
  prio : Nat
  gain : Nat
deriving DecidableEq, Repr

/-- An effect record (R410). -/
structure Effect where
  energy  : Nat
  brakeMs : Nat
  samples : List Int
deriving DecidableEq, Repr

/-- A start that waits for credits: since when, and its place among all channels (R417). -/
structure HapWait where
  trig   : Trigger
  effect : Effect
  since  : Nat
  place  : Nat
deriving DecidableEq, Repr

/-- A running effect: control samples of its phase, of both phases, credits drawn, and whether the ply's drain ends it (R411, R418-R420). -/
structure HapRun where
  trig    : Trigger
  effect  : Effect
  drawn   : Nat
  braking : Bool
  k       : Nat
  total   : Nat
  /-- Integral of VS x IS over the effect, in code products. -/
  energy  : Int
  stop    : Bool
deriving DecidableEq, Repr

/-- A haptic channel. -/
structure HapChan where
  pool     : Vector (Option Effect) 32
  /-- Loads into a slot in use: slot, record, descriptor (R410). -/
  loads    : List (Fin 32 × Effect × Fin 64 × Fin 4 × Nat)
  /-- Triggers that enter at the next control tick, in order of arrival. -/
  arrivals : List Trigger
  wait     : Option HapWait
  run      : Option HapRun
  /-- HAPn_EN is high; control ticks of EN_HOLD. -/
  en       : Bool
  holding  : Option Nat
  /-- Loop state (R412). -/
  i        : Int
  u        : Int
  /-- Trips not yet re-armed: kind and DEVTIME; the last kind; a trip condition seen and not yet acted on (R419). -/
  trips    : List (Nat × Nat)
  lastTrip : Nat
  due      : Option Nat
  /-- Slot and priority playing or last played; energy of the last effect (R418, R421). -/
  slot     : Nat
  prio     : Nat
  energy   : Nat
  /-- HAPn_EN-high control ticks of the last 1 ms bins, newest first, the bin in progress at the head; ticks of that bin (R419). -/
  bins     : List Nat
  binTick  : Nat
deriving DecidableEq, Repr

/-- The haptic block: the channels, the next place in the order of waiting starts, DEVTIME at which the last VAON warning ended. -/
structure Haptics where
  chans   : Vector HapChan 8
  place   : Nat
  warnEnd : Nat
deriving DecidableEq, Repr

/-- One channel's inputs of a control tick: HAPn_VS, HAPn_IS and ACCn (R408). -/
structure HapSample where
  vs  : BitVec 12
  is' : BitVec 12
  acc : BitVec 16
deriving DecidableEq, Repr

end Sys2Proof.Machine
end

