-- ==== Sys2Proof/Parts/Policy.lean ====
section
/-! DEFINITION. Parts/Policy.lean: the signed policy (R106, R312) and the Psikai container that carries it (R290, R291). The manual gives the
POLICY section's content and no byte format, so a policy is a record (log entry 30). -/
namespace Sys2Proof.Machine

/-- A tenancy (R180). -/
structure Tenancy where
  valid  : Bool
  classA : Bool
  ply    : Nat
  zb     : Nat
  x0     : Nat
  x1     : Nat
  y0     : Nat
  y1     : Nat
deriving DecidableEq, Repr

/-- A fallback plate: surface address in secure DRAM, stride in bytes, ARGB8888 rather than XRGB8888 (R196). -/
structure Plate where
  addr   : Nat
  stride : Nat
  argb   : Bool
deriving DecidableEq, Repr

/-- A signature region as the policy sets it (R198): owner, and for a class A region the words of its registers from SIG_CTL, SIG_X, SIG_Y on to
SIG_XOROUT_HI, without OWNER, CLASS_A and LOCK. -/
structure SigPolicy where
  owner : Nat
  regs  : Vector Word 9
deriving DecidableEq, Repr

/-- What the policy says of one head (R156, R180, R196, R198, R312). -/
structure HeadPolicy where
  /-- Tenancy sets 0-3; none is a set the policy leaves empty. -/
  sets     : Vector (Option (Vector Tenancy 16)) 4
  plates   : Vector (Option Plate) 16
  /-- Handles marked as the head's class A slots, at most 2. -/
  slots    : List Nat
  /-- Bobbin granules that the policy reserves for each of those slots (R143). -/
  slotGran : List Nat
  /-- TLOCK: the mode that the policy fixes, the words of HD_CTL to HD_BOBBIN (R134). -/
  mode     : Option (Vector Word 9)
  dscAllow : Bool
  sigs     : Vector (Option SigPolicy) 4
deriving DecidableEq, Repr

/-- What triggers a bound chime: an edge of an HTRIG pin, or an event code raised for a class A ply or region (R380). -/
inductive ChimeSrc where
  | edge (pin : Fin 8) (rising : Bool)
  | event (code : Nat)
deriving DecidableEq, Repr

/-- A chime binding (R380). -/
structure ChimeBind where
  src  : ChimeSrc
  wave : Fin 16
  mask : Nat
  gain : Nat
deriving DecidableEq, Repr

/-- What the policy fixes for an audio output (R381): AUD_OUT, AUD_COMP, AUD_COMP_T, AUD_LIM and the AUD_TDM_CTL of its port. -/
structure AudSettings where
  out   : Word
  comp  : Word
  compT : Word
  lim   : Word
  tdm   : Word
deriving DecidableEq, Repr

/-- A ply's policy entry (R106). -/
structure PlyPolicy where
  /-- none: the entry is empty. -/
  cls      : Option PlyClass
  ports    : List Nat
  /-- Upper limits of GUAR and CAP in MEM, GFX, CMP, BIN, RING, HTAG. -/
  guarMax  : Vector Nat 6
  capMax   : Vector Nat 6
  /-- Memory limit in granules (R304, R312). -/
  memMax   : Nat
  heads    : List Nat
  panels   : List Nat
  /-- Class A panels assigned to the ply (R56, R384). -/
  aPanels  : Nat
  haptics  : List Nat
  /-- Chime voices reserved (class A), 0-8. -/
  voices   : Nat
  /-- Chime waveforms granted, as a mask of 16 (R377). -/
  waves    : Nat
  /-- Audio outputs granted, as a mask of 32, and mixer inputs granted (R368). -/
  outputs  : Nat
  inputs   : List Nat
  /-- Layer handles granted (R155). -/
  handles  : List Nat
  /-- Whorl ports and directions granted: (port, transmit) (R356). -/
  ringPaths : List (Nat × Bool)
  /-- Check-value units granted (R443). -/
  checks   : List Nat
deriving DecidableEq, Repr

/-- The POLICY section (R312). -/
structure Policy where
  manager   : Fin 4
  plies     : Vector PlyPolicy 64
  /-- Lend pairs: owner, borrower, READ_WRITE allowed (R306). -/
  lendPairs : List (Nat × Nat × Bool)
  heads     : Vector HeadPolicy 8
  /-- HEARTBEAT: enabled, supervised head (R153). FBSEL_N: STICKY (R154). -/
  hbEn      : Bool
  hbHead    : Nat
  fbSticky  : Bool
  binTotal  : Nat
  auditors  : List (Fin 4)
  wmInit    : Nat
  wmMax     : Nat
  /-- Chime waveforms: address in secure DRAM and frames (R378). Bindings (R380). Settings of audio outputs (R381). -/
  waves     : Vector (Option (Nat × Nat)) 16
  binds     : List ChimeBind
  audio     : Vector (Option AudSettings) 32
  /-- Touch panels (R384), haptic channels and the words of HAP_PIN (R421). -/
  panels    : Vector (Option PanelPolicy) 4
  haptics   : Vector HapPolicy 8
  pins      : Vector Word 8
  /-- Check-value units whose parameters are locked, as a mask (R446, R447). -/
  chkLock   : Nat
  /-- CCN_CTL: BURST and REFILL (R461). -/
  ccnBurst  : Nat
  ccnRefill : Nat
  /-- Measurement sets acceptable for migration destinations and ring neighbours (R129, R343). -/
  migOk     : List (List (List Byte))
deriving DecidableEq, Repr

/-- The DRAM parts that a memory description names (R259). -/
inductive DramParts where | package | soldered8 | soldered16 | eccUdimm | eccSodimm | rdimm | stack3ds
deriving DecidableEq, Repr

/-- MEM_DESC: the memory description (R259, R290). -/
structure MemDesc where
  ddr5    : Bool
  rate    : Nat
  iecc    : Bool
  /-- Installed capacity in GiB. -/
  gib     : Nat
  /-- Ranks of each channel or subchannel. -/
  ranks   : Nat
  parts   : DramParts
deriving DecidableEq, Repr

/-- A Psikai container: its bytes (R290), and what its POLICY, MEM_DESC and ASSETS sections say, whose byte formats the manual does not give (log
entry 30). -/
structure Container where
  bytes   : List Byte
  policy  : Policy
  memDesc : MemDesc
  /-- ASSETS: bytes and their addresses in secure DRAM (R290, R302). -/
  assets  : List (Nat × List Byte)
deriving DecidableEq, Repr

end Sys2Proof.Machine
end

