-- ==== Sys2Proof/Parts/Head.lean ====
section
/-! DEFINITION. Parts/Head.lean: the state of the heads and of the Carder (R131-R205). -/
namespace Sys2Proof.Machine

/-- A timing set: HD_CTL, HTIM0, HTIM1, VTIM0, VTIM1, PLL0, PLL1, OUT, BOBBIN (R134). -/
structure Timing where
  ctl    : Nat
  htim0  : Nat
  htim1  : Nat
  vtim0  : Nat
  vtim1  : Nat
  pll0   : Nat
  pll1   : Nat
  out    : Nat
  bobbin : Nat
deriving DecidableEq, Repr

/-- A link configuration: rate code (R149) and lanes. -/
structure LinkCfg where
  rate  : Nat
  lanes : Nat
deriving DecidableEq, Repr

/-- A sink's capabilities as its DPCD reports them (R150). -/
structure SinkCaps where
  rates : List Nat
  lanes : Nat
  dsc   : Bool
deriving DecidableEq, Repr

/-- The timing generator of a head (R140, R141): off, in the steps of a mode change, or running. -/
inductive Gen where | off | changing | running
deriving DecidableEq, Repr

/-- The link of a head (R140, R141, R150-R152). -/
inductive Link where
  /-- The transmitter is idle: the head is OFF. -/
  | idle
  /-- No sink has been read yet: training waits for a plug (R141). -/
  | waiting
  /-- Unplugged, or plugged with AUTO_TRAIN = 0 and waiting for an ARM (R152). -/
  | noSink
  | training
  | trained
  /-- LINK_SHORT: the mode fits no output of the trained configuration, or no configuration trained. -/
  | short
deriving DecidableEq, Repr

/-- A layer of a head's active state (R157-R162). -/
structure ActiveLayer where
  handle : Nat
  ply    : Fin 64
  /-- The 128-byte state block and the coefficient block, as read at parse (R159). -/
  block  : List Byte
  coef   : List Byte
  /-- Bobbin granules held (R143). -/
  gran   : Nat
  /-- CMP credits taken for the frame in progress (R44, R162). -/
  cmp    : Nat
  /-- The take for the frame was refused: the Carder fetches nothing of it yet (R46). -/
  hold   : Bool
  /-- Granules of its bobbin under the armed timing set, where they differ (R139, R143). -/
  next   : Option Nat
  /-- Bytes held in its bobbin, and in the one on the odd head of a pair (R144, R145, R148). -/
  fill   : Vector Nat 2
  /-- Heads on which it has underrun in this frame, with active line and canvas column of the first missing pixel (R146). -/
  dry    : List (Nat × Nat × Nat)
  /-- Consecutive frames with an underrun (R26, R197). -/
  dryRun : Nat
deriving DecidableEq, Repr

/-- A LAYER of a commit group. -/
structure GroupLayer where
  order   : Nat
  handle  : Nat
  disable : Bool
  block   : List Byte
  coef    : List Byte
  /-- Granules of its pending bobbin; none where it keeps the one it has. -/
  gran    : Option Nat
deriving DecidableEq, Repr

/-- An armed commit group of a head (R191-R195). -/
structure Group where
  ply    : Fin 64
  ring   : Fin 4
  order  : Nat
  layers : List GroupLayer
  /-- Frame number when the COMMIT was accepted, and its maximum age (R194). -/
  facc   : Nat
  maxAge : Nat
  /-- Armed at or after the cut-off of the next boundary (R136). -/
  late   : Bool
deriving DecidableEq, Repr

/-- A tenancy's fallback plate (R197): shown; due at the next boundary, or at the one after (cause 3), with its cause code. -/
structure PlateState where
  shown   : Bool
  /-- Boundaries left until it appears, and the cause code. -/
  due     : Option (Nat × Nat)
  /-- CMP credits of the device taken for the frame (R196). -/
  cmp     : Nat
  /-- The take for the frame was refused (R46). -/
  hold    : Bool
  /-- Its surface is lost: the region shows the head background (R318). -/
  lost    : Bool
deriving DecidableEq, Repr

/-- A signature region (R198-R204). Its configuration lies in the registers. -/
structure Sig where
  /-- Expected values by frame number, at most 4. -/
  expect   : List (Nat × Nat)
  result   : DWord
  frame    : Nat
  isMatch  : Bool
  compared : Bool
  hold     : Bool
  outside  : Bool
deriving DecidableEq, Repr

/-- One head and its compositor. -/
structure Head where
  gen      : Gen
  timing   : Timing
  /-- The timing set that an accepted ARM left waiting; late: armed after the cut-off (R136, R139). -/
  armed    : Option Timing
  armLate  : Bool
  err      : Nat
  /-- Frame number (R135). -/
  frame    : DWord
  /-- The frame in progress is an idle frame (R140). -/
  idle     : Bool
  /-- The cut-off of the next boundary has passed (R136). -/
  cutoff   : Bool
  /-- The pixel PLL has locked since the last change (R140). -/
  relocked : Bool
  /-- Part of an active locked pair (R147). -/
  paired   : Bool
  /-- DEVTIME of the last boundary. -/
  since    : Nat
  link     : Link
  hpd      : Bool
  sink     : Option SinkCaps
  tries    : List LinkCfg
  cfg      : Option LinkCfg
  /-- HD_LINK (R134): TRAINED, depth code, DSC and compressed rate in force. -/
  trained  : Bool
  /-- TRAINED has been 1 for the whole frame in progress (R153). -/
  steady   : Bool
  effBpc   : Nat
  dscOn    : Bool
  dscBpp   : Nat
  underruns : Nat
  lastLayer : Nat
  /-- Tenancy set in force, and a TEN_APPLY waiting: set, order of its command, late. -/
  tenSet   : Nat
  tenWait  : Option (Nat × Nat × Bool)
  tens     : Vector Tenancy 16
  plates   : Vector PlateState 16
  layers   : List ActiveLayer
  /-- Armed groups in arming order; on an OFF head they are held. -/
  groups   : List Group
  sigs     : Vector Sig 4
deriving DecidableEq, Repr

/-- The Carder and the display pins (R153, R154, R167, R168). -/
structure Carder where
  heads   : Vector Head 8
  /-- LUT entries written, by (table x 2 + bank) x 1,024 + index; tables 0-3 degamma, 8-15 gamma. -/
  luts    : List (Nat × Nat)
  hbLevel : Bool
  fbHigh  : Bool
  fbLatched : Bool
  fbCount : Nat
deriving DecidableEq, Repr

end Sys2Proof.Machine
end

