-- ==== Sys2Proof/Parts/Mc.lean ====
section
/-! DEFINITION. Parts/Mc.lean: the memory controller (R259-R287). -/
namespace Sys2Proof.Machine

/-- What a unit charged to the device holder holds (R318). -/
inductive DeviceUnit where
  | retained
  /-- Owner, lend or translation tables: the plies whose entries lie in the unit and the granules it covers. -/
  | tables (plies : List (Fin 64)) (granules : List Nat)
  | asset
  | weevilOrJournal
  | other
deriving DecidableEq, Repr

/-- What the ECC decoder finds (R279-R281). -/
inductive EccOutcome where | clean | corrected | uncorrectable
deriving DecidableEq, Repr

/-- A transfer in a channel queue, or a read already issued (R265, R266). -/
structure McReq where
  id       : Nat
  port     : Fin 16
  eng      : Engine
  /-- The ply charged, or none for the device holder (R43). -/
  ply      : Option (Fin 64)
  addr     : Nat
  key      : Nat
  /-- Write data and its offset in the 64-byte unit; none for a read. -/
  write    : Option (Nat × List Byte)
  reserved : Bool
  /-- Head and layer served, for ports 0-3. -/
  head     : Option (Fin 8 × Fin 64)
  promoted : Bool
  /-- DEVTIME of acceptance. -/
  accepted : Nat
  /-- Data read, once issued. -/
  data     : List Byte
deriving DecidableEq, Repr

/-- Commands to the DRAM (R266, R269, R275). -/
inductive DramCmd where | rd | wr | refBank | refAll
deriving DecidableEq, Repr

/-- A bank of a channel (R268, R269). -/
structure Bank where
  row       : Option Nat
  /-- Row that the idle timer closed last. -/
  lastRow   : Option Nat
  timer     : Nat
  hits      : Nat
  conflicts : Nat
  lost      : Nat
  postponed : Nat
deriving DecidableEq, Repr

/-- A channel or subchannel. -/
structure Chan where
  queue    : List McReq
  issued   : List McReq
  banks    : Vector Bank 16
  light    : Bool
  /-- Refresh-rate code that MR4 of each rank's die reported last, and DDR5 fine-granularity mode (R269). -/
  refRate  : Vector Nat 2
  fine     : Bool
  /-- Drift exceeds 1/16 UI: update slices are due; a slice is running; the next slice is forced (R271). -/
  drift    : Bool
  slice    : Bool
  forced   : Bool
  /-- Retry buffer, oldest first: commands not yet known good with their addresses (R275). -/
  retry    : List (DramCmd × Nat)
  alert    : Bool
  replaying : Bool
  /-- The subchannel trains itself again after a parity fault (R276). -/
  training : Bool
deriving DecidableEq, Repr

/-- The memory controllers. -/
structure Mc where
  desc     : Option MemDesc
  trained  : Bool
  chans    : Vector Chan 16
  nextId   : Nat
  deep     : Bool
  /-- A top-up request is out (R273), and the heads that have acknowledged. -/
  topUp    : Bool
  acks     : List Nat
  /-- Units in which an uncorrectable error has been found and that nothing has written since (R281). -/
  bad      : List Nat
  /-- The metadata cache of each controller: 64-byte lines of check bytes by physical address, and whether changed, last used first (R279). -/
  checks   : Vector (List (Nat × Bool)) 8
  /-- Tolerance that each head reported last, in ns (R144). -/
  tol      : Vector Nat 8
  forcedN  : Nat
  ce       : Nat
  ue       : Nat
  faults   : Nat
  replays  : Nat
  segDrop  : Nat
  bankDrop : Nat
  pSegDrop : Nat
  pBankDrop : Nat
deriving DecidableEq, Repr

end Sys2Proof.Machine
end

