-- ==== Sys2Proof/Parts/Port.lean ====
section
/-! DEFINITION. Parts/Port.lean: the state of one host port (R321-R340), its event log (R105), mailbox (R294), and what leaves the device. -/
namespace Sys2Proof.Machine

/-- What leaves the device: the model's record of its outputs, newest first (log entry 4). -/
inductive Out where
  /-- A posted write to host memory at an I/O virtual address under a PASID; PASID 0 carries none. `ats` says that it goes out translated, as it does
  while ATS is on (R326). -/
  | hostWrite (port : Fin 4) (ats : Bool) (pasid addr : Nat) (bytes : List Byte)
  /-- A read request to host memory. -/
  | hostRead (port : Fin 4) (ats : Bool) (pasid addr len : Nat)
  /-- An MSI-X message: the table entry's address and data (R103, R104). -/
  | msix (port : Fin 4) (vector : Nat) (addr : DWord) (data : Word)
  /-- The value a register read with a row of its own returned. -/
  | regValue (port : Fin 4) (offset : Nat) (value : Word)
  /-- The answer to a configuration request; none is Request Retry Status (R329). -/
  | cfgReply (port : Fin 4) (value : Option Word)
  /-- A PCIe message or completion of a named kind. -/
  | pcieMsg (port : Fin 4) (kind : String) (value : Nat)
  /-- A DOE object: an SPDM or IDE_KM response (R309, R311). -/
  | doe (port : Fin 4) (bytes : List Byte)
  /-- A message on a Whorl ring port (0 east, 1 west). -/
  | whorl (ring : Fin 2) (kind : String) (value : Nat)
  /-- A remote-layer frame on a Whorl ring port: channel, value, bytes (R357). -/
  | whorlFrame (ring : Fin 2) (chan : Nat) (value : DWord) (bytes : List Byte)
  /-- A message on a DP AUX or main link of a head. -/
  | link (head : Fin 8) (kind : String) (value : Nat)
  /-- A command to a DRAM channel. -/
  | dramCmd (chan : Nat) (kind : String) (addr : Nat)
  /-- One block of samples leaving a TDM port: frames of slot values (R372). -/
  | tdm (tdmPort : Fin 4) (frames : List (List Int))
  /-- The drive codes of the haptic channels after a control tick (R408). -/
  | haptic (codes : List Int)
  /-- A frame record of a head at its boundary: frame number and the pixels' check value results (R200). -/
  | frame (head : Fin 8) (number : Nat)
deriving DecidableEq, Repr

/-- One answer of Elytra waiting to be written (R296). -/
structure MbxResponse where
  /-- Order in which the command was taken. -/
  order  : Nat
  cmd    : Nat
  irq    : Bool
  tag    : Nat
  status : Nat
  result : List Byte
deriving DecidableEq, Repr

/-- A mailbox (R294-R296). -/
structure Mailbox where
  /-- MBX_REQ: 8 slots of 64 bytes, by word index 0-127; an unlisted word is 0. -/
  req     : List (Nat × Word)
  rsp     : List (Nat × Word)
  reqProd : Nat
  reqCons : Nat
  rspProd : Nat
  rspCons : Nat
  dropped : Nat
  /-- Indices taken over by the 8-request limit: answered by nothing (R296). -/
  skipped : List Nat
  /-- Finished responses not yet written, in order of finishing. -/
  ready   : List MbxResponse
deriving DecidableEq, Repr

/-- One SPDM session (R309). -/
structure SpdmSession where
  id       : Nat
  /-- KEY_EXCHANGE done, FINISH not yet. -/
  opening  : Bool
  keyGen   : Nat
deriving DecidableEq, Repr

/-- SPDM responder of a port (R309): connection state 0 start, 1 version, 2 capabilities, 3 negotiated. -/
structure Spdm where
  phase    : Nat
  sessions : List SpdmSession
deriving DecidableEq, Repr

/-- A translation-cache entry (R326, R327). -/
structure AtcEntry where
  pasid : Nat
  page  : Nat
deriving DecidableEq, Repr

/-- An ATS invalidation that waits for the requests issued under the removed entries (R327): outstanding reads and polls. -/
structure Inval where
  pasid : Nat
  first : Nat
  pages : Nat
  reads : List HostRead
  polls : List (Fin 64)
deriving DecidableEq, Repr

/-- The DOE mailbox of a port (R326): the object being written, the words of a response still to be read, and its error bit. -/
structure Doe where
  inbox  : List Word
  outbox : List Word
  error  : Bool
deriving DecidableEq, Repr

/-- One host port. -/
structure Port where
  /-- Level of PERST_N: asserted. -/
  perst     : Bool
  /-- The data link layer is in DL_Active. -/
  linkUp    : Bool
  speed     : Nat
  width     : Nat
  /-- The link is in L1 (R334). -/
  inL1      : Bool
  linkDowns : Nat
  /-- A link-down has been recognised and the link has not returned to DL_Active (R335). -/
  down      : Bool
  /-- Configuration registers written by the host, by dword offset (R328). -/
  cfg       : List (Nat × Word)
  /-- Port set-up registers, by offset (R330). -/
  regs      : List (Nat × Word)
  /-- High words latched by a read of a low word, by offset of the high word (R52, R134, R204, R461). -/
  latch     : List (Nat × Word)
  evtLog    : List (List Byte)
  evtLost   : Nat
  msix      : List (Nat × Word)
  pba       : List Nat
  /-- Host writes and messages held in D3hot or with Bus Master Enable clear, oldest first (R333). -/
  held      : List Out
  ltrLast   : Nat
  ptmSeq    : Word
  ptmDev    : DWord
  ptmHost   : DWord
  /-- A PTM exchange in progress: DEVTIME at which its request left (R332). -/
  ptmT1     : Option Nat
  atc       : List AtcEntry
  /-- Invalidations waiting for requests, oldest first. -/
  inval     : List Inval
  mbx       : Mailbox
  spdm      : Spdm
  doe       : Doe
  /-- IDE keys by stream: 0 link, 1 and 2 selective: key generation, 0 none (R311, R326). -/
  ide       : Vector Nat 3
deriving DecidableEq, Repr

end Sys2Proof.Machine
end

