-- ==== Sys2Proof/Parts/Power.lean ====
section
/-! DEFINITION. Parts/Power.lean: clocks, power islands and states, monitors and resets (R422-R441), and the pins of the always-on island. -/
namespace Sys2Proof.Machine

/-- Power state of the device (R3, R432, R440). -/
inductive PowerState where
  | run
  | dim
  /-- PWR_STATE WATCH has swapped in: heads are off, and the power-down sequence runs (R440). -/
  | leaving
  | watch
deriving DecidableEq, Repr

/-- A power island (R431). Usable and power-good are one here: the 10 microseconds between them are timing. `saving` is a cluster island whose
power-off has swapped in: it goes down once its clusters' work is saved (R230). -/
inductive Island where | off | waiting | ramping | good | saving
deriving DecidableEq, Repr

/-- A frequency counter (R430, R441). -/
structure Fcnt where
  start : Bool
  done  : Bool
  sat   : Bool
  gate  : Nat
  ref   : Nat
  meas  : Nat
  count : Nat
deriving DecidableEq, Repr

/-- A temperature sensor (R434): reading in 1/16 degree, and whether TEMP_WARN may rise again. -/
structure Sensor where
  valid : Bool
  temp  : Int
  armed : Bool
deriving DecidableEq, Repr

/-- Clocks, islands, monitors and resets. -/
structure Power where
  state     : PowerState
  islands   : Vector Island 32
  /-- Ramp-ups waiting for inrush tokens, in order (R432). -/
  waits     : List (Fin 32)
  /-- Accepted island changes that swap in at the next epoch boundary: island and on, in command order; at most one per island. -/
  pending   : List (Fin 32 × Bool)
  /-- Accepted PWR_STATE that swaps in at the next boundary. -/
  pendState : Option PowerState
  /-- WATCH was commanded with MOULT. -/
  moult     : Bool
  /-- VDDG and VDDC points in force, and accepted ones. -/
  vg        : Nat
  vc        : Nat
  pendVg    : Option Nat
  pendVc    : Option Nat
  /-- A PWR_RESET has been answered: the warm device reset follows 1 ms later. -/
  resetDue  : Bool
  /-- The device is held in reset: PWRON_RST_N is low, or VAON has not been applied (R437, R438). -/
  held      : Bool
  /-- VAON lies above the reset threshold; a warning is in progress. -/
  vaonOk    : Bool
  vaonWarn  : Bool
  vaonNow   : Nat
  dipMin    : Nat
  dipCycles : Nat
  sensors   : Vector Sensor 8
  /-- THERMTRIP_N is driven low; PWR_RESET_CAUSE.THERMTRIP. -/
  tripped   : Bool
  tripSeen  : Bool
  lastCause : Nat
  fcnt      : Vector Fcnt 4
  /-- The manager's port number held in the always-on island, port 0 if no policy has ever run (R439). -/
  watchPort : Fin 4
  /-- WAKE_N is driven low (R334). -/
  wakeN     : Bool
  /-- The bifurcation strap as sampled: FLS_IO[1:0] (R321). -/
  strap     : Fin 4
  /-- VDDG is up when the board applies its supplies (R439, R450). -/
  vddg      : Bool
deriving DecidableEq, Repr

/-- What the board shows at a release of reset (R292, R321, R439): the strap, whether flash is fitted, whether VDDG is up, and the units that fail
the start-up test if it runs (bit u is unit u). -/
structure BootIn where
  strap : Fin 4
  flash : Bool
  vddg  : Bool
  fails : Nat
deriving DecidableEq, Repr

end Sys2Proof.Machine
end

