-- ==== Sys2Proof/Parts/Whorl.lean ====
section
/-! DEFINITION. Parts/Whorl.lean: the state of the Whorl ring: ports, membership, time, channels (R341-R363), and what other members say. -/
namespace Sys2Proof.Machine

/-- WHL_STATUS.STATE (R363). -/
inductive WhlState | off | loop | linking | joined | leaving | down
deriving DecidableEq, Repr

/-- A ring port, 0 east and 1 west (R341, R345, R363). -/
structure WhlPort where
  state   : WhlState
  /-- WHL_STATUS.RATE: 0 none, 1 4, 2 8, 3 16 Gbit/s per lane. -/
  rate    : Nat
  /-- Level of the bypass pin. -/
  pin     : Bool
  /-- Ring ID of the far end, where valid. -/
  nb      : Option Nat
  drops   : Nat
  repairs : Nat
  /-- One-way link delay in ns (R352). -/
  delay   : Nat
  /-- Key generations of the link, and of the standby link to the member two hops away; 0 none (R308, R343). -/
  key     : Nat
  standby : Nat
deriving DecidableEq, Repr

/-- One end of a remote-layer channel (R356-R358). -/
structure Channel where
  id     : Nat
  sender : Bool
  ply    : Fin 64
  port   : Fin 2
  peer   : Nat
  /-- ARGB8888: 32 bits per pixel on the ring; else XRGB8888, 24 bits. -/
  argb   : Bool
  w      : Nat
  h      : Nat
  stride : Nat
  bufs   : Vector Nat 2
  /-- SRC and DONE of a sender; DST of a receiver. -/
  fence  : Nat
  done   : Nat
  /-- RATE in units of 0.1 Gbit/s. -/
  rate   : Nat
  /-- The value last sent, and the one whose frame is being sent or received, with the rows of it that are done and, of a sender, their bytes. -/
  last   : DWord
  busy   : Option DWord
  row    : Nat
  got    : List Byte
deriving DecidableEq, Repr

/-- The ring as this device sees it. -/
structure Whorl where
  ports    : Vector WhlPort 2
  member   : Bool
  ringId   : Nat
  masterId : Nat
  closed   : Bool
  timed    : Bool
  /-- Ring IDs of the members reachable through each port, nearest first (R349, R351). -/
  reach    : Vector (List Nat) 2
  /-- Offset from the master by the last time mark, and the last measured one. -/
  mark     : Int
  offset   : Int
  /-- Ring time to be adopted (R352). -/
  adopt    : Option Nat
  /-- A WHL_LOOP_TEST waiting for its probe: order of the command and port (R362). -/
  probe    : Option (Nat × Fin 2)
  chans    : List Channel
  /-- Heads whose active FOLLOW bit is 1, and heads that are locked (R355). -/
  follow   : Vector Bool 8
  locked   : Vector Bool 8
  /-- Heads that dropped frame lock with the time; they lock again after the next adoption (R351). -/
  relock   : Vector Bool 8
deriving DecidableEq, Repr

/-- How a JOIN goes on the ring: rate code to which each named port trained with its neighbour, whether every SPDM exchange succeeded, the
measurements that the members revealed (R343), whether a member already holds the ring ID, the members reachable through each port, whether the ring is
closed, the highest DEVTIME of any member (R348, R352). -/
structure JoinOutcome where
  rates    : Vector (Option Nat) 2
  attested : Bool
  measures : List (List (List Byte))
  taken    : Bool
  reach    : Vector (List Nat) 2
  closed   : Bool
  maxTime  : Nat
deriving DecidableEq, Repr

/-- A membership message of another member (R349, R350): the members as they then are. A join also says at which rate code each port has trained with
the joining device, where that is its new neighbour. -/
inductive WhlMsg where
  | join (id : Nat) (rates : Vector (Option Nat) 2) (reach : Vector (List Nat) 2) (closed : Bool) (maxTime : Nat)
  | leave (id : Nat) (reach : Vector (List Nat) 2) (closed : Bool)
deriving DecidableEq, Repr

end Sys2Proof.Machine
end

