-- ==== Sys2Proof/Syntax.lean ====
section
/-! DEFINITION. Syntax.lean: the commands of the block: one constructor per row of spec/opcode_table.json, in the table's order. An operand is what the
command's sender supplies and the device cannot know by itself: register values, host data read, pin levels, measurements, verdicts of cryptographic tests. -/
namespace Sys2Proof
open Sys2Proof.Machine

/-- A port's read of a register pair whose LO word latches the HI word until that is read (R52, R134, R204, R461): `hi` is the read of the HI word. -/
structure PairRead where
  port : Fin 4
  hi : Bool
  deriving DecidableEq, Repr

/-- What the host refused (R121): the kind of access and, for a write, the engine that made it. -/
structure RefusedAccess where
  write : Bool
  eng : Engine
  deriving DecidableEq, Repr

/-- Who offers a transfer to the memory controller: a port and the engine behind it (R263, R264). -/
structure MemClient where
  port : Fin 16
  eng : Engine
  deriving DecidableEq, Repr

/-- One step of a relay (R129): the peer's message, none where no read has brought it yet, and the message for the peer. -/
structure Relay where
  input : Option (List Byte)
  reply : List Byte
  deriving DecidableEq, Repr

/-- A part of a certificate chain that a requester asks for (R309). -/
structure ChainPart where
  off : Nat
  len : Nat
  deriving DecidableEq, Repr

/-- A command. `q` is a host port, `p` a ply, `r` a submission ring, `h` a head, `order` the order in which Elytra took a mailbox command, `o` the order of
acceptance of a job's descriptor, `c` and `w` a shader cluster and a wave's number. -/
inductive Instr where
  /-- REGISTER_WRITE (R18). -/
  | registerWrite (q : Fin 4) (bar2 : Bool) (off : Nat) (value : Word)
  /-- CONFIG_REQUEST (R329). -/
  | configRequest (q : Fin 4) (off : Nat) (write : Option Word)
  /-- EPOCH_BOUNDARY (R50). -/
  | epochBoundary (io : AudioIn)
  /-- SKN_AUDIT_RELEASE (R52). -/
  | sknAuditRelease (q : Fin 4)
  /-- SKN_AUDIT_EPOCH_LO_READ (R52). -/
  | sknAuditEpochLoRead (q : PairRead)
  /-- CREDIT_WAIT_RETRY (R46). -/
  | creditWaitRetry (i : Nat)
  /-- HAP_RECHARGE (R44). -/
  | hapRecharge
  /-- HOST_READ_COMPLETION (R44). -/
  | hostReadCompletion (i : Nat)
  /-- HTAG_COMPLETION_TIMEOUT (R44). -/
  | htagCompletionTimeout (i : Nat) (poll : Option (Fin 64))
  /-- IOMMU_REFUSAL (R66). -/
  | iommuRefusal (p : Fin 64) (addr : Nat) (access : RefusedAccess) (read : Option Nat)
  /-- NUDGE_SQ (R75). -/
  | nudgeSq (q : Fin 4) (p : Fin 64) (mask : Fin 16)
  /-- NUDGE_CQ (R78). -/
  | nudgeCq (q : Fin 4) (p : Fin 64)
  /-- RING_ENABLE (R73). -/
  | ringEnable (q : Fin 4) (p : Fin 64) (ring : Fin 5) (value : Word)
  /-- RING_DISABLE (R74). -/
  | ringDisable (q : Fin 4) (p : Fin 64) (r : Fin 4)
  /-- CQ_DISABLE (R74). -/
  | cqDisable (q : Fin 4) (p : Fin 64)
  /-- FENCE_VAL_LO_WRITE (R94). -/
  | fenceValLoWrite (q : Fin 4) (p : Fin 64) (value : Word)
  /-- FENCE_VAL_HI_WRITE (R72). -/
  | fenceValHiWrite (q : Fin 4) (p : Fin 64) (value : Word)
  /-- FENCE_VAL_LO_READ (R72). -/
  | fenceValLoRead (q : Fin 4) (p : Fin 64)
  /-- RING_SERVICE_RESUME (R75). -/
  | ringServiceResume (p : Fin 64) (r : Fin 4)
  /-- DOORBELL_RECORD_READ_DONE (R76). -/
  | doorbellRecordReadDone (p : Fin 64) (r : Fin 4) (prod : Word)
  /-- SLOT_READ_DONE (R76). -/
  | slotReadDone (p : Fin 64) (r : Fin 4) (slots : List (List Byte))
  /-- POLL_TIMER (R79). -/
  | pollTimer (p : Fin 64)
  /-- POLL_READS_DONE (R82). -/
  | pollReadsDone (p : Fin 64) (block : List Byte) (slots : Vector (List (List Byte)) 4)
  /-- DESCRIPTOR_PARSE (R86). -/
  | descriptorParse (p : Fin 64) (r : Fin 4)
  /-- CQ_CONS_READ_DONE (R78). -/
  | cqConsReadDone (p : Fin 64) (cons : Word)
  /-- FENCE_WAIT_TIMEOUT (R86). -/
  | fenceWaitTimeout (p : Fin 64) (r : Fin 4)
  /-- DESCRIPTOR_RETIRE (R87). -/
  | descriptorRetire (p : Fin 64) (r : Fin 4) (seq : Word)
  /-- PORT_EVT_DATA7_READ (R105). -/
  | portEvtData7Read (q : Fin 4)
  /-- PORT_EVT_STATUS_READ (R105). -/
  | portEvtStatusRead (q : Fin 4)
  /-- NOP (R89). -/
  | nop (p : Fin 64) (r : Fin 4)
  /-- FENCE_WAIT (R86). -/
  | fenceWait (p : Fin 64) (r : Fin 4)
  /-- FENCE_SIGNAL (R91). -/
  | fenceSignal (p : Fin 64) (r : Fin 4)
  /-- COPY (R89). -/
  | copy (p : Fin 64) (r : Fin 4) (seq : Word) (n : Nat) (host : List Byte)
  /-- FILL (R89). -/
  | fill (p : Fin 64) (r : Fin 4) (seq : Word) (n : Nat)
  /-- CHECK (R444). -/
  | check (p : Fin 64) (r : Fin 4) (seq : Word) (n : Nat) (host : List Byte)
  /-- COMMIT (R191). -/
  | commit (p : Fin 64) (r : Fin 4)
  /-- LAYER (R161). -/
  | layer (p : Fin 64) (r : Fin 4)
  /-- SIG_EXPECT (R202). -/
  | sigExpect (p : Fin 64) (r : Fin 4) (missed : Bool)
  /-- GFX_SUBMIT (R206). -/
  | gfxSubmit (p : Fin 64) (r : Fin 4)
  /-- COMPUTE_SUBMIT (R207). -/
  | computeSubmit (p : Fin 64) (r : Fin 4)
  /-- AUD_OPEN (R368). -/
  | audOpen (p : Fin 64) (r : Fin 4)
  /-- AUD_CLOSE (R370). -/
  | audClose (p : Fin 64) (r : Fin 4)
  /-- AUD_BUFFER (R369). -/
  | audBuffer (p : Fin 64) (r : Fin 4)
  /-- CHIME (R377). -/
  | chime (p : Fin 64) (r : Fin 4)
  /-- CHIME_STOP (R378). -/
  | chimeStop (p : Fin 64) (r : Fin 4)
  /-- HAP_PLAY (R411). -/
  | hapPlay (p : Fin 64) (r : Fin 4)
  /-- HAP_LOAD (R410). -/
  | hapLoad (p : Fin 64) (r : Fin 4)
  /-- TCH_CONFIG (R387). -/
  | tchConfig (p : Fin 64) (r : Fin 4)
  /-- MAP (R90). -/
  | mapPages (p : Fin 64) (r : Fin 4)
  /-- UNMAP (R90). -/
  | unmapPages (p : Fin 64) (r : Fin 4)
  /-- PLY_CREATE (R110). -/
  | plyCreate (order : Nat) (block : Option (List Byte))
  /-- PLY_SHARE (R113). -/
  | plyShare (order : Nat)
  /-- PLY_QUIESCE (R114). -/
  | plyQuiesce (order : Nat)
  /-- PLY_RESUME (R119). -/
  | plyResume (order : Nat)
  /-- PLY_RESET (R123). -/
  | plyReset (order : Nat)
  /-- PLY_DESTROY (R124). -/
  | plyDestroy (order : Nat)
  /-- PLY_QUERY (R111). -/
  | plyQuery (order : Nat)
  /-- PLY_QUIESCED (R117). -/
  | plyQuiesced (p : Fin 64)
  /-- COPY_STOP (R115). -/
  | copyStop (p : Fin 64) (r : Fin 4) (seq : Word) (host : List Byte)
  /-- MIG_SESSION (R129). -/
  | migSession (order : Nat) (relay : Relay) (measures : Option (List (List Byte))) (agreed : Bool)
  /-- MIG_LOG_START (R125). -/
  | migLogStart (order : Nat) (block : Option (List Byte))
  /-- MIG_LOG_SWAP (R126). -/
  | migLogSwap (order : Nat)
  /-- MIG_LOG_STOP (R126). -/
  | migLogStop (order : Nat)
  /-- MIG_EXPORT (R127). `salt` is the part of the records' nonce that the manual leaves open (log entry 118). -/
  | migExport (order salt : Nat)
  /-- MIG_IMPORT (R130). -/
  | migImport (order : Nat) (records : Option (List MigRecord))
  /-- TIMING_ARM (R139). -/
  | timingArm (q : Fin 4) (h : Fin 8)
  /-- HD_FRAME_LO_READ (R134). -/
  | hdFrameLoRead (q : PairRead) (h : Fin 8)
  /-- ARMING_CUTOFF (R136). -/
  | armingCutoff (h : Fin 8)
  /-- FRAME_BOUNDARY (R138). -/
  | frameBoundary (h : Fin 8) (ref : Option Int)
  /-- COMMIT_ARM (R192). -/
  | commitArm (p : Fin 64) (r : Fin 4)
  /-- PLL_LOCK (R140). -/
  | pllLock (h : Fin 8)
  /-- IDLE_FRAME_END (R140). -/
  | idleFrameEnd (h : Fin 8) (same : Bool)
  /-- LINK_TRAIN_START (R150). -/
  | linkTrainStart (h : Fin 8) (caps : SinkCaps)
  /-- TRAIN_ATTEMPT_DONE (R150). -/
  | trainAttemptDone (h : Fin 8) (ok : Bool)
  /-- TRAIN_ATTEMPT_TIMEOUT (R150). -/
  | trainAttemptTimeout (h : Fin 8)
  /-- DP_HOTPLUG_PLUG (R152). -/
  | dpHotplugPlug (h : Fin 8)
  /-- DP_HOTPLUG_UNPLUG (R152). -/
  | dpHotplugUnplug (h : Fin 8)
  /-- DP_HOTPLUG_IRQ (R152). -/
  | dpHotplugIrq (h : Fin 8) (lostLock : Bool)
  /-- HEAD_TOL_REPORT (R144). -/
  | headTolReport (h : Fin 8) (held : List (Nat × Nat))
  /-- HEAD_TOPUP_ACK (R145). -/
  | headTopupAck (h : Fin 8)
  /-- UNDERRUN (R146). -/
  | underrun (h : Fin 8) (handle : Fin 64) (line col : Nat)
  /-- FBSEL_RELEASE (R154). -/
  | fbselRelease (q : Fin 4)
  /-- CMP_LUT_DATA_WRITE (R168). -/
  | cmpLutDataWrite (q : Fin 4) (value : Word)
  /-- CMP_LUT_DATA_READ (R168). -/
  | cmpLutDataRead (q : Fin 4)
  /-- TEN_APPLY (R182). -/
  | tenApply (order : Nat)
  /-- SIG_HOLD_CLEAR (R203). -/
  | sigHoldClear (q : Fin 4) (h : Fin 8) (r : Fin 4)
  /-- SIG_RESULT_LO_READ (R204). -/
  | sigResultLoRead (q : PairRead) (h : Fin 8) (r : Fin 4)
  /-- CLUSTER_OFFER (R226). -/
  | clusterOffer (c : Fin 16)
  /-- CLASS_A_PREEMPT (R227). -/
  | classAPreempt (p : Fin 64) (r : Fin 4) (seq : Word)
  /-- PREEMPT_SAVE_DONE (R229). -/
  | preemptSaveDone (c : Fin 16)
  /-- GFX_JOB_RETIRE (R208). -/
  | gfxJobRetire (p : Fin 64) (r : Fin 4) (seq : Word)
  /-- GFX_DEADLINE_MISS (R231). -/
  | gfxDeadlineMiss (p : Fin 64) (r : Fin 4) (seq : Word)
  /-- PKT_NOP (R210). -/
  | pktNop (o : Nat)
  /-- CALL (R210). -/
  | call (o : Nat)
  /-- PKT_END (R210). -/
  | pktEnd (o : Nat)
  /-- SAVE_AREA (R210). -/
  | saveArea (o : Nat)
  /-- SHADER (R210). -/
  | shader (o : Nat)
  /-- RESOURCES (R210). -/
  | resources (o : Nat)
  /-- CONST (R210). -/
  | constPkt (o : Nat)
  /-- TARGET (R210). -/
  | target (o : Nat)
  /-- RASTER (R210). -/
  | raster (o : Nat)
  /-- BLEND (R213). -/
  | blend (o : Nat)
  /-- DRAW (R212). -/
  | draw (o pages : Nat) (quads : List (List FragQuad))
  /-- DRAW_INDEXED (R212). -/
  | drawIndexed (o pages : Nat) (quads : List (List FragQuad))
  /-- DRAW_INDIRECT (R210). -/
  | drawIndirect (o pages : Nat) (quads : List (List FragQuad))
  /-- DISPATCH (R239). -/
  | dispatch (o : Nat)
  /-- DISPATCH_INDIRECT (R210). -/
  | dispatchIndirect (o : Nat)
  /-- PKT_BARRIER (R210). -/
  | pktBarrier (o : Nat)
  /-- PKT_SIGNAL (R210). -/
  | pktSignal (o : Nat)
  /-- TIMESTAMP (R210). -/
  | timestamp (o : Nat)
  /-- PASS_BEGIN (R210). -/
  | passBegin (o : Nat)
  /-- PASS_END (R217). -/
  | passEnd (o : Nat)
  /-- MOV_B32 (R247). -/
  | movB32 (c : Fin 16) (w : Nat)
  /-- ADD_I32 (R247). -/
  | addI32 (c : Fin 16) (w : Nat)
  /-- SUB_I32 (R247). -/
  | subI32 (c : Fin 16) (w : Nat)
  /-- MUL_LO_U32 (R247). -/
  | mulLoU32 (c : Fin 16) (w : Nat)
  /-- MUL_HI_U32 (R247). -/
  | mulHiU32 (c : Fin 16) (w : Nat)
  /-- MUL_HI_I32 (R247). -/
  | mulHiI32 (c : Fin 16) (w : Nat)
  /-- MAD_U32 (R247). -/
  | madU32 (c : Fin 16) (w : Nat)
  /-- MIN_I32 (R247). -/
  | minI32 (c : Fin 16) (w : Nat)
  /-- MAX_I32 (R247). -/
  | maxI32 (c : Fin 16) (w : Nat)
  /-- MIN_U32 (R247). -/
  | minU32 (c : Fin 16) (w : Nat)
  /-- MAX_U32 (R247). -/
  | maxU32 (c : Fin 16) (w : Nat)
  /-- AND (R247). -/
  | andIns (c : Fin 16) (w : Nat)
  /-- OR (R247). -/
  | orIns (c : Fin 16) (w : Nat)
  /-- XOR (R247). -/
  | xor (c : Fin 16) (w : Nat)
  /-- NOT (R247). -/
  | notIns (c : Fin 16) (w : Nat)
  /-- SHL (R247). -/
  | shl (c : Fin 16) (w : Nat)
  /-- SHR_U (R247). -/
  | shrU (c : Fin 16) (w : Nat)
  /-- SHR_I (R247). -/
  | shrI (c : Fin 16) (w : Nat)
  /-- FIELD_U32 (R247). -/
  | fieldU32 (c : Fin 16) (w : Nat)
  /-- FIELD_I32 (R247). -/
  | fieldI32 (c : Fin 16) (w : Nat)
  /-- MERGE (R247). -/
  | merge (c : Fin 16) (w : Nat)
  /-- POPC (R247). -/
  | popc (c : Fin 16) (w : Nat)
  /-- LOWBIT (R247). -/
  | lowbit (c : Fin 16) (w : Nat)
  /-- HIGHBIT (R247). -/
  | highbit (c : Fin 16) (w : Nat)
  /-- SEL (R247). -/
  | sel (c : Fin 16) (w : Nat)
  /-- LANE_GET (R247). -/
  | laneGet (c : Fin 16) (w : Nat)
  /-- LANE_LOW (R247). -/
  | laneLow (c : Fin 16) (w : Nat)
  /-- ADD_F32 (R247). -/
  | addF32 (c : Fin 16) (w : Nat)
  /-- SUB_F32 (R247). -/
  | subF32 (c : Fin 16) (w : Nat)
  /-- MUL_F32 (R247). -/
  | mulF32 (c : Fin 16) (w : Nat)
  /-- FMA_F32 (R247). -/
  | fmaF32 (c : Fin 16) (w : Nat)
  /-- MIN_F32 (R247). -/
  | minF32 (c : Fin 16) (w : Nat)
  /-- MAX_F32 (R247). -/
  | maxF32 (c : Fin 16) (w : Nat)
  /-- FRACT_F32 (R247). -/
  | fractF32 (c : Fin 16) (w : Nat)
  /-- FLOOR (R247). -/
  | floor (c : Fin 16) (w : Nat)
  /-- CEIL (R247). -/
  | ceil (c : Fin 16) (w : Nat)
  /-- TRUNC (R247). -/
  | trunc (c : Fin 16) (w : Nat)
  /-- ROUND (R247). -/
  | round (c : Fin 16) (w : Nat)
  /-- H2_ADD (R247). -/
  | h2Add (c : Fin 16) (w : Nat)
  /-- H2_MUL (R247). -/
  | h2Mul (c : Fin 16) (w : Nat)
  /-- H2_FMA (R247). -/
  | h2Fma (c : Fin 16) (w : Nat)
  /-- H2_MIN (R247). -/
  | h2Min (c : Fin 16) (w : Nat)
  /-- H2_MAX (R247). -/
  | h2Max (c : Fin 16) (w : Nat)
  /-- DOTH_F32 (R247). -/
  | dothF32 (c : Fin 16) (w : Nat)
  /-- RECIP_F32 (R247). -/
  | recipF32 (c : Fin 16) (w : Nat)
  /-- RSQRT_F32 (R247). -/
  | rsqrtF32 (c : Fin 16) (w : Nat)
  /-- SQRT_F32 (R247). -/
  | sqrtF32 (c : Fin 16) (w : Nat)
  /-- EXP2_F32 (R247). -/
  | exp2F32 (c : Fin 16) (w : Nat)
  /-- LOG2_F32 (R247). -/
  | log2F32 (c : Fin 16) (w : Nat)
  /-- SINTURN_F32 (R247). -/
  | sinturnF32 (c : Fin 16) (w : Nat)
  /-- COSTURN_F32 (R247). -/
  | costurnF32 (c : Fin 16) (w : Nat)
  /-- CVT_F32_I32 (R247). -/
  | cvtF32I32 (c : Fin 16) (w : Nat)
  /-- CVT_F32_U32 (R247). -/
  | cvtF32U32 (c : Fin 16) (w : Nat)
  /-- CVT_I32_F32 (R247). -/
  | cvtI32F32 (c : Fin 16) (w : Nat)
  /-- CVT_U32_F32 (R247). -/
  | cvtU32F32 (c : Fin 16) (w : Nat)
  /-- CVT_F32_F16_LO (R247). -/
  | cvtF32F16Lo (c : Fin 16) (w : Nat)
  /-- CVT_F32_F16_HI (R247). -/
  | cvtF32F16Hi (c : Fin 16) (w : Nat)
  /-- CVT_H2_F32 (R247). -/
  | cvtH2F32 (c : Fin 16) (w : Nat)
  /-- CVT_UNORM8 (R247). -/
  | cvtUnorm8 (c : Fin 16) (w : Nat)
  /-- UNPACK_UNORM8 (R247). -/
  | unpackUnorm8 (c : Fin 16) (w : Nat)
  /-- CVT_UNORM16 (R247). -/
  | cvtUnorm16 (c : Fin 16) (w : Nat)
  /-- CMP_LT_F32 (R247). -/
  | cmpLtF32 (c : Fin 16) (w : Nat)
  /-- CMP_EQ_F32 (R247). -/
  | cmpEqF32 (c : Fin 16) (w : Nat)
  /-- CMP_LE_F32 (R247). -/
  | cmpLeF32 (c : Fin 16) (w : Nat)
  /-- CMP_GT_F32 (R247). -/
  | cmpGtF32 (c : Fin 16) (w : Nat)
  /-- CMP_NE_F32 (R247). -/
  | cmpNeF32 (c : Fin 16) (w : Nat)
  /-- CMP_GE_F32 (R247). -/
  | cmpGeF32 (c : Fin 16) (w : Nat)
  /-- CMP_LT_I32 (R247). -/
  | cmpLtI32 (c : Fin 16) (w : Nat)
  /-- CMP_EQ_I32 (R247). -/
  | cmpEqI32 (c : Fin 16) (w : Nat)
  /-- CMP_LE_I32 (R247). -/
  | cmpLeI32 (c : Fin 16) (w : Nat)
  /-- CMP_GT_I32 (R247). -/
  | cmpGtI32 (c : Fin 16) (w : Nat)
  /-- CMP_NE_I32 (R247). -/
  | cmpNeI32 (c : Fin 16) (w : Nat)
  /-- CMP_GE_I32 (R247). -/
  | cmpGeI32 (c : Fin 16) (w : Nat)
  /-- CMP_LT_U32 (R247). -/
  | cmpLtU32 (c : Fin 16) (w : Nat)
  /-- CMP_EQ_U32 (R247). -/
  | cmpEqU32 (c : Fin 16) (w : Nat)
  /-- CMP_LE_U32 (R247). -/
  | cmpLeU32 (c : Fin 16) (w : Nat)
  /-- CMP_GT_U32 (R247). -/
  | cmpGtU32 (c : Fin 16) (w : Nat)
  /-- CMP_NE_U32 (R247). -/
  | cmpNeU32 (c : Fin 16) (w : Nat)
  /-- CMP_GE_U32 (R247). -/
  | cmpGeU32 (c : Fin 16) (w : Nat)
  /-- INTERP_F32 (R247). -/
  | interpF32 (c : Fin 16) (w : Nat)
  /-- S_MOV (R247). -/
  | sMov (c : Fin 16) (w : Nat)
  /-- S_MOVI (R247). -/
  | sMovi (c : Fin 16) (w : Nat)
  /-- S_ADD (R247). -/
  | sAdd (c : Fin 16) (w : Nat)
  /-- S_SUB (R247). -/
  | sSub (c : Fin 16) (w : Nat)
  /-- S_MUL_LO (R247). -/
  | sMulLo (c : Fin 16) (w : Nat)
  /-- S_AND (R247). -/
  | sAnd (c : Fin 16) (w : Nat)
  /-- S_OR (R247). -/
  | sOr (c : Fin 16) (w : Nat)
  /-- S_XOR (R247). -/
  | sXor (c : Fin 16) (w : Nat)
  /-- S_SHL (R247). -/
  | sShl (c : Fin 16) (w : Nat)
  /-- S_SHR_U (R247). -/
  | sShrU (c : Fin 16) (w : Nat)
  /-- S_MIN_U (R247). -/
  | sMinU (c : Fin 16) (w : Nat)
  /-- S_MAX_U (R247). -/
  | sMaxU (c : Fin 16) (w : Nat)
  /-- S_CMP_EQ (R247). -/
  | sCmpEq (c : Fin 16) (w : Nat)
  /-- S_CMP_LT_U (R247). -/
  | sCmpLtU (c : Fin 16) (w : Nat)
  /-- S_CMP_LT_I (R247). -/
  | sCmpLtI (c : Fin 16) (w : Nat)
  /-- P_AND (R247). -/
  | pAnd (c : Fin 16) (w : Nat)
  /-- P_OR (R247). -/
  | pOr (c : Fin 16) (w : Nat)
  /-- P_XOR (R247). -/
  | pXor (c : Fin 16) (w : Nat)
  /-- P_ANDN (R247). -/
  | pAndn (c : Fin 16) (w : Nat)
  /-- P_NOT (R247). -/
  | pNot (c : Fin 16) (w : Nat)
  /-- P_TOS (R247). -/
  | pTos (c : Fin 16) (w : Nat)
  /-- P_FROMS (R247). -/
  | pFroms (c : Fin 16) (w : Nat)
  /-- BRA (R248). -/
  | bra (c : Fin 16) (w : Nat)
  /-- BRA_SZ (R248). -/
  | braSz (c : Fin 16) (w : Nat)
  /-- BRA_SNZ (R248). -/
  | braSnz (c : Fin 16) (w : Nat)
  /-- BRA_PANY (R248). -/
  | braPany (c : Fin 16) (w : Nat)
  /-- BRA_PNONE (R248). -/
  | braPnone (c : Fin 16) (w : Nat)
  /-- IF (R248). -/
  | ifIns (c : Fin 16) (w : Nat)
  /-- ELSE (R248). -/
  | elseIns (c : Fin 16) (w : Nat)
  /-- ENDIF (R248). -/
  | endif (c : Fin 16) (w : Nat)
  /-- LOOP (R248). -/
  | loop (c : Fin 16) (w : Nat)
  /-- BREAK (R248). -/
  | breakIns (c : Fin 16) (w : Nat)
  /-- CONT (R248). -/
  | cont (c : Fin 16) (w : Nat)
  /-- ENDLOOP (R248). -/
  | endloop (c : Fin 16) (w : Nat)
  /-- KILL (R248). -/
  | kill (c : Fin 16) (w : Nat)
  /-- WAVE_END (R248). -/
  | waveEnd (c : Fin 16) (w : Nat)
  /-- BAR (R248). -/
  | bar (c : Fin 16) (w : Nat)
  /-- MEMBAR_WG (R256). -/
  | membarWg (c : Fin 16) (w : Nat)
  /-- MEMBAR_DEV (R256). -/
  | membarDev (c : Fin 16) (w : Nat)
  /-- IDLE (R248). -/
  | idle (c : Fin 16) (w : Nat)
  /-- TIME (R248). -/
  | time (c : Fin 16) (w : Nat)
  /-- ILK_BEGIN (R220). -/
  | ilkBegin (c : Fin 16) (w : Nat)
  /-- ILK_END (R220). -/
  | ilkEnd (c : Fin 16) (w : Nat)
  /-- LD_G (R249). -/
  | ldG (c : Fin 16) (w : Nat)
  /-- ST_G (R249). -/
  | stG (c : Fin 16) (w : Nat)
  /-- LD_B (R249). -/
  | ldB (c : Fin 16) (w : Nat)
  /-- ST_B (R249). -/
  | stB (c : Fin 16) (w : Nat)
  /-- LD_L (R249). -/
  | ldL (c : Fin 16) (w : Nat)
  /-- ST_L (R249). -/
  | stL (c : Fin 16) (w : Nat)
  /-- PLS_LD (R249). -/
  | plsLd (c : Fin 16) (w : Nat)
  /-- PLS_ST (R249). -/
  | plsSt (c : Fin 16) (w : Nat)
  /-- ATOM_ADD (R249). -/
  | atomAdd (c : Fin 16) (w : Nat)
  /-- ATOM_MIN_I (R249). -/
  | atomMinI (c : Fin 16) (w : Nat)
  /-- ATOM_MIN_U (R249). -/
  | atomMinU (c : Fin 16) (w : Nat)
  /-- ATOM_MAX_I (R249). -/
  | atomMaxI (c : Fin 16) (w : Nat)
  /-- ATOM_MAX_U (R249). -/
  | atomMaxU (c : Fin 16) (w : Nat)
  /-- ATOM_AND (R249). -/
  | atomAnd (c : Fin 16) (w : Nat)
  /-- ATOM_OR (R249). -/
  | atomOr (c : Fin 16) (w : Nat)
  /-- ATOM_XOR (R249). -/
  | atomXor (c : Fin 16) (w : Nat)
  /-- ATOM_XCHG (R249). -/
  | atomXchg (c : Fin 16) (w : Nat)
  /-- ATOM_CAS (R249). -/
  | atomCas (c : Fin 16) (w : Nat)
  /-- ATOM_ADD_B (R249). -/
  | atomAddB (c : Fin 16) (w : Nat)
  /-- OUT_POS (R250). -/
  | outPos (c : Fin 16) (w : Nat)
  /-- OUT_VAR (R250). -/
  | outVar (c : Fin 16) (w : Nat)
  /-- OUT_COLOUR (R250). -/
  | outColour (c : Fin 16) (w : Nat)
  /-- OUT_DEPTH (R250). -/
  | outDepth (c : Fin 16) (w : Nat)
  /-- SAMPLE (R251). -/
  | sample (c : Fin 16) (w : Nat)
  /-- SAMPLE_L (R251). -/
  | sampleL (c : Fin 16) (w : Nat)
  /-- SAMPLE_B (R251). -/
  | sampleB (c : Fin 16) (w : Nat)
  /-- FETCH (R251). -/
  | fetch (c : Fin 16) (w : Nat)
  /-- MEM_TRANSFER_ACCEPT (R265). -/
  | memTransferAccept (client : MemClient) (ply : Option (Fin 64)) (addr : Nat) (write : Option (Nat × List Byte)) (head : Option (Fin 8 × Fin 64))
  /-- MEM_READ_RETURN (R281). -/
  | memReadReturn (ch : Fin 16) (id : Nat) (errs : List (Nat × Byte)) (unit : DeviceUnit) (line col : Nat)
  /-- REFRESH_DUE (R269). -/
  | refreshDue (ch bank : Fin 16)
  /-- MR4_POLL (R269). -/
  | mr4Poll (rates : Vector Nat 32) (hot : Vector Bool 32)
  /-- BANK_IDLE_CLOSE (R268). -/
  | bankIdleClose (ch bank : Fin 16)
  /-- DRAM_TRAINING (R270). -/
  | dramTraining
  /-- DQS_OSC_SAMPLE (R271). -/
  | dqsOscSample (ch : Fin 16) (drifted : Bool)
  /-- RETRAIN_SLICE (R271). -/
  | retrainSlice (ch : Fin 16)
  /-- RETRAIN_FORCE_TIMEOUT (R271). -/
  | retrainForceTimeout (ch : Fin 16)
  /-- LIGHT_NAP_ENTER (R272). -/
  | lightNapEnter (ch : Fin 16)
  /-- LIGHT_NAP_EXIT (R272). -/
  | lightNapExit (ch : Fin 16)
  /-- DEEP_NAP_REQUEST (R273). -/
  | deepNapRequest
  /-- DEEP_NAP_ENTER (R273). -/
  | deepNapEnter
  /-- DEEP_NAP_EXIT (R273). -/
  | deepNapExit
  /-- CA_PARITY_ALERT (R275). -/
  | caParityAlert (ch : Fin 16)
  /-- PARITY_REPLAY (R275). -/
  | parityReplay (ch : Fin 16)
  /-- PATROL_SCRUB (R282). -/
  | patrolScrub (addr : Nat) (errs : List (Nat × Byte)) (unit : DeviceUnit)
  /-- MEM_PASR (R277). -/
  | memPasr (order : Nat)
  /-- MBX_REQ_PROD_WRITE (R296). -/
  | mbxReqProdWrite (q : Fin 4) (value : Word)
  /-- MBX_RSP_CONS_WRITE (R296). -/
  | mbxRspConsWrite (q : Fin 4) (value : Word)
  /-- MBX_REQUEST_TAKE (R296). -/
  | mbxRequestTake (fetched : Word)
  /-- MBX_RESPONSE (R296). -/
  | mbxResponse (q : Fin 4)
  /-- GATE (R300). -/
  | gate
  /-- ELY_INFO (R297). -/
  | elyInfo (order : Nat)
  /-- CONTAINER_LOAD (R292). -/
  | containerLoad (order : Nat) (c : Option Container)
  /-- CONTAINER_STAGE (R297). -/
  | containerStage (order : Nat) (c : Option Container)
  /-- SVN_COMMIT (R293). -/
  | svnCommit (order : Nat)
  /-- WM_RAISE (R302). -/
  | wmRaise (order : Nat)
  /-- MEM_GIVE (R304). -/
  | memGive (order : Nat)
  /-- MEM_TAKE (R305). -/
  | memTake (order : Nat)
  /-- GRANULE_SCRUB_DONE (R305). -/
  | granuleScrubDone (gran : Nat)
  /-- LEND (R306). -/
  | lend (order : Nat)
  /-- UNLEND (R307). -/
  | unlend (order : Nat)
  /-- OWNER_QUERY (R303). -/
  | ownerQuery (order : Nat)
  /-- AUD_LOCK (R381). -/
  | audLock (order : Nat)
  /-- ELY_RESTART_TRIGGER (R315). -/
  | elyRestartTrigger (cause : Fin 16)
  /-- ELY_WATCHDOG_EXPIRY (R288). -/
  | elyWatchdogExpiry
  /-- ELY_RESTART_DONE (R316). -/
  | elyRestartDone
  /-- BOOT (R292). -/
  | boot (b : BootIn)
  /-- GET_VERSION (R309). -/
  | getVersion (q : Fin 4)
  /-- GET_CAPABILITIES (R309). -/
  | getCapabilities (q : Fin 4)
  /-- NEGOTIATE_ALGORITHMS (R309). -/
  | negotiateAlgorithms (q : Fin 4) (offered : Bool)
  /-- GET_DIGESTS (R309). -/
  | getDigests (q : Fin 4)
  /-- GET_CERTIFICATE (R309). -/
  | getCertificate (q : Fin 4) (slot : Nat) (part : ChainPart)
  /-- CHALLENGE (R309). -/
  | challenge (q : Fin 4) (slot : Nat)
  /-- GET_MEASUREMENTS (R310). -/
  | getMeasurements (q : Fin 4) (op : Nat) (signed : Bool)
  /-- KEY_EXCHANGE (R309). -/
  | keyExchange (q : Fin 4)
  /-- FINISH (R309). -/
  | finish (q i : Fin 4) (ok : Bool)
  /-- KEY_UPDATE (R309). -/
  | keyUpdate (q i : Fin 4)
  /-- SPDM_HEARTBEAT (R309). -/
  | spdmHeartbeat (q i : Fin 4)
  /-- END_SESSION (R309). -/
  | endSession (q i : Fin 4)
  /-- VENDOR_DEFINED (R309). -/
  | vendorDefined (q i : Fin 4)
  /-- KEY_PROG (R311). -/
  | keyProg (q i : Fin 4) (stream : Fin 3)
  /-- K_SET_STOP (R308). -/
  | kSetStop (q i : Fin 4) (stream : Fin 3)
  /-- PERST_N_ASSERT (R335). -/
  | perstNAssert (q : Fin 4)
  /-- PERST_N_RELEASE (R329). -/
  | perstNRelease (q : Fin 4)
  /-- HOT_RESET (R335). -/
  | hotReset (q : Fin 4)
  /-- FLR (R335). -/
  | flr (q : Fin 4) (dlPending : Bool)
  /-- DL_DOWN_DETECT (R335). -/
  | dlDownDetect (q : Fin 4)
  /-- LINK_UP (R323). -/
  | linkUp (q : Fin 4) (speed width : Nat)
  /-- ATS_INVALIDATE (R327). -/
  | atsInvalidate (q : Fin 4) (pasid first pages : Nat)
  /-- ATS_INVALIDATE_COMPLETE (R327). -/
  | atsInvalidateComplete (q : Fin 4)
  /-- PTM_TIMER (R332). -/
  | ptmTimer (q : Fin 4)
  /-- PTM_NOW (R332). -/
  | ptmNow (q : Fin 4) (value : Word)
  /-- PTM_RESPONSE (R332). -/
  | ptmResponse (q : Fin 4) (t2 d : Nat)
  /-- POWER_STATE_CHANGE (R333). -/
  | powerStateChange (q : Fin 4) (d3hot busMaster : Bool)
  /-- LTR_MESSAGE (R331). -/
  | ltrMessage (q : Fin 4)
  /-- ASPM_IDLE_TIMEOUT (R331). -/
  | aspmIdleTimeout (q : Fin 4)
  /-- WAKE_N_ASSERT (R334). -/
  | wakeNAssert
  /-- WHL_JOIN (R348). -/
  | whlJoin (order : Nat) (out : Option JoinOutcome)
  /-- WHL_LEAVE (R350). -/
  | whlLeave (order : Nat)
  /-- WHL_CHAN_OPEN (R356). -/
  | whlChanOpen (order : Nat) (peerOpen : Bool) (transit : Nat × Nat) (pathFree : Bool)
  /-- WHL_CHAN_CLOSE (R297). -/
  | whlChanClose (order : Nat)
  /-- WHL_LOOP_TEST (R362). -/
  | whlLoopTest (order : Nat)
  /-- WHL_PROBE_RETURN (R362). -/
  | whlProbeReturn (q : Fin 2) (far delay : Nat)
  /-- WHL_TIME_MARK (R352). -/
  | whlTimeMark (q : Fin 2) (time : Nat) (adopt : Option Nat)
  /-- WHL_OFFSET_CHECK (R351). -/
  | whlOffsetCheck
  /-- WHL_DELAY_MEASURE (R352). -/
  | whlDelayMeasure (q : Fin 2) (roundTrip : Nat)
  /-- WHL_ADOPT (R352). -/
  | whlAdopt (io : AudioIn)
  /-- WHL_LINK_LOSS (R359). -/
  | whlLinkLoss (q : Fin 2)
  /-- WHL_REPAIR_DONE (R359). -/
  | whlRepairDone (q : Fin 2) (link : Option (Nat × Nat)) (gone : Fin 3)
  /-- WHL_SEND_START (R357). -/
  | whlSendStart (id : Nat)
  /-- WHL_SEND_DONE (R357). -/
  | whlSendDone (id : Nat)
  /-- WHL_RECEIVE_DONE (R358). -/
  | whlReceiveDone (id : Nat) (v : DWord) (bytes : List Byte)
  /-- AUD_BUFFER_READ_DONE (R369). -/
  | audBufferReadDone (p : Fin 64) (h : Nat) (bytes : List Byte)
  /-- AUD_MIX_DATA_WRITE (R366). -/
  | audMixDataWrite (q : Fin 4) (value : Word)
  /-- AUD_EQ_DATA_WRITE (R374). -/
  | audEqDataWrite (q : Fin 4) (value : Word)
  /-- TDM_CLK_LOST (R372). -/
  | tdmClkLost (p : Fin 4)
  /-- CHIME_TRIGGER (R380). -/
  | chimeTrigger (i : Nat)
  /-- CHIME_VOICE_END (R378). -/
  | chimeVoiceEnd (v : Fin 16)
  /-- TOUCH_SCAN_START (R390). -/
  | touchScanStart (n : Fin 4)
  /-- TOUCH_SCAN_DONE (R398). -/
  | touchScanDone (n : Fin 4) (passes : List TouchPass)
  /-- PERSISTENT_TOUCH (R397). -/
  | persistentTouch (n : Fin 4) (id : Nat)
  /-- RECAL (R395). -/
  | recal (q n : Fin 4)
  /-- SELFTEST (R403). -/
  | selftest (q n : Fin 4)
  /-- REF_STORE (R402). -/
  | refStore (q n : Fin 4)
  /-- TCH_CMD_DONE (R402). -/
  | tchCmdDone (m : TchMeasure) (flashOk : Bool)
  /-- WAKE_SCAN (R404). -/
  | wakeScan (xs ys : List Nat)
  /-- HTRIG_EDGE (R414). -/
  | htrigEdge (pin : Fin 8) (rising : Bool)
  /-- HAP_EFFECT_START (R415). -/
  | hapEffectStart (c : Fin 8)
  /-- HAP_ENERGY_TIMEOUT (R417). -/
  | hapEnergyTimeout (c : Fin 8)
  /-- HAP_DRIVE_END (R411). -/
  | hapDriveEnd (c : Fin 8)
  /-- HAP_BRAKE_END (R411). -/
  | hapBrakeEnd (c : Fin 8)
  /-- HAP_EN_HOLD_EXPIRY (R409). -/
  | hapEnHoldExpiry (c : Fin 8)
  /-- HAP_TRIP (R419). -/
  | hapTrip (c : Fin 8)
  /-- HAP_REARM (R419). -/
  | hapRearm (c : Fin 8)
  /-- HAP_CLEAR (R419). -/
  | hapClear (q : Fin 4) (c : Fin 8)
  /-- HAP_EN_ONESHOT_EXPIRY (R426). -/
  | hapEnOneshotExpiry (c : Fin 8)
  /-- PWR_STATE_RUN (R432). -/
  | pwrStateRun (order : Nat)
  /-- PWR_STATE_DIM (R432). -/
  | pwrStateDim (order : Nat)
  /-- PWR_STATE_WATCH (R440). -/
  | pwrStateWatch (order fails : Nat)
  /-- PWR_ISLAND (R432). -/
  | pwrIsland (order : Nat)
  /-- PWR_OPPOINT (R433). -/
  | pwrOppoint (order : Nat)
  /-- PWR_RESET (R438). -/
  | pwrReset (order : Nat)
  /-- WARM_RESET (R438). -/
  | warmReset
  /-- ISLAND_RAMP_START (R432). -/
  | islandRampStart
  /-- ISLAND_POWER_GOOD (R431). -/
  | islandPowerGood (i : Fin 32) (fails : Nat)
  /-- REFCLK0_LOSS (R425). -/
  | refclk0Loss
  /-- SLPCLK_LOSS (R425). -/
  | slpclkLoss
  /-- FCNT_START (R430). -/
  | fcntStart (q n : Fin 4) (value : Word)
  /-- FCNT_DONE (R430). -/
  | fcntDone (n : Fin 4) (edges : Nat)
  /-- TEMP_SAMPLE (R434). -/
  | tempSample (temps : Vector (BitVec 16) 8) (vaon : Nat)
  /-- THERMTRIP (R435). -/
  | thermtrip
  /-- VAON_WARN_START (R436). -/
  | vaonWarnStart
  /-- VAON_WARN_END (R436). -/
  | vaonWarnEnd (low cycles : Nat)
  /-- VAON_RESET (R437). -/
  | vaonReset
  /-- VAON_APPLY (R437). -/
  | vaonApply
  /-- PWRON_RST_N_ASSERT (R438). -/
  | pwronRstNAssert
  /-- WATCH_EXIT (R439). -/
  | watchExit (b : BootIn)
  /-- OPSEC_SECOND (R459). -/
  | opsecSecond
  /-- SELFTEST_SLICE (R451). -/
  | selftestSlice (u : Nat) (fail : Bool)
  /-- SELFTEST_PASS_LATE (R451). -/
  | selftestPassLate (u : Nat)
  /-- COCOON_REFILL (R456). -/
  | cocoonRefill
  /-- COCOON_SLOT_WRITE (R458). -/
  | cocoonSlotWrite (good : Bool)
  /-- COCOON_SECTOR_ERASE (R458). -/
  | cocoonSectorErase
  /-- CCN_INFO (R460). -/
  | ccnInfo (order : Nat)
  /-- CCN_FREEZE (R460). -/
  | ccnFreeze (order : Nat)
  /-- CCN_THAW (R460). -/
  | ccnThaw (order : Nat)
  /-- CCN_FREEZE_TIMEOUT (R460). -/
  | ccnFreezeTimeout
  /-- CCN_READ (R460). -/
  | ccnRead (order : Nat)
  /-- CCN_OPSEC_LO_READ (R461). -/
  | ccnOpsecLoRead (q : PairRead)
  /-- HAP_CONTROL_TICK (R412). -/
  | hapControlTick (io : Vector HapSample 8)
  /-- TDM_BCLK_RETURN (R372). -/
  | tdmBclkReturn (p : Fin 4)
  /-- SLPCLK_RETURN (R425). -/
  | slpclkReturn
  /-- MEM_COMMAND_OPPORTUNITY (R266). -/
  | memCommandOpportunity (ch : Fin 16) (good : Nat)
  /-- WHL_LOOP_TRAINED (R345). -/
  | whlLoopTrained (q : Fin 2) (rate : Fin 4)
  /-- WHL_ANNOUNCE (R349). -/
  | whlAnnounce (q : Fin 2) (m : WhlMsg)
  /-- WHL_PROBE_RECEIVED (R362). -/
  | whlProbeReceived (q : Fin 2) (nonce : Nat)
  /-- LINK_L1_CHANGE (R334). -/
  | linkL1Change (q : Fin 4) (enter : Bool)
deriving DecidableEq, Repr

end Sys2Proof
end

