-- ==== Sys2Proof/Machine/Bits.lean ====
section
/-! DEFINITION. Machine/Bits.lean: bit fields, little-endian byte lists, fixed tables and sparse maps.
Register fields are written [msb:lsb] (R16) and every multi-byte value is little-endian (R17, R68, R84, R95). -/
namespace Sys2Proof.Machine

/-- Bits [hi:lo] of a number, as the manual writes them (R16). -/
def fld (v hi lo : Nat) : Nat := (v / 2 ^ lo) % 2 ^ (hi + 1 - lo)

/-- Bit `i` of a number. -/
def bit (v i : Nat) : Bool := v.testBit i

/-- A one-bit field from a flag. -/
def bit1 (b : Bool) : Nat := if b then 1 else 0

/-- A register word from a number; bits above 31 are dropped. -/
def word (v : Nat) : Word := BitVec.ofNat 32 v

/-- Replace bits [hi:lo] of a word by the low bits of `x`. -/
def Word.put (w : Word) (hi lo x : Nat) : Word :=
  let m := 2 ^ (hi + 1 - lo)
  word (w.toNat - fld w.toNat hi lo * 2 ^ lo + (x % m) * 2 ^ lo)

/-- The low and the high word of a 64-bit value. -/
def DWord.lo (d : DWord) : Word := d.setWidth 32
@[inherit_doc DWord.lo] def DWord.hi (d : DWord) : Word := (d >>> 32).setWidth 32

/-- A 64-bit value from its high and low words. -/
def DWord.ofWords (hi lo : Word) : DWord := (hi ++ lo : BitVec 64)

/-- Two's complement value of the low `w` bits of `v`. -/
def signed (w v : Nat) : Int :=
  let x := v % 2 ^ w
  if 2 * x < 2 ^ w then (x : Int) else (x : Int) - (2 : Int) ^ w

/-- The `w`-bit two's complement pattern of an integer. -/
def unsigned (w : Nat) (v : Int) : Nat := (v % (2 : Int) ^ w).toNat

/-! Byte lists -/

/-- Byte `i` of a list; bytes past the end are 0. -/
def byteAt (bs : List Byte) (i : Nat) : Nat := (bs.getD i 0).toNat

/-- The little-endian value of `n` bytes from offset `i`. -/
def leAt (bs : List Byte) (i : Nat) : Nat → Nat
  | 0 => 0
  | n + 1 => byteAt bs i + 256 * leAt bs (i + 1) n

/-- The 16-, 32-, 40- and 64-bit little-endian fields of a descriptor or block. -/
def le16 (bs : List Byte) (i : Nat) : Nat := leAt bs i 2
@[inherit_doc le16] def le32 (bs : List Byte) (i : Nat) : Nat := leAt bs i 4
@[inherit_doc le16] def le64 (bs : List Byte) (i : Nat) : Nat := leAt bs i 8

/-- `n` bytes of a value, least significant first. -/
def bytesOf : Nat → Nat → List Byte
  | 0, _ => []
  | n + 1, v => BitVec.ofNat 8 v :: bytesOf n (v / 256)

/-- Exactly `n` bytes: the list cut, or filled up with zeros. -/
def fitBytes (n : Nat) (bs : List Byte) : List Byte := (bs ++ List.replicate n 0).take n

/-- Every byte in `[i, i + n)` is 0: the test of a reserved range. -/
def zeroBytes (bs : List Byte) (i n : Nat) : Bool := ((bs.drop i).take n).all (· == 0)

/-- A list of 32-bit words as bytes. -/
def wordsToBytes (ws : List Word) : List Byte := ws.flatMap fun w => bytesOf 4 w.toNat

/-! Fixed tables: a `Vector` read and written at a bounded index. -/

/-- Entry `i` of a fixed table. -/
def at' {α : Type} {n : Nat} (v : Vector α n) (i : Fin n) : α := v[i.val]

/-- The table with entry `i` replaced. -/
def put {α : Type} {n : Nat} (v : Vector α n) (i : Fin n) (x : α) : Vector α n := v.set i.val x i.isLt

/-- The table with entry `i` changed by `f`. -/
def upd {α : Type} {n : Nat} (v : Vector α n) (i : Fin n) (f : α → α) : Vector α n := put v i (f (at' v i))

/-- Entry `i` where `i` may lie outside the table. -/
def atD {α : Type} {n : Nat} (v : Vector α n) (i : Nat) (d : α) : α := if h : i < n then v[i] else d

/-- An index below `n` from a number, where it is one. -/
def fin? (n v : Nat) : Option (Fin n) := if h : v < n then some ⟨v, h⟩ else none

/-- All indices below `n`, in rising order. -/
def allFin (n : Nat) : List (Fin n) := List.finRange n

/-! Sparse maps: a list of key and value pairs, keys rising; an absent key reads as the given default. -/

/-- A sparse table with number keys. -/
abbrev Map (α : Type) := List (Nat × α)

/-- The value under a key. -/
def Map.find {α : Type} : Map α → Nat → Option α
  | [], _ => none
  | (k, v) :: t, q => if q = k then some v else Map.find t q

/-- The value under a key, or the default. -/
def Map.get {α : Type} (m : Map α) (d : α) (k : Nat) : α := (Map.find m k).getD d

/-- The table without a key. -/
def Map.del {α : Type} (m : Map α) (k : Nat) : Map α := m.filter fun e => e.1 != k

/-- The table with a key set. -/
def Map.ins {α : Type} : Map α → Nat → α → Map α
  | [], k, v => [(k, v)]
  | (k', v') :: t, k, v =>
    if k < k' then (k, v) :: (k', v') :: t
    else if k = k' then (k, v) :: t
    else (k', v') :: Map.ins t k v

/-- The table with a key set; a key at the default is not listed. -/
def Map.setD {α : Type} [DecidableEq α] (m : Map α) (d : α) (k : Nat) (v : α) : Map α :=
  if v = d then Map.del m k else Map.ins m k v

/-- Insertion into a list sorted by `le`, before the first entry it does not follow. -/
def insertBy {α : Type} (le : α → α → Bool) (x : α) : List α → List α
  | [] => [x]
  | y :: t => if le x y then x :: y :: t else y :: insertBy le x t

/-- A list sorted by `le`; entries that compare equal keep their order. -/
def sortBy {α : Type} (le : α → α → Bool) (l : List α) : List α := l.foldr (insertBy le) []

/-- Numbers rounded up to a multiple of `m`. -/
def ceilTo (v m : Nat) : Nat := if m = 0 then v else ((v + m - 1) / m) * m

/-- Quotient rounded up. -/
def ceilDiv (a b : Nat) : Nat := if b = 0 then 0 else (a + b - 1) / b

/-- A number held within bounds. -/
def clampNat (lo hi v : Nat) : Nat := if v < lo then lo else if hi < v then hi else v

/-- An integer held within bounds. -/
def clampInt (lo hi v : Int) : Int := if v < lo then lo else if hi < v then hi else v

end Sys2Proof.Machine
end

