-- ==== Sys2Proof/Parts/Chk.lean ====
section
/-! DEFINITION. Parts/Chk.lean: check-value units, self-test and the Cocoon recorder (R442-R461). -/
namespace Sys2Proof.Machine

/-- Parameters of a check value (R200). -/
structure CheckParams where
  width  : Nat
  poly   : Nat
  init   : Nat
  xorout : Nat
  refin  : Bool
  refout : Bool
deriving DecidableEq, Repr

/-- A CHECK that a unit runs (R444, R446). -/
structure CheckJob where
  ply    : Fin 64
  ring   : Fin 4
  order  : Nat
  params : CheckParams
  reg    : Nat
  /-- An epoch swap of new parameters has passed since it started. -/
  stale  : Bool
deriving DecidableEq, Repr

/-- A check-value unit (R442). -/
structure CheckUnit where
  running : Nat
  job     : Option CheckJob
  /-- CHECKs dispatched and waiting: ply, ring, order (R445). -/
  queue   : List (Fin 64 × Fin 4 × Nat)
  /-- Written parameters await the epoch boundary (CHK_STATUS.PENDING). -/
  pending : Bool
  lock    : Bool
  /-- CHK_GRANT: bit per ply. -/
  grant   : Nat
deriving DecidableEq, Repr

/-- Self-test results (R448-R453). -/
structure Bist where
  /-- BIST_MOULT and BIST_MOULT_FAIL. -/
  valid   : Bool
  fresh   : Bool
  pass    : Bool
  startup : Bool
  pwrcyc  : Nat
  fail    : Nat
  /-- OPSEC when the result was made (R450). -/
  opsec   : Nat
  /-- Graphics units 0x01, 0x02, 0x08 still deferred (R450). -/
  deferred : List Nat
  /-- Graphics islands whose units have not run since a start with VDDG off (R450). -/
  untested : List Nat
  /-- Units whose failure is reported once the firmware runs (R449, R450). -/
  report  : List Nat
  /-- BIST_RUN, BIST_RUN_FAIL. -/
  late    : Bool
  runFail : Bool
  passes  : Nat
  firstFail : Nat
  /-- Slices done in the pass by unit code, and units that have had their slice in this epoch (R451). -/
  slices  : List (Nat × Nat)
  thisEpoch : List Nat
  /-- Heads whose class A regions count as mismatching until the next cold or warm device reset (R452). -/
  badHeads : List Nat
deriving DecidableEq, Repr

/-- A recorder token bucket (R456), most recently used first in its table. -/
structure CcnBucket where
  code       : Nat
  tokens     : Nat
  suppressed : Nat
deriving DecidableEq, Repr

/-- The Cocoon recorder (R454-R461). -/
structure Ccn where
  /-- Records of 32 bytes, oldest first, at most 128. -/
  buffer   : List (List Byte)
  buckets  : List CcnBucket
  overflow : Nat
  frozen   : Bool
  /-- After a freeze the buffer has not been emptied to flash yet (R460). -/
  refill   : Bool
  flash    : Bool
  opsec    : Nat
  pwrcyc   : Nat
  next     : Nat
  lap      : Nat
  /-- Log slots by number; an unlisted slot is erased (all 0xFF). -/
  log      : List (Nat × List Byte)
  /-- Counter entries: sector and position of the next entry, and entries by sector x 4,096 + position (R459). -/
  cntPos   : Nat
  counters : List (Nat × List Byte)
  /-- Operating seconds since the last counter entry (R459). -/
  sinceCnt : Nat
  /-- A critical record has asked for a wake (R334). -/
  wakeDue  : Bool
deriving DecidableEq, Repr

end Sys2Proof.Machine
end

