-- ==== Sys2Proof/Machine/CheckValue.lean ====
section
/-! DEFINITION. Machine/CheckValue.lean: the check value of R200, shared by signatures, check-value units and the recorder. -/
namespace Sys2Proof.Machine

/-- 2^w - 1, the mask of R200. -/
def CheckParams.mask (c : CheckParams) : Nat := 2 ^ c.width - 1

/-- One bit enters the register (R200). -/
def CheckParams.step (c : CheckParams) (reg : Nat) (b : Bool) : Nat :=
  let top := reg.testBit (c.width - 1)
  let r := (reg * 2) % 2 ^ c.width
  if top != b then r ^^^ (c.poly % 2 ^ c.width) else r

/-- One byte enters the register, bit 0 first where REFIN is 1 (R200). -/
def CheckParams.feed (c : CheckParams) (reg : Nat) (x : Byte) : Nat :=
  ([0, 1, 2, 3, 4, 5, 6, 7] : List Nat).foldl
    (fun r i => c.step r (x.toNat.testBit (if c.refin then i else 7 - i))) reg

/-- Bytes enter the register in order. -/
def CheckParams.feedAll (c : CheckParams) (reg : Nat) (bs : List Byte) : Nat := bs.foldl c.feed reg

/-- Bit-reverse over `w` bits. -/
def revBits : Nat → Nat → Nat
  | 0, _ => 0
  | w + 1, v => (v % 2) * 2 ^ w + revBits w (v / 2)

/-- The last two steps of R200: REFOUT and XOROUT. -/
def CheckParams.final (c : CheckParams) (reg : Nat) : Nat :=
  (if c.refout then revBits c.width reg else reg) ^^^ (c.xorout % 2 ^ c.width)

/-- The check value of bytes (R200). -/
def CheckParams.value (c : CheckParams) (bs : List Byte) : Nat := c.final (c.feedAll (c.init % 2 ^ c.width) bs)

/-- Parameters of the CRC in Cocoon records and counter entries (R454). -/
def ccnCrc : CheckParams := { width := 16, poly := 0x1021, init := 0xFFFF, xorout := 0, refin := false, refout := false }

end Sys2Proof.Machine
end

