-- ==== Sys2Proof/Config.lean ====
section
/-! DEFINITION. Config.lean: the free values: results the manual leaves open. Each is an opaque constant, so no proof can see a value of it
(log entry 3). `n` is the state's fresh counter where the manual fixes no operand the value depends on. -/
namespace Sys2Proof

/-- A byte of DRAM cells that no write has filled since power-up, or whose contents were lost: by address and what stood there before (R278, R427). -/
opaque Config.residue : Nat → Byte → Byte

/-- Byte 0-63 of the AES-256-XTS key that the TRNG drew as generation `n`; generation 0 is an erased slot (R283, R308). -/
opaque Config.slotKey : Nat → Nat → Byte

/-- Bytes of SHA-384 of the boot ROM (R288, R310). -/
opaque Config.romDigest : Nat → Byte

/-- Label under which the key ladder derives a key: 0 the identity key, 1 the alias key (R288, R308). -/
opaque Config.ladderLabel : Nat → List Byte

/-- Certificates as bytes, by what they bind: nothing for the chain written at manufacture, the alias public key and the ELY_FW digest for the alias
certificate (R309). -/
opaque Config.certificate : List Byte → List Byte

/-- A 32-bit value the manual leaves open, fresh for each counter value. -/
opaque Config.freeWord : Nat → Word

/-- A byte the manual leaves open, fresh for each counter value and position. -/
opaque Config.freeByte : Nat → Nat → Byte

/-- Bank that a DDR5 address selects: the order of its bank bits is the device's own (R261). -/
opaque Config.dramBank : Nat → Nat

/-- Row that an address selects within its bank: the split of column and row bits is not given (R261). -/
opaque Config.dramRow : Nat → Nat

/-- What an error-correcting code makes of more wrong bits or symbols than it detects (R279, R280). -/
opaque Config.miscode : List (Nat × Byte) → Nat

/-- Results of the transcendental instructions within their accuracy (R247): opcode, operand. -/
opaque Config.transc : Nat → Nat → Word

/-- Level of detail of a texture sample (R251): from the lane's coordinates in its quad and the level-0 size; only its accuracy is given. -/
opaque Config.lod : List Word → Nat → Nat → Word

end Sys2Proof
end

