-- ==== Sys2Proof/Machine/Crypto.lean ====
section
/-! DEFINITION. Machine/Crypto.lean: the algorithms of the standards that the manual names: SHA-384, HMAC-SHA-384 and its KDF in counter mode, AES-256, its
XTS and GCM modes, ECDSA on P-384 (R283, R288, R291, R309; NIST FIPS 180-4, 186, 197 and 198, SP 800-38D, -38E and -108: log entry 12). -/
namespace Sys2Proof.Machine

/-! SHA-384 -/

/-- Round constants: the first 64 fraction bits of the cube roots of the first 80 primes. -/
def sha384K : List Nat :=
  [0x428a2f98d728ae22, 0x7137449123ef65cd, 0xb5c0fbcfec4d3b2f, 0xe9b5dba58189dbbc, 0x3956c25bf348b538, 0x59f111f1b605d019, 0x923f82a4af194f9b, 0xab1c5ed5da6d8118] ++
  [0xd807aa98a3030242, 0x12835b0145706fbe, 0x243185be4ee4b28c, 0x550c7dc3d5ffb4e2, 0x72be5d74f27b896f, 0x80deb1fe3b1696b1, 0x9bdc06a725c71235, 0xc19bf174cf692694] ++
  [0xe49b69c19ef14ad2, 0xefbe4786384f25e3, 0x0fc19dc68b8cd5b5, 0x240ca1cc77ac9c65, 0x2de92c6f592b0275, 0x4a7484aa6ea6e483, 0x5cb0a9dcbd41fbd4, 0x76f988da831153b5] ++
  [0x983e5152ee66dfab, 0xa831c66d2db43210, 0xb00327c898fb213f, 0xbf597fc7beef0ee4, 0xc6e00bf33da88fc2, 0xd5a79147930aa725, 0x06ca6351e003826f, 0x142929670a0e6e70] ++
  [0x27b70a8546d22ffc, 0x2e1b21385c26c926, 0x4d2c6dfc5ac42aed, 0x53380d139d95b3df, 0x650a73548baf63de, 0x766a0abb3c77b2a8, 0x81c2c92e47edaee6, 0x92722c851482353b] ++
  [0xa2bfe8a14cf10364, 0xa81a664bbc423001, 0xc24b8b70d0f89791, 0xc76c51a30654be30, 0xd192e819d6ef5218, 0xd69906245565a910, 0xf40e35855771202a, 0x106aa07032bbd1b8] ++
  [0x19a4c116b8d2d0c8, 0x1e376c085141ab53, 0x2748774cdf8eeb99, 0x34b0bcb5e19b48a8, 0x391c0cb3c5c95a63, 0x4ed8aa4ae3418acb, 0x5b9cca4f7763e373, 0x682e6ff3d6b2b8a3] ++
  [0x748f82ee5defb2fc, 0x78a5636f43172f60, 0x84c87814a1f0ab72, 0x8cc702081a6439ec, 0x90befffa23631e28, 0xa4506cebde82bde9, 0xbef9a3f7b2c67915, 0xc67178f2e372532b] ++
  [0xca273eceea26619c, 0xd186b8c721c0c207, 0xeada7dd6cde0eb1e, 0xf57d4f7fee6ed178, 0x06f067aa72176fba, 0x0a637dc5a2c898a6, 0x113f9804bef90dae, 0x1b710b35131c471b] ++
  [0x28db77f523047d84, 0x32caab7b40c72493, 0x3c9ebe0a15c9bebc, 0x431d67c49c100d4c, 0x4cc5d4becb3e42b6, 0x597f299cfc657e2a, 0x5fcb6fab3ad6faec, 0x6c44198c4a475817]

/-- Initial hash value. -/
def sha384H : List Nat :=
  [0xcbbb9d5dc1059ed8, 0x629a292a367cd507, 0x9159015a3070dd17, 0x152fecd8f70e5939] ++
  [0x67332667ffc00b31, 0x8eb44a8768581511, 0xdb0c2e0d64f98fa7, 0x47b5481dbefa4fa4]

/-- A big-endian value of a list of bytes. -/
def beOf (bs : List Byte) : Nat := bs.foldl (fun v b => v * 256 + b.toNat) 0

/-- `n` bytes of a value, most significant first. -/
def beBytes (n v : Nat) : List Byte := (bytesOf n v).reverse

/-- The message with its padding: whole blocks of 128 bytes. -/
def sha384Pad (m : List Byte) : List Byte :=
  m ++ [0x80] ++ List.replicate ((239 - m.length % 128) % 128) 0 ++ beBytes 16 (8 * m.length)

/-- The message schedule: 80 words, newest first. -/
def sha384W (block : List Byte) : List DWord :=
  let w0 := (List.range 16).foldl (fun l i => BitVec.ofNat 64 (beOf ((block.drop (8 * i)).take 8)) :: l) []
  (List.range 64).foldl (fun l _ =>
    let a := l.getD 1 0
    let b := l.getD 14 0
    let s1 := a.rotateRight 19 ^^^ a.rotateRight 61 ^^^ (a >>> 6)
    let s0 := b.rotateRight 1 ^^^ b.rotateRight 8 ^^^ (b >>> 7)
    (s1 + l.getD 6 0 + s0 + l.getD 15 0) :: l) w0

/-- One round on the eight working variables a to h. -/
def sha384Round (v : List DWord) (k w : DWord) : List DWord :=
  let x := fun i => v.getD i 0
  let s1 := (x 4).rotateRight 14 ^^^ (x 4).rotateRight 18 ^^^ (x 4).rotateRight 41
  let t1 := x 7 + s1 + ((x 4 &&& x 5) ^^^ (~~~(x 4) &&& x 6)) + k + w
  let s0 := (x 0).rotateRight 28 ^^^ (x 0).rotateRight 34 ^^^ (x 0).rotateRight 39
  let t2 := s0 + ((x 0 &&& x 1) ^^^ (x 0 &&& x 2) ^^^ (x 1 &&& x 2))
  [t1 + t2, x 0, x 1, x 2, x 3 + t1, x 4, x 5, x 6]

/-- One block. -/
def sha384Block (h : List DWord) (block : List Byte) : List DWord :=
  let v := (sha384K.zip (sha384W block).reverse).foldl (fun v x => sha384Round v (BitVec.ofNat 64 x.1) x.2) h
  h.zipWith (· + ·) v

/-- SHA-384: 48 bytes. -/
def sha384 (m : List Byte) : List Byte :=
  let p := sha384Pad m
  let h := (List.range (p.length / 128)).foldl (fun h i => sha384Block h ((p.drop (128 * i)).take 128)) (sha384H.map (BitVec.ofNat 64))
  (h.take 6).flatMap fun x => beBytes 8 x.toNat

/-- HMAC-SHA-384. -/
def hmac384 (key msg : List Byte) : List Byte :=
  let k := fitBytes 128 (if 128 < key.length then sha384 key else key)
  sha384 (k.map (· ^^^ 0x5C) ++ sha384 (k.map (· ^^^ 0x36) ++ msg))

/-- The key ladder's KDF in counter mode with a 32-bit counter (R288): `n` bytes for a label and a context. -/
def kdf384 (key label context : List Byte) (n : Nat) : List Byte :=
  ((List.range (n / 48 + 1)).flatMap fun i => hmac384 key (beBytes 4 (i + 1) ++ label ++ [0] ++ context ++ beBytes 4 (8 * n))).take n

/-! AES-256 -/

/-- The field of AES: multiplication by x, and of two bytes. -/
def aesX (a : Nat) : Nat := if a < 128 then 2 * a else Nat.xor (2 * a - 256) 0x1B
@[inherit_doc aesX] def aesMul (a b : Nat) : Nat :=
  ((List.range 8).foldl (fun (acc : Nat × Nat) i => (if bit b i then Nat.xor acc.1 acc.2 else acc.1, aesX acc.2)) (0, a)).1

/-- The inverse of a byte, its 254th power; 0 for 0. -/
def aesInv (a : Nat) : Nat := (List.range 253).foldl (fun p _ => aesMul p a) a

/-- The S-box and its inverse. -/
def aesSbox (a : Nat) : Nat :=
  let b := aesInv a
  let r := fun k => b * 2 ^ k % 256 + b / 2 ^ (8 - k)
  Nat.xor (Nat.xor (Nat.xor (Nat.xor (Nat.xor b (r 1)) (r 2)) (r 3)) (r 4)) 0x63
@[inherit_doc aesSbox] def aesSboxTable : List Nat := (List.range 256).map aesSbox
@[inherit_doc aesSbox] def aesSboxInv (a : Nat) : Nat := ((List.range 256).find? fun x => aesSbox x == a).getD 0

/-- Bytes of two lists combined by exclusive or. -/
def xorBytes (a b : List Byte) : List Byte := a.zipWith (· ^^^ ·) b

/-- The 60 words of a 256-bit key's schedule, in order. -/
def aesKeys (key : List Byte) : List (List Byte) :=
  let sub := fun (w : List Byte) => w.map fun b => (BitVec.ofNat 8 (aesSbox b.toNat) : Byte)
  let w0 := (List.range 8).map fun i => (key.drop (4 * i)).take 4
  let (ws, _) := (List.range 52).foldl (fun (acc : List (List Byte) × Nat) k =>
    let t := acc.1.getD 0 []
    let old := acc.1.getD 7 []
    if k % 8 = 0 then
      let t := sub (t.drop 1 ++ t.take 1)
      (xorBytes old (xorBytes t [BitVec.ofNat 8 acc.2, 0, 0, 0]) :: acc.1, aesX acc.2)
    else if k % 8 = 4 then (xorBytes old (sub t) :: acc.1, acc.2)
    else (xorBytes old t :: acc.1, acc.2)) (w0.reverse, 1)
  ws.reverse

/-- The 16 bytes of round key `r`. -/
def aesRoundKey (ks : List (List Byte)) (r : Nat) : List Byte := ((ks.drop (4 * r)).take 4).flatten

/-- ShiftRows by `d` columns for each row, 1 or 3; the state is 16 bytes, column by column. -/
def aesShift (d : Nat) (s : List Byte) : List Byte := (List.range 16).map fun i => s.getD ((i + 4 * d * (i % 4)) % 16) 0

/-- MixColumns with the first row of its matrix. -/
def aesMix (m : List Nat) (s : List Byte) : List Byte :=
  (List.range 16).map fun i => BitVec.ofNat 8 ((List.range 4).foldl (fun v k =>
    Nat.xor v (aesMul (byteAt s (4 * (i / 4) + k)) (m.getD ((k + 4 - i % 4) % 4) 0))) 0)

/-- AES-256 of one block of 16 bytes. -/
def aesEnc (key block : List Byte) : List Byte :=
  let ks := aesKeys key
  (List.range 14).foldl (fun s k =>
    let s := aesShift 1 (s.map fun b => BitVec.ofNat 8 (aesSbox b.toNat))
    xorBytes (if k = 13 then s else aesMix [2, 3, 1, 1] s) (aesRoundKey ks (k + 1))) (xorBytes block (aesRoundKey ks 0))

/-- Its inverse. -/
def aesDec (key block : List Byte) : List Byte :=
  let ks := aesKeys key
  (List.range 14).foldl (fun s k =>
    let s := (aesShift 3 s).map fun b => BitVec.ofNat 8 (aesSboxInv b.toNat)
    let s := xorBytes s (aesRoundKey ks (13 - k))
    if k = 13 then s else aesMix [14, 11, 13, 9] s) (xorBytes block (aesRoundKey ks 14))

/-! XTS and GCM -/

/-- The tweak of block `j` of a data unit: the encrypted unit number times alpha^j, as a number (R283). -/
def xtsTweak (key2 : List Byte) (unit j : Nat) : Nat :=
  (List.range j).foldl (fun t _ => if t < 2 ^ 127 then 2 * t else Nat.xor (2 * t - 2 ^ 128) 0x87) (leAt (aesEnc key2 (bytesOf 16 unit)) 0 16)

/-- One block of 16 bytes under AES-256-XTS: encrypted, or decrypted. `key` is both 32-byte keys, the data key first. -/
def xtsBlock (enc : Bool) (key : List Byte) (unit j : Nat) (block : List Byte) : List Byte :=
  let t := bytesOf 16 (xtsTweak (key.drop 32) unit j)
  xorBytes t ((if enc then aesEnc else aesDec) (key.take 32) (xorBytes t block))

/-- Product in the field of GHASH; a block is a number whose most significant bit is the coefficient of 1. -/
def ghashMul (x y : Nat) : Nat :=
  ((List.range 128).foldl (fun (acc : Nat × Nat) i =>
    (if bit x (127 - i) then Nat.xor acc.1 acc.2 else acc.1,
     if acc.2 % 2 = 1 then Nat.xor (acc.2 / 2) (0xE1 * 2 ^ 120) else acc.2 / 2)) (0, y)).1

/-- Bytes filled up with zeros to whole blocks of 16. -/
def padBlock (bs : List Byte) : List Byte := bs ++ List.replicate ((16 - bs.length % 16) % 16) 0

/-- AES-256-GCM with a 12-byte nonce: the ciphertext and its 16-byte tag. -/
def gcmSeal (key nonce aad msg : List Byte) : List Byte × List Byte :=
  let h := beOf (aesEnc key (List.replicate 16 0))
  let ks := (List.range ((msg.length + 15) / 16)).flatMap fun i => aesEnc key (nonce ++ beBytes 4 (i + 2))
  let ct := xorBytes msg (ks.take msg.length)
  let all := padBlock aad ++ padBlock ct ++ beBytes 8 (8 * aad.length) ++ beBytes 8 (8 * ct.length)
  let g := (List.range (all.length / 16)).foldl (fun y i => ghashMul (Nat.xor y (beOf ((all.drop (16 * i)).take 16))) h) 0
  (ct, xorBytes (beBytes 16 g) (aesEnc key (nonce ++ beBytes 4 1)))

/-- Its inverse: the message where the tag is right. -/
def gcmOpen (key nonce aad ct tag : List Byte) : Option (List Byte) :=
  let msg := (gcmSeal key nonce aad ct).1
  if (gcmSeal key nonce aad msg).2 = tag then some msg else none

/-! P-384 -/

/-- The prime of the field, the coefficient b, the order of the group and its generator. -/
def p384P : Nat := 2 ^ 384 - 2 ^ 128 - 2 ^ 96 + 2 ^ 32 - 1
@[inherit_doc p384P] def p384B : Nat := 0xb3312fa7e23ee7e4988e056be3f82d19181d9c6efe8141120314088f5013875ac656398d8a2ed19d2a85c8edd3ec2aef
@[inherit_doc p384P] def p384N : Nat := 0xffffffffffffffffffffffffffffffffffffffffffffffffc7634d81f4372ddf581a0db248b0a77aecec196accc52973
@[inherit_doc p384P] def p384G : Nat × Nat :=
  (0xaa87ca22be8b05378eb1c71ef320ad746e1d3b628ba79b9859f741e082542a385502f25dbf55296c3a545e3872760ab7,
   0x3617de4a96262c6f5d9e98bf9292dc29f8f41dbd289a147ce9da3113b5f0b8c00a60b1ce1d7e819d7a431d7c90ea0e5f)

/-- A power modulo m. -/
def powMod (m : Nat) (a e : Nat) : Nat :=
  (List.range 384).foldl (fun r i => let r := r * r % m; if bit e (383 - i) then r * a % m else r) 1

/-- Inverse modulo a prime. -/
def invMod (m a : Nat) : Nat := powMod m a (m - 2)

/-- The sum of two points of the curve; none is the point at infinity. -/
def p384Add (a b : Option (Nat × Nat)) : Option (Nat × Nat) :=
  match a, b with
  | none, x | x, none => x
  | some (x1, y1), some (x2, y2) =>
    let p := p384P
    if x1 = x2 ∧ (y1 + y2) % p = 0 then none
    else
      let l := if x1 = x2 then (3 * x1 * x1 + p - 3) * invMod p (2 * y1 % p) % p else (y2 + p - y1) * invMod p ((x2 + p - x1) % p) % p
      let x := (l * l + 2 * p - x1 - x2) % p
      some (x, (l * (x1 + p - x) + p - y1) % p)

/-- A multiple of a point. -/
def p384Mul (k : Nat) (a : Nat × Nat) : Option (Nat × Nat) :=
  (List.range 384).foldl (fun r i => let r := p384Add r r; if bit k (383 - i) then p384Add r (some a) else r) none

/-- A point of 96 bytes, x then y, big-endian; none where it does not lie on the curve. -/
def p384Point (bs : List Byte) : Option (Nat × Nat) :=
  let x := beOf (bs.take 48)
  let y := beOf ((bs.drop 48).take 48)
  if x < p384P ∧ y < p384P ∧ (y * y + 3 * x) % p384P = (x * x * x + p384B) % p384P then some (x, y) else none

/-- Whether an ECDSA P-384 signature with SHA-384, r then s of 48 bytes each, verifies over a message under a public key. -/
def ecdsaVerify (key sig msg : List Byte) : Bool :=
  let n := p384N
  let r := beOf (sig.take 48)
  let s := beOf ((sig.drop 48).take 48)
  match p384Point key with
  | none => false
  | some q =>
    if r = 0 || decide (n ≤ r) || s == 0 || decide (n ≤ s) then false
    else
      let w := invMod n s
      match p384Add (p384Mul (beOf (sha384 msg) * w % n) p384G) (p384Mul (r * w % n) q) with
      | none => false
      | some (x, _) => x % n == r

/-- The public key of a private one, as 96 bytes. -/
def p384Public (d : Nat) : List Byte :=
  match p384Mul (d % p384N) p384G with
  | some (x, y) => beBytes 48 x ++ beBytes 48 y
  | none => List.replicate 96 0

end Sys2Proof.Machine
end

