-- ==== Sys2Proof/Parts/Skein.lean ====
section
/-! DEFINITION. Parts/Skein.lean: the state of the Skein ledger (R41-R58). -/
namespace Sys2Proof.Machine

/-- The eight credit kinds; HTAG has one pool per host port (R41, R42). -/
inductive Kind where
  | mem | gfx | cmp | bin | ring | htag (pool : Fin 4) | inr | hap
deriving DecidableEq, Repr

/-- Number of holder indices: 0x00-0x7F of R42, and one index per ply (128 + p) for the standing reservation of R55. -/
abbrev holders : Nat := 192

/-- One free pool with its holdings and its active and pending shares (R42, R45, R50). -/
structure Account where
  total : Nat
  free  : Nat
  hold  : Vector Nat holders
  guar  : Vector Nat holders
  cap   : Vector Nat holders
  pguar : Vector Nat holders
  pcap  : Vector Nat holders
deriving DecidableEq, Repr

/-- The ledger: eleven accounts in the order MEM, GFX, CMP, BIN, RING, HTAG 0-3, INR, HAP; the snapshot and its flags (R50-R52). -/
structure Skein where
  accts      : Vector Account 11
  resvLive   : Vector Bool 64
  /-- SKN_AUDIT snapshot (R50). -/
  audit      : Vector Account 11
  auditEpoch : Nat
  held       : Bool
  breach     : Bool
  /-- SKN_BREACH_INFO (R52). -/
  breachInfo : Word
  /-- HAP takes not yet recharged: (channel, credits), oldest first (R44). -/
  hapTakes   : List (Nat × Nat)
deriving DecidableEq, Repr

end Sys2Proof.Machine
end

