-- ==== Sys2Proof/Machine/Credits.lean ====
section
/-! DEFINITION. Machine/Credits.lean: the operations of the Skein ledger: take, return, snapshot, swap and the conservation check
(R41-R58). Every other file changes credits only through these. -/
namespace Sys2Proof.Machine

/-- The account of a kind (R41; HTAG has one per port pool, R42). -/
def Kind.idx : Kind → Fin 11
  | .mem => 0 | .gfx => 1 | .cmp => 2 | .bin => 3 | .ring => 4
  | .htag q => ⟨5 + q.val, by omega⟩
  | .inr => 9 | .hap => 10

/-- Kind code of an account and, for HTAG, its pool (R41). -/
def acctKind (i : Nat) : Nat × Nat :=
  if i < 5 then (i, 0) else if i < 9 then (5, i - 5) else (i - 3, 0)

/-- Holder index of a ply (R42). -/
def plyHolder (p : Fin 64) : Fin holders := ⟨p.val, by simp only [holders]; omega⟩
/-- Holder index of the device itself, 0x40 (R42). -/
def devHolder : Fin holders := 0x40
/-- Holder index of haptic channel `c`, 0x48 + c (R42). -/
def hapHolder (c : Fin 8) : Fin holders := ⟨0x48 + c.val, by simp only [holders]; omega⟩
/-- Holder index of power island `i`, 0x60 + i (R42). -/
def islandHolder (i : Fin 32) : Fin holders := ⟨0x60 + i.val, by simp only [holders]; omega⟩
/-- Index that keeps a class A ply's standing reservation apart from its other credits of the kind (R55, R61; log entry 10). -/
def standHolder (p : Fin 64) : Fin holders := ⟨128 + p.val, by simp only [holders]; omega⟩

/-- Credits the holder's guarantee still lacks: owed(k, g) of R46. -/
def Account.owed (a : Account) (g : Fin holders) : Nat := at' a.guar g - at' a.hold g

/-- Sum of what every holder is owed (R46, R48). -/
def Account.owedSum (a : Account) : Nat := ((allFin holders).map a.owed).sum

/-- Sum of the holdings of a kind (R49). -/
def Account.holdSum (a : Account) : Nat := ((allFin holders).map (at' a.hold)).sum

/-- free + holdings - total (R49); zero while the ledger conserves. -/
def Account.delta (a : Account) : Int := (a.free : Int) + a.holdSum - a.total

/-- Whether a take of `n` credits by `h` is granted: the cap test and then the reserve test of R46. -/
def Account.grants (a : Account) (h : Fin holders) (n : Nat) : Bool :=
  decide (at' a.hold h + n ≤ at' a.cap h) && decide (n + (a.owedSum - a.owed h) ≤ a.free)

/-- R46: a take of `n` credits, or none where it is refused. The test and the update are one step. -/
def Account.take (a : Account) (h : Fin holders) (n : Nat) : Option Account :=
  if a.grants h n then
    some { a with free := a.free - n, hold := put a.hold h (at' a.hold h + n) }
  else none

/-- R44: a holder returns `n` credits (at most what it holds) to the free pool. -/
def Account.give (a : Account) (h : Fin holders) (n : Nat) : Account :=
  let m := min n (at' a.hold h)
  { a with free := a.free + m, hold := put a.hold h (at' a.hold h - m) }

/-- Everything a holder holds returns to the free pool. -/
def Account.giveAll (a : Account) (h : Fin holders) : Account := a.give h (at' a.hold h)

/-- Every holding returns (MEM at the epoch boundary, R44, R50). -/
def Account.giveEvery (a : Account) : Account :=
  { a with free := a.free + a.holdSum, hold := Vector.replicate holders 0 }

/-- Pending shares and reservations swap in (R50 step 3). -/
def Account.swap (a : Account) : Account := { a with guar := a.pguar, cap := a.pcap }

/-- The active and pending shares of a holder set at once (device reserves at a reset, R45). -/
def Account.setShare (a : Account) (h : Fin holders) (g c : Nat) : Account :=
  { a with guar := put a.guar h g, cap := put a.cap h c, pguar := put a.pguar h g, pcap := put a.pcap h c }

/-- The pending shares of a holder (R50, R53). -/
def Account.setPending (a : Account) (h : Fin holders) (g c : Nat) : Account :=
  { a with pguar := put a.pguar h g, pcap := put a.pcap h c }

/-- Sum of the pending guarantees of every holder (R54, R57). -/
def Account.pguarSum (a : Account) : Nat := ((allFin holders).map (at' a.pguar)).sum

/-- Most that may be guaranteed of a kind (R54). -/
def guaranteeable (i : Fin 11) (total : Nat) : Nat :=
  if i.val = 0 then total * 3 / 4 else if 5 ≤ i.val ∧ i.val < 9 then 192 else if i.val < 5 then total else 0

/-- Device reserve of a kind, the GUAR of holder 0x40 (R54). -/
def deviceReserve (i : Fin 11) (total : Nat) : Nat :=
  if i.val = 0 then total / 64 else if i.val = 2 then 64 else if 5 ≤ i.val ∧ i.val < 9 then 16 else 0

/-- An account with all its credits free and no shares. -/
def Account.empty (total : Nat) : Account :=
  { total := total, free := total,
    hold := Vector.replicate holders 0, guar := Vector.replicate holders 0, cap := Vector.replicate holders 0,
    pguar := Vector.replicate holders 0, pcap := Vector.replicate holders 0 }

/-- An account with the CAP of the kind's own holders at the total: islands for INR, channels for HAP (R54: not guaranteeable). -/
def Account.openCap (a : Account) (hs : List (Fin holders)) : Account :=
  hs.foldl (fun b h => b.setShare h 0 a.total) a

/-- Total of each kind (R41): `mem` from training, `clusters` enabled, `bin` from the policy. -/
def kindTotal (i : Fin 11) (mem clusters bin : Nat) : Nat :=
  match i.val with
  | 0 => mem | 1 => clusters * 500 | 2 => 1024 | 3 => bin | 4 => 8192 | 9 => 16 | 10 => 400 | _ => 256

/-- The account of a kind with nothing held and the device reserve in force (R41, R45, R54). -/
def Account.fresh (i : Fin 11) (mem clusters bin : Nat) : Account :=
  let t := kindTotal i mem clusters bin
  let a := (Account.empty t).setShare devHolder (deviceReserve i t) t
  if i.val = 9 then a.openCap ((allFin 32).map islandHolder)
  else if i.val = 10 then a.openCap ((allFin 8).map hapHolder) else a

/-- MEM credits per epoch at a trained data rate: rate x 250, times 7/8 rounded down with inline ECC (R41). -/
def memTotal (mts : Nat) (inlineEcc : Bool) : Nat := if inlineEcc then mts * 250 * 7 / 8 else mts * 250

/-- The account of a kind in the ledger. -/
def Skein.acct (k : Skein) (kd : Kind) : Account := at' k.accts kd.idx

/-- The ledger with one account replaced. -/
def Skein.setAcct (k : Skein) (kd : Kind) (a : Account) : Skein := { k with accts := put k.accts kd.idx a }

/-- Whether the ledger grants a take (R46). -/
def Skein.grants (k : Skein) (kd : Kind) (h : Fin holders) (n : Nat) : Bool := (k.acct kd).grants h n

/-- R46 on the ledger: the take, or none where it is refused. -/
def Skein.take (k : Skein) (kd : Kind) (h : Fin holders) (n : Nat) : Option Skein :=
  ((k.acct kd).take h n).map (k.setAcct kd)

/-- R44 on the ledger: `n` credits return. -/
def Skein.give (k : Skein) (kd : Kind) (h : Fin holders) (n : Nat) : Skein := k.setAcct kd ((k.acct kd).give h n)

/-- Everything the holder holds of a kind returns. -/
def Skein.giveAll (k : Skein) (kd : Kind) (h : Fin holders) : Skein := k.setAcct kd ((k.acct kd).giveAll h)

/-- What a holder holds of a kind. -/
def Skein.held' (k : Skein) (kd : Kind) (h : Fin holders) : Nat := at' (k.acct kd).hold h

/-- The eight kinds with HTAG in each pool: the eleven accounts. -/
def allKinds : List Kind :=
  [.mem, .gfx, .cmp, .bin, .ring, .htag 0, .htag 1, .htag 2, .htag 3, .inr, .hap]

/-- All that ply `p` holds of a kind, its standing part included. -/
def Skein.plyHeld (k : Skein) (kd : Kind) (p : Fin 64) : Nat := k.held' kd (plyHolder p) + k.held' kd (standHolder p)

/-- R117: zero holdings of the ply in every kind and every HTAG pool. -/
def Skein.plyZero (k : Skein) (p : Fin 64) : Bool := allKinds.all fun kd => k.plyHeld kd p == 0

/-- R48: a class A ply's bounds can hold: in every kind in which it has a reservation the free pool covers what is owed. -/
def Skein.live (k : Skein) (p : Fin 64) : Bool :=
  allKinds.all fun kd =>
    let a := k.acct kd
    (at' a.guar (plyHolder p) + at' a.guar (standHolder p) == 0) || decide (a.owedSum ≤ a.free)

/-- First account whose credits do not add up, with the discrepancy (R51). -/
def firstBreach (v : Vector Account 11) : Option (Nat × Int) :=
  ((allFin 11).find? fun i => (at' v i).delta != 0).map fun i => (i.val, (at' v i).delta)

/-- SKN_BREACH_INFO of a breach (R52). -/
def breachWord (acct : Nat) (delta : Int) (atSnapshot : Bool) : Word :=
  let (kind, pool) := acctKind acct
  word (kind * 2 ^ 28 + pool * 2 ^ 26 + bit1 atSnapshot * 2 ^ 25 + unsigned 25 delta)

/-- The ledger with a breach noted: BREACH and HELD set, SKN_BREACH_INFO kept from the first (R51, R52). -/
def Skein.noteBreach (k : Skein) (acct : Nat) (delta : Int) (atSnapshot : Bool) : Skein :=
  { k with breach := true, held := true,
           breachInfo := if k.breach then k.breachInfo else breachWord acct delta atSnapshot }

/-- R50 step 1: the snapshot, unless it is frozen; the checker tests it before software can read it (R51).
Answers the ledger and the breach found, if any. -/
def Skein.snapshot (k : Skein) (epoch : Nat) : Skein × Option (Nat × Int) :=
  if k.held then (k, none)
  else
    let k := { k with audit := k.accts, auditEpoch := epoch }
    match firstBreach k.audit with
    | none => (k, none)
    | some (i, d) => (k.noteBreach i d true, some (i, d))

/-- R50 step 2: all MEM holdings return together. -/
def Skein.returnMem (k : Skein) : Skein := k.setAcct .mem (k.acct .mem).giveEvery

/-- R50 step 3: pending shares and reservations swap in. -/
def Skein.swapShares (k : Skein) : Skein := { k with accts := k.accts.map Account.swap }

/-- R50 step 4: RESV_LIVE of every class A ply (R48); it reads 0 for the others. -/
def Skein.reevaluate (k : Skein) (classA : Fin 64 → Bool) : Skein :=
  { k with resvLive := Vector.ofFn fun p => classA p && k.live p }

/-- R46 with the moments of R44 for HAP: a haptic start's take, noted for the recharge order. -/
def Skein.takeHap (k : Skein) (c : Fin 8) (n : Nat) : Option Skein :=
  (k.take .hap (hapHolder c) n).map fun k => { k with hapTakes := k.hapTakes ++ (if n = 0 then [] else [(c.val, n)]) }

/-- R44: one HAP credit returns per millisecond of DEVTIME, oldest take first across all channels. -/
def Skein.rechargeHap (k : Skein) : Skein :=
  match k.hapTakes with
  | [] => k
  | (c, n) :: t =>
    let k := { k with hapTakes := if n ≤ 1 then t else (c, n - 1) :: t }
    match fin? 8 c with
    | some c => k.give .hap (hapHolder c) 1
    | none => k

/-- The MEM account comes into existence when training completes (R41, R270): total, free pool, device reserve. -/
def Skein.trainMem (k : Skein) (total : Nat) : Skein :=
  let a := (k.acct .mem).giveEvery
  k.setAcct .mem (({ a with total := total, free := total } : Account).setShare devHolder (deviceReserve 0 total) total)

/-- The ledger after a reset: totals of R41 for the enabled clusters, MEM not yet trained, the default BIN total. -/
def Skein.reset (clusters : Nat) : Skein :=
  { accts := Vector.ofFn fun i => Account.fresh i 0 clusters 1024,
    resvLive := Vector.replicate 64 false,
    audit := Vector.replicate 11 (Account.empty 0),
    auditEpoch := 0, held := false, breach := false, breachInfo := 0, hapTakes := [] }

end Sys2Proof.Machine
end

