-- ==== Sys2Proof/Parts/Ely.lean ====
section
/-! DEFINITION. Parts/Ely.lean: the state of Elytra, the trusted island (R288-R319). -/
namespace Sys2Proof.Machine

/-- A borrower of a lent granule: ply and whether it may write (R306). -/
structure Borrower where
  ply   : Nat
  write : Bool
deriving DecidableEq, Repr

/-- A lend-table entry (R306). -/
structure Lend where
  owner     : Nat
  borrowers : List Borrower
deriving DecidableEq, Repr

/-- ELY_STATUS.STATE (R319). -/
inductive ElyState where | rom | running | restarting | halted
deriving DecidableEq, Repr

/-- An accepted command in the journal (R296). -/
structure Journal where
  /-- Order in which Elytra took it. -/
  order : Nat
  port  : Fin 4
  /-- The 64-byte request slot. -/
  slot  : List Byte
  /-- Begun and waiting for something outside Elytra: a boundary, a scrub, a power-down. -/
  begun : Bool
  /-- Order of acceptance of descriptors when it began to wait for a ply's earlier ones (R90, R306, R307). -/
  mark  : Nat
  /-- Its port went down: the response is discarded (R335). -/
  mute  : Bool
deriving DecidableEq, Repr

/-- A boot partition of the flash: generation and container (R292). -/
structure Partition where
  gen       : Nat
  container : Container
deriving DecidableEq, Repr

/-- Elytra. -/
structure Ely where
  state     : ElyState
  /-- The ROM waits for CONTAINER_LOAD (R292). -/
  romMode   : Bool
  lastCause : Nat
  restarts  : Nat
  /-- DEVTIME of the restarts, newest first (R317). -/
  restartAt : List Nat
  /-- The running container (R292 step 6); its policy is the running policy. -/
  running   : Option Container
  /-- The retained copy: the bytes of the whole verified container, below SEC_WM under key slot 64 at a place that the manual does not give (R292 step 6),
  and whether it has been lost (R316, R318). -/
  copy      : List Byte
  retainedLost : Bool
  /-- The fuses: 1,024 bytes, bit 8 i + k of the map in bit k of byte i (R289). -/
  fuses     : List Byte
  /-- Sections loaded into Elytra SRAM and secure DRAM, by type (R288, R290). A restart clears the SRAM (R316). -/
  sram      : List (Nat × List Byte)
  secure    : List (Nat × List Byte)
  /-- Digest of ELY_FW, in an island register that only a cold reset clears (R292 step 6). -/
  fwDigest  : List Byte
  /-- Private identity and alias keys, in SRAM from the boot on (R308); 0 none. -/
  identity  : Nat
  aliasKey  : Nat
  /-- Flash boot partitions A and B. -/
  parts     : Vector (Option Partition) 2
  /-- Partition the running container came from. -/
  runPart   : Fin 2
  runGen    : Nat
  /-- Measurements 1-8 (R310). -/
  measures  : Vector (List Byte) 8
  /-- Command map: entry index by code; unlisted is 0x7F. Entry table: address by entry index. Both locked by the firmware (R301). -/
  cmdMap    : List (Nat × Nat)
  entries   : List (Nat × Nat)
  locked    : Bool
  /-- Requests offered and not yet taken, in arrival order: the port of each (R296). -/
  inbox     : List (Fin 4)
  journal   : List Journal
  nextOrder : Nat
  /-- SEC_WM in 2 MiB units (R35, R302). -/
  secWm   : Nat
  /-- Owner bytes by granule; an unlisted granule is 0xFD below SEC_WM and 0xFF above (R303). -/
  owner   : List (Nat × Nat)
  /-- After a warm device reset, an unlisted granule above SEC_WM is 0xFC: still to be scrubbed (R438). -/
  unscrubbed : Bool
  lend    : List (Nat × Lend)
  /-- Key generation in each of the 65 key slots; 0 is an erased slot (R283, R308). -/
  keySlot : Vector Nat 65
  nextKey : Nat
deriving DecidableEq, Repr

end Sys2Proof.Machine
end

