-- ==== Sys2Proof/Machine/Init.lean ====
section
/-! DEFINITION. Machine/Init.lean: the reset and creation values of every part of the state, as the manual's Reset columns give them. -/
namespace Sys2Proof.Machine

/-- A submission ring at ply creation: the Reset column of R72. -/
def SubRing.blank : SubRing :=
  { enable := false, log2Depth := 0, poll := false, vec := 0, vecEn := false, base := 0, error := false, asleep := false,
    setupErr := false, cons := 0, prod := 0, read := .idle, again := false, queue := [] }

/-- A completion ring at ply creation (R72). -/
def CplRing.blank : CplRing :=
  { enable := false, log2Depth := 0, base := 0, asleep := false, setupErr := false, prod := 0, cons := 0, reserved := 0,
    waiters := [], reread := .none, again := false, dropped := 0 }

/-- No dirty logging (R125). -/
def DirtyLog.off : DirtyLog := { on := false, windows := [], useB := false, outside := false, lines := [], cached := [] }

/-- No migration (R127-R130). -/
def Migration.none : Migration :=
  { role := 0, agreed := false, attested := false, key := 0, done := 0, tracking := false, round := 0, todo := [], dirty := [], stateDue := false,
    seq := 0, sent := [], lastSeq := 0, imported := false, placed := [], bySeq := [] }

/-- An absent ply. Its page registers hold the creation values of R72. -/
def Ply.absent : Ply :=
  { cls := .c, state := .absent, cause := .none, port := 0, pasid := 0, hostDead := false, pollUs := 10, dbrBase := 0, evtVec := 0,
    evtLost := 0, fenceSel := 0, fenceStage := 0, fenceLatch := 0, fences := [], rings := Vector.replicate 4 SubRing.blank,
    cq := CplRing.blank, pollOut := Option.none, pollDefer := false, pollTags := 0, tables := [], shareDue := false, shareBase := [],
    log := DirtyLog.off, mig := Migration.none }

/-- A mailbox with nothing in it (R294). -/
def Mailbox.empty : Mailbox :=
  { req := [], rsp := [], reqProd := 0, reqCons := 0, rspProd := 0, rspCons := 0, dropped := 0, skipped := [], ready := [] }

/-- No SPDM connection (R309). -/
def Spdm.closed : Spdm := { phase := 0, sessions := [] }

/-- A port without a link, its registers at their reset values (R330, R335). `perst` is the level of PERST_N. -/
def Port.blank (perst : Bool) : Port :=
  { perst := perst, linkUp := false, speed := 0, width := 0, inL1 := false, linkDowns := 0, down := false, cfg := [], regs := [],
    latch := [], evtLog := [], evtLost := 0, msix := [], pba := [], held := [], ltrLast := 0, ptmSeq := 0, ptmDev := 0, ptmHost := 0,
    ptmT1 := Option.none, atc := [], inval := [], mbx := Mailbox.empty, spdm := Spdm.closed,
    doe := { inbox := [], outbox := [], error := false }, ide := Vector.replicate 3 0 }

/-- DRAM that nothing has written. -/
def Dram.blank : Dram := { cells := [], unitKey := [], granKey := [] }

/-- A policy entry that is empty (R106). -/
def PlyPolicy.empty : PlyPolicy :=
  { cls := Option.none, ports := [], guarMax := Vector.replicate 6 0, capMax := Vector.replicate 6 0, memMax := 0, heads := [],
    panels := [], aPanels := 0, haptics := [], voices := 0, waves := 0, outputs := 0, inputs := [], handles := [], ringPaths := [], checks := [] }

/-- A head of which the policy says nothing. -/
def HeadPolicy.empty : HeadPolicy :=
  { sets := Vector.replicate 4 Option.none, plates := Vector.replicate 16 Option.none, slots := [], slotGran := [], mode := Option.none, dscAllow := false,
    sigs := Vector.replicate 4 Option.none }

/-- Elytra before boot: SEC_WM at its minimum of 64 MiB (R35, R319), no key loaded, no container run. -/
def Ely.blank : Ely :=
  { state := .rom, romMode := false, lastCause := 0, restarts := 0, restartAt := [], running := Option.none, copy := [], retainedLost := false,
    fuses := List.replicate 1024 0, sram := [], secure := [], fwDigest := [], identity := 0, aliasKey := 0, parts := Vector.replicate 2 Option.none, runPart := 0, runGen := 0,
    measures := Vector.replicate 8 (List.replicate 48 0), cmdMap := [], entries := [], locked := false, inbox := [], journal := [],
    nextOrder := 0, secWm := 32, owner := [], unscrubbed := false, lend := [], keySlot := Vector.replicate 65 0, nextKey := 1 }

/-- A check-value unit at reset: the running value is INIT masked (R446, R461). -/
def CheckUnit.blank : CheckUnit :=
  { running := 0xFFFFFFFF, job := Option.none, queue := [], pending := false, lock := false, grant := 0 }

/-- No self-test result (R461). -/
def Bist.blank : Bist :=
  { valid := false, fresh := false, pass := false, startup := false, pwrcyc := 0, fail := 0, opsec := 0, deferred := [], untested := [], report := [], late := false,
    runFail := false, passes := 0, firstFail := 0, slices := [], thisEpoch := [], badHeads := [] }

/-- An empty recorder without flash (R461). -/
def Ccn.blank : Ccn :=
  { buffer := [], buckets := [], overflow := 0, frozen := false, refill := false, flash := false, opsec := 0, pwrcyc := 0, next := 0,
    lap := 0, log := [], cntPos := 0, counters := [], sinceCnt := 0, wakeDue := false }

/-- A bank, closed, its adaptive timer at 256 (R268). -/
def Bank.blank : Bank :=
  { row := Option.none, lastRow := Option.none, timer := 256, hits := 0, conflicts := 0, lost := 0, postponed := 0 }

/-- A channel with nothing queued. -/
def Chan.blank : Chan :=
  { queue := [], issued := [], banks := Vector.replicate 16 Bank.blank, light := false, refRate := Vector.replicate 2 0, fine := false, drift := false,
    slice := false, forced := false, retry := [], alert := false, replaying := false, training := false }

/-- The memory controller before training: MC_INFO reads 0 (R270, R287); every head reports 0xF_FFFF (R134). -/
def Mc.blank : Mc :=
  { desc := Option.none, trained := false, chans := Vector.replicate 16 Chan.blank, nextId := 0, deep := false, topUp := false, acks := [],
    bad := [], checks := Vector.replicate 8 [], tol := Vector.replicate 8 0xFFFFF, forcedN := 0, ce := 0, ue := 0, faults := 0, replays := 0, segDrop := 0, bankDrop := 0,
    pSegDrop := 0, pBankDrop := 0 }

/-- A tenancy entry that is not valid (R180). -/
def Tenancy.blank : Tenancy := { valid := false, classA := false, ply := 0, zb := 0, x0 := 0, x1 := 0, y0 := 0, y1 := 0 }

/-- The timing registers at reset (R134). -/
def Timing.blank : Timing :=
  { ctl := 0, htim0 := 0, htim1 := 0, vtim0 := 0, vtim1 := 0, pll0 := 0, pll1 := 0, out := 0x108100C0, bobbin := 0x01F40008 }

/-- A signature region at reset (R204). -/
def Sig.blank : Sig :=
  { expect := [], result := 0, frame := 0, isMatch := false, compared := false, hold := false, outside := false }

/-- No plate shown. -/
def PlateState.blank : PlateState := { shown := false, due := Option.none, cmp := 0, hold := false, lost := false }

/-- A head at reset: OFF (R134, R135). -/
def Head.blank : Head :=
  { gen := .off, timing := Timing.blank, armed := Option.none, armLate := false, err := 0, frame := 0, idle := false, cutoff := false,
    relocked := false, paired := false, since := 0, link := .idle, hpd := false, sink := Option.none, tries := [], cfg := Option.none,
    trained := false, steady := false, effBpc := 0, dscOn := false, dscBpp := 0, underruns := 0, lastLayer := 0, tenSet := 0,
    tenWait := Option.none, tens := Vector.replicate 16 Tenancy.blank, plates := Vector.replicate 16 PlateState.blank, layers := [],
    groups := [], sigs := Vector.replicate 4 Sig.blank }

/-- The Carder at reset: no LUT entry written; HEARTBEAT and FBSEL_N low (R153, R154, R167). -/
def Carder.blank : Carder :=
  { heads := Vector.replicate 8 Head.blank, luts := [], hbLevel := false, fbHigh := false, fbLatched := false, fbCount := 0 }

/-- Clocks and power right after a cold reset: no island is up yet, the points are those after boot (R433), the counters and the temperature
thresholds at their reset values (R441). -/
def Power.blank (strap watchPort : Fin 4) (lastCause : Nat) : Power :=
  { state := .dim, islands := put (Vector.replicate 32 Island.off) 0 Island.good, waits := [], pending := [], pendState := Option.none, moult := false,
    vg := 4, vc := 1, pendVg := Option.none, pendVc := Option.none, resetDue := false, held := false, vaonOk := true, vaonWarn := false, vaonNow := 0,
    dipMin := 0, dipCycles := 0, sensors := Vector.replicate 8 { valid := false, temp := 0, armed := true }, tripped := false,
    tripSeen := false, lastCause := lastCause,
    fcnt := Vector.replicate 4 { start := false, done := false, sat := false, gate := 8, ref := 1, meas := 0, count := 0 },
    watchPort := watchPort, wakeN := false, strap := strap, vddg := true }

/-- Pipeline state at a job's start: every item 0 (R206). -/
def Stage.zero : Stage := { code := 0, vregs := 0, sregs := 0, lds := 0, wx := 0, wy := 0, wz := 0, table := 0, consts := [] }
@[inherit_doc Stage.zero] def Target.zero : Target :=
  { enable := false, format := 0, ozc := false, load := 0, store := 0, addr := 0, stride := 0, header := 0, clear := 0 }
@[inherit_doc Stage.zero] def Pipe.zero : Pipe :=
  { stages := Vector.replicate 3 Stage.zero, targets := Vector.replicate 5 Target.zero,
    raster := { vx := 0, vy := 0, vw := 0, vh := 0, d4 := 0, d5 := 0, d6 := 0, d7 := 0 }, blend := Vector.replicate 4 0 }

/-- A cluster's context with nothing in it. -/
def Context.empty : Context := { waves := [], groups := [], tile := Option.none, cells := [], pls := [], outs := [] }

/-- A cluster that holds no job. -/
def Cluster.idle : Cluster :=
  { job := Option.none, ctx := Context.empty, l1 := [], icache := [], tcache := [], saving := false, beyond := false, placed := 0, dest := Option.none }

/-- The raster engine at reset (R234). -/
def Gfx.blank : Gfx :=
  { jobs := [], clusters := Vector.replicate 16 Cluster.idle, nextPlace := 0, preempts := 0, partials := 0, misses := 0, saves := [] }

/-- The ring ports and the ring at reset: not a member, pins low (R345, R363). -/
def WhlPort.blank : WhlPort := { state := .off, rate := 0, pin := false, nb := Option.none, drops := 0, repairs := 0, delay := 0, key := 0, standby := 0 }
@[inherit_doc WhlPort.blank] def Whorl.blank : Whorl :=
  { ports := Vector.replicate 2 WhlPort.blank, member := false, ringId := 0, masterId := 0, closed := false, timed := false,
    reach := Vector.replicate 2 [], mark := 0, offset := 0, adopt := Option.none, probe := Option.none, chans := [],
    follow := Vector.replicate 8 false, locked := Vector.replicate 8 false, relock := Vector.replicate 8 false }

/-- A gain that does not ramp. -/
def Gain.still (target : Nat) : Gain := { g := target * 65536, target := target, step := 0, left := 0 }

/-- The audio block at reset: crosspoints 0, biquads without history, no ducking (R366, R374, R379). -/
def Biquad.zero : Biquad := { x1 := 0, x2 := 0, y1 := 0, y2 := 0 }
@[inherit_doc Biquad.zero] def AudOut.blank : AudOut :=
  { duck := Gain.still 0x4000, main := Vector.replicate 8 Biquad.zero, chime := Vector.replicate 8 Biquad.zero, comp := 0, lim := 2 ^ 96, line := [] }
@[inherit_doc Biquad.zero] def Audio.blank : Audio :=
  { xp := [], xset := [], xpend := [], eq := [], outs := Vector.replicate 32 AudOut.blank, streams := [], voices := Vector.replicate 16 Option.none,
    owner := Vector.replicate 15 Option.none, tdm := Vector.replicate 4 { clkLost := false, slips := 0 }, lockOut := 0, lockTdm := 0, due := [],
    lost := [], block := Option.none }

/-- A panel without a configuration; its first scan consults `ref` (R387, R396). -/
def Panel.blank (ref : StartRef) : Panel :=
  { cfg := Option.none, next := Option.none, scanning := false, scan := Option.none, recap := false, first := true, ref := ref, nodes := [], drift := 0,
    noise := false, freq := 0, scores := Vector.replicate 8 0, score := 0, half := 0, high := 0, low := 0, contacts := [], periodUs := 0, force := false }
@[inherit_doc Panel.blank] def Touch.blank : Touch :=
  { panels := Vector.replicate 4 (Panel.blank .flash), running := Option.none, result := 0, lastCmd := 0, nFaults := 0, faults := [],
    stored := Vector.replicate 4 Option.none, kept := Vector.replicate 4 Option.none, blocked := false, wakeX := [], wakeY := [], wakeN := 0,
    trail := [], woke := false, wakeKind := 0, wakeAt := (0, 0) }

/-- Haptic channels at reset: empty pools, HAPn_EN low (R408, R421). -/
def HapChan.blank : HapChan :=
  { pool := Vector.replicate 32 Option.none, loads := [], arrivals := [], wait := Option.none, run := Option.none, en := false, holding := Option.none,
    i := 0, u := 0, trips := [], lastTrip := 0, due := Option.none, slot := 0, prio := 0, energy := 0, bins := [], binTick := 0 }
@[inherit_doc HapChan.blank] def Haptics.blank : Haptics := { chans := Vector.replicate 8 HapChan.blank, place := 0, warnEnd := 0 }

end Sys2Proof.Machine
end

