-- ==== Sys2Proof/Machine/State.lean ====
section
/-! DEFINITION. Machine/State.lean: the state of the block, its faults and refusals, and the state after reset. -/
namespace Sys2Proof.Machine

/-- A rate-limiting token bucket (R102): its key (destination, code, unit), tokens left, DEVTIME of the last refill, events withheld. -/
structure Bucket where
  dest     : Nat
  code     : Nat
  unit     : Nat
  tokens   : Nat
  last     : Nat
  withheld : Nat
deriving DecidableEq, Repr

/-- Everything but the command queue, the DRAM bytes and the ledger. -/
structure Dev where
  /-- DEVTIME in nanoseconds (R31). -/
  devtime   : Nat
  /-- DEVTIME of the last epoch boundary. -/
  lastEpoch : Nat
  plies     : Vector Ply 64
  ports     : Vector Port 4
  ely       : Ely
  /-- DRAM_TOP: installed capacity less the inline-ECC carve-out (R35). -/
  dramTop   : Nat
  /-- Variant index of R4, from fuses and bonding. -/
  variant   : Fin 12
  /-- REFCLK0 and SLPCLK are present (R425). -/
  refclk    : Bool
  slpclk    : Bool
  power     : Power
  mc        : Mc
  carder    : Carder
  gfx       : Gfx
  whorl     : Whorl
  audio     : Audio
  touch     : Touch
  haptics   : Haptics
  checks    : Vector CheckUnit 8
  bist      : Bist
  ccn       : Ccn
  /-- Device set-up registers as written, by BAR0 offset, and the active copies of the double-buffered ones (R18). -/
  regs      : List (Nat × Word)
  act       : List (Nat × Word)
  /-- Outstanding host reads holding an HTAG credit, and reads whose take was refused (R44, R46). -/
  reads     : List HostRead
  readWaits : List HostRead
  buckets   : List Bucket
  /-- Order of acceptance of the next descriptor. -/
  order     : Nat
  /-- The model's own counter behind free values (log entry 3). -/
  fresh     : Nat
  out       : List Out
deriving DecidableEq, Repr

/-- The device part after a reset: what the reset keeps is given, everything else takes its reset value. -/
def Dev.atReset (variant : Fin 12) (perst : Vector Bool 4) (power : Power) (ely : Ely) (bist : Bist) (ccn : Ccn) (touch : Touch)
    (regs : List (Nat × Word)) (slpclk : Bool) (order fresh : Nat) (out : List Out) : Dev :=
  { devtime := 0, lastEpoch := 0, plies := Vector.replicate 64 Ply.absent, ports := perst.map Port.blank, ely := ely, dramTop := 0, variant := variant,
    refclk := true, slpclk := slpclk, power := power, mc := Mc.blank, carder := Carder.blank, gfx := Gfx.blank, whorl := Whorl.blank,
    audio := Audio.blank, touch := touch, haptics := Haptics.blank, checks := Vector.replicate 8 CheckUnit.blank, bist := bist, ccn := ccn,
    regs := regs, act := regs, reads := [], readWaits := [], buckets := [], order := order, fresh := fresh, out := out }

/-- The state of the block. The meanings change everything but `pending`. -/
structure State where
  /-- Commands waiting, first in, first out. -/
  pending : List Instr
  dram    : Dram
  skein   : Skein
  dev     : Dev
deriving DecidableEq, Repr

/-- The machine right after its first cold reset, variant OZ8C16: nothing in flash, DRAM never written, PERST_N of every port low (log entry 1). -/
def State.reset : State :=
  { pending := [], dram := Dram.blank, skein := Skein.reset 16,
    dev := Dev.atReset 0 (Vector.replicate 4 true) (Power.blank 0 0 1) Ely.blank Bist.blank { Ccn.blank with pwrcyc := 1 } Touch.blank [] true 0 0 [] }

/-- Reasons the block could stop with a fault: there are none. A command that finds nothing to act on leaves the state as it is, and an error that the
manual describes is part of the next state. -/
inductive Fault where
deriving DecidableEq, Repr

/-- Reasons a command has no meaning. -/
inductive Refusal where
  /-- The command's meaning has not been written. No arm of `exec` answers with it. Safe: nothing follows from it. -/
  | notModelled (mnemonic : String)
deriving DecidableEq, Repr

/-- What a meaning answers. -/
abbrev Res := Host.Outcome State Fault Refusal

end Sys2Proof.Machine
end

