-- ==== Sys2Proof/Machine/Memory.lean ====
section
/-! DEFINITION. Machine/Memory.lean: device DRAM under per-ply encryption (R283-R285), and the ply translation (R36, R90, R303, R306). -/
namespace Sys2Proof.Machine

/-! Bytes -/

/-- The canonical form of the byte list: addresses strictly rising and no byte 0 listed. -/
def cellsOk : List Host.Cell → Bool
  | [] => true
  | [(_, b)] => b != 0
  | (a, b) :: (a', b') :: t => b != 0 && decide (a < a') && cellsOk ((a', b') :: t)

/-- DRAM is in canonical form. -/
def Dram.wf (m : Dram) : Bool := cellsOk m.cells

/-- The stored byte at an address; an unlisted byte is 0. -/
def Dram.raw (m : Dram) (a : Nat) : Byte := Map.get m.cells 0 a

/-- Key generation a 64-byte unit was last written under; 0 is never (R283). -/
def Dram.keyOf (m : Dram) (u : Nat) : Nat := Map.get m.unitKey (Map.get m.granKey 0 (u / 1024)) u

/-- The two 32-byte keys of a key generation. -/
def slotKey (g : Nat) : List Byte := (List.range 64).map (Config.slotKey g)

/-- The 16 bytes that the DRAM cells of block `j` of a unit hold: the plain bytes encrypted under the key that the unit was written with, the unit's
physical address its tweak (R283). Cells that nothing has filled hold free values. -/
def Dram.cipher (m : Dram) (u j : Nat) : List Byte :=
  let at0 := 64 * u + 16 * j
  let bs := (List.range 16).map fun i => m.raw (at0 + i)
  if m.keyOf u = 0 then (List.range 16).map fun i => Config.residue (at0 + i) (m.raw (at0 + i)) else xtsBlock true (slotKey (m.keyOf u)) (64 * u) j bs

/-- One byte as a request under key generation `g` reads it: its block's ciphertext decrypted under that key (R283, R284). Under the key that the unit
was written with, that is the byte written. -/
def Dram.read (m : Dram) (g a : Nat) : Byte :=
  if m.keyOf (a / 64) = g ∧ g ≠ 0 then m.raw a
  else (xtsBlock false (slotKey g) (a / 64 * 64) (a / 16 % 4) (m.cipher (a / 64) (a / 16 % 4))).getD (a % 16) 0

/-- `n` bytes from an address. -/
def Dram.readN (m : Dram) (g a n : Nat) : List Byte := (List.range n).map fun i => m.read g (a + i)

/-- The byte list with one byte stored. -/
def Dram.poke (m : Dram) (a : Nat) (b : Byte) : Dram := { m with cells := Map.setD m.cells 0 a b }

/-- A whole unit passes under key generation `g`: a write of fewer than 64 bytes is a read-modify-write of the unit (R285). -/
def Dram.rekey (m : Dram) (g u : Nat) : Dram :=
  if m.keyOf u = g ∧ g ≠ 0 then m
  else
    let bs := m.readN g (u * 64) 64
    let m := { m with unitKey := Map.ins m.unitKey u g }
    (bs.zipIdx).foldl (fun m e => m.poke (u * 64 + e.2) e.1) m

/-- One byte stored under a key generation. -/
def Dram.write (m : Dram) (g a : Nat) (b : Byte) : Dram := (m.rekey g (a / 64)).poke a b

/-- Bytes stored from an address on, in rising order. -/
def Dram.writeN (m : Dram) (g : Nat) : Nat → List Byte → Dram
  | _, [] => m
  | a, b :: t => (m.write g a b).writeN g (a + 1) t

/-- One 64 KiB granule overwritten with zeros under a key (R305). -/
def Dram.scrub (m : Dram) (g gran : Nat) : Dram :=
  { cells := m.cells.filter fun c => c.1 / 65536 != gran,
    unitKey := m.unitKey.filter fun e => e.1 / 1024 != gran,
    granKey := Map.ins m.granKey gran g }

/-- The contents of DRAM are lost in the address ranges that `lost` names: their units read as never written under any key (R278, R427). -/
def Dram.lose (m : Dram) (lost : Nat → Bool) : Dram :=
  { m with unitKey := m.unitKey.filter (fun e => !lost (e.1 * 64)),
           granKey := m.granKey.filter (fun e => !lost (e.1 * 65536)) }

/-! Ownership and translation -/

/-- The owner byte of a granule (R303). -/
def Ely.ownerByte (e : Ely) (g : Nat) : Nat :=
  Map.get e.owner (if g < e.secWm * 32 then 0xFD else if e.unscrubbed then 0xFC else 0xFF) g

/-- The ply that owns a granule, directly or as the owner of a lend entry (R303, R306). -/
def Ely.ownerOf (e : Ely) (g : Nat) : Option Nat :=
  let b := e.ownerByte g
  if b < 64 then some b
  else if b = 0xFE then (Map.find e.lend g).map (·.owner)
  else none

/-- Whether the granule is lent to the ply, with write rights where `write` (R306). -/
def Ely.lentTo (e : Ely) (g p : Nat) (write : Bool) : Bool :=
  e.ownerByte g == 0xFE &&
    match Map.find e.lend g with
    | none => false
    | some l => l.borrowers.any fun b => b.ply == p && (b.write || !write)

/-- Whether the ply owns the granule or borrows it with the rights needed. -/
def Ely.mayAccess (e : Ely) (g p : Nat) (write : Bool) : Bool := e.ownerOf g == some p || e.lentTo g p write

/-- Outcome of a ply translation: the physical address and the key generation of the granule's owner (R284), or a fault (R36). -/
inductive Xlat where
  | ok (phys key : Nat)
  | fault
deriving DecidableEq, Repr

end Sys2Proof.Machine
end

