-- ==== Sys2Proof/Machine/DramMap.lean ====
section
/-! DEFINITION. Machine/DramMap.lean: the memory configurations, the address mapping, the memory ports and the error-correcting codes (R259, R261,
R262, R279, R280). -/
namespace Sys2Proof.Machine

/-- R259: whether the device supports a memory description. -/
def memDescOk (pkgW : Bool) (m : MemDesc) : Bool :=
  (m.ranks == 1 || m.ranks == 2) &&
    if pkgW then
      m.ddr5 && !m.iecc && [4800, 5600, 6400].contains m.rate && [16, 32, 64, 128].contains m.gib &&
        ([.soldered8, .soldered16, .eccUdimm, .eccSodimm] : List DramParts).contains m.parts
    else !m.ddr5 && [3200, 4266, 5500, 6400, 7500, 8533].contains m.rate && [4, 8, 16, 32].contains m.gib && m.parts == .package

/-- Installed capacity in bytes. -/
def MemDesc.bytes (m : MemDesc) : Nat := m.gib * 2 ^ 30

/-- DRAM_TOP: the installed capacity less the inline-ECC carve-out of 1/8 (R35, R279). -/
def MemDesc.top (m : MemDesc) : Nat := if m.iecc then m.bytes / 8 * 7 else m.bytes

/-- R261: segment and bank of an address on LPDDR5X, of capacity C = 2^k. -/
def sliceOf (m : MemDesc) (addr : Nat) : Nat × Nat :=
  let sl := addr / (m.bytes / 128)
  (sl / 16 % 8, sl % 16)

/-- Bank of an address: R261 on LPDDR5X; on DDR5 the order is the device's own (a free value, log entry 40). -/
def Mc.bankOf (c : Mc) (addr : Nat) : Fin 16 :=
  match c.desc with
  | some m =>
    let b := if m.ddr5 then Config.dramBank addr else (sliceOf m addr).2
    ⟨b % 16, by omega⟩
  | none => 0

/-- Row that a request's address selects: the row bits are the device's own mapping (free value, log entry 40). -/
def rowOf (addr : Nat) : Nat := Config.dramRow addr

/-- R261: channel of an address: the 4 bits (LPDDR5X) or 3 bits (DDR5) above the unit. -/
def chanOf (pkgW : Bool) (addr : Nat) : Fin 16 :=
  if pkgW then ⟨addr / 64 % 8, by omega⟩ else ⟨addr / 64 % 16, by omega⟩

/-- Whether a mask drops an address (R261, R277). -/
def MemDesc.drops (m : MemDesc) (seg bank addr : Nat) : Bool :=
  let (s, b) := sliceOf m addr
  !m.ddr5 && (bit seg s || bit bank b)

/-- Whether the mask in force or pending drops any byte of a granule (R278, R304). -/
def Dev.droppedGranule (d : Dev) (g : Nat) : Bool :=
  match d.mc.desc with
  | some m => m.drops d.mc.pSegDrop d.mc.pBankDrop (g * 65536) || m.drops d.mc.segDrop d.mc.bankDrop (g * 65536)
  | none => false

/-- Whether any granule of a range is dropped. -/
def Dev.droppedAny (d : Dev) (g n : Nat) : Bool := (List.range n).any fun i => d.droppedGranule (g + i)

/-! Ports (R262) -/

/-- The memory ports of an engine. The Weevil reads touch and haptic blocks through port 11. -/
def Engine.ports : Engine → List Nat
  | .carder => [0, 1, 2, 3, 15] | .raster => [4, 5, 6, 7] | .weevil => [8] | .copy => [9] | .audio => [10] | .touch | .haptics => [11] | .whorl => [12]
  | .ely => [13, 14]

/-- The memory port of an engine. The raster engine's L2 slices are ports 4-7; the model gives it the first. -/
def Engine.port (e : Engine) : Nat := e.ports.headD 0

/-! Codes (R279, R280) -/

/-- Where inline ECC keeps the 8 check bytes of a unit: the slice of its bank in segment 7, in the eighth of its own segment (R279). -/
def MemDesc.checkAddr (m : MemDesc) (unit : Nat) : Nat :=
  let size := m.bytes / 128
  let (s, b) := sliceOf m unit
  (112 + b) * size + s * size / 8 + unit % size / 8

/-- What a code finds that corrects one error of a codeword and detects two; more than that it does not promise (free value, log entry 112). -/
def codeFinds (errs : List (Nat × Byte)) (n : Nat) : EccOutcome :=
  match n with
  | 0 => .clean
  | 1 => .corrected
  | 2 => .uncorrectable
  | _ => match Config.miscode errs % 3 with | 0 => .clean | 1 => .corrected | _ => .uncorrectable

/-- A unit is as bad as its worst codeword. -/
def EccOutcome.worse : EccOutcome → EccOutcome → EccOutcome
  | .uncorrectable, _ | _, .uncorrectable => .uncorrectable
  | .corrected, _ | _, .corrected => .corrected
  | .clean, .clean => .clean

/-- Errors of a unit's codewords as the DRAM returns them: by byte, 64 data bytes and after them the check bytes, the bits that are wrong. -/
def errorAt (errs : List (Nat × Byte)) (i : Nat) : Byte := Map.get errs 0 i

/-- Bits of word `w` and of its check byte that are wrong (R279). -/
def wrongBits (errs : List (Nat × Byte)) (w : Nat) : Nat :=
  (((64 + w) :: (List.range 8).map (8 * w + ·)).map fun i => ((List.range 8).filter fun k => (errorAt errs i).getLsbD k).length).sum

/-- Symbols of the 80-byte codeword that are wrong (R280). -/
def wrongSymbols (errs : List (Nat × Byte)) : Nat := ((List.range 80).filter fun i => errorAt errs i != 0).length

/-- What the decoder finds in a unit (R279, R280): SEC-DED over each 8-byte word with inline ECC; on DDR5 a code over the 80 symbols of the burst;
without inline ECC, LPDDR5X data is unprotected. A unit found uncorrectable before is so still. -/
def Dev.decodeEcc (d : Dev) (phys : Nat) (errs : List (Nat × Byte)) : EccOutcome :=
  match d.mc.desc with
  | none => .clean
  | some m =>
    if !(m.ddr5 || m.iecc) then .clean
    else if d.mc.bad.contains (phys / 64) then .uncorrectable
    else if m.ddr5 then codeFinds errs (wrongSymbols errs)
    else ((List.range 8).map fun w => codeFinds errs (wrongBits errs w)).foldl EccOutcome.worse .clean

end Sys2Proof.Machine
end

