-- ==== Sys2Proof/Machine/Ops.lean ====
section
/-! DEFINITION. Machine/Ops.lean: the named operations every family shares: parts of the state, ply translation and DRAM access under
credits, host writes with dirty logging, MSI-X, events, completion entries and fences. -/
namespace Sys2Proof.Machine

/-! Parts of the state -/

/-- The state with its device part changed. -/
def State.onDev (s : State) (f : Dev → Dev) : State := { s with dev := f s.dev }
/-- The state with its ledger changed. -/
def State.onSkein (s : State) (f : Skein → Skein) : State := { s with skein := f s.skein }

/-- A ply. -/
def Dev.ply (d : Dev) (p : Fin 64) : Ply := at' d.plies p
/-- The device with one ply changed. -/
def Dev.updPly (d : Dev) (p : Fin 64) (f : Ply → Ply) : Dev := { d with plies := upd d.plies p f }
/-- A port. -/
def Dev.port (d : Dev) (q : Fin 4) : Port := at' d.ports q
/-- The device with one port changed. -/
def Dev.updPort (d : Dev) (q : Fin 4) (f : Port → Port) : Dev := { d with ports := upd d.ports q f }
@[inherit_doc Dev.ply] def State.ply (s : State) (p : Fin 64) : Ply := s.dev.ply p
@[inherit_doc Dev.port] def State.port (s : State) (q : Fin 4) : Port := s.dev.port q
@[inherit_doc Dev.updPly] def State.updPly (s : State) (p : Fin 64) (f : Ply → Ply) : State := s.onDev (·.updPly p f)
@[inherit_doc Dev.updPort] def State.updPort (s : State) (q : Fin 4) (f : Port → Port) : State := s.onDev (·.updPort q f)

/-- A submission ring of a ply. -/
def State.ring (s : State) (p : Fin 64) (r : Fin 4) : SubRing := at' (s.ply p).rings r
/-- The state with one submission ring changed. -/
def State.updRing (s : State) (p : Fin 64) (r : Fin 4) (f : SubRing → SubRing) : State :=
  s.updPly p fun y => { y with rings := upd y.rings r f }
/-- The state with a completion ring changed. -/
def State.updCq (s : State) (p : Fin 64) (f : CplRing → CplRing) : State := s.updPly p fun y => { y with cq := f y.cq }

/-- The record of outputs with one more (log entry 4). -/
def Dev.emit (d : Dev) (o : Out) : Dev := { d with out := o :: d.out }
@[inherit_doc Dev.emit] def State.emit (s : State) (o : Out) : State := s.onDev (·.emit o)

/-- The next value of the model's free-value counter. -/
def State.tick (s : State) : State := s.onDev fun d => { d with fresh := d.fresh + 1 }

/-- The clocked part of the device runs: REFCLK0 is present, VAON holds, no reset is held, no thermal trip, and the device is not in WATCH (R425,
R435, R437, R438, R440). -/
def Dev.alive (d : Dev) : Bool := d.refclk && d.power.vaonOk && !d.power.held && !d.power.tripped && d.power.state != .watch

/-- A command of a block that needs the clocked part: while that part stands still the command has no effect (R425, R435, R440). -/
def State.clocked (s : State) (f : State → Res) : Res := if s.dev.alive then f s else .next s

/-- Every ply number. -/
def allPlies : List (Fin 64) := allFin 64
/-- Every port number. -/
def allPorts : List (Fin 4) := allFin 4

/-- Fold a change over a list of indices. -/
def State.each {α : Type} (s : State) (l : List α) (f : State → α → State) : State := l.foldl f s

/-- Whether a class A ply exists (R48, R56). -/
def Dev.isClassA (d : Dev) (p : Fin 64) : Bool := (d.ply p).cls == .a && (d.ply p).state != .absent

/-! Host ports (R321, R322) -/

/-- R321: lanes that the strap gives a port. -/
def strapLanes (strap q : Fin 4) : Nat :=
  (([[16, 0, 0, 0], [8, 8, 0, 0], [8, 4, 4, 0], [4, 4, 4, 4]] : List (List Nat)).getD strap.val []).getD q.val 0

/-- A port that the strap leaves without lanes is absent (R322). -/
def Dev.portPresent (d : Dev) (q : Fin 4) : Bool := decide (0 < strapLanes d.power.strap q)

/-! Configuration registers of a port that other blocks look at (R326, R328, R333; layout PRESUMED from PCIe 5.0, log entry 20) -/

/-- Reset value of a configuration dword that the host may write. -/
def cfgReset (off : Nat) : Word :=
  if 0x218 ≤ off ∧ off < 0x258 then 0x9C38
  else word ((([(0x78, 0x2910), (0xA0, 5), (0x108, 0x00400000), (0x10C, 0x00462030), (0x114, 0xE000)] : List (Nat × Nat)).find? (·.1 == off)).elim 0 (·.2))

/-- A configuration dword as written. -/
def Port.cfgWord (p : Port) (off : Nat) : Word := Map.get p.cfg (cfgReset off) off

/-- Bus Master Enable. -/
def Port.busMaster (p : Port) : Bool := bit (p.cfgWord 0x04).toNat 2
/-- The PCI-PM state is D0. -/
def Port.inD0 (p : Port) : Bool := fld (p.cfgWord 0x44).toNat 1 0 == 0
/-- PME_En. -/
def Port.pmeEn (p : Port) : Bool := bit (p.cfgWord 0x44).toNat 8
/-- PASID Enable (R107). -/
def Port.pasidEn (p : Port) : Bool := bit (p.cfgWord 0x25C).toNat 16
/-- ATS Enable. -/
def Port.atsEn (p : Port) : Bool := bit (p.cfgWord 0x264).toNat 31
/-- PTM Enable (R332). -/
def Port.ptmEn (p : Port) : Bool := bit (p.cfgWord 0x270).toNat 0
/-- ASPM L1 enabled in Link Control (R331). -/
def Port.aspmL1 (p : Port) : Bool := bit (p.cfgWord 0x80).toNat 1
/-- Max_Read_Request_Size in bytes (R73, R326). -/
def Port.mrrs (p : Port) : Nat := 128 * 2 ^ fld (p.cfgWord 0x78).toNat 14 12
/-- Host traffic may leave the port: D0 and Bus Master Enable (R333). -/
def Port.trafficOk (p : Port) : Bool := p.inD0 && p.busMaster

/-- A word of the MSI-X table; every vector is masked at reset. -/
def Port.msixWord (p : Port) (i : Nat) : Word := Map.get p.msix (if i % 4 = 3 then 1 else 0) i

/-- A posted write or message leaves the port, or waits in order while the port's traffic is held (R333). -/
def Dev.post (d : Dev) (q : Fin 4) (o : Out) : Dev :=
  let pt := d.port q
  if pt.trafficOk ∧ pt.held = [] then d.emit o else d.updPort q fun pt => { pt with held := pt.held ++ [o] }

/-- A write of the device's own, without a PASID, to a port's host memory (R107). -/
def Dev.postWrite (d : Dev) (q : Fin 4) (addr : Nat) (bs : List Byte) : Dev := d.post q (.hostWrite q (d.port q).atsEn 0 addr bs)

/-- An MSI-X message of a vector: sent, or pending while the function or the vector is masked (R103, R104). -/
def Dev.sendMsix (d : Dev) (q : Fin 4) (v : Nat) : Dev :=
  let pt := d.port q
  let ctl := (pt.cfgWord 0x50).toNat
  if !bit ctl 31 then d
  else if bit ctl 30 || bit (pt.msixWord (4 * v + 3)).toNat 0 then
    if v ∈ pt.pba then d else d.updPort q fun pt => { pt with pba := pt.pba ++ [v] }
  else
    d.post q (.msix q v (DWord.ofWords (pt.msixWord (4 * v + 1)) (pt.msixWord (4 * v))) (pt.msixWord (4 * v + 2)))

/-- Pending vectors that are no longer masked fire (R103). -/
def Dev.flushPba (d : Dev) (q : Fin 4) : Dev :=
  let vs := (d.port q).pba
  vs.foldl (fun d v => d.sendMsix q v) (d.updPort q fun pt => { pt with pba := [] })

/-! Host writes of a ply (R108, R120, R121) with dirty logging (R125) -/

/-- Bitmap line and bit of a page in a window, if the page lies in it: (line address, byte in line, bit). -/
def LogWindow.place (w : LogWindow) (useB : Bool) (addr : Nat) : Option (Nat × Nat × Nat) :=
  if w.base ≤ addr ∧ addr < w.base + w.pages * 4096 then
    let pg := (addr - w.base) / 4096
    let byte := (if useB then w.mapB else w.mapA) + pg / 8
    some (byte / 64 * 64, byte % 64, pg % 8)
  else none

/-- One bit of the active bitmaps is set through the 64-entry cache (R125). On the first miss of a line the device reads it from the manager's host
memory: `host` are the bytes found there. It holds the bitmap exclusively, so it knows what it wrote back itself. The line pushed out is written
back. -/
def DirtyLog.mark (l : DirtyLog) (host : List Byte) (line byte b : Nat) : DirtyLog × Option (Nat × List Byte) :=
  let new := (Map.get l.lines host line).modify byte fun x => x ||| BitVec.ofNat 8 (2 ^ b)
  let cached := line :: l.cached.filter (· != line)
  let l := { l with lines := Map.ins l.lines line new }
  match cached.drop 64 with
  | [] => ({ l with cached := cached }, none)
  | v :: _ => ({ l with cached := cached.take 64 }, some (v, Map.get l.lines [] v))

/-- The pages that a write of `n` bytes touches. -/
def pagesOf (addr n : Nat) : List Nat :=
  if n = 0 then [] else (List.range ((addr + n - 1) / 4096 - addr / 4096 + 1)).map fun i => (addr / 4096 + i) * 4096

/-- The running policy (R312). -/
def Dev.policy (d : Dev) : Option Policy := d.ely.running.map (·.policy)

/-- The manager's port: the running policy's (R13, R312). -/
def Dev.manager (d : Dev) : Option (Fin 4) := d.policy.map (·.manager)

/-- Whether a port can issue manager commands now: it is the manager's, and it is not down (R312, R337). -/
def Dev.isManager (d : Dev) (q : Fin 4) : Bool := d.manager == some q && !(d.port q).down

/-- A ply's policy entry; empty where no policy runs (R106). -/
def Dev.entry (d : Dev) (p : Fin 64) : PlyPolicy :=
  match d.policy with
  | some pol => at' pol.plies p
  | none => PlyPolicy.empty

/-- A bitmap line that is not in the cache is read from the manager's host memory, and one pushed out is written back (R125). What the host's line
holds when the device first reads it is a free value (log entry 87). -/
def Dev.logMark (d : Dev) (p : Fin 64) (x : Nat × Nat × Nat) : Dev :=
  let l := (d.ply p).log
  let (l', evict) := l.mark ((List.range 64).map (Config.freeByte d.fresh)) x.1 x.2.1 x.2.2
  let d := if l.cached.contains x.1 then d else
    let d := { d with fresh := d.fresh + 1 }
    match d.manager with
    | some q => d.emit (.hostRead q (d.port q).atsEn 0 x.1 64)
    | none => d
  let d := d.updPly p fun y => { y with log := l' }
  match evict, d.manager with
  | some (a, bs), some q => d.postWrite q a bs
  | _, _ => d

/-- The bits of every page a logged write touches are set before the write is posted, in every window in which the page lies; a page in none sets
OUTSIDE (R125, R126). -/
def Dev.logWrite (d : Dev) (p : Fin 64) (addr n : Nat) : Dev :=
  if (d.ply p).log.on then
    (pagesOf addr n).foldl (fun d pg =>
      let l := (d.ply p).log
      match l.windows.filterMap (·.place l.useB pg) with
      | [] => d.updPly p fun y => { y with log := { y.log with outside := true } }
      | xs => xs.foldl (fun d x => d.logMark p x) d) d
  else d

/-- Whether the device still writes the ply's host memory (R108, R120, R121); `event` for event entries with their PROD and MSI-X. -/
def Ply.writesHost (y : Ply) (event : Bool) : Bool :=
  !y.hostDead && y.cause != .orphan &&
    match y.state with
    | .active | .draining | .faulted => true
    | .quiesced => event
    | .absent | .orphaned => false

/-- With ATS on, the translations of the pages that a request touches are in the port's cache of 2,048 entries, the last used first (R326,
R327; which entry a full cache drops: log entry 59). A page that is not there is asked for first. -/
def Dev.atcTouch (d : Dev) (q : Fin 4) (pasid addr n : Nat) : Dev :=
  if !(d.port q).atsEn then d
  else (pagesOf addr n).foldl (fun d pg =>
    let e : AtcEntry := { pasid := pasid, page := pg / 4096 }
    let d := if (d.port q).atc.contains e then d else d.emit (.pcieMsg q "ATS Translation Request" pg)
    d.updPort q fun pt => { pt with atc := (e :: pt.atc.filter (· != e)).take 2048 }) d

/-- A write to the ply's host memory: bytes at an I/O virtual address under the ply's PASID (R107), dirty-logged (R125). -/
def Dev.hostWrite (d : Dev) (p : Fin 64) (event : Bool) (addr : Nat) (bs : List Byte) : Dev :=
  let y := d.ply p
  if y.writesHost event then
    ((d.logWrite p addr bs.length).atcTouch y.port y.pasid addr bs.length).post y.port
      (.hostWrite y.port (d.port y.port).atsEn y.pasid addr bs)
  else d

/-- An MSI-X message of a ply's vector, 8p + v of its port (R103). -/
def Dev.plyMsix (d : Dev) (p : Fin 64) (v : Nat) : Dev :=
  let y := d.ply p
  if y.writesHost true then d.sendMsix y.port (8 * p.val + v) else d

/-! Host reads (R44, R55, R326) -/

/-- Holder that an ordinary host read is charged to (R43). -/
def readHolder (r : HostRead) : Fin holders :=
  match r.ply with
  | some p => plyHolder p
  | none => devHolder

/-- The requests that a read of `n` bytes makes (R44, R326): each at most Max_Read_Request_Size long and within one 4 KiB page of the bus (PRESUMED
from PCIe; log entry 26). `k` bounds their number. -/
def splitRead (mrrs : Nat) : Nat → Nat → Nat → List (Nat × Nat)
  | 0, _, _ => []
  | k + 1, addr, n =>
    if n = 0 then []
    else
      let x := min n (min (min mrrs 4096) (4096 - addr % 4096))
      (addr, x) :: splitRead mrrs k (addr + x) (n - x)

/-- The requests of a read of some address ranges. -/
def readRequests (mrrs : Nat) (rs : List (Nat × Nat)) : List (Nat × Nat) := rs.flatMap fun x => splitRead mrrs (x.2 / 64 + 2) x.1 x.2

/-- Address ranges of `n` slots of a ring from its CONS on; a batch that passes the ring's end is in two pieces (R70, R76). -/
def SubRing.slotRanges (g : SubRing) (n : Nat) : List (Nat × Nat) :=
  let depth := 2 ^ g.log2Depth
  let i := g.cons.toNat % depth
  if i + n ≤ depth then [(g.base.toNat + 64 * i, 64 * n)]
  else [(g.base.toNat + 64 * i, 64 * (depth - i)), (g.base.toNat, 64 * (i + n - depth))]

/-- Read requests leave a port (R326). -/
def Dev.emitReads (d : Dev) (q : Fin 4) (pasid : Nat) (rs : List (Nat × Nat)) : Dev :=
  rs.foldl (fun d x => (d.atcTouch q pasid x.1 x.2).emit (.hostRead q (d.port q).atsEn pasid x.1 x.2)) d

/-- A read request is issued when the port's traffic is not held and its HTAG take is granted; otherwise it waits (R44, R46, R333). -/
def State.issueRead (s : State) (r : HostRead) : State :=
  let wait := fun (s : State) => s.onDev fun d => { d with readWaits := d.readWaits ++ [r] }
  if !(s.port r.port).trafficOk then wait s
  else match s.skein.take (.htag r.port) (readHolder r) 1 with
  | some k =>
    let pasid := match r.ply with | some p => (s.ply p).pasid | none => 0
    let d := s.dev.emitReads r.port pasid [(r.addr, r.len)]
    { s with skein := k, dev := { d with reads := d.reads ++ [r] } }
  | none => wait s

/-- A read of some address ranges of host memory starts, one tag for each of its requests (R44). -/
def State.startRead (s : State) (q : Fin 4) (p : Option (Fin 64)) (what : ReadFor) (rs : List (Nat × Nat)) : State :=
  (readRequests (s.port q).mrrs rs).foldl (fun s x => s.issueRead { port := q, ply := p, what := what, addr := x.1, len := x.2 }) s

/-- A read of a ply's host memory starts (R43, R107). -/
def State.plyReads (s : State) (p : Fin 64) (what : ReadFor) (rs : List (Nat × Nat)) : State := s.startRead (s.ply p).port (some p) what rs

/-- All requests of a read are out, and it can complete. -/
def Dev.readOut (d : Dev) (what : ReadFor) : Bool := d.reads.any (·.what == what) && !d.readWaits.any (·.what == what)

/-- Some request of a read is out or waits to be issued. -/
def Dev.readBusy (d : Dev) (what : ReadFor) : Bool := d.reads.any (·.what == what) || d.readWaits.any (·.what == what)

/-- An outstanding read request completes: its HTAG credit returns (R44). -/
def State.endRead (s : State) (r : HostRead) : State :=
  if r ∈ s.dev.reads then
    let d := s.dev.updPort r.port fun pt => { pt with inval := pt.inval.map fun v => { v with reads := v.reads.erase r } }
    { s with skein := s.skein.give (.htag r.port) (readHolder r) 1, dev := { d with reads := d.reads.erase r } }
  else s

/-- Every request of a read completes. -/
def State.endReads (s : State) (what : ReadFor) : State := (s.dev.reads.filter (·.what == what)).foldl (fun s r => s.endRead r) s

/-- Reads whose data nobody wants any more: those issued complete and their data is dropped, those waiting are not issued (R74, R114). -/
def Dev.dropReads (d : Dev) (unwanted : ReadFor → Bool) : Dev :=
  let drop := fun (r : HostRead) => if unwanted r.what then { r with what := .other } else r
  { d with reads := d.reads.map drop, readWaits := d.readWaits.filter fun r => !unwanted r.what,
           ports := d.ports.map fun pt => { pt with inval := pt.inval.map fun v => { v with reads := v.reads.map drop } } }

/-- The reads that intake makes for a ring. -/
def ReadFor.ofRing (p : Fin 64) (r : Fin 4) (w : ReadFor) : Bool := w == .record p r || w == .slots p r

/-! Events (R95, R98-R105) -/

/-- Rate-limited codes (R101). -/
def codeLimited (code : Nat) : Bool :=
  code ∈ [0x0300, 0x0302, 0x0500, 0x0600, 0x0601, 0x0701, 0x0B00, 0x0C02, 0x0D01, 0x0D02, 0x0E01]

/-- DEVTIME between refills of a bucket: 10 per second (R102). -/
def refillNs : Nat := 100000000

/-- A bucket brought up to a DEVTIME: one token per 100 ms, at most 4 (R102; phase of the refill: log entry 21). -/
def Bucket.refill (b : Bucket) (now : Nat) : Bucket :=
  let n := (now - b.last) / refillNs
  if 4 ≤ b.tokens + n then { b with tokens := 4, last := now } else { b with tokens := b.tokens + n, last := b.last + n * refillNs }

/-- Whether a bucket is that of a destination, code and unit. -/
def Bucket.is (b : Bucket) (dest code unit : Nat) : Bool := b.dest == dest && b.code == code && b.unit == unit

/-- R102: whether an event of a limited code passes the bucket of its destination and unit; one withheld is counted. -/
def Dev.limit (d : Dev) (dest code unit : Nat) : Dev × Bool :=
  if !codeLimited code then (d, true)
  else
    let b := ((d.buckets.find? (·.is dest code unit)).getD
      { dest := dest, code := code, unit := unit, tokens := 4, last := d.devtime, withheld := 0 }).refill d.devtime
    let rest := d.buckets.filter fun b => !b.is dest code unit
    if b.tokens = 0 then ({ d with buckets := { b with withheld := b.withheld + 1 } :: rest }, false)
    else ({ d with buckets := { b with tokens := b.tokens - 1 } :: rest }, true)

/-- R102: an event that is delivered carries the count of those withheld since the last one delivered, and resets it. `bs` is the entry with
SUPPRESSED 0. -/
def Dev.deliver (d : Dev) (dest : Nat) (bs : List Byte) : Dev × List Byte :=
  let mine := fun (b : Bucket) => b.is dest (le16 bs 2) (le16 bs 4)
  match d.buckets.find? mine with
  | none => (d, bs)
  | some b =>
    ({ d with buckets := d.buckets.map fun b => if mine b then { b with withheld := 0 } else b },
      bs.take 6 ++ bytesOf 2 (min b.withheld 0xFFFF) ++ bs.drop 8)

/-- An event entry, PHASE 0 and SUPPRESSED 0 (R95). -/
def eventEntry (ply code unit time : Nat) (data : List Byte) : List Byte :=
  [2, BitVec.ofNat 8 ply] ++ bytesOf 2 code ++ bytesOf 2 unit ++ [0, 0] ++ bytesOf 8 time ++ fitBytes 16 data

/-- R105: an event into a port's event log; a full log drops and counts it. -/
def Dev.logEvent (d : Dev) (q : Fin 4) (ply code unit : Nat) (data : List Byte) : Dev :=
  match d.limit (64 + q.val) code unit with
  | (d, false) => d
  | (d, true) =>
    let pt := d.port q
    if 64 ≤ pt.evtLog.length then d.updPort q fun pt => { pt with evtLost := min 0xFFFF (pt.evtLost + 1) }
    else
      let (d, bs) := d.deliver (64 + q.val) (eventEntry ply code unit d.devtime data)
      let d := d.updPort q fun pt => { pt with evtLog := pt.evtLog ++ [bs] }
      let ctl := (Map.get pt.regs 0 0x3000).toNat
      if bit ctl 31 then d.sendMsix q (fld ctl 8 0) else d

/-- Number of entries of a ring. -/
def CplRing.depth (c : CplRing) : Nat := 2 ^ c.log2Depth

/-- Completion entries neither written and unread nor reserved, as far as the last reading of CONS shows (R86, R98). -/
def CplRing.freeEntries (c : CplRing) : Nat := c.depth - ((c.prod - c.cons).toNat + c.reserved)

/-- The entry's PHASE: 1 on the first lap, inverted on each lap (R95). -/
def CplRing.phase (c : CplRing) : Nat := 1 - (c.prod.toNat / c.depth) % 2

/-- An entry is written into the next slot of the completion ring (R70, R95). -/
def Dev.writeEntry (d : Dev) (p : Fin 64) (event : Bool) (bs : List Byte) : Dev :=
  let c := (d.ply p).cq
  let slot := c.base.toNat + (c.prod.toNat % c.depth) * 32
  let bs := match bs with
    | [] => []
    | b :: t => (b ||| BitVec.ofNat 8 c.phase) :: t
  (d.hostWrite p event slot bs).updPly p fun y => { y with cq := { y.cq with prod := y.cq.prod + 1 } }

/-- PROD of the completion ring is written to the doorbell record (R68, R87). -/
def Dev.writeProd (d : Dev) (p : Fin 64) (event : Bool) : Dev :=
  d.hostWrite p event ((d.ply p).dbrBase.toNat + 256) (bytesOf 4 (d.ply p).cq.prod.toNat)

/-- The vector of an event's group, if its EN bit is 1 (R72, R104). -/
def Ply.groupVec (y : Ply) (code : Nat) : Option Nat :=
  let f := fld y.evtVec.toNat (4 * (code / 256 % 16) + 3) (4 * (code / 256 % 16))
  if 8 ≤ f then some (f % 8) else none

/-- An event entry, PROD and the MSI-X message of the event's group, in that order (R87, R104). The entry has PHASE and SUPPRESSED still 0. -/
def Dev.putEvent (d : Dev) (p : Fin 64) (bs : List Byte) : Dev :=
  let (d, bs) := d.deliver p.val bs
  let d := (d.writeEntry p true bs).writeProd p true
  match (d.ply p).groupVec (le16 bs 2) with
  | some v => d.plyMsix p v
  | none => d

/-- The vector that a completion of a ring raises: RING_CTL.VEC, if VEC_EN is 1 and the descriptor's IRQ flag was 1 (R104). -/
def SubRing.complVec (g : SubRing) (irq : Bool) : Option Nat := if g.vecEn && irq then some g.vec else none

/-- A completion entry, PROD and the MSI-X message of its ring, in that order (R87, R104). -/
def Dev.putCompletion (d : Dev) (p : Fin 64) (bs : List Byte) (irq : Bool) : Dev :=
  let d := (d.writeEntry p false bs).writeProd p false
  match (at' (d.ply p).rings ⟨byteAt bs 0 / 8 % 4, by omega⟩).complVec irq with
  | some v => d.plyMsix p v
  | none => d

/-- A dropped event or entry is counted (R74, R98). -/
def Dev.dropEvent (d : Dev) (p : Fin 64) : Dev :=
  d.updPly p fun y => { y with evtLost := min 0xFFFFFFFF (y.evtLost + 1), cq := { y.cq with dropped := y.cq.dropped + 1 } }

/-- EVENTS_LOST goes into the first entry that becomes free after drops (R98). -/
def Dev.reportLost (d : Dev) (p : Fin 64) : Dev :=
  let y := d.ply p
  if y.cq.dropped ≠ 0 ∧ 0 < y.cq.freeEntries then
    let bs := eventEntry p.val 0x0001 0 d.devtime (bytesOf 4 y.cq.dropped)
    (d.updPly p fun y => { y with cq := { y.cq with dropped := 0 } }).putEvent p bs
  else d

/-- What waits for completion entries is served in order while entries are free (R86, R98, R116). -/
def Dev.serveWaiters (d : Dev) (p : Fin 64) : List CqWait → Dev
  | [] => d.updPly p fun y => { y with cq := { y.cq with waiters := [] } }
  | w :: t =>
    let d := d.reportLost p
    if (d.ply p).cq.freeEntries = 0 then d.updPly p fun y => { y with cq := { y.cq with waiters := w :: t } }
    else
      match w with
      | .reserve r o =>
        let d := if (at' (d.ply p).rings r).queue.any (·.order == o) then d.updPly p fun y =>
            { y with cq := { y.cq with reserved := y.cq.reserved + 1 },
                     rings := upd y.rings r fun g => { g with queue := g.queue.map fun f =>
                       if f.order = o then { f with phase := if f.phase = .waitEntry then .parsed else f.phase, reserved := true } else f } }
          else d
        d.serveWaiters p t
      | .event bs => (d.putEvent p bs).serveWaiters p t
      | .entry bs irq => (d.putCompletion p bs irq).serveWaiters p t

/-- Events still waiting are dropped and counted; reservations and DISCARDED entries go on waiting (R98, R116). -/
def Dev.dropHeldEvents (d : Dev) (p : Fin 64) : Dev :=
  let isEvent := fun (w : CqWait) => match w with | CqWait.event _ => true | _ => false
  let ws := (d.ply p).cq.waiters
  let d := d.updPly p fun y => { y with cq := { y.cq with waiters := ws.filter fun w => !isEvent w } }
  (ws.filter isEvent).foldl (fun d _ => d.dropEvent p) d

/-- Something waits for an entry: the device re-reads CONS, unless a re-read is outstanding (R78). -/
def State.wantCons (s : State) (p : Fin 64) : State :=
  if (s.ply p).cq.reread = .none ∧ (s.ply p).writesHost true then
    (s.updCq p fun c => { c with reread := .first }).plyReads p (.cons p) [((s.ply p).dbrBase.toNat + 264, 4)]
  else s

/-- The policy's chime bindings to an event code raised for a class A ply become due (R380). -/
def Dev.bindEvent (d : Dev) (about code : Nat) : Dev :=
  let classA := match fin? 64 about with | some p => d.isClassA p | none => false
  match d.policy with
  | none => d
  | some pol =>
    if !classA then d
    else
      let new := (pol.binds.zipIdx).filterMap fun b => if b.1.src = .event code ∧ !d.audio.due.contains b.2 then some b.2 else none
      { d with audio := { d.audio with due := d.audio.due ++ new } }

/-- An event with a DEVTIME of its own is written to a ply's event ring, held for a CONS re-read, or dropped and counted (R98, R102). `about` is
byte 1. -/
def State.postPlyAt (s : State) (time : Nat) (p : Fin 64) (about code unit : Nat) (data : List Byte) : State :=
  let s := s.onDev (·.bindEvent about code)
  let y := s.ply p
  if !y.writesHost true then s
  else
    match s.dev.limit p.val code unit with
    | (d, false) => { s with dev := d }
    | (d, true) =>
      let s := { s with dev := d }
      let bs := eventEntry about code unit time data
      if !y.cq.enable then s.onDev (·.dropEvent p)
      else
        let s := if y.cq.waiters = [] then s.onDev (·.reportLost p) else s
        if y.cq.waiters = [] ∧ 0 < (s.ply p).cq.freeEntries then s.onDev fun d => d.putEvent p bs
        else (s.updCq p fun c => { c with waiters := c.waiters ++ [.event bs] }).wantCons p

/-- An event to a ply, now (R98). -/
def State.postPly (s : State) (p : Fin 64) (about code unit : Nat) (data : List Byte) : State := s.postPlyAt s.dev.devtime p about code unit data

/-- An event into the manager's port event log, where there is a manager (R100, R337). -/
def State.postManager (s : State) (about code unit : Nat) (data : List Byte) : State :=
  let s := s.onDev (·.bindEvent about code)
  match s.dev.manager with
  | some q => s.onDev fun d => d.logEvent q about code unit data
  | none => s

/-- An event to a ply and to the manager's port (R100). -/
def State.postBoth (s : State) (p : Fin 64) (code unit : Nat) (data : List Byte) : State :=
  (s.postPly p p.val code unit data).postManager p.val code unit data

/-- DATA of an event from a list of (byte offset 16-31, width, value). -/
def dataBytes (fs : List (Nat × Nat × Nat)) : List Byte :=
  fs.foldl (fun bs (off, n, v) => ((bs.take (off - 16)) ++ bytesOf n v ++ bs.drop (off - 16 + n)).take 16) (List.replicate 16 0)

/-! Descriptors and fences (R84, R91-R94) -/

def InFlight.opcode (f : InFlight) : Nat := byteAt f.bytes 0
def InFlight.irq (f : InFlight) : Bool := bit (byteAt f.bytes 1) 0
def InFlight.sigOnError (f : InFlight) : Bool := bit (byteAt f.bytes 1) 1
def InFlight.barrier (f : InFlight) : Bool := bit (byteAt f.bytes 1) 2
def InFlight.tag (f : InFlight) : Nat := le16 f.bytes 2
def InFlight.waitValue (f : InFlight) : DWord := BitVec.ofNat 64 (le64 f.bytes 8)
def InFlight.signalValue (f : InFlight) : DWord := BitVec.ofNat 64 (le64 f.bytes 16)
def InFlight.waitEn (f : InFlight) : Bool := bit (le16 f.bytes 24) 15
def InFlight.waitFence (f : InFlight) : Nat := fld (le16 f.bytes 24) 11 0
def InFlight.signalEn (f : InFlight) : Bool := bit (le16 f.bytes 26) 15
def InFlight.signalFence (f : InFlight) : Nat := fld (le16 f.bytes 26) 11 0

/-- A fence's value (R91). -/
def Ply.fence (y : Ply) (i : Nat) : DWord := Map.get y.fences 0 i

/-- A descriptor's wait is reached while its fence holds the wait value or more (R91). -/
def Ply.reached (y : Ply) (f : InFlight) : Bool := !f.waitEn || decide (f.waitValue ≤ y.fence f.waitFence)

/-- Descriptor finished with a status and completion bytes 16-31. -/
def InFlight.finish (f : InFlight) (status : Nat) (result : List Byte) : InFlight :=
  { f with phase := .finished, status := status, result := fitBytes 16 result }

/-- A signal: the fence becomes the larger of its value and `v` (R91). -/
def Ply.signal (y : Ply) (i : Nat) (v : DWord) : Ply := if y.fence i < v then { y with fences := Map.setD y.fences 0 i v } else y

/-! Variant and heads -/

/-- R4: heads, clusters, package W and FBSEL_N of a variant index. -/
def variantHeads (v : Fin 12) : Nat := ([8, 8, 6, 6, 4, 4, 8, 8, 8, 6, 6, 4] : List Nat).getD v.val 0
@[inherit_doc variantHeads] def variantClusters (v : Fin 12) : Nat := ([16, 12, 12, 8, 8, 4, 16, 12, 8, 12, 8, 8] : List Nat).getD v.val 0
@[inherit_doc variantHeads] def variantW (v : Fin 12) : Bool := decide (6 ≤ v.val)

/-- Package W: DDR5 and the Whorl ring (R4, R9). -/
def Dev.pkgW (d : Dev) : Bool := variantW d.variant
/-- Number of exposed heads (R7). -/
def Dev.nHeads (d : Dev) : Nat := variantHeads d.variant
/-- Number of enabled shader clusters (R7). -/
def Dev.nClusters (d : Dev) : Nat := variantClusters d.variant

/-- A head. -/
def Dev.head (d : Dev) (h : Fin 8) : Head := at' d.carder.heads h
/-- The device with one head changed. -/
def Dev.updHead (d : Dev) (h : Fin 8) (f : Head → Head) : Dev :=
  { d with carder := { d.carder with heads := upd d.carder.heads h f } }
@[inherit_doc Dev.head] def State.head (s : State) (h : Fin 8) : Head := s.dev.head h
@[inherit_doc Dev.updHead] def State.updHead (s : State) (h : Fin 8) (f : Head → Head) : State := s.onDev (·.updHead h f)
/-- The state with the Carder changed. -/
def State.updCarder (s : State) (f : Carder → Carder) : State := s.onDev fun d => { d with carder := f d.carder }

/-- The other head of a possible pair (R147). -/
def twin (h : Fin 8) : Fin 8 := ⟨if h.val % 2 = 0 then h.val + 1 else h.val - 1, by split <;> omega⟩
/-- The even head of a possible pair. -/
def evenOf (h : Fin 8) : Fin 8 := ⟨h.val / 2 * 2, by omega⟩

/-- Whether the variant exposes a head (R7, R8). -/
def Dev.headExposed (d : Dev) (h : Fin 8) : Bool := decide (h.val < d.nHeads)

/-- The odd head of an active pair, whose registers and tables are unused (R148, R186). -/
def Dev.slave (d : Dev) (h : Fin 8) : Bool := (d.head h).paired && h.val % 2 == 1

/-- The head that governs `h`: the even head of an active pair, else itself (R148). -/
def Dev.master (d : Dev) (h : Fin 8) : Fin 8 := if (d.head h).paired then evenOf h else h

/-- The heads that run as one with head `h` (R147). -/
def Dev.group (d : Dev) (h : Fin 8) : List (Fin 8) := if (d.head h).paired then [evenOf h, twin (evenOf h)] else [h]

/-! Ply memory (R36, R43, R44, R285, R286) -/

/-- The ply translation of a device address (R36, R90): the page is mapped with the right, lies below DRAM_TOP, and its granule is owned
or borrowed with the right. The key slot is the granule owner's (R284). -/
def Dev.xlat (d : Dev) (p : Fin 64) (addr : Nat) (write : Bool) : Xlat :=
  match Map.find (d.ply p).tables (addr / 65536) with
  | none => .fault
  | some e =>
    let phys := e.page * 65536 + addr % 65536
    if (if write then e.write else e.read) && decide (phys < d.dramTop) && d.ely.mayAccess e.page p.val write then
      match d.ely.ownerOf e.page with
      | some o => .ok phys (atD d.ely.keySlot o 0)
      | none => .fault
    else .fault

/-- Whether every page of a range is mapped readable or writable. -/
def Dev.mapped (d : Dev) (p : Fin 64) (addr n : Nat) (write : Bool) : Bool :=
  (List.range ((addr + n - 1) / 65536 - addr / 65536 + 1)).all fun i =>
    d.xlat p (addr / 65536 * 65536 + i * 65536) write != .fault

/-- A byte as an access finds it: what the writes queued for its unit will leave there (R266). -/
def State.readByte (s : State) (key a : Nat) : Byte :=
  (at' s.dev.mc.chans (chanOf s.dev.pkgW a)).queue.foldl (fun b r => match r.write with
    | some (off, bs) => if r.key = key ∧ r.addr + off ≤ a ∧ a < r.addr + off + bs.length then bs.getD (a - r.addr - off) b else b
    | none => b) (s.dram.read key a)

/-- DRAM as it stands once the writes queued in the memory controller are in it (R266). -/
def State.settledDram (s : State) : Dram :=
  s.dev.mc.chans.toList.foldl (fun m c => c.queue.foldl (fun m r => match r.write with
    | some (off, bs) => m.writeN r.key (r.addr + off) bs
    | none => m) m) s.dram

/-- The state with memory as a snapshot holds it, for the reads of caches that later writes do not reach (R225, R243). -/
def State.over (s : State) (m : Dram) : State :=
  { s with dram := m, dev := { s.dev with mc := { s.dev.mc with chans := s.dev.mc.chans.map fun c => { c with queue := [] } } } }

/-- Bytes at a ply's device address, or none where a translation fails or a unit holds an uncorrectable error (R36, R281). -/
def State.plyRead (s : State) (p : Fin 64) (addr n : Nat) : Option (List Byte) :=
  (List.range n).mapM fun i =>
    match s.dev.xlat p (addr + i) false with
    | .ok a k => if s.dev.mc.bad.contains (a / 64) then none else some (s.readByte k a)
    | .fault => none

/-- Device-memory tracking: a write to a granule marks its page, for its owner, before the data is written (R127, R286). -/
def Dev.trackWrite (d : Dev) (gran : Nat) : Dev :=
  match (d.ely.ownerOf gran).bind (fin? 64) with
  | none => d
  | some o =>
    if (d.ply o).mig.tracking && !((d.ply o).mig.dirty.contains gran) then
      d.updPly o fun y => { y with mig := { y.mig with dirty := y.mig.dirty ++ [gran] } }
    else d

/-- DATA of the ECC events (R281). -/
def eccData (phys holder port : Nat) : List Byte := dataBytes [(16, 8, phys), (24, 1, holder), (25, 1, port)]

/-- A unit of a channel found with an error through a memory port: counts and events (R281). -/
def State.eccReport (s : State) (out : EccOutcome) (phys port : Nat) (ply : Option (Fin 64)) : State :=
  let holder := match ply with | some p => p.val | none => 0x40
  let ch := (chanOf s.dev.pkgW phys).val
  match out with
  | .clean => s
  | .corrected =>
    (s.onDev fun d => { d with mc := { d.mc with ce := min 0xFFFFFFFF (d.mc.ce + 1) } }).postManager holder 0x0701 ch (eccData phys holder port)
  | .uncorrectable =>
    let s := s.onDev fun d => { d with mc := { d.mc with ue := min 0xFFFFFFFF (d.mc.ue + 1) } }
    let s := match ply with
      | some p => s.postPly p holder 0x0702 ch (eccData phys holder port)
      | none => s
    s.postManager holder 0x0702 ch (eccData phys holder port)

/-- What an ECC decoder finds in a unit's data (R281). A unit found uncorrectable stays so until it is written whole. -/
def State.eccFound (s : State) (out : EccOutcome) (phys port : Nat) (ply : Option (Fin 64)) : State :=
  let s := if out = .uncorrectable then s.onDev fun d => { d with mc := { d.mc with bad := phys / 64 :: d.mc.bad.filter (· != phys / 64) } } else s
  s.eccReport out phys port ply

/-- With inline ECC, an access to a unit uses the line of its check bytes in the metadata cache of its controller, 32 KiB of 64-byte lines (R279). A miss
reads the line from DRAM, and the line that it drops is written back if changed (the line not used for longest: log entry 112). -/
def State.touchCheck (s : State) (phys : Nat) (write : Bool) : State :=
  match s.dev.mc.desc with
  | none => s
  | some m =>
    if !m.iecc then s
    else
      let line := m.checkAddr (phys / 64 * 64) / 64 * 64
      let ctl : Fin 8 := ⟨(chanOf s.dev.pkgW phys).val / 2, by omega⟩
      let cached := at' s.dev.mc.checks ctl
      let ch := fun a => (chanOf s.dev.pkgW a).val
      let now := (line, write || cached.any (fun e => e.1 == line && e.2)) :: cached.filter (·.1 != line)
      let s := if cached.any (·.1 == line) then s else s.emit (.dramCmd (ch line) "RD" line)
      let s := match (now.drop 512) with
        | (a, true) :: _ => s.emit (.dramCmd (ch a) "WR" a)
        | _ => s
      s.onDev fun d => { d with mc := { d.mc with checks := put d.mc.checks ctl (now.take 512) } }

/-- A write is about to reach a unit: its granule is marked (R286). A write of the whole unit ends an error that it held; a write of a part reads the
unit first and finds it (R281, R285). -/
def State.openUnit (s : State) (phys port : Nat) (ply : Option (Fin 64)) (whole : Bool) : State :=
  let s := (s.onDev (·.trackWrite (phys / 65536))).touchCheck phys true
  if !s.dev.mc.bad.contains (phys / 64) then s
  else if whole then s.onDev fun d => { d with mc := { d.mc with bad := d.mc.bad.filter (· != phys / 64) } }
  else s.eccReport .uncorrectable (phys / 64 * 64) port ply

/-- Data of a unit with the older writes of a queue to it applied in order (R266). -/
def readThrough (m : Dram) (q : List McReq) (r : McReq) : List Byte :=
  q.foldl (fun bs o => match o.write with
    | some (off, w) => if o.addr = r.addr ∧ o.id < r.id then bs.take off ++ w ++ bs.drop (off + w.length) else bs
    | none => bs) (m.readN r.key r.addr 64)

/-- A request reaches DRAM: its write is stored, or its data read, with the older writes of the queue `q`, and on its way (R266). -/
def State.perform (s : State) (ch : Fin 16) (q : List McReq) (r : McReq) : State :=
  match r.write with
  | some (off, bs) =>
    let s := s.openUnit r.addr r.port.val r.ply (bs.length == 64)
    { s with dram := s.dram.writeN r.key (r.addr + off) bs }
  | none => (s.touchCheck r.addr false).onDev fun d => { d with mc := { d.mc with chans := upd d.mc.chans ch fun c =>
      { c with issued := c.issued ++ [{ r with data := readThrough s.dram q r }] } } }

/-- Accesses to one address are never reordered (R266): the requests queued for a unit reach DRAM before a later access to it. -/
def State.settleUnit (s : State) (unit : Nat) : State :=
  let ch := chanOf s.dev.pkgW unit
  let mine := (at' s.dev.mc.chans ch).queue.filter (·.addr == unit)
  if mine.isEmpty then s
  else
    let s := s.onDev fun d => { d with mc := { d.mc with chans := upd d.mc.chans ch fun c => { c with queue := c.queue.filter (·.addr != unit) } } }
    mine.foldl (fun s r => s.perform ch [] r) s

/-- 64-byte transfers that an access of `n` bytes makes (R41). -/
def unitsOf (addr n : Nat) : Nat := if n = 0 then 0 else (addr + n - 1) / 64 - addr / 64 + 1

/-- The units, by their first device address, that an access of `n` bytes touches. -/
def unitsIn (addr n : Nat) : List Nat := (List.range (unitsOf addr n)).map fun i => (addr / 64 + i) * 64

/-- One byte stored at a ply's device address. -/
def State.plyWrite1 (s : State) (p : Fin 64) (addr : Nat) (b : Byte) : Option State :=
  match s.dev.xlat p addr true with
  | .ok a k => some { s with dram := s.dram.write k a b }
  | .fault => none

/-- What precedes an engine's write to a unit of a range of a ply's device addresses: earlier accesses to the unit, and its error (R266, R281, R286). -/
def State.reachUnit (s : State) (p : Fin 64) (eng : Engine) (addr n u : Nat) : State :=
  match s.dev.xlat p (max addr u) true with
  | .ok a _ => (s.settleUnit (a / 64 * 64)).openUnit (a / 64 * 64) eng.port (some p) (decide (addr ≤ u) && decide (u + 64 ≤ addr + n))
  | .fault => s

/-- Bytes stored from a ply's device address on by an engine, all of them or none: the addresses are translated first. -/
def State.plyWrite (s : State) (p : Fin 64) (eng : Engine) (addr : Nat) (bs : List Byte) : Option State :=
  if bs = [] then some s
  else if s.dev.mapped p addr bs.length true then
    (bs.zipIdx).foldlM (fun (s : State) e => s.plyWrite1 p (addr + e.2) e.1)
      ((unitsIn addr bs.length).foldl (fun s u => s.reachUnit p eng addr bs.length u) s)
  else none

/-- MEM credits of a write: 1 per whole unit, 2 per unit written in part (R285). -/
def writeCost (addr n : Nat) : Nat :=
  if n = 0 then 0
  else
    let first := addr / 64
    let last := (addr + n - 1) / 64
    ((List.range (last - first + 1)).map fun i =>
      let u := first + i
      if addr ≤ u * 64 ∧ u * 64 + 64 ≤ addr + n then 1 else 2).sum

/-- The controller leaves deep nap, and with it every channel its light nap (R273). The exit's 1.5 us are timing. -/
def Dev.leaveDeep (d : Dev) : Dev :=
  if d.mc.deep then { d with mc := { d.mc with deep := false, chans := d.mc.chans.map fun c => { c with light := false } } } else d

/-- Whether transfers at some address ranges use a channel. The channel's bits lie below a page's size, so a device address shows them (R261). -/
def usesChan (pkgW : Bool) (rs : List (Nat × Nat)) (c : Fin 16) : Bool :=
  rs.any fun x => (List.range (min 16 (unitsOf x.1 x.2))).any fun i => chanOf pkgW (x.1 + 64 * i) == c

/-- Transfers at some address ranges end the naps that hold them back: deep nap, and light nap on the channels concerned (R272, R273). -/
def Dev.wake (d : Dev) (rs : List (Nat × Nat)) : Dev :=
  if rs.all (·.2 == 0) then d
  else
    let d := d.leaveDeep
    { d with mc := { d.mc with chans := Vector.ofFn fun c =>
      let k := at' d.mc.chans c
      { k with light := k.light && !usesChan d.pkgW rs c } } }

/-- MEM credits of a holder for `n` transfers at some address ranges, which end naps (R44, R46, R272, R273); none where the take is refused or a
subchannel concerned trains itself again (R276). -/
def State.takeMem (s : State) (h : Fin holders) (n : Nat) (rs : List (Nat × Nat)) : Option State :=
  if (allFin 16).any fun c => (at' s.dev.mc.chans c).training && usesChan s.dev.pkgW rs c then none
  else (s.skein.take .mem h n).map fun k => { s with skein := k, dev := s.dev.wake rs }

/-! High words latched by a read of their low word (R52, R134, R204, R461) -/

/-- The high word at an offset: the one that a port's read of the low word has latched, else the word as it stands. -/
def State.readLatched (s : State) (q : Fin 4) (off now : Nat) : Nat :=
  match Map.find (s.port q).latch off with
  | some v => v.toNat
  | none => now

/-- A port's read of a pair of registers at `lo` and `lo + 4` that hold `v`. A read of LO latches HI until HI is read; a read of HI answers the latched
word and ends the latch. -/
def State.readPair (s : State) (q : Fin 4) (lo v : Nat) (hi : Bool) : State :=
  if hi then
    (s.updPort q fun pt => { pt with latch := Map.del pt.latch (lo + 4) }).emit (.regValue q (lo + 4) (word (s.readLatched q (lo + 4) (v / 2 ^ 32))))
  else (s.updPort q fun pt => { pt with latch := Map.ins pt.latch (lo + 4) (word (v / 2 ^ 32)) }).emit (.regValue q lo (word v))

/-! Raster engine (R206, R226, R232) -/

/-- A job by its descriptor's order. -/
def Dev.job (d : Dev) (o : Nat) : Option Job := d.gfx.jobs.find? (·.order == o)
/-- The device with the raster engine changed. -/
def Dev.updGfx (d : Dev) (f : Gfx → Gfx) : Dev := { d with gfx := f d.gfx }
/-- The state with one job changed. -/
def State.updJob (s : State) (o : Nat) (f : Job → Job) : State :=
  s.onDev (·.updGfx fun g => { g with jobs := g.jobs.map fun j => if j.order = o then f j else j })
/-- A cluster. -/
def State.cluster (s : State) (c : Fin 16) : Cluster := at' s.dev.gfx.clusters c
/-- The state with one cluster changed. -/
def State.updCluster (s : State) (c : Fin 16) (f : Cluster → Cluster) : State :=
  s.onDev (·.updGfx fun g => { g with clusters := upd g.clusters c f })

/-- Clusters that a job holds. -/
def Gfx.held (g : Gfx) (o : Nat) : List (Fin 16) := (allFin 16).filter fun c => (at' g.clusters c).job == some o

/-- A job's bin pages are freed and their credits return (R214). -/
def State.freePages (s : State) (o : Nat) : State :=
  match s.dev.job o with
  | none => s
  | some j => match j.pass with
    | none => s
    | some pa =>
      (s.onSkein fun k => k.give .bin (plyHolder j.ply) pa.pages).updJob o fun j => { j with pass := some { pa with pages := 0 } }

/-- A graphics island whose power-off waits goes down: a cluster island with the last save of its clusters, GFXC once every cluster island is down
(R230, R431). -/
def Dev.settleIsland (d : Dev) (i : Fin 32) : Dev :=
  let clear := if i.val = 8 then (List.range 8).all fun k => atD d.power.islands (9 + k) Island.off == .off
    else (allFin 16).all fun c => 9 + c.val / 2 != i.val || (at' d.gfx.clusters c).job.isNone
  if at' d.power.islands i == .saving && clear then
    { d with power := { d.power with islands := put d.power.islands i Island.off } }
  else d

/-- DIM is reached once its graphics islands are down, RUN once all are up (R432). -/
def Dev.settleState (d : Dev) : Dev :=
  let isl := fun i => atD d.power.islands i Island.off
  let due := decide (d.power.pending = [])
  let ks := (List.range 8).filter fun k => decide (2 * k < variantClusters d.variant)
  match d.power.pendState with
  | some .run => if due && isl 8 == .good && ks.all (fun k => isl (9 + k) == .good) then { d with power := { d.power with state := .run, pendState := none } } else d
  | some .dim => if due && isl 8 == .off && ks.all (fun k => isl (9 + k) == .off) then { d with power := { d.power with state := .dim, pendState := none } } else d
  | _ => d

/-- Islands that wait for saves, and the state they lead to. -/
def Dev.settlePower (d : Dev) : Dev := (((allFin 32).reverse.foldl Dev.settleIsland d)).settleState

/-- A job leaves the engine: its clusters become idle, GFX and BIN credits return (R44, R232). -/
def State.dropJob (s : State) (o : Nat) : State :=
  match s.dev.job o with
  | none => s
  | some j =>
    let n := (s.dev.gfx.held o).length
    let s := s.freePages o
    let s := s.onSkein fun k => k.give .gfx (plyHolder j.ply) (500 * n)
    let s := s.onDev (·.updGfx fun g =>
      { g with jobs := g.jobs.filter (·.order != o), saves := g.saves.filter (·.order != o),
               clusters := g.clusters.map fun c => if c.job = some o then { Cluster.idle with dest := c.dest } else c })
    s.onDev Dev.settlePower

end Sys2Proof.Machine
end

