-- ==== Sys2Proof/Machine/RegTable.lean ====
section
/-! DEFINITION. Machine/RegTable.lean: the writable registers of BAR0's device set-up and port set-up regions, as the chapters' tables give
them: offsets, writable bits, reset values, and the boundary that swaps their pending copies (R17, R18). -/
namespace Sys2Proof.Machine

/-- When a written value takes effect (R18, R27). -/
inductive RegKind where
  /-- RW: on the write. -/
  | rw
  /-- RWB: at the next epoch boundary. -/
  | epoch
  /-- RWB: at a frame boundary of the head that the first index names. -/
  | frame
  /-- RWB: with an armed timing set of the head that the first index names (R139). -/
  | timing
  /-- At the next control sample at which the haptic channel that the first index names is idle (R421). -/
  | idle
deriving DecidableEq, Repr

/-- A register or an array of registers: base offset, counts and strides of its two indices, writable bits, reset value, kind. -/
structure RegDesc where
  base  : Nat
  n1    : Nat
  s1    : Nat
  n2    : Nat
  s2    : Nat
  mask  : Nat
  reset : Nat
  kind  : RegKind
deriving DecidableEq, Repr

/-- A single register. -/
def reg1 (base mask reset : Nat) (kind : RegKind) : RegDesc :=
  { base := base, n1 := 1, s1 := 0, n2 := 1, s2 := 0, mask := mask, reset := reset, kind := kind }

/-- An array of registers. -/
def regN (base n s mask reset : Nat) (kind : RegKind) : RegDesc :=
  { base := base, n1 := n, s1 := s, n2 := 1, s2 := 0, mask := mask, reset := reset, kind := kind }

/-- A two-dimensional array of registers. -/
def regNM (base n1 s1 n2 s2 mask reset : Nat) (kind : RegKind) : RegDesc :=
  { base := base, n1 := n1, s1 := s1, n2 := n2, s2 := s2, mask := mask, reset := reset, kind := kind }

/-- Memory-controller registers (R287). BASE and TARGET of MC_QOS reset per port (R262). -/
def mcRegs : List RegDesc :=
  [reg1 0x16004 0xC000FFFF 0x00003208 .epoch, reg1 0x16008 0x000FFFFF 0x00000FA0 .epoch, reg1 0x1600C 0x80001FFF 0x00000100 .epoch] ++
  ((([0x203E8, 0x203E8, 0x203E8, 0x203E8, 4000, 4000, 4000, 4000] ++
     [0x107D0, 8000, 0x207D0, 0x10FA0, 0x203E8, 0x10FA0, 65535, 0x203E8] : List Nat).zipIdx).map
    fun x => reg1 (0x16040 + 4 * x.2) 0x0003FFFF x.1 .epoch)

/-- Check-value unit registers (R447). -/
def chkRegs : List RegDesc :=
  [regN 0x1C000 8 0x40 0x6000007F 0x60000020 .epoch,
   regN 0x1C008 8 0x40 0xFFFFFFFF 0x04C11DB7 .epoch, regN 0x1C00C 8 0x40 0xFFFFFFFF 0 .epoch,
   regN 0x1C010 8 0x40 0xFFFFFFFF 0xFFFFFFFF .epoch, regN 0x1C014 8 0x40 0xFFFFFFFF 0 .epoch,
   regN 0x1C018 8 0x40 0xFFFFFFFF 0xFFFFFFFF .epoch, regN 0x1C01C 8 0x40 0xFFFFFFFF 0 .epoch]

/-- Recorder rate limit (R461): written by Elytra only. -/
def ccnRegs : List RegDesc := [reg1 0x1E004 0 0x00000401 .rw]

/-- Head registers and the two display pins' registers (R134, R153, R154). -/
def headRegs : List RegDesc :=
  [regN 0x12000 8 0x100 0xF0000001 0 .timing, regN 0x12004 8 0x100 0x3FFF3FFF 0 .timing, regN 0x12008 8 0x100 0x3FFF3FFF 0 .timing,
   regN 0x1200C 8 0x100 0x1FFF1FFF 0 .timing, regN 0x12010 8 0x100 0x1FFF1FFF 0 .timing, regN 0x12014 8 0x100 0xFF00007F 0 .timing,
   regN 0x12018 8 0x100 0x00FFFFFF 0 .timing, regN 0x1201C 8 0x100 0xFDFFFFFF 0x108100C0 .timing,
   regN 0x12020 8 0x100 0x0FFF003F 0x01F40008 .timing, reg1 0x12800 0 0 .rw, reg1 0x12804 0 0x80000000 .rw]

/-- Carder colour, output and signature registers (R168, R190, R204). -/
def carderRegs : List RegDesc :=
  [reg1 0x13000 0x000F13FF 0 .rw, regN 0x13010 8 4 0x80000001 0 .frame, regN 0x13040 8 0x10 0x0FFF0FFF 0 .frame,
   regN 0x13044 8 0x10 0x80000FFF 0 .frame, regNM 0x14000 8 0x100 4 0x40 0x9F80007F 0x20 .frame,
   regNM 0x14004 8 0x100 4 0x40 0x3FFF3FFF 0 .frame, regNM 0x14008 8 0x100 4 0x40 0x1FFF1FFF 0 .frame] ++
  ([0x10, 0x14, 0x18, 0x1C, 0x20, 0x24] : List Nat).map fun o => regNM (0x14000 + o) 8 0x100 4 0x40 0xFFFFFFFF 0 .frame

/-- Frame lock (R363). FOLLOW swaps bit by bit at the heads' boundaries, into the ring's own state. -/
def whlRegs : List RegDesc := [reg1 0x1700C 0xFF000007 0 .rw]

/-- Audio registers (R383). -/
def audRegs : List RegDesc :=
  [reg1 0x18004 0x003F1F01 0 .rw, reg1 0x1800C 0x00001F77 0 .rw, regN 0x18020 4 8 0xFFF00000 0x07200000 .epoch, regN 0x18040 16 4 0xBFBFBFBF 0 .epoch,
   regN 0x18100 32 0x10 0xBFFFFFFF 0x00144000 .rw, regN 0x18104 32 0x10 0xFFFFFFFF 0x280A0C00 .rw, regN 0x18108 32 0x10 0xFFFFFFFF 0x003200C8 .rw,
   regN 0x1810C 32 0x10 0xFF00FFFF 0x0A000032 .rw]

/-- Touch registers: panels are Elytra's, the wake registers the manager's (R406). -/
def tchRegs : List RegDesc :=
  [regN 0x19000 4 0x10 0 0 .rw, regN 0x19004 4 0x10 0 0 .rw, reg1 0x19048 0xBCFFFFFF 0x04430C80 .rw, reg1 0x1904C 0xFFFFFFFF 0xFF00FF00 .rw]

/-- Haptic registers (R421). HAP_SENSE, HAP_LIM and HAP_PIN are Elytra's. -/
def hapRegs : List RegDesc :=
  [regN 0x1A000 8 0x20 0x800000F0 0x00000020 .rw, regN 0x1A004 8 0x20 0 0x0064000A .rw, regN 0x1A008 8 0x20 0 0x00641400 .rw,
   regN 0x1A00C 8 0x20 0xFFFFFFFF 0x10000000 .idle, regN 0x1A010 8 0x20 0xFFFFFFFF 0x10000800 .idle, regN 0x1A100 8 4 0 0x00004000 .rw]

/-- Clock and power registers (R441). PWR_TEMP_CTL.WARN resets to 120 degrees; on package W State.reset sets 110. -/
def pwrRegs : List RegDesc := [reg1 0x1B020 0x80000000 0 .rw, reg1 0x1B054 0x00FF0F00 0x00780500 .rw]

/-- Every writable register of the device set-up region. -/
def regTable : List RegDesc := mcRegs ++ chkRegs ++ ccnRegs ++ headRegs ++ carderRegs ++ whlRegs ++ audRegs ++ tchRegs ++ hapRegs ++ pwrRegs

/-- Writable registers of a port set-up region (R52, R105, R330). -/
def portRegTable : List RegDesc :=
  [reg1 0x0008 0x0000FFFF 0x64 .rw, reg1 0x0010 0x800000FF 0x0A .rw, reg1 0x3000 0x800001FF 0 .rw, reg1 0x400C 0x000F30FF 0 .rw,
   reg1 0x20400 0x800001FF 0 .rw]

/-- Indices of an offset in an array of registers. -/
def RegDesc.place (r : RegDesc) (off : Nat) : Option (Nat × Nat) :=
  (List.range r.n1).findSome? fun i => (List.range r.n2).findSome? fun k =>
    if off = r.base + r.s1 * i + r.s2 * k then some (i, k) else none

/-- The table entry of an offset. -/
def findReg (t : List RegDesc) (off : Nat) : Option (RegDesc × Nat × Nat) :=
  t.findSome? fun r => (r.place off).map fun p => (r, p)

/-- Reset value of an offset; 0 where no writable register lies. -/
def regReset (t : List RegDesc) (off : Nat) : Word :=
  match findReg t off with
  | some (r, _) => word r.reset
  | none => 0

/-- A device set-up register as written (the pending copy of a double-buffered one). -/
def Dev.reg (d : Dev) (off : Nat) : Nat := (Map.get d.regs (regReset regTable off) off).toNat

/-- The active copy of a double-buffered device set-up register (R18). -/
def Dev.active (d : Dev) (off : Nat) : Nat := (Map.get d.act (regReset regTable off) off).toNat

/-- A port set-up register. -/
def Port.reg (p : Port) (off : Nat) : Nat := (Map.get p.regs (regReset portRegTable off) off).toNat

/-- A device set-up register written by the device itself. -/
def Dev.setReg (d : Dev) (off v : Nat) : Dev := { d with regs := Map.ins d.regs off (word v) }
/-- The active copy set by the device itself. -/
def Dev.setAct (d : Dev) (off v : Nat) : Dev := { d with act := Map.ins d.act off (word v) }

/-- Pending copies of the registers that `sel` picks become active (R18, R27). -/
def Dev.swapRegs (d : Dev) (sel : RegDesc → Nat → Bool) : Dev :=
  { d with act := d.regs.foldl (fun a x =>
      match findReg regTable x.1 with
      | some (r, i, _) => if sel r i then Map.ins a x.1 x.2 else a
      | none => a) d.act }

/-- A written value brought into its register's range (clamping rules of the registers' tables). -/
def regClamp (off v : Nat) : Nat :=
  if off = 0x16004 then (if v % 256 = 0 then v + 1 else v)
  else if off = 0x1600C then v / 2 ^ 31 * 2 ^ 31 + clampNat 16 4096 (v % 8192)
  else if 0x16040 ≤ off ∧ off < 0x16080 then v / 65536 * 65536 + max 50 (v % 65536)
  else if 0x12000 ≤ off ∧ off < 0x12800 ∧ off % 0x100 = 0x20 then (if v % 64 < 2 then v / 64 * 64 + 2 else v)
  else if 0x12000 ≤ off ∧ off < 0x12800 ∧ off % 0x200 = 0x100 then v - bit1 (bit v 30) * 2 ^ 30
  else if 0x14000 ≤ off ∧ off < 0x14800 ∧ off % 0x40 = 0 then v / 128 * 128 + clampNat 1 64 (v % 128)
  else if 0x1C000 ≤ off ∧ off < 0x1C200 ∧ (off - 0x1C000) % 0x40 = 0 then v / 128 * 128 + clampNat 1 64 (v % 128)
  else if 0x18100 ≤ off ∧ off < 0x18300 then
    match off % 0x10 with
    | 0 => if fld v 23 16 = 0 then v + 2 ^ 16 else v
    | 4 => clampNat 0 120 (fld v 31 24) * 2 ^ 24 + clampNat 10 200 (fld v 23 16) * 2 ^ 16 + clampNat 0 24 (fld v 15 8) * 2 ^ 8 + clampNat 0 48 (fld v 7 0)
    | 8 => clampNat 1 1000 (fld v 31 16) * 2 ^ 16 + clampNat 10 5000 (fld v 15 0)
    | 12 => clampNat 0 200 (fld v 31 24) * 2 ^ 24 + clampNat 10 1000 (fld v 15 0)
    | _ => v
  else if off = 0x19048 then (if fld v 23 20 = 0 then v + 2 ^ 20 else v)
  else if 0x1A000 ≤ off ∧ off < 0x1A100 ∧ off % 0x20 = 0 then v / 256 * 256 + min 10 (fld v 7 4) * 16
  else if off = 0x1B054 then clampNat 60 125 (fld v 23 16) * 2 ^ 16 + max 1 (fld v 11 8) * 2 ^ 8
  else v

/-- A register written by Elytra, both copies. -/
def Dev.setBoth (d : Dev) (off v : Nat) : Dev := (d.setReg off v).setAct off v

/-- A register that a host could write, written by Elytra, both copies: its writable bits, brought into range (R18). -/
def Dev.setField (d : Dev) (off v : Nat) : Dev :=
  match findReg regTable off with
  | some (r, _) => d.setBoth off (regClamp off (Nat.land v r.mask))
  | none => d

/-- A port set-up value brought into range: a PERIOD_MS of 0 stores 1 (R330). -/
def portRegClamp (off v : Nat) : Nat := if off = 0x10 ∧ v % 256 = 0 then v + 1 else v

end Sys2Proof.Machine
end

