-- ==== Sys2Proof/Machine/Panels.lean ====
section
/-! DEFINITION. Machine/Panels.lean: touch panels and haptic channels as a ply's drain and reset meet them (R115, R384, R401, R414). -/
namespace Sys2Proof.Machine

/-- TCH_PANEL0 and TCH_PANEL1 of a panel (R384, R406). -/
def PanelPolicy.words (x : PanelPolicy) : Word × Word :=
  (word (2 ^ 31 + bit1 x.classA * 2 ^ 30 + x.owner * 2 ^ 24 + x.drvFirst * 2 ^ 16 + x.drvCount * 2 ^ 8), word (x.snsFirst * 2 ^ 16 + x.snsCount))

/-- Fields of TCH_PANEL0 and TCH_PANEL1. -/
def Dev.panelWord (d : Dev) (n : Fin 4) (k : Nat) : Nat := d.reg (0x19000 + 0x10 * n.val + 4 * k)
@[inherit_doc Dev.panelWord] def Dev.panelValid (d : Dev) (n : Fin 4) : Bool := bit (d.panelWord n 0) 31
@[inherit_doc Dev.panelWord] def Dev.panelClassA (d : Dev) (n : Fin 4) : Bool := bit (d.panelWord n 0) 30
@[inherit_doc Dev.panelWord] def Dev.panelOwner (d : Dev) (n : Fin 4) : Fin 64 := ⟨fld (d.panelWord n 0) 29 24, by simp [fld]; omega⟩
@[inherit_doc Dev.panelWord] def Dev.drives (d : Dev) (n : Fin 4) : Nat := fld (d.panelWord n 0) 14 8
@[inherit_doc Dev.panelWord] def Dev.senses (d : Dev) (n : Fin 4) : Nat := fld (d.panelWord n 1) 7 0

/-- A scan in progress is dropped; a recapture it was to make waits for the next one. -/
def Panel.dropScan (x : Panel) : Panel :=
  { x with scan := none, recap := x.recap || (match x.scan with | some c => c.recap | none => false) }

/-- A panel that does not scan (R387, R401); its baselines stay. -/
def Panel.idle (x : Panel) : Panel :=
  { x with scanning := false, scan := none, contacts := [], noise := false, half := 0, high := 0, low := 0, periodUs := 0 }

/-- The touch engine's part of a drain: reports and triggers stop, the scan in progress is dropped; on RESUME present contacts come as DOWN
(R115, R401). -/
def Panel.silence (x : Panel) : Panel := { x.dropScan with contacts := x.contacts.map fun c => { c with told := false } }

/-- The panels of a ply changed. -/
def Dev.updPanels (d : Dev) (p : Fin 64) (f : Panel → Panel) : Dev :=
  (allFin 4).foldl (fun d n =>
    if d.panelValid n && d.panelOwner n == p then { d with touch := { d.touch with panels := upd d.touch.panels n f } } else d) d
@[inherit_doc Panel.silence] def Dev.drainTouch (d : Dev) (p : Fin 64) : Dev := d.updPanels p Panel.silence

/-- PLY_RESET and PLY_DESTROY: the ply's panels do not scan until a new TCH_CONFIG; baselines stay (R401). -/
def Dev.stopPanels (d : Dev) (p : Fin 64) : Dev := d.updPanels p fun x => { x.idle with cfg := none, next := none }

/-- The ply that the policy grants a haptic channel to: at most one (R414, R421). -/
def Dev.hapOwner (d : Dev) (c : Fin 8) : Option (Fin 64) := (allFin 64).find? fun p => (d.entry p).haptics.contains c.val

/-- A haptic channel; the device with one changed. -/
def Dev.hap (d : Dev) (c : Fin 8) : HapChan := at' d.haptics.chans c
@[inherit_doc Dev.hap] def Dev.updHap (d : Dev) (c : Fin 8) (f : HapChan → HapChan) : Dev :=
  { d with haptics := { d.haptics with chans := upd d.haptics.chans c f } }

/-- PLY_RESET and PLY_DESTROY empty the pools of the ply's channels (R414). -/
def Dev.emptyPools (d : Dev) (p : Fin 64) : Dev :=
  (allFin 8).foldl (fun d c => if d.hapOwner c = some p then d.updHap c fun x => { x with pool := Vector.replicate 32 none } else d) d

/-- What PLY_RESET and PLY_DESTROY do to the sensing domain (R401, R414). -/
def Dev.resetSensing (d : Dev) (p : Fin 64) : Dev := (d.stopPanels p).emptyPools p

end Sys2Proof.Machine
end

