-- ==== Sys2Proof/Machine/Drain.lean ====
section
/-! DEFINITION. Machine/Drain.lean: a ply's work stops: quiesce, fault and orphan drains (R88, R114-R121). -/
namespace Sys2Proof.Machine

/-- Status DISCARDED (R97). -/
def stDiscarded : Nat := 0x09

/-- Holder of a descriptor's RING credit (R55). -/
def InFlight.holder (f : InFlight) (p : Fin 64) : Fin holders := if f.standing then standHolder p else plyHolder p

/-- A completion entry (R95). -/
def cplEntry (ring status tag seq time : Nat) (result : List Byte) : List Byte :=
  [BitVec.ofNat 8 (ring * 8), BitVec.ofNat 8 status] ++ bytesOf 2 tag ++ bytesOf 4 seq ++ bytesOf 8 time ++ fitBytes 16 result

/-- The completion entry of a descriptor with PROD and MSI-X: into its reserved entry, else into the next free one, else it waits;
dropped and counted while the completion ring is disabled (R74, R87, R116). -/
def State.writeCompletion (s : State) (p : Fin 64) (r : Fin 4) (f : InFlight) (status : Nat) (result : List Byte) : State :=
  let y := s.ply p
  let bs := cplEntry r.val status f.tag f.seq.toNat s.dev.devtime result
  if !y.writesHost false then s.updCq p fun c => { c with reserved := c.reserved - bit1 f.reserved }
  else if !y.cq.enable then s.onDev (·.dropEvent p)
  else if f.reserved || (y.cq.waiters.isEmpty && decide (0 < y.cq.freeEntries)) then
    s.onDev fun d => (d.updPly p fun y => { y with cq := { y.cq with reserved := y.cq.reserved - bit1 f.reserved } }).putCompletion p bs f.irq
  else (s.updCq p fun c => { c with waiters := c.waiters ++ [.entry bs f.irq] }).wantCons p

/-- R85, R116: an accepted descriptor that has not been dispatched is discarded: its RING credit returns and it completes DISCARDED. -/
def State.discard (s : State) (p : Fin 64) (r : Fin 4) (f : InFlight) : State :=
  let s := s.onSkein fun k => k.give .ring (f.holder p) 1
  let s := s.updRing p r fun g => { g with queue := g.queue.filter fun q => q.order != f.order }
  s.writeCompletion p r f stDiscarded []

/-- Descriptors that a Weevil has accepted and not dispatched. -/
def InFlight.undispatched (f : InFlight) : Bool :=
  match f.phase with
  | .accepted | .waitEntry | .parsed => true
  | .dispatched | .finished => false

/-- Reads of a ply that a drain ends: record and slot reads, and audio data (R114, R115). -/
def ReadFor.ofIntake (p : Fin 64) (w : ReadFor) : Bool :=
  (allFin 4).any (ReadFor.ofRing p · w) || match w with | .audio q _ => q == p | _ => false

/-- The Weevils' part of a drain (R114, R115): intake stops, the poll timer's deferred poll is cancelled, every undispatched descriptor is
discarded. Reads already issued complete and their data is dropped; those that still wait for a tag are not issued. -/
def State.stopIntake (s : State) (p : Fin 64) : State :=
  let s := s.updPly p fun y =>
    { y with pollDefer := false, pollOut := none,
             rings := y.rings.map fun g => { g with read := .idle, again := false },
             cq := { y.cq with waiters := y.cq.waiters.filter fun w => match w with | .reserve _ _ => false | _ => true } }
  let s := s.onDev (·.dropReads (ReadFor.ofIntake p))
  s.each (allFin 4) fun s r => s.each ((s.ring p r).queue.filter (·.undispatched)) fun s f => s.discard p r f

/-- The stronger of two causes (R109). -/
def Cause.max (a b : Cause) : Cause :=
  match a, b with
  | .orphan, _ | _, .orphan => .orphan
  | .fault, _ | _, .fault => .fault
  | .manager, _ | _, .manager => .manager
  | .none, .none => .none

/-- The fallback plate that the policy registers for a tenancy of a head (R196). -/
def Dev.plate (d : Dev) (h : Fin 8) (t : Nat) : Option Plate :=
  match d.policy with
  | some pol => atD (at' pol.heads h).plates t none
  | none => none

/-- R118, R120, R197: every class A tenancy of the ply that has a plate shows it from the head's next boundary, with a cause code. -/
def Dev.duePlates (d : Dev) (p : Fin 64) (cause : Nat) : Dev :=
  (allFin 8).foldl (fun d h => d.updHead h fun x =>
    { x with plates := Vector.ofFn fun t =>
        let e := at' x.tens t
        let q := at' x.plates t
        if e.valid && e.classA && e.ply == p.val && (d.plate h t.val).isSome then { q with due := some (1, cause) } else q }) d

/-- The Carder's part of a drain (R115): every commit of the ply not yet swapped in is discarded, its plates become due. Its layers leave each
head at that head's next frame boundary. -/
def State.drainCarder (s : State) (p : Fin 64) (cause : Nat) : State :=
  let s := s.each (allFin 4) fun s r =>
    s.each ((s.ring p r).queue.filter fun f => f.phase == .dispatched && (f.opcode == 0x20 || f.opcode == 0x21)) fun s f => s.discard p r f
  s.onDev fun d =>
    let d := (allFin 8).foldl (fun d h => d.updHead h fun x => { x with groups := x.groups.filter fun g => g.ply != p }) d
    d.duePlates p cause

/-- The raster engine's part of a drain (R115, R232): the ply's jobs are discarded without a save. -/
def State.drainGfx (s : State) (p : Fin 64) : State :=
  let s := (s.dev.gfx.jobs.filter (·.ply == p)).foldl (fun s j => s.dropJob j.order) s
  s.each (allFin 4) fun s r =>
    s.each ((s.ring p r).queue.filter fun f => f.phase == .dispatched && (f.opcode == 0x30 || f.opcode == 0x31)) fun s f => s.discard p r f

/-- The audio block's part of a drain (R115, R382): the ply's streams and voices ramp to silence from the next epoch boundary, then close. -/
def Dev.drainAudio (d : Dev) (p : Fin 64) : Dev :=
  let a := d.audio
  { d with audio := { a with streams := a.streams.map fun x => if x.ply = p then { x with closing := true } else x,
                             voices := a.voices.map fun v => v.map fun x => if x.ply = some p then { x with closing := true } else x } }

/-- The haptic part of a drain (R115, R420): descriptors that wait are discarded, a drive phase ends at the next control sample, a waiting start is
dropped. What a pin triggered goes on (R414; log entry 74). -/
def State.drainHaptics (s : State) (p : Fin 64) : State :=
  let mine := fun (t : Trigger) => match t.src with | .pin => false | _ => true
  let chans := (allFin 8).filter fun c => s.dev.hapOwner c == some p
  let keep := chans.foldl (fun (l : List Nat) c => match (s.dev.hap c).run with
    | some r => match r.trig.src with | .desc _ _ o => o :: l | _ => l
    | none => l) []
  let s := s.each chans fun s c => s.onDev fun d => d.updHap c fun x =>
    { x with arrivals := x.arrivals.filter fun t => !mine t, loads := x.loads.filter fun l => l.2.2.1 != p,
             wait := x.wait.filter fun (w : HapWait) => !mine w.trig,
             run := x.run.map fun (r : HapRun) => if mine r.trig then { r with stop := true } else r }
  s.each (allFin 4) fun s r =>
    s.each ((s.ring p r).queue.filter fun f => f.phase == .dispatched && (f.opcode == 0x50 || f.opcode == 0x51) && !keep.contains f.order)
      fun s f => s.discard p r f

/-- Every engine starts to drain the ply (R115). `cause` is the code its fallback plates carry (R197). -/
def State.startDrain (s : State) (p : Fin 64) (cause : Nat) : State :=
  ((((s.stopIntake p).drainCarder p cause).drainGfx p).drainHaptics p).onDev fun d => (d.drainAudio p).drainTouch p

/-- The model's code of an engine in PLY_FAULTED (log entry 22). -/
def Engine.code : Engine → Nat
  | .weevil => 0 | .copy => 1 | .raster => 2 | .carder => 3 | .audio => 4 | .touch => 5 | .haptics => 6 | .whorl => 7 | .ely => 8

/-- R110, R121: a translation fault. An ACTIVE or DRAINING ply becomes FAULTED, PLY_FAULTED is posted and the drain starts. An IOMMU
refusal ends every write to the ply's host memory, in whichever state it comes, and with them the re-reads of its completion ring's CONS. -/
def State.faultPly (s : State) (p : Fin 64) (addr : Nat) (write : Bool) (eng : Engine) (iommu : Bool) : State :=
  let s := if iommu then
      (s.updPly p fun y => { y with hostDead := true, cq := { y.cq with reread := .none, again := false } }).onDev fun d =>
        (d.dropReads (· == .cons p)).dropHeldEvents p
    else s
  match (s.ply p).state with
  | .active | .draining =>
    let was := (s.ply p).state
    let s := s.updPly p fun y => { y with state := .faulted, cause := y.cause.max .fault }
    let s := s.postBoth p 0x0100 0 (dataBytes [(16, 8, addr), (24, 1, bit1 write), (25, 1, eng.code)])
    if was == .active then s.startDrain p 2 else s
  | _ => s

/-- Whether a byte at a ply's device address cannot be read or written: its translation fails, or what is read holds an uncorrectable error. -/
def State.unreachable (s : State) (p : Fin 64) (addr : Nat) (write : Bool) : Bool :=
  match s.dev.xlat p addr write with
  | .ok a _ => !write && s.dev.mc.bad.contains (a / 64)
  | .fault => true

/-- A ply's engine could not read or write all of a range: the ply faults at the first byte that it could not reach. An uncorrectable error acts as a
translation fault, after its report (R36, R121, R281). -/
def State.faultAt (s : State) (p : Fin 64) (addr n : Nat) (write : Bool) (eng : Engine) : State :=
  match (List.range n).find? fun i => s.unreachable p (addr + i) write with
  | none => s.faultPly p addr write eng false
  | some i =>
    match s.dev.xlat p (addr + i) write with
    | .ok a _ => (s.eccReport .uncorrectable (a / 64 * 64) eng.port (some p)).faultPly p (addr + i) write eng false
    | .fault => s.faultPly p (addr + i) write eng false

/-- R114: PLY_QUIESCE accepted on an ACTIVE ply. -/
def State.quiesce (s : State) (p : Fin 64) : State :=
  if (s.ply p).state == .active then
    (s.updPly p fun y => { y with state := .draining, cause := y.cause.max .manager }).startDrain p 2
  else s

/-- R120: link-down orphans a ply that is not ABSENT. -/
def State.orphan (s : State) (p : Fin 64) : State :=
  let y := s.ply p
  let post := fun (s : State) => s.postManager p.val 0x0102 y.port.val []
  match y.state with
  | .absent | .orphaned => s
  | .quiesced => post ((s.updPly p fun y => { y with cause := .orphan }).onDev (·.duePlates p 1))
  | .active => post ((s.updPly p fun y => { y with state := .orphaned, cause := .orphan }).startDrain p 1)
  | .draining | .faulted =>
    post ((s.updPly p fun y => { y with state := .orphaned, cause := .orphan, cq := { y.cq with waiters := [] } }).onDev (·.duePlates p 1))

end Sys2Proof.Machine
end

