-- ==== Sys2Proof/Machine/Ozc.lean ====
section
/-! DEFINITION. Machine/Ozc.lean: OZC blocks: shapes, layout, decoding and the canonical encoder (R169-R173). -/
namespace Sys2Proof.Machine

/-- Shape of the blocks of a compressed plane (R169): bytes per sample, samples across, lines, and the (bit position, width) of each
component, lowest first. -/
structure OzcShape where
  bps   : Nat
  w     : Nat
  h     : Nat
  comps : List (Nat × Nat)
deriving DecidableEq, Repr

/-- Bytes of one line of a block. -/
def OzcShape.lineBytes (o : OzcShape) : Nat := o.bps * o.w
/-- Samples of a block. -/
def OzcShape.samples (o : OzcShape) : Nat := o.w * o.h

/-- R169: the shape of plane `k` of a format code that allows OZC. -/
def ozcShape (fmt k : Nat) : OzcShape :=
  if fmt ≤ 3 then { bps := 4, w := 8, h := 8, comps := [(0, 8), (8, 8), (16, 8), (24, 8)] }
  else if fmt ≤ 5 then { bps := 4, w := 8, h := 8, comps := [(0, 10), (10, 10), (20, 10), (30, 2)] }
  else if fmt = 0x10 then
    if k = 0 then { bps := 1, w := 16, h := 16, comps := [(0, 8)] } else { bps := 2, w := 16, h := 8, comps := [(0, 8), (8, 8)] }
  else if k = 0 then { bps := 2, w := 16, h := 8, comps := [(6, 10)] } else { bps := 4, w := 8, h := 8, comps := [(6, 10), (22, 10)] }

/-- R170: bytes of a header row: ceil((S / L) x 2 / 256) x 256. -/
def OzcShape.headerStride (o : OzcShape) (stride : Nat) : Nat := ceilTo (stride / o.lineBytes * 2) 256

/-- R170: address of a block's slot and of its header entry. -/
def OzcShape.slotAddr (o : OzcShape) (plane stride bx by' : Nat) : Nat := plane + by' * stride * o.h + 256 * bx
@[inherit_doc OzcShape.slotAddr] def OzcShape.headerAddr (o : OzcShape) (hdr stride bx by' : Nat) : Nat :=
  hdr + by' * o.headerStride stride + 2 * bx

/-- Fields of a header entry: MODE and SECTORS (R170). -/
def ozcMode (e : Nat) : Nat := fld e 15 14
@[inherit_doc ozcMode] def ozcSectors (e : Nat) : Nat := fld e 13 10

/-- The DELTA stream's (base, residual width, bit offset of the residuals) for each component (R171), with the bits used. -/
def ozcDelta (bits : Nat) (n : Nat) : List (Nat × Nat) → Nat → List (Nat × Nat × Nat) × Nat
  | [], off => ([], off)
  | (_, b) :: t, off =>
    let base := (bits / 2 ^ off) % 2 ^ b
    let w := (bits / 2 ^ (off + b)) % 16
    let (rest, fin) := ozcDelta bits n t (off + b + 4 + n * w)
    ((base, w, off + b + 4) :: rest, fin)

/-- R171, R172: component values of sample `i` of a block, lowest component first; an ill-formed entry decodes as CLEAR. `slot` is the
block's 256-byte slot. -/
def OzcShape.decode (o : OzcShape) (entry : Nat) (slot : List Byte) (i : Nat) : List Nat :=
  let zero := o.comps.map fun _ => 0
  let mode := ozcMode entry
  let sec := ozcSectors entry
  let field := fun (v : Nat) => o.comps.map fun c => (v / 2 ^ c.1) % 2 ^ c.2
  if mode = 1 ∧ sec = 1 then field (leAt slot 0 o.bps)
  else if mode = 3 ∧ sec = 8 then field (leAt slot (o.bps * i) o.bps)
  else if mode = 2 ∧ 1 ≤ sec ∧ sec ≤ 7 then
    let bits := leAt slot 0 (32 * sec)
    let (hs, used) := ozcDelta (leAt slot 0 256) o.samples o.comps 0
    if sec < ceilDiv used 256 ∨ (hs.zip o.comps).any (fun x => decide (x.2.2 < x.1.2.1)) then zero
    else (hs.zip o.comps).map fun x => (x.1.1 + (bits / 2 ^ (x.1.2.2 + i * x.1.2.1)) % 2 ^ x.1.2.1) % 2 ^ x.2.2
  else zero

/-- A sample's components put back in their places. -/
def OzcShape.pack (o : OzcShape) (cs : List Nat) : Nat := (cs.zip o.comps).foldl (fun v x => v + x.1 % 2 ^ x.2.2 * 2 ^ x.2.1) 0

/-- Bit length of a number. -/
def bitLen (v : Nat) : Nat := if v = 0 then 0 else Nat.log2 v + 1

/-- R173: the canonical encoding of a block from its samples' components: header entry and the slot bytes of the sectors in use. `raw` is the
uncompressed block. -/
def OzcShape.encode (o : OzcShape) (raw : List Byte) : Nat × List Byte :=
  let sample := fun i => leAt raw (o.bps * i) o.bps
  let comp := fun (c : Nat × Nat) i => (sample i / 2 ^ c.1) % 2 ^ c.2
  let ids := List.range o.samples
  let allSame := fun (f : Nat → Nat) => ids.all fun i => f i == f 0
  if o.comps.all fun c => ids.all fun i => comp c i == 0 then (0, [])
  else if o.comps.all fun c => allSame (comp c) then
    (1 * 2 ^ 14 + 1 * 2 ^ 10, fitBytes 32 (bytesOf o.bps (o.pack (o.comps.map fun c => comp c 0))))
  else
    let stream := o.comps.foldl (fun (acc : Nat × Nat) c =>
      let vs := ids.map (comp c)
      let base := vs.foldl min (2 ^ c.2)
      let w := bitLen (vs.foldl max 0 - base)
      let head := acc.1 + base * 2 ^ acc.2 + w * 2 ^ (acc.2 + c.2)
      let off := acc.2 + c.2 + 4
      (vs.zipIdx.foldl (fun v x => v + (x.1 - base) * 2 ^ (off + x.2 * w)) head, off + o.samples * w)) (0, 0)
    let sec := ceilDiv stream.2 256
    if sec ≤ 7 then (2 * 2 ^ 14 + sec * 2 ^ 10, bytesOf (32 * sec) stream.1)
    else (3 * 2 ^ 14 + 8 * 2 ^ 10, fitBytes 256 raw)

end Sys2Proof.Machine
end

