-- ==== Sys2Proof/Machine/Pixels.lean ====
section
/-! DEFINITION. Machine/Pixels.lean: the layer pipeline from bytes in memory to the bobbin: formats, expansion, chroma, matrix, degamma and
scaling (R158-R167, R175-R179), and the blend, gamma and output arithmetic (R187-R190). Pure functions. -/
namespace Sys2Proof.Machine

/-- A pixel of four 12-bit components. -/
structure Px where
  r : Nat
  g : Nat
  b : Nat
  a : Nat
deriving DecidableEq, Repr

/-! Layer state block fields (R160) -/

/-- A layer's state block, read by field. -/
abbrev Blk := List Byte
def blkFormat (b : Blk) : Nat := byteAt b 0
def blkOzc (b : Blk) : Bool := bit (byteAt b 1) 0
def blkSiteH (b : Blk) : Bool := bit (byteAt b 1) 1
def blkSiteV (b : Blk) : Bool := bit (byteAt b 1) 2
def blkFullRange (b : Blk) : Bool := bit (byteAt b 1) 3
def blkMatrix (b : Blk) : Nat := byteAt b 2
def blkDegamma (b : Blk) : Option Nat := if bit (byteAt b 3) 7 then some (byteAt b 3 % 4) else none
def blkPlane (b : Blk) (k : Nat) : Nat := leAt b (8 + 8 * k) 5
def blkStride (b : Blk) (k : Nat) : Nat := le32 b (32 + 4 * k)
def blkHdr (b : Blk) (k : Nat) : Nat := leAt b (48 + 8 * k) 5
def blkSrcX (b : Blk) : Nat := le16 b 64
def blkSrcY (b : Blk) : Nat := le16 b 66
def blkSrcW (b : Blk) : Nat := le16 b 68
def blkSrcH (b : Blk) : Nat := le16 b 70
def blkDstX (b : Blk) : Int := signed 16 (le16 b 72)
def blkDstY (b : Blk) : Int := signed 16 (le16 b 74)
def blkDstW (b : Blk) : Nat := le16 b 76
def blkDstH (b : Blk) : Nat := le16 b 78
def blkCoefAddr (b : Blk) : Nat := leAt b 80 5
def blkVtaps (b : Blk) : Nat := byteAt b 88 % 8
def blkZ (b : Blk) : Nat := byteAt b 92 % 16
def blkAlphaMode (b : Blk) : Nat := byteAt b 93 % 4
def blkPlaneAlpha (b : Blk) : Nat := le16 b 94 % 4096
def blkColour (b : Blk) (k : Nat) : Nat := le16 b (96 + 2 * k) % 4096
def blkMcoef (b : Blk) (k : Nat) : Int := signed 16 (le16 b (104 + 2 * k))
def blkMoff (b : Blk) (k : Nat) : Nat := le16 b (122 + 2 * k) % 4096

/-- Whether a layer scales: its source and destination sizes differ (R175). -/
def blkScales (b : Blk) : Bool := blkSrcW b != blkDstW b || blkSrcH b != blkDstH b

/-! Formats (R163) -/

/-- Planes of a format: (bytes per sample, horizontal and vertical subsampling); no plane for an undefined code. -/
def fmtPlanes (f : Nat) : List (Nat × Nat × Nat) :=
  match f with
  | 0x01 | 0x02 | 0x03 | 0x04 | 0x05 => [(4, 1, 1)]
  | 0x06 | 0x07 => [(2, 1, 1)]
  | 0x08 => [(8, 1, 1)]
  | 0x09 => [(1, 1, 1)]
  | 0x10 | 0x11 => [(1, 1, 1), (2, 2, 2)]
  | 0x12 => [(2, 1, 1), (4, 2, 2)]
  | 0x13 => [(1, 1, 1), (2, 2, 1)]
  | 0x14 => [(2, 1, 1), (4, 2, 1)]
  | 0x20 => [(1, 1, 1), (1, 2, 2), (1, 2, 2)]
  | 0x21 => [(1, 1, 1), (1, 1, 1), (1, 1, 1)]
  | _ => []

/-- Formats that may be compressed. -/
def fmtOzc (f : Nat) : Bool := (1 ≤ f && f ≤ 5) || f == 0x10 || f == 0x12
/-- YUV formats; those with 4:2:0 and 4:2:2 chroma; those with 10-bit samples. -/
def fmtYuv (f : Nat) : Bool := decide (0x10 ≤ f)
def fmt420 (f : Nat) : Bool := f == 0x10 || f == 0x11 || f == 0x12 || f == 0x20
def fmt422 (f : Nat) : Bool := f == 0x13 || f == 0x14
def fmtDeep (f : Nat) : Bool := f == 0x12 || f == 0x14

/-- R164: expansion of a component of `b` bits to 12 bits by replication. -/
def expand12 (b v : Nat) : Nat :=
  match b with
  | 1 => v * 4095
  | 2 => v * 1365
  | 5 => v * 128 + v * 4 + v / 8
  | 6 => v * 64 + v
  | 8 => v * 16 + v / 16
  | 10 => v * 4 + v / 256
  | _ => v

/-- `x / 2^s` rounded half to even. -/
def rneShift (x s : Nat) : Nat :=
  let q := x / 2 ^ s
  let r := x % 2 ^ s
  if 2 * r < 2 ^ s ∨ s = 0 then q else if 2 ^ s < 2 * r then q + 1 else q + q % 2

/-- R164: a binary16 component in 12 bits. -/
def half12 (h : Nat) : Nat :=
  let e := fld h 14 10
  let m := fld h 9 0
  if bit h 15 then 0
  else if e = 31 then (if m = 0 then 4095 else 0)
  else if 15 ≤ e then 4095
  else if e = 0 then rneShift (m * 4095) 24
  else rneShift ((1024 + m) * 4095) (25 - e)

/-- A sample of an RGB format or A8 as a 12-bit pixel (R163, R164). -/
def rgbPixel (b : Blk) (v : Nat) : Px :=
  let c8 := fun i => expand12 8 ((v / 2 ^ i) % 256)
  let c10 := fun i => expand12 10 ((v / 2 ^ i) % 1024)
  match blkFormat b with
  | 0x01 => { r := c8 16, g := c8 8, b := c8 0, a := c8 24 }
  | 0x02 => { r := c8 16, g := c8 8, b := c8 0, a := 4095 }
  | 0x03 => { r := c8 0, g := c8 8, b := c8 16, a := c8 24 }
  | 0x04 => { r := c10 20, g := c10 10, b := c10 0, a := expand12 2 (v / 2 ^ 30) }
  | 0x05 => { r := c10 0, g := c10 10, b := c10 20, a := expand12 2 (v / 2 ^ 30) }
  | 0x06 => { r := expand12 5 (v / 2048), g := expand12 6 (v / 32 % 64), b := expand12 5 (v % 32), a := 4095 }
  | 0x07 => { r := expand12 5 (v / 1024 % 32), g := expand12 5 (v / 32 % 32), b := expand12 5 (v % 32), a := expand12 1 (v / 32768) }
  | 0x08 => { r := half12 (v % 65536), g := half12 (v / 2 ^ 16 % 65536), b := half12 (v / 2 ^ 32 % 65536), a := half12 (v / 2 ^ 48) }
  | _ => { r := blkColour b 0, g := blkColour b 1, b := blkColour b 2, a := c8 0 }

/-! Fetch (R163, R169-R171). `rd` reads one byte at an address of the layer's ply. -/

/-- The raw sample at (x, y) of plane `k`, from an uncompressed or a compressed plane. -/
def planeSample (rd : Nat → Byte) (b : Blk) (k x y : Nat) : Nat :=
  let stride := blkStride b k
  let bytes := fun a n => (List.range n).map fun i => rd (a + i)
  if blkOzc b then
    let o := ozcShape (blkFormat b) k
    let bx := x / o.w
    let by' := y / o.h
    let entry := leAt (bytes (o.headerAddr (blkHdr b k) stride bx by') 2) 0 2
    let slot := bytes (o.slotAddr (blkPlane b k) stride bx by') (32 * ozcSectors entry)
    o.pack (o.decode entry slot (x % o.w + o.w * (y % o.h)))
  else
    let bps := ((fmtPlanes (blkFormat b)).getD k (1, 1, 1)).1
    leAt (bytes (blkPlane b k + y * stride + x * bps) bps) 0 bps

/-- A luma sample in 12 bits (R164). -/
def lumaAt (rd : Nat → Byte) (b : Blk) (x y : Nat) : Nat :=
  let v := planeSample rd b 0 x y
  if fmtDeep (blkFormat b) then expand12 10 (v / 64 % 1024) else expand12 8 (v % 256)

/-- The chroma sample (U, V) at chroma position (x, y) in 12 bits (R163, R164). -/
def chromaAt (rd : Nat → Byte) (b : Blk) (x y : Nat) : Nat × Nat :=
  let f := blkFormat b
  if f = 0x20 ∨ f = 0x21 then (expand12 8 (planeSample rd b 1 x y % 256), expand12 8 (planeSample rd b 2 x y % 256))
  else
    let v := planeSample rd b 1 x y
    if fmtDeep f then (expand12 10 (v / 64 % 1024), expand12 10 (v / 2 ^ 22 % 1024))
    else if f = 0x11 then (expand12 8 (v / 256 % 256), expand12 8 (v % 256))
    else (expand12 8 (v % 256), expand12 8 (v / 256 % 256))

/-- R165: chroma at luma position `p` from samples `c`, co-sited or interstitial. -/
def upsample (interstitial : Bool) (c : Int → Nat) (p : Nat) : Nat :=
  let k : Int := p / 2
  if interstitial then
    if p % 2 = 0 then (c (k - 1) + 3 * c k + 2) / 4 else (3 * c k + c (k + 1) + 2) / 4
  else if p % 2 = 0 then c k else (c k + c (k + 1) + 1) / 2

/-- An index held to the samples `lo .. hi`. -/
def clampIx (lo hi : Nat) (i : Int) : Nat := (clampInt lo hi i).toNat

/-- Chroma at a luma position: vertically first for 4:2:0, then horizontally; indices clamp to the samples that cover the crop (R165). -/
def chromaFull (rd : Nat → Byte) (b : Blk) (x y : Nat) : Nat × Nat :=
  let f := blkFormat b
  let sx := blkSrcX b
  let sy := blkSrcY b
  let loX := sx / 2
  let hiX := (sx + blkSrcW b - 1) / 2
  let loY := sy / 2
  let hiY := (sy + blkSrcH b - 1) / 2
  let pick := fun (u : Bool) (c : Nat × Nat) => if u then c.1 else c.2
  let column := fun (u : Bool) (k : Int) =>
    let kx := clampIx loX hiX k
    if fmt420 f then upsample (blkSiteV b) (fun j => pick u (chromaAt rd b kx (clampIx loY hiY j))) y
    else pick u (chromaAt rd b kx y)
  if fmt420 f || fmt422 f then (upsample (blkSiteH b) (column true) x, upsample (blkSiteH b) (column false) x)
  else chromaAt rd b x y

/-- Arithmetic shift right of an integer (floor). -/
def sra (v : Int) (n : Nat) : Int := v / (2 : Int) ^ n

/-- R166: coefficients (c_Y, R.Cr, G.Cb, G.Cr, B.Cb) of the fixed matrices. -/
def fixedMatrix (m : Nat) (full : Bool) : Int × Int × Int × Int × Int :=
  match m, full with
  | 0, true => (4096, 5743, -1410, -2925, 7258)
  | 0, false => (4769, 6537, -1605, -3330, 8263)
  | 1, true => (4096, 6450, -767, -1917, 7601)
  | 1, false => (4769, 7343, -873, -2183, 8652)
  | _, true => (4096, 6040, -674, -2340, 7706)
  | _, false => (4769, 6876, -767, -2664, 8773)

/-- R166: Y, Cb, Cr in 12 bits to RGB. -/
def yuvToRgb (b : Blk) (y cb cr : Nat) : Px :=
  let out := fun (cy ccb ccr : Int) (oy ob orr : Nat) =>
    (clampInt 0 4095 (sra (cy * ((y : Int) - oy) + ccb * ((cb : Int) - ob) + ccr * ((cr : Int) - orr) + 2048) 12)).toNat
  if blkMatrix b = 3 then
    let row := fun i => out (blkMcoef b (3 * i)) (blkMcoef b (3 * i + 1)) (blkMcoef b (3 * i + 2)) (blkMoff b 0) (blkMoff b 1) (blkMoff b 2)
    { r := row 0, g := row 1, b := row 2, a := 4095 }
  else
    let (cy, rCr, gCb, gCr, bCb) := fixedMatrix (blkMatrix b) (blkFullRange b)
    let d := if fmtDeep (blkFormat b) then 10 else 8
    let oc := expand12 d (128 * 2 ^ (d - 8))
    let oy := if blkFullRange b then 0 else expand12 d (16 * 2 ^ (d - 8))
    { r := out cy 0 rCr oy oc oc, g := out cy gCb gCr oy oc oc, b := out cy bCb 0 oy oc oc, a := 4095 }

/-- R167: a 12-bit value through a table of 1,024 entries. -/
def lutMap (l : Nat → Nat) (x : Nat) : Nat :=
  let i := x / 4
  let f := x % 4
  (l i * (4 - f) + l (min (i + 1) 1023) * f + 2) / 4

/-- R, G and B through a table. -/
def Px.lut (p : Px) (l : Nat → Nat) : Px := { r := lutMap l p.r, g := lutMap l p.g, b := lutMap l p.b, a := p.a }

/-- A source pixel after stages 1-5 (R158). `dg` is the degamma table the layer selects, if any. -/
def sourcePixel (rd : Nat → Byte) (dg : Option (Nat → Nat)) (b : Blk) (x y : Nat) : Px :=
  let p := if fmtYuv (blkFormat b) then
      let (cb, cr) := chromaFull rd b x y
      yuvToRgb b (lumaAt rd b x y) cb cr
    else rgbPixel b (planeSample rd b 0 x y)
  match dg with
  | some l => p.lut l
  | none => p

/-! Scaling (R175-R179) -/

/-- R178: source position and phase of a destination pixel in one direction. -/
def scalePos (src dst start : Nat) (xd : Nat) : Int × Nat :=
  let step : Int := ((src * 2 ^ 20 + dst / 2) / max 1 dst : Nat)
  let p : Int := (start * 2 ^ 20 : Nat) + xd * step + sra (step - 2 ^ 20) 1
  (sra p 20, (sra p 14 % 64).toNat)

/-- Coefficients H[f][k] and V[g][k] of a coefficient block (R177). -/
def coefH (c : List Byte) (f k : Nat) : Int := signed 16 (le16 c (16 * f + 2 * k))
@[inherit_doc coefH] def coefV (c : List Byte) (g k : Nat) : Int := signed 16 (le16 c (1024 + 8 * g + 2 * k))

/-- R179: one component filtered vertically for 8 columns and then horizontally. -/
def filterPixel (c : List Byte) (vtaps f g : Nat) (s : Nat → Nat → Nat) : Nat :=
  let t := fun k => clampInt (-4096) 8191
    (sra ((List.range vtaps).foldl (fun acc j => acc + coefV c g j * (s k j : Int)) 2048) 12)
  (clampInt 0 4095 (sra ((List.range 8).foldl (fun acc k => acc + coefH c f k * t k) 2048) 12)).toNat

/-- The layer's pixel at canvas position (x, y), or none outside its destination (R158, R178). -/
def layerPixel (rd : Nat → Byte) (dg : Option (Nat → Nat)) (b : Blk) (coef : List Byte) (x y : Nat) : Option Px :=
  let xd := (x : Int) - blkDstX b
  let yd := (y : Int) - blkDstY b
  if xd < 0 ∨ yd < 0 ∨ (blkDstW b : Int) ≤ xd ∨ (blkDstH b : Int) ≤ yd then none
  else if blkScales b then
    let (i, f) := scalePos (blkSrcW b) (blkDstW b) (blkSrcX b) xd.toNat
    let (j, g) := scalePos (blkSrcH b) (blkDstH b) (blkSrcY b) yd.toNat
    let vt := blkVtaps b
    let col := fun (k : Nat) => clampIx (blkSrcX b) (blkSrcX b + blkSrcW b - 1) (i - 3 + k)
    let row := fun (k : Nat) => clampIx (blkSrcY b) (blkSrcY b + blkSrcH b - 1) (j + k - ((vt - 1) / 2 : Nat))
    let s := fun (sel : Px → Nat) => filterPixel coef vt f g fun k r => sel (sourcePixel rd dg b (col k) (row r))
    some { r := s (·.r), g := s (·.g), b := s (·.b), a := s (·.a) }
  else some (sourcePixel rd dg b (blkSrcX b + xd.toNat) (blkSrcY b + yd.toNat))

/-! What a layer fetches (R161, R162) -/

/-- Cropped samples of a plane: first and past-last column and row. -/
def planeCrop (b : Blk) (hd vd : Nat) : Nat × Nat × Nat × Nat :=
  (blkSrcX b / hd, (blkSrcX b + blkSrcW b - 1) / hd + 1, blkSrcY b / vd, (blkSrcY b + blkSrcH b - 1) / vd + 1)

/-- The planes of a layer's format with their numbers. -/
def blkPlanes (b : Blk) : List (Nat × Nat × Nat × Nat) := (fmtPlanes (blkFormat b)).zipIdx.map fun x => (x.2, x.1.1, x.1.2.1, x.1.2.2)

/-- Byte ranges (address, length) that the layer can fetch: every plane from its address to its last row within the crop, or to its last
block row, and every header plane (R161). -/
def layerRanges (b : Blk) : List (Nat × Nat) :=
  (blkPlanes b).flatMap fun (k, bps, hd, vd) =>
    let (_, x1, _, y1) := planeCrop b hd vd
    let stride := blkStride b k
    if blkOzc b then
      let o := ozcShape (blkFormat b) k
      let bx := (x1 - 1) / o.w
      let by' := (y1 - 1) / o.h
      [(blkPlane b k, by' * stride * o.h + 256 * bx + 256), (blkHdr b k, by' * o.headerStride stride + 2 * bx + 2)]
    else [(blkPlane b k, (y1 - 1) * stride + x1 * bps)]

/-- Source rows, in luma, that a canvas line of a layer's destination needs (R178, R179). -/
def blkRows (b : Blk) (y : Nat) : List Nat :=
  let yd := ((y : Int) - blkDstY b).toNat
  if blkScales b then
    let (j, _) := scalePos (blkSrcH b) (blkDstH b) (blkSrcY b) yd
    (List.range (blkVtaps b)).map fun k => clampIx (blkSrcY b) (blkSrcY b + blkSrcH b - 1) (j + k - ((blkVtaps b - 1) / 2 : Nat))
  else [blkSrcY b + yd]

/-- Rows of a plane that a luma row needs: itself, or the chroma rows on either side of it for 4:2:0 (R165). -/
def planeRows (b : Blk) (vd r : Nat) : List Nat :=
  if vd = 1 then [r]
  else
    let at' := fun (i : Int) => clampIx (blkSrcY b / 2) ((blkSrcY b + blkSrcH b - 1) / 2) i
    let k : Int := r / 2
    if blkSiteV b then [at' k, at' (if r % 2 = 0 then k - 1 else k + 1)] else if r % 2 = 0 then [at' k] else [at' k, at' (k + 1)]

/-- Byte ranges that one row of the crop of a plane takes: its samples, or the header entries and slots of its blocks (R169-R171, R185). -/
def rowRanges (b : Blk) (k bps x0 x1 row : Nat) : List (Nat × Nat) :=
  if blkOzc b then
    let o := ozcShape (blkFormat b) k
    let (l, r, j) := (x0 / o.w, (x1 - 1) / o.w, row / o.h)
    [(o.headerAddr (blkHdr b k) (blkStride b k) l j, 2 * (r + 1 - l)), (o.slotAddr (blkPlane b k) (blkStride b k) l j, 256 * (r + 1 - l))]
  else [(blkPlane b k + row * blkStride b k + x0 * bps, (x1 - x0) * bps)]

/-- Byte ranges that a canvas line of a layer is made from (R185). -/
def lineRanges (b : Blk) (y : Nat) : List (Nat × Nat) :=
  (blkRows b y).flatMap fun r => (blkPlanes b).flatMap fun (k, bps, hd, vd) =>
    let (x0, x1, _, _) := planeCrop b hd vd
    (planeRows b vd r).flatMap fun row => rowRanges b k bps x0 x1 row

/-- R162: B, the bytes a layer fetches in a frame at worst. -/
def layerBytes (b : Blk) : Nat :=
  ((blkPlanes b).map fun (k, bps, hd, vd) =>
    let (x0, x1, y0, y1) := planeCrop b hd vd
    if blkOzc b then
      let o := ozcShape (blkFormat b) k
      let nx := (x1 - 1) / o.w - x0 / o.w + 1
      let ny := (y1 - 1) / o.h - y0 / o.h + 1
      256 * nx * ny + ceilTo (2 * nx) 64 * ny
    else ceilTo ((x1 - x0) * bps) 64 * (y1 - y0)).sum

/-! Blend and output (R187-R190) -/

/-- R187. -/
def div4095 (x : Nat) : Nat := (2 * x + 4095) / 8190

/-- R188: a layer pixel brought to premultiplied colour and coverage, with plane alpha `g`. An A8 layer uses the straight form. -/
def premultiply (mode g : Nat) (p : Px) : Px :=
  match mode with
  | 0 => { r := div4095 (p.r * g), g := div4095 (p.g * g), b := div4095 (p.b * g), a := div4095 (p.a * g) }
  | 1 =>
    let f := fun c => div4095 (div4095 (c * p.a) * g)
    { r := f p.r, g := f p.g, b := f p.b, a := div4095 (p.a * g) }
  | _ => { r := div4095 (p.r * g), g := div4095 (p.g * g), b := div4095 (p.b * g), a := div4095 (4095 * g) }

/-- R189: one layer pixel over the colour below it. -/
def blendOver (d : Px) (p : Px) : Px :=
  let f := fun d c => min 4095 (c + div4095 (d * (4095 - p.a)))
  { r := f d.r p.r, g := f d.g p.g, b := f d.b p.b, a := 4095 }

/-- R190: the ordered dither matrix. -/
def ditherM (row col : Nat) : Nat :=
  ([0, 8, 2, 10, 12, 4, 14, 6, 3, 11, 1, 9, 15, 7, 13, 5] : List Nat).getD (4 * (row % 4) + col % 4) 0

/-- R190: output conversion of a 12-bit component to `b` bits. -/
def convertOut (b : Nat) (dither : Bool) (x y parity v : Nat) : Nat :=
  let m := 2 ^ b - 1
  if dither then (32 * v * m + 4095 * (2 * ditherM (y + 2 * parity) (x + 2 * parity) + 1)) / 131040
  else (v * m * 2 + 4095) / 8190

end Sys2Proof.Machine
end

