-- ==== Sys2Proof/Machine/LayerChecks.lean ====
section
/-! DEFINITION. Machine/LayerChecks.lean: statuses and common fields of descriptors, and the checks of a LAYER (R85, R89, R97, R159, R161). -/
namespace Sys2Proof.Machine

/-- Status codes of completions (R97). -/
def stOk : Nat := 0x00
def stBadOpcode : Nat := 0x01
def stBadField : Nat := 0x02
def stNoUnit : Nat := 0x04
def stNotPermitted : Nat := 0x05
def stStale : Nat := 0x07
def stLinebufShort : Nat := 0x08
def stBobbinShort : Nat := 0x0F

/-- The header's reserved bits are 0 (R84). -/
def InFlight.headerOk (f : InFlight) : Bool :=
  fld (byteAt f.bytes 1) 7 3 == 0 && fld (le16 f.bytes 24) 14 12 == 0 && fld (le16 f.bytes 26) 14 12 == 0 && zeroBytes f.bytes 28 4

/-- Every payload byte outside the listed ranges (offset, length) is 0 (R89). -/
def InFlight.restZero (f : InFlight) (used : List (Nat × Nat)) : Bool :=
  (List.range 32).all fun i => used.any (fun u => decide (u.1 ≤ 32 + i) && decide (32 + i < u.1 + u.2)) || byteAt f.bytes (32 + i) == 0

/-- COMMIT and LAYER fields (R89). -/
def InFlight.commitHead (f : InFlight) : Fin 8 := ⟨byteAt f.bytes 32 % 8, by omega⟩
@[inherit_doc InFlight.commitHead] def InFlight.commitCount (f : InFlight) : Nat := byteAt f.bytes 33
@[inherit_doc InFlight.commitHead] def InFlight.commitAge (f : InFlight) : Nat := byteAt f.bytes 34
@[inherit_doc InFlight.commitHead] def InFlight.layerHandle (f : InFlight) : Nat := byteAt f.bytes 32 % 64
@[inherit_doc InFlight.commitHead] def InFlight.layerDisable (f : InFlight) : Bool := bit (byteAt f.bytes 33) 0
@[inherit_doc InFlight.commitHead] def InFlight.layerHead (f : InFlight) : Fin 8 := ⟨byteAt f.bytes 34 % 8, by omega⟩

/-- One descriptor of a ring changed, found by its order of acceptance. -/
def State.updDesc (s : State) (p : Fin 64) (r : Fin 4) (order : Nat) (f : InFlight → InFlight) : State :=
  s.updRing p r fun g => { g with queue := g.queue.map fun e => if e.order = order then f e else e }

/-- A descriptor's engine has finished with it (R87). -/
def State.finishDesc (s : State) (p : Fin 64) (r : Fin 4) (order status : Nat) (result : List Byte) : State :=
  s.updDesc p r order fun f => f.finish status result

/-! Layer checks (R161) -/

/-- Whether a value lies in a range. -/
def within (lo hi v : Nat) : Bool := decide (lo ≤ v) && decide (v ≤ hi)

/-- The layer state block's reserved bits and field ranges, third row of R161 (DEDUCED for the upper bits of Z, ALPHA_MODE and PLANE_ALPHA:
log entry 50). -/
def blkFieldsOk (b : Blk) : Bool :=
  let f := blkFormat b
  !(fmtPlanes f).isEmpty && (!fmtYuv f || decide (blkMatrix b ≤ 3)) && (!blkOzc b || fmtOzc f) &&
    fld (byteAt b 1) 7 4 == 0 && fld (byteAt b 3) 6 2 == 0 && zeroBytes b 4 4 && zeroBytes b 44 4 && zeroBytes b 89 3 &&
    zeroBytes b 102 2 && byteAt b 88 / 8 == 0 && ([13, 21, 29, 53, 61, 85] : List Nat).all (fun o => zeroBytes b o 3) &&
    byteAt b 92 / 16 == 0 && decide (byteAt b 93 ≤ 2) && decide (le16 b 94 < 4096) &&
    (!blkScales b || within 1 4 (blkVtaps b)) && decide (blkSrcX b ≤ 16383) && decide (blkSrcY b ≤ 16383) &&
    within 1 15360 (blkSrcW b) && within 1 8192 (blkSrcH b) && within 1 15360 (blkDstW b) && within 1 8192 (blkDstH b)

/-- Fourth row of R161: alignment of planes, headers, coefficients and strides. -/
def blkAligned (b : Blk) : Bool :=
  ((blkPlanes b).all fun (k, bps, hd, vd) =>
    let (x0, x1, _, _) := planeCrop b hd vd
    blkPlane b k % 4096 == 0 && (!blkOzc b || blkHdr b k % 4096 == 0) && blkStride b k % 256 == 0 &&
      decide (blkStride b k ≤ 262144) && decide ((x1 - x0) * bps ≤ blkStride b k)) &&
    (!blkScales b || blkCoefAddr b % 256 == 0)

/-- Fifth row of R161: even crops of subsampled formats. -/
def blkEven (b : Blk) : Bool :=
  let f := blkFormat b
  (!fmt420 f || (blkSrcX b % 2 == 0 && blkSrcY b % 2 == 0 && blkSrcW b % 2 == 0 && blkSrcH b % 2 == 0)) &&
    (!fmt422 f || (blkSrcX b % 2 == 0 && blkSrcW b % 2 == 0))

/-- Sixth row of R161: a handle with a scaler and the ratios of R176. -/
def blkScaleOk (handle : Nat) (b : Blk) : Bool :=
  let ratio := fun s d => decide (s ≤ 8 * d) && decide (d ≤ 16 * s)
  !blkScales b || (decide (handle < 0x18) && ratio (blkSrcW b) (blkDstW b) && ratio (blkSrcH b) (blkDstH b))

/-- R175: the line-buffer limit on SRC_W. -/
def linebufLimit (vtaps : Nat) : Nat := min 8192 (16384 / max 1 vtaps)

/-- First row of R161: the handle and the head are granted to the ply. -/
def Dev.layerGranted (d : Dev) (p : Fin 64) (f : InFlight) : Bool :=
  (d.entry p).handles.contains f.layerHandle && (d.entry p).heads.contains f.layerHead.val

/-- A LAYER's checks (R161) in table order; the block is as read from the ply's memory. A disabling LAYER uses no state block. -/
def Dev.layerCheck (d : Dev) (p : Fin 64) (f : InFlight) (b : Blk) : Nat :=
  let addr := le64 f.bytes 40
  if !d.headExposed f.layerHead then stNoUnit
  else if !d.layerGranted p f then stNotPermitted
  else
    let hdr := f.headerOk && f.restZero [(32, 3), (40, 8)] && decide (byteAt f.bytes 32 < 64) && decide (byteAt f.bytes 33 ≤ 1) &&
      decide (byteAt f.bytes 34 < 8) && !d.slave f.layerHead
    if f.layerDisable then (if hdr then stOk else stBadField)
    else if !d.mapped p addr 128 false then stNotPermitted
    else if !(hdr && addr % 128 == 0 && decide (addr < 2 ^ 40) && blkFieldsOk b) then stBadField
    else if !blkAligned b then stBadField
    else if !blkEven b then stBadField
    else if !blkScaleOk f.layerHandle b then stBadField
    else if (layerRanges b).any (fun r => decide (0 < r.2) && !d.mapped p r.1 r.2 false) ||
        (blkScales b && !d.mapped p (blkCoefAddr b) 1536 false) then stNotPermitted
    else if blkScales b && decide (linebufLimit (blkVtaps b) < blkSrcW b) then stLinebufShort
    else stOk

/-- What a LAYER's parse reads: the state block, and the coefficient block of a scaling layer, where the device tests them as mapped (R85, R86, R159). -/
def State.layerReads (s : State) (p : Fin 64) (f : InFlight) : List (Nat × Nat) :=
  let addr := le64 f.bytes 40
  if f.layerDisable || !s.dev.headExposed f.layerHead || !s.dev.layerGranted p f || !s.dev.mapped p addr 128 false then []
  else match s.plyRead p addr 128 with
    | none => [(addr, 128)]
    | some b => (addr, 128) :: if s.dev.layerCheck p f b = stOk ∧ blkScales b then [(blkCoefAddr b, 1536)] else []

/-- R159, R161: a LAYER's state block, and the coefficient block of a scaling layer, are read under MEM credits of the ply and checked. None where the
take is refused (R86). With the state comes the status. A read that meets an uncorrectable error faults the ply (R281). -/
def State.checkLayer (s : State) (p : Fin 64) (r : Fin 4) (f : InFlight) : Option (State × Nat) :=
  let rs := s.layerReads p f
  (s.takeMem (plyHolder p) ((rs.map fun x => unitsOf x.1 x.2).sum) rs).map fun s =>
    match rs.find? fun x => (s.plyRead p x.1 x.2).isNone with
    | some x => (s.faultAt p x.1 x.2 false .weevil, stDiscarded)
    | none =>
      let b := if f.layerDisable then [] else (s.plyRead p (le64 f.bytes 40) 128).getD []
      let st := s.dev.layerCheck p f b
      let coef := if st = stOk ∧ !f.layerDisable ∧ blkScales b then (s.plyRead p (blkCoefAddr b) 1536).getD [] else []
      (s.updDesc p r f.order fun f => { f with block := b ++ coef, status := st, seen := true }, st)

end Sys2Proof.Machine
end

