-- ==== Sys2Proof/Machine/Groups.lean ====
section
/-! DEFINITION. Machine/Groups.lean: COMMIT and LAYER descriptors on their ring: which LAYERs a COMMIT claims, and the status of the group
(R191), decided when the COMMIT is accepted. -/
namespace Sys2Proof.Machine

/-- A COMMIT's own checks (R85, R148). -/
def Dev.commitCheck (d : Dev) (p : Fin 64) (f : InFlight) : Nat :=
  let h := f.commitHead
  if !f.headerOk || !f.restZero [(32, 3)] || decide (8 ≤ byteAt f.bytes 32) || decide (16 < f.commitCount) || d.slave h then stBadField
  else if !d.headExposed h then stNoUnit
  else if !(d.entry p).heads.contains h.val then stNotPermitted
  else stOk

/-- The LAYERs that stand immediately before a descriptor of the ring and that nothing has claimed, nearest first (R191). -/
def SubRing.layersBefore (g : SubRing) (order : Nat) : List InFlight :=
  (g.queue.filter fun e => decide (e.order < order)).reverse.takeWhile fun e => e.opcode == 0x21 && e.phase != .finished

/-- A COMMIT's group in ring order (R191): k LAYERs accepted since the ring was last enabled, or up to 16 where k is out of range. -/
def SubRing.groupOf (g : SubRing) (f : InFlight) : List InFlight :=
  (((g.layersBefore f.order).takeWhile (·.mark == 0)).take (if 16 < f.commitCount then 16 else f.commitCount)).reverse

/-- What the LAYERs of a group, in ring order, say of its status: the first one that fails decides it. None while none of those known fails (R191). -/
def layersStatus (head : Fin 8) : List InFlight → Option Nat
  | [] => none
  | l :: t =>
    if l.layerHead ≠ head then some stBadField
    else if !l.seen then none
    else if l.status ≠ stOk then some l.status
    else layersStatus head t

/-- R191: the status that fails the group now, or none: its own checks, too few LAYERs, then the LAYERs in ring order. -/
def State.groupStatus (s : State) (p : Fin 64) (r : Fin 4) (f : InFlight) : Option Nat :=
  let own := s.dev.commitCheck p f
  let ls := (s.ring p r).groupOf f
  if own ≠ stOk then some own
  else if ls.length < f.commitCount then some stBadField
  else layersStatus f.commitHead ls

/-- The LAYERs of a group are checked in ring order, whether or not one of them waits, until one fails or a MEM take is refused (R86, R191, R192). -/
def State.checkLayers (s : State) (p : Fin 64) (r : Fin 4) (head : Fin 8) : List InFlight → State
  | [] => s
  | l :: t =>
    if l.layerHead ≠ head then s
    else if l.seen then (if l.status = stOk then s.checkLayers p r head t else s)
    else match s.checkLayer p r l with
      | none => s
      | some (s, st) => if st = stOk then s.checkLayers p r head t else s

/-- A group completes: its LAYERs and its COMMIT, with one status; `frame` fills the COMMIT's result (R195). -/
def State.finishGroup (s : State) (p : Fin 64) (r : Fin 4) (orders : List Nat) (commit status : Nat) (frame : DWord) : State :=
  let s := s.each orders fun s o => s.finishDesc p r o status []
  s.finishDesc p r commit status (bytesOf 8 frame.toNat)

/-- The status of a COMMIT's group is decided as soon as the COMMIT is accepted: its LAYERs are checked where the group can still pass, and the group
completes if its status is against it (R191, R192). A refused MEM take leaves it to the LAYER's own parse. -/
def State.settleGroup (s : State) (p : Fin 64) (r : Fin 4) (f : InFlight) : State :=
  let s := if s.groupStatus p r f = none then s.checkLayers p r f.commitHead ((s.ring p r).groupOf f) else s
  match s.groupStatus p r f with
  | some st => s.finishGroup p r (((s.ring p r).groupOf f).map (·.order)) f.order st 0
  | none => s

/-- R191: when a descriptor is accepted, LAYERs immediately before it that it does not claim complete with BAD_FIELD, and a COMMIT's group
meets its checks. A LAYER claims nothing and leaves those before it waiting. -/
def State.groupsOnAccept (s : State) (p : Fin 64) (r : Fin 4) (f : InFlight) : State :=
  if f.opcode = 0x21 then s
  else
    let g := s.ring p r
    let claimed := if f.opcode = 0x20 then (g.groupOf f).map (·.order) else []
    let s := s.each ((g.layersBefore f.order).filter fun e => !claimed.contains e.order) fun s e => s.finishDesc p r e.order stBadField []
    if f.opcode = 0x20 then s.settleGroup p r f else s

/-- A LAYER has been checked: the COMMIT that claims it, if accepted, may now be decided (R191, R192). -/
def State.groupsOnLayer (s : State) (p : Fin 64) (r : Fin 4) (order : Nat) : State :=
  match (s.ring p r).queue.find? fun c => c.opcode == 0x20 && c.phase != .finished && c.phase != .dispatched &&
      ((s.ring p r).groupOf c).any (·.order == order) with
  | some c => s.settleGroup p r c
  | none => s

/-- A ply's pages `pg .. pg + n - 1` as byte range [pg x 64 KiB, ...). -/
def pageHit (pg n addr len : Nat) : Bool :=
  decide (0 < len) && decide (addr < (pg + n) * 65536) && decide (pg * 65536 < addr + len)

end Sys2Proof.Machine
end

