-- ==== Sys2Proof/Machine/Rings.lean ====
section
/-! DEFINITION. Machine/Rings.lean: the ply page, doorbells, intake, class A polling, retirement, and the descriptors of the Weevils' own
chapter (R66-R98). -/
namespace Sys2Proof.Machine

/-- R38: a ply page responds only on the port to which its ply is bound, and not while the ply is ABSENT or its binding is lost. -/
def Dev.pageOpen (d : Dev) (q : Fin 4) (p : Fin 64) : Bool :=
  (d.ply p).state != .absent && (d.ply p).port == q && (d.ply p).cause != .orphan && (d.ply p).state != .orphaned

/-- A ply's intake runs only while it is ACTIVE (R108). -/
def State.intake (s : State) (p : Fin 64) : Bool := (s.ply p).state == .active

/-- Address of a field of submission ring r's doorbell record (R67, R68). -/
def Ply.record (y : Ply) (r : Fin 4) (off : Nat) : Nat := y.dbrBase.toNat + 64 * r.val + off

/-- CONS and ASLEEP are the bytes of a submission ring's record that the device writes (R68, R69). -/
def State.writeCons (s : State) (p : Fin 64) (r : Fin 4) : State :=
  s.onDev fun d => d.hostWrite p false ((d.ply p).record r 8) (bytesOf 4 (at' (d.ply p).rings r).cons.toNat)
@[inherit_doc State.writeCons] def State.writeAsleep (s : State) (p : Fin 64) (r : Fin 4) (v : Bool) : State :=
  (s.onDev fun d => d.hostWrite p false ((d.ply p).record r 16) (bytesOf 1 (bit1 v))).updRing p r fun g => { g with asleep := v }

/-- The device reads record.prod of a non-polled ring: the next state of the service procedure is `st` (R76). -/
def State.readRecord (s : State) (p : Fin 64) (r : Fin 4) (st : RingRead) : State :=
  (s.updRing p r fun g => { g with read := st }).plyReads p (.record p r) [((s.ply p).record r 0, 4)]

/-- R76 `service`: a pass over a non-polled ring begins. -/
def State.startPass (s : State) (p : Fin 64) (r : Fin 4) : State :=
  let s := if (s.ring p r).asleep then s.writeAsleep p r false else s
  (s.updRing p r fun g => { g with again := false }).readRecord p r .record

/-- R83, R70: a ring error stops the ring's intake and posts RING_STOPPED. -/
def State.stopRing (s : State) (p : Fin 64) (r : Fin 4) : State :=
  (s.updRing p r fun g => { g with error := true, read := .idle, again := false }).postPly p p.val 0x0000 r.val []

/-- Number of slots of a ring. -/
def SubRing.depth (g : SubRing) : Nat := 2 ^ g.log2Depth

/-- A ring whose intake can run. -/
def SubRing.runs (g : SubRing) : Bool := g.enable && !g.error

/-! Class A polling (R79-R83) -/

/-- Polled rings that are enabled. -/
def Ply.polled (y : Ply) : List (Fin 4) := (allFin 4).filter fun r => let g := at' y.rings r; g.enable && g.poll

/-- A poll wanted by the timer or a NUDGE: issued at once when no poll is outstanding and the standing tags are free, else one poll is
deferred behind the outstanding one (R79). No poll issues before the standing reservation is in force (R55): its take is refused. A timer tick or
NUDGE that finds the port's traffic held, or the take refused, starts no poll and defers none (DESIGN CHOICE, log entry 27). -/
def State.wantPoll (s : State) (p : Fin 64) : State :=
  let y := s.ply p
  if !s.intake p || y.cls != .a || y.polled.isEmpty || !(s.port y.port).trafficOk then s
  else if y.pollOut.isSome || decide (0 < y.pollTags) then s.updPly p fun y => { y with pollDefer := true }
  else
    let n := 1 + y.polled.length
    match s.skein.take (.htag y.port) (standHolder p) n with
    | none => s
    | some k =>
      let s := { s with skein := k }
      let s := s.updPly p fun y =>
        { y with pollOut := some (Vector.ofFn fun r => if y.polled.contains r then some (at' y.rings r).prod else none), pollTags := n, pollDefer := false }
      s.onDev fun d => d.emitReads y.port y.pasid ((y.dbrBase.toNat, 512) :: y.polled.map fun r => ((at' y.rings r).base.toNat, 512))

/-- The poll's reads are over: its tags return, and a deferred poll starts (R79). -/
def State.endPoll (s : State) (p : Fin 64) : State :=
  let y := s.ply p
  let defer := y.pollDefer
  let s := s.onSkein fun k => k.give (.htag y.port) (standHolder p) y.pollTags
  let s := s.updPort y.port fun pt => { pt with inval := pt.inval.map fun v => { v with polls := v.polls.filter (· != p) } }
  let s := s.updPly p fun y => { y with pollOut := none, pollTags := 0, pollDefer := false }
  if defer then s.wantPoll p else s

/-! Acceptance (R82-R85) -/

/-- R85: a slot with the right SEQ is accepted by taking one RING credit. On a polled ring the standing credits serve the first 8 descriptors in
flight; one that finds 8 in flight takes the ply's other RING credits (R55, R61). -/
def State.accept (s : State) (p : Fin 64) (r : Fin 4) (bytes : List Byte) : Option State :=
  let g := s.ring p r
  let standing := g.poll && decide (g.queue.length < 8)
  let f : InFlight := { bytes := bytes, seq := g.cons, order := s.dev.order, phase := .accepted, reserved := false, standing := standing,
                        status := 0, result := List.replicate 16 0, block := [], mark := 0, reading := 0, armedAt := none, seen := false }
  let f := if f.opcode = 0x20 then { f with mark := (s.head f.commitHead).frame.toNat } else f
  (s.skein.take .ring (f.holder p) 1).map fun k =>
    let s := { s with skein := k, dev := { s.dev with order := s.dev.order + 1 } }
    (s.updRing p r fun g => { g with cons := g.cons + 1, queue := g.queue ++ [f] }).groupsOnAccept p r f

/-- SEQ of a slot (R84). -/
def slotSeq (bs : List Byte) : Word := word (le32 bs 4)

/-- What became of a batch of slots. -/
inductive Batch where | all | refused | wrongSeq
deriving DecidableEq, Repr

/-- Slots offered for acceptance in index order (R76, R82, R85). -/
def State.acceptBatch (s : State) (p : Fin 64) (r : Fin 4) : List (List Byte) → State × Batch
  | [] => (s, .all)
  | bs :: t =>
    let bs := fitBytes 64 bs
    if slotSeq bs ≠ (s.ring p r).cons then (s, .wrongSeq)
    else match s.accept p r bs with
      | none => (s, .refused)
      | some s => s.acceptBatch p r t

/-! Rows: doorbells and reads -/

/-- NUDGE_SQ (R75, R79): on a polled ring a poll at once; on a non-polled ring a pass, also where a refused RING take has stopped the last one, or
one pending re-read. -/
def execNudgeSq (q : Fin 4) (p : Fin 64) (mask : Fin 16) (s : State) : Res := s.clocked fun s =>
  if !(s.dev.pageOpen q p && s.intake p) then .next s
  else
    let rs := (allFin 4).filter fun r => bit mask.val r.val && (s.ring p r).runs
    let s := s.each (rs.filter fun r => !(s.ring p r).poll) fun s r =>
      if (s.ring p r).read = .idle ∨ (s.ring p r).read = .stalled then s.startPass p r else s.updRing p r fun g => { g with again := true }
    .next (if rs.any fun r => (s.ring p r).poll then s.wantPoll p else s)

/-- NUDGE_CQ (R75, R78, R114): the completion ring's CONS is re-read in every state in which the device still writes the ply's host memory; one
re-read is pending where another is outstanding. -/
def execNudgeCq (q : Fin 4) (p : Fin 64) (s : State) : Res := s.clocked fun s =>
  if s.dev.pageOpen q p ∧ (s.ply p).cq.enable then
    .next (if (s.ply p).cq.reread = .none then s.wantCons p else s.updCq p fun c => { c with again := true })
  else .next s

/-- RING_CTL fields written while ENABLE is 0 (R72, R73). POLL exists on class A submission rings only. -/
def SubRing.setCtl (g : SubRing) (cls : PlyClass) (v : Word) : SubRing :=
  if g.enable then g
  else { g with log2Depth := fld v.toNat 15 12, poll := bit v.toNat 11 && cls == .a, vec := fld v.toNat 10 8, vecEn := bit v.toNat 7 }
@[inherit_doc SubRing.setCtl] def CplRing.setCtl (c : CplRing) (v : Word) : CplRing :=
  if c.enable then c else { c with log2Depth := fld v.toNat 15 12 }

/-- A LAYER that no descriptor accepted later on its ring could claim or complete (R191). -/
def SubRing.loose (g : SubRing) (f : InFlight) : Bool := f.opcode == 0x21 && !g.queue.any fun c => c.opcode != 0x21 && decide (f.order < c.order)

/-- A ring as its enabling leaves it (R73). LAYERs that still wait for a COMMIT are marked: one claims only those accepted since the ring was last
enabled (R191). -/
def SubRing.enabled (g : SubRing) : SubRing :=
  { g with enable := true, error := false, setupErr := false, asleep := false, cons := 0, prod := 0, read := .idle, again := false,
           queue := g.queue.map fun f => if g.loose f then { f with mark := 1 } else f }

/-- R71: a ring's base is aligned to its size in bytes, and never to less than 512 bytes. -/
def baseOk (base : DWord) (bytes : Nat) : Bool := base.toNat % max bytes 512 == 0

/-- R73: whether the set-up of a submission ring is accepted. -/
def Ply.ringOk (y : Ply) (r : Fin 4) (mrrs : Nat) : Bool :=
  let g := at' y.rings r
  decide (3 ≤ g.log2Depth) && decide (g.log2Depth ≤ 12) && baseOk g.base (64 * g.depth) &&
    (!g.poll || (g.log2Depth == 3 && decide (y.polled.length < 3) && decide (512 ≤ mrrs)))

/-- R73: whether the set-up of the completion ring is accepted. -/
def CplRing.setupOk (c : CplRing) : Bool :=
  decide (6 ≤ c.log2Depth) && decide (c.log2Depth ≤ 14) && baseOk c.base (32 * c.depth)

/-- RING_ENABLE (R73): ENABLE written from 0 to 1. A submission ring (0-3) of an ACTIVE ply that is not polled starts its first pass
(log entry 23). While the ply is QUIESCED a submission ring's CONS and ASLEEP are not written, since R108 names no such host write then; the
completion ring's PROD and ASLEEP are (DESIGN CHOICE, log entry 28). -/
def execRingEnable (q : Fin 4) (p : Fin 64) (ring : Fin 5) (value : Word) (s : State) : Res := s.clocked fun s =>
  if !s.dev.pageOpen q p then .next s
  else if h : ring.val < 4 then
    let r : Fin 4 := ⟨ring.val, h⟩
    if (s.ring p r).enable then .next s
    else
      let s := s.updRing p r fun g => g.setCtl (s.ply p).cls value
      if (s.ply p).ringOk r (s.port q).mrrs then
        let s := s.updRing p r SubRing.enabled
        let s := s.onDev fun d =>
          (d.hostWrite p false ((d.ply p).record r 8) (bytesOf 4 0)).hostWrite p false ((d.ply p).record r 16) [0]
        .next (if s.intake p && !(s.ring p r).poll then s.startPass p r else s)
      else .next (s.updRing p r fun g => { g with setupErr := true })
  else if (s.ply p).cq.enable then .next s
  else
    let s := s.updCq p fun c => c.setCtl value
    if (s.ply p).cq.setupOk then
      let s := s.updCq p fun c =>
        { c with enable := true, setupErr := false, asleep := false, prod := 0, cons := 0, reserved := 0, reread := .none, again := false }
      .next (s.onDev fun d =>
        ((d.hostWrite p true ((d.ply p).dbrBase.toNat + 256) (bytesOf 4 0)).hostWrite p true ((d.ply p).dbrBase.toNat + 272) [0]).reportLost p)
    else .next (s.updCq p fun c => { c with setupErr := true })

/-- RING_DISABLE (R74): intake stops at once; reads already issued for the ring, a poll's among them, are discarded when they complete. -/
def execRingDisable (q : Fin 4) (p : Fin 64) (r : Fin 4) (s : State) : Res := s.clocked fun s =>
  if s.dev.pageOpen q p then
    let s := s.updPly p fun y => { y with pollOut := y.pollOut.map fun v => put v r none }
    .next ((s.onDev (·.dropReads (ReadFor.ofRing p r))).updRing p r fun g => { g with enable := false, read := .idle, again := false })
  else .next s

/-- CQ_DISABLE (R74): every entry reservation ends; what waits for an entry is dispatched without one, or dropped and counted. -/
def execCqDisable (q : Fin 4) (p : Fin 64) (s : State) : Res := s.clocked fun s =>
  if !(s.dev.pageOpen q p && (s.ply p).cq.enable) then .next s
  else
    let lost := (s.ply p).cq.waiters.filter fun w => match w with | CqWait.reserve _ _ => false | _ => true
    let s := s.onDev (·.dropReads (· == .cons p))
    let s := s.updPly p fun y =>
      { y with cq := { y.cq with enable := false, reserved := 0, waiters := [], reread := .none, again := false },
               rings := y.rings.map fun g => { g with queue := g.queue.map fun f =>
                 { f with reserved := false, phase := if f.phase == .waitEntry then .parsed else f.phase } } }
    .next (s.each lost fun s _ => s.onDev (·.dropEvent p))

/-- FENCE_VAL_HI_WRITE (R72): stores the staging high word. -/
def execFenceValHiWrite (q : Fin 4) (p : Fin 64) (value : Word) (s : State) : Res := s.clocked fun s =>
  if s.dev.pageOpen q p then .next (s.updPly p fun y => { y with fenceStage := value }) else .next s

/-- FENCE_VAL_LO_READ (R72): returns the low word of the selected fence and latches its high word. -/
def execFenceValLoRead (q : Fin 4) (p : Fin 64) (s : State) : Res := s.clocked fun s =>
  let off := p.val * 0x1000 + 0x24
  if s.dev.pageOpen q p then
    let v := (s.ply p).fence (s.ply p).fenceSel
    .next ((s.updPly p fun y => { y with fenceLatch := DWord.hi v }).emit (.regValue q off (DWord.lo v)))
  else .next (s.emit (.regValue q off 0))

/-- RING_SERVICE_RESUME (R75, R76): a non-polled ring whose RING take was refused is read again. -/
def execRingServiceResume (p : Fin 64) (r : Fin 4) (s : State) : Res := s.clocked fun s =>
  if s.intake p && (s.ring p r).runs && (s.ring p r).read == .stalled then .next (s.startPass p r) else .next s

/-- The next slots of a batch are read: at most 8, none past what PROD covers (R76). -/
def State.readSlots (s : State) (p : Fin 64) (r : Fin 4) : State :=
  let g := s.ring p r
  let n := min (g.prod - g.cons).toNat 8
  (s.updRing p r fun g => { g with read := .slots n }).plyReads p (.slots p r) (g.slotRanges n)

/-- The pass is done: ASLEEP = 1 is written and PROD is read once more (R76). -/
def State.goToSleep (s : State) (p : Fin 64) (r : Fin 4) : State := (s.writeAsleep p r true).readRecord p r .confirm

/-- DOORBELL_RECORD_READ_DONE (R70, R75, R76): the read of a non-polled ring's PROD completes. -/
def execDoorbellRecordReadDone (p : Fin 64) (r : Fin 4) (prod : Word) (s : State) : Res := s.clocked fun s =>
  if !s.dev.readOut (.record p r) then .next s
  else
    let s := s.endReads (.record p r)
    let g := s.ring p r
    if !(s.intake p && g.runs) then .next s
    else if g.read = .record ∨ g.read = .confirm then
      let s := s.updRing p r fun g => { g with prod := prod }
      if g.depth < (prod - g.cons).toNat then .next (s.stopRing p r)
      else if g.read = .record then
        .next (if prod = g.cons then s.goToSleep p r else s.readSlots p r)
      else if prod = g.cons then
        .next (if g.again then s.startPass p r else s.updRing p r fun g => { g with read := .idle })
      else .next ((s.writeAsleep p r false).readRecord p r .record)
    else .next s

/-- SLOT_READ_DONE (R76, R83, R85): each slot read is offered for acceptance in index order. CONS is written for the slots accepted. -/
def execSlotReadDone (p : Fin 64) (r : Fin 4) (slots : List (List Byte)) (s : State) : Res := s.clocked fun s =>
  if !s.dev.readOut (.slots p r) then .next s
  else
    let s := s.endReads (.slots p r)
    match s.intake p && (s.ring p r).runs, (s.ring p r).read with
    | true, .slots n =>
      let (s, b) := s.acceptBatch p r ((slots ++ List.replicate n []).take n)
      let s := s.writeCons p r
      match b with
      | .wrongSeq => .next (s.stopRing p r)
      | .refused => .next (s.updRing p r fun g => { g with read := .stalled })
      | .all => .next (if (s.ring p r).cons = (s.ring p r).prod then s.goToSleep p r else s.readSlots p r)
    | _, _ => .next s

/-- POLL_TIMER (R79): the class A poll timer fires. -/
def execPollTimer (p : Fin 64) (s : State) : Res := s.clocked fun s => .next (s.wantPoll p)

/-- Slots of a polled ring that PROD covers, accepted in order; a wrong SEQ is not yet visible unless the slot was already covered by a
record read completed before this poll was issued (R82, R83). -/
def State.acceptPolled (s : State) (p : Fin 64) (r : Fin 4) (known prod : Word) (slots : List (List Byte)) : Nat → State
  | 0 => s
  | n + 1 =>
    let g := s.ring p r
    if g.cons = prod then s
    else
      let bs := fitBytes 64 (slots.getD (g.cons.toNat % 8) [])
      if slotSeq bs ≠ g.cons then
        if (known - g.cons).toNat ≤ 8 ∧ g.cons ≠ known then s.stopRing p r else s
      else match s.accept p r bs with
        | none => s
        | some s => s.acceptPolled p r known prod slots n

/-- POLL_READS_DONE (R79, R81-R83): the doorbell block and the slots of every polled ring (8 slots of 64 bytes each, ring by ring) are in. -/
def execPollReadsDone (p : Fin 64) (block : List Byte) (slots : Vector (List (List Byte)) 4) (s : State) : Res := s.clocked fun s =>
  if (s.ply p).pollTags = 0 then .next s
  else
    match (s.ply p).pollOut with
    | none => .next (s.endPoll p)
    | some known =>
      let s := s.each (allFin 4) fun s r =>
        match (s.ring p r).runs, at' known r with
        | false, _ | _, none => s
        | true, some known =>
          let prod := word (le32 block (64 * r.val))
          let g := s.ring p r
          if 8 < (prod - g.cons).toNat then s.stopRing p r
          else
            let s := s.acceptPolled p r known prod (at' slots r) 8
            let s := s.updRing p r fun g => { g with prod := prod }
            if (s.ring p r).cons = g.cons then s else s.writeCons p r
      .next (s.endPoll p)

/-- CQ_CONS_READ_DONE (R78, R98): freed entries go to what waits, in order; held events that find none are dropped; a ring still full
shows ASLEEP and is read once more. -/
def execCqConsReadDone (p : Fin 64) (cons : Word) (s : State) : Res := s.clocked fun s =>
  if !s.dev.readOut (.cons p) then .next s
  else
    let s := s.endReads (.cons p)
    let c := (s.ply p).cq
    if !c.enable || c.reread == .none then .next s
    else
      let s := s.updCq p fun c => { c with cons := cons, reread := .none, again := false }
      let s := s.onDev fun d => (d.reportLost p).serveWaiters p (d.ply p).cq.waiters
      let s := s.onDev fun d => d.dropHeldEvents p
      let c' := (s.ply p).cq
      if 0 < c'.freeEntries then
        let s := if c'.asleep then
            (s.onDev fun d => d.hostWrite p true ((d.ply p).dbrBase.toNat + 272) [0]).updCq p fun c => { c with asleep := false }
          else s
        .next (if c.again then s.wantCons p else s)
      else if c.again then .next (s.wantCons p)
      else if c.reread = .first ∧ (c'.waiters ≠ [] ∨ c'.dropped ≠ 0) then
        let s := s.onDev fun d => d.hostWrite p true ((d.ply p).dbrBase.toNat + 272) [1]
        .next ((s.updCq p fun c => { c with asleep := true, reread := .second }).plyReads p (.cons p) [((s.ply p).dbrBase.toNat + 264, 4)])
      else .next s

/-! Dispatch (R84, R86) -/

/-- The descriptor at the head of a ring: the first one not yet dispatched. A FENCE_WAIT stands there until it retires (R86). -/
def SubRing.head (g : SubRing) : Option InFlight := g.queue.find? fun f => f.undispatched || f.opcode == 0x02

/-- Opcodes that imply BARRIER: FENCE_SIGNAL (R89). -/
def InFlight.needsBarrier (f : InFlight) : Bool := f.barrier || f.opcode == 0x03

/-- Every earlier descriptor of the ring has retired. A COMMIT does not wait for the LAYERs of its own group, which retire only with it, nor a
LAYER for those just before it (R89; log entry 24). -/
def SubRing.barrierMet (g : SubRing) (f : InFlight) : Bool :=
  let mates := if f.opcode = 0x20 then g.groupOf f else if f.opcode = 0x21 then g.layersBefore f.order else []
  !f.needsBarrier || g.queue.all fun e => decide (f.order ≤ e.order) || mates.any (·.order == e.order)

/-- The head of a ring, if it is parsed, has the opcode, its wait is reached and its BARRIER is met: it may be dispatched (R86). -/
def State.ready (s : State) (p : Fin 64) (r : Fin 4) (op : Nat) : Option InFlight :=
  match (s.ring p r).head with
  | none => none
  | some f =>
    if s.intake p && f.phase == .parsed && f.opcode == op && (s.ply p).reached f && (s.ring p r).barrierMet f then some f else none

/-- A descriptor handed to its engine. -/
def State.dispatch (s : State) (p : Fin 64) (r : Fin 4) (order mark : Nat) : State :=
  s.updDesc p r order fun f => { f with phase := .dispatched, mark := mark }

/-- A descriptor found anywhere by ply, ring and SEQ. -/
def State.descBySeq (s : State) (p : Fin 64) (r : Fin 4) (seq : Word) : Option InFlight := (s.ring p r).queue.find? (·.seq == seq)

/-- FENCE_WAIT_TIMEOUT (R86): a FENCE_WAIT held at the head retires with status TIMEOUT. Its result is the fence value seen. -/
def execFenceWaitTimeout (p : Fin 64) (r : Fin 4) (s : State) : Res := s.clocked fun s =>
  match (s.ring p r).head with
  | some f =>
    if f.phase = .parsed ∧ f.opcode = 0x02 ∧ le32 f.bytes 32 ≠ 0 ∧ !(s.ply p).reached f then
      .next (s.finishDesc p r f.order 0x06 (bytesOf 8 ((s.ply p).fence f.waitFence).toNat))
    else .next s
  | none => .next s

/-! The Weevils' own descriptors -/

/-- NOP (R89): does nothing but retire. -/
def execNop (p : Fin 64) (r : Fin 4) (s : State) : Res := s.clocked fun s =>
  match s.ready p r 0x01 with
  | some f => .next (s.finishDesc p r f.order 0 [])
  | none => .next s

/-- FENCE_WAIT (R86): retires once its fence is reached, with the fence value seen. -/
def execFenceWait (p : Fin 64) (r : Fin 4) (s : State) : Res := s.clocked fun s =>
  match s.ready p r 0x02 with
  | some f => .next (s.finishDesc p r f.order 0 (bytesOf 8 ((s.ply p).fence f.waitFence).toNat))
  | none => .next s

/-- FENCE_SIGNAL (R89, R91): with every earlier descriptor of the ring retired it goes to retirement, where the signal is applied. -/
def execFenceSignal (p : Fin 64) (r : Fin 4) (s : State) : Res := s.clocked fun s =>
  match s.ready p r 0x03 with
  | some f => .next (s.finishDesc p r f.order 0 [])
  | none => .next s

/-- A piece of a copy: `n` bytes from `src` to `dst`, each in device or host memory. None where a credit take is refused: the transfer
waits. The device side faults the ply (R36); `host` is the host data read, and host writes leave (R89). -/
def State.copyPiece (s : State) (p : Fin 64) (src dst n : Nat) (srcHost dstHost : Bool) (host : List Byte) : Option (State × Bool) :=
  match s.takeMem (plyHolder p) ((if srcHost then 0 else unitsOf src n) + (if dstHost then 0 else writeCost dst n))
      ((if srcHost then [] else [(src, n)]) ++ if dstHost then [] else [(dst, n)]) with
  | none => none
  | some s =>
    match (if srcHost then some (fitBytes n host) else s.plyRead p src n) with
    | none => some (s.faultAt p src n false .copy, false)
    | some bs =>
      if dstHost then some (s.onDev fun d => d.hostWrite p false dst bs, true)
      else match s.plyWrite p .copy dst bs with
        | none => some (s.faultAt p dst n true .copy, false)
        | some s => some (s, true)

/-- Source, destination, length and sides of a COPY or FILL (R89). A FILL has no source. -/
structure CopyArgs where
  src : Nat
  dst : Nat
  len : Nat
  srcHost : Bool
  dstHost : Bool
deriving DecidableEq, Repr

/-- The arguments of a COPY (0x10) or FILL (0x11) descriptor (R89). -/
def InFlight.copyArgs (f : InFlight) : CopyArgs :=
  if f.opcode = 0x10 then
    { src := le64 f.bytes 32, dst := le64 f.bytes 40, len := le32 f.bytes 48, srcHost := bit (byteAt f.bytes 52) 0,
      dstHost := bit (byteAt f.bytes 52) 1 }
  else { src := 0, dst := le64 f.bytes 32, len := le32 f.bytes 40, srcHost := true, dstHost := bit (byteAt f.bytes 48) 1 }

/-- What a transfer moves that it does not read from device memory: a FILL's pattern, which repeats from the start of its range, or host data (R89). -/
def InFlight.hostSide (f : InFlight) (host : List Byte) (n : Nat) : List Byte :=
  if f.opcode = 0x11 then
    let pat := bytesOf 4 (le32 f.bytes 44)
    (List.range n).map fun i => pat.getD ((f.mark + i) % 4) 0
  else host

/-- A COPY or FILL in the engine moves on by up to `n` bytes; at its end it completes with the bytes moved (R89). None where a credit take is refused. -/
def State.moveOn (s : State) (p : Fin 64) (r : Fin 4) (f : InFlight) (n : Nat) (host : List Byte) : Option State :=
  let a := f.copyArgs
  let n := min n (a.len - f.mark)
  (s.copyPiece p (a.src + f.mark) (a.dst + f.mark) n a.srcHost a.dstHost (f.hostSide host n)).map fun
    | (s, false) => s.finishDesc p r f.order stDiscarded []
    | (s, true) =>
      if f.mark + n < a.len then s.updDesc p r f.order fun f => { f with mark := f.mark + n, reading := 0 }
      else s.finishDesc p r f.order 0 (bytesOf 4 a.len)

/-- The engine reads host data of a descriptor, one HTAG credit of the ply for each request, held until the request completes (R21, R43, R44). -/
def State.readData (s : State) (p : Fin 64) (r : Fin 4) (f : InFlight) (addr n : Nat) : State :=
  (s.updDesc p r f.order fun f => { f with reading := n }).plyReads p (.data p f.order) [(addr, n)]

/-- A COPY in the engine (R89). From host memory it first reads up to `n` bytes; once all of the read's requests are out, its data comes with the
next command, and the requests complete as the data is moved. -/
def State.copyOn (s : State) (p : Fin 64) (r : Fin 4) (f : InFlight) (n : Nat) (host : List Byte) : State :=
  let a := f.copyArgs
  if !a.srcHost then (s.moveOn p r f n []).getD s
  else if f.reading = 0 then s.readData p r f (a.src + f.mark) (min n (a.len - f.mark))
  else if !s.dev.readOut (.data p f.order) then s
  else match s.moveOn p r f f.reading host with
    | none => s
    | some s => s.endReads (.data p f.order)

/-- The descriptor that a COPY, FILL or CHECK command names by its SEQ: the ring's ready head, or one already in the engine (R86, R89). -/
def State.running (s : State) (p : Fin 64) (r : Fin 4) (op : Nat) (seq : Word) : Option InFlight :=
  match s.descBySeq p r seq with
  | none => none
  | some f =>
    if f.opcode ≠ op then none
    else if f.phase = .dispatched then (if s.intake p then some f else none)
    else match s.ready p r op with
      | some g => if g.order = f.order then some f else none
      | none => none

/-- COPY (R89): the engine takes the descriptor, or moves on by up to `n` bytes; `host` is the host data that it has read. -/
def execCopy (p : Fin 64) (r : Fin 4) (seq : Word) (n : Nat) (host : List Byte) (s : State) : Res := s.clocked fun s =>
  match s.running p r 0x10 seq with
  | some f => .next ((s.dispatch p r f.order f.mark).copyOn p r f n host)
  | none => .next s

/-- FILL (R89): the engine takes the descriptor, or moves on by up to `n` bytes. -/
def execFill (p : Fin 64) (r : Fin 4) (seq : Word) (n : Nat) (s : State) : Res := s.clocked fun s =>
  match s.running p r 0x11 seq with
  | some f =>
    let s := s.dispatch p r f.order f.mark
    .next ((s.moveOn p r f n []).getD s)
  | none => .next s

/-- The pages that MAP or UNMAP names: (first page, count). -/
def InFlight.pages (f : InFlight) : Nat × Nat := (le64 f.bytes 32 / 65536, le32 f.bytes 48)

/-- R90: a MAP's status, in the order it is tested after the checks of R85. -/
def Dev.mapStatus (d : Dev) (p : Fin 64) (f : InFlight) : Nat :=
  let (pg, n) := f.pages
  let phys := le64 f.bytes 40 / 65536
  let rights := byteAt f.bytes 52
  if rights % 4 = 0 then 0x02
  else if !((List.range n).all fun i =>
      decide ((phys + i) * 65536 < d.dramTop) && d.ely.mayAccess (phys + i) p.val (bit rights 1)) then 0x05
  else if (List.range n).any fun i => (Map.find (d.ply p).tables (pg + i)).isSome then 0x02
  else 0

/-- MAP (R90): all or nothing. -/
def execMap (p : Fin 64) (r : Fin 4) (s : State) : Res := s.clocked fun s =>
  match s.ready p r 0x70 with
  | none => .next s
  | some f =>
    let st := s.dev.mapStatus p f
    if st ≠ 0 then .next (s.finishDesc p r f.order st [])
    else
      let (pg, n) := f.pages
      let phys := le64 f.bytes 40 / 65536
      let rights := byteAt f.bytes 52
      let s := s.updPly p fun y => { y with tables := (List.range n).foldl (fun t i =>
        Map.ins t (pg + i) { page := phys + i, read := bit rights 0, write := bit rights 1 }) y.tables }
      .next (s.finishDesc p r f.order 0 [])

/-- R90: every descriptor of the ply that a Weevil accepted before has retired. -/
def Ply.earlierRetired (y : Ply) (order : Nat) : Bool :=
  y.rings.toList.all fun g => g.queue.all fun f => decide (order ≤ f.order)

/-- Some layer in the active state of a head refers to the ply's pages `pg .. pg + n - 1` (R90). -/
def Dev.layersUse (d : Dev) (p : Fin 64) (pg n : Nat) : Bool :=
  d.carder.heads.toList.any fun x => x.layers.any fun l => l.ply == p && (layerRanges l.block).any fun r => pageHit pg n r.1 r.2

/-- UNMAP (R90): waits for the ply's earlier descriptors and for active layers, then removes the pages. -/
def execUnmap (p : Fin 64) (r : Fin 4) (s : State) : Res := s.clocked fun s =>
  match s.ready p r 0x71 with
  | none => .next s
  | some f =>
    let (pg, n) := f.pages
    if !(s.ply p).earlierRetired f.order || s.dev.layersUse p pg n then .next s
    else
      let s := s.updPly p fun y => { y with tables := y.tables.filter fun e => decide (e.1 < pg) || decide (pg + n ≤ e.1) }
      .next (s.finishDesc p r f.order 0 [])

/-! Host-read completions and refused takes -/

/-- HOST_READ_COMPLETION (R44): the final completion of an outstanding read request arrives and its HTAG credit returns. The last request of a read
whose data is wanted completes with the row that brings the data. -/
def execHostReadCompletion (i : Nat) (s : State) : Res := s.clocked fun s =>
  match s.dev.reads[i]? with
  | some r =>
    if r.what == .other || (s.dev.reads.erase r).any (·.what == r.what) || s.dev.readWaits.any (·.what == r.what) then .next (s.endRead r)
    else .next s
  | none => .next s

/-- A read that did not complete: the ring's procedure issues a record or slot read again while the ply is ACTIVE, and the read of CONS again while
the ply's host memory is written; other data that is still wanted is read again (log entry 25). -/
def State.afterTimeout (s : State) (r : HostRead) : State :=
  match r.what with
  | .record p g => if s.intake p ∧ (s.ring p g).runs ∧ (s.ring p g).read ≠ .idle then s.issueRead r else s
  | .slots p g => if s.intake p ∧ (s.ring p g).runs ∧ (s.ring p g).read ≠ .idle then s.issueRead r else s
  | .cons p =>
    if (s.ply p).cq.enable && (s.ply p).cq.reread != .none && (s.ply p).writesHost true then s.issueRead r
    else s.updCq p fun c => { c with reread := .none, again := false }
  | .audio p _ | .data p _ => if s.intake p then s.issueRead r else s.onDev (·.dropReads (· == r.what))
  | .buffer _ => s.issueRead r
  | .other => s

/-- HTAG_COMPLETION_TIMEOUT (R44, R326): a host read not completed within 50 ms times out and its HTAG credit returns; `poll` names a
ply whose poll timed out instead of an outstanding read. -/
def execHtagCompletionTimeout (i : Nat) (poll : Option (Fin 64)) (s : State) : Res := s.clocked fun s =>
  match poll with
  | some p => if 0 < (s.ply p).pollTags then .next (s.endPoll p) else .next s
  | none =>
    match s.dev.reads[i]? with
    | some r => .next ((s.endRead r).afterTimeout r)
    | none => .next s

/-- CREDIT_WAIT_RETRY (R46): the engine holding a refused host read takes again. -/
def execCreditWaitRetry (i : Nat) (s : State) : Res := s.clocked fun s =>
  match s.dev.readWaits[i]? with
  | some r => .next ((s.onDev fun d => { d with readWaits := d.readWaits.eraseIdx i }).issueRead r)
  | none => .next s

/-- The engine that a host read serves (R121). -/
def ReadFor.engine : ReadFor → Engine
  | .record _ _ | .slots _ _ | .cons _ | .other => .weevil
  | .audio _ _ => .audio
  | .data _ _ => .copy
  | .buffer _ => .ely

/-- IOMMU_REFUSAL (R66, R121): the host refuses a translation for a ply request. Its outstanding read, if it is one, ends, and names the engine; the
descriptor being read is neither accepted nor completed. A refused write was the engine's that `access` names. -/
def execIommuRefusal (p : Fin 64) (addr : Nat) (access : RefusedAccess) (read : Option Nat) (s : State) : Res := s.clocked fun s =>
  match read.bind (s.dev.reads[·]?) with
  | some r => if r.ply = some p then .next ((s.endRead r).faultPly p addr access.write r.what.engine true)
    else .next (s.faultPly p addr access.write access.eng true)
  | none => .next (s.faultPly p addr access.write access.eng true)

/-- HAP_RECHARGE (R44): every millisecond of DEVTIME one HAP credit returns, oldest take first. -/
def execHapRecharge (s : State) : Res := s.clocked fun s => .next (s.onSkein Skein.rechargeHap)

end Sys2Proof.Machine
end

