-- ==== Sys2Proof/Machine/Mailbox.lean ====
section
/-! DEFINITION. Machine/Mailbox.lean: mailboxes, the GATE dispatcher, the command journal and the responses (R294-R301). -/
namespace Sys2Proof.Machine

/-! Statuses (R112, R277, R299) -/
def mbOk : Nat := 0x00
def mbBusy : Nat := 0x01
def mbNotPermitted : Nat := 0x02
def mbNoPly : Nat := 0x03
def mbExists : Nat := 0x04
def mbBadState : Nat := 0x05
def mbNotQuiesced : Nat := 0x06
def mbAdmitSpace : Nat := 0x07
def mbAdmitCap : Nat := 0x08
def mbPasidInUse : Nat := 0x09
def mbPortNoPasid : Nat := 0x0A
def mbStillLent : Nat := 0x0B
def mbUnbound : Nat := 0x0C
def mbNotAttested : Nat := 0x0D
def mbBadArg : Nat := 0x0E
def mbMigBadRecord : Nat := 0x0F
def mbDeniedClaim : Nat := 0x12
def mbUnknown : Nat := 0x13
def mbBadMessage : Nat := 0x14
def mbNotFree : Nat := 0x15
def mbLendFull : Nat := 0x16
def mbHalted : Nat := 0x17
def mbBadContainer : Nat := 0x18
def mbSuperseded : Nat := 0x1C
def mbNoUnit : Nat := 0x1D

/-- Command codes the firmware maps, with the packed length of their arguments and the offsets of their reserved bytes (R297, R298). -/
def commandTable : List (Nat × Nat × List Nat) :=
  [(0x01, 0, []), (0x02, 12, []), (0x03, 12, []), (0x04, 0, []), (0x08, 4, []), (0x09, 9, []), (0x0A, 9, []), (0x0B, 12, [3]),
   (0x0C, 12, [2, 3]), (0x0D, 8, []), (0x20, 16, [3]), (0x21, 12, [2, 3]), (0x22, 1, []), (0x23, 1, []), (0x24, 8, [3]), (0x25, 1, []),
   (0x26, 1, []), (0x28, 32, [2, 3, 4, 5, 6, 7]), (0x29, 16, [3, 4, 5, 6, 7]), (0x2A, 20, [1, 4, 5, 6, 7]),
   (0x2B, 20, [1, 2, 3, 4, 5, 6, 7]), (0x30, 2, [])] ++
  [(0x40, 4, []), (0x50, 2, []), (0x51, 8, []), (0x52, 2, []), (0x53, 1, []), (0x60, 0, []), (0x61, 0, []), (0x62, 0, []), (0x63, 17, []),
   (0x70, 2, []), (0x71, 0, []), (0x72, 40, [6, 7, 36, 37]), (0x73, 1, []), (0x74, 2, []), (0x80, 4, [])]

/-- The word of the GATE instruction of an entry (R300). -/
def gateWord (e : Nat) : Word := word (0xA400700B + e * 2 ^ 20)

/-- The command map and entry table that the firmware fills and locks: one entry per command, in the order of `commandTable`; the entry
addresses are the firmware's own and are taken 4 bytes apart (R301; log entry 32). -/
def firmwareMap : List (Nat × Nat) := (commandTable.zipIdx).map fun e => (e.1.1, e.2)
@[inherit_doc firmwareMap] def firmwareEntries : List (Nat × Nat) := (List.range commandTable.length).map fun e => (e, 4 * e)

/-! Request fields -/

def Journal.code (j : Journal) : Nat := byteAt j.slot 0
def Journal.irq (j : Journal) : Bool := bit (byteAt j.slot 1) 0
def Journal.tag (j : Journal) : Nat := le16 j.slot 2

/-- An argument: `n` bytes at offset `off` of ARGS (R295, R298). -/
def Journal.arg (j : Journal) (off n : Nat) : Nat := leAt j.slot (8 + off) n

/-- ARG_LEN is the packed length of the command's arguments and no reserved byte is set (R295, R298). -/
def Journal.wellFormed (j : Journal) : Bool :=
  match commandTable.find? (·.1 == j.code) with
  | none => false
  | some (_, len, res) =>
    byteAt j.slot 4 == len && fld (byteAt j.slot 1) 7 1 == 0 && zeroBytes j.slot 5 3 &&
      res.all (fun o => byteAt j.slot (8 + o) == 0) && zeroBytes j.slot (8 + len) (56 - len)

/-- Plies that a command names (R296). -/
def Journal.plies (j : Journal) : List Nat :=
  match j.code with
  | 0x09 | 0x0A => [j.arg 0 1]
  | 0x0B | 0x0C => [j.arg 0 1, j.arg 1 1]
  | 0x20 | 0x21 | 0x22 | 0x23 | 0x24 | 0x25 | 0x26 | 0x28 | 0x29 | 0x2A | 0x2B => [j.arg 0 1]
  | 0x72 => [j.arg 2 1]
  | _ => []

/-- Granules that a command names: first and count (R296, R298). -/
def Journal.granules (j : Journal) : Nat × Nat :=
  match j.code with
  | 0x09 | 0x0A => (j.arg 1 4, j.arg 5 4)
  | 0x0B | 0x0C => (j.arg 4 4, j.arg 8 4)
  | 0x0D => (j.arg 0 4, j.arg 4 4)
  | _ => (0, 0)

/-- Two commands that are carried out in the order Elytra took them: they name the same ply, granule or head (R296). A TEN_APPLY that waits
for its boundary does not hold back the next one for the head, which replaces it (R182). -/
def Journal.conflicts (a b : Journal) : Bool :=
  a.plies.any (fun p => b.plies.contains p) ||
  (let (f, n) := a.granules
   let (g, m) := b.granules
   decide (0 < n) && decide (0 < m) && decide (f < g + m) && decide (g < f + n)) ||
  (a.code == 0x30 && b.code == 0x30 && a.arg 0 1 == b.arg 0 1 && !a.begun)

/-- The accepted command with a given order and code, once Elytra runs it: it is in the journal and no earlier command of the journal that
it conflicts with is still there (R296). -/
def State.command (s : State) (order code : Nat) : Option Journal :=
  if s.dev.ely.state ≠ .running then none
  else
    match s.dev.ely.journal.find? (·.order == order) with
    | none => none
    | some j =>
      if j.code = code ∧ !(s.dev.ely.journal.any fun e => decide (e.order < order) && e.conflicts j) then some j else none

/-- A response ready to be written into a port's mailbox (R296). -/
def State.respond (s : State) (q : Fin 4) (r : MbxResponse) : State :=
  s.updPort q fun pt => { pt with mbx := { pt.mbx with ready := pt.mbx.ready ++ [r] } }

/-- A command is done: it leaves the journal and its response is ready, unless its port has gone down since (R296, R335). A refused command
carries no result bytes (log entry 33). -/
def State.answer (s : State) (j : Journal) (status : Nat) (result : List Byte) : State :=
  let s := s.onDev fun d => { d with ely := { d.ely with journal := d.ely.journal.filter fun e => e.order != j.order } }
  if j.mute then s
  else s.respond j.port { order := j.order, cmd := j.code, irq := j.irq, tag := j.tag, status := status, result := result }

/-- A command that waits for something outside Elytra stays in the journal, begun. -/
def State.hold (s : State) (j : Journal) : State :=
  if j.begun then s
  else s.onDev fun d => { d with ely := { d.ely with journal := d.ely.journal.map fun e =>
    if e.order = j.order then { e with begun := true, mark := d.order } else e } }

/-- A manager's command: BAD_MESSAGE, then NOT_PERMITTED, then what `act` does (R299, R482). -/
def State.managed (s : State) (order code : Nat) (act : Journal → State) : Res :=
  match s.command order code with
  | none => .next s
  | some j =>
    if !j.wellFormed then .next (s.answer j mbBadMessage [])
    else if !s.dev.isManager j.port then .next (s.answer j mbNotPermitted [])
    else .next (act j)

/-! Fuses and the key ladder (R288, R289, R308) -/

/-- Fields of the fuse map: key hashes, the device secret, and the counts of two thermometer codes (R289). -/
def Ely.askuloHash (e : Ely) : List Byte := e.fuses.take 48
@[inherit_doc Ely.askuloHash] def Ely.oemHash (e : Ely) : List Byte := (e.fuses.drop 48).take 48
@[inherit_doc Ely.askuloHash] def Ely.secret (e : Ely) : List Byte := (e.fuses.drop 96).take 32
@[inherit_doc Ely.askuloHash] def fuseCount (fuses : List Byte) (at_ : Nat) : Nat :=
  let v := leAt fuses at_ 8
  ((List.range 64).filter fun i => bit v i).length
@[inherit_doc Ely.askuloHash] def Ely.svnAskulo (e : Ely) : Nat := fuseCount e.fuses 128
@[inherit_doc Ely.askuloHash] def Ely.svnOem (e : Ely) : Nat := fuseCount e.fuses 136

/-- A private key that the key ladder derives from the device secret and a context: 0 the identity key, 1 the alias key (R288, R308). -/
def Ely.ladder (e : Ely) (i : Nat) (context : List Byte) : Nat := beOf (kdf384 e.secret (Config.ladderLabel i) context 48) % p384N

/-! Requests -/

/-- Difference of two 16-bit indices. -/
def idxDiff (a b : Nat) : Nat := (a + 65536 - b) % 65536

/-- MBX_REQ_PROD_WRITE (R296, R322): on a present port, requests up to the new index are offered; those more than 8 ahead of REQ_CONS are discarded and counted. -/
def execMbxReqProdWrite (q : Fin 4) (value : Word) (s : State) : Res := s.clocked fun s =>
  if !s.dev.portPresent q then .next s else
  let v := value.toNat % 65536
  let m := (s.port q).mbx
  let fresh := (List.range (idxDiff v m.reqProd)).map fun i => (m.reqProd + i) % 65536
  let good := fresh.filter fun i => decide (idxDiff i m.reqCons < 8)
  let bad := fresh.filter fun i => !decide (idxDiff i m.reqCons < 8)
  let s := s.updPort q fun pt =>
    { pt with mbx := { pt.mbx with reqProd := v, skipped := pt.mbx.skipped ++ bad, dropped := min 0xFFFF (pt.mbx.dropped + bad.length) } }
  .next (s.onDev fun d => { d with ely := { d.ely with inbox := d.ely.inbox ++ good.map fun _ => q } })

/-- MBX_RSP_CONS_WRITE (R296, R322): on a present port, responses read; room for held responses. -/
def execMbxRspConsWrite (q : Fin 4) (value : Word) (s : State) : Res := s.clocked fun s =>
  if !s.dev.portPresent q then .next s else
  .next (s.updPort q fun pt => { pt with mbx := { pt.mbx with rspCons := value.toNat % 65536 } })

/-- REQ_CONS moves past a taken request and past discarded ones that follow it (R296; log entry 34). -/
def Mailbox.advance (m : Mailbox) : Mailbox :=
  let rec go (m : Mailbox) : Nat → Mailbox
    | 0 => m
    | n + 1 => if m.reqCons ∈ m.skipped then
        go { m with reqCons := (m.reqCons + 1) % 65536, skipped := m.skipped.erase m.reqCons } n else m
  let n := m.skipped.length
  go { m with reqCons := (m.reqCons + 1) % 65536 } n

/-- A request slot's 64 bytes. -/
def Mailbox.slot (m : Mailbox) (i : Nat) : List Byte :=
  wordsToBytes ((List.range 16).map fun k => Map.get m.req 0 (16 * (i % 8) + k))

/-- Elytra's restart begins (R315, R316): STATE becomes RESTARTING, SPDM and migration sessions end, measurement 8 will be extended. The
third restart within 10 s halts it (R317). -/
def State.restartElytra (s : State) (cause : Nat) : State :=
  let e := s.dev.ely
  if !(e.state == .running || e.state == .restarting || (e.state == .rom && e.romMode)) then s
  else
    let recent := e.restartAt.filter fun t => decide (s.dev.devtime < t + 10000000000)
    let halt := decide (2 ≤ recent.length)
    let s := s.onDev fun d =>
      { d with ely := { d.ely with state := if halt then .halted else .restarting, lastCause := cause, locked := false, cmdMap := [], entries := [],
                                   sram := [],
                                   restarts := min 0xFFFF (d.ely.restarts + 1), restartAt := d.devtime :: recent },
               ports := d.ports.map fun pt => { pt with spdm := { pt.spdm with sessions := [] } },
               plies := d.plies.map fun y => { y with mig := { y.mig with agreed := false, attested := false } } }
    s

/-- MBX_REQUEST_TAKE (R296, R297, R299, R301, R316, R317): the next request is taken and REQ_CONS advances. While Elytra runs, the dispatcher
maps its code, checks the GATE instruction `fetched` at the entry's address and journals the command; otherwise the mailbox hardware answers.
In ROM mode only ELY_INFO and CONTAINER_LOAD are served. -/
def execMbxRequestTake (fetched : Word) (s : State) : Res := s.clocked fun s =>
  match s.dev.ely.inbox with
  | [] => .next s
  | q :: rest =>
    let m := (s.port q).mbx
    let bytes := m.slot m.reqCons
    let order := s.dev.ely.nextOrder
    let j : Journal := { order := order, port := q, slot := bytes, begun := false, mark := 0, mute := false }
    let s := s.onDev fun d => { d with ely := { d.ely with inbox := rest, nextOrder := order + 1 } }
    let s := s.updPort q fun pt => { pt with mbx := pt.mbx.advance }
    let hw := fun (s : State) st => s.respond q { order := order, cmd := j.code, irq := j.irq, tag := j.tag, status := st, result := [] }
    let accept := fun (s : State) => s.onDev fun d => { d with ely := { d.ely with journal := d.ely.journal ++ [j] } }
    match s.dev.ely.state with
    | .halted => .next (hw s mbHalted)
    | .restarting => .next (hw s mbBusy)
    | .rom => if s.dev.ely.romMode && (j.code == 0x01 || j.code == 0x02) then .next (accept s) else .next (hw s mbBusy)
    | .running =>
      match Map.find s.dev.ely.cmdMap j.code with
      | none => .next (hw s mbUnknown)
      | some e =>
        let addr := Map.get s.dev.ely.entries 1 e
        if addr % 4 = 0 ∧ fetched = gateWord e then .next (accept s)
        else .next (hw (s.restartElytra 0x3) mbBusy)

/-- The words of a response slot (R295). -/
def MbxResponse.bytes (r : MbxResponse) : List Byte :=
  [BitVec.ofNat 8 r.cmd, 0] ++ bytesOf 2 r.tag ++ [BitVec.ofNat 8 r.result.length, BitVec.ofNat 8 r.status, 0, 0] ++ fitBytes 56 r.result

/-- MBX_RESPONSE (R296): a finished response is written, RSP_PROD advances and the MSI-X message is sent if one is due. Responses are held
while 8 are unread. -/
def execMbxResponse (q : Fin 4) (s : State) : Res := s.clocked fun s =>
  let m := (s.port q).mbx
  match m.ready with
  | [] => .next s
  | r :: rest =>
    if 8 ≤ idxDiff m.rspProd m.rspCons then .next s
    else
      let base := 16 * (m.rspProd % 8)
      let rsp := (List.range 16).foldl (fun t k => Map.ins t (base + k) (word (le32 r.bytes (4 * k)))) m.rsp
      let s := s.updPort q fun pt => { pt with mbx := { pt.mbx with rsp := rsp, rspProd := (m.rspProd + 1) % 65536, ready := rest } }
      let ctl := (Map.get (s.port q).regs 0 0x20400).toNat
      .next (if bit ctl 31 && r.irq then s.onDev fun d => d.sendMsix q (fld ctl 8 0) else s)

/-- GATE (R300): executed in sequence it does nothing. -/
def execGate (s : State) : Res := s.clocked fun s => .next s

end Sys2Proof.Machine
end

