-- ==== Sys2Proof/Machine/Cocoon.lean ====
section
/-! DEFINITION. Machine/Cocoon.lean: the Cocoon recorder: records, rate limit, buffer, flash log, counters and its commands (R454-R461). -/
namespace Sys2Proof.Machine

/-- CCN_CTL.BURST and REFILL (R456, R461). -/
def Dev.ccnBurst (d : Dev) : Nat := fld (d.reg 0x1E004) 12 8
@[inherit_doc Dev.ccnBurst] def Dev.ccnRefill (d : Dev) : Nat := fld (d.reg 0x1E004) 4 0

/-- Severities (R454). -/
def sevInfo : Nat := 0
def sevWarning : Nat := 1
def sevError : Nat := 2
def sevCritical : Nat := 3

/-- Bytes 0-25 of a record with the suppressed count and the CRC (R454). Byte 31 is programmed last in flash; in the buffer the record
already carries it. -/
def recordBytes (code sev ply opsec pwrcyc time : Nat) (data : List Byte) (sup : Nat) : List Byte :=
  let b := bytesOf 2 code ++ bytesOf 1 sev ++ bytesOf 1 ply ++ bytesOf 5 opsec ++ bytesOf 3 pwrcyc ++ bytesOf 4 time ++ fitBytes 10 data ++
    bytesOf 2 (min sup 0xFFFF)
  b ++ bytesOf 2 (ccnCrc.value b) ++ [0xFF, 0x00]

/-- DEVTIME bits [41:10] as a record carries them; all ones while DEVTIME does not run (R454). -/
def Dev.recordTime (d : Dev) : Nat := if d.refclk then fld d.devtime 41 10 else 0xFFFFFFFF

/-- A record enters the buffer: a critical record takes the place of the oldest other one when the buffer is full; either loss counts (R457). -/
def Ccn.push (c : Ccn) (sev : Nat) (bs : List Byte) : Ccn :=
  if c.buffer.length < 128 then { c with buffer := c.buffer ++ [bs] }
  else
    let c := { c with overflow := min 0xFFFF (c.overflow + 1) }
    match (if sev = sevCritical then c.buffer.findIdx? fun r => byteAt r 2 % 4 != sevCritical else none) with
    | some i => { c with buffer := c.buffer.eraseIdx i ++ [bs] }
    | none => c

/-- The bucket of a code, moved to the front of the 64-entry table; an evicted bucket with a count leaves a COUNT_EVICT record (R456). -/
def Dev.ccnBucket (d : Dev) (code : Nat) : Dev × CcnBucket :=
  match d.ccn.buckets.find? (·.code == code) with
  | some b => ({ d with ccn := { d.ccn with buckets := b :: d.ccn.buckets.filter (·.code != code) } }, b)
  | none =>
    let b : CcnBucket := { code := code, tokens := d.ccnBurst, suppressed := 0 }
    let all := b :: d.ccn.buckets
    let out := all.drop 64
    let d := { d with ccn := { d.ccn with buckets := all.take 64 } }
    let d := out.foldl (fun d e =>
      if e.suppressed = 0 then d
      else
        let bs := recordBytes 0x1007 sevInfo 0xFF d.ccn.opsec d.ccn.pwrcyc d.recordTime (bytesOf 2 e.code) e.suppressed
        { d with ccn := d.ccn.push sevInfo bs }) d
    (d, b)

/-- A Cocoon record (R454-R457): rate-limited per code unless it is critical. The always-on logic needs SLPCLK (R425). -/
def Dev.cocoon (d : Dev) (code sev ply : Nat) (data : List Byte) : Dev :=
  if !d.slpclk then d
  else
    let mk := fun (d : Dev) sup => recordBytes code sev ply d.ccn.opsec d.ccn.pwrcyc d.recordTime data sup
    if sev = sevCritical then
      let c := d.ccn.push sev (mk d 0)
      { d with ccn := { c with wakeDue := true } }
    else
      let (d, b) := d.ccnBucket code
      let setB := fun (d : Dev) (b : CcnBucket) => { d with ccn := { d.ccn with buckets := b :: d.ccn.buckets.drop 1 } }
      if b.tokens = 0 then setB d { b with suppressed := b.suppressed + 1 }
      else
        let d := setB d { b with tokens := b.tokens - 1, suppressed := 0 }
        { d with ccn := d.ccn.push sev (mk d b.suppressed) }

@[inherit_doc Dev.cocoon] def State.cocoon (s : State) (code sev ply : Nat) (data : List Byte) : State :=
  s.onDev fun d => d.cocoon code sev ply data

/-- COCOON_REFILL (R456): each code's token bucket refills by one second's tokens. -/
def execCocoonRefill (s : State) : Res :=
  if !s.dev.slpclk then .next s
  else .next (s.onDev fun d => { d with ccn := { d.ccn with buckets := d.ccn.buckets.map fun b =>
    { b with tokens := min d.ccnBurst (b.tokens + d.ccnRefill) } } })

/-- Space has freed: the losses are recorded and reported, and the count clears (R457). -/
def State.reportOverflow (s : State) : State :=
  let n := s.dev.ccn.overflow
  if n = 0 ∨ 128 ≤ s.dev.ccn.buffer.length then s
  else
    let s := s.onDev fun d => { d with ccn := { d.ccn with overflow := 0 } }
    (s.cocoon 0x0F00 sevError 0x40 (bytesOf 4 n)).postManager 0x40 0x0F00 0 (dataBytes [(16, 4, n)])

/-- Whether the flash writer works (R458): REFCLK0 runs, flash is fitted, the recorder is not frozen. -/
def Dev.ccnWrites (d : Dev) : Bool := d.refclk && d.ccn.flash && !d.ccn.frozen

/-- The next slot after the write point, with its lap count. -/
def Ccn.advance (c : Ccn) : Ccn :=
  if c.next + 1 < 262144 then { c with next := c.next + 1 } else { c with next := 0, lap := min 0xFFFFFFFF (c.lap + 1) }

/-- COCOON_SLOT_WRITE (R458): the oldest record goes to the next slot. `good` is the read-back's verdict: a failed one leaves a torn slot and
the record goes to the next slot. -/
def execCocoonSlotWrite (good : Bool) (s : State) : Res := s.clocked fun s =>
  match s.dev.ccn.buffer with
  | [] => .next s
  | r :: rest =>
    if !s.dev.ccnWrites then .next s
    else
      let slot := s.dev.ccn.next
      if good then
        let s := s.onDev fun d =>
          let c := d.ccn.advance
          { d with ccn := { c with buffer := rest, log := Map.ins d.ccn.log slot r, refill := d.ccn.refill && !rest.isEmpty } }
        .next s.reportOverflow
      else
        .next (s.onDev fun d =>
          let c := d.ccn.advance
          { d with ccn := { c with log := Map.ins d.ccn.log slot (r.take 31 ++ [0xFF]) } })

/-- COCOON_SECTOR_ERASE (R458): the 64 KiB sector ahead of the write point, 2,048 slots, is erased before the writer enters it. -/
def execCocoonSectorErase (s : State) : Res := s.clocked fun s =>
  if !s.dev.ccnWrites then .next s
  else
    let sec := (s.dev.ccn.next / 2048 + 1) % 128
    .next (s.onDev fun d => { d with ccn := { d.ccn with log := d.ccn.log.filter fun e => e.1 / 2048 != sec } })

/-- A counter entry (R459): OPSEC, PWRCYC, CRC, VALID. -/
def counterEntry (opsec pwrcyc : Nat) : List Byte :=
  let b := bytesOf 5 opsec ++ bytesOf 3 pwrcyc
  b ++ bytesOf 2 (ccnCrc.value b) ++ List.replicate 5 0xFF ++ [0x00]

/-- A counter entry is persisted; once a sector is full the other one is used, erased first (R459). -/
def Dev.persistCounters (d : Dev) : Dev :=
  if !d.ccnWrites then d
  else
    let pos := d.ccn.cntPos
    let kept := if pos % 4096 = 0 then d.ccn.counters.filter fun e => e.1 / 4096 != pos / 4096 else d.ccn.counters
    { d with ccn := { d.ccn with counters := Map.ins kept pos (counterEntry d.ccn.opsec d.ccn.pwrcyc), cntPos := (pos + 1) % 8192,
                                 sinceCnt := 0 } }

/-- CCN_OPSEC_LO_READ (R461): the low word, with the high word latched until it is read; `hi` is that read. -/
def execCcnOpsecLoRead (q : PairRead) (s : State) : Res := s.clocked fun s => .next (s.readPair q.port 0x1E008 s.dev.ccn.opsec q.hi)

/-- Whether a port is the manager's or one that the policy names as an auditor (R52, R460). -/
def Dev.auditor (d : Dev) (q : Fin 4) : Bool :=
  d.isManager q || (match d.policy with | some pol => pol.auditors.contains q | none => false)

/-- A command open to the manager and the auditors (R460). -/
def State.audited (s : State) (order code : Nat) (act : Journal → State) : Res :=
  match s.command order code with
  | none => .next s
  | some j =>
    if !j.wellFormed then .next (s.answer j mbBadMessage [])
    else if !s.dev.auditor j.port then .next (s.answer j mbNotPermitted [])
    else .next (act j)

/-- CCN_INFO (R298, R460). -/
def execCcnInfo (order : Nat) (s : State) : Res := s.clocked fun s =>
  s.audited order 0x60 fun j =>
    let c := s.dev.ccn
    s.answer j mbOk (bytesOf 4 c.next ++ bytesOf 4 c.lap ++ bytesOf 1 c.buffer.length ++ bytesOf 1 (bit1 c.frozen) ++ [0, 0] ++ bytesOf 4 c.overflow)

/-- CCN_FREEZE (R460). -/
def execCcnFreeze (order : Nat) (s : State) : Res := s.clocked fun s =>
  s.managed order 0x61 fun j =>
    if s.dev.ccn.frozen || s.dev.ccn.refill then s.answer j mbBadState []
    else (s.onDev fun d => { d with ccn := { d.ccn with frozen := true } }).answer j mbOk []

/-- A freeze ends; the next one waits until the buffer has been emptied to flash (R460). -/
def Ccn.thaw (c : Ccn) : Ccn := if c.frozen then { c with frozen := false, refill := !c.buffer.isEmpty } else c

/-- CCN_THAW (R460). -/
def execCcnThaw (order : Nat) (s : State) : Res := s.clocked fun s =>
  s.managed order 0x62 fun j => (s.onDev fun d => { d with ccn := d.ccn.thaw }).answer j mbOk []

/-- CCN_FREEZE_TIMEOUT (R460): a freeze ends after 10 s. -/
def execCcnFreezeTimeout (s : State) : Res := s.clocked fun s => .next (s.onDev fun d => { d with ccn := d.ccn.thaw })

/-- A raw slot of the log: 32 bytes of 0xFF when erased (R454). -/
def Ccn.slot (c : Ccn) (i : Nat) : List Byte := Map.get c.log (List.replicate 32 0xFF) (i % 262144)

/-- CCN_READ (R460): raw slots of the log or the buffer go to the issuing port's host memory. -/
def execCcnRead (order : Nat) (s : State) : Res := s.clocked fun s =>
  s.audited order 0x63 fun j =>
    let src := j.arg 0 1
    let first := j.arg 1 4
    let n := j.arg 5 4
    let addr := j.arg 9 8
    let c := s.dev.ccn
    if 1 < src ∨ n = 0 ∨ 2048 < n ∨ (src = 0 ∧ 262144 ≤ first) ∨ (src = 1 ∧ 128 ≤ first) then s.answer j mbBadArg []
    else
      let slots := if src = 0 then (List.range n).map fun i => c.slot (first + i) else (c.buffer.drop first).take n
      let s := s.onDev fun d => d.postWrite j.port addr slots.flatten
      s.answer j mbOk (bytesOf 4 slots.length)

end Sys2Proof.Machine
end

