-- ==== Sys2Proof/Machine/Mc.lean ====
section
/-! DEFINITION. Machine/Mc.lean: the memory controller: ports, urgency, channel queues, pages, refresh, training, naps, parity replay,
partial-array self-refresh and ECC (R259-R287). -/
namespace Sys2Proof.Machine

/-! Channels -/

/-- A channel. -/
def Mc.chan (c : Mc) (i : Fin 16) : Chan := at' c.chans i
/-- The state with one channel changed. -/
def State.updChan (s : State) (i : Fin 16) (f : Chan → Chan) : State :=
  s.onDev fun d => { d with mc := { d.mc with chans := upd d.mc.chans i f } }
/-- The state with the memory controller changed. -/
def State.updMc (s : State) (f : Mc → Mc) : State := s.onDev fun d => { d with mc := f d.mc }

/-- Channels of the package: 16, or 8 subchannels (R259). -/
def Dev.chanCount (d : Dev) : Nat := if d.pkgW then 8 else 16
/-- The channels in use. -/
def Dev.chanList (d : Dev) : List (Fin 16) := (allFin 16).filter fun c => decide (c.val < d.chanCount)

/-- MC_NAP_CTL.DEPTH and MARGIN in ns; MC_HEAD_URG.THRESH_NS (active copies, R267, R287). -/
def Dev.napDepth (d : Dev) : Nat := fld (d.active 0x16004) 31 30
@[inherit_doc Dev.napDepth] def Dev.napMargin (d : Dev) : Nat := fld (d.active 0x16004) 15 8 * 100
@[inherit_doc Dev.napDepth] def Dev.headThresh (d : Dev) : Nat := fld (d.active 0x16008) 19 0

/-- Every exposed head's report exceeds a latency plus MARGIN (R271-R273). -/
def Dev.toleranceAbove (d : Dev) (ns : Nat) : Bool :=
  (List.range d.nHeads).all fun h => decide (ns + d.napMargin < atD d.mc.tol h 0)

/-- Some class A ply is ACTIVE or DRAINING (R62, R273, R331). -/
def Dev.classAWorks (d : Dev) : Bool :=
  allPlies.any fun p => (d.ply p).cls == .a && ((d.ply p).state == .active || (d.ply p).state == .draining)

/-! Urgency (R263, R264) -/

/-- Urgency of a queued request at a DEVTIME (R264). -/
def Dev.urgency (d : Dev) (r : McReq) : Nat :=
  if r.reserved || r.promoted then 7
  else
    let q := d.active (0x16040 + 4 * r.port.val)
    let t := max 1 (fld q 15 0)
    min 6 (fld q 17 16 + 4 * (d.devtime - r.accepted) / t)

/-- Whether a request of ports 0-3 wants head promotion (R264). -/
def Dev.wantsPromotion (d : Dev) (r : McReq) : Bool :=
  !r.reserved && decide (r.port.val < 4) &&
    match r.head with
    | some (h, _) => decide (at' d.mc.tol h < d.headThresh)
    | none => false

/-- Promotions follow the reports, at most 16 in a channel's queue: a request keeps its promotion while it wants it, and free promotions go to the oldest
requests (R264, R265). -/
def Dev.promote (d : Dev) (q : List McReq) : List McReq :=
  let kept := fun (r : McReq) => r.promoted && d.wantsPromotion r
  let new := ((q.filter fun r => d.wantsPromotion r && !kept r).map (·.id)).take (16 - (q.filter kept).length)
  q.map fun r => { r with promoted := kept r || new.contains r.id }

/-- Whether a channel queue has a free entry of the kind a request needs: 16 for reserved requests, 48 for the others (R265). -/
def Chan.hasRoom (c : Chan) (reserved : Bool) : Bool :=
  if reserved then decide ((c.queue.filter (·.reserved)).length < 16) else decide ((c.queue.filter fun r => !r.reserved).length < 48)

/-! Command opportunities (R266, R268) -/

/-- A read can go before an older queued write of its unit, whose data it takes; nothing else passes an older request of its unit (R266). -/
def eligible (q : List McReq) (r : McReq) : Bool :=
  q.all fun o => !(decide (o.id < r.id) && o.addr == r.addr) || (r.write.isNone && o.write.isSome)

/-- Whether a request hits its bank's open row. -/
def Mc.hits (m : Mc) (c : Chan) (r : McReq) : Bool := (at' c.banks (m.bankOf r.addr)).row == some (rowOf r.addr)

/-- R266: a request goes before another. -/
def Dev.goesBefore (d : Dev) (c : Chan) (a b : McReq) : Bool :=
  let ua := d.urgency a
  let ub := d.urgency b
  let older := decide (a.accepted < b.accepted) || (a.accepted == b.accepted && decide (a.id < b.id))
  if ua ≠ ub then decide (ub < ua)
  else if 6 ≤ ua then older
  else if d.mc.hits c a != d.mc.hits c b then d.mc.hits c a else older

/-- The request that a channel chooses (R266). -/
def Dev.choose (d : Dev) (c : Chan) : Option McReq :=
  (c.queue.filter (eligible c.queue)).foldl (fun best r => match best with
    | none => some r
    | some b => if d.goesBefore c r b then some r else some b) none

/-- A bank serves a row: hit, conflict and lost-hit counts and the open row (R268). -/
def Bank.serve (b : Bank) (row : Nat) : Bank :=
  { b with row := some row, lastRow := none,
           hits := b.hits + bit1 (b.row == some row),
           conflicts := b.conflicts + bit1 (b.row.isSome && b.row != some row),
           lost := b.lost + bit1 (b.row.isNone && b.lastRow == some row) }

/-- A bank that a refresh closes: what the timer closed before is forgotten (R268). -/
def Bank.shut (b : Bank) : Bank := { b with row := none, lastRow := none }

/-- Whether a channel can issue commands: it is not in deep nap, no alert or training is pending, no retraining slice runs, and on DDR5 fewer than 32
commands are unconfirmed (R62, R271, R275, R276). -/
def Dev.canIssue (d : Dev) (ch : Fin 16) : Bool :=
  let c := d.mc.chan ch
  !d.mc.deep && !c.alert && !c.training && !c.slice && !(d.pkgW && decide (32 ≤ c.retry.length))

/-- The name of a command. -/
def DramCmd.name (pkgW : Bool) : DramCmd → String
  | .rd => "RD" | .wr => "WR" | .refAll => "REFab" | .refBank => if pkgW then "REFsb" else "REFpb"

/-- A command to the DRAM. On DDR5 it enters the retry buffer (R275). -/
def State.sendCmd (s : State) (ch : Fin 16) (k : DramCmd) (addr : Nat) : State :=
  (s.updChan ch fun c => { c with retry := if s.dev.pkgW then c.retry ++ [(k, addr)] else c.retry }).emit (.dramCmd ch.val (k.name s.dev.pkgW) addr)

/-- MEM_COMMAND_OPPORTUNITY (R266, R268, R275): a channel issues the chosen request: a write reaches DRAM, a read's data is on its way. `good` commands
at the front of the retry buffer have passed the parity-alert window. -/
def execMemCommandOpportunity (ch : Fin 16) (good : Nat) (s : State) : Res := s.clocked fun s =>
  let s := s.updChan ch fun c =>
    { c with retry := c.retry.drop good, replaying := c.replaying && good == 0, queue := s.dev.promote c.queue }
  let c := s.dev.mc.chan ch
  if !s.dev.canIssue ch then .next s
  else match s.dev.choose c with
    | none => .next s
    | some r =>
      let bank := s.dev.mc.bankOf r.addr
      let s := s.updChan ch fun c => { c with queue := c.queue.filter (·.id != r.id), banks := upd c.banks bank (·.serve (rowOf r.addr)) }
      .next ((s.sendCmd ch (if r.write.isSome then .wr else .rd) r.addr).perform ch c.queue r)

/-! Errors (R281, R318) -/

/-- Whether a unit lies in a range of addresses. -/
def inUnit (phys a n : Nat) : Bool := decide (a < phys / 64 * 64 + 64) && decide (phys / 64 * 64 < a + n)

/-- R318: the plates and waveforms with bytes in a unit are lost: the plate's region shows the head background, and the chime is silent. -/
def Dev.loseAsset (d : Dev) (phys : Nat) : Dev :=
  match d.policy with
  | none => d
  | some pol =>
    let waves := (allFin 16).filter fun w => match at' pol.waves w with | some (a, n) => inUnit phys a (2 * n) | none => false
    let d := { d with audio := { d.audio with lost := d.audio.lost ++ waves.filter fun w => !d.audio.lost.contains w } }
    (allFin 8).foldl (fun d h => d.updHead h fun x => { x with plates := Vector.ofFn fun i =>
      let t := at' x.tens i
      let hit := (at' (at' pol.heads h).plates i).any fun pl => inUnit phys pl.addr (pl.stride * (t.y1 - t.y0))
      { at' x.plates i with lost := (at' x.plates i).lost || hit } }) d

/-- Handling of an uncorrectable unit that the device holder reads (R318): a critical record in every case. -/
def State.deviceUncorrectable (s : State) (phys : Nat) (u : DeviceUnit) : State :=
  let s := s.cocoon 0x1005 sevCritical 0x40 (bytesOf 8 phys)
  match u with
  | .retained => s.onDev fun d => { d with ely := { d.ely with retainedLost := true } }
  | .tables ps gs =>
    let s := s.each ps fun s p => s.faultPly p phys false .ely false
    s.onDev fun d => { d with ely := { d.ely with owner := gs.foldl (fun o g => Map.ins o g 0xFC) d.ely.owner } }
  | .asset => s.onDev (·.loseAsset phys)
  | .weevilOrJournal => s.onDev fun d => { d with ely := { d.ely with state := .halted } }
  | .other => s

/-- PATROL_SCRUB (R282): reads one unit through port 14, charged to the device, and corrects as R281 sets out. Its write-back changes no
plain data. -/
def execPatrolScrub (addr : Nat) (errs : List (Nat × Byte)) (unit : DeviceUnit) (s : State) : Res := s.clocked fun s =>
  if !s.dev.mc.trained || decide (s.dev.dramTop ≤ addr) then .next s
  else match s.takeMem devHolder 1 [(addr, 1)] with
    | none => .next s
    | some s =>
      let phys := addr / 64 * 64
      let out := s.dev.decodeEcc phys errs
      let s := s.eccFound out phys 14 none
      .next (if out = .uncorrectable then s.deviceUncorrectable phys unit else s)

/-! Pages, refresh, training (R268-R271) -/

/-- BANK_IDLE_CLOSE (R268): a bank idle for its timer closes its row. -/
def execBankIdleClose (ch bank : Fin 16) (s : State) : Res := s.clocked fun s =>
  .next (s.updChan ch fun c => { c with banks := upd c.banks bank fun b => match b.row with
    | some r => { b with row := none, lastRow := some r }
    | none => b })

/-- R268: the idle timer of a bank at an epoch boundary in adaptive mode; the counts clear. -/
def Bank.adapt (b : Bank) (adaptive : Bool) : Bank :=
  let t := if !adaptive then b.timer
    else if 2 * b.lost < b.conflicts then max 16 (b.timer / 2)
    else if 2 * b.conflicts < b.lost then min 4096 (2 * b.timer) else b.timer
  { b with timer := t, hits := 0, conflicts := 0, lost := 0 }

/-- Idle timer in force on a bank (R268). -/
def Dev.bankTimer (d : Dev) (b : Bank) : Nat := if bit (d.active 0x1600C) 31 then fld (d.active 0x1600C) 12 0 else b.timer

/-- REFRESH_DUE (R62, R269, R272, R274, R275): a refresh of a bank falls due. It is postponed, at most 8 times, while a reserved request is queued;
after 8 postponements an all-bank refresh is issued. A refresh that goes out makes up for those postponed, and closes what it refreshes. While the
channel cannot issue, because a retraining slice runs or an alert holds it, the refresh waits as one postponed. In deep nap nothing is issued. A
refresh that falls due ends light nap. -/
def execRefreshDue (ch bank : Fin 16) (s : State) : Res := s.clocked fun s =>
  let c := s.dev.mc.chan ch
  if s.dev.mc.deep || !s.dev.mc.trained then .next s
  else
    let s := s.updChan ch fun c => { c with light := false }
    let b := at' c.banks bank
    if !s.dev.canIssue ch || (c.queue.any (·.reserved) && decide (b.postponed < 8)) then
      .next (s.updChan ch fun c => { c with banks := upd c.banks bank fun b => { b with postponed := min 8 (b.postponed + 1) } })
    else if 8 ≤ b.postponed then
      .next ((s.updChan ch fun c => { c with banks := c.banks.map fun b => { b.shut with postponed := 0 } }).sendCmd ch .refAll 0)
    else
      .next ((s.updChan ch fun c => { c with banks := upd c.banks bank fun b => { b.shut with postponed := 0 } }).sendCmd ch .refBank bank.val)

/-- MR4_POLL (R269): the refresh-rate codes of every die, by channel and rank, and on DDR5 whether one reports above 85 degrees, which selects fine
granularity for its subchannel. -/
def execMr4Poll (rates : Vector Nat 32) (hot : Vector Bool 32) (s : State) : Res := s.clocked fun s =>
  .next (s.each s.dev.chanList fun s ch => s.updChan ch fun c =>
    { c with refRate := Vector.ofFn fun r => atD rates (ch.val + 16 * r.val) 0,
             fine := s.dev.pkgW && (atD hot ch.val false || atD hot (ch.val + 16) false) })

/-- DRAM_TRAINING (R41, R259, R270): training completes: MC_INFO shows the configuration, DRAM_TOP is fixed and the MEM credits come into
existence. A description outside R259 was held before the first step. -/
def execDramTraining (s : State) : Res := s.clocked fun s =>
  match s.dev.mc.desc with
  | none => .next s
  | some m =>
    if s.dev.mc.trained || !memDescOk s.dev.pkgW m then .next s
    else
      let s := s.onDev fun d => { d with dramTop := m.top, mc := { d.mc with trained := true } }
      .next (s.onSkein fun k => k.trainMem (memTotal m.rate m.iecc))

/-- DQS_OSC_SAMPLE (R271): a channel's interval oscillators; `drifted` when the drift exceeds 1/16 UI. -/
def execDqsOscSample (ch : Fin 16) (drifted : Bool) (s : State) : Res := s.clocked fun s =>
  .next (s.updChan ch fun c => { c with drift := c.drift || drifted })

/-- A channel has room for a slice, tolerance apart: no refresh or other work of the controller's own, and no reserved request (R62, R271). -/
def Dev.sliceFree (d : Dev) (ch : Fin 16) : Bool :=
  let c := d.mc.chan ch
  !(c.queue.any (·.reserved) || d.mc.deep || c.alert || c.training)

/-- RETRAIN_SLICE (R62, R271): a due update slice starts when its window holds, or the running slice ends. A channel that has found no window for 250 ms
runs its next slice without the tolerance condition; it counts when it ends, however often it was aborted. -/
def execRetrainSlice (ch : Fin 16) (s : State) : Res := s.clocked fun s =>
  let c := s.dev.mc.chan ch
  if c.slice then
    .next ((s.updChan ch fun c => { c with slice := false, drift := false, forced := false }).updMc fun m =>
      if c.forced then { m with forcedN := min 0x7FFF (m.forcedN + 1) } else m)
  else if !c.drift || !s.dev.sliceFree ch then .next s
  else if s.dev.toleranceAbove 2000 then .next (s.updChan ch fun c => { c with slice := true, forced := false })
  else if c.forced then .next (s.updChan ch fun c => { c with slice := true })
  else .next s

/-- RETRAIN_FORCE_TIMEOUT (R271): no window for 250 ms: the channel's next slice is forced. -/
def execRetrainForceTimeout (ch : Fin 16) (s : State) : Res := s.clocked fun s =>
  .next (s.updChan ch fun c => { c with forced := c.forced || (c.drift && !c.slice) })

/-! Naps (R272-R274) -/

/-- LIGHT_NAP_ENTER (R272): a channel whose queue has been empty for IDLE. -/
def execLightNapEnter (ch : Fin 16) (s : State) : Res := s.clocked fun s =>
  let c := s.dev.mc.chan ch
  if s.dev.mc.trained && decide (1 ≤ s.dev.napDepth) && decide (s.dev.napDepth ≤ 2) && c.queue.isEmpty && s.dev.toleranceAbove 20 then
    .next (s.updChan ch fun c => { c with light := true })
  else .next s

/-- LIGHT_NAP_EXIT (R272): a request, a refresh or a low report ends it. -/
def execLightNapExit (ch : Fin 16) (s : State) : Res := s.clocked fun s => .next (s.updChan ch fun c => { c with light := false })

/-- Conditions of a deep nap before the top-up (R273). -/
def Dev.deepOk (d : Dev) : Bool :=
  d.mc.trained && d.napDepth == 2 && d.chanList.all (fun c => (d.mc.chan c).light) && !d.classAWorks &&
    d.chanList.all (fun c => !(d.mc.chan c).forced)

/-- DEEP_NAP_REQUEST (R145, R273): every head is asked to top up. -/
def execDeepNapRequest (s : State) : Res := s.clocked fun s =>
  if s.dev.deepOk && !s.dev.mc.deep then .next (s.updMc fun m => { m with topUp := true, acks := [] }) else .next s

/-- Dropped memory loses its contents at a self-refresh entry (R277, R278). -/
def State.losePasr (s : State) : State :=
  match s.dev.mc.desc with
  | some m => { s with dram := s.dram.lose fun a => m.drops s.dev.mc.segDrop s.dev.mc.bankDrop a }
  | none => s

/-- DEEP_NAP_ENTER (R273, R274): with every acknowledgement in, the conditions are checked again together with the 1.5 us tolerance; the
controller enters self-refresh or returns to light nap. -/
def execDeepNapEnter (s : State) : Res := s.clocked fun s =>
  let m := s.dev.mc
  if !(m.topUp && (List.range s.dev.nHeads).all m.acks.contains) then .next s
  else
    let go := s.dev.deepOk && s.dev.toleranceAbove 1500
    let s := s.updMc fun m => { m with topUp := false, acks := [], deep := go }
    .next (if go then s.losePasr else s)

/-- DEEP_NAP_EXIT (R273, R274): a low report, a waiting request, a lower DEPTH or class A work brings the controller out. -/
def execDeepNapExit (s : State) : Res := s.clocked fun s =>
  .next (s.onDev Dev.leaveDeep)

/-! Command parity (R275, R276) -/

/-- PARITY_REPLAY (R275, R276): ALERT_n is released: every buffered command not known good is issued again in order and the replay counts.
After a parity fault, the subchannel's full training has ended. -/
def execParityReplay (ch : Fin 16) (s : State) : Res := s.clocked fun s =>
  let c := s.dev.mc.chan ch
  if c.training then .next (s.updChan ch fun c => { c with training := false, alert := false })
  else if !c.alert then .next s
  else
    let s := s.each c.retry fun s e => s.emit (.dramCmd ch.val (e.1.name s.dev.pkgW) e.2)
    .next ((s.updChan ch fun c => { c with alert := false, replaying := !c.retry.isEmpty }).updMc fun m =>
      { m with replays := min 0xFFFF (m.replays + 1) })

/-! Partial-array self-refresh (R277, R278) -/

/-- Whether a mask would drop an address below SEC_WM or a granule owned by or lent to a class A ply (R277). -/
def Dev.pasrUnsafe (d : Dev) (m : MemDesc) (seg bank : Nat) : Bool :=
  let slice := m.bytes / 128
  let hit := fun (a : Nat) => m.drops seg bank a
  let secure := (List.range 128).any fun k => decide (k * slice < d.ely.secWm * 2 ^ 21) && hit (k * slice)
  let aPly := fun (p : Nat) => match fin? 64 p with | some p => d.isClassA p | none => false
  let owned := d.ely.owner.any fun x => hit (x.1 * 65536) &&
    ((match d.ely.ownerOf x.1 with | some o => aPly o | none => false) ||
     (match Map.find d.ely.lend x.1 with | some l => l.borrowers.any fun b => aPly b.ply | none => false))
  secure || owned

/-- MEM_PASR (R277): BAD_ARG where the byte between its masks is not 0 (log entry 113), NOT_SUPPORTED on package W. With inline ECC on, bit 7 of SEG_DROP is
taken as 0. An accepted mask takes effect at the next epoch boundary. -/
def execMemPasr (order : Nat) (s : State) : Res := s.clocked fun s =>
  s.managed order 0x40 fun j =>
    if j.arg 1 1 ≠ 0 then s.answer j mbBadArg []
    else if s.dev.pkgW then s.answer j 0x11 []
    else match s.dev.mc.desc with
    | none => s.answer j mbBadState []
    | some m =>
      let seg := if m.iecc then j.arg 0 1 % 128 else j.arg 0 1
      let bank := j.arg 2 2
      if s.dev.pasrUnsafe m seg bank then s.answer j 0x10 []
      else (s.updMc fun m => { m with pSegDrop := seg, pBankDrop := bank }).answer j mbOk []

/-- What the memory controller swaps at an epoch boundary (R267, R268, R274, R277): bank timers, the PASR mask, and naps deeper than DEPTH
now allows. The register copies swap with the others. `wasFixed` is MC_PAGE.FIXED before the swap. -/
def Dev.mcEpoch (d : Dev) (wasFixed : Bool) : Dev :=
  let fixed := bit (d.active 0x1600C) 31
  let start := wasFixed && !fixed
  let depth := d.napDepth
  { d with mc := { d.mc with
      segDrop := d.mc.pSegDrop, bankDrop := d.mc.pBankDrop,
      deep := d.mc.deep && depth == 2,
      chans := d.mc.chans.map fun c =>
        { c with light := c.light && !(d.mc.deep && depth != 2) && decide (1 ≤ depth) && decide (depth ≤ 2),
                 banks := c.banks.map fun b =>
                   if start then { b.adapt false with timer := fld (d.active 0x1600C) 12 0 } else b.adapt (!fixed) } } }

end Sys2Proof.Machine
end

