-- ==== Sys2Proof/Machine/Checks.lean ====
section
/-! DEFINITION. Machine/Checks.lean: the general check-value units and the CHECK descriptor (R442-R447), and the end of copies, fills and
checks in a drain (R115). -/
namespace Sys2Proof.Machine

/-- Base of a unit's registers (R447). -/
def chkBase (u : Fin 8) : Nat := 0x1C000 + 0x40 * u.val

/-- The active parameters of a unit (R442, R446). -/
def Dev.chkParams (d : Dev) (u : Fin 8) : CheckParams :=
  let c := d.active (chkBase u)
  let v := fun off => d.active (chkBase u + off) + 2 ^ 32 * d.active (chkBase u + off + 4)
  { width := fld c 6 0, poly := v 8, init := v 0x10, xorout := v 0x18, refin := bit c 30, refout := bit c 29 }

/-- A unit. -/
def Dev.check (d : Dev) (u : Fin 8) : CheckUnit := at' d.checks u
/-- The state with one unit changed. -/
def State.updCheck (s : State) (u : Fin 8) (f : CheckUnit → CheckUnit) : State :=
  s.onDev fun d => { d with checks := upd d.checks u f }

/-- Payload of a CHECK (R89, R444). -/
def InFlight.chkAddr (f : InFlight) : Nat := le64 f.bytes 32
@[inherit_doc InFlight.chkAddr] def InFlight.chkLen (f : InFlight) : Nat := le32 f.bytes 40
@[inherit_doc InFlight.chkAddr] def InFlight.chkUnit (f : InFlight) : Fin 8 := ⟨byteAt f.bytes 44 % 8, by omega⟩
@[inherit_doc InFlight.chkAddr] def InFlight.chkLoad (f : InFlight) : Bool := bit (byteAt f.bytes 45) 0
@[inherit_doc InFlight.chkAddr] def InFlight.chkHost (f : InFlight) : Bool := bit (byteAt f.bytes 45) 1
@[inherit_doc InFlight.chkAddr] def InFlight.chkSeed (f : InFlight) : Nat := le64 f.bytes 48

/-- Some descriptor's InFlight by its order of acceptance. -/
def State.descAt (s : State) (p : Fin 64) (r : Fin 4) (order : Nat) : Option InFlight := (s.ring p r).queue.find? (·.order == order)

/-- An idle unit starts the CHECK at the front of its queue (R445) with its active parameters (R446) and the starting value of R444. -/
def State.startCheck (s : State) (u : Fin 8) : State :=
  match (s.dev.check u).job, (s.dev.check u).queue with
  | none, (p, r, order) :: rest =>
    match s.descAt p r order with
    | none => s.updCheck u fun c => { c with queue := rest }
    | some f =>
      let ps := s.dev.chkParams u
      let reg := if f.chkLoad then f.chkSeed % 2 ^ ps.width else (s.dev.check u).running
      s.updCheck u fun c => { c with queue := rest, job := some { ply := p, ring := r, order := order, params := ps, reg := reg, stale := false } }
  | _, _ => s

/-- A CHECK leaves its unit without a result; the running value stays (R444). Host data that it was reading is dropped (R115). -/
def State.dropCheck (s : State) (p : Fin 64) (r : Fin 4) (f : InFlight) : State :=
  let u := f.chkUnit
  let mine := match (s.dev.check u).job with | some j => j.order == f.order | none => false
  let s := s.updCheck u fun c =>
    { c with queue := c.queue.filter fun e => e.2.2 != f.order, job := if mine then none else c.job }
  ((s.finishDesc p r f.order stDiscarded []).onDev (·.dropReads (· == .data p f.order))).startCheck u

/-- Bytes go through a unit's CHECK; at its end it writes the running value, unless new parameters have come, and completes (R442, R444, R446). -/
def State.feedCheck (s : State) (p : Fin 64) (r : Fin 4) (f : InFlight) (j : CheckJob) (bs : List Byte) : State :=
  let u := f.chkUnit
  let reg := j.params.feedAll j.reg bs
  if f.mark + bs.length < f.chkLen then
    (s.updCheck u fun c => { c with job := some { j with reg := reg } }).updDesc p r f.order fun f =>
      { f with mark := f.mark + bs.length, reading := 0 }
  else
    let s := s.updCheck u fun c => { c with job := none, running := if j.stale then c.running else reg }
    (s.finishDesc p r f.order 0 (bytesOf 8 reg)).startCheck u

/-- The unit's CHECK moves on by up to `n` bytes (R442, R444, R447). Device data is charged as MEM. Host data is read first, with HTAG credits of the
ply; it comes with the next command, `host`, once all of the read's requests are out. -/
def State.checkOn (s : State) (p : Fin 64) (r : Fin 4) (f : InFlight) (n : Nat) (host : List Byte) : State :=
  match (s.dev.check f.chkUnit).job with
  | none => s
  | some j =>
    let n := min n (f.chkLen - f.mark)
    let addr := f.chkAddr + f.mark
    if j.order ≠ f.order then s
    else if f.chkHost then
      if f.reading = 0 then s.readData p r f addr n
      else if !s.dev.readOut (.data p f.order) then s
      else (s.endReads (.data p f.order)).feedCheck p r f j (fitBytes f.reading host)
    else match s.takeMem (plyHolder p) (unitsOf addr n) [(addr, n)] with
      | none => s
      | some s => match s.plyRead p addr n with
        | none => (s.faultAt p addr n false .copy).dropCheck p r f
        | some bs => s.feedCheck p r f j bs

/-- CHECK (R442-R445): the ring's head goes into its unit's queue; the unit's own CHECK moves on by up to `n` bytes. -/
def execCheck (p : Fin 64) (r : Fin 4) (seq : Word) (n : Nat) (host : List Byte) (s : State) : Res := s.clocked fun s =>
  match s.running p r 0x12 seq with
  | none => .next s
  | some f =>
    if f.phase = .dispatched then .next (s.checkOn p r f n host)
    else
      let s := s.dispatch p r f.order 0
      let s := (s.updCheck f.chkUnit fun c => { c with queue := c.queue ++ [(p, r, f.order)] }).startCheck f.chkUnit
      .next (s.checkOn p r { f with phase := .dispatched, mark := 0 } n host)

/-- COPY_STOP (R115): a copy, fill or check of a draining ply runs to its next 4 KiB boundary and is discarded. Host data goes no further than
the read that is out; no new one starts, and what it brings beyond the boundary is dropped. A transfer whose MEM take is refused stops where it
stands (log entry 29). -/
def execCopyStop (p : Fin 64) (r : Fin 4) (seq : Word) (host : List Byte) (s : State) : Res := s.clocked fun s =>
  match s.descBySeq p r seq with
  | some f =>
    if s.intake p || f.phase != .dispatched then .next s
    else if f.opcode = 0x12 then .next (s.dropCheck p r f)
    else if f.opcode = 0x10 ∨ f.opcode = 0x11 then
      let left := ceilTo f.mark 4096 - f.mark
      let n := if f.opcode = 0x10 && f.copyArgs.srcHost then (if s.dev.readOut (.data p f.order) then min left f.reading else 0) else left
      let s := (s.moveOn p r f n host).getD s
      let s := if s.dev.readOut (.data p f.order) then s.endReads (.data p f.order) else s.onDev (·.dropReads (· == .data p f.order))
      .next (s.finishDesc p r f.order stDiscarded [])
    else .next s
  | none => .next s

/-- R446: new parameters swap in at an epoch boundary: the running value becomes INIT masked, and a CHECK in progress will not write it.
`before` is the device before the register copies swapped. -/
def Dev.checksEpoch (d : Dev) : Dev :=
  { d with checks := Vector.ofFn fun u =>
      let c := d.check u
      if c.pending then
        { c with pending := false, running := (d.chkParams u).init % 2 ^ (d.chkParams u).width,
                 job := c.job.map fun j => { j with stale := true } }
      else c }

end Sys2Proof.Machine
end

