-- ==== Sys2Proof/Machine/Video.lean ====
section
/-! DEFINITION. Machine/Video.lean: timing arithmetic of a head, its limits, link configurations and how a mode fits them
(R131-R133, R139, R149-R151). -/
namespace Sys2Proof.Machine

/-! Fields of a timing set (R134) -/
def Timing.enable (t : Timing) : Bool := bit t.ctl 31
def Timing.pair (t : Timing) : Bool := bit t.ctl 30
def Timing.hact (t : Timing) : Nat := fld t.htim0 13 0
def Timing.hfp (t : Timing) : Nat := fld t.htim0 29 16
def Timing.hsw (t : Timing) : Nat := fld t.htim1 13 0
def Timing.hbp (t : Timing) : Nat := fld t.htim1 29 16
def Timing.vact (t : Timing) : Nat := fld t.vtim0 12 0
def Timing.vfp (t : Timing) : Nat := fld t.vtim0 28 16
def Timing.vsw (t : Timing) : Nat := fld t.vtim1 12 0
def Timing.vbp (t : Timing) : Nat := fld t.vtim1 28 16
def Timing.p (t : Timing) : Nat := fld t.pll0 31 24
def Timing.n (t : Timing) : Nat := fld t.pll0 6 0
def Timing.f (t : Timing) : Nat := fld t.pll1 23 0
def Timing.protocol (t : Timing) : Nat := fld t.out 31 30
def Timing.trainPolicy (t : Timing) : Bool := bit t.out 29
def Timing.bpc (t : Timing) : Nat := fld t.out 27 26
def Timing.dscAllow (t : Timing) : Bool := bit t.out 25
def Timing.slices (t : Timing) : Nat := 2 ^ fld t.out 24 23
def Timing.sliceH (t : Timing) : Nat := fld t.out 22 10
def Timing.bppX16 (t : Timing) : Nat := fld t.out 9 0
def Timing.lines (t : Timing) : Nat := fld t.bobbin 5 0
def Timing.guardNs (t : Timing) : Nat := fld t.bobbin 27 16

/-- Horizontal and vertical totals (R131). -/
def Timing.ht (t : Timing) : Nat := t.hact + t.hfp + t.hsw + t.hbp
@[inherit_doc Timing.ht] def Timing.vt (t : Timing) : Nat := t.vact + t.vfp + t.vsw + t.vbp

/-- VCO in units of 100 MHz / 2^24 (R133). -/
def Timing.vco (t : Timing) : Nat := t.n * 2 ^ 24 + t.f

/-- f_pix in Hz as a fraction (R133): 100 MHz x VCO / (2 P). -/
def Timing.fNum (t : Timing) : Nat := 100000000 * t.vco
@[inherit_doc Timing.fNum] def Timing.fDen (t : Timing) : Nat := 2 ^ 25 * max 1 t.p

/-- R133: N, F and P in range, VCO within 4,000-8,000 MHz, f_pix within 25-1,200 MHz (R131). -/
def Timing.pllOk (t : Timing) : Bool :=
  decide (40 ≤ t.n) && decide (t.n ≤ 79) && decide (2 ≤ t.p) && decide (t.p ≤ 128) &&
    decide (40 * 2 ^ 24 ≤ t.vco) && decide (t.vco ≤ 80 * 2 ^ 24) &&
    decide (25000000 * t.fDen ≤ t.fNum) && decide (t.fNum ≤ 1200000000 * t.fDen)

/-- The field limits of R131 and the undefined field values of R134. -/
def Timing.fieldsOk (t : Timing) : Bool :=
  let porch := fun v => decide (8 ≤ v) && decide (v ≤ 1024)
  let vporch := fun v => decide (1 ≤ v) && decide (v ≤ 1023)
  decide (640 ≤ t.hact) && decide (t.hact ≤ 7680) && porch t.hfp && porch t.hsw && porch t.hbp && decide (t.ht ≤ 8192) &&
    decide (360 ≤ t.vact) && decide (t.vact ≤ 4320) && vporch t.vfp && vporch t.vsw && vporch t.vbp && decide (t.vt ≤ 8192) &&
    decide (t.protocol ≤ 1) && decide (t.bpc ≤ 2) && decide (fld t.out 24 23 ≤ 2) &&
    (!t.dscAllow ||
      (decide (8 ≤ t.sliceH) && decide (t.sliceH ≤ 4320) && t.vact % max 1 t.sliceH == 0 &&
        decide (128 ≤ t.bppX16) && decide (t.bppX16 + 1 ≤ 48 * (8 + 2 * t.bpc))))

/-- R131: every horizontal value is even. -/
def Timing.evenOk (t : Timing) : Bool := t.hact % 2 == 0 && t.hfp % 2 == 0 && t.hsw % 2 == 0 && t.hbp % 2 == 0

/-- The derived limits of R131: refresh 24-240 Hz; vertical blanking of at least 4 lines and 50 us. -/
def Timing.derivedOk (t : Timing) : Bool :=
  let px := t.ht * t.vt
  let vb := t.vt - t.vact
  decide (24 * px * t.fDen ≤ t.fNum) && decide (t.fNum ≤ 240 * px * t.fDen) && decide (4 ≤ vb) &&
    decide (t.fNum * 50 ≤ vb * t.ht * t.fDen * 1000000)

/-! Links (R149-R151) -/

/-- Rate of a rate code in kbit/s (R149). -/
def rateKbps (c : Nat) : Nat :=
  match c with
  | 0 => 1620000 | 1 => 2700000 | 2 => 5400000 | 3 => 8100000 | 4 => 10000000 | 5 => 13500000
  | 8 => 2160000 | 9 => 2430000 | 10 => 3240000 | 11 => 4320000 | _ => 0

/-- Rate codes that a head supports in a protocol (R149). -/
def headRates (edp : Bool) : List Nat := if edp then [0, 1, 2, 3, 8, 9, 10, 11] else [0, 1, 2, 3, 4, 5]

/-- Payload capacity in units of 1/165 kbit/s: lanes x rate x 0.8 or x 128/132 (R150). -/
def LinkCfg.cap (c : LinkCfg) : Nat := c.lanes * rateKbps c.rate * (if c.rate = 4 ∨ c.rate = 5 then 160 else 132)

/-- R150 step 2: the configurations both sides support, from the highest capacity down; ties go to more lanes. -/
def linkList (t : Timing) (s : SinkCaps) : List LinkCfg :=
  let all := ([1, 2, 4] : List Nat).flatMap fun l => (headRates (t.protocol == 1)).map fun r => ({ rate := r, lanes := l } : LinkCfg)
  sortBy (fun a b => decide (b.cap < a.cap) || (a.cap == b.cap && decide (b.lanes ≤ a.lanes)))
    (all.filter fun c => s.rates.contains c.rate && decide (c.lanes ≤ s.lanes))

/-- R151: a mode fits a configuration at b / 16 bits per pixel: f_pix x b ≤ 0.97 x C. -/
def Timing.fits (t : Timing) (b16 : Nat) (c : LinkCfg) : Bool :=
  decide (t.fNum * b16 * 16500 ≤ t.fDen * 97 * c.cap * 16000)

/-- Bits per pixel times 16 at a depth code. -/
def depth16 (bpc : Nat) : Nat := 16 * 3 * (8 + 2 * bpc)

/-- What the output runs at (R151): depth code, DSC, compressed rate. -/
structure OutputFit where
  bpc : Nat
  dsc : Bool
  bpp : Nat
deriving DecidableEq, Repr

/-- R151 steps 1-3 for one or two links that must carry the same output; `dsc` says that every sink supports DSC. None is step 4. -/
def fitOutput (t : Timing) (cs : List LinkCfg) (dsc : Bool) : Option OutputFit :=
  let depths := ((List.range (t.bpc + 1)).reverse)
  match depths.find? fun d => cs.all (t.fits (depth16 d)) with
  | some d => some { bpc := d, dsc := false, bpp := 0 }
  | none =>
    if t.dscAllow && dsc && decide (ceilDiv t.hact t.slices ≤ 2560) && cs.all (t.fits t.bppX16) then
      some { bpc := t.bpc, dsc := true, bpp := t.bppX16 }
    else none

/-- R150 step 3: the order in which configurations are tried. -/
def trainOrder (t : Timing) (s : SinkCaps) : List LinkCfg :=
  let l := linkList t s
  if t.trainPolicy then
    let up := l.reverse
    match up.findIdx? (t.fits (depth16 t.bpc)) with
    | some i => up.drop i ++ (up.take i).reverse
    | none => l
  else l

/-- R142: whether a new mode retrains a trained link first. -/
def needsRetrain (t : Timing) (s : SinkCaps) (c : LinkCfg) : Bool :=
  let l := linkList t s
  let b := depth16 t.bpc
  (!t.fits b c && l.any fun x => decide (c.cap < x.cap)) || (t.trainPolicy && l.any fun x => decide (x.cap < c.cap) && t.fits b x)

/-- R139 MODE_UNFIT: even the sink's best reported configuration fails steps 1-3 of R151. -/
def modeUnfit (t : Timing) (sinks : List SinkCaps) : Bool :=
  let best := sinks.map fun s => (linkList t s).head?
  !sinks.isEmpty && (fitOutput t (best.map fun b => b.getD { rate := 15, lanes := 0 }) (sinks.all (·.dsc))).isNone

/-! Heads -/

/-- Columns of the head's canvas: HACT, or 2 x HACT for an active pair (R148). -/
def Head.canvasW (x : Head) : Nat := if x.paired then 2 * x.timing.hact else x.timing.hact

/-- Base of a head's register block (R134). -/
def hdBase (h : Fin 8) : Nat := 0x12000 + 0x100 * h.val

/-- The pending timing set as written. -/
def Dev.pendingTiming (d : Dev) (h : Fin 8) : Timing :=
  let r := fun off => d.reg (hdBase h + off)
  { ctl := r 0, htim0 := r 4, htim1 := r 8, vtim0 := r 0xC, vtim1 := r 0x10, pll0 := r 0x14, pll1 := r 0x18, out := r 0x1C, bobbin := r 0x20 }

/-- Line of the scan at the present DEVTIME, counted from the start of the vertical front porch (R134). -/
def Head.line (x : Head) (now : Nat) : Nat :=
  let t := x.timing
  if x.gen = .off then 0 else min (t.vt - 1) ((now - x.since) * t.fNum / (1000000000 * t.fDen * max 1 t.ht))

/-- HD_STATUS.STATE (R134, R140, R141, R150, R152). -/
def Head.stateCode (x : Head) : Nat :=
  match x.gen with
  | .off => 0
  | .changing => if !x.relocked then 1 else match x.link with
    | .training => 2
    | .waiting | .noSink => 6
    | .short => 5
    | .trained | .idle => 3
  | .running => match x.link with
    | .training => 2
    | .waiting | .noSink => 6
    | .short => 5
    | .trained | .idle => 4

end Sys2Proof.Machine
end

