-- ==== Sys2Proof/Machine/Layers.lean ====
section
/-! DEFINITION. Machine/Layers.lean: layer checks and costs (R155-R162), tenancies (R180-R186), bobbins (R143), commit groups (R191-R195) and
expected signatures (R202). -/
namespace Sys2Proof.Machine

/-! CMP (R162) -/

/-- R162: a layer's fetch credits on a head: ceil(B x f_refresh / 50,000,000). -/
def fetchCredits (t : Timing) (bytes : Nat) : Nat := ceilDiv (bytes * t.fNum) (t.fDen * max 1 (t.ht * t.vt) * 50000000)

/-- R162: a layer's CMP cost for a frame. -/
def layerCmp (t : Timing) (b : Blk) : Nat := 4 + fetchCredits t (layerBytes b)

/-! Tenancies (R180-R186) -/

/-- A tenancy set of the policy (R180); an empty set where the policy leaves it empty. -/
def Dev.tenancySet (d : Dev) (h : Fin 8) (i : Nat) : Vector Tenancy 16 :=
  match d.policy with
  | some pol => (atD (at' pol.heads h).sets i none).getD (Vector.replicate 16 Tenancy.blank)
  | none => Vector.replicate 16 Tenancy.blank

/-- Whether a tenancy contains a canvas position. -/
def Tenancy.contains (t : Tenancy) (x y : Nat) : Bool :=
  t.valid && decide (t.x0 ≤ x) && decide (x < t.x1) && decide (t.y0 ≤ y) && decide (y < t.y1)

/-- The tenancies that a group armed now will meet: the pending set, or the one in force (R137). -/
def Dev.nextTens (d : Dev) (h : Fin 8) : Vector Tenancy 16 :=
  match (d.head h).tenWait with
  | some (i, _, _) => d.tenancySet h i
  | none => (d.head h).tens

/-- Columns of a destination `[x, x + w)` inside `[c0, c1)` and inside some tenancy of the ply (R143; log entry 51). -/
def clippedCols (tens : Vector Tenancy 16) (p : Fin 64) (x : Int) (w c0 c1 : Nat) : List Nat :=
  let lo := (max x c0).toNat
  let hi := (min (x + w) c1).toNat
  ((List.range (hi - lo)).map (lo + ·)).filter fun i => tens.toList.any fun t => t.valid && t.ply == p.val && decide (t.x0 ≤ i) && decide (i < t.x1)

/-- Their number (R143). -/
def clippedWidth (tens : Vector Tenancy 16) (p : Fin 64) (x : Int) (w c0 c1 : Nat) : Nat := (clippedCols tens p x w c0 c1).length

/-! Bobbins (R143) -/

/-- Granules of a bobbin of clipped width `w` (R143). -/
def granules (w lines : Nat) : Nat := ceilDiv (6 * w * lines) 16384

/-- Granules a layer needs on its head, or on both heads of a pair: one at least (R143, R148). -/
def layerGranules (t : Timing) (paired : Bool) (tens : Vector Tenancy 16) (p : Fin 64) (b : Blk) : Nat :=
  let w := fun c0 c1 => granules (clippedWidth tens p (blkDstX b) (blkDstW b) c0 c1) t.lines
  max 1 (w 0 t.hact + if paired then w t.hact (2 * t.hact) else 0)

/-- Class A slots of a head with the granules reserved for each (R143, R156). -/
def Dev.classASlots (d : Dev) (h : Fin 8) : List (Nat × Nat) :=
  match d.policy with
  | some pol => (at' pol.heads h).slots.zip (at' pol.heads h).slotGran
  | none => []

/-- Bobbins of a head: (is a class A slot or plate, granules), active and pending (R143, R196). A head that is OFF has none (R141). -/
def Dev.bobbins (d : Dev) (h : Fin 8) : List (Bool × Nat) :=
  let x := d.head h
  let isA := fun (n : Nat) => (d.classASlots h).any (·.1 == n)
  x.layers.map (fun l => (isA l.handle, l.gran)) ++ x.layers.filterMap (fun l => l.next.map fun n => (isA l.handle, n)) ++
    (x.groups.flatMap fun g => g.layers.filterMap fun l => l.gran.map fun n => (isA l.handle, n)) ++
    ((allFin 16).filterMap fun t => if (at' x.plates t).shown && x.gen != .off then
        some (true, granules ((at' x.tens t).x1 - (at' x.tens t).x0) x.timing.lines) else none)

/-- R143: the pool of 256 granules holds every bobbin, and none but class A slots and plates takes a granule reserved for them. -/
def Dev.poolFits (d : Dev) : Bool :=
  let per := (allFin 8).map fun h =>
    let bs := d.bobbins h
    let a := ((bs.filter (·.1)).map (·.2)).sum
    let o := ((bs.filter fun b => !b.1).map (·.2)).sum
    let res := ((d.classASlots h).map (·.2)).sum
    res + o + (a - res)
  decide (per.sum ≤ 256)

/-! What a bobbin holds, and the tolerance of a head (R144, R145) -/

/-- Pixels of the scan since the last boundary. -/
def Head.scanned (x : Head) (now : Nat) : Nat := (now - x.since) * x.timing.fNum / (1000000000 * x.timing.fDen)

/-- Lines of a layer that a head scans, and its columns there; `half` is 1 on the odd head of a pair (R143, R148). -/
def Head.layerRows (x : Head) (l : ActiveLayer) : Nat × Nat :=
  ((max 0 (blkDstY l.block)).toNat, (min (blkDstY l.block + blkDstH l.block) x.timing.vact).toNat)
@[inherit_doc Head.layerRows] def Head.layerCols (x : Head) (l : ActiveLayer) (half : Nat) : List Nat :=
  clippedCols x.tens l.ply (blkDstX l.block) (blkDstW l.block) (half * x.timing.hact) ((half + 1) * x.timing.hact)

/-- Bytes of a full bobbin, or of the rest of its layer's lines in the frame if those are fewer (R143, R145). -/
def Head.fullFill (x : Head) (now : Nat) (l : ActiveLayer) (half : Nat) : Nat :=
  let (y0, y1) := x.layerRows l
  let active := x.line now - (x.timing.vt - x.timing.vact)
  6 * (x.layerCols l half).length * min x.timing.lines (y1 - max y0 active)

/-- R144: S + H / (6 f_pix) of a layer, in ns; none for a layer that the head does not show. A line starts with its blanking. -/
def Head.layerTol (x : Head) (now : Nat) (l : ActiveLayer) (half : Nat) : Option Nat :=
  let (y0, y1) := x.layerRows l
  match x.layerCols l half with
  | [] => none
  | c :: _ =>
    if y1 ≤ y0 then none
    else
      let t := x.timing
      let top := t.vt - t.vact
      let line := x.line now
      let first := (top + y0) * t.ht + (t.ht - t.hact) + (c - half * t.hact)
      let wait := if line < top + y0 then first - x.scanned now
        else if line < top + y1 then 0 else t.vt * t.ht + first - x.scanned now
      some ((6 * wait + atD l.fill half 0) * 1000000000 * t.fDen / (6 * t.fNum))

/-- R144: what a head reports: the least over its layers, less GUARD_NS; the maximum when it is OFF, changes its mode or shows no layer (log entry 114). -/
def Dev.tolerance (d : Dev) (h : Fin 8) : Nat :=
  let x := d.head (d.master h)
  let half := if d.master h = h then 0 else 1
  if x.gen ≠ .running then 0xFFFFF
  else match x.layers.filterMap fun l => x.layerTol d.devtime l half with
    | [] => 0xFFFFF
    | t :: ts => min 0xFFFFF (ts.foldl min t - x.timing.guardNs)

/-- HEAD_TOL_REPORT (R144): a head updates its report; `held` are the bytes in its bobbins by handle. A channel in light nap leaves it when a report falls
to its limit or below (R272), and deep nap ends likewise (R273). -/
def execHeadTolReport (h : Fin 8) (held : List (Nat × Nat)) (s : State) : Res := s.clocked fun s =>
  if !s.dev.headExposed h then .next s
  else
    let m := s.dev.master h
    let half : Fin 2 := if m = h then 0 else 1
    let s := s.updHead m fun x => { x with layers := x.layers.map fun l => match Map.find held l.handle with
      | some n => { l with fill := put l.fill half (min n (6 * (x.layerCols l half.val).length * x.timing.lines)) }
      | none => l }
    let s := s.updMc fun c => { c with tol := put c.tol h (s.dev.tolerance h) }
    let s := if s.dev.toleranceAbove 20 then s else s.updMc fun m => { m with chans := m.chans.map fun c => { c with light := false } }
    .next (if s.dev.toleranceAbove 1500 then s else s.onDev Dev.leaveDeep)

/-- HEAD_TOPUP_ACK (R145): a head has filled every bobbin, or holds the rest of its layer's lines, and acknowledges. -/
def execHeadTopupAck (h : Fin 8) (s : State) : Res := s.clocked fun s =>
  if !s.dev.mc.topUp || s.dev.mc.acks.contains h.val || !s.dev.headExposed h then .next s
  else
    let m := s.dev.master h
    let half : Fin 2 := if m = h then 0 else 1
    let s := s.updHead m fun x => { x with layers := x.layers.map fun l =>
      { l with fill := put l.fill half (max (at' l.fill half) (x.fullFill s.dev.devtime l half.val)) } }
    .next (s.updMc fun m => { m with acks := m.acks ++ [h.val] })

/-! Groups (R157, R191-R194) -/

/-- A layer of an armed group on top of a list of (handle, layer) pairs. -/
def applyHandles (hs : List Nat) (g : Group) : List Nat :=
  g.layers.foldl (fun hs l => if l.disable then hs.filter (· != l.handle) else if hs.contains l.handle then hs else hs ++ [l.handle]) hs

/-- Handles of a head's active state after every group armed for it (R157). -/
def Head.handlesAfter (x : Head) : List Nat := x.groups.foldl applyHandles (x.layers.map (·.handle))

/-- Whether another head's active or pending state holds a handle (R157). -/
def Dev.heldElsewhere (d : Dev) (h : Fin 8) (handle : Nat) : Bool :=
  (allFin 8).any fun k => k != h &&
    ((d.head k).layers.any (·.handle == handle) || (d.head k).groups.any fun g => g.layers.any fun l => l.handle == handle && !l.disable)

/-- R143: whether a layer of a group is new to the head or has a new width, against the active state and every armed group. A layer that an armed group
disables is new again. -/
def Dev.needsBobbin (d : Dev) (h : Fin 8) (p : Fin 64) (l : GroupLayer) : Bool :=
  let x := d.head h
  let tens := d.nextTens h
  let wid := fun (b : Blk) => (clippedWidth tens p (blkDstX b) (blkDstW b) 0 x.canvasW, blkDstW b)
  let before := (x.layers.filterMap fun a => if a.handle == l.handle then some a.block else none) ++
    (x.groups.flatMap fun g => g.layers.filterMap fun e => if e.handle == l.handle && !e.disable then some e.block else none)
  !x.layers.any (·.handle == l.handle) || !x.handlesAfter.contains l.handle || before.any fun b => wid b != wid l.block

/-- Granules that a layer of a group needs (R143): under the timing in force, or the armed set where the group belongs to its boundary or a later one.
A group that takes effect before the armed set has granules for both. -/
def Dev.groupGranules (d : Dev) (h : Fin 8) (p : Fin 64) (late : Bool) (b : Blk) : Nat :=
  let x := d.head h
  let now := layerGranules x.timing x.paired (d.nextTens h) p b
  match x.armed with
  | none => now
  | some t =>
    let new := layerGranules t (t.pair && h.val % 2 == 0) (d.nextTens h) p b
    if !t.enable then now else if late || !x.armLate then new else max now new

/-- The group's pending bobbins (R143). None is allocated while the head is OFF (R141). -/
def Dev.withBobbins (d : Dev) (h : Fin 8) (g : Group) : Group :=
  let x := d.head h
  { g with layers := g.layers.map fun l =>
      if l.disable || x.gen == .off || !d.needsBobbin h g.ply l then { l with gran := none }
      else { l with gran := some (d.groupGranules h g.ply g.late l.block) } }

/-- A group as its COMMIT and LAYERs give it. -/
def State.buildGroup (s : State) (p : Fin 64) (r : Fin 4) (f : InFlight) : Group :=
  let ls := (s.ring p r).groupOf f
  { ply := p, ring := r, order := f.order, facc := f.mark, maxAge := f.commitAge, late := (s.head f.commitHead).cutoff,
    layers := ls.map fun l => { order := l.order, handle := l.layerHandle, disable := l.layerDisable, block := l.block.take 128,
                                coef := l.block.drop 128, gran := none } }

/-- R192: the group is armed: it meets the tests of R157 and then R143, and waits for its boundary; or it completes. -/
def State.armGroup (s : State) (p : Fin 64) (r : Fin 4) (f : InFlight) : State :=
  let h := f.commitHead
  let g := s.buildGroup p r f
  let orders := g.layers.map (·.order)
  if g.layers.any (fun l => s.dev.heldElsewhere h l.handle) || decide (16 < (applyHandles (s.head h).handlesAfter g).length) then
    s.finishGroup p r orders f.order stBadField 0
  else
    let g := s.dev.withBobbins h g
    let s' := s.updHead h fun x => { x with groups := x.groups ++ [g] }
    if s'.dev.poolFits then s'.dispatch p r f.order f.mark
    else s.finishGroup p r orders f.order stBobbinShort 0

/-- R194: whether a COMMIT accepted at frame `facc` with maximum age `m` is over its age in frame `n`. -/
def overAge (facc m n : Nat) : Bool := m != 0 && decide (facc + m + 1 ≤ n)

/-- LAYER (R159, R161, R191): the head of the ring, parsed and checked, with its wait reached, goes to the Carder's pending state, where it
waits for the COMMIT that claims it. -/
def execLayer (p : Fin 64) (r : Fin 4) (s : State) : Res := s.clocked fun s =>
  match s.ready p r 0x21 with
  | some f => .next (s.dispatch p r f.order f.mark)
  | none => .next s

/-- COMMIT (R191, R194): the parsed COMMIT claims its LAYERs and the status of the group is decided; one over its age completes STALE with the
frame number at which it is discarded. -/
def execCommit (p : Fin 64) (r : Fin 4) (s : State) : Res := s.clocked fun s =>
  match (s.ring p r).head with
  | none => .next s
  | some f =>
    if f.opcode ≠ 0x20 ∨ f.phase ≠ .parsed then .next s
    else
      let s' := s.settleGroup p r f
      match (s'.ring p r).head with
      | some f' =>
        if f'.order = f.order ∧ f'.phase = .parsed ∧ overAge f.mark f.commitAge (s.head f.commitHead).frame.toNat then
          .next (s.finishGroup p r (((s.ring p r).groupOf f).map (·.order)) f.order stStale (s.head f.commitHead).frame)
        else .next s'
      | none => .next s'

/-- A parsed group at the head of its ring whose last wait is reached becomes armed; one whose status is already decided against it, or that is over its
age, completes instead (R136, R143, R157, R192, R194). -/
def State.commitArm (s : State) (p : Fin 64) (r : Fin 4) : State :=
  match s.ready p r 0x20 with
  | none => s
  | some f =>
    let orders := ((s.ring p r).groupOf f).map (·.order)
    match s.groupStatus p r f with
    | some st => s.finishGroup p r orders f.order st 0
    | none =>
      if overAge f.mark f.commitAge (s.head f.commitHead).frame.toNat then
        s.finishGroup p r orders f.order stStale (s.head f.commitHead).frame
      else s.armGroup p r f

/-- COMMIT_ARM (R84, R86, R192): a group that its wait no longer holds, but that had no entry reserved or whose BARRIER was not met when the wait was
reached, is handed to the Carder. -/
def execCommitArm (p : Fin 64) (r : Fin 4) (s : State) : Res := s.clocked fun s => .next (s.commitArm p r)

/-! Expected signatures (R202) -/

/-- Base of a signature region's registers (R204). -/
def sigBase (h : Fin 8) (r : Fin 4) : Nat := 0x14000 + 0x100 * h.val + 0x40 * r.val

/-- Owner of a region as Elytra wrote it (R198). -/
def Dev.sigOwner (d : Dev) (h : Fin 8) (r : Fin 4) : Option Nat :=
  let c := d.reg (sigBase h r)
  if bit c 22 then some (fld c 21 16) else none

/-- SIG_EXPECT (R202): stores the value, or completes NOT_PERMITTED, BAD_FIELD or STALE. `missed`: the value for the current frame reaches the
unit within the window before its latch and misses it. -/
def execSigExpect (p : Fin 64) (r : Fin 4) (missed : Bool) (s : State) : Res := s.clocked fun s =>
  match s.ready p r 0x22 with
  | none => .next s
  | some f =>
    let h : Fin 8 := ⟨byteAt f.bytes 48 % 8, by omega⟩
    let k : Fin 4 := ⟨byteAt f.bytes 48 / 16 % 4, by omega⟩
    let value := le64 f.bytes 32
    let n := le64 f.bytes 40
    let cur := (s.head h).frame.toNat
    if s.dev.sigOwner h k ≠ some p.val then .next (s.finishDesc p r f.order stNotPermitted [])
    else if cur + 3 < n then .next (s.finishDesc p r f.order stBadField [])
    else if n < cur then .next (s.finishDesc p r f.order stStale [1])
    else if missed && n == cur then .next (s.finishDesc p r f.order stStale [2])
    else
      let s := s.updHead h fun x => { x with sigs := upd x.sigs k fun g => { g with expect := Map.ins g.expect n value } }
      .next (s.finishDesc p r f.order stOk [0])

end Sys2Proof.Machine
end

