-- ==== Sys2Proof/Machine/Fences.lean ====
section
/-! DEFINITION. Machine/Fences.lean: signals and what they release, and the retirement of descriptors (R86-R88, R91-R94). -/
namespace Sys2Proof.Machine

/-- The head of a ring, parsed and checked, whose wait is reached: that is the instant at which it is armed (R25, R93). A FENCE_WAIT's wait ends, and it
goes to retirement (R86); a COMMIT's group is armed (R192). BARRIER and the entry reservation still hold back what they hold back (R84, R86; log
entry 24). -/
def State.releaseHead (s : State) (p : Fin 64) (r : Fin 4) : State :=
  match (s.ring p r).head with
  | none => s
  | some f =>
    if !s.intake p || !(f.phase == .parsed || f.phase == .waitEntry) || !(s.ply p).reached f then s
    else
      let s := s.updDesc p r f.order fun f => { f with armedAt := f.armedAt.or (some s.dev.devtime) }
      if f.opcode = 0x02 then
        match s.ready p r 0x02 with
        | some f => s.finishDesc p r f.order 0 (bytesOf 8 ((s.ply p).fence f.waitFence).toNat)
        | none => s
      else if f.opcode = 0x20 then s.commitArm p r
      else s

/-- A signal (R91-R93): the fence becomes the larger of its value and `v`, and on the same cycle every wait that it reaches ends. -/
def State.signal (s : State) (p : Fin 64) (i : Nat) (v : DWord) : State :=
  (s.updPly p fun y => y.signal i v).each (allFin 4) fun s r => s.releaseHead p r

/-- FENCE_VAL_LO_WRITE (R91, R94): signals the selected fence with the staged high word and the written low word. -/
def execFenceValLoWrite (q : Fin 4) (p : Fin 64) (value : Word) (s : State) : Res := s.clocked fun s =>
  if s.dev.pageOpen q p then .next (s.signal p (s.ply p).fenceSel (DWord.ofWords (s.ply p).fenceStage value)) else .next s

/-! Retirement -/

/-- Whether a drain discards a finished descriptor: every one but an UNMAP that has removed its pages (R88, R115). -/
def Ply.discards (y : Ply) (f : InFlight) : Bool := y.state != .active && !(f.opcode == 0x71 && f.status == stOk)

/-- Whether a descriptor that failed its checks, and so holds no completion entry, must wait in order for one before it retires (R86, R87, R95). -/
def Ply.lacksEntry (y : Ply) (f : InFlight) : Bool :=
  y.cq.enable && y.writesHost false && !f.reserved && (!y.cq.waiters.isEmpty || y.cq.freeEntries == 0)

/-- Such a descriptor joins what waits for entries, once; its RING credit stays held (R87). -/
def State.awaitEntry (s : State) (p : Fin 64) (r : Fin 4) (f : InFlight) : State :=
  if (s.ply p).cq.waiters.contains (.reserve r f.order) then s
  else (s.updCq p fun c => { c with waiters := c.waiters ++ [.reserve r f.order] }).wantCons p

/-- The status that a finished descriptor completes with (R87, R88, R92, R94, R97): a FENCE_SIGNAL that would not raise its fence completes with 0x0A. -/
def Ply.retireStatus (y : Ply) (f : InFlight) : Nat :=
  if y.discards f then stDiscarded
  else if f.opcode = 0x03 ∧ f.status = stOk then (if y.fence f.signalFence < f.signalValue then stOk else 0x0A)
  else f.status

/-- Whether a finished descriptor signals its fence (R87, R88): a signal that moves no fence is one too (R92). -/
def Ply.retireSignals (y : Ply) (f : InFlight) : Bool :=
  !y.discards f && f.signalEn && (f.status == stOk || f.sigOnError)

/-- DESCRIPTOR_RETIRE (R87, R88, R91, R95): the signal, the completion entry, the RING credit, PROD, MSI-X. -/
def execDescriptorRetire (p : Fin 64) (r : Fin 4) (seq : Word) (s : State) : Res := s.clocked fun s =>
  match (s.ring p r).queue.find? fun f => f.seq == seq && f.phase == .finished with
  | none => .next s
  | some f =>
    let y := s.ply p
    let gone := y.discards f
    if !gone && y.lacksEntry f then .next (s.awaitEntry p r f)
    else
      let fs := !gone && f.opcode == 0x03 && f.status == stOk
      let s := if y.retireSignals f then s.signal p f.signalFence f.signalValue else s
      let now := bytesOf 8 ((s.ply p).fence f.signalFence).toNat
      let wb := le64 f.bytes 32
      let s := if fs && wb != 0 then s.onDev fun d => d.hostWrite p false wb now else s
      let s := s.onSkein fun k => k.give .ring (f.holder p) 1
      let s := s.updRing p r fun g => { g with queue := g.queue.filter fun e => e.order != f.order }
      .next (s.writeCompletion p r f (y.retireStatus f) (if gone then [] else if fs then now else f.result))

end Sys2Proof.Machine
end

