-- ==== Sys2Proof/Machine/Scanout.lean ====
section
/-! DEFINITION. Machine/Scanout.lean: what a head shows at a canvas position (R183-R190), and the check value of a signature region
(R198-R200). -/
namespace Sys2Proof.Machine

/-- A byte of a layer's source. Every byte a layer can fetch was mapped when it was parsed, and UNMAP waits (R161); what a byte whose mapping
has gone all the same would read is a free value (log entry 3). -/
def State.layerByte (s : State) (p : Fin 64) (addr : Nat) : Byte :=
  match s.dev.xlat p addr false with
  | .ok a k => s.dram.read k a
  | .fault => Config.freeByte s.dev.fresh addr

/-- Value of an entry that nothing has written: (i << 2) | (i >> 8) (R167). -/
def lutReset (i : Nat) : Nat := i * 4 + i / 256

/-- An entry of a colour table (R167): table 0-3 degamma, 8-15 gamma LUT of head 0-7. -/
def Carder.lut (c : Carder) (table bank i : Nat) : Nat := Map.get c.luts (lutReset i) ((table * 2 + bank) * 1024 + i)

/-- Whether a layer is missing at a position of this frame: its bobbin ran dry on the head that scans the column (R146, R205), or nothing of it has been
fetched (R46). -/
def ActiveLayer.missing (l : ActiveLayer) (scanHead x y : Nat) : Bool :=
  l.hold || l.dry.any fun (h, line, col) => h == scanHead && (decide (line < y) || (line == y && decide (col ≤ x)))

/-- Head that scans a canvas column of head `h` (R148). -/
def Head.scanHead (x : Head) (h : Fin 8) (col : Nat) : Nat := if x.paired && decide (x.timing.hact ≤ col) then h.val + 1 else h.val

/-- R183: band of a ply's pixel: the highest among its tenancies that contain it; none where it has none. -/
def bandAt (tens : Vector Tenancy 16) (p x y : Nat) : Option Nat :=
  (tens.toList.filter fun t => t.ply == p && t.contains x y).foldl (fun b t => some (max (b.getD 0) t.zb)) none

/-- R184, R197: whether a pixel of a ply's layer enters the blend. -/
def Head.admits (h : Head) (p x y : Nat) : Bool :=
  (bandAt h.tens p x y).isSome && !(h.tens.toList.any fun t => t.classA && t.ply != p && t.contains x y) &&
    !((allFin 16).any fun i => (at' h.plates i).shown && (at' h.tens i).ply == p && (at' h.tens i).contains x y)

/-- The background colour of a head (R190). -/
def Dev.background (d : Dev) (h : Fin 8) : Px :=
  let rg := d.active (0x13040 + 0x10 * h.val)
  let o := d.active (0x13044 + 0x10 * h.val)
  { r := fld rg 27 16, g := fld rg 11 0, b := fld o 11 0, a := 4095 }

/-- R146, R185: whether a byte's unit holds source data of a line with pixels that the layer shows on a head that has not run dry. -/
def Head.fetches (x : Head) (h : Fin 8) (l : ActiveLayer) (addr : Nat) : Bool :=
  let (y0, y1) := x.layerRows l
  let cols := (x.layerCols l 0 ++ if x.paired then x.layerCols l 1 else []).filter fun c => !l.dry.any (·.1 == x.scanHead h c)
  !l.hold && (List.range (y1 - y0)).any fun i => cols.any (fun c => x.admits l.ply.val c (y0 + i)) &&
      (lineRanges l.block (y0 + i)).any fun r => decide (addr / 64 * 64 < r.1 + r.2) && decide (r.1 < addr / 64 * 64 + 64)

/-- The layer pixels and plates over a canvas position with their stacking keys, lowest first (R183, R189, R196). -/
def State.stackAt (s : State) (h : Fin 8) (x y : Nat) : List (Nat × Px) :=
  let hd := s.head h
  let layers := hd.layers.filterMap fun l =>
    if l.missing (hd.scanHead h x) x y || !hd.admits l.ply.val x y then none
    else
      let dg := (blkDegamma l.block).map fun t => s.dev.carder.lut t 0
      match layerPixel (s.layerByte l.ply) dg l.block l.coef x y, bandAt hd.tens l.ply.val x y with
      | some px, some z =>
        let mode := if blkFormat l.block = 0x09 then 1 else blkAlphaMode l.block
        some ((16 * z + blkZ l.block) * 64 + l.handle, premultiply mode (blkPlaneAlpha l.block) px)
      | _, _ => none
  let plates := (allFin 16).filterMap fun i =>
    let t := at' hd.tens i
    let q := at' hd.plates i
    if q.shown && !q.hold && t.contains x y then
      (s.dev.plate h i.val).map fun pl =>
        let a := pl.addr + (y - t.y0) * pl.stride + 4 * (x - t.x0)
        let v := leAt (s.dram.readN (at' s.dev.ely.keySlot 64) a 4) 0 4
        let c := fun k => expand12 8 (v / 2 ^ k % 256)
        ((16 * t.zb + 15) * 64 + 63, if q.lost then s.dev.background h else ({ r := c 16, g := c 8, b := c 0, a := 4095 } : Px))
    else none
  sortBy (fun a b => decide (a.1 ≤ b.1)) (layers ++ plates)

/-- R189: the blended output at a canvas position (TAP0). -/
def State.blendAt (s : State) (h : Fin 8) (x y : Nat) : Px :=
  (s.stackAt h x y).foldl (fun d e => blendOver d e.2) (s.dev.background h)

/-- R167, R190: the output after gamma LUT and conversion (TAP1), in components of the effective depth. -/
def State.outputAt (s : State) (h : Fin 8) (x y : Nat) : Px :=
  let g := s.dev.active (0x13010 + 4 * h.val)
  let p := s.blendAt h x y
  let p := if bit g 31 then p.lut (s.dev.carder.lut (8 + h.val) (g % 2)) else p
  let hd := s.head h
  let f := convertOut (8 + 2 * hd.effBpc) (bit (s.dev.active (0x13044 + 0x10 * h.val)) 31) x y (hd.frame.toNat % 2)
  { r := f p.r, g := f p.g, b := f p.b, a := 0 }

/-- Check-value parameters of a region (R200, R204). -/
def Dev.sigParams (d : Dev) (h : Fin 8) (r : Fin 4) : CheckParams :=
  let b := sigBase h r
  let c := d.active b
  let v := fun off => d.active (b + off) + 2 ^ 32 * d.active (b + off + 4)
  { width := fld c 6 0, poly := v 0x10, init := v 0x18, xorout := v 0x20, refin := bit c 27, refout := bit c 26 }

/-- A region's rectangle: x0, x1, y0, y1 (R204). -/
def Dev.sigRect (d : Dev) (h : Fin 8) (r : Fin 4) : Nat × Nat × Nat × Nat :=
  let x := d.active (sigBase h r + 4)
  let y := d.active (sigBase h r + 8)
  (fld x 13 0, fld x 29 16, fld y 12 0, fld y 28 16)

/-- R199: six bytes of a pixel. -/
def Px.bytes (p : Px) : List Byte := bytesOf 2 p.r ++ bytesOf 2 p.g ++ bytesOf 2 p.b

/-- R199, R200: the check value of a region over the frame that ends. The model reads every layer's memory as it stands at the boundary
(log entry 52). -/
def State.sigValue (s : State) (h : Fin 8) (r : Fin 4) : Nat :=
  let (x0, x1, y0, y1) := s.dev.sigRect h r
  let tap1 := bit (s.dev.active (sigBase h r)) 28
  let c := s.dev.sigParams h r
  let reg := (List.range (y1 - y0)).foldl (fun reg j => (List.range (x1 - x0)).foldl (fun reg i =>
    let p := if tap1 then s.outputAt h (x0 + i) (y0 + j) else s.blendAt h (x0 + i) (y0 + j)
    c.feedAll reg p.bytes) reg) (c.init % 2 ^ c.width)
  c.final reg

end Sys2Proof.Machine
end

