-- ==== Sys2Proof/Machine/Links.lean ====
section
/-! DEFINITION. Machine/Links.lean: DisplayPort links of the heads: training, the output's fit, hot-plug (R149-R152, R483), and timing changes
(R139-R142, R147, R148). -/
namespace Sys2Proof.Machine

/-- HPD_IGNORE and AUTO_TRAIN (R134): on the write. In an active pair the even head's govern both (R148). -/
def Dev.hpdIgnore (d : Dev) (h : Fin 8) : Bool := bit (d.reg (hdBase (d.master h))) 0
@[inherit_doc Dev.hpdIgnore] def Dev.autoTrain (d : Dev) (h : Fin 8) : Bool := bit (d.reg (hdBase (d.master h) + 0x1C)) 28

/-- An event of a head: to every ply with a tenancy on it and to the manager's port (R100). -/
def State.postHead (s : State) (h : Fin 8) (about code unit : Nat) (data : List Byte) : State :=
  let tens := (s.head (s.dev.master h)).tens.toList.filter (·.valid)
  let s := s.each (allPlies.filter fun p => tens.any fun t => t.ply == p.val) fun s p => s.postPly p about code unit data
  s.postManager about code unit data

/-- DATA of LINK_TRAINED and LINK_SHORT (R483). -/
def linkData (x : Head) (reason : Nat) : List Byte :=
  let (r, l) := match x.cfg with
    | some c => (c.rate, c.lanes)
    | none => (0xFF, 0)
  dataBytes [(16, 1, r), (17, 1, l), (18, 1, if reason = 0 then x.effBpc else 0xFF), (19, 1, bit1 x.dscOn), (20, 2, x.dscBpp), (22, 1, reason)]

/-- R150 step 6: no configuration trained. -/
def State.linkNone (s : State) (h : Fin 8) : State :=
  let s := s.updHead h fun x => { x with link := .short, tries := [], cfg := none, trained := false, steady := false, dscOn := false, dscBpp := 0 }
  s.postHead h 0x40 0x0301 h.val (linkData (s.head h) 2)

/-- R151 over the trained links among the heads that run as one: one output for all, or LINK_SHORT with reason 1. -/
def State.fitLinks (s : State) (h : Fin 8) : State :=
  let gs := (s.dev.group h).filter fun k => (s.head k).cfg.isSome && (s.head k).link != .noSink
  let t := (s.head (s.dev.master h)).timing
  let cs := gs.filterMap fun k => (s.head k).cfg
  let dsc := gs.all fun k => match (s.head k).sink with | some c => c.dsc | none => false
  match fitOutput t cs dsc with
  | some o => s.each gs fun s k =>
      let s := s.updHead k fun x => { x with link := .trained, effBpc := o.bpc, dscOn := o.dsc, dscBpp := o.bpp }
      s.postHead k 0x40 0x0303 k.val (linkData (s.head k) 0)
  | none => s.each gs fun s k =>
      let s := s.updHead k fun x => { x with link := .short, trained := false, steady := false, dscOn := false, dscBpp := 0 }
      s.postHead k 0x40 0x0301 k.val (linkData (s.head k) 1)

/-- A head's training is over; the output is chosen once no head of its pair is still training (R148, R151). -/
def State.linkDone (s : State) (h : Fin 8) : State :=
  if (s.dev.group h).any fun k => (s.head k).link == .training then s else s.fitLinks h

/-- An attempt failed: the next configuration is tried, or none is left (R150). -/
def State.attemptFailed (s : State) (h : Fin 8) : State :=
  match (s.head h).tries with
  | _ :: c :: rest => s.updHead h fun x => { x with tries := c :: rest }
  | _ => (s.linkNone h).linkDone h

/-- LINK_TRAIN_START (R150): the head reads the sink's capabilities and lists the configurations to try. -/
def execLinkTrainStart (h : Fin 8) (caps : SinkCaps) (s : State) : Res := s.clocked fun s =>
  if (s.head h).link ≠ .training ∨ (s.head h).tries ≠ [] then .next s
  else
    let l := trainOrder (s.head (s.dev.master h)).timing caps
    let s := s.updHead h fun x => { x with sink := some caps, tries := l }
    .next (if l = [] then (s.linkNone h).linkDone h else s)

/-- TRAIN_ATTEMPT_DONE (R150, R151): the configuration tried trains, or the next one is tried. -/
def execTrainAttemptDone (h : Fin 8) (ok : Bool) (s : State) : Res := s.clocked fun s =>
  match (s.head h).link, (s.head h).tries with
  | .training, c :: _ =>
    if ok then .next ((s.updHead h fun x => { x with link := .trained, cfg := some c, tries := [] }).linkDone h)
    else .next (s.attemptFailed h)
  | _, _ => .next s

/-- TRAIN_ATTEMPT_TIMEOUT (R150): the attempt is abandoned. -/
def execTrainAttemptTimeout (h : Fin 8) (s : State) : Res := s.clocked fun s =>
  match (s.head h).link, (s.head h).tries with
  | .training, _ :: _ => .next (s.attemptFailed h)
  | _, _ => .next s

/-- A sink is there and the head is on: training begins anew. -/
def State.beginTraining (s : State) (h : Fin 8) : State :=
  s.updHead h fun x => { x with link := .training, tries := [], trained := false, steady := false }

/-- DP_HOTPLUG_PLUG (R141, R152): reported; the head trains if AUTO_TRAIN is 1, or if a timing change waits for its first sink. DESIGN CHOICE (log entry
115): on a head that is OFF the plug is only reported. The device neither trains nor reads the sink's capabilities then, so a later ARM that enables the
head is not tested for MODE_UNFIT. -/
def execDpHotplugPlug (h : Fin 8) (s : State) : Res := s.clocked fun s =>
  if !s.dev.headExposed h || s.dev.hpdIgnore h then .next s
  else
    let s := s.updHead h fun x => { x with hpd := true }
    let s := s.postHead h 0x40 0x0302 h.val (dataBytes [(16, 1, 1)])
    match (s.head h).link with
    | .idle => .next s
    | .waiting => .next (s.beginTraining h)
    | _ => .next (if s.dev.autoTrain h then s.beginTraining h else s.updHead h fun x => { x with link := .noSink })

/-- DP_HOTPLUG_UNPLUG (R152): the transmitter stops; the timing generator keeps running. The sink read is forgotten. -/
def execDpHotplugUnplug (h : Fin 8) (s : State) : Res := s.clocked fun s =>
  if !s.dev.headExposed h || s.dev.hpdIgnore h then .next s
  else
    let s := s.updHead h fun x =>
      { x with hpd := false, sink := none, tries := [], trained := false, steady := false, cfg := none,
               link := match x.link with | .idle => .idle | .waiting => .waiting | _ => .noSink }
    let s := s.postHead h 0x40 0x0302 h.val (dataBytes [(16, 1, 2)])
    .next (if (s.head h).link = .noSink then s.linkDone h else s)

/-- DP_HOTPLUG_IRQ (R150, R152): the link status is read; a sink that reports lost lock is retrained, and a head without a trained
configuration trains again. -/
def execDpHotplugIrq (h : Fin 8) (lostLock : Bool) (s : State) : Res := s.clocked fun s =>
  if !s.dev.headExposed h || s.dev.hpdIgnore h then .next s
  else
    let s := s.postHead h 0x40 0x0302 h.val (dataBytes [(16, 1, 3)])
    let x := s.head h
    .next (if (x.link = .trained ∧ lostLock) ∨ (x.link = .short ∧ (x.cfg.isNone ∨ lostLock)) then s.beginTraining h else s)

/-! Timing changes (R139-R142, R147) -/

/-- R139, R143: the layers that stay on a head, and those of its armed groups, get bobbins for a timing set that is armed. An active layer's new bobbin and
the old one both exist until the boundary. -/
def Dev.refit (d : Dev) (h : Fin 8) (t : Timing) (paired : Bool) : Dev :=
  let need := layerGranules t paired (d.nextTens h)
  let both := fun (g : Group) (l : GroupLayer) (n : Nat) => if g.late || !(d.head h).cutoff then need g.ply l.block else max n (need g.ply l.block)
  d.updHead h fun x =>
    { x with layers := x.layers.map fun l => { l with next := if need l.ply l.block = l.gran then none else some (need l.ply l.block) },
             groups := x.groups.map fun g => { g with layers := g.layers.map fun l => { l with gran := l.gran.map (both g l) } } }

/-- A timing set is in force: the layers have their new bobbins, and the old ones are freed (R143). -/
def Dev.fitTiming (d : Dev) (h : Fin 8) (t : Timing) (paired : Bool) : Dev :=
  d.updHead h fun x =>
    { x with timing := t, paired := paired, layers := x.layers.map fun l => { l with gran := l.next.getD l.gran, next := none } }

/-- R139: ERR of an ARM; 0 accepts it. -/
def Dev.armError (d : Dev) (h : Fin 8) (t : Timing) : Nat :=
  let x := d.head h
  let odd := d.head (twin h)
  let pairBad := d.slave h ||
    (h.val % 2 == 0 && t.pair &&
      (!d.headExposed (twin h) || decide (15360 < 2 * t.hact) || (!x.paired && odd.gen == .changing)))
  let gs := if t.pair && h.val % 2 == 0 then [h, twin h] else [h]
  if bit (d.reg (hdBase h)) 1 then 6
  else if x.armed.isSome then 8
  else if pairBad then 5
  else if !t.enable then 0
  else if !t.fieldsOk then 1
  else if !t.evenOk then 2
  else if !t.pllOk then 3
  else if !t.derivedOk then 1
  else if modeUnfit t (gs.filterMap fun k => (d.head k).sink) then 4
  else if !(d.refit h t (t.pair && h.val % 2 == 0)).poolFits then 7
  else 0

/-- The double-buffered fields of HD_OUT: all but AUTO_TRAIN and DSC_ALLOW (R134). -/
def Timing.outFields (t : Timing) : Nat := t.out - bit1 (bit t.out 28) * 2 ^ 28 - bit1 (bit t.out 25) * 2 ^ 25

/-- Whether a set runs the steps of R140: HT, VT, N, F, P or HD_OUT changes, or the pairing does. -/
def modeChanges (a b : Timing) : Bool :=
  a.ht != b.ht || a.vt != b.vt || a.n != b.n || a.f != b.f || a.p != b.p || a.outFields != b.outFields || a.pair != b.pair

/-- Whether a handle is a class A slot of a head (R156). -/
def Dev.isSlot (d : Dev) (h : Fin 8) (handle : Nat) : Bool := (d.classASlots h).any (·.1 == handle)

/-- CMP credits that the class A slots of a ply hold (R156). -/
def Dev.slotCmp (d : Dev) (p : Fin 64) : Nat :=
  ((allFin 8).map fun h => (((d.head h).layers.filter fun l => l.ply == p && d.isSlot h l.handle).map (·.cmp)).sum).sum

/-- R156: the CMP reservation of a class A ply belongs to its slots: another layer of the ply leaves what they have not taken of it. -/
def State.sparesSlots (s : State) (h : Fin 8) (l : ActiveLayer) (n : Nat) : Bool :=
  let a := s.skein.acct .cmp
  let g := plyHolder l.ply
  !s.dev.isClassA l.ply || s.dev.isSlot h l.handle ||
    decide (n + (a.owedSum - a.owed g) + (at' a.guar g - s.dev.slotCmp l.ply) ≤ a.free)

/-- CMP for a layer of the frame in progress, or the Carder holds its fetches (R44, R46, R162). -/
def State.chargeLayer (s : State) (h : Fin 8) (handle : Nat) : State :=
  let set := fun (s : State) (n : Nat) (hold : Bool) => s.updHead h fun x =>
    { x with layers := x.layers.map fun e => if e.handle = handle then { e with cmp := n, hold := hold } else e }
  match (s.head h).layers.find? (·.handle == handle) with
  | none => s
  | some l =>
    let n := layerCmp (s.head h).timing l.block
    if !s.sparesSlots h l n then set s 0 true
    else match s.skein.take .cmp (plyHolder l.ply) n with
      | some k => set { s with skein := k } n false
      | none => set s 0 true

/-- CMP for a plate that shows (R44, R196). -/
def State.chargePlate (s : State) (h : Fin 8) (i : Fin 16) : State :=
  let set := fun (s : State) (n : Nat) (hold : Bool) => s.updHead h fun x => { x with plates := upd x.plates i fun p => { p with cmp := n, hold := hold } }
  if !(at' (s.head h).plates i).shown then s
  else
    let e := at' (s.head h).tens i
    let n := 4 + fetchCredits (s.head h).timing (ceilTo ((e.x1 - e.x0) * 4) 64 * (e.y1 - e.y0))
    match s.skein.take .cmp devHolder n with
    | some k => set { s with skein := k } n false
    | none => set s 0 true

/-- CMP credits have returned: the layers and plates that wait for theirs try again (R46). -/
def State.retryCmp (s : State) : State :=
  s.each (allFin 8) fun s h =>
    let x := s.head h
    let s := s.each (x.layers.filter (·.hold)) fun s l => s.chargeLayer h l.handle
    s.each ((allFin 16).filter fun i => (at' x.plates i).hold) fun s i => s.chargePlate h i

/-- The CMP credits of a head's layers and plates return (R44). -/
def State.returnCmp (s : State) (h : Fin 8) : State :=
  let x := s.head h
  let s := s.each x.layers fun s l => s.onSkein fun k => k.give .cmp (plyHolder l.ply) l.cmp
  let s := s.each x.plates.toList fun s p => s.onSkein fun k => k.give .cmp devHolder p.cmp
  let s := s.updHead h fun x => { x with layers := x.layers.map fun l => { l with cmp := 0, hold := false },
                                         plates := x.plates.map fun p => { p with cmp := 0, hold := false } }
  s.retryCmp

/-- CMP for every layer of the new active state, and for its plates, the class A slots first (R44, R156, R162, R196). A layer or plate whose take is refused
is not fetched until one is granted (R46; log entry 53). -/
def State.takeCmp (s : State) (h : Fin 8) : State :=
  let x := s.head h
  let (slots, rest) := x.layers.partition fun l => s.dev.isSlot h l.handle
  let s := s.each slots fun s l => s.chargeLayer h l.handle
  let s := s.each (allFin 16) fun s i => s.chargePlate h i
  s.each rest fun s l => s.chargeLayer h l.handle

/-- FBSEL_N goes low and its count restarts (R154). -/
def Carder.fbLow (c : Carder) : Carder := { c with fbHigh := false, fbCount := 0 }

/-- FBSEL_N falls for a timing change or OFF of head 0, on package C (R9, R154). -/
def State.fbOnHead (s : State) (h : Fin 8) : State := if h = 0 then s.updCarder Carder.fbLow else s

/-- A command answered by its order of acceptance, if it is still in the journal. -/
def State.answerOrder (s : State) (order status : Nat) (result : List Byte) : State :=
  match s.dev.ely.journal.find? (·.order == order) with
  | some j => s.answer j status result
  | none => s

/-- A TEN_APPLY of this boundary swaps in and is answered (R182); on a head that stops having boundaries it swaps in now. -/
def State.swapTenancies (s : State) (h : Fin 8) (now : Bool) : State :=
  match (s.head h).tenWait with
  | none => s
  | some (i, order, late) =>
    if late && !now then s.updHead h fun x => { x with tenWait := some (i, order, false) }
    else
      let set := s.dev.tenancySet h i
      let s := s.updHead h fun x => { x with tens := set, tenSet := i, tenWait := none }
      s.answerOrder order mbOk (bytesOf 8 (s.head h).frame.toNat)

/-- R141: a head goes OFF: every layer leaves, CMP returns, the transmitter stops; groups armed for it are held without bobbins. A plate stays until a
group of its ply removes it (R197). -/
def State.headOff (s : State) (h : Fin 8) : State :=
  let s := (s.returnCmp h).updHead h fun x =>
    { x with gen := .off, layers := [], link := .idle, tries := [], cfg := none, trained := false, steady := false, effBpc := 0,
             dscOn := false, dscBpp := 0, paired := false, idle := false, cutoff := false, relocked := false, armed := none, armLate := false,
             groups := x.groups.map fun g => { g with late := false, layers := g.layers.map fun l => { l with gran := none } } }
  ((s.updMc fun m => { m with tol := put m.tol h 0xFFFFF }).fbOnHead h).swapTenancies h true

/-- Link of a head when a mode change begins (R141, R142, R151). -/
def State.linkOnChange (s : State) (h : Fin 8) : State :=
  let x := s.head h
  let t := (s.head (s.dev.master h)).timing
  match x.link with
  | .idle => s.updHead h fun y => { y with link := if x.hpd || s.dev.hpdIgnore h then .training else .waiting, tries := [] }
  | .trained | .short => match x.cfg, x.sink with
    | some c, some k => if needsRetrain t k c then s.beginTraining h else s
    | _, _ => s.beginTraining h
  | .waiting | .noSink | .training => s

/-- The steps of R140 begin on the heads that run as one: the idle frame, PLL and link. -/
def State.beginChange (s : State) (h : Fin 8) : State :=
  let gs := s.dev.group h
  let s := s.each gs fun s k => (s.updHead k fun x =>
    { x with gen := .changing, idle := true, relocked := false, cutoff := false, since := s.dev.devtime }).fbOnHead k
  let s := s.each gs State.linkOnChange
  if gs.any (fun k => (s.head k).link == .training) then s else s.fitLinks h

/-- Held groups of a head that comes on: bobbins are allocated in arming order; one that the pool cannot serve completes BOBBIN_SHORT (R141). -/
def State.serveHeld (s : State) (h : Fin 8) : State :=
  let held := (s.head h).groups
  let s := s.updHead h fun x => { x with groups := [] }
  s.each held fun s g =>
    let g := s.dev.withBobbins h g
    let s' := s.updHead h fun x => { x with groups := x.groups ++ [g] }
    if s'.dev.poolFits then s' else s.finishGroup g.ply g.ring (g.layers.map (·.order)) g.order stBobbinShort 0

/-- The active copies of the timing registers of a head. -/
def Dev.activateTiming (d : Dev) (h : Fin 8) (t : Timing) : Dev :=
  ([t.ctl, t.htim0, t.htim1, t.vtim0, t.vtim1, t.pll0, t.pll1, t.out, t.bobbin].zipIdx).foldl
    (fun d x => d.setAct (hdBase h + 4 * x.2) x.1) d

/-- The odd head joins its even head: its frame is cut off and its layers are removed (R147). Its own armed groups and set fall away
(log entry 54). -/
def State.joinPair (s : State) (h : Fin 8) : State :=
  let o := twin h
  let gs := (s.head o).groups
  let s := s.returnCmp o
  let s := s.updHead o fun x => { x with layers := [], groups := [], armed := none, armLate := false, paired := true }
  let s := s.each gs fun s g => s.finishGroup g.ply g.ring (g.layers.map (·.order)) g.order stBadField 0
  (s.updHead h fun x => { x with paired := true }).swapTenancies o true

/-- Frame numbers of two heads become one (R148): expected values for frames that have passed, or lie too far ahead, are removed, so that each region keeps at
most 4 (R202). -/
def Head.setFrame (x : Head) (f : DWord) : Head :=
  { x with frame := f, sigs := x.sigs.map fun g => { g with expect := g.expect.filter fun e => decide (f.toNat ≤ e.1) && decide (e.1 ≤ f.toNat + 3) } }

/-- The odd head of a pair that is unlocked takes its own pending timing, or goes OFF (R147). -/
def State.ownTiming (s : State) (o : Fin 8) : State :=
  let own := s.dev.pendingTiming o
  if own.enable && own.fieldsOk && own.evenOk && own.pllOk && own.derivedOk then
    (s.onDev fun d => (d.activateTiming o own).fitTiming o own false).beginChange o
  else s.headOff o

/-- A timing set takes effect on a head (R139-R142, R147): at a boundary, or at once on a head that is OFF. -/
def State.swapTiming (s : State) (h : Fin 8) (t : Timing) : State :=
  let x := s.head h
  let o := twin h
  let s := s.onDev fun d => d.activateTiming h t
  let pair := t.enable && t.pair && h.val % 2 == 0
  let split := x.paired && !t.pair
  let s := if !x.paired && pair then s.joinPair h else s
  let s := if split then (s.updHead o fun y => { y with paired := false }).updHead h fun y => { y with paired := false } else s
  let s :=
    if !t.enable then
      let s := if (s.head h).paired then s.headOff o else s
      (s.headOff h).updHead h fun y => { y with timing := t }
    else
      let s := s.onDev fun d => d.fitTiming h t pair
      let s := if pair then s.updHead o fun y => { y with timing := t } else s
      let s := if x.gen == .off || modeChanges x.timing t || x.paired != pair then s.beginChange h else s
      if x.gen = .off then s.serveHeld h else s
  if split then s.ownTiming o else s

/-- A timing set takes effect on a head that is OFF (R141). -/
def State.enableHead (s : State) (h : Fin 8) (t : Timing) : State :=
  let s := if t.enable then s.updHead h fun x => x.setFrame (x.frame + 1) else s
  let s := s.swapTiming h t
  if (s.head h).paired then s.updHead (twin h) fun x => x.setFrame (s.head h).frame else s

/-- TIMING_ARM (R134, R136, R139, R141): the manager's write of HD_TCOMMIT.ARM tests the pending set and arms it, or records ERR. -/
def execTimingArm (q : Fin 4) (h : Fin 8) (s : State) : Res := s.clocked fun s =>
  if !s.dev.isManager q || !s.dev.headExposed h then .next s
  else
    let t := s.dev.pendingTiming h
    let e := s.dev.armError h t
    let s := s.updHead h fun x => { x with err := e }
    if e ≠ 0 then .next s
    else
      -- a link that waits for an ARM trains now (R150, R152)
      let s := s.each (s.dev.group h) fun s k =>
        let x := s.head k
        if (x.link = .short ∧ x.cfg.isNone) ∨ (x.link = .noSink ∧ (x.hpd ∨ s.dev.hpdIgnore k)) then s.beginTraining k else s
      -- at VDDC point 0x0 a set that enables a head stays pending (R433)
      if t.enable ∧ s.dev.power.vc = 0 then .next (s.updHead h fun x => { x with armed := some t, armLate := false })
      else if (s.head h).gen = .off then .next (s.enableHead h t)
      else
        let s := if t.enable then s.onDev fun d => d.refit h t (t.pair && h.val % 2 == 0) else s
        .next (s.updHead h fun x => { x with armed := some t, armLate := x.cutoff })

/-- PLL_LOCK (R140): the PLL relocks and PIXn is switched back. -/
def execPllLock (h : Fin 8) (s : State) : Res := s.clocked fun s =>
  if (s.head h).gen = .changing then .next (s.each (s.dev.group h) fun s k => s.updHead k fun x => { x with relocked := true }) else .next s

/-- HD_FRAME_LO_READ (R134): the low word, with the high word latched until it is read; `hi` is that read. -/
def execHdFrameLoRead (q : PairRead) (h : Fin 8) (s : State) : Res := s.clocked fun s =>
  .next (s.readPair q.port (hdBase h + 0x30) (if s.dev.headExposed h then (s.head (s.dev.master h)).frame.toNat else 0) q.hi)

end Sys2Proof.Machine
end

