-- ==== Sys2Proof/Machine/Frames.lean ====
section
/-! DEFINITION. Machine/Frames.lean: the frame boundary (R135-R138): signatures, HEARTBEAT and FBSEL_N, swaps, plates and CMP; underruns,
tenancy sets, the colour tables and the remaining head commands (R145-R146, R153-R154, R168, R182, R196-R204). -/
namespace Sys2Proof.Machine

/-! Frame lock (R355, R361) -/

/-- The ring changed. -/
def State.updWhorl (s : State) (f : Whorl → Whorl) : State := s.onDev fun d => { d with whorl := f d.whorl }

/-- WHORL_REPAIR on the manager's port (R361): ring port or 0xFF, kind, ring ID concerned; a channel's ID in byte 18 (log entry 71). -/
def State.whorlRepair (s : State) (unit kind id chan : Nat) : State :=
  s.postManager 0x40 0x0A00 unit (dataBytes [(16, 1, kind), (17, 1, id), (18, 1, chan), (24, 8, s.dev.devtime)])

/-- FOLLOW swaps at the head's boundary: from 0 to 1 the head runs the steps of R140; at 0 it is not locked. -/
def State.swapFollow (s : State) (h : Fin 8) : State :=
  let want := bit (s.dev.reg 0x1700C) (24 + h.val) && s.dev.pkgW
  let was := at' s.dev.whorl.follow h
  let again := want && was && s.dev.whorl.timed && at' s.dev.whorl.relock h
  let s := s.updWhorl fun w => { w with follow := put w.follow h want, locked := if want && was then w.locked else put w.locked h false,
                                        relock := if want && !again then w.relock else put w.relock h false }
  if want && (!was || again) && (s.head h).gen != .off then s.beginChange h else s

/-- A locked head whose boundary lies more than 1 microsecond from the reference runs free. -/
def State.checkLock (s : State) (h : Fin 8) (ref : Option Int) : State :=
  match ref with
  | none => s
  | some x =>
    if at' s.dev.whorl.locked h && decide (1000 < x.natAbs) then
      (s.updWhorl fun w => { w with locked := put w.locked h false }).whorlRepair 0xFF 0x7 s.dev.whorl.ringId 0
    else s

/-- A following head locks as its generator starts, where its mode equals the reference's and the device keeps ring time. -/
def State.lockHead (s : State) (h : Fin 8) (same : Bool) : State :=
  let w := s.dev.whorl
  if at' w.follow h && same && w.member && w.timed then s.updWhorl fun w => { w with locked := put w.locked h true } else s

/-! Signatures (R201-R203) -/

/-- Whether a region is class A (R198). -/
def Dev.sigClassA (d : Dev) (h : Fin 8) (r : Fin 4) : Bool := bit (d.reg (sigBase h r)) 29

/-- A region that is computed: EN with an owner (R204). -/
def Dev.sigOn (d : Dev) (h : Fin 8) (r : Fin 4) : Bool := bit (d.active (sigBase h r)) 31 && (d.sigOwner h r).isSome

/-- The region's rectangle is empty (R201). -/
def Dev.sigEmpty (d : Dev) (h : Fin 8) (r : Fin 4) : Bool :=
  let (x0, x1, y0, y1) := d.sigRect h r
  decide (x1 ≤ x0) || decide (y1 ≤ y0)

/-- The region's rectangle does not lie wholly inside the active canvas (R201, R204). -/
def Dev.sigOutside (d : Dev) (h : Fin 8) (r : Fin 4) : Bool :=
  let (_, x1, _, y1) := d.sigRect h r
  !d.sigEmpty h r && !(decide (x1 ≤ (d.head h).canvasW) && decide (y1 ≤ (d.head h).timing.vact))

/-- The class A tenancy that contains a region and has a plate (R203). -/
def Dev.sigTenancy (d : Dev) (h : Fin 8) (r : Fin 4) : Option (Fin 16) :=
  let (x0, x1, y0, y1) := d.sigRect h r
  (allFin 16).find? fun i =>
    let t := at' (d.head h).tens i
    t.valid && t.classA && decide (t.x0 ≤ x0) && decide (x1 ≤ t.x1) && decide (t.y0 ≤ y0) && decide (y1 ≤ t.y1) && (d.plate h i.val).isSome

/-- SIG_MISMATCH and the actions of R203. -/
def State.mismatch (s : State) (h : Fin 8) (r : Fin 4) : State :=
  let x := s.head h
  let g := at' x.sigs r
  let unit := h.val * 256 + r.val
  let data := dataBytes [(16, 8, x.frame.toNat), (24, 8, g.result.toNat)]
  let owner := (s.dev.sigOwner h r).getD 0
  let s := match fin? 64 owner with | some p => s.postPly p owner 0x0500 unit data | none => s
  if !s.dev.sigClassA h r then s
  else
    let ctl := s.dev.active (sigBase h r)
    let s := s.postManager owner 0x0500 unit data
    let s := if bit ctl 25 then match s.dev.sigTenancy h r with
        | some i => s.updHead h fun x => { x with plates := upd x.plates i fun p =>
            if p.due.isSome then p else { p with due := some (2, 3) } }
        | none => s
      else s
    let s := if bit ctl 24 then s.updHead h fun x => { x with sigs := upd x.sigs r fun g => { g with hold := true } } else s
    if bit ctl 23 && h == 0 && !s.dev.pkgW then
      s.updCarder fun c => { c.fbLow with fbLatched := c.fbLatched || bit (s.dev.reg 0x12804) 31 }
    else s

/-- One region latches over the frame that ends (R201-R203). -/
def State.latchSig (s : State) (h : Fin 8) (r : Fin 4) : State :=
  let x := s.head h
  let g := at' x.sigs r
  let f := x.frame.toNat
  let rest := g.expect.filter fun e => decide (f < e.1)
  if !s.dev.sigOn h r then s.updHead h fun x => { x with sigs := upd x.sigs r fun g => { g with expect := rest } }
  else
    let outside := s.dev.sigOutside h r
    let seen := !x.idle && !outside && !s.dev.sigEmpty h r
    let v : DWord := if !x.idle && !outside then BitVec.ofNat 64 (s.sigValue h r) else g.result
    let want := Map.find g.expect f
    let compared := seen && want.isSome
    let classA := s.dev.sigClassA h r
    let ok := compared && want == some v.toNat && !g.hold && !(classA && s.dev.bist.badHeads.contains h.val)
    let s := s.updHead h fun x => { x with sigs := upd x.sigs r fun g =>
      { g with expect := rest, result := v, frame := f % 65536, isMatch := ok, compared := compared, outside := outside } }
    if !ok && (compared || classA) then s.mismatch h r else s

/-- R153: whether the frame that ends is a matching frame. Its signatures have latched. -/
def Dev.matchingFrame (d : Dev) (h : Fin 8) : Bool :=
  let a := (allFin 4).filter fun r => d.sigOn h r && d.sigClassA h r
  !(d.head h).idle && (d.group h).all (fun k => (d.head k).steady) && a.any (fun r => (at' (d.head h).sigs r).compared) &&
    a.all fun r => (at' (d.head h).sigs r).isMatch

/-- HEARTBEAT and FBSEL_N after a frame (R153, R154). A class A mismatch ends the run of matching frames. -/
def Dev.pinsAfter (d : Dev) (h : Fin 8) : Dev :=
  let good := d.matchingFrame h
  let mism := (allFin 4).any fun r => d.sigOn h r && d.sigClassA h r && !(at' (d.head h).sigs r).isMatch
  let hb := d.reg 0x12800
  let c := d.carder
  let c := if bit hb 31 && hb % 8 == h.val then (if good then { c with hbLevel := !c.hbLevel } else c) else c
  let c := if h ≠ 0 ∨ d.pkgW then c
    else if good then
      if c.fbLatched then { c with fbCount := 0 }
      else { c with fbCount := min 3 (c.fbCount + 1), fbHigh := c.fbHigh || decide (2 ≤ c.fbCount) }
    else if mism || !c.fbHigh then { c with fbCount := 0 } else c
  { d with carder := c }

/-! Underruns (R146, R197) -/

/-- The class A tenancies of a layer's ply that the layer overlaps and that have plates. -/
def Dev.layerTenancies (d : Dev) (h : Fin 8) (p : Fin 64) (b : Blk) : List (Fin 16) :=
  (allFin 16).filter fun i =>
    let t := at' (d.head h).tens i
    t.valid && t.classA && t.ply == p.val && (d.plate h i.val).isSome &&
      decide (blkDstX b < t.x1) && decide ((t.x0 : Int) < blkDstX b + blkDstW b) &&
      decide (blkDstY b < t.y1) && decide ((t.y0 : Int) < blkDstY b + blkDstH b)

/-- The count of consecutive underrun frames; at 3 the class A layer's plates are due now (R26, R146, R197). -/
def Dev.countDry (d : Dev) (h : Fin 8) : Dev :=
  let d := d.updHead h fun x => { x with layers := x.layers.map fun l =>
    { l with dry := [], dryRun := if l.dry.isEmpty then 0 else l.dryRun + 1 } }
  ((d.head h).layers.filter fun l => decide (3 ≤ l.dryRun) && d.isClassA l.ply).foldl (fun d l =>
    (d.layerTenancies h l.ply l.block).foldl (fun d i => d.updHead h fun x =>
      { x with plates := upd x.plates i fun p => { p with due := some (1, 4) } }) d) d

/-! Swaps (R138, R193, R194, R197) -/

/-- One layer of a group takes effect on the list of active layers (R193). -/
def applyLayer (p : Fin 64) (ls : List ActiveLayer) (l : GroupLayer) : List ActiveLayer :=
  let old := ls.find? (·.handle == l.handle)
  let rest := ls.filter (·.handle != l.handle)
  if l.disable then rest
  else
    let gran := match l.gran, old with
      | some n, _ => n
      | none, some o => o.gran
      | none, none => 0
    rest ++ [{ handle := l.handle, ply := p, block := l.block, coef := l.coef, gran := gran, cmp := (old.map (·.cmp)).getD 0, hold := false,
               next := old.bind (·.next), fill := Vector.replicate 2 0, dry := [], dryRun := (old.map (·.dryRun)).getD 0 }]

/-- A group takes effect and completes with the new frame number (R193, R195). A plate shown before this boundary ends where the group shows a
layer of its owner inside the tenancy, unless a new cause shows it from this same boundary on (R197). -/
def State.applyGroup (s : State) (h : Fin 8) (g : Group) : State :=
  let tens := (g.layers.filter fun l => !l.disable).flatMap fun l => s.dev.layerTenancies h g.ply l.block
  let s := s.updHead h fun x =>
    { x with layers := g.layers.foldl (applyLayer g.ply) x.layers,
             plates := Vector.ofFn fun i =>
               let q := at' x.plates i
               if tens.contains i && !q.due.any (·.1 ≤ 1) then { q with shown := false } else q }
  s.finishGroup g.ply g.ring (g.layers.map (·.order)) g.order stOk (s.head h).frame

/-- R194: a group over its age completes STALE and its bobbins are freed. -/
def State.dropStale (s : State) (h : Fin 8) : State :=
  let x := s.head h
  let n := x.frame.toNat
  let (old, keep) := x.groups.partition fun g => overAge g.facc g.maxAge n
  let s := s.updHead h fun x => { x with groups := keep }
  let s := s.each old fun s g => s.finishGroup g.ply g.ring (g.layers.map (·.order)) g.order stStale x.frame
  -- groups that are not armed yet, wherever their ring stands
  s.each allPlies fun s p => s.each (allFin 4) fun s r =>
    s.each ((s.ring p r).queue.filter fun f => f.opcode == 0x20 && f.undispatched && f.commitHead == h && overAge f.mark f.commitAge n) fun s f =>
      s.finishGroup p r (((s.ring p r).groupOf f).map (·.order)) f.order stStale x.frame

/-- Armed groups of this boundary take effect in arming order; later ones belong to the next (R136, R193). -/
def State.applyGroups (s : State) (h : Fin 8) : State :=
  let due := (s.head h).groups.filter fun g => !g.late
  let s := s.updHead h fun x => { x with groups := (x.groups.filter (·.late)).map fun g => { g with late := false } }
  s.each due fun s g => s.applyGroup h g

/-- Layers of plies that are not ACTIVE leave (R115). -/
def Dev.dropLayers (d : Dev) (h : Fin 8) : Dev :=
  d.updHead h fun x => { x with layers := x.layers.filter fun l => (d.ply l.ply).state == .active }

/-- Plates that fall due now appear, with FALLBACK_ACTIVE; one that is shown already stays (R197). -/
def State.showPlates (s : State) (h : Fin 8) : State :=
  s.each (allFin 16) fun s i =>
    let q := at' (s.head h).plates i
    match q.due with
    | none => s
    | some (n, cause) =>
      if 1 < n then s.updHead h fun x => { x with plates := upd x.plates i fun q => { q with due := some (n - 1, cause) } }
      else if q.shown then s.updHead h fun x => { x with plates := upd x.plates i fun q => { q with due := none } }
      else
        let s := s.updHead h fun x => { x with plates := upd x.plates i fun q => { q with due := none, shown := true } }
        match fin? 64 (at' (s.head h).tens i).ply with
        | some p => s.postBoth p 0x0400 (h.val * 256 + i.val) (dataBytes [(16, 1, cause), (24, 8, (s.head h).frame.toNat)])
        | none => s

/-- An armed timing set of this boundary takes effect (R139, R140). -/
def State.swapArmed (s : State) (h : Fin 8) : State :=
  match (s.head h).armed with
  | none => s
  | some t =>
    if (s.head h).armLate then s.updHead h fun x => { x with armLate := false }
    else (s.updHead h fun x => { x with armed := none }).swapTiming h t

/-- The heads that run as one carry the frame number, links that have trained resume framing, and the bobbins start to fill (R135, R138, R148, R152). -/
def State.startFrame (s : State) (h : Fin 8) : State :=
  let f := (s.head h).frame
  s.each (s.dev.group h) fun s k => s.updHead k fun x =>
    let ok := x.link == .trained && x.gen == .running
    let x := if x.frame = f then x else x.setFrame f
    { x with since := s.dev.devtime, cutoff := false, trained := ok, steady := ok,
             layers := x.layers.map fun l => { l with fill := Vector.replicate 2 0 },
             sigs := Vector.ofFn fun r => { at' x.sigs r with outside := s.dev.sigOutside k r } }

/-- R146: a layer's bobbin is empty at active line `line` and canvas column `col`. -/
def State.underrun (s : State) (h : Fin 8) (handle line col : Nat) : State :=
  let m := s.dev.master h
  match (s.head m).layers.find? (·.handle == handle) with
  | none => s
  | some l =>
    let k := (s.head m).scanHead m col
    if l.dry.any (·.1 == k) then s
    else
      let s := s.updHead m fun x => { x with layers := x.layers.map fun e =>
        if e.handle = handle then { e with dry := e.dry ++ [(k, line, col / 2 * 2)] } else e }
      let hk : Fin 8 := ⟨k % 8, by omega⟩
      let s := s.updHead hk fun x => { x with underruns := min 0xFFFF (x.underruns + 1), lastLayer := handle }
      s.postHead hk l.ply.val 0x0300 (k * 256 + handle)
        (dataBytes [(16, 8, (s.head m).frame.toNat), (24, 2, line), (26, 2, col / 2 * 2)])

/-- A layer of which nothing could be fetched in the whole frame has underrun from its first pixel on (R46, R146). -/
def State.dryHeld (s : State) (h : Fin 8) : State :=
  let x := s.head h
  s.each (x.layers.filter fun l => l.hold && l.dry.isEmpty) fun s l =>
    match x.layerCols l 0 ++ (if x.paired then x.layerCols l 1 else []) with
    | c :: _ => if (x.layerRows l).1 < (x.layerRows l).2 then s.underrun h l.handle (x.layerRows l).1 c else s
    | [] => s

/-- R138: the boundary of a head or locked pair, in the order of its table. `ending` says that it ends the idle frame of a mode change. -/
def State.boundary (s : State) (h : Fin 8) (ending : Bool) : State :=
  let s := if (s.head h).idle then s else s.dryHeld h
  let s := (s.each (allFin 4) fun s r => s.latchSig h r).tick
  let s := s.onDev fun d => (d.pinsAfter h).countDry h
  let s := s.returnCmp h
  let s := s.each (s.dev.group h) fun s k => s.updHead k fun x => { x with frame := x.frame + 1, idle := false }
  let s := if ending then s.each (s.dev.group h) fun s k => s.updHead k fun x => { x with gen := .running, idle := false } else s
  let s := s.onDev fun d => d.swapRegs fun r i => r.kind == .frame && i == h.val
  let s := s.swapTenancies h false
  let s := (s.dropStale h).applyGroups h
  let s := s.onDev fun d => d.dropLayers h
  let s := s.showPlates h
  let s := (s.swapArmed h).swapFollow h
  let s := s.startFrame h
  if (s.head h).gen = .off then s else s.takeCmp h

/-- FRAME_BOUNDARY (R135, R138, R355): line 0 of a running head, `ref` ns from the frame-lock reference's nearest boundary where that is known. The
odd head of a pair has no boundary of its own. -/
def execFrameBoundary (h : Fin 8) (ref : Option Int) (s : State) : Res := s.clocked fun s =>
  if s.dev.slave h || (s.head h).gen != .running then .next s else .next ((s.boundary h false).checkLock h ref)

/-- IDLE_FRAME_END (R140, R141, R355): one frame time of idle pattern after B' the generator starts at line 0: a frame boundary. `same` says that
the head's HT, VT, N, F and P equal those of the frame-lock reference. -/
def execIdleFrameEnd (h : Fin 8) (same : Bool) (s : State) : Res := s.clocked fun s =>
  let ready := (s.dev.group h).all fun k => (s.head k).relocked && (s.head k).link != .training && (s.head k).link != .waiting
  if s.dev.slave h || (s.head h).gen != .changing || !ready then .next s else .next ((s.lockHead h same).boundary h true)

/-- ARMING_CUTOFF (R136, R138): the set of groups for the next boundary closes. -/
def execArmingCutoff (h : Fin 8) (s : State) : Res := s.clocked fun s =>
  if s.dev.slave h || (s.head h).gen == .off then .next s else .next (s.updHead h fun x => { x with cutoff := true })

/-- A poisoned or failed fetch of a layer (R276, R281): the layer underruns from the scan's present line (log entry 55). -/
def State.underrunNow (s : State) (h : Fin 8) (handle : Fin 64) : State :=
  let m := s.dev.master h
  let x := s.head m
  if x.gen = .running then
    s.underrun m handle.val (x.line s.dev.devtime - (x.timing.vt - x.timing.vact)) (if m = h then 0 else x.timing.hact)
  else s

/-- UNDERRUN (R146, R205). -/
def execUnderrun (h : Fin 8) (handle : Fin 64) (line col : Nat) (s : State) : Res := s.clocked fun s =>
  if (s.head (s.dev.master h)).gen = .running then .next (s.underrun h handle.val line col) else .next s

/-- FBSEL_RELEASE (R154): the manager ends a sticky hold and the count restarts. -/
def execFbselRelease (q : Fin 4) (s : State) : Res := s.clocked fun s =>
  if s.dev.isManager q && !s.dev.pkgW then .next (s.updCarder fun c => { c with fbLatched := false, fbCount := 0 }) else .next s

/-! Colour tables (R168) -/

/-- Whether a layer state selects a degamma table: parsed, pending or active (R168). -/
def Dev.dgBusy (d : Dev) (t : Nat) : Bool :=
  let sel := fun (b : Blk) => blkDegamma b == some t
  d.carder.heads.toList.any (fun x => x.layers.any (fun l => sel l.block) || x.groups.any fun g => g.layers.any fun l => !l.disable && sel l.block) ||
    d.plies.toList.any fun y => y.rings.toList.any fun g => g.queue.any fun f =>
      f.opcode == 0x21 && (f.seen || f.phase != .accepted) && f.phase != .finished && !f.layerDisable && !f.block.isEmpty && sel f.block

/-- Whether the selected table can be written (R168). -/
def Dev.lutWritable (d : Dev) (table bank : Nat) : Bool :=
  if table < 4 then !d.dgBusy table
  else decide (8 ≤ table) && decide (table < 16) &&
    d.active (0x13010 + 4 * (table - 8)) % 2 != bank && d.reg (0x13010 + 4 * (table - 8)) % 2 != bank

/-- The selector's next entry: INDEX increments, wrapping to 0 (R168). -/
def Dev.lutAdvance (d : Dev) : Dev :=
  let v := d.reg 0x13000
  d.setReg 0x13000 (v / 1024 * 1024 + (v + 1) % 1024)

/-- Key of the selected entry: table, bank (0 for degamma), index. -/
def Dev.lutSel (d : Dev) : Nat × Nat × Nat :=
  let v := d.reg 0x13000
  let t := fld v 19 16
  (t, if t < 4 then 0 else bit1 (bit v 12), v % 1024)

/-- Whether the selector names a table of an exposed head or a degamma table (R8, R168). -/
def Dev.lutExists (d : Dev) (t : Nat) : Bool := decide (t < 4) || (decide (8 ≤ t) && decide (t - 8 < d.nHeads))

/-- CMP_LUT_DATA_WRITE (R19, R168). -/
def execCmpLutDataWrite (q : Fin 4) (value : Word) (s : State) : Res := s.clocked fun s =>
  if !s.dev.isManager q then .next s
  else
    let (t, b, i) := s.dev.lutSel
    let s := if s.dev.lutExists t && s.dev.lutWritable t b then
        s.updCarder fun c => { c with luts := Map.ins c.luts ((t * 2 + b) * 1024 + i) (value.toNat % 4096) }
      else s
    .next (s.onDev Dev.lutAdvance)

/-- CMP_LUT_DATA_READ (R168). -/
def execCmpLutDataRead (q : Fin 4) (s : State) : Res := s.clocked fun s =>
  let (t, b, i) := s.dev.lutSel
  let v := if s.dev.lutExists t then s.dev.carder.lut t b i else 0
  .next ((s.onDev Dev.lutAdvance).emit (.regValue q 0x13004 (word v)))

/-! Tenancy sets, signature registers (R181, R182, R203, R204) -/

/-- TEN_APPLY (R181, R182). -/
def execTenApply (order : Nat) (s : State) : Res := s.clocked fun s =>
  match s.command order 0x30 with
  | none => .next s
  | some j =>
    if j.begun then .next s
    else if !j.wellFormed then .next (s.answer j mbBadMessage [])
    else if !s.dev.isManager j.port then .next (s.answer j mbNotPermitted [])
    else
      match fin? 8 (j.arg 0 1) with
      | none => .next (s.answer j mbNoUnit [])
      | some h =>
        let set := j.arg 1 1
        let empty := match s.dev.policy with
          | some pol => (atD (at' pol.heads h).sets set none).isNone
          | none => true
        if !s.dev.headExposed h then .next (s.answer j mbNoUnit [])
        else if s.dev.slave h || decide (3 < set) || (set != 0 && empty) then .next (s.answer j mbBadArg [])
        else if (s.head h).gen = .off then
          let s := s.updHead h fun x => { x with tens := s.dev.tenancySet h set, tenSet := set, tenWait := none }
          .next (s.answer j mbOk (bytesOf 8 (s.head h).frame.toNat))
        else
          let s := match (s.head h).tenWait with
            | some (_, old, _) => s.answerOrder old mbSuperseded (bytesOf 8 0)
            | none => s
          .next ((s.updHead h fun x => { x with tenWait := some (set, j.order, x.cutoff) }).hold j)

/-- SIG_HOLD_CLEAR (R203, R204): only a write from the manager's port clears HOLD. -/
def execSigHoldClear (q : Fin 4) (h : Fin 8) (r : Fin 4) (s : State) : Res := s.clocked fun s =>
  if s.dev.isManager q then .next (s.updHead h fun x => { x with sigs := upd x.sigs r fun g => { g with hold := false } }) else .next s

/-- SIG_RESULT_LO_READ (R204): the low word, with the high word latched until it is read; `hi` is that read. -/
def execSigResultLoRead (q : PairRead) (h : Fin 8) (r : Fin 4) (s : State) : Res := s.clocked fun s =>
  .next (s.readPair q.port (sigBase h r + 0x28) (if s.dev.headExposed h then (at' (s.head h).sigs r).result.toNat else 0) q.hi)

end Sys2Proof.Machine
end

