-- ==== Sys2Proof/Machine/MemErrors.lean ====
section
/-! DEFINITION. Machine/MemErrors.lean: how requesters respond to uncorrectable data, read returns and command parity (R275, R276, R281). -/
namespace Sys2Proof.Machine

/-- What a port's request names (R283, R284): a ply's device address by its translation; for the device a physical address, with slot 64 below SEC_WM
and the owner's slot above. -/
def Dev.memTarget (d : Dev) (ply : Option (Fin 64)) (addr : Nat) (write : Bool) : Xlat :=
  match ply with
  | some p => d.xlat p addr write
  | none =>
    if d.dramTop ≤ addr then .fault
    else if addr < d.ely.secWm * 2 ^ 21 then .ok addr (at' d.ely.keySlot 64)
    else match d.ely.ownerOf (addr / 65536) with
      | some o => .ok addr (atD d.ely.keySlot o 0)
      | none => .fault

/-- Whether the Carder makes a layer fetch (R185, R262): through the port of the head, of an active layer of the ply, from a line that it shows. -/
def Dev.wanted (d : Dev) (port : Fin 16) (ply : Option (Fin 64)) (head : Option (Fin 8 × Fin 64)) (addr : Nat) : Bool :=
  if 4 ≤ port.val then true
  else match head with
    | none => false
    | some (h, l) =>
      let m := d.master h
      port.val == h.val / 2 && (d.head m).layers.any fun e => e.handle == l.val && some e.ply == ply && (d.head m).fetches m e addr

/-- MEM_TRANSFER_ACCEPT (R44, R263, R265, R284): a port offers a transfer of a ply (`ply`, at its device address) or of the device (at a physical
address) for one of its engines. It is accepted when the channel has an entry and the MEM take is granted; otherwise it waits. In deep nap a waiting
request starts the exit, and no port accepts a transfer until that is complete (R273). A layer fetch that the Carder does not make is no request (R185). A
translation fault faults the ply. A reserved request aborts
a retraining slice (R62); an accepted request ends light nap (R272). -/
def execMemTransferAccept (client : MemClient) (ply : Option (Fin 64)) (addr : Nat) (write : Option (Nat × List Byte))
    (head : Option (Fin 8 × Fin 64)) (s : State) : Res := s.clocked fun s =>
  if !s.dev.mc.trained || !client.eng.ports.contains client.port.val || !s.dev.wanted client.port ply head addr then .next s
  else if s.dev.mc.deep then .next (s.onDev Dev.leaveDeep)
  else
    match s.dev.memTarget ply addr write.isSome with
    | .fault => match ply with
      | some p => .next (s.faultPly p addr write.isSome client.eng false)
      | none => .next s
    | .ok phys key =>
      let h := match ply with | some p => plyHolder p | none => devHolder
      let unit := phys / 64 * 64
      let write := write.map fun w => (w.1 % 64, w.2.take (64 - w.1 % 64))
      let cost := match write with
        | some (_, bs) => if bs.length = 64 then 1 else 2
        | none => 1
      match s.takeMem h cost [(unit, 1)] with
      | none => .next s
      | some s' =>
        let reserved := match ply with
          | some p => (s.dev.ply p).cls == .a && at' s.skein.resvLive p &&
              decide (at' (s'.skein.acct .mem).hold h ≤ at' (s'.skein.acct .mem).guar h)
          | none => false
        let ch := chanOf s.dev.pkgW unit
        if !(s.dev.mc.chan ch).hasRoom reserved then .next s
        else
          let r : McReq := { id := s.dev.mc.nextId, port := client.port, eng := client.eng, ply := ply, addr := unit, key := key, write := write, reserved := reserved,
                             head := head, promoted := false, accepted := s.dev.devtime, data := [] }
          let s' := s'.updChan ch fun c => { c with queue := s.dev.promote (c.queue ++ [r]), slice := if reserved then false else c.slice }
          .next (s'.updMc fun m => { m with nextId := m.nextId + 1 })

/-- How the requester of a poisoned read responds (R281): a Carder fetch's layer underruns from `pixel`, or from the scan's present line where none
is named; another engine of a ply faults it; the device holder follows R318. -/
def State.poisoned (s : State) (r : McReq) (u : DeviceUnit) (pixel : Option (Nat × Nat)) : State :=
  match r.ply with
  | some p =>
    match r.head with
    | some (h, l) => match pixel with
      | some (line, col) => s.underrun (s.dev.master h) l.val line col
      | none => s.underrunNow h l
    | none => s.faultPly p r.addr false r.eng false
  | none => s.deviceUncorrectable r.addr u

/-- MEM_READ_RETURN (R281, R285): an issued read returns through the ECC decoder; corrected and uncorrectable errors are counted and reported, and
the requester responds. -/
def execMemReadReturn (ch : Fin 16) (id : Nat) (errs : List (Nat × Byte)) (unit : DeviceUnit) (line col : Nat) (s : State) : Res := s.clocked fun s =>
  match (s.dev.mc.chan ch).issued.find? (·.id == id) with
  | none => .next s
  | some r =>
    let s := s.updChan ch fun c => { c with issued := c.issued.filter (·.id != id) }
    let out := s.dev.decodeEcc r.addr errs
    let s := s.eccFound out r.addr r.port.val r.ply
    .next (if out = .uncorrectable then s.poisoned r unit (some (line, col)) else s)

/-- Queued requests of a subchannel end as uncorrectable (R276, R281). -/
def State.failQueue (s : State) (ch : Fin 16) : State :=
  let rs := (s.dev.mc.chan ch).queue ++ (s.dev.mc.chan ch).issued
  let s := s.updChan ch fun c => { c with queue := [], issued := [] }
  s.each rs fun s r => (s.eccReport .uncorrectable r.addr r.port.val r.ply).poisoned r .other none

/-- CA_PARITY_ALERT (R275, R276): issue stops until ALERT_n is released. A second alert before the first replayed command is known good is a
fault: every queued request ends as uncorrectable and the subchannel trains itself again. -/
def execCaParityAlert (ch : Fin 16) (s : State) : Res := s.clocked fun s =>
  let c := s.dev.mc.chan ch
  if !s.dev.pkgW || decide (8 ≤ ch.val) || c.training || c.alert then .next s
  else if !c.replaying then .next (s.updChan ch fun c => { c with alert := true })
  else
    let s := s.updChan ch fun c => { c with training := true, alert := false, replaying := false, retry := [], slice := false, light := false }
    let s := s.updMc fun m => { m with faults := min 0xFFFF (m.faults + 1) }
    let s := (s.postManager 0x40 0x0700 ch.val []).cocoon 0x0700 sevCritical 0x40 (bytesOf 2 ch.val)
    .next (s.failQueue ch)

end Sys2Proof.Machine
end

