-- ==== Sys2Proof/Machine/Plies.lean ====
section
/-! DEFINITION. Machine/Plies.lean: creating, sharing, quiescing, resetting, destroying and moving plies (R106-R130, R482). -/
namespace Sys2Proof.Machine

/-! Admission (R53-R57) -/

/-- The accounts that a ply's share of kind code `k` lies in: HTAG in its port's pool (R42). -/
def shareKind (k : Nat) (q : Fin 4) : Option Kind :=
  match k with
  | 0 => some .mem | 1 => some .gfx | 2 => some .cmp | 3 => some .bin | 4 => some .ring | 5 => some (.htag q) | _ => none

/-- Standing reservation of a class A ply in a kind: 4 HTAG, 24 RING (R55). -/
def standing (kd : Kind) : Nat :=
  match kd with
  | .htag _ => 4 | .ring => 24 | _ => 0

/-- A ply's pending shares of a kind entered, with the standing reservation of a class A ply where `classA` (R50, R55). -/
def Skein.enter (k : Skein) (kd : Kind) (p : Fin 64) (g c : Nat) (classA : Bool) : Skein :=
  let a := (k.acct kd).setPending (plyHolder p) g c
  let st := if classA then standing kd else 0
  k.setAcct kd (a.setPending (standHolder p) st st)

/-- R54: the pending guarantees of a kind stay within its guaranteeable amount. -/
def Skein.fits (k : Skein) (kd : Kind) : Bool :=
  let a := k.acct kd
  decide (a.pguarSum ≤ guaranteeable kd.idx a.total)

/-- Sum of a kind's pending guarantees over the class A plies that exist, the standing reservations left out (R55, R56). -/
def State.classASum (s : State) (kd : Kind) : Nat :=
  ((allPlies.filter s.dev.isClassA).map fun p => at' (s.skein.acct kd).pguar (plyHolder p)).sum

/-- R56: the credit caps of class A: an eighth of MEM, 2,000 GFX. -/
def State.creditCapsOk (s : State) : Bool :=
  decide (s.classASum .mem ≤ (s.skein.acct .mem).total / 8) && decide (s.classASum .gfx ≤ 2000)

/-- R56: the counts that the policy fixes for class A plies: 2 layer slots of each head, 1 class A panel, 8 chime voices. -/
def Dev.countCapsOk (d : Dev) : Bool :=
  let as := allPlies.filter d.isClassA
  let sum : (PlyPolicy → Nat) → Nat := fun f => (as.map fun p => f (d.entry p)).sum
  let slots : Fin 8 → Nat := fun h => match d.policy with
    | some pol => sum fun e => ((at' pol.heads h).slots.filter e.handles.contains).length
    | none => 0
  (allFin 8).all (fun h => decide (slots h ≤ 2)) && decide (sum (·.aPanels) ≤ 1) && decide (sum (·.voices) ≤ 8)

/-! Host buffers of commands (R42, R44, R295) -/

/-- A command's buffer of `n` bytes in its port's host memory: Elytra reads it through the port, without a PASID, on the device's HTAG credits. The
first command of the row starts the read; one that finds every request of it out takes the bytes. A buffer that cannot be read, and one cut off by a
link-down, is refused with BAD_ARG (log entry 117). An empty buffer is not read. -/
def State.fetchBuffer {α : Type} (s : State) (j : Journal) (addr n : Nat) (data : Option α) (empty : α) (act : State → α → State) : State :=
  let what := ReadFor.buffer j.order
  if n = 0 then act s empty
  else if !j.begun then (s.hold j).startRead j.port none what [(addr, n)]
  else if !s.dev.readBusy what then s.answer j mbBadArg []
  else if !s.dev.readOut what then s
  else match data with
    | none => (s.endReads what).answer j mbBadArg []
    | some x => act (s.endReads what) x

/-! Argument helpers -/

/-- The ply an argument names. -/
def Journal.ply (j : Journal) (off : Nat) : Option (Fin 64) := fin? 64 (j.arg off 1)

/-- Whether another ply holds a (port, PASID) pair (R107). An orphaned ply keeps its pair until its reset or destruction (log entry 35). -/
def Dev.pairInUse (d : Dev) (p : Fin 64) (q : Fin 4) (pasid : Nat) : Bool :=
  allPlies.any fun o => o != p && (d.ply o).state != .absent && (d.ply o).port == q && (d.ply o).pasid == pasid

/-- A key slot loaded with a fresh key from the TRNG (R123, R308). -/
def Ely.freshKey (e : Ely) (slot : Nat) : Ely :=
  if h : slot < 65 then { e with keySlot := e.keySlot.set slot e.nextKey h, nextKey := e.nextKey + 1 } else e

/-- A key slot erased (R124). -/
def Ely.eraseKey (e : Ely) (slot : Nat) : Ely :=
  if h : slot < 65 then { e with keySlot := e.keySlot.set slot 0 h } else e

/-- A class A ply's reserved chime voices: the lowest free ones of 0-14 when it is created, returned when it is destroyed (R377). -/
def Audio.reserve (a : Audio) (p : Fin 64) (n : Nat) : Audio :=
  let free := (allFin 15).filter fun v => (at' a.owner v).isNone
  { a with owner := (free.take n).foldl (fun o v => put o v (some p)) a.owner }
@[inherit_doc Audio.reserve] def Audio.release (a : Audio) (p : Fin 64) : Audio :=
  { a with owner := a.owner.map fun o => if o = some p then none else o }

/-- GUAR and CAP of kind k in a 64-byte share block (R298). -/
def shareBlock (bs : List Byte) (k : Nat) : Nat × Nat := (le32 bs (8 * k), le32 bs (8 * k + 4))

/-- R45, R106, R482 step 4: whether a kind's GUAR and CAP are in range: none for INR and HAP, GUAR within CAP, GFX in steps of 500. -/
def shareArgOk (k g c : Nat) : Bool :=
  if 6 ≤ k then g == 0 && c == 0 else decide (g ≤ c) && (k != 1 || (g % 500 == 0 && c % 500 == 0))

/-! Commands -/

/-- A class A ply that becomes ACTIVE ends deep nap (R274). -/
def State.wakeFor (s : State) (p : Fin 64) : State :=
  if (s.ply p).cls == .a && (s.ply p).state == .active then s.onDev Dev.leaveDeep else s

/-- PLY_CREATE (R107, R110, R111, R274, R482): `block` is the share block read from the manager's host memory; none where it cannot be read. -/
def execPlyCreate (order : Nat) (block : Option (List Byte)) (s : State) : Res := s.clocked fun s =>
  s.managed order 0x20 fun j =>
    let flags := j.arg 2 1
    let pasid := j.arg 4 4
    match j.ply 0, fin? 4 (j.arg 1 1) with
    | some p, some q =>
      if flags / 2 ≠ 0 ∨ pasid = 0 ∨ 0xFFFFF < pasid then s.answer j mbBadArg []
      else s.fetchBuffer j (j.arg 8 8) 64 block [] fun s bs =>
      let e := s.dev.entry p
      let shares := (List.range 8).map (shareBlock (fitBytes 64 bs))
      if !(shares.zipIdx.all fun x => shareArgOk x.2 x.1.1 x.1.2) then s.answer j mbBadArg []
      else match e.cls with
        | none => s.answer j mbNotPermitted []
        | some cls =>
          if !(e.ports.contains q.val) ||
              !((shares.take 6).zipIdx.all fun x => decide (x.1.1 ≤ atD e.guarMax x.2 0) && decide (x.1.2 ≤ atD e.capMax x.2 0)) then
            s.answer j mbNotPermitted []
          else if (s.ply p).state ≠ .absent then s.answer j mbExists []
          else if !(s.port q).pasidEn || (s.port q).down then s.answer j mbPortNoPasid []
          else if s.dev.pairInUse p q pasid then s.answer j mbPasidInUse []
          else
            let classA := cls == .a
            let kinds := (shares.take 6).zipIdx.filterMap fun x => (shareKind x.2 q).map fun kd => (kd, x.1)
            let k' := kinds.foldl (fun k x => k.enter x.1 p x.2.1 x.2.2 classA) s.skein
            let s' := { s with skein := k' }.updPly p fun _ =>
              { Ply.absent with cls := cls, state := if bit flags 0 then .quiesced else .active,
                                cause := if bit flags 0 then .manager else .none, port := q, pasid := pasid }
            if !(kinds.all fun x => k'.fits x.1) then s.answer j mbAdmitSpace []
            else if classA && !(s'.creditCapsOk && s'.dev.countCapsOk) then s.answer j mbAdmitCap []
            else
              -- R55: until the next epoch boundary the ply's CAP is 0 in every kind.
              let s' := s'.onSkein fun k => allKinds.foldl (fun k kd =>
                let a := k.acct kd
                k.setAcct kd { a with cap := put (put a.cap (plyHolder p) 0) (standHolder p) 0 }) k
              let s' := s'.onDev fun d =>
                { d with ely := d.ely.freshKey p.val, audio := if classA then d.audio.reserve p e.voices else d.audio }
              (s'.wakeFor p).answer j mbOk []
    | _, _ => s.answer j mbBadArg []

/-- What was pending for a ply's share of a kind code before a PLY_SHARE of this epoch changed it (R113). -/
def Ply.basePending (y : Ply) (k : Nat) (a : Account) (p : Fin 64) : Nat × Nat :=
  match y.shareBase.find? (·.1 == k) with
  | some x => x.2
  | none => (at' a.pguar (plyHolder p), at' a.pcap (plyHolder p))

/-- PLY_SHARE (R113, R482): one kind's GUAR and CAP into the pending table. Only a rise is tested against the policy limits and R54-R57; what an earlier
PLY_SHARE of the epoch left pending is withdrawn first. -/
def execPlyShare (order : Nat) (s : State) : Res := s.clocked fun s =>
  s.managed order 0x21 fun j =>
    let k := j.arg 1 1
    let g := j.arg 4 4
    let c := j.arg 8 4
    match j.ply 0 with
    | none => s.answer j mbBadArg []
    | some p =>
      if 8 ≤ k ∨ !shareArgOk k g c then s.answer j mbBadArg []
      else
        let e := s.dev.entry p
        let y := s.ply p
        match shareKind k y.port with
        | none => if y.state = .absent then s.answer j mbNoPly [] else s.answer j mbOk []
        | some kd =>
          let a := s.skein.acct kd
          let base := y.basePending k a p
          let upG := decide (base.1 < g)
          let upC := decide (base.2 < c)
          if (upG && decide (atD e.guarMax k 0 < g)) || (upC && decide (atD e.capMax k 0 < c)) then s.answer j mbNotPermitted []
          else if y.state = .absent then s.answer j mbNoPly []
          else
            let s' := s.onSkein fun q => q.setAcct kd (a.setPending (plyHolder p) g c)
            if upG && !s'.skein.fits kd then s.answer j mbAdmitSpace []
            else if upG && y.cls == .a && !s'.creditCapsOk then s.answer j mbAdmitCap []
            else (s'.updPly p fun y =>
              { y with shareDue := true, shareBase := (k, base) :: y.shareBase.filter (·.1 != k) }).answer j mbOk []

/-- PLY_QUIESCE (R110, R114): OK at once; an ACTIVE ply starts to drain. -/
def execPlyQuiesce (order : Nat) (s : State) : Res := s.clocked fun s =>
  s.managed order 0x22 fun j =>
    match j.ply 0 with
    | none => s.answer j mbBadArg []
    | some p => if (s.ply p).state = .absent then s.answer j mbNoPly [] else (s.quiesce p).answer j mbOk []

/-- R119: every enabled ring is read as though nudged. -/
def State.readRings (s : State) (p : Fin 64) : State :=
  let s := s.each ((allFin 4).filter fun r => let g := s.ring p r; g.runs && !g.poll) fun s r => s.startPass p r
  s.wantPoll p

/-- PLY_RESUME (R110, R119, R274): a QUIESCED ply becomes ACTIVE unless its binding is lost. -/
def execPlyResume (order : Nat) (s : State) : Res := s.clocked fun s =>
  s.managed order 0x23 fun j =>
    match j.ply 0 with
    | none => s.answer j mbBadArg []
    | some p =>
      match (s.ply p).state with
      | .absent => s.answer j mbNoPly []
      | .quiesced =>
        if (s.ply p).cause = .orphan then s.answer j mbUnbound []
        else (((s.updPly p fun y => { y with state := .active, cause := .none, hostDead := false }).wakeFor p).readRings p).answer j mbOk []
      | _ => s.answer j mbBadState []

/-- A ply's content at creation: what PLY_RESET leaves (R123). Class, binding, logging and migration stay. -/
def Ply.refreshed (y : Ply) (q : Fin 4) (pasid : Nat) : Ply :=
  { Ply.absent with cls := y.cls, state := .active, port := q, pasid := pasid, shareDue := y.shareDue,
                    shareBase := if q = y.port then y.shareBase else y.shareBase.filter (·.1 != 5), log := y.log, mig := y.mig }

/-- PLY_RESET (R110, R123, R274, R482). -/
def execPlyReset (order : Nat) (s : State) : Res := s.clocked fun s =>
  s.managed order 0x24 fun j =>
    let rebind := bit (j.arg 1 1) 0
    let pasid := j.arg 4 4
    match j.ply 0, fin? 4 (j.arg 2 1) with
    | none, _ => s.answer j mbBadArg []
    | some p, q' =>
      let y := s.ply p
      if j.arg 1 1 / 2 ≠ 0 ∨ (rebind ∧ (q'.isNone ∨ pasid = 0 ∨ 0xFFFFF < pasid)) then s.answer j mbBadArg []
      else
        let q := if rebind then q'.getD y.port else y.port
        let pasid := if rebind then pasid else y.pasid
        if rebind && !((s.dev.entry p).ports.contains q.val) then s.answer j mbNotPermitted []
        else if y.state = .absent then s.answer j mbNoPly []
        else if y.state ≠ .quiesced then s.answer j mbNotQuiesced []
        else if !rebind && y.cause == .orphan then s.answer j mbUnbound []
        else if rebind && (!(s.port q).pasidEn || (s.port q).down) then s.answer j mbPortNoPasid []
        else if rebind && s.dev.pairInUse p q pasid then s.answer j mbPasidInUse []
        else
          let a := s.skein.acct (.htag y.port)
          let move := fun (k : Skein) =>
            if q = y.port then k
            else
              let k := k.enter (.htag q) p (at' a.pguar (plyHolder p)) (at' a.pcap (plyHolder p)) (y.cls == .a)
              k.enter (.htag y.port) p 0 0 false
          let s' := s.onSkein move
          if q ≠ y.port ∧ !s'.skein.fits (.htag q) then s.answer j mbAdmitSpace []
          else
            let s' := s'.updPly p fun y => y.refreshed q pasid
            ((s'.onDev fun d => { d.resetSensing p with ely := d.ely.freshKey p.val }).wakeFor p).answer j mbOk []

/-- Granules that a ply owns, directly or as the owner of a lend entry (R303, R306). -/
def Ely.owned (e : Ely) (p : Nat) : List Nat :=
  ((e.owner.filter fun x => x.2 == p || (x.2 == 0xFE && e.ownerOf x.1 == some p)).map (·.1))

/-- A borrower leaves every lend entry; a granule without borrowers returns to its owner's number and its entry is freed (R124, R307). -/
def Ely.dropBorrower (e : Ely) (p : Nat) (only : Nat → Bool) : Ely :=
  let lend := e.lend.map fun x => if only x.1 then (x.1, { x.2 with borrowers := x.2.borrowers.filter fun b => b.ply != p }) else x
  let freed := lend.filter fun x => x.2.borrowers.isEmpty
  { e with lend := lend.filter fun x => !x.2.borrowers.isEmpty,
           owner := freed.foldl (fun o x => Map.ins o x.1 x.2.owner) e.owner }

/-- PLY_DESTROY (R110, R124): key, tables, borrowings and memory go; the granules are scrubbed by Elytra. -/
def execPlyDestroy (order : Nat) (s : State) : Res := s.clocked fun s =>
  s.managed order 0x25 fun j =>
    match j.ply 0 with
    | none => s.answer j mbBadArg []
    | some p =>
      match (s.ply p).state with
      | .absent => s.answer j mbNoPly []
      | .quiesced =>
        if s.dev.ely.lend.any fun x => x.2.owner == p.val then s.answer j mbStillLent []
        else
          let s := s.onDev fun d =>
            let d := d.resetSensing p
            let e := (d.ely.eraseKey p.val).dropBorrower p.val fun _ => true
            let mine := e.owned p.val
            { d with ely := { e with owner := mine.foldl (fun o g => Map.ins o g 0xFC) e.owner },
                     plies := put d.plies p Ply.absent, audio := d.audio.release p }
          (s.onSkein fun k => allKinds.foldl (fun k kd => k.enter kd p 0 0 false) k).answer j mbOk []
      | _ => s.answer j mbNotQuiesced []

/-- STATE code of PLY_INFO and PLY_QUERY (R72, R298). -/
def PlyState.code : PlyState → Nat
  | .absent => 0 | .active => 1 | .draining => 2 | .quiesced => 3 | .faulted => 4 | .orphaned => 5
/-- CLASS code (R72). -/
def PlyClass.code : PlyClass → Nat
  | .a => 1 | .b => 2 | .c => 3
/-- Cause code of PLY_QUERY (R298). -/
def Cause.code : Cause → Nat
  | .none => 0 | .manager => 1 | .fault => 2 | .orphan => 3

/-- Bit k set while kind k has any credit held by the ply (R298). -/
def Skein.heldMask (k : Skein) (p : Fin 64) : Nat :=
  let any := fun (ks : List Kind) => bit1 (ks.any fun kd => k.plyHeld kd p != 0)
  any [.mem] + 2 * any [.gfx] + 4 * any [.cmp] + 8 * any [.bin] + 16 * any [.ring] +
    32 * any [.htag 0, .htag 1, .htag 2, .htag 3] + 64 * any [.inr] + 128 * any [.hap]

/-- PLY_QUERY (R111, R298). -/
def execPlyQuery (order : Nat) (s : State) : Res := s.clocked fun s =>
  s.managed order 0x26 fun j =>
    match j.ply 0 with
    | none => s.answer j mbBadArg []
    | some p =>
      let y := s.ply p
      if y.state = .absent then s.answer j mbOk (List.replicate 13 0)
      else
        s.answer j mbOk (bytesOf 1 y.state.code ++ bytesOf 1 (if y.state = .quiesced then y.cause.code else 0) ++ bytesOf 1 y.cls.code ++
          bytesOf 1 (bit1 (at' s.skein.resvLive p)) ++ bytesOf 1 y.port.val ++ [0, 0, 0] ++ bytesOf 4 y.pasid ++
          bytesOf 1 (s.skein.heldMask p))

/-- PLY_QUIESCED (R110, R116, R117): zero holdings in every kind, and Elytra runs. DISCARDED entries still unwritten are dropped and counted. -/
def execPlyQuiesced (p : Fin 64) (s : State) : Res := s.clocked fun s =>
  let y := s.ply p
  let drained := match y.state with
    | .draining | .faulted | .orphaned => true
    | _ => false
  if drained && s.skein.plyZero p && s.dev.ely.state == .running then
    let isEntry := fun w => match w with | CqWait.entry _ _ => true | _ => false
    let lost := (y.cq.waiters.filter isEntry).length
    let s := s.updPly p fun y =>
      { y with state := .quiesced, evtLost := min 0xFFFFFFFF (y.evtLost + lost),
               cq := { y.cq with waiters := y.cq.waiters.filter fun w => !isEntry w } }
    .next (s.postBoth p 0x0101 0 [])
  else .next s

/-! Migration (R125-R130) -/

/-- One window of a MIG_LOG block (R298). -/
def windowAt (bs : List Byte) (i : Nat) : LogWindow :=
  { base := le64 bs (32 * i), pages := le32 bs (32 * i + 8), mapA := le64 bs (32 * i + 16), mapB := le64 bs (32 * i + 24) }

/-- R125: a window is page aligned and holds 1 to 2^28 pages. -/
def LogWindow.ok (w : LogWindow) : Bool := w.base % 4096 == 0 && decide (1 ≤ w.pages) && decide (w.pages ≤ 2 ^ 28)

/-- A migration command on an existing ply (R111, R482): its arguments are tested before the ply's state. -/
def State.migrating (s : State) (order code : Nat) (argOk : Journal → Bool) (act : Journal → Fin 64 → State) : Res :=
  s.managed order code fun j =>
    match j.ply 0 with
    | none => s.answer j mbBadArg []
    | some p => if !argOk j then s.answer j mbBadArg [] else if (s.ply p).state = .absent then s.answer j mbNoPly [] else act j p

/-- MIG_LOG_START (R125): `block` is the window block. An operation code other than START, SWAP and STOP is answered here too. A START while logging runs
replaces the log, and the lines that its cache held are dropped unwritten (DESIGN CHOICE, log entry 118: R125 does not name the case). -/
def execMigLogStart (order : Nat) (block : Option (List Byte)) (s : State) : Res := s.clocked fun s =>
  match s.command order 0x29 with
  | some j => if j.arg 1 1 = 1 ∨ j.arg 1 1 = 2 then .next s else
    s.managed order 0x29 fun j =>
      let n := j.arg 2 1
      if j.arg 1 1 ≠ 0 ∨ n = 0 ∨ 4 < n ∨ (j.ply 0).isNone then s.answer j mbBadArg []
      else s.fetchBuffer j (j.arg 8 8) (32 * n) block [] fun s bs =>
        let ws := (List.range n).map (windowAt (fitBytes (32 * n) bs))
        match j.ply 0 with
        | none => s.answer j mbBadArg []
        | some p =>
          if !(ws.all (·.ok)) then s.answer j mbBadArg []
          else if (s.ply p).state = .absent then s.answer j mbNoPly []
          else (s.updPly p fun y => { y with log := { DirtyLog.off with on := true, windows := ws } }).answer j mbOk []
  | none => .next s

/-- Every cached bitmap line is written back to the manager's host memory (R126). -/
def State.flushLog (s : State) (p : Fin 64) (q : Fin 4) : State :=
  let l := (s.ply p).log
  let s := s.onDev fun d => l.cached.foldl (fun d a => d.postWrite q a (Map.get l.lines [] a)) d
  s.updPly p fun y => { y with log := { y.log with cached := [] } }

/-- MIG_LOG_SWAP (R126). While logging is off it answers BAD_STATE (DESIGN CHOICE, log entry 118). -/
def execMigLogSwap (order : Nat) (s : State) : Res := s.clocked fun s =>
  match s.command order 0x29 with
  | some j => if j.arg 1 1 ≠ 1 then .next s else
    s.migrating order 0x29 (fun _ => true) fun j p =>
      if !(s.ply p).log.on then s.answer j mbBadState []
      else
        let out := bit1 (s.ply p).log.outside
        let s := s.flushLog p j.port
        (s.updPly p fun y => { y with log := { y.log with useB := !y.log.useB, outside := false, lines := [] } }).answer j mbOk (bytesOf 1 out)
  | none => .next s

/-- MIG_LOG_STOP (R126). While logging is off it answers BAD_STATE (DESIGN CHOICE, log entry 118). -/
def execMigLogStop (order : Nat) (s : State) : Res := s.clocked fun s =>
  match s.command order 0x29 with
  | some j => if j.arg 1 1 ≠ 2 then .next s else
    s.migrating order 0x29 (fun _ => true) fun j p =>
      if !(s.ply p).log.on then s.answer j mbBadState []
      else ((s.flushLog p j.port).updPly p fun y => { y with log := DirtyLog.off }).answer j mbOk []
  | none => .next s

/-- The session that a MIG_SESSION step belongs to: a source's step without an input message, a destination's step whose message opens SPDM
(GET_VERSION), and a step in another role than before start a new one, with SEQ from 1 (R128, R129; log entry 118). -/
def Migration.session (m : Migration) (role len : Nat) (input : List Byte) : Migration :=
  if m.role ≠ role + 1 ∨ (role = 0 ∧ len = 0) ∨ (role = 1 ∧ byteAt input 1 = 0x84) then { Migration.none with role := role + 1 } else m

/-- MIG_SESSION (R129): one relayed SPDM step, with the peer's message and the message that Elytra writes for the peer; `measures` are the
destination's measurements where this step reveals them, `agreed` whether the step agrees the migration key (log entry 31). The source goes on only with
measurements that its policy lists, and agrees a key only once they have been seen. A reply longer than the output buffer is answered BAD_ARG (DESIGN
CHOICE, log entry 118). -/
def execMigSession (order : Nat) (relay : Relay) (measures : Option (List (List Byte))) (agreed : Bool) (s : State) : Res := s.clocked fun s =>
  s.migrating order 0x28 (fun j => decide (j.arg 1 1 ≤ 1)) fun j p =>
    s.fetchBuffer j (j.arg 8 8) (j.arg 16 4) relay.input [] fun s msg =>
    let role := j.arg 1 1
    let m := (s.ply p).mig.session role (j.arg 16 4) msg
    let listed := match measures, s.dev.policy with
      | some ms, some pol => pol.migOk.contains ms
      | _, _ => false
    let attested := m.attested || listed
    if j.arg 28 4 < relay.reply.length then s.answer j mbBadArg []
    else if role = 0 ∧ ((measures.isSome ∧ !listed) ∨ (agreed ∧ !attested)) then s.answer j mbNotAttested []
    else
      let key := s.dev.ely.nextKey
      let s := s.onDev fun d => d.postWrite j.port (j.arg 20 8) relay.reply
      let s := if agreed then s.onDev fun d => { d with ely := { d.ely with nextKey := key + 1 } } else s
      let s := s.updPly p fun y =>
        { y with mig := { m with agreed := m.agreed || agreed, attested := attested, key := if agreed then key else m.key } }
      s.answer j mbOk (bytesOf 4 relay.reply.length ++ bytesOf 1 (bit1 agreed))

/-! Export (R127, R128) -/

/-- A migration record header (R128). -/
def migHeader (type round seq addr len : Nat) : List Byte :=
  bytesOf 2 type ++ bytesOf 2 round ++ bytesOf 8 seq ++ bytesOf 8 addr ++ bytesOf 4 len ++ List.replicate 8 0

/-- A record: the header, the body encrypted with AES-256-GCM under the session's key with the header as additional data, and the tag (R128). The nonce
is 4 bytes that the manual leaves open and SEQ (DESIGN CHOICE, log entry 118: the manual names none). -/
def migRecord (key salt type round seq addr : Nat) (body : List Byte) : List Byte :=
  let h := migHeader type round seq addr body.length
  let (ct, tag) := gcmSeal ((List.range 32).map (Config.slotKey key)) (bytesOf 4 salt ++ bytesOf 8 seq) h body
  h ++ ct ++ tag

/-- The ply device address that a granule is mapped at; where it is not mapped, a value the manual leaves open (log entry 3). -/
def Ply.addrOf (y : Ply) (gran fresh : Nat) : Nat :=
  match y.tables.find? fun e => e.2.page == gran with
  | some e => e.1 * 65536
  | none => (Config.freeWord fresh).toNat * 65536

/-- What a ply state record holds of a ring. -/
def SubRing.record (g : SubRing) : RingRecord :=
  { enable := g.enable, log2Depth := g.log2Depth, poll := g.poll, vec := g.vec, vecEn := g.vecEn, base := g.base, index := g.cons }
@[inherit_doc SubRing.record] def CplRing.record (c : CplRing) : RingRecord :=
  { enable := c.enable, log2Depth := c.log2Depth, poll := false, vec := 0, vecEn := false, base := c.base, index := c.prod }

/-- The ply state record (R127): fences, page registers, ring indices, the tables with the SEQ of each granule's latest record in place of its number,
the policy slot, the shares. -/
def State.plyRecord (s : State) (p : Fin 64) (seq : Nat) : MigRecord :=
  let y := s.ply p
  .plyState true seq y.fences y.pollUs y.dbrBase y.evtVec y.fenceSel (y.rings.map (·.record)) y.cq.record
    (y.tables.filterMap fun t => (Map.find y.mig.sent t.2.page).map fun n => (t.1, n, t.2.read, t.2.write)) p.val
    (Vector.ofFn fun k => match shareKind k.val y.port with
      | some kd => (at' (s.skein.acct kd).pguar (plyHolder p), at' (s.skein.acct kd).pcap (plyHolder p))
      | none => (0, 0))

/-- Bytes of a ring's record. -/
def RingRecord.bytes (r : RingRecord) : List Byte :=
  bytesOf 1 (bit1 r.enable + 2 * bit1 r.poll + 4 * bit1 r.vecEn) ++ bytesOf 1 r.log2Depth ++ bytesOf 2 r.vec ++ bytesOf 8 r.base.toNat ++ bytesOf 4 r.index.toNat

/-- The body of a record. The manual gives the state record's contents and not their order (DESIGN CHOICE, log entry 118). -/
def MigRecord.body : MigRecord → List Byte
  | .granule _ _ _ data => fitBytes 65536 data
  | .plyState _ _ fences pollUs dbr evt sel rings cq tables slot shares =>
    bytesOf 2 fences.length ++ fences.flatMap (fun f => bytesOf 2 f.1 ++ bytesOf 8 f.2.toNat) ++ bytesOf 4 pollUs ++ bytesOf 8 dbr.toNat ++
      bytesOf 8 evt.toNat ++ bytesOf 2 sel ++ rings.toList.flatMap (·.bytes) ++ cq.bytes ++ bytesOf 4 tables.length ++
      tables.flatMap (fun t => bytesOf 4 t.1 ++ bytesOf 8 t.2.1 ++ bytesOf 1 (bit1 t.2.2.1 + 2 * bit1 t.2.2.2)) ++ bytesOf 1 slot ++
      shares.toList.flatMap fun x => bytesOf 4 x.1 ++ bytesOf 4 x.2

/-- An uncorrectable unit of a granule that Elytra reads for a ply is reported and faults it (R281). -/
def State.granuleErrors (s : State) (p : Fin 64) (g : Nat) : State :=
  match s.dev.mc.bad.find? fun u => u / 1024 == g with
  | some u => (s.eccReport .uncorrectable (u * 64) Engine.ely.port (some p)).faultPly p (u * 64) false .ely false
  | none => s

/-- Granule records written into the buffer, each charged to the migrating ply (R43, R127, R128). A granule's dirty mark is cleared as it is read. Stops
at the buffer's end, or where MEM credits are refused: true then. -/
def State.exportGranules (s : State) (p : Fin 64) (q : Fin 4) (salt round addr : Nat) : Nat → Nat → State × Nat × Bool
  | 0, n => (s, n, false)
  | room + 1, n =>
    match (s.ply p).mig.todo with
    | [] => (s, n, false)
    | g :: rest =>
      match s.takeMem (plyHolder p) 1024 [(g * 65536, 65536)] with
      | none => (s, n, true)
      | some s =>
        let seq := (s.ply p).mig.seq + 1
        let fresh := s.dev.fresh
        let key := atD s.dev.ely.keySlot p.val 0
        let data := (List.range 65536).map fun i => s.readByte key (g * 65536 + i)
        let rec' := migRecord (s.ply p).mig.key salt 1 round seq ((s.ply p).addrOf g fresh) data
        let s := (s.granuleErrors p g).onDev fun d => { d.postWrite q (addr + n * 65584) rec' with fresh := d.fresh + 1 }
        let s := s.updPly p fun y =>
          { y with mig := { y.mig with todo := rest, dirty := y.mig.dirty.filter (· != g), seq := seq, sent := Map.ins y.mig.sent g seq } }
        s.exportGranules p q salt round addr room (n + 1)

/-- A round of the export starts (R127): round 0 takes every granule that the ply owns and begins tracking, a later one those written since. -/
def State.startRound (s : State) (p : Fin 64) (round : Nat) : State :=
  let m := (s.ply p).mig
  if round ≠ m.round ∨ (round = 0 ∧ !m.tracking) then s.updPly p fun y =>
    { y with mig := { y.mig with round := round, tracking := true, stateDue := y.state == .quiesced,
                                 todo := if round = 0 then s.dev.ely.owned p.val else y.mig.dirty,
                                 dirty := if round = 0 then [] else y.mig.dirty } }
  else s

/-- MIG_EXPORT (R127, R128): the next records of a round. It stops where the buffer is full, and waits with its work where MEM credits are refused (R46).
Without an agreed session as the source it answers NOT_ATTESTED (DESIGN CHOICE, log entry 118). -/
def execMigExport (order salt : Nat) (s : State) : Res := s.clocked fun s =>
  s.migrating order 0x2A (fun _ => true) fun j p =>
    let round := j.arg 2 2
    let m := (s.ply p).mig
    if !(m.agreed && m.role == 1) then s.answer j mbNotAttested []
    else
      let s := if j.begun then s else s.startRound p round
      let done := if j.begun then m.done else 0
      let (s, n, waits) := s.exportGranules p j.port salt round (j.arg 8 8) (j.arg 16 4 / 65584 - done) done
      let m := (s.ply p).mig
      let body := (s.plyRecord p (m.seq + 1)).body
      if waits then (s.updPly p fun y => { y with mig := { y.mig with done := n } }).hold j
      else if m.todo = [] ∧ m.stateDue ∧ n * 65584 + 48 + body.length ≤ j.arg 16 4 then
        let s := s.onDev fun d => d.postWrite j.port (j.arg 8 8 + n * 65584) (migRecord m.key salt 2 round (m.seq + 1) 0 body)
        (s.updPly p fun y => { y with mig := { y.mig with seq := m.seq + 1, stateDue := false } }).answer j mbOk (bytesOf 4 (n + 1) ++ bytesOf 4 0)
      else s.answer j mbOk (bytesOf 4 n ++ bytesOf 4 m.todo.length)

/-! Import (R130) -/

/-- Lowest free granule that the ply may be given (R130, R278; which one is taken: log entry 36). -/
def State.freeGranule (s : State) (p : Fin 64) : Option Nat :=
  let d := s.dev
  ((List.range (d.dramTop / 65536 - d.ely.secWm * 32)).map (d.ely.secWm * 32 + ·)).find? fun g =>
    d.ely.ownerByte g == 0xFF && !((s.ply p).cls == .a && d.droppedGranule g)

/-- What precedes a write of a whole granule by an engine: earlier accesses to its units reach DRAM first, and errors that they held end (R266, R281). -/
def State.reachGranule (s : State) (eng : Engine) (p : Option (Fin 64)) (g : Nat) : State :=
  (unitsIn (g * 65536) 65536).foldl (fun s u => (s.settleUnit u).openUnit u eng.port p true) s

/-- R127: a ring of the destination ply from its record. -/
def RingRecord.ring (x : RingRecord) : SubRing :=
  { SubRing.blank with enable := x.enable, log2Depth := x.log2Depth, poll := x.poll, vec := x.vec, vecEn := x.vecEn, base := x.base,
                       cons := x.index, prod := x.index }

/-- What comes of a record: accepted; no granule is free; MEM credits are refused. -/
inductive ImportRes where
  | done (s : State)
  | full
  | wait

/-- R130: one record whose tag and SEQ are good. A granule goes into the granule that holds its page already, or a fresh one, under the destination
ply's key, as MEM of the device (DESIGN CHOICE, log entry 118). A state record sets fences, registers, rings and tables; the shares are those of
PLY_CREATE. -/
def State.importRecord (s : State) (p : Fin 64) (r : MigRecord) : ImportRes :=
  match r with
  | .granule _ seq addr data =>
    let placed := (s.ply p).mig.placed
    match (Map.find placed (addr / 65536)).orElse fun _ => s.freeGranule p with
    | none => .full
    | some g =>
      match s.takeMem devHolder 1024 [(g * 65536, 65536)] with
      | none => .wait
      | some s =>
        let s := s.onDev fun d => { d with ely := { d.ely with owner := Map.ins d.ely.owner g p.val } }
        let s := s.reachGranule .ely (some p) g
        let s := { s with dram := s.dram.writeN (atD s.dev.ely.keySlot p.val 0) (g * 65536) (fitBytes 65536 data) }
        .done (s.updPly p fun y =>
          { y with mig := { y.mig with lastSeq := seq, placed := Map.ins placed (addr / 65536) g, bySeq := Map.ins y.mig.bySeq seq g } })
  | .plyState _ seq fences pollUs dbr evt sel rings cq tables _ _ =>
    .done (s.updPly p fun y =>
      { y with fences := fences, pollUs := pollUs, dbrBase := dbr, evtVec := evt, fenceSel := sel, rings := rings.map (·.ring),
               cq := { CplRing.blank with enable := cq.enable, log2Depth := cq.log2Depth, base := cq.base, prod := cq.index, cons := cq.index },
               tables := tables.filterMap fun t => (Map.find y.mig.bySeq t.2.1).map fun g =>
                 (t.1, { page := g, read := t.2.2.1, write := t.2.2.2 }),
               mig := { y.mig with lastSeq := seq, imported := true } })

/-- Tag verdict and SEQ of a record. -/
def MigRecord.head : MigRecord → Bool × Nat
  | .granule ok seq _ _ => (ok, seq)
  | .plyState ok seq _ _ _ _ _ _ _ _ _ _ => (ok, seq)

/-- Records accepted in order, up to the first that fails its tag or sequence check (R130), that finds no granule, or whose MEM is refused: the count, a
status, and whether the command waits. -/
def State.importAll (s : State) (p : Fin 64) : List MigRecord → Nat → State × Nat × Nat × Bool
  | [], n => (s, n, mbOk, false)
  | r :: t, n =>
    if !r.head.1 || decide (r.head.2 ≤ (s.ply p).mig.lastSeq) then (s, n, mbMigBadRecord, false)
    else match s.importRecord p r with
      | .full => (s, n, mbOk, false)
      | .wait => (s, n, mbOk, true)
      | .done s => s.importAll p t (n + 1)

/-- The records of an import from where it stands: a wait keeps the count of those accepted. -/
def State.importFrom (s : State) (j : Journal) (p : Fin 64) (records : List MigRecord) (n : Nat) : State :=
  let (s, n, st, waits) := s.importAll p (records.drop n) n
  if waits then s.updPly p fun y => { y with mig := { y.mig with done := n + 1 } }
  else (s.updPly p fun y => { y with mig := { y.mig with done := 0 } }).answer j st (bytesOf 4 n)

/-- MIG_IMPORT (R130): `records` are the buffer's records as Elytra decrypts them; none where the buffer cannot be read. On a ply that is not QUIESCED it
answers BAD_STATE, and without an agreed session as the destination NOT_ATTESTED (DESIGN CHOICE, log entry 118). -/
def execMigImport (order : Nat) (records : Option (List MigRecord)) (s : State) : Res := s.clocked fun s =>
  s.migrating order 0x2B (fun _ => true) fun j p =>
    let m := (s.ply p).mig
    if (s.ply p).state ≠ .quiesced then s.answer j mbBadState []
    else if !(m.agreed && m.role == 2) then s.answer j mbNotAttested []
    else if j.begun ∧ 0 < m.done then s.importFrom j p (records.getD []) (m.done - 1)
    else s.fetchBuffer j (j.arg 8 8) (j.arg 16 4) records [] fun s rs => s.importFrom j p rs 0

end Sys2Proof.Machine
end

