-- ==== Sys2Proof/Machine/Granules.lean ====
section
/-! DEFINITION. Machine/Granules.lean: Elytra's own commands: information, containers, security versions, the watermark, granules and lending
(R290-R293, R297, R302-R307), and its restarts (R315-R317). -/
namespace Sys2Proof.Machine

/-- A command that ROM mode serves too (R297). -/
def State.commandAny (s : State) (order code : Nat) : Option Journal :=
  if s.dev.ely.state = .rom then s.dev.ely.journal.find? fun j => j.order == order && j.code == code else s.command order code

/-- A command open to every port (R297). -/
def State.anyPort (s : State) (order code : Nat) (act : Journal → State) : Res :=
  match s.commandAny order code with
  | none => .next s
  | some j => .next (if j.wellFormed then act j else s.answer j mbBadMessage [])

/-- ELY_STATUS.STATE code (R319). -/
def ElyState.code : ElyState → Nat
  | .rom => 0 | .running => 1 | .restarting => 2 | .halted => 3

/-- Entries of the lend table not in use (R306). -/
def Ely.freeLends (e : Ely) : Nat := 16384 - e.lend.length

/-- ELY_INFO (R297): sizes of the result fields 1, 1, 2, 4 and 4 bytes (log entry 56). -/
def execElyInfo (order : Nat) (s : State) : Res := s.clocked fun s =>
  s.anyPort order 0x01 fun j =>
    let e := s.dev.ely
    s.answer j mbOk (bytesOf 1 e.state.code ++ bytesOf 1 ((s.dev.manager.map (·.val)).getD 0) ++ bytesOf 2 e.restarts ++
      bytesOf 4 e.secWm ++ bytesOf 4 e.freeLends)

/-! Containers (R290, R291) -/

/-- Header and section table, bytes 0-1,087 (R290). -/
def Container.header (c : Container) : List Byte := c.bytes.take 1088

/-- A section table entry: type, offset, length (R290). -/
def Container.section (c : Container) (i : Nat) : Nat × Nat × Nat :=
  let b := 64 + 64 * i
  (le16 c.header b, le32 c.header (b + 4), le32 c.header (b + 8))

/-- Fields of the header (R290). -/
def Container.count (c : Container) : Nat := le16 c.header 6
@[inherit_doc Container.count] def Container.length (c : Container) : Nat := le32 c.header 8
@[inherit_doc Container.count] def Container.svnAskulo (c : Container) : Nat := le16 c.header 16
@[inherit_doc Container.count] def Container.svnOem (c : Container) : Nat := le16 c.header 18
@[inherit_doc Container.count] def Container.provision (c : Container) : Bool := bit (byteAt c.header 20) 0

/-- The sections in use. -/
def Container.sections (c : Container) : List (Nat × Nat × Nat) := (List.range c.count).map c.section

/-- R290: the header is well formed. -/
def Container.headerOk (c : Container) : Bool :=
  le32 c.header 0 == 0x494B5350 && le16 c.header 4 == 1 && decide (1 ≤ c.count) && decide (c.count ≤ 16) && decide (c.length ≤ 16773120) &&
    zeroBytes c.header 12 4 && decide (c.svnAskulo ≤ 64) && decide (c.svnOem ≤ 64) && decide (byteAt c.header 20 ≤ 1) &&
    zeroBytes c.header 21 43 && zeroBytes c.header (64 + 64 * c.count) (64 * (16 - c.count))

/-- R290, R291: sections lie within LENGTH, do not overlap, have known types and their limits; required types once, no type twice. -/
def Container.sectionsOk (c : Container) : Bool :=
  let ss := c.sections
  let known : List Nat := [0x0001, 0x0002, 0x0003, 0x0010, 0x0011, 0x0012]
  let limit := fun (t : Nat) => if t = 1 then 524288 else if t = 3 then 131072 else 2 ^ 32
  ss.all (fun x => known.contains x.1 && x.2.1 % 256 == 0 && decide (1088 ≤ x.2.1) && decide (x.2.1 + x.2.2 ≤ c.length) &&
    decide (x.2.2 ≤ limit x.1)) &&
    (List.range c.count).all (fun i => zeroBytes c.header (64 + 64 * i + 2) 2 && zeroBytes c.header (64 + 64 * i + 12) 4) &&
    ([0x0001, 0x0002, 0x0010, 0x0011] : List Nat).all (fun t => ss.any (·.1 == t)) &&
    known.all (fun t => decide ((ss.filter (·.1 == t)).length ≤ 1)) &&
    (ss.zipIdx).all fun a => (ss.zipIdx).all fun b =>
      decide (b.2 ≤ a.2) || decide (a.1.2.1 + a.1.2.2 ≤ b.1.2.1) || decide (b.1.2.1 + b.1.2.2 ≤ a.1.2.1)

/-- The bytes of a section, by type; empty where it is absent. -/
def Container.content (c : Container) (type : Nat) : List Byte :=
  match c.sections.find? (·.1 == type) with
  | some x => (c.bytes.drop x.2.1).take x.2.2
  | none => []

/-- The signature block: the last 512 bytes (R290). -/
def Container.signatures (c : Container) : List Byte := (c.bytes.drop (c.length - 512)).take 512

/-- DIGEST of table entry i (R290). -/
def Container.digestAt (c : Container) (i : Nat) : List Byte := (c.header.drop (64 + 64 * i + 16)).take 48

/-- DIGEST of a section by type; 48 zero bytes where it is absent. -/
def Container.digest (c : Container) (type : Nat) : List Byte :=
  match c.sections.findIdx? (·.1 == type) with
  | some i => c.digestAt i
  | none => List.replicate 48 0

/-- R290, R291: the bytes reach LENGTH, the signature block lies behind every section, and its reserved bytes are 0. -/
def Container.lengthOk (c : Container) : Bool :=
  c.bytes.length == c.length && decide (1600 ≤ c.length) && c.sections.all (fun x => decide (x.2.1 + x.2.2 + 512 ≤ c.length)) &&
    zeroBytes c.signatures 384 128

/-- What Askulo signs: header bytes 16-17 and the entries of ELY_FW and WEEVIL_FW (R291). -/
def Container.askuloText (c : Container) : List Byte :=
  (c.header.drop 16).take 2 ++ ((c.sections.zipIdx).filter fun x => x.1.1 == 1 || x.1.1 == 2).flatMap fun x => (c.header.drop (64 + 64 * x.2)).take 64

/-- OEM_KEY_HASH has been provisioned: it is not all zero (R289, R291). -/
def Ely.oemFused (e : Ely) : Bool := e.oemHash.any (· != 0)

/-- Fuses programmed from a byte of the map on; a fuse is never cleared (R289). -/
def Ely.burn (e : Ely) (at_ : Nat) (bs : List Byte) : Ely :=
  { e with fuses := (e.fuses.zipIdx).map fun x => if at_ ≤ x.2 ∧ x.2 < at_ + bs.length then x.1 ||| bs.getD (x.2 - at_) 0 else x.1 }

/-- A thermometer code raised to a count (R289, R293). -/
def Ely.burnCount (e : Ely) (at_ n : Nat) : Ely := if fuseCount e.fuses at_ < n then e.burn at_ (bytesOf 8 (2 ^ n - 1)) else e

/-- SHA-384 of the OEM key equals OEM_KEY_HASH, or none is provisioned and the container asks for it (R291). -/
def Container.oemKeyOk (c : Container) (e : Ely) : Bool :=
  if e.oemFused then sha384 ((c.signatures.drop 192).take 96) == e.oemHash else c.provision

/-- Askulo's key and signature, and the OEM's signature, verify (R291). -/
def Container.askuloOk (c : Container) (e : Ely) : Bool :=
  sha384 (c.signatures.take 96) == e.askuloHash && ecdsaVerify (c.signatures.take 96) ((c.signatures.drop 96).take 96) c.askuloText
@[inherit_doc Container.askuloOk] def Container.oemSigOk (c : Container) : Bool :=
  ecdsaVerify ((c.signatures.drop 192).take 96) ((c.signatures.drop 288).take 96) c.header

/-- Every section's digest matches its content (R291). -/
def Container.digestsOk (c : Container) : Bool :=
  (c.sections.zipIdx).all fun x => sha384 ((c.bytes.drop x.1.2.1).take x.1.2.2) == c.digestAt x.2

/-- R291: the container is valid on this device. -/
def Container.valid (c : Container) (e : Ely) : Bool :=
  c.headerOk && c.sectionsOk && c.lengthOk && c.askuloOk e && c.oemKeyOk e && c.oemSigOk &&
    decide (e.svnAskulo ≤ c.svnAskulo) && decide (e.svnOem ≤ c.svnOem) && c.digestsOk

/-- A container that a command reads has as many bytes as the command says. -/
def Container.sized (c : Container) (n : Nat) : Container := { c with bytes := fitBytes n c.bytes }

/-- CONTAINER_STAGE (R295, R297): `c` is the container in the issuing port's host memory, none where it cannot be read. Without flash there is
no partition to write (log entry 57). -/
def execContainerStage (order : Nat) (c : Option Container) (s : State) : Res := s.clocked fun s =>
  s.managed order 0x03 fun j =>
    if j.arg 8 4 = 0 then s.answer j mbBadContainer []
    else s.fetchBuffer j (j.arg 0 8) (j.arg 8 4) (c.map some) none fun s c => match c with
    | none => s.answer j mbBadContainer []
    | some c =>
      let c := c.sized (j.arg 8 4)
      let e := s.dev.ely
      if !c.valid e then s.answer j mbBadContainer []
      else if !s.dev.ccn.flash then s.answer j mbBadState []
      else
        let i : Fin 2 := ⟨1 - e.runPart.val, by omega⟩
        let s := s.onDev fun d => { d with ely := { d.ely with parts := put d.ely.parts i (some { gen := (e.runGen + 1) % 2 ^ 32, container := c }) } }
        s.answer j mbOk (bytesOf 1 i.val ++ bytesOf 4 (e.runGen + 1))

/-- SVN_COMMIT (R293): the fused counts become the running container's. -/
def execSvnCommit (order : Nat) (s : State) : Res := s.clocked fun s =>
  s.managed order 0x04 fun j =>
    match s.dev.ely.running with
    | none => s.answer j mbBadState []
    | some c =>
      let s := s.onDev fun d => { d with ely := (d.ely.burnCount 128 c.svnAskulo).burnCount 136 c.svnOem }
      s.answer j mbOk (bytesOf 1 s.dev.ely.svnAskulo ++ bytesOf 1 s.dev.ely.svnOem)

/-! The watermark and granules (R302-R307) -/

/-- A granule range is refused with BAD_ARG when its count is 0 or it reaches DRAM_TOP (R303). -/
def Dev.rangeBad (d : Dev) (first n : Nat) : Bool := n == 0 || decide (d.dramTop < (first + n) * 65536)

/-- The granules of a range. -/
def granuleRange (first n : Nat) : List Nat := (List.range n).map (first + ·)

/-- Owner bytes set over a range. -/
def Ely.setOwner (e : Ely) (gs : List Nat) (v : Nat) : Ely := { e with owner := gs.foldl (fun o g => Map.ins o g v) e.owner }

/-- WM_RAISE (R302). -/
def execWmRaise (order : Nat) (s : State) : Res := s.clocked fun s =>
  s.managed order 0x08 fun j =>
    let e := s.dev.ely
    let new := j.arg 0 4
    let top := match s.dev.policy with | some p => p.wmMax | none => 0
    let gs := granuleRange (e.secWm * 32) ((new - e.secWm) * 32)
    if new ≤ e.secWm then s.answer j mbOk (bytesOf 4 e.secWm)
    else if top < new then s.answer j mbNotPermitted []
    else if decide (s.dev.dramTop < new * 2 ^ 21) || gs.any (fun g => e.ownerByte g != 0xFF || s.dev.droppedGranule g) then s.answer j mbNotFree []
    else
      let s := s.onDev fun d => { d with ely := { d.ely.setOwner gs 0xFD with secWm := new } }
      s.answer j mbOk (bytesOf 4 new)

/-- Whether a granule is dropped for class A plies and secure memory (R277, R278). -/
def mbSecureNotRetained : Nat := 0x10

/-- MEM_GIVE (R303, R304). A number above 63 names no ply (R303). -/
def execMemGive (order : Nat) (s : State) : Res := s.clocked fun s =>
  s.managed order 0x09 fun j =>
    let e := s.dev.ely
    let gs := granuleRange (j.arg 1 4) (j.arg 5 4)
    if s.dev.rangeBad (j.arg 1 4) (j.arg 5 4) then s.answer j mbBadArg []
    else match j.ply 0 with
    | none => s.answer j mbNoPly []
    | some p =>
      if (s.ply p).state = .absent then s.answer j mbNoPly []
      else if gs.any fun g => e.ownerByte g != 0xFF || decide (g < e.secWm * 32) then s.answer j mbNotFree []
      else if decide ((s.dev.entry p).memMax < (e.owned p.val).length + gs.length) then s.answer j mbNotPermitted []
      else if (s.ply p).cls == .a && gs.any s.dev.droppedGranule then s.answer j mbSecureNotRetained []
      else
        let s := s.onDev fun d => { d with ely := d.ely.setOwner gs p.val }
        s.answer j mbOk (bytesOf 4 (s.dev.ely.owned p.val).length)

/-- Whether some page of a ply's tables lies in one of the granules. -/
def Ply.mapsAny (y : Ply) (gs : List Nat) : Bool := y.tables.any fun e => gs.contains e.2.page

/-- MEM_TAKE (R303, R305): the granules are scrubbed; the command completes when the last one is free. -/
def execMemTake (order : Nat) (s : State) : Res := s.clocked fun s =>
  s.managed order 0x0A fun j =>
    let e := s.dev.ely
    let gs := granuleRange (j.arg 1 4) (j.arg 5 4)
    if j.begun then s
    else if s.dev.rangeBad (j.arg 1 4) (j.arg 5 4) then s.answer j mbBadArg []
    else match j.ply 0 with
    | none => s.answer j mbNotFree []
    | some p =>
      if gs.any fun g => e.ownerOf g != some p.val then s.answer j mbNotFree []
      else if gs.any fun g => e.ownerByte g == 0xFE then s.answer j mbStillLent []
      else if (s.ply p).mapsAny gs then s.answer j mbBadState []
      else (s.onDev fun d => { d with ely := d.ely.setOwner gs 0xFC }).hold j

/-- GRANULE_SCRUB_DONE (R305): Elytra overwrites a granule with zeros through port 13 under key slot 64 and marks it free; a MEM_TAKE whose last
granule this is completes. -/
def execGranuleScrubDone (gran : Nat) (s : State) : Res := s.clocked fun s =>
  if s.dev.ely.ownerByte gran ≠ 0xFC ∨ s.dev.ely.state ≠ .running then .next s
  else match s.takeMem devHolder 1024 [(gran * 65536, 65536)] with
  | none => .next s
  | some s =>
    let s := s.reachGranule .ely none gran
    let s := { s with dram := s.dram.scrub (at' s.dev.ely.keySlot 64) gran }
    let s := s.onDev fun d => { d with ely := d.ely.setOwner [gran] 0xFF }
    let ended := s.dev.ely.journal.filter fun j => j.code == 0x0A && j.begun &&
      (granuleRange (j.arg 1 4) (j.arg 5 4)).all fun g => s.dev.ely.ownerByte g != 0xFC
    .next (s.each ended fun s j => s.answer j mbOk [])

/-- Pages of a ply's tables that lie in the granules. -/
def Ply.pagesIn (y : Ply) (gs : List Nat) : List Nat := (y.tables.filter fun e => gs.contains e.2.page).map (·.1)

/-- LEND's rights byte (R306): READ 0x1, READ_WRITE 0x2. -/
def lendRights (v : Nat) : Option Bool := if v = 1 then some false else if v = 2 then some true else none

/-- A granule's lend entry with a borrower given rights; a granule without an entry gets one (R306). -/
def Ely.lendOne (e : Ely) (g owner p : Nat) (write : Bool) : Ely :=
  let l := (Map.find e.lend g).getD { owner := owner, borrowers := [] }
  let bs := if l.borrowers.any (·.ply == p) then l.borrowers.map fun b => if b.ply = p then { b with write := write } else b
    else l.borrowers ++ [{ ply := p, write := write }]
  { e with lend := Map.ins e.lend g { l with borrowers := bs }, owner := Map.ins e.owner g 0xFE }

/-- LEND (R278, R303, R306). A dropped granule is not lent to a class A ply. Lowering READ_WRITE to READ waits for the barrier of R90 before it
completes. -/
def execLend (order : Nat) (s : State) : Res := s.clocked fun s =>
  s.managed order 0x0B fun j =>
    let e := s.dev.ely
    let first := j.arg 4 4
    let n := j.arg 8 4
    let gs := granuleRange first n
    if s.dev.rangeBad first n then s.answer j mbBadArg []
    else match j.ply 0, j.ply 1, lendRights (j.arg 2 1) with
    | some o, some p, some w =>
      let pair := match s.dev.policy with
        | some pol => pol.lendPairs.any fun x => x.1 == o.val && x.2.1 == p.val && (x.2.2 || !w)
        | none => false
      let holds := fun (g : Nat) => match Map.find e.lend g with
        | some l => l.borrowers.any (·.ply == p.val)
        | none => false
      let crowd := fun (g : Nat) => match Map.find e.lend g with
        | some l => decide (4 ≤ l.borrowers.length) && !holds g
        | none => false
      if !pair then s.answer j mbNotPermitted []
      else if gs.any fun g => e.ownerOf g != some o.val then s.answer j mbNotFree []
      else if gs.any crowd || decide (e.freeLends < (gs.filter fun g => (Map.find e.lend g).isNone).length) then s.answer j mbLendFull []
      else if (s.ply p).cls == .a && gs.any s.dev.droppedGranule then s.answer j mbSecureNotRetained []
      else
        let lowers := !w && gs.any fun g => e.lentTo g p.val true
        if lowers && !j.begun then s.hold j
        else if lowers && !(s.ply p).earlierRetired j.mark then s
        else
          let s := s.onDev fun d => { d with ely := gs.foldl (fun e g => e.lendOne g o.val p.val w) d.ely }
          let s := if lowers then s.updPly p fun y =>
              { y with tables := y.tables.map fun t => if gs.contains t.2.page then (t.1, { t.2 with write := false }) else t } else s
          s.answer j mbOk (bytesOf 4 s.dev.ely.freeLends)
    | _, _, none => s.answer j mbBadArg []
    | _, _, _ => s.answer j mbNotPermitted []

/-- UNLEND (R303, R307): all or nothing, after the barrier and the wait for active layers of R90. -/
def execUnlend (order : Nat) (s : State) : Res := s.clocked fun s =>
  s.managed order 0x0C fun j =>
    let e := s.dev.ely
    let first := j.arg 4 4
    let n := j.arg 8 4
    let gs := granuleRange first n
    if s.dev.rangeBad first n then s.answer j mbBadArg []
    else match j.ply 0, j.ply 1 with
    | some o, some p =>
      if gs.any fun g => !(e.ownerOf g == some o.val && e.lentTo g p.val false) then s.answer j mbNotFree []
      else if !j.begun then s.hold j
      else
        let pages := (s.ply p).pagesIn gs
        if !(s.ply p).earlierRetired j.mark || pages.any (fun pg => s.dev.layersUse p pg 1) then s
        else
          let s := s.updPly p fun y => { y with tables := y.tables.filter fun t => !pages.contains t.1 }
          let s := s.onDev fun d => { d with ely := d.ely.dropBorrower p.val gs.contains }
          s.answer j mbOk (bytesOf 4 s.dev.ely.freeLends)
    | _, _ => s.answer j mbNotFree []

/-- OWNER_QUERY (R303). -/
def execOwnerQuery (order : Nat) (s : State) : Res := s.clocked fun s =>
  s.anyPort order 0x0D fun j =>
    let n := j.arg 4 4
    if s.dev.rangeBad (j.arg 0 4) n ∨ 32 < n then s.answer j mbBadArg []
    else s.answer j mbOk ((granuleRange (j.arg 0 4) n).map fun g => BitVec.ofNat 8 (s.dev.ely.ownerByte g))

/-! Restarts (R315-R317) -/

/-- The digest check of the retained copy has failed (R316): the restart under way takes the cause RETAINED_LOST and the flash path. -/
def State.retainedFails (s : State) : State :=
  if s.dev.ely.state = .restarting then s.onDev fun d => { d with ely := { d.ely with lastCause := 6, retainedLost := true } } else s

/-- ELY_RESTART_TRIGGER (R315): a cause that the island itself finds; an unlisted cause code triggers nothing. RETAINED_LOST is found inside a
restart, or starts one. -/
def execElyRestartTrigger (cause : Fin 16) (s : State) : Res := s.clocked fun s =>
  if cause.val = 6 then .next (if s.dev.ely.state = .restarting then s else s.restartElytra 6).retainedFails
  else if 1 ≤ cause.val ∧ cause.val ≤ 5 then .next (s.restartElytra cause.val) else .next s

/-- ELY_WATCHDOG_EXPIRY (R288, R315). -/
def execElyWatchdogExpiry (s : State) : Res := s.clocked fun s => .next (s.restartElytra 0x2)

/-- The sections of a container that go into Elytra SRAM, and into secure DRAM (R290). -/
def Container.forSram (c : Container) : List (Nat × List Byte) := (([1, 3, 0x10] : List Nat).filter fun t => c.sections.any (·.1 == t)).map fun t => (t, c.content t)
@[inherit_doc Container.forSram] def Container.forSecure (c : Container) : List (Nat × List Byte) := [2, 0x10].map fun t => (t, c.content t)

/-- The container that a restart reloads from: the retained copy where its ELY_FW has the digest held since the boot, else a valid container of the flash
(R316). With it, whether it is the flash's. -/
def Dev.reloadFrom (d : Dev) : Option (Container × Bool) :=
  let e := d.ely
  match e.running with
  | none => none
  | some c =>
    let kept := { c with bytes := e.copy }
    if !e.retainedLost && sha384 (kept.content 1) == e.fwDigest then some (kept, false)
    else if !d.ccn.flash then none
    else (e.parts.toList.filterMap fun p => p.bind fun p => if p.container.valid e then some (p.gen, p.container) else none).foldl
      (fun (best : Option (Nat × Container)) x => match best with | some b => if b.1 < x.1 then some x else some b | none => some x) none
      |>.map fun x => (x.2, true)

/-- Elytra reloaded from a container (R310, R316): its SRAM holds the firmware again, measurement 8 is extended by the digest of the reloaded ELY_FW and the
cause, and a copy taken from the flash is retained. The policy stays the one in force. -/
def Ely.reload (e : Ely) (c : Container) (flash : Bool) : Ely :=
  let m := sha384 (at' e.measures 7 ++ sha384 (c.content 1) ++ bytesOf 1 e.lastCause)
  { e with state := .running, cmdMap := firmwareMap, entries := firmwareEntries, locked := true, sram := c.forSram, measures := put e.measures 7 m,
           copy := if flash then c.bytes else e.copy, retainedLost := false }

/-- ELY_RESTART_DONE (R316, R317): the ROM has reloaded the firmware from the retained copy, or from a valid flash container where that fails its check;
STATE becomes RUNNING, the GATE tables are locked again and ELY_RESTART is raised on every port. Without firmware Elytra halts. -/
def execElyRestartDone (s : State) : Res := s.clocked fun s =>
  if s.dev.ely.state ≠ .restarting then .next s
  else match s.dev.reloadFrom with
    | none => .next (s.onDev fun d => { d with ely := { d.ely with state := .halted } })
    | some (c, flash) =>
      let s := s.onDev fun d => { d with ely := d.ely.reload c flash }
      let data := [BitVec.ofNat 8 s.dev.ely.lastCause] ++ (at' s.dev.ely.measures 7).take 15
      .next (s.each allPorts fun s q => s.onDev fun d => d.logEvent q 0x40 0x0800 0 data)

end Sys2Proof.Machine
end

