-- ==== Sys2Proof/Machine/Fp.lean ====
section
/-! DEFINITION. Machine/Fp.lean: IEEE 754 binary32 and binary16 arithmetic as R247 asks for: exact values, rounded once. The transcendental group's
results are free values within the accuracy that the manual's table gives (log entry 63). -/
namespace Sys2Proof.Machine

/-- A binary format: precision, exponent bits. -/
structure FpFmt where
  prec : Nat
  ebits : Nat
deriving DecidableEq, Repr

/-- binary32 and binary16. -/
def f32 : FpFmt := { prec := 24, ebits := 8 }
@[inherit_doc f32] def f16 : FpFmt := { prec := 11, ebits := 5 }

/-- Exponent of a subnormal's last place, negated: 149 and 24. -/
def FpFmt.qneg (f : FpFmt) : Nat := 2 ^ (f.ebits - 1) - 3 + f.prec

/-- Pattern of the positive infinity, and of the canonical quiet NaN (R247). -/
def FpFmt.inf (f : FpFmt) : Nat := (2 ^ f.ebits - 1) * 2 ^ (f.prec - 1)
@[inherit_doc FpFmt.inf] def FpFmt.nan (f : FpFmt) : Nat := f.inf + 2 ^ (f.prec - 2)
/-- The sign bit's weight. -/
def FpFmt.sign (f : FpFmt) : Nat := 2 ^ (f.prec - 1 + f.ebits)

/-- A decoded number: NaN, an infinity with its sign, or a finite value (-1)^neg x mant x 2^exp. -/
inductive Fp where
  | nan
  | inf (neg : Bool)
  | fin (neg : Bool) (mant : Nat) (exp : Int)
deriving DecidableEq, Repr

/-- The value of a pattern. -/
def FpFmt.decode (f : FpFmt) (v : Nat) : Fp :=
  let neg := decide (f.sign ≤ v % (2 * f.sign))
  let m := v % 2 ^ (f.prec - 1)
  let e := v / 2 ^ (f.prec - 1) % 2 ^ f.ebits
  if e = 2 ^ f.ebits - 1 then (if m = 0 then .inf neg else .nan)
  else if e = 0 then .fin neg m (-(f.qneg : Int))
  else .fin neg (m + 2 ^ (f.prec - 1)) ((e : Int) - 1 - f.qneg)

/-- A pattern with its sign bit. -/
def FpFmt.signed (f : FpFmt) (neg : Bool) (v : Nat) : Nat := if neg then v + f.sign else v

/-- Whether rounding goes away from zero: mode RND (R244), sign, last bit kept, and how the dropped part compares with a half
(0 nothing dropped, 1 below, 2 equal, 3 above). -/
def roundUp (rnd : Nat) (neg odd : Bool) (part : Nat) : Bool :=
  match rnd with
  | 0 => part == 3 || (part == 2 && odd)
  | 1 => false
  | 2 => part != 0 && neg
  | _ => part != 0 && !neg

/-- The rounded pattern of (-1)^neg x (num + a part below one where `sticky`) x 2^exp. -/
def FpFmt.round (f : FpFmt) (rnd : Nat) (neg : Bool) (num : Nat) (exp : Int) (sticky : Bool) : Nat :=
  -- two extra places keep what is dropped below `num` out of the way
  let num := num * 4
  let exp := exp - 2
  let q : Int := max (exp + bitLen num - f.prec) (-(f.qneg : Int))
  let drop := (q - exp).toNat
  let kept := if exp ≤ q then num / 2 ^ drop else num * 2 ^ (exp - q).toNat
  let rest := if exp ≤ q then num % 2 ^ drop else 0
  let half := if drop = 0 then 1 else 2 ^ (drop - 1)
  let part := if rest = 0 && !sticky then 0 else if drop = 0 then 1
    else if rest < half then 1 else if rest = half && !sticky then 2 else 3
  let m := if roundUp rnd neg (kept % 2 == 1) part then kept + 1 else kept
  let mag := (q + f.qneg).toNat * 2 ^ (f.prec - 1) + m
  if f.inf ≤ mag then
    f.signed neg (if rnd = 0 ∨ (rnd = 2 ∧ neg) ∨ (rnd = 3 ∧ !neg) then f.inf else f.inf - 1)
  else f.signed neg mag

/-- The rounded pattern of (-1)^neg x n / d x 2^exp. -/
def FpFmt.roundRat (f : FpFmt) (rnd : Nat) (neg : Bool) (n d : Nat) (exp : Int) : Nat :=
  let k := bitLen d + f.prec + 4
  let n' := n * 2 ^ k
  f.round rnd neg (n' / d) (exp - k) (n' % d != 0)

/-- An exact integer times a power of two, rounded; `zneg` is the sign of an exact zero. -/
def FpFmt.ofInt (f : FpFmt) (rnd : Nat) (v exp : Int) (zneg : Bool) : Nat :=
  if v = 0 then f.signed zneg 0 else f.round rnd (decide (v < 0)) v.natAbs exp false

/-- Signed mantissa at a given exponent. -/
def Fp.at' (x : Fp) (e : Int) : Int :=
  match x with
  | .fin neg m ex => let v : Int := (m : Int) * 2 ^ (ex - e).toNat; if neg then -v else v
  | _ => 0

/-- Exponent of a finite number; 0 for the others. -/
def Fp.exp : Fp → Int
  | .fin _ _ e => e
  | _ => 0

/-- Sign of a number that is not a NaN. -/
def Fp.neg : Fp → Bool
  | .fin n _ _ => n
  | .inf n => n
  | .nan => false

/-- The product's decoded value; exact. -/
def Fp.mul (a b : Fp) : Fp :=
  match a, b with
  | .nan, _ | _, .nan => .nan
  | .inf s, .fin t m _ | .fin t m _, .inf s => if m = 0 then .nan else .inf (s != t)
  | .inf s, .inf t => .inf (s != t)
  | .fin s m e, .fin t n g => .fin (s != t) (m * n) (e + g)

/-- A sum rounded once. An exact zero sum of unlike signs is -0 when rounding toward -infinity (IEEE 754). -/
def FpFmt.sum (f : FpFmt) (rnd : Nat) (a b : Fp) : Nat :=
  match a, b with
  | .nan, _ | _, .nan => f.nan
  | .inf s, .inf t => if s = t then f.signed s f.inf else f.nan
  | .inf s, _ | _, .inf s => f.signed s f.inf
  | .fin s _ e, .fin t _ g =>
    let m := min e g
    f.ofInt rnd (a.at' m + b.at' m) m (if s = t then s else rnd == 2)

/-- A decoded value rounded into the format. -/
def FpFmt.encode (f : FpFmt) (rnd : Nat) (a : Fp) : Nat :=
  match a with
  | .nan => f.nan
  | .inf s => f.signed s f.inf
  | .fin s m e => if m = 0 then f.signed s 0 else f.round rnd s m e false

/-- Addition, multiplication, fused multiply-add (R247). -/
def FpFmt.add (f : FpFmt) (rnd a b : Nat) : Nat := f.sum rnd (f.decode a) (f.decode b)
@[inherit_doc FpFmt.add] def FpFmt.mul (f : FpFmt) (rnd a b : Nat) : Nat := f.encode rnd ((f.decode a).mul (f.decode b))
@[inherit_doc FpFmt.add] def FpFmt.fma (f : FpFmt) (rnd a b c : Nat) : Nat := f.sum rnd ((f.decode a).mul (f.decode b)) (f.decode c)

/-- The pattern with its sign inverted, or cleared. -/
def FpFmt.negate (f : FpFmt) (v : Nat) : Nat := if v < f.sign then v + f.sign else v - f.sign
@[inherit_doc FpFmt.negate] def FpFmt.abs (f : FpFmt) (v : Nat) : Nat := v % f.sign

/-- Subtraction. -/
def FpFmt.sub (f : FpFmt) (rnd a b : Nat) : Nat := f.add rnd a (f.negate b)

/-- Whether a pattern is a NaN. -/
def FpFmt.isNan (f : FpFmt) (v : Nat) : Bool := f.decode v == .nan

/-- Order of two numbers that are not NaN: whether a < b. -/
def Fp.lt (a b : Fp) : Bool :=
  match a, b with
  | .nan, _ | _, .nan => false
  | .inf s, .inf t => s && !t
  | .inf s, _ => s
  | _, .inf t => !t
  | .fin _ _ e, .fin _ _ g => decide (a.at' (min e g) < b.at' (min e g))

/-- Whether a = b; +0 equals -0, and a NaN equals nothing. -/
def Fp.eq (a b : Fp) : Bool :=
  match a, b with
  | .nan, _ | _, .nan => false
  | .inf s, .inf t => s == t
  | .inf _, _ | _, .inf _ => false
  | .fin _ _ e, .fin _ _ g => decide (a.at' (min e g) = b.at' (min e g))

/-- Comparisons of the compare table (R247): every one with a NaN is false, except NE. -/
def FpFmt.cmp (f : FpFmt) (op : Nat) (a b : Nat) : Bool :=
  let x := f.decode a
  let y := f.decode b
  match op with
  | 0 => x.lt y
  | 1 => x.eq y
  | 2 => x.lt y || x.eq y
  | 3 => y.lt x
  | 4 => !x.eq y
  | _ => y.lt x || x.eq y

/-- MIN and MAX (R247): the other operand when exactly one is NaN; -0 below +0. -/
def FpFmt.minmax (f : FpFmt) (mx : Bool) (a b : Nat) : Nat :=
  let x := f.decode a
  let y := f.decode b
  match x, y with
  | .nan, .nan => f.nan
  | .nan, _ => b
  | _, .nan => a
  | _, _ =>
    let below := x.lt y || (x.eq y && x.neg && !y.neg)
    if below != mx then a else b

/-- The SAT modifier (R244): clamped to [0, 1] after rounding; NaN gives 0. -/
def FpFmt.sat (f : FpFmt) (v : Nat) : Nat :=
  let one := (2 ^ (f.ebits - 1) - 1) * 2 ^ (f.prec - 1)
  match f.decode v with
  | .nan => 0
  | .inf neg => if neg then 0 else one
  | .fin neg _ _ => if neg then 0 else min v one

/-- A finite value as an integer under a rounding mode. -/
def Fp.toInt (rnd : Nat) (neg : Bool) (m : Nat) (e : Int) : Int :=
  if 0 ≤ e then (let v : Int := (m : Int) * 2 ^ e.toNat; if neg then -v else v)
  else
    let d := 2 ^ (-e).toNat
    let q := m / d
    let r := m % d
    let part := if r = 0 then 0 else if 2 * r < d then 1 else if 2 * r = d then 2 else 3
    let k := if roundUp rnd neg (q % 2 == 1) part then q + 1 else q
    if neg then -(k : Int) else k

/-- FLOOR, CEIL, TRUNC, ROUND: modes 2, 3, 1, 0 of RND. The sign of a zero result is the operand's (IEEE 754). -/
def FpFmt.integral (f : FpFmt) (rnd v : Nat) : Nat :=
  match f.decode v with
  | .nan => f.nan
  | .inf s => f.signed s f.inf
  | .fin neg m e => f.ofInt 0 (Fp.toInt rnd neg m e) 0 neg

/-- FRACT (R247): A - floor(A), at most the largest number below 1.0. -/
def FpFmt.fract (f : FpFmt) (rnd v : Nat) : Nat :=
  match f.decode v with
  | .nan | .inf _ => f.nan
  | .fin neg m e =>
    let fl := Fp.toInt 2 neg m e
    let g := min e 0
    let below := (2 ^ (f.ebits - 1) - 1) * 2 ^ (f.prec - 1) - 1
    min (f.ofInt rnd ((Fp.fin neg m e).at' g - fl * 2 ^ (-g).toNat) g (rnd == 2)) (if rnd = 2 ∧ (Fp.fin neg m e).at' g = fl * 2 ^ (-g).toNat then f.sign else below)

/-- An integer converted under RND. -/
def FpFmt.fromInt (f : FpFmt) (rnd : Nat) (v : Int) : Nat := f.ofInt rnd v 0 false

/-- Truncated toward zero and saturated to a range; NaN gives 0 (R247). -/
def FpFmt.toRange (f : FpFmt) (lo hi : Int) (v : Nat) : Int :=
  match f.decode v with
  | .nan => 0
  | .inf neg => if neg then lo else hi
  | .fin neg m e => clampInt lo hi (Fp.toInt 1 neg m e)

/-- round-half-even(clamp(v, 0, 1) x n); NaN gives 0 (R213, R247). -/
def FpFmt.toUnorm (f : FpFmt) (n v : Nat) : Nat :=
  match f.decode v with
  | .nan => 0
  | .inf neg => if neg then 0 else n
  | .fin neg m e => if neg then 0 else min n (Fp.toInt 0 false (m * n) e).toNat

/-- v / n, correctly rounded (R213, R247). -/
def FpFmt.fromUnorm (f : FpFmt) (rnd n v : Nat) : Nat := if v = 0 then 0 else f.roundRat rnd false v n 0

/-- A value of one format in another, under RND. -/
def fpConvert (src dst : FpFmt) (rnd v : Nat) : Nat := dst.encode rnd (src.decode v)

/-- DOTH.F32 (R247): a.lo x b.lo + a.hi x b.hi + c, the products exact and the sum rounded once. -/
def dotH (rnd a b c : Nat) : Nat :=
  let x := (f16.decode (a % 65536)).mul (f16.decode (b % 65536))
  let y := (f16.decode (a / 65536)).mul (f16.decode (b / 65536))
  let z := f32.decode c
  match x, y, z with
  | .fin sx mx ex, .fin sy my ey, .fin sz mz ez =>
    let e := min ex (min ey ez)
    f32.ofInt rnd ((Fp.fin sx mx ex).at' e + (Fp.fin sy my ey).at' e + (Fp.fin sz mz ez).at' e) e
      (if sx = sy ∧ sy = sz then sx else rnd == 2)
  | _, _, _ =>
    -- an infinity or a NaN takes part: no rounding is involved
    f32.sum rnd (f32.decode (f32.sum rnd x y)) z

/-! Transcendental group (R247): a free choice among the binary32 numbers that the table's accuracy allows -/

/-- Fixed-point scale of the approximations that bound the accuracies: 2^96. -/
def fxOne : Nat := 2 ^ 96

/-- Integer square root, by binary digits. -/
def isqrt (n : Nat) : Nat :=
  let k := bitLen n / 2 + 1
  (List.range k).foldl (fun r i => let t := r + 2 ^ (k - 1 - i); if t * t ≤ n then t else r) 0

/-- 2^(x / 2^96) for 0 <= x < 2^96, at scale 2^96: a product of square roots of 2. -/
def fxExp2 (x : Nat) : Nat :=
  ((List.range 96).foldl (fun (acc : Nat × Nat) i =>
    let root := isqrt (acc.1 * fxOne)
    (root, if x.testBit (95 - i) then acc.2 * root / fxOne else acc.2)) (2 * fxOne, fxOne)).2

/-- log2 of m / 2^96 for 2^96 <= m < 2^97, at scale 2^96, by repeated squaring. -/
def fxLog2 (m : Nat) : Nat :=
  ((List.range 96).foldl (fun (acc : Nat × Nat) _ =>
    let sq := acc.1 * acc.1 / fxOne
    if 2 * fxOne ≤ sq then (sq / 2, 2 * acc.2 + 1) else (sq, 2 * acc.2)) (m, 0)).2

/-- 2 pi at scale 2^96. -/
def fxTau : Nat := 497805226624462170461043889244

/-- sin(2 pi x) for a turn x at scale 2^96 within [0, 1/4], by its series. -/
def fxSin (x : Nat) : Int :=
  let t : Int := (x : Int) * fxTau / fxOne
  let t2 := t * t / fxOne
  ((List.range 24).foldl (fun (acc : Int × Int) (i : Nat) =>
    (acc.1 + acc.2, -(acc.2 * t2 / (fxOne : Int)) / (((2 * i + 2) * (2 * i + 3) : Nat) : Int))) ((0 : Int), t)).1

/-- sin(2 pi x) for any turn at scale 2^96. -/
def fxSinTurn (x : Int) : Int :=
  let one : Int := fxOne
  let r := x % one
  if r ≤ one / 4 then fxSin r.toNat
  else if r ≤ one / 2 then fxSin (one / 2 - r).toNat
  else if r ≤ 3 * one / 4 then -fxSin (r - one / 2).toNat
  else -fxSin (one - r).toNat

/-- The pattern `k` places above (or below) in the order of the numbers. -/
def stepF32 (v : Nat) (k : Int) : Nat :=
  let i : Int := if v < f32.sign then v else -((v - f32.sign : Nat) : Int)
  let j := i + k
  if 0 ≤ j then min j.toNat f32.inf else f32.sign + min (-j).toNat f32.inf

/-- A free choice among the numbers within `ulps` places of a rounded exact result (log entry 63). -/
def nearF32 (ulps op a : Nat) (v : Nat) : Nat :=
  let n := (Config.transc op a).toNat % (2 * ulps + 1)
  stepF32 v ((n : Int) - ulps)

/-- A free choice within an absolute error 2^-k of a fixed-point value, kept within [-1, 1] where `unit`. -/
def nearAbs (op a k : Nat) (v : Int) (unit : Bool) : Nat :=
  let err : Int := 2 ^ (96 - k)
  let n : Int := ((Config.transc op a).toNat % 65537 : Nat)
  let w := v + (n - 32768) * (err - 2 ^ 72) / 32768
  f32.ofInt 0 (if unit then clampInt (-(fxOne : Int)) fxOne w else w) (-96) false

/-- A subnormal input is flushed to a zero of its sign. -/
def flushF32 (v : Nat) : Nat := if v % f32.sign < 2 ^ 23 then v / f32.sign * f32.sign else v

/-- RECIP (R247): 1 ulp; a zero gives an infinity of its sign. -/
def fRecip (v : Nat) : Nat :=
  let v := flushF32 v
  match f32.decode v with
  | .nan => f32.nan
  | .inf s => f32.signed s 0
  | .fin s m e => if m = 0 then f32.signed s f32.inf else nearF32 1 0x50 v (f32.roundRat 0 s 1 m (-e))

/-- Square root of m x 2^e at 64 extra bits: digits and exponent. -/
def sqrtParts (m : Nat) (e : Int) : Nat × Int :=
  let (m, e) := if e % 2 = 0 then (m, e) else (2 * m, e - 1)
  (isqrt (m * 2 ^ 128), e / 2 - 64)

/-- RSQRT (R247): 2 ulp; a negative number gives NaN. -/
def fRsqrt (v : Nat) : Nat :=
  let v := flushF32 v
  match f32.decode v with
  | .nan => f32.nan
  | .inf s => if s then f32.nan else 0
  | .fin s m e =>
    if m = 0 then f32.signed s f32.inf
    else if s then f32.nan
    else
      let (r, x) := sqrtParts m e
      nearF32 2 0x51 v (f32.roundRat 0 false 1 r (-x))

/-- SQRT (R247): 1 ulp. -/
def fSqrt (v : Nat) : Nat :=
  let v := flushF32 v
  match f32.decode v with
  | .nan => f32.nan
  | .inf s => if s then f32.nan else f32.inf
  | .fin s m e =>
    if m = 0 then v
    else if s then f32.nan
    else
      let (r, x) := sqrtParts m e
      nearF32 1 0x52 v (f32.round 0 false r x (r * r != m * 2 ^ 128))

/-- The finite value of a pattern at scale 2^96, cut. -/
def fxOf (neg : Bool) (m : Nat) (e : Int) : Int :=
  let k := e + 96
  let v : Int := if 0 ≤ k then (m : Int) * 2 ^ k.toNat else m / 2 ^ (-k).toNat
  if neg then -v else v

/-- EXP2 (R247): 2 ulp. -/
def fExp2 (v : Nat) : Nat :=
  let v := flushF32 v
  match f32.decode v with
  | .nan => f32.nan
  | .inf s => if s then 0 else f32.inf
  | .fin s m e =>
    if m = 0 then nearF32 2 0x53 v 0x3F800000
    else if 8 < e + bitLen m then (if s then nearF32 2 0x53 v 0 % f32.sign else f32.inf)
    else
      let x := fxOf s m e
      let one : Int := fxOne
      nearF32 2 0x53 v (f32.round 0 false (fxExp2 (x % one).toNat) (x / one - 96) true) % f32.sign

/-- LOG2 (R247): 2 ulp outside [0.5, 2], absolute 2^-21 inside; 0 gives -infinity, a negative number NaN. -/
def fLog2 (v : Nat) : Nat :=
  let v := flushF32 v
  match f32.decode v with
  | .nan => f32.nan
  | .inf s => if s then f32.nan else f32.inf
  | .fin s m e =>
    if m = 0 then f32.signed true f32.inf
    else if s then f32.nan
    else
      let k := bitLen m - 1
      let l : Int := (fxLog2 (m * 2 ^ (96 - k)) : Int) + (e + k) * (fxOne : Int)
      if 0x3F000000 ≤ v ∧ v ≤ 0x40000000 then nearAbs 0x54 v 21 l false
      else nearF32 2 0x54 v (f32.ofInt 0 l (-96) false)

/-- SINTURN and COSTURN (R247): absolute 2^-20 up to 256 turns; beyond that any value in [-1, 1]. An infinity gives NaN. -/
def fSinTurn (op : Nat) (cos : Bool) (v : Nat) : Nat :=
  let v := flushF32 v
  match f32.decode v with
  | .nan | .inf _ => f32.nan
  | .fin s m e =>
    if v % f32.sign ≤ 0x43800000 then
      nearAbs op v 20 (fxSinTurn (fxOf s m e + if cos then (fxOne : Int) / 4 else 0)) true
    else nearAbs op v 0 0 true

end Sys2Proof.Machine
end

