-- ==== Sys2Proof/Machine/Raster.lean ====
section
/-! DEFINITION. Machine/Raster.lean: the raster engine's own work: tile memory, target loads and stores, depth and stencil tests, blending, waves
started and tiles rendered on the clusters a job holds (R210-R219, R237-R241). The manual fixes no rasterisation arithmetic, so coverage, depth and
interpolated values come as operands of the commands (log entry 62). -/
namespace Sys2Proof.Machine

/-! Colour formats (R163, R213) -/

/-- Bytes of a sample of a target format. -/
def targetBytes (f : Nat) : Nat := if f = 0x40 then 8 else if f = 8 then 8 else if f = 9 then 1 else if 6 ≤ f then 2 else 4

/-- Place and width of the R, G, B and A components in a format's memory representation; width 0 where the format lacks it. -/
def compFields (f : Nat) : List (Nat × Nat) :=
  match f with
  | 1 => [(16, 8), (8, 8), (0, 8), (24, 8)]
  | 2 => [(16, 8), (8, 8), (0, 8), (0, 0)]
  | 3 => [(0, 8), (8, 8), (16, 8), (24, 8)]
  | 4 => [(20, 10), (10, 10), (0, 10), (30, 2)]
  | 5 => [(0, 10), (10, 10), (20, 10), (30, 2)]
  | 6 => [(11, 5), (5, 6), (0, 5), (0, 0)]
  | 7 => [(10, 5), (5, 5), (0, 5), (15, 1)]
  | 8 => [(0, 16), (16, 16), (32, 16), (48, 16)]
  | _ => [(0, 0), (0, 0), (0, 0), (0, 8)]

/-- A component as FP32 (R213 step 1): v / (2^n - 1) correctly rounded; binary16 exactly; a missing one is `miss`. -/
def compToF32 (f : Nat) (w v miss : Nat) : Nat :=
  if w = 0 then miss else if f = 8 then fpConvert f16 f32 0 v else f32.fromUnorm 0 (2 ^ w - 1) v

/-- R, G, B, A of a stored sample as FP32: A8 is (0, 0, 0, a); a format without alpha has A = 1.0 (R251). -/
def sampleToF32 (f v : Nat) : List Nat :=
  ((compFields f).zipIdx).map fun x =>
    compToF32 f x.1.2 (v / 2 ^ x.1.1 % 2 ^ x.1.2) (if x.2 = 3 then 0x3F800000 else 0)

/-- A component converted back (R213 step 3). -/
def f32ToComp (f w v : Nat) : Nat := if f = 8 then fpConvert f32 f16 0 v else f32.toUnorm (2 ^ w - 1) v

/-- A blend factor of one component (R213): code, source and stored colour of the component, source and stored alpha. -/
def blendFactor (code sc dc sa da : Nat) : Nat :=
  let one := 0x3F800000
  match code with
  | 0 => 0 | 1 => one | 2 => sa | 3 => f32.sub 0 one sa | 4 => da | 5 => f32.sub 0 one da
  | 6 => sc | 7 => f32.sub 0 one sc | 8 => dc | _ => f32.sub 0 one dc

/-- One blended component (R213 step 2). -/
def blendComp (op sf df s d : Nat) : Nat :=
  let p := f32.mul 0 s sf
  let q := f32.mul 0 d df
  match op with
  | 0 => f32.add 0 p q
  | 1 => f32.sub 0 p q
  | 2 => f32.sub 0 q p
  | 3 => f32.minmax false s d
  | _ => f32.minmax true s d

/-- A BLEND dword has only codes of its table (R213). -/
def blendOk (b : Nat) : Bool :=
  let op := fun v => decide (v ≤ 4)
  let fac := fun v => decide (v ≤ 9)
  op (fld b 11 9) && op (fld b 22 20) && fac (fld b 4 1) && fac (fld b 8 5) && fac (fld b 15 12) && fac (fld b 19 16) &&
    fld b 23 23 == 0 && fld b 31 28 == 0

/-- R213: the stored sample after a fragment's colour (R, G, B, A as FP32). With EN = 0 the colour is converted and stored, whatever MASK holds. -/
def blendSample (f b stored : Nat) (src : List Nat) : Nat :=
  let dst := sampleToF32 f stored
  let sa := src.getD 3 0
  let da := dst.getD 3 0
  let comp := fun (i : Nat) =>
    let s := src.getD i 0
    let d := dst.getD i 0
    if !bit b 0 then s
    else if i = 3 then blendComp (fld b 22 20) (blendFactor (fld b 15 12) s d sa da) (blendFactor (fld b 19 16) s d sa da) s d
    else blendComp (fld b 11 9) (blendFactor (fld b 4 1) s d sa da) (blendFactor (fld b 8 5) s d sa da) s d
  ((compFields f).zipIdx).foldl (fun v x =>
    let ((lsb, w), i) := x
    if w = 0 || (bit b 0 && !bit b (24 + i)) then v
    else v - (v / 2 ^ lsb % 2 ^ w) * 2 ^ lsb + f32ToComp f w (comp i) % 2 ^ w * 2 ^ lsb) stored

/-- RESOLVE (R210): the mean of the samples, formed exactly and converted back once (R213 step 3). Stencil values have no mean that the manual
gives: a free value stands for it. -/
def resolveSamples (f fresh : Nat) (vs : List Nat) : Nat :=
  let n := max 1 vs.length
  let mean := fun (fmt : FpFmt) (xs : List Nat) =>
    let ds := xs.map fmt.decode
    if ds.any fun d => match d with | .fin _ _ _ => false | _ => true then
      -- an infinity or NaN takes part
      f32.mul 0 (ds.foldl (fun a d => f32.sum 0 (f32.decode a) d) 0) (f32.roundRat 0 false 1 n 0)
    else
      let e := ds.foldl (fun a d => min a d.exp) 0
      let t := ds.foldl (fun (a : Int) d => a + d.at' e) 0
      if t = 0 then 0 else f32.roundRat 0 (decide (t < 0)) t.natAbs n e
  if f = 0x40 then mean f32 (vs.map (· % 2 ^ 32)) + (Config.freeWord fresh).toNat % 256 * 2 ^ 32
  else if f = 8 then
    ((compFields f).map fun x =>
      let ds := (vs.map fun v => v / 2 ^ x.1 % 65536).map f16.decode
      let r := if ds.any fun d => match d with | .fin _ _ _ => false | _ => true then
          fpConvert f32 f16 0 (mean f16 (vs.map fun v => v / 2 ^ x.1 % 65536))
        else
          let e := ds.foldl (fun a d => min a d.exp) 0
          let t := ds.foldl (fun (a : Int) d => a + d.at' e) 0
          if t = 0 then 0 else f16.roundRat 0 (decide (t < 0)) t.natAbs n e
      r * 2 ^ x.1).sum
  else
    ((compFields f).map fun x =>
      let t := (vs.map fun v => v / 2 ^ x.1 % 2 ^ x.2).sum
      let q := t / n
      let r := t % n
      (if 2 * r > n ∨ (2 * r = n ∧ q % 2 = 1) then q + 1 else q) * 2 ^ x.1).sum

/-! Tile memory (R215) -/

/-- Sample count of a pass (R210). -/
def sampleCount (c : Nat) : Nat := 2 ^ c

/-- Key of a value in tile memory: pixel of the tile, sample, slot (0-3 colour, 4 depth, 5 stencil). -/
def cellKey (pixel sample slot : Nat) : Nat := pixel * 32 + sample * 8 + slot

/-- R215: bytes of tile memory per sample. -/
def tileBytes (ts : Vector Target 5) (pls : Bool) : Nat :=
  ((allFin 5).map fun i =>
    let t := at' ts i
    if !t.enable then 0 else if i.val = 4 ∨ t.format = 8 then 8 else 4).sum + (if pls then 16 else 0)

/-- Tiles across a pass, and in all (R218). -/
def Pass.tilesX (p : Pass) : Nat := ceilDiv p.width 32
@[inherit_doc Pass.tilesX] def Pass.tileCount (p : Pass) : Nat := p.tilesX * ceilDiv p.height 32

/-- Bytes of a tile image in the spill area (R218). -/
def Pass.imageBytes (p : Pass) : Nat := 1024 * p.samples * tileBytes p.targets p.pls

/-- Pixel coordinates of pixel `i` of a tile. -/
def Pass.pixelAt (p : Pass) (tile i : Nat) : Nat × Nat := (tile % p.tilesX * 32 + i % 32, tile / p.tilesX * 32 + i / 32)

/-- Pixels of a tile that lie in the pass. -/
def Pass.tilePixels (p : Pass) (tile : Nat) : List Nat :=
  (List.range 1024).filter fun i => let (x, y) := p.pixelAt tile i; decide (x < p.width) && decide (y < p.height)

/-- A target's samples lie one after another for each pixel; a resolved target has one (R210). -/
def Target.column (t : Target) (samples x sm : Nat) : Nat := if t.store = 2 then x else x * samples + sm

/-- Address of a sample in a target that is not OZC. -/
def Target.sampleAddr (t : Target) (samples x y sm : Nat) : Nat := t.addr + y * t.stride + t.column samples x sm * targetBytes t.format

/-- A ply's device memory with unmapped bytes reading 0; reads are tested for mapping first. -/
def State.peek (s : State) (p : Fin 64) (a : Nat) : Byte :=
  match s.plyRead p a 1 with
  | some (b :: _) => b
  | _ => 0

/-- One stored sample of a target: plain, or out of its OZC block (R169-R172). -/
def State.targetSample (s : State) (p : Fin 64) (t : Target) (samples x y sm : Nat) : Nat :=
  if t.ozc then
    let o := ozcShape t.format 0
    let cx := t.column samples x sm
    let slot := o.slotAddr t.addr t.stride (cx / o.w) (y / o.h)
    let ha := o.headerAddr t.header t.stride (cx / o.w) (y / o.h)
    let e := (s.peek p ha).toNat + 256 * (s.peek p (ha + 1)).toNat
    o.pack (o.decode e ((List.range 256).map fun i => s.peek p (slot + i)) (y % o.h * o.w + cx % o.w))
  else leAt ((List.range (targetBytes t.format)).map fun i => s.peek p (t.sampleAddr samples x y sm + i)) 0 (targetBytes t.format)

/-- Address ranges of a target that a tile touches: its rows, and its header rows where it is OZC. -/
def Pass.targetRanges (pa : Pass) (t : Target) (tile : Nat) : List (Nat × Nat) :=
  let (x0, y0) := pa.pixelAt tile 0
  let w := min 32 (pa.width - x0)
  let h := min 32 (pa.height - y0)
  let k := if t.store = 2 then 1 else pa.samples
  if t.ozc then
    let o := ozcShape t.format 0
    let bx0 := x0 * k / o.w
    let bx1 := ((x0 + w) * k - 1) / o.w
    ((List.range (ceilDiv h o.h)).map fun i => (o.slotAddr t.addr t.stride bx0 (y0 / o.h + i), 256 * (bx1 - bx0 + 1))) ++
      (List.range (ceilDiv h o.h)).map fun i => (o.headerAddr t.header t.stride bx0 (y0 / o.h + i), 2 * (bx1 - bx0 + 1))
  else (List.range h).map fun i => (t.addr + (y0 + i) * t.stride + x0 * k * targetBytes t.format, w * k * targetBytes t.format)

/-- First of a list of ranges that cannot be read, or written, as a whole, if any (R36, R281). -/
def State.firstUnreachable (s : State) (p : Fin 64) (write : Bool) (rs : List (Nat × Nat)) : Option (Nat × Nat) :=
  rs.find? fun r => (unitsIn r.1 r.2).any fun u => s.unreachable p (max u r.1) write

/-- MEM transfers of reads of a list of ranges, and of writes of it (R44, R285). -/
def rangeUnits (rs : List (Nat × Nat)) : Nat := (rs.map fun r => unitsOf r.1 r.2).sum
@[inherit_doc rangeUnits] def rangeCost (rs : List (Nat × Nat)) : Nat := (rs.map fun r => writeCost r.1 r.2).sum

/-- MEM for a job's reads of some ranges: none while credits are refused; else the state, in which the ply has faulted where a range cannot be
read (R36, R44, R281). -/
def State.readRanges (s : State) (p : Fin 64) (rs : List (Nat × Nat)) : Option (State × Bool) :=
  (s.takeMem (plyHolder p) (rangeUnits rs) rs).map fun s => match s.firstUnreachable p false rs with
    | some (a, n) => (s.faultAt p a n false .raster, false)
    | none => (s, true)

/-- The tile's contents at the start of its render: out of the spill area, or from each target's load op (R210, R217). A LOAD from a
single-sample target into several samples has no stated value: it is free. -/
def State.loadCells (s : State) (j : Job) (pa : Pass) (tile : Nat) : List (Nat × Nat) × List (Nat × Word) :=
  match Map.find pa.spilled tile with
  | some x => x
  | none =>
    let one := fun (i : Fin 5) (px sm : Nat) =>
      let t := at' pa.targets i
      let (x, y) := pa.pixelAt tile px
      if !t.enable then []
      else
        let v := match t.load with
          | 0 => if t.store = 2 ∧ 1 < pa.samples then
              (Config.freeWord (s.dev.fresh + (px * 64 + sm * 8 + i.val) * 2)).toNat + 2 ^ 32 * (Config.freeWord (s.dev.fresh + (px * 64 + sm * 8 + i.val) * 2 + 1)).toNat
            else s.targetSample j.ply t pa.samples x y sm
          | 1 => t.clear
          | _ => 0
        if i.val = 4 then [(cellKey px sm 4, v % 2 ^ 32), (cellKey px sm 5, v / 2 ^ 32 % 256)]
        else [(cellKey px sm i.val, v % 2 ^ (8 * targetBytes t.format))]
    ((pa.tilePixels tile).flatMap fun px => (List.range pa.samples).flatMap fun sm => (allFin 5).flatMap fun i => one i px sm, [])

/-- Ranges that a tile's load reads. -/
def Pass.loadRanges (pa : Pass) (tile : Nat) : List (Nat × Nat) :=
  if (Map.find pa.spilled tile).isSome then [(pa.spill + tile * pa.imageBytes, pa.imageBytes)]
  else (allFin 5).flatMap fun i => let t := at' pa.targets i; if t.enable && t.load == 0 then pa.targetRanges t tile else []

/-- Ranges that a tile's final store writes. -/
def Pass.storeRanges (pa : Pass) (tile : Nat) : List (Nat × Nat) :=
  (allFin 5).flatMap fun i => let t := at' pa.targets i; if t.enable && t.store != 1 then pa.targetRanges t tile else []

/-- A value out of tile memory. -/
def cellOf (cells : List (Nat × Nat)) (px sm slot : Nat) : Nat := Map.get cells 0 (cellKey px sm slot)

/-- Memory representation of a sample in tile memory. -/
def sampleCell (cells : List (Nat × Nat)) (i : Fin 5) (px sm : Nat) : Nat :=
  if i.val = 4 then cellOf cells px sm 4 + 2 ^ 32 * cellOf cells px sm 5 else cellOf cells px sm i.val

/-- What a tile stores at a pixel and sample of a target: the sample, or the mean of the samples. -/
def Pass.stored (pa : Pass) (fresh : Nat) (cells : List (Nat × Nat)) (i : Fin 5) (px sm : Nat) : Nat :=
  let t := at' pa.targets i
  if t.store = 2 then resolveSamples t.format (fresh + px) ((List.range pa.samples).map fun k => sampleCell cells i px k)
  else sampleCell cells i px sm

/-- Writes of one target's tile: (address, bytes). An OZC target takes the canonical encoding of every block the tile covers (R173, R210); the
samples of a block that lie outside the pass keep what the block held. -/
def State.targetWrites (s : State) (p : Fin 64) (pa : Pass) (cells : List (Nat × Nat)) (tile : Nat) (i : Fin 5) : List (Nat × List Byte) :=
  let t := at' pa.targets i
  let k := if t.store = 2 then 1 else pa.samples
  let (x0, y0) := pa.pixelAt tile 0
  if t.ozc then
    let o := ozcShape t.format 0
    let nb := ceilDiv (min 32 (pa.width - x0) * k) o.w
    (List.range (ceilDiv (min 32 (pa.height - y0)) o.h)).flatMap fun by' => (List.range nb).flatMap fun bx =>
      let raw := (List.range o.samples).flatMap fun n =>
        let cx := x0 * k + bx * o.w + n % o.w
        let y := y0 + by' * o.h + n / o.w
        let x := cx / k
        let v := if x < pa.width ∧ y < pa.height then pa.stored s.dev.fresh cells i ((y - y0) * 32 + (x - x0)) (cx % k)
          else s.targetSample p t pa.samples x y (cx % k)
        bytesOf o.bps v
      let (e, slot) := o.encode raw
      [(o.slotAddr t.addr t.stride (x0 * k / o.w + bx) (y0 / o.h + by'), slot),
       (o.headerAddr t.header t.stride (x0 * k / o.w + bx) (y0 / o.h + by'), bytesOf 2 e)]
  else
    (pa.tilePixels tile).flatMap fun px => (List.range k).map fun sm =>
      let (x, y) := pa.pixelAt tile px
      (t.sampleAddr pa.samples x y sm, bytesOf (targetBytes t.format) (pa.stored s.dev.fresh cells i px sm))

/-- Writes made one after another; none on an unmapped address. -/
def State.plyWrites (s : State) (p : Fin 64) (eng : Engine) (ws : List (Nat × List Byte)) : Option State :=
  ws.foldlM (fun (s : State) w => s.plyWrite p eng w.1 w.2) s

/-! Depth and stencil (R210, R212) -/

/-- A depth or stencil function: the new value against the stored one. -/
def testFn (code : Nat) (lt eq : Bool) : Bool :=
  match code with
  | 0 => false | 1 => lt | 2 => eq | 3 => lt || eq | 4 => !lt && !eq | 5 => !eq | 6 => !lt | _ => true

/-- Stencil pass operation. -/
def stencilOp (op ref v : Nat) : Nat :=
  match op with
  | 0 => v | 1 => 0 | 2 => ref | 3 => min 255 (v + 1) | 4 => v - 1 | 5 => 255 - v | 6 => (v + 1) % 256 | _ => (v + 255) % 256

/-- Depth and stencil test of one sample with its writes: whether the sample passes, and the tile memory after it. Stencil fail and depth fail keep
the stored values. -/
def depthStencil (r : Raster) (on : Bool) (cells : List (Nat × Nat)) (px sm depth : Nat) : Bool × List (Nat × Nat) :=
  if !on then (true, cells)
  else
    let st := cellOf cells px sm 5
    let mask := fld r.d7 15 8
    let wmask := fld r.d7 23 16
    let a := Nat.land (fld r.d7 7 0) mask
    let b := Nat.land st mask
    let sOk := !bit r.d6 8 || testFn (fld r.d7 26 24) (decide (a < b)) (decide (a = b))
    let z := cellOf cells px sm 4
    let nan := f32.isNan depth || f32.isNan z
    let dOk := !bit r.d6 3 || (match fld r.d6 7 5 with
      | 0 => false
      | 7 => true
      | c => if nan then c == 5 else testFn c (f32.cmp 0 depth z) (f32.cmp 1 depth z))
    if !(sOk && dOk) then (false, cells)
    else
      let cells := if bit r.d6 4 then Map.ins cells (cellKey px sm 4) depth else cells
      let cells := if bit r.d6 8 then
          let n := stencilOp (fld r.d7 29 27) (fld r.d7 7 0) st
          Map.ins cells (cellKey px sm 5) (Nat.land n wmask + Nat.land st (255 - wmask))
        else cells
      (true, cells)

/-- The samples of a mask that pass, and the tile memory after their tests. -/
def testSamples (r : Raster) (on : Bool) (cells : List (Nat × Nat)) (px cover : Nat) (depth : Nat → Nat) : Nat × List (Nat × Nat) :=
  (List.range 4).foldl (fun (acc : Nat × List (Nat × Nat)) sm =>
    if bit cover sm then
      let (ok, cells) := depthStencil r on acc.2 px sm (depth sm)
      (if ok then acc.1 + 2 ^ sm else acc.1, cells)
    else acc) (0, cells)

/-- Pixel of the tile of lane `l` of a quad. -/
def FragQuad.pixel (q : FragQuad) (l : Nat) : Nat := (q.y % 32 + l / 2) * 32 + q.x % 32 + l % 2

/-- Whether a pixel of the pass lies in the scissor (R210). -/
def Raster.inScissor (r : Raster) (x y : Nat) : Bool :=
  decide (fld r.d4 13 0 ≤ x) && decide (fld r.d4 29 16 ≤ y) && decide (x < fld r.d5 13 0) && decide (y < fld r.d5 29 16)

/-! Waves (R237-R241) -/

/-- R238: register-file bytes of a wave of a stage, and the most waves of it that a partition holds. -/
def Stage.waveBytes (g : Stage) : Nat := 256 + 4 * ceilTo g.sregs 16 + 128 * ceilTo g.vregs 8
@[inherit_doc Stage.waveBytes] def Stage.waveLimit (g : Stage) : Nat := min 16 (63488 / g.waveBytes)

/-- Whether partition `k` of a cluster has room for `n` more waves of a stage. -/
def Context.room (x : Context) (k : Nat) (g : Stage) (n : Nat) : Bool :=
  let ws := x.waves.filter (·.part == k)
  decide (ws.length + n ≤ 16) && decide ((ws.map (·.stage.waveBytes)).sum + n * g.waveBytes ≤ 63488)

/-- A wave at its start: registers and predicates 0 but for the preloads, then the constants (R240, R241). -/
def Stage.start (g : Stage) (id part : Nat) (work : WaveWork) (live : BitVec 32) (v s : List (Nat × Word)) (p0 : BitVec 32) : Wave :=
  let vs := v.foldl (fun m e => if e.1 / 32 < g.vregs then Map.setD m 0 e.1 e.2 else m) []
  let ss := (s ++ g.consts).foldl (fun m e => if e.1 < g.sregs then Map.setD m 0 e.1 e.2 else m) []
  { id := id, part := part, work := work, stage := g, pc := g.code, amask := live, live := live, killed := 0, v := vs, s := ss,
    p := put (Vector.replicate 8 0) 0 p0, stack := [], barrier := false, outs := [] }

/-- A mask of the first `n` lanes. -/
def firstLanes (n : Nat) : BitVec 32 := BitVec.ofNat 32 (2 ^ min n 32 - 1)

/-- A mask of the lanes that satisfy a test. -/
def laneMask (f : Nat → Bool) : BitVec 32 := BitVec.ofNat 32 (((List.range 32).map fun i => if f i then 2 ^ i else 0).sum)

/-- Every lane of vector registers from a function. -/
def laneRegs (reg : Nat) (f : Nat → Nat) : List (Nat × Word) := (List.range 32).map fun i => (reg * 32 + i, word (f i))

/-- A FP32 pattern of a pixel centre: x + 0.5. -/
def pixelCentre (x : Nat) : Nat := f32.ofInt 0 ((2 * x + 1 : Nat) : Int) (-1) false

/-- Index of a draw's vertex at a position, or none where it restarts the primitive (R210). None of none: the index cannot be read. -/
def State.vertexIndex (s : State) (p : Fin 64) (d : Draw) (pos : Nat) : Option (Option Nat) :=
  match d.indexed with
  | none => some (some ((d.first + pos) % 2 ^ 32))
  | some (size, restart, ofs, addr) =>
    match s.plyRead p (addr + size * (d.first + pos)) size with
    | none => none
    | some bs =>
      let i := leAt bs 0 size
      if restart && i == 2 ^ (8 * size) - 1 then some none else some (some (unsigned 32 ((i : Int) + ofs)))

/-- The draw in binning. -/
def Pass.current (pa : Pass) : Option Draw := if pa.binning then pa.draws.getLast? else none

/-- A pass with its last draw changed. -/
def Pass.updLast (pa : Pass) (f : Draw → Draw) : Pass := { pa with draws := pa.draws.zipIdx.map fun x => if x.2 + 1 = pa.draws.length then f x.1 else x.1 }

/-- A job's open pass changed. -/
def State.updPass (s : State) (o : Nat) (f : Pass → Pass) : State := s.updJob o fun j => { j with pass := j.pass.map f }

/-- Every vertex of the draw in binning has been shaded. -/
def Draw.shaded (d : Draw) : Bool := (decide (d.insts ≤ d.nextInst) || d.count == 0) && d.inFlight == 0

/-- A vertex wave starts on a cluster: up to 32 consecutive vertices of one instance, with their indices out of memory (R44, R237, R241). -/
def State.launchVertex (s : State) (c : Fin 16) (j : Job) (d : Draw) : State :=
  let n := min 32 (d.count - d.nextPos)
  match s.readRanges j.ply (match d.indexed with | some (size, _, _, addr) => [(addr + size * (d.first + d.nextPos), size * n)] | none => []) with
  | none => s
  | some (s, false) => s
  | some (s, true) =>
    let vals := (List.range n).map fun i => (s.vertexIndex j.ply d (d.nextPos + i)).getD none
    let stage := at' d.pipe.stages 0
    let live := laneMask fun i => (vals.getD i none).isSome
    let w := stage.start j.nextWave (j.nextWave % 4) (.vertex (match j.pass with | some pa => pa.draws.length - 1 | none => 0) d.nextInst d.nextPos n) live
      (laneRegs 0 (fun i => (vals.getD i none).getD 0) ++ laneRegs 1 fun _ => d.firstInst + d.nextInst) [] 0
    let restarts := (vals.zipIdx.filter fun x => x.1.isNone).map fun x => d.nextPos + x.2
    let last := decide (d.count ≤ d.nextPos + n)
    let s := s.updJob j.order fun j => { j with nextWave := j.nextWave + 1, pass := j.pass.map fun pa => pa.updLast fun d =>
      { d with nextInst := if last then d.nextInst + 1 else d.nextInst, nextPos := if last then 0 else d.nextPos + n,
               restarts := if d.nextInst = 0 then d.restarts ++ restarts else d.restarts, inFlight := d.inFlight + 1 } }
    s.updCluster c fun k => { k with ctx := { k.ctx with waves := k.ctx.waves ++ [w] } }

/-- Lanes of a workgroup and its waves. -/
def Stage.lanes (g : Stage) : Nat := g.wx * g.wy * g.wz
@[inherit_doc Stage.lanes] def Stage.waves (g : Stage) : Nat := ceilDiv g.lanes 32

/-- A workgroup starts on a cluster: wave w on partition w mod 4, lanes in local index order (R237, R238, R241). -/
def State.launchGroup (s : State) (c : Fin 16) (j : Job) (d : Dispatch) : State :=
  let g := d.stage
  let ws := (List.range g.waves).map fun w =>
    let lin := fun i => 32 * w + i
    g.start (j.nextWave + w) (w % 4) (.compute j.nextGroup) (laneMask fun i => decide (lin i < g.lanes))
      (laneRegs 0 (fun i => lin i % max 1 g.wx) ++ laneRegs 1 (fun i => lin i / max 1 g.wx % max 1 g.wy) ++
        laneRegs 2 fun i => lin i / max 1 (g.wx * g.wy))
      [(124, word (d.next % d.nx)), (125, word (d.next / d.nx % d.ny)), (126, word (d.next / (d.nx * d.ny))), (127, word w)] 0
  let seed := s.dev.fresh
  let s := (s.onDev fun d => { d with fresh := d.fresh + 1 }).updJob j.order fun j =>
    { j with nextWave := j.nextWave + g.waves, nextGroup := j.nextGroup + 1,
             dispatches := match j.dispatches with
               | x :: t => if x.next + 1 < x.nx * x.ny * x.nz then { x with next := x.next + 1 } :: t else t
               | [] => [] }
  s.updCluster c fun k => { k with ctx := { k.ctx with
    waves := k.ctx.waves ++ ws, groups := k.ctx.groups ++ [{ id := j.nextGroup, waves := g.waves, size := g.lds, lds := [], seed := seed }] } }

/-- Whether a cluster has room for a workgroup (R238). -/
def Context.groupFits (x : Context) (g : Stage) : Bool :=
  (List.range 4).all (fun k => x.room k g (ceilDiv g.waves 4)) && decide ((x.groups.map (·.size)).sum + g.lds ≤ 131072)

/-! Fragments (R212, R219, R220, R237) -/

/-- The memory ports read shader code in the same way for every use: an instruction word of a job's code snapshot at a device address. -/
def State.codeBytes (s : State) (j : Job) (addr n : Nat) : Option (List Byte) := (s.over j.code).plyRead j.ply addr n

/-- Whether a shader holds an OUT.DEPTH: its words are scanned in order from the start up to the first word of no instruction format's use, at most
4,096 of them (R212; log entry 64). -/
def State.writesDepth (s : State) (j : Job) (addr : Nat) : Nat → Bool
  | 0 => false
  | n + 1 =>
    match s.codeBytes j addr 8 with
    | none => false
    | some bs =>
      let w := le64 bs 0
      if fld w 63 54 = 0x263 then true
      else if w = 0 then false
      else s.writesDepth j (addr + if bit w 48 then 12 else 8) n

/-- Lanes that the raster operations leave to a quad: inside the pass and the scissor, the face not culled, the primitive's vertices all with a
position (R210, R250). -/
def Pass.liveCover (pa : Pass) (r : Raster) (q : FragQuad) (whole : Bool) (l : Nat) : Nat :=
  let x := q.x + l % 2
  let y := q.y + l / 2
  let cull := fld r.d6 1 0
  if !whole || (cull == 1 && q.front) || (cull == 2 && !q.front) then 0
  else if decide (x < pa.width) && decide (y < pa.height) && r.inScissor x y then
    (atD q.lanes l { cover := 0, depth := [], z := 0, invw := 0, vars := [] }).cover % 2 ^ pa.samples
  else 0

/-- Positions of a draw between restarts, as (first, count). -/
def Draw.segments (d : Draw) : List (Nat × Nat) :=
  let cuts := d.restarts ++ [d.count]
  (cuts.foldl (fun (acc : Nat × List (Nat × Nat)) c => (c + 1, acc.2 ++ [(acc.1, c - acc.1)])) (0, [])).2

/-- Primitives of `n` positions in a topology, and the positions of one of them (R210). -/
def topoCount (topo n : Nat) : Nat :=
  match topo with
  | 0 => n | 1 => n / 2 | 2 => n - 1 | 3 => n / 3 | _ => n - 2
@[inherit_doc topoCount] def topoVerts (topo k : Nat) : List Nat :=
  match topo with
  | 0 => [k] | 1 => [2 * k, 2 * k + 1] | 2 => [k, k + 1] | 3 => [3 * k, 3 * k + 1, 3 * k + 2] | 4 => [k, k + 1, k + 2] | _ => [0, k + 1, k + 2]

/-- Positions of primitive `k` of an instance of a draw; none past its last primitive. -/
def Draw.primVerts (d : Draw) (k : Nat) : List Nat :=
  let go := d.segments.foldl (fun (acc : Nat × List Nat) seg =>
    let n := topoCount d.topo seg.2
    if acc.2 != [] then acc
    else if acc.1 < n then (0, (topoVerts d.topo acc.1).map (seg.1 + ·))
    else (acc.1 - n, [])) (k, [])
  go.2

/-- A vertex's exports. -/
def Draw.vertOut (d : Draw) (inst pos : Nat) : Option VertOut := Map.find d.outs (inst * d.count + pos)

/-- Whether every vertex of a quad's primitive exported a position (R250). -/
def Draw.whole (d : Draw) (q : FragQuad) : Bool :=
  let vs := d.primVerts q.prim
  vs != [] && vs.all fun v => match d.vertOut q.inst v with
    | some o => o.pos != []
    | none => false

/-- Whether every vertex of the primitive exported a varying (R247, INTERP). -/
def Draw.exported (d : Draw) (q : FragQuad) (var : Nat) : Bool :=
  (d.primVerts q.prim).all fun v => match d.vertOut q.inst v with
    | some o => (Map.find o.vars var).isSome
    | none => false

/-- Tile of a quad. -/
def Pass.tileOf (pa : Pass) (q : FragQuad) : Nat := q.y / 32 * pa.tilesX + q.x / 32

/-- A draw's quads as the passes take them: those at even pixels of the pass, in the order of primitives (R212). -/
def Pass.ordered (pa : Pass) (qs : List FragQuad) : List FragQuad :=
  sortBy (fun (a b : FragQuad) => decide (a.inst < b.inst) || (a.inst == b.inst && decide (a.prim ≤ b.prim)))
    (qs.filter fun x => x.x % 2 == 0 && x.y % 2 == 0 && decide (x.x < pa.width) && decide (x.y < pa.height))

/-- Waves of a tile's quads in their order: at most 8 quads each, no pixel twice (R237). -/
def packTile (qs : List FragQuad) : List (List FragQuad) :=
  (qs.foldl (fun (acc : List (List FragQuad)) q => match acc with
    | w :: t => if w.length < 8 && w.all (fun x => x.x != q.x || x.y != q.y) then (w ++ [q]) :: t else [q] :: acc
    | [] => [[q]]) []).reverse

/-- Quads of the last draw join the lists of their tiles (R212, R214, R237). -/
def Pass.addQuads (pa : Pass) (qs : List FragQuad) : Pass :=
  let waves := ((qs.map pa.tileOf).eraseDups).flatMap fun t => (packTile (qs.filter fun q => pa.tileOf q == t)).map fun w => (t, w)
  { pa with frags := pa.frags ++ (waves.zipIdx).map fun x => { draw := pa.draws.length - 1, tile := x.1.1, order := pa.nextOrder + x.2, quads := x.1.2 },
            nextOrder := pa.nextOrder + waves.length }

/-- A list in `n` pieces of one size, the last ones shorter. -/
def pieces {α : Type} (n : Nat) (l : List α) : List (List α) := (List.range n).map fun i => (l.drop (i * ceilDiv l.length n)).take (ceilDiv l.length n)

/-- Whether a fragment wave may start: earlier fragments of its pixels that write depth late have been shaded (R212). -/
def Context.orderOk (x : Context) (f : FragWave) : Bool :=
  x.waves.all fun w => match w.work with
    | .fragment g _ _ late => !late || decide (f.order ≤ g.order) || g.quads.all fun a => f.quads.all fun b => (a.x, a.y) != (b.x, b.y)
    | _ => true

/-- The depth and stencil test of a fragment whose shader writes depth: the samples that pass, and tile memory after it (R212). -/
def settleOut (d : Draw) (pa : Pass) (cells : List (Nat × Nat)) (o : FragOut) : FragOut × List (Nat × Nat) :=
  if !o.late then (o, cells)
  else
    let (cover, cells) := testSamples d.pipe.raster (at' pa.targets 4).enable cells o.pixel o.cover (fun sm => (o.depth.getD sm 0).toNat)
    ({ o with cover := cover, late := false }, cells)

/-- A shaded fragment takes effect: its test where that comes late, then its colours (R212, R213, R250). -/
def applyOut (d : Draw) (pa : Pass) (cells : List (Nat × Nat)) (o : FragOut) : List (Nat × Nat) :=
  let (o, cells) := settleOut d pa cells o
  let cover := o.cover
  o.colours.foldl (fun cells e =>
    match fin? 4 e.1 with
    | none => cells
    | some i =>
      let t := atD pa.targets i.val Target.zero
      if !t.enable then cells
      else (List.range pa.samples).foldl (fun cells sm =>
        if bit cover sm then
          Map.ins cells (cellKey o.pixel sm i.val) (blendSample t.format (at' d.pipe.blend i) (cellOf cells o.pixel sm i.val) (e.2.map (·.toNat)))
        else cells) cells) cells

/-- Shaded fragments in the order of primitives. -/
def Context.sorted (x : Context) : List FragOut := sortBy (fun (a b : FragOut) => decide (a.order ≤ b.order)) x.outs

/-- Shaded fragments take effect in the order of primitives, once nothing of the tile is in flight (R212). -/
def Pass.applyOuts (pa : Pass) (x : Context) : Context :=
  { x with cells := x.sorted.foldl (fun c o => match pa.draws[o.draw]? with | some d => applyOut d pa c o | none => c) x.cells, outs := [] }

/-- A wave's early tests see the depth and stencil of every earlier primitive (R212): the late tests of finished fragments at its pixels are made
before it starts. Their colours wait for their turn. -/
def Pass.settleLate (pa : Pass) (x : Context) (f : FragWave) : Context :=
  let mine := fun (o : FragOut) => o.late && decide (o.order < 64 * f.order) && f.quads.any fun q => (List.range 4).any fun l => q.pixel l == o.pixel
  let step := fun (acc : List FragOut × List (Nat × Nat)) (o : FragOut) =>
    match (if mine o then pa.draws[o.draw]? else none) with
    | some d => let (o, cells) := settleOut d pa acc.2 o; (acc.1 ++ [o], cells)
    | none => (acc.1 ++ [o], acc.2)
  let (outs, cells) := x.sorted.foldl step ([], x.cells)
  { x with cells := cells, outs := outs }

/-- A fragment wave starts on a cluster. Depth and stencil are tested first unless the shader writes depth (R212). -/
def State.launchFragment (s : State) (c : Fin 16) (j : Job) (pa : Pass) (f : FragWave) : State :=
  match pa.draws[f.draw]? with
  | none => s
  | some d =>
    let r := d.pipe.raster
    let stage := at' d.pipe.stages 1
    let late := s.writesDepth j stage.code 4096
    let on := (at' pa.targets 4).enable
    let ctx := pa.settleLate (s.cluster c).ctx f
    let step := fun (acc : List FragQuad × List (Nat × Nat)) (q : FragQuad) =>
      let (lanes, cells) := (List.range 4).foldl (fun (a : List FragLane × List (Nat × Nat)) l =>
        let x := atD q.lanes l { cover := 0, depth := [], z := 0, invw := 0, vars := [] }
        let cover := pa.liveCover r q (d.whole q) l
        if late then (a.1 ++ [{ x with cover := cover }], a.2)
        else
          let (ok, cells) := testSamples r on a.2 (q.pixel l) cover (fun sm => (x.depth.getD sm 0).toNat)
          (a.1 ++ [{ x with cover := ok }], cells)) ([], acc.2)
      (acc.1 ++ [{ q with lanes := Vector.ofFn fun i => lanes.getD i.val { cover := 0, depth := [], z := 0, invw := 0, vars := [] } }], cells)
    let (qs, cells) := f.quads.foldl step ([], ctx.cells)
    let s := s.updPass j.order fun pa => { pa with frags := pa.frags.filter (·.order != f.order) }
    let s := s.updCluster c fun k => { k with ctx := { ctx with cells := cells } }
    -- a wave all of whose fragments are gone does not start
    if qs.all fun q => q.lanes.toList.all fun l => l.cover == 0 then s
    else
      let lane := fun (i : Nat) => match qs[i / 4]? with
        | some q => some (q, atD q.lanes (i % 4) { cover := 0, depth := [], z := 0, invw := 0, vars := [] })
        | none => none
      let f' := { f with quads := qs }
      let w := stage.start j.nextWave (j.nextWave % 4) (.fragment f' 0 0 late) (firstLanes (4 * qs.length))
        (laneRegs 0 (fun i => match lane i with | some (q, _) => pixelCentre (q.x + i % 2) | none => 0) ++
         laneRegs 1 (fun i => match lane i with | some (q, _) => pixelCentre (q.y + i % 4 / 2) | none => 0) ++
         laneRegs 2 (fun i => match lane i with | some (_, l) => l.z.toNat | none => 0) ++
         laneRegs 3 (fun i => match lane i with | some (_, l) => l.invw.toNat | none => 0)) []
        (laneMask fun i => match lane i with | some (q, _) => q.front | none => false)
      (s.updJob j.order fun j => { j with nextWave := j.nextWave + 1 }).updCluster c fun k =>
        { k with ctx := { k.ctx with waves := k.ctx.waves ++ [w] } }

/-- A tile is done on a cluster: spilled in a partial render, or stored by its store ops (R217). The spill area's own layout is not given: its bytes
are free values, and the tile's contents stand in the pass. Answers none while MEM credits are refused. -/
def State.finishTile (s : State) (c : Fin 16) (j : Job) (pa : Pass) (tile : Nat) (final : Bool) : Option State :=
  let ctx := pa.applyOuts (s.cluster c).ctx
  let cells := ctx.cells
  let rs := if final then pa.storeRanges tile else [(pa.spill + tile * pa.imageBytes, pa.imageBytes)]
  match s.takeMem (plyHolder j.ply) (rangeCost rs) rs with
  | none => none
  | some s =>
    match s.firstUnreachable j.ply true rs with
    | some (a, n) => some (s.faultAt j.ply a n true .raster)
    | none =>
      let ws := if final then (allFin 5).flatMap fun i =>
          let t := at' pa.targets i
          if t.enable && t.store != 1 then s.targetWrites j.ply pa cells tile i else []
        else [(pa.spill + tile * pa.imageBytes, (List.range pa.imageBytes).map (Config.freeByte s.dev.fresh))]
      match (s.onDev fun d => { d with fresh := d.fresh + 1024 }).plyWrites j.ply .raster ws with
      | none => some (s.faultAt j.ply pa.spill 1 true .raster)
      | some s =>
        let s := s.updPass j.order fun pa =>
          { pa with spilled := if final then pa.spilled.filter (·.1 != tile) else Map.ins pa.spilled tile (cells, ctx.pls),
                    tilesDone := pa.tilesDone ++ [tile] }
        some (s.updCluster c fun k => { k with ctx := { k.ctx with tile := none, cells := [], pls := [], outs := [] } })

/-- A cluster takes the next tile of a render: it loads the tile (R214, R217). -/
def State.takeTile (s : State) (c : Fin 16) (j : Job) (pa : Pass) : State :=
  match pa.todo with
  | [] => s
  | t :: rest =>
    match s.readRanges j.ply (pa.loadRanges t) with
    | none => s
    | some (s, false) => s
    | some (s, true) =>
      let (cells, pls) := s.loadCells j pa t
      let s := if pa.targets.toList.any fun t => t.load == 0 && t.store == 2 then s.onDev fun d => { d with fresh := d.fresh + 131072 } else s
      (s.updPass j.order fun pa => { pa with todo := rest }).updCluster c fun k =>
        { k with ctx := { k.ctx with tile := some t, cells := cells, pls := pls, outs := [] } }

/-- Fragment waves of a tile in flight on a cluster. -/
def Context.fragsBusy (x : Context) : Bool := x.waves.any fun w => match w.work with
  | .fragment _ _ _ _ => true
  | _ => false

/-- One round of a render on a cluster. -/
def State.renderOn (s : State) (c : Fin 16) (j : Job) (pa : Pass) (final : Bool) : State :=
  match (s.cluster c).ctx.tile with
  | none => s.takeTile c j pa
  | some t =>
    match pa.frags.filter (·.tile == t) with
    | [] => if (s.cluster c).ctx.fragsBusy then s else (s.finishTile c j pa t final).getD s
    | f :: _ =>
      match pa.draws[f.draw]? with
      | none => s.updPass j.order fun pa => { pa with frags := pa.frags.filter (·.order != f.order) }
      | some d =>
        if (s.cluster c).ctx.room (j.nextWave % 4) (at' d.pipe.stages 1) 1 && (s.cluster c).ctx.orderOk f then s.launchFragment c j pa f else s

/-- A cluster takes the work that it has room for, one piece a round. -/
def State.feedOnce (s : State) (c : Fin 16) : State :=
  let k := s.cluster c
  match k.job with
  | none => s
  | some o => match s.dev.job o with
    | none => s
    | some j =>
      if k.saving || j.ended.isSome then s
      else match j.dispatches with
        | d :: _ => if k.ctx.groupFits d.stage then s.launchGroup c j d else s
        | [] => match j.pass with
          | none => s
          | some pa => match pa.render with
            | some final => s.renderOn c j pa final
            | none => match pa.current with
              | none => s
              | some d =>
                if decide (d.nextInst < d.insts) && d.count != 0 && k.ctx.room (j.nextWave % 4) (at' d.pipe.stages 0) 1 then s.launchVertex c j d
                else s

/-- Work goes to every cluster of a job until nothing fits any more (at most 64 rounds a cluster: a cluster holds 64 waves). -/
def State.pump (s : State) (o : Nat) : State :=
  s.each (s.dev.gfx.held o) fun s c => (List.range 64).foldl (fun s _ => s.feedOnce c) s

/-- A job stops: its waves end, its pass's pages are freed, and it will complete with the status (R209, R246). Work done stays in memory. -/
def State.stopJob (s : State) (o status : Nat) : State :=
  let s := s.freePages o
  let s := s.each (s.dev.gfx.held o) fun s c => s.updCluster c fun k => { k with ctx := Context.empty }
  s.updJob o fun j => { j with ended := some status, pass := none, dispatches := [], saved := [] }

end Sys2Proof.Machine
end

