-- ==== Sys2Proof/Machine/Sched.lean ====
section
/-! DEFINITION. Machine/Sched.lean: jobs and clusters: submission, the scheduling tiers, placement, class A preemption, saves, retirement (R206-R208,
R226-R232). -/
namespace Sys2Proof.Machine

/-! Power and reservations -/

/-- An island is up (R431). -/
def Dev.islandOn (d : Dev) (i : Nat) : Bool := atD d.power.islands i Island.off == .good

/-- A cluster that the variant enables, its island and the raster engine's own powered (R7, R431). -/
def Dev.clusterOn (d : Dev) (c : Fin 16) : Bool := decide (c.val < d.nClusters) && d.islandOn 8 && d.islandOn (9 + c.val / 2)

/-- Idle powered clusters. -/
def Dev.idleClusters (d : Dev) : List (Fin 16) := (allFin 16).filter fun c => d.clusterOn c && (at' d.gfx.clusters c).job.isNone

/-- Nothing of a cluster's context needs saving. -/
def Context.isEmpty (x : Context) : Bool := x.waves.isEmpty && x.groups.isEmpty && x.tile.isNone && x.outs.isEmpty

/-- Whether a job still has work that has not started: packets, workgroups, a pass, or work that was preempted (R226). -/
def Job.hasWork (j : Job) : Bool := !j.bufs.isEmpty || !j.dispatches.isEmpty || j.pass.isSome || !j.saved.isEmpty

/-- A ply's GFX reservation or guaranteed share. -/
def State.gfxGuar (s : State) (p : Fin 64) : Nat := at' (s.skein.acct .gfx).guar (plyHolder p)

/-- Admitted clusters of a class A job: a = min(requested, GUAR / 500) (R227). -/
def State.admitted (s : State) (j : Job) : Nat := min j.want (s.gfxGuar j.ply / 500)

/-- Latest start time L of a class A job (R227). -/
def Job.latest (j : Job) : Nat := if j.deadline = 0 then j.armed else max j.armed (j.deadline - j.wcet)

/-- Clusters that a job holds and is not losing. -/
def Dev.runningOn (d : Dev) (o : Nat) : Nat := ((d.gfx.held o).filter fun c => !(at' d.gfx.clusters c).saving).length

/-- Clusters that a job still wants: requested less held, while it has work that has not started (R226). -/
def Dev.wants (d : Dev) (j : Job) : Nat := if j.ended.isSome || !j.hasWork then 0 else j.want - (d.gfx.held j.order).length

/-- The job of a class A ply that is within its reservation: one already placed, else the one with the earliest L (R228). -/
def State.reserved (s : State) (p : Fin 64) : Option Job :=
  let js := s.dev.gfx.jobs.filter fun j => j.ply == p && decide (0 < s.admitted j)
  match js.find? fun j => j.started.isSome with
  | some j => some j
  | none => (sortBy (fun (a b : Job) => decide (a.latest < b.latest) || (a.latest == b.latest && decide (a.order ≤ b.order))) js).head?

/-- Whether a job is in tier 1: class A, within reservation, with admitted clusters still to be placed (R226, R228). -/
def State.tier1 (s : State) (j : Job) : Bool :=
  (s.ply j.ply).cls == .a && decide (s.dev.runningOn j.order < s.admitted j) && decide (0 < s.dev.wants j) &&
    (match s.reserved j.ply with | some x => x.order == j.order | none => false)

/-- A class A job that waits for the ply's earlier jobs within reservation (R228). -/
def State.heldBack (s : State) (j : Job) : Bool :=
  (s.ply j.ply).cls == .a && decide (0 < s.admitted j) && (match s.reserved j.ply with | some x => x.order != j.order | none => false)

/-- The class A job for which a cluster was preempted and that still waits for its clusters (R227; log entry 116). -/
def State.bound (s : State) (c : Fin 16) : Option Nat :=
  match (s.cluster c).dest with
  | none => none
  | some o => match s.dev.job o with
    | some j => if s.tier1 j then some o else none
    | none => none

/-- Whether a cluster may go to a job: it is kept for no other. -/
def State.freeFor (s : State) (o : Nat) (c : Fin 16) : Bool := match s.bound c with
  | none => true
  | some x => x == o

/-! Placement -/

/-- Bytes that the save of a context moves (R257): 2,048 bytes of pipeline state and the waves of each partition, the local data store's allocations,
and a graphics job's tile memory. -/
def Context.saveBytes (x : Context) (j : Job) : Nat :=
  4 * 2048 + (x.waves.map (·.stage.waveBytes)).sum + (x.groups.map (·.size)).sum +
    match j.pass with
    | some pa => if j.compute then 0 else pa.imageBytes
    | none => 0

/-- A cluster goes to a job: the first saved context resumes on it, or it starts with nothing (R229, R230, R258). The caches are invalidated at the
job's start (R225, R243). -/
def State.place (s : State) (o : Nat) (beyond : Bool) (c : Fin 16) : State :=
  match s.dev.job o with
  | none => s
  | some j =>
    let now := s.dev.devtime
    let dram := s.settledDram
    let place := s.dev.gfx.nextPlace
    let s := s.updCluster c fun _ =>
      { job := some o, ctx := j.saved.headD Context.empty, l1 := [], icache := [], tcache := [], saving := false, beyond := beyond, placed := place, dest := none }
    let s := s.onDev (·.updGfx fun g => { g with nextPlace := g.nextPlace + 1 })
    s.updJob o fun j => { j with saved := j.saved.drop 1, started := some (j.started.getD now), code := if j.started.isSome then j.code else dram,
                                 tex := if j.started.isSome then j.tex else dram }

/-- The take of 500 GFX per cluster and the placement, with MEM for the saved contexts that are read back; none where a take is refused (R44, R46). -/
def State.tryPlace (s : State) (j : Job) (beyond : Bool) (cs : List (Fin 16)) : Option State :=
  let back := (j.saved.take cs.length).map fun x => ceilDiv (x.saveBytes j) 64
  match (if back.sum = 0 then some s else s.takeMem (plyHolder j.ply) back.sum (match j.save with | some (a, _) => [(a, 64 * back.sum)] | none => [])) with
  | none => none
  | some s => (s.skein.take .gfx (plyHolder j.ply) (500 * cs.length)).map fun k =>
    (cs.foldl (fun (s : State) c => s.place j.order beyond c) { s with skein := k }).pump j.order

/-- A tier 1 job on all its admitted clusters at once, where enough powered clusters are idle (R226, R227). `first` is used before others. -/
def State.placeReserved (s : State) (j : Job) (first : List (Fin 16)) : Option State :=
  let need := s.admitted j - s.dev.runningOn j.order
  let idle := first ++ s.dev.idleClusters.filter fun c => !first.contains c && s.freeFor j.order c
  if s.tier1 j && decide (need ≤ idle.length) then s.tryPlace j false (idle.take need) else none

/-- Order within tiers 2 and 3: earliest deadline, jobs without one after those with one, then arming order (R226). -/
def Job.before (a b : Job) : Bool :=
  if (a.deadline == 0) != (b.deadline == 0) then b.deadline == 0
  else if a.deadline != b.deadline then decide (a.deadline < b.deadline)
  else if a.armed != b.armed then decide (a.armed < b.armed) else decide (a.order ≤ b.order)

/-- Rank of a class in tier 3. -/
def PlyClass.rank : PlyClass → Nat
  | .a => 0 | .b => 1 | .c => 2

/-- Jobs in the order in which a cluster is offered to them (R226). -/
def State.offerOrder (s : State) : List (Bool × Job) :=
  let js := s.dev.gfx.jobs.filter fun j => decide (0 < s.dev.wants j) && !s.heldBack j
  let first := sortBy (fun (a b : Job) => decide (a.latest < b.latest) || (a.latest == b.latest && decide (a.order ≤ b.order))) (js.filter s.tier1)
  let rest := js.filter fun j => !s.tier1 j
  let below := fun (j : Job) => decide (s.skein.held' .gfx (plyHolder j.ply) < s.gfxGuar j.ply)
  let second := sortBy Job.before (rest.filter below)
  let third := sortBy (fun (a b : Job) =>
    let x := (s.ply a.ply).cls.rank
    let y := (s.ply b.ply).cls.rank
    if x != y then decide (x < y) else a.before b) (rest.filter fun j => !below j)
  first.map (fun j => (true, j)) ++ (second ++ third).map fun j => (false, j)

/-- CLUSTER_OFFER (R226): an idle powered cluster goes to the first job whose take is granted. A cluster that was preempted for a class A job waits for
it (log entry 116). -/
def execClusterOffer (c : Fin 16) (s : State) : Res := s.clocked fun s =>
  if !(s.dev.clusterOn c && (s.cluster c).job.isNone) then .next s
  else
    .next ((s.offerOrder.findSome? fun x =>
      if !s.freeFor x.2.order c then none
      else if x.1 then s.placeReserved x.2 [c] else s.tryPlace x.2 ((s.ply x.2.ply).cls == .a) [c]).getD s)

/-! Submission and retirement -/

/-- A job out of its descriptor (R89, R206). It counts as armed from the instant at which its wait was reached, or at which it was parsed if that came
later (R25). -/
def InFlight.toJob (f : InFlight) (p : Fin 64) (r : Fin 4) (now : Nat) (dram : Dram) : Job :=
  { order := f.order, ply := p, ring := r, seq := f.seq, compute := f.opcode == 0x31, want := byteAt f.bytes 44, deadline := le64 f.bytes 48,
    wcet := le32 f.bytes 56, armed := f.armedAt.getD now, started := none, bufs := [{ addr := le64 f.bytes 32, len := le32 f.bytes 40, pos := 0, read := 0 }],
    pipe := Pipe.zero, save := none, pass := none, dispatches := [], saved := [], nextWave := 0, nextGroup := 0, missed := false, ended := none,
    code := dram, tex := dram }

/-- A submission: the armed descriptor makes one job; a class A job within reservation is placed at once where it can be (R206, R227). -/
def State.submit (s : State) (p : Fin 64) (r : Fin 4) (op : Nat) : State :=
  match s.ready p r op with
  | none => s
  | some f =>
    let j := f.toJob p r s.dev.devtime s.dram
    let s := (s.dispatch p r f.order 0).onDev (·.updGfx fun g => { g with jobs := g.jobs ++ [j] })
    (s.placeReserved j []).getD s

/-- GFX_SUBMIT (R206): the descriptor makes a graphics job. -/
def execGfxSubmit (p : Fin 64) (r : Fin 4) (s : State) : Res := s.clocked fun s => .next (s.submit p r 0x30)

/-- COMPUTE_SUBMIT (R207): the descriptor makes a compute job. -/
def execComputeSubmit (p : Fin 64) (r : Fin 4) (s : State) : Res := s.clocked fun s => .next (s.submit p r 0x31)

/-- Nothing of a job is in flight: no dispatch, no wave, no saved context. A cluster that was preempted with nothing on it saved none (R208). -/
def State.jobQuiet (s : State) (j : Job) : Bool :=
  j.dispatches.isEmpty && j.saved.isEmpty && (s.dev.gfx.held j.order).all fun c => (s.cluster c).ctx.waves.isEmpty

/-- A job by its descriptor. -/
def Dev.jobBySeq (d : Dev) (p : Fin 64) (r : Fin 4) (seq : Word) : Option Job :=
  d.gfx.jobs.find? fun j => j.ply == p && j.ring == r && j.seq == seq

/-- GFX_JOB_RETIRE (R44, R208): with its buffer and pass ended and every write made, the job retires; the result carries the DEVTIME of its first
placement and of its retirement. A job that has stopped completes with its status. -/
def execGfxJobRetire (p : Fin 64) (r : Fin 4) (seq : Word) (s : State) : Res := s.clocked fun s =>
  match s.dev.jobBySeq p r seq with
  | none => .next s
  | some j =>
    if j.ended.isSome || (j.bufs.isEmpty && j.pass.isNone && s.jobQuiet j) then
      .next ((s.finishDesc p r j.order (j.ended.getD 0) (bytesOf 8 (j.started.getD 0) ++ bytesOf 8 s.dev.devtime)).dropJob j.order)
    else .next s

/-- A saturating 32-bit counter. -/
def satInc (n k : Nat) : Nat := min (2 ^ 32 - 1) (n + k)

/-- GFX_DEADLINE_MISS (R231): a job not retired by its deadline raises the event once and goes on. -/
def execGfxDeadlineMiss (p : Fin 64) (r : Fin 4) (seq : Word) (s : State) : Res := s.clocked fun s =>
  match s.dev.jobBySeq p r seq with
  | none => .next s
  | some j =>
    if j.deadline ≠ 0 ∧ j.deadline ≤ s.dev.devtime ∧ !j.missed then
      let s := s.updJob j.order fun j => { j with missed := true }
      let s := s.onDev (·.updGfx fun g => { g with misses := satInc g.misses 1 })
      .next (s.postPly p p.val 0x0600 0 (dataBytes [(16, 8, j.deadline), (24, 4, seq.toNat), (28, 1, r.val)]))
    else .next s

/-! Preemption (R63, R227, R229, R257) -/

/-- The preemption signal to clusters: they stop issuing, and their saves begin (R229). `dest` is the class A job that they are saved for. -/
def State.preempt (s : State) (cs : List (Fin 16)) (dest : Option Nat) : State :=
  let cs := cs.filter fun c => (s.cluster c).job.isSome && !(s.cluster c).saving
  let s := s.each cs fun s c => s.updCluster c fun k => { k with saving := true, dest := dest }
  s.onDev (·.updGfx fun g => { g with preempts := satInc g.preempts cs.length })

/-- Whether a cluster's work may be preempted for an admitted class A job, and the rank of its class: C first, then B, then class A work beyond its
reservation (R63, R227). -/
def State.victimRank (s : State) (c : Fin 16) : Option Nat :=
  let k := s.cluster c
  match k.job with
  | none => none
  | some o => match s.dev.job o with
    | none => none
    | some j => if k.saving then none else
      match (s.ply j.ply).cls with
      | .c => some 0
      | .b => some 1
      | .a => if k.beyond then some 2 else none

/-- Victims in the order they are taken: by class, the most recently placed first. -/
def State.victims (s : State) : List (Fin 16) :=
  let vs := (allFin 16).filterMap fun c => (s.victimRank c).map fun r => (r, (s.cluster c).placed, c)
  (sortBy (fun (a b : Nat × Nat × Fin 16) => decide (a.1 < b.1) || (a.1 == b.1 && decide (b.2.1 ≤ a.2.1))) vs).map (·.2.2)

/-- Clusters that will be a class A job's without a further preemption: idle ones, and those being saved, that are kept for no other job and stay
powered (R227). -/
def State.comingTo (s : State) (j : Job) : List (Fin 16) :=
  (allFin 16).filter fun c => s.dev.clusterOn c && s.freeFor j.order c &&
    ((s.cluster c).job.isNone || ((s.cluster c).saving && (s.cluster c).job != some j.order))

/-- CLASS_A_PREEMPT (R227, R228): from L - 15 microseconds on, the shortfall of an admitted class A job's clusters is preempted. Clusters that are
idle or being saved, and not for another job, count towards it and are kept for it (log entry 116). -/
def execClassAPreempt (p : Fin 64) (r : Fin 4) (seq : Word) (s : State) : Res := s.clocked fun s =>
  match s.dev.jobBySeq p r seq with
  | none => .next s
  | some j =>
    if !(s.tier1 j && decide (j.latest ≤ s.dev.devtime + 15000)) then .next s
    else
      match s.placeReserved j [] with
      | some s => .next s
      | none =>
        let need := s.admitted j - s.dev.runningOn j.order
        let mine := (s.comingTo j).take need
        let s := s.each mine fun s c => s.updCluster c fun k => { k with dest := some j.order }
        .next (s.preempt (s.victims.take (need - mine.length)) (some j.order))

/-- The save area's contents after a save: the manual gives no layout, so every byte of the area reads as a free value (log entry 70). None where a
page of it is not mapped writable. -/
def State.saveTo (s : State) (p : Fin 64) (area : Nat × Nat) : Option State :=
  ((List.range area.2).mapM fun i => match s.dev.xlat p (area.1 + 65536 * i) true with
    | .ok phys _ => some (phys / 65536)
    | .fault => none).map fun (pages : List Nat) => { s with dram := s.dram.lose fun a => pages.contains (a / 65536) }

/-- A cluster lets go of its job: 500 GFX return and what its context holds joins the job's saved contexts (R44, R229, R230). -/
def State.unplace (s : State) (c : Fin 16) (j : Job) : State :=
  let ctx := (s.cluster c).ctx
  let s := if ctx.isEmpty then s else s.updJob j.order fun j => { j with saved := j.saved ++ [ctx] }
  let s := s.updCluster c fun k => { Cluster.idle with dest := k.dest }
  let s := s.onSkein fun k => k.give .gfx (plyHolder j.ply) 500
  s.onDev Dev.settlePower

/-- Whether the L2 holds back its save buffer: some class A ply has a GFX reservation (R229, R234). -/
def State.saveReserved (s : State) : Bool := allPlies.any fun p => s.dev.isClassA p && s.gfxGuar p != 0

/-- An image of the save buffer goes to its job's save area, as MEM of that job's ply; it stays while the take is refused (R229). -/
def State.drainSave (s : State) (x : SavedImage) : State :=
  match s.takeMem (plyHolder x.ply) x.units [(x.addr, 64 * x.units)] with
  | none => s
  | some t =>
    match t.saveTo x.ply (x.addr, x.size) with
    | none => t.faultAt x.ply x.addr 1 true .raster
    | some t => t.onDev (·.updGfx fun g => { g with saves := g.saves.erase x })
@[inherit_doc State.drainSave] def State.drainSaves (s : State) : State := s.each s.dev.gfx.saves State.drainSave

/-- PREEMPT_SAVE_DONE (R44, R229, R257): a victim cluster's save completes. Its bytes go to the job's save area as MEM of that job's ply. While the L2
holds back its save buffer and one of its four places is free, the cluster is free at once and the bytes wait there for their MEM; otherwise the save
waits while that take is refused. -/
def execPreemptSaveDone (c : Fin 16) (s : State) : Res := s.clocked fun s =>
  let k := s.cluster c
  match k.job with
  | none => .next s
  | some o => match s.dev.job o with
    | none => .next s
    | some j =>
      let units := ceilDiv (k.ctx.saveBytes j) 64
      if !k.saving then .next s
      else match (if k.ctx.isEmpty then none else j.save) with
        | none => .next (s.unplace c j)
        | some area =>
          if s.saveReserved && decide (s.dev.gfx.saves.length < 4) then
            .next (((s.unplace c j).onDev (·.updGfx fun g =>
              { g with saves := g.saves ++ [{ order := o, ply := j.ply, addr := area.1, size := area.2, units := units }] })).drainSaves)
          else match s.takeMem (plyHolder j.ply) units [(area.1, 64 * units)] with
          | none => .next s
          | some t =>
            match t.saveTo j.ply area with
            | none => .next (t.faultAt j.ply area.1 1 true .raster)
            | some t => .next (t.unplace c j)

end Sys2Proof.Machine
end

