-- ==== Sys2Proof/Machine/Whorl.lean ====
section
/-! DEFINITION. Machine/Whorl.lean: the Whorl ring: joining and leaving, election, time, remote layers, repair, the loop test (R341-R362). What
neighbours and other members do comes with the commands. -/
namespace Sys2Proof.Machine

/-! Parts -/

/-- A ring port. -/
def State.ringPort (s : State) (q : Fin 2) : WhlPort := at' s.dev.whorl.ports q
/-- The state with one ring port changed. -/
def State.updRingPort (s : State) (q : Fin 2) (f : WhlPort → WhlPort) : State := s.updWhorl fun w => { w with ports := upd w.ports q f }

/-- Members reachable, this device among them (R349). -/
def Whorl.members (w : Whorl) : List Nat := if w.member then (w.ringId :: (at' w.reach 0 ++ at' w.reach 1)).eraseDups else []

/-- The master: the lowest ring ID reachable (R349). -/
def Whorl.lowest (w : Whorl) : Nat := w.members.foldl min w.ringId

/-- This device is the master. -/
def Whorl.isMaster (w : Whorl) : Bool := w.member && w.masterId == w.ringId

/-- Hops to the master on the shorter path (R351). -/
def Whorl.hops (w : Whorl) : Nat :=
  if w.masterId = w.ringId then 0
  else
    let dist := fun (l : List Nat) => (l.findIdx? (· == w.masterId)).map (· + 1)
    match dist (at' w.reach 0), dist (at' w.reach 1) with
    | some a, some b => min a b
    | some a, none => a
    | none, some b => b
    | none, none => 0

/-- Election (R349): it runs at every change of membership. A new master of a device that was a member already is reported. -/
def State.elect (s : State) (was : Bool) : State :=
  let w := s.dev.whorl
  let m := w.lowest
  if w.masterId = m then s
  else
    let s := s.updWhorl fun w => { w with masterId := m }
    if was then s.whorlRepair 0xFF 0x5 m 0 else s

/-- UNIT of an event about the ports of a mask: the port where there is one only. -/
def ringUnit (mask : Nat) : Nat := if mask = 1 then 0 else if mask = 2 then 1 else 0xFF

/-- Ring ports of a mask. -/
def ringPorts (mask : Nat) : List (Fin 2) := (allFin 2).filter fun q => bit mask q.val

/-- Ring time that a master takes when a device or segment joins (R352). -/
def ringTime (maxTime : Nat) : Nat := ceilTo (maxTime + 1000000) 500000

/-- The master takes the ring time, to be adopted at an epoch boundary. -/
def State.takeRingTime (s : State) (maxTime : Nat) : State :=
  if s.dev.whorl.isMaster then
    let t := ringTime (max maxTime s.dev.devtime)
    s.updWhorl fun w => { w with adopt := some t, timed := true }
  else s

/-- Channels that a test picks close, reported where `report` (R359, R361). -/
def State.closeChans (s : State) (sel : Channel → Bool) (report : Bool) : State :=
  let gone := s.dev.whorl.chans.filter sel
  let s := s.updWhorl fun w => { w with chans := w.chans.filter fun c => !sel c }
  if report then s.each gone fun s c => s.whorlRepair c.port.val 0x8 c.peer c.id else s

/-- A loop test whose port is no longer a trained member port is refused after all (R362; log entry 119). -/
def State.endProbe (s : State) (sel : Fin 2 → Bool) : State :=
  match s.dev.whorl.probe with
  | some (order, q) => if sel q then (s.updWhorl fun w => { w with probe := none }).answerOrder order 0x1A [] else s
  | none => s

/-- A fresh key for a port's link, and for its standby link where a member stands two hops away (R308, R343). -/
def State.linkKeys (s : State) (q : Fin 2) : State :=
  let k := s.dev.ely.nextKey
  let two := ((at' s.dev.whorl.reach q)[1]?).isSome
  (s.onDev fun d => { d with ely := { d.ely with nextKey := k + 2 } }).updRingPort q fun p => { p with key := k, standby := if two then k + 1 else 0 }

/-! Joining (R345, R348) -/

/-- The island of a ring port is powered: WHE and WHW (R431). -/
def Dev.ringOn (d : Dev) (q : Fin 2) : Bool := d.pkgW && d.islandOn (24 + q.val)

/-- WHL_LOOP_TRAINED (R341, R345): a powered port that is not a member has trained on its own local loop, at a rate code 1-3. -/
def execWhlLoopTrained (q : Fin 2) (rate : Fin 4) (s : State) : Res := s.clocked fun s =>
  let p := s.ringPort q
  if s.dev.ringOn q ∧ p.state = .off ∧ rate.val ≠ 0 then .next (s.updRingPort q fun p => { p with state := .loop, rate := rate.val }) else .next s

/-- A JOIN that fails: the pins go low again and the ports are untrained (R348). -/
def State.failJoin (s : State) (j : Journal) (mask status : Nat) : State :=
  (s.each (ringPorts mask) fun s q => s.updRingPort q fun p => { p with state := .off, rate := 0, pin := false, nb := none }).answer j status []

/-- A JOIN that completes: membership, election, time, the event, the answer (R343, R348, R349, R352). -/
def State.completeJoin (s : State) (j : Journal) (mask id : Nat) (o : JoinOutcome) : State :=
  let s := s.each (ringPorts mask) fun s q => s.updRingPort q fun p =>
    { p with state := .joined, rate := (at' o.rates q).getD 0, nb := (at' o.reach q).head? }
  let s := s.updWhorl fun w => { w with member := true, ringId := id, reach := o.reach, closed := o.closed && mask == 3, timed := false }
  let s := s.each (ringPorts mask) State.linkKeys
  let s := (s.elect false).takeRingTime o.maxTime
  let s := s.whorlRepair (ringUnit mask) 0x3 id 0
  s.answer j mbOk (bytesOf 1 s.dev.whorl.masterId ++ bytesOf 1 s.dev.whorl.members.length)

/-- Whether other devices may join: each one's measurements match an entry of the policy (R312, R343). -/
def Dev.neighboursOk (d : Dev) (measures : List (List (List Byte))) : Bool :=
  match d.policy with
  | some pol => measures.all pol.migOk.contains
  | none => measures.isEmpty

/-- WHL_JOIN (R345-R349, R352): accepted, it drives the named pins high; carried out again with the outcome on the ring, it completes. -/
def execWhlJoin (order : Nat) (out : Option JoinOutcome) (s : State) : Res := s.clocked fun s =>
  s.managed order 0x70 fun j =>
    let mask := j.arg 0 1
    let id := j.arg 1 1
    let named := ringPorts mask
    if j.begun then
      match out with
      | none => s
      | some o =>
        if named.any fun q => (at' o.rates q).isNone then s.failJoin j mask 0x1A
        else if !o.attested || !s.dev.neighboursOk o.measures then s.failJoin j mask mbNotAttested
        else if o.taken then s.failJoin j mask 0x19
        else s.completeJoin j mask id o
    else if !s.dev.pkgW then s.answer j mbNoUnit []
    else if mask = 0 ∨ 3 < mask ∨ 15 < id then s.answer j mbBadArg []
    else if s.dev.whorl.member then s.answer j mbBadState []
    else if named.any fun q => (s.ringPort q).state != .loop then s.answer j 0x1A []
    else (s.each named fun s q => s.updRingPort q fun p => { p with state := .linking, pin := true, rate := 0 }).hold j

/-- WHL_LEAVE (R345, R346, R350): stops its channels, lets frames in transmission finish, tells both neighbours and drives both pins low. -/
def execWhlLeave (order : Nat) (s : State) : Res := s.clocked fun s =>
  s.managed order 0x71 fun j =>
    if !s.dev.pkgW then s.answer j mbNoUnit []
    else if !s.dev.whorl.member then s.answer j mbBadState []
    else
      let s := (s.endProbe fun _ => true).each (allFin 2) fun s q => s.updRingPort q fun p => if p.state = .joined then { p with state := .leaving } else p
      let s := s.closeChans (fun c => c.busy.isNone) false
      if s.dev.whorl.chans ≠ [] then s.hold j
      else
        let id := s.dev.whorl.ringId
        let on := (allFin 2).filter fun q => (s.ringPort q).state == .leaving
        let s := s.each on fun s q => s.emit (.whorl q "leave" id)
        let s := s.each (allFin 2) fun s q => s.updRingPort q fun p => { p with state := .off, rate := 0, pin := false, nb := none, key := 0, standby := 0 }
        let s := s.updWhorl fun w => { Whorl.blank with ports := w.ports, follow := w.follow }
        (s.whorlRepair 0xFF 0x4 id 0).answer j mbOk []

/-- WHL_ANNOUNCE (R348-R350, R352, R360): a membership message arrives. A joining device whose ID this one holds is told so; else the members change,
election runs, and the master takes the ring time for a joining device or segment. A port that has trained with the joining device takes a fresh key. -/
def execWhlAnnounce (q : Fin 2) (m : WhlMsg) (s : State) : Res := s.clocked fun s =>
  let w := s.dev.whorl
  if !w.member then .next s
  else match m with
    | .join id rates reach closed maxTime =>
      if id = w.ringId then .next (s.emit (.whorl q "ring ID in use" id))
      else
        let s := s.updWhorl fun w => { w with reach := reach, closed := closed }
        let s := s.each ((allFin 2).filter fun q => (at' rates q).isSome && (s.ringPort q).state != .off) fun s q =>
          (s.updRingPort q fun p => { p with state := .joined, rate := min 3 ((at' rates q).getD 0), nb := (at' reach q).head? }).linkKeys q
        .next (((s.whorlRepair q.val 0x3 id 0).elect true).takeRingTime maxTime)
    | .leave id reach closed =>
      let s := s.updWhorl fun w => { w with reach := reach, closed := closed }
      .next (((s.whorlRepair q.val 0x4 id 0).closeChans (fun c => c.peer == id) true).elect true)

/-! Time (R351, R352) -/

/-- WHL_TIME_MARK (R352): a mark of the master's DEVTIME arrives on a port and is corrected for the link's delay; it may carry the ring time to be
adopted: a member that has it already only keeps time from then on. The mark goes on through the other port. -/
def execWhlTimeMark (q : Fin 2) (time : Nat) (adopt : Option Nat) (s : State) : Res := s.clocked fun s =>
  let w := s.dev.whorl
  if !w.member || w.isMaster || (s.ringPort q).state != .joined then .next s
  else
    let t := time + (s.ringPort q).delay
    let s := s.updWhorl fun w => { w with mark := (s.dev.devtime : Int) - t,
                                          adopt := match adopt with | some a => if a = s.dev.devtime then w.adopt else some a | none => w.adopt,
                                          timed := w.timed || adopt == some s.dev.devtime }
    let o : Fin 2 := 1 - q
    .next (if (s.ringPort o).state = .joined then s.emit (.whorl o "time mark" t) else s)

/-- WHL_DELAY_MEASURE (R352): a link's delay is half its round trip. -/
def execWhlDelayMeasure (q : Fin 2) (roundTrip : Nat) (s : State) : Res := s.clocked fun s =>
  if (s.ringPort q).state = .joined then .next (s.updRingPort q fun p => { p with delay := roundTrip / 2 }) else .next s

/-- WHL_OFFSET_CHECK (R351, R352): every 100 microseconds a member measures its offset; the master sends its time marks. Past 20 ns x hops + 100 ns the
member is no longer timed and drops frame lock. -/
def execWhlOffsetCheck (s : State) : Res := s.clocked fun s =>
  let w := s.dev.whorl
  if !w.member then .next s
  else if w.isMaster then
    let s := s.updWhorl fun w => { w with offset := 0 }
    .next (s.each ((allFin 2).filter fun q => (s.ringPort q).state == .joined) fun s q => s.emit (.whorl q "time mark" s.dev.devtime))
  else
    let s := s.updWhorl fun w => { w with offset := clampInt (-32768) 32767 w.mark }
    if w.timed ∧ 20 * w.hops + 100 < w.mark.natAbs then
      .next ((s.updWhorl fun w => { w with timed := false, locked := Vector.replicate 8 false, relock := w.locked }).whorlRepair 0xFF 0x9 w.ringId 0)
    else .next s

/-! Remote layers (R342, R356-R358) -/

/-- Payload of a port and direction in units of 0.1 Gbit/s (R342). -/
def ringPayload (rate : Nat) : Nat := match rate with | 1 => 72 | 2 => 144 | 3 => 288 | _ => 0

/-- Bytes that a channel's buffer spans. -/
def Channel.span (c : Channel) : Nat := (c.h - 1) * c.stride + 4 * c.w

/-- A channel's fields are in range (R161, R356). -/
def channelArgs (j : Journal) : Option Channel :=
  let path := j.arg 3 1
  let c : Channel :=
    { id := j.arg 1 1, sender := j.arg 0 1 == 1, ply := ⟨j.arg 2 1 % 64, by omega⟩, port := ⟨path % 2, by omega⟩, peer := j.arg 4 1,
      argb := j.arg 5 1 == 2, w := j.arg 8 2, h := j.arg 10 2, stride := j.arg 12 4,
      bufs := Vector.ofFn fun i => j.arg (16 + 8 * i.val) 8, fence := j.arg 32 2, done := j.arg 34 2, rate := j.arg 38 2, last := 0, busy := none,
      row := 0, got := [] }
  let dim := fun v => decide (1 ≤ v) && decide (v ≤ 7680)
  if decide (j.arg 0 1 ≤ 1) && decide (c.id ≤ 63) && decide (j.arg 2 1 < 64) && decide (path < 4) && bit path 1 != c.sender && decide (c.peer ≤ 15) &&
      (j.arg 5 1 == 1 || j.arg 5 1 == 2) && dim c.w && dim c.h && c.stride % 256 == 0 && decide (c.stride ≤ 262144) && decide (4 * c.w ≤ c.stride) &&
      c.bufs.toList.all (fun a => a % 4096 == 0 && decide (a < 2 ^ 40)) && decide (c.fence < 4096) && decide (c.done < 4096) &&
      (c.sender || c.done == 0) && decide (c.rate ≤ 140) then some c else none

/-- Whether the ply owns every granule of a range of its device addresses, or borrows it with the right (R306, R356). -/
def Dev.ownsRange (d : Dev) (p : Fin 64) (addr n : Nat) (write : Bool) : Bool :=
  (List.range ((addr + n - 1) / 65536 - addr / 65536 + 1)).all fun i => match Map.find (d.ply p).tables (addr / 65536 + i) with
    | some e => decide (e.page * 65536 < d.dramTop) && d.ely.mayAccess e.page p.val write
    | none => false

/-- WHL_CHAN_OPEN (R342, R356): `peerOpen` says that the receiver's end is open; `transit` gives the slots and payload that passing channels use on
the first hop, and `pathFree` that every other hop has room. -/
def execWhlChanOpen (order : Nat) (peerOpen : Bool) (transit : Nat × Nat) (pathFree : Bool) (s : State) : Res := s.clocked fun s =>
  s.managed order 0x72 fun j =>
    if !s.dev.pkgW then s.answer j mbNoUnit []
    else match channelArgs j with
      | none => s.answer j mbBadArg []
      | some c =>
        let w := s.dev.whorl
        let same := w.chans.filter fun e => e.port == c.port && e.sender == c.sender
        if !(s.dev.entry c.ply).ringPaths.contains (c.port.val, c.sender) then s.answer j mbNotPermitted []
        else if (s.ply c.ply).state = .absent then s.answer j mbNoPly []
        else if c.bufs.toList.any fun a => !s.dev.ownsRange c.ply a c.span (!c.sender) then s.answer j mbNotPermitted []
        else if !w.member ∨ w.chans.any (·.id == c.id) then s.answer j mbBadState []
        else if (s.ringPort c.port).state ≠ .joined then s.answer j 0x1A []
        else if c.sender && !peerOpen then s.answer j mbBadState []
        else if c.sender && (decide (2 ≤ same.length + transit.1) || !pathFree ||
            decide (ringPayload (s.ringPort c.port).rate < (same.map (·.rate)).sum + transit.2 + c.rate)) then s.answer j 0x1B []
        else (s.updWhorl fun w => { w with chans := w.chans ++ [c] }).answer j mbOk (bytesOf 1 1)

/-- WHL_CHAN_CLOSE (R297, R346): the channel's end closes. -/
def execWhlChanClose (order : Nat) (s : State) : Res := s.clocked fun s =>
  s.managed order 0x73 fun j =>
    let id := j.arg 0 1
    if !s.dev.pkgW then s.answer j mbNoUnit []
    else if 63 < id then s.answer j mbBadArg []
    else if !s.dev.whorl.chans.any (·.id == id) then s.answer j mbBadState []
    else (s.closeChans (fun c => c.id == id) false).answer j mbOk []

/-- A channel changed. -/
def State.updChannel (s : State) (id : Nat) (f : Channel → Channel) : State :=
  s.updWhorl fun w => { w with chans := w.chans.map fun c => if c.id = id then f c else c }

/-- Buffer v mod 2. -/
def Channel.buf (c : Channel) (v : DWord) : Nat := at' c.bufs ⟨v.toNat % 2, by omega⟩

/-- WHL_SEND_START (R357): an idle sender channel whose SRC exceeds the value last sent starts on SRC's value. -/
def execWhlSendStart (id : Nat) (s : State) : Res := s.clocked fun s =>
  match s.dev.whorl.chans.find? fun c => c.id == id && c.sender with
  | none => .next s
  | some c =>
    let v := (s.ply c.ply).fence c.fence
    if c.busy.isSome || decide (v ≤ c.last) || (s.ringPort c.port).state != .joined || (s.ply c.ply).state != .active then .next s
    else .next (s.updChannel id fun c => { c with busy := some v, row := 0, got := [] })

/-- The frame in hand is given up. -/
def State.dropFrame (s : State) (id : Nat) : State := s.updChannel id fun c => { c with busy := none, row := 0, got := [] }

/-- Rows of a frame are read through memory port 12, each charged to the sending ply as MEM (R21, R43, R356), as the ring carries them: 3 or 4 bytes per
pixel. A refused take leaves the rest for the next command (R46); an address that cannot be read ends the frame. True where every row was read. -/
def State.sendRows (c : Channel) (v : DWord) : List Nat → State → State × Bool
  | [], s => (s, true)
  | y :: ys, s =>
    let a := c.buf v + y * c.stride
    match s.takeMem (plyHolder c.ply) (unitsOf a (4 * c.w)) [(a, 4 * c.w)] with
    | none => (s, false)
    | some s => match s.plyRead c.ply a (4 * c.w) with
      | none => ((s.dropFrame c.id).faultAt c.ply a (4 * c.w) false .whorl, false)
      | some bs =>
        let px := if c.argb then bs else (bs.zipIdx).filterMap fun b => if b.2 % 4 = 3 then none else some b.1
        sendRows c v ys (s.updChannel c.id fun c => { c with row := y + 1, got := c.got ++ px })

/-- WHL_SEND_DONE (R43, R357): the frame's rows are read; with the last byte it has gone out, and DONE is signalled to v. -/
def execWhlSendDone (id : Nat) (s : State) : Res := s.clocked fun s =>
  match s.dev.whorl.chans.find? fun c => c.id == id && c.sender with
  | none => .next s
  | some c =>
    match c.busy with
    | none => .next s
    | some v =>
      match State.sendRows c v ((List.range c.h).drop c.row) s with
      | (s, false) => .next s
      | (s, true) =>
        let s := s.each (s.dev.whorl.chans.filter fun c => c.id == id && c.sender) fun (s : State) (c : Channel) => s.emit (.whorlFrame c.port id v c.got)
        .next (((s.dropFrame id).updChannel id fun c => { c with last := v }).signal c.ply c.done v)

/-- Whether an active or pending layer state of the ply refers to bytes of its memory (R358). -/
def Dev.layersRead (d : Dev) (p : Fin 64) (addr n : Nat) : Bool :=
  let hit := fun (b : List Byte) => (layerRanges b).any fun r => decide (r.1 < addr + n) && decide (addr < r.1 + r.2) && decide (0 < r.2)
  d.carder.heads.toList.any (fun x => x.layers.any (fun l => l.ply == p && hit l.block) ||
    x.groups.any fun g => g.ply == p && g.layers.any fun l => !l.disable && hit l.block) ||
  (d.ply p).rings.toList.any fun g => g.queue.any fun f => f.opcode == 0x21 && (f.seen || f.phase != .accepted) && f.phase != .finished && !f.layerDisable &&
    !f.block.isEmpty && hit f.block

/-- Rows of a received frame are written through memory port 12, each charged to the receiving ply as MEM (R21, R43, R285, R356). A refused take leaves
the rest for the next command (R46); an address that cannot be written ends the frame. True where every row was written. -/
def State.receiveRows (c : Channel) (v : DWord) (rows : Nat → List Byte) : List Nat → State → State × Bool
  | [], s => (s, true)
  | y :: ys, s =>
    let a := c.buf v + y * c.stride
    let n := 4 * c.w
    match s.takeMem (plyHolder c.ply) (writeCost a n) [(a, n)] with
    | none => (s, false)
    | some s => match s.plyWrite c.ply .whorl a (rows y) with
      | none => ((s.dropFrame c.id).faultAt c.ply a n true .whorl, false)
      | some s => receiveRows c v rows ys (s.updChannel c.id fun c => { c with row := y + 1 })

/-- Row `y` of a frame as memory holds it. The fourth byte of an XRGB8888 pixel is not on the ring: it is a free value. -/
def Channel.memRow (c : Channel) (bytes : List Byte) (fresh y : Nat) : List Byte :=
  let n := if c.argb then 4 else 3
  (List.range c.w).flatMap fun x =>
    let i := y * c.w + x
    fitBytes n (bytes.drop (n * i)) ++ if c.argb then [] else [Config.freeByte fresh i]

/-- WHL_RECEIVE_DONE (R43, R358): a frame has arrived whole, `bytes` as the ring carries it. It is written and DST signalled to v once all of it is in
DRAM, or dropped where a layer refers to its buffer. -/
def execWhlReceiveDone (id : Nat) (v : DWord) (bytes : List Byte) (s : State) : Res := s.clocked fun s =>
  match s.dev.whorl.chans.find? fun c => c.id == id && !c.sender with
  | none => .next s
  | some c =>
    if c.busy.isNone && (s.dev.layersRead c.ply (c.buf v) c.span || (s.ply c.ply).state != .active) then
      .next (s.updRingPort c.port fun p => { p with drops := min 1023 (p.drops + 1) })
    else if c.busy.any (· != v) then .next s
    else
      let rows := c.memRow bytes s.dev.fresh
      match State.receiveRows c v rows ((List.range c.h).drop c.row) (s.tick.updChannel id fun c => { c with busy := some v }) with
      | (s, false) => .next s
      | (s, true) => .next ((s.dropFrame id).signal c.ply c.fence v)

/-! Repair (R359, R360) -/

/-- WHL_LINK_LOSS (R359): a member's port loses block lock and is DOWN; frames in transit across the gap are lost. -/
def execWhlLinkLoss (q : Fin 2) (s : State) : Res := s.clocked fun s =>
  if s.dev.whorl.member ∧ (s.ringPort q).state = .joined then
    let s := (s.updRingPort q fun p => { p with state := .down, rate := 0, nb := none, key := 0 }).endProbe fun p => p == q
    .next (s.updWhorl fun w => { w with chans := w.chans.map fun c => if c.port = q then { c with busy := none, row := 0, got := [] } else c })
  else .next s

/-- WHL_REPAIR_DONE (R349, R359-R361): training through the bypass ends, with a rate code and the far ring ID where a link trained. `gone` members
dropped (1, or 2 adjacent ones): the far end must be the next one. Across one bypass the standby key serves the new link; across two the ends attest each
other afresh (R343, log entry 119). Otherwise the ring runs as an open chain; a port that is the end of one already has nothing to repair. -/
def execWhlRepairDone (q : Fin 2) (link : Option (Nat × Nat)) (gone : Fin 3) (s : State) : Res := s.clocked fun s =>
  let w := s.dev.whorl
  if !w.member || (s.ringPort q).state != .down || (at' w.reach q).isEmpty then .next s
  else
    let near := at' w.reach q
    let n := max 1 gone.val
    let lost := near.take n
    let keep := fun (l : List Nat) => l.filter fun i => !lost.contains i
    match link, near[n]? with
    | some (rate, far), some want =>
      if far = want then
        let sb := (s.ringPort q).standby
        let s := s.updRingPort q fun p => { p with state := .joined, rate := min 3 rate, nb := some far, repairs := min 1023 (p.repairs + 1) }
        let s := (s.updWhorl fun w => { w with reach := w.reach.map keep }).linkKeys q
        let s := if n = 1 then s.updRingPort q fun p => { p with key := sb } else s
        .next (((s.whorlRepair q.val 0x1 (lost.headD 0) 0).closeChans (fun c => lost.contains c.peer) true).elect true)
      else
        let s := s.updWhorl fun w => { w with reach := put (w.reach.map keep) q [], closed := false }
        .next (((s.whorlRepair q.val 0x2 (lost.headD 0) 0).closeChans (fun c => lost.contains c.peer) true).elect true)
    | _, _ =>
      let s := s.updWhorl fun w => { w with reach := put (w.reach.map keep) q [], closed := false }
      .next (((s.whorlRepair q.val 0x2 (lost.headD 0) 0).closeChans (fun c => lost.contains c.peer) true).elect true)

/-! Loop test (R362) -/

/-- WHL_LOOP_TEST (R346, R362): sends a probe with a fresh nonce from a trained member port. -/
def execWhlLoopTest (order : Nat) (s : State) : Res := s.clocked fun s =>
  s.managed order 0x74 fun j =>
    if j.begun then s
    else if !s.dev.pkgW then s.answer j mbNoUnit []
    else match fin? 2 (j.arg 0 1) with
      | none => s.answer j mbBadArg []
      | some q =>
        if 15 < j.arg 1 1 then s.answer j mbBadArg []
        else if !s.dev.whorl.member ∨ (s.ringPort q).state ≠ .joined then s.answer j 0x1A []
        else
          let s := (s.emit (.whorl q "probe" (Config.freeWord s.dev.fresh).toNat)).tick
          (s.updWhorl fun w => { w with probe := some (order, q) }).hold j

/-- WHL_PROBE_RETURN (R362): the probe comes back with the far device's ring ID; the command completes with it and the one-way delay. -/
def execWhlProbeReturn (q : Fin 2) (far delay : Nat) (s : State) : Res := s.clocked fun s =>
  match s.dev.whorl.probe with
  | none => .next s
  | some (order, p) =>
    if p ≠ q then .next s
    else match s.command order 0x74 with
      | none => .next s
      | some j => .next ((s.updWhorl fun w => { w with probe := none }).answer j mbOk (bytesOf 1 far ++ [0] ++ bytesOf 2 (min 65535 delay)))

/-- WHL_PROBE_RECEIVED (R362): a neighbour's probe goes back with this device's ring ID. -/
def execWhlProbeReceived (q : Fin 2) (nonce : Nat) (s : State) : Res := s.clocked fun s =>
  if s.dev.whorl.member ∧ (s.ringPort q).state = .joined then
    .next ((s.emit (.whorl q "probe return" nonce)).emit (.whorl q "ring ID" s.dev.whorl.ringId))
  else .next s

end Sys2Proof.Machine
end

