-- ==== Sys2Proof/Machine/Audio.lean ====
section
/-! DEFINITION. Machine/Audio.lean: the audio block (R364-R383): gains, host streams, chimes, TDM ports, the processing of a block, locks. Converted
samples, whose values the manual does not fix, come with EPOCH_BOUNDARY (log entry 72). -/
namespace Sys2Proof.Machine

/-! Arithmetic (R365, R366) -/

/-- Saturation to Q31, and of the mixer's 48-bit accumulator. -/
def satQ31 (x : Int) : Int := clampInt (-(2 ^ 31)) (2 ^ 31 - 1) x
@[inherit_doc satQ31] def sat48 (x : Int) : Int := clampInt (-(2 ^ 47)) (2 ^ 47 - 1) x

/-- A gain applied to a sample: (s x g) >> 14, arithmetic (R365). -/
def gained (s : Int) (g : Nat) : Int := s * g / 2 ^ 14

/-- A ramp of n samples to a target from the current value (R366). -/
def Gain.ramp (x : Gain) (target n : Nat) : Gain :=
  { x with target := target, step := Int.tdiv ((target * 65536 : Nat) - (x.g : Int)) n, left := max 1 n }

/-- One sample of a ramp; the last lands exactly. -/
def Gain.tick (x : Gain) : Gain :=
  match x.left with
  | 0 => x
  | 1 => { x with g := x.target * 65536, left := 0 }
  | n + 2 => { x with g := ((x.g : Int) + x.step).toNat, left := n + 1 }

/-- The gains applied to the next `n` samples, and the gain after them. -/
def Gain.run (x : Gain) : Nat → List Nat × Gain
  | 0 => ([], x)
  | n + 1 =>
    let x := x.tick
    let (gs, y) := x.run n
    (x.g / 65536 :: gs, y)

/-- Samples under a list of gains. -/
def gainAll (ss : List Int) (gs : List Nat) : List Int := ss.zipWith gained gs

/-- A sample of a host stream's format as Q31 (R368): S16, S24 in 32, S32. -/
def streamSample (fmt v : Nat) : Int :=
  match fmt with
  | 0 => signed 16 v * 65536
  | 1 => signed 24 (v % 2 ^ 24) * 256
  | _ => signed 32 v

/-- Bytes of a sample. -/
def streamBytes (fmt : Nat) : Nat := if fmt = 0 then 2 else 4

/-! Fixed point of 96 places for the compressor and the limiter -/

/-- 2^x for x at scale 2^96, at scale 2^96. -/
def fxPow2 (x : Int) : Nat :=
  let i := x / (fxOne : Int)
  let m := fxExp2 (x % fxOne).toNat
  if 0 ≤ i then m * 2 ^ i.toNat else m / 2 ^ (-i).toNat

/-- log2(10) / 20, 20 log10(2) and log2(e) at scale 2^96. -/
def fxDb : Nat := 13159512948121823355020141721
@[inherit_doc fxDb] def fxBit : Nat := 477001068362683820305448534200
@[inherit_doc fxDb] def fxLog2e : Nat := 114302077158074026402637675936

/-- 10^(d / 20) for d in dB at scale 2^96. -/
def fxOfDb (d : Int) : Nat := fxPow2 (d * fxDb / fxOne)

/-- exp(-10 / (t x 96)) for a time of t x 0.1 ms, at scale 2^96. -/
def fxDecay (t : Nat) : Nat := fxPow2 (-((fxLog2e * 10 / (max 1 t * 96) : Nat) : Int))

/-- Level of a sample in dBFS at scale 2^96; none for 0 (R375). -/
def levelDb (x : Int) : Option Int :=
  let n := x.natAbs
  if n = 0 then none
  else
    let k := bitLen n - 1
    some (((fxLog2 (n * 2 ^ (96 - k)) : Int) + ((k : Int) - 31) * fxOne) * fxBit / fxOne)

/-! Output processing (R374-R376) -/

/-- A biquad coefficient, signed Q2.30 (R374). -/
def Audio.coef (a : Audio) (o k c : Nat) : Int := signed 32 (Map.get a.eq (if c = 0 then 0x40000000 else 0) (o * 64 + k * 8 + c)).toNat

/-- One biquad on one sample: 64-bit sums, rounded to nearest and saturated. -/
def Biquad.step (q : Biquad) (c : Nat → Int) (x : Int) : Biquad × Int :=
  let t := c 0 * x + c 1 * q.x1 + c 2 * q.x2 - c 3 * q.y1 - c 4 * q.y2
  let y := satQ31 ((signed 64 (unsigned 64 t) + 2 ^ 29) / 2 ^ 30)
  ({ x1 := x, x2 := q.x1, y1 := y, y2 := q.y1 }, y)

/-- An output's 8 biquads in series. -/
def Audio.eqStep (a : Audio) (o : Nat) (qs : Vector Biquad 8) (x : Int) : Vector Biquad 8 × Int :=
  (allFin 8).foldl (fun (acc : Vector Biquad 8 × Int) k =>
    let (q, y) := (at' acc.1 k).step (fun c => a.coef o k.val c) acc.2
    (put acc.1 k q, y)) (qs, x)

/-- The compressor's static gain in dB (R375), from AUD_COMP and a level. -/
def compStatic (comp : Nat) (l : Option Int) : Int :=
  match l with
  | none => 0
  | some l =>
    let one : Int := fxOne
    let t := -(fld comp 31 24 * one / 2)
    let k := fld comp 15 8 * one / 2
    let r : Int := max 1 (fld comp 23 16)
    if l < t - k / 2 then 0
    else if t + k / 2 < l then (l - t) * (10 - r) / r
    else if k = 0 then 0
    else let d := l - t + k / 2; (10 - r) * d * d / (r * 2 * k)

/-- The free part of the compressor's gain, within 0.1 dB (R375; log entry 72). -/
def compError (n : Nat) : Int := (((Config.freeWord n).toNat % 65537 : Nat) - (32768 : Int)) * ((fxOne : Int) / 10) / 32768

/-- The limiter's output value: the exact product cut toward zero, or the next value away from zero where that stays within the threshold: the
manual gives no rounding (log entry 72). -/
def limitRound (h : Nat) (x : Int) (tl : Nat) (n : Nat) : Int :=
  let m := h * x.natAbs
  let q := m / fxOne
  let q := if m % fxOne ≠ 0 ∧ (q + 1) * fxOne ≤ tl ∧ bit (Config.freeWord n).toNat 31 then q + 1 else q
  satQ31 (if x < 0 then -(q : Int) else q)

/-- One sample of an output: the mixed and ducked sample `m`, the chime sum `c`, AUD_COMP, AUD_COMP_T and AUD_LIM, a number for free values. -/
def Audio.outStep (a : Audio) (o : Nat) (x : AudOut) (m c : Int) (comp compT lim n : Nat) : AudOut × Int :=
  let one : Int := fxOne
  let (qm, m) := a.eqStep o x.main m
  let (qc, c) := a.eqStep o x.chime c
  let cs := compStatic comp (levelDb m)
  let alpha : Int := fxDecay (if cs < x.comp then fld compT 31 16 else 10 * fld compT 15 0)
  let g := (alpha * x.comp + (one - alpha) * cs) / one
  let plain := fld comp 23 16 == 10 && fld comp 7 0 == 0 && g == 0
  let f : Int := if plain then one else fxOfDb (g + fld comp 7 0 * one / 2 + compError n)
  let m := satQ31 (m * f / one)
  let c := satQ31 (c * f / one)
  let tl := fxPow2 (-((fld lim 31 24 : Int) * one / 10) * fxDb / one + 31 * one)
  let peak := x.line.foldl (fun p v => max p v.natAbs) m.natAbs + c.natAbs
  let r := if peak * fxOne ≤ tl then fxOne else tl / peak
  let beta := fxDecay (10 * fld lim 15 0)
  let h := min r ((x.lim + (one - x.lim) * (one - beta) / one).toNat)
  let old := x.line.getD 95 0
  ({ x with main := qm, chime := qc, comp := g, lim := h, line := (m :: x.line).take 96 }, limitRound h (old + c) tl (n + 1))

/-- The next `n` samples of an output in the block in hand, under the coefficients as they now stand: the output's state after them and the samples,
newest first. -/
def Dev.outRun (d : Dev) (b : AudBlock) (o : Fin 32) (n : Nat) : AudOut × List Int :=
  let r := 0x18100 + 0x10 * o.val
  let (y, ss) := ((at' b.rest o).take n).zipIdx.foldl (fun (acc : AudOut × List Int) x =>
    let (y, v) := d.audio.outStep o.val acc.1 x.1.1 x.1.2 (d.reg (r + 4)) (d.reg (r + 8)) (d.reg (r + 12)) (b.free + o.val * 96 + 2 * (b.pos + x.2))
    (y, v :: acc.2)) (at' d.audio.outs o, [])
  (y, ss)

/-- The audio block changed. -/
def State.updAudio (s : State) (f : Audio → Audio) : State := s.onDev fun d => { d with audio := f d.audio }

/-- The block in hand is processed up to its sample `n` (R364). -/
def State.audioRun (s : State) (n : Nat) : State :=
  match s.dev.audio.block with
  | none => s
  | some b =>
    let k := n - b.pos
    let runs := Vector.ofFn fun o : Fin 32 => s.dev.outRun b o k
    s.updAudio fun a =>
      { a with outs := runs.map (·.1),
               block := some { b with pos := b.pos + k, rest := b.rest.map (·.drop k), sent := Vector.ofFn fun o => (at' runs o).2 ++ at' b.sent o } }

/-- Samples of a block. -/
def blockLen : Nat := 48

/-- EQ, compressor and limiter settings act from the next 96 kHz sample (R30, R374-R376): those whose instants DEVTIME has passed are processed first. -/
def State.audioCatchUp (s : State) : State := s.audioRun (min blockLen ((s.dev.devtime - s.dev.lastEpoch) * blockLen / 500000 + 1))

/-! Sources -/

/-- A TDM port runs (R372, R383). -/
def Dev.tdmCfgErr (d : Dev) (p : Fin 4) : Bool :=
  let c := d.active (0x18020 + 8 * p.val)
  bit c 30 && (decide (1 < fld c 29 28) || !([0, 1, 3, 7, 15] : List Nat).contains (fld c 27 24))
@[inherit_doc Dev.tdmCfgErr] def Dev.tdmRun (d : Dev) (p : Fin 4) : Bool :=
  let c := d.active (0x18020 + 8 * p.val)
  bit c 31 && (if bit c 30 then !d.tdmCfgErr p else !(at' d.audio.tdm p).clkLost)

/-- The TDM input map in force or as written: (mixer input, port) (R373). -/
def tdmMap (rd : Nat → Nat) : List (Nat × Fin 4) :=
  (List.range 64).filterMap fun i =>
    let w := rd (0x18040 + 4 * (i / 4)) / 2 ^ (8 * (i % 4)) % 256
    if bit w 7 then some (w % 64, ⟨i / 16 % 4, by omega⟩) else none

/-- Mixer inputs of a stream. -/
def Stream.inputs (x : Stream) : List Nat := (List.range x.chans).map (x.first + ·)

/-- Mixer inputs held by streams or by the TDM map as written (R368, R383). -/
def Dev.heldInputs (d : Dev) : List Nat := (d.audio.streams.flatMap Stream.inputs ++ (tdmMap d.reg).map (·.1)).eraseDups

/-- The frames that a stream consumes in one block: rate / 2,000, the fractions carried (R367). -/
def Stream.need (x : Stream) : Nat := (x.part + x.rate) / 2000

/-! Rows: streams (R368-R370) -/

/-- The audio block's registers and rows act while its island is up (R431). -/
def State.audioOn (s : State) (f : State → Res) : Res := s.clocked fun s => if s.dev.islandOn 22 then f s else .next s

/-- A stream of a ply. -/
def Audio.stream (a : Audio) (p : Fin 64) (h : Nat) : Option Stream := a.streams.find? fun x => x.ply == p && x.handle == h
/-- The state with a stream changed. -/
def State.updStream (s : State) (p : Fin 64) (h : Nat) (f : Stream → Stream) : State :=
  s.updAudio fun a => { a with streams := a.streams.map fun x => if x.ply = p ∧ x.handle = h then f x else x }

/-- AUD_OPEN (R368): a stream on consecutive mixer inputs. -/
def execAudOpen (p : Fin 64) (r : Fin 4) (s : State) : Res := s.audioOn fun s =>
  match s.ready p r 0x40 with
  | none => .next s
  | some f =>
    let b := f.bytes
    if bit (byteAt b 33) 0 then .next s
    else
      let x : Stream := { ply := p, handle := byteAt b 32 % 16, chans := byteAt b 34, fmt := byteAt b 35, rate := le32 b 36, first := byteAt b 40 % 64,
                          started := false, frames := [], part := 0, bufs := [], last := false, closing := false, fade := none, closer := none }
      let st := if x.inputs.any fun i => !(s.dev.entry p).inputs.contains i then 0x05
        else if (s.dev.audio.stream p x.handle).isSome || decide (64 < x.first + x.chans) then 0x02
        else if x.inputs.any fun i => s.dev.heldInputs.contains i then 0x10 else 0
      let s := if st = 0 then s.updAudio fun a => { a with streams := a.streams ++ [x] } else s
      .next (s.finishDesc p r f.order st [])

/-- AUD_CLOSE (R370): AUD_OPEN with CLOSE ramps the stream to silence from the next epoch boundary; it completes when the inputs are freed. -/
def execAudClose (p : Fin 64) (r : Fin 4) (s : State) : Res := s.audioOn fun s =>
  match s.ready p r 0x40 with
  | none => .next s
  | some f =>
    let h := byteAt f.bytes 32 % 16
    if !bit (byteAt f.bytes 33) 0 then .next s
    else match s.dev.audio.stream p h with
      | none => .next (s.finishDesc p r f.order 0x02 [])
      | some x =>
        if x.closer.isSome then .next (s.finishDesc p r f.order 0x02 [])
        else .next ((s.dispatch p r f.order 0).updStream p h fun x => { x with closing := true, closer := some (r, f.order) })

/-- The next queued buffer of a stream is read, one HTAG credit for each request (R44, R369); a drain starts no read (R115). -/
def State.readAudio (s : State) (p : Fin 64) (h : Nat) : State :=
  match (s.dev.audio.stream p h).bind (·.bufs.head?) with
  | some b => if s.intake p then s.plyReads p (.audio p h) [(b.addr, b.len)] else s
  | none => s

/-- AUD_BUFFER (R369): queues a host buffer, a whole number of frames, for an open stream. -/
def execAudBuffer (p : Fin 64) (r : Fin 4) (s : State) : Res := s.audioOn fun s =>
  match s.ready p r 0x41 with
  | none => .next s
  | some f =>
    let h := byteAt f.bytes 32 % 16
    let n := le32 f.bytes 48
    match s.dev.audio.stream p h with
    | none => .next (s.finishDesc p r f.order 0x02 [])
    | some x =>
      if n % (x.chans * streamBytes x.fmt) ≠ 0 then .next (s.finishDesc p r f.order 0x02 [])
      else
        let b : StreamBuf := { ring := r, order := f.order, addr := le64 f.bytes 40, len := n, last := bit (byteAt f.bytes 33) 0 }
        let s := (s.dispatch p r f.order 0).updStream p h fun x => { x with bufs := x.bufs ++ [b] }
        .next (if x.bufs.isEmpty then s.readAudio p h else s)

/-- Frames of a buffer as Q31 samples. -/
def Stream.decode (x : Stream) (bs : List Byte) : List (List Int) :=
  let w := streamBytes x.fmt
  let n := x.chans * w
  if n = 0 then [] else (List.range (bs.length / n)).map fun i => (List.range x.chans).map fun c => streamSample x.fmt (leAt bs (i * n + c * w) w)

/-- AUD_BUFFER_READ_DONE (R44, R369): the read of a stream's first queued buffer completes with its bytes; the AUD_BUFFER completes. -/
def execAudBufferReadDone (p : Fin 64) (h : Nat) (bytes : List Byte) (s : State) : Res := s.clocked fun s =>
  match s.dev.audio.stream p h with
  | none => .next s
  | some x => match x.bufs with
    | [] => .next s
    | b :: rest =>
      if !(s.dev.readOut (.audio p h) || (b.len == 0 && s.intake p)) then .next s
      else
        let s := s.endReads (.audio p h)
        let s := s.updStream p h fun x => { x with bufs := rest, frames := x.frames ++ x.decode (fitBytes b.len bytes), last := b.last }
        .next ((s.finishDesc p b.ring b.order 0 (bytesOf 4 b.len)).readAudio p h)

/-! Rows: registers with effects of their own (R366, R374, R381) -/

/-- AUD_MIX_DATA_WRITE (R366, R383): the selected crosspoint's target and ramp time; the selector moves on. -/
def execAudMixDataWrite (q : Fin 4) (value : Word) (s : State) : Res := s.audioOn fun s =>
  if !s.dev.isManager q then .next s
  else
    let sel := s.dev.reg 0x18004
    let i := fld sel 21 16
    let o := fld sel 12 8
    let v := value.toNat % 2 ^ 26
    let v := if fld v 25 16 = 0 then v + 2 ^ 16 else if 1000 < fld v 25 16 then 1000 * 2 ^ 16 + v % 2 ^ 16 else v
    let k := i * 32 + o
    let s := s.updAudio fun a => { a with xset := Map.ins a.xset k (word v), xpend := if a.xpend.contains k then a.xpend else a.xpend ++ [k] }
    let o' := (o + 1) % 32
    let i' := if o = 31 then (i + 1) % 64 else i
    .next (if bit sel 0 then s.onDev fun d => d.setReg 0x18004 (i' * 2 ^ 16 + o' * 2 ^ 8 + 1) else s)

/-- AUD_EQ_DATA_WRITE (R30, R374, R381, R383): the selected coefficient, unless its output is locked; it acts from the next sample. -/
def execAudEqDataWrite (q : Fin 4) (value : Word) (s : State) : Res := s.audioOn fun s =>
  let sel := s.dev.reg 0x1800C
  let o := fld sel 12 8
  let c := fld sel 2 0
  if !s.dev.isManager q || decide (4 < c) || bit s.dev.audio.lockOut o then .next s
  else .next (s.audioCatchUp.updAudio fun a => { a with eq := Map.ins a.eq (o * 64 + fld sel 6 4 * 8 + c) value })

/-- An output takes the policy's settings and is locked, with its TDM port (R381). -/
def Dev.lockOutput (d : Dev) (o : Fin 32) (x : AudSettings) : Dev :=
  let p := fld x.out.toNat 29 28
  let b := 0x18100 + 0x10 * o.val
  let d := (((d.setField b x.out.toNat).setField (b + 4) x.comp.toNat).setField (b + 8) x.compT.toNat).setField (b + 12) x.lim.toNat
  let d := d.setReg (0x18020 + 8 * p) (x.tdm.toNat / 2 ^ 20 * 2 ^ 20)
  { d with audio := { d.audio with lockOut := Nat.lor d.audio.lockOut (2 ^ o.val), lockTdm := Nat.lor d.audio.lockTdm (2 ^ p) } }

/-- AUD_LOCK (R381): the named outputs are locked with the policy's settings, or none of them. -/
def execAudLock (order : Nat) (s : State) : Res := s.audioOn fun s =>
  s.managed order 0x80 fun j =>
    let mask := j.arg 0 4
    let named := (allFin 32).filter fun o => bit mask o.val
    let set := fun (o : Fin 32) => s.dev.policy.bind fun pol => at' pol.audio o
    if named.any fun o => (set o).isNone then s.answer j mbBadArg []
    else
      let s := named.foldl (fun (s : State) o => match set o with
        | some x => s.onDev (·.lockOutput o x)
        | none => s) s.audioCatchUp
      s.answer j mbOk (bytesOf 4 s.dev.audio.lockOut)

/-! Rows: TDM clocks (R372) -/

/-- TDM_CLK_LOST (R34, R372): a slave port's bit clock has stopped for more than 4 expected frame periods. -/
def execTdmClkLost (p : Fin 4) (s : State) : Res := s.audioOn fun s =>
  let c := s.dev.active (0x18020 + 8 * p.val)
  if bit c 31 && !bit c 30 then .next (s.updAudio fun a => { a with tdm := upd a.tdm p fun t => { t with clkLost := true } }) else .next s

/-- TDM_BCLK_RETURN (R34, R372): the bit clock returns and the port carries samples again. -/
def execTdmBclkReturn (p : Fin 4) (s : State) : Res := s.audioOn fun s =>
  .next (s.updAudio fun a => { a with tdm := upd a.tdm p fun t => { t with clkLost := false } })

/-! Rows: chimes (R377, R378, R380) -/

/-- The voice a CHIME of a ply may use (R377): a reserved one of a class A ply, else a free unreserved one. -/
def Dev.findVoice (d : Dev) (p : Fin 64) : Option (Fin 16) :=
  let free := (allFin 15).filter fun v => (at' d.audio.voices ⟨v.val, by omega⟩).isNone
  let own := free.filter fun v => at' d.audio.owner v == some p
  let open' := free.filter fun v => (at' d.audio.owner v).isNone
  ((own ++ open').head?).map fun v => ⟨v.val, by omega⟩

/-- A voice set. -/
def State.setVoice (s : State) (v : Fin 16) (x : Option Playing) : State := s.updAudio fun a => { a with voices := put a.voices v x }

/-- CHIME (R377): assigns a voice, which plays from the next block. -/
def execChime (p : Fin 64) (r : Fin 4) (s : State) : Res := s.audioOn fun s =>
  match s.ready p r 0x42 with
  | none => .next s
  | some f =>
    if bit (byteAt f.bytes 33) 0 then .next s
    else
      let e := s.dev.entry p
      let w : Fin 16 := ⟨byteAt f.bytes 32 % 16, by omega⟩
      let mask := le32 f.bytes 36
      let n := le16 f.bytes 34
      if !bit e.waves w.val || Nat.land mask e.outputs != mask then .next (s.finishDesc p r f.order 0x05 [])
      else match s.dev.findVoice p with
        | none => .next (s.finishDesc p r f.order 0x10 [])
        | some v =>
          .next ((s.dispatch p r f.order 0).setVoice v (some
            { ply := some p, classA := (s.ply p).cls == .a, wave := w, mask := mask, gain := le16 f.bytes 40, left := if n = 0 then none else some n,
              pos := 0, desc := some (r, f.order), sounds := false, stop := false, ended := false, closing := false, fade := none, hold := false }))

/-- CHIME_STOP (R378): every voice of the ply that plays the waveform ends at the next block boundary; the descriptor completes at once. -/
def execChimeStop (p : Fin 64) (r : Fin 4) (s : State) : Res := s.audioOn fun s =>
  match s.ready p r 0x42 with
  | none => .next s
  | some f =>
    if !bit (byteAt f.bytes 33) 0 then .next s
    else
      let halt := fun (x : Playing) => if x.ply = some p ∧ x.wave.val = byteAt f.bytes 32 % 16 then { x with stop := true } else x
      let s := s.updAudio fun a => { a with voices := a.voices.map fun v => v.map halt }
      .next (s.finishDesc p r f.order 0 [])

/-- CHIME_TRIGGER (R380): a binding of the policy fires, by a pin edge or by an event that has been raised: voice 15 plays its waveform from the first
sample. -/
def execChimeTrigger (i : Nat) (s : State) : Res := s.audioOn fun s =>
  match s.dev.policy.bind fun pol => pol.binds[i]? with
  | none => .next s
  | some b =>
    let edge := match b.src with | .edge _ _ => true | .event _ => false
    if !edge && !s.dev.audio.due.contains i then .next s
    else
      let s := s.updAudio fun a => { a with due := a.due.erase i }
      .next (s.setVoice 15 (some { ply := none, classA := true, wave := b.wave, mask := b.mask, gain := b.gain, left := some 1, pos := 0, desc := none,
                                   sounds := false, stop := false, ended := false, closing := false, fade := none, hold := false }))

/-- CHIME_VOICE_END (R44, R378): a voice that has finished, or been silenced, is free again; its CHIME completes OK, or DISCARDED in a drain. -/
def execChimeVoiceEnd (v : Fin 16) (s : State) : Res := s.audioOn fun s =>
  match at' s.dev.audio.voices v with
  | none => .next s
  | some x =>
    if !x.ended then .next s
    else
      let s := s.setVoice v none
      match x.ply, x.desc with
      | some p, some (r, o) =>
        if (s.ply p).state = .active then .next (s.finishDesc p r o 0 [])
        else match (s.ring p r).queue.find? (·.order == o) with
          | some f => .next (s.discard p r f)
          | none => .next s
      | _, _ => .next s

/-! The block at an epoch boundary -/

/-- Crosspoint targets swap in and start their ramps (R366). -/
def Audio.swapCross (a : Audio) : Audio :=
  { a with xpend := [], xp := a.xpend.foldl (fun m k =>
      let w := (Map.get a.xset 0x00140000 k).toNat
      Map.ins m k ((Map.get m (Gain.still 0) k).ramp (fld w 15 0) (fld w 25 16 * 96))) a.xp }

/-- A descriptor of a ply's audio work ends: completed, or discarded in a drain. -/
def State.endAudioDesc (s : State) (p : Fin 64) (r : Fin 4) (o : Nat) (result : List Byte) : State :=
  if (s.ply p).state = .active then s.finishDesc p r o 0 result
  else match (s.ring p r).queue.find? (·.order == o) with
    | some f => s.discard p r f
    | none => s

/-- Streams that start, ramp down or close at the boundary (R369, R370, R382). -/
def State.stepStreams (s : State) : State :=
  let gone := s.dev.audio.streams.filter fun x => match x.fade with | some g => g.left == 0 | none => false
  let s := s.updAudio fun a => { a with streams := a.streams.filter fun x => match x.fade with | some g => g.left != 0 | none => true }
  let s := gone.foldl (fun (s : State) x =>
    let s := s.onDev (·.dropReads (· == .audio x.ply x.handle))
    let s := x.bufs.foldl (fun (s : State) b => s.endAudioDesc x.ply b.ring b.order (bytesOf 4 0)) s
    match x.closer with
    | some (r, o) => s.endAudioDesc x.ply r o []
    | none => s) s
  let turn := fun (x : Stream) =>
    let x := if x.closing && x.fade.isNone then { x with fade := some ((Gain.still 0x4000).ramp 0 384) } else x
    if !x.started && decide (x.rate ≤ 500 * x.frames.length) && !x.frames.isEmpty then { x with started := true } else x
  s.updAudio fun a => { a with streams := a.streams.map turn }

/-- Voices that start, stop or ramp down at the boundary (R378, R382). -/
def Audio.stepVoices (a : Audio) : Audio :=
  { a with voices := a.voices.map fun v => v.map fun x =>
      let faded := match x.fade with | some g => g.left == 0 | none => false
      if x.ended then x
      else if x.stop || faded then { x with ended := true, sounds := false }
      else { x with sounds := true, fade := if x.closing && x.fade.isNone then some ((Gain.still 0x4000).ramp 0 384) else x.fade } }

/-- Ducking targets at the boundary (R379). -/
def Dev.duckOutputs (d : Dev) : Dev :=
  let outs := Vector.ofFn fun (o : Fin 32) =>
    let x := at' d.audio.outs o
    let w := d.reg (0x18100 + 0x10 * o.val)
    let sounding := d.audio.voices.toList.any fun v => match v with | some y => y.sounds && y.classA && bit y.mask o.val | none => false
    let target := if sounding then fld w 15 0 else 0x4000
    if x.duck.target = target then x else { x with duck := x.duck.ramp target (if sounding then blockLen else fld w 23 16 * 960) }
  { d with audio := { d.audio with outs := outs } }

/-- A waveform's frame: 0 past its end, and where it has been lost (R378, R382). -/
def State.waveSample (s : State) (w : Fin 16) (i : Nat) : Int :=
  match s.dev.policy.bind fun pol => at' pol.waves w with
  | none => 0
  | some (a, n) => if n ≤ i ∨ w ∈ s.dev.audio.lost then 0 else signed 16 (leAt (s.dram.readN (at' s.dev.ely.keySlot 64) (a + 2 * i) 2) 0 2)

/-- Blocks of a waveform, in frames. -/
def State.waveLen (s : State) (w : Fin 16) : Nat :=
  match s.dev.policy.bind fun pol => at' pol.waves w with
  | none => blockLen
  | some x => ceilTo x.2 blockLen

/-- A sounding voice's samples of the block. -/
def State.voiceBlock (s : State) (x : Playing) : List Int :=
  if !x.sounds || x.hold then []
  else
    let raw := (List.range blockLen).map fun n => satQ31 (gained (s.waveSample x.wave (x.pos + n) * 65536) x.gain)
    match x.fade with
    | some g => gainAll raw (g.run blockLen).1
    | none => raw

/-- A voice after a block (R378). -/
def Playing.advance (x : Playing) (len : Nat) : Playing :=
  if !x.sounds || x.hold then x
  else
    let x := { x with fade := x.fade.map fun (g : Gain) => (g.run blockLen).2 }
    if x.pos + blockLen < len then { x with pos := x.pos + blockLen }
    else match x.left with
      | some n => if n ≤ 1 then { x with ended := true, sounds := false } else { x with left := some (n - 1), pos := 0 }
      | none => { x with pos := 0 }

/-- A mixer input's samples of the block: the converted ones where it has a running source, else zeros (R365, R370). -/
def Dev.inputBlock (d : Dev) (io : AudioIn) (i : Nat) : List Int :=
  let zero := List.replicate blockLen (0 : Int)
  let fit := fun l => ((Map.get io.inputs l i).map satQ31 ++ zero).take blockLen
  match d.audio.streams.find? fun x => x.inputs.contains i with
  | some x =>
    if !x.started || x.frames.isEmpty then zero
    else match x.fade with
      | some g => gainAll (fit zero) (g.run blockLen).1
      | none => fit zero
  | none => if (tdmMap d.active).any fun m => m.1 == i && d.tdmRun m.2 then fit zero else zero

/-- The samples of an output's main path after the mixer and its ducking, with those of its chime path, and its ducking gain after the block (R364, R365,
R378, R379). -/
def Dev.outBlock (d : Dev) (ins : List (Nat × List Int)) (chimes : List (Nat × List Int)) (o : Fin 32) : List (Int × Int) × Gain :=
  let a := d.audio
  let cross := ins.map fun x => (x.2, ((Map.get a.xp (Gain.still 0) (x.1 * 32 + o.val)).run blockLen).1)
  let mix := (List.range blockLen).map fun n => satQ31 (cross.foldl (fun acc x => sat48 (acc + gained (x.1.getD n 0) (x.2.getD n 0))) 0)
  let chime := (List.range blockLen).map fun n => satQ31 ((chimes.map fun c => if bit c.1 o.val then c.2.getD n 0 else 0).sum)
  let (ducks, duck) := (at' a.outs o).duck.run blockLen
  ((List.range blockLen).map fun n => (satQ31 (gained (mix.getD n 0) (ducks.getD n 0)), chime.getD n 0), duck)

/-- The frames that a running master port sends at 96 kHz: in each slot the lowest-numbered output that names it (R371-R373). -/
def Dev.tdmFrames (d : Dev) (outs : List (List Int)) (p : Fin 4) : List (List Int) :=
  let slots := fld (d.active (0x18020 + 8 * p.val)) 27 24 + 1
  (List.range blockLen).map fun n => (List.range slots).map fun k =>
    match (List.range 32).find? fun o => let w := d.reg (0x18100 + 0x10 * o); bit w 31 && fld w 29 28 == p.val && fld w 27 24 == k with
    | some o => (outs.getD o []).getD n 0
    | none => 0

/-- MEM of a voice's block beyond its waveform's first (R378, R382). A voice whose take is refused holds its work: it plays nothing in this block and takes
again at the next boundary, where MEM returns (R44, R46). -/
def State.chargeVoice (s : State) (v : Fin 16) : State :=
  match at' s.dev.audio.voices v with
  | none => s
  | some x =>
    if !x.sounds || x.pos == 0 then s
    else
      let addr := (match s.dev.policy.bind fun pol => at' pol.waves x.wave with | some w => w.1 | none => 0) + 2 * x.pos
      match s.takeMem (match x.ply with | some p => plyHolder p | none => devHolder) (unitsOf addr 96) [(addr, 96)] with
      | some s => s.setVoice v (some { x with hold := false })
      | none => s.setVoice v (some { x with hold := true })

/-- Frames consumed by the block, with AUD_XRUN where a stream lacks them (R370). -/
def State.consume (s : State) : State :=
  s.dev.audio.streams.foldl (fun (s : State) x =>
    if !x.started then s
    else
      let n := x.need
      let s := s.updStream x.ply x.handle fun y => { y with frames := y.frames.drop n, part := (x.part + x.rate) % 2000,
                                                            fade := y.fade.map fun g => (g.run blockLen).2 }
      if x.frames.length < n ∧ !x.last then
        s.postPly x.ply x.ply.val 0x0B00 x.handle (dataBytes [(16, 1, 1), (24, 8, s.dev.devtime + x.frames.length * 1000000000 / max 1 x.rate)])
      else s) s

/-- The block in hand ends: its last samples are processed, its voices move on or end (R378), and each running TDM port sends its frames (R371, R372). -/
def State.endBlock (s : State) : State :=
  let s := s.audioRun blockLen
  match s.dev.audio.block with
  | none => s
  | some b =>
    let d := s.dev
    let outs := b.sent.toList.map List.reverse
    let s := s.updAudio fun a => { a with block := none, voices := a.voices.map fun v => v.map fun x => x.advance (s.waveLen x.wave) }
    s.each (allFin 4) fun s p =>
      let c := d.active (0x18020 + 8 * p.val)
      if !d.tdmRun p then s else s.emit (.tdm p (if bit c 30 && fld c 29 28 == 1 then d.tdmFrames outs p else at' b.conv p))

/-- The audio block's work at an epoch boundary: settings have swapped, and a block of 48 samples begins (R27, R364). -/
def State.audioBlock (s : State) (io : AudioIn) : State :=
  if !s.dev.islandOn 22 then s
  else
    let s := s.updAudio Audio.swapCross
    let s := (s.stepStreams).updAudio Audio.stepVoices
    let s := s.onDev Dev.duckOutputs
    let s := (allFin 16).foldl State.chargeVoice s
    let d := s.dev
    let ins := (List.range 64).map fun i => (i, d.inputBlock io i)
    let chimes := (d.audio.voices.toList.filterMap id).map fun x => (x.mask, s.voiceBlock x)
    let blocks := Vector.ofFn fun o : Fin 32 => d.outBlock ins chimes o
    let s := s.updAudio fun a =>
      { a with outs := Vector.ofFn fun o => { at' a.outs o with duck := (at' blocks o).2 },
               xp := a.xp.map fun e => (e.1, (e.2.run blockLen).2),
               tdm := Vector.ofFn fun p => let t := at' a.tdm p; { t with slips := min 0xFFFF (t.slips + at' io.slips p) },
               block := some { pos := 0, rest := blocks.map (·.1), sent := Vector.replicate 32 [], conv := io.conv, free := d.fresh } }
    (s.onDev fun d => { d with fresh := d.fresh + 4096 }).consume

end Sys2Proof.Machine
end

