-- ==== Sys2Proof/Machine/Ports.lean ====
section
/-! DEFINITION. Machine/Ports.lean: host ports: configuration space, power states, time correlation, latency, wake and link-down (R321-R340).
The layout of the standard's own configuration registers is PRESUMED from PCI Express 5.0 (log entry 20). -/
namespace Sys2Proof.Machine

/-- R4: Device ID. -/
def Dev.deviceId (d : Dev) : Nat := 0x0C10 + d.variant.val

/-! Configuration space (R328) -/

/-- Device Serial Number: the first 8 bytes of SHA-384 of the identity public key (R328). -/
def Dev.serial (d : Dev) : Nat := beOf ((sha384 (p384Public (d.ely.ladder 0 []))).take 8)

/-- Configuration dwords that carry a field per lane, with `bits` per lane from offset `base` on: `v` for each lane that the port owns, 0 for the others
(R328). -/
def Dev.laneWords (d : Dev) (q : Fin 4) (base bits v : Nat) : List (Nat × Nat) :=
  let per := 32 / bits
  (List.range (16 / per)).map fun i => (base + 4 * i,
    ((List.range per).map fun k => if i * per + k < strapLanes d.power.strap q then v * 2 ^ (bits * k) else 0).sum)

/-- Status of the DOE mailbox: an error, a response to be read (R326). -/
def Doe.status (x : Doe) : Nat := 4 * bit1 x.error + 2 ^ 31 * bit1 (!x.outbox.isEmpty)

/-- Status of an IDE stream: secure while it has a key (R326). -/
def Port.ideStatus (p : Port) (i : Nat) : Nat := if atD p.ide i 0 = 0 then 0 else 2

/-- Base values of the configuration dwords: what a port answers where the host can write nothing. -/
def Dev.cfgFixed (d : Dev) (q : Fin 4) : List (Nat × Nat) :=
  let pt := d.port q
  let id := d.deviceId * 65536 + 0x1FD4
  [(0x00, id), (0x04, 0x00100000), (0x08, 0x038000B0), (0x10, 0x4), (0x18, 0x4), (0x2C, id), (0x34, 0x40),
   (0x40, 0x40035001), (0x44, 0x8), (0x50, 0x01FF7011), (0x54, 0x8000), (0x58, 0xA000),
   (0x70, 0x00020010), (0x74, 0x10008022), (0x7C, q.val * 2 ^ 24 + 0x800 + strapLanes d.power.strap q * 16 + 5),
   (0x80, 2 ^ 16 * (pt.speed + 16 * pt.width + 0x1000 * bit1 (q.val == 0))), (0x94, 0x30800), (0x9C, if q.val = 0 then 0x0180003E else 0x019F3E3E)] ++
  [(0x100, 0x14820001), (0x118, 0xA0), (0x148, 0x15810003), (0x14C, d.serial % 2 ^ 32), (0x150, d.serial / 2 ^ 32),
   (0x158, 0x1A410019), (0x1A4, 0x1B010025), (0x1A8, 0x80000001), (0x1B0, 0x1E010026), (0x1E0, 0x2101002A), (0x210, 0x25810027),
   (0x258, 0x2601001B), (0x25C, 0x1400), (0x260, 0x2681000F), (0x264, 0x20), (0x268, 0x2741001F), (0x26C, 0xA01), (0x274, 0x2901002E),
   (0x280, pt.doe.status), (0x288, (pt.doe.outbox.headD 0).toNat),
   (0x290, 0x00010030), (0x294, 0x00010063), (0x2A0, pt.ideStatus 0), (0x2AC, pt.ideStatus 1), (0x2C0, pt.ideStatus 2)] ++
  d.laneWords q 0x164 16 0x7F00 ++ d.laneWords q 0x1D0 8 0xF0 ++ d.laneWords q 0x200 8 0xF0

/-- Bits of a configuration dword that the host writes. -/
def cfgMask (off : Nat) : Nat :=
  (Map.find ([(0x04, 0x546), (0x0C, 0xFF), (0x10, 0xFFF00000), (0x14, 0xFFFFFFFF), (0x18, 0xFFFC0000), (0x1C, 0xFFFFFFFF), (0x3C, 0xFF),
    (0x44, 0x103), (0x50, 0xC0000000), (0x78, 0x7FFF), (0x80, 0xFFF), (0x98, 0x1400), (0xA0, 0xFFFF), (0x108, 0x07FFFFFF),
    (0x10C, 0x07FFFFFF), (0x114, 0xFFFF), (0x118, 0x140), (0x25C, 0x10000), (0x264, 0x801F0000), (0x270, 0xFF01), (0x27C, 0x2),
    (0x298, 0x4), (0x29C, 0xFFFFFFFF), (0x2A8, 0xFFFFFFFF), (0x2B0, 0xFFFFFF), (0x2B4, 0xFFFFFF), (0x2BC, 0xFFFFFFFF), (0x2C4, 0xFFFFFF), (0x2C8, 0xFFFFFF)] : Map Nat) off).getD 0

/-- Bits of a port's configuration dword that the host writes: the margining control of a lane that the port owns too (R328). -/
def Dev.cfgWritable (d : Dev) (q : Fin 4) (off : Nat) : Nat :=
  if 0x218 ≤ off ∧ off < 0x258 then (if (off - 0x218) / 4 < strapLanes d.power.strap q then 0xFF7F else 0) else cfgMask off

/-- A configuration dword as read (R328). -/
def Dev.cfgRead (d : Dev) (q : Fin 4) (off : Nat) : Word :=
  word (Map.get (d.cfgFixed q) 0 off) ||| ((d.port q).cfgWord off &&& word (d.cfgWritable q off))

/-- Host traffic of a port that may leave again goes out: held writes in their original order, then the reads that waited (R333). -/
def State.resumeTraffic (s : State) (q : Fin 4) : State :=
  if !(s.port q).trafficOk then s
  else
    let held := (s.port q).held
    let s := s.onDev fun d => (held.foldl Dev.emit d).updPort q fun pt => { pt with held := [] }
    let waits := s.dev.readWaits.filter (·.port == q)
    let s := s.onDev fun d => { d with readWaits := d.readWaits.filter (·.port != q) }
    waits.foldl (fun s r => s.issueRead r) s

/-- DOE Discovery (R326): vendor and type of the object protocol at an index, and the next index. -/
def doeDiscovery (i : Nat) : Nat := match i with | 0 => 0x01000001 | 1 => 0x02010001 | 2 => 0x00020001 | _ => 0xFFFF

/-- A write to the DOE mailbox registers (R326; layout PRESUMED, log entry 20): words of an object of up to 4 KiB, GO, ABORT, and words read. A Discovery
object is answered at once; an SPDM object is the request that a row of R309 brings. -/
def Doe.write (x : Doe) (off : Nat) (v : Word) : Doe :=
  match off with
  | 0x27C =>
    if bit v.toNat 0 then { inbox := [], outbox := [], error := false }
    else if !bit v.toNat 31 then x
    else if x.inbox.length < 2 ∨ 1024 < x.inbox.length then { x with inbox := [], error := true }
    else if x.inbox.headD 0 = 0x00000001 then
      { x with inbox := [], outbox := [0x00000001, 3, word (doeDiscovery ((x.inbox.getD 2 0).toNat % 256))] }
    else { x with inbox := [] }
  | 0x284 => { x with inbox := (x.inbox ++ [v]).take 1025 }
  | 0x288 => { x with outbox := x.outbox.drop 1 }
  | _ => x

/-- A configuration dword written: its effects on held traffic, on pending MSI-X vectors and on the translation cache follow. -/
def State.cfgWrite (s : State) (q : Fin 4) (off : Nat) (v : Word) : State :=
  let m := word (s.dev.cfgWritable q off)
  let s := s.updPort q fun pt => { pt with doe := pt.doe.write off v }
  let s := s.updPort q fun pt => { pt with cfg := Map.ins pt.cfg off ((pt.cfgWord off &&& ~~~m) ||| (v &&& m)) }
  let s := s.updPort q fun pt => if pt.atsEn then pt else { pt with atc := [] }
  (s.onDev fun d => d.flushPba q).resumeTraffic q

/-- Whether a port answers configuration requests with data: the firmware has started, or it is port 0 in ROM mode (R329). -/
def Dev.cfgReady (d : Dev) (q : Fin 4) : Bool := d.ely.state != .rom || (d.ely.romMode && q.val == 0)

/-- CONFIG_REQUEST (R322, R328, R329): a read, or a write of one dword. Request Retry Status is the reply none. -/
def execConfigRequest (q : Fin 4) (off : Nat) (write : Option Word) (s : State) : Res := s.clocked fun s =>
  if !(s.dev.portPresent q && (s.port q).linkUp) then .next s
  else if !s.dev.cfgReady q then .next (s.emit (.cfgReply q none))
  else match write with
    | none => .next (s.emit (.cfgReply q (some (s.dev.cfgRead q off))))
    | some v => .next ((s.cfgWrite q off v).emit (.cfgReply q (some 0)))

/-- POWER_STATE_CHANGE (R333): the host puts the port into D0 or D3hot and sets or clears Bus Master Enable. -/
def execPowerStateChange (q : Fin 4) (d3hot busMaster : Bool) (s : State) : Res := s.clocked fun s =>
  if !(s.dev.portPresent q && (s.port q).linkUp && s.dev.cfgReady q) then .next s
  else
    let pm := Word.put ((s.port q).cfgWord 0x44) 1 0 (if d3hot then 3 else 0)
    let cmd := Word.put ((s.port q).cfgWord 0x04) 2 2 (bit1 busMaster)
    .next ((s.cfgWrite q 0x44 pm).cfgWrite q 0x04 cmd)

/-! Links (R323, R334) -/

/-- WAKE_N is released when the manager's link reaches L0 (R334). -/
def State.releaseWake (s : State) (q : Fin 4) : State :=
  if s.dev.manager = some q then s.onDev fun d => { d with power := { d.power with wakeN := false } } else s

/-- PORT_LINK.SPEED codes and widths (R323, R330). -/
def linkOk (speed width lanes : Nat) : Bool :=
  decide (1 ≤ speed) && decide (speed ≤ 5) && [1, 2, 4, 8, 16].contains width && decide (width ≤ lanes)

/-- Island of a host port. -/
def hostIsland (q : Fin 4) : Fin 32 := ⟨4 + q.val, by omega⟩

/-- LINK_UP (R323): the link reaches DL_Active at a width and rate. A port in PERST_N, absent, or with its island off does not train (R322,
R340, R431). -/
def execLinkUp (q : Fin 4) (speed width : Nat) (s : State) : Res := s.clocked fun s =>
  let pt := s.port q
  let powered := s.dev.ely.state == .rom || at' s.dev.power.islands (hostIsland q) == .good
  if s.dev.portPresent q && powered && !pt.perst && !pt.linkUp && linkOk speed width (strapLanes s.dev.power.strap q) then
    .next ((s.updPort q fun pt => { pt with linkUp := true, speed := speed, width := width, inL1 := false, down := false }).releaseWake q)
  else .next s

/-- PERST_N_RELEASE (R322, R329): the level of the pin; a present port then trains. -/
def execPerstNRelease (q : Fin 4) (s : State) : Res := .next (s.updPort q fun pt => { pt with perst := false })

/-- LINK_L1_CHANGE (R334): the host takes a port's link into L1 or back to L0. -/
def execLinkL1Change (q : Fin 4) (enter : Bool) (s : State) : Res := s.clocked fun s =>
  if !(s.port q).linkUp then .next s
  else
    let s := s.updPort q fun pt => { pt with inL1 := enter }
    .next (if enter then s else s.releaseWake q)

/-- Whether a class A ply bound to the port is ACTIVE or DRAINING (R331). -/
def Dev.classAOn (d : Dev) (q : Fin 4) : Bool :=
  allPlies.any fun p => let y := d.ply p; y.cls == .a && y.port == q && (y.state == .active || y.state == .draining)

/-- Latency that the port reports, in microseconds (R331). -/
def Dev.ltrValue (d : Dev) (q : Fin 4) : Nat := if d.classAOn q then 2 else (d.port q).reg 0x8

/-- LTR_MESSAGE (R331): sent when the reported value has changed. -/
def execLtrMessage (q : Fin 4) (s : State) : Res := s.clocked fun s =>
  let v := s.dev.ltrValue q
  if (s.port q).linkUp ∧ v ≠ (s.port q).ltrLast then
    .next ((s.updPort q fun pt => { pt with ltrLast := v }).emit (.pcieMsg q "LTR" v))
  else .next s

/-- ASPM_IDLE_TIMEOUT (R331): the port initiates ASPM L1 entry, if enabled, unless a class A ply keeps it awake. -/
def execAspmIdleTimeout (q : Fin 4) (s : State) : Res := s.clocked fun s =>
  let pt := s.port q
  if pt.linkUp && !pt.inL1 && pt.inD0 && pt.aspmL1 && !s.dev.classAOn q then
    .next ((s.updPort q fun pt => { pt with inL1 := true }).emit (.pcieMsg q "ASPM L1" 0))
  else .next s

/-- WAKE_N_ASSERT (R334): a recognised wake gesture or a critical record reaches the manager's host: WAKE_N low while its link is down, PM_PME in
D3hot, the event log alone in D0. -/
def execWakeNAssert (s : State) : Res :=
  if !(s.dev.ccn.wakeDue && s.dev.slpclk) then .next s
  else
    let q := s.dev.power.watchPort
    let pt := s.port q
    let s := s.onDev fun d => { d with ccn := { d.ccn with wakeDue := false } }
    if !pt.linkUp || !s.dev.alive then .next (s.onDev fun d => { d with power := { d.power with wakeN := true } })
    else if pt.inD0 then .next s
    else if pt.pmeEn then .next (s.emit (.pcieMsg q "PM_PME" 0))
    else .next s

/-! Translation cache (R326, R327) -/

/-- Whether an address range meets pages `first` to `first + pages - 1`. -/
def meetsPages (first pages : Nat) (x : Nat × Nat) : Bool :=
  decide (0 < x.2) && decide (0 < pages) && decide (x.1 / 4096 < first + pages) && decide (first ≤ (x.1 + x.2 - 1) / 4096)

/-- ATS_INVALIDATE (R327): every matching entry goes, and the requests issued under them are awaited. PASID 0 names requests without a PASID. -/
def execAtsInvalidate (q : Fin 4) (pasid first pages : Nat) (s : State) : Res := s.clocked fun s =>
  if !((s.port q).linkUp && (s.port q).atsEn) then .next s
  else
    let rs := s.dev.reads.filter fun r => r.port == q && meetsPages first pages (r.addr, r.len) && match r.ply with
      | some p => (s.ply p).pasid == pasid
      | none => pasid == 0
    let ps := allPlies.filter fun p => let y := s.ply p; y.port == q && y.pasid == pasid && decide (0 < y.pollTags) &&
      ((y.dbrBase.toNat, 512) :: y.rings.toList.map fun g => (g.base.toNat, 512)).any (meetsPages first pages)
    .next (s.updPort q fun pt =>
      { pt with atc := pt.atc.filter fun e => !(e.pasid == pasid && decide (first ≤ e.page) && decide (e.page < first + pages)),
                inval := pt.inval ++ [{ pasid := pasid, first := first, pages := pages, reads := rs, polls := ps }] })

/-- ATS_INVALIDATE_COMPLETE (R327): the oldest invalidation whose requests have all completed or timed out is answered. -/
def execAtsInvalidateComplete (q : Fin 4) (s : State) : Res := s.clocked fun s =>
  match (s.port q).inval.find? fun v => v.reads.isEmpty && v.polls.isEmpty with
  | some v => .next ((s.updPort q fun pt => { pt with inval := pt.inval.erase v }).emit (.pcieMsg q "Invalidate Completion" v.pasid))
  | none => .next s

/-! Time correlation (R332) -/

/-- A PTM exchange starts: its request leaves at t1. With PTM disabled nothing happens. A new exchange takes the place of one that is still
out (log entry 60). -/
def State.startPtm (s : State) (q : Fin 4) : State :=
  let now := s.dev.devtime
  if (s.port q).linkUp ∧ (s.port q).ptmEn then
    (s.updPort q fun pt => { pt with ptmT1 := some now }).emit (.pcieMsg q "PTM Request" 0)
  else s

/-- PTM_TIMER (R330, R332): with AUTO set an exchange starts every PERIOD_MS. -/
def execPtmTimer (q : Fin 4) (s : State) : Res := s.clocked fun s =>
  if bit ((s.port q).reg 0x10) 31 then .next (s.startPtm q) else .next s

/-- PTM_NOW (R330, R332): a write of PORT_PTM_CTL with NOW set starts one exchange; the write's other fields are stored. -/
def execPtmNow (q : Fin 4) (value : Word) (s : State) : Res := s.clocked fun s =>
  if !(s.port q).linkUp then .next s
  else
    let v := portRegClamp 0x10 (value &&& word 0x800000FF).toNat
    let s := s.updPort q fun pt => { pt with regs := Map.ins pt.regs 0x10 (word v) }
    .next (if bit value.toNat 30 then s.startPtm q else s)

/-- The host's time at t4 (R332): t2 + d + ((t4 - t1) - d) / 2, rounding down. -/
def hostAt (t1 t2 d t4 : Nat) : DWord := BitVec.ofInt 64 ((t2 : Int) + d + Int.fdiv ((t4 : Int) - t1 - d) 2)

/-- PTM_RESPONSE (R332): a ResponseD with t2 and d arrives; the pair is written between two increments of SEQ. -/
def execPtmResponse (q : Fin 4) (t2 d : Nat) (s : State) : Res := s.clocked fun s =>
  match (s.port q).ptmT1 with
  | none => .next s
  | some t1 =>
    let t4 := s.dev.devtime
    if (s.port q).ptmEn then
      .next (s.updPort q fun pt =>
        { pt with ptmT1 := none, ptmSeq := pt.ptmSeq + 2, ptmDev := BitVec.ofNat 64 t4, ptmHost := hostAt t1 t2 d t4 })
    else .next (s.updPort q fun pt => { pt with ptmT1 := none })

/-! Link-down (R335-R338) -/

/-- Causes of a link-down. -/
inductive DownCause where | dlDown | perst | hotReset | flr
deriving DecidableEq, Repr

/-- Cause code of PORT_LINK_DOWN (R335). -/
def DownCause.code : DownCause → Nat
  | .dlDown => 1 | .perst => 2 | .hotReset => 3 | .flr => 4

/-- Requests in flight on a port are dropped and their HTAG credits return (R335). -/
def State.dropReads (s : State) (q : Fin 4) : State :=
  let s := (s.dev.reads.filter (·.port == q)).foldl (fun s r => s.endRead r) s
  let s := s.onDev fun d => { d with readWaits := d.readWaits.filter (·.port != q) }
  s.each (allPlies.filter fun p => (s.ply p).port == q && decide (0 < (s.ply p).pollTags)) fun s p =>
    let n := (s.ply p).pollTags
    (s.onSkein fun k => k.give (.htag q) (standHolder p) n).updPly p fun y => { y with pollTags := 0, pollOut := none, pollDefer := false }

/-- R335: what a recognised link-down does to a port; `up` where its link stays in DL_Active (a Function Level Reset). -/
def State.linkDown (s : State) (q : Fin 4) (c : DownCause) (up : Bool) : State :=
  let was := s.port q
  let s := s.dropReads q
  let s := s.updPort q fun pt =>
    { Port.blank pt.perst with
      linkDowns := min 0xFFFF (was.linkDowns + 1), down := !up, linkUp := up, speed := if up then was.speed else 0,
      width := if up then was.width else 0 }
  let s := s.onDev fun d => { d with ely := { d.ely with
    inbox := d.ely.inbox.filter (· != q),
    journal := d.ely.journal.map fun j => if j.port = q then { j with mute := true } else j } }
  let data := dataBytes [(16, 1, c.code), (17, 1, q.val)]
  -- Where the port is the manager's, R335 posts no event at all.
  let s := if s.dev.manager = some q then s else (s.postManager 0x40 0x0900 q.val data).onDev fun d => d.logEvent q 0x40 0x0900 q.val data
  let s := s.cocoon 0x0900 sevError 0x40 (data.take 10)
  s.each (allPlies.filter fun p => (s.ply p).state != .absent && (s.ply p).port == q) fun s p => s.orphan p

/-- A cause of link-down is recognised: one that arises before the link has returned belongs to the earlier one (R335). -/
def State.recogniseDown (s : State) (q : Fin 4) (c : DownCause) (up : Bool) : State :=
  if !s.dev.portPresent q || (s.port q).down || (!(s.port q).linkUp && c != .perst) then s else s.linkDown q c up

/-- PERST_N_ASSERT (R322, R335): the pin falls; on a present port that is a link-down at once. -/
def execPerstNAssert (q : Fin 4) (s : State) : Res :=
  if (s.port q).perst then .next s else
  let s := s.updPort q fun pt => { pt with perst := true }
  if s.dev.alive then .next (s.recogniseDown q .perst false) else .next s

/-- HOT_RESET (R335). -/
def execHotReset (q : Fin 4) (s : State) : Res := s.clocked fun s => .next (s.recogniseDown q .hotReset false)

/-- FLR (R335): the link stays up, unless DL_Down was already pending. -/
def execFlr (q : Fin 4) (dlPending : Bool) (s : State) : Res := s.clocked fun s => .next (s.recogniseDown q .flr !dlPending)

/-- DL_DOWN_DETECT (R335): DL_Down is recognised 26 ms after the last good symbol. -/
def execDlDownDetect (q : Fin 4) (s : State) : Res := s.clocked fun s => .next (s.recogniseDown q .dlDown false)

end Sys2Proof.Machine
end

