-- ==== Sys2Proof/Machine/Touch.lean ====
section
/-! DEFINITION. Machine/Touch.lean: capacitive touch (R384-R407): configuration, scans, charger noise, baselines, contacts and reports, panel
commands, the wake gesture. Raw counts come with the commands, normalised as R390 says. -/
namespace Sys2Proof.Machine

/-! Panels and configuration -/

/-- A panel, and the state with one changed. -/
def State.panel (s : State) (n : Fin 4) : Panel := at' s.dev.touch.panels n
@[inherit_doc State.panel] def State.updTouch (s : State) (f : Touch → Touch) : State := s.onDev fun d => { d with touch := f d.touch }
@[inherit_doc State.panel] def State.updPanel (s : State) (n : Fin 4) (f : Panel → Panel) : State :=
  s.updTouch fun t => { t with panels := upd t.panels n f }

/-- The touch and haptic front ends act while their island is up (R386, R431). -/
def State.sensing (s : State) (f : State → Res) : Res := s.clocked fun s => if s.dev.islandOn 23 then f s else .next s

/-! Fields of a configuration block (R387) -/

/-- A flag, N_INT and a frequency divider of a block. -/
def tcFlag (b : List Byte) (i : Nat) : Bool := bit (byteAt b 0) i
@[inherit_doc tcFlag] def tcInt (b : List Byte) : Nat := byteAt b 2
@[inherit_doc tcFlag] def tcDiv (b : List Byte) (i : Nat) : Nat := le16 b (8 + 2 * i)
/-- Used frequency entries, in order. -/
def tcUsed (b : List Byte) : List (Fin 8) := (allFin 8).filter fun i => tcDiv b i.val != 0

/-- Groups of up to four drives (R389). -/
def groupsOfDrives (drv : Nat) : Nat := (drv + 3) / 4

/-- Time of a pass in units of 1/96 microsecond (R390). -/
def passTime (drv n dv : Nat) : Nat := (4 * groupsOfDrives drv + 1) * n * dv + 40 * 96

/-- A zone's fields: X0, Y0, X1, Y1, channel, effect, priority, enable (R387). -/
def tcZone (b : List Byte) (z : Nat) : Nat × Nat × Nat × Nat := (le16 b (64 + 16 * z), le16 b (66 + 16 * z), le16 b (68 + 16 * z), le16 b (70 + 16 * z))
@[inherit_doc tcZone] def tcZoneOn (b : List Byte) (z : Nat) : Bool := bit (byteAt b (75 + 16 * z)) 0

/-- The checks of a configuration block (R387, R388) for a panel with `drv` drives. -/
def touchBlockOk (b : List Byte) (drv : Nat) : Bool :=
  let within := fun (v lo hi : Nat) => decide (lo ≤ v) && decide (v ≤ hi)
  !bit (byteAt b 0) 7 && within (byteAt b 1) 10 240 && within (tcInt b) 4 64 && within (byteAt b 3) 1 10 && decide (1 ≤ le16 b 4) && decide (1 ≤ le16 b 6) &&
    (List.range 8).all (fun i => tcDiv b i == 0 || within (tcDiv b i) 192 960) && tcDiv b 0 != 0 &&
    within (le16 b 24) 16 32767 && within (le16 b 26) 8 (le16 b 24 - 1) && decide (le16 b 30 < le16 b 28) &&
    within (byteAt b 32) 4 16 && within (byteAt b 33) 1 4 && decide (1 ≤ byteAt b 34) && zeroBytes b 35 29 &&
    (List.range 4).all (fun z =>
      let (x0, y0, x1, y1) := tcZone b z
      let o := 64 + 16 * z
      decide (byteAt b (o + 8) < 8) && decide (byteAt b (o + 9) < 32) && decide (byteAt b (o + 10) < 16) && decide (byteAt b (o + 11) < 2) &&
        zeroBytes b (o + 12) 4 && (!tcZoneOn b z || (decide (x0 < x1) && decide (y0 < y1)))) &&
    decide (passTime drv (tcInt b) ((tcUsed b).foldl (fun m i => max m (tcDiv b i.val)) 0) * byteAt b 1 ≤ 96000000)

/-- Haptic channels that a block's enabled zones name (R385). -/
def touchChannels (b : List Byte) : List Nat := ((List.range 4).filter (tcZoneOn b)).map fun z => byteAt b (72 + 16 * z)

/-- Payload of a TCH_CONFIG: panel, address, length (R89). -/
def InFlight.tchPanel (f : InFlight) : Fin 4 := ⟨byteAt f.bytes 32 % 4, by omega⟩

/-- TCH_CONFIG (R387, R395): the block that the Weevil read takes effect at the start of the panel's next scan. -/
def execTchConfig (p : Fin 64) (r : Fin 4) (s : State) : Res := s.sensing fun s =>
  match s.ready p r 0x60 with
  | none => .next s
  | some f => .next ((s.updPanel f.tchPanel fun x => { x with next := some f.block }).finishDesc p r f.order 0 [])

/-! Scans -/

/-- The entries of a charger-noise scan: the three used entries with the lowest last scores, in order of number; entry 0 repeats where fewer are
used (R392). -/
def Panel.noiseEntries (x : Panel) (b : List Byte) : List (Fin 8) :=
  let low := (sortBy (fun (a c : Fin 8) => decide (at' x.scores a ≤ at' x.scores c)) (tcUsed b)).take 3
  sortBy (fun (a c : Fin 8) => decide (a.val ≤ c.val)) (low ++ List.replicate (3 - low.length) 0)

/-- Effective integration and thresholds (R392). -/
def Panel.integ (x : Panel) (b : List Byte) : Nat := tcInt b * (if x.noise then byteAt b 33 else 1)
@[inherit_doc Panel.integ] def Panel.thr (x : Panel) (v : Nat) (b : List Byte) : Nat := if x.noise then v * byteAt b 32 / 4 else v

/-- CHARGER_NOISE: DATA byte 16 is 1 on entry and 2 on exit, bytes 18-19 the score (R392). -/
def State.chargerNoise (s : State) (n : Fin 4) (code : Nat) : State :=
  s.postPly (s.dev.panelOwner n) (s.dev.panelOwner n).val 0x0C02 n.val (dataBytes [(16, 1, code), (18, 2, (s.panel n).score)])

/-- Charger-noise mode changes at the start of a scan (R392). -/
def Panel.noiseTurn (x : Panel) (b : List Byte) : Bool :=
  if x.noise then tcFlag b 1 || (tcFlag b 2 && decide (x.low < 64)) else tcFlag b 1 || (tcFlag b 2 && decide (3 ≤ x.high))

/-- Middle one of three values; the value itself where there is one. -/
def median : List Nat → Nat
  | [a] => a
  | [a, b, c] => max (min a b) (min (max a b) c)
  | _ => 0

/-- Raw counts of a scan: a node's count, or the median of its three passes (R392). -/
def scanRaw (count : Nat) (ps : List TouchPass) : List Nat := (List.range count).map fun i => median (ps.map fun p => p.raw.getD i 0)

/-- Score of a pass: the largest magnitude in its listen window (R391). -/
def TouchPass.score (p : TouchPass) : Nat := p.listen.foldl (fun m v => max m v.natAbs) 0

/-- The scores after a scan, and the frequency hop of normal mode (R391, R392). -/
def Panel.scored (x : Panel) (b : List Byte) (sc : Scan) (ps : List TouchPass) : Panel :=
  let scores := (sc.entries.zip ps).foldl (fun v e => put v e.1 e.2.score) x.scores
  let score := ps.foldl (fun m p => max m p.score) 0
  let half := if !x.noise && decide (le16 b 28 < 2 * score) then x.half + 1 else 0
  let x := { x with scores := scores, score := score, high := if le16 b 28 < score then x.high + 1 else 0,
                    low := if x.noise && decide (score < le16 b 30) then x.low + 1 else 0 }
  if half < 4 then { x with half := half }
  else
    let best := (sortBy (fun (a c : Fin 8) => decide (at' scores a ≤ at' scores c)) (tcUsed b)).head?
    { x with half := 0, freq := best.getD x.freq }

/-! Baselines (R393-R396) -/

/-- Neighbours of a node of a D x S panel: drive-major indices. -/
def nodeNear (drv sns i : Nat) : List Nat :=
  if sns = 0 then []
  else
    ((List.range 3).flatMap fun a => (List.range 3).filterMap fun c =>
      let y := i / sns + a
      let x := i % sns + c
      if (a = 1 ∧ c = 1) ∨ y = 0 ∨ x = 0 ∨ drv < y ∨ sns < x then none else some ((y - 1) * sns + (x - 1)))

/-- A node without a touch at a baseline. -/
def Node.at (base : Int) : Node := { base := base, touched := false, suspect := false, above := 0, sum := 0 }

/-- A first scan's baselines against stored ones: a node whose reference exceeds its count by TOUCH_THR or more is suspect (R396). -/
def startNodes (thr : Nat) (raw : List Nat) (ref : Option (List Int)) : List Node :=
  match ref with
  | none => raw.map fun (r : Nat) => Node.at r
  | some l => (raw.zipIdx).map fun e =>
      let b := l.getD e.2 0
      if (thr : Int) ≤ b - e.1 then { Node.at b with touched := true, suspect := true } else Node.at e.1

/-- One scan of a node: touched state (R393) and the rule of R394. -/
def Node.scan (thr rel : Nat) (x : Node) (raw : Nat) : Node :=
  let delta := x.base - raw
  let touched := if x.touched then decide ((rel : Int) ≤ delta) else decide ((thr : Int) ≤ delta)
  let x := { x with touched := touched, suspect := x.suspect && touched, above := if (thr : Int) < -delta then x.above + 1 else 0, sum := x.sum + raw }
  if 3 ≤ x.above then { x with base := raw, touched := false, suspect := false, above := 0 } else x

/-- A mean rounded half away from zero. -/
def meanAway (sum : Int) (n : Nat) : Int :=
  if n = 0 then 0
  else let q : Int := (2 * sum.natAbs + n) / (2 * n)
    if sum < 0 then -q else q

/-- R393: the baseline update over the last `n` scans. -/
def driftNodes (near : Nat → List Nat) (n : Nat) (xs : List Node) : List Node :=
  let hot := fun i => match xs[i]? with | some (x : Node) => x.touched | none => false
  let frozen := fun i => hot i || (near i).any hot
  let step := fun (x : Node) =>
    let num : Int := x.sum - x.base * n
    let q := Int.tdiv num (16 * n)
    if q = 0 then (if num < 0 then -1 else if num = 0 then 0 else 1) else q
  let free := (xs.zipIdx).filter fun e => !frozen e.2
  let m := if free.isEmpty then 0 else meanAway ((free.map fun e => step e.1).sum) free.length
  (xs.zipIdx).map fun e => { e.1 with base := e.1.base + (if frozen e.2 then m else step e.1), sum := 0 }

/-! Contacts (R398) -/

/-- A peak of a scan with the quantities of its 3 x 3 window. -/
structure Peak where
  x        : Nat
  y        : Nat
  delta    : Nat
  size     : Nat
  suspect  : Bool
deriving DecidableEq, Repr

/-- Deltas of a scan: baseline minus raw count. -/
def deltas (xs : List Node) (raw : List Nat) : List Int := (xs.zip raw).map fun e => e.1.base - e.2

/-- A coordinate from window sums over electrode indices (R398). -/
def coord (sums : List (Nat × Nat)) (n mx : Nat) : Nat :=
  let total := (sums.map (·.2)).sum
  if total = 0 then 0 else min mx ((sums.map fun e => (2 * e.1 + 1) * e.2).sum * (mx + 1) / (2 * n * total))

/-- The peaks of a scan, strongest first, at most MAX_CONTACTS, with their positions (R398). -/
def findPeaks (b : List Byte) (drv sns : Nat) (xs : List Node) (ds : List Int) : List Peak :=
  let d := fun i => ds.getD i 0
  let peaks := (List.range (drv * sns)).filter fun i =>
    (match xs[i]? with | some x => x.touched | none => false) &&
      (nodeNear drv sns i).all fun j => decide (d j < d i) || (d j == d i && decide (i < j))
  let ranked := (sortBy (fun i j => decide (d j ≤ d i)) peaks).take (byteAt b 3)
  ranked.map fun i =>
    let win := i :: nodeNear drv sns i
    let pos := fun j => (max 0 (d j)).toNat
    let cols := win.map fun j => (j % sns, pos j)
    let rows := win.map fun j => (j / sns, pos j)
    let swap := tcFlag b 3
    let x := if swap then coord rows drv (le16 b 4) else coord cols sns (le16 b 4)
    let y := if swap then coord cols sns (le16 b 6) else coord rows drv (le16 b 6)
    { x := if tcFlag b 4 then le16 b 4 - x else x, y := if tcFlag b 5 then le16 b 6 - y else y, delta := pos i,
      size := (win.filter fun j => match xs[j]? with | some x => x.touched | none => false).length,
      suspect := match xs[i]? with | some x => x.suspect | none => false }

/-- Squared distance of a contact and a peak. -/
def sqDist (c : Contact) (p : Peak) : Nat :=
  let dx := max c.x p.x - min c.x p.x
  let dy := max c.y p.y - min c.y p.y
  dx * dx + dy * dy

/-- Partial assignments of peaks to old contacts: set of contacts used, cost, and each peak's contact; the cheapest one per set. -/
abbrev Assigns := List (Nat × Nat × List (Option Nat))

/-- An assignment kept if it is the first or the cheaper one of its set. -/
def Assigns.add (l : Assigns) (x : Nat × Nat × List (Option Nat)) : Assigns :=
  match l.find? (·.1 == x.1) with
  | none => l ++ [x]
  | some y => if x.2.1 < y.2.1 then l.map fun z => if z.1 = x.1 then x else z else l

/-- The contact that each peak continues, by least total squared distance (R398). -/
def assignIds (old : List Contact) (ps : List Peak) : List (Option Nat) :=
  let k := min old.length ps.length
  let all := ps.foldl (fun (acc : Assigns) p =>
    acc.foldl (fun out (m, c, l) =>
      let out := Assigns.add out (m, c, l ++ [none])
      (old.zipIdx).foldl (fun out e => if bit m e.2 then out else Assigns.add out (m + 2 ^ e.2, c + sqDist e.1 p, l ++ [some e.2])) out) [])
    [(0, 0, [])]
  let full := all.filter fun x => (x.2.2.filter (·.isSome)).length == k
  match full.foldl (fun (best : Option (Nat × List (Option Nat))) x => match best with
      | none => some x.2
      | some b => if x.2.1 < b.1 then some x.2 else best) none with
  | some (_, l) => l
  | none => ps.map fun _ => none

/-- Contacts of a scan: IDs kept or the lowest free one (R398). -/
def nextContacts (now : Nat) (old : List Contact) (ps : List Peak) : List Contact :=
  let ids := assignIds old ps
  let used := ids.filterMap fun o => o.bind fun k => (old[k]?).map (·.id)
  let fresh := (List.range 10).filter fun i => !used.contains i
  ((ps.zip ids).foldl (fun (acc : List Contact × List Nat) e =>
    let p := e.1
    let mk := fun (id : Nat) (told : Bool) (since persist : Nat) =>
      ({ id := id, x := p.x, y := p.y, strength := min 255 (p.delta / 64), size := p.size, suspect := p.suspect, told := told, since := since,
         persist := persist } : Contact)
    match e.2.bind fun k => old[k]? with
    | some c => (acc.1 ++ [mk c.id c.told c.since c.persist], acc.2)
    | none => match acc.2 with
      | id :: rest => (acc.1 ++ [mk id false now (now + 30000000000)], rest)
      | [] => acc) ([], fresh)).1

/-! Reports (R399, R400) -/

/-- A contact record without its byte 7: ID, state, SUSPECT, position, strength, size. -/
def Contact.record (c : Contact) (state : Nat) : List Byte :=
  [BitVec.ofNat 8 (c.id + state * 16 + bit1 c.suspect * 128)] ++ bytesOf 2 c.x ++ bytesOf 2 c.y ++ [BitVec.ofNat 8 c.strength, BitVec.ofNat 8 c.size]

/-- The record of a lifted contact: its position, strength and size are not given (log entry 73). -/
def upRecord (id n : Nat) : List Byte :=
  [BitVec.ofNat 8 (id + 48)] ++ bytesOf 2 (Config.freeWord n).toNat ++ bytesOf 2 (Config.freeWord (n + 1)).toNat ++
    [Config.freeByte n 0, Config.freeByte n 1]

/-- Records in pairs, each entry's DATA; an empty record has ID 0xF. -/
def reportEntries (rs : List (List Byte)) : List (List Byte) :=
  let n := (rs.length + 1) / 2
  (List.range n).map fun i =>
    let rec' := fun k => match rs[k]? with
      | some r => r ++ [BitVec.ofNat 8 (n * 16 + i)]
      | none => 0x0F :: List.replicate 7 0
    rec' (2 * i) ++ rec' (2 * i + 1)

/-- A panel reports and triggers while its owner is ACTIVE (R401). -/
def Dev.panelReports (d : Dev) (n : Fin 4) : Bool := (d.ply (d.panelOwner n)).state == .active

/-- A trigger waits for a channel's next control tick (R400, R414). -/
def Dev.hapArrive (d : Dev) (c : Fin 8) (t : Trigger) : Dev :=
  { d with haptics := { d.haptics with chans := upd d.haptics.chans c fun x => { x with arrivals := x.arrivals ++ [t] } } }

/-- The zone that a contact coming down triggers: the first enabled one that holds it (R400). -/
def touchZone (b : List Byte) (c : Contact) : Option Nat :=
  (List.range 4).find? fun z =>
    let (x0, y0, x1, y1) := tcZone b z
    tcZoneOn b z && decide (x0 ≤ c.x) && decide (c.x < x1) && decide (y0 ≤ c.y) && decide (c.y < y1)

/-- Each DOWN contact's zone issues its trigger, at gain 1.0 (R400; log entry 73). -/
def Dev.zoneTriggers (d : Dev) (b : List Byte) (cs : List Contact) : Dev :=
  cs.foldl (fun d c => match touchZone b c with
    | none => d
    | some z =>
      let o := 72 + 16 * z
      d.hapArrive ⟨byteAt b o % 8, by omega⟩
        { src := .zone, slot := ⟨byteAt b (o + 1) % 32, by omega⟩, prio := byteAt b (o + 2) % 16, gain := 0x4000 }) d

/-- A scan's contacts are reported: MOVE where told before, DOWN where not, UP where a told one is gone (R399, R401). -/
def State.report (s : State) (n : Fin 4) (b : List Byte) (start : Nat) (old new : List Contact) : State :=
  let gone := old.filter fun c => c.told && !(new.any fun e => e.id == c.id)
  let ids := (List.range 10).filter fun i => new.any (·.id == i) || gone.any (·.id == i)
  let recs := ids.map fun i => match new.find? (·.id == i) with
    | some c => c.record (if c.told then 2 else 1)
    | none => upRecord i (s.dev.fresh + 2 * i)
  let down := new.filter fun c => !c.told
  let s := s.onDev fun d => ({ d with fresh := d.fresh + 20 } : Dev).zoneTriggers b down
  let p := s.dev.panelOwner n
  s.each (reportEntries recs) fun s e => s.postPlyAt start p p.val 0x0C00 n.val e

/-- The stored baselines that a panel's first scan consults: of the same panel map (R396). -/
def Dev.startRef (d : Dev) (n : Fin 4) (ref : StartRef) : Option (List Int) :=
  let got := match ref with | .flash => at' d.touch.stored n | .kept => at' d.touch.kept n | .none => none
  got.bind fun r => if r.panel0.toNat = d.panelWord n 0 ∧ r.panel1.toNat = d.panelWord n 1 then some r.base else none

/-- A panel's scan is processed (R391-R401): scores, touched nodes, baselines, contacts, and the report with its zone triggers. -/
def State.scanDone (s : State) (n : Fin 4) (passes : List TouchPass) : State :=
  let x := s.panel n
  match x.scan, x.cfg with
  | some sc, some b =>
    let drv := s.dev.drives n
    let sns := s.dev.senses n
    let ps := (passes ++ List.replicate sc.entries.length ({ raw := [], listen := [] } : TouchPass)).take sc.entries.length
    let raw := scanRaw (drv * sns) ps
    let thr := x.thr (le16 b 24) b
    let rel := x.thr (le16 b 26) b
    let nodes := if sc.recap || x.nodes.length != drv * sns then startNodes thr raw (if x.first then s.dev.startRef n x.ref else none)
      else (x.nodes.zip raw).map fun e => e.1.scan thr rel e.2
    let nodes := if sc.recap then (nodes.zip raw).map fun e => { e.1 with sum := e.2 } else nodes
    let ds := deltas nodes raw
    let peaks := findPeaks b drv sns nodes ds
    let cs := nextContacts sc.start x.contacts peaks
    let count := if sc.recap then 1 else x.drift + 1
    let due := decide (byteAt b 34 ≤ count)
    let nodes := if due then driftNodes (nodeNear drv sns) count nodes else nodes
    let reports := s.dev.panelReports n
    let x := { x with scan := none, nodes := nodes, drift := if due then 0 else count, first := false, ref := .none,
                      contacts := cs.map fun (c : Contact) => { c with told := reports } }
    let old := (s.panel n).contacts
    let s := s.updPanel n fun _ => x.scored b sc ps
    if reports then s.report n b sc.start old cs else s
  | _, _ => s

/-- The class A panel's results are there and not yet processed: its passes have taken their time (R64, R390). -/
def Dev.classAScanned (d : Dev) (n : Fin 4) : Bool :=
  (allFin 4).any fun a => a != n && d.panelClassA a &&
    match (at' d.touch.panels a).scan, (at' d.touch.panels a).cfg with
    | some sc, some b =>
      let x := at' d.touch.panels a
      decide (sc.start + (sc.entries.map fun e => passTime (d.drives a) (x.integ b) (tcDiv b e.val)).sum * 1000 / 96 ≤ d.devtime)
    | _, _ => false

/-- Results that waited for the class A panel's are processed, in order of panel. -/
def State.heldScans (s : State) : State :=
  s.each (allFin 4) fun s n => match (s.panel n).scan.bind (·.done) with
    | some ps => if s.dev.classAScanned n then s else s.scanDone n ps
    | none => s

/-- TOUCH_SCAN_DONE (R64, R391-R401): the sequencer processes a panel's results. Those of a panel that is not class A wait while the class A panel's are
there. -/
def execTouchScanDone (n : Fin 4) (passes : List TouchPass) (s : State) : Res := s.sensing fun s =>
  if s.dev.classAScanned n then .next (s.updPanel n fun x => { x with scan := x.scan.map fun c => { c with done := some passes } })
  else .next (s.scanDone n passes).heldScans

/-- TOUCH_SCAN_START (R387, R390, R392): a new block takes effect, the mode is settled, and the scan's passes and period are chosen. -/
def execTouchScanStart (n : Fin 4) (s : State) : Res := s.sensing fun s =>
  let s := s.heldScans
  let x := s.panel n
  let testing := match s.dev.touch.running with | some (.selftest, m) => m == n | _ => false
  if !s.dev.panelValid n || x.scan.isSome || testing then .next s
  else match x.next.or x.cfg with
    | none => .next s
    | some b =>
      let fresh := x.next.isSome
      let on := tcFlag b 0
      let x := { x with cfg := some b, next := none, recap := x.recap || (fresh && tcFlag b 6), first := x.first || !x.scanning, scanning := on }
      let x := if fresh && tcDiv b x.freq.val = 0 then { x with freq := 0 } else x
      if !on then .next (s.updPanel n fun _ => x.idle)
      else
        let was := x.noise
        let now := x.noiseTurn b
        let x := { x with noise := now, low := if now == was then x.low else 0, high := if now == was then x.high else 0, half := if now then 0 else x.half }
        let entries := if now then x.noiseEntries b else [x.freq]
        let time := (entries.map fun e => passTime (s.dev.drives n) (x.integ b) (tcDiv b e.val)).sum
        let us := max (1000000 / byteAt b 1) (time / 96)
        let x := { x with scan := some { start := s.dev.devtime, entries := entries, recap := x.recap || x.first, done := none }, recap := false, periodUs := us, force := tcFlag b 1 }
        let s := s.updPanel n fun _ => x
        .next (if now == was then s else s.chargerNoise n (if now then 1 else 2))

/-- PERSISTENT_TOUCH (R397): a contact held for 30 s, and every 10 minutes after. -/
def execPersistentTouch (n : Fin 4) (id : Nat) (s : State) : Res := s.sensing fun s =>
  match (s.panel n).contacts.find? (·.id == id) with
  | none => .next s
  | some c =>
    if s.dev.devtime < c.persist then .next s
    else
      let s := s.updPanel n fun x =>
        { x with contacts := x.contacts.map fun e => if e.id = id then { e with persist := e.persist + 600000000000 } else e }
      let p := s.dev.panelOwner n
      .next (s.postPly p p.val 0x0C01 n.val (dataBytes [(16, 1, id), (20, 4, (s.dev.devtime - c.since) / 1000000000)]))

/-! Panel commands (R402, R403) -/

/-- A command of TCH_CMD by the manager: discarded while one runs; NO_PANEL where the panel does not exist. -/
def State.tchCmd (s : State) (q : Fin 4) (n : Fin 4) (code : Nat) (act : State → State) : Res :=
  if !s.dev.isManager q || s.dev.touch.running.isSome then .next s
  else
    let s := s.updTouch fun t => { t with lastCmd := code, result := 0 }
    .next (if !s.dev.panelValid n then s.updTouch fun t => { t with result := 3 } else act s)

/-- RECAL (R395): the next scan recaptures the panel's baselines. -/
def execRecal (q n : Fin 4) (s : State) : Res := s.sensing fun s =>
  s.tchCmd q n 1 fun s => s.updPanel n fun x => { x with recap := true }

/-- SELFTEST (R402): refused for a class A panel of an ACTIVE owner; else it runs, and the scan in progress is dropped. -/
def execSelftest (q n : Fin 4) (s : State) : Res := s.sensing fun s =>
  s.tchCmd q n 2 fun s =>
    if s.dev.panelClassA n && (s.dev.ply (s.dev.panelOwner n)).state == .active then s.updTouch fun t => { t with result := 1 }
    else (s.updTouch fun t => { t with running := some (.selftest, n) }).updPanel n Panel.dropScan

/-- REF_STORE (R402): refused while a contact is present. -/
def execRefStore (q n : Fin 4) (s : State) : Res := s.sensing fun s =>
  s.tchCmd q n 3 fun s =>
    if !(s.panel n).contacts.isEmpty then s.updTouch fun t => { t with result := 2 }
    else s.updTouch fun t => { t with running := some (.refStore, n) }

/-- The faults of a self-test in electrode order (R403). Node i is drive i / S, sense i % S. -/
def selfTestFaults (drvFirst drv snsFirst sns : Nat) (ref : Option (List Int)) (m : TchMeasure) : List TchFault :=
  let elecs := (List.range drv).map (drvFirst + ·) ++ (List.range sns).map (0x40 + snsFirst + ·)
  let low := fun i => match ref with
    | some l => decide (4 * ((m.nodes.getD i 0 : Nat) : Int) < l.getD i 0)
    | none => decide (m.nodes.getD i 0 < 1000)
  (elecs.zipIdx).flatMap fun (e, k) =>
    let mine := if k < drv then (List.range sns).map (k * sns + ·) else (List.range drv).map (· * sns + (k - drv))
    (if mine.all low then [({ kind := 1, elec := e, other := 0xFF } : TchFault)] else []) ++
    ((m.couplings.filter fun c => c.1 == e && decide (32768 < c.2.2)).map fun c => { kind := 2, elec := e, other := c.2.1 }) ++
    (if m.charged.getD k true then [] else [{ kind := 3, elec := e, other := 0xFF }]) ++
    (if m.released.getD k true then [] else [{ kind := 4, elec := e, other := 0xFF }])

/-- TCH_CMD_DONE (R402, R403): the running command completes, with what the front end measured; a REF_STORE whose flash write fails, or without
flash, ends with FLASH_ERR. -/
def execTchCmdDone (m : TchMeasure) (flashOk : Bool) (s : State) : Res := s.sensing fun s =>
  match s.dev.touch.running with
  | none => .next s
  | some (.refStore, n) =>
    let s := s.updTouch fun t => { t with running := none }
    if !flashOk || !s.dev.ccn.flash then .next (s.updTouch fun t => { t with result := 4 })
    else
      let r : TouchRef := { panel0 := word (s.dev.panelWord n 0), panel1 := word (s.dev.panelWord n 1), base := (s.panel n).nodes.map (·.base) }
      .next (s.updTouch fun t => { t with result := 0, stored := put t.stored n (some r) })
  | some (_, n) =>
    let fs := selfTestFaults (fld (s.dev.panelWord n 0) 21 16) (s.dev.drives n) (fld (s.dev.panelWord n 1) 22 16) (s.dev.senses n) (s.dev.startRef n .flash) m
    .next (s.updTouch fun t => { t with running := none, result := 0, nFaults := min 31 fs.length, faults := fs.take 16 })

/-! Wake gesture (R404, R405) -/

/-- Neighbours in a line of groups. -/
def lineNear (i : Nat) : List Nat := if i = 0 then [1] else [i - 1, i + 1]

/-- One wake scan of an axis: captured first, then R393 and R394 with DRIFT_SCANS 16; answers the nodes and the strongest touched group in
[lo, hi). -/
def wakeAxis (thr : Nat) (due : Bool) (xs : List Node) (raw : List Nat) (lo hi : Nat) : List Node × Option Nat :=
  if xs = [] then (raw.map fun (r : Nat) => { Node.at r with sum := r }, none)
  else
    let xs := (xs.zip raw).map fun e => e.1.scan thr thr e.2
    let ds := deltas xs raw
    let hot := (xs.zipIdx).filter fun e => e.1.touched && decide (lo ≤ e.2) && decide (e.2 < hi)
    let best := (sortBy (fun (a c : Node × Nat) => decide (ds.getD c.2 0 ≤ ds.getD a.2 0)) hot).head?
    (if due then driftNodes lineNear 16 xs else xs, best.map (·.2))

/-- Length of the run of touches (or of their absence) at the head of a trail. -/
def runLen (touch : Bool) (l : List (Option (Nat × Nat))) : Nat := (l.takeWhile fun o => o.isSome == touch).length

/-- A double tap that has just ended: two touches of 1-6 scans with a gap of 1-8 (R404). Answers the first touch's position. -/
def doubleTap (l : List (Option (Nat × Nat))) : Option (Nat × Nat) :=
  match l with
  | none :: t =>
    let a := runLen true t
    let t1 := t.drop a
    let g := runLen false t1
    let t2 := t1.drop g
    let c := runLen true t2
    if 1 ≤ a ∧ a ≤ 6 ∧ 1 ≤ g ∧ g ≤ 8 ∧ 1 ≤ c ∧ c ≤ 6 then (t2.getD (c - 1) none) else none
  | _ => none

/-- Whether a list of numbers only rises or only falls (R404). -/
def oneWay (l : List Nat) : Bool := (l.zip (l.drop 1)).all (fun e => decide (e.1 ≤ e.2)) || (l.zip (l.drop 1)).all fun e => decide (e.2 ≤ e.1)

/-- A swipe: within 12 scans the touch of the last scan has moved one way across `n` groups (R404). Answers the touch's first position. -/
def swipe (n : Nat) (l : List (Option (Nat × Nat))) : Option (Nat × Nat) :=
  let run := (l.takeWhile (·.isSome)).filterMap id
  let span := fun (f : Nat × Nat → Nat) => (List.range (min 12 run.length)).any fun k =>
    let part := (run.take (k + 1)).map f
    let a := part.getD 0 0
    let c := part.getD k 0
    oneWay part && decide (n ≤ max a c - min a c + 1)
  if span (·.1) || span (·.2) then run.getLast? else none

/-- WAKE_SCAN (R404, R405, R425): in WATCH, with SLPCLK, a wake scan of the groups' self-capacitance counts; a recognised gesture asserts WAKE_N. -/
def execWakeScan (xs ys : List Nat) (s : State) : Res :=
  let d := s.dev
  let c := d.reg 0x19048
  let z := d.reg 0x1904C
  if d.power.state != .watch || !d.slpclk || !d.power.vaonOk || !bit c 31 || fld c 27 26 == 0 || d.touch.blocked then .next s
  else
    let t := d.touch
    let due := decide (16 ≤ t.wakeN + 1)
    let n : Fin 4 := ⟨fld c 29 28 % 4, by omega⟩
    let groups := fun (k : Nat) => ceilDiv k (fld c 23 20)
    let (wx, px) := wakeAxis (fld c 15 0) due t.wakeX (xs.take (groups (d.senses n))) (fld z 7 0) (fld z 15 8)
    let (wy, py) := wakeAxis (fld c 15 0) due t.wakeY (ys.take (groups (d.drives n))) (fld z 23 16) (fld z 31 24)
    let pos := match px, py with | some a, some b => some (a, b) | _, _ => none
    let trail := (pos :: t.trail).take 24
    let tap := if bit c 26 then doubleTap trail else none
    let sw := if bit c 27 then swipe (fld c 19 16) trail else none
    let t := { t with wakeX := wx, wakeY := wy, wakeN := if due then 0 else t.wakeN + 1, trail := trail }
    let hit := match tap, sw with | some p, _ => some (1, p) | none, some p => some (2, p) | none, none => none
    match hit with
    | none => .next (s.onDev fun d => { d with touch := t })
    | some (kind, p) =>
      .next (s.onDev fun d => { d with touch := { t with woke := true, wakeKind := kind, wakeAt := p, trail := [] },
                                       power := { d.power with wakeN := true } })

end Sys2Proof.Machine
end

