-- ==== Sys2Proof/Machine/Haptics.lean ====
section
/-! DEFINITION. Machine/Haptics.lean: piezo haptics (R408-R421): effects, triggers and priorities, the energy reservoir, the control loop, trips. -/
namespace Sys2Proof.Machine

/-! Registers and records -/

/-- Register of a channel (R421). -/
def Dev.hapReg (d : Dev) (c : Fin 8) (off : Nat) : Nat := d.reg (0x1A000 + 0x20 * c.val + off)

/-- The state with one channel changed. -/
def State.updHap (s : State) (c : Fin 8) (f : HapChan → HapChan) : State := s.onDev (·.updHap c f)
@[inherit_doc Dev.hap] def State.hap (s : State) (c : Fin 8) : HapChan := s.dev.hap c

/-- An effect record of `len` bytes, if it passes the checks of R410. -/
def hapRecord (bs : List Byte) (len : Nat) : Option Effect :=
  let n := le16 bs 0
  let e := le16 bs 2
  let brake := byteAt bs 4
  if len = 16 + 2 * n ∧ 1 ≤ n ∧ n ≤ 1200 ∧ 1 ≤ e ∧ e ≤ 400 ∧ brake ≤ 15 ∧ zeroBytes bs 5 11 ∧ n + 12 * brake ≤ 1200 then
    some { energy := e, brakeMs := brake, samples := (List.range n).map fun i => signed 16 (le16 bs (16 + 2 * i)) }
  else none

/-- Bytes that a record takes in the pool. -/
def Effect.size (e : Effect) : Nat := 16 + 2 * e.samples.length

/-- Credits of an effect at a gain (R411). -/
def Effect.cost (e : Effect) (g : Nat) : Nat := ceilDiv (e.energy * g * g) (2 ^ 28)

/-- The target at a control sample (R411). -/
def Effect.target (e : Effect) (g n : Nat) : Int :=
  let a := e.samples.getD (n / 8) 0
  let b := e.samples.getD (n / 8 + 1) 0
  (a + Int.tdiv ((b - a) * ((n % 8 : Nat) : Int)) 8) * (g : Int) / 2 ^ 14

/-- Payload of HAP_PLAY and HAP_LOAD (R89). -/
def InFlight.hapChan (f : InFlight) : Fin 8 := ⟨byteAt f.bytes 32 % 8, by omega⟩
@[inherit_doc InFlight.hapChan] def InFlight.hapSlot (f : InFlight) : Fin 32 := ⟨byteAt f.bytes 33 % 32, by omega⟩

/-- A slot whose effect plays or waits (R410). -/
def HapChan.inUse (x : HapChan) (slot : Fin 32) : Bool :=
  (match x.run with | some r => r.trig.slot == slot | none => false) || (match x.wait with | some w => w.trig.slot == slot | none => false)

/-- The pool's size with one slot replaced, loads that wait included (R410). -/
def HapChan.sizeWith (x : HapChan) (slot : Fin 32) (e : Effect) : Nat :=
  ((allFin 32).map fun k =>
    if k = slot then e.size
    else match x.loads.reverse.find? (·.1 == k) with
      | some l => l.2.1.size
      | none => match at' x.pool k with | some y => y.size | none => 0).sum

/-- Loads whose slot is no longer in use take effect and complete (R410). -/
def State.settleLoads (s : State) (c : Fin 8) : State :=
  let x := s.hap c
  let go := x.loads.filter fun l => !x.inUse l.1
  let s := s.updHap c fun x =>
    { x with loads := x.loads.filter fun l => x.inUse l.1, pool := go.foldl (fun v l => put v l.1 (some l.2.1)) x.pool }
  s.each go fun s l => s.finishDesc l.2.2.1 l.2.2.2.1 l.2.2.2.2 0 []

/-- HAP_LOAD (R410): the record that the Weevil read goes into its slot, at once or when the slot's effect ends. -/
def execHapLoad (p : Fin 64) (r : Fin 4) (s : State) : Res := s.sensing fun s =>
  match s.ready p r 0x51 with
  | none => .next s
  | some f =>
    let c := f.hapChan
    match hapRecord f.block (le32 f.bytes 48) with
    | none => .next (s.finishDesc p r f.order 0x02 [])
    | some e =>
      if 16384 < (s.hap c).sizeWith f.hapSlot e then .next (s.finishDesc p r f.order 0x02 [])
      else .next (((s.dispatch p r f.order 0).updHap c fun x => { x with loads := x.loads ++ [(f.hapSlot, e, p, r, f.order)] }).settleLoads c)

/-! Ends, refusals and starts -/

/-- An event of a channel: to the ply granted the channel and to the manager's port (R100). -/
def State.hapEvent (s : State) (c : Fin 8) (code : Nat) (data : List Byte) : State :=
  match s.dev.hapOwner c with
  | some p => s.postBoth p code c.val data
  | none => s.postManager 0x40 code c.val data

/-- HAP_LIMIT's DATA: kind and slot (R419). -/
def hapLimitData (kind slot : Nat) : List Byte := dataBytes [(16, 1, kind), (17, 1, slot)]

/-- A trigger that does not start: its HAP_PLAY completes with the status; a pin or zone raises the event (R414, R415, R419). -/
def State.hapRefuse (s : State) (c : Fin 8) (t : Trigger) (status code : Nat) (data : List Byte) : State :=
  match t.src with
  | .desc p r o => s.finishDesc p r o status (bytesOf 4 0)
  | _ => s.hapEvent c code data

/-- The common refusal, HAP_REFUSED. -/
def State.hapRefused (s : State) (c : Fin 8) (t : Trigger) : State := s.hapRefuse c t 0x0C 0x0D02 []

/-- Energy of an effect in 0.01 mJ, saturating in 13 bits (R418, R421). -/
def Dev.hapEnergy (d : Dev) (c : Fin 8) (acc : Int) : Nat :=
  let w := d.hapReg c 4
  min 8191 ((max 0 acc).toNat * fld w 31 16 * fld w 15 0 / 960000000)

/-- The running effect ends with a cause (R411): its HAP_PLAY completes with the credits drawn; DISCARDED where a drain ended it (R420). -/
def State.hapEnd (s : State) (c : Fin 8) (cause : Nat) : State :=
  match (s.hap c).run with
  | none => s
  | some r =>
    let s := s.updHap c fun x => { x with run := none, energy := s.dev.hapEnergy c r.energy }
    let s := match r.trig.src with
      | .desc p g o =>
        if r.stop then s.finishDesc p g o stDiscarded []
        else s.finishDesc p g o (if cause = 3 then 0x0D else 0) (bytesOf 4 r.drawn ++ bytesOf 1 cause)
      | _ => s
    s.settleLoads c

/-- Places of the starts that wait, over all channels. -/
def Dev.hapPlaces (d : Dev) : List Nat := (allFin 8).filterMap fun c => (d.hap c).wait.map (·.place)

/-- A start that may begin: it takes its credits, ends what runs, and raises HAPn_EN (R409, R415, R416). -/
def State.hapBegin (s : State) (c : Fin 8) (t : Trigger) (e : Effect) : Option State :=
  (s.skein.takeHap c (e.cost t.gain)).map fun k =>
    let s := { s with skein := k }
    let cause := match (s.hap c).run with | some r => if r.braking then 2 else 1 | none => 0
    let s := s.updHap c fun x => { x with wait := none }
    let s := s.hapEnd c cause
    s.updHap c fun x =>
      { x with run := some { trig := t, effect := e, drawn := e.cost t.gain, braking := false, k := 0, total := 0, energy := 0, stop := false },
               en := true, holding := none, slot := t.slot.val, prio := t.prio }

/-- The start is served if it is first in order and the reservoir covers it; otherwise it waits (R417). -/
def State.hapServe (s : State) (c : Fin 8) (w : HapWait) : State :=
  let wait := s.updHap c fun x => { x with wait := some w }
  if s.dev.hapPlaces.any fun k => decide (k < w.place) then wait
  else match s.hapBegin c w.trig w.effect with
    | some s => s
    | none => wait

/-- Whether a channel accepts triggers: HAP_CTL.EN is 1 and VLIM is not 0 (R421). -/
def Dev.hapEnabled (d : Dev) (c : Fin 8) : Bool := bit (d.hapReg c 0) 31 && fld (d.hapReg c 8) 31 24 != 0

/-- A trigger that has won its tick (R415). -/
def State.hapTrigger (s : State) (c : Fin 8) (t : Trigger) : State :=
  let x := s.hap c
  if !x.trips.isEmpty then s.hapRefuse c t 0x0D 0x0D00 (hapLimitData x.lastTrip t.slot.val)
  else if !s.dev.hapEnabled c then s.hapRefused c t
  else match at' x.pool t.slot with
    | none => match t.src with
      | .desc p r o => s.finishDesc p r o 0x02 []
      | _ => s.hapRefused c t
    | some e =>
      match x.wait with
      | some w =>
        if t.prio < w.trig.prio then s.hapRefused c t
        else ((s.updHap c fun x => { x with wait := none }).hapRefused c w.trig).hapServe c
          { trig := t, effect := e, since := s.dev.devtime, place := w.place }
      | none =>
        let lower := match x.run with | some r => !r.braking && decide (t.prio < r.trig.prio) | none => false
        if lower then s.hapRefused c t
        else
          let w : HapWait := { trig := t, effect := e, since := s.dev.devtime, place := s.dev.haptics.place }
          (s.onDev fun d => { d with haptics := { d.haptics with place := d.haptics.place + 1 } }).hapServe c w

/-- Rank of a source in a tie (R415): the pin, then the zone, then the descriptor. -/
def HapSrc.rank : HapSrc → Nat
  | .pin => 0 | .zone => 1 | .desc _ _ _ => 2

/-- HAP_EFFECT_START (R415-R417): the triggers of a control tick reach a channel, of which the highest priority wins; without one, a waiting start
whose turn it is begins. -/
def execHapEffectStart (c : Fin 8) (s : State) : Res := s.sensing fun s =>
  let x := s.hap c
  let before := fun (a b : Trigger) => decide (b.prio < a.prio) || (a.prio == b.prio && decide (a.src.rank ≤ b.src.rank))
  match sortBy before x.arrivals with
  | t :: rest =>
    let s := s.updHap c fun x => { x with arrivals := [] }
    .next ((s.each rest fun s t => s.hapRefused c t).hapTrigger c t)
  | [] => match x.wait with
    | some w => .next (s.hapServe c w)
    | none => .next s

/-- HAP_ENERGY_TIMEOUT (R417): a start that has waited 2 ms is dropped. -/
def execHapEnergyTimeout (c : Fin 8) (s : State) : Res := s.sensing fun s =>
  match (s.hap c).wait with
  | none => .next s
  | some w =>
    if s.dev.devtime < w.since + 2000000 then .next s
    else
      let s := s.updHap c fun x => { x with wait := none }
      let s := match w.trig.src with
        | .desc p r o => s.finishDesc p r o 0x0B (bytesOf 4 0)
        | _ => s
      .next ((s.hapEvent c 0x0D01 []).settleLoads c)

/-- HAP_PLAY (R411, R414): the descriptor's trigger enters the channel at its next control tick. -/
def execHapPlay (p : Fin 64) (r : Fin 4) (s : State) : Res := s.sensing fun s =>
  match s.ready p r 0x50 with
  | none => .next s
  | some f =>
    let t : Trigger := { src := .desc p r f.order, slot := f.hapSlot, prio := byteAt f.bytes 34 % 16, gain := le16 f.bytes 36 }
    .next ((s.dispatch p r f.order 0).onDev fun d => d.hapArrive f.hapChan t)

/-- HTRIG_EDGE (R414): an edge of a bound pin triggers its effect; one that finds its slot empty raises HAP_REFUSED. -/
def execHtrigEdge (pin : Fin 8) (rising : Bool) (s : State) : Res := s.sensing fun s =>
  let w := s.dev.reg (0x1A100 + 4 * pin.val)
  let c : Fin 8 := ⟨fld w 29 27, by simp [fld]; omega⟩
  let slot : Fin 32 := ⟨fld w 26 22, by simp [fld]; omega⟩
  if !bit w 31 || bit w 30 == rising then .next s
  else
    let t : Trigger := { src := .pin, slot := slot, prio := fld w 21 18, gain := fld w 15 0 }
    if (at' (s.hap c).pool slot).isNone then .next (s.hapRefused c t) else .next (s.onDev fun d => d.hapArrive c t)

/-! Phases (R409, R411) -/

/-- HAP_DRIVE_END (R411): the drive samples are out, braking starts. -/
def execHapDriveEnd (c : Fin 8) (s : State) : Res := s.sensing fun s =>
  match (s.hap c).run with
  | none => .next s
  | some r =>
    if r.braking || decide (r.k < 8 * r.effect.samples.length) then .next s
    else .next (s.updHap c fun x => { x with run := some { r with braking := true, k := 0 } })

/-- HAP_BRAKE_END (R409, R411, R420): braking has run its time: the effect completes and EN_HOLD starts. -/
def execHapBrakeEnd (c : Fin 8) (s : State) : Res := s.sensing fun s =>
  match (s.hap c).run with
  | none => .next s
  | some r =>
    if !r.braking || decide (r.k < 96 * r.effect.brakeMs) then .next s
    else .next ((s.hapEnd c 0).updHap c fun x => { x with holding := some 0 })

/-- HAP_EN_HOLD_EXPIRY (R409): HAPn_EN falls after EN_HOLD. -/
def execHapEnHoldExpiry (c : Fin 8) (s : State) : Res := s.sensing fun s =>
  match (s.hap c).holding with
  | none => .next s
  | some n =>
    if n < 96 * fld (s.dev.hapReg c 0) 7 4 then .next s
    else .next (s.updHap c fun x => { x with holding := none, en := false })

/-! Trips (R419) -/

/-- A channel trips: HAPn_EN falls, drive and loop are cleared, the effect ends with cause 0x3, a waiting start is refused, HAP_LIMIT is raised. -/
def State.hapTrip (s : State) (c : Fin 8) (kind : Nat) : State :=
  let wait := (s.hap c).wait
  let s := s.updHap c fun x => { x with wait := none }
  let s := s.hapEnd c 3
  let s := s.updHap c fun x =>
    { x with en := false, holding := none, i := 0, u := 0, due := none, lastTrip := kind,
             trips := (kind, s.dev.devtime) :: x.trips.filter fun e => e.1 != kind }
  let s := match wait with
    | some w => match w.trig.src with
      | .desc p r o => s.finishDesc p r o 0x0D (bytesOf 4 0)
      | _ => s
    | none => s
  (s.settleLoads c).hapEvent c 0x0D00 (hapLimitData kind (s.hap c).slot)

/-- HAP_TRIP (R419): a condition that the samples have shown trips the channel. -/
def execHapTrip (c : Fin 8) (s : State) : Res := s.sensing fun s =>
  match (s.hap c).due with
  | none => .next s
  | some kind => .next (s.hapTrip c kind)

/-- HAPn_EN-high control ticks in the window of 1,000 bins (R419). -/
def HapChan.highTicks (x : HapChan) : Nat := x.bins.sum

/-- Whether a trip may re-arm by itself now (R419). -/
def Dev.mayRearm (d : Dev) (c : Fin 8) (e : Nat × Nat) : Bool :=
  let late := decide (e.2 + 100000000 ≤ d.devtime)
  match e.1 with
  | 2 | 4 => late
  | 3 => late && decide ((d.hap c).highTicks < 960 * fld (d.hapReg c 8) 15 8)
  | 5 => !d.power.vaonWarn && decide (d.haptics.warnEnd + 1000000 ≤ d.devtime)
  | _ => false

/-- HAP_REARM (R419): the trips whose delay has passed are re-armed. -/
def execHapRearm (c : Fin 8) (s : State) : Res := s.sensing fun s =>
  .next (s.updHap c fun x => { x with trips := x.trips.filter fun e => !s.dev.mayRearm c e })

/-- HAP_CLEAR (R419): the manager re-arms a VOLTAGE trip. -/
def execHapClear (q : Fin 4) (c : Fin 8) (s : State) : Res := s.sensing fun s =>
  if !s.dev.isManager q then .next s else .next (s.updHap c fun x => { x with trips := x.trips.filter fun e => e.1 != 1 })

/-- HAP_EN_ONESHOT_EXPIRY (R426): the control ticks have stopped; HAPn_EN falls and the drive pair goes to 0. -/
def execHapEnOneshotExpiry (c : Fin 8) (s : State) : Res := .next (s.updHap c fun x => { x with en := false, u := 0 })

/-! The control tick (R408, R412, R413, R418, R419) -/

/-- The loop's settings: ACC_PRESENT, KP, KI, FF, SLEW. -/
structure HapLoop where
  acc  : Bool
  kp   : Int
  ki   : Int
  ff   : Int
  slew : Int
deriving DecidableEq, Repr

/-- A channel's settings in force (R421). -/
def Dev.hapLoop (d : Dev) (c : Fin 8) : HapLoop :=
  let l0 := d.active (0x1A000 + 0x20 * c.val + 0x0C)
  let l1 := d.active (0x1A000 + 0x20 * c.val + 0x10)
  { acc := bit (d.hapReg c 0) 30, kp := signed 16 (fld l0 31 16), ki := signed 16 (fld l0 15 0), ff := signed 16 (fld l1 31 16), slew := fld l1 15 0 }

/-- One control sample with a target (R412, R413): integrator and drive code. -/
def HapLoop.step (l : HapLoop) (i u r a : Int) : Int × Int :=
  let e := r - a
  let i' := if l.acc then clampInt (-(2 ^ 24)) (2 ^ 24 - 1) (i + e) else i
  let v := if l.acc then (l.ff * r + l.kp * e + l.ki * i' / 2 ^ 8) / 2 ^ 12 else l.ff * r / 2 ^ 12
  (i', clampInt (-32768) 32767 (clampInt (u - l.slew) (u + l.slew) v))

/-- The code steps towards 0 at SLEW once no effect runs (R412). -/
def HapLoop.decay (l : HapLoop) (i u : Int) : Int × Int :=
  let u' := clampInt (u - l.slew) (u + l.slew) 0
  (if u' = 0 then 0 else i, u')

/-- Whether a channel is idle: PHASE 0 (R421). -/
def HapChan.idle (x : HapChan) : Bool := x.run.isNone && x.wait.isNone && x.holding.isNone

/-- One control tick of a channel: loop, drive sample, measured energy, on-time, duty bins, conditions that trip. -/
def HapChan.tick (x : HapChan) (l : HapLoop) (sense lim : Nat) (io : HapSample) : HapChan :=
  let run := x.run.map fun (r : HapRun) => if r.stop && !r.braking then { r with braking := true, k := 0 } else r
  let vs := io.vs.toInt
  let prod := vs * io.is'.toInt
  let (i, u, run) := match run with
    | some r =>
      let target := if r.braking then 0 else r.effect.target r.trig.gain r.k
      let (i, u) := l.step x.i x.u target io.acc.toInt
      (i, u, some { r with k := r.k + 1, total := r.total + 1, energy := r.energy + prod })
    | none => let (i, u) := l.decay x.i x.u; (i, u, none)
  let new := x.binTick = 96
  let high := bit1 x.en
  let bins := if new then (high :: x.bins).take 1000 else match x.bins with
    | b :: t => (b + high) :: t
    | [] => [high]
  let vlim := fld lim 31 24
  let mw : Int := (fld sense 31 16 : Nat) * (fld sense 15 0 : Nat)
  let due :=
    if vlim ≠ 0 ∧ vlim * 1000 < vs.natAbs * fld sense 31 16 then some 1
    else match run with
      | some r =>
        if 96 * fld lim 23 16 < r.total then some 2
        else if 960 * fld lim 15 8 < bins.sum then some 3
        else if (12000000000 * r.drawn : Nat) < r.energy * mw then some 4 else none
      | none => if 960 * fld lim 15 8 < bins.sum && x.trips.isEmpty then some 3 else none
  { x with i := i, u := u, run := run, holding := x.holding.map (· + 1), bins := bins, binTick := if new then 1 else x.binTick + 1,
           due := if x.due.isSome then x.due else due }

/-- HAP_CONTROL_TICK (R412): every channel samples its pins, runs its loop and emits one drive code; 0 while HAPn_EN is low. -/
def execHapControlTick (io : Vector HapSample 8) (s : State) : Res := s.sensing fun s =>
  let s := s.each (allFin 8) fun s c => match (s.hap c).due with
    | some kind => s.hapTrip c kind
    | none => s
  let s := s.onDev fun d => d.swapRegs fun r i => r.kind == .idle && (match fin? 8 i with | some c => (d.hap c).idle | none => false)
  let s := s.each (allFin 8) fun s c =>
    s.onDev fun d => d.updHap c fun x => x.tick (d.hapLoop c) (d.hapReg c 4) (d.hapReg c 8) (at' io c)
  .next (s.emit (.haptic ((allFin 8).map fun c => let x := s.hap c; if x.en then x.u else 0)))

end Sys2Proof.Machine
end

