-- ==== Sys2Proof/Machine/Selftest.lean ====
section
/-! DEFINITION. Machine/Selftest.lean: Moult, the start-up test, the running self-test, operating seconds (R448-R453, R459), LEDGER_BREACH
(R51). -/
namespace Sys2Proof.Machine

/-- SELFTEST_FAIL on the manager's port (R101, R449, R451, R452). -/
def State.selftestFail (s : State) (unit kind : Nat) : State := s.postManager 0x40 0x0F01 unit (dataBytes [(16, 1, kind)])

/-- R51: LEDGER_BREACH to the manager and every class A ply, with a critical record. The ledger has noted the breach. -/
def State.ledgerBreach (s : State) (acct : Nat) (delta : Int) : State :=
  let (kind, pool) := acctKind acct
  let data := dataBytes [(16, 1, kind), (17, 1, pool), (18, 1, bit1 (bit s.skein.breachInfo.toNat 25)), (20, 4, unsigned 32 delta)]
  let s := s.postManager 0x40 0x0200 kind data
  let s := s.each (allPlies.filter s.dev.isClassA) fun s p => s.postPly p 0x40 0x0200 kind data
  s.cocoon 0x0200 sevCritical 0x40 (data.take 10)

/-! Moult and the start-up test (R448-R450) -/

/-- Unit codes of R448. -/
def moultUnits : List Nat := [0x01, 0x02, 0x03, 0x04, 0x08, 0x09, 0x0A, 0x0B, 0x0C]

/-- Units that VDDG feeds. -/
def gfxUnits : List Nat := [0x01, 0x02, 0x08]

/-- A failure bitmap cut to the units given. -/
def failMask (units : List Nat) (fails : Nat) : Nat := (units.map fun c => if bit fails c then 2 ^ c else 0).sum

/-- A Moult or start-up result in always-on retention, with its record (R449, R450). `todo` are units not run. -/
def State.moultResult (s : State) (fails : Nat) (startup : Bool) (todo : List Nat) : State :=
  let mask := failMask (moultUnits.filter fun c => !todo.contains c) fails
  let all := mask + (todo.map (2 ^ ·)).sum
  let s := s.onDev fun d => { d with bist := { d.bist with valid := true, fresh := false, pass := all == 0, startup := startup, pwrcyc := d.ccn.pwrcyc,
                                                           fail := all, opsec := d.ccn.opsec, deferred := todo,
                                                           untested := if todo = [] then [] else (List.range 9).map (8 + ·) } }
  s.cocoon 0x1006 (if mask = 0 then sevInfo else sevError) 0x40 (bytesOf 4 all)

/-- The newest MOULT_RESULT record of the flash log: its DATA bitmap, OPSEC and PWRCYC (R450, R454, R458). -/
def Ccn.newestMoult (c : Ccn) : Option (Nat × Nat × Nat) :=
  let rank := fun (e : Nat × List Byte) => (e.1 + 262144 - c.next) % 262144
  let own := c.log.filter fun e => le16 e.2 0 == 0x1006
  (own.foldl (fun (best : Option (Nat × List Byte)) e => match best with
    | none => some e
    | some b => if rank b < rank e then some e else some b) none).map fun e => (le32 e.2 16, leAt e.2 4 5, leAt e.2 9 3)

/-- Whether a result makes the start's test unnecessary (R450). -/
def Dev.moultFresh (d : Dev) (fail opsec pwrcyc : Nat) : Bool :=
  fail == 0 && opsec == d.ccn.opsec && (pwrcyc == d.ccn.pwrcyc || pwrcyc + 1 == d.ccn.pwrcyc)

/-- A unit's failure waits to be reported at the start of the firmware. -/
def State.toReport (s : State) (us : List Nat) : State := s.onDev fun d => { d with bist := { d.bist with report := d.bist.report ++ us } }

/-- The start's test (R449, R450): fresh results are used; otherwise the units run, those of VDDG later where it is off. An older failure is
reported, a failed start-up test with its lowest unit. -/
def State.startTest (s : State) (fails : Nat) : State :=
  let b := s.dev.bist
  let held := if b.valid then some (b.fail, b.opsec, b.pwrcyc) else s.dev.ccn.newestMoult
  let old := match held with | some (f, _, _) => f | none => 0
  let s := s.toReport ((moultUnits.find? (bit old)).toList)
  let todo := if s.dev.power.vddg then [] else gfxUnits
  let run := fun (s : State) => (s.moultResult fails true todo).toReport ((moultUnits.find? fun c => !todo.contains c && bit fails c).toList)
  match held with
  | some (f, o, p) =>
    if s.dev.moultFresh f o p then
      s.onDev fun d => { d with bist := { d.bist with valid := true, fresh := true, pass := true, pwrcyc := p, fail := 0, opsec := o, deferred := [], untested := [] } }
    else run s
  | none => run s

/-- The failures found at the start are reported (R449). -/
def State.reportTest (s : State) : State :=
  let us := s.dev.bist.report
  s.each us (fun s u => s.selftestFail u 1) |>.onDev fun d => { d with bist := { d.bist with report := [] } }

/-- Deferred units run on the islands given once those are first powered (R450): the result takes in what they show. -/
def State.runDeferred (s : State) (islands : List Nat) (fails : Nat) : State :=
  let b := s.dev.bist
  let now := b.untested.filter islands.contains
  if now = [] then s
  else
    let kept := failMask (moultUnits.filter fun c => !b.deferred.contains c) b.fail
    let all := Nat.lor kept (failMask gfxUnits fails)
    let s := s.onDev fun d => { d with bist := { d.bist with fail := all, pass := all == 0, deferred := [], opsec := d.ccn.opsec,
                                                             untested := d.bist.untested.filter fun i => !islands.contains i } }
    let s := s.cocoon 0x1006 (if all = 0 then sevInfo else sevError) 0x40 (bytesOf 4 all)
    match gfxUnits.find? (bit fails) with
    | some c => s.selftestFail c 1
    | none => s

/-! The running self-test (R451-R453) -/

/-- Slices per pass of a unit (R451). -/
def slicesPerPass (u : Nat) : Nat :=
  if u = 0x20 then 64 else if u ≤ 0x28 then 16 else if u ≤ 0x30 then 8 else if u = 0x31 then 12 else if u ≤ 0x39 then 32 else 4

/-- Unit codes of R451. -/
def runUnits : List Nat := (List.range 27).map (0x20 + ·)

/-- The head of a blend-path or signature unit. -/
def unitHead (u : Nat) : Option (Fin 8) := if 0x21 ≤ u ∧ u ≤ 0x30 then some ⟨(u - 0x21) % 8, by omega⟩ else none

/-- A unit that is skipped and counts as passed: its island is unpowered, or its head OFF or not exposed (R451). -/
def Dev.unitSkipped (d : Dev) (u : Nat) : Bool :=
  match unitHead u with
  | some h => !d.headExposed h || (d.head h).gen == .off || !d.islandOn (18 + h.val / 2) || !d.islandOn 17
  | none => if u = 0x20 then !d.islandOn 1 else if u = 0x31 then !d.islandOn 2 else if 0x32 ≤ u ∧ u ≤ 0x39 then !d.islandOn 3 else false

/-- Slices that a unit has done in the pass. -/
def Dev.unitDone (d : Dev) (u : Nat) : Nat := Map.get d.bist.slices 0 u

/-- Whether a unit has completed its pass. -/
def Dev.unitPassed (d : Dev) (u : Nat) : Bool := d.unitSkipped u || decide (slicesPerPass u ≤ d.unitDone u)

/-- A pass ends once every unit has completed it (R451, R461). -/
def Dev.endPass (d : Dev) : Dev :=
  if runUnits.all d.unitPassed then { d with bist := { d.bist with passes := min 0xFFFF (d.bist.passes + 1), slices := [] } } else d

/-- SELFTEST_FAIL of a failed slice and the unit's action (R452). A Skein checker that fails without an inequality reports free values in
LEDGER_BREACH (log entry 75). -/
def State.sliceFails (s : State) (u : Nat) (breach : Option (Nat × Int)) : State :=
  let s := s.onDev fun d => { d with bist := { d.bist with runFail := true, firstFail := if d.bist.firstFail = 0 then u else d.bist.firstFail } }
  let s := (s.selftestFail u 1).cocoon 0x0F01 sevCritical 0x40 (bytesOf 1 1)
  match unitHead u with
  | some h => s.onDev fun d => { d with bist := { d.bist with badHeads := if d.bist.badHeads.contains h.val then d.bist.badHeads else d.bist.badHeads ++ [h.val] } }
  | none =>
    if u ≠ 0x31 then s
    else
      let w := (Config.freeWord s.dev.fresh).toNat
      let (acct, delta) := breach.getD (fld w 3 0 % 11, signed 24 (fld w 31 8))
      (s.tick.onSkein fun k => k.noteBreach acct delta false).ledgerBreach acct delta

/-- The window of a memory-controller command path's slice: that of R271 on each of the controller's channels. Other units need none. -/
def Dev.sliceWindow (d : Dev) (u : Nat) : Bool :=
  !(decide (0x32 ≤ u) && decide (u ≤ 0x39)) ||
    (d.toleranceAbove 2000 && d.chanList.all fun ch => ch.val * 8 / d.chanCount != u - 0x32 || (d.sliceFree ch && !(d.mc.chan ch).slice))

/-- SELFTEST_SLICE (R451-R453): a unit's slice runs, at most one per epoch and none of a skipped unit, and may fail. Elytra's slices pause during a
restart; a memory-controller slice runs under the window rules of R271. -/
def execSelftestSlice (u : Nat) (fail : Bool) (s : State) : Res := s.clocked fun s =>
  let st := s.dev.power.state
  if !runUnits.contains u || s.dev.unitSkipped u || s.dev.bist.thisEpoch.contains u || !(st == .run || st == .dim) ||
      (u == 0x20 && s.dev.ely.state != .running) || !s.dev.sliceWindow u then .next s
  else
    let first := s.dev.unitDone u == 0
    let s := s.onDev fun d => { d with bist := { d.bist with
      slices := Map.ins d.bist.slices u (min (slicesPerPass u) (d.unitDone u + 1)), thisEpoch := d.bist.thisEpoch ++ [u] } }
    let breach := if u = 0x31 ∧ first then firstBreach s.skein.accts else none
    let s := if fail || breach.isSome then s.sliceFails u breach else s
    .next (s.onDev Dev.endPass)

/-- SELFTEST_PASS_LATE (R451): a unit short of its pass at 2 s sets LATE, is reported, and starts a new pass. -/
def execSelftestPassLate (u : Nat) (s : State) : Res := s.clocked fun s =>
  if !runUnits.contains u || s.dev.unitPassed u then .next s
  else
    let s := s.onDev fun d => { d with bist := { d.bist with late := true, slices := Map.ins d.bist.slices u 0 } }
    .next (s.selftestFail u 2)

/-- OPSEC_SECOND (R459): an operating second in RUN or DIM; every 600th persists a counter entry. -/
def execOpsecSecond (s : State) : Res := s.clocked fun s =>
  let st := s.dev.power.state
  if !(st == .run || st == .dim) || !s.dev.slpclk then .next s
  else
    let s := s.onDev fun d => { d with ccn := { d.ccn with opsec := (d.ccn.opsec + 1) % 2 ^ 40, sinceCnt := d.ccn.sinceCnt + 1 } }
    .next (if 600 ≤ s.dev.ccn.sinceCnt then s.onDev Dev.persistCounters else s)

end Sys2Proof.Machine
end

