-- ==== Sys2Proof/Machine/Boot.lean ====
section
/-! DEFINITION. Machine/Boot.lean: resets, the choice of a container, the policy's rules and its application, the start of the firmware (R288-R293,
R312, R435-R440). -/
namespace Sys2Proof.Machine

/-! The policy's rules (R312) -/

/-- Two tenancies of a set that may not stand together: different plies, overlapping, one band (R181). -/
def Tenancy.clash (a b : Tenancy) : Bool :=
  a.valid && b.valid && a.ply != b.ply && a.zb == b.zb && decide (a.x0 < b.x1) && decide (b.x0 < a.x1) && decide (a.y0 < b.y1) && decide (b.y0 < a.y1)

/-- The class of a ply's policy entry. -/
def Policy.isClassA (pol : Policy) (p : Nat) : Bool := (atD pol.plies p PlyPolicy.empty).cls == some .a

/-- What tenancy sets must share: the entry where it is class A, else nothing. -/
def Tenancy.fixed (t : Tenancy) : Option Tenancy := if t.valid && t.classA then some t else none

/-- A tenancy's rectangle and band are in range (R180, R186). -/
def Tenancy.inRange (t : Tenancy) : Bool :=
  decide (t.ply < 64) && decide (t.zb < 16) && decide (t.x0 < t.x1) && decide (t.x1 ≤ 15360) && decide (t.y0 < t.y1) && decide (t.y1 ≤ 4320)

/-- A range of addresses lies in secure DRAM as the firmware leaves it (R302). -/
def Policy.secure (pol : Policy) (addr n : Nat) : Bool := decide (addr + n ≤ max 32 pol.wmInit * 2 ^ 21)

/-- A fixed mode meets the limits of R131 and R133. -/
def modeOk (ws : Vector Word 9) : Bool :=
  let r := fun i => (atD ws i 0).toNat
  let t : Timing := { ctl := r 0, htim0 := r 1, htim1 := r 2, vtim0 := r 3, vtim1 := r 4, pll0 := r 5, pll1 := r 6, out := r 7, bobbin := r 8 }
  !t.enable || (t.fieldsOk && t.evenOk && t.pllOk && t.derivedOk)

/-- A handle is a class A ply's that has a class A tenancy in a set (R156). -/
def Policy.slotOk (pol : Policy) (base : List (Option Tenancy)) (handle : Nat) : Bool :=
  (pol.plies.toList.zipIdx).any fun e => e.1.cls == some .a && e.1.handles.contains handle &&
    base.any fun t => match t with | some t => t.ply == e.2 | none => false

/-- A fallback plate lies in secure DRAM with its tenancy's width and height (R196). -/
def Policy.plateOk (pol : Policy) (x : Plate) (t : Tenancy) : Bool :=
  decide (4 * (t.x1 - t.x0) ≤ x.stride) && pol.secure x.addr ((t.y1 - t.y0 - 1) * x.stride + 4 * (t.x1 - t.x0))

/-- R131, R133, R156, R180, R181, R196, R198 of one head. -/
def Policy.headOk (pol : Policy) (h : HeadPolicy) : Bool :=
  let sets := h.sets.toList.filterMap id
  let base := ((at' h.sets 0).getD (Vector.replicate 16 Tenancy.blank)).toList.map Tenancy.fixed
  sets.all (fun t =>
    t.toList.all (fun e => !e.valid || (e.inRange && (!e.classA || pol.isClassA e.ply))) &&
    (t.toList.zipIdx).all (fun a => (t.toList.zipIdx).all fun b => decide (b.2 ≤ a.2) || !a.1.clash b.1) &&
    t.toList.map Tenancy.fixed == base) &&
  (match h.mode with | some ws => modeOk ws | none => true) && h.sigs.toList.all (fun x => x.all fun x => decide (x.owner < 64)) &&
  decide (h.slots.length ≤ 2) && h.slotGran.length == h.slots.length && h.slots.all (pol.slotOk base) &&
  (allFin 16).all (fun i => match at' h.plates i, base.getD i.val none with
    | none, _ => true
    | some x, some t => pol.plateOk x t
    | some _, none => false)

/-- R384: each panel's runs are of legal length and inside the electrodes, no electrode lies in two panels, one panel at most is class A. -/
def Policy.panelsOk (pol : Policy) : Bool :=
  let ps := pol.panels.toList.filterMap id
  ps.all (fun x => decide (1 ≤ x.drvCount) && decide (x.drvFirst + x.drvCount ≤ 64) && decide (1 ≤ x.snsCount) && decide (x.snsFirst + x.snsCount ≤ 128) &&
    decide (x.owner < 64) && (!x.classA || pol.isClassA x.owner)) &&
  decide ((ps.filter (·.classA)).length ≤ 1) &&
  (ps.zipIdx).all fun a => (ps.zipIdx).all fun b =>
    decide (b.2 ≤ a.2) ||
      ((decide (a.1.drvFirst + a.1.drvCount ≤ b.1.drvFirst) || decide (b.1.drvFirst + b.1.drvCount ≤ a.1.drvFirst)) &&
       (decide (a.1.snsFirst + a.1.snsCount ≤ b.1.snsFirst) || decide (b.1.snsFirst + b.1.snsCount ≤ a.1.snsFirst)))

/-- Something that at most one ply may be granted. -/
def Policy.grantedOnce (pol : Policy) (n : Nat) (f : PlyPolicy → List Nat) : Bool :=
  (List.range n).all fun i => decide ((pol.plies.toList.filter fun e => (f e).contains i).length ≤ 1)

/-- R312: the policy breaks no rule of the manual on this device (R41, R45, R106, R155, R302, R322, R378, R414). -/
def Dev.policyOk (d : Dev) (pol : Policy) : Bool :=
  d.portPresent pol.manager && pol.auditors.all d.portPresent &&
  pol.plies.toList.all (fun e => e.ports.all (fun q => match fin? 4 q with | some q => d.portPresent q | none => false) &&
    (e.cls != some .c || e.guarMax.toList.all (· == 0)) && decide (e.voices ≤ 8)) &&
  pol.heads.toList.all pol.headOk && pol.panelsOk && pol.grantedOnce 64 (·.handles) && pol.grantedOnce 8 (·.haptics) &&
  pol.waves.toList.all (fun w => w.all fun w => decide (48 ≤ w.2) && decide (w.2 ≤ 960000) && pol.secure w.1 (2 * ceilTo w.2 48)) &&
  decide (pol.wmInit ≤ pol.wmMax) && decide (256 ≤ pol.binTotal) && decide (pol.binTotal ≤ 16384)

/-! Applying the policy (R292) -/

/-- A signature region's owner, and the whole configuration of a class A region (R198, R204). -/
def Dev.applySig (d : Dev) (pol : Policy) (h : Fin 8) (r : Fin 4) : Dev :=
  match at' (at' pol.heads h).sigs r with
  | none => d
  | some x =>
    let b := sigBase h r
    let own := 2 ^ 22 + x.owner % 64 * 2 ^ 16
    if pol.isClassA x.owner then
      let c := (at' x.regs 0).toNat
      let ctl := regClamp b (fld c 31 31 * 2 ^ 31 + fld c 28 23 * 2 ^ 23 + fld c 6 0) + 2 ^ 30 + 2 ^ 29 + own
      (([4, 8, 0x10, 0x14, 0x18, 0x1C, 0x20, 0x24] : List Nat).zipIdx).foldl (fun d o => d.setField (b + o.1) (atD x.regs (o.2 + 1) 0).toNat) (d.setBoth b ctl)
    else d.setBoth b (d.reg b + own)

/-- A head as the policy sets it: tenancy set 0, class A plates, DSC_ALLOW, signature regions, and a fixed mode, which is armed (R139, R180, R439). -/
def State.applyHead (s : State) (pol : Policy) (h : Fin 8) : State :=
  let x := at' pol.heads h
  let b := hdBase h
  let dsc := bit1 x.dscAllow * 2 ^ 25
  let s := s.onDev fun d => d.setBoth (b + 0x1C) (d.reg (b + 0x1C) + dsc)
  let s := s.onDev fun d => (allFin 4).foldl (fun d r => d.applySig pol h r) d
  let s := s.updHead h fun y => { y with tens := s.dev.tenancySet h 0, tenSet := 0,
                                         plates := Vector.ofFn fun i => { at' y.plates i with shown := (at' x.plates i).isSome } }
  match x.mode with
  | none => s
  | some ws =>
    let s := s.onDev fun d => (List.range 9).foldl (fun d i =>
      let w := (atD ws i 0).toNat
      let w := regClamp (b + 4 * i) (Nat.land w (match findReg regTable (b + 4 * i) with | some (r, _) => r.mask | none => 0))
      d.setReg (b + 4 * i) (if i = 7 then (Word.put (word w) 25 25 (bit1 x.dscAllow)).toNat else w)) d
    let t := s.dev.pendingTiming h
    let e := if s.dev.headExposed h then s.dev.armError h t else 0
    let s := s.updHead h fun y => { y with err := e }
    let s := if s.dev.headExposed h && e == 0 then s.enableHead h t else s
    s.onDev fun d => (d.setReg b (Word.put (word (d.reg b)) 1 1 1).toNat).setAct b (Word.put (word (d.active b)) 1 1 1).toNat

/-- Outputs that a class A chime grant or a binding names (R381). -/
def Policy.chimeOutputs (pol : Policy) (o : Fin 32) : Bool :=
  pol.plies.toList.any (fun e => e.cls == some .a && e.waves != 0 && bit e.outputs o.val) || pol.binds.any fun b => bit b.mask o.val

/-- Registers of touch, haptics, check units, HEARTBEAT, FBSEL_N and the recorder that Elytra writes from the policy (R153, R154, R384, R421, R445,
R461), and the audio locks (R381). -/
def Dev.applyRest (d : Dev) (pol : Policy) : Dev :=
  let d := d.setBoth 0x12800 (bit1 pol.hbEn * 2 ^ 31 + pol.hbHead % 8)
  let d := d.setBoth 0x12804 (bit1 pol.fbSticky * 2 ^ 31)
  let d := d.setBoth 0x1E004 (clampNat 1 16 pol.ccnBurst * 256 + clampNat 1 16 pol.ccnRefill)
  let d := (allFin 4).foldl (fun d n => match at' pol.panels n with
    | none => d
    | some x => (d.setBoth (0x19000 + 0x10 * n.val) x.words.1.toNat).setBoth (0x19004 + 0x10 * n.val) x.words.2.toNat) d
  let d := (allFin 8).foldl (fun d c =>
    let x := at' pol.haptics c
    let b := 0x1A000 + 0x20 * c.val
    let l := x.lim.toNat
    let lim := fld l 31 24 * 2 ^ 24 + clampNat 1 100 (fld l 23 16) * 2 ^ 16 + clampNat 1 20 (fld l 15 8) * 2 ^ 8
    ((d.setBoth b (Word.put (word (d.reg b)) 30 30 (bit1 x.acc)).toNat).setBoth (b + 4)
      (max 1 (fld x.sense.toNat 31 16) * 2 ^ 16 + max 1 (fld x.sense.toNat 15 0))).setBoth (b + 8) lim) d
  let d := (allFin 8).foldl (fun d k => d.setBoth (0x1A100 + 4 * k.val) (at' pol.pins k).toNat) d
  let grant := fun (u : Fin 8) => ((allFin 64).map fun p => if (at' pol.plies p).checks.contains u.val then 2 ^ p.val else 0).sum
  let d := { d with checks := Vector.ofFn fun u => { d.check u with grant := grant u, lock := bit pol.chkLock u.val } }
  (allFin 32).foldl (fun d o => match at' pol.audio o with
    | some x => if pol.chimeOutputs o then d.lockOutput o x else d
    | none => d) d

/-- Islands that are up once the firmware has started (R439): all the variant has but the graphics and Whorl islands, and the host ports that
the strap leaves absent. -/
def Dev.bootIslands (d : Dev) : Vector Island 32 :=
  Vector.ofFn fun i =>
    let v := i.val
    let on := v ≤ 3 || (decide (4 ≤ v) && decide (v ≤ 7) && decide (0 < strapLanes d.power.strap ⟨(v - 4) % 4, by omega⟩)) || v == 17 ||
      (decide (18 ≤ v) && decide (v ≤ 21) && decide (2 * (v - 18) < d.nHeads)) || v == 22 || v == 23
    if on then Island.good else Island.off

/-- Policy assets placed in secure DRAM under key slot 64 (R290, R302). -/
def State.placeAssets (s : State) (c : Container) : State :=
  c.assets.foldl (fun s x => { s with dram := s.dram.writeN (at' s.dev.ely.keySlot 64) x.1 x.2 }) s

/-- R292: the firmware starts and applies the policy; the device is in DIM (R439). -/
def State.startFirmware (s : State) (c : Container) : State :=
  let pol := c.policy
  let s := s.onDev fun d => { d with
    ely := { d.ely with state := .running, romMode := false, running := some c, cmdMap := firmwareMap, entries := firmwareEntries, locked := true,
                        secWm := max d.ely.secWm pol.wmInit },
    power := { d.power with islands := d.bootIslands, watchPort := pol.manager, state := .dim } }
  let s := s.onSkein fun k => k.setAcct .bin (Account.fresh 3 0 s.dev.nClusters pol.binTotal)
  let s := s.placeAssets c
  let s := s.onDev fun d => d.applyRest pol
  (s.each (allFin 8) fun s h => s.applyHead pol h).reportTest

/-- Measurements 1-8 at a boot (R310): the boot ROM, six sections, and the restart chain. -/
def Container.measures (c : Container) : Vector (List Byte) 8 :=
  Vector.ofFn fun i => match i.val with
    | 0 => (List.range 48).map Config.romDigest
    | 1 => c.digest 1
    | 2 => c.digest 3
    | 3 => c.digest 2
    | 4 => c.digest 0x10
    | 5 => c.digest 0x11
    | 6 => c.digest 0x12
    | _ => List.replicate 48 0

/-- What a boot with a verified container leaves in Elytra (R292 steps 3, 5-7, R308, R310): OEM_KEY_HASH burnt where PROVISION was honoured, the secure DRAM
key (drawn at a cold boot only), the sections loaded, the retained copy, the ELY_FW digest, the identity and alias keys, the measurements. -/
def Ely.booted (e : Ely) (c : Container) (part : Fin 2) (gen : Nat) : Ely :=
  let e := if at' e.keySlot 64 = 0 then e.freshKey 64 else e
  let e := if c.provision && !e.oemFused then e.burn 48 (sha384 ((c.signatures.drop 192).take 96)) else e
  { e with measures := c.measures, retainedLost := false, copy := c.bytes, sram := c.forSram, secure := c.forSecure, fwDigest := c.digest 1,
           identity := e.ladder 0 [], aliasKey := e.ladder 1 (c.digest 1), runPart := part, runGen := gen }

/-- Steps 2-7 of R292 with a verified container: MEM_DESC is loaded and checked (R259), Elytra takes what the boot leaves it, and the firmware starts unless
the policy is refused (R312). Training ends with DRAM_TRAINING. -/
def State.bootFrom (s : State) (c : Container) (part : Fin 2) (gen : Nat) : State :=
  let s := s.onDev fun d => { d with dramTop := 0, mc := { Mc.blank with desc := some c.memDesc }, ely := { d.ely with romMode := false } }
  let s := s.onSkein fun k => k.trainMem 0
  if !memDescOk s.dev.pkgW c.memDesc then s.cocoon 0x1003 sevCritical 0x40 []
  else
    let s := s.onDev fun d => { d with ely := d.ely.booted c part gen }
    if s.dev.policyOk c.policy then s.startFirmware c
    else (s.onDev fun d => { d with ely := { d.ely with romMode := true } }).cocoon 0x1004 sevCritical 0x40 []

/-- Step 1 of R292: the valid partition with the higher generation, A first when they are equal. -/
def Dev.bootPartition (d : Dev) : Option (Fin 2 × Partition) :=
  if !d.ccn.flash then none
  else
    let ok := fun (i : Fin 2) => match at' d.ely.parts i with
      | some p => if p.container.valid d.ely then some (i, p) else none
      | none => none
    match ok 0, ok 1 with
    | some a, some b => if a.2.gen < b.2.gen then some b else some a
    | some a, none => some a
    | none, b => b

/-- The ROM boots from flash, or enters ROM mode (R292). -/
def State.bootRom (s : State) : State :=
  match s.dev.bootPartition with
  | some (i, p) => s.bootFrom p.container i p.gen
  | none => s.onDev fun d => { d with ely := { d.ely with romMode := true } }

/-! Resets (R437, R438) -/

/-- A reset: the ledger anew, the device part from what the reset keeps. -/
def State.resetTo (s : State) (power : Power) (ely : Ely) (bist : Bist) (ccn : Ccn) (touch : Touch) (regs : List (Nat × Word)) : State :=
  let d := s.dev
  { s with skein := Skein.reset d.nClusters,
           dev := Dev.atReset d.variant (d.ports.map (·.perst)) power ely bist ccn touch regs d.slpclk d.order d.fresh d.out }

/-- PWR_TEMP_CTL resets to 110 degrees on package W (R441). -/
def Dev.resetRegs (d : Dev) : List (Nat × Word) := if d.pkgW then [(0x1B054, word 0x006E0500)] else []

/-- Elytra's fuses and flash, which every reset keeps. -/
def Ely.fused (e : Ely) : Ely :=
  { Ely.blank with fuses := e.fuses, parts := e.parts, nextKey := e.nextKey }

/-- The newest valid counter entry of the flash (R459): VALID 0x00 and a matching CRC. -/
def Ccn.newestCounter (c : Ccn) : Option (List Byte) :=
  let ok := fun (b : List Byte) => byteAt b 15 == 0 && b == counterEntry (leAt b 0 5) (leAt b 5 3)
  let rank := fun (p : Nat) => (p + 8192 - c.cntPos) % 8192
  ((c.counters.filter fun e => ok e.2).foldl (fun (best : Option (Nat × List Byte)) e => match best with
    | none => some e
    | some b => if rank b.1 < rank e.1 then some e else some b) none).map (·.2)

/-- The recorder after a cold reset: the flash contents, and both counts restored from them (R438, R459). -/
def Ccn.restored (c : Ccn) : Ccn :=
  let b := c.newestCounter.getD []
  { Ccn.blank with flash := c.flash, log := c.log, next := c.next, lap := c.lap, counters := c.counters, cntPos := c.cntPos,
                   opsec := leAt b 0 5, pwrcyc := leAt b 5 3 }

/-- A cold reset (R438): the device stays in reset until BOOT. -/
def State.coldReset (s : State) (cause : Nat) (vaonOk tripped tripSeen : Bool) : State :=
  let d := s.dev
  let power := { Power.blank 0 0 cause with held := true, vaonOk := vaonOk, tripped := tripped, tripSeen := tripSeen, vddg := d.power.vddg,
                                            vaonNow := d.power.vaonNow }
  { s with dram := s.dram.lose fun _ => true }.resetTo power d.ely.fused Bist.blank d.ccn.restored { Touch.blank with stored := d.touch.stored } d.resetRegs

/-- Power of a reset that keeps the always-on island (R438). -/
def Power.keptBy (p : Power) (cause : Nat) : Power :=
  { Power.blank p.strap p.watchPort cause with vaonOk := p.vaonOk, vaonWarn := p.vaonWarn, vaonNow := p.vaonNow, dipMin := p.dipMin,
                                               dipCycles := p.dipCycles, tripped := p.tripped, tripSeen := p.tripSeen, vddg := p.vddg, held := p.held }

/-- Self-test state of a reset that keeps the always-on island: Moult results (R438, R461). -/
def Bist.keptOn (b : Bist) : Bist :=
  { Bist.blank with valid := b.valid, fresh := b.fresh, pass := b.pass, startup := b.startup, pwrcyc := b.pwrcyc, fail := b.fail, opsec := b.opsec,
                    deferred := b.deferred, untested := b.untested, report := b.report }

/-- Touch state of such a reset: baselines retained, the wake registers (R396, R407). -/
def Touch.keptOn (t : Touch) (ref : StartRef) : Touch :=
  { Touch.blank with panels := Vector.replicate 4 (Panel.blank ref), stored := t.stored, kept := t.kept, woke := t.woke, wakeKind := t.wakeKind,
                     wakeAt := t.wakeAt }

/-- Registers of the always-on island: the wake registers and CCN_CTL (R407, R461). -/
def Dev.keptRegs (d : Dev) : List (Nat × Word) :=
  ([0x19048, 0x1904C, 0x1E004] : List Nat).foldl (fun m off => Map.ins m off (word (d.reg off))) d.resetRegs

/-- VAON_RESET (R437, R438): VAON falls through 2.20 V. THERMTRIP_N is released; PWR_RESET_CAUSE shows whether it was low. A warning in progress
leaves no record. -/
def execVaonReset (s : State) : Res := .next (s.coldReset 1 false false s.dev.power.tripped)

/-- PWRON_RST_N_ASSERT (R438): a cold reset; THERMTRIP_N stays as it is (R435). -/
def execPwronRstNAssert (s : State) : Res := .next (s.coldReset 2 s.dev.power.vaonOk s.dev.power.tripped s.dev.power.tripSeen)

/-- VAON_APPLY (R437): VAON rises through 2.30 V; the power-cycle count increments, saturating at its 24 bits (R461). -/
def execVaonApply (s : State) : Res :=
  if s.dev.power.vaonOk then .next s
  else .next (s.onDev fun d => { d with power := { d.power with vaonOk := true }, ccn := { d.ccn with pwrcyc := min 0xFFFFFF (d.ccn.pwrcyc + 1) } })

/-- THERMTRIP (R435): THERMTRIP_N low, a critical record in the always-on buffer, every other block held in reset. -/
def execThermtrip (s : State) : Res :=
  if s.dev.power.tripped || !s.dev.power.vaonOk then .next s
  else
    let s := s.cocoon 0x1002 sevCritical 0x40 []
    let d := s.dev
    let s := s.resetTo { d.power.keptBy d.power.lastCause with tripped := true } d.ely.fused d.bist.keptOn d.ccn (d.touch.keptOn .none) d.keptRegs
    .next { s with dram := s.dram.lose fun _ => true }

/-- BOOT (R292, R321, R439, R449, R450): PWRON_RST_N is released: the strap is sampled, the start's test runs, and the ROM boots from flash or enters
ROM mode. A counter entry is persisted after an application of VAON (R459). Nothing happens without VAON, while THERMTRIP_N is low, or once the ROM has
run. -/
def execBoot (b : BootIn) (s : State) : Res :=
  let d := s.dev
  if !d.power.vaonOk || d.power.tripped || d.ely.state != .rom || d.ely.romMode || d.mc.desc.isSome then .next s
  else
    let s := s.onDev fun d => { d with refclk := true, power := { d.power with strap := b.strap, vddg := b.vddg, held := false },
                                       ccn := { d.ccn with flash := b.flash } }
    let s := (s.startTest b.fails).bootRom
    let new := leAt (s.dev.ccn.newestCounter.getD []) 5 3 != s.dev.ccn.pwrcyc
    .next (if new then s.onDev Dev.persistCounters else s)

/-- CONTAINER_LOAD (R290-R292, R295, R297): in ROM mode Elytra reads a container from port 0's host memory, none where it cannot be read. Boot goes on with
step 2. -/
def execContainerLoad (order : Nat) (c : Option Container) (s : State) : Res := s.clocked fun s =>
  match s.commandAny order 0x02 with
  | none => .next s
  | some j =>
    if !j.wellFormed then .next (s.answer j mbBadMessage [])
    else if !(s.dev.ely.state == .rom && s.dev.ely.romMode && j.port == 0) then .next (s.answer j mbNotPermitted [])
    else if j.arg 8 4 = 0 then .next (s.answer j mbBadContainer [])
    else .next (s.fetchBuffer j (j.arg 0 8) (j.arg 8 4) (c.map some) none fun s c => match c with
      | none => s.answer j mbBadContainer []
      | some c =>
        let c := c.sized (j.arg 8 4)
        if !c.valid s.dev.ely then s.answer j mbBadContainer [] else (s.answer j mbOk []).bootFrom c 0 0)

/-- WARM_RESET (R438): 1 ms after PWR_RESET's response every port has a link-down, everything but the kept items is reset, and Elytra boots from flash
without the start-up test. DRAM above SEC_WM is still to be scrubbed. -/
def execWarmReset (s : State) : Res := s.clocked fun s =>
  if !s.dev.power.resetDue then .next s
  else
    let s := s.each (allPorts.filter fun q => s.dev.portPresent q && (s.port q).linkUp) fun s q => s.linkDown q .dlDown false
    let d := s.dev
    let ely := { d.ely.fused with secWm := d.ely.secWm, keySlot := put Ely.blank.keySlot 64 (at' d.ely.keySlot 64), fwDigest := d.ely.fwDigest,
                                  unscrubbed := true }
    let touch := { d.touch.keptOn .none with blocked := d.touch.blocked, wakeX := d.touch.wakeX, wakeY := d.touch.wakeY, wakeN := d.touch.wakeN,
                                             trail := d.touch.trail }
    let s := s.resetTo (d.power.keptBy 3) ely d.bist.keptOn d.ccn touch d.keptRegs
    .next s.bootRom

/-- WATCH_EXIT (R396, R438-R440): in WATCH the manager's PERST_N is released: the power-up sequence runs from there, the always-on island and the
strap sample kept. LINK_DOWNS counts on (R330). -/
def execWatchExit (b : BootIn) (s : State) : Res :=
  let d := s.dev
  let q := d.power.watchPort
  if d.power.state != .watch || !d.power.vaonOk || d.power.tripped || d.power.held then .next s
  else
    let downs := fun (q : Fin 4) => (d.port q).linkDowns
    let s := { s with dram := s.dram.lose fun _ => true }.resetTo { d.power.keptBy 4 with vddg := b.vddg } d.ely.fused d.bist.keptOn d.ccn
      (d.touch.keptOn .kept) d.keptRegs
    let s := s.each allPorts fun s q => s.updPort q fun pt => { pt with linkDowns := downs q }
    let s := s.updPort q fun pt => { pt with perst := false }
    .next (s.startTest b.fails).bootRom

end Sys2Proof.Machine
end

