-- ==== Sys2Proof/Machine/Power.lean ====
section
/-! DEFINITION. Machine/Power.lean: power commands, islands and inrush tokens, entry into WATCH, clocks and monitors (R313, R314, R425-R441). -/
namespace Sys2Proof.Machine

/-! Islands (R431) -/

/-- Whether the variant has an island (R4, R8, R431). -/
def Dev.islandExists (d : Dev) (i : Nat) : Bool :=
  i ≤ 8 || (decide (9 ≤ i) && decide (i ≤ 16) && decide (2 * (i - 9) < d.nClusters)) || i == 17 ||
    (decide (18 ≤ i) && decide (i ≤ 21) && decide (2 * (i - 18) < d.nHeads)) || i == 22 || i == 23 || ((i == 24 || i == 25) && d.pkgW)

/-- Inrush tokens of a ramp-up (R431). -/
def islandTokens (i : Nat) : Nat :=
  ([0, 1, 4, 4, 2, 2, 2, 2, 4, 4, 4, 4, 4, 4, 4, 4, 4, 3, 2, 2, 2, 2, 1, 1, 1, 1] : List Nat).getD i 0

/-- An island. -/
def Dev.island (d : Dev) (i : Fin 32) : Island := at' d.power.islands i
/-- The state with the power block changed. -/
def State.updPower (s : State) (f : Power → Power) : State := s.onDev fun d => { d with power := f d.power }
/-- The state with an island set. -/
def State.setIsland (s : State) (i : Fin 32) (x : Island) : State := s.updPower fun p => { p with islands := put p.islands i x }

/-- The graphics islands of the variant: GFXC and the cluster islands. -/
def Dev.gfxIslands (d : Dev) : List (Fin 32) := (allFin 32).filter fun i => decide (8 ≤ i.val) && decide (i.val ≤ 16) && d.islandExists i.val

/-- Whether a head scans or changes its timing. -/
def Dev.headOn (d : Dev) (h : Fin 8) : Bool := (d.head h).gen != .off

/-- R431: a power-off of the island is refused with BAD_STATE. -/
def Dev.offRefused (d : Dev) (i : Nat) : Bool :=
  if i ≤ 3 then true
  else if i = 8 then (List.range 8).any fun k => atD d.power.islands (9 + k) Island.off != .off
  else if i = 17 then (allFin 8).any d.headOn
  else if 18 ≤ i ∧ i ≤ 21 then (allFin 8).any fun h => h.val / 2 == i - 18 && d.headOn h
  else if i = 22 then d.audio.lockOut != 0 || !d.audio.streams.isEmpty || d.audio.voices.toList.any (·.isSome)
  else if i = 23 then d.touch.panels.toList.any (·.scanning) || (allFin 8).any fun c => bit (d.hapReg c 0) 31
  else if i = 24 ∨ i = 25 then d.whorl.member
  else false

/-! Secure claims (R313, R314) -/

/-- Whether some granule is still to be scrubbed (R303, R305). -/
def Dev.scrubDue (d : Dev) : Bool :=
  d.ely.owner.any (fun e => e.2 == 0xFC) ||
    (d.ely.unscrubbed && (List.range (d.dramTop / 65536)).any fun g => decide (d.ely.secWm * 32 ≤ g) && (Map.find d.ely.owner g).isNone)

/-- Claims in force, as island and the model's claim code: 1 a command or a restart, 2 memory work, 3 an SPDM exchange. `own` is a command in progress
that does not count. An island that is unpowered, or about to lose its power by an accepted command, is not claimed. -/
def Dev.claims (d : Dev) (own : Option Nat) : List (Nat × Nat) :=
  let restart := d.ely.state == .restarting
  let js := d.ely.journal.filter fun j => some j.order != own
  let busy := restart || !js.isEmpty
  let mem := restart || d.scrubDue || js.any fun j => ([0x03, 0x08, 0x2A, 0x2B] : List Nat).contains j.code
  let spdm := (allPorts.filter fun q => (d.port q).spdm.sessions.any (·.opening)).map fun q => (4 + q.val, 3)
  let all := (if busy then [(1, 1)] else []) ++ (if mem then [(2, 2), (3, 2)] else []) ++ spdm
  let leaving := d.power.pendState == some .watch || d.power.state == .leaving
  all.filter fun c => d.islandOn c.1 && !leaving && !(d.power.pending.any fun e => e.1.val == c.1 && !e.2)

/-- The first claimed island among some that a command would power off. -/
def Dev.claimed (d : Dev) (own : Nat) (offs : List Nat) : Option (Nat × Nat) := (d.claims (some own)).find? fun c => offs.contains c.1

/-- DENIED_SECURE_CLAIM, with its record (R313). -/
def State.denyPower (s : State) (j : Journal) (c : Nat × Nat) : State :=
  (s.cocoon 0x1000 sevWarning 0x40 (bytesOf 1 j.code ++ bytesOf 1 c.1 ++ bytesOf 1 c.2)).answer j mbDeniedClaim []

/-! Commands (R432, R433, R438) -/

/-- Pending island changes with a command's, which replace earlier ones for the same islands (R432). -/
def Power.queue (p : Power) (l : List (Fin 32 × Bool)) : Power :=
  { p with pending := p.pending.filter (fun e => !(l.any fun x => x.1 == e.1)) ++ l }

/-- An island has reached what a command asked for: nothing pending, waiting, ramping or being saved. -/
def Dev.islandSettled (d : Dev) (i : Fin 32) : Bool :=
  !(d.power.pending.any fun e => e.1 == i) && (d.island i == .good || d.island i == .off)

/-- PWR_STATE RUN and DIM: `target` is its state code (R432). -/
def State.pwrState (s : State) (order target : Nat) : Res :=
  match s.command order 0x50 with
  | none => .next s
  | some j =>
    if j.wellFormed && s.dev.isManager j.port && j.arg 0 1 != target && decide (1 ≤ j.arg 0 1) && decide (j.arg 0 1 ≤ 3) then .next s
    else s.managed order 0x50 fun j =>
      if j.arg 0 1 ≠ target ∨ j.arg 1 1 ≠ 0 then s.answer j mbBadArg []
      else if j.begun then
        (if s.dev.power.pendState.isNone && s.dev.gfxIslands.all s.dev.islandSettled then s.answer j mbOk [] else s)
      else (s.updPower fun p => { p.queue (s.dev.gfxIslands.map fun i => (i, target == 1)) with
              pendState := some (if target = 1 then .run else .dim), moult := false }).hold j

/-- PWR_STATE_RUN (R432): accepted, and completed once RUN is reached. -/
def execPwrStateRun (order : Nat) (s : State) : Res := s.clocked fun s => s.pwrState order 1

/-- PWR_STATE_DIM (R432): accepted, and completed once DIM is reached. -/
def execPwrStateDim (order : Nat) (s : State) : Res := s.clocked fun s => s.pwrState order 2

/-- Bits of a mask as islands. -/
def maskIslands (m : Nat) : List (Fin 32) := (allFin 32).filter fun i => bit m i.val

/-- PWR_ISLAND (R431, R432). -/
def execPwrIsland (order : Nat) (s : State) : Res := s.clocked fun s =>
  s.managed order 0x51 fun j =>
    let d := s.dev
    let on := maskIslands (j.arg 0 4)
    let off := maskIslands (j.arg 4 4)
    if Nat.land (j.arg 0 4) (j.arg 4 4) ≠ 0 then s.answer j mbBadArg []
    else if j.begun then (if (on ++ off).all d.islandSettled then s.answer j mbOk [] else s)
    else if (on ++ off).any fun i => !d.islandExists i.val then s.answer j mbNoUnit []
    else if on.contains 0 || off.any fun i => d.offRefused i.val then s.answer j mbBadState []
    else match d.claimed order (off.map (·.val)) with
      | some c => s.denyPower j c
      | none =>
        let l := (allFin 32).filterMap fun i => if on.contains i then some (i, true) else if off.contains i then some (i, false) else none
        (s.updPower fun p => p.queue l).hold j

/-- PWR_OPPOINT (R433): completes at the boundary where the point swaps in. -/
def execPwrOppoint (order : Nat) (s : State) : Res := s.clocked fun s =>
  s.managed order 0x52 fun j =>
    let d := s.dev
    let rail := j.arg 0 1
    let pt := j.arg 1 1
    if 1 < rail ∨ (rail = 0 ∧ 1 < pt) ∨ (rail = 1 ∧ 4 < pt) then s.answer j mbBadArg []
    else if j.begun then (if (if rail = 0 then d.power.pendVc else d.power.pendVg).isNone then s.answer j mbOk [] else s)
    else if rail = 0 ∧ pt = 0 ∧ ((allFin 8).any fun h => d.headOn h || (match (d.head h).armed with | some t => t.enable | none => false)) then
      s.answer j mbBadState []
    else (s.updPower fun p => if rail = 0 then { p with pendVc := some pt } else { p with pendVg := some pt }).hold j

/-- PWR_RESET (R432, R438): the response OK, then the warm device reset. -/
def execPwrReset (order : Nat) (s : State) : Res := s.clocked fun s =>
  s.managed order 0x53 fun j =>
    if j.arg 0 1 ≠ 1 then s.answer j mbBadArg [] else (s.updPower fun p => { p with resetDue := true }).answer j mbOk []

/-! Entry into WATCH (R440) -/

/-- Last baselines of a panel with the map they belong to (R396). -/
def Dev.keepRef (d : Dev) (n : Fin 4) : Option TouchRef :=
  let x := at' d.touch.panels n
  if x.nodes = [] then none else some { panel0 := word (d.panelWord n 0), panel1 := word (d.panelWord n 1), base := x.nodes.map (·.base) }

/-- The first row of R440: heads OFF, HEARTBEAT and FBSEL_N low, audio, touch and haptics stop, HAPn_EN low, counts persisted. Whether the wake scan is
blocked is settled here (R405, R481). -/
def State.leave (s : State) : State :=
  let s := s.each ((allFin 8).filter s.dev.headOn) State.headOff
  let s := s.updCarder fun c => { c.fbLow with hbLevel := false }
  let s := s.each (allFin 8) fun s c => (s.hapEnd c 3).updHap c fun x => { x with wait := none, arrivals := [], en := false, holding := none, i := 0, u := 0 }
  s.onDev fun d =>
    let wake : Fin 4 := ⟨fld (d.reg 0x19048) 29 28 % 4, by omega⟩
    let d := { d with power := { d.power with state := .leaving },
                      audio := { d.audio with streams := [], voices := Vector.replicate 16 none },
                      touch := { d.touch with panels := d.touch.panels.map Panel.idle, running := none, blocked := (at' d.touch.panels wake).force } }
    d.persistCounters

/-- The last rows of R440: host links down, every island but the always-on one off, WATCH. -/
def State.enterWatch (s : State) : State :=
  let s := s.each (allPorts.filter fun q => s.dev.portPresent q && (s.port q).linkUp) fun s q => s.linkDown q .dlDown false
  s.onDev fun d =>
    { d with power := { d.power with state := .watch, islands := put (Vector.replicate 32 Island.off) 0 Island.good, waits := [], pending := [] },
             touch := { d.touch with kept := Vector.ofFn fun n => d.keepRef n, wakeX := [], wakeY := [], wakeN := 0, trail := [], woke := false },
             whorl := { d.whorl with ports := d.whorl.ports.map fun p => { p with state := .off, rate := 0, pin := false, nb := none } } }

/-- The Cocoon buffer is written to flash (R440, R458). -/
def Dev.flushCocoon (d : Dev) : Dev :=
  if !d.ccnWrites then d
  else { d with ccn := { d.ccn.buffer.foldl (fun (c : Ccn) r => { c.advance with log := Map.ins c.log c.next r }) d.ccn with buffer := [] } }

/-- A power-down that is running: Moult if it was asked for, the buffer flushed, the response; then the links and islands go down (R440). -/
def State.goDown (s : State) (order fails : Nat) : State :=
  match s.dev.ely.journal.find? fun j => j.order == order && j.code == 0x50 && j.begun with
  | some j =>
    let s := if s.dev.power.moult then s.moultResult fails false [] else s
    ((s.onDev Dev.flushCocoon).updPower fun p => { p with moult := false }).answer j mbOk []
  | none => s.enterWatch

/-- PWR_STATE_WATCH (R432, R440): accepted; from the boundary on the same row carries the sequence on: once up to the response, once to WATCH. `fails` are
the units that fail Moult. -/
def execPwrStateWatch (order fails : Nat) (s : State) : Res := s.clocked fun s =>
  if s.dev.power.state == .leaving then .next (s.goDown order fails)
  else match s.command order 0x50 with
  | none => .next s
  | some j =>
    if j.wellFormed && s.dev.isManager j.port && (j.arg 0 1 == 1 || j.arg 0 1 == 2) then .next s
    else s.managed order 0x50 fun j =>
      let d := s.dev
      if j.arg 0 1 ≠ 3 ∨ 1 < j.arg 1 1 then s.answer j mbBadArg []
      else if j.begun then (if d.power.pendState == some .watch then s else s.answer j mbOk [])
      else if allPlies.any (fun p => (d.ply p).state != .absent) || d.whorl.member || (j.arg 1 1 == 1 && d.gfxIslands.any fun i => d.island i != .good) then
        s.answer j mbBadState []
      else match d.claimed order ((List.range 25).map (· + 1)) with
        | some c => s.denyPower j c
        | none => (s.updPower fun p => { p with pendState := some .watch, moult := j.arg 1 1 == 1 }).hold j

/-! The epoch boundary's part (R432) -/

/-- An island powers off: ramping or waiting ones return their tokens; graphics work is preempted first (R230); a host port's goes with a link-down. -/
def State.powerOff (s : State) (i : Fin 32) : State :=
  match s.dev.island i with
  | .off | .saving => s
  | .waiting => (s.updPower fun p => { p with waits := p.waits.filter (· != i) }).setIsland i .off
  | .ramping => (s.onSkein fun k => k.giveAll .inr (islandHolder i)).setIsland i .off
  | .good =>
    if h : 4 ≤ i.val ∧ i.val ≤ 7 then (s.recogniseDown ⟨i.val - 4, by omega⟩ .dlDown false).setIsland i .off
    else if i.val = 8 then s.setIsland i .saving
    else if 9 ≤ i.val ∧ i.val ≤ 16 then (s.setIsland i .saving).preempt ((allFin 16).filter fun c => 9 + c.val / 2 == i.val) none
    else if h : 24 ≤ i.val ∧ i.val ≤ 25 then
      (s.updRingPort ⟨i.val - 24, by omega⟩ fun p => { p with state := .off, rate := 0, pin := false, nb := none }).setIsland i .off
    else s.setIsland i .off

/-- An island powers on: it waits for its tokens, after every ramp-up that waits already. -/
def State.powerOn (s : State) (i : Fin 32) : State :=
  match s.dev.island i with
  | .off => (s.updPower fun p => { p with waits := p.waits ++ [i] }).setIsland i .waiting
  | .saving => s.setIsland i .good
  | _ => s

/-- Operating points, island changes and states swap in (R432, R433). At VDDC point 0x1 the sets that waited to enable heads take effect. -/
def State.powerEpoch (s : State) : State :=
  let p := s.dev.power
  let s := s.updPower fun p => { p with vg := p.pendVg.getD p.vg, vc := p.pendVc.getD p.vc, pendVg := none, pendVc := none, pending := [] }
  let s := if p.vc = 0 ∧ s.dev.power.vc = 1 then s.each (allFin 8) fun s h =>
      match (s.head h).gen, (s.head h).armed with
      | .off, some t => (s.updHead h fun x => { x with armed := none, armLate := false }).enableHead h t
      | _, _ => s
    else s
  let s := p.pending.foldl (fun s e => if e.2 then s else s.powerOff e.1) s
  let s := p.pending.foldl (fun s e => if e.2 then s.powerOn e.1 else s) s
  let s := s.onDev Dev.settlePower
  if p.pendState = some .watch then (s.updPower fun p => { p with pendState := none }).leave else s

/-- ISLAND_RAMP_START (R432): the first ramp-up that waits starts once its tokens are granted. -/
def execIslandRampStart (s : State) : Res := s.clocked fun s =>
  match s.dev.power.waits with
  | [] => .next s
  | i :: rest =>
    match s.skein.take .inr (islandHolder i) (islandTokens i.val) with
    | none => .next s
    | some k => .next ((({ s with skein := k } : State).updPower fun p => { p with waits := rest }).setIsland i .ramping)

/-- ISLAND_POWER_GOOD (R431, R450): the island is up and its tokens return. Once no graphics island is on its way, deferred test units run; `fails` are
those that fail. -/
def execIslandPowerGood (i : Fin 32) (fails : Nat) (s : State) : Res := s.clocked fun s =>
  if s.dev.island i != .ramping then .next s
  else
    let s := (s.onSkein fun k => k.giveAll .inr (islandHolder i)).setIsland i .good
    let gs := s.dev.gfxIslands
    let under := gs.any fun g => s.dev.island g == .waiting || s.dev.island g == .ramping
    let s := if under then s else s.runDeferred ((gs.filter fun g => s.dev.island g == .good).map (·.val)) fails
    .next (s.onDev Dev.settlePower)

/-! Clocks (R425-R427, R430) -/

/-- REFCLK0_LOSS (R425, R427): everything on REFCLK0 stops; DRAM contents are undefined after it. -/
def execRefclk0Loss (s : State) : Res :=
  if !s.dev.refclk then .next s else .next ({ s with dram := s.dram.lose fun _ => true }.onDev fun d => { d with refclk := false })

/-- SLPCLK_LOSS (R425): the logic on SLPCLK stops. -/
def execSlpclkLoss (s : State) : Res := .next (s.onDev fun d => { d with slpclk := false })

/-- SLPCLK_RETURN (R425): it runs again. -/
def execSlpclkReturn (s : State) : Res := .next (s.onDev fun d => { d with slpclk := true })

/-- The state with a frequency counter changed. -/
def State.updFcnt (s : State) (n : Fin 4) (f : Fcnt → Fcnt) : State := s.updPower fun p => { p with fcnt := upd p.fcnt n f }

/-- FCNT_START (R430, R441): the manager's write of CLK_FCNT_CTL. START 1 begins a measurement, 0 aborts one; the other fields are fixed while START
is 1. -/
def execFcntStart (q : Fin 4) (n : Fin 4) (value : Word) (s : State) : Res := s.clocked fun s =>
  if !s.dev.isManager q then .next s
  else
    let v := value.toNat
    .next (s.updFcnt n fun c =>
      if c.start then { c with start := bit v 31 }
      else
        let c := { c with gate := clampNat 8 24 (fld v 28 24), ref := fld v 21 16, meas := fld v 13 8 }
        if bit v 31 then { c with start := true, done := false, sat := false, count := 0 } else c)

/-- Whether the island that holds a clock domain is powered, and whether the domain has edges (R33, R430, R431). -/
def Dev.domainOn (d : Dev) (n : Nat) : Bool :=
  if n ≤ 1 then true
  else if n ≤ 8 then d.islandOn (([0, 0, 2, 8, 17, 3, 1, 22, 23] : List Nat).getD n 0)
  else if n ≤ 24 then decide ((n - 9) % 8 < d.nHeads) && d.islandOn (18 + (n - 9) % 8 / 2)
  else if n ≤ 28 then d.islandOn (4 + (n - 25))
  else if n ≤ 30 then d.islandOn (24 + (n - 29))
  else decide (n ≤ 34) && d.islandOn 22
@[inherit_doc Dev.domainOn] def Dev.domainRuns (d : Dev) (n : Nat) : Bool :=
  d.domainOn n && (n != 0 || d.slpclk) && !(decide (31 ≤ n) && match fin? 4 (n - 31) with | some p => (at' d.audio.tdm p).clkLost | none => false)

/-- FCNT_DONE (R430): the gate closes on the number of MEAS edges seen, 0 of an unpowered domain; without edges of REF it does not close. -/
def execFcntDone (n : Fin 4) (edges : Nat) (s : State) : Res := s.clocked fun s =>
  .next (s.updFcnt n fun c =>
    if c.start && !c.done && s.dev.domainRuns c.ref then
      let k := if s.dev.domainOn c.meas then edges else 0
      { c with done := true, sat := decide (2 ^ 32 ≤ k), count := min 0xFFFFFFFF k }
    else c)

/-! Monitors (R434, R436) -/

/-- Whether a sensor's island is powered (R434, R441). -/
def Dev.sensorOn (d : Dev) (k : Nat) : Bool :=
  if k = 0 then d.islandOn 1 else if k = 1 then d.islandOn 2 else if k ≤ 5 then d.islandOn 8 else if k = 6 then d.islandOn 3
  else ([18, 19, 20, 21] : List Nat).any d.islandOn

/-- TEMP_SAMPLE (R434, R441): the sensors' readings in 1/16 degree, and VAON in 10 mV. A sensor that rises through WARN raises TEMP_WARN, and again only
after it has fallen below WARN - HYST. -/
def execTempSample (temps : Vector (BitVec 16) 8) (vaon : Nat) (s : State) : Res := s.clocked fun s =>
  let s := s.updPower fun p => { p with vaonNow := min 1023 vaon }
  let c := s.dev.reg 0x1B054
  let warn : Int := 16 * (fld c 23 16 : Nat)
  let low : Int := warn - 16 * (fld c 11 8 : Nat)
  .next (s.each (allFin 8) fun s k =>
    let t := (at' temps k).toInt
    let x := at' s.dev.power.sensors k
    if !s.dev.sensorOn k.val then s.updPower fun p => { p with sensors := put p.sensors k { x with valid := false } }
    else
      let fire := x.armed && decide (warn ≤ t)
      let s := s.updPower fun p => { p with sensors := put p.sensors k { valid := true, temp := t, armed := if fire then false else x.armed || decide (t < low) } }
      if fire then s.postManager 0x40 0x0E01 k.val (dataBytes [(16, 2, unsigned 16 t)]) else s)

/-- VAON_WARN_START (R436, R419): VAON falls through 2.40 V; every haptic channel trips. -/
def execVaonWarnStart (s : State) : Res :=
  if !s.dev.power.vaonOk || s.dev.power.vaonWarn then .next s
  else
    let s := s.updPower fun p => { p with vaonWarn := true }
    .next (if s.dev.alive then s.each (allFin 8) fun s c => s.hapTrip c 5 else s)

/-- VAON_WARN_END (R436): VAON rises through 2.45 V: a record, PWR_VAON and SUPPLY_WARN with the minimum in 10 mV and the duration in SLPCLK cycles. In
WATCH the event is lost. -/
def execVaonWarnEnd (low cycles : Nat) (s : State) : Res :=
  if !s.dev.power.vaonOk || !s.dev.power.vaonWarn then .next s
  else
    let s := s.onDev fun d => { d with power := { d.power with vaonWarn := false }, haptics := { d.haptics with warnEnd := d.devtime } }
    if !s.dev.slpclk then .next s
    else
      let s := s.updPower fun p => { p with dipMin := min 1023 low, dipCycles := min 0xFFFFFFFF cycles }
      let s := s.cocoon 0x1001 sevWarning 0x40 (bytesOf 2 low ++ bytesOf 2 0 ++ bytesOf 4 cycles)
      .next (if s.dev.alive then s.postManager 0x40 0x0E00 0 (dataBytes [(16, 2, low), (20, 4, min 0xFFFFFFFF cycles)]) else s)

end Sys2Proof.Machine
end

