-- ==== Sys2Proof/Machine/Epoch.lean ====
section
/-! DEFINITION. Machine/Epoch.lean: the epoch boundary, and the adoption of ring time (R27, R31, R47-R53, R113, R352). -/
namespace Sys2Proof.Machine

/-! Reclaiming GFX (R47) -/

/-- GFX credits that the free pool lacks of what is owed, less those of clusters whose saves are under way. -/
def State.gfxDeficit (s : State) : Nat :=
  let a := s.skein.acct .gfx
  let coming := ((allFin 16).filter fun c => (s.cluster c).saving && (s.cluster c).job.isSome).length
  a.owedSum - a.free - 500 * coming

/-- Clusters to preempt: those of jobs whose ply holds more than its GUAR, class C first, then B, then A, the most recently placed first, until `n` are
chosen. `over` is what each ply still holds above its GUAR. -/
def chooseReclaim : List (Nat × Fin 16) → List (Nat × Nat) → Nat → List (Fin 16)
  | [], _, _ => []
  | _, _, 0 => []
  | (p, c) :: t, ended, n + 1 =>
    let x := Map.get ended 0 p
    if x = 0 then chooseReclaim t ended (n + 1) else c :: chooseReclaim t (Map.ins ended p (x - 500)) n

/-- Clusters of a ply's jobs whose saves are under way. -/
def State.savingOf (s : State) (p : Fin 64) : Nat :=
  ((allFin 16).filter fun c => (s.cluster c).saving && match (s.cluster c).job.bind s.dev.job with
    | some j => j.ply == p
    | none => false).length

/-- R47: the raster engine preempts borrowing jobs until the deficit is covered. What a ply holds above its GUAR counts without the clusters that are
being saved already. -/
def State.reclaimGfx (s : State) : State :=
  let n := ceilDiv s.gfxDeficit 500
  let a := s.skein.acct .gfx
  let vs := (allFin 16).filterMap fun c =>
    let k := s.cluster c
    match k.job.bind s.dev.job with
    | some j => if k.saving then none else some ((3 - (s.ply j.ply).cls.code, k.placed), j.ply.val, c)
    | none => none
  let vs := (sortBy (fun (x y : (Nat × Nat) × Nat × Fin 16) => decide (x.1.1 < y.1.1) || (x.1.1 == y.1.1 && decide (y.1.2 ≤ x.1.2))) vs).map (·.2)
  let ended := allPlies.map fun p => (p.val, at' a.hold (plyHolder p) - 500 * s.savingOf p - at' a.guar (plyHolder p))
  if n = 0 then s else s.preempt (chooseReclaim vs ended n) none

/-! The boundary -/

/-- R50 steps 1 and 2: the snapshot, with LEDGER_BREACH where the credits do not add up (R51); all MEM returns. -/
def State.auditEpoch (s : State) (epoch : Nat) : State :=
  let (k, breach) := s.skein.snapshot epoch
  let s := { s with skein := k }
  let s := match breach with | some (i, d) => s.ledgerBreach i d | none => s
  s.onSkein Skein.returnMem

/-- R50 steps 3 and 4: shares and reservations swap in, with SHARE_APPLIED (R113); RESV_LIVE is reevaluated and a change reported (R48). -/
def State.swapEpoch (s : State) : State :=
  let s := s.onSkein Skein.swapShares
  let s := s.each (allPlies.filter fun p => (s.ply p).shareDue) fun s p =>
    let s := s.updPly p fun y => { y with shareDue := false, shareBase := [] }
    if (s.ply p).state = .absent then s else s.postBoth p 0x0103 0 []
  let was := s.skein.resvLive
  let s := s.onSkein fun k => k.reevaluate s.dev.isClassA
  s.each (allPlies.filter fun p => at' was p != at' s.skein.resvLive p) fun s p => s.postManager p.val 0x0201 0 []

/-- Everything that swaps at an epoch boundary besides the Skein (R27): registers, check units, memory controller, power; the raster engine reclaims;
the audio block runs its block (R364). -/
def State.swapRest (s : State) (io : AudioIn) : State :=
  let fixed := bit (s.dev.active 0x1600C) 31
  let s := s.onDev fun d => ((d.swapRegs fun r _ => r.kind == .epoch).checksEpoch).mcEpoch fixed
  let s := s.onDev fun d => { d with bist := { d.bist with thisEpoch := [] } }
  (s.reclaimGfx.drainSaves.powerEpoch).audioBlock io

/-- A boundary at a DEVTIME: the audio block in hand ends, and the new epoch begins. -/
def State.boundaryAt (s : State) (t : Nat) (io : AudioIn) : State :=
  let s := s.endBlock.onDev fun d => { d with devtime := t, lastEpoch := t }
  ((s.auditEpoch (t / 500000)).swapEpoch).swapRest io

/-- EPOCH_BOUNDARY (R27, R31, R50): REFCLK0 cycles pass until DEVTIME reaches the next multiple of 500,000 ns. `io` are the audio samples that
converters give (R367). -/
def execEpochBoundary (io : AudioIn) (s : State) : Res := s.clocked fun s => .next (s.boundaryAt ((s.dev.devtime / 500000 + 1) * 500000) io)

/-- Converted audio of a boundary that no command brings: free values (R367, R372; log entries 3, 103). -/
def AudioIn.free (n : Nat) : AudioIn :=
  let sample := fun k => signed 32 (Config.freeWord (n + k)).toNat
  { inputs := (List.range 64).map fun i => (i, (List.range blockLen).map fun k => sample (blockLen * i + k)),
    conv := Vector.ofFn fun p => (List.range ((Config.freeWord (n + 3072 + p.val)).toNat % (blockLen + 1))).map fun f =>
      (List.range 16).map fun k => sample (3084 + 16 * (blockLen * p.val + f) + k),
    slips := Vector.ofFn fun p => (Config.freeWord (n + 3076 + p.val)).toNat }

/-- One REFCLK0 cycle (R31): DEVTIME advances by 10 ns. On the edge at which it reaches a multiple of 500,000 ns the epoch boundary happens (R27), and
before any frame boundary of the same edge (R29). While the clocked part stands still nothing happens. -/
def State.idle (s : State) : State :=
  let t := s.dev.devtime + 10
  if !s.dev.alive then s
  else if t / 500000 = s.dev.devtime / 500000 then s.onDev fun d => { d with devtime := t }
  else (s.onDev fun d => { d with fresh := d.fresh + 8192 }).boundaryAt t (AudioIn.free s.dev.fresh)

/-- Instants from which the device times intervals move with DEVTIME when ring time is adopted, so that the intervals keep their length in REFCLK0 cycles
(R353): token buckets, restarts, arming, requests in the memory controller, the scan of the heads, touch, haptics. Absolute values stay. -/
def Dev.keepIntervals (d : Dev) (by_ : Nat) : Dev :=
  { d with
    buckets := d.buckets.map fun b => { b with last := b.last + by_ },
    ely := { d.ely with restartAt := d.ely.restartAt.map (· + by_) },
    plies := d.plies.map fun y => { y with rings := y.rings.map fun g => { g with queue := g.queue.map fun f => { f with armedAt := f.armedAt.map (· + by_) } } },
    gfx := { d.gfx with jobs := d.gfx.jobs.map fun j => { j with armed := j.armed + by_ } },
    mc := { d.mc with chans := d.mc.chans.map fun c => { c with queue := c.queue.map fun r => { r with accepted := r.accepted + by_ } } },
    carder := { d.carder with heads := d.carder.heads.map fun x => { x with since := x.since + by_ } },
    touch := { d.touch with panels := d.touch.panels.map fun x =>
      { x with scan := x.scan.map fun c => { c with start := c.start + by_ },
               contacts := x.contacts.map fun c => { c with since := c.since + by_, persist := c.persist + by_ } } },
    haptics := { d.haptics with warnEnd := d.haptics.warnEnd + by_, chans := d.haptics.chans.map fun x =>
      { x with wait := x.wait.map fun w => { w with since := w.since + by_ }, trips := x.trips.map fun e => (e.1, e.2 + by_) } } }

/-- WHL_ADOPT (R31, R352, R353): the device adopts ring time on an epoch boundary, never backwards, and raises WHORL_REPAIR kind 0x6. -/
def execWhlAdopt (io : AudioIn) (s : State) : Res := s.clocked fun s =>
  match s.dev.whorl.adopt with
  | none => .next s
  | some t =>
    let s := s.updWhorl fun w => { w with adopt := none, timed := true }
    if t ≤ s.dev.devtime then .next s
    else
      let edge := (s.dev.devtime / 500000 + 1) * 500000
      .next (((s.onDev (·.keepIntervals (t - edge))).boundaryAt t io).whorlRepair 0xFF 0x6 s.dev.whorl.ringId 0)

end Sys2Proof.Machine
end

