-- ==== Sys2Proof/Machine/Waves.lean ====
section
/-! DEFINITION. Machine/Waves.lean: a wave issues its next instruction: fetch, the fields of R244, operands of R245, the failures of R246, and the
operations that the four formats share. A row's command names a cluster and a wave; it has its effect when that wave's next instruction is the
row's, and none otherwise (log entry 65). -/
namespace Sys2Proof.Machine

/-! Instruction words (R243, R244) -/

/-- Opcodes that each format defines (R247-R251). -/
def insDefined (fmt op : Nat) : Bool :=
  let rng := fun (a b : Nat) => decide (a ≤ op) && decide (op ≤ b)
  match fmt with
  | 0 => rng 0 0x1A || rng 0x20 0x2A || rng 0x40 0x45 || rng 0x50 0x56 || rng 0x60 0x69 || rng 0x70 0x81 || op == 0x90
  | 1 => rng 0 0x0E || rng 0x20 0x26 || rng 0x40 0x4D || rng 0x60 0x66
  | 2 => rng 0 1 || rng 0x10 0x11 || rng 0x20 0x21 || rng 0x30 0x31 || rng 0x40 0x4A || rng 0x60 0x63
  | _ => rng 0 3

/-- An instruction that a wave issues: its cluster, job and wave, the word, the literal, and the address after it. -/
structure Issue where
  c    : Fin 16
  job  : Job
  wave : Wave
  ins  : Nat
  lit  : Option Nat
  next : Nat

/-- Bits [hi:lo] of the instruction word. -/
def Issue.f (i : Issue) (hi lo : Nat) : Nat := fld i.ins hi lo

/-- What a fetch gives. -/
inductive Fetched where
  | fault (addr : Nat)
  | ins (word : Nat) (lit : Option Nat) (next : Nat)

/-- The word at a wave's program counter and its literal, out of the code as it stood when the job started (R243). -/
def State.fetch (s : State) (j : Job) (pc : Nat) : Fetched :=
  match s.codeBytes j pc 8 with
  | none => .fault pc
  | some bs =>
    let w := le64 bs 0
    if bit w 48 then
      match s.codeBytes j (pc + 8) 4 with
      | none => .fault (pc + 8)
      | some l => .ins w (some (le32 l 0)) (pc + 12)
    else .ins w none (pc + 8)

/-- Numbers of the 64-byte lines that some ranges touch, each once. -/
def lineList (rs : List (Nat × Nat)) : List Nat := (rs.flatMap fun r => (unitsIn r.1 r.2).map (· / 64)).eraseDups

/-- Address ranges of lines. -/
def lineRanges64 (ls : List Nat) : List (Nat × Nat) := ls.map fun u => (64 * u, 64)

/-- The instruction cache of a cluster gets the lines of an address range, 16 KiB at most: MEM for those that it lacks (R44, R235, R243). None where the
take is refused. -/
def State.fillCode (s : State) (c : Fin 16) (p : Fin 64) (addr n : Nat) : Option State :=
  let miss := (lineList [(addr, n)]).filter fun u => !(s.cluster c).icache.contains u
  if miss.isEmpty then some s
  else (s.takeMem (plyHolder p) miss.length (lineRanges64 miss)).map fun s =>
    s.updCluster c fun k => { k with icache := (miss.reverse ++ k.icache).take 256 }

/-- The texture cache of a cluster gets the lines of some ranges, 32 KiB at most (R44, R225, R235). -/
def State.fillTex (s : State) (c : Fin 16) (p : Fin 64) (rs : List (Nat × Nat)) : Option State :=
  let miss := (lineList rs).filter fun u => !(s.cluster c).tcache.contains u
  if miss.isEmpty then some s
  else (s.takeMem (plyHolder p) miss.length (lineRanges64 miss)).map fun s =>
    s.updCluster c fun k => { k with tcache := (miss.reverse ++ k.tcache).take 512 }

/-- A wave of a cluster. -/
def Cluster.wave (k : Cluster) (w : Nat) : Option Wave := k.ctx.waves.find? (·.id == w)

/-- The state with a wave replaced. -/
def State.setWave (s : State) (c : Fin 16) (w : Wave) : State :=
  s.updCluster c fun k => { k with ctx := { k.ctx with waves := k.ctx.waves.map fun x => if x.id = w.id then w else x } }

/-- The wave goes on at the next instruction. -/
def State.advance (s : State) (i : Issue) (w : Wave) : State := s.setWave i.c { w with pc := i.next }

/-- The job fails with BAD_FIELD (R246). -/
def State.badIns (s : State) (i : Issue) : State := s.stopJob i.job.order 0x02

/-- The row (fmt, op) issues on a wave: nothing while its cluster is being saved, it waits at BAR, or MEM for its code is refused; a translation fault of
the fetch faults the ply; an undefined instruction fails the job (R36, R46, R246). -/
def State.issue (s : State) (c : Fin 16) (w fmt op : Nat) (run : Issue → State → State) : Res := s.clocked fun s =>
  let k := s.cluster c
  match k.job with
  | none => .next s
  | some o => match s.dev.job o, k.wave w with
    | some j, some x =>
      if k.saving || x.barrier || j.ended.isSome then .next s
      else match s.fetch j x.pc with
        | .fault a => .next (s.faultAt j.ply a 8 false .raster)
        | .ins word lit next =>
          let i : Issue := { c := c, job := j, wave := x, ins := word, lit := lit, next := next }
          match s.fillCode c j.ply x.pc (next - x.pc) with
          | none => .next s
          | some t =>
            if !insDefined (i.f 63 62) (i.f 61 54) then .next (t.badIns i)
            else if i.f 63 62 = fmt ∧ i.f 61 54 = op then .next (run i t)
            else .next s
    | _, _ => .next s

/-! Registers and operands (R240, R245) -/

/-- A vector or scalar register: one at or above the allocated count reads 0 and ignores writes (R240). -/
def Wave.vreg (w : Wave) (r lane : Nat) : Nat := if r < w.stage.vregs then (Map.get w.v 0 (r * 32 + lane)).toNat else 0
@[inherit_doc Wave.vreg] def Wave.sreg (w : Wave) (r : Nat) : Nat := if r < w.stage.sregs then (Map.get w.s 0 r).toNat else 0
@[inherit_doc Wave.vreg] def Wave.setV (w : Wave) (r lane v : Nat) : Wave :=
  if r < w.stage.vregs then { w with v := Map.setD w.v 0 (r * 32 + lane) (word v) } else w
@[inherit_doc Wave.vreg] def Wave.setS (w : Wave) (r v : Nat) : Wave :=
  if r < w.stage.sregs then { w with s := Map.setD w.s 0 r (word v) } else w

/-- A predicate. -/
def Wave.pred (w : Wave) (i : Nat) : BitVec 32 := at' w.p ⟨i % 8, by omega⟩
@[inherit_doc Wave.pred] def Wave.setPred (w : Wave) (i : Nat) (v : BitVec 32) : Wave := { w with p := put w.p ⟨i % 8, by omega⟩ v }

/-- The inline FP32 constants and their FP16 bits (R245). -/
def inlineF32 (k : Nat) : Nat :=
  ([0x3F800000, 0xBF800000, 0x3F000000, 0x3E800000, 0x40000000, 0x40400000, 0x41000000, 0x437F0000, 0x3B808081, 0x3A802008] : List Nat).getD k 0
@[inherit_doc inlineF32] def inlineF16 (k : Nat) : Nat :=
  ([0x3C00, 0xBC00, 0x3800, 0x3400, 0x4000, 0x4200, 0x4800, 0x5BF8, 0x1C04, 0x1401] : List Nat).getD k 0

/-- Whether an operand code may stand in a vector instruction, or in a scalar one (R245, R246). -/
def codeOk (scalar : Bool) (lit : Option Nat) (code : Nat) : Bool :=
  if code < 0x100 then !scalar
  else if code < 0x1CA then true
  else if code = 0x1E0 then true
  else if code = 0x1E1 then !scalar
  else code == 0x1FF && lit.isSome

/-- The value of an operand for a lane; `half` reads an inline constant as FP16 in both halves (R245). -/
def Issue.src (i : Issue) (half : Bool) (code lane : Nat) : Nat :=
  if code < 0x100 then i.wave.vreg code lane
  else if code < 0x180 then i.wave.sreg (code - 0x100)
  else if code < 0x1A0 then code - 0x180
  else if code < 0x1C0 then 2 ^ 32 - 32 + (code - 0x1A0)
  else if code < 0x1CA then (if half then inlineF16 (code - 0x1C0) * 0x10001 else inlineF32 (code - 0x1C0))
  else if code = 0x1E0 then i.wave.amask.toNat
  else if code = 0x1E1 then lane
  else i.lit.getD 0

/-- Lanes that an instruction acts on: AMASK and the guard (R242, R244). -/
def Issue.active (i : Issue) : BitVec 32 :=
  if bit i.ins 53 then
    let p := i.wave.pred (i.f 52 50)
    i.wave.amask &&& (if bit i.ins 49 then ~~~p else p)
  else i.wave.amask

/-- Active lanes in rising order. -/
def lanesOf (m : BitVec 32) : List Nat := (List.range 32).filter fun l => m.getLsbD l

/-! Vector format -/

/-- How a vector instruction reads its sources and writes its result: sources used, an integer instruction, which sources are floats, packed FP16
sources A and B, and its result (0 bits, 1 FP32, 2 packed FP16). -/
structure VecKind where
  n     : Nat
  isInt : Bool
  fa    : Bool
  fb    : Bool
  fc    : Bool
  half  : Bool
  /-- Modifiers act on FP16 halves though an inline constant is read as FP32 (conversions from FP16). -/
  mod16 : Bool
  res   : Nat

/-- Integer instructions of one, two and three sources. -/
def int1 : VecKind := { n := 1, isInt := true, fa := false, fb := false, fc := false, half := false, mod16 := false, res := 0 }
@[inherit_doc int1] def int2 : VecKind := { int1 with n := 2 }
@[inherit_doc int1] def int3 : VecKind := { int1 with n := 3 }
/-- FP32 instructions of one, two and three sources. -/
def flt1 : VecKind := { n := 1, isInt := false, fa := true, fb := true, fc := true, half := false, mod16 := false, res := 1 }
@[inherit_doc flt1] def flt2 : VecKind := { flt1 with n := 2 }
@[inherit_doc flt1] def flt3 : VecKind := { flt1 with n := 3 }
/-- Packed FP16 instructions. -/
def half2 : VecKind := { flt2 with half := true, res := 2 }
@[inherit_doc half2] def half3 : VecKind := { flt3 with half := true, res := 2 }

/-- ABS and then NEG on a source (R244). -/
def fpModify (half neg abs : Bool) (v : Nat) : Nat :=
  if half then
    let one := fun h => let h := if abs then f16.abs h else h; if neg then f16.negate h else h
    one (v % 65536) + one (v / 65536) * 65536
  else let v := if abs then f32.abs v else v; if neg then f32.negate v else v

/-- Source `k` of a vector instruction for a lane, its modifiers applied. -/
def Issue.vsrc (i : Issue) (kd : VecKind) (k lane : Nat) : Nat :=
  let code := match k with | 0 => i.f 39 31 | 1 => i.f 30 22 | _ => i.f 21 13
  let isF := match k with | 0 => kd.fa | 1 => kd.fb | _ => kd.fc
  let half := kd.half && (k < 2 || kd.res == 2)
  let v := i.src half code lane
  if isF then fpModify (half || kd.mod16) (bit i.ins (10 + k)) (bit i.ins (7 + k)) v else v

/-- The checks of R246 on a vector instruction. -/
def Issue.vecOk (i : Issue) (kd : VecKind) : Bool :=
  i.f 3 0 == 0 && (!kd.isInt || i.f 12 4 == 0) && codeOk false i.lit (i.f 39 31) && (decide (kd.n < 2) || codeOk false i.lit (i.f 30 22)) &&
    (decide (kd.n < 3) || codeOk false i.lit (i.f 21 13))

/-- SAT after rounding (R244). -/
def Issue.satd (i : Issue) (kd : VecKind) (v : Nat) : Nat :=
  if !bit i.ins 6 then v
  else match kd.res with
    | 1 => f32.sat v
    | 2 => f16.sat (v % 65536) + f16.sat (v / 65536) * 65536
    | _ => v

/-- A vector instruction whose result goes to a vector register: `f` gets the rounding mode, the sources and the old value of D. -/
def State.vec (s : State) (c : Fin 16) (w op : Nat) (kd : VecKind) (f : Nat → Nat → Nat → Nat → Nat → Nat) : Res :=
  s.issue c w 0 op fun i s =>
    if !i.vecOk kd then s.badIns i
    else
      let d := i.f 47 40
      let x := (lanesOf i.active).foldl (fun (x : Wave) l =>
        x.setV d l (i.satd kd (f (i.f 5 4) (i.vsrc kd 0 l) (i.vsrc kd 1 l) (i.vsrc kd 2 l) (i.wave.vreg d l)))) i.wave
      s.advance i x

/-- A compare: the predicate bits of active lanes (R247). -/
def State.vecCmp (s : State) (c : Fin 16) (w op : Nat) (kd : VecKind) (f : Nat → Nat → Bool) : Res :=
  s.issue c w 0 op fun i s =>
    if !i.vecOk kd then s.badIns i
    else
      let act := i.active
      let bits := laneMask fun l => act.getLsbD l && f (i.vsrc kd 0 l) (i.vsrc kd 1 l)
      s.advance i (i.wave.setPred (i.f 42 40) ((i.wave.pred (i.f 42 40) &&& ~~~act) ||| bits))

/-- Both halves of packed operands. -/
def halves (f : Nat → Nat → Nat → Nat) (a b c : Nat) : Nat :=
  f (a % 65536) (b % 65536) (c % 65536) + f (a / 65536) (b / 65536) (c / 65536) * 65536

/-! Scalar format -/

/-- A scalar instruction of `n` sources: GEN must be 0 and no source may be a vector (R244, R246). -/
def State.scl (s : State) (c : Fin 16) (w op n : Nat) (run : Issue → Nat → Nat → State → State) : Res :=
  s.issue c w 1 op fun i s =>
    if bit i.ins 53 || (decide (1 ≤ n) && !codeOk true i.lit (i.f 40 32)) || (decide (2 ≤ n) && !codeOk true i.lit (i.f 31 23)) then s.badIns i
    else run i (i.src false (i.f 40 32) 0) (i.src false (i.f 31 23) 0) s

/-- A scalar result. -/
def State.sclOp (s : State) (c : Fin 16) (w op n : Nat) (f : Nat → Nat → Nat) : Res :=
  s.scl c w op n fun i a b s => s.advance i (i.wave.setS (i.f 47 41) (f a b))

/-- A predicate instruction: its sources are predicates (R247). -/
def State.sclPred (s : State) (c : Fin 16) (w op : Nat) (f : BitVec 32 → BitVec 32 → BitVec 32) : Res :=
  s.scl c w op 0 fun i _ _ s =>
    s.advance i (i.wave.setPred (i.f 43 41) (f (i.wave.pred (i.f 34 32)) (i.wave.pred (i.f 25 23))))

/-- SIMM, signed (R244). -/
def Issue.simm (i : Issue) : Int := signed 23 (i.f 22 0)

/-- Target of a branch: dwords from the address after it (R243). -/
def Issue.target (i : Issue) : Nat := unsigned 40 ((i.next : Int) + 4 * i.simm)

/-- The wave goes on at an address. -/
def State.jump (s : State) (i : Issue) (w : Wave) (pc : Nat) : State := s.setWave i.c { w with pc := pc }

/-- A control instruction that branches by SIMM where its test holds. -/
def State.branch (s : State) (c : Fin 16) (w op n : Nat) (take : Issue → Nat → Bool) : Res :=
  s.scl c w op n fun i a _ s => if take i a then s.jump i i.wave i.target else s.advance i i.wave

/-- The predicate that SRC0 of a control instruction names. -/
def Issue.p0 (i : Issue) : BitVec 32 := i.wave.pred (i.f 34 32)

/-- A push onto the reconvergence stack; none where it is full (R248). -/
def Wave.push (w : Wave) (e : StackEntry) : Option Wave := if 16 ≤ w.stack.length then none else some { w with stack := e :: w.stack }

/-! Waves that end -/

/-- A vertex wave's exports go into its draw (R214, R250). -/
def vertexOuts (w : Wave) (d : Draw) (inst first count : Nat) : Draw :=
  let one := fun (outs : Map VertOut) (l : Nat) =>
    if w.live.getLsbD l then
      Map.ins outs (inst * d.count + first + l)
        { pos := (Map.find w.outs (l * 32)).getD [],
          vars := (List.range 16).filterMap fun v => (Map.find w.outs (l * 32 + 1 + v)).map fun x => (v, x) }
    else outs
  { d with outs := (List.range count).foldl one d.outs, inFlight := d.inFlight - 1 }

/-- A fragment wave's results (R212, R213, R250): every covered, unkilled fragment with its exports. -/
def fragmentOuts (w : Wave) (f : FragWave) (late : Bool) : List FragOut :=
  (f.quads.zipIdx).flatMap fun q => (List.range 4).filterMap fun l =>
    let lane := 4 * q.2 + l
    let x := atD q.1.lanes l { cover := 0, depth := [], z := 0, invw := 0, vars := [] }
    if x.cover = 0 || w.killed.getLsbD lane then none
    else
      let depth := match Map.find w.outs (lane * 32 + 16) with
        | some (z :: _) => [z, z, z, z]
        | _ => x.depth
      some { order := f.order * 64 + lane, pixel := q.1.pixel l, cover := x.cover, late := late, depth := depth, draw := f.draw,
             colours := (List.range 4).filterMap fun k => (Map.find w.outs (lane * 32 + k)).map fun v => (k, v) }

/-- Whether a wave belongs to a workgroup. -/
def Wave.inGroup (w : Wave) (g : Nat) : Bool := match w.work with
  | .compute h => h == g
  | _ => false

/-- Waves of a workgroup leave BAR once every one that has not ended waits there (R248; log entry 66). -/
def Context.releaseBar (x : Context) (g : Nat) : Context :=
  if (x.waves.filter (·.inGroup g)).all (·.barrier) then
    { x with waves := x.waves.map fun w => if w.inGroup g then { w with barrier := false } else w }
  else x

/-- A wave ends: its results pass on, and the cluster takes what then fits (R237, R248). -/
def State.endWave (s : State) (c : Fin 16) (j : Job) (w : Wave) : State :=
  let s := s.updCluster c fun k => { k with ctx := { k.ctx with waves := k.ctx.waves.filter (·.id != w.id) } }
  let s := match w.work with
    | .vertex n inst first count => s.updPass j.order fun pa =>
        { pa with draws := (pa.draws.zipIdx).map fun (d, i) => if i = n then vertexOuts w d inst first count else d }
    | .fragment f _ _ late => s.updCluster c fun k => { k with ctx := { k.ctx with outs := k.ctx.outs ++ fragmentOuts w f late } }
    | .compute g => s.updCluster c fun k =>
        let x := k.ctx.releaseBar g
        { k with ctx := { x with groups := if x.waves.any (·.inGroup g) then x.groups else x.groups.filter (·.id != g) } }
  s.pump j.order

end Sys2Proof.Machine
end

