-- ==== Sys2Proof/Machine/MemIns.lean ====
section
/-! DEFINITION. Machine/MemIns.lean: the MEM rows: loads and stores in the global, buffer and local address spaces, pixel-local storage, atomics
and stage outputs (R249, R250, R252, R254-R256). -/
namespace Sys2Proof.Machine

/-! Fields and lanes -/

/-- Bytes of an access; none for the widths the field does not list (R244). -/
def accessBytes (width : Nat) : Option Nat :=
  match width with
  | 0 => some 1 | 1 => some 2 | 2 => some 4 | 3 => some 8 | 4 => some 12 | 5 => some 16
  | _ => none

/-- Alignment that the address is taken down to: the access width, up to 16 bytes; 96 bits align as 128 (R249). -/
def accessAlign (n : Nat) : Nat := if n = 12 then 16 else n

/-- OFFSET, signed. -/
def Issue.offset (i : Issue) : Int := signed 19 (i.f 18 0)

/-- Whether the lane is a helper lane: its stores, atomics, exports and pixel-local writes are discarded (R237). -/
def WaveWork.helper (k : WaveWork) (lane : Nat) : Bool :=
  match k with
  | .fragment f _ _ _ => match f.quads[lane / 4]? with
    | some q => (atD q.lanes (lane % 4) { cover := 0, depth := [], z := 0, invw := 0, vars := [] }).cover == 0
    | none => true
  | _ => false

/-- Active lanes whose writes count. -/
def Issue.writers (i : Issue) : List Nat := (lanesOf i.active).filter fun l => !i.wave.work.helper l

/-- A lane's address sum: VADDR + OFFSET. -/
def Issue.sum (i : Issue) (lane : Nat) : Int := (i.wave.vreg (i.f 39 32) lane : Int) + i.offset

/-- A lane's global address (R249). -/
def Issue.gAddr (i : Issue) (n lane : Nat) : Nat :=
  let b := i.f 31 24
  let base : Nat := i.wave.sreg b + 2 ^ 32 * i.wave.sreg (b + 1)
  unsigned 40 ((base : Int) + i.sum lane) / accessAlign n * accessAlign n

/-- A lane's offset in a space of `size` bytes, or none where any byte of the access lies outside (R249). -/
def Issue.within (i : Issue) (size n lane : Nat) : Option Nat :=
  let o := i.sum lane
  if o < 0 then none
  else
    let o := o.toNat / accessAlign n * accessAlign n
    if o + n ≤ size then some o else none

/-- Words of VDATA onward that an access fills, out of its bytes: 8 and 16 bits extend by SX (R244). -/
def loadWords (sx : Bool) (bs : List Byte) : List Nat :=
  match bs.length with
  | 1 => [if sx then unsigned 32 (signed 8 (byteAt bs 0)) else byteAt bs 0]
  | 2 => [if sx then unsigned 32 (signed 16 (le16 bs 0)) else le16 bs 0]
  | n => (List.range (n / 4)).map fun k => le32 bs (4 * k)

/-- A lane's registers from VDATA on take words. -/
def Wave.putWords (w : Wave) (r lane : Nat) (vs : List Nat) : Wave := (vs.zipIdx).foldl (fun (w : Wave) e => w.setV (r + e.2) lane e.1) w

/-- A lane's bytes to be stored from VDATA on. -/
def Issue.dataBytes (i : Issue) (n lane : Nat) : List Byte :=
  ((List.range (ceilDiv n 4)).flatMap fun k => bytesOf 4 (i.wave.vreg (i.f 47 40 + k) lane)).take n

/-! Global memory (R249, R255) -/

/-- 64-byte units that a list of accesses touches, each once. -/
def unitList (as : List Nat) (n : Nat) : List Nat :=
  (as.flatMap fun a => (List.range (unitsOf a n)).map fun k => a / 64 + k).eraseDups

/-- A byte that a cluster loads: out of its L1 where the line is there. -/
def Cluster.l1Byte (k : Cluster) (a : Nat) : Option Byte := (Map.find k.l1 (a / 64)).map fun l => l.getD (a % 64) 0

/-- Loads of `n` bytes at device addresses on a cluster: through the L1 unless `dev`. A translation fault faults the ply; refused MEM credits
leave the wave where it is. Answers none in those cases, with the state. -/
def State.loadAt (s : State) (i : Issue) (dev : Bool) (as : List Nat) (n : Nat) : State × Option (List (List Byte)) :=
  match s.firstUnreachable i.job.ply false (as.map fun a => (a, n)) with
  | some (a, n) => (s.faultAt i.job.ply a n false .raster, none)
  | none =>
    let l1 := (s.cluster i.c).l1
    let miss := (unitList as n).filter fun u => dev || (Map.find l1 u).isNone
    match s.takeMem (plyHolder i.job.ply) miss.length (lineRanges64 miss) with
    | none => (s, none)
    | some s =>
      let lines := miss.map fun u => (u, (s.plyRead i.job.ply (64 * u) 64).getD [])
      let s := if dev then s else s.updCluster i.c fun k => { k with l1 := (lines.reverse ++ k.l1).take 1024 }
      let byte := fun a => match Map.find lines (a / 64) with
        | some l => l.getD (a % 64) 0
        | none => ((s.cluster i.c).l1Byte a).getD (((s.plyRead i.job.ply a 1).getD []).getD 0 0)
      (s, some (as.map fun a => (List.range n).map fun k => byte (a + k)))

/-- MEM credits of lanes' stores: 1 per whole unit, 2 per unit written in part (R285). -/
def storeCost (ws : List (Nat × List Byte)) : Nat :=
  let bytes := (ws.flatMap fun w => (List.range w.2.length).map fun k => w.1 + k).eraseDups
  (((bytes.map (· / 64)).eraseDups).map fun u => if (bytes.filter fun b => b / 64 = u).length = 64 then 1 else 2).sum

/-- A store's bytes also go into the copy of their line in the cluster's own L1 (R255). -/
def Cluster.storeL1 (k : Cluster) (a : Nat) (bs : List Byte) : Cluster :=
  { k with l1 := k.l1.map fun e => (e.1, e.2.zipIdx.map fun x =>
      if a ≤ e.1 * 64 + x.2 ∧ e.1 * 64 + x.2 < a + bs.length then bs.getD (e.1 * 64 + x.2 - a) 0 else x.1) }

/-- A cluster's L1 without the lines that atomics have changed in DRAM, which a lane's or a workgroup's later loads must see (R254-R256). -/
def Cluster.dropL1 (k : Cluster) (as : List Nat) : Cluster := { k with l1 := k.l1.filter fun e => !(unitList as 4).contains e.1 }

/-- Stores at device addresses in ascending lane order, written through to DRAM; none where the wave stays where it is or the ply faults. -/
def State.storeAt (s : State) (i : Issue) (l1 : Bool) (ws : List (Nat × List Byte)) : State × Bool :=
  match s.firstUnreachable i.job.ply true (ws.map fun w => (w.1, w.2.length)) with
  | some (a, n) => (s.faultAt i.job.ply a n true .raster, false)
  | none =>
    match s.takeMem (plyHolder i.job.ply) (storeCost ws) (ws.map fun w => (w.1, w.2.length)) with
    | none => (s, false)
    | some t =>
      match t.plyWrites i.job.ply .raster ws with
      | none => (s, false)
      | some t => (if l1 then ws.foldl (fun t w => t.updCluster i.c fun k => k.storeL1 w.1 w.2) t else t, true)

/-! Buffer entries (R252) -/

/-- A 32-byte entry of the stage's resource table as the texture cache has it (R225, R252); none on an unmapped page. -/
def State.resource (s : State) (i : Issue) (idx : Nat) : Option (List Byte) :=
  (s.over i.job.tex).plyRead i.job.ply (i.wave.stage.table + 32 * idx) 32

/-- A buffer entry: address and size; none where the instruction fails softly. -/
def bufferEntry (e : List Byte) : Option (Nat × Nat) :=
  let a := le64 e 8
  let n := le32 e 16
  if byteAt e 0 == 1 && zeroBytes e 1 7 && zeroBytes e 20 12 && decide (a < 2 ^ 40) && a % 4 == 0 && decide (4 ≤ n) && decide (n ≤ 2 ^ 31) && n % 4 == 0
  then some (a, n) else none

/-! Local data store -/

/-- The workgroup of a wave on its cluster. -/
def State.group (s : State) (i : Issue) : Option WorkGroup :=
  match i.wave.work with
  | .compute g => (s.cluster i.c).ctx.groups.find? (·.id == g)
  | _ => none

/-- Bytes of the local data store. -/
def WorkGroup.bytes (g : WorkGroup) (o n : Nat) : List Byte := (List.range n).map fun k => (Map.find g.lds (o + k)).getD (Config.freeByte g.seed (o + k))

/-- The local data store with bytes written. -/
def WorkGroup.write (g : WorkGroup) (o : Nat) (bs : List Byte) : WorkGroup :=
  { g with lds := (bs.zipIdx).foldl (fun m e => Map.ins m (o + e.2) e.1) g.lds }

/-- A workgroup changed on its cluster. -/
def State.setGroup (s : State) (c : Fin 16) (g : WorkGroup) : State :=
  s.updCluster c fun k => { k with ctx := { k.ctx with groups := k.ctx.groups.map fun x => if x.id = g.id then g else x } }

/-! Shared shapes -/

/-- A MEM instruction: an undefined WIDTH, an odd global BASE or a set reserved BASE fails the job. `base` is 0 reserved, 1 global pair, 2 index;
`sized` where the instruction uses WIDTH. -/
def State.mem (s : State) (c : Fin 16) (w op base : Nat) (sized : Bool) (run : Issue → Nat → State → State) : Res :=
  s.issue c w 2 op fun i s =>
    let b := i.f 31 24
    let base := if base = 3 then (if bit i.ins 19 then 1 else 0) else base
    let ok := match base with | 0 => b == 0 | 1 => b % 2 == 0 | _ => true
    match accessBytes (i.f 23 21) with
    | none => if sized || !ok then s.badIns i else run i 4 s
    | some n => if ok then run i (if sized then n else 4) s else s.badIns i

/-- The wave with a list of loaded lanes. -/
def Issue.loaded (i : Issue) (ls : List (Nat × List Byte)) : Wave :=
  ls.foldl (fun (x : Wave) l => x.putWords (i.f 47 40) l.1 (loadWords (bit i.ins 20) l.2)) i.wave

/-- A lane's bytes of zeros. -/
def zeros (n : Nat) : List Byte := List.replicate n 0

/-! Loads and stores, MEM 0x00-0x31 -/

/-- LD.G (R249). -/
def execLdG (c : Fin 16) (w : Nat) (s : State) : Res := s.mem c w 0x00 1 true fun i n s =>
  let ls := lanesOf i.active
  match s.loadAt i (bit i.ins 19) (ls.map (i.gAddr n)) n with
  | (s, none) => s
  | (s, some vs) => s.advance i (i.loaded (ls.zip vs))

/-- ST.G (R249, R254). -/
def execStG (c : Fin 16) (w : Nat) (s : State) : Res := s.mem c w 0x01 1 true fun i n s =>
  match s.storeAt i true (i.writers.map fun l => (i.gAddr n l, i.dataBytes n l)) with
  | (s, false) => s
  | (s, true) => s.advance i i.wave

/-- A buffer instruction with its entry: an unmapped table faults the ply; an entry that fails softly is none. It waits while MEM for the entry is
refused. -/
def State.withBuffer (s : State) (i : Issue) (run : Option (Nat × Nat) → State → State) : State :=
  let a := i.wave.stage.table + 32 * i.f 31 24
  match s.resource i (i.f 31 24) with
  | none => s.faultAt i.job.ply a 32 false .raster
  | some e => match s.fillTex i.c i.job.ply [(a, 32)] with
    | none => s
    | some s => run (bufferEntry e) s

/-- LD.B (R249, R252): a lane with any byte outside the buffer gets 0. -/
def execLdB (c : Fin 16) (w : Nat) (s : State) : Res := s.mem c w 0x10 2 true fun i n s => s.withBuffer i fun e s =>
  let ls := lanesOf i.active
  let at? := fun l => match e with | some (a, size) => (i.within size n l).map (a + ·) | none => none
  let ins := ls.filter fun l => (at? l).isSome
  match s.loadAt i (bit i.ins 19) (ins.map fun l => (at? l).getD 0) n with
  | (s, none) => s
  | (s, some vs) => s.advance i (i.loaded (ins.zip vs ++ (ls.filter fun l => (at? l).isNone).map fun l => (l, zeros n)))

/-- ST.B (R249, R252). -/
def execStB (c : Fin 16) (w : Nat) (s : State) : Res := s.mem c w 0x11 2 true fun i n s => s.withBuffer i fun e s =>
  let ws := i.writers.filterMap fun l => match e with
    | some (a, size) => (i.within size n l).map fun o => (a + o, i.dataBytes n l)
    | none => none
  match s.storeAt i true ws with
  | (s, false) => s
  | (s, true) => s.advance i i.wave

/-- LD.L (R249): out of range returns 0. -/
def execLdL (c : Fin 16) (w : Nat) (s : State) : Res := s.mem c w 0x20 0 true fun i n s =>
  let val := fun l => match s.group i with
    | some g => (match i.within g.size n l with | some o => g.bytes o n | none => zeros n)
    | none => zeros n
  s.advance i (i.loaded ((lanesOf i.active).map fun l => (l, val l)))

/-- ST.L (R249, R254): out of range writes nothing. -/
def execStL (c : Fin 16) (w : Nat) (s : State) : Res := s.mem c w 0x21 0 true fun i n s =>
  let s := s.advance i i.wave
  match s.group i with
  | none => s
  | some g => s.setGroup i.c (i.writers.foldl (fun g l => match i.within g.size n l with
      | some o => g.write o (i.dataBytes n l)
      | none => g) g)

/-- First word and number of words of a pixel-local access, or none where its width or word is not allowed (R249). -/
def Issue.plsWords (i : Issue) (n : Nat) : Option (Nat × Nat) :=
  let k := i.f 1 0
  match n with
  | 4 => some (k, 1)
  | 8 => if k % 2 = 0 then some (k, 2) else none
  | 16 => if k = 0 then some (0, 4) else none
  | _ => none

/-- Pixel of the tile of a fragment lane, where the pass has pixel-local storage on. -/
def Issue.plsPixel (i : Issue) (lane : Nat) : Option Nat :=
  match i.wave.work with
  | .fragment f _ _ _ => if (match i.job.pass with | some pa => pa.pls | none => false) then (f.quads[lane / 4]?).map fun q => q.pixel (lane % 4) else none
  | _ => none

/-- PLS.LD (R249): 0 outside a fragment shader in a pass with pixel-local storage. -/
def execPlsLd (c : Fin 16) (w : Nat) (s : State) : Res := s.mem c w 0x30 0 true fun i n s =>
  match i.plsWords n with
  | none => s.badIns i
  | some (k, m) =>
    let pls := (s.cluster i.c).ctx.pls
    s.advance i ((lanesOf i.active).foldl (fun (x : Wave) l => x.putWords (i.f 47 40) l ((List.range m).map fun j =>
      match i.plsPixel l with
      | some p => (Map.get pls 0 (4 * p + k + j)).toNat
      | none => 0)) i.wave)

/-- PLS.ST (R249): nothing outside a fragment shader in a pass with pixel-local storage. -/
def execPlsSt (c : Fin 16) (w : Nat) (s : State) : Res := s.mem c w 0x31 0 true fun i n s =>
  match i.plsWords n with
  | none => s.badIns i
  | some (k, m) =>
    let put := fun (pls : List (Nat × Word)) (l : Nat) => match i.plsPixel l with
      | some p => (List.range m).foldl (fun pls j => Map.setD pls 0 (4 * p + k + j) (word (i.wave.vreg (i.f 47 40 + j) l))) pls
      | none => pls
    (s.advance i i.wave).updCluster i.c fun cl => { cl with ctx := { cl.ctx with pls := i.writers.foldl put cl.ctx.pls } }

/-! Atomics, MEM 0x40-0x4A (R249, R254, R255) -/

/-- Lanes of an atomic on global memory, one after another in ascending order; the old value goes to VDATA where SX is 1. The lanes of `none` fail
softly: they return 0 and write nothing. -/
def State.atomicAt (s : State) (i : Issue) (at? : Nat → Option Nat) (f : Nat → Nat → Nat → Nat) : State :=
  let ls := i.writers
  let as := ls.filterMap at?
  let rs := as.map fun a => (a, 4)
  match s.firstUnreachable i.job.ply false rs, s.firstUnreachable i.job.ply true rs with
  | some (a, n), _ => s.faultAt i.job.ply a n false .raster
  | none, some (a, n) => s.faultAt i.job.ply a n true .raster
  | none, none =>
    match s.takeMem (plyHolder i.job.ply) (3 * (unitList as 4).length) rs with
    | none => s
    | some s =>
      let one := fun (acc : State × Wave) (l : Nat) =>
        let old := match at? l with
          | some a => le32 ((acc.1.plyRead i.job.ply a 4).getD []) 0
          | none => 0
        let s := match at? l with
          | some a => (acc.1.plyWrite i.job.ply .raster a (bytesOf 4 (f old (i.wave.vreg (i.f 47 40) l) (i.wave.vreg (i.f 47 40 + 1) l)))).getD acc.1
          | none => acc.1
        (s, if bit i.ins 20 then acc.2.setV (i.f 47 40) l old else acc.2)
      let (s, x) := ls.foldl one (s, i.wave)
      (s.advance i x).updCluster i.c (·.dropL1 as)

/-- Lanes of an atomic on the local data store. -/
def State.atomicLocal (s : State) (i : Issue) (f : Nat → Nat → Nat → Nat) : State :=
  let one := fun (acc : Option WorkGroup × Wave) (l : Nat) =>
    let o := match acc.1 with | some g => i.within g.size 4 l | none => none
    let old := match acc.1, o with | some g, some o => le32 (g.bytes o 4) 0 | _, _ => 0
    let g := match acc.1, o with
      | some g, some o => some (g.write o (bytesOf 4 (f old (i.wave.vreg (i.f 47 40) l) (i.wave.vreg (i.f 47 40 + 1) l))))
      | g, _ => g
    (g, if bit i.ins 20 then acc.2.setV (i.f 47 40) l old else acc.2)
  let (g, x) := i.writers.foldl one (s.group i, i.wave)
  let s := s.advance i x
  match g with
  | some g => s.setGroup i.c g
  | none => s

/-- An atomic: global where DEV is 1, local where DEV is 0 (R249). `f` gets the old value, VDATA and VDATA+1. -/
def State.atomic (s : State) (c : Fin 16) (w op : Nat) (f : Nat → Nat → Nat → Nat) : Res :=
  s.mem c w op 3 false fun i _ s => if bit i.ins 19 then s.atomicAt i (fun l => some (i.gAddr 4 l)) f else s.atomicLocal i f

/-- ATOM.ADD (R249). -/
def execAtomAdd (c : Fin 16) (w : Nat) (s : State) : Res := s.atomic c w 0x40 fun o v _ => (o + v) % 2 ^ 32
/-- ATOM.MIN.I (R249): signed. -/
def execAtomMinI (c : Fin 16) (w : Nat) (s : State) : Res := s.atomic c w 0x41 fun o v _ => if signed 32 v < signed 32 o then v else o
/-- ATOM.MIN.U (R249). -/
def execAtomMinU (c : Fin 16) (w : Nat) (s : State) : Res := s.atomic c w 0x42 fun o v _ => min o v
/-- ATOM.MAX.I (R249): signed. -/
def execAtomMaxI (c : Fin 16) (w : Nat) (s : State) : Res := s.atomic c w 0x43 fun o v _ => if signed 32 o < signed 32 v then v else o
/-- ATOM.MAX.U (R249). -/
def execAtomMaxU (c : Fin 16) (w : Nat) (s : State) : Res := s.atomic c w 0x44 fun o v _ => max o v
/-- ATOM.AND (R249). -/
def execAtomAnd (c : Fin 16) (w : Nat) (s : State) : Res := s.atomic c w 0x45 fun o v _ => Nat.land o v
/-- ATOM.OR (R249). -/
def execAtomOr (c : Fin 16) (w : Nat) (s : State) : Res := s.atomic c w 0x46 fun o v _ => Nat.lor o v
/-- ATOM.XOR (R249). -/
def execAtomXor (c : Fin 16) (w : Nat) (s : State) : Res := s.atomic c w 0x47 fun o v _ => Nat.xor o v
/-- ATOM.XCHG (R249). -/
def execAtomXchg (c : Fin 16) (w : Nat) (s : State) : Res := s.atomic c w 0x48 fun _ v _ => v
/-- ATOM.CAS (R249): stores VDATA+1 if the old value equals VDATA. -/
def execAtomCas (c : Fin 16) (w : Nat) (s : State) : Res := s.atomic c w 0x49 fun o v n => if o = v then n else o

/-- ATOM.ADD.B (R249, R252): ATOM.ADD with buffer addressing. -/
def execAtomAddB (c : Fin 16) (w : Nat) (s : State) : Res := s.mem c w 0x4A 2 false fun i _ s => s.withBuffer i fun e s =>
  s.atomicAt i (fun l => match e with | some (a, size) => (i.within size 4 l).map (a + ·) | none => none) fun o v _ => (o + v) % 2 ^ 32

/-! Stage outputs, MEM 0x60-0x63 (R249, R250) -/

/-- An export of `n` words into a slot, in the stage that allows it; a later export to the slot replaces the earlier one. -/
def State.export' (s : State) (c : Fin 16) (w op : Nat) (frag : Bool) (slot : Issue → Nat) (n : Nat) : Res :=
  s.mem c w op 0 false fun i _ s =>
    let ok := match i.wave.work with
      | .vertex _ _ _ _ => !frag
      | .fragment _ _ _ _ => frag
      | .compute _ => false
    if !ok then s.badIns i
    else
      let outs := i.writers.foldl (fun m l =>
        Map.ins m (l * 32 + slot i) ((List.range n).map fun k => word (i.wave.vreg (i.f 47 40 + k) l))) i.wave.outs
      s.advance i { i.wave with outs := outs }

/-- OUT.POS (R249): the clip position. -/
def execOutPos (c : Fin 16) (w : Nat) (s : State) : Res := s.export' c w 0x60 false (fun _ => 0) 4
/-- OUT.VAR (R249): varying OFFSET[3:0]. -/
def execOutVar (c : Fin 16) (w : Nat) (s : State) : Res := s.export' c w 0x61 false (fun i => 1 + i.f 3 0) 4
/-- OUT.COLOUR (R249): the colour for slot OFFSET[1:0]. -/
def execOutColour (c : Fin 16) (w : Nat) (s : State) : Res := s.export' c w 0x62 true (fun i => i.f 1 0) 4
/-- OUT.DEPTH (R249): the depth. -/
def execOutDepth (c : Fin 16) (w : Nat) (s : State) : Res := s.export' c w 0x63 true (fun _ => 16) 1

end Sys2Proof.Machine
end

