-- ==== Sys2Proof/Machine/Packets.lean ====
section
/-! DEFINITION. Machine/Packets.lean: the packets of a command buffer (R209-R211, R214-R219, R239). A row's command names a job; it has its effect
when the job's next packet is the row's, and none otherwise. A packet that waits leaves the job where it is. -/
namespace Sys2Proof.Machine

/-! Reading packets (R209, R211) -/

/-- COUNT of a packet: least and most payload dwords; none for an undefined OP (R210). -/
def packetCount (op : Nat) : Option (Nat × Nat) :=
  match op with
  | 0x00 => some (0, 65535) | 0x01 => some (3, 3) | 0x02 => some (0, 0) | 0x03 => some (3, 3)
  | 0x10 => some (6, 6) | 0x11 => some (3, 3) | 0x12 => some (2, 129) | 0x13 => some (8, 8) | 0x14 => some (8, 8) | 0x15 => some (4, 4)
  | 0x20 => some (5, 5) | 0x21 => some (8, 8) | 0x22 => some (5, 5) | 0x30 => some (3, 3) | 0x31 => some (2, 2)
  | 0x40 => some (1, 1) | 0x50 => some (3, 3) | 0x51 => some (2, 2) | 0x60 => some (5, 5) | 0x61 => some (0, 0)
  | _ => none

/-- Whether a packet may stand where the job is (R207, R211). -/
def Job.placeOk (j : Job) (op : Nat) : Bool :=
  let inside := j.pass.isSome
  if op ∈ [0x13, 0x30, 0x31, 0x40, 0x50, 0x51] then !inside
  else if op = 0x60 then !inside && !j.compute
  else if op ∈ [0x20, 0x21, 0x22, 0x61] then inside && !j.compute
  else true

/-- What a packet comes to: done, done with the buffers already moved, waiting where it is (with the state as far as it has come), or BAD_FIELD. -/
inductive PktRes where
  | done (s : State)
  | moved (s : State)
  | wait (s : State)
  | bad

/-- The job's innermost buffer moves past `n` bytes. -/
def State.passBytes (s : State) (o n : Nat) : State :=
  s.updJob o fun j => { j with bufs := match j.bufs with | b :: t => { b with pos := b.pos + n } :: t | [] => [] }

/-- MEM for the 64-byte units of a buffer that its next packet of `n` bytes reaches and that have not been transferred yet; none where the take is refused
(R44, R46). -/
def State.fetchPacket (s : State) (p : Fin 64) (o : Nat) (b : CmdBuf) (n : Nat) : Option State :=
  let upto := ceilTo (b.pos + n) 64
  if upto ≤ b.read then some s
  else (s.takeMem (plyHolder p) ((upto - b.read) / 64) [(b.addr + b.read, upto - b.read)]).map fun s =>
    s.updJob o fun j => { j with bufs := match j.bufs with | b :: t => { b with read := upto } :: t | [] => [] }

/-- The job's next packet, if it is the row's (R209): its header is checked, its payload read, its place tested. A buffer that has been read to its
length ends as with END. Packets are read while the job holds a cluster, and wait while MEM for them is refused. -/
def State.packet (s : State) (o op : Nat) (run : Job → List Nat → State → PktRes) : Res := s.clocked fun s =>
  match s.dev.job o with
  | none => .next s
  | some j =>
    match j.bufs with
    | [] => .next s
    | b :: _ =>
      if j.ended.isSome || s.dev.runningOn o == 0 then .next s
      else
        let bad := Host.Outcome.next (s.stopJob o 0x02)
        let at0 := b.addr + b.pos
        let finish := fun (n : Nat) (ds : List Nat) => match s.fetchPacket j.ply o b n with
          | none => Host.Outcome.next s
          | some s => match run j ds s with
            | .done t => .next (t.passBytes o n)
            | .moved t => .next t
            | .wait t => .next t
            | .bad => bad
        if b.len ≤ b.pos then (if op = 0x02 then finish 0 [] else .next s)
        else match s.plyRead j.ply at0 4 with
          | none => .next (s.faultAt j.ply at0 4 false .raster)
          | some h =>
            let w := le32 h 0
            let n := fld w 15 0
            match packetCount (fld w 31 24) with
            | none => bad
            | some (lo, hi) =>
              if fld w 23 16 ≠ 0 ∨ n < lo ∨ hi < n ∨ b.len < b.pos + 4 + 4 * n then bad
              else if fld w 31 24 ≠ op then .next s
              else if !j.placeOk op then bad
              else match s.plyRead j.ply (at0 + 4) (4 * n) with
                | none => .next (s.faultAt j.ply (at0 + 4) (4 * n) false .raster)
                | some bs => finish (4 + 4 * n) ((List.range n).map fun i => le32 bs (4 * i))

/-- Dword `i` of a payload. -/
def dw (d : List Nat) (i : Nat) : Nat := d.getD i 0
/-- An address held in dwords i and i + 1, or none where bits [63:40] are set or it is not aligned. -/
def dwAddr (d : List Nat) (i align : Nat) : Option Nat :=
  let a := dw d i + 2 ^ 32 * dw d (i + 1)
  if a < 2 ^ 40 ∧ a % align = 0 then some a else none

/-! Buffers -/

/-- NOP (R210): skipped. -/
def execPktNop (o : Nat) (s : State) : Res := s.packet o 0x00 fun _ _ s => .done s

/-- CALL (R210): runs a second buffer; a CALL inside a called buffer is BAD_FIELD. -/
def execCall (o : Nat) (s : State) : Res := s.packet o 0x01 fun j d s =>
  let n := dw d 2
  match dwAddr d 0 64 with
  | none => .bad
  | some a =>
    if 2 ≤ j.bufs.length ∨ n < 4 ∨ 2 ^ 24 < n ∨ n % 4 ≠ 0 then .bad
    else .moved ((s.passBytes o 16).updJob o fun j => { j with bufs := { addr := a, len := n, pos := 0, read := 0 } :: j.bufs })

/-- END (R210, R211): ends the current buffer; a called buffer returns to its caller. A buffer that ends with a pass open is BAD_FIELD. -/
def execPktEnd (o : Nat) (s : State) : Res := s.packet o 0x02 fun j _ s =>
  if j.pass.isSome then .bad else .moved (s.updJob o fun j => { j with bufs := j.bufs.drop 1 })

/-- SAVE_AREA (R210): exactly one, of at least 10 or 6 units per requested cluster. -/
def execSaveArea (o : Nat) (s : State) : Res := s.packet o 0x03 fun j d s =>
  match dwAddr d 0 65536 with
  | none => .bad
  | some a =>
    if j.save.isSome ∨ fld (dw d 2) 31 16 ≠ 0 ∨ dw d 2 < (if j.compute then 6 else 10) * j.want then .bad
    else .done (s.updJob o fun j => { j with save := some (a, dw d 2) })

/-! Pipeline state -/

/-- The job's pipeline state changed. -/
def State.updPipe (s : State) (o : Nat) (f : Pipe → Pipe) : State := s.updJob o fun j => { j with pipe := f j.pipe }
/-- One stage of the pipeline state changed. -/
def Pipe.updStage (p : Pipe) (i : Fin 3) (f : Stage → Stage) : Pipe := { p with stages := upd p.stages i f }

/-- SHADER (R210): a stage's code, register counts, local data store and workgroup size. -/
def execShader (o : Nat) (s : State) : Res := s.packet o 0x10 fun _ d s =>
  let v := fld (dw d 3) 8 0
  let sc := fld (dw d 3) 22 16
  let (x, y, z) := (fld (dw d 5) 9 0, fld (dw d 5) 19 10, fld (dw d 5) 29 20)
  match fin? 3 (dw d 0), dwAddr d 1 256 with
  | some st, some a =>
    let own := if st.val = 2 then decide (dw d 4 ≤ 131072) && fld (dw d 5) 31 30 == 0 && decide (1 ≤ x * y * z) && decide (x * y * z ≤ 1024)
      else dw d 4 == 0 && dw d 5 == 0
    if v = 0 ∨ 256 < v ∨ sc = 0 ∨ 128 < sc ∨ fld (dw d 3) 15 9 ≠ 0 ∨ fld (dw d 3) 31 23 ≠ 0 ∨ !own then .bad
    else .done (s.updPipe o fun p => p.updStage st fun g => { g with code := a, vregs := v, sregs := sc, lds := dw d 4, wx := x, wy := y, wz := z })
  | _, _ => .bad

/-- RESOURCES (R210): a stage's resource table. -/
def execResources (o : Nat) (s : State) : Res := s.packet o 0x11 fun _ d s =>
  match fin? 3 (dw d 0), dwAddr d 1 64 with
  | some st, some a => .done (s.updPipe o fun p => p.updStage st fun g => { g with table := a })
  | _, _ => .bad

/-- CONST (R210): scalar values loaded at each wave's start. -/
def execConst (o : Nat) (s : State) : Res := s.packet o 0x12 fun _ d s =>
  let w := dw d 0
  let first := fld w 14 8
  match fin? 3 (fld w 1 0) with
  | some st =>
    if fld w 7 2 ≠ 0 ∨ fld w 31 15 ≠ 0 ∨ 128 < first + (d.length - 1) then .bad
    else .done (s.updPipe o fun p => p.updStage st fun g =>
      { g with consts := ((d.drop 1).zipIdx).foldl (fun m e => Map.ins m (first + e.2) (word e.1)) g.consts })
  | none => .bad

/-- TARGET (R210): a colour or depth/stencil target. A disabled target's fields are tested like another's (R209). -/
def execTarget (o : Nat) (s : State) : Res := s.packet o 0x13 fun _ d s =>
  let w := dw d 0
  let fmt := fld w 15 8
  let depth := fld w 2 0 == 4
  let stride := dw d 3
  match fin? 5 (fld w 2 0), dwAddr d 1 4096, dwAddr d 4 1 with
  | some i, some a, some hd =>
    let fields := (if depth then fmt == 0x40 && dw d 7 / 256 == 0 else decide (1 ≤ fmt) && decide (fmt ≤ 9)) &&
      (!bit w 16 || (decide (1 ≤ fmt) && decide (fmt ≤ 5))) && decide (fld w 18 17 ≤ 2) && decide (fld w 20 19 ≤ 2) &&
      stride % 256 == 0 && decide (stride ≤ 262144)
    if fld w 7 4 ≠ 0 ∨ fld w 31 21 ≠ 0 ∨ !fields then .bad
    else
      let t : Target := { enable := bit w 3, format := fmt, ozc := bit w 16, load := fld w 18 17, store := fld w 20 19, addr := a, stride := stride,
                          header := hd, clear := dw d 6 + 2 ^ 32 * dw d 7 }
      .done (s.updPipe o fun p => { p with targets := put p.targets i t })
  | _, _, _ => .bad

/-- RASTER (R210): viewport, scissor, cull, depth and stencil state. -/
def execRaster (o : Nat) (s : State) : Res := s.packet o 0x14 fun _ d s =>
  let corner := fun w => fld w 15 14 == 0 && fld w 31 30 == 0
  if !corner (dw d 4) ∨ !corner (dw d 5) ∨ fld (dw d 6) 31 9 ≠ 0 ∨ fld (dw d 6) 1 0 = 3 ∨ fld (dw d 7) 31 30 ≠ 0 then .bad
  else
    let r : Raster := { vx := word (dw d 0), vy := word (dw d 1), vw := word (dw d 2), vh := word (dw d 3), d4 := dw d 4, d5 := dw d 5, d6 := dw d 6, d7 := dw d 7 }
    .done (s.updPipe o fun p => { p with raster := r })

/-- BLEND (R213): dword k sets colour slot k. -/
def execBlend (o : Nat) (s : State) : Res := s.packet o 0x15 fun _ d s =>
  if d.all blendOk then .done (s.updPipe o fun p => { p with blend := Vector.ofFn fun k => dw d k.val }) else .bad

/-! Binning and rendering (R214-R217) -/

/-- Tiles that a render takes: those with lists, and at the end those that were ever spilled (R216, R217). -/
def Pass.renderTiles (pa : Pass) (final : Bool) : List Nat :=
  (List.range pa.tileCount).filter fun t => pa.frags.any (·.tile == t) || (final && (Map.find pa.spilled t).isSome)

/-- A render starts. -/
def State.startRender (s : State) (o : Nat) (final : Bool) : State :=
  (s.updPass o fun pa => { pa with render := some final, todo := pa.renderTiles final, tilesDone := [] }).pump o

/-- Every tile of a render has been handled. -/
def State.renderDone (s : State) (o : Nat) (pa : Pass) : Bool :=
  pa.todo.isEmpty && (s.dev.gfx.held o).all (fun c => (s.cluster c).ctx.tile.isNone) &&
    (match s.dev.job o with | some j => j.saved.all fun x => x.tile.isNone | none => true)

/-- The open pass of a job. -/
def Dev.passOf (d : Dev) (o : Nat) : Option Pass := (d.job o).bind (·.pass)

/-- A render goes on, and a partial one that is over frees the pass's pages and raises PARTIAL_RENDER (R217). -/
def State.partialOn (s : State) (o : Nat) (j : Job) : State :=
  let s := s.pump o
  match s.dev.passOf o with
  | none => s
  | some pa =>
    if !s.renderDone o pa then s
    else
      let n := pa.partials + 1
      let s := (s.freePages o).updPass o fun pa => { pa with render := none, partials := n, tilesDone := [] }
      let s := s.onDev (·.updGfx fun g => { g with partials := satInc g.partials 1 })
      s.postPly j.ply j.ply.val 0x0601 0
        (dataBytes [(16, 4, j.seq.toNat), (20, 1, j.ring.val), (22, 2, n), (24, 4, pa.pages), (28, 4, pa.tilesDone.length)])

/-- Pages for the draw in binning, one take each, which the next of its quads fill; a partial render starts where R216 asks for it. True once every
quad is in a list. -/
def State.binPages (s : State) (o : Nat) : Nat → State × Bool
  | 0 => (s, false)
  | n + 1 =>
    match s.dev.job o, s.dev.passOf o with
    | some j, some pa =>
      if pa.owe = some [] then (s, true)
      else
        let full := decide (pa.binMax ≠ 0) && decide (pa.binMax ≤ pa.pages)
        match (if full then none else s.skein.take .bin (plyHolder j.ply) 1) with
        | some k => (({ s with skein := k } : State).updPass o fun pa =>
            { pa.addQuads ((pa.owe.getD []).headD []) with pages := pa.pages + 1, owe := pa.owe.map (·.drop 1) }).binPages o n
        | none => (if 2 ≤ pa.pages then s.startRender o false else s, false)
    | _, _ => (s, false)

/-- What the draw in binning puts into lists, in the order of primitives: on `pages` new pages in equal parts, or all in the room that the last page has
left. A pass with no page takes one for its first quads. -/
def State.splitQuads (s : State) (o : Nat) (pages : Nat) (quads : List FragQuad) : State :=
  s.updPass o fun pa =>
    if pa.owe.isSome then pa
    else
      let qs := pa.ordered quads
      let n := if pages = 0 ∧ pa.pages = 0 ∧ qs ≠ [] then 1 else pages
      if n = 0 then { pa.addQuads qs with owe := some [] } else { pa with owe := some (pieces n qs) }

/-- The draw in binning moves on (R212, R214-R217): its vertices are shaded, then its quads join the tiles' lists page by page and the packet is
done. -/
def State.binOn (s : State) (o : Nat) (j : Job) (pa : Pass) (pages : Nat) (quads : List (List FragQuad)) : PktRes :=
  if pa.render.isSome then .wait (s.partialOn o j)
  else match pa.current with
    | none => .wait s
    | some d =>
      if !d.shaded then .wait (s.pump o)
      else
        let s := s.splitQuads o pages quads.flatten
        match s.binPages o (((s.dev.passOf o).bind (·.owe)).elim 0 List.length + 1) with
        | (s, false) => .wait s
        | (s, true) => .done (s.updPass o fun pa => { pa with binning := false, owe := none })

/-- A draw whose packet has been checked starts to be binned (R212, R239); the job needs its save area, and each stage room for a wave. -/
def State.startDraw (s : State) (o : Nat) (j : Job) (d : Draw) : PktRes :=
  if j.save.isNone ∨ (at' d.pipe.stages 0).waveLimit = 0 ∨ (at' d.pipe.stages 1).waveLimit = 0 then .bad
  else .wait ((s.updPass o fun pa => { pa with draws := pa.draws ++ [d], binning := true, owe := none }).pump o)

/-- A draw out of its values (R210). -/
def Job.draw (j : Job) (topo : Nat) (v : List Nat) (indexed : Option (Nat × Bool × Nat)) : Draw :=
  { pipe := j.pipe, topo := topo, count := dw v 0, insts := dw v 1, first := dw v 2, firstInst := dw v (if indexed.isSome then 4 else 3),
    indexed := indexed.map fun x => (x.1, x.2.1, signed 32 (dw v 3), x.2.2), nextInst := 0, nextPos := 0, restarts := [], outs := [], inFlight := 0 }

/-- A draw packet: the draw in binning moves on, or a new one starts. -/
def State.drawPacket (s : State) (o op pages : Nat) (quads : List (List FragQuad)) (mk : Job → List Nat → State → Except PktRes (State × Draw)) : Res :=
  s.packet o op fun j d s =>
    match j.pass with
    | none => .bad
    | some pa =>
      if pa.binning then s.binOn o j pa pages quads
      else match mk j d s with
        | .error r => r
        | .ok (s, x) => s.startDraw o j x

/-- DRAW (R210, R212, R214): `pages` is how many bin pages the draw's lists take and `quads` its covered quads (log entry 62). -/
def execDraw (o pages : Nat) (quads : List (List FragQuad)) (s : State) : Res := s.drawPacket o 0x20 pages quads fun j d s =>
  if 5 < dw d 0 then .error .bad else .ok (s, j.draw (dw d 0) (d.drop 1) none)

/-- Index size in bytes of the field, or none. -/
def indexBytes (code : Nat) : Option Nat := if code = 1 then some 2 else if code = 2 then some 4 else none

/-- DRAW_INDEXED (R210, R212). -/
def execDrawIndexed (o pages : Nat) (quads : List (List FragQuad)) (s : State) : Res := s.drawPacket o 0x21 pages quads fun j d s =>
  let w := dw d 0
  match indexBytes (fld w 5 4) with
  | none => .error .bad
  | some n => match dwAddr d 6 n with
    | none => .error .bad
    | some a => if 5 < fld w 2 0 ∨ bit w 3 ∨ fld w 31 7 ≠ 0 then .error .bad else .ok (s, j.draw (fld w 2 0) (d.drop 1) (some (n, bit w 6, a)))

/-- Dwords out of a ply's memory for an indirect packet: MEM credits, translation (R36, R44). -/
def State.readArgs (s : State) (p : Fin 64) (a n : Nat) : Except PktRes (State × List Nat) :=
  match s.takeMem (plyHolder p) (unitsOf a (4 * n)) [(a, 4 * n)] with
  | none => .error (.wait s)
  | some s => match s.plyRead p a (4 * n) with
    | none => .error (.wait (s.faultAt p a (4 * n) false .raster))
    | some bs => .ok (s, (List.range n).map fun i => le32 bs (4 * i))

/-- DRAW_INDIRECT (R210): the values come from a record in memory. -/
def execDrawIndirect (o pages : Nat) (quads : List (List FragQuad)) (s : State) : Res := s.drawPacket o 0x22 pages quads fun j d s =>
  let w := dw d 0
  let isx := bit w 7
  match dwAddr d 1 16, (if isx then indexBytes (fld w 5 4) else some 1) with
  | some a, some n => match dwAddr d 3 n with
    | none => .error .bad
    | some ib =>
      if 5 < fld w 2 0 ∨ bit w 3 ∨ fld w 31 8 ≠ 0 then .error .bad
      else match s.readArgs j.ply a (if isx then 5 else 4) with
        | .error r => .error r
        | .ok (s, v) => .ok (s, j.draw (fld w 2 0) v (if isx then some (n, bit w 6, ib) else none))
  | _, _ => .error .bad

/-- PASS_BEGIN (R210, R218): opens a render pass on the targets as they stand. -/
def execPassBegin (o : Nat) (s : State) : Res := s.packet o 0x60 fun j d s =>
  let (w, m) := (dw d 0, dw d 1)
  let (x, y) := (fld w 13 0, fld w 29 16)
  match dwAddr d 2 65536 with
  | none => .bad
  | some a =>
    if fld w 15 14 ≠ 0 ∨ fld w 31 30 ≠ 0 ∨ x = 0 ∨ 8192 < x ∨ y = 0 ∨ 8192 < y ∨ fld m 1 0 = 3 ∨ fld m 15 3 ≠ 0 ∨ fld (dw d 4) 31 16 ≠ 0 then .bad
    else
      let pa : Pass := { width := x, height := y, samples := sampleCount (fld m 1 0), pls := bit m 2, binMax := fld m 31 16, spill := a, spillUnits := dw d 4,
                         targets := j.pipe.targets, draws := [], binning := false, frags := [], nextOrder := 0, pages := 0, owe := none, partials := 0,
                         spilled := [], render := none, todo := [], tilesDone := [] }
      if dw d 4 < ceilDiv (pa.tileCount * pa.imageBytes) 65536 then .bad
      else .done (s.updJob o fun j => { j with pass := some pa })

/-- PASS_END (R212, R213, R217): renders every tile with lists or spills, applies the store ops, frees the pages, ends the pass. -/
def execPassEnd (o : Nat) (s : State) : Res := s.packet o 0x61 fun j _ s =>
  match j.pass with
  | none => .bad
  | some pa =>
    let s := if pa.render.isSome then s.pump o else s.startRender o true
    match s.dev.passOf o with
    | none => .wait s
    | some pa => if s.renderDone o pa then .done ((s.freePages o).updJob o fun j => { j with pass := none }) else .wait s

/-! Dispatches -/

/-- A dispatch whose counts are known (R210, R238, R239). -/
def State.startDispatch (s : State) (o : Nat) (j : Job) (x y z : Nat) : PktRes :=
  let g := at' j.pipe.stages 2
  if j.save.isNone ∨ 65535 < x ∨ 65535 < y ∨ 65535 < z ∨ g.waveLimit < ceilDiv g.waves 4 ∨ 131072 < g.lds then .bad
  else if x * y * z = 0 ∨ g.lanes = 0 then .done s
  else .done ((s.updJob o fun j => { j with dispatches := j.dispatches ++ [{ stage := g, nx := x, ny := y, nz := z, next := 0 }] }).pump o)

/-- DISPATCH (R210, R239). -/
def execDispatch (o : Nat) (s : State) : Res := s.packet o 0x30 fun j d s => s.startDispatch o j (dw d 0) (dw d 1) (dw d 2)

/-- DISPATCH_INDIRECT (R210, R239): three counts out of memory. -/
def execDispatchIndirect (o : Nat) (s : State) : Res := s.packet o 0x31 fun j d s =>
  match dwAddr d 0 4 with
  | none => .bad
  | some a => match s.readArgs j.ply a 3 with
    | .error r => r
    | .ok (s, v) => s.startDispatch o j (dw v 0) (dw v 1) (dw v 2)

/-! Waits and signals -/

/-- BARRIER (R210, R225): WAIT for every earlier draw and dispatch; FLUSH has nothing to write back, since stores reach DRAM at once; INVAL. -/
def execPktBarrier (o : Nat) (s : State) : Res := s.packet o 0x40 fun j d s =>
  let w := dw d 0
  if fld w 31 3 ≠ 0 then .bad
  else if bit w 0 && !s.jobQuiet j then .wait s
  else
    let dram := s.settledDram
    .done (if bit w 2 then (s.each (s.dev.gfx.held o) fun s c => s.updCluster c fun k => { k with tcache := [] }).updJob o fun j => { j with tex := dram } else s)

/-- SIGNAL (R91, R93, R210): waits and flushes, then signals a fence of the ply. -/
def execPktSignal (o : Nat) (s : State) : Res := s.packet o 0x50 fun j d s =>
  if fld (dw d 0) 31 12 ≠ 0 then .bad
  else if !s.jobQuiet j then .wait s
  else .done (s.signal j.ply (dw d 0) (DWord.ofWords (word (dw d 2)) (word (dw d 1))))

/-- TIMESTAMP (R210): waits, then writes DEVTIME as 8 bytes. -/
def execTimestamp (o : Nat) (s : State) : Res := s.packet o 0x51 fun j d s =>
  match dwAddr d 0 8 with
  | none => .bad
  | some a =>
    if !s.jobQuiet j then .wait s
    else match s.takeMem (plyHolder j.ply) (writeCost a 8) [(a, 8)] with
      | none => .wait s
      | some s => match s.plyWrite j.ply .raster a (bytesOf 8 s.dev.devtime) with
        | none => .wait (s.faultAt j.ply a 8 true .raster)
        | some s => .done s

end Sys2Proof.Machine
end

