-- ==== Sys2Proof/Machine/RegRead.lean ====
section
/-! DEFINITION. Machine/RegRead.lean: what a read of any register returns (R17, R18): BAR0's device set-up, port set-up and mailbox regions,
BAR2's ply pages. Reads with effects of their own are rows. -/
namespace Sys2Proof.Machine

/-- A mask of flags: bit i is `f i`. -/
def flags (n : Nat) (f : Nat → Bool) : Nat := ((List.range n).map fun i => if f i then 2 ^ i else 0).sum

/-! Device set-up region -/

/-- ELY_ID (R11). -/
def Dev.elyId (d : Dev) : Nat :=
  0xB * 2 ^ 28 + (if d.pkgW then 2 else 1) * 2 ^ 22 + (if d.pkgW then 2 else 1) * 2 ^ 20 + d.nHeads * 2 ^ 16 + d.nClusters * 2 ^ 11 +
    bit1 (!d.pkgW) * 2 ^ 10 + bit1 d.pkgW * 2 ^ 9 + d.variant.val

/-- ELY_STATUS (R319). -/
def Dev.elyStatus (d : Dev) : Nat :=
  d.ely.state.code * 2 ^ 29 + bit1 d.manager.isSome * 2 ^ 28 + (match d.manager with | some q => q.val | none => 0) * 2 ^ 26 +
    d.ely.lastCause % 16 * 2 ^ 20 + min 0xFFFF d.ely.restarts

/-- A head's registers (R134). The odd head of a pair shows the pair's frame number. -/
def Dev.readHead (d : Dev) (h : Fin 8) (off : Nat) : Nat :=
  let x := d.head h
  let rate := match x.cfg with | some c => c.rate | none => 0
  let lanes := match x.cfg with | some c => c.lanes | none => 0
  match off with
  | 0x24 => bit1 x.armed.isSome * 2 ^ 30 + x.err * 2 ^ 20
  | 0x28 =>
    let line := x.line d.devtime
    x.stateCode * 2 ^ 29 + bit1 (x.gen != .off && decide (line < x.timing.vt - x.timing.vact)) * 2 ^ 28 + bit1 x.hpd * 2 ^ 27 +
      bit1 x.paired * 2 ^ 26 + line
  | 0x2C => rate * 2 ^ 28 + lanes * 2 ^ 25 + x.effBpc * 2 ^ 23 + bit1 x.dscOn * 2 ^ 22 + bit1 x.trained * 2 ^ 21 + x.dscBpp
  | 0x30 => (DWord.lo (d.head (d.master h)).frame).toNat
  | 0x38 => at' d.mc.tol h
  | 0x3C => x.lastLayer * 2 ^ 26 + x.underruns
  | _ => if off ≤ 0x20 then d.reg (hdBase h + off) else 0

/-- The two display pins' registers (R153, R154). -/
def Dev.readPins (d : Dev) (off : Nat) : Nat :=
  if off = 0x12800 then d.reg off + bit1 d.carder.hbLevel * 2 ^ 8
  else if off = 0x12804 ∧ !d.pkgW then d.reg off + bit1 d.carder.fbLatched * 2 ^ 9 + bit1 d.carder.fbHigh * 2 ^ 8 + d.carder.fbCount
  else 0

/-- CMP_TEN0, CMP_TEN1 and CMP_TEN2 of a tenancy in force; an entry that is not valid reads 0 (R186). -/
def Tenancy.word (t : Tenancy) (i : Nat) : Nat :=
  if !t.valid then 0
  else match i with
    | 0 => 2 ^ 31 + bit1 t.classA * 2 ^ 30 + t.ply % 64 * 2 ^ 8 + t.zb % 16
    | 1 => t.x1 % 16384 * 2 ^ 16 + t.x0 % 16384
    | 2 => t.y1 % 8192 * 2 ^ 16 + t.y0 % 8192
    | _ => 0

/-- Carder registers (R168, R186, R190, R197). -/
def Dev.readCarder (d : Dev) (off : Nat) : Nat :=
  if off = 0x13000 then d.reg off
  else if off = 0x13004 then
    let (t, b, i) := d.lutSel
    if d.lutExists t then d.carder.lut t b i else 0
  else if off = 0x13008 then flags 4 d.dgBusy
  else if 0x13010 ≤ off ∧ off < 0x13030 then
    if (off - 0x13010) / 4 < d.nHeads then d.reg off + d.active off % 2 * 2 ^ 8 else 0
  else if 0x13040 ≤ off ∧ off < 0x130C0 then
    match fin? 8 ((off - 0x13040) / 0x10) with
    | none => 0
    | some h =>
      if !d.headExposed h then 0
      else match off % 0x10 with
        | 0x8 => flags 16 fun t => match fin? 16 t with | some t => (at' (d.head h).plates t).shown | none => false
        | 0xC => bit1 (d.head h).tenWait.isSome * 2 ^ 31 + (d.head h).tenSet
        | _ => d.reg off
  else if 0x13100 ≤ off ∧ off < 0x13900 then
    match fin? 8 ((off - 0x13100) / 0x100), fin? 16 ((off - 0x13100) % 0x100 / 0x10) with
    | some h, some t => if d.headExposed h then (at' (d.head h).tens t).word (off % 0x10 / 4) else 0
    | _, _ => 0
  else 0

/-- Signature units (R204). -/
def Dev.readSig (d : Dev) (h : Fin 8) (r : Fin 4) (off : Nat) : Nat :=
  let g := at' (d.head h).sigs r
  match off with
  | 0xC => bit1 g.isMatch * 2 ^ 31 + bit1 g.compared * 2 ^ 30 + bit1 g.hold * 2 ^ 29 + bit1 g.outside * 2 ^ 28 + g.frame % 65536
  | 0x28 => (DWord.lo g.result).toNat
  | _ => if off ≤ 0x24 then d.reg (sigBase h r + off) else 0

/-- Raster engine registers (R234). -/
def State.readGfx (s : State) (off : Nat) : Nat :=
  let g := s.dev.gfx
  match off with
  | 0x15000 => bit1 s.saveReserved * 2 ^ 31 + s.dev.nClusters * 2 ^ 16 + (s.skein.acct .bin).total
  | 0x15004 =>
    flags 16 (fun c => decide (c < s.dev.nClusters) && (s.dev.islandOn (9 + c / 2) || atD s.dev.power.islands (9 + c / 2) Island.off == .saving)) * 2 ^ 16 +
      flags 16 fun c => match fin? 16 c with | some c => (at' g.clusters c).job.isSome | none => false
  | 0x15008 => g.preempts
  | 0x1500C => g.partials
  | 0x15010 => g.misses
  | _ => 0

/-- Memory controller registers (R287). -/
def Dev.readMc (d : Dev) (off : Nat) : Nat :=
  let m := d.mc
  match off with
  | 0x16000 => match m.desc with
    | some x => if m.trained then (if x.ddr5 then 2 else 1) * 2 ^ 30 + x.rate * 2 ^ 16 + bit1 x.iecc * 2 ^ 15 + x.gib else 0
    | none => 0
  | 0x16010 =>
    flags 16 (fun c => decide (c < d.chanCount) && match fin? 16 c with | some c => (at' m.chans c).light | none => false) * 2 ^ 16 +
      bit1 m.deep * 2 ^ 15 + min 0x7FFF m.forcedN
  | 0x16014 => m.ce
  | 0x16018 => m.ue
  | 0x1601C => if d.pkgW then m.faults * 2 ^ 16 + m.replays else 0
  | _ => d.reg off

/-- Ring registers (R363); on package C they read 0 (R8). -/
def Dev.readWhl (d : Dev) (off : Nat) : Nat :=
  let w := d.whorl
  if !d.pkgW then 0
  else match off with
    | 0x17000 => port (at' w.ports 0)
    | 0x17004 => port (at' w.ports 1)
    | 0x17008 =>
      bit1 w.member * 2 ^ 31 + bit1 w.isMaster * 2 ^ 30 + bit1 w.closed * 2 ^ 29 + bit1 w.timed * 2 ^ 28 + w.masterId * 2 ^ 20 + w.ringId * 2 ^ 16 +
        w.members.length * 2 ^ 8 + (if w.member then w.hops else 0) * 2 ^ 4
    | 0x1700C => d.reg off + flags 8 (fun h => atD w.locked h false) * 2 ^ 16
    | 0x17010 => unsigned 16 (clampInt (-32768) 32767 w.offset)
    | _ => 0
where
  port (p : WhlPort) : Nat :=
    let st := match p.state with | .off => 0 | .loop => 1 | .linking => 2 | .joined => 3 | .leaving => 4 | .down => 5
    st * 2 ^ 29 + p.rate * 2 ^ 27 + bit1 p.pin * 2 ^ 26 + bit1 p.nb.isSome * 2 ^ 25 + (match p.nb with | some n => n | none => 0) * 2 ^ 20 +
      min 1023 p.drops * 2 ^ 10 + min 1023 p.repairs

/-- Audio registers (R383). -/
def Dev.readAud (d : Dev) (off : Nat) : Nat :=
  let a := d.audio
  if off = 0x18000 then flags 16 (fun v => match atD a.voices v none with | some x => x.sounds | none => false) * 2 ^ 16 + d.heldInputs.length
  else if off = 0x18008 then
    let sel := d.reg 0x18004
    (Map.get a.xset (word 0x00140000) (fld sel 21 16 * 32 + fld sel 12 8)).toNat
  else if off = 0x18010 then
    let sel := d.reg 0x1800C
    if 4 < fld sel 2 0 then 0 else unsigned 32 (a.coef (fld sel 12 8) (fld sel 6 4) (fld sel 2 0))
  else if 0x18020 ≤ off ∧ off < 0x18040 ∧ off % 8 = 4 then
    match fin? 4 ((off - 0x18024) / 8) with
    | none => 0
    | some p => bit1 (d.tdmRun p) * 2 ^ 31 + bit1 (at' a.tdm p).clkLost * 2 ^ 30 + bit1 (d.tdmCfgErr p) * 2 ^ 29 + bit1 (bit a.lockTdm p.val) * 2 ^ 28 +
        (at' a.tdm p).slips
  else if 0x18100 ≤ off ∧ off < 0x18300 ∧ off % 0x10 = 0 then d.reg off + bit1 (bit a.lockOut ((off - 0x18100) / 0x10)) * 2 ^ 30
  else d.reg off

/-- TCH_STATUS of a panel (R406). -/
def Dev.tchStatus (d : Dev) (n : Fin 4) : Nat :=
  let x := at' d.touch.panels n
  let testing := match d.touch.running with | some (.selftest, k) => k == n | _ => false
  let st := if testing then 3 else if !x.scanning then 0 else if d.panelReports n then 1 else 2
  st * 2 ^ 29 + bit1 x.noise * 2 ^ 28 + x.freq.val * 2 ^ 24 + x.contacts.length * 2 ^ 20 + x.periodUs

/-- Touch registers (R406). -/
def Dev.readTch (d : Dev) (off : Nat) : Nat :=
  let t := d.touch
  if off < 0x19040 then
    match fin? 4 ((off - 0x19000) / 0x10) with
    | some n => if off % 0x10 = 8 then d.tchStatus n else d.reg off
    | none => 0
  else if off = 0x19044 then bit1 t.running.isSome * 2 ^ 31 + t.result * 2 ^ 28 + t.lastCmd * 2 ^ 24 + min 31 t.nFaults
  else if off = 0x19048 then d.reg off + bit1 t.blocked * 2 ^ 30
  else if off = 0x19050 then bit1 t.woke * 2 ^ 31 + t.wakeKind * 2 ^ 29 + t.wakeAt.1 % 256 * 2 ^ 8 + t.wakeAt.2 % 256
  else if 0x19080 ≤ off ∧ off < 0x190C0 ∧ off % 4 = 0 then
    match t.faults[(off - 0x19080) / 4]? with
    | some f => 2 ^ 31 + f.kind * 2 ^ 24 + f.other * 2 ^ 8 + f.elec
    | none => 0xFF00
  else d.reg off

/-- HAP_CTL.PHASE (R421). -/
def HapChan.phase (x : HapChan) : Nat :=
  match x.run with
  | some r => if r.braking then 3 else 2
  | none => if x.wait.isSome then 1 else if x.holding.isSome then 4 else 0

/-- Haptic registers (R421). -/
def State.readHap (s : State) (off : Nat) : Nat :=
  let d := s.dev
  if off < 0x1A100 then
    match fin? 8 ((off - 0x1A000) / 0x20) with
    | none => 0
    | some c =>
      let x := d.hap c
      match off % 0x20 with
      | 0x00 => d.reg off + bit1 (!x.trips.isEmpty) * 2 ^ 28 + x.lastTrip * 2 ^ 25 + x.phase * 2 ^ 8
      | 0x14 => x.slot * 2 ^ 27 + x.prio * 2 ^ 23 + min 1023 (x.bins.sum / 96) * 2 ^ 13 + x.energy
      | _ => d.reg off
  else if off = 0x1A120 then ((allFin 8).filter fun c => (d.hap c).wait.isSome).length * 2 ^ 9 + (s.skein.acct .hap).free
  else d.reg off

/-- Clock and power registers (R441). -/
def State.readPwr (s : State) (off : Nat) : Nat :=
  let p := s.dev.power
  if off < 0x1B020 then
    match fin? 4 ((off - 0x1B000) / 8) with
    | none => 0
    | some n =>
      let c := at' p.fcnt n
      if off % 8 = 0 then bit1 c.start * 2 ^ 31 + bit1 c.done * 2 ^ 30 + bit1 c.sat * 2 ^ 29 + c.gate * 2 ^ 24 + c.ref * 2 ^ 16 + c.meas * 2 ^ 8
      else if off % 8 = 4 then c.count
      else 0
  else match off with
    | 0x1B040 =>
      let st := match p.state with | .run => 1 | .dim => 2 | _ => 0
      let due := s.dev.ely.journal.any fun j => j.begun && decide (0x50 ≤ j.code) && decide (j.code ≤ 0x53)
      st * 2 ^ 29 + bit1 due * 2 ^ 28 + p.vg * 2 ^ 25 + p.vc * 2 ^ 24
    | 0x1B044 => flags 32 fun i => i == 0 || atD p.islands i Island.off == .good || atD p.islands i Island.off == .saving
    | 0x1B048 => (s.skein.acct .inr).free * 2 ^ 16 + p.waits.length
    | 0x1B04C => bit1 p.vaonWarn * 2 ^ 31 + p.vaonNow * 2 ^ 16 + p.dipMin
    | 0x1B050 => p.dipCycles
    | 0x1B080 => p.lastCause * 2 ^ 28 + bit1 p.tripSeen * 2 ^ 27
    | _ =>
      if 0x1B060 ≤ off ∧ off < 0x1B080 ∧ off % 4 = 0 then
        match fin? 8 ((off - 0x1B060) / 4) with
        | none => 0
        | some k => let x := at' p.sensors k; bit1 x.valid * 2 ^ 31 + unsigned 16 x.temp
      else s.dev.reg off

/-- Check-value unit registers (R447). -/
def Dev.readChk (d : Dev) (off : Nat) : Nat :=
  match fin? 8 ((off - 0x1C000) / 0x40) with
  | none => 0
  | some u =>
    let c := d.check u
    match off % 0x40 with
    | 0x00 => d.reg off + bit1 c.lock * 2 ^ 31
    | 0x04 => bit1 c.job.isSome * 2 ^ 31 + bit1 c.pending * 2 ^ 30 + min 0xFFFF c.queue.length
    | 0x20 => c.grant % 2 ^ 32
    | 0x24 => c.grant / 2 ^ 32
    | _ => d.reg off

/-- Self-test and recorder registers (R461). -/
def Dev.readCcn (d : Dev) (off : Nat) : Nat :=
  let b := d.bist
  let c := d.ccn
  match off with
  | 0x1D000 => bit1 b.valid * 2 ^ 31 + bit1 b.fresh * 2 ^ 30 + bit1 b.pass * 2 ^ 29 + bit1 b.startup * 2 ^ 28 + b.pwrcyc % 2 ^ 24
  | 0x1D004 => b.fail
  | 0x1D008 => bit1 b.late * 2 ^ 31 + bit1 b.runFail * 2 ^ 30 + min 0xFFFF b.passes
  | 0x1D00C => b.firstFail
  | 0x1E000 => bit1 c.frozen * 2 ^ 31 + bit1 c.flash * 2 ^ 30 + c.buffer.length * 2 ^ 16 + min 0xFFFF c.overflow
  | 0x1E004 => d.reg off
  | 0x1E008 => c.opsec % 2 ^ 32
  | 0x1E010 => c.pwrcyc
  | 0x1E014 => c.next
  | 0x1E018 => c.lap
  | _ => 0

/-- A read of the device set-up region (R19). -/
def State.readDevice (s : State) (q : Fin 4) (off : Nat) : Nat :=
  let d := s.dev
  if off < 0x11000 then
    match off with
    | 0x10000 => d.elyId
    | 0x10004 => d.elyStatus
    | 0x10008 => d.ely.secWm
    | 0x1000C => flags 32 fun i => (d.claims none).any fun c => c.1 == i
    | _ => 0
  else if off < 0x12000 then 0
  else if off < 0x12800 then
    match fin? 8 ((off - 0x12000) / 0x100) with
    | none => 0
    | some h =>
      if !d.headExposed h then 0
      else if off % 0x100 = 0x34 then s.readLatched q off (DWord.hi (d.head (d.master h)).frame).toNat
      else d.readHead h (off % 0x100)
  else if off < 0x13000 then d.readPins off
  else if off < 0x14000 then d.readCarder off
  else if off < 0x14800 then
    match fin? 8 ((off - 0x14000) / 0x100), fin? 4 ((off - 0x14000) % 0x100 / 0x40) with
    | some h, some r =>
      if !d.headExposed h then 0
      else if off % 0x40 = 0x2C then s.readLatched q off (DWord.hi (at' (d.head h).sigs r).result).toNat
      else d.readSig h r (off % 0x40)
    | _, _ => 0
  else if off < 0x15000 then 0
  else if off < 0x16000 then s.readGfx off
  else if off < 0x17000 then d.readMc off
  else if off < 0x18000 then d.readWhl off
  else if off < 0x19000 then d.readAud off
  else if off < 0x1A000 then d.readTch off
  else if off < 0x1B000 then s.readHap off
  else if off < 0x1C000 then s.readPwr off
  else if off < 0x1C200 then d.readChk off
  else if off < 0x1D000 then 0
  else if off = 0x1E00C then s.readLatched q off (d.ccn.opsec / 2 ^ 32)
  else d.readCcn off

/-! Port set-up region and mailbox -/

/-- Account that SKN_AUDIT_SEL picks, if any (R41, R52). -/
def auditAcct (sel : Nat) : Option (Fin 11) :=
  let kind := fld sel 19 16
  if kind < 5 then fin? 11 kind else if kind = 5 then fin? 11 (5 + fld sel 13 12) else if kind < 8 then fin? 11 (kind + 3) else none

/-- Whether a port sees a holder's values (R52). -/
def Dev.seesHolder (d : Dev) (q : Fin 4) (holder : Nat) : Bool :=
  d.auditor q || holder == 0x40 || match fin? 64 holder with
    | some p => (d.ply p).state != .absent && (d.ply p).port == q
    | none => false

/-- A holder's part of a table of the snapshot, a ply's standing part included (R42, R55; log entry 10). -/
def holderPart (v : Vector Nat holders) (holder : Nat) : Nat := atD v holder 0 + (if holder < 64 then atD v (128 + holder) 0 else 0)

/-- Skein audit registers (R52). -/
def State.readAudit (s : State) (q : Fin 4) (off : Nat) : Nat :=
  let k := s.skein
  let sel := (s.port q).reg 0x400C
  let own := fun (f : Account → Vector Nat holders) => match auditAcct sel with
    | some i => if s.dev.seesHolder q (sel % 256) && decide (sel % 256 < 128) then holderPart (f (at' k.audit i)) (sel % 256) else 0
    | none => 0
  let all := fun (f : Account → Nat) => match auditAcct sel with | some i => f (at' k.audit i) | none => 0
  match off with
  | 0x4000 => bit1 k.breach * 2 ^ 31 + bit1 k.held * 2 ^ 30 + bit1 (s.dev.auditor q) * 2 ^ 29
  | 0x4004 => k.auditEpoch % 2 ^ 32
  | 0x4008 => s.readLatched q off (k.auditEpoch / 2 ^ 32)
  | 0x400C => sel
  | 0x4010 => own (·.hold)
  | 0x4014 => all (·.free)
  | 0x4018 => all (·.total)
  | 0x401C => own (·.guar)
  | 0x4020 => own (·.cap)
  | 0x4024 => k.breachInfo.toNat
  | _ => 0

/-- Word n of the oldest entry of a port's event log (R105). -/
def Port.evtWord (p : Port) (n : Nat) : Nat :=
  match p.evtLog with
  | [] => 0
  | e :: _ => le32 e (4 * n)

/-- PORT_EVT_STATUS (R105). -/
def Port.evtStatus (p : Port) : Nat := p.evtLost * 2 ^ 16 + p.evtLog.length

/-- A read of the port set-up region (R103, R105, R330). -/
def State.readPort (s : State) (q : Fin 4) (off : Nat) : Nat :=
  let pt := s.port q
  if 0x8000 ≤ off ∧ off < 0xA000 then (pt.msixWord ((off - 0x8000) / 4)).toNat
  else if 0xA000 ≤ off ∧ off < 0xA040 then flags 32 fun i => decide ((off - 0xA000) * 8 + i ∈ pt.pba)
  else if 0x4000 ≤ off ∧ off < 0x5000 then s.readAudit q off
  else match off with
    | 0x0000 =>
      s.dev.power.strap.val * 2 ^ 30 + q.val * 2 ^ 28 + bit1 (q.val == 0) * 2 ^ 27 + bit1 (s.dev.manager == some q) * 2 ^ 26 +
        (allPlies.filter fun p => (s.ply p).state != .absent && (s.ply p).port == q).length
    | 0x0004 =>
      pt.speed * 2 ^ 28 + pt.width * 2 ^ 23 + bit1 (at' pt.ide 0 != 0) * 2 ^ 22 + (bit1 (at' pt.ide 1 != 0) + bit1 (at' pt.ide 2 != 0)) * 2 ^ 20 + pt.linkDowns
    | 0x0014 => pt.ptmSeq.toNat
    | 0x0018 => (DWord.lo pt.ptmDev).toNat
    | 0x001C => (DWord.hi pt.ptmDev).toNat
    | 0x0020 => (DWord.lo pt.ptmHost).toNat
    | 0x0024 => (DWord.hi pt.ptmHost).toNat
    | 0x3004 => pt.evtStatus
    | _ => if 0x3010 ≤ off ∧ off < 0x3030 ∧ off % 4 = 0 then pt.evtWord ((off - 0x3010) / 4) else pt.reg off

/-- A read of a port's mailbox (R294). -/
def State.readMbx (s : State) (q : Fin 4) (off : Nat) : Nat :=
  let m := (s.port q).mbx
  if off < 0x20200 then (Map.get m.req 0 ((off - 0x20000) / 4)).toNat
  else if off < 0x20400 then (Map.get m.rsp 0 ((off - 0x20200) / 4)).toNat
  else match off with
    | 0x20400 => (s.port q).reg off
    | 0x20404 => m.reqProd
    | 0x20408 => m.reqCons
    | 0x2040C => m.rspProd
    | 0x20410 => m.rspCons
    | 0x20414 => s.dev.ely.state.code * 2 ^ 29 + m.dropped
    | _ => 0

/-! Ply pages -/

/-- A submission ring's registers (R72). -/
def SubRing.readReg (g : SubRing) (off : Nat) : Nat :=
  match off with
  | 0x0 => bit1 g.enable * 2 ^ 31 + g.log2Depth * 2 ^ 12 + bit1 g.poll * 2 ^ 11 + g.vec * 2 ^ 8 + bit1 g.vecEn * 2 ^ 7
  | 0x4 => bit1 (!g.enable && g.queue.isEmpty) * 2 ^ 31 + bit1 g.error * 2 ^ 30 + bit1 g.asleep * 2 ^ 29 + bit1 g.setupErr * 2 ^ 28 + min 0xFFFF g.queue.length
  | 0x8 => (DWord.lo g.base).toNat
  | 0xC => (DWord.hi g.base).toNat
  | _ => 0

/-- The completion ring's registers (R72). -/
def CplRing.readReg (c : CplRing) (off : Nat) : Nat :=
  match off with
  | 0x0 => bit1 c.enable * 2 ^ 31 + c.log2Depth * 2 ^ 12
  | 0x4 => bit1 (!c.enable && c.reserved == 0) * 2 ^ 31 + bit1 c.asleep * 2 ^ 29 + bit1 c.setupErr * 2 ^ 28 + min 0xFFFF c.reserved
  | 0x8 => (DWord.lo c.base).toNat
  | 0xC => (DWord.hi c.base).toNat
  | _ => 0

/-- A read of ply page `p` (R38, R72). -/
def State.readPage (s : State) (q : Fin 4) (p : Fin 64) (off : Nat) : Nat :=
  let y := s.ply p
  if !s.dev.pageOpen q p then 0
  else if 0x40 ≤ off then
    match fin? 4 ((off - 0x40) / 0x20) with
    | some r => (at' y.rings r).readReg (off % 0x20)
    | none => if off < 0xE0 then y.cq.readReg (off % 0x20) else 0
  else match off with
    | 0x00 => y.cls.code * 2 ^ 30 + y.state.code * 2 ^ 26 + bit1 (y.cls == .a && at' s.skein.resvLive p) * 2 ^ 25 + p.val * 2 ^ 16
    | 0x04 => if y.cls == .a then y.pollUs else 0
    | 0x08 => (DWord.lo y.dbrBase).toNat
    | 0x0C => (DWord.hi y.dbrBase).toNat
    | 0x10 => (DWord.lo y.evtVec).toNat
    | 0x14 => (DWord.hi y.evtVec).toNat
    | 0x1C => y.evtLost
    | 0x20 => y.fenceSel
    | 0x24 => (DWord.lo (y.fence y.fenceSel)).toNat
    | 0x28 => y.fenceLatch.toNat
    | _ => 0

/-- What a read of a register on a port returns, its side effects apart (R17, R37). -/
def State.barRead (s : State) (q : Fin 4) (bar2 : Bool) (off : Nat) : Word :=
  if off % 4 ≠ 0 then 0
  else word <|
    if bar2 then match fin? 64 (off / 0x1000) with
      | some p => s.readPage q p (off % 0x1000)
      | none => 0
    else if off < 0x10000 then s.readPort q off
    else if off < 0x20000 then s.readDevice q off
    else if off < 0x21000 then s.readMbx q off
    else 0

end Sys2Proof.Machine
end

