-- ==== Sys2Proof/Machine/Registers.lean ====
section
/-! DEFINITION. Machine/Registers.lean: register writes by access type, clamp and discard rule (R8, R17-R19, R37, R38), and the reads of the port set-up
region that change state. A field whose write has a row of its own is that row's; the write of its register through REGISTER_WRITE leaves it alone. -/
namespace Sys2Proof.Machine

/-! Device set-up region -/

/-- A register's value after a write: the bits that are not writable keep theirs, the rest is brought into range (R18). -/
def merged (mask off old v : Nat) : Nat := regClamp off (old - Nat.land old mask + Nat.land v mask)

/-- A register of a unit that the variant does not expose (R8): heads with their colour and signature registers, the Whorl ring on package C. -/
def Dev.unexposed (d : Dev) (off : Nat) : Bool :=
  let head := fun (base stride n : Nat) => decide (base ≤ off) && decide (off < base + stride * n) && decide (d.nHeads ≤ (off - base) / stride)
  head 0x12000 0x100 8 || head 0x13010 4 8 || head 0x13040 0x10 8 || head 0x14000 0x100 8 || (decide (0x17000 ≤ off) && decide (off < 0x18000) && !d.pkgW)

/-- A write that a lock discards (R134, R204, R381, R446). -/
def Dev.regLocked (d : Dev) (off : Nat) : Bool :=
  if 0x12000 ≤ off ∧ off < 0x12800 then bit (d.reg (off / 0x100 * 0x100)) 1 && decide (off % 0x100 ≤ 0x20)
  else if 0x14000 ≤ off ∧ off < 0x14800 then bit (d.reg (off / 0x40 * 0x40)) 30
  else if 0x18020 ≤ off ∧ off < 0x18040 then bit d.audio.lockTdm ((off - 0x18020) / 8)
  else if 0x18100 ≤ off ∧ off < 0x18300 then bit d.audio.lockOut ((off - 0x18100) / 0x10)
  else if 0x1C000 ≤ off ∧ off < 0x1C200 then match fin? 8 ((off - 0x1C000) / 0x40) with
    | some u => (d.check u).lock
    | none => false
  else false

/-- One entry of AUD_TDM_MAP: entry i (slot i % 16 of port i / 16) written with a byte; one that names an input held by a stream or mapped from
another slot is discarded (R373). -/
def Dev.writeMapEntry (d : Dev) (i b : Nat) : Dev :=
  let off := 0x18040 + 4 * (i / 4)
  let lo := 8 * (i % 4)
  let others := tdmMap fun o => if o = off then (Word.put (word (d.reg o)) (lo + 7) lo 0).toNat else d.reg o
  let taken := d.audio.streams.any (fun x => x.inputs.contains (b % 64)) || others.any fun e => e.1 == b % 64
  if bit b 7 && taken then d
  else d.setReg off (Word.put (word (d.reg off)) (lo + 7) lo (Nat.land b 0xBF)).toNat

/-- A write of the device set-up region by the manager (R18, R19). -/
def Dev.writeDevice (d : Dev) (off v : Nat) : Dev :=
  match findReg regTable off with
  | none => d
  | some (r, _) =>
    if r.mask = 0 || d.unexposed off || d.regLocked off then d
    else if 0x18040 ≤ off ∧ off < 0x18080 then
      (List.range 4).foldl (fun d j => d.writeMapEntry ((off - 0x18040) + j) (fld v (8 * j + 7) (8 * j))) d
    else
      let d := d.setReg off (merged r.mask off (d.reg off) v)
      if 0x1C000 ≤ off ∧ off < 0x1C200 then
        match fin? 8 ((off - 0x1C000) / 0x40) with
        | some u => { d with checks := upd d.checks u fun c => { c with pending := true } }
        | none => d
      else d

/-! Port set-up region and mailbox -/

/-- A write of the port set-up region by its own port (R37, R103, R330). -/
def Dev.writePort (d : Dev) (q : Fin 4) (off v : Nat) : Dev :=
  if 0x8000 ≤ off ∧ off < 0xA000 then
    let i := (off - 0x8000) / 4
    (d.updPort q fun pt => { pt with msix := Map.ins pt.msix i (word (if i % 4 = 3 then v % 2 else v)) }).flushPba q
  else match findReg portRegTable off with
    | none => d
    | some (r, _) => d.updPort q fun pt => { pt with regs := Map.ins pt.regs off (word (portRegClamp off (Nat.land v r.mask))) }

/-- A write of a port's mailbox (R294): request slots and MBX_CTL. -/
def Dev.writeMbx (d : Dev) (q : Fin 4) (off v : Nat) : Dev :=
  if off < 0x20200 then d.updPort q fun pt => { pt with mbx := { pt.mbx with req := Map.setD pt.mbx.req 0 ((off - 0x20000) / 4) (word v) } }
  else if off = 0x20400 then d.writePort q off v
  else d

/-! Ply pages -/

/-- RING_BASE as written while ENABLE is 0; LO bits [8:0] are res0 (R72, R73). -/
def baseWrite (old : DWord) (hi : Bool) (v : Nat) : DWord :=
  if hi then DWord.ofWords (word v) (DWord.lo old) else DWord.ofWords (DWord.hi old) (word (v / 512 * 512))

/-- A write of a ring's registers: RING_CTL and RING_BASE while ENABLE is 0 (R73). -/
def SubRing.writeReg (g : SubRing) (cls : PlyClass) (off v : Nat) : SubRing :=
  match off with
  | 0x0 => g.setCtl cls (word v)
  | 0x8 => if g.enable then g else { g with base := baseWrite g.base false v }
  | 0xC => if g.enable then g else { g with base := baseWrite g.base true v }
  | _ => g
@[inherit_doc SubRing.writeReg] def CplRing.writeReg (c : CplRing) (off v : Nat) : CplRing :=
  match off with
  | 0x0 => c.setCtl (word v)
  | 0x8 => if c.enable then c else { c with base := baseWrite c.base false v }
  | 0xC => if c.enable then c else { c with base := baseWrite c.base true v }
  | _ => c

/-- Some ring of the ply has ENABLE = 1 (R72). -/
def Ply.anyRing (y : Ply) : Bool := y.cq.enable || y.rings.toList.any (·.enable)

/-- A write of a ply page (R72). -/
def Ply.writePage (y : Ply) (off v : Nat) : Ply :=
  if 0x40 ≤ off then
    match fin? 4 ((off - 0x40) / 0x20) with
    | some r => { y with rings := upd y.rings r fun g => g.writeReg y.cls (off % 0x20) v }
    | none => if off < 0xE0 then { y with cq := y.cq.writeReg (off % 0x20) v } else y
  else match off with
    | 0x04 => if y.cls == .a then { y with pollUs := clampNat 2 100 (v % 128) } else y
    | 0x08 => if y.anyRing then y else { y with dbrBase := baseWrite y.dbrBase false v }
    | 0x0C => if y.anyRing then y else { y with dbrBase := baseWrite y.dbrBase true v }
    | 0x10 => { y with evtVec := DWord.ofWords (DWord.hi y.evtVec) (word v) }
    | 0x14 => { y with evtVec := DWord.ofWords (word v) (DWord.lo y.evtVec) }
    | 0x20 => { y with fenceSel := v % 4096 }
    | _ => y

/-! Rows -/

/-- REGISTER_WRITE (R18): a write of a register on a port, by access type, clamp and discard rule. The device set-up region takes writes from the
manager's port only (R19), a ply page from the ply's port only (R38); an absent port holds no mailbox (R322). -/
def execRegisterWrite (q : Fin 4) (bar2 : Bool) (off : Nat) (value : Word) (s : State) : Res := s.clocked fun s =>
  if off % 4 ≠ 0 then .next s
  else
    let v := value.toNat
    if bar2 then
      match fin? 64 (off / 0x1000) with
      | some p => .next (if s.dev.pageOpen q p then s.updPly p fun y => y.writePage (off % 0x1000) v else s)
      | none => .next s
    else if off < 0x10000 then .next (s.onDev fun d => d.writePort q off v)
    else if off < 0x20000 then
      .next (if s.dev.isManager q then (if 0x18100 ≤ off ∧ off < 0x18300 then s.audioCatchUp else s).onDev fun d => d.writeDevice off v else s)
    else if off < 0x20418 then .next (if s.dev.portPresent q then s.onDev fun d => d.writeMbx q off v else s)
    else .next s

/-- SKN_AUDIT_RELEASE (R52): a write of 1 from the manager's port clears HELD. -/
def execSknAuditRelease (q : Fin 4) (s : State) : Res := s.clocked fun s =>
  if s.dev.isManager q then .next (s.onSkein fun k => { k with held := false }) else .next s

/-- SKN_AUDIT_EPOCH_LO_READ (R52): the low word, with the high word latched until it is read; `hi` is that read. -/
def execSknAuditEpochLoRead (q : PairRead) (s : State) : Res := s.clocked fun s => .next (s.readPair q.port 0x4004 s.skein.auditEpoch q.hi)

/-- PORT_EVT_DATA7_READ (R105): word 7 of the oldest entry, which is removed. -/
def execPortEvtData7Read (q : Fin 4) (s : State) : Res := s.clocked fun s =>
  let v := (s.port q).evtWord 7
  .next ((s.updPort q fun pt => { pt with evtLog := pt.evtLog.drop 1 }).emit (.regValue q 0x302C (word v)))

/-- PORT_EVT_STATUS_READ (R105): LOST and COUNT; LOST is cleared. -/
def execPortEvtStatusRead (q : Fin 4) (s : State) : Res := s.clocked fun s =>
  let v := (s.port q).evtStatus
  .next ((s.updPort q fun pt => { pt with evtLost := 0 }).emit (.regValue q 0x3004 (word v)))

end Sys2Proof.Machine
end

