-- ==== Sys2Proof/Machine/Parse.lean ====
section
/-! DEFINITION. Machine/Parse.lean: a descriptor at the head of its ring is parsed and checked, reads its device memory and reserves its completion
entry (R85, R86). The checks run in the order of R85: BAD_OPCODE, BAD_FIELD, NO_UNIT, NOT_PERMITTED. -/
namespace Sys2Proof.Machine

/-- The opcodes of R89. -/
def knownOpcode (op : Nat) : Bool :=
  ([0x01, 0x02, 0x03, 0x10, 0x11, 0x12, 0x20, 0x21, 0x22, 0x30, 0x31, 0x40, 0x41, 0x42, 0x50, 0x51, 0x60, 0x70, 0x71] : List Nat).contains op

/-- A device address has 40 bits (R89). -/
def devAddrOk (a : Nat) : Bool := decide (a < 2 ^ 40)

/-- The payload fields of an opcode are in range and its other bytes are 0 (R89, R206, R368, R387, R411, R444). COMMIT and LAYER have checks of their
own. With CLOSE set, AUD_OPEN uses only its handle (log entry 76). -/
def InFlight.payloadOk (f : InFlight) (clusters : Nat) : Bool :=
  let b := f.bytes
  let w32 := le64 b 32
  let w40 := le64 b 40
  let n40 := le32 b 40
  let n48 := le32 b 48
  match f.opcode with
  | 0x01 => f.restZero []
  | 0x02 => f.restZero [(32, 4)] && decide (le32 b 32 ≤ 1000000) && f.waitEn
  | 0x03 => f.restZero [(32, 8)] && w32 % 8 == 0 && f.signalEn
  | 0x10 =>
    f.restZero [(32, 8), (40, 8), (48, 4), (52, 1)] && within 1 (2 ^ 30) n48 && decide (byteAt b 52 < 4) && (bit (byteAt b 52) 0 || devAddrOk w32) &&
      (bit (byteAt b 52) 1 || devAddrOk w40)
  | 0x11 =>
    f.restZero [(32, 8), (40, 4), (44, 4), (48, 1)] && within 4 (2 ^ 30) n40 && n40 % 4 == 0 && (byteAt b 48 == 0 || byteAt b 48 == 2) &&
      (bit (byteAt b 48) 1 || devAddrOk w32)
  | 0x12 =>
    f.restZero [(32, 8), (40, 4), (44, 1), (45, 1), (48, 8)] && decide (byteAt b 44 < 8) && decide (byteAt b 45 < 4) && decide (n40 ≤ 2 ^ 30) &&
      (f.chkHost || devAddrOk w32)
  | 0x22 => f.restZero [(32, 8), (40, 8), (48, 1)] && byteAt b 48 / 64 == 0 && !bit (byteAt b 48) 3
  | 0x30 | 0x31 =>
    f.restZero [(32, 8), (40, 4), (44, 1), (48, 8), (56, 4)] && w32 % 64 == 0 && devAddrOk w32 && n40 % 4 == 0 && within 1 (2 ^ 24) n40 &&
      within 1 (min 16 clusters) (byteAt b 44)
  | 0x40 =>
    f.restZero [(32, 4), (36, 4), (40, 1)] && decide (byteAt b 32 < 16) && decide (byteAt b 33 < 2) &&
      (bit (byteAt b 33) 0 || (within 1 8 (byteAt b 34) && decide (byteAt b 35 ≤ 2) && within 8000 192000 (le32 b 36) && decide (byteAt b 40 < 64)))
  | 0x41 => f.restZero [(32, 2), (40, 8), (48, 4)] && decide (byteAt b 32 < 16) && decide (byteAt b 33 < 2)
  | 0x42 => f.restZero [(32, 2), (34, 2), (36, 4), (40, 2)] && decide (byteAt b 32 < 16) && decide (byteAt b 33 < 2)
  | 0x50 =>
    f.restZero [(32, 3), (36, 2)] && decide (byteAt b 32 < 8) && decide (byteAt b 33 < 32) && decide (byteAt b 34 < 16) && within 1 0x4000 (le16 b 36)
  | 0x51 =>
    f.restZero [(32, 2), (40, 8), (48, 4)] && decide (byteAt b 32 < 8) && decide (byteAt b 33 < 32) && devAddrOk w40 && within 18 2416 n48 && n48 % 2 == 0
  | 0x60 => f.restZero [(32, 1), (40, 8), (48, 4)] && decide (byteAt b 32 < 4) && devAddrOk w40 && n48 == 128
  | 0x70 =>
    f.restZero [(32, 8), (40, 8), (48, 4), (52, 1)] && w32 % 65536 == 0 && w40 % 65536 == 0 && within 1 16384 n48 && decide (w32 + n48 * 65536 ≤ 2 ^ 40) &&
      decide (w40 + n48 * 65536 ≤ 2 ^ 40) && decide (byteAt b 52 < 4)
  | 0x71 => f.restZero [(32, 8), (48, 4)] && w32 % 65536 == 0 && within 1 16384 n48 && decide (w32 + n48 * 65536 ≤ 2 ^ 40)
  | _ => false

/-- Head and region that a SIG_EXPECT names. -/
def InFlight.sigHead (f : InFlight) : Fin 8 := ⟨byteAt f.bytes 48 % 8, by omega⟩
@[inherit_doc InFlight.sigHead] def InFlight.sigRegion (f : InFlight) : Fin 4 := ⟨byteAt f.bytes 48 / 16 % 4, by omega⟩

/-- Mixer inputs that an AUD_OPEN names. -/
def InFlight.audInputs (f : InFlight) : List Nat := (List.range (byteAt f.bytes 34)).map (byteAt f.bytes 40 + ·)

/-- What the policy grants to the ply of what the descriptor names (R85, R198, R368, R377, R385, R443). -/
def Dev.granted (d : Dev) (p : Fin 64) (f : InFlight) : Bool :=
  let e := d.entry p
  let b := f.bytes
  match f.opcode with
  | 0x12 => bit (d.check f.chkUnit).grant p.val
  | 0x22 => d.sigOwner f.sigHead f.sigRegion == some p.val
  | 0x40 => bit (byteAt b 33) 0 || f.audInputs.all e.inputs.contains
  | 0x42 => bit (byteAt b 33) 0 || (bit e.waves (byteAt b 32) && Nat.land (le32 b 36) e.outputs == le32 b 36)
  | 0x50 | 0x51 => e.haptics.contains (byteAt b 32)
  | 0x60 => d.panelValid f.tchPanel && d.panelOwner f.tchPanel == p
  | _ => true

/-- The checks of R85 that need no device memory, LAYER's apart. -/
def Dev.parseCheck (d : Dev) (p : Fin 64) (f : InFlight) : Nat :=
  if !knownOpcode f.opcode then stBadOpcode
  else if f.opcode = 0x20 then d.commitCheck p f
  else if !f.headerOk || !f.payloadOk d.nClusters then stBadField
  else if f.opcode = 0x22 ∧ !d.headExposed f.sigHead then stNoUnit
  else if f.opcode = 0x22 ∧ d.slave f.sigHead then stBadField
  else if !d.granted p f then stNotPermitted
  else stOk

/-- The device memory that TCH_CONFIG and HAP_LOAD read at parse: address and length (R387, R410). -/
def InFlight.parseRead (f : InFlight) : Option (Nat × Nat) :=
  if f.opcode = 0x51 ∨ f.opcode = 0x60 then some (le64 f.bytes 40, le32 f.bytes 48) else none

/-- The checks of the memory read: the touch block and its channels, or the effect record (R385, R387, R410). -/
def Dev.blockCheck (d : Dev) (p : Fin 64) (f : InFlight) (bs : List Byte) : Nat :=
  if f.opcode = 0x60 then
    if !touchBlockOk bs (d.drives f.tchPanel) then stBadField
    else if (touchChannels bs).all (d.entry p).haptics.contains then stOk else stNotPermitted
  else if (hapRecord bs (le32 f.bytes 48)).isNone then stBadField else stOk

/-- One completion entry is reserved, or the descriptor waits for one in order; none while the completion ring is disabled (R86). -/
def State.reserveEntry (s : State) (p : Fin 64) (r : Fin 4) (order : Nat) : State :=
  if !(s.ply p).cq.enable then s.updDesc p r order fun f => { f with phase := .parsed }
  else
    let s := s.onDev (·.reportLost p)
    let c := (s.ply p).cq
    if c.waiters.isEmpty && decide (0 < c.freeEntries) then
      (s.updCq p fun c => { c with reserved := c.reserved + 1 }).updDesc p r order fun f => { f with phase := .parsed, reserved := true }
    else ((s.updCq p fun c => { c with waiters := c.waiters ++ [.reserve r order] }).updDesc p r order fun f => { f with phase := .waitEntry }).wantCons p

/-- A LAYER at the head of its ring (R159, R161, R191): it is checked, unless a COMMIT's acceptance has had it checked already. One that failed waits
for the COMMIT that claims it. -/
def State.parseLayer (s : State) (p : Fin 64) (r : Fin 4) (f : InFlight) : State :=
  match (if f.seen then some (s, f.status) else s.checkLayer p r f) with
  | none => s
  | some (s, st) =>
    (if st = stOk then s.reserveEntry p r f.order else s.updDesc p r f.order fun f => { f with phase := .dispatched }).groupsOnLayer p r f.order

/-- A parsed descriptor reserves its entry; where its wait is reached already, it is armed (R25, R86). -/
def State.holdOrArm (s : State) (p : Fin 64) (r : Fin 4) (order : Nat) : State := (s.reserveEntry p r order).releaseHead p r

/-- DESCRIPTOR_PARSE (R85, R86): the accepted descriptor at the head of its ring. A refused MEM take holds the parse. -/
def execDescriptorParse (p : Fin 64) (r : Fin 4) (s : State) : Res := s.clocked fun s =>
  match (s.ring p r).head with
  | none => .next s
  | some f =>
    if !s.intake p || f.phase != .accepted then .next s
    else if f.opcode = 0x21 then .next (s.parseLayer p r f)
    else
      let st := s.dev.parseCheck p f
      if f.opcode = 0x20 ∧ st ≠ stOk then .next (s.settleGroup p r f)
      else if st ≠ stOk then .next (s.finishDesc p r f.order st [])
      else match f.parseRead with
        | none => .next (s.holdOrArm p r f.order)
        | some (a, n) =>
          if !s.dev.mapped p a n false then .next (s.finishDesc p r f.order stNotPermitted [])
          else match s.takeMem (plyHolder p) (unitsOf a n) [(a, n)] with
            | none => .next s
            | some s => match s.plyRead p a n with
              | none => .next (s.faultAt p a n false .weevil)
              | some bs =>
                let st := s.dev.blockCheck p f bs
                if st ≠ stOk then .next (s.finishDesc p r f.order st [])
                else .next ((s.updDesc p r f.order fun f => { f with block := bs }).holdOrArm p r f.order)

end Sys2Proof.Machine
end

