-- ==== Sys2Proof/Machine/Scalar.lean ====
section
/-! DEFINITION. Machine/Scalar.lean: the SCL rows: scalar and predicate instructions (R247), branches and reconvergence, synchronisation and
interlock (R220, R248, R256). -/
namespace Sys2Proof.Machine

/-! Scalar, SCL 0x00-0x0E -/

/-- S.MOV (R247): sD := A. -/
def execSMov (c : Fin 16) (w : Nat) (s : State) : Res := s.sclOp c w 0x00 1 fun a _ => a

/-- S.MOVI (R247): sD := SIMM, sign-extended. -/
def execSMovi (c : Fin 16) (w : Nat) (s : State) : Res := s.scl c w 0x01 0 fun i _ _ s => s.advance i (i.wave.setS (i.f 47 41) (unsigned 32 i.simm))

/-- S.Add (R247): A + B. -/
def execSAdd (c : Fin 16) (w : Nat) (s : State) : Res := s.sclOp c w 0x02 2 fun a b => a + b

/-- S.Sub (R247): A - B. -/
def execSSub (c : Fin 16) (w : Nat) (s : State) : Res := s.sclOp c w 0x03 2 fun a b => a + 2 ^ 32 - b

/-- S.MulLo (R247): low 32 bits of A x B. -/
def execSMulLo (c : Fin 16) (w : Nat) (s : State) : Res := s.sclOp c w 0x04 2 fun a b => a * b

/-- S.And (R247): bitwise and. -/
def execSAnd (c : Fin 16) (w : Nat) (s : State) : Res := s.sclOp c w 0x05 2 fun a b => Nat.land a b

/-- S.Or (R247): bitwise or. -/
def execSOr (c : Fin 16) (w : Nat) (s : State) : Res := s.sclOp c w 0x06 2 fun a b => Nat.lor a b

/-- S.Xor (R247): bitwise exclusive or. -/
def execSXor (c : Fin 16) (w : Nat) (s : State) : Res := s.sclOp c w 0x07 2 fun a b => Nat.xor a b

/-- S.Shl (R247): A shifted left by B[4:0]. -/
def execSShl (c : Fin 16) (w : Nat) (s : State) : Res := s.sclOp c w 0x08 2 fun a b => a * 2 ^ (b % 32)

/-- S.ShrU (R247): A shifted right by B[4:0]. -/
def execSShrU (c : Fin 16) (w : Nat) (s : State) : Res := s.sclOp c w 0x09 2 fun a b => a / 2 ^ (b % 32)

/-- S.MinU (R247): unsigned minimum. -/
def execSMinU (c : Fin 16) (w : Nat) (s : State) : Res := s.sclOp c w 0x0A 2 fun a b => min a b

/-- S.MaxU (R247): unsigned maximum. -/
def execSMaxU (c : Fin 16) (w : Nat) (s : State) : Res := s.sclOp c w 0x0B 2 fun a b => max a b

/-- S.CmpEq (R247): 1 if A = B, else 0. -/
def execSCmpEq (c : Fin 16) (w : Nat) (s : State) : Res := s.sclOp c w 0x0C 2 fun a b => bit1 (a == b)

/-- S.CmpLtU (R247): 1 if A < B unsigned, else 0. -/
def execSCmpLtU (c : Fin 16) (w : Nat) (s : State) : Res := s.sclOp c w 0x0D 2 fun a b => bit1 (decide (a < b))

/-- S.CmpLtI (R247): 1 if A < B signed, else 0. -/
def execSCmpLtI (c : Fin 16) (w : Nat) (s : State) : Res := s.sclOp c w 0x0E 2 fun a b => bit1 (decide (signed 32 a < signed 32 b))

/-! Predicate, SCL 0x20-0x26 -/

/-- P.AND (R247): pD := pA and pB, in all 32 bits. -/
def execPAnd (c : Fin 16) (w : Nat) (s : State) : Res := s.sclPred c w 0x20 fun a b => a &&& b

/-- P.OR (R247): pD := pA or pB, in all 32 bits. -/
def execPOr (c : Fin 16) (w : Nat) (s : State) : Res := s.sclPred c w 0x21 fun a b => a ||| b

/-- P.XOR (R247): pD := pA xor pB, in all 32 bits. -/
def execPXor (c : Fin 16) (w : Nat) (s : State) : Res := s.sclPred c w 0x22 fun a b => a ^^^ b

/-- P.ANDN (R247): pD := pA and not pB, in all 32 bits. -/
def execPAndn (c : Fin 16) (w : Nat) (s : State) : Res := s.sclPred c w 0x23 fun a b => a &&& ~~~b

/-- P.NOT (R247): pD := not pA. -/
def execPNot (c : Fin 16) (w : Nat) (s : State) : Res := s.sclPred c w 0x24 fun a _ => ~~~a

/-- P.TOS (R247): sD := pA. -/
def execPTos (c : Fin 16) (w : Nat) (s : State) : Res := s.scl c w 0x25 0 fun i _ _ s => s.advance i (i.wave.setS (i.f 47 41) i.p0.toNat)

/-- P.FROMS (R247): pD := sA. -/
def execPFroms (c : Fin 16) (w : Nat) (s : State) : Res := s.scl c w 0x26 1 fun i a _ s => s.advance i (i.wave.setPred (i.f 43 41) (word a))

/-! Branches, SCL 0x40-0x44 -/

/-- BRA (R248): branch by SIMM. -/
def execBra (c : Fin 16) (w : Nat) (s : State) : Res := s.branch c w 0x40 0 fun _ _ => true

/-- BRA.SZ (R248): branch if sA is zero. -/
def execBraSz (c : Fin 16) (w : Nat) (s : State) : Res := s.branch c w 0x41 1 fun _ a => a == 0

/-- BRA.SNZ (R248): branch if sA is not zero. -/
def execBraSnz (c : Fin 16) (w : Nat) (s : State) : Res := s.branch c w 0x42 1 fun _ a => a != 0

/-- BRA.PANY (R248): branch if pA and AMASK is non-zero. -/
def execBraPany (c : Fin 16) (w : Nat) (s : State) : Res := s.branch c w 0x43 0 fun i _ => i.p0 &&& i.wave.amask != 0

/-- BRA.PNONE (R248): branch if pA and AMASK is zero. -/
def execBraPnone (c : Fin 16) (w : Nat) (s : State) : Res := s.branch c w 0x44 0 fun i _ => i.p0 &&& i.wave.amask == 0

/-! Reconvergence, SCL 0x45-0x4D. An entry's lanes that have been killed never come back (R220, R248). -/

/-- The wave goes on at the next instruction, or at `pc` where no lane is active. -/
def State.reconverge (s : State) (i : Issue) (w : Wave) (pc : Nat) : State := if w.amask = 0 then s.jump i w pc else s.advance i w

/-- IF (R248): push AMASK, then AMASK := AMASK and pA; if that is 0, branch by SIMM. -/
def execIf (c : Fin 16) (w : Nat) (s : State) : Res := s.scl c w 0x45 0 fun i _ _ s =>
  let m := i.wave.amask &&& i.p0
  match i.wave.push { mask := i.wave.amask, isLoop := false, ifMask := m, resume := 0, stop := 0, cont := 0 } with
  | none => s.badIns i
  | some x => s.reconverge i { x with amask := m } i.target

/-- ELSE (R248): AMASK := top entry and not the AMASK that IF set; if that is 0, branch by SIMM. -/
def execElse (c : Fin 16) (w : Nat) (s : State) : Res := s.scl c w 0x46 0 fun i _ _ s =>
  match i.wave.stack with
  | [] => s.badIns i
  | e :: _ => s.reconverge i { i.wave with amask := e.mask &&& ~~~e.ifMask &&& ~~~i.wave.killed } i.target

/-- ENDIF (R248): pop into AMASK. -/
def execEndif (c : Fin 16) (w : Nat) (s : State) : Res := s.scl c w 0x47 0 fun i _ _ s =>
  match i.wave.stack with
  | [] => s.badIns i
  | e :: t => s.advance i { i.wave with amask := e.mask &&& ~~~i.wave.killed, stack := t }

/-- LOOP (R248): push AMASK and the address after LOOP; SIMM reaches the matching ENDLOOP. -/
def execLoop (c : Fin 16) (w : Nat) (s : State) : Res := s.scl c w 0x48 0 fun i _ _ s =>
  match i.wave.push { mask := i.wave.amask, isLoop := true, ifMask := 0, resume := i.next, stop := i.target, cont := 0 } with
  | none => s.badIns i
  | some x => s.advance i x

/-- The innermost loop of a stack: the entries inside it, its entry, the entries around it. -/
def innerLoop : List StackEntry → Option (List StackEntry × StackEntry × List StackEntry)
  | [] => none
  | e :: t => if e.isLoop then some ([], e, t) else (innerLoop t).map fun x => (e :: x.1, x.2)

/-- Lanes leave the entries inside their loop. -/
def dropLanes (es : List StackEntry) (m : BitVec 32) : List StackEntry := es.map fun e => { e with mask := e.mask &&& ~~~m }

/-- The address after the instruction at `pc`. -/
def State.pastIns (s : State) (j : Job) (pc : Nat) : Nat :=
  match s.fetch j pc with
  | .ins _ _ n => n
  | .fault _ => pc + 8

/-- BREAK (R248): the lanes of pA leave the loop. With no lane left in it, the wave goes on past ENDLOOP and pops. -/
def execBreak (c : Fin 16) (w : Nat) (s : State) : Res := s.scl c w 0x49 0 fun i _ _ s =>
  match innerLoop i.wave.stack with
  | none => s.badIns i
  | some (inner, e, outer) =>
    let gone := i.wave.amask &&& i.p0
    let amask := i.wave.amask &&& ~~~i.p0
    let inner := dropLanes inner gone
    let left := inner.foldl (fun m x => m ||| x.mask) (amask ||| e.cont)
    if left &&& ~~~i.wave.killed = 0 then
      s.jump i { i.wave with amask := e.mask &&& ~~~i.wave.killed, stack := outer } (s.pastIns i.job e.stop)
    else s.advance i { i.wave with amask := amask, stack := inner ++ e :: outer }

/-- CONT (R248): the lanes of pA wait at ENDLOOP for the next iteration. -/
def execCont (c : Fin 16) (w : Nat) (s : State) : Res := s.scl c w 0x4A 0 fun i _ _ s =>
  match innerLoop i.wave.stack with
  | none => s.badIns i
  | some (inner, e, outer) =>
    let wait := i.wave.amask &&& i.p0
    s.advance i { i.wave with amask := i.wave.amask &&& ~~~wait,
                              stack := dropLanes inner wait ++ { e with cont := e.cont ||| wait } :: outer }

/-- ENDLOOP (R248): lanes that continue and lanes that wait form AMASK and branch to the loop start; with none, pop. -/
def execEndloop (c : Fin 16) (w : Nat) (s : State) : Res := s.scl c w 0x4B 0 fun i _ _ s =>
  match innerLoop i.wave.stack with
  | none => s.badIns i
  | some (_, e, outer) =>
    let again := (i.wave.amask ||| e.cont) &&& ~~~i.wave.killed
    if again = 0 then s.advance i { i.wave with amask := e.mask &&& ~~~i.wave.killed, stack := outer }
    else s.jump i { i.wave with amask := again, stack := { e with cont := 0 } :: outer } e.resume

/-- Lanes leave their interlock region, by ILK.END or by a discard inside it (R220). -/
def WaveWork.leave (k : WaveWork) (m : BitVec 32) : WaveWork :=
  match k with
  | .fragment f open' left late => .fragment f (open' &&& ~~~m) (left ||| (open' &&& m)) late
  | k => k

/-- KILL (R220, R248): fragment only; lanes of pA and AMASK are discarded and leave AMASK for good. -/
def execKill (c : Fin 16) (w : Nat) (s : State) : Res := s.scl c w 0x4C 0 fun i _ _ s =>
  match i.wave.work with
  | .fragment _ _ _ _ =>
    let m := i.wave.amask &&& i.p0
    s.advance i { i.wave with amask := i.wave.amask &&& ~~~m, killed := i.wave.killed ||| m, work := i.wave.work.leave m }
  | _ => s.badIns i

/-- END (R248): the wave ends, entries left on its stack or not. -/
def execWaveEnd (c : Fin 16) (w : Nat) (s : State) : Res := s.scl c w 0x4D 0 fun i _ _ s => s.endWave c i.job i.wave

/-! Synchronisation and interlock, SCL 0x60-0x66 -/

/-- BAR (R248): waits until every wave of the workgroup has reached it; outside compute it does nothing. -/
def execBar (c : Fin 16) (w : Nat) (s : State) : Res := s.scl c w 0x60 0 fun i _ _ s =>
  match i.wave.work with
  | .compute g => (s.advance i { i.wave with barrier := true }).updCluster c fun k => { k with ctx := k.ctx.releaseBar g }
  | _ => s.advance i i.wave

/-- MEMBAR.WG (R256): the model's accesses already take effect in order. -/
def execMembarWg (c : Fin 16) (w : Nat) (s : State) : Res := s.scl c w 0x61 0 fun i _ _ s => s.advance i i.wave

/-- MEMBAR.DEV (R256): invalidates the cluster's L1; stores reach the L2 at once. -/
def execMembarDev (c : Fin 16) (w : Nat) (s : State) : Res := s.scl c w 0x62 0 fun i _ _ s =>
  (s.advance i i.wave).updCluster c fun k => { k with l1 := [] }

/-- IDLE (R248): the wave issues nothing for SIMM[15:0] CD03 cycles, which the model does not count. -/
def execIdle (c : Fin 16) (w : Nat) (s : State) : Res := s.scl c w 0x63 0 fun i _ _ s => s.advance i i.wave

/-- TIME (R248): sD, sD+1 := DEVTIME, low word first. sD must be even. -/
def execTime (c : Fin 16) (w : Nat) (s : State) : Res := s.scl c w 0x64 0 fun i _ _ s =>
  let d := i.f 47 41
  if d % 2 = 1 then s.badIns i
  else s.advance i ((i.wave.setS d s.dev.devtime).setS (d + 1) (s.dev.devtime / 2 ^ 32))

/-- Whether an earlier fragment at one of the pixels still keeps a wave out of its region (R220). -/
def Context.ilkHeld (x : Context) (f : FragWave) (want : BitVec 32) : Bool :=
  let covers := fun (g : FragWave) (l : Nat) => match g.quads[l / 4]? with
    | some q => if (atD q.lanes (l % 4) { cover := 0, depth := [], z := 0, invw := 0, vars := [] }).cover = 0 then none else some (q.x + l % 2, q.y + l % 4 / 2)
    | none => none
  let mine := (lanesOf want).filterMap (covers f)
  x.waves.any fun v => match v.work with
    | .fragment g _ left _ => decide (g.order < f.order) &&
        (lanesOf (v.live &&& ~~~v.killed &&& ~~~left)).any fun l => match covers g l with
          | some p => mine.contains p
          | none => false
    | _ => false

/-- ILK.BEGIN (R220): opens the interlock region of lanes that have had none, once every earlier fragment at their pixels has left its own;
until then the wave waits. Outside fragment shaders it does nothing. -/
def execIlkBegin (c : Fin 16) (w : Nat) (s : State) : Res := s.scl c w 0x65 0 fun i _ _ s =>
  match i.wave.work with
  | .fragment f open' left late =>
    let want := i.wave.amask &&& ~~~open' &&& ~~~left
    if (s.cluster c).ctx.ilkHeld f want then s
    else s.advance i { i.wave with work := .fragment f (open' ||| want) left late }
  | _ => s.advance i i.wave

/-- ILK.END (R220): closes the region; outside it, it does nothing. -/
def execIlkEnd (c : Fin 16) (w : Nat) (s : State) : Res := s.scl c w 0x66 0 fun i _ _ s =>
  s.advance i { i.wave with work := i.wave.work.leave i.wave.amask }

end Sys2Proof.Machine
end

