-- ==== Sys2Proof/Machine/Spdm.lean ====
section
/-! DEFINITION. Machine/Spdm.lean: the SPDM responder of a port and its IDE keys (R308-R311). The message codes and the order of the connection's
requests are PRESUMED from the SPDM 1.2 standard, which R309 names; keys and signatures are not computed (log entry 61). -/
namespace Sys2Proof.Machine

/-- An SPDM 1.2 message: version, code, two parameters, payload. -/
def spdmMsg (code p1 p2 : Nat) (payload : List Byte) : List Byte := [0x12] ++ bytesOf 1 code ++ bytesOf 1 p1 ++ bytesOf 1 p2 ++ payload

/-- ERROR responses: UnexpectedRequest, UnsupportedRequest, SessionLimitExceeded, InvalidRequest. -/
def spdmUnexpected : List Byte := spdmMsg 0x7F 0x04 0 []
@[inherit_doc spdmUnexpected] def spdmUnsupported : List Byte := spdmMsg 0x7F 0x07 0 []
@[inherit_doc spdmUnexpected] def spdmSessionLimit : List Byte := spdmMsg 0x7F 0x0A 0 []
@[inherit_doc spdmUnexpected] def spdmInvalid : List Byte := spdmMsg 0x7F 0x01 0 []

/-- A response leaves the port's DOE mailbox. -/
def State.doe (s : State) (q : Fin 4) (bs : List Byte) : State := s.emit (.doe q bs)

/-- `n` bytes that the manual fixes no value for: a signature, a key share, a certificate, a MAC (log entry 61). -/
def State.freeBytes (s : State) (n : Nat) : State × List Byte := (s.tick, (List.range n).map (Config.freeByte s.dev.fresh))

/-- A request reaches a responder: Elytra runs, the port's link is up (R309). -/
def State.spdm (s : State) (q : Fin 4) (act : State → State) : Res :=
  s.clocked fun s => if s.dev.ely.state = .running ∧ (s.port q).linkUp then .next (act s) else .next s

/-- The SPDM connection of a port with its phase set. -/
def State.spdmPhase (s : State) (q : Fin 4) (n : Nat) : State := s.updPort q fun pt => { pt with spdm := { pt.spdm with phase := n } }

/-- GET_VERSION (R309): only version 1.2 is offered; the connection starts again. Sessions go on. -/
def execGetVersion (q : Fin 4) (s : State) : Res :=
  s.spdm q fun s => (s.spdmPhase q 1).doe q ([0x10, 0x04, 0, 0, 0, 1] ++ bytesOf 2 0x1200)

/-- GET_CAPABILITIES (R309): certificates, challenge, signed measurements, key exchange, heartbeat, key update, encryption and MAC; no mutual
authentication, no pre-shared keys. -/
def execGetCapabilities (q : Fin 4) (s : State) : Res :=
  s.spdm q fun s =>
    if (s.port q).spdm.phase = 1 then
      (s.spdmPhase q 2).doe q (spdmMsg 0x61 0 0 ([0, 0, 0, 0] ++ bytesOf 4 0x000062D6 ++ bytesOf 4 4096 ++ bytesOf 4 4096))
    else s.doe q spdmUnexpected

/-- NEGOTIATE_ALGORITHMS (R309): ECDSA P-384, SHA-384, secp384r1, AES-256-GCM are selected where the requester offers all of them. -/
def execNegotiateAlgorithms (q : Fin 4) (offered : Bool) (s : State) : Res :=
  s.spdm q fun s =>
    if (s.port q).spdm.phase ≠ 2 then s.doe q spdmUnexpected
    else if !offered then s.doe q spdmInvalid
    else (s.spdmPhase q 3).doe q (spdmMsg 0x63 2 0 (bytesOf 4 0x80 ++ bytesOf 4 0x2 ++ bytesOf 2 0x10 ++ bytesOf 2 0x2))

/-- A request that needs a negotiated connection. -/
def State.negotiated (s : State) (q : Fin 4) (act : State → State) : Res :=
  s.spdm q fun s => if (s.port q).spdm.phase = 3 then act s else s.doe q spdmUnexpected

/-- The certificate chains (R309): slot 0 as written at manufacture; slot 1 adds the alias certificate, which binds the alias key to the ELY_FW digest. -/
def Ely.chain (e : Ely) (slot : Nat) : List Byte :=
  Config.certificate [] ++ if slot = 1 then Config.certificate (p384Public e.aliasKey ++ e.fwDigest) else []

/-- GET_DIGESTS (R309): the digests of the chains in slots 0 and 1. -/
def execGetDigests (q : Fin 4) (s : State) : Res :=
  s.negotiated q fun s => s.doe q (spdmMsg 0x01 0 3 (sha384 (s.dev.ely.chain 0) ++ sha384 (s.dev.ely.chain 1)))

/-- GET_CERTIFICATE (R309): up to `part.len` bytes of a chain from `part.off` on, with how many remain; only slots 0 and 1 exist. -/
def execGetCertificate (q : Fin 4) (slot : Nat) (part : ChainPart) (s : State) : Res :=
  s.negotiated q fun s =>
    if 2 ≤ slot then s.doe q spdmInvalid
    else
      let rest := (s.dev.ely.chain slot).drop part.off
      let c := rest.take (min part.len 4080)
      s.doe q (spdmMsg 0x02 slot 0 (bytesOf 2 c.length ++ bytesOf 2 (min 65535 (rest.length - c.length)) ++ c))

/-- CHALLENGE (R309): signed with the alias key. -/
def execChallenge (q : Fin 4) (slot : Nat) (s : State) : Res :=
  s.negotiated q fun s =>
    if 2 ≤ slot then s.doe q spdmInvalid
    else
      let (s, c) := s.freeBytes 176
      s.doe q (spdmMsg 0x03 slot 3 c)

/-- A measurement block: index, specification 1, a digest of 48 bytes (R310). -/
def measurementBlock (e : Ely) (i : Fin 8) : List Byte := bytesOf 1 (i.val + 1) ++ [1] ++ bytesOf 2 51 ++ [BitVec.ofNat 8 i.val] ++ bytesOf 2 48 ++ at' e.measures i

/-- GET_MEASUREMENTS (R309, R310): operation 0 the number of blocks, 1-8 one block, 0xFF all of them; the signature is the alias key's. -/
def execGetMeasurements (q : Fin 4) (op : Nat) (signed : Bool) (s : State) : Res :=
  s.negotiated q fun s =>
    let e := s.dev.ely
    let (s, sig) := if signed then s.freeBytes 96 else (s, [])
    if op = 0 then s.doe q (spdmMsg 0x60 8 0 ([0, 0, 0, 0] ++ sig))
    else if op = 0xFF then
      let body := (allFin 8).flatMap (measurementBlock e)
      s.doe q (spdmMsg 0x60 0 0 ([8] ++ bytesOf 3 body.length ++ body ++ sig))
    else match fin? 8 (op - 1) with
      | some i => let body := measurementBlock e i; s.doe q (spdmMsg 0x60 0 0 ([1] ++ bytesOf 3 body.length ++ body ++ sig))
      | none => s.doe q spdmInvalid

/-- A session of a port. -/
def Spdm.session (x : Spdm) (id : Fin 4) : Option SpdmSession := x.sessions.find? (·.id == id.val)

/-- A fresh key: its generation number (log entry 61). -/
def State.newKey (s : State) : State × Nat :=
  (s.onDev fun d => { d with ely := { d.ely with nextKey := d.ely.nextKey + 1 } }, s.dev.ely.nextKey)

/-- KEY_EXCHANGE (R309): opens one of the port's 4 sessions. -/
def execKeyExchange (q : Fin 4) (s : State) : Res :=
  s.negotiated q fun s =>
    match (allFin 4).find? fun i => ((s.port q).spdm.session i).isNone with
    | none => s.doe q spdmSessionLimit
    | some i =>
      let (s, k) := s.newKey
      let s := s.updPort q fun pt => { pt with spdm := { pt.spdm with sessions := pt.spdm.sessions ++ [{ id := i.val, opening := true, keyGen := k }] } }
      let (s, c) := s.freeBytes 272
      s.doe q (spdmMsg 0x64 0 0 (bytesOf 2 i.val ++ c))

/-- A session changed. -/
def State.updSession (s : State) (q : Fin 4) (i : Fin 4) (f : SpdmSession → SpdmSession) : State :=
  s.updPort q fun pt => { pt with spdm := { pt.spdm with sessions := pt.spdm.sessions.map fun x => if x.id = i.val then f x else x } }

/-- FINISH (R309): completes an opening session; `ok` is the verdict on the requester's MAC. -/
def execFinish (q : Fin 4) (i : Fin 4) (ok : Bool) (s : State) : Res :=
  s.negotiated q fun s =>
    match (s.port q).spdm.session i with
    | some x =>
      if !x.opening then s.doe q spdmUnexpected
      else if !ok then (s.updPort q fun pt => { pt with spdm := { pt.spdm with sessions := pt.spdm.sessions.filter (·.id != i.val) } }).doe q (spdmMsg 0x7F 0x06 0 [])
      else (s.updSession q i fun x => { x with opening := false }).doe q (spdmMsg 0x65 0 0 [])
    | none => s.doe q spdmUnexpected

/-- A request inside an established session. -/
def State.inSession (s : State) (q : Fin 4) (i : Fin 4) (act : State → State) : Res :=
  s.spdm q fun s =>
    match (s.port q).spdm.session i with
    | some x => if x.opening then s.doe q spdmUnexpected else act s
    | none => s.doe q spdmUnexpected

/-- KEY_UPDATE (R309): the session's keys change. -/
def execKeyUpdate (q : Fin 4) (i : Fin 4) (s : State) : Res :=
  s.inSession q i fun s =>
    let (s, k) := s.newKey
    (s.updSession q i fun x => { x with keyGen := k }).doe q (spdmMsg 0x69 0 0 [])

/-- SPDM HEARTBEAT (R309). -/
def execSpdmHeartbeat (q : Fin 4) (i : Fin 4) (s : State) : Res := s.inSession q i fun s => s.doe q (spdmMsg 0x68 0 0 [])

/-- END_SESSION (R308, R309): the session and its keys end. -/
def execEndSession (q : Fin 4) (i : Fin 4) (s : State) : Res :=
  s.inSession q i fun s =>
    (s.updPort q fun pt => { pt with spdm := { pt.spdm with sessions := pt.spdm.sessions.filter (·.id != i.val) } }).doe q (spdmMsg 0x6C 0 0 [])

/-- VENDOR_DEFINED (R309): the envelope of IDE_KM. A request that carries no IDE_KM message has no effect but its response. -/
def execVendorDefined (q : Fin 4) (i : Fin 4) (s : State) : Res := s.inSession q i fun s => s.doe q (spdmMsg 0x7E 0 0 [])

/-- KEY_PROG (R308, R311): an IDE key of a stream (0 link, 1 and 2 selective) is loaded into the port's engine, inside an SPDM session on the
same port. -/
def execKeyProg (q : Fin 4) (i : Fin 4) (stream : Fin 3) (s : State) : Res :=
  s.inSession q i fun s =>
    let (s, k) := s.newKey
    (s.updPort q fun pt => { pt with ide := put pt.ide stream k }).doe q (spdmMsg 0x7E 0 0 [0x03])

/-- K_SET_STOP (R308): a stream's IDE keys end. -/
def execKSetStop (q : Fin 4) (i : Fin 4) (stream : Fin 3) (s : State) : Res :=
  s.inSession q i fun s => (s.updPort q fun pt => { pt with ide := put pt.ide stream 0 }).doe q (spdmMsg 0x7E 0 0 [0x06])

end Sys2Proof.Machine
end

