-- ==== Sys2Proof/Machine/Tex.lean ====
section
/-! DEFINITION. Machine/Tex.lean: the TEX rows: texture entries, their linear and sparse layouts, residency, filtering (R221-R225, R250-R253).
What the manual leaves to a sampler's design is in log entry 69. -/
namespace Sys2Proof.Machine

/-! Entries (R221, R252) -/

/-- A texture entry. -/
structure TexEntry where
  fmt    : Nat
  levels : Nat
  sparse : Bool
  w      : Nat
  h      : Nat
  addr   : Nat
  resid  : Nat
  stride : Nat
deriving DecidableEq, Repr

/-- Bytes of a texel. -/
def TexEntry.bpp (t : TexEntry) : Nat := targetBytes t.fmt

/-- A texture entry out of its 32 bytes; none where the instruction fails softly (R252). -/
def texEntry (e : List Byte) : Option TexEntry :=
  let t : TexEntry := { fmt := byteAt e 1, levels := fld (byteAt e 2) 3 0, sparse := bit (byteAt e 2) 4, w := le16 e 4, h := le16 e 6,
                        addr := le64 e 8, resid := le64 e 16, stride := le32 e 24 }
  let dim := fun v => decide (1 ≤ v) && decide (v ≤ 8192)
  let place := if t.sparse then t.addr % 65536 == 0 && t.resid % 64 == 0 && decide (t.resid < 2 ^ 40) && t.stride == 0
    else t.addr % 4096 == 0 && t.resid == 0 && t.stride % 256 == 0 && decide (t.w * t.bpp ≤ t.stride)
  if byteAt e 0 == 2 && decide (1 ≤ t.fmt) && decide (t.fmt ≤ 9) && decide (1 ≤ t.levels) && decide (t.levels ≤ 14) && fld (byteAt e 2) 7 5 == 0 &&
      byteAt e 3 == 0 && dim t.w && dim t.h && decide (t.addr < 2 ^ 40) && place && zeroBytes e 28 4 then some t else none

/-- A sampler entry: FILTER, ADDR, LOD_BIAS, MIN_LOD, MAX_LOD (R252). -/
structure SampEntry where
  filter : Nat
  mode   : Nat
  bias   : Nat
  lo     : Nat
  hi     : Nat
deriving DecidableEq, Repr

/-- A sampler entry out of its 32 bytes. -/
def sampEntry (e : List Byte) : Option SampEntry :=
  if byteAt e 0 == 3 && decide (byteAt e 1 < 16) && byteAt e 3 == 0 && zeroBytes e 16 16 then
    some { filter := byteAt e 1, mode := byteAt e 2, bias := le32 e 4, lo := le32 e 8, hi := le32 e 12 }
  else none

/-! Layout (R222, R253) -/

/-- Texels across and down at a level. -/
def TexEntry.lw (t : TexEntry) (l : Nat) : Nat := max 1 (t.w / 2 ^ l)
@[inherit_doc TexEntry.lw] def TexEntry.lh (t : TexEntry) (l : Nat) : Nat := max 1 (t.h / 2 ^ l)

/-- Sparse tile shape by bytes per texel (R222). -/
def TexEntry.tw (t : TexEntry) : Nat := match t.bpp with | 1 => 256 | 2 => 256 | 4 => 128 | _ => 128
@[inherit_doc TexEntry.tw] def TexEntry.th (t : TexEntry) : Nat := match t.bpp with | 1 => 256 | 2 => 128 | 4 => 128 | _ => 64

/-- The tail start T (R222). -/
def TexEntry.tail (t : TexEntry) : Nat :=
  ((List.range t.levels).find? fun l => decide (t.lw l ≤ t.tw / 2) && decide (t.lh l ≤ t.th / 2)).getD t.levels

/-- Row bytes of a level of a linear texture, or of a tail level (R222, R253). -/
def TexEntry.row (t : TexEntry) (l : Nat) : Nat := if l = 0 ∧ !t.sparse then t.stride else ceilTo (t.lw l * t.bpp) 256

/-- Tiles of a sparse level. -/
def TexEntry.tiles (t : TexEntry) (l : Nat) : Nat := ceilDiv (t.lw l) t.tw * ceilDiv (t.lh l) t.th

/-- Address of a texel (R222, R253). -/
def TexEntry.texelAddr (t : TexEntry) (l x y : Nat) : Nat :=
  if !t.sparse then
    t.addr + (List.range l).foldl (fun a k => ceilTo (a + t.row k * t.lh k) 4096) 0 + y * t.row l + x * t.bpp
  else if l < t.tail then
    let tile := ((List.range l).map t.tiles).sum + y / t.th * ceilDiv (t.lw l) t.tw + x / t.tw
    t.addr + tile * 65536 + y % t.th * (t.tw * t.bpp) + x % t.tw * t.bpp
  else
    let tile := ((List.range t.tail).map t.tiles).sum
    let ofs := ((List.range l).filter fun k => decide (t.tail ≤ k)).foldl (fun a k => ceilTo (a + t.row k * t.lh k) 256) 0
    t.addr + tile * 65536 + ofs + y * t.row l + x * t.bpp

/-- Address of the residency byte over a texel (R223). -/
def TexEntry.mapAddr (t : TexEntry) (l x y : Nat) : Nat :=
  t.resid + y * 2 ^ l / t.th * ceilDiv t.w t.tw + x * 2 ^ l / t.tw

/-! Texels -/

/-- What reading a texel gives: its FP32 components, nothing where it is not resident, or a translation fault; with the bytes read. -/
inductive Texel where
  | rgba (c : List Nat)
  | absent
  | fault (addr : Nat)
deriving DecidableEq, Repr

/-- A texel of a level (R223, R251), out of the texture cache's view of memory (R225). -/
def State.texel (s : State) (j : Job) (t : TexEntry) (l x y : Nat) : Texel :=
  let s := s.over j.tex
  let fetch := fun (_ : Unit) =>
    let a := t.texelAddr l x y
    match s.plyRead j.ply a t.bpp with
    | none => Texel.fault a
    | some bs => .rgba (sampleToF32 t.fmt (leAt bs 0 t.bpp))
  if t.sparse && decide (l < t.tail) then
    match s.plyRead j.ply (t.mapAddr l x y) 1 with
    | none => .fault (t.mapAddr l x y)
    | some bs => if min (byteAt bs 0) t.tail ≤ l then fetch () else .absent
  else fetch ()

/-- A texel position under an address mode: none reads as zero (R252). -/
def wrapAt (mode n : Nat) (x : Int) : Option Nat :=
  match mode with
  | 0 => some (x % n).toNat
  | 1 => some (clampInt 0 (n - 1) x).toNat
  | 2 => let m := (x % (2 * n)).toNat; some (if m < n then m else 2 * n - 1 - m)
  | _ => if 0 ≤ x ∧ x < n then some x.toNat else none

/-- An FP32 number in units of 2^-149, or none where it is not finite. -/
def fpFixed (v : Nat) : Option Int :=
  match f32.decode v with
  | .fin neg m e => some (let x : Int := (m * 2 ^ (e + 149).toNat : Nat); if neg then -x else x)
  | _ => none

/-- Units of 2^-149 in one. -/
def fpUnit : Nat := 2 ^ 149

/-- Position of a coordinate at a level in 1/256 texels, nearest: u x w - 0.5 + offset where filtered. -/
def bilinearPos (u : Int) (n : Nat) (ofs : Int) : Int := (2 * (u * n * 256 - 128 * fpUnit) + fpUnit) / (2 * fpUnit) + 256 * ofs

/-- Texels that a sample reads at a level, with their weights out of 65,536 (R251). -/
def TexEntry.taps (t : TexEntry) (mode : Nat) (linear : Bool) (l : Nat) (u v ofsU ofsV : Int) : List (Nat × Option (Nat × Nat)) :=
  let at? := fun (x y : Int) => match wrapAt (fld mode 1 0) (t.lw l) x, wrapAt (fld mode 3 2) (t.lh l) y with
    | some x, some y => some (x, y)
    | _, _ => none
  if linear then
    let px := bilinearPos u (t.lw l) ofsU
    let py := bilinearPos v (t.lh l) ofsV
    let a := (px % 256).toNat
    let b := (py % 256).toNat
    let x := px / 256
    let y := py / 256
    ([((256 - a) * (256 - b), at? x y), (a * (256 - b), at? (x + 1) y), ((256 - a) * b, at? x (y + 1)), (a * b, at? (x + 1) (y + 1))] :
      List (Nat × Option (Nat × Nat))).filter (·.1 != 0)
  else [(65536, at? (u * t.lw l / fpUnit + ofsU) (v * t.lh l / fpUnit + ofsV))]

/-- A weighted sum of FP32 values over a denominator, rounded once. -/
def weightedSum (den : Nat) (l : List (Nat × Nat)) : Nat :=
  match l.mapM fun x => (fpFixed x.2).map fun v => (x.1 : Int) * v with
  | none => l.foldl (fun acc x => f32.add 0 acc (f32.mul 0 (f32.roundRat 0 false x.1 den 0) x.2)) 0
  | some vs =>
    let t := vs.foldl (· + ·) 0
    if t = 0 then 0 else f32.roundRat 0 (decide (t < 0)) t.natAbs (den * fpUnit) 0

/-- What a sample gives: components; a texel that is not resident; a fault. -/
def gather (den : Nat) (ts : List (Nat × Texel)) : Texel :=
  match ts.findSome? fun x => match x.2 with | .fault a => some a | _ => none with
  | some a => .fault a
  | none =>
    if ts.any fun x => x.2 == .absent then .absent
    else .rgba ((List.range 4).map fun k => weightedSum den (ts.map fun x => (x.1, match x.2 with | .rgba c => c.getD k 0 | _ => 0)))

/-- A tap's texel; a position outside reads as zero. -/
def State.tap (s : State) (j : Job) (t : TexEntry) (l : Nat) (x : Nat × Option (Nat × Nat)) : Nat × Texel :=
  match x.2 with
  | some (px, py) => (x.1, s.texel j t l px py)
  | none => (x.1, .rgba [0, 0, 0, 0])

/-- A sample at given levels with weights out of `den`. -/
def State.sampleLevels (s : State) (j : Job) (t : TexEntry) (mode : Nat) (linear : Bool) (ls : List (Nat × Nat)) (den : Nat) (u v ou ov : Int) : Texel :=
  gather (65536 * den) (ls.flatMap fun lv => (t.taps mode linear lv.1 u v ou ov).map fun x =>
    let (w, tx) := s.tap j t lv.1 x
    (w * lv.2, tx))

/-- CLAMP (R224): bilinear at the next levels until every texel is resident. -/
def State.clampDown (s : State) (j : Job) (t : TexEntry) (mode : Nat) (u v ou ov : Int) : Nat → Nat → Texel
  | 0, _ => .absent
  | n + 1, l =>
    if t.levels ≤ l then .absent
    else match s.sampleLevels j t mode true [(l, 1)] 1 u v ou ov with
      | .absent => s.clampDown j t mode u v ou ov n (l + 1)
      | r => r

/-- A sample's components and residency flag, or the address that faults (R224). -/
def State.resident (s : State) (j : Job) (t : TexEntry) (mode : Nat) (zero : Bool) (u v ou ov : Int) (l lane : Nat) (r : Texel) : Except Nat (List Nat × Bool) :=
  match r with
  | .rgba c => .ok (c, true)
  | .fault a => .error a
  | .absent =>
    if zero then .ok ([0, 0, 0, 0], false)
    else match s.clampDown j t mode u v ou ov 16 (l + 1) with
      | .rgba c => .ok (c, false)
      | .fault a => .error a
      | .absent => .ok ((List.range 4).map fun k => (Config.freeWord (s.dev.fresh + 4 * lane + k)).toNat, false)

/-- Level that a level of detail starts at, whether it is filtered, and the levels with their weights (R251). -/
def TexEntry.levelsAt (t : TexEntry) (m : SampEntry) (lod : Nat) : Nat × Bool × List (Nat × Nat) :=
    let lam := f32.minmax false (f32.minmax true (f32.add 0 lod m.bias) m.lo) m.hi
    let lam := f32.minmax false (f32.minmax true lam 0) (f32.fromInt 0 (t.levels - 1))
    let x := ((fpFixed lam).getD 0).toNat
    let linear := bit m.filter (if x = 0 then 0 else 1)
    let l := x / fpUnit
    let part := x % fpUnit
    let ls := if !bit m.filter 3 then [(0, fpUnit)]
      else if bit m.filter 2 then (if part = 0 then [(l, fpUnit)] else [(l, fpUnit - part), (min (l + 1) (t.levels - 1), part)])
      else [(if 2 * part < fpUnit then l else min (l + 1) (t.levels - 1), fpUnit)]
    (l, linear, ls)

/-- A filtered sample of a lane at a level of detail (R251). -/
def State.sampleLane (s : State) (j : Job) (t : TexEntry) (m : SampEntry) (zero : Bool) (uv : Nat × Nat) (lod : Nat) (ou ov : Int) (lane : Nat) :
    Except Nat (List Nat × Bool) :=
  match fpFixed uv.1, fpFixed uv.2 with
  | some u, some v =>
    let (l, linear, ls) := t.levelsAt m lod
    s.resident j t m.mode zero u v ou ov l lane (s.sampleLevels j t m.mode linear ls fpUnit u v ou ov)
  | _, _ => .ok ((List.range 4).map fun k => (Config.freeWord (s.dev.fresh + 4 * lane + k)).toNat, true)

/-- A texel fetch of a lane (R250). -/
def State.fetchLane (s : State) (j : Job) (t : TexEntry) (zero : Bool) (u v : Int) (l lane : Nat) : Except Nat (List Nat × Bool) :=
  if l < t.levels ∧ 0 ≤ u ∧ 0 ≤ v ∧ u < t.lw l ∧ v < t.lh l then
    s.resident j t 5 zero ((2 * u + 1) * fpUnit / (2 * t.lw l)) ((2 * v + 1) * fpUnit / (2 * t.lh l)) 0 0 l lane (s.texel j t l u.toNat v.toNat)
  else .ok ([0, 0, 0, 0], true)

/-! What a sample reads (R223, R225, R235) -/

/-- Ranges of memory that a texel of a level is read from: its residency byte, and the texel where it is resident. -/
def State.texelReads (s : State) (j : Job) (t : TexEntry) (l x y : Nat) : List (Nat × Nat) :=
  let map := if t.sparse && decide (l < t.tail) then [(t.mapAddr l x y, 1)] else []
  if s.texel j t l x y = .absent then map else map ++ [(t.texelAddr l x y, t.bpp)]

/-- Ranges that a sample reads at given levels. -/
def State.levelReads (s : State) (j : Job) (t : TexEntry) (mode : Nat) (linear : Bool) (ls : List (Nat × Nat)) (u v ou ov : Int) : List (Nat × Nat) :=
  ls.flatMap fun lv => (t.taps mode linear lv.1 u v ou ov).flatMap fun x => match x.2 with
    | some (px, py) => s.texelReads j t lv.1 px py
    | none => []

/-- Ranges that CLAMP reads. -/
def State.clampReads (s : State) (j : Job) (t : TexEntry) (mode : Nat) (u v ou ov : Int) : Nat → Nat → List (Nat × Nat)
  | 0, _ => []
  | n + 1, l =>
    if t.levels ≤ l then []
    else s.levelReads j t mode true [(l, 1)] u v ou ov ++
      match s.sampleLevels j t mode true [(l, 1)] 1 u v ou ov with
      | .absent => s.clampReads j t mode u v ou ov n (l + 1)
      | _ => []

/-- Ranges that a sample reads, with those of the mode for texels that are not resident. -/
def State.residentReads (s : State) (j : Job) (t : TexEntry) (mode : Nat) (zero : Bool) (u v ou ov : Int) (l : Nat) (r : Texel) (rs : List (Nat × Nat)) :
    List (Nat × Nat) :=
  if r = .absent ∧ !zero then rs ++ s.clampReads j t mode u v ou ov 16 (l + 1) else rs

/-- Ranges that a lane's sample reads, and a lane's fetch. -/
def State.sampleReads (s : State) (j : Job) (t : TexEntry) (m : SampEntry) (zero : Bool) (uv : Nat × Nat) (lod : Nat) (ou ov : Int) : List (Nat × Nat) :=
  match fpFixed uv.1, fpFixed uv.2 with
  | some u, some v =>
    let (l, linear, ls) := t.levelsAt m lod
    s.residentReads j t m.mode zero u v ou ov l (s.sampleLevels j t m.mode linear ls fpUnit u v ou ov) (s.levelReads j t m.mode linear ls u v ou ov)
  | _, _ => []
@[inherit_doc State.sampleReads] def State.fetchReads (s : State) (j : Job) (t : TexEntry) (zero : Bool) (u v : Int) (l : Nat) : List (Nat × Nat) :=
  if l < t.levels ∧ 0 ≤ u ∧ 0 ≤ v ∧ u < t.lw l ∧ v < t.lh l then
    s.residentReads j t 5 zero ((2 * u + 1) * fpUnit / (2 * t.lw l)) ((2 * v + 1) * fpUnit / (2 * t.lh l)) 0 0 l (s.texel j t l u.toNat v.toNat)
      (s.texelReads j t l u.toNat v.toNat)
  else []

/-! Rows -/

/-- A texture instruction: the entries, the lanes' results, the registers from VDST on and the residency predicate (R244, R252). What it reads passes
through the texture cache; it waits while MEM for that is refused. -/
def State.tex (s : State) (c : Fin 16) (w op : Nat) (sampled : Bool)
    (lane : Issue → TexEntry → SampEntry → Nat → State → Except Nat (List Nat × Bool))
    (reads : Issue → TexEntry → SampEntry → Nat → State → List (Nat × Nat)) : Res :=
  s.issue c w 3 op fun i s =>
    if i.f 2 0 != 0 then s.badIns i
    else
      let table := i.wave.stage.table
      let bad := fun (k : Nat) => s.faultAt i.job.ply (table + 32 * k) 32 false .raster
      match s.resource i (i.f 31 24), (if sampled then s.resource i (i.f 23 16) else some []) with
      | none, _ => bad (i.f 31 24)
      | _, none => bad (i.f 23 16)
      | some te, some se =>
        let none' : SampEntry := { filter := 0, mode := 0, bias := 0, lo := 0, hi := 0 }
        let entries := match texEntry te, (if sampled then sampEntry se else some none') with
          | some t, some m => some (t, m)
          | _, _ => none
        let ls := lanesOf i.active
        let rs := ls.map fun l => match entries with
          | some (t, m) => lane i t m l s
          | none => .ok ([0, 0, 0, 0], false)
        match rs.findSome? fun r => match r with | .error a => some a | .ok _ => none with
        | some a => s.faultAt i.job.ply a 1 false .raster
        | none =>
          let own := (table + 32 * i.f 31 24, 32) :: if sampled then [(table + 32 * i.f 23 16, 32)] else []
          match s.fillTex i.c i.job.ply (own ++ match entries with | some (t, m) => ls.flatMap fun l => reads i t m l s | none => []) with
          | none => s
          | some s =>
          let vals := ls.zip (rs.map fun r => match r with | .ok v => v | .error _ => ([], false))
          let x := vals.foldl (fun (x : Wave) v => x.putWords (i.f 47 40) v.1 v.2.1) i.wave
          let act := i.active
          let flag := laneMask fun l => vals.any fun v => v.1 == l && v.2.2
          let x := if bit i.ins 15 then x.setPred (i.f 14 12) ((i.wave.pred (i.f 14 12) &&& ~~~act) ||| (flag &&& act)) else x
          (s.onDev fun d => { d with fresh := d.fresh + 128 }).advance i x

/-- Coordinate registers of a lane. -/
def Issue.crd (i : Issue) (k lane : Nat) : Nat := i.wave.vreg (i.f 39 32 + k) lane

/-- Texel offsets, signed. -/
def Issue.offU (i : Issue) : Int := signed 4 (i.f 10 7)
@[inherit_doc Issue.offU] def Issue.offV (i : Issue) : Int := signed 4 (i.f 6 3)

/-- The level of detail from the derivatives of a lane's quad; 0 outside fragment shaders (R250; only its accuracy is given). -/
def Issue.derived (i : Issue) (t : TexEntry) (lane : Nat) : Nat :=
  match i.wave.work with
  | .fragment _ _ _ _ =>
    (Config.lod ((List.range 8).map fun k => word (i.crd (k % 2) (lane / 4 * 4 + k / 2))) t.w t.h).toNat
  | _ => 0

/-- SAMPLE (R250, R251): a filtered sample at the derived level of detail. -/
def execSample (c : Fin 16) (w : Nat) (s : State) : Res := s.tex c w 0x00 true (fun i t m l s =>
  s.sampleLane i.job t m (bit i.ins 11) (i.crd 0 l, i.crd 1 l) (i.derived t l) i.offU i.offV l)
  (fun i t m l s => s.sampleReads i.job t m (bit i.ins 11) (i.crd 0 l, i.crd 1 l) (i.derived t l) i.offU i.offV)

/-- SAMPLE.L (R250, R251): the level of detail in VCRD+2. -/
def execSampleL (c : Fin 16) (w : Nat) (s : State) : Res := s.tex c w 0x01 true (fun i t m l s =>
  s.sampleLane i.job t m (bit i.ins 11) (i.crd 0 l, i.crd 1 l) (i.crd 2 l) i.offU i.offV l)
  (fun i t m l s => s.sampleReads i.job t m (bit i.ins 11) (i.crd 0 l, i.crd 1 l) (i.crd 2 l) i.offU i.offV)

/-- SAMPLE.B (R250, R251): the derived level of detail plus the bias in VCRD+2. -/
def execSampleB (c : Fin 16) (w : Nat) (s : State) : Res := s.tex c w 0x02 true (fun i t m l s =>
  s.sampleLane i.job t m (bit i.ins 11) (i.crd 0 l, i.crd 1 l) (f32.add 0 (i.derived t l) (i.crd 2 l)) i.offU i.offV l)
  (fun i t m l s => s.sampleReads i.job t m (bit i.ins 11) (i.crd 0 l, i.crd 1 l) (f32.add 0 (i.derived t l) (i.crd 2 l)) i.offU i.offV)

/-- FETCH (R250): integer texel and level, unfiltered; a texel outside the level returns 0. -/
def execFetch (c : Fin 16) (w : Nat) (s : State) : Res := s.tex c w 0x03 false (fun i t _ l s =>
  s.fetchLane i.job t (bit i.ins 11) (signed 32 (i.crd 0 l) + i.offU) (signed 32 (i.crd 1 l) + i.offV) (i.crd 2 l) l)
  (fun i t _ l s => s.fetchReads i.job t (bit i.ins 11) (signed 32 (i.crd 0 l) + i.offU) (signed 32 (i.crd 1 l) + i.offV) (i.crd 2 l))

end Sys2Proof.Machine
end

