-- ==== Sys2Proof/Machine/Vector.lean ====
section
/-! DEFINITION. Machine/Vector.lean: the vector arithmetic instructions (R247). -/
namespace Sys2Proof.Machine

/-! Integer, VEC 0x00-0x1A. Every result wraps modulo 2^32. -/

/-- MOV.B32 (R247): A. -/
def execMovB32 (c : Fin 16) (w : Nat) (s : State) : Res := s.vec c w 0x00 int1 fun _ a _ _ _ => a

/-- ADD.I32 (R247): A + B. -/
def execAddI32 (c : Fin 16) (w : Nat) (s : State) : Res := s.vec c w 0x01 int2 fun _ a b _ _ => a + b

/-- SUB.I32 (R247): A - B. -/
def execSubI32 (c : Fin 16) (w : Nat) (s : State) : Res := s.vec c w 0x02 int2 fun _ a b _ _ => a + 2 ^ 32 - b

/-- MUL.LO.U32 (R247): low 32 bits of A x B. -/
def execMulLoU32 (c : Fin 16) (w : Nat) (s : State) : Res := s.vec c w 0x03 int2 fun _ a b _ _ => a * b

/-- MUL.HI.U32 (R247): high 32 bits of the unsigned product. -/
def execMulHiU32 (c : Fin 16) (w : Nat) (s : State) : Res := s.vec c w 0x04 int2 fun _ a b _ _ => a * b / 2 ^ 32

/-- MUL.HI.I32 (R247): high 32 bits of the signed product. -/
def execMulHiI32 (c : Fin 16) (w : Nat) (s : State) : Res := s.vec c w 0x05 int2 fun _ a b _ _ =>
  unsigned 64 (signed 32 a * signed 32 b) / 2 ^ 32

/-- MAD.U32 (R247): low 32 bits of A x B + C. -/
def execMadU32 (c : Fin 16) (w : Nat) (s : State) : Res := s.vec c w 0x06 int3 fun _ a b c _ => a * b + c

/-- MIN.I32 (R247): signed minimum. -/
def execMinI32 (c : Fin 16) (w : Nat) (s : State) : Res := s.vec c w 0x07 int2 fun _ a b _ _ => if signed 32 a ≤ signed 32 b then a else b

/-- MAX.I32 (R247): signed maximum. -/
def execMaxI32 (c : Fin 16) (w : Nat) (s : State) : Res := s.vec c w 0x08 int2 fun _ a b _ _ => if signed 32 a ≤ signed 32 b then b else a

/-- MIN.U32 (R247): unsigned minimum. -/
def execMinU32 (c : Fin 16) (w : Nat) (s : State) : Res := s.vec c w 0x09 int2 fun _ a b _ _ => min a b

/-- MAX.U32 (R247): unsigned maximum. -/
def execMaxU32 (c : Fin 16) (w : Nat) (s : State) : Res := s.vec c w 0x0A int2 fun _ a b _ _ => max a b

/-- AND (R247): bitwise and. -/
def execAnd (c : Fin 16) (w : Nat) (s : State) : Res := s.vec c w 0x0B int2 fun _ a b _ _ => Nat.land a b

/-- OR (R247): bitwise or. -/
def execOr (c : Fin 16) (w : Nat) (s : State) : Res := s.vec c w 0x0C int2 fun _ a b _ _ => Nat.lor a b

/-- XOR (R247): bitwise exclusive or. -/
def execXor (c : Fin 16) (w : Nat) (s : State) : Res := s.vec c w 0x0D int2 fun _ a b _ _ => Nat.xor a b

/-- NOT (R247): bitwise not of A. -/
def execNot (c : Fin 16) (w : Nat) (s : State) : Res := s.vec c w 0x0E int1 fun _ a _ _ _ => 2 ^ 32 - 1 - a

/-- SHL (R247): A shifted left by B[4:0]. -/
def execShl (c : Fin 16) (w : Nat) (s : State) : Res := s.vec c w 0x0F int2 fun _ a b _ _ => a * 2 ^ (b % 32)

/-- SHR.U (R247): A shifted right by B[4:0], zeros in. -/
def execShrU (c : Fin 16) (w : Nat) (s : State) : Res := s.vec c w 0x10 int2 fun _ a b _ _ => a / 2 ^ (b % 32)

/-- SHR.I (R247): A shifted right by B[4:0], sign in. -/
def execShrI (c : Fin 16) (w : Nat) (s : State) : Res := s.vec c w 0x11 int2 fun _ a b _ _ => unsigned 32 (signed 32 a / 2 ^ (b % 32))

/-- FIELD.U32 (R247): bits of A from B[4:0], C[5:0] bits long, zero-extended. -/
def execFieldU32 (c : Fin 16) (w : Nat) (s : State) : Res := s.vec c w 0x12 int3 fun _ a b c _ => a / 2 ^ (b % 32) % 2 ^ (c % 64)

/-- FIELD.I32 (R247): as FIELD.U32, sign-extended; a length of 0 gives 0. -/
def execFieldI32 (c : Fin 16) (w : Nat) (s : State) : Res := s.vec c w 0x13 int3 fun _ a b c _ =>
  if c % 64 = 0 then 0 else unsigned 32 (signed (c % 64) (a / 2 ^ (b % 32)))

/-- MERGE (R247): (A and B) or (not A and C). -/
def execMerge (c : Fin 16) (w : Nat) (s : State) : Res := s.vec c w 0x14 int3 fun _ a b c _ =>
  Nat.lor (Nat.land a b) (Nat.land (2 ^ 32 - 1 - a) c)

/-- POPC (R247): number of bits set in A. -/
def execPopc (c : Fin 16) (w : Nat) (s : State) : Res := s.vec c w 0x15 int1 fun _ a _ _ _ => ((List.range 32).filter (bit a)).length

/-- LOWBIT (R247): index of the lowest set bit, or all ones. -/
def execLowbit (c : Fin 16) (w : Nat) (s : State) : Res := s.vec c w 0x16 int1 fun _ a _ _ _ =>
  ((List.range 32).find? (bit a)).getD (2 ^ 32 - 1)

/-- HIGHBIT (R247): index of the highest set bit, or all ones. -/
def execHighbit (c : Fin 16) (w : Nat) (s : State) : Res := s.vec c w 0x17 int1 fun _ a _ _ _ =>
  if a = 0 then 2 ^ 32 - 1 else bitLen a - 1

/-- SEL (R247): A where the SRC2 predicate bit is 1, else B. -/
def execSel (c : Fin 16) (w : Nat) (s : State) : Res :=
  s.issue c w 0 0x18 fun i s =>
    if !(i.vecOk int2 && i.f 21 16 == 0) then s.badIns i
    else
      let x := (lanesOf i.active).foldl (fun (x : Wave) l =>
        x.setV (i.f 47 40) l (if (i.wave.pred (i.f 15 13)).getLsbD l then i.vsrc int2 0 l else i.vsrc int2 1 l)) i.wave
      s.advance i x

/-- LANE.GET (R247): scalar D := A of lane B[4:0], whether or not that lane is active. B is taken from the lowest active lane, where it is a
vector register (log entry 67). -/
def execLaneGet (c : Fin 16) (w : Nat) (s : State) : Res :=
  s.issue c w 0 0x19 fun i s =>
    if !(i.vecOk int2 && !bit i.ins 47) then s.badIns i
    else
      let from' := (lanesOf i.active).headD 0
      s.advance i (i.wave.setS (i.f 46 40) (i.vsrc int2 0 (i.vsrc int2 1 from' % 32)))

/-- LANE.LOW (R247): scalar D := A of the lowest active lane, or 0 if none. -/
def execLaneLow (c : Fin 16) (w : Nat) (s : State) : Res :=
  s.issue c w 0 0x1A fun i s =>
    if !(i.vecOk int1 && !bit i.ins 47) then s.badIns i
    else
      let v := match lanesOf i.active with
        | [] => 0
        | l :: _ => i.vsrc int1 0 l
      s.advance i (i.wave.setS (i.f 46 40) v)

/-! FP32, VEC 0x20-0x2A; packed FP16, 0x40-0x45; transcendental, 0x50-0x56; conversion, 0x60-0x69 -/

/-- ADD.F32 (R247): A + B. -/
def execAddF32 (c : Fin 16) (w : Nat) (s : State) : Res := s.vec c w 0x20 flt2 fun rnd a b _ _ => f32.add rnd a b

/-- SUB.F32 (R247): A - B. -/
def execSubF32 (c : Fin 16) (w : Nat) (s : State) : Res := s.vec c w 0x21 flt2 fun rnd a b _ _ => f32.sub rnd a b

/-- MUL.F32 (R247): A x B. -/
def execMulF32 (c : Fin 16) (w : Nat) (s : State) : Res := s.vec c w 0x22 flt2 fun rnd a b _ _ => f32.mul rnd a b

/-- FMA.F32 (R247): A x B + C, rounded once. -/
def execFmaF32 (c : Fin 16) (w : Nat) (s : State) : Res := s.vec c w 0x23 flt3 fun rnd a b c _ => f32.fma rnd a b c

/-- MIN.F32 (R247): minimum; the other operand when one is NaN. -/
def execMinF32 (c : Fin 16) (w : Nat) (s : State) : Res := s.vec c w 0x24 flt2 fun _ a b _ _ => f32.minmax false a b

/-- MAX.F32 (R247): maximum; the other operand when one is NaN. -/
def execMaxF32 (c : Fin 16) (w : Nat) (s : State) : Res := s.vec c w 0x25 flt2 fun _ a b _ _ => f32.minmax true a b

/-- FRACT.F32 (R247): A - floor(A), below 1.0. -/
def execFractF32 (c : Fin 16) (w : Nat) (s : State) : Res := s.vec c w 0x26 flt1 fun rnd a _ _ _ => f32.fract rnd a

/-- FLOOR (R247): toward -infinity. -/
def execFloor (c : Fin 16) (w : Nat) (s : State) : Res := s.vec c w 0x27 flt1 fun _ a _ _ _ => f32.integral 2 a

/-- CEIL (R247): toward +infinity. -/
def execCeil (c : Fin 16) (w : Nat) (s : State) : Res := s.vec c w 0x28 flt1 fun _ a _ _ _ => f32.integral 3 a

/-- TRUNC (R247): toward zero. -/
def execTrunc (c : Fin 16) (w : Nat) (s : State) : Res := s.vec c w 0x29 flt1 fun _ a _ _ _ => f32.integral 1 a

/-- ROUND (R247): to nearest, ties to even. -/
def execRound (c : Fin 16) (w : Nat) (s : State) : Res := s.vec c w 0x2A flt1 fun _ a _ _ _ => f32.integral 0 a

/-- H2.ADD (R247): each half A + B. -/
def execH2Add (c : Fin 16) (w : Nat) (s : State) : Res := s.vec c w 0x40 half2 fun rnd a b _ _ => halves (fun x y _ => f16.add rnd x y) a b 0

/-- H2.MUL (R247): each half A x B. -/
def execH2Mul (c : Fin 16) (w : Nat) (s : State) : Res := s.vec c w 0x41 half2 fun rnd a b _ _ => halves (fun x y _ => f16.mul rnd x y) a b 0

/-- H2.FMA (R247): each half A x B + C, rounded once. -/
def execH2Fma (c : Fin 16) (w : Nat) (s : State) : Res := s.vec c w 0x42 half3 fun rnd a b c _ => halves (f16.fma rnd) a b c

/-- H2.MIN (R247): each half the minimum. -/
def execH2Min (c : Fin 16) (w : Nat) (s : State) : Res := s.vec c w 0x43 half2 fun _ a b _ _ => halves (fun x y _ => f16.minmax false x y) a b 0

/-- H2.MAX (R247): each half the maximum. -/
def execH2Max (c : Fin 16) (w : Nat) (s : State) : Res := s.vec c w 0x44 half2 fun _ a b _ _ => halves (fun x y _ => f16.minmax true x y) a b 0

/-- DOTH.F32 (R247): A.lo x B.lo + A.hi x B.hi + C, exact products, the sum rounded once. -/
def execDothF32 (c : Fin 16) (w : Nat) (s : State) : Res := s.vec c w 0x45 { flt3 with half := true } fun rnd a b c _ => dotH rnd a b c

/-- RECIP.F32 (R247): 1 / A within 1 ulp. -/
def execRecipF32 (c : Fin 16) (w : Nat) (s : State) : Res := s.vec c w 0x50 flt1 fun _ a _ _ _ => fRecip a

/-- RSQRT.F32 (R247): 1 / sqrt A within 2 ulp. -/
def execRsqrtF32 (c : Fin 16) (w : Nat) (s : State) : Res := s.vec c w 0x51 flt1 fun _ a _ _ _ => fRsqrt a

/-- SQRT.F32 (R247): sqrt A within 1 ulp. -/
def execSqrtF32 (c : Fin 16) (w : Nat) (s : State) : Res := s.vec c w 0x52 flt1 fun _ a _ _ _ => fSqrt a

/-- EXP2.F32 (R247): 2 to the A within 2 ulp. -/
def execExp2F32 (c : Fin 16) (w : Nat) (s : State) : Res := s.vec c w 0x53 flt1 fun _ a _ _ _ => fExp2 a

/-- LOG2.F32 (R247): log2 A within 2 ulp, or 2^-21 inside [0.5, 2]. -/
def execLog2F32 (c : Fin 16) (w : Nat) (s : State) : Res := s.vec c w 0x54 flt1 fun _ a _ _ _ => fLog2 a

/-- SINTURN.F32 (R247): sine of A turns within 2^-20. -/
def execSinturnF32 (c : Fin 16) (w : Nat) (s : State) : Res := s.vec c w 0x55 flt1 fun _ a _ _ _ => fSinTurn 0x55 false a

/-- COSTURN.F32 (R247): cosine of A turns within 2^-20. -/
def execCosturnF32 (c : Fin 16) (w : Nat) (s : State) : Res := s.vec c w 0x56 flt1 fun _ a _ _ _ => fSinTurn 0x56 true a

/-- CVT.F32.I32 (R247): signed A as FP32, under RND. -/
def execCvtF32I32 (c : Fin 16) (w : Nat) (s : State) : Res := s.vec c w 0x60 { int1 with isInt := false, res := 1 } fun rnd a _ _ _ => f32.fromInt rnd (signed 32 a)

/-- CVT.F32.U32 (R247): unsigned A as FP32, under RND. -/
def execCvtF32U32 (c : Fin 16) (w : Nat) (s : State) : Res := s.vec c w 0x61 { int1 with isInt := false, res := 1 } fun rnd a _ _ _ => f32.fromInt rnd a

/-- CVT.I32.F32 (R247): A toward zero, saturated; NaN gives 0. -/
def execCvtI32F32 (c : Fin 16) (w : Nat) (s : State) : Res := s.vec c w 0x62 { flt1 with res := 0 } fun _ a _ _ _ =>
  unsigned 32 (f32.toRange (-(2 ^ 31)) (2 ^ 31 - 1) a)

/-- CVT.U32.F32 (R247): A toward zero, saturated; NaN gives 0. -/
def execCvtU32F32 (c : Fin 16) (w : Nat) (s : State) : Res := s.vec c w 0x63 { flt1 with res := 0 } fun _ a _ _ _ =>
  unsigned 32 (f32.toRange 0 (2 ^ 32 - 1) a)

/-- CVT.F32.F16.LO (R247): the low half of A, exactly. -/
def execCvtF32F16Lo (c : Fin 16) (w : Nat) (s : State) : Res := s.vec c w 0x64 { flt1 with mod16 := true } fun _ a _ _ _ => fpConvert f16 f32 0 (a % 65536)

/-- CVT.F32.F16.HI (R247): the high half of A, exactly. -/
def execCvtF32F16Hi (c : Fin 16) (w : Nat) (s : State) : Res := s.vec c w 0x65 { flt1 with mod16 := true } fun _ a _ _ _ => fpConvert f16 f32 0 (a / 65536)

/-- CVT.H2.F32 (R247): low half FP16(A), high half FP16(B), under RND. -/
def execCvtH2F32 (c : Fin 16) (w : Nat) (s : State) : Res := s.vec c w 0x66 { flt2 with res := 2 } fun rnd a b _ _ =>
  fpConvert f32 f16 rnd a + fpConvert f32 f16 rnd b * 65536

/-- CVT.UNORM8 (R247): D with byte B[1:0] replaced by round-half-even(clamp(A, 0, 1) x 255). -/
def execCvtUnorm8 (c : Fin 16) (w : Nat) (s : State) : Res := s.vec c w 0x67 { flt2 with fb := false, res := 0 } fun _ a b _ d =>
  let k := 2 ^ (8 * (b % 4)); d - d / k % 256 * k + f32.toUnorm 255 a * k

/-- UNPACK.UNORM8 (R247): byte B[1:0] of A, divided by 255, correctly rounded. -/
def execUnpackUnorm8 (c : Fin 16) (w : Nat) (s : State) : Res := s.vec c w 0x68 { int2 with isInt := false, res := 1 } fun rnd a b _ _ =>
  f32.fromUnorm rnd 255 (a / 2 ^ (8 * (b % 4)) % 256)

/-- CVT.UNORM16 (R247): D with half B[0] replaced by round-half-even(clamp(A, 0, 1) x 65,535). -/
def execCvtUnorm16 (c : Fin 16) (w : Nat) (s : State) : Res := s.vec c w 0x69 { flt2 with fb := false, res := 0 } fun _ a b _ d =>
  let k := 2 ^ (16 * (b % 2)); d - d / k % 65536 * k + f32.toUnorm 65535 a * k

/-! Compare, VEC 0x70-0x81 -/

/-- CMP.LT.F32 (R247). -/
def execCmpLtF32 (c : Fin 16) (w : Nat) (s : State) : Res := s.vecCmp c w 0x70 flt2 fun a b => f32.cmp 0 a b

/-- CMP.EQ.F32 (R247). -/
def execCmpEqF32 (c : Fin 16) (w : Nat) (s : State) : Res := s.vecCmp c w 0x71 flt2 fun a b => f32.cmp 1 a b

/-- CMP.LE.F32 (R247). -/
def execCmpLeF32 (c : Fin 16) (w : Nat) (s : State) : Res := s.vecCmp c w 0x72 flt2 fun a b => f32.cmp 2 a b

/-- CMP.GT.F32 (R247). -/
def execCmpGtF32 (c : Fin 16) (w : Nat) (s : State) : Res := s.vecCmp c w 0x73 flt2 fun a b => f32.cmp 3 a b

/-- CMP.NE.F32 (R247). -/
def execCmpNeF32 (c : Fin 16) (w : Nat) (s : State) : Res := s.vecCmp c w 0x74 flt2 fun a b => f32.cmp 4 a b

/-- CMP.GE.F32 (R247). -/
def execCmpGeF32 (c : Fin 16) (w : Nat) (s : State) : Res := s.vecCmp c w 0x75 flt2 fun a b => f32.cmp 5 a b

/-- CMP.LT.I32 (R247): signed. -/
def execCmpLtI32 (c : Fin 16) (w : Nat) (s : State) : Res := s.vecCmp c w 0x76 int2 fun a b => decide (signed 32 a < signed 32 b)

/-- CMP.EQ.I32 (R247): signed. -/
def execCmpEqI32 (c : Fin 16) (w : Nat) (s : State) : Res := s.vecCmp c w 0x77 int2 fun a b => signed 32 a == signed 32 b

/-- CMP.LE.I32 (R247): signed. -/
def execCmpLeI32 (c : Fin 16) (w : Nat) (s : State) : Res := s.vecCmp c w 0x78 int2 fun a b => decide (signed 32 a ≤ signed 32 b)

/-- CMP.GT.I32 (R247): signed. -/
def execCmpGtI32 (c : Fin 16) (w : Nat) (s : State) : Res := s.vecCmp c w 0x79 int2 fun a b => decide (signed 32 b < signed 32 a)

/-- CMP.NE.I32 (R247): signed. -/
def execCmpNeI32 (c : Fin 16) (w : Nat) (s : State) : Res := s.vecCmp c w 0x7A int2 fun a b => signed 32 a != signed 32 b

/-- CMP.GE.I32 (R247): signed. -/
def execCmpGeI32 (c : Fin 16) (w : Nat) (s : State) : Res := s.vecCmp c w 0x7B int2 fun a b => decide (signed 32 b ≤ signed 32 a)

/-- CMP.LT.U32 (R247): unsigned. -/
def execCmpLtU32 (c : Fin 16) (w : Nat) (s : State) : Res := s.vecCmp c w 0x7C int2 fun a b => decide (a < b)

/-- CMP.EQ.U32 (R247): unsigned. -/
def execCmpEqU32 (c : Fin 16) (w : Nat) (s : State) : Res := s.vecCmp c w 0x7D int2 fun a b => a == b

/-- CMP.LE.U32 (R247): unsigned. -/
def execCmpLeU32 (c : Fin 16) (w : Nat) (s : State) : Res := s.vecCmp c w 0x7E int2 fun a b => decide (a ≤ b)

/-- CMP.GT.U32 (R247): unsigned. -/
def execCmpGtU32 (c : Fin 16) (w : Nat) (s : State) : Res := s.vecCmp c w 0x7F int2 fun a b => decide (b < a)

/-- CMP.NE.U32 (R247): unsigned. -/
def execCmpNeU32 (c : Fin 16) (w : Nat) (s : State) : Res := s.vecCmp c w 0x80 int2 fun a b => a != b

/-- CMP.GE.U32 (R247): unsigned. -/
def execCmpGeU32 (c : Fin 16) (w : Nat) (s : State) : Res := s.vecCmp c w 0x81 int2 fun a b => decide (b ≤ a)

/-- INTERP.F32 (R247, R250): component k mod 4 of varying k / 4 at the pixel centre; 0 where the vertex shader did not export it. Fragment only.
k is an inline integer, or the literal above 31 (log entry 68). -/
def execInterpF32 (c : Fin 16) (w : Nat) (s : State) : Res :=
  s.issue c w 0 0x90 fun i s =>
    let code := i.f 39 31
    let k := i.src false code 0
    let inl := (decide (0x180 ≤ code) && decide (code < 0x1A0)) || (code == 0x1FF && i.lit.isSome)
    match i.wave.work with
    | .fragment f _ _ _ =>
      if !(i.vecOk flt1 && inl && decide (k < 64)) then s.badIns i
      else
        let d := match i.job.pass with
          | some pa => pa.draws[f.draw]?
          | none => none
        let val := fun (l : Nat) => match f.quads[l / 4]?, d with
          | some q, some d =>
            if d.exported q (k / 4) then ((atD q.lanes (l % 4) { cover := 0, depth := [], z := 0, invw := 0, vars := [] }).vars.getD k 0).toNat else 0
          | _, _ => 0
        let x := (lanesOf i.active).foldl (fun (x : Wave) l => x.setV (i.f 47 40) l (i.satd flt1 (val l))) i.wave
        s.advance i x
    | _ => s.badIns i

end Sys2Proof.Machine
end

