-- ==== Sys2Proof/Machine/Dispatch.lean ====
section
/-! DEFINITION. Machine/Dispatch.lean: which meaning each command has: one arm per constructor of Instr. -/
namespace Sys2Proof.Machine

/-- The effect of a command on everything but the queue. -/
def exec (i : Instr) (s : State) : Host.Outcome State Fault Refusal :=
  match i with
  | .registerWrite q bar2 off value => Sys2Proof.Machine.execRegisterWrite q bar2 off value s
  | .configRequest q off write => Sys2Proof.Machine.execConfigRequest q off write s
  | .epochBoundary io => Sys2Proof.Machine.execEpochBoundary io s
  | .sknAuditRelease q => Sys2Proof.Machine.execSknAuditRelease q s
  | .sknAuditEpochLoRead q => Sys2Proof.Machine.execSknAuditEpochLoRead q s
  | .creditWaitRetry n => Sys2Proof.Machine.execCreditWaitRetry n s
  | .hapRecharge => Sys2Proof.Machine.execHapRecharge s
  | .hostReadCompletion idx => Sys2Proof.Machine.execHostReadCompletion idx s
  | .htagCompletionTimeout idx poll => Sys2Proof.Machine.execHtagCompletionTimeout idx poll s
  | .iommuRefusal p addr access read => Sys2Proof.Machine.execIommuRefusal p addr access read s
  | .nudgeSq q p mask => Sys2Proof.Machine.execNudgeSq q p mask s
  | .nudgeCq q p => Sys2Proof.Machine.execNudgeCq q p s
  | .ringEnable q p ring value => Sys2Proof.Machine.execRingEnable q p ring value s
  | .ringDisable q p r => Sys2Proof.Machine.execRingDisable q p r s
  | .cqDisable q p => Sys2Proof.Machine.execCqDisable q p s
  | .fenceValLoWrite q p value => Sys2Proof.Machine.execFenceValLoWrite q p value s
  | .fenceValHiWrite q p value => Sys2Proof.Machine.execFenceValHiWrite q p value s
  | .fenceValLoRead q p => Sys2Proof.Machine.execFenceValLoRead q p s
  | .ringServiceResume p r => Sys2Proof.Machine.execRingServiceResume p r s
  | .doorbellRecordReadDone p r prod => Sys2Proof.Machine.execDoorbellRecordReadDone p r prod s
  | .slotReadDone p r slots => Sys2Proof.Machine.execSlotReadDone p r slots s
  | .pollTimer p => Sys2Proof.Machine.execPollTimer p s
  | .pollReadsDone p block slots => Sys2Proof.Machine.execPollReadsDone p block slots s
  | .descriptorParse p r => Sys2Proof.Machine.execDescriptorParse p r s
  | .cqConsReadDone p cons => Sys2Proof.Machine.execCqConsReadDone p cons s
  | .fenceWaitTimeout p r => Sys2Proof.Machine.execFenceWaitTimeout p r s
  | .descriptorRetire p r seq => Sys2Proof.Machine.execDescriptorRetire p r seq s
  | .portEvtData7Read q => Sys2Proof.Machine.execPortEvtData7Read q s
  | .portEvtStatusRead q => Sys2Proof.Machine.execPortEvtStatusRead q s
  | .nop p r => Sys2Proof.Machine.execNop p r s
  | .fenceWait p r => Sys2Proof.Machine.execFenceWait p r s
  | .fenceSignal p r => Sys2Proof.Machine.execFenceSignal p r s
  | .copy p r seq n host => Sys2Proof.Machine.execCopy p r seq n host s
  | .fill p r seq n => Sys2Proof.Machine.execFill p r seq n s
  | .check p r seq n host => Sys2Proof.Machine.execCheck p r seq n host s
  | .commit p r => Sys2Proof.Machine.execCommit p r s
  | .layer p r => Sys2Proof.Machine.execLayer p r s
  | .sigExpect p r missed => Sys2Proof.Machine.execSigExpect p r missed s
  | .gfxSubmit p r => Sys2Proof.Machine.execGfxSubmit p r s
  | .computeSubmit p r => Sys2Proof.Machine.execComputeSubmit p r s
  | .audOpen p r => Sys2Proof.Machine.execAudOpen p r s
  | .audClose p r => Sys2Proof.Machine.execAudClose p r s
  | .audBuffer p r => Sys2Proof.Machine.execAudBuffer p r s
  | .chime p r => Sys2Proof.Machine.execChime p r s
  | .chimeStop p r => Sys2Proof.Machine.execChimeStop p r s
  | .hapPlay p r => Sys2Proof.Machine.execHapPlay p r s
  | .hapLoad p r => Sys2Proof.Machine.execHapLoad p r s
  | .tchConfig p r => Sys2Proof.Machine.execTchConfig p r s
  | .mapPages p r => Sys2Proof.Machine.execMap p r s
  | .unmapPages p r => Sys2Proof.Machine.execUnmap p r s
  | .plyCreate order block => Sys2Proof.Machine.execPlyCreate order block s
  | .plyShare order => Sys2Proof.Machine.execPlyShare order s
  | .plyQuiesce order => Sys2Proof.Machine.execPlyQuiesce order s
  | .plyResume order => Sys2Proof.Machine.execPlyResume order s
  | .plyReset order => Sys2Proof.Machine.execPlyReset order s
  | .plyDestroy order => Sys2Proof.Machine.execPlyDestroy order s
  | .plyQuery order => Sys2Proof.Machine.execPlyQuery order s
  | .plyQuiesced p => Sys2Proof.Machine.execPlyQuiesced p s
  | .copyStop p r seq host => Sys2Proof.Machine.execCopyStop p r seq host s
  | .migSession order relay measures agreed => Sys2Proof.Machine.execMigSession order relay measures agreed s
  | .migLogStart order block => Sys2Proof.Machine.execMigLogStart order block s
  | .migLogSwap order => Sys2Proof.Machine.execMigLogSwap order s
  | .migLogStop order => Sys2Proof.Machine.execMigLogStop order s
  | .migExport order salt => Sys2Proof.Machine.execMigExport order salt s
  | .migImport order records => Sys2Proof.Machine.execMigImport order records s
  | .timingArm q h => Sys2Proof.Machine.execTimingArm q h s
  | .hdFrameLoRead q h => Sys2Proof.Machine.execHdFrameLoRead q h s
  | .armingCutoff h => Sys2Proof.Machine.execArmingCutoff h s
  | .frameBoundary h ref => Sys2Proof.Machine.execFrameBoundary h ref s
  | .commitArm p r => Sys2Proof.Machine.execCommitArm p r s
  | .pllLock h => Sys2Proof.Machine.execPllLock h s
  | .idleFrameEnd h same => Sys2Proof.Machine.execIdleFrameEnd h same s
  | .linkTrainStart h caps => Sys2Proof.Machine.execLinkTrainStart h caps s
  | .trainAttemptDone h ok => Sys2Proof.Machine.execTrainAttemptDone h ok s
  | .trainAttemptTimeout h => Sys2Proof.Machine.execTrainAttemptTimeout h s
  | .dpHotplugPlug h => Sys2Proof.Machine.execDpHotplugPlug h s
  | .dpHotplugUnplug h => Sys2Proof.Machine.execDpHotplugUnplug h s
  | .dpHotplugIrq h lostLock => Sys2Proof.Machine.execDpHotplugIrq h lostLock s
  | .headTolReport h held => Sys2Proof.Machine.execHeadTolReport h held s
  | .headTopupAck h => Sys2Proof.Machine.execHeadTopupAck h s
  | .underrun h handle line col => Sys2Proof.Machine.execUnderrun h handle line col s
  | .fbselRelease q => Sys2Proof.Machine.execFbselRelease q s
  | .cmpLutDataWrite q value => Sys2Proof.Machine.execCmpLutDataWrite q value s
  | .cmpLutDataRead q => Sys2Proof.Machine.execCmpLutDataRead q s
  | .tenApply order => Sys2Proof.Machine.execTenApply order s
  | .sigHoldClear q h r => Sys2Proof.Machine.execSigHoldClear q h r s
  | .sigResultLoRead q h r => Sys2Proof.Machine.execSigResultLoRead q h r s
  | .clusterOffer c => Sys2Proof.Machine.execClusterOffer c s
  | .classAPreempt p r seq => Sys2Proof.Machine.execClassAPreempt p r seq s
  | .preemptSaveDone c => Sys2Proof.Machine.execPreemptSaveDone c s
  | .gfxJobRetire p r seq => Sys2Proof.Machine.execGfxJobRetire p r seq s
  | .gfxDeadlineMiss p r seq => Sys2Proof.Machine.execGfxDeadlineMiss p r seq s
  | .pktNop o => Sys2Proof.Machine.execPktNop o s
  | .call o => Sys2Proof.Machine.execCall o s
  | .pktEnd o => Sys2Proof.Machine.execPktEnd o s
  | .saveArea o => Sys2Proof.Machine.execSaveArea o s
  | .shader o => Sys2Proof.Machine.execShader o s
  | .resources o => Sys2Proof.Machine.execResources o s
  | .constPkt o => Sys2Proof.Machine.execConst o s
  | .target o => Sys2Proof.Machine.execTarget o s
  | .raster o => Sys2Proof.Machine.execRaster o s
  | .blend o => Sys2Proof.Machine.execBlend o s
  | .draw o pages quads => Sys2Proof.Machine.execDraw o pages quads s
  | .drawIndexed o pages quads => Sys2Proof.Machine.execDrawIndexed o pages quads s
  | .drawIndirect o pages quads => Sys2Proof.Machine.execDrawIndirect o pages quads s
  | .dispatch o => Sys2Proof.Machine.execDispatch o s
  | .dispatchIndirect o => Sys2Proof.Machine.execDispatchIndirect o s
  | .pktBarrier o => Sys2Proof.Machine.execPktBarrier o s
  | .pktSignal o => Sys2Proof.Machine.execPktSignal o s
  | .timestamp o => Sys2Proof.Machine.execTimestamp o s
  | .passBegin o => Sys2Proof.Machine.execPassBegin o s
  | .passEnd o => Sys2Proof.Machine.execPassEnd o s
  | .movB32 c w => Sys2Proof.Machine.execMovB32 c w s
  | .addI32 c w => Sys2Proof.Machine.execAddI32 c w s
  | .subI32 c w => Sys2Proof.Machine.execSubI32 c w s
  | .mulLoU32 c w => Sys2Proof.Machine.execMulLoU32 c w s
  | .mulHiU32 c w => Sys2Proof.Machine.execMulHiU32 c w s
  | .mulHiI32 c w => Sys2Proof.Machine.execMulHiI32 c w s
  | .madU32 c w => Sys2Proof.Machine.execMadU32 c w s
  | .minI32 c w => Sys2Proof.Machine.execMinI32 c w s
  | .maxI32 c w => Sys2Proof.Machine.execMaxI32 c w s
  | .minU32 c w => Sys2Proof.Machine.execMinU32 c w s
  | .maxU32 c w => Sys2Proof.Machine.execMaxU32 c w s
  | .andIns c w => Sys2Proof.Machine.execAnd c w s
  | .orIns c w => Sys2Proof.Machine.execOr c w s
  | .xor c w => Sys2Proof.Machine.execXor c w s
  | .notIns c w => Sys2Proof.Machine.execNot c w s
  | .shl c w => Sys2Proof.Machine.execShl c w s
  | .shrU c w => Sys2Proof.Machine.execShrU c w s
  | .shrI c w => Sys2Proof.Machine.execShrI c w s
  | .fieldU32 c w => Sys2Proof.Machine.execFieldU32 c w s
  | .fieldI32 c w => Sys2Proof.Machine.execFieldI32 c w s
  | .merge c w => Sys2Proof.Machine.execMerge c w s
  | .popc c w => Sys2Proof.Machine.execPopc c w s
  | .lowbit c w => Sys2Proof.Machine.execLowbit c w s
  | .highbit c w => Sys2Proof.Machine.execHighbit c w s
  | .sel c w => Sys2Proof.Machine.execSel c w s
  | .laneGet c w => Sys2Proof.Machine.execLaneGet c w s
  | .laneLow c w => Sys2Proof.Machine.execLaneLow c w s
  | .addF32 c w => Sys2Proof.Machine.execAddF32 c w s
  | .subF32 c w => Sys2Proof.Machine.execSubF32 c w s
  | .mulF32 c w => Sys2Proof.Machine.execMulF32 c w s
  | .fmaF32 c w => Sys2Proof.Machine.execFmaF32 c w s
  | .minF32 c w => Sys2Proof.Machine.execMinF32 c w s
  | .maxF32 c w => Sys2Proof.Machine.execMaxF32 c w s
  | .fractF32 c w => Sys2Proof.Machine.execFractF32 c w s
  | .floor c w => Sys2Proof.Machine.execFloor c w s
  | .ceil c w => Sys2Proof.Machine.execCeil c w s
  | .trunc c w => Sys2Proof.Machine.execTrunc c w s
  | .round c w => Sys2Proof.Machine.execRound c w s
  | .h2Add c w => Sys2Proof.Machine.execH2Add c w s
  | .h2Mul c w => Sys2Proof.Machine.execH2Mul c w s
  | .h2Fma c w => Sys2Proof.Machine.execH2Fma c w s
  | .h2Min c w => Sys2Proof.Machine.execH2Min c w s
  | .h2Max c w => Sys2Proof.Machine.execH2Max c w s
  | .dothF32 c w => Sys2Proof.Machine.execDothF32 c w s
  | .recipF32 c w => Sys2Proof.Machine.execRecipF32 c w s
  | .rsqrtF32 c w => Sys2Proof.Machine.execRsqrtF32 c w s
  | .sqrtF32 c w => Sys2Proof.Machine.execSqrtF32 c w s
  | .exp2F32 c w => Sys2Proof.Machine.execExp2F32 c w s
  | .log2F32 c w => Sys2Proof.Machine.execLog2F32 c w s
  | .sinturnF32 c w => Sys2Proof.Machine.execSinturnF32 c w s
  | .costurnF32 c w => Sys2Proof.Machine.execCosturnF32 c w s
  | .cvtF32I32 c w => Sys2Proof.Machine.execCvtF32I32 c w s
  | .cvtF32U32 c w => Sys2Proof.Machine.execCvtF32U32 c w s
  | .cvtI32F32 c w => Sys2Proof.Machine.execCvtI32F32 c w s
  | .cvtU32F32 c w => Sys2Proof.Machine.execCvtU32F32 c w s
  | .cvtF32F16Lo c w => Sys2Proof.Machine.execCvtF32F16Lo c w s
  | .cvtF32F16Hi c w => Sys2Proof.Machine.execCvtF32F16Hi c w s
  | .cvtH2F32 c w => Sys2Proof.Machine.execCvtH2F32 c w s
  | .cvtUnorm8 c w => Sys2Proof.Machine.execCvtUnorm8 c w s
  | .unpackUnorm8 c w => Sys2Proof.Machine.execUnpackUnorm8 c w s
  | .cvtUnorm16 c w => Sys2Proof.Machine.execCvtUnorm16 c w s
  | .cmpLtF32 c w => Sys2Proof.Machine.execCmpLtF32 c w s
  | .cmpEqF32 c w => Sys2Proof.Machine.execCmpEqF32 c w s
  | .cmpLeF32 c w => Sys2Proof.Machine.execCmpLeF32 c w s
  | .cmpGtF32 c w => Sys2Proof.Machine.execCmpGtF32 c w s
  | .cmpNeF32 c w => Sys2Proof.Machine.execCmpNeF32 c w s
  | .cmpGeF32 c w => Sys2Proof.Machine.execCmpGeF32 c w s
  | .cmpLtI32 c w => Sys2Proof.Machine.execCmpLtI32 c w s
  | .cmpEqI32 c w => Sys2Proof.Machine.execCmpEqI32 c w s
  | .cmpLeI32 c w => Sys2Proof.Machine.execCmpLeI32 c w s
  | .cmpGtI32 c w => Sys2Proof.Machine.execCmpGtI32 c w s
  | .cmpNeI32 c w => Sys2Proof.Machine.execCmpNeI32 c w s
  | .cmpGeI32 c w => Sys2Proof.Machine.execCmpGeI32 c w s
  | .cmpLtU32 c w => Sys2Proof.Machine.execCmpLtU32 c w s
  | .cmpEqU32 c w => Sys2Proof.Machine.execCmpEqU32 c w s
  | .cmpLeU32 c w => Sys2Proof.Machine.execCmpLeU32 c w s
  | .cmpGtU32 c w => Sys2Proof.Machine.execCmpGtU32 c w s
  | .cmpNeU32 c w => Sys2Proof.Machine.execCmpNeU32 c w s
  | .cmpGeU32 c w => Sys2Proof.Machine.execCmpGeU32 c w s
  | .interpF32 c w => Sys2Proof.Machine.execInterpF32 c w s
  | .sMov c w => Sys2Proof.Machine.execSMov c w s
  | .sMovi c w => Sys2Proof.Machine.execSMovi c w s
  | .sAdd c w => Sys2Proof.Machine.execSAdd c w s
  | .sSub c w => Sys2Proof.Machine.execSSub c w s
  | .sMulLo c w => Sys2Proof.Machine.execSMulLo c w s
  | .sAnd c w => Sys2Proof.Machine.execSAnd c w s
  | .sOr c w => Sys2Proof.Machine.execSOr c w s
  | .sXor c w => Sys2Proof.Machine.execSXor c w s
  | .sShl c w => Sys2Proof.Machine.execSShl c w s
  | .sShrU c w => Sys2Proof.Machine.execSShrU c w s
  | .sMinU c w => Sys2Proof.Machine.execSMinU c w s
  | .sMaxU c w => Sys2Proof.Machine.execSMaxU c w s
  | .sCmpEq c w => Sys2Proof.Machine.execSCmpEq c w s
  | .sCmpLtU c w => Sys2Proof.Machine.execSCmpLtU c w s
  | .sCmpLtI c w => Sys2Proof.Machine.execSCmpLtI c w s
  | .pAnd c w => Sys2Proof.Machine.execPAnd c w s
  | .pOr c w => Sys2Proof.Machine.execPOr c w s
  | .pXor c w => Sys2Proof.Machine.execPXor c w s
  | .pAndn c w => Sys2Proof.Machine.execPAndn c w s
  | .pNot c w => Sys2Proof.Machine.execPNot c w s
  | .pTos c w => Sys2Proof.Machine.execPTos c w s
  | .pFroms c w => Sys2Proof.Machine.execPFroms c w s
  | .bra c w => Sys2Proof.Machine.execBra c w s
  | .braSz c w => Sys2Proof.Machine.execBraSz c w s
  | .braSnz c w => Sys2Proof.Machine.execBraSnz c w s
  | .braPany c w => Sys2Proof.Machine.execBraPany c w s
  | .braPnone c w => Sys2Proof.Machine.execBraPnone c w s
  | .ifIns c w => Sys2Proof.Machine.execIf c w s
  | .elseIns c w => Sys2Proof.Machine.execElse c w s
  | .endif c w => Sys2Proof.Machine.execEndif c w s
  | .loop c w => Sys2Proof.Machine.execLoop c w s
  | .breakIns c w => Sys2Proof.Machine.execBreak c w s
  | .cont c w => Sys2Proof.Machine.execCont c w s
  | .endloop c w => Sys2Proof.Machine.execEndloop c w s
  | .kill c w => Sys2Proof.Machine.execKill c w s
  | .waveEnd c w => Sys2Proof.Machine.execWaveEnd c w s
  | .bar c w => Sys2Proof.Machine.execBar c w s
  | .membarWg c w => Sys2Proof.Machine.execMembarWg c w s
  | .membarDev c w => Sys2Proof.Machine.execMembarDev c w s
  | .idle c w => Sys2Proof.Machine.execIdle c w s
  | .time c w => Sys2Proof.Machine.execTime c w s
  | .ilkBegin c w => Sys2Proof.Machine.execIlkBegin c w s
  | .ilkEnd c w => Sys2Proof.Machine.execIlkEnd c w s
  | .ldG c w => Sys2Proof.Machine.execLdG c w s
  | .stG c w => Sys2Proof.Machine.execStG c w s
  | .ldB c w => Sys2Proof.Machine.execLdB c w s
  | .stB c w => Sys2Proof.Machine.execStB c w s
  | .ldL c w => Sys2Proof.Machine.execLdL c w s
  | .stL c w => Sys2Proof.Machine.execStL c w s
  | .plsLd c w => Sys2Proof.Machine.execPlsLd c w s
  | .plsSt c w => Sys2Proof.Machine.execPlsSt c w s
  | .atomAdd c w => Sys2Proof.Machine.execAtomAdd c w s
  | .atomMinI c w => Sys2Proof.Machine.execAtomMinI c w s
  | .atomMinU c w => Sys2Proof.Machine.execAtomMinU c w s
  | .atomMaxI c w => Sys2Proof.Machine.execAtomMaxI c w s
  | .atomMaxU c w => Sys2Proof.Machine.execAtomMaxU c w s
  | .atomAnd c w => Sys2Proof.Machine.execAtomAnd c w s
  | .atomOr c w => Sys2Proof.Machine.execAtomOr c w s
  | .atomXor c w => Sys2Proof.Machine.execAtomXor c w s
  | .atomXchg c w => Sys2Proof.Machine.execAtomXchg c w s
  | .atomCas c w => Sys2Proof.Machine.execAtomCas c w s
  | .atomAddB c w => Sys2Proof.Machine.execAtomAddB c w s
  | .outPos c w => Sys2Proof.Machine.execOutPos c w s
  | .outVar c w => Sys2Proof.Machine.execOutVar c w s
  | .outColour c w => Sys2Proof.Machine.execOutColour c w s
  | .outDepth c w => Sys2Proof.Machine.execOutDepth c w s
  | .sample c w => Sys2Proof.Machine.execSample c w s
  | .sampleL c w => Sys2Proof.Machine.execSampleL c w s
  | .sampleB c w => Sys2Proof.Machine.execSampleB c w s
  | .fetch c w => Sys2Proof.Machine.execFetch c w s
  | .memTransferAccept client ply addr write head => Sys2Proof.Machine.execMemTransferAccept client ply addr write head s
  | .memReadReturn ch id errs unit line col => Sys2Proof.Machine.execMemReadReturn ch id errs unit line col s
  | .refreshDue ch bank => Sys2Proof.Machine.execRefreshDue ch bank s
  | .mr4Poll rates hot => Sys2Proof.Machine.execMr4Poll rates hot s
  | .bankIdleClose ch bank => Sys2Proof.Machine.execBankIdleClose ch bank s
  | .dramTraining => Sys2Proof.Machine.execDramTraining s
  | .dqsOscSample ch drifted => Sys2Proof.Machine.execDqsOscSample ch drifted s
  | .retrainSlice ch => Sys2Proof.Machine.execRetrainSlice ch s
  | .retrainForceTimeout ch => Sys2Proof.Machine.execRetrainForceTimeout ch s
  | .lightNapEnter ch => Sys2Proof.Machine.execLightNapEnter ch s
  | .lightNapExit ch => Sys2Proof.Machine.execLightNapExit ch s
  | .deepNapRequest => Sys2Proof.Machine.execDeepNapRequest s
  | .deepNapEnter => Sys2Proof.Machine.execDeepNapEnter s
  | .deepNapExit => Sys2Proof.Machine.execDeepNapExit s
  | .caParityAlert ch => Sys2Proof.Machine.execCaParityAlert ch s
  | .parityReplay ch => Sys2Proof.Machine.execParityReplay ch s
  | .patrolScrub addr errs unit => Sys2Proof.Machine.execPatrolScrub addr errs unit s
  | .memPasr order => Sys2Proof.Machine.execMemPasr order s
  | .mbxReqProdWrite q value => Sys2Proof.Machine.execMbxReqProdWrite q value s
  | .mbxRspConsWrite q value => Sys2Proof.Machine.execMbxRspConsWrite q value s
  | .mbxRequestTake fetched => Sys2Proof.Machine.execMbxRequestTake fetched s
  | .mbxResponse q => Sys2Proof.Machine.execMbxResponse q s
  | .gate => Sys2Proof.Machine.execGate s
  | .elyInfo order => Sys2Proof.Machine.execElyInfo order s
  | .containerLoad order c => Sys2Proof.Machine.execContainerLoad order c s
  | .containerStage order c => Sys2Proof.Machine.execContainerStage order c s
  | .svnCommit order => Sys2Proof.Machine.execSvnCommit order s
  | .wmRaise order => Sys2Proof.Machine.execWmRaise order s
  | .memGive order => Sys2Proof.Machine.execMemGive order s
  | .memTake order => Sys2Proof.Machine.execMemTake order s
  | .granuleScrubDone gran => Sys2Proof.Machine.execGranuleScrubDone gran s
  | .lend order => Sys2Proof.Machine.execLend order s
  | .unlend order => Sys2Proof.Machine.execUnlend order s
  | .ownerQuery order => Sys2Proof.Machine.execOwnerQuery order s
  | .audLock order => Sys2Proof.Machine.execAudLock order s
  | .elyRestartTrigger cause => Sys2Proof.Machine.execElyRestartTrigger cause s
  | .elyWatchdogExpiry => Sys2Proof.Machine.execElyWatchdogExpiry s
  | .elyRestartDone => Sys2Proof.Machine.execElyRestartDone s
  | .boot b => Sys2Proof.Machine.execBoot b s
  | .getVersion q => Sys2Proof.Machine.execGetVersion q s
  | .getCapabilities q => Sys2Proof.Machine.execGetCapabilities q s
  | .negotiateAlgorithms q offered => Sys2Proof.Machine.execNegotiateAlgorithms q offered s
  | .getDigests q => Sys2Proof.Machine.execGetDigests q s
  | .getCertificate q slot part => Sys2Proof.Machine.execGetCertificate q slot part s
  | .challenge q slot => Sys2Proof.Machine.execChallenge q slot s
  | .getMeasurements q op signed => Sys2Proof.Machine.execGetMeasurements q op signed s
  | .keyExchange q => Sys2Proof.Machine.execKeyExchange q s
  | .finish q idx ok => Sys2Proof.Machine.execFinish q idx ok s
  | .keyUpdate q idx => Sys2Proof.Machine.execKeyUpdate q idx s
  | .spdmHeartbeat q idx => Sys2Proof.Machine.execSpdmHeartbeat q idx s
  | .endSession q idx => Sys2Proof.Machine.execEndSession q idx s
  | .vendorDefined q idx => Sys2Proof.Machine.execVendorDefined q idx s
  | .keyProg q idx stream => Sys2Proof.Machine.execKeyProg q idx stream s
  | .kSetStop q idx stream => Sys2Proof.Machine.execKSetStop q idx stream s
  | .perstNAssert q => Sys2Proof.Machine.execPerstNAssert q s
  | .perstNRelease q => Sys2Proof.Machine.execPerstNRelease q s
  | .hotReset q => Sys2Proof.Machine.execHotReset q s
  | .flr q dlPending => Sys2Proof.Machine.execFlr q dlPending s
  | .dlDownDetect q => Sys2Proof.Machine.execDlDownDetect q s
  | .linkUp q speed width => Sys2Proof.Machine.execLinkUp q speed width s
  | .atsInvalidate q pasid first pages => Sys2Proof.Machine.execAtsInvalidate q pasid first pages s
  | .atsInvalidateComplete q => Sys2Proof.Machine.execAtsInvalidateComplete q s
  | .ptmTimer q => Sys2Proof.Machine.execPtmTimer q s
  | .ptmNow q value => Sys2Proof.Machine.execPtmNow q value s
  | .ptmResponse q t2 d => Sys2Proof.Machine.execPtmResponse q t2 d s
  | .powerStateChange q d3hot busMaster => Sys2Proof.Machine.execPowerStateChange q d3hot busMaster s
  | .ltrMessage q => Sys2Proof.Machine.execLtrMessage q s
  | .aspmIdleTimeout q => Sys2Proof.Machine.execAspmIdleTimeout q s
  | .wakeNAssert => Sys2Proof.Machine.execWakeNAssert s
  | .whlJoin order out => Sys2Proof.Machine.execWhlJoin order out s
  | .whlLeave order => Sys2Proof.Machine.execWhlLeave order s
  | .whlChanOpen order peerOpen transit pathFree => Sys2Proof.Machine.execWhlChanOpen order peerOpen transit pathFree s
  | .whlChanClose order => Sys2Proof.Machine.execWhlChanClose order s
  | .whlLoopTest order => Sys2Proof.Machine.execWhlLoopTest order s
  | .whlProbeReturn q far delay => Sys2Proof.Machine.execWhlProbeReturn q far delay s
  | .whlTimeMark q time adopt => Sys2Proof.Machine.execWhlTimeMark q time adopt s
  | .whlOffsetCheck => Sys2Proof.Machine.execWhlOffsetCheck s
  | .whlDelayMeasure q roundTrip => Sys2Proof.Machine.execWhlDelayMeasure q roundTrip s
  | .whlAdopt io => Sys2Proof.Machine.execWhlAdopt io s
  | .whlLinkLoss q => Sys2Proof.Machine.execWhlLinkLoss q s
  | .whlRepairDone q link gone => Sys2Proof.Machine.execWhlRepairDone q link gone s
  | .whlSendStart id => Sys2Proof.Machine.execWhlSendStart id s
  | .whlSendDone id => Sys2Proof.Machine.execWhlSendDone id s
  | .whlReceiveDone id v bytes => Sys2Proof.Machine.execWhlReceiveDone id v bytes s
  | .audBufferReadDone p h bytes => Sys2Proof.Machine.execAudBufferReadDone p h bytes s
  | .audMixDataWrite q value => Sys2Proof.Machine.execAudMixDataWrite q value s
  | .audEqDataWrite q value => Sys2Proof.Machine.execAudEqDataWrite q value s
  | .tdmClkLost p => Sys2Proof.Machine.execTdmClkLost p s
  | .chimeTrigger idx => Sys2Proof.Machine.execChimeTrigger idx s
  | .chimeVoiceEnd v => Sys2Proof.Machine.execChimeVoiceEnd v s
  | .touchScanStart n => Sys2Proof.Machine.execTouchScanStart n s
  | .touchScanDone n passes => Sys2Proof.Machine.execTouchScanDone n passes s
  | .persistentTouch n id => Sys2Proof.Machine.execPersistentTouch n id s
  | .recal q n => Sys2Proof.Machine.execRecal q n s
  | .selftest q n => Sys2Proof.Machine.execSelftest q n s
  | .refStore q n => Sys2Proof.Machine.execRefStore q n s
  | .tchCmdDone m flashOk => Sys2Proof.Machine.execTchCmdDone m flashOk s
  | .wakeScan xs ys => Sys2Proof.Machine.execWakeScan xs ys s
  | .htrigEdge pin rising => Sys2Proof.Machine.execHtrigEdge pin rising s
  | .hapEffectStart c => Sys2Proof.Machine.execHapEffectStart c s
  | .hapEnergyTimeout c => Sys2Proof.Machine.execHapEnergyTimeout c s
  | .hapDriveEnd c => Sys2Proof.Machine.execHapDriveEnd c s
  | .hapBrakeEnd c => Sys2Proof.Machine.execHapBrakeEnd c s
  | .hapEnHoldExpiry c => Sys2Proof.Machine.execHapEnHoldExpiry c s
  | .hapTrip c => Sys2Proof.Machine.execHapTrip c s
  | .hapRearm c => Sys2Proof.Machine.execHapRearm c s
  | .hapClear q c => Sys2Proof.Machine.execHapClear q c s
  | .hapEnOneshotExpiry c => Sys2Proof.Machine.execHapEnOneshotExpiry c s
  | .pwrStateRun order => Sys2Proof.Machine.execPwrStateRun order s
  | .pwrStateDim order => Sys2Proof.Machine.execPwrStateDim order s
  | .pwrStateWatch order fails => Sys2Proof.Machine.execPwrStateWatch order fails s
  | .pwrIsland order => Sys2Proof.Machine.execPwrIsland order s
  | .pwrOppoint order => Sys2Proof.Machine.execPwrOppoint order s
  | .pwrReset order => Sys2Proof.Machine.execPwrReset order s
  | .warmReset => Sys2Proof.Machine.execWarmReset s
  | .islandRampStart => Sys2Proof.Machine.execIslandRampStart s
  | .islandPowerGood idx fails => Sys2Proof.Machine.execIslandPowerGood idx fails s
  | .refclk0Loss => Sys2Proof.Machine.execRefclk0Loss s
  | .slpclkLoss => Sys2Proof.Machine.execSlpclkLoss s
  | .fcntStart q n value => Sys2Proof.Machine.execFcntStart q n value s
  | .fcntDone n edges => Sys2Proof.Machine.execFcntDone n edges s
  | .tempSample temps vaon => Sys2Proof.Machine.execTempSample temps vaon s
  | .thermtrip => Sys2Proof.Machine.execThermtrip s
  | .vaonWarnStart => Sys2Proof.Machine.execVaonWarnStart s
  | .vaonWarnEnd low cycles => Sys2Proof.Machine.execVaonWarnEnd low cycles s
  | .vaonReset => Sys2Proof.Machine.execVaonReset s
  | .vaonApply => Sys2Proof.Machine.execVaonApply s
  | .pwronRstNAssert => Sys2Proof.Machine.execPwronRstNAssert s
  | .watchExit b => Sys2Proof.Machine.execWatchExit b s
  | .opsecSecond => Sys2Proof.Machine.execOpsecSecond s
  | .selftestSlice u fail => Sys2Proof.Machine.execSelftestSlice u fail s
  | .selftestPassLate u => Sys2Proof.Machine.execSelftestPassLate u s
  | .cocoonRefill => Sys2Proof.Machine.execCocoonRefill s
  | .cocoonSlotWrite good => Sys2Proof.Machine.execCocoonSlotWrite good s
  | .cocoonSectorErase => Sys2Proof.Machine.execCocoonSectorErase s
  | .ccnInfo order => Sys2Proof.Machine.execCcnInfo order s
  | .ccnFreeze order => Sys2Proof.Machine.execCcnFreeze order s
  | .ccnThaw order => Sys2Proof.Machine.execCcnThaw order s
  | .ccnFreezeTimeout => Sys2Proof.Machine.execCcnFreezeTimeout s
  | .ccnRead order => Sys2Proof.Machine.execCcnRead order s
  | .ccnOpsecLoRead q => Sys2Proof.Machine.execCcnOpsecLoRead q s
  | .hapControlTick io => Sys2Proof.Machine.execHapControlTick io s
  | .tdmBclkReturn p => Sys2Proof.Machine.execTdmBclkReturn p s
  | .slpclkReturn => Sys2Proof.Machine.execSlpclkReturn s
  | .memCommandOpportunity ch good => Sys2Proof.Machine.execMemCommandOpportunity ch good s
  | .whlLoopTrained q rate => Sys2Proof.Machine.execWhlLoopTrained q rate s
  | .whlAnnounce q m => Sys2Proof.Machine.execWhlAnnounce q m s
  | .whlProbeReceived q nonce => Sys2Proof.Machine.execWhlProbeReceived q nonce s
  | .linkL1Change q enter => Sys2Proof.Machine.execLinkL1Change q enter s

end Sys2Proof.Machine
end

