-- ==== Sys2Proof/Safety.lean ====
section
/-! DEFINITION. Safety.lean: what the statements mean by a sound state: DRAM in canonical form and credits conserved (R49), and what a command keeps. -/
namespace Sys2Proof.Machine

/-- The free pool and all holdings of an account make up its total (R49). -/
def Account.Conserves (a : Account) : Prop := a.free + a.holdSum = a.total

/-- Every account of the ledger conserves its credits (R49). -/
def Skein.Conserves (k : Skein) : Prop := ∀ i : Fin 11, (at' k.accts i).Conserves

/-- A sound state: the DRAM's byte list is in canonical form and the ledger conserves credits. -/
structure State.Sound (s : State) : Prop where
  dram  : s.dram.wf = true
  skein : s.skein.Conserves

/-- What every effect keeps: the queue, and soundness; and DRAM, unless it is one that may write it. -/
structure Keeps (writes : Bool) (s t : State) : Prop where
  pending : t.pending = s.pending
  sound   : s.Sound → t.Sound
  dram    : writes = false → t.dram = s.dram

end Sys2Proof.Machine
end

