-- ==== Sys2Proof/Certificates/Slice0/Obligations.lean ====
section
/-! DEFINITION. Certificates/Slice0/Obligations.lean: the statements about the block. `Claims` holds the words they are written in. -/
namespace Sys2Proof.Claims
open Sys2Proof Sys2Proof.Machine

/-- A command answers this next state. -/
def Answers (c : Instr) (s t : State) : Prop := exec c s = .next t

/-- The clocked part of the block runs (R425, R435, R437, R438, R440). -/
def Runs (s : State) : Prop := s.dev.alive = true

end Sys2Proof.Claims
section
open Sys2Proof Sys2Proof.Machine Sys2Proof.Claims

/-- A step takes the command at the front of the queue and runs it with the queue's rest. -/
def Obligations.StepRunsFront : Prop :=
  ∀ (c : Instr) (rest : List Instr) (s : State), step { s with pending := c :: rest } = exec c { s with pending := rest }

/-- On an empty queue one REFCLK0 cycle passes (the model's choice, log entry 2): 10 ns of DEVTIME while the clocked part runs (R31). On the edge at
which DEVTIME reaches a multiple of 500,000 ns the epoch boundary happens, as the row EPOCH_BOUNDARY makes it, with free audio samples (log entry 103;
R27, R50). While the clocked part stands still nothing changes, and between boundaries nothing but DEVTIME does. -/
def Obligations.IdleStepCountsTime : Prop :=
  ∀ s : State, s.pending = [] →
    let t := s.dev.devtime + 10
    (s.dev.alive = false → step s = .next s) ∧
    (s.dev.alive = true → t / 500000 = s.dev.devtime / 500000 → step s = .next { s with dev := { s.dev with devtime := t } }) ∧
    (s.dev.alive = true → t / 500000 ≠ s.dev.devtime / 500000 →
      let u := (s.onDev fun d => { d with fresh := d.fresh + 8192 }).boundaryAt t (AudioIn.free s.dev.fresh)
      step s = .next u ∧ (t % 500000 = 0 → Answers (.epochBoundary (AudioIn.free s.dev.fresh)) (s.onDev fun d => { d with fresh := d.fresh + 8192 }) u))

/-- After reset the DRAM is in canonical form and the ledger conserves credits. -/
def Obligations.ResetIsSound : Prop := State.reset.Sound

/-- Every step keeps the canonical form of DRAM and the conservation of credits: free + holdings = total in every account (R49). -/
def Obligations.StepKeepsSound : Prop := ∀ s t : State, s.Sound → step s = .next t → t.Sound

/-- Every command answers a next state, and no command touches the queue. -/
def Obligations.EveryCommandCompletes : Prop := ∀ (c : Instr) (s : State), ∃ t, Answers c s t ∧ t.pending = s.pending

/-- The Skein grants a take only if both tests hold: the holder stays within its CAP, and the free pool left covers what the guarantees of every other
holder still lack. The evaluation and the update are one step (R46). -/
def Sys2Proof.Claims.TakeGrantsWithinCapAndReserve : Prop :=
  ∀ (k : Skein) (kd : Kind) (h : Fin holders) (n : Nat),
    let a := k.acct kd
    let others := (((allFin holders).filter (· != h)).map fun g => at' a.guar g - at' a.hold g).sum
    if at' a.hold h + n ≤ at' a.cap h ∧ n + others ≤ a.free then
      ∃ k', k.take kd h n = some k' ∧ (k'.acct kd).free + n = a.free ∧ at' (k'.acct kd).hold h = at' a.hold h + n ∧
        (∀ g, g ≠ h → at' (k'.acct kd).hold g = at' a.hold g) ∧ (k'.acct kd).total = a.total ∧ (k'.acct kd).guar = a.guar ∧
        (k'.acct kd).cap = a.cap ∧ ∀ kd', kd' ≠ kd → k'.acct kd' = k.acct kd'
    else k.take kd h n = none

/-- A take that stays within the taker's own guarantee is never refused by the reserve test while the free pool covers what is owed: with the CAP
test met, it is granted (R46). -/
def Sys2Proof.Claims.GuaranteedTakeIsGranted : Prop :=
  ∀ (a : Account) (h : Fin holders) (n : Nat),
    at' a.hold h + n ≤ at' a.guar h → a.owedSum ≤ a.free → at' a.hold h + n ≤ at' a.cap h →
      ∃ b, a.take h n = some b ∧ b.owedSum ≤ b.free

/-- A return moves credits, at most what the holder holds, from the holder to the free pool of the kind and touches nothing else (R44). -/
def Sys2Proof.Claims.ReturnMovesCreditsBack : Prop :=
  ∀ (k : Skein) (kd : Kind) (h : Fin holders) (n : Nat),
    let a := k.acct kd
    let b := (k.give kd h n).acct kd
    at' b.hold h + min n (at' a.hold h) = at' a.hold h ∧ b.free = a.free + min n (at' a.hold h) ∧
      (∀ g, g ≠ h → at' b.hold g = at' a.hold g) ∧ b.total = a.total ∧ b.guar = a.guar ∧ b.cap = a.cap ∧
      ∀ kd', kd' ≠ kd → (k.give kd h n).acct kd' = k.acct kd'

/-- The audit and the swap of an epoch boundary (R50 steps 1 to 4, R48): a snapshot that is not frozen shows every account as it stood; then all MEM
holdings are in the free pool; then the pending shares are in force; RESV_LIVE is 1 exactly for class A plies whose kinds with a reservation have a
free pool that covers what is owed. -/
def Sys2Proof.Claims.EpochBoundaryLedger : Prop :=
  ∀ (k : Skein) (epoch : Nat) (classA : Fin 64 → Bool),
    let k1 := (k.snapshot epoch).1
    let k2 := k1.returnMem
    let k3 := k2.swapShares
    let k4 := k3.reevaluate classA
    (k.held = false → k1.audit = k.accts ∧ k1.auditEpoch = epoch) ∧ (k.held = true → k1 = k) ∧ k1.accts = k.accts ∧
      (∀ h, at' (k2.acct .mem).hold h = 0) ∧ (k2.acct .mem).free = (k.acct .mem).free + (k.acct .mem).holdSum ∧
      (∀ kd, kd ≠ .mem → k2.acct kd = k.acct kd) ∧
      (∀ kd, (k3.acct kd).guar = (k2.acct kd).pguar ∧ (k3.acct kd).cap = (k2.acct kd).pcap ∧ (k3.acct kd).free = (k2.acct kd).free ∧
        (k3.acct kd).hold = (k2.acct kd).hold) ∧
      k4.accts = k3.accts ∧
      ∀ p, at' k4.resvLive p = true ↔ classA p = true ∧
        ∀ kd ∈ allKinds, at' (k3.acct kd).guar (plyHolder p) ≠ 0 ∨ at' (k3.acct kd).guar (standHolder p) ≠ 0 → (k3.acct kd).owedSum ≤ (k3.acct kd).free

/-- A checker's breach freezes the snapshot and keeps the first breach's information (R51, R52). -/
def Sys2Proof.Claims.BreachFreezesSnapshot : Prop :=
  ∀ (k : Skein) (acct : Nat) (delta : Int) (atSnap : Bool) (epoch : Nat),
    let b := k.noteBreach acct delta atSnap
    b.breach = true ∧ b.held = true ∧ b.accts = k.accts ∧ (k.breach = true → b.breachInfo = k.breachInfo) ∧ b.snapshot epoch = (b, none)

/-- A byte written to DRAM under a key generation reads back under it; every other byte of the unit reads as before where the unit was last written
under that key, and every byte of another unit reads as before. Under another key a byte of the unit reads as its 16-byte block's ciphertext, decrypted
under that key (R283, R285). -/
def Obligations.DramReadAfterWrite : Prop :=
  ∀ (m : Dram) (g a : Nat) (v : Byte), g ≠ 0 →
    let w := m.write g a v
    w.read g a = v ∧
    (∀ b, b ≠ a → w.read g b = m.read g b) ∧
    (∀ b g', b / 64 ≠ a / 64 → w.read g' b = m.read g' b) ∧
    (∀ b g', g' ≠ g → b / 64 = a / 64 →
      let unit := b / 64 * 64
      let j := b / 16 % 4
      w.read g' b = (xtsBlock false (slotKey g') unit j (xtsBlock true (slotKey g) unit j (w.readN g (unit + 16 * j) 16))).getD (b % 16) 0)

end
namespace Sys2Proof.Claims
open Sys2Proof Sys2Proof.Machine

/-- The instruction (`fmt`, `op`) that wave `w` of cluster `c` issues now, and the state after its fetch: the clocked part runs, the cluster has a job
that has not ended and is not being saved, the wave does not wait at BAR, the word at its program counter is such an instruction of the tables, and MEM
for the lines of code that the cluster's instruction cache lacks is granted (R44, R235, R243, R244). -/
def issued (u : State) (c : Fin 16) (w fmt op : Nat) : Option (Issue × State) :=
  match (u.cluster c).job.bind u.dev.job, (u.cluster c).wave w with
  | some j, some x =>
    if u.dev.alive && !(u.cluster c).saving && !x.barrier && j.ended.isNone then
      match u.fetch j x.pc with
      | .ins word lit next =>
        let i : Issue := { c := c, job := j, wave := x, ins := word, lit := lit, next := next }
        if insDefined fmt op && decide (i.f 63 62 = fmt ∧ i.f 61 54 = op) then (u.fillCode c j.ply x.pc (next - x.pc)).map fun s => (i, s) else none
      | .fault _ => none
    else none
  | _, _ => none

/-- The wave after an instruction that writes `g lane` to D in its active lanes, and nothing else. -/
def withLanes (i : Issue) (g : Nat → Nat) : Wave := (lanesOf i.active).foldl (fun x l => x.setV (i.f 47 40) l (g l)) i.wave

/-- A vector instruction of one, two or three integer sources without reserved bits or codes (R244-R246) writes `f A B C` to D in its active lanes
and goes on; one with reserved bits or codes fails its job with BAD_FIELD. -/
def IntRow (ins : Fin 16 → Nat → Instr) (op : Nat) (kd : VecKind) (f : Word → Word → Word → Word) : Prop :=
  ∀ (c : Fin 16) (w : Nat) (u s : State) (i : Issue), issued u c w 0 op = some (i, s) →
    Answers (ins c w) u (if i.vecOk kd then
      s.advance i (withLanes i fun l => (f (word (i.vsrc kd 0 l)) (word (i.vsrc kd 1 l)) (word (i.vsrc kd 2 l))).toNat) else s.badIns i)

/-- A vector instruction whose result takes the rounding mode and the old value of D, with SAT (R244, R246). -/
def VecRow (ins : Fin 16 → Nat → Instr) (op : Nat) (kd : VecKind) (f : Nat → Nat → Nat → Nat → Nat → Nat) : Prop :=
  ∀ (c : Fin 16) (w : Nat) (u s : State) (i : Issue), issued u c w 0 op = some (i, s) →
    Answers (ins c w) u (if i.vecOk kd then s.advance i (withLanes i fun l =>
      i.satd kd (f (i.f 5 4) (i.vsrc kd 0 l) (i.vsrc kd 1 l) (i.vsrc kd 2 l) (i.wave.vreg (i.f 47 40) l))) else s.badIns i)

/-- A compare writes the predicate bits of active lanes, and only those (R246, R247). -/
def CmpRow (ins : Fin 16 → Nat → Instr) (op : Nat) (kd : VecKind) (f : Nat → Nat → Bool) : Prop :=
  ∀ (c : Fin 16) (w : Nat) (u s : State) (i : Issue), issued u c w 0 op = some (i, s) →
    (i.vecOk kd = false → Answers (ins c w) u (s.badIns i)) ∧
    (i.vecOk kd = true → ∃ m : BitVec 32, Answers (ins c w) u (s.advance i (i.wave.setPred (i.f 42 40) m)) ∧
      ∀ l, l < 32 → m.getLsbD l = if i.active.getLsbD l then f (i.vsrc kd 0 l) (i.vsrc kd 1 l) else (i.wave.pred (i.f 42 40)).getLsbD l)

end Sys2Proof.Claims

section
open Sys2Proof Sys2Proof.Machine Sys2Proof.Claims

/-- The integer instructions, VEC 0x00 to 0x17, as operations on 32-bit words (R247): MOV_B32, ADD_I32, SUB_I32, MUL_LO_U32, MUL_HI_U32, MUL_HI_I32,
MAD_U32, MIN_I32, MAX_I32, MIN_U32, MAX_U32, AND, OR, XOR, NOT, SHL, SHR_U, SHR_I, FIELD_U32, FIELD_I32, MERGE, POPC, LOWBIT and HIGHBIT. Each of
these rows completes, by conditions on the state and the operands alone: where the wave issues it (`issued`), exec of the row = next of the state in
which D of the active lanes holds the row's value, or in which the job has failed BAD_FIELD where a reserved bit or code is set. -/
def Obligations.VectorIntegerResults : Prop :=
  IntRow .movB32 0x00 int1 (fun a _ _ => a) ∧ IntRow .addI32 0x01 int2 (fun a b _ => a + b) ∧ IntRow .subI32 0x02 int2 (fun a b _ => a - b) ∧
  IntRow .mulLoU32 0x03 int2 (fun a b _ => a * b) ∧
  IntRow .mulHiU32 0x04 int2 (fun a b _ => ((a.setWidth 64 * b.setWidth 64) >>> 32).setWidth 32) ∧
  IntRow .mulHiI32 0x05 int2 (fun a b _ => ((a.signExtend 64 * b.signExtend 64) >>> 32).setWidth 32) ∧
  IntRow .madU32 0x06 int3 (fun a b c => a * b + c) ∧
  IntRow .minI32 0x07 int2 (fun a b _ => if a.toInt ≤ b.toInt then a else b) ∧ IntRow .maxI32 0x08 int2 (fun a b _ => if a.toInt ≤ b.toInt then b else a) ∧
  IntRow .minU32 0x09 int2 (fun a b _ => if a ≤ b then a else b) ∧ IntRow .maxU32 0x0A int2 (fun a b _ => if a ≤ b then b else a) ∧
  IntRow .andIns 0x0B int2 (fun a b _ => a &&& b) ∧ IntRow .orIns 0x0C int2 (fun a b _ => a ||| b) ∧ IntRow .xor 0x0D int2 (fun a b _ => a ^^^ b) ∧
  IntRow .notIns 0x0E int1 (fun a _ _ => ~~~a) ∧ IntRow .shl 0x0F int2 (fun a b _ => a <<< (b.toNat % 32)) ∧
  IntRow .shrU 0x10 int2 (fun a b _ => a >>> (b.toNat % 32)) ∧ IntRow .shrI 0x11 int2 (fun a b _ => a.sshiftRight (b.toNat % 32)) ∧
  IntRow .fieldU32 0x12 int3 (fun a b c => BitVec.ofNat 32 ((a >>> (b.toNat % 32)).toNat % 2 ^ (c.toNat % 64))) ∧
  IntRow .fieldI32 0x13 int3 (fun a b c => if c.toNat % 64 = 0 then 0 else
    ((a >>> (b.toNat % 32)).setWidth (c.toNat % 64)).signExtend 32) ∧
  IntRow .merge 0x14 int3 (fun a b c => (a &&& b) ||| (~~~a &&& c)) ∧
  IntRow .popc 0x15 int1 (fun a _ _ => BitVec.ofNat 32 ((List.range 32).filter a.getLsbD).length) ∧
  IntRow .lowbit 0x16 int1 (fun a _ _ => match (List.range 32).find? a.getLsbD with | some k => BitVec.ofNat 32 k | none => 0xFFFFFFFF) ∧
  IntRow .highbit 0x17 int1 (fun a _ _ => match (List.range 32).reverse.find? a.getLsbD with | some k => BitVec.ofNat 32 k | none => 0xFFFFFFFF)

/-- SEL, LANE.GET, LANE.LOW and INTERP.F32 (R247): SEL chooses by the SRC2 predicate bit of the lane; LANE.GET and LANE.LOW write one scalar register;
INTERP.F32 writes the quad's varying, or 0 where the vertex shader did not export it. -/
def Obligations.LaneSelectionResults : Prop :=
  ∀ (c : Fin 16) (w : Nat) (u s : State) (i : Issue),
    (issued u c w 0 0x18 = some (i, s) → i.vecOk int2 = true → i.f 21 16 = 0 →
      Answers (.sel c w) u (s.advance i (withLanes i fun l => if (i.wave.pred (i.f 15 13)).getLsbD l then i.vsrc int2 0 l else i.vsrc int2 1 l))) ∧
    (issued u c w 0 0x19 = some (i, s) → i.vecOk int2 = true → bit i.ins 47 = false →
      Answers (.laneGet c w) u (s.advance i (i.wave.setS (i.f 46 40) (i.vsrc int2 0 (i.vsrc int2 1 ((lanesOf i.active).headD 0) % 32))))) ∧
    (issued u c w 0 0x1A = some (i, s) → i.vecOk int1 = true → bit i.ins 47 = false →
      Answers (.laneLow c w) u (s.advance i (i.wave.setS (i.f 46 40) (((lanesOf i.active).head?.map (i.vsrc int1 0)).getD 0)))) ∧
    (∀ (f : FragWave) (o l : BitVec 32) (b : Bool) (pa : Pass) (d : Draw) (k : Nat),
      issued u c w 0 0x90 = some (i, s) → i.vecOk flt1 = true → i.wave.work = .fragment f o l b → i.job.pass = some pa → pa.draws[f.draw]? = some d →
      k < 64 → i.src false (i.f 39 31) 0 = k → (0x180 ≤ i.f 39 31 ∧ i.f 39 31 < 0x1A0) ∨ (i.f 39 31 = 0x1FF ∧ i.lit.isSome = true) →
      Answers (.interpF32 c w) u (s.advance i (withLanes i fun l => i.satd flt1 (match f.quads[l / 4]? with
        | some q => if d.exported q (k / 4) then ((atD q.lanes (l % 4) { cover := 0, depth := [], z := 0, invw := 0, vars := [] }).vars.getD k 0).toNat else 0
        | none => 0))))

/-- FP32 and packed FP16 arithmetic, VEC 0x20 to 0x45 (R247): ADD_F32, SUB_F32, MUL_F32, FMA_F32, MIN_F32, MAX_F32, FRACT_F32, FLOOR, CEIL, TRUNC,
ROUND, H2_ADD, H2_MUL, H2_FMA, H2_MIN, H2_MAX and DOTH_F32. Each of these rows completes, by conditions on the state and the operands alone: where
the wave issues it (`issued`), exec of the row = next of the state in which D of the active lanes holds the row's value, or in which the job has
failed BAD_FIELD where a reserved bit or code is set. -/
def Sys2Proof.Claims.VectorFloatResults : Prop :=
  VecRow .addF32 0x20 flt2 (fun rnd a b _ _ => f32.add rnd a b) ∧
  VecRow .subF32 0x21 flt2 (fun rnd a b _ _ => f32.sub rnd a b) ∧
  VecRow .mulF32 0x22 flt2 (fun rnd a b _ _ => f32.mul rnd a b) ∧
  VecRow .fmaF32 0x23 flt3 (fun rnd a b c _ => f32.fma rnd a b c) ∧
  VecRow .minF32 0x24 flt2 (fun _ a b _ _ => f32.minmax false a b) ∧
  VecRow .maxF32 0x25 flt2 (fun _ a b _ _ => f32.minmax true a b) ∧
  VecRow .fractF32 0x26 flt1 (fun rnd a _ _ _ => f32.fract rnd a) ∧
  VecRow .floor 0x27 flt1 (fun _ a _ _ _ => f32.integral 2 a) ∧
  VecRow .ceil 0x28 flt1 (fun _ a _ _ _ => f32.integral 3 a) ∧
  VecRow .trunc 0x29 flt1 (fun _ a _ _ _ => f32.integral 1 a) ∧
  VecRow .round 0x2A flt1 (fun _ a _ _ _ => f32.integral 0 a) ∧
  VecRow .h2Add 0x40 half2 (fun rnd a b _ _ => halves (fun x y _ => f16.add rnd x y) a b 0) ∧
  VecRow .h2Mul 0x41 half2 (fun rnd a b _ _ => halves (fun x y _ => f16.mul rnd x y) a b 0) ∧
  VecRow .h2Fma 0x42 half3 (fun rnd a b c _ => halves (f16.fma rnd) a b c) ∧
  VecRow .h2Min 0x43 half2 (fun _ a b _ _ => halves (fun x y _ => f16.minmax false x y) a b 0) ∧
  VecRow .h2Max 0x44 half2 (fun _ a b _ _ => halves (fun x y _ => f16.minmax true x y) a b 0) ∧
  VecRow .dothF32 0x45 { flt3 with half := true } (fun rnd a b c _ => dotH rnd a b c)

/-- The transcendental group and the conversions, VEC 0x50 to 0x69 (R247): RECIP_F32, RSQRT_F32, SQRT_F32, EXP2_F32, LOG2_F32, SINTURN_F32, COSTURN_F32,
CVT_F32_I32, CVT_F32_U32, CVT_I32_F32, CVT_U32_F32, CVT_F32_F16_LO, CVT_F32_F16_HI, CVT_H2_F32, CVT_UNORM8, UNPACK_UNORM8 and CVT_UNORM16. Each of
these rows completes, by conditions on the state and the operands alone: where the wave issues it (`issued`), exec of the row = next of the state in
which D of the active lanes holds the row's value, or in which the job has failed BAD_FIELD where a reserved bit or code is set. The values of the
transcendental group are the functions of TranscendentalValues below, and CVT, UNPACK compute the word that the table gives. -/
def Sys2Proof.Claims.VectorConversionResults : Prop :=
  VecRow .recipF32 0x50 flt1 (fun _ a _ _ _ => fRecip a) ∧
  VecRow .rsqrtF32 0x51 flt1 (fun _ a _ _ _ => fRsqrt a) ∧
  VecRow .sqrtF32 0x52 flt1 (fun _ a _ _ _ => fSqrt a) ∧
  VecRow .exp2F32 0x53 flt1 (fun _ a _ _ _ => fExp2 a) ∧
  VecRow .log2F32 0x54 flt1 (fun _ a _ _ _ => fLog2 a) ∧
  VecRow .sinturnF32 0x55 flt1 (fun _ a _ _ _ => fSinTurn 0x55 false a) ∧
  VecRow .costurnF32 0x56 flt1 (fun _ a _ _ _ => fSinTurn 0x56 true a) ∧
  VecRow .cvtF32I32 0x60 { int1 with isInt := false, res := 1 } (fun rnd a _ _ _ => f32.fromInt rnd (signed 32 a)) ∧
  VecRow .cvtF32U32 0x61 { int1 with isInt := false, res := 1 } (fun rnd a _ _ _ => f32.fromInt rnd a) ∧
  VecRow .cvtI32F32 0x62 { flt1 with res := 0 } (fun _ a _ _ _ => unsigned 32 (f32.toRange (-(2 ^ 31)) (2 ^ 31 - 1) a)) ∧
  VecRow .cvtU32F32 0x63 { flt1 with res := 0 } (fun _ a _ _ _ => unsigned 32 (f32.toRange 0 (2 ^ 32 - 1) a)) ∧
  VecRow .cvtF32F16Lo 0x64 { flt1 with mod16 := true } (fun _ a _ _ _ => fpConvert f16 f32 0 (a % 65536)) ∧
  VecRow .cvtF32F16Hi 0x65 { flt1 with mod16 := true } (fun _ a _ _ _ => fpConvert f16 f32 0 (a / 65536)) ∧
  VecRow .cvtH2F32 0x66 { flt2 with res := 2 } (fun rnd a b _ _ => fpConvert f32 f16 rnd a + fpConvert f32 f16 rnd b * 65536) ∧
  VecRow .cvtUnorm8 0x67 { flt2 with fb := false, res := 0 } (fun _ a b _ d => let k := 2 ^ (8 * (b % 4)); d - d / k % 256 * k + f32.toUnorm 255 a * k) ∧
  VecRow .unpackUnorm8 0x68 { int2 with isInt := false, res := 1 } (fun rnd a b _ _ => f32.fromUnorm rnd 255 (a / 2 ^ (8 * (b % 4)) % 256)) ∧
  VecRow .cvtUnorm16 0x69 { flt2 with fb := false, res := 0 } (fun _ a b _ d => let k := 2 ^ (16 * (b % 2)); d - d / k % 65536 * k + f32.toUnorm 65535 a * k)

/-- What the transcendental group gives (R247): a subnormal input counts as a zero of its sign; a NaN gives the canonical quiet NaN; RECIP of a zero gives
an infinity of its sign, RSQRT and SQRT of a negative number a NaN, LOG2 of a zero -infinity; RECIP lies within 1 place of the rounded quotient, and RSQRT
within 2, SQRT within 1 place of the rounded root. Which of those numbers it is is a free value (log entry 63). -/
def Sys2Proof.Claims.TranscendentalValues : Prop :=
  ∀ v : Nat, v < 2 ^ 32 →
    (∀ f ∈ [fRecip, fRsqrt, fSqrt, fExp2, fLog2, fSinTurn 0x55 false, fSinTurn 0x56 true], f v = f (flushF32 v)) ∧
    (f32.isNan v = true → ∀ f ∈ [fRecip, fRsqrt, fSqrt, fExp2, fLog2, fSinTurn 0x55 false, fSinTurn 0x56 true], f v = 0x7FC00000) ∧
    (flushF32 v = 0 → fRecip v = 0x7F800000 ∧ fLog2 v = 0xFF800000) ∧ (flushF32 v = 0x80000000 → fRecip v = 0xFF800000 ∧ fLog2 v = 0xFF800000) ∧
    (0x80000000 < flushF32 v → f32.isNan v = false → fRsqrt v = 0x7FC00000 ∧ fSqrt v = 0x7FC00000) ∧
    ∀ (neg : Bool) (m : Nat) (e : Int), f32.decode (flushF32 v) = .fin neg m e → m ≠ 0 →
      (∃ k : Int, -1 ≤ k ∧ k ≤ 1 ∧ fRecip v = stepF32 (f32.roundRat 0 neg 1 m (-e)) k) ∧
      (neg = false →
        (∃ k : Int, -2 ≤ k ∧ k ≤ 2 ∧ fRsqrt v = stepF32 (f32.roundRat 0 false 1 (sqrtParts m e).1 (-(sqrtParts m e).2)) k) ∧
        (∃ k : Int, -1 ≤ k ∧ k ≤ 1 ∧
          fSqrt v = stepF32 (f32.round 0 false (sqrtParts m e).1 (sqrtParts m e).2 ((sqrtParts m e).1 * (sqrtParts m e).1 != m * 2 ^ 128)) k))

/-- The compares, VEC 0x70 to 0x81 (R247): CMP_LT_F32, CMP_EQ_F32, CMP_LE_F32, CMP_GT_F32, CMP_NE_F32, CMP_GE_F32, CMP_LT_I32, CMP_EQ_I32, CMP_LE_I32,
CMP_GT_I32, CMP_NE_I32, CMP_GE_I32, CMP_LT_U32, CMP_EQ_U32, CMP_LE_U32, CMP_GT_U32, CMP_NE_U32 and CMP_GE_U32. Each of these rows completes, by
conditions on the state and the operands alone: where the wave issues it (`issued`), exec of the row = next of the state in which the destination
predicate's bits of the active lanes hold the comparison, or in which the job has failed BAD_FIELD where a reserved bit or code is set. Every
comparison with a NaN is false, except NE. -/
def Sys2Proof.Claims.VectorCompareResults : Prop :=
  CmpRow .cmpLtF32 0x70 flt2 (fun a b => f32.cmp 0 a b) ∧
  CmpRow .cmpEqF32 0x71 flt2 (fun a b => f32.cmp 1 a b) ∧
  CmpRow .cmpLeF32 0x72 flt2 (fun a b => f32.cmp 2 a b) ∧
  CmpRow .cmpGtF32 0x73 flt2 (fun a b => f32.cmp 3 a b) ∧
  CmpRow .cmpNeF32 0x74 flt2 (fun a b => f32.cmp 4 a b) ∧
  CmpRow .cmpGeF32 0x75 flt2 (fun a b => f32.cmp 5 a b) ∧
  CmpRow .cmpLtI32 0x76 int2 (fun a b => decide (signed 32 a < signed 32 b)) ∧
  CmpRow .cmpEqI32 0x77 int2 (fun a b => signed 32 a == signed 32 b) ∧
  CmpRow .cmpLeI32 0x78 int2 (fun a b => decide (signed 32 a ≤ signed 32 b)) ∧
  CmpRow .cmpGtI32 0x79 int2 (fun a b => decide (signed 32 b < signed 32 a)) ∧
  CmpRow .cmpNeI32 0x7A int2 (fun a b => signed 32 a != signed 32 b) ∧
  CmpRow .cmpGeI32 0x7B int2 (fun a b => decide (signed 32 b ≤ signed 32 a)) ∧
  CmpRow .cmpLtU32 0x7C int2 (fun a b => decide (a < b)) ∧
  CmpRow .cmpEqU32 0x7D int2 (fun a b => a == b) ∧
  CmpRow .cmpLeU32 0x7E int2 (fun a b => decide (a ≤ b)) ∧
  CmpRow .cmpGtU32 0x7F int2 (fun a b => decide (b < a)) ∧
  CmpRow .cmpNeU32 0x80 int2 (fun a b => a != b) ∧
  CmpRow .cmpGeU32 0x81 int2 (fun a b => decide (b ≤ a)) ∧
  ∀ a b : Nat, f32.isNan a = true ∨ f32.isNan b = true → ∀ op < 6, f32.cmp op a b = (op == 4)

/-- What a vector instruction leaves: D of active lanes has the result where D is allocated, every other register of the wave keeps its value, and so
do its predicates, AMASK and scalar registers (R240, R242). -/
def Obligations.VectorWritesActiveLanesOnly : Prop :=
  ∀ (i : Issue) (g : Nat → Nat) (r l : Nat), l < 32 →
    (withLanes i g).vreg r l =
      (if r = i.f 47 40 ∧ r < i.wave.stage.vregs ∧ i.active.getLsbD l = true then g l % 2 ^ 32 else i.wave.vreg r l) ∧
    (withLanes i g).s = i.wave.s ∧ (withLanes i g).p = i.wave.p ∧ (withLanes i g).amask = i.wave.amask ∧ (withLanes i g).stack = i.wave.stack ∧
    (withLanes i g).id = i.wave.id

end
namespace Sys2Proof.Claims
open Sys2Proof Sys2Proof.Machine

/-- A scalar instruction of `n` sources that R244 and R246 allow: GEN is 0 and its sources are scalar or inline. -/
def sclOk (i : Issue) (n : Nat) : Bool := !bit i.ins 53 && (n == 0 || codeOk true i.lit (i.f 40 32)) && (decide (n < 2) || codeOk true i.lit (i.f 31 23))

/-- Source A and source B of a scalar instruction (R244, R245). -/
def srcA (i : Issue) : Word := word (i.src false (i.f 40 32) 0)
@[inherit_doc srcA] def srcB (i : Issue) : Word := word (i.src false (i.f 31 23) 0)

/-- A scalar instruction that writes `f A B` to sD; one with reserved bits or codes fails its job with BAD_FIELD (R246). -/
def SclRow (ins : Fin 16 → Nat → Instr) (op n : Nat) (f : Word → Word → Word) : Prop :=
  ∀ (c : Fin 16) (w : Nat) (u s : State) (i : Issue), issued u c w 1 op = some (i, s) →
    Answers (ins c w) u (if sclOk i n then s.advance i (i.wave.setS (i.f 47 41) (f (srcA i) (srcB i)).toNat) else s.badIns i)

/-- A predicate instruction writes all 32 bits of pD, whatever AMASK holds. -/
def PredRow (ins : Fin 16 → Nat → Instr) (op : Nat) (f : BitVec 32 → BitVec 32 → BitVec 32) : Prop :=
  ∀ (c : Fin 16) (w : Nat) (u s : State) (i : Issue), issued u c w 1 op = some (i, s) → sclOk i 0 = true →
    Answers (ins c w) u (s.advance i (i.wave.setPred (i.f 43 41) (f (i.wave.pred (i.f 34 32)) (i.wave.pred (i.f 25 23)))))

/-- A branch by SIMM where its test holds; else the wave goes on at the next instruction. -/
def BranchRow (ins : Fin 16 → Nat → Instr) (op n : Nat) (test : Issue → Bool) : Prop :=
  ∀ (c : Fin 16) (w : Nat) (u s : State) (i : Issue), issued u c w 1 op = some (i, s) → sclOk i n = true →
    Answers (ins c w) u (if test i then s.jump i i.wave (unsigned 40 ((i.next : Int) + 4 * signed 23 (i.f 22 0))) else s.advance i i.wave)

end Sys2Proof.Claims

section
open Sys2Proof Sys2Proof.Machine Sys2Proof.Claims

/-- The scalar and predicate instructions, SCL 0x00 to 0x26 (R247). -/
def Sys2Proof.Claims.ScalarResults : Prop :=
  SclRow .sMov 0x00 1 (fun a _ => a) ∧ SclRow .sAdd 0x02 2 (· + ·) ∧ SclRow .sSub 0x03 2 (· - ·) ∧ SclRow .sMulLo 0x04 2 (· * ·) ∧
  SclRow .sAnd 0x05 2 (· &&& ·) ∧ SclRow .sOr 0x06 2 (· ||| ·) ∧ SclRow .sXor 0x07 2 (· ^^^ ·) ∧
  SclRow .sShl 0x08 2 (fun a b => a <<< (b.toNat % 32)) ∧ SclRow .sShrU 0x09 2 (fun a b => a >>> (b.toNat % 32)) ∧
  SclRow .sMinU 0x0A 2 (fun a b => if a ≤ b then a else b) ∧ SclRow .sMaxU 0x0B 2 (fun a b => if a ≤ b then b else a) ∧
  SclRow .sCmpEq 0x0C 2 (fun a b => if a = b then 1 else 0) ∧ SclRow .sCmpLtU 0x0D 2 (fun a b => if a < b then 1 else 0) ∧
  SclRow .sCmpLtI 0x0E 2 (fun a b => if a.toInt < b.toInt then 1 else 0) ∧
  PredRow .pAnd 0x20 (· &&& ·) ∧ PredRow .pOr 0x21 (· ||| ·) ∧ PredRow .pXor 0x22 (· ^^^ ·) ∧ PredRow .pAndn 0x23 (fun a b => a &&& ~~~b) ∧
  PredRow .pNot 0x24 (fun a _ => ~~~a) ∧
  ∀ (c : Fin 16) (w : Nat) (u s : State) (i : Issue),
    (issued u c w 1 0x01 = some (i, s) → sclOk i 0 = true → Answers (.sMovi c w) u (s.advance i (i.wave.setS (i.f 47 41) (unsigned 32 (signed 23 (i.f 22 0)))))) ∧
    (issued u c w 1 0x25 = some (i, s) → sclOk i 0 = true → Answers (.pTos c w) u (s.advance i (i.wave.setS (i.f 47 41) (i.wave.pred (i.f 34 32)).toNat))) ∧
    (issued u c w 1 0x26 = some (i, s) → sclOk i 1 = true → Answers (.pFroms c w) u (s.advance i (i.wave.setPred (i.f 43 41) (srcA i))))

/-- Branches, SCL 0x40 to 0x44 (R248). -/
def Sys2Proof.Claims.BranchResults : Prop :=
  BranchRow .bra 0x40 0 (fun _ => true) ∧ BranchRow .braSz 0x41 1 (fun i => srcA i == 0) ∧ BranchRow .braSnz 0x42 1 (fun i => srcA i != 0) ∧
  BranchRow .braPany 0x43 0 (fun i => i.wave.pred (i.f 34 32) &&& i.wave.amask != 0) ∧
  BranchRow .braPnone 0x44 0 (fun i => i.wave.pred (i.f 34 32) &&& i.wave.amask == 0)

/-- What the fetch of an instruction leaves (R44, R235, R243): a cluster whose instruction cache has the code's lines transfers nothing, and nothing
changes; else the cache gets the lines that it lacked, first in it and 256 lines at most, and the cluster's waves, its job and memory are as they were. -/
def Sys2Proof.Claims.FetchResults : Prop :=
  ∀ (c : Fin 16) (w fmt op : Nat) (u s : State) (i : Issue), issued u c w fmt op = some (i, s) →
    let miss := (lineList [(i.wave.pc, i.next - i.wave.pc)]).filter fun l => !(u.cluster c).icache.contains l
    (miss = [] → s = u) ∧ (s.cluster c).icache = (if miss = [] then (u.cluster c).icache else (miss.reverse ++ (u.cluster c).icache).take 256) ∧
    (s.cluster c).ctx = (u.cluster c).ctx ∧ (s.cluster c).job = (u.cluster c).job ∧ s.dev.gfx.jobs = u.dev.gfx.jobs ∧ s.dram = u.dram

/-- Reconvergence, SCL 0x45 to 0x4D (R248): what each instruction does to AMASK, the stack and the program counter of its wave. -/
def Sys2Proof.Claims.ReconvergenceResults : Prop :=
  ∀ (c : Fin 16) (w : Nat) (u s : State) (i : Issue) (e : StackEntry) (t inner outer : List StackEntry),
    let x := i.wave
    let p := x.pred (i.f 34 32)
    let target := unsigned 40 ((i.next : Int) + 4 * signed 23 (i.f 22 0))
    (issued u c w 1 0x45 = some (i, s) → sclOk i 0 = true → x.stack.length < 16 →
      let y := { x with amask := x.amask &&& p, stack := { mask := x.amask, isLoop := false, ifMask := x.amask &&& p, resume := 0, stop := 0, cont := 0 } :: x.stack }
      Answers (.ifIns c w) u (if x.amask &&& p = 0 then s.jump i y target else s.advance i y)) ∧
    (issued u c w 1 0x46 = some (i, s) → sclOk i 0 = true → x.stack = e :: t →
      let y := { x with amask := e.mask &&& ~~~e.ifMask &&& ~~~x.killed }
      Answers (.elseIns c w) u (if y.amask = 0 then s.jump i y target else s.advance i y)) ∧
    (issued u c w 1 0x47 = some (i, s) → sclOk i 0 = true → x.stack = e :: t →
      Answers (.endif c w) u (s.advance i { x with amask := e.mask &&& ~~~x.killed, stack := t })) ∧
    (issued u c w 1 0x48 = some (i, s) → sclOk i 0 = true → x.stack.length < 16 →
      Answers (.loop c w) u (s.advance i { x with stack := { mask := x.amask, isLoop := true, ifMask := 0, resume := i.next, stop := target, cont := 0 } :: x.stack })) ∧
    (issued u c w 1 0x49 = some (i, s) → sclOk i 0 = true → x.stack = inner ++ e :: outer → inner.all (!·.isLoop) = true → e.isLoop = true →
      let inner' := dropLanes inner (x.amask &&& p)
      Answers (.breakIns c w) u
        (if (inner'.foldl (fun m y => m ||| y.mask) ((x.amask &&& ~~~p) ||| e.cont)) &&& ~~~x.killed = 0 then
          s.jump i { x with amask := e.mask &&& ~~~x.killed, stack := outer } (s.pastIns i.job e.stop)
        else s.advance i { x with amask := x.amask &&& ~~~p, stack := inner' ++ e :: outer })) ∧
    (issued u c w 1 0x4A = some (i, s) → sclOk i 0 = true → x.stack = inner ++ e :: outer → inner.all (!·.isLoop) = true → e.isLoop = true →
      Answers (.cont c w) u (s.advance i
        { x with amask := x.amask &&& ~~~(x.amask &&& p), stack := dropLanes inner (x.amask &&& p) ++ { e with cont := e.cont ||| (x.amask &&& p) } :: outer })) ∧
    (issued u c w 1 0x4B = some (i, s) → sclOk i 0 = true → x.stack = inner ++ e :: outer → inner.all (!·.isLoop) = true → e.isLoop = true →
      let again := (x.amask ||| e.cont) &&& ~~~x.killed
      Answers (.endloop c w) u (if again = 0 then s.advance i { x with amask := e.mask &&& ~~~x.killed, stack := outer }
        else s.jump i { x with amask := again, stack := { e with cont := 0 } :: outer } e.resume)) ∧
    (∀ (f : FragWave) (o l : BitVec 32) (b : Bool), issued u c w 1 0x4C = some (i, s) → sclOk i 0 = true → x.work = .fragment f o l b →
      let m := x.amask &&& p
      Answers (.kill c w) u (s.advance i { x with amask := x.amask &&& ~~~m, killed := x.killed ||| m, work := .fragment f (o &&& ~~~m) (l ||| (o &&& m)) b })) ∧
    (issued u c w 1 0x4D = some (i, s) → sclOk i 0 = true → Answers (.waveEnd c w) u (s.endWave c i.job x))

/-- Synchronisation and interlock, SCL 0x60 to 0x66 (R220, R248, R256). IDLE's cycles are not counted. -/
def Sys2Proof.Claims.SynchronisationResults : Prop :=
  ∀ (c : Fin 16) (w : Nat) (u s : State) (i : Issue),
    let x := i.wave
    (∀ g, issued u c w 1 0x60 = some (i, s) → sclOk i 0 = true → x.work = .compute g →
      Answers (.bar c w) u ((s.advance i { x with barrier := true }).updCluster c fun k => { k with ctx := k.ctx.releaseBar g })) ∧
    (issued u c w 1 0x60 = some (i, s) → sclOk i 0 = true → (∀ g, x.work ≠ .compute g) → Answers (.bar c w) u (s.advance i x)) ∧
    (issued u c w 1 0x61 = some (i, s) → sclOk i 0 = true → Answers (.membarWg c w) u (s.advance i x)) ∧
    (issued u c w 1 0x62 = some (i, s) → sclOk i 0 = true → Answers (.membarDev c w) u ((s.advance i x).updCluster c fun k => { k with l1 := [] })) ∧
    (issued u c w 1 0x63 = some (i, s) → sclOk i 0 = true → Answers (.idle c w) u (s.advance i x)) ∧
    (issued u c w 1 0x64 = some (i, s) → sclOk i 0 = true → i.f 47 41 % 2 = 0 →
      Answers (.time c w) u (s.advance i ((x.setS (i.f 47 41) (s.dev.devtime % 2 ^ 32)).setS (i.f 47 41 + 1) (s.dev.devtime / 2 ^ 32)))) ∧
    (∀ (f : FragWave) (o l : BitVec 32) (b : Bool), issued u c w 1 0x65 = some (i, s) → sclOk i 0 = true → x.work = .fragment f o l b →
      (s.cluster c).ctx.ilkHeld f (x.amask &&& ~~~o &&& ~~~l) = false →
      Answers (.ilkBegin c w) u (s.advance i { x with work := .fragment f (o ||| (x.amask &&& ~~~o &&& ~~~l)) l b })) ∧
    (∀ (f : FragWave) (o l : BitVec 32) (b : Bool), issued u c w 1 0x66 = some (i, s) → sclOk i 0 = true → x.work = .fragment f o l b →
      Answers (.ilkEnd c w) u (s.advance i { x with work := .fragment f (o &&& ~~~x.amask) (l ||| (o &&& x.amask)) b })) ∧
    (issued u c w 1 0x65 = some (i, s) → sclOk i 0 = true → (∀ f o l b, x.work ≠ .fragment f o l b) → Answers (.ilkBegin c w) u (s.advance i x)) ∧
    (issued u c w 1 0x66 = some (i, s) → sclOk i 0 = true → (∀ f o l b, x.work ≠ .fragment f o l b) → Answers (.ilkEnd c w) u (s.advance i x))

end
namespace Sys2Proof.Claims
open Sys2Proof Sys2Proof.Machine

/-- The lanes of a global atomic in ascending order, each a read, a change and a write of 4 bytes (R249, R254): the state after them, and the wave with
the old values in VDATA where SX is 1. A lane without an address returns 0 and writes nothing (R252). -/
def atomicLanes (i : Issue) (at? : Nat → Option Nat) (f : Nat → Nat → Nat → Nat) (ls : List Nat) (t : State) : State × Wave :=
  ls.foldl (fun acc l =>
    match at? l with
    | none => (acc.1, if bit i.ins 20 then acc.2.setV (i.f 47 40) l 0 else acc.2)
    | some a =>
      let old := le32 ((acc.1.plyRead i.job.ply a 4).getD []) 0
      let new := f old (i.wave.vreg (i.f 47 40) l) (i.wave.vreg (i.f 47 40 + 1) l)
      ((acc.1.plyWrite i.job.ply .raster a (bytesOf 4 new)).getD acc.1, if bit i.ins 20 then acc.2.setV (i.f 47 40) l old else acc.2)) (t, i.wave)

/-- Every lane's word can be read and written by the ply (R36, R281, R303). -/
def lanesMapped (s : State) (i : Issue) (at? : Nat → Option Nat) : Bool :=
  let rs := (i.writers.filterMap at?).map fun a => (a, 4)
  (s.firstUnreachable i.job.ply false rs).isNone && (s.firstUnreachable i.job.ply true rs).isNone

/-- MEM for the words of an atomic's lanes (R285): 3 per unit. -/
def atomicMem (s : State) (i : Issue) (at? : Nat → Option Nat) : Option State :=
  let as := i.writers.filterMap at?
  s.takeMem (plyHolder i.job.ply) (3 * (unitList as 4).length) (as.map fun a => (a, 4))

/-- The state after a global atomic: its lanes one after another, then the wave goes on, and its cluster's L1 forgets the words' lines (R254-R256). -/
def atomicEnd (i : Issue) (at? : Nat → Option Nat) (f : Nat → Nat → Nat → Nat) (t : State) : State :=
  ((atomicLanes i at? f i.writers t).1.advance i (atomicLanes i at? f i.writers t).2).updCluster i.c (·.dropL1 (i.writers.filterMap at?))

/-- The state after the texture cache has an entry of the stage's resource table, and the buffer that the entry describes, if it is well formed
(R225, R252). -/
def bufferOf (s : State) (i : Issue) : Option (State × Option (Nat × Nat)) :=
  match s.resource i (i.f 31 24) with
  | some e => (s.fillTex i.c i.job.ply [(i.wave.stage.table + 32 * i.f 31 24, 32)]).map fun b => (b, bufferEntry e)
  | none => none

/-- A lane's address in a buffer; none outside it, or where the entry is ill-formed (R249, R252). -/
def inBuffer (e : Option (Nat × Nat)) (i : Issue) (n l : Nat) : Option Nat := e.bind fun x => (i.within x.2 n l).map (x.1 + ·)

/-- An atomic: on global memory with DEV 1, a MEM take of 3 per unit; on the local data store with DEV 0 (R249, R254, R255). -/
def AtomRow (ins : Fin 16 → Nat → Instr) (op : Nat) (f : Nat → Nat → Nat → Nat) : Prop :=
  ∀ (c : Fin 16) (w : Nat) (u s : State) (i : Issue), issued u c w 2 op = some (i, s) →
    (∀ t, bit i.ins 19 = true → i.f 31 24 % 2 = 0 → lanesMapped s i (fun l => some (i.gAddr 4 l)) = true →
      atomicMem s i (fun l => some (i.gAddr 4 l)) = some t → Answers (ins c w) u (atomicEnd i (fun l => some (i.gAddr 4 l)) f t)) ∧
    (bit i.ins 19 = false → i.f 31 24 = 0 → Answers (ins c w) u (s.atomicLocal i f))

/-- A stage output writes one slot of its lanes that are not killed, in the stage that allows it (R249, R250). -/
def OutRow (ins : Fin 16 → Nat → Instr) (op : Nat) (frag : Bool) (slot : Issue → Nat) (n : Nat) : Prop :=
  ∀ (c : Fin 16) (w : Nat) (u s : State) (i : Issue), issued u c w 2 op = some (i, s) → i.f 31 24 = 0 →
    (match i.wave.work with | .vertex _ _ _ _ => !frag | .fragment _ _ _ _ => frag | .compute _ => false) = true →
    Answers (ins c w) u (s.advance i { i.wave with outs :=
      (i.writers.foldl (fun m l => Map.ins m (l * 32 + slot i) ((List.range n).map fun k => word (i.wave.vreg (i.f 47 40 + k) l))) i.wave.outs) })

/-- The texture and the sampler that two entries of the resource table describe, where both are well formed (R252). -/
def entriesOf (sampled : Bool) (te se : List Byte) : Option (TexEntry × SampEntry) :=
  match texEntry te, (if sampled then sampEntry se else some { filter := 0, mode := 0, bias := 0, lo := 0, hi := 0 }) with
  | some t, some m => some (t, m)
  | _, _ => none

/-- A texture instruction whose lanes' samples are `val`: four components and a residency flag for each active lane, in order; zeros and no residency
where an entry is ill-formed (R252). What the entries and the samples are read from passes through the texture cache, with MEM for the lines that it
lacks (R44, R225, R235). -/
def TexRow (ins : Fin 16 → Nat → Instr) (op : Nat) (sampled : Bool)
    (lane : State → Issue → TexEntry → SampEntry → Nat → Except Nat (List Nat × Bool))
    (reads : State → Issue → TexEntry → SampEntry → Nat → List (Nat × Nat)) : Prop :=
  ∀ (c : Fin 16) (w : Nat) (u s b : State) (i : Issue) (te se : List Byte) (val : Nat → List Nat × Bool),
    issued u c w 3 op = some (i, s) → i.f 2 0 = 0 → s.resource i (i.f 31 24) = some te →
    (sampled = true → s.resource i (i.f 23 16) = some se) →
    (∀ l ∈ lanesOf i.active, match entriesOf sampled te se with
      | some (t, m) => lane s i t m l = .ok (val l)
      | none => val l = ([0, 0, 0, 0], false)) →
    s.fillTex i.c i.job.ply (((i.wave.stage.table + 32 * i.f 31 24, 32) :: if sampled then [(i.wave.stage.table + 32 * i.f 23 16, 32)] else []) ++
      match entriesOf sampled te se with
      | some (t, m) => (lanesOf i.active).flatMap fun l => reads s i t m l
      | none => []) = some b →
    let x := (lanesOf i.active).foldl (fun (x : Wave) l => x.putWords (i.f 47 40) l (val l).1) i.wave
    let flag := laneMask fun l => i.active.getLsbD l && (val l).2
    Answers (ins c w) u ((b.onDev fun d => { d with fresh := d.fresh + 128 }).advance i
      (if bit i.ins 15 then x.setPred (i.f 14 12) ((i.wave.pred (i.f 14 12) &&& ~~~i.active) ||| (flag &&& i.active)) else x))

end Sys2Proof.Claims

section
open Sys2Proof Sys2Proof.Machine Sys2Proof.Claims

/-- Loads (R249, R252, R255): LD.G where every lane's address is readable and the MEM take is granted; LD.B with lanes outside the buffer, or with an ill-formed
entry, reading 0;
LD.L with lanes outside the allocation reading 0. -/
def Sys2Proof.Claims.LoadResults : Prop :=
  ∀ (c : Fin 16) (w n : Nat) (u s t : State) (i : Issue) (vs : List (List Byte)), accessBytes (i.f 23 21) = some n →
    (issued u c w 2 0x00 = some (i, s) → i.f 31 24 % 2 = 0 →
      s.loadAt i (bit i.ins 19) ((lanesOf i.active).map (i.gAddr n)) n = (t, some vs) →
      Answers (.ldG c w) u (t.advance i (i.loaded ((lanesOf i.active).zip vs)))) ∧
    (∀ (b : State) (e : Option (Nat × Nat)), issued u c w 2 0x10 = some (i, s) → bufferOf s i = some (b, e) →
      let inside := (lanesOf i.active).filter fun l => (inBuffer e i n l).isSome
      let outside := (lanesOf i.active).filter fun l => (inBuffer e i n l).isNone
      b.loadAt i (bit i.ins 19) (inside.map fun l => (inBuffer e i n l).getD 0) n = (t, some vs) →
      Answers (.ldB c w) u (t.advance i (i.loaded (inside.zip vs ++ outside.map fun l => (l, zeros n))))) ∧
    (∀ g, issued u c w 2 0x20 = some (i, s) → i.f 31 24 = 0 → s.group i = some g →
      Answers (.ldL c w) u (s.advance i (i.loaded ((lanesOf i.active).map fun l =>
        (l, match i.within g.size n l with | some o => g.bytes o n | none => zeros n)))))

/-- Stores (R249, R254): ST.G and ST.B where every address is writable and the MEM take is granted, the lanes in ascending order, through to memory;
ST.L into the workgroup's allocation, nothing out of range. -/
def Sys2Proof.Claims.StoreResults : Prop :=
  ∀ (c : Fin 16) (w n : Nat) (u s t : State) (i : Issue), accessBytes (i.f 23 21) = some n →
    (issued u c w 2 0x01 = some (i, s) → i.f 31 24 % 2 = 0 →
      s.storeAt i true (i.writers.map fun l => (i.gAddr n l, i.dataBytes n l)) = (t, true) → Answers (.stG c w) u (t.advance i i.wave)) ∧
    (∀ (b : State) (e : Option (Nat × Nat)), issued u c w 2 0x11 = some (i, s) → bufferOf s i = some (b, e) →
      b.storeAt i true (i.writers.filterMap fun l => (inBuffer e i n l).map fun a => (a, i.dataBytes n l)) = (t, true) →
      Answers (.stB c w) u (t.advance i i.wave)) ∧
    (∀ g, issued u c w 2 0x21 = some (i, s) → i.f 31 24 = 0 → (s.advance i i.wave).group i = some g →
      Answers (.stL c w) u ((s.advance i i.wave).setGroup i.c (i.writers.foldl (fun g l => match i.within g.size n l with
        | some o => g.write o (i.dataBytes n l)
        | none => g) g)))

/-- Pixel-local storage (R219, R249): a load gives the pixel's words, 0 outside a fragment of a pass with pixel-local storage; a store writes them. -/
def Sys2Proof.Claims.PixelLocalResults : Prop :=
  ∀ (c : Fin 16) (w n k m : Nat) (u s : State) (i : Issue), accessBytes (i.f 23 21) = some n → i.f 31 24 = 0 → i.plsWords n = some (k, m) →
    (issued u c w 2 0x30 = some (i, s) →
      Answers (.plsLd c w) u (s.advance i ((lanesOf i.active).foldl (fun (x : Wave) l => x.putWords (i.f 47 40) l ((List.range m).map fun j =>
        match i.plsPixel l with
        | some p => (Map.get (s.cluster i.c).ctx.pls 0 (4 * p + k + j)).toNat
        | none => 0)) i.wave))) ∧
    (issued u c w 2 0x31 = some (i, s) →
      let put := fun (pls : List (Nat × Word)) (l : Nat) => match i.plsPixel l with
        | some p => (List.range m).foldl (fun pls j => Map.setD pls 0 (4 * p + k + j) (word (i.wave.vreg (i.f 47 40 + j) l))) pls
        | none => pls
      Answers (.plsSt c w) u ((s.advance i i.wave).updCluster i.c fun cl =>
        { cl with ctx := { cl.ctx with pls := i.writers.foldl put cl.ctx.pls } }))

/-- Atomics, MEM 0x40 to 0x4A (R249, R254). -/
def Sys2Proof.Claims.AtomicResults : Prop :=
  AtomRow .atomAdd 0x40 (fun o v _ => (o + v) % 2 ^ 32) ∧ AtomRow .atomMinI 0x41 (fun o v _ => if signed 32 v < signed 32 o then v else o) ∧
  AtomRow .atomMinU 0x42 (fun o v _ => min o v) ∧ AtomRow .atomMaxI 0x43 (fun o v _ => if signed 32 o < signed 32 v then v else o) ∧
  AtomRow .atomMaxU 0x44 (fun o v _ => max o v) ∧ AtomRow .atomAnd 0x45 (fun o v _ => Nat.land o v) ∧ AtomRow .atomOr 0x46 (fun o v _ => Nat.lor o v) ∧
  AtomRow .atomXor 0x47 (fun o v _ => Nat.xor o v) ∧ AtomRow .atomXchg 0x48 (fun _ v _ => v) ∧
  AtomRow .atomCas 0x49 (fun o v n => if o = v then n else o) ∧
  ∀ (c : Fin 16) (w : Nat) (u s b t : State) (i : Issue) (e : Option (Nat × Nat)), issued u c w 2 0x4A = some (i, s) →
    bufferOf s i = some (b, e) → lanesMapped b i (inBuffer e i 4) = true → atomicMem b i (inBuffer e i 4) = some t →
    Answers (.atomAddB c w) u (atomicEnd i (inBuffer e i 4) (fun o v _ => (o + v) % 2 ^ 32) t)

/-- Stage outputs, MEM 0x60 to 0x63 (R249, R250). -/
def Sys2Proof.Claims.StageOutputResults : Prop :=
  OutRow .outPos 0x60 false (fun _ => 0) 4 ∧ OutRow .outVar 0x61 false (fun i => 1 + i.f 3 0) 4 ∧ OutRow .outColour 0x62 true (fun i => i.f 1 0) 4 ∧
  OutRow .outDepth 0x63 true (fun _ => 16) 1

/-- Texture instructions, TEX 0x00 to 0x03 (R244, R250-R252): where no lane's texels lie on an unmapped page, the four components of each active lane go
to VDST onward, the residency flag to PDST where PEN is 1; the lanes' values are those of the sampler for SAMPLE (derived level of detail), SAMPLE.L
(VCRD+2), SAMPLE.B (derived plus VCRD+2) and of the texel for FETCH. -/
def Sys2Proof.Claims.TextureResults : Prop :=
  TexRow .sample 0x00 true
    (fun s i t m l => s.sampleLane i.job t m (bit i.ins 11) (i.crd 0 l, i.crd 1 l) (i.derived t l) i.offU i.offV l)
    (fun s i t m l => s.sampleReads i.job t m (bit i.ins 11) (i.crd 0 l, i.crd 1 l) (i.derived t l) i.offU i.offV) ∧
  TexRow .sampleL 0x01 true
    (fun s i t m l => s.sampleLane i.job t m (bit i.ins 11) (i.crd 0 l, i.crd 1 l) (i.crd 2 l) i.offU i.offV l)
    (fun s i t m l => s.sampleReads i.job t m (bit i.ins 11) (i.crd 0 l, i.crd 1 l) (i.crd 2 l) i.offU i.offV) ∧
  TexRow .sampleB 0x02 true
    (fun s i t m l => s.sampleLane i.job t m (bit i.ins 11) (i.crd 0 l, i.crd 1 l) (f32.add 0 (i.derived t l) (i.crd 2 l)) i.offU i.offV l)
    (fun s i t m l => s.sampleReads i.job t m (bit i.ins 11) (i.crd 0 l, i.crd 1 l) (f32.add 0 (i.derived t l) (i.crd 2 l)) i.offU i.offV) ∧
  TexRow .fetch 0x03 false
    (fun s i t _ l => s.fetchLane i.job t (bit i.ins 11) (signed 32 (i.crd 0 l) + i.offU) (signed 32 (i.crd 1 l) + i.offV) (i.crd 2 l) l)
    (fun s i t _ l => s.fetchReads i.job t (bit i.ins 11) (signed 32 (i.crd 0 l) + i.offU) (signed 32 (i.crd 1 l) + i.offV) (i.crd 2 l))

end
namespace Sys2Proof.Claims
open Sys2Proof Sys2Proof.Machine

/-- The packet that job `o` reads next: the state after the fetch, the job, its OP and its payload. The clocked part runs, the job holds a cluster and
has not ended, the current buffer has bytes left, the header's reserved bits are 0, its OP is defined, its COUNT in range and inside the buffer, the
packet may stand where the job is, header and payload can be read, and MEM for the units of the buffer that it is the first to reach is granted (R44,
R207, R209, R211). -/
def nextPacket (u : State) (o : Nat) : Option (State × Job × Nat × List Nat) :=
  match u.dev.job o with
  | none => none
  | some j => match j.bufs with
    | [] => none
    | b :: _ =>
      if u.dev.alive = true ∧ j.ended.isNone = true ∧ u.dev.runningOn o ≠ 0 ∧ b.pos < b.len then
        (u.plyRead j.ply (b.addr + b.pos) 4).bind fun h =>
          let (w, n) := (le32 h 0, fld (le32 h 0) 15 0)
          (packetCount (fld w 31 24)).bind fun range =>
            if fld w 23 16 = 0 ∧ range.1 ≤ n ∧ n ≤ range.2 ∧ b.pos + 4 + 4 * n ≤ b.len ∧ j.placeOk (fld w 31 24) = true then
              (u.plyRead j.ply (b.addr + b.pos + 4) (4 * n)).bind fun bs =>
                (u.fetchPacket j.ply o b (4 + 4 * n)).map fun s => (s, j, fld w 31 24, (List.range n).map fun i => le32 bs (4 * i))
            else none
      else none

/-- The 40-bit address held in two dwords. -/
def addrOf (lo hi : Nat) : Nat := lo + 2 ^ 32 * hi

/-- A packet that is done at once: with its effect `f`, the job goes past its bytes (R209). -/
def PktRow (ins : Nat → Instr) (op : Nat) (d : List Nat) (ok : Job → Prop) (f : Nat → State → State) : Prop :=
  ∀ (o : Nat) (u s : State) (j : Job), nextPacket u o = some (s, j, op, d) → ok j → Answers (ins o) u ((f o s).passBytes o (4 + 4 * d.length))

/-- A draw packet starts its draw, outside binning and with a save area, and is done once its vertices are shaded, its quads are in the tiles' lists and
its bin pages taken. -/
def DrawRow (ins : Nat → Nat → List (List FragQuad) → Instr) (op : Nat) (d : List Nat) (mk : Job → State → State → Draw → Prop) : Prop :=
  ∀ (o pages : Nat) (quads : List (List FragQuad)) (w s u : State) (j : Job) (pa : Pass), nextPacket w o = some (s, j, op, d) → j.pass = some pa →
    (∀ x, pa.binning = false → mk j s u x → j.save.isSome = true → 0 < (at' x.pipe.stages 0).waveLimit → 0 < (at' x.pipe.stages 1).waveLimit →
      Answers (ins o pages quads) w ((u.updPass o fun pa => { pa with draws := pa.draws ++ [x], binning := true, owe := none }).pump o)) ∧
    (∀ x v, pa.binning = true → pa.render = none → pa.current = some x → x.shaded = true →
      let split := s.splitQuads o pages quads.flatten
      split.binPages o (((split.dev.passOf o).bind (·.owe)).elim 0 List.length + 1) = (v, true) →
      Answers (ins o pages quads) w ((v.updPass o fun pa => { pa with binning := false, owe := none }).passBytes o (4 + 4 * d.length)))

/-- The pass that PASS_BEGIN opens: size, samples, pixel-local storage and the most bin pages from its dwords, its spill area, the job's targets. -/
def newPass (j : Job) (size m lo hi units : Nat) : Pass :=
  { width := fld size 13 0, height := fld size 29 16, samples := sampleCount (fld m 1 0), pls := bit m 2, binMax := fld m 31 16,
    spill := addrOf lo hi, spillUnits := units, targets := j.pipe.targets, draws := [], binning := false, frags := [], nextOrder := 0, pages := 0,
    owe := none, partials := 0, spilled := [], render := none, todo := [], tilesDone := [] }

end Sys2Proof.Claims

section
open Sys2Proof Sys2Proof.Machine Sys2Proof.Claims

/-- Packets that move between command buffers (R209-R211): NOP is skipped; CALL enters a second buffer after itself; END, in a buffer or at its end,
returns to the caller, outside a pass; SAVE_AREA gives the job its one save area. -/
def Sys2Proof.Claims.BufferPacketResults : Prop :=
  (∀ d : List Nat, PktRow .pktNop 0x00 d (fun _ => True) fun _ s => s) ∧
  (∀ (o lo hi n : Nat) (u s : State) (j : Job), nextPacket u o = some (s, j, 0x01, [lo, hi, n]) → j.bufs.length = 1 → addrOf lo hi < 2 ^ 40 →
    addrOf lo hi % 64 = 0 → 4 ≤ n → n ≤ 2 ^ 24 → n % 4 = 0 →
    Answers (.call o) u ((s.passBytes o 16).updJob o fun j => { j with bufs := { addr := addrOf lo hi, len := n, pos := 0, read := 0 } :: j.bufs })) ∧
  (∀ (o : Nat) (u s : State) (j : Job), nextPacket u o = some (s, j, 0x02, []) → j.pass = none →
    Answers (.pktEnd o) u (s.updJob o fun j => { j with bufs := j.bufs.drop 1 })) ∧
  (∀ (o : Nat) (s : State) (j : Job) (b : CmdBuf) (rest : List CmdBuf), s.dev.job o = some j → j.bufs = b :: rest → Runs s → j.ended = none →
    s.dev.runningOn o ≠ 0 → b.len ≤ b.pos → j.pass = none → ceilTo b.pos 64 ≤ b.read →
    Answers (.pktEnd o) s (s.updJob o fun j => { j with bufs := j.bufs.drop 1 })) ∧
  ∀ lo hi n : Nat, PktRow .saveArea 0x03 [lo, hi, n]
    (fun j => addrOf lo hi < 2 ^ 40 ∧ addrOf lo hi % 65536 = 0 ∧ n < 65536 ∧ (if j.compute then 6 else 10) * j.want ≤ n ∧ j.save = none)
    fun o s => s.updJob o fun j => { j with save := some (addrOf lo hi, n) }

/-- Packets that set pipeline state (R206, R210, R213), with fields in range: each writes its item of the job's pipeline state and nothing else. -/
def Sys2Proof.Claims.StatePacketResults : Prop :=
  (∀ (st : Fin 3) (lo hi r l w : Nat), PktRow .shader 0x10 [st.val, lo, hi, r, l, w]
    (fun _ => addrOf lo hi < 2 ^ 40 ∧ addrOf lo hi % 256 = 0 ∧ 1 ≤ fld r 8 0 ∧ fld r 8 0 ≤ 256 ∧ fld r 15 9 = 0 ∧ 1 ≤ fld r 22 16 ∧ fld r 22 16 ≤ 128 ∧
      fld r 31 23 = 0 ∧ if st = 2 then l ≤ 131072 ∧ fld w 31 30 = 0 ∧ 1 ≤ fld w 9 0 * fld w 19 10 * fld w 29 20 ∧
        fld w 9 0 * fld w 19 10 * fld w 29 20 ≤ 1024 else l = 0 ∧ w = 0)
    fun o s => s.updPipe o fun p => p.updStage st fun g =>
      { g with code := addrOf lo hi, vregs := fld r 8 0, sregs := fld r 22 16, lds := l, wx := fld w 9 0, wy := fld w 19 10, wz := fld w 29 20 }) ∧
  (∀ (st : Fin 3) (lo hi : Nat), PktRow .resources 0x11 [st.val, lo, hi] (fun _ => addrOf lo hi < 2 ^ 40 ∧ addrOf lo hi % 64 = 0)
    fun o s => s.updPipe o fun p => p.updStage st fun g => { g with table := addrOf lo hi }) ∧
  (∀ (st : Fin 3) (h : Nat) (vs : List Nat), PktRow .constPkt 0x12 (h :: vs)
    (fun _ => fld h 1 0 = st.val ∧ fld h 7 2 = 0 ∧ fld h 31 15 = 0 ∧ fld h 14 8 + vs.length ≤ 128)
    fun o s => s.updPipe o fun p => p.updStage st fun g =>
      { g with consts := (vs.zipIdx).foldl (fun m e => Map.ins m (fld h 14 8 + e.2) (word e.1)) g.consts }) ∧
  (∀ (k : Fin 5) (w lo hi stride hlo hhi c0 c1 : Nat), PktRow .target 0x13 [w, lo, hi, stride, hlo, hhi, c0, c1]
    (fun _ => fld w 2 0 = k.val ∧ fld w 7 4 = 0 ∧ fld w 31 21 = 0 ∧ addrOf lo hi < 2 ^ 40 ∧ addrOf lo hi % 4096 = 0 ∧ addrOf hlo hhi < 2 ^ 40 ∧
      (if k = 4 then fld w 15 8 = 0x40 ∧ c1 < 256 else 1 ≤ fld w 15 8 ∧ fld w 15 8 ≤ 9) ∧
      (bit w 16 = true → 1 ≤ fld w 15 8 ∧ fld w 15 8 ≤ 5) ∧ fld w 18 17 ≤ 2 ∧ fld w 20 19 ≤ 2 ∧ stride % 256 = 0 ∧ stride ≤ 262144)
    fun o s => s.updPipe o fun p => { p with targets := put p.targets k (Target.mk (bit w 3) (fld w 15 8) (bit w 16) (fld w 18 17) (fld w 20 19)
      (addrOf lo hi) stride (addrOf hlo hhi) (c0 + 2 ^ 32 * c1)) }) ∧
  (∀ (x y w h d4 d5 d6 d7 : Nat), PktRow .raster 0x14 [x, y, w, h, d4, d5, d6, d7]
    (fun _ => fld d4 15 14 = 0 ∧ fld d4 31 30 = 0 ∧ fld d5 15 14 = 0 ∧ fld d5 31 30 = 0 ∧ fld d6 31 9 = 0 ∧ fld d6 1 0 ≠ 3 ∧ fld d7 31 30 = 0)
    fun o s => s.updPipe o fun p => { p with raster :=
      { vx := word x, vy := word y, vw := word w, vh := word h, d4 := d4, d5 := d5, d6 := d6, d7 := d7 } }) ∧
  ∀ b0 b1 b2 b3 : Nat, PktRow .blend 0x15 [b0, b1, b2, b3] (fun _ => [b0, b1, b2, b3].all blendOk = true)
    fun o s => s.updPipe o fun p => { p with blend := #v[b0, b1, b2, b3] }

/-- PASS_BEGIN opens a pass over the targets as they stand, with a spill area large enough for every tile's image; PASS_END, once every tile of the
final render has been handled, frees the pass's bin pages and closes it (R210, R212, R213, R217, R218). -/
def Sys2Proof.Claims.PassPacketResults : Prop :=
  (∀ size m lo hi units : Nat, PktRow .passBegin 0x60 [size, m, lo, hi, units]
    (fun j => fld size 15 14 = 0 ∧ fld size 31 30 = 0 ∧ 1 ≤ fld size 13 0 ∧ fld size 13 0 ≤ 8192 ∧ 1 ≤ fld size 29 16 ∧ fld size 29 16 ≤ 8192 ∧
      fld m 1 0 ≠ 3 ∧ fld m 15 3 = 0 ∧ addrOf lo hi < 2 ^ 40 ∧ addrOf lo hi % 65536 = 0 ∧ units < 65536 ∧
      let img := newPass j size m lo hi units
      ceilDiv (img.tileCount * img.imageBytes) 65536 ≤ units)
    fun o s => match s.dev.job o with
      | some j => s.updJob o fun j' => { j' with pass := some (newPass j size m lo hi units) }
      | none => s) ∧
  ∀ (o : Nat) (w s : State) (j : Job) (pa pb : Pass), nextPacket w o = some (s, j, 0x61, []) → j.pass = some pa →
    let u := if pa.render.isSome then s.pump o else s.startRender o true
    u.dev.passOf o = some pb → u.renderDone o pb = true →
    Answers (.passEnd o) w (((u.freePages o).updJob o fun j => { j with pass := none }).passBytes o 4)

/-- DRAW, DRAW_INDEXED and DRAW_INDIRECT start a draw of the values in the packet or in the record it names (R210, R212, R214); the packet is done when
the draw's vertices are shaded and its bin pages taken, and the covered quads join the tiles' lists in order. -/
def Sys2Proof.Claims.DrawPacketResults : Prop :=
  (∀ topo n m first inst : Nat, topo ≤ 5 → DrawRow .draw 0x20 [topo, n, m, first, inst] fun j s u x => u = s ∧ x = j.draw topo [n, m, first, inst] none) ∧
  (∀ w n m first base inst lo hi size : Nat, fld w 2 0 ≤ 5 → bit w 3 = false → fld w 31 7 = 0 → indexBytes (fld w 5 4) = some size →
    addrOf lo hi < 2 ^ 40 → addrOf lo hi % size = 0 → DrawRow .drawIndexed 0x21 [w, n, m, first, base, inst, lo, hi] fun j s u x =>
      u = s ∧ x = j.draw (fld w 2 0) [n, m, first, base, inst, lo, hi] (some (size, bit w 6, addrOf lo hi))) ∧
  ∀ w lo hi xlo xhi size : Nat, fld w 2 0 ≤ 5 → bit w 3 = false → fld w 31 8 = 0 → addrOf lo hi < 2 ^ 40 → addrOf lo hi % 16 = 0 →
    (if bit w 7 then indexBytes (fld w 5 4) else some 1) = some size → addrOf xlo xhi < 2 ^ 40 → addrOf xlo xhi % size = 0 →
    DrawRow .drawIndirect 0x22 [w, lo, hi, xlo, xhi] fun j s u x => ∃ v : List Nat,
      s.readArgs j.ply (addrOf lo hi) (if bit w 7 then 5 else 4) = .ok (u, v) ∧
      x = j.draw (fld w 2 0) v (if bit w 7 then some (size, bit w 6, addrOf xlo xhi) else none)

/-- DISPATCH and DISPATCH_INDIRECT (R210, R238, R239): with a save area, counts to 65,535 and a workgroup that fits a cluster, the job has one more
dispatch; a dispatch of no workgroups does nothing. -/
def Sys2Proof.Claims.DispatchPacketResults : Prop :=
  ∀ (o x y z : Nat) (w s : State) (j : Job), x ≤ 65535 → y ≤ 65535 → z ≤ 65535 → j.save.isSome = true →
    let g := at' j.pipe.stages 2
    let go := fun s : State => if x * y * z = 0 ∨ g.lanes = 0 then s else
      (s.updJob o fun j => { j with dispatches := j.dispatches ++ [{ stage := g, nx := x, ny := y, nz := z, next := 0 }] }).pump o
    ceilDiv g.waves 4 ≤ g.waveLimit → g.lds ≤ 131072 →
    (nextPacket w o = some (s, j, 0x30, [x, y, z]) → Answers (.dispatch o) w ((go s).passBytes o 16)) ∧
    ∀ (lo hi : Nat) (u : State), nextPacket w o = some (s, j, 0x31, [lo, hi]) → addrOf lo hi < 2 ^ 40 → addrOf lo hi % 4 = 0 →
      s.readArgs j.ply (addrOf lo hi) 3 = .ok (u, [x, y, z]) → Answers (.dispatchIndirect o) w ((go u).passBytes o 12)

/-- BARRIER, SIGNAL and TIMESTAMP (R93, R210, R225), when nothing earlier of the job is in flight where they wait: BARRIER with INVAL drops what the
texture caches of the job's clusters hold, so that later samples see memory as it stands; SIGNAL signals the ply's fence; TIMESTAMP writes DEVTIME as 8
bytes, with MEM for a write in part. -/
def Sys2Proof.Claims.WaitPacketResults : Prop :=
  (∀ (d o : Nat) (w s : State) (j : Job), nextPacket w o = some (s, j, 0x40, [d]) → d < 8 → (bit d 0 = true → s.jobQuiet j = true) →
    Answers (.pktBarrier o) w ((if bit d 2 then
      (s.each (s.dev.gfx.held o) fun s c => s.updCluster c fun k => { k with tcache := [] }).updJob o fun j => { j with tex := s.settledDram } else s).passBytes o 8)) ∧
  (∀ (f lo hi o : Nat) (w s : State) (j : Job), nextPacket w o = some (s, j, 0x50, [f, lo, hi]) → f < 4096 → s.jobQuiet j = true →
    Answers (.pktSignal o) w ((s.signal j.ply f (DWord.ofWords (word hi) (word lo))).passBytes o 16)) ∧
  ∀ (lo hi o : Nat) (w s u v : State) (j : Job), nextPacket w o = some (s, j, 0x51, [lo, hi]) → addrOf lo hi < 2 ^ 40 → addrOf lo hi % 8 = 0 →
    s.jobQuiet j = true → s.takeMem (plyHolder j.ply) (writeCost (addrOf lo hi) 8) [(addrOf lo hi, 8)] = some u →
    u.plyWrite j.ply .raster (addrOf lo hi) (bytesOf 8 u.dev.devtime) = some v → Answers (.timestamp o) w (v.passBytes o 12)

end
namespace Sys2Proof.Claims
open Sys2Proof Sys2Proof.Machine

/-- What an offer of cluster `c` comes to for a job: a tier 1 job is placed on all its admitted clusters at once, any other on this one (R226). A cluster
that is kept for another class A job is not offered (log entry 116). -/
def offered (s : State) (c : Fin 16) (x : Bool × Job) : Option State :=
  if !s.freeFor x.2.order c then none
  else if x.1 then s.placeReserved x.2 [c] else s.tryPlace x.2 ((s.ply x.2.ply).cls == .a) [c]

/-- A submission: the descriptor goes to the engine and the ply has one more job; a class A job within its reservation is placed at once where enough
clusters are idle (R206, R227). -/
def SubmitRow (ins : Fin 64 → Fin 4 → Instr) (op : Nat) : Prop :=
  ∀ (p : Fin 64) (r : Fin 4) (s : State) (f : InFlight), Runs s → s.ready p r op = some f →
    let j := f.toJob p r s.dev.devtime s.dram
    let u := (s.dispatch p r f.order 0).onDev (·.updGfx fun g => { g with jobs := g.jobs ++ [j] })
    j.ply = p ∧ j.ring = r ∧ j.seq = f.seq ∧ j.armed = f.armedAt.getD s.dev.devtime ∧ j.started = none ∧ j.pipe = Pipe.zero ∧ j.ended = none ∧
      (u.placeReserved j [] = none → Answers (ins p r) s u) ∧ ∀ t, u.placeReserved j [] = some t → Answers (ins p r) s t

end Sys2Proof.Claims

section
open Sys2Proof Sys2Proof.Machine Sys2Proof.Claims

/-- GFX_SUBMIT and COMPUTE_SUBMIT (R206, R207, R227). -/
def Sys2Proof.Claims.SubmissionResults : Prop := SubmitRow .gfxSubmit 0x30 ∧ SubmitRow .computeSubmit 0x31

/-- The scheduler (R226-R229, R257): an idle powered cluster goes to the first job in order of the tiers whose take of GFX credits is granted; from
L - 15 microseconds on, CLASS_A_PREEMPT places the job or preempts the shortfall of its clusters, least important victims first, and keeps for it those
that come (log entry 116); a save that is done gives its cluster back with 500 GFX, at once while the L2 holds back its save buffer and has a place
free, else when its bytes have moved under the job's own MEM credits. -/
def Sys2Proof.Claims.SchedulerResults : Prop :=
  ∀ s : State, Runs s →
    (∀ (c : Fin 16) (l l' : List (Bool × Job)) (x : Bool × Job) (t : State), s.dev.clusterOn c = true → (s.cluster c).job = none →
      s.offerOrder = l ++ x :: l' → (∀ y ∈ l, offered s c y = none) → offered s c x = some t → Answers (.clusterOffer c) s t) ∧
    (∀ (p : Fin 64) (r : Fin 4) (q : Word) (j : Job), s.dev.jobBySeq p r q = some j → s.tier1 j = true → j.latest ≤ s.dev.devtime + 15000 →
      (∀ t, s.placeReserved j [] = some t → Answers (.classAPreempt p r q) s t) ∧
      (s.placeReserved j [] = none →
        let need := s.admitted j - s.dev.runningOn j.order
        let mine := (s.comingTo j).take need
        let t := s.each mine fun s c => s.updCluster c fun k => { k with dest := some j.order }
        Answers (.classAPreempt p r q) s (t.preempt (t.victims.take (need - mine.length)) (some j.order)))) ∧
    ∀ (c : Fin 16) (o : Nat) (j : Job), (s.cluster c).job = some o → s.dev.job o = some j → (s.cluster c).saving = true →
      let units := ceilDiv ((s.cluster c).ctx.saveBytes j) 64
      ((s.cluster c).ctx.isEmpty = true ∨ j.save = none → Answers (.preemptSaveDone c) s (s.unplace c j)) ∧
      ∀ area, j.save = some area → (s.cluster c).ctx.isEmpty = false →
        (s.saveReserved = true → s.dev.gfx.saves.length < 4 → Answers (.preemptSaveDone c) s
          ((s.unplace c j).onDev (·.updGfx fun g =>
            { g with saves := g.saves ++ [{ order := o, ply := j.ply, addr := area.1, size := area.2, units := units }] })).drainSaves) ∧
        (s.saveReserved = false ∨ 4 ≤ s.dev.gfx.saves.length →
          ∀ t u, s.takeMem (plyHolder j.ply) units [(area.1, 64 * units)] = some t → t.saveTo j.ply area = some u →
            Answers (.preemptSaveDone c) s (u.unplace c j))

/-- Retirement and deadlines (R208, R231): a job whose buffer and pass have ended and that has nothing in flight, or that stopped, retires with its
status and the DEVTIME of its first placement and of now; a job not retired by its deadline raises GFX_DEADLINE_MISS once and goes on. -/
def Sys2Proof.Claims.JobEndResults : Prop :=
  ∀ (p : Fin 64) (r : Fin 4) (q : Word) (s : State) (j : Job), Runs s → s.dev.jobBySeq p r q = some j →
    (j.ended.isSome = true ∨ (j.bufs = [] ∧ j.pass = none ∧ s.jobQuiet j = true) → Answers (.gfxJobRetire p r q) s
      ((s.finishDesc p r j.order (j.ended.getD 0) (bytesOf 8 (j.started.getD 0) ++ bytesOf 8 s.dev.devtime)).dropJob j.order)) ∧
    (j.deadline ≠ 0 → j.deadline ≤ s.dev.devtime →
      (j.missed = true → Answers (.gfxDeadlineMiss p r q) s s) ∧
      (j.missed = false →
        let u := (s.updJob j.order fun j => { j with missed := true }).onDev (·.updGfx fun g => { g with misses := satInc g.misses 1 })
        Answers (.gfxDeadlineMiss p r q) s (u.postPly p p.val 0x0600 0 (dataBytes [(16, 8, j.deadline), (24, 4, q.toNat), (28, 1, r.val)])))) ∧
    (s.dev.devtime < j.deadline → Answers (.gfxDeadlineMiss p r q) s s)

end
namespace Sys2Proof.Claims
open Sys2Proof Sys2Proof.Machine

/-- The ply page of `p` responds on port `q` and the clocked part runs (R38). -/
def Open (s : State) (q : Fin 4) (p : Fin 64) : Prop := Runs s ∧ s.dev.pageOpen q p = true

/-- A submission ring of `p` may take work: the ply is ACTIVE, the ring enabled and without an error (R70, R73, R108). -/
def TakesWork (s : State) (p : Fin 64) (r : Fin 4) : Prop := Runs s ∧ s.intake p = true ∧ (s.ring p r).enable = true ∧ (s.ring p r).error = false

end Sys2Proof.Claims

section
open Sys2Proof Sys2Proof.Machine Sys2Proof.Claims

/-- Doorbells (R75, R78, R79): a nudge of a ring that is not polled starts a pass, also where a refused RING take has stopped the last one, or asks for
one more where a pass runs; a nudge of a polled ring is
a poll; a nudge of the completion ring has its CONS read again, once more where a read is out. Rings that the mask does not name, or that are not enabled, are left. -/
def Sys2Proof.Claims.DoorbellResults : Prop :=
  ∀ (q : Fin 4) (p : Fin 64) (s : State), Open s q p →
    ((s.ply p).cq.enable = true → Answers (.nudgeCq q p) s
      (if (s.ply p).cq.reread = .none then s.wantCons p else s.updCq p fun c => { c with again := true })) ∧
    (s.intake p = true → ∀ m : Fin 16, Answers (.nudgeSq q p m) s
      (let u := ([0, 1, 2, 3] : List (Fin 4)).foldl (fun u r =>
        if bit m.val r.val && (s.ring p r).runs && !(s.ring p r).poll then
          (if (u.ring p r).read = .idle ∨ (u.ring p r).read = .stalled then u.startPass p r else u.updRing p r fun g => { g with again := true })
        else u) s
      if ([0, 1, 2, 3] : List (Fin 4)).any fun r => bit m.val r.val && (s.ring p r).runs && (s.ring p r).poll then u.wantPoll p else u))

/-- Setting up and disabling rings (R72-R74): RING_ENABLE takes the fields of RING_CTL; a set-up in order enables the ring with CONS 0 and clears its
doorbell record, one out of order sets SETUP_ERR; a ring already enabled is left. RING_DISABLE and CQ_DISABLE stop at once, the data of
reads already issued for the ring is not used, and what waited for an entry goes on without one. While the ply may not write host memory the record's
clearing leaves no write (log entry 28). -/
def Sys2Proof.Claims.RingSetupResults : Prop :=
  ∀ (q : Fin 4) (p : Fin 64) (v : Word) (s : State), Open s q p →
    (∀ r : Fin 4, (s.ring p r).enable = true → Answers (.ringEnable q p ⟨r.val, by omega⟩ v) s s) ∧
    (∀ r : Fin 4, (s.ring p r).enable = false →
      let u := s.updRing p r fun g =>
        { g with log2Depth := fld v.toNat 15 12, poll := bit v.toNat 11 && (s.ply p).cls == .a, vec := fld v.toNat 10 8, vecEn := bit v.toNat 7 }
      ((u.ply p).ringOk r (s.port q).mrrs = false →
        Answers (.ringEnable q p ⟨r.val, by omega⟩ v) s (u.updRing p r fun g => { g with setupErr := true })) ∧
      ((u.ply p).ringOk r (s.port q).mrrs = true →
        let x := u.updRing p r fun g => { g with enable := true, error := false, setupErr := false, asleep := false, cons := 0, prod := 0, read := .idle,
                                                 again := false, queue := g.queue.map fun f => if g.loose f then { f with mark := 1 } else f }
        let y := x.onDev fun d => (d.hostWrite p false ((d.ply p).record r 8) (bytesOf 4 0)).hostWrite p false ((d.ply p).record r 16) [0]
        Answers (.ringEnable q p ⟨r.val, by omega⟩ v) s (if y.intake p && !(y.ring p r).poll then y.startPass p r else y))) ∧
    ((s.ply p).cq.enable = true → Answers (.ringEnable q p 4 v) s s) ∧
    ((s.ply p).cq.enable = false →
      let u := s.updCq p fun c => { c with log2Depth := fld v.toNat 15 12 }
      ((u.ply p).cq.setupOk = false → Answers (.ringEnable q p 4 v) s (u.updCq p fun c => { c with setupErr := true })) ∧
      ((u.ply p).cq.setupOk = true →
        let x := u.updCq p fun c => { c with enable := true, setupErr := false, asleep := false, prod := 0, cons := 0, reserved := 0, reread := .none, again := false }
        Answers (.ringEnable q p 4 v) s (x.onDev fun d =>
          ((d.hostWrite p true ((d.ply p).dbrBase.toNat + 256) (bytesOf 4 0)).hostWrite p true ((d.ply p).dbrBase.toNat + 272) [0]).reportLost p))) ∧
    (∀ r : Fin 4, Answers (.ringDisable q p r) s
      (((s.updPly p fun y => { y with pollOut := y.pollOut.map fun v => put v r none }).onDev (·.dropReads (ReadFor.ofRing p r))).updRing p r fun g =>
        { g with enable := false, read := .idle, again := false })) ∧
    ((s.ply p).cq.enable = true →
      let u := (s.onDev (·.dropReads (· == .cons p))).updPly p fun y =>
        { y with cq := { y.cq with enable := false, reserved := 0, waiters := [], reread := .none, again := false },
                 rings := y.rings.map fun g => { g with queue := g.queue.map fun f =>
                   { f with reserved := false, phase := if f.phase = .waitEntry then .parsed else f.phase } } }
      let events := (s.ply p).cq.waiters.filter fun w => match w with | .reserve _ _ => false | _ => true
      Answers (.cqDisable q p) s (events.foldl (fun u _ => u.onDev (·.dropEvent p)) u))

/-- The fence registers of the ply page (R72, R91, R94): the high word is staged; writing the low word signals the selected fence with both;
reading the low word gives the selected fence's and latches its high word. -/
def Sys2Proof.Claims.FenceRegisterResults : Prop :=
  ∀ (q : Fin 4) (p : Fin 64) (v : Word) (s : State), Open s q p →
    Answers (.fenceValHiWrite q p v) s (s.updPly p fun y => { y with fenceStage := v }) ∧
    Answers (.fenceValLoWrite q p v) s (s.signal p (s.ply p).fenceSel (DWord.ofWords (s.ply p).fenceStage v)) ∧
    Answers (.fenceValLoRead q p) s ((s.updPly p fun y => { y with fenceLatch := ((y.fence y.fenceSel) >>> 32).setWidth 32 }).emit
      (.regValue q (p.val * 4096 + 0x24) (((s.ply p).fence (s.ply p).fenceSel).setWidth 32)))

/-- A signal sets the fence to the larger of its value and the signalled one, and leaves every other fence (R91); on the same cycle the heads of the
ply's rings whose waits it reaches are released: a FENCE_WAIT goes to retirement, a COMMIT's group is armed, a job counts as armed (R25, R86, R93). -/
def Sys2Proof.Claims.FenceSignalTakesTheLarger : Prop :=
  (∀ (y : Ply) (n k : Nat) (v : DWord), (y.signal n v).fence n = (if y.fence n < v then v else y.fence n) ∧
    (k ≠ n → (y.signal n v).fence k = y.fence k)) ∧
  (∀ (s : State) (p : Fin 64) (n : Nat) (v : DWord),
    s.signal p n v = ([0, 1, 2, 3] : List (Fin 4)).foldl (fun u r => u.releaseHead p r) (s.updPly p fun y => y.signal n v)) ∧
  ∀ (s : State) (p : Fin 64) (r : Fin 4) (f : InFlight), (s.ring p r).head = some f → s.intake p = true → f.phase = .parsed →
    (s.ply p).reached f = true →
    let u := s.updDesc p r f.order fun f => { f with armedAt := f.armedAt.or (some s.dev.devtime) }
    (f.opcode ≠ 0x02 → f.opcode ≠ 0x20 → s.releaseHead p r = u) ∧ (f.opcode = 0x20 → s.releaseHead p r = u.commitArm p r) ∧
    (f.opcode = 0x02 → (s.ring p r).barrierMet f = true →
      s.releaseHead p r = u.finishDesc p r f.order 0 (bytesOf 8 ((s.ply p).fence f.waitFence).toNat))

/-- Reads of a ring that is not polled (R70, R76, R83, R85): its PROD, its slots, and the last PROD before it sleeps. More than the ring's depth beyond
CONS, or a slot with a wrong SEQ, stops the ring; a refused RING take stalls it until RING_SERVICE_RESUME. -/
def Sys2Proof.Claims.RingReadResults : Prop :=
  ∀ (p : Fin 64) (r : Fin 4) (s : State), Runs s →
    (∀ v : Word, s.dev.readOut (.record p r) = true →
      let u := s.endReads (.record p r)
      let x := u.updRing p r fun g => { g with prod := v }
      TakesWork u p r → (u.ring p r).read = .record ∨ (u.ring p r).read = .confirm →
      Answers (.doorbellRecordReadDone p r v) s
        (if (u.ring p r).depth < (v - (u.ring p r).cons).toNat then x.stopRing p r
        else if (u.ring p r).read = .record then (if v = (u.ring p r).cons then x.goToSleep p r else x.readSlots p r)
        else if v ≠ (u.ring p r).cons then (x.writeAsleep p r false).readRecord p r .record
        else if (u.ring p r).again then x.startPass p r else x.updRing p r fun g => { g with read := .idle })) ∧
    (∀ (slots : List (List Byte)) (n : Nat), s.dev.readOut (.slots p r) = true →
      let u := s.endReads (.slots p r)
      TakesWork u p r → (u.ring p r).read = .slots n → slots.length = n →
      let x := (u.acceptBatch p r slots).1.writeCons p r
      Answers (.slotReadDone p r slots) s (match (u.acceptBatch p r slots).2 with
        | .wrongSeq => x.stopRing p r
        | .refused => x.updRing p r fun g => { g with read := .stalled }
        | .all => if (x.ring p r).cons = (x.ring p r).prod then x.goToSleep p r else x.readSlots p r)) ∧
    (TakesWork s p r → (s.ring p r).read = .stalled → Answers (.ringServiceResume p r) s (s.startPass p r))

/-- Acceptance (R55, R61, R85): a slot with the right SEQ takes one RING credit, standing on a polled ring with fewer than 8 descriptors in flight,
joins the ring's queue, and CONS moves on by one. LAYERs before it that it does not claim complete, and a COMMIT's group is decided (R191). -/
def Obligations.AcceptanceTakesOneCredit : Prop :=
  ∀ (s t : State) (p : Fin 64) (r : Fin 4) (bs : List Byte), s.accept p r bs = some t →
    let g := s.ring p r
    ∃ (f : InFlight) (u : State), f.bytes = bs ∧ f.seq = g.cons ∧ f.order = s.dev.order ∧ f.phase = .accepted ∧
      f.standing = (g.poll && decide (g.queue.length < 8)) ∧
      s.skein.take .ring (if f.standing then standHolder p else plyHolder p) 1 = some u.skein ∧ (u.ring p r).cons = g.cons + 1 ∧
      (u.ring p r).queue = g.queue ++ [f] ∧ u.dev.order = s.dev.order + 1 ∧ u.dram = s.dram ∧ t = u.groupsOnAccept p r f ∧
      (f.opcode ≠ 0x20 → t.skein = u.skein ∧ t.dram = s.dram ∧ (t.ring p r).cons = g.cons + 1 ∧ (t.ring p r).queue.length = g.queue.length + 1)

/-- Class A polling (R79, R81, R82): the timer polls as a nudge does; a poll's reads take 1 tag and 1 more for each polled ring of the standing
reservation, and return them; each ring that was polled and still runs accepts what its
PROD covers. -/
def Sys2Proof.Claims.PollResults : Prop :=
  ∀ (p : Fin 64) (s : State), Runs s →
    Answers (.pollTimer p) s (s.wantPoll p) ∧
    (s.intake p = true → (s.ply p).cls = .a → (s.ply p).polled ≠ [] → (s.port (s.ply p).port).trafficOk = true → (s.ply p).pollOut = none →
      (s.ply p).pollTags = 0 → ∀ k, s.skein.take (.htag (s.ply p).port) (standHolder p) (1 + (s.ply p).polled.length) = some k →
      ∃ t, Answers (.pollTimer p) s t ∧ t.skein = k ∧ (t.ply p).pollTags = 1 + (s.ply p).polled.length ∧
        (t.ply p).pollOut = some (Vector.ofFn fun r => if (s.ply p).polled.contains r then some (s.ring p r).prod else none) ∧ t.dram = s.dram) ∧
    (∀ (block : List Byte) (slots : Vector (List (List Byte)) 4) (known : Vector (Option Word) 4), 0 < (s.ply p).pollTags → (s.ply p).pollOut = some known →
      let one := fun (u : State) (r : Fin 4) =>
        let v := word (le32 block (64 * r.val))
        let c := (u.ring p r).cons
        match at' known r with
        | none => u
        | some k =>
        if !(u.ring p r).runs then u
        else if 8 < (v - c).toNat then u.stopRing p r
        else
          let x := (u.acceptPolled p r k v (at' slots r) 8).updRing p r fun g => { g with prod := v }
          if (x.ring p r).cons = c then x else x.writeCons p r
      Answers (.pollReadsDone p block slots) s ((([0, 1, 2, 3] : List (Fin 4)).foldl one s).endPoll p))

/-- CONS of the completion ring has been read (R78, R98): entries freed go to what waits, held events that find none are dropped, and a ring still
full sleeps and is read once more; with an entry free, ASLEEP is cleared. A nudge that came meanwhile has CONS read again. -/
def Sys2Proof.Claims.CompletionRingReadResults : Prop :=
  ∀ (p : Fin 64) (v : Word) (s : State), Runs s → s.dev.readOut (.cons p) = true →
    let u := s.endReads (.cons p)
    (u.ply p).cq.enable = true → (u.ply p).cq.reread ≠ .none →
    let x := (((u.updCq p fun c => { c with cons := v, reread := .none, again := false }).onDev fun d => (d.reportLost p).serveWaiters p (d.ply p).cq.waiters).onDev
      fun d => d.dropHeldEvents p)
    let c := (x.ply p).cq
    let shown := fun b => x.onDev fun d => d.hostWrite p true ((d.ply p).dbrBase.toNat + 272) [b]
    Answers (.cqConsReadDone p v) s
      (if 0 < c.freeEntries then
        (let y := if c.asleep then (shown 0).updCq p fun c => { c with asleep := false } else x
         if (u.ply p).cq.again then y.wantCons p else y)
      else if (u.ply p).cq.again then x.wantCons p
      else if (u.ply p).cq.reread = .first ∧ (c.waiters ≠ [] ∨ c.dropped ≠ 0) then
        ((shown 1).updCq p fun c => { c with asleep := true, reread := .second }).plyReads p (.cons p) [(((shown 1).ply p).dbrBase.toNat + 264, 4)]
      else x)

end
namespace Sys2Proof.Claims
open Sys2Proof Sys2Proof.Machine

/-- Descriptor `f` stands at the head of ring `r` of an ACTIVE ply with an opcode, parsed, its wait reached and its BARRIER met (R84, R86, R89). -/
def AtHead (s : State) (p : Fin 64) (r : Fin 4) (op : Nat) (f : InFlight) : Prop :=
  (s.ring p r).head = some f ∧ (s.ply p).state = .active ∧ f.phase = .parsed ∧ f.opcode = op ∧
    (f.waitEn = true → f.waitValue ≤ (s.ply p).fence f.waitFence) ∧ (s.ring p r).barrierMet f = true

/-- The state in which a descriptor of a ring awaits retirement with a status and a 16-byte result, and nothing else has changed. -/
def awaits (s : State) (p : Fin 64) (r : Fin 4) (f : InFlight) (status : Nat) (result : List Byte) : State :=
  s.updRing p r fun g => { g with queue := g.queue.map fun e =>
    if e.order = f.order then { e with phase := .finished, status := status, result := fitBytes 16 result } else e }

end Sys2Proof.Claims

section
open Sys2Proof Sys2Proof.Machine Sys2Proof.Claims

/-- DESCRIPTOR_PARSE (R25, R85, R86, R159, R191): the accepted head of a ring of an ACTIVE ply completes with the first check that fails and no other
effect; one that passes reserves its completion entry, after reading the block it names, where the mapping holds and the MEM take is granted, and is
armed where its wait is reached already. A LAYER reads its state block and is checked against it, unless its COMMIT's acceptance had it checked; one
that fails waits for the COMMIT that claims it. -/
def Sys2Proof.Claims.ParseResults : Prop :=
  ∀ (p : Fin 64) (r : Fin 4) (s : State) (f : InFlight), Runs s → (s.ring p r).head = some f → s.intake p = true → f.phase = .accepted →
    let armed := fun u : State => (u.reserveEntry p r f.order).releaseHead p r
    (f.opcode = 0x21 → ∀ t st, (if f.seen then some (s, f.status) else s.checkLayer p r f) = some (t, st) → Answers (.descriptorParse p r) s
      ((if st = stOk then t.reserveEntry p r f.order else t.updDesc p r f.order fun f => { f with phase := .dispatched }).groupsOnLayer p r f.order)) ∧
    (f.opcode = 0x20 → s.dev.parseCheck p f ≠ stOk → Answers (.descriptorParse p r) s (s.settleGroup p r f)) ∧
    (f.opcode ≠ 0x20 → f.opcode ≠ 0x21 → s.dev.parseCheck p f ≠ stOk →
      Answers (.descriptorParse p r) s (awaits s p r f (s.dev.parseCheck p f) [])) ∧
    (f.opcode ≠ 0x21 → s.dev.parseCheck p f = stOk → f.opcode ≠ 0x51 → f.opcode ≠ 0x60 → Answers (.descriptorParse p r) s (armed s)) ∧
    (f.opcode = 0x51 ∨ f.opcode = 0x60 → s.dev.parseCheck p f = stOk →
      let (a, n) := (le64 f.bytes 40, le32 f.bytes 48)
      (s.dev.mapped p a n false = false → Answers (.descriptorParse p r) s (awaits s p r f 0x05 [])) ∧
      ∀ t bs, s.dev.mapped p a n false = true → s.takeMem (plyHolder p) (unitsOf a n) [(a, n)] = some t → t.plyRead p a n = some bs →
        (t.dev.blockCheck p f bs ≠ stOk → Answers (.descriptorParse p r) s (awaits t p r f (t.dev.blockCheck p f bs) [])) ∧
        (t.dev.blockCheck p f bs = stOk →
          Answers (.descriptorParse p r) s (armed (t.updDesc p r f.order fun f => { f with block := bs }))))

/-- Retirement (R87, R88, R91, R92, R95, R115): a finished descriptor's signal, then its RING credit, its place in the ring and its completion entry. On
an ACTIVE ply, and for an UNMAP that has removed its pages on any, it carries its own status; on a ply that drains it completes DISCARDED without a
signal. One without a reserved entry that finds none free waits for one first, with its RING credit. A FENCE_SIGNAL that does not raise its fence
completes with FENCE_NOT_ADVANCED; its result is the value, written to its write-back address where it has one. -/
def Sys2Proof.Claims.RetirementResults : Prop :=
  ∀ (p : Fin 64) (r : Fin 4) (q : Word) (s : State) (f : InFlight), Runs s →
    ((s.ring p r).queue.find? fun f => f.seq == q && f.phase == .finished) = some f →
    let kept := (s.ply p).state = .active ∨ (f.opcode = 0x71 ∧ f.status = stOk)
    let noEntry := (s.ply p).cq.enable = true ∧ (s.ply p).writesHost false = true ∧ f.reserved = false ∧
      ((s.ply p).cq.waiters ≠ [] ∨ (s.ply p).cq.freeEntries = 0)
    let retired := fun u : State => (u.onSkein fun k => k.give .ring (f.holder p) 1).updRing p r fun g =>
      { g with queue := g.queue.filter fun e => e.order != f.order }
    let u := if f.signalEn && (f.status == 0 || f.sigOnError) then s.signal p f.signalFence f.signalValue else s
    (kept → noEntry → Answers (.descriptorRetire p r q) s (s.awaitEntry p r f)) ∧
    (kept → ¬noEntry → f.opcode ≠ 0x03 ∨ f.status ≠ 0 →
      Answers (.descriptorRetire p r q) s ((retired u).writeCompletion p r f f.status f.result)) ∧
    (kept → ¬noEntry → f.opcode = 0x03 → f.status = 0 →
      let now := bytesOf 8 ((u.ply p).fence f.signalFence).toNat
      let v := if le64 f.bytes 32 = 0 then u else u.onDev fun d => d.hostWrite p false (le64 f.bytes 32) now
      Answers (.descriptorRetire p r q) s
        ((retired v).writeCompletion p r f (if (s.ply p).fence f.signalFence < f.signalValue then 0x00 else 0x0A) now)) ∧
    (¬kept → Answers (.descriptorRetire p r q) s ((retired s).writeCompletion p r f stDiscarded []))

/-- NOP, FENCE_WAIT and FENCE_SIGNAL, parsed at the head of their ring on an ACTIVE ply with their wait reached and BARRIER met (`AtHead`, conditions on
the state alone), complete: exec of the row = next of the state in which the descriptor awaits retirement with OK (R84, R86, R89); a FENCE_WAIT
carries the fence's value. FENCE_WAIT_TIMEOUT completes so with TIMEOUT (0x06) and the fence's value, where the FENCE_WAIT at the head gives a
timeout and its fence has not reached its value. A FENCE_SIGNAL implies BARRIER: it needs every earlier descriptor of its ring gone. -/
def Sys2Proof.Claims.FenceDescriptorResults : Prop :=
  ∀ (p : Fin 64) (r : Fin 4) (s : State) (f : InFlight), Runs s →
    (AtHead s p r 0x01 f → Answers (.nop p r) s (awaits s p r f 0 [])) ∧
    (AtHead s p r 0x02 f → Answers (.fenceWait p r) s (awaits s p r f 0 (bytesOf 8 ((s.ply p).fence f.waitFence).toNat))) ∧
    (AtHead s p r 0x03 f → Answers (.fenceSignal p r) s (awaits s p r f 0 []) ∧ ∀ e ∈ (s.ring p r).queue, f.order ≤ e.order) ∧
    ((s.ring p r).head = some f → f.phase = .parsed → f.opcode = 0x02 → le32 f.bytes 32 ≠ 0 → f.waitEn = true →
      (s.ply p).fence f.waitFence < f.waitValue →
      Answers (.fenceWaitTimeout p r) s (awaits s p r f 0x06 (bytesOf 8 ((s.ply p).fence f.waitFence).toNat)))

/-- COPY and FILL (R21, R36, R43, R89): with the MEM take granted and the addresses mapped, up to `n` more bytes go from source to destination, or leave
as host writes; the last byte completes the descriptor with the number of bytes moved. A COPY from host memory first issues the read of up to `n` bytes,
one HTAG credit for each of its requests; once all are out, its data comes with the next command and the requests complete. A FILL repeats its 4-byte
pattern from the start of its range. -/
def Sys2Proof.Claims.TransferResults : Prop :=
  ∀ (p : Fin 64) (r : Fin 4) (q : Word) (n : Nat) (host bs : List Byte) (s t u : State) (f : InFlight), Runs s →
    let w := s.dispatch p r f.order f.mark
    let a := f.copyArgs
    let src := a.src + f.mark
    let dst := a.dst + f.mark
    let put := if a.dstHost then u = t.onDev fun d => d.hostWrite p false dst bs else t.plyWrite p .copy dst bs = some u
    let done := fun (m : Nat) => if f.mark + m < a.len then u.updDesc p r f.order fun f => { f with mark := f.mark + m, reading := 0 }
      else u.finishDesc p r f.order 0 (bytesOf 4 a.len)
    let take := fun (m : Nat) => w.takeMem (plyHolder p) ((if a.srcHost then 0 else unitsOf src m) + (if a.dstHost then 0 else writeCost dst m))
      ((if a.srcHost then [] else [(src, m)]) ++ if a.dstHost then [] else [(dst, m)])
    (s.running p r 0x10 q = some f → a.srcHost = false →
      let m := min n (a.len - f.mark)
      take m = some t → t.plyRead p src m = some bs → put → Answers (.copy p r q n host) s (done m)) ∧
    (s.running p r 0x10 q = some f → a.srcHost = true → f.reading = 0 →
      let m := min n (a.len - f.mark)
      Answers (.copy p r q n host) s ((w.updDesc p r f.order fun f => { f with reading := m }).plyReads p (.data p f.order) [(src, m)])) ∧
    (s.running p r 0x10 q = some f → a.srcHost = true → f.reading ≠ 0 → w.dev.readOut (.data p f.order) = true →
      let m := min f.reading (a.len - f.mark)
      bs = fitBytes m host → take m = some t → put → Answers (.copy p r q n host) s ((done m).endReads (.data p f.order))) ∧
    (s.running p r 0x11 q = some f →
      let m := min n (a.len - f.mark)
      bs = (List.range m).map (fun i => (bytesOf 4 (le32 f.bytes 44)).getD ((f.mark + i) % 4) 0) →
      take m = some t → put → Answers (.fill p r q n) s (done m))

/-- CHECK (R21, R43, R442, R444-R446): the ring's head joins its unit's queue and starts where the unit is idle; the unit's own CHECK feeds up to `n` more
bytes into its register, device data under MEM, host data after a read with one HTAG credit for each request, and at the last one completes with the
register and leaves it as the running value, unless new parameters have come meanwhile. -/
def Sys2Proof.Claims.CheckResults : Prop :=
  ∀ (p : Fin 64) (r : Fin 4) (q : Word) (n : Nat) (host : List Byte) (s : State) (f : InFlight), Runs s → s.running p r 0x12 q = some f →
    let m := min n (f.chkLen - f.mark)
    let fed := fun (t : State) (j : CheckJob) (bs : List Byte) => if f.mark + bs.length < f.chkLen
        then (t.updCheck f.chkUnit fun c => { c with job := some { j with reg := j.params.feedAll j.reg bs } }).updDesc p r f.order fun f =>
          { f with mark := f.mark + bs.length, reading := 0 }
        else ((t.updCheck f.chkUnit fun c => { c with job := none, running := if j.stale then c.running else j.params.feedAll j.reg bs }).finishDesc
          p r f.order 0 (bytesOf 8 (j.params.feedAll j.reg bs))).startCheck f.chkUnit
    (f.phase ≠ .dispatched →
      let u := ((s.dispatch p r f.order 0).updCheck f.chkUnit fun c => { c with queue := c.queue ++ [(p, r, f.order)] }).startCheck f.chkUnit
      Answers (.check p r q n host) s (u.checkOn p r { f with phase := .dispatched, mark := 0 } n host)) ∧
    ∀ (j : CheckJob) (t : State) (bs : List Byte), f.phase = .dispatched → (s.dev.check f.chkUnit).job = some j → j.order = f.order →
      (f.chkHost = false → s.takeMem (plyHolder p) (unitsOf (f.chkAddr + f.mark) m) [(f.chkAddr + f.mark, m)] = some t →
        t.plyRead p (f.chkAddr + f.mark) m = some bs → Answers (.check p r q n host) s (fed t j bs)) ∧
      (f.chkHost = true → f.reading = 0 → Answers (.check p r q n host) s
        ((s.updDesc p r f.order fun f => { f with reading := m }).plyReads p (.data p f.order) [(f.chkAddr + f.mark, m)])) ∧
      (f.chkHost = true → f.reading ≠ 0 → s.dev.readOut (.data p f.order) = true →
        Answers (.check p r q n host) s (fed (s.endReads (.data p f.order)) j (fitBytes f.reading host)))

/-- COPY_STOP (R115): on a ply that is not ACTIVE a CHECK leaves its unit, and a COPY or FILL runs to its next 4 KiB boundary, as far as its data is
there; each is DISCARDED, and host data still on its way is dropped. A transfer whose MEM take is refused stops where it stands (log entry 29). -/
def Sys2Proof.Claims.CopyStopResults : Prop :=
  ∀ (p : Fin 64) (r : Fin 4) (q : Word) (host : List Byte) (s : State) (f : InFlight), Runs s → s.descBySeq p r q = some f → s.intake p = false →
    f.phase = .dispatched →
    let out := s.dev.readOut (.data p f.order)
    let left := (f.mark + 4095) / 4096 * 4096 - f.mark
    let m := if f.opcode = 0x10 ∧ f.copyArgs.srcHost = true then (if out then min left f.reading else 0) else left
    let t := (s.moveOn p r f m host).getD s
    (f.opcode = 0x12 → Answers (.copyStop p r q host) s (s.dropCheck p r f)) ∧
    (f.opcode = 0x10 ∨ f.opcode = 0x11 → Answers (.copyStop p r q host) s
      ((if t.dev.readOut (.data p f.order) then t.endReads (.data p f.order) else t.onDev (·.dropReads (· == .data p f.order))).finishDesc
        p r f.order stDiscarded []))

/-- MAP and UNMAP, parsed at the head of their ring (`AtHead`), complete: exec of the row = next of the state given (R90, R306). MAP's status is the
first of: BAD_FIELD (0x02) where it grants no right; NOT_PERMITTED (0x05) where a target granule is outside DRAM, or neither the ply's own nor lent
to it with the rights it asks for; BAD_FIELD where a page of the range is mapped already. A MAP that fails maps nothing; else every page of the
range is mapped to its granule with the rights, and none other changes. UNMAP waits for the ply's earlier descriptors and for active layers that use
the pages, then removes every page of the range and none other. Nothing else of the ply changes but the descriptor, and no other ply, no credit and
no byte of memory. -/
def Sys2Proof.Claims.MappingResults : Prop :=
  ∀ (p : Fin 64) (r : Fin 4) (s : State) (f : InFlight), Runs s →
    let (pg, n) := (le64 f.bytes 32 / 65536, le32 f.bytes 48)
    let (phys, rights) := (le64 f.bytes 40 / 65536, byteAt f.bytes 52)
    let mine := fun g : Nat => g * 65536 < s.dev.dramTop ∧ (s.dev.ely.ownerOf g = some p.val ∨ s.dev.ely.lentTo g p.val (bit rights 1) = true)
    let taken := ∃ i, pg ≤ i ∧ i < pg + n ∧ Map.find (s.ply p).tables i ≠ none
    (AtHead s p r 0x70 f →
      (bit rights 0 = false ∧ bit rights 1 = false → Answers (.mapPages p r) s (awaits s p r f 0x02 [])) ∧
      (bit rights 0 = true ∨ bit rights 1 = true → (∃ i < n, ¬mine (phys + i)) → Answers (.mapPages p r) s (awaits s p r f 0x05 [])) ∧
      (bit rights 0 = true ∨ bit rights 1 = true → (∀ i < n, mine (phys + i)) → taken → Answers (.mapPages p r) s (awaits s p r f 0x02 [])) ∧
      (bit rights 0 = true ∨ bit rights 1 = true → (∀ i < n, mine (phys + i)) → ¬taken →
        ∃ tb, Answers (.mapPages p r) s (awaits (s.updPly p fun y => { y with tables := tb }) p r f 0 []) ∧
          ∀ i, Map.find tb i = if pg ≤ i ∧ i < pg + n then some (Pte.mk (phys + (i - pg)) (bit rights 0) (bit rights 1))
            else Map.find (s.ply p).tables i)) ∧
    (AtHead s p r 0x71 f →
      ((s.ply p).earlierRetired f.order = false ∨ s.dev.layersUse p pg n = true → Answers (.unmapPages p r) s s) ∧
      ((s.ply p).earlierRetired f.order = true → s.dev.layersUse p pg n = false →
        ∃ tb, Answers (.unmapPages p r) s (awaits (s.updPly p fun y => { y with tables := tb }) p r f 0 []) ∧
          ∀ i, Map.find tb i = if pg ≤ i ∧ i < pg + n then none else Map.find (s.ply p).tables i))

/-- Layers and their commits (R157, R191-R194): a checked LAYER waits in the pending state; a COMMIT whose group's status is decided against it completes
the group with that status, and one over its age completes it STALE with the frame number; with its waits reached, its status clear and its age met the
group is armed. -/
def Sys2Proof.Claims.CommitResults : Prop :=
  ∀ (p : Fin 64) (r : Fin 4) (s : State) (f : InFlight), Runs s →
    let orders := ((s.ring p r).groupOf f).map (·.order)
    let now := (s.head f.commitHead).frame
    (AtHead s p r 0x21 f → Answers (.layer p r) s (s.dispatch p r f.order f.mark)) ∧
    ((s.ring p r).head = some f → f.opcode = 0x20 → f.phase = .parsed →
      (∀ st, s.groupStatus p r f = some st → (s.ring p r).queue.any (fun e => e.order == f.order) = true →
        Answers (.commit p r) s (s.finishGroup p r orders f.order st 0)) ∧
      (s.groupStatus p r f = none → (∀ l ∈ (s.ring p r).groupOf f, l.seen = true) →
        (overAge f.mark f.commitAge now.toNat = false → Answers (.commit p r) s s) ∧
        (overAge f.mark f.commitAge now.toNat = true → Answers (.commit p r) s (s.finishGroup p r orders f.order stStale now)))) ∧
    (AtHead s p r 0x20 f →
      (∀ st, s.groupStatus p r f = some st → Answers (.commitArm p r) s (s.finishGroup p r orders f.order st 0)) ∧
      (s.groupStatus p r f = none → overAge f.mark f.commitAge now.toNat = true →
        Answers (.commitArm p r) s (s.finishGroup p r orders f.order stStale now)) ∧
      (s.groupStatus p r f = none → overAge f.mark f.commitAge now.toNat = false → Answers (.commitArm p r) s (s.armGroup p r f)))

/-- SIG_EXPECT (R198, R202): the owner's value for the current frame or one of the next three is stored; a value for a later frame is BAD_FIELD, one for a frame past or that
misses its latch STALE, and a ply that does not own the region gets NOT_PERMITTED. -/
def Sys2Proof.Claims.SignatureExpectResults : Prop :=
  ∀ (p : Fin 64) (r : Fin 4) (missed : Bool) (s : State) (f : InFlight), Runs s → AtHead s p r 0x22 f →
    let (h, k) := (f.sigHead, f.sigRegion)
    let (value, n, now) := (le64 f.bytes 32, le64 f.bytes 40, (s.head h).frame.toNat)
    let ends := fun st res => s.finishDesc p r f.order st res
    (s.dev.sigOwner h k ≠ some p.val → Answers (.sigExpect p r missed) s (ends stNotPermitted [])) ∧
    (s.dev.sigOwner h k = some p.val →
      (now + 3 < n → Answers (.sigExpect p r missed) s (ends stBadField [])) ∧
      (n < now → Answers (.sigExpect p r missed) s (ends stStale [1])) ∧
      (now ≤ n → n ≤ now + 3 →
        (missed = true → n = now → Answers (.sigExpect p r missed) s (ends stStale [2])) ∧
        (missed = false ∨ n ≠ now → Answers (.sigExpect p r missed) s
          ((s.updHead h fun x => { x with sigs := upd x.sigs k fun g => { g with expect := Map.ins g.expect n value } }).finishDesc p r f.order stOk [0]))))

end
namespace Sys2Proof.Claims
open Sys2Proof Sys2Proof.Machine

/-- Elytra runs command `code` of acceptance `o`, well formed and from the manager's port (R296, R299, R301). -/
def Managed (s : State) (o code : Nat) (j : Journal) : Prop :=
  Runs s ∧ s.command o code = some j ∧ j.wellFormed = true ∧ s.dev.isManager j.port = true

/-- A command of the manager alone: a message that is not well formed gets BAD_MESSAGE, one from another port NOT_PERMITTED, in that order, and neither
does anything else (R299). -/
def ManagerOnly (ins : Nat → Instr) (code : Nat) : Prop :=
  ∀ (o : Nat) (s : State) (j : Journal), Runs s → s.command o code = some j →
    (j.wellFormed = false → Answers (ins o) s (s.answer j mbBadMessage [])) ∧
    (j.wellFormed = true → s.dev.isManager j.port = false → Answers (ins o) s (s.answer j mbNotPermitted []))

/-- A manager's command that names an existing ply. -/
def ManagedPly (s : State) (o code : Nat) (j : Journal) (p : Fin 64) : Prop :=
  Managed s o code j ∧ j.ply 0 = some p ∧ (s.ply p).state ≠ .absent

/-- The state after a command's buffer of `n` bytes has been read, with what it holds: an empty buffer is not read, and of another every request is out
(R42, R44, R295). -/
def bufferRead {α : Type} (s : State) (j : Journal) (n : Nat) (data empty : α) : Option (State × α) :=
  let what := ReadFor.buffer j.order
  if n = 0 then some (s, empty)
  else if j.begun && s.dev.readBusy what && s.dev.readOut what then some (s.endReads what, data) else none

/-- The first command of a row with a buffer of `n` bytes at `addr` in its port's host memory: Elytra's read of it starts, without a PASID (R42, R295). -/
def StartsRead (c : Instr) (s : State) (j : Journal) (addr n : Nat) : Prop :=
  j.begun = false → n ≠ 0 → Answers c s ((s.hold j).startRead j.port none (.buffer j.order) [(addr, n)])

end Sys2Proof.Claims

section
open Sys2Proof Sys2Proof.Machine Sys2Proof.Claims

/-- Commands that only the manager may send (R299). -/
def Obligations.ManagerCommandRefusals : Prop :=
  (∀ b, ManagerOnly (fun o => .plyCreate o b) 0x20) ∧ ManagerOnly .plyShare 0x21 ∧ ManagerOnly .plyQuiesce 0x22 ∧ ManagerOnly .plyResume 0x23 ∧
  ManagerOnly .plyReset 0x24 ∧ ManagerOnly .plyDestroy 0x25 ∧ ManagerOnly .plyQuery 0x26 ∧ (∀ r m a, ManagerOnly (fun o => .migSession o r m a) 0x28) ∧
  (∀ salt, ManagerOnly (fun o => .migExport o salt) 0x2A) ∧ (∀ r, ManagerOnly (fun o => .migImport o r) 0x2B) ∧ (∀ c, ManagerOnly (fun o => .containerStage o c) 0x03) ∧ ManagerOnly .svnCommit 0x04 ∧
  ManagerOnly .wmRaise 0x08 ∧ ManagerOnly .memGive 0x09 ∧ ManagerOnly .memTake 0x0A ∧ ManagerOnly .lend 0x0B ∧ ManagerOnly .unlend 0x0C ∧
  ManagerOnly .memPasr 0x40 ∧ ManagerOnly .pwrIsland 0x51 ∧ ManagerOnly .pwrOppoint 0x52 ∧ ManagerOnly .pwrReset 0x53 ∧ ManagerOnly .ccnFreeze 0x61 ∧
  ManagerOnly .ccnThaw 0x62 ∧ ManagerOnly .whlLeave 0x71 ∧ ManagerOnly .whlChanClose 0x73

/-- PLY_CREATE of an absent ply whose shares and binding the policy allows and admission accepts (R54-R56, R106, R107, R110, R111, R295, R482): Elytra
reads the share block; then the ply is ACTIVE or QUIESCED, blank but for its class and binding, with a fresh key; its shares are pending, and until the
next epoch boundary its CAP is 0 in every kind; no credit moves, and a class A ply that is ACTIVE ends deep nap (R274). -/
def Sys2Proof.Claims.PlyCreateResult : Prop :=
  ∀ (o pasid flags : Nat) (bs : List Byte) (s u : State) (j : Journal) (p : Fin 64) (q : Fin 4) (cls : PlyClass),
    let shares := (List.range 8).map (shareBlock (fitBytes 64 bs))
    let kinds := (shares.take 6).zipIdx.filterMap fun x => (shareKind x.2 q).map fun kd => (kd, x.1)
    let k' := kinds.foldl (fun k x => k.enter x.1 p x.2.1 x.2.2 (cls == .a)) u.skein
    let y : Ply := { Ply.absent with cls := cls, state := if bit flags 0 then .quiesced else .active, cause := if bit flags 0 then .manager else .none,
                                     port := q, pasid := pasid }
    let u' := { u with skein := k' }.updPly p fun _ => y
    Managed s o 0x20 j → j.ply 0 = some p → fin? 4 (j.arg 1 1) = some q → j.arg 2 1 = flags → flags < 2 → j.arg 4 4 = pasid → 1 ≤ pasid →
    pasid ≤ 0xFFFFF → StartsRead (.plyCreate o (some bs)) s j (j.arg 8 8) 64 ∧
    (bufferRead s j 64 bs [] = some (u, bs) →
    (∀ x ∈ shares.zipIdx, shareArgOk x.2 x.1.1 x.1.2 = true) → (s.dev.entry p).cls = some cls → (s.dev.entry p).ports.contains q.val = true →
    (∀ x ∈ (shares.take 6).zipIdx, x.1.1 ≤ atD (s.dev.entry p).guarMax x.2 0 ∧ x.1.2 ≤ atD (s.dev.entry p).capMax x.2 0) →
    (s.ply p).state = .absent → (s.port q).pasidEn = true → (s.port q).down = false → s.dev.pairInUse p q pasid = false →
    (∀ x ∈ kinds, k'.fits x.1 = true) → (cls = .a → u'.creditCapsOk = true ∧ u'.dev.countCapsOk = true) →
    ∃ t : State, Answers (.plyCreate o (some bs)) s (t.answer j mbOk []) ∧ t.ply p = y ∧ (∀ o, o ≠ p → t.ply o = s.ply o) ∧
      t.dev.ely.keySlot[p.val]? = some s.dev.ely.nextKey ∧ t.dev.ely.nextKey = s.dev.ely.nextKey + 1 ∧ t.dram = s.dram ∧
      (cls = .a → y.state = .active → t.dev.mc.deep = false) ∧
      (∀ kd, (t.skein.acct kd).free = (u.skein.acct kd).free ∧ (t.skein.acct kd).hold = (u.skein.acct kd).hold ∧
        (t.skein.acct kd).guar = (u.skein.acct kd).guar ∧ at' (t.skein.acct kd).cap (plyHolder p) = 0) ∧
      ∀ k kd, k < 6 → shareKind k q = some kd → at' (t.skein.acct kd).pguar (plyHolder p) = (shareBlock (fitBytes 64 bs) k).1 ∧
        at' (t.skein.acct kd).pcap (plyHolder p) = (shareBlock (fitBytes 64 bs) k).2)

/-- PLY_SHARE, PLY_QUIESCE, PLY_RESUME and PLY_QUERY of an existing ply, and the end of its drain (R110, R111, R113, R114, R116, R119, R298): a share goes to
the pending table, a rise judged against what was pending before this epoch's PLY_SHARE; quiescing an ACTIVE ply starts its drain and any other state is left; resuming a QUIESCED ply that keeps its binding makes it ACTIVE
and reads its rings, a class A ply ending deep nap (R274); a drained ply with zero holdings is QUIESCED. -/
def Sys2Proof.Claims.PlyCommandResults : Prop :=
  ∀ (o : Nat) (s : State) (j : Journal) (p : Fin 64),
    (ManagedPly s o 0x21 j p → ∀ (k g c : Nat) (kd : Kind), j.arg 1 1 = k → j.arg 4 4 = g → j.arg 8 4 = c → shareKind k (s.ply p).port = some kd →
      let base := (s.ply p).basePending k (s.skein.acct kd) p
      shareArgOk k g c = true → (base.1 < g → g ≤ atD (s.dev.entry p).guarMax k 0) → (base.2 < c → c ≤ atD (s.dev.entry p).capMax k 0) →
      let u := s.onSkein fun q => q.setAcct kd ((s.skein.acct kd).setPending (plyHolder p) g c)
      (base.1 < g → u.skein.fits kd = true ∧ ((s.ply p).cls = .a → u.creditCapsOk = true)) →
      Answers (.plyShare o) s ((u.updPly p fun y =>
        { y with shareDue := true, shareBase := (k, base) :: y.shareBase.filter (·.1 != k) }).answer j mbOk [])) ∧
    (ManagedPly s o 0x22 j p →
      ((s.ply p).state ≠ .active → Answers (.plyQuiesce o) s (s.answer j mbOk [])) ∧
      ((s.ply p).state = .active → Answers (.plyQuiesce o) s
        (((s.updPly p fun y => { y with state := .draining, cause := y.cause.max .manager }).startDrain p 2).answer j mbOk []))) ∧
    (ManagedPly s o 0x23 j p →
      ((s.ply p).state ≠ .quiesced → Answers (.plyResume o) s (s.answer j mbBadState [])) ∧
      ((s.ply p).state = .quiesced → (s.ply p).cause = .orphan → Answers (.plyResume o) s (s.answer j mbUnbound [])) ∧
      ((s.ply p).state = .quiesced → (s.ply p).cause ≠ .orphan → Answers (.plyResume o) s
        ((((s.updPly p fun y => { y with state := .active, cause := .none, hostDead := false }).wakeFor p).readRings p).answer j mbOk []))) ∧
    (ManagedPly s o 0x26 j p → let y := s.ply p
      Answers (.plyQuery o) s (s.answer j mbOk (bytesOf 1 y.state.code ++ bytesOf 1 (if y.state = .quiesced then y.cause.code else 0) ++
        bytesOf 1 y.cls.code ++ bytesOf 1 (bit1 (at' s.skein.resvLive p)) ++ bytesOf 1 y.port.val ++ [0, 0, 0] ++ bytesOf 4 y.pasid ++
        bytesOf 1 (s.skein.heldMask p)))) ∧
    (Runs s → (s.ply p).state = .draining ∨ (s.ply p).state = .faulted ∨ (s.ply p).state = .orphaned → s.dev.ely.state = .running →
      (s.skein.plyZero p = false → Answers (.plyQuiesced p) s s) ∧
      (s.skein.plyZero p = true →
        let lost := ((s.ply p).cq.waiters.filter fun w => match w with | .entry _ _ => true | _ => false).length
        Answers (.plyQuiesced p) s ((s.updPly p fun y => { y with
          state := .quiesced, evtLost := min 0xFFFFFFFF (y.evtLost + lost),
          cq := { y.cq with waiters := y.cq.waiters.filter fun w => !(match w with | .entry _ _ => true | _ => false) } }).postBoth p 0x0101 0 [])))

/-- PLY_RESET and PLY_DESTROY of a QUIESCED ply (R110, R123, R124): reset leaves what creation leaves, with a fresh key, keeping class, logging and
migration, on the same or another port; destruction makes the ply ABSENT, its key 0, its shares 0, and gives its own granules to Elytra's scrubbing. -/
def Sys2Proof.Claims.PlyEndResults : Prop :=
  ∀ (o : Nat) (s : State) (j : Journal) (p : Fin 64),
    (ManagedPly s o 0x24 j p → (s.ply p).state = .quiesced →
      (j.arg 1 1 = 0 → (s.ply p).cause ≠ .orphan →
        let u := s.updPly p fun y => y.refreshed (s.ply p).port (s.ply p).pasid
        Answers (.plyReset o) s (((u.onDev fun d => { d.resetSensing p with ely := d.ely.freshKey p.val }).wakeFor p).answer j mbOk [])) ∧
      ∀ q pasid, j.arg 1 1 = 1 → fin? 4 (j.arg 2 1) = some q → j.arg 4 4 = pasid → 1 ≤ pasid → pasid ≤ 0xFFFFF →
        (s.dev.entry p).ports.contains q.val = true → (s.port q).pasidEn = true → (s.port q).down = false → s.dev.pairInUse p q pasid = false →
        let old : Kind := .htag (s.ply p).port
        let u := if q = (s.ply p).port then s else s.onSkein fun k => (k.enter (.htag q) p (at' (k.acct old).pguar (plyHolder p))
          (at' (k.acct old).pcap (plyHolder p)) ((s.ply p).cls == .a)).enter old p 0 0 false
        (q ≠ (s.ply p).port → u.skein.fits (.htag q) = true) →
        Answers (.plyReset o) s ((((u.updPly p fun y => y.refreshed q pasid).onDev fun d =>
          { d.resetSensing p with ely := d.ely.freshKey p.val }).wakeFor p).answer j mbOk [])) ∧
    (ManagedPly s o 0x25 j p → (s.ply p).state = .quiesced → (s.dev.ely.lend.any fun x => x.2.owner == p.val) = false →
      ∃ t : State, Answers (.plyDestroy o) s (t.answer j mbOk []) ∧ t.ply p = Ply.absent ∧ t.dev.ely.keySlot[p.val]? = some 0 ∧ t.dram = s.dram ∧
        (∀ o, o ≠ p → t.ply o = s.ply o) ∧ (t.dev.ely.lend.all fun x => x.2.borrowers.all fun b => b.ply != p.val) = true ∧
        ∀ kd, at' (t.skein.acct kd).pguar (plyHolder p) = 0 ∧ at' (t.skein.acct kd).pcap (plyHolder p) = 0 ∧ (t.skein.acct kd).free = (s.skein.acct kd).free ∧
          (t.skein.acct kd).hold = (s.skein.acct kd).hold)

/-- Migration (R125-R130): the dirty log starts, swaps and stops; a relayed session step reads the peer's message and writes Elytra's; an export writes
the records of its round as far as the buffer goes and waits where MEM credits are refused; an import takes records up to the first bad one. What no rule
names there (log entry 118) is the model's choice. -/
def Sys2Proof.Claims.MigrationResults : Prop :=
  ∀ (o : Nat) (s u : State) (j : Journal) (p : Fin 64),
    (∀ bs : List Byte, ManagedPly s o 0x29 j p → j.arg 1 1 = 0 → 1 ≤ j.arg 2 1 → j.arg 2 1 ≤ 4 →
      StartsRead (.migLogStart o (some bs)) s j (j.arg 8 8) (32 * j.arg 2 1) ∧
      let ws := (List.range (j.arg 2 1)).map (windowAt (fitBytes (32 * j.arg 2 1) bs))
      (bufferRead s j (32 * j.arg 2 1) bs [] = some (u, bs) → (∀ w ∈ ws, w.ok = true) →
        Answers (.migLogStart o (some bs)) s ((u.updPly p fun y => { y with log := { DirtyLog.off with on := true, windows := ws } }).answer j mbOk []))) ∧
    (ManagedPly s o 0x29 j p → (s.ply p).log.on = true →
      (j.arg 1 1 = 1 → Answers (.migLogSwap o) s (((s.flushLog p j.port).updPly p fun y =>
        { y with log := { y.log with useB := !y.log.useB, outside := false, lines := [] } }).answer j mbOk (bytesOf 1 (bit1 (s.ply p).log.outside)))) ∧
      (j.arg 1 1 = 2 → Answers (.migLogStop o) s (((s.flushLog p j.port).updPly p fun y => { y with log := DirtyLog.off }).answer j mbOk []))) ∧
    (∀ (input msg reply : List Byte) (measures : Option (List (List Byte))) (agreed : Bool), ManagedPly s o 0x28 j p → j.arg 1 1 ≤ 1 →
      StartsRead (.migSession o ⟨some input, reply⟩ measures agreed) s j (j.arg 8 8) (j.arg 16 4) ∧
      (bufferRead s j (j.arg 16 4) input [] = some (u, msg) → reply.length ≤ j.arg 28 4 →
        let role := j.arg 1 1
        let m := (u.ply p).mig.session role (j.arg 16 4) msg
        let listed := match measures, s.dev.policy with
          | some ms, some pol => pol.migOk.contains ms
          | _, _ => false
        (role = 0 → (measures.isSome = true → listed = true) ∧ (agreed = true → m.attested || listed)) →
        let v := u.onDev fun d => { d.postWrite j.port (j.arg 20 8) reply with
          ely := if agreed then { d.ely with nextKey := d.ely.nextKey + 1 } else d.ely }
        Answers (.migSession o ⟨some input, reply⟩ measures agreed) s ((v.updPly p fun y => { y with mig :=
          { m with agreed := m.agreed || agreed, attested := m.attested || listed, key := if agreed then s.dev.ely.nextKey else m.key } }).answer j mbOk
            (bytesOf 4 reply.length ++ bytesOf 1 (bit1 agreed))))) ∧
    (∀ salt : Nat, ManagedPly s o 0x2A j p → (s.ply p).mig.agreed = true → (s.ply p).mig.role = 1 →
      let done := if j.begun then (s.ply p).mig.done else 0
      let r := (if j.begun then s else s.startRound p (j.arg 2 2)).exportGranules p j.port salt (j.arg 2 2) (j.arg 8 8) (j.arg 16 4 / 65584 - done) done
      let m := (r.1.ply p).mig
      let body := (r.1.plyRecord p (m.seq + 1)).body
      (r.2.2 = true → Answers (.migExport o salt) s ((r.1.updPly p fun y => { y with mig := { y.mig with done := r.2.1 } }).hold j)) ∧
      (r.2.2 = false →
        (m.todo ≠ [] ∨ m.stateDue = false ∨ j.arg 16 4 < r.2.1 * 65584 + 48 + body.length →
          Answers (.migExport o salt) s (r.1.answer j mbOk (bytesOf 4 r.2.1 ++ bytesOf 4 m.todo.length))) ∧
        (m.todo = [] → m.stateDue = true → r.2.1 * 65584 + 48 + body.length ≤ j.arg 16 4 →
          let v := r.1.onDev fun d => d.postWrite j.port (j.arg 8 8 + r.2.1 * 65584) (migRecord m.key salt 2 (j.arg 2 2) (m.seq + 1) 0 body)
          Answers (.migExport o salt) s ((v.updPly p fun y => { y with mig := { y.mig with seq := m.seq + 1, stateDue := false } }).answer j mbOk
            (bytesOf 4 (r.2.1 + 1) ++ bytesOf 4 0))))) ∧
    (∀ records rs : List MigRecord, ManagedPly s o 0x2B j p → (s.ply p).state = .quiesced → (s.ply p).mig.agreed = true → (s.ply p).mig.role = 2 →
      (s.ply p).mig.done = 0 → StartsRead (.migImport o (some records)) s j (j.arg 8 8) (j.arg 16 4) ∧
      (bufferRead s j (j.arg 16 4) records [] = some (u, rs) →
        let r := u.importAll p rs 0
        Answers (.migImport o (some records)) s (if r.2.2.2 then r.1.updPly p fun y => { y with mig := { y.mig with done := r.2.1 + 1 } }
          else (r.1.updPly p fun y => { y with mig := { y.mig with done := 0 } }).answer j r.2.2.1 (bytesOf 4 r.2.1)))) ∧
    (∀ records : List MigRecord, ManagedPly s o 0x2B j p → (s.ply p).state = .quiesced → (s.ply p).mig.agreed = true → (s.ply p).mig.role = 2 →
      ∀ n, j.begun = true → (s.ply p).mig.done = n + 1 →
        let r := s.importAll p (records.drop n) n
        Answers (.migImport o (some records)) s (if r.2.2.2 then r.1.updPly p fun y => { y with mig := { y.mig with done := r.2.1 + 1 } }
          else (r.1.updPly p fun y => { y with mig := { y.mig with done := 0 } }).answer j r.2.2.1 (bytesOf 4 r.2.1)))

end
section
open Sys2Proof Sys2Proof.Machine Sys2Proof.Claims

/-- Host reads (R44, R46, R66, R121, R326): at its final completion or its timeout a request ends and its HTAG credit returns, the last request of a read
whose data is wanted with the row that brings the data; a refused read is taken again; a refused translation ends the read and faults the ply; one HAP credit returns each millisecond, oldest take first. -/
def Sys2Proof.Claims.HostReadResults : Prop :=
  ∀ (s : State) (i : Nat), Runs s →
    (∀ x, s.dev.reads[i]? = some x →
      let more := (s.dev.reads.erase x).any (·.what == x.what) || s.dev.readWaits.any (·.what == x.what)
      (x.what = .other ∨ more = true → Answers (.hostReadCompletion i) s (s.endRead x)) ∧
      (x.what ≠ .other → more = false → Answers (.hostReadCompletion i) s s)) ∧
    (∀ x, s.dev.reads[i]? = some x → Answers (.htagCompletionTimeout i none) s ((s.endRead x).afterTimeout x)) ∧
    (∀ p, 0 < (s.ply p).pollTags → Answers (.htagCompletionTimeout i (some p)) s (s.endPoll p)) ∧
    (∀ x, s.dev.readWaits[i]? = some x →
      Answers (.creditWaitRetry i) s ((s.onDev fun d => { d with readWaits := d.readWaits.eraseIdx i }).issueRead x)) ∧
    (∀ (p : Fin 64) (a : Nat) (w : Bool) (eng : Engine), Answers (.iommuRefusal p a ⟨w, eng⟩ none) s (s.faultPly p a w eng true) ∧
      ∀ x, s.dev.reads[i]? = some x → x.ply = some p →
        Answers (.iommuRefusal p a ⟨w, eng⟩ (some i)) s ((s.endRead x).faultPly p a w x.what.engine true)) ∧
    Answers .hapRecharge s (s.onSkein Skein.rechargeHap)

/-- A port's link (R322, R323, R334, R335): PERST_N sets its level, and its fall is a link-down; a present, powered port that is not held in PERST_N
trains to a width its lanes allow; L1 is entered and left; Hot Reset, FLR and DL_Down are link-downs, FLR keeping the link. A link-down already under
way takes no second cause. -/
def Sys2Proof.Claims.PortLinkResults : Prop :=
  ∀ (q : Fin 4) (s : State),
    Answers (.perstNRelease q) s (s.updPort q fun pt => { pt with perst := false }) ∧
    ((s.port q).perst = true → Answers (.perstNAssert q) s s) ∧
    ((s.port q).perst = false →
      let u := s.updPort q fun pt => { pt with perst := true }
      (¬ Runs s → Answers (.perstNAssert q) s u) ∧
      (Runs s → s.dev.portPresent q = true → (s.port q).down = false → Answers (.perstNAssert q) s (u.linkDown q .perst false)) ∧
      (Runs s → s.dev.portPresent q = false ∨ (s.port q).down = true → Answers (.perstNAssert q) s u)) ∧
    (Runs s →
      (∀ speed width : Nat, s.dev.portPresent q = true → s.dev.ely.state = .rom ∨ at' s.dev.power.islands (hostIsland q) = .good → (s.port q).perst = false →
        (s.port q).linkUp = false → 1 ≤ speed → speed ≤ 5 → width ∈ [1, 2, 4, 8, 16] → width ≤ strapLanes s.dev.power.strap q →
        Answers (.linkUp q speed width) s
          ((s.updPort q fun pt => { pt with linkUp := true, speed := speed, width := width, inL1 := false, down := false }).releaseWake q)) ∧
      ((s.port q).linkUp = true →
        Answers (.linkL1Change q true) s (s.updPort q fun pt => { pt with inL1 := true }) ∧
        Answers (.linkL1Change q false) s ((s.updPort q fun pt => { pt with inL1 := false }).releaseWake q)) ∧
      (s.dev.portPresent q = true → (s.port q).linkUp = true → (s.port q).down = false →
        Answers (.hotReset q) s (s.linkDown q .hotReset false) ∧ Answers (.dlDownDetect q) s (s.linkDown q .dlDown false) ∧
        ∀ pending, Answers (.flr q pending) s (s.linkDown q .flr (!pending))) ∧
      (s.dev.portPresent q = false ∨ (s.port q).linkUp = false ∨ (s.port q).down = true →
        Answers (.hotReset q) s s ∧ Answers (.dlDownDetect q) s s ∧ ∀ pending, Answers (.flr q pending) s s))

/-- What a recognised link-down leaves of its port (R335): its registers, mailbox, caches and requests are as after reset; LINK_DOWNS counts it; its
mailbox commands in progress answer no more. -/
def Sys2Proof.Claims.LinkDownClearsPort : Prop :=
  ∀ (q : Fin 4) (c : DownCause) (s : State), s.dev.manager = some q → (∀ p : Fin 64, (s.ply p).port = q → (s.ply p).state = .absent) →
    (s.dev.reads.filter fun r => r.port == q) = [] →
    let t := s.linkDown q c false
    (t.port q).linkDowns = min 0xFFFF ((s.port q).linkDowns + 1) ∧ (t.port q).down = true ∧ (t.port q).linkUp = false ∧ (t.port q).atc = [] ∧
      (t.port q).held = [] ∧ (t.port q).cfg = (Port.blank (s.port q).perst).cfg ∧ (t.port q).regs = (Port.blank (s.port q).perst).regs ∧
      q ∉ t.dev.ely.inbox ∧ (∀ j ∈ t.dev.ely.journal, j.port = q → j.mute = true) ∧ t.dram = s.dram

/-- Configuration, power state and latency (R327-R329, R331, R333, R334): configuration requests are answered with data once the firmware has started, with
Request Retry Status before; LTR messages follow the reported value; ASPM L1 is entered unless a class A ply keeps the port awake; a wake that is due
goes out on WAKE_N, as PM_PME or not at all; an invalidation removes its entries and is answered when its requests are over. -/
def Sys2Proof.Claims.PortServiceResults : Prop :=
  ∀ (q : Fin 4) (s : State), Runs s →
    ((s.port q).linkUp = true → s.dev.portPresent q = true →
      (s.dev.cfgReady q = false → ∀ off w, Answers (.configRequest q off w) s (s.emit (.cfgReply q none))) ∧
      (s.dev.cfgReady q = true →
        (∀ off, Answers (.configRequest q off none) s (s.emit (.cfgReply q (some (s.dev.cfgRead q off))))) ∧
        (∀ off v, Answers (.configRequest q off (some v)) s ((s.cfgWrite q off v).emit (.cfgReply q (some 0)))) ∧
        ∀ d3 bm, Answers (.powerStateChange q d3 bm) s ((s.cfgWrite q 0x44 (Word.put ((s.port q).cfgWord 0x44) 1 0 (if d3 then 3 else 0))).cfgWrite q 0x04
          (Word.put ((s.port q).cfgWord 0x04) 2 2 (bit1 bm))))) ∧
    (let v := if s.dev.classAOn q then 2 else (s.port q).reg 0x8
     (v = (s.port q).ltrLast → Answers (.ltrMessage q) s s) ∧
     ((s.port q).linkUp = true → v ≠ (s.port q).ltrLast →
       Answers (.ltrMessage q) s ((s.updPort q fun pt => { pt with ltrLast := v }).emit (.pcieMsg q "LTR" v)))) ∧
    (s.dev.classAOn q = true → Answers (.aspmIdleTimeout q) s s) ∧
    (s.dev.classAOn q = false → (s.port q).linkUp = true → (s.port q).inL1 = false → (s.port q).inD0 = true → (s.port q).aspmL1 = true →
      Answers (.aspmIdleTimeout q) s ((s.updPort q fun pt => { pt with inL1 := true }).emit (.pcieMsg q "ASPM L1" 0))) ∧
    (s.dev.ccn.wakeDue = true → s.dev.slpclk = true →
      let u := s.onDev fun d => { d with ccn := { d.ccn with wakeDue := false } }
      let pt := s.port s.dev.power.watchPort
      Answers .wakeNAssert s (if !pt.linkUp then u.onDev fun d => { d with power := { d.power with wakeN := true } }
        else if !pt.inD0 && pt.pmeEn then u.emit (.pcieMsg s.dev.power.watchPort "PM_PME" 0) else u)) ∧
    (∀ pasid first pages : Nat, (s.port q).linkUp = true → (s.port q).atsEn = true →
      ∃ (t : State) (v : Inval), Answers (.atsInvalidate q pasid first pages) s t ∧ t.skein = s.skein ∧ t.dram = s.dram ∧
        (t.port q).atc = (s.port q).atc.filter (fun e => !(e.pasid == pasid && decide (first ≤ e.page) && decide (e.page < first + pages))) ∧
        (t.port q).inval = (s.port q).inval ++ [v] ∧ v.pasid = pasid ∧
        ∀ x, x ∈ v.reads ↔ x ∈ s.dev.reads ∧ x.port = q ∧ (match x.ply with | some p => (s.ply p).pasid | none => 0) = pasid ∧
          ∃ b, x.addr ≤ b ∧ b < x.addr + x.len ∧ first ≤ b / 4096 ∧ b / 4096 < first + pages) ∧
    (∀ v, (s.port q).inval.find? (fun v => v.reads.isEmpty && v.polls.isEmpty) = some v →
      Answers (.atsInvalidateComplete q) s
        ((s.updPort q fun pt => { pt with inval := pt.inval.erase v }).emit (.pcieMsg q "Invalidate Completion" v.pasid)))

/-- Time correlation (R332): an exchange starts each PERIOD_MS with AUTO set, or on a write of NOW, and records its t1; its response at t4 gives the pair
(t4, t2 + d + ((t4 - t1) - d) / 2), rounded down, under two increments of SEQ; one that is never answered, or that finds PTM disabled, changes neither. -/
def Obligations.TimeCorrelationResults : Prop :=
  ∀ (q : Fin 4) (s : State), Runs s → (s.port q).linkUp = true →
    let store := fun v : Word => s.updPort q fun pt => { pt with regs := Map.ins pt.regs 0x10 (word (portRegClamp 0x10 (v &&& 0x800000FF).toNat)) }
    ((s.port q).ptmEn = true →
      let start := fun u : State => (u.updPort q fun pt => { pt with ptmT1 := some s.dev.devtime }).emit (.pcieMsg q "PTM Request" 0)
      (bit ((s.port q).reg 0x10) 31 = true → Answers (.ptmTimer q) s (start s)) ∧
      (bit ((s.port q).reg 0x10) 31 = false → Answers (.ptmTimer q) s s) ∧
      (∀ v : Word, Answers (.ptmNow q v) s (if bit v.toNat 30 then start (store v) else store v)) ∧
      ∀ t1 t2 d : Nat, (s.port q).ptmT1 = some t1 →
        Answers (.ptmResponse q t2 d) s (s.updPort q fun pt =>
          { pt with ptmT1 := none, ptmSeq := pt.ptmSeq + 2, ptmDev := BitVec.ofNat 64 s.dev.devtime,
                    ptmHost := BitVec.ofInt 64 ((t2 : Int) + d + Int.fdiv ((s.dev.devtime : Int) - t1 - d) 2) })) ∧
    ((s.port q).ptmEn = false →
      Answers (.ptmTimer q) s s ∧ (∀ v : Word, Answers (.ptmNow q v) s (store v)) ∧
      ∀ t2 d : Nat, Answers (.ptmResponse q t2 d) s (s.updPort q fun pt => { pt with ptmT1 := none })) ∧
    ((s.port q).ptmT1 = none → ∀ t2 d : Nat, Answers (.ptmResponse q t2 d) s s)

/-- Register accesses (R18, R19, R38, R52, R105): a write goes to its port's block, to the device set-up region from the manager's port only, to the mailbox or to
an open ply page; an address off the word grid or beyond the map has no effect. SKN_AUDIT_RELEASE from the manager's port frees the snapshot; a read of
AUDIT_EPOCH's low word latches its high word until that is read; a write of an output's registers has the samples up to now made first (R30); an absent
port holds no mailbox (R322); reads of the event log take its oldest entry or clear LOST. -/
def Sys2Proof.Claims.RegisterAccessResults : Prop :=
  ∀ (q : Fin 4) (s : State) (off : Nat) (v : Word), Runs s →
    (off % 4 ≠ 0 → ∀ b, Answers (.registerWrite q b off v) s s) ∧
    (off % 4 = 0 →
      (∀ p : Fin 64, off / 4096 = p.val → s.dev.pageOpen q p = true →
        Answers (.registerWrite q true off v) s (s.updPly p fun y => y.writePage (off % 4096) v.toNat)) ∧
      (∀ p : Fin 64, off / 4096 = p.val → s.dev.pageOpen q p = false → Answers (.registerWrite q true off v) s s) ∧
      (64 * 4096 ≤ off → Answers (.registerWrite q true off v) s s) ∧
      (off < 0x10000 → Answers (.registerWrite q false off v) s (s.onDev fun d => d.writePort q off v.toNat)) ∧
      (0x10000 ≤ off → off < 0x20000 → s.dev.isManager q = true → off < 0x18100 ∨ 0x18300 ≤ off →
        Answers (.registerWrite q false off v) s (s.onDev fun d => d.writeDevice off v.toNat)) ∧
      (0x18100 ≤ off → off < 0x18300 → s.dev.isManager q = true →
        Answers (.registerWrite q false off v) s (s.audioCatchUp.onDev fun d => d.writeDevice off v.toNat)) ∧
      (0x10000 ≤ off → off < 0x20000 → s.dev.isManager q = false → Answers (.registerWrite q false off v) s s) ∧
      (0x20000 ≤ off → off < 0x20418 → Answers (.registerWrite q false off v) s
        (if s.dev.portPresent q then s.onDev fun d => d.writeMbx q off v.toNat else s)) ∧
      (0x20418 ≤ off → Answers (.registerWrite q false off v) s s)) ∧
    (s.dev.isManager q = true → Answers (.sknAuditRelease q) s (s.onSkein fun k => { k with held := false })) ∧
    (s.dev.isManager q = false → Answers (.sknAuditRelease q) s s) ∧
    Answers (.sknAuditEpochLoRead ⟨q, false⟩) s
      ((s.updPort q fun pt => { pt with latch := Map.ins pt.latch 0x4008 (word (s.skein.auditEpoch / 2 ^ 32)) }).emit
        (.regValue q 0x4004 (word s.skein.auditEpoch))) ∧
    Answers (.sknAuditEpochLoRead ⟨q, true⟩) s
      ((s.updPort q fun pt => { pt with latch := Map.del pt.latch 0x4008 }).emit
        (.regValue q 0x4008 (word (s.readLatched q 0x4008 (s.skein.auditEpoch / 2 ^ 32))))) ∧
    Answers (.portEvtData7Read q) s ((s.updPort q fun pt => { pt with evtLog := pt.evtLog.drop 1 }).emit (.regValue q 0x302C (word ((s.port q).evtWord 7)))) ∧
    Answers (.portEvtStatusRead q) s ((s.updPort q fun pt => { pt with evtLost := 0 }).emit (.regValue q 0x3004 (word (s.port q).evtStatus)))

/-- Mailboxes (R296, R297, R300, R301, R316, R317): requests up to the new index are offered, those more than 8 ahead discarded and counted, on a present port (R322); while Elytra runs, a
request whose entry holds its GATE instruction joins the journal, an unmapped code is UNKNOWN_COMMAND, and an entry without the instruction restarts Elytra;
responses go out in order while fewer than 8 are unread; GATE in sequence does nothing. -/
def Sys2Proof.Claims.MailboxResults : Prop :=
  ∀ (q : Fin 4) (s : State), Runs s →
    (∀ v : Word,
      let m := (s.port q).mbx
      let fresh := (List.range (idxDiff (v.toNat % 65536) m.reqProd)).map fun i => (m.reqProd + i) % 65536
      let bad := fresh.filter fun i => !decide (idxDiff i m.reqCons < 8)
      (s.dev.portPresent q = false → Answers (.mbxReqProdWrite q v) s s ∧ Answers (.mbxRspConsWrite q v) s s) ∧
      (s.dev.portPresent q = true → Answers (.mbxReqProdWrite q v) s ((s.updPort q fun pt => { pt with mbx := { pt.mbx with
          reqProd := v.toNat % 65536, skipped := pt.mbx.skipped ++ bad, dropped := min 0xFFFF (pt.mbx.dropped + bad.length) } }).onDev fun d =>
        { d with ely := { d.ely with inbox := d.ely.inbox ++ (fresh.filter fun i => decide (idxDiff i m.reqCons < 8)).map fun _ => q } }) ∧
      Answers (.mbxRspConsWrite q v) s (s.updPort q fun pt => { pt with mbx := { pt.mbx with rspCons := v.toNat % 65536 } }))) ∧
    (∀ (word' : Word) (rest : List (Fin 4)), s.dev.ely.inbox = q :: rest →
      let m := (s.port q).mbx
      let j : Journal := { order := s.dev.ely.nextOrder, port := q, slot := m.slot m.reqCons, begun := false, mark := 0, mute := false }
      let u := (s.onDev fun d => { d with ely := { d.ely with inbox := rest, nextOrder := s.dev.ely.nextOrder + 1 } }).updPort q fun pt =>
        { pt with mbx := pt.mbx.advance }
      let tells := fun (u : State) st => u.respond q { order := j.order, cmd := j.code, irq := j.irq, tag := j.tag, status := st, result := [] }
      let takes := fun u : State => u.onDev fun d => { d with ely := { d.ely with journal := d.ely.journal ++ [j] } }
      (s.dev.ely.state = .halted → Answers (.mbxRequestTake word') s (tells u mbHalted)) ∧
      (s.dev.ely.state = .restarting → Answers (.mbxRequestTake word') s (tells u mbBusy)) ∧
      (s.dev.ely.state = .running →
        (Map.find s.dev.ely.cmdMap j.code = none → Answers (.mbxRequestTake word') s (tells u mbUnknown)) ∧
        ∀ e, Map.find s.dev.ely.cmdMap j.code = some e →
          (Map.get s.dev.ely.entries 1 e % 4 = 0 ∧ word' = gateWord e → Answers (.mbxRequestTake word') s (takes u)) ∧
          (Map.get s.dev.ely.entries 1 e % 4 ≠ 0 ∨ word' ≠ gateWord e → Answers (.mbxRequestTake word') s (tells (u.restartElytra 0x3) mbBusy))) ∧
      (s.dev.ely.state = .rom →
        (s.dev.ely.romMode = true → j.code = 0x01 ∨ j.code = 0x02 → Answers (.mbxRequestTake word') s (takes u)) ∧
        (s.dev.ely.romMode = false ∨ (j.code ≠ 0x01 ∧ j.code ≠ 0x02) → Answers (.mbxRequestTake word') s (tells u mbBusy)))) ∧
    (∀ (r : MbxResponse) (rest : List MbxResponse), (s.port q).mbx.ready = r :: rest → idxDiff (s.port q).mbx.rspProd (s.port q).mbx.rspCons < 8 →
      let m := (s.port q).mbx
      let slots := (List.range 16).foldl (fun t k => Map.ins t (16 * (m.rspProd % 8) + k) (word (le32 r.bytes (4 * k)))) m.rsp
      let u := s.updPort q fun pt => { pt with mbx := { pt.mbx with rsp := slots, rspProd := (m.rspProd + 1) % 65536, ready := rest } }
      let ctl := (Map.get (s.port q).regs 0 0x20400).toNat
      ((bit ctl 31 = false ∨ r.irq = false) → Answers (.mbxResponse q) s u) ∧
      (bit ctl 31 = true → r.irq = true → Answers (.mbxResponse q) s (u.onDev fun d => d.sendMsix q (fld ctl 8 0)))) ∧
    Answers .gate s s

/-- The epoch boundary (R27, R29, R31, R50, R352, R353): the audio block in hand ends, and at the next multiple of 500,000 ns the audit, the swaps and the
blocks of the new epoch happen; adopting ring time moves DEVTIME forward to it on a boundary and never back, and intervals in progress keep their
length. -/
def Obligations.EpochCommandResults : Prop :=
  ∀ (io : AudioIn) (s : State), Runs s →
    let edge := (s.dev.devtime / 500000 + 1) * 500000
    let boundary := fun (s : State) t =>
      (((s.endBlock.onDev fun d => { d with devtime := t, lastEpoch := t }).auditEpoch (t / 500000)).swapEpoch).swapRest io
    Answers (.epochBoundary io) s (boundary s edge) ∧
    (s.dev.whorl.adopt = none → Answers (.whlAdopt io) s s) ∧
    ∀ x, s.dev.whorl.adopt = some x →
      let u := s.updWhorl fun w => { w with adopt := none, timed := true }
      (x ≤ s.dev.devtime → Answers (.whlAdopt io) s u) ∧
      (s.dev.devtime < x → Answers (.whlAdopt io) s
        ((boundary (u.onDev fun d => d.keepIntervals (x - edge)) x).whorlRepair 0xFF 0x6 s.dev.whorl.ringId 0))

end
namespace Sys2Proof.Claims
open Sys2Proof Sys2Proof.Machine

/-- Elytra changed, and nothing else. -/
def onEly (s : State) (f : Ely → Ely) : State := s.onDev fun d => { d with ely := f d.ely }

/-- A request reaches a port's SPDM responder: the clocked part runs, Elytra runs, the port's link is up (R309). -/
def Responds (s : State) (q : Fin 4) : Prop := Runs s ∧ s.dev.ely.state = .running ∧ (s.port q).linkUp = true

/-- A session of a port that is established. -/
def InSession (s : State) (q : Fin 4) (i : Fin 4) : Prop := Responds s q ∧ ∃ x, (s.port q).spdm.session i = some x ∧ x.opening = false

end Sys2Proof.Claims

section
open Sys2Proof Sys2Proof.Machine Sys2Proof.Claims

/-- Elytra's own commands (R290-R293, R297, R302, R303): ELY_INFO and OWNER_QUERY answer any port; Elytra reads a container from host memory, and a valid one goes into the
partition not running; SVN_COMMIT raises the fused counts to the running container's; WM_RAISE takes free granules below the new watermark into secure memory. -/
def Sys2Proof.Claims.ElytraCommandResults : Prop :=
  ∀ (o : Nat) (s : State) (j : Journal), Runs s →
    let e := s.dev.ely
    (s.commandAny o 0x01 = some j → j.wellFormed = true → Answers (.elyInfo o) s (s.answer j mbOk (bytesOf 1 e.state.code ++
      bytesOf 1 ((s.dev.manager.map (·.val)).getD 0) ++ bytesOf 2 e.restarts ++ bytesOf 4 e.secWm ++ bytesOf 4 e.freeLends))) ∧
    (s.commandAny o 0x0D = some j → j.wellFormed = true → s.dev.rangeBad (j.arg 0 4) (j.arg 4 4) = false → j.arg 4 4 ≤ 32 →
      Answers (.ownerQuery o) s (s.answer j mbOk ((List.range (j.arg 4 4)).map fun i => BitVec.ofNat 8 (e.ownerByte (j.arg 0 4 + i))))) ∧
    (∀ c : Container, Managed s o 0x03 j → 0 < j.arg 8 4 → StartsRead (.containerStage o (some c)) s j (j.arg 0 8) (j.arg 8 4) ∧
      ∀ u, bufferRead s j (j.arg 8 4) c c = some (u, c) → let k := c.sized (j.arg 8 4)
        (k.valid u.dev.ely = false → Answers (.containerStage o (some c)) s (u.answer j mbBadContainer [])) ∧
        (k.valid u.dev.ely = true → u.dev.ccn.flash = true →
          let i : Fin 2 := ⟨1 - e.runPart.val, by omega⟩
          Answers (.containerStage o (some c)) s
            ((onEly u fun e => { e with parts := put e.parts i (some { gen := (e.runGen + 1) % 2 ^ 32, container := k }) }).answer
              j mbOk (bytesOf 1 i.val ++ bytesOf 4 (e.runGen + 1))))) ∧
    (∀ c, Managed s o 0x04 j → e.running = some c → let u := onEly s fun e => (e.burnCount 128 c.svnAskulo).burnCount 136 c.svnOem
      Answers (.svnCommit o) s (u.answer j mbOk (bytesOf 1 u.dev.ely.svnAskulo ++ bytesOf 1 u.dev.ely.svnOem))) ∧
    (Managed s o 0x08 j →
      let new := j.arg 0 4
      let gs := granuleRange (e.secWm * 32) ((new - e.secWm) * 32)
      (new ≤ e.secWm → Answers (.wmRaise o) s (s.answer j mbOk (bytesOf 4 e.secWm))) ∧
      ∀ pol, s.dev.policy = some pol → e.secWm < new →
        (pol.wmMax < new → Answers (.wmRaise o) s (s.answer j mbNotPermitted [])) ∧
        (new ≤ pol.wmMax → new * 2 ^ 21 ≤ s.dev.dramTop → (∀ g ∈ gs, e.ownerByte g = 0xFF ∧ s.dev.droppedGranule g = false) →
          Answers (.wmRaise o) s ((onEly s fun e => { e.setOwner gs 0xFD with secWm := new }).answer j mbOk (bytesOf 4 new))))

/-- Granules (R303-R307): MEM_GIVE gives free granules above the watermark within the ply's limit, all or none; MEM_TAKE sends them to be scrubbed, and answers
when the last one is free; LEND, not of a dropped granule to class A (R278), enters the borrower with its rights, waiting for the barrier where it lowers them; UNLEND removes the borrower's
mappings and entry after its barrier. -/
def Sys2Proof.Claims.GranuleCommandResults : Prop :=
  ∀ (o : Nat) (s : State) (j : Journal) (p : Fin 64),
    let e := s.dev.ely
    let gs := granuleRange (j.arg 1 4) (j.arg 5 4)
    let ls := granuleRange (j.arg 4 4) (j.arg 8 4)
    (ManagedPly s o 0x09 j p → s.dev.rangeBad (j.arg 1 4) (j.arg 5 4) = false →
      (∀ g ∈ gs, e.ownerByte g = 0xFF ∧ e.secWm * 32 ≤ g) → (e.owned p.val).length + gs.length ≤ (s.dev.entry p).memMax →
      ((s.ply p).cls = .a → ∀ g ∈ gs, s.dev.droppedGranule g = false) →
      Answers (.memGive o) s ((onEly s fun e => e.setOwner gs p.val).answer j mbOk (bytesOf 4 ((e.setOwner gs p.val).owned p.val).length))) ∧
    (Managed s o 0x0A j → j.ply 0 = some p → j.begun = false → s.dev.rangeBad (j.arg 1 4) (j.arg 5 4) = false →
      (∀ g ∈ gs, e.ownerOf g = some p.val ∧ e.ownerByte g ≠ 0xFE) → (s.ply p).mapsAny gs = false →
      Answers (.memTake o) s ((onEly s fun e => e.setOwner gs 0xFC).hold j)) ∧
    (∀ (g : Nat) (t : State), Runs s → e.ownerByte g = 0xFC → e.state = .running → s.takeMem devHolder 1024 [(g * 65536, 65536)] = some t →
      let v := t.reachGranule .ely none g
      let u := onEly { v with dram := v.dram.scrub (at' v.dev.ely.keySlot 64) g } fun e => e.setOwner [g] 0xFF
      let ended := u.dev.ely.journal.filter fun j => j.code == 0x0A && j.begun &&
        (granuleRange (j.arg 1 4) (j.arg 5 4)).all fun g => u.dev.ely.ownerByte g != 0xFC
      Answers (.granuleScrubDone g) s (ended.foldl (fun u j => u.answer j mbOk []) u)) ∧
    (∀ (b : Fin 64) (w : Bool) (pol : Policy), Managed s o 0x0B j → j.ply 0 = some p → j.ply 1 = some b → lendRights (j.arg 2 1) = some w →
      s.dev.rangeBad (j.arg 4 4) (j.arg 8 4) = false → s.dev.policy = some pol →
      (∃ x ∈ pol.lendPairs, x.1 = p.val ∧ x.2.1 = b.val ∧ (x.2.2 = true ∨ w = false)) → (∀ g ∈ ls, e.ownerOf g = some p.val) →
      (∀ g ∈ ls, ∀ l, Map.find e.lend g = some l → l.borrowers.length < 4 ∨ (l.borrowers.any (·.ply == b.val)) = true) →
      (ls.filter fun g => (Map.find e.lend g).isNone).length ≤ e.freeLends → ((s.ply b).cls = .a → ∀ g ∈ ls, s.dev.droppedGranule g = false) →
      let lowers := !w && ls.any fun g => e.lentTo g b.val true
      let u := onEly s fun e => ls.foldl (fun e g => e.lendOne g p.val b.val w) e
      (lowers = false → Answers (.lend o) s (u.answer j mbOk (bytesOf 4 u.dev.ely.freeLends))) ∧
      (lowers = true → j.begun = false → Answers (.lend o) s (s.hold j)) ∧
      (lowers = true → j.begun = true → (s.ply b).earlierRetired j.mark = true → Answers (.lend o) s ((u.updPly b fun y =>
        { y with tables := y.tables.map fun t => if ls.contains t.2.page then (t.1, { t.2 with write := false }) else t }).answer j mbOk
          (bytesOf 4 u.dev.ely.freeLends)))) ∧
    (∀ b : Fin 64, Managed s o 0x0C j → j.ply 0 = some p → j.ply 1 = some b → s.dev.rangeBad (j.arg 4 4) (j.arg 8 4) = false →
      (∀ g ∈ ls, e.ownerOf g = some p.val ∧ e.lentTo g b.val false = true) →
      let pages := (s.ply b).pagesIn ls
      (j.begun = false → Answers (.unlend o) s (s.hold j)) ∧
      (j.begun = true → (s.ply b).earlierRetired j.mark = true → (∀ pg ∈ pages, s.dev.layersUse b pg 1 = false) →
        let u := onEly (s.updPly b fun y => { y with tables := y.tables.filter fun t => !pages.contains t.1 }) fun e => e.dropBorrower b.val ls.contains
        Answers (.unlend o) s (u.answer j mbOk (bytesOf 4 u.dev.ely.freeLends))))

/-- Elytra's restarts (R288, R310, R315-R317): a trigger while it runs, restarts or waits in ROM mode makes it RESTARTING, with its cause, its GATE tables
cleared and its sessions ended, or HALTED at the third within 10 s; a retained copy found lost in a restart becomes its cause (log entry 58). Reloaded
from the retained copy, or from flash where that fails, it runs again with measurement 8 extended, its tables locked and ELY_RESTART on every port; with
nothing to reload it halts. -/
def Obligations.ElytraRestartResults : Prop :=
  ∀ s : State, Runs s →
    let e := s.dev.ely
    let restarts := e.state = .running ∨ e.state = .restarting ∨ (e.state = .rom ∧ e.romMode = true)
    (∀ c : Fin 16, 1 ≤ c.val → c.val ≤ 6 → restarts → (c.val = 6 → e.state ≠ .restarting) → ∃ t : State, Answers (.elyRestartTrigger c) s t ∧
      t.dev.ely.state = (if 2 ≤ (e.restartAt.filter fun x => decide (s.dev.devtime < x + 10000000000)).length then .halted else .restarting) ∧
      t.dev.ely.lastCause = c.val ∧ t.dev.ely.restarts = min 0xFFFF (e.restarts + 1) ∧ t.dev.ely.cmdMap = [] ∧ t.dev.ely.entries = [] ∧
      t.dev.ely.sram = [] ∧ (∀ q, (t.port q).spdm.sessions = []) ∧ (∀ p, (t.ply p).mig.agreed = false) ∧ t.skein = s.skein ∧ t.dram = s.dram ∧
      t.dev.ely.owner = e.owner ∧ t.dev.ely.keySlot = e.keySlot) ∧
    ((¬ restarts → (∀ c : Fin 16, Answers (.elyRestartTrigger c) s s) ∧ Answers .elyWatchdogExpiry s s) ∧
      ∀ c : Fin 16, c.val = 0 ∨ 6 < c.val → Answers (.elyRestartTrigger c) s s) ∧
    (e.state = .restarting → Answers (.elyRestartTrigger 6) s (onEly s fun e => { e with lastCause := 6, retainedLost := true })) ∧
    Answers .elyWatchdogExpiry s (s.restartElytra 0x2) ∧
    (e.state = .restarting →
      (∀ c, e.running = some c → e.retainedLost = false → let k : Container := { c with bytes := e.copy }
        sha384 (k.content 1) = e.fwDigest → s.dev.reloadFrom = some (k, false)) ∧
      (e.running = none ∨ (e.retainedLost = true ∧ s.dev.ccn.flash = false) → s.dev.reloadFrom = none) ∧
      (s.dev.reloadFrom = none → Answers .elyRestartDone s (onEly s fun e => { e with state := .halted })) ∧
      ∀ c flash, s.dev.reloadFrom = some (c, flash) →
        let m := sha384 (at' e.measures 7 ++ sha384 (c.content 1) ++ bytesOf 1 e.lastCause)
        let u := onEly s fun e => { e with state := .running, cmdMap := firmwareMap, entries := firmwareEntries, locked := true, sram := c.forSram,
                                           measures := put e.measures 7 m, copy := if flash then c.bytes else e.copy, retainedLost := false }
        Answers .elyRestartDone s (allPorts.foldl (fun u q => u.onDev fun d =>
          d.logEvent q 0x40 0x0800 0 ([BitVec.ofNat 8 e.lastCause] ++ m.take 15)) u))

/-- Resets and boot (R292, R435, R437-R440, R459): the always-on supply resets the device and counts its applications; THERMTRIP and PWRON_RST_N hold it; BOOT
samples the strap, tests, and starts from the valid partition of higher generation or enters ROM mode; in ROM mode a container is read from port 0's
host memory and started;
a warm reset and the end of WATCH keep the always-on island. -/
def Sys2Proof.Claims.ResetAndBootResults : Prop :=
  ∀ s : State,
    Answers .vaonReset s (s.coldReset 1 false false s.dev.power.tripped) ∧
    Answers .pwronRstNAssert s (s.coldReset 2 s.dev.power.vaonOk s.dev.power.tripped s.dev.power.tripSeen) ∧
    (s.dev.power.vaonOk = false → Answers .vaonApply s (s.onDev fun d =>
      { d with power := { d.power with vaonOk := true }, ccn := { d.ccn with pwrcyc := min 0xFFFFFF (d.ccn.pwrcyc + 1) } })) ∧
    (s.dev.power.vaonOk = true → s.dev.power.tripped = false →
      let u := s.cocoon 0x1002 sevCritical 0x40 []
      let d := u.dev
      let v := u.resetTo { d.power.keptBy d.power.lastCause with tripped := true } d.ely.fused d.bist.keptOn d.ccn (d.touch.keptOn .none) d.keptRegs
      Answers .thermtrip s { v with dram := v.dram.lose fun _ => true }) ∧
    (∀ b : BootIn, s.dev.power.vaonOk = true → s.dev.power.tripped = false → s.dev.ely.state = .rom → s.dev.ely.romMode = false → s.dev.mc.desc = none →
      let u := s.onDev fun d => { d with refclk := true, power := { d.power with strap := b.strap, vddg := b.vddg, held := false },
                                         ccn := { d.ccn with flash := b.flash } }
      let v := (u.startTest b.fails).bootRom
      Answers (.boot b) s (if leAt (v.dev.ccn.newestCounter.getD []) 5 3 ≠ v.dev.ccn.pwrcyc then v.onDev Dev.persistCounters else v)) ∧
    (∀ (o : Nat) (j : Journal) (c : Container), Runs s → s.commandAny o 0x02 = some j → j.wellFormed = true → s.dev.ely.state = .rom →
      s.dev.ely.romMode = true → j.port = 0 → 0 < j.arg 8 4 → StartsRead (.containerLoad o (some c)) s j (j.arg 0 8) (j.arg 8 4) ∧
      ∀ u, bufferRead s j (j.arg 8 4) c c = some (u, c) → let k := c.sized (j.arg 8 4)
        (k.valid u.dev.ely = false → Answers (.containerLoad o (some c)) s (u.answer j mbBadContainer [])) ∧
        (k.valid u.dev.ely = true → Answers (.containerLoad o (some c)) s ((u.answer j mbOk []).bootFrom k 0 0))) ∧
    (Runs s → s.dev.power.resetDue = true →
      let u := (allPorts.filter fun q => s.dev.portPresent q && (s.port q).linkUp).foldl (fun u q => u.linkDown q .dlDown false) s
      let d := u.dev
      let ely := { d.ely.fused with secWm := d.ely.secWm, keySlot := put Ely.blank.keySlot 64 (at' d.ely.keySlot 64), fwDigest := d.ely.fwDigest,
                                    unscrubbed := true }
      let touch := { d.touch.keptOn .none with blocked := d.touch.blocked, wakeX := d.touch.wakeX, wakeY := d.touch.wakeY, wakeN := d.touch.wakeN,
                                               trail := d.touch.trail }
      Answers .warmReset s ((u.resetTo (d.power.keptBy 3) ely d.bist.keptOn d.ccn touch d.keptRegs).bootRom)) ∧
    (∀ b : BootIn, s.dev.power.state = .watch → s.dev.power.vaonOk = true → s.dev.power.tripped = false → s.dev.power.held = false →
      let d := s.dev
      let u := { s with dram := s.dram.lose fun _ => true }.resetTo { d.power.keptBy 4 with vddg := b.vddg } d.ely.fused d.bist.keptOn d.ccn
        (d.touch.keptOn .kept) d.keptRegs
      let v := allPorts.foldl (fun v q => v.updPort q fun pt => { pt with linkDowns := (d.port q).linkDowns }) u
      Answers (.watchExit b) s (((v.updPort d.power.watchPort fun pt => { pt with perst := false }).startTest b.fails).bootRom))

/-- What a cold reset leaves (R438): no block runs and the device waits for BOOT; the fuses, the flash partitions and the recorder's log are kept; the ledger
is as after reset. -/
def Sys2Proof.Claims.ColdResetKeepsFusesAndFlash : Prop :=
  ∀ (s : State) (cause : Nat) (ok tripped seen : Bool),
    let t := s.coldReset cause ok tripped seen
    ¬ Runs t ∧ t.dev.devtime = 0 ∧ t.dev.ely.state = .rom ∧ t.dev.ely.journal = [] ∧ t.dev.ely.fuses = s.dev.ely.fuses ∧
      t.dev.ely.svnAskulo = s.dev.ely.svnAskulo ∧ t.dev.ely.svnOem = s.dev.ely.svnOem ∧ t.dev.ely.parts = s.dev.ely.parts ∧
      t.dev.ccn.log = s.dev.ccn.log ∧ t.dev.ccn.counters = s.dev.ccn.counters ∧ t.dev.power.held = true ∧ t.skein = Skein.reset s.dev.nClusters ∧
      (∀ p : Fin 64, (t.ply p).state = .absent) ∧ t.pending = s.pending

/-- SPDM (R309, R310), the connection: version, capabilities and algorithms in order; then digests, certificates, challenge and measurements. A request out of
order gets an ERROR. Message codes and sizes are the model's (log entry 61). -/
def Sys2Proof.Claims.SpdmConnectionResults : Prop :=
  ∀ (q : Fin 4) (s : State), Responds s q →
    let free := fun n => (List.range n).map (Config.freeByte s.dev.fresh)
    Answers (.getVersion q) s ((s.spdmPhase q 1).doe q ([0x10, 0x04, 0, 0, 0, 1] ++ bytesOf 2 0x1200)) ∧
    ((s.port q).spdm.phase ≠ 1 → Answers (.getCapabilities q) s (s.doe q spdmUnexpected)) ∧
    ((s.port q).spdm.phase = 1 → Answers (.getCapabilities q) s ((s.spdmPhase q 2).doe q
      (spdmMsg 0x61 0 0 ([0, 0, 0, 0] ++ bytesOf 4 0x000062D6 ++ bytesOf 4 4096 ++ bytesOf 4 4096)))) ∧
    ((s.port q).spdm.phase ≠ 2 → ∀ b, Answers (.negotiateAlgorithms q b) s (s.doe q spdmUnexpected)) ∧
    ((s.port q).spdm.phase = 2 → Answers (.negotiateAlgorithms q false) s (s.doe q spdmInvalid) ∧ Answers (.negotiateAlgorithms q true) s
      ((s.spdmPhase q 3).doe q (spdmMsg 0x63 2 0 (bytesOf 4 0x80 ++ bytesOf 4 0x2 ++ bytesOf 2 0x10 ++ bytesOf 2 0x2)))) ∧
    ((s.port q).spdm.phase ≠ 3 → Answers (.getDigests q) s (s.doe q spdmUnexpected) ∧ (∀ x k n, Answers (.getCertificate q x ⟨k, n⟩) s (s.doe q spdmUnexpected)) ∧
      (∀ x, Answers (.challenge q x) s (s.doe q spdmUnexpected)) ∧ ∀ op b, Answers (.getMeasurements q op b) s (s.doe q spdmUnexpected)) ∧
    ((s.port q).spdm.phase = 3 →
      Answers (.getDigests q) s (s.doe q (spdmMsg 0x01 0 3 (sha384 (s.dev.ely.chain 0) ++ sha384 (s.dev.ely.chain 1)))) ∧
      (∀ x k n, 2 ≤ x → Answers (.getCertificate q x ⟨k, n⟩) s (s.doe q spdmInvalid) ∧ Answers (.challenge q x) s (s.doe q spdmInvalid)) ∧
      (∀ x k n, x < 2 → let rest := (s.dev.ely.chain x).drop k
        let c := rest.take (min n 4080)
        Answers (.getCertificate q x ⟨k, n⟩) s
          (s.doe q (spdmMsg 0x02 x 0 (bytesOf 2 c.length ++ bytesOf 2 (min 65535 (rest.length - c.length)) ++ c))) ∧
        Answers (.challenge q x) s (s.tick.doe q (spdmMsg 0x03 x 3 (free 176)))) ∧
      ∀ b : Bool, let (u, sig) := if b then (s.tick, free 96) else (s, [])
        Answers (.getMeasurements q 0 b) s (u.doe q (spdmMsg 0x60 8 0 ([0, 0, 0, 0] ++ sig))) ∧
        (∀ i : Fin 8, let body := measurementBlock s.dev.ely i
          Answers (.getMeasurements q (i.val + 1) b) s (u.doe q (spdmMsg 0x60 0 0 ([1] ++ bytesOf 3 body.length ++ body ++ sig)))) ∧
        let all := ([0, 1, 2, 3, 4, 5, 6, 7] : List (Fin 8)).flatMap (measurementBlock s.dev.ely)
        Answers (.getMeasurements q 0xFF b) s (u.doe q (spdmMsg 0x60 0 0 ([8] ++ bytesOf 3 all.length ++ all ++ sig))))

/-- SPDM sessions (R308, R309, R311): KEY_EXCHANGE opens the first of the port's 4 sessions that is free; FINISH establishes or ends it; key update, heartbeat, end,
the vendor envelope, KEY_PROG and K_SET_STOP act only inside an established session of the port, the last two on the stream's IDE key. -/
def Sys2Proof.Claims.SpdmSessionResults : Prop :=
  ∀ (q i : Fin 4) (s : State), Responds s q →
    let set := fun (u : State) f => u.updPort q fun pt => { pt with spdm := { pt.spdm with sessions := f pt.spdm.sessions } }
    let keyed := onEly s fun e => { e with nextKey := e.nextKey + 1 }
    ((s.port q).spdm.phase = 3 →
      ((∀ k : Fin 4, ((s.port q).spdm.session k).isSome = true) → Answers (.keyExchange q) s (s.doe q spdmSessionLimit)) ∧
      (((s.port q).spdm.session i).isNone = true → (∀ k < i, ((s.port q).spdm.session k).isSome = true) →
        Answers (.keyExchange q) s ((set keyed fun l => l ++ [{ id := i.val, opening := true, keyGen := s.dev.ely.nextKey }]).tick.doe q
          (spdmMsg 0x64 0 0 (bytesOf 2 i.val ++ (List.range 272).map (Config.freeByte s.dev.fresh))))) ∧
      ∀ x, (s.port q).spdm.session i = some x → x.opening = true →
        Answers (.finish q i true) s ((set s fun l => l.map fun y => if y.id = i.val then { y with opening := false } else y).doe q (spdmMsg 0x65 0 0 [])) ∧
        Answers (.finish q i false) s ((set s fun l => l.filter (·.id != i.val)).doe q (spdmMsg 0x7F 0x06 0 []))) ∧
    (∀ st : Fin 3, InSession s q i →
      Answers (.keyUpdate q i) s
        ((set keyed fun l => l.map fun y => if y.id = i.val then { y with keyGen := s.dev.ely.nextKey } else y).doe q (spdmMsg 0x69 0 0 [])) ∧
      Answers (.spdmHeartbeat q i) s (s.doe q (spdmMsg 0x68 0 0 [])) ∧
      Answers (.endSession q i) s ((set s fun l => l.filter (·.id != i.val)).doe q (spdmMsg 0x6C 0 0 [])) ∧
      Answers (.vendorDefined q i) s (s.doe q (spdmMsg 0x7E 0 0 [])) ∧
      Answers (.keyProg q i st) s ((keyed.updPort q fun pt => { pt with ide := put pt.ide st s.dev.ely.nextKey }).doe q (spdmMsg 0x7E 0 0 [0x03])) ∧
      Answers (.kSetStop q i st) s ((s.updPort q fun pt => { pt with ide := put pt.ide st 0 }).doe q (spdmMsg 0x7E 0 0 [0x06]))) ∧
    (((s.port q).spdm.session i).isNone = true → ∀ st : Fin 3, Answers (.keyUpdate q i) s (s.doe q spdmUnexpected) ∧
      Answers (.keyProg q i st) s (s.doe q spdmUnexpected) ∧ Answers (.kSetStop q i st) s (s.doe q spdmUnexpected))

end
namespace Sys2Proof.Claims
open Sys2Proof Sys2Proof.Machine

/-- A write to a head's registers reaches it: from the manager's port, to a head of the variant (R8, R19). -/
def HeadWrite (s : State) (q : Fin 4) (h : Fin 8) : Prop := Runs s ∧ s.dev.isManager q = true ∧ s.dev.headExposed h = true

/-- The head's hot-plug pin counts: the head is exposed and HPD_IGNORE is clear (R152). -/
def Plugs (s : State) (h : Fin 8) : Prop := Runs s ∧ s.dev.headExposed h = true ∧ s.dev.hpdIgnore h = false

end Sys2Proof.Claims

section
open Sys2Proof Sys2Proof.Machine Sys2Proof.Claims

/-- HD_TCOMMIT.ARM (R136, R139, R141, R433): the pending set is tested against the active state; a set refused leaves its code in ERR and nothing else; one
accepted takes effect at once on a head that is OFF, or waits for the boundary, with bobbins for it beside the old ones (R143), or for VDDC to rise; links that wait for an ARM train. -/
def Sys2Proof.Claims.TimingArmResults : Prop :=
  ∀ (q : Fin 4) (h : Fin 8) (s : State), HeadWrite s q h →
    let t := s.dev.pendingTiming h
    let u := s.updHead h fun x => { x with err := s.dev.armError h t }
    (s.dev.armError h t ≠ 0 → Answers (.timingArm q h) s u) ∧
    (s.dev.armError h t = 0 →
      let v := (u.dev.group h).foldl (fun v k => let x := v.head k
        if (x.link = .short ∧ x.cfg.isNone) ∨ (x.link = .noSink ∧ (x.hpd ∨ v.dev.hpdIgnore k)) then v.beginTraining k else v) u
      Answers (.timingArm q h) s
        (if t.enable ∧ v.dev.power.vc = 0 then v.updHead h fun x => { x with armed := some t, armLate := false }
        else if (v.head h).gen = .off then v.enableHead h t
        else (if t.enable then v.onDev fun d => d.refit h t (t.pair && h.val % 2 == 0) else v).updHead h fun x =>
          { x with armed := some t, armLate := x.cutoff }))

/-- Reasons for which an ARM is refused (R139), in order: another ARM is pending, a pair that cannot be made, a field out of range; a set that turns the head
off passes. -/
def Sys2Proof.Claims.ArmRefusalOrder : Prop :=
  ∀ (d : Dev) (h : Fin 8) (t : Timing),
    (bit (d.reg (hdBase h)) 1 = true → d.armError h t = 6) ∧
    (bit (d.reg (hdBase h)) 1 = false → (d.head h).armed.isSome = true → d.armError h t = 8) ∧
    (bit (d.reg (hdBase h)) 1 = false → (d.head h).armed = none → d.slave h = true → d.armError h t = 5) ∧
    (bit (d.reg (hdBase h)) 1 = false → (d.head h).armed = none → d.slave h = false → t.pair = false → t.enable = false → d.armError h t = 0) ∧
    (bit (d.reg (hdBase h)) 1 = false → (d.head h).armed = none → d.slave h = false → t.pair = false → t.enable = true → t.fieldsOk = false →
      d.armError h t = 1)

/-- Link training (R140, R150-R152): training lists the configurations for the sink and tries them in order until one trains or none is left; the PLL of a mode
change relocks on every head of the group; plug, unplug and interrupt are reported and retrain or stop the link. -/
def Sys2Proof.Claims.LinkTrainingResults : Prop :=
  ∀ (h : Fin 8) (s : State), Runs s →
    (∀ caps : SinkCaps, (s.head h).link = .training → (s.head h).tries = [] →
      let l := trainOrder (s.head (s.dev.master h)).timing caps
      let u := s.updHead h fun x => { x with sink := some caps, tries := l }
      Answers (.linkTrainStart h caps) s (if l = [] then (u.linkNone h).linkDone h else u)) ∧
    (∀ c rest, (s.head h).link = .training → (s.head h).tries = c :: rest →
      let fails := if rest = [] then (s.linkNone h).linkDone h else s.updHead h fun x => { x with tries := rest }
      Answers (.trainAttemptDone h true) s ((s.updHead h fun x => { x with link := .trained, cfg := some c, tries := [] }).linkDone h) ∧
      Answers (.trainAttemptDone h false) s fails ∧ Answers (.trainAttemptTimeout h) s fails) ∧
    ((s.head h).gen = .changing →
      Answers (.pllLock h) s ((s.dev.group h).foldl (fun u k => u.updHead k fun x => { x with relocked := true }) s)) ∧
    (Plugs s h →
      let said := fun (u : State) (n : Nat) => u.postHead h 0x40 0x0302 h.val (dataBytes [(16, 1, n)])
      let up := said (s.updHead h fun x => { x with hpd := true }) 1
      Answers (.dpHotplugPlug h) s (match (up.head h).link with
        | .idle => up
        | .waiting => up.beginTraining h
        | _ => if up.dev.autoTrain h then up.beginTraining h else up.updHead h fun x => { x with link := .noSink }) ∧
      let down := said (s.updHead h fun x =>
        { x with hpd := false, sink := none, tries := [], trained := false, steady := false, cfg := none,
                 link := match x.link with | .idle => .idle | .waiting => .waiting | _ => .noSink }) 2
      Answers (.dpHotplugUnplug h) s (if (down.head h).link = .noSink then down.linkDone h else down) ∧
      ∀ lost : Bool, let u := said s 3
        let x := u.head h
        Answers (.dpHotplugIrq h lost) s
          (if (x.link = .trained ∧ lost = true) ∨ (x.link = .short ∧ (x.cfg.isNone = true ∨ lost = true)) then u.beginTraining h else u)) ∧
    (s.dev.headExposed h = false ∨ s.dev.hpdIgnore h = true →
      Answers (.dpHotplugPlug h) s s ∧ Answers (.dpHotplugUnplug h) s s ∧ ∀ b, Answers (.dpHotplugIrq h b) s s)

/-- The frame (R135, R136, R138, R140, R146, R154, R355): a running head's boundary, the end of the idle frame of a mode change, the arming cut-off, an underrun, the
release of FBSEL_N. The odd head of a pair has no boundary of its own. -/
def Sys2Proof.Claims.FrameCommandResults : Prop :=
  ∀ (h : Fin 8) (s : State), Runs s →
    (∀ ref, s.dev.slave h = false → (s.head h).gen = .running → Answers (.frameBoundary h ref) s ((s.boundary h false).checkLock h ref)) ∧
    (s.dev.slave h = true → (∀ ref, Answers (.frameBoundary h ref) s s) ∧ (∀ b, Answers (.idleFrameEnd h b) s s) ∧ Answers (.armingCutoff h) s s) ∧
    (∀ same, s.dev.slave h = false → (s.head h).gen = .changing →
      (∀ k ∈ s.dev.group h, (s.head k).relocked = true ∧ (s.head k).link ≠ .training ∧ (s.head k).link ≠ .waiting) →
      Answers (.idleFrameEnd h same) s ((s.lockHead h same).boundary h true)) ∧
    (s.dev.slave h = false → (s.head h).gen ≠ .off → Answers (.armingCutoff h) s (s.updHead h fun x => { x with cutoff := true })) ∧
    (∀ (l : Fin 64) (line col : Nat) (e : ActiveLayer),
      let m := s.dev.master h
      (s.head m).gen = .running → (s.head m).layers.find? (·.handle == l.val) = some e →
      let k := (s.head m).scanHead m col
      (e.dry.any (·.1 == k) = true → Answers (.underrun h l line col) s s) ∧
      (e.dry.any (·.1 == k) = false →
        let u := s.updHead m fun x => { x with layers := x.layers.map fun e =>
          if e.handle = l.val then { e with dry := e.dry ++ [(k, line, col / 2 * 2)] } else e }
        let hk : Fin 8 := ⟨k % 8, by omega⟩
        let v := u.updHead hk fun x => { x with underruns := min 0xFFFF (x.underruns + 1), lastLayer := l.val }
        Answers (.underrun h l line col) s (v.postHead hk e.ply.val 0x0300 (k * 256 + l.val)
          (dataBytes [(16, 8, (v.head m).frame.toNat), (24, 2, line), (26, 2, col / 2 * 2)])))) ∧
    (∀ q, s.dev.isManager q = true → s.dev.pkgW = false →
      Answers (.fbselRelease q) s (s.updCarder fun c => { c with fbLatched := false, fbCount := 0 }))

/-- CMP credits at a head's boundary (R44): those of its layers return before the new take, no credit of another kind and no memory is touched, and a layer alone
takes its cost from its ply's account, or is held for it (R46). -/
def Sys2Proof.Claims.CmpTakeAndReturn : Prop :=
  ∀ (h : Fin 8) (s : State),
    ((s.returnCmp h).head h).layers.map (·.cmp) = (s.head h).layers.map (fun _ => 0) ∧
    (∀ kd, kd ≠ .cmp → (s.returnCmp h).skein.acct kd = s.skein.acct kd) ∧ (∀ kd, kd ≠ .cmp → (s.takeCmp h).skein.acct kd = s.skein.acct kd) ∧
    (s.returnCmp h).dram = s.dram ∧ (s.takeCmp h).dram = s.dram ∧
    (∀ l, (s.head h).layers = [l] → (∀ i, (at' (s.head h).plates i).shown = false) →
      let n := layerCmp (s.head h).timing l.block
      (∀ k, s.sparesSlots h l n = true → s.skein.take .cmp (plyHolder l.ply) n = some k →
        (s.takeCmp h).skein = k ∧ ((s.takeCmp h).head h).layers.map (fun x => (x.cmp, x.hold)) = [(n, false)]) ∧
      (s.skein.take .cmp (plyHolder l.ply) n = none →
        (s.takeCmp h).skein = s.skein ∧ ((s.takeCmp h).head h).layers.map (fun x => (x.cmp, x.hold)) = [(0, true)]))

/-- Registers that act on access (R134, R168, R182, R203, R204): the frame counter and a signature's result latch their high word until it is read;
the colour table selector moves on
at each access, and a write reaches a table that may be written; TEN_APPLY takes effect at once on a head that is OFF, else at its boundary, replacing one that
waits; the manager clears HOLD. -/
def Obligations.HeadRegisterResults : Prop :=
  ∀ (q : Fin 4) (h : Fin 8) (r : Fin 4) (s : State), Runs s →
    let lo := fun (off v : Nat) =>
      (s.updPort q fun pt => { pt with latch := Map.ins pt.latch (off + 4) (word (v / 2 ^ 32)) }).emit (.regValue q off (word v))
    let hi := fun (off v : Nat) =>
      (s.updPort q fun pt => { pt with latch := Map.del pt.latch (off + 4) }).emit (.regValue q (off + 4) (match Map.find (s.port q).latch (off + 4) with
        | some x => x
        | none => word (v / 2 ^ 32)))
    (let f := if s.dev.headExposed h then (s.head (s.dev.master h)).frame.toNat else 0
     Answers (.hdFrameLoRead ⟨q, false⟩ h) s (lo (hdBase h + 0x30) f) ∧ Answers (.hdFrameLoRead ⟨q, true⟩ h) s (hi (hdBase h + 0x30) f)) ∧
    (let v := if s.dev.headExposed h then (at' (s.head h).sigs r).result.toNat else 0
     Answers (.sigResultLoRead ⟨q, false⟩ h r) s (lo (sigBase h r + 0x28) v) ∧ Answers (.sigResultLoRead ⟨q, true⟩ h r) s (hi (sigBase h r + 0x28) v)) ∧
    (s.dev.isManager q = true →
      Answers (.sigHoldClear q h r) s (s.updHead h fun x => { x with sigs := upd x.sigs r fun g => { g with hold := false } })) ∧
    (s.dev.isManager q = false → Answers (.sigHoldClear q h r) s s ∧ ∀ v, Answers (.cmpLutDataWrite q v) s s) ∧
    (let (t, b, i) := s.dev.lutSel
     (∀ v : Word, s.dev.isManager q = true →
       (s.dev.lutExists t = true → s.dev.lutWritable t b = true → Answers (.cmpLutDataWrite q v) s
         ((s.updCarder fun c => { c with luts := Map.ins c.luts ((t * 2 + b) * 1024 + i) (v.toNat % 4096) }).onDev Dev.lutAdvance)) ∧
       (s.dev.lutExists t = false ∨ s.dev.lutWritable t b = false → Answers (.cmpLutDataWrite q v) s (s.onDev Dev.lutAdvance))) ∧
     Answers (.cmpLutDataRead q) s ((s.onDev Dev.lutAdvance).emit
       (.regValue q 0x13004 (word (if s.dev.lutExists t then s.dev.carder.lut t b i else 0))))) ∧
    ∀ (o : Nat) (j : Journal) (pol : Policy), Managed s o 0x30 j → j.begun = false → fin? 8 (j.arg 0 1) = some h → s.dev.headExposed h = true →
      s.dev.slave h = false → j.arg 1 1 ≤ 3 → s.dev.policy = some pol → (j.arg 1 1 = 0 ∨ (atD (at' pol.heads h).sets (j.arg 1 1) none).isSome = true) →
      ((s.head h).gen = .off → Answers (.tenApply o) s
        ((s.updHead h fun x => { x with tens := s.dev.tenancySet h (j.arg 1 1), tenSet := j.arg 1 1, tenWait := none }).answer j mbOk
          (bytesOf 8 (s.head h).frame.toNat))) ∧
      ((s.head h).gen ≠ .off → (s.head h).tenWait = none → Answers (.tenApply o) s
        ((s.updHead h fun x => { x with tenWait := some (j.arg 1 1, j.order, x.cutoff) }).hold j)) ∧
      ∀ i old late, (s.head h).gen ≠ .off → (s.head h).tenWait = some (i, old, late) → Answers (.tenApply o) s
        (((s.answerOrder old mbSuperseded (bytesOf 8 0)).updHead h fun x => { x with tenWait := some (j.arg 1 1, j.order, x.cutoff) }).hold j)

end
namespace Sys2Proof.Claims
open Sys2Proof Sys2Proof.Machine

/-- Where a transfer goes (R36, R283, R284): a ply's address through its tables; for the device an address below DRAM_TOP, under key slot 64 below SEC_WM
and the owner's slot above. -/
def transferTarget (s : State) (ply : Option (Fin 64)) (addr : Nat) (write : Bool) : Xlat :=
  match ply with
  | some p => s.dev.xlat p addr write
  | none =>
    if s.dev.dramTop ≤ addr then .fault
    else if addr < s.dev.ely.secWm * 2 ^ 21 then .ok addr (at' s.dev.ely.keySlot 64)
    else match s.dev.ely.ownerOf (addr / 65536) with
      | some o => .ok addr (atD s.dev.ely.keySlot o 0)
      | none => .fault

end Sys2Proof.Claims

section
open Sys2Proof Sys2Proof.Machine Sys2Proof.Claims

/-- MEM_TRANSFER_ACCEPT (R44, R62, R185, R262-R265, R272, R273, R284): a transfer through a port of its engine, and for a layer one that it shows, takes its MEM
credits, 2 for a partial write, and joins its channel's queue while there is an entry of its kind; it waits where the take is refused, no entry is free or
the channel trains; in deep nap it starts the exit; a ply's translation fault faults it, naming the engine. -/
def Sys2Proof.Claims.TransferAcceptResults : Prop :=
  ∀ (port : Fin 16) (eng : Engine) (ply : Option (Fin 64)) (addr : Nat) (write : Option (Nat × List Byte)) (head : Option (Fin 8 × Fin 64)) (s : State),
    Runs s →
    let c := Instr.memTransferAccept ⟨port, eng⟩ ply addr write head
    (s.dev.mc.trained = false ∨ eng.ports.contains port.val = false ∨ s.dev.wanted port ply head addr = false → Answers c s s) ∧
    (s.dev.mc.trained = true → eng.ports.contains port.val = true → s.dev.wanted port ply head addr = true →
      (s.dev.mc.deep = true → Answers c s (s.onDev Dev.leaveDeep)) ∧
      (s.dev.mc.deep = false →
      (transferTarget s ply addr write.isSome = .fault →
        Answers c s (match ply with | some p => s.faultPly p addr write.isSome eng false | none => s)) ∧
      ∀ phys key, transferTarget s ply addr write.isSome = .ok phys key →
        let h := match ply with | some p => plyHolder p | none => devHolder
        let unit := phys / 64 * 64
        let ch := chanOf s.dev.pkgW unit
        let w := write.map fun w => (w.1 % 64, w.2.take (64 - w.1 % 64))
        let cost := match w with | some (_, bs) => if bs.length = 64 then 1 else 2 | none => 1
        (s.takeMem h cost [(unit, 1)] = none → Answers c s s) ∧
        ∀ t, s.takeMem h cost [(unit, 1)] = some t →
          let reserved := match ply with
            | some p => (s.ply p).cls == .a && at' s.skein.resvLive p && decide (at' (t.skein.acct .mem).hold h ≤ at' (t.skein.acct .mem).guar h)
            | none => false
          ((s.dev.mc.chan ch).hasRoom reserved = false → Answers c s s) ∧
          ((s.dev.mc.chan ch).hasRoom reserved = true →
            let r : McReq := { id := s.dev.mc.nextId, port := port, eng := eng, ply := ply, addr := unit, key := key, write := w, reserved := reserved,
                               head := head, promoted := false, accepted := s.dev.devtime, data := [] }
            Answers c s ((t.updChan ch fun x => { x with queue := s.dev.promote (x.queue ++ [r]),
                                                         slice := if reserved then false else x.slice }).updMc fun m => { m with nextId := m.nextId + 1 }))))

/-- The data path of a channel (R266, R268, R275, R276, R279-R281, R286): the chosen request issues, a write reaching DRAM under its key after its unit's error and
its granule's mark are seen to, a read seeing the queued older writes to its unit; nothing issues in deep nap, training, a slice, an alert or with a full
retry buffer; a read returns with what the ECC code makes of its errors; a parity alert stops issue, and its release replays the buffer in order. -/
def Sys2Proof.Claims.ChannelResults : Prop :=
  ∀ (ch : Fin 16) (s : State), Runs s →
    (∀ good : Nat,
      let u := s.updChan ch fun c => { c with retry := c.retry.drop good, replaying := c.replaying && good == 0, queue := s.dev.promote c.queue }
      let c := u.dev.mc.chan ch
      (u.dev.mc.deep = true ∨ c.alert = true ∨ c.training = true ∨ c.slice = true ∨ (u.dev.pkgW = true ∧ 32 ≤ c.retry.length) ∨ u.dev.choose c = none →
        Answers (.memCommandOpportunity ch good) s u) ∧
      ∀ r, u.dev.mc.deep = false → c.alert = false → c.training = false → c.slice = false → (u.dev.pkgW = false ∨ c.retry.length < 32) →
        u.dev.choose c = some r →
        let c' := { c with queue := c.queue.filter (·.id != r.id), banks := upd c.banks (u.dev.mc.bankOf r.addr) (·.serve (rowOf r.addr)),
                           retry := if u.dev.pkgW then c.retry ++ [(if r.write.isSome then .wr else .rd, r.addr)] else c.retry }
        let v := (u.updChan ch fun _ => c').emit (.dramCmd ch.val (if r.write.isSome then "WR" else "RD") r.addr)
        Answers (.memCommandOpportunity ch good) s (match r.write with
          | some (off, bs) =>
            let x := v.openUnit r.addr r.port.val r.ply (bs.length == 64)
            { x with dram := v.dram.writeN r.key (r.addr + off) bs }
          | none => (v.touchCheck r.addr false).updChan ch fun c' =>
            { c' with issued := c'.issued ++ [{ r with data := readThrough v.dram c.queue r }] })) ∧
    (∀ (id line col : Nat) (errs : List (Nat × Byte)) (unit : DeviceUnit) (r : McReq), (s.dev.mc.chan ch).issued.find? (·.id == id) = some r →
      let u := s.updChan ch fun c => { c with issued := c.issued.filter (·.id != id) }
      let seen := u.dev.decodeEcc r.addr errs
      let v := u.eccFound seen r.addr r.port.val r.ply
      Answers (.memReadReturn ch id errs unit line col) s (if seen = .uncorrectable then v.poisoned r unit (some (line, col)) else v)) ∧
    (∀ c, c = s.dev.mc.chan ch → s.dev.pkgW = true → ch.val < 8 → c.training = false → c.alert = false →
      (c.replaying = false → Answers (.caParityAlert ch) s (s.updChan ch fun c => { c with alert := true })) ∧
      (c.replaying = true →
        let u := s.updChan ch fun c => { c with training := true, alert := false, replaying := false, retry := [], slice := false, light := false }
        let v := u.updMc fun m => { m with faults := min 0xFFFF (m.faults + 1) }
        Answers (.caParityAlert ch) s (((v.postManager 0x40 0x0700 ch.val []).cocoon 0x0700 sevCritical 0x40 (bytesOf 2 ch.val)).failQueue ch))) ∧
    (s.dev.pkgW = false → Answers (.caParityAlert ch) s s) ∧
    (let c := s.dev.mc.chan ch
     (c.training = true → Answers (.parityReplay ch) s (s.updChan ch fun c => { c with training := false, alert := false })) ∧
     (c.training = false → c.alert = true →
       let u := c.retry.foldl (fun u e => u.emit (.dramCmd ch.val (e.1.name s.dev.pkgW) e.2)) s
       Answers (.parityReplay ch) s ((u.updChan ch fun c => { c with alert := false, replaying := !c.retry.isEmpty }).updMc fun m =>
         { m with replays := min 0xFFFF (m.replays + 1) }))) ∧
    ∀ (a : Nat) (errs : List (Nat × Byte)) (unit : DeviceUnit) (t : State), s.dev.mc.trained = true → a < s.dev.dramTop →
      s.takeMem devHolder 1 [(a, 1)] = some t →
      let seen := t.dev.decodeEcc (a / 64 * 64) errs
      let v := t.eccFound seen (a / 64 * 64) 14 none
      Answers (.patrolScrub a errs unit) s (if seen = .uncorrectable then v.deviceUncorrectable (a / 64 * 64) unit else v)

/-- Upkeep of the DRAM (R41, R259, R268-R271, R277): the end of training fixes DRAM_TOP and creates the MEM credits; refreshes are postponed at most 8 times while a reserved
request is queued, then issued for every bank, and wait while a slice, an alert or a full retry buffer holds the channel; temperature codes, drift, retraining slices and idle rows; MEM_PASR takes a mask that drops nothing secure. -/
def Sys2Proof.Claims.DramUpkeepResults : Prop :=
  ∀ (ch : Fin 16) (s : State), Runs s →
    (∀ m, s.dev.mc.desc = some m → memDescOk s.dev.pkgW m = true → s.dev.mc.trained = false → Answers .dramTraining s
      ((s.onDev fun d => { d with dramTop := m.top, mc := { d.mc with trained := true } }).onSkein fun k => k.trainMem (memTotal m.rate m.iecc))) ∧
    (∀ bank : Fin 16, s.dev.mc.trained = true → s.dev.mc.deep = false →
      let c := s.dev.mc.chan ch
      let b := at' c.banks bank
      let shut := fun b : Bank => { b with row := none, lastRow := none, postponed := 0 }
      let sent := fun (u : State) k => u.sendCmd ch k (if k = .refAll then 0 else bank.val)
      (s.dev.canIssue ch = false ∨ (c.queue.any (·.reserved) = true ∧ b.postponed < 8) → Answers (.refreshDue ch bank) s
        (s.updChan ch fun c => { c with light := false, banks := upd c.banks bank fun b => { b with postponed := min 8 (b.postponed + 1) } })) ∧
      (s.dev.canIssue ch = true → 8 ≤ b.postponed → Answers (.refreshDue ch bank) s
        (sent (s.updChan ch fun c => { c with light := false, banks := c.banks.map shut }) .refAll)) ∧
      (s.dev.canIssue ch = true → c.queue.any (·.reserved) = false → b.postponed < 8 → Answers (.refreshDue ch bank) s
        (sent (s.updChan ch fun c => { c with light := false, banks := upd c.banks bank shut }) .refBank))) ∧
    (∀ bank : Fin 16, Answers (.bankIdleClose ch bank) s (s.updChan ch fun c => { c with banks := upd c.banks bank fun b =>
      match b.row with | some r => { b with row := none, lastRow := some r } | none => b })) ∧
    (∀ rates hot, Answers (.mr4Poll rates hot) s (s.dev.chanList.foldl (fun u k => u.updChan k fun c =>
      { c with refRate := Vector.ofFn fun r => atD rates (k.val + 16 * r.val) 0,
               fine := u.dev.pkgW && (atD hot k.val false || atD hot (k.val + 16) false) }) s)) ∧
    (∀ b, Answers (.dqsOscSample ch b) s (s.updChan ch fun c => { c with drift := c.drift || b })) ∧
    Answers (.retrainForceTimeout ch) s (s.updChan ch fun c => { c with forced := c.forced || (c.drift && !c.slice) }) ∧
    (let c := s.dev.mc.chan ch
     (c.slice = true → Answers (.retrainSlice ch) s ((s.updChan ch fun c => { c with slice := false, drift := false, forced := false }).updMc fun m =>
       if c.forced then { m with forcedN := min 0x7FFF (m.forcedN + 1) } else m)) ∧
     (c.slice = false → c.drift = false ∨ s.dev.sliceFree ch = false → Answers (.retrainSlice ch) s s) ∧
     (c.slice = false → c.drift = true → s.dev.sliceFree ch = true →
       (s.dev.toleranceAbove 2000 = true → Answers (.retrainSlice ch) s (s.updChan ch fun c => { c with slice := true, forced := false })) ∧
       (s.dev.toleranceAbove 2000 = false → c.forced = true → Answers (.retrainSlice ch) s (s.updChan ch fun c => { c with slice := true })) ∧
       (s.dev.toleranceAbove 2000 = false → c.forced = false → Answers (.retrainSlice ch) s s))) ∧
    ∀ (o : Nat) (j : Journal) (m : MemDesc), Managed s o 0x40 j → s.dev.mc.desc = some m →
      let seg := if m.iecc then j.arg 0 1 % 128 else j.arg 0 1
      (j.arg 1 1 ≠ 0 → Answers (.memPasr o) s (s.answer j mbBadArg [])) ∧
      (j.arg 1 1 = 0 →
      (s.dev.pkgW = true → Answers (.memPasr o) s (s.answer j 0x11 [])) ∧
      (s.dev.pkgW = false → s.dev.pasrUnsafe m seg (j.arg 2 2) = true → Answers (.memPasr o) s (s.answer j 0x10 [])) ∧
      (s.dev.pkgW = false → s.dev.pasrUnsafe m seg (j.arg 2 2) = false → Answers (.memPasr o) s
        ((s.updMc fun m => { m with pSegDrop := seg, pBankDrop := j.arg 2 2 }).answer j mbOk [])))

/-- Naps (R144, R145, R272-R274, R277): a channel naps while its queue is empty and every head tolerates it; a deep nap asks every head to top up, tests its conditions again
when all have acknowledged, and loses the memory that PASR drops;
a head reports what its bobbins hold in time, and a low report ends either. -/
def Sys2Proof.Claims.NapResults : Prop :=
  ∀ (ch : Fin 16) (s : State), Runs s →
    (s.dev.mc.trained = true → 1 ≤ s.dev.napDepth → s.dev.napDepth ≤ 2 → (s.dev.mc.chan ch).queue = [] → s.dev.toleranceAbove 20 = true →
      Answers (.lightNapEnter ch) s (s.updChan ch fun c => { c with light := true })) ∧
    (s.dev.toleranceAbove 20 = false ∨ (s.dev.mc.chan ch).queue ≠ [] → Answers (.lightNapEnter ch) s s) ∧
    Answers (.lightNapExit ch) s (s.updChan ch fun c => { c with light := false }) ∧
    (s.dev.deepOk = true → s.dev.mc.deep = false → Answers .deepNapRequest s (s.updMc fun m => { m with topUp := true, acks := [] })) ∧
    (∀ h : Fin 8, s.dev.mc.topUp = true → s.dev.mc.acks.contains h.val = false → s.dev.headExposed h = true →
      let m := s.dev.master h
      let half : Fin 2 := if m = h then 0 else 1
      Answers (.headTopupAck h) s ((s.updHead m fun x => { x with layers := x.layers.map fun l =>
        { l with fill := put l.fill half (max (at' l.fill half) (x.fullFill s.dev.devtime l half.val)) } }).updMc fun m =>
          { m with acks := m.acks ++ [h.val] })) ∧
    (s.dev.mc.topUp = true → (∀ h, h < s.dev.nHeads → s.dev.mc.acks.contains h = true) →
      let u := fun b => s.updMc fun m => { m with topUp := false, acks := [], deep := b }
      (s.dev.deepOk = true → s.dev.toleranceAbove 1500 = true → Answers .deepNapEnter s (u true).losePasr) ∧
      (s.dev.deepOk = false ∨ s.dev.toleranceAbove 1500 = false → Answers .deepNapEnter s (u false))) ∧
    (s.dev.mc.deep = true → Answers .deepNapExit s
      (s.updMc fun m => { m with deep := false, chans := m.chans.map fun c => { c with light := false } })) ∧
    (s.dev.mc.deep = false → Answers .deepNapExit s s) ∧
    ∀ (h : Fin 8) (held : List (Nat × Nat)),
      (s.dev.headExposed h = false → Answers (.headTolReport h held) s s) ∧
      (s.dev.headExposed h = true →
        let m := s.dev.master h
        let half : Fin 2 := if m = h then 0 else 1
        let b := s.updHead m fun x => { x with layers := x.layers.map fun l => match Map.find held l.handle with
          | some n => { l with fill := put l.fill half (min n (6 * (x.layerCols l half.val).length * x.timing.lines)) }
          | none => l }
        let u := b.updMc fun c => { c with tol := put c.tol h (b.dev.tolerance h) }
        let v := if u.dev.toleranceAbove 20 then u else u.updMc fun m => { m with chans := m.chans.map fun c => { c with light := false } }
        Answers (.headTolReport h held) s (if v.dev.toleranceAbove 1500 then v else v.onDev Dev.leaveDeep))

end
section
open Sys2Proof Sys2Proof.Machine Sys2Proof.Claims

/-- Power commands (R313, R431-R433, R438, R440): each is accepted and held until the state, islands or point that it asks for is reached, then answers; a claim that a
power-off would break denies it; PWR_RESET answers and then resets. -/
def Sys2Proof.Claims.PowerCommandResults : Prop :=
  ∀ (o : Nat) (s : State) (j : Journal),
    let set := fun (u : State) (f : Power → Power) => u.onDev fun d => { d with power := f d.power }
    let settles := fun (c : Instr) (target : Nat) (st : PowerState) => Managed s o 0x50 j → j.arg 0 1 = target → j.arg 1 1 = 0 →
      (j.begun = false → Answers c s ((set s fun p => { p.queue (s.dev.gfxIslands.map fun i => (i, target == 1)) with
        pendState := some st, moult := false }).hold j)) ∧
      (j.begun = true → s.dev.power.pendState = none → (∀ i ∈ s.dev.gfxIslands, s.dev.islandSettled i = true) → Answers c s (s.answer j mbOk []))
    settles (.pwrStateRun o) 1 .run ∧ settles (.pwrStateDim o) 2 .dim ∧
    (Managed s o 0x51 j → Nat.land (j.arg 0 4) (j.arg 4 4) = 0 →
      let (on, off) := (maskIslands (j.arg 0 4), maskIslands (j.arg 4 4))
      (j.begun = true → (∀ i ∈ on ++ off, s.dev.islandSettled i = true) → Answers (.pwrIsland o) s (s.answer j mbOk [])) ∧
      (j.begun = false → (∀ i ∈ on ++ off, s.dev.islandExists i.val = true) → on.contains 0 = false → (∀ i ∈ off, s.dev.offRefused i.val = false) →
        (∀ c, s.dev.claimed o (off.map (·.val)) = some c → Answers (.pwrIsland o) s (s.denyPower j c)) ∧
        (s.dev.claimed o (off.map (·.val)) = none → Answers (.pwrIsland o) s ((set s fun p => p.queue ((allFin 32).filterMap fun i =>
          if on.contains i then some (i, true) else if off.contains i then some (i, false) else none)).hold j)))) ∧
    (Managed s o 0x52 j →
      (j.arg 0 1 = 0 → j.arg 1 1 ≤ 1 →
        (j.begun = true → s.dev.power.pendVc = none → Answers (.pwrOppoint o) s (s.answer j mbOk [])) ∧
        (j.begun = false → j.arg 1 1 = 1 → Answers (.pwrOppoint o) s ((set s fun p => { p with pendVc := some 1 }).hold j)) ∧
        (j.begun = false → j.arg 1 1 = 0 → (∃ h, s.dev.headOn h = true) → Answers (.pwrOppoint o) s (s.answer j mbBadState [])) ∧
        (j.begun = false → j.arg 1 1 = 0 → (∀ h, s.dev.headOn h = false ∧ (s.head h).armed = none) →
          Answers (.pwrOppoint o) s ((set s fun p => { p with pendVc := some 0 }).hold j))) ∧
      (j.arg 0 1 = 1 → j.arg 1 1 ≤ 4 →
        (j.begun = true → s.dev.power.pendVg = none → Answers (.pwrOppoint o) s (s.answer j mbOk [])) ∧
        (j.begun = false → Answers (.pwrOppoint o) s ((set s fun p => { p with pendVg := some (j.arg 1 1) }).hold j)))) ∧
    (Managed s o 0x53 j → j.arg 0 1 = 1 → Answers (.pwrReset o) s ((set s fun p => { p with resetDue := true }).answer j mbOk [])) ∧
    ∀ fails : Nat,
      (Managed s o 0x50 j → s.dev.power.state ≠ .leaving → j.arg 0 1 = 3 → j.arg 1 1 ≤ 1 → j.begun = false →
        (∀ p : Fin 64, (s.ply p).state = .absent) → s.dev.whorl.member = false → (j.arg 1 1 = 1 → ∀ i ∈ s.dev.gfxIslands, s.dev.island i = .good) →
        (s.dev.claimed o ((List.range 25).map (· + 1)) = none → Answers (.pwrStateWatch o fails) s
          ((set s fun p => { p with pendState := some .watch, moult := j.arg 1 1 == 1 }).hold j)) ∧
        ∀ c, s.dev.claimed o ((List.range 25).map (· + 1)) = some c → Answers (.pwrStateWatch o fails) s (s.denyPower j c)) ∧
      (Runs s → s.dev.power.state = .leaving → Answers (.pwrStateWatch o fails) s (s.goDown o fails))

/-- Islands, clocks and monitors (R419, R425-R427, R430, R431, R434, R436): a ramp-up starts with its inrush tokens and returns them at power-good; the clocks stop and
SLPCLK returns; a frequency counter starts, aborts and closes, on 0 of an unpowered domain; VAON's warning trips every haptic channel and is recorded when it ends. -/
def Sys2Proof.Claims.PowerEventResults : Prop :=
  ∀ s : State,
    let set := fun (u : State) (f : Power → Power) => u.onDev fun d => { d with power := f d.power }
    (∀ i rest, Runs s → s.dev.power.waits = i :: rest →
      (s.skein.take .inr (islandHolder i) (islandTokens i.val) = none → Answers .islandRampStart s s) ∧
      ∀ k, s.skein.take .inr (islandHolder i) (islandTokens i.val) = some k →
        Answers .islandRampStart s ((set { s with skein := k } fun p => { p with waits := rest }).setIsland i .ramping)) ∧
    (∀ (i : Fin 32) (fails : Nat), Runs s → s.dev.island i = .ramping →
      let u := (s.onSkein fun k => k.giveAll .inr (islandHolder i)).setIsland i .good
      let gs := u.dev.gfxIslands
      let v := if (gs.any fun g => u.dev.island g == .waiting || u.dev.island g == .ramping) then u
        else u.runDeferred ((gs.filter fun g => u.dev.island g == .good).map (·.val)) fails
      Answers (.islandPowerGood i fails) s (v.onDev Dev.settlePower)) ∧
    (s.dev.refclk = true → Answers .refclk0Loss s ({ s with dram := s.dram.lose fun _ => true }.onDev fun d => { d with refclk := false })) ∧
    (s.dev.refclk = false → Answers .refclk0Loss s s) ∧
    Answers .slpclkLoss s (s.onDev fun d => { d with slpclk := false }) ∧ Answers .slpclkReturn s (s.onDev fun d => { d with slpclk := true }) ∧
    (∀ (q n : Fin 4) (v : Word), Runs s → s.dev.isManager q = true →
      let fixed := fun c : Fcnt => { c with gate := clampNat 8 24 (fld v.toNat 28 24), ref := fld v.toNat 21 16, meas := fld v.toNat 13 8 }
      let write := fun c : Fcnt => if c.start then { c with start := bit v.toNat 31 }
        else if bit v.toNat 31 then { fixed c with start := true, done := false, sat := false, count := 0 } else fixed c
      Answers (.fcntStart q n v) s (set s fun p => { p with fcnt := upd p.fcnt n write })) ∧
    (∀ (n : Fin 4) (edges : Nat), Runs s →
      let close := fun c : Fcnt => if c.start && !c.done && s.dev.domainRuns c.ref then
        let k := if s.dev.domainOn c.meas then edges else 0
        { c with done := true, sat := decide (2 ^ 32 ≤ k), count := min 0xFFFFFFFF k } else c
      Answers (.fcntDone n edges) s (set s fun p => { p with fcnt := upd p.fcnt n close })) ∧
    (∀ (temps : Vector (BitVec 16) 8) (vaon : Nat), Runs s →
      let c := s.dev.reg 0x1B054
      let warn : Int := 16 * (fld c 23 16 : Nat)
      let one := fun (u : State) (k : Fin 8) =>
        let (t, x) := ((at' temps k).toInt, at' u.dev.power.sensors k)
        let fire := x.armed && decide (warn ≤ t)
        if !u.dev.sensorOn k.val then set u fun p => { p with sensors := put p.sensors k { x with valid := false } }
        else
          let y : Sensor := { valid := true, temp := t, armed := if fire then false else x.armed || decide (t < warn - 16 * (fld c 11 8 : Nat)) }
          let v := set u fun p => { p with sensors := put p.sensors k y }
          if fire then v.postManager 0x40 0x0E01 k.val (dataBytes [(16, 2, unsigned 16 t)]) else v
      Answers (.tempSample temps vaon) s (([0, 1, 2, 3, 4, 5, 6, 7] : List (Fin 8)).foldl one (set s fun p => { p with vaonNow := min 1023 vaon }))) ∧
    (s.dev.power.vaonOk = true →
      (s.dev.power.vaonWarn = false → Answers .vaonWarnStart s
        (let u := set s fun p => { p with vaonWarn := true }
         if u.dev.alive then ([0, 1, 2, 3, 4, 5, 6, 7] : List (Fin 8)).foldl (fun u c => u.hapTrip c 5) u else u)) ∧
      (s.dev.power.vaonWarn = true → Answers .vaonWarnStart s s ∧ ∀ low cycles : Nat,
        let u := s.onDev fun d => { d with power := { d.power with vaonWarn := false }, haptics := { d.haptics with warnEnd := d.devtime } }
        (s.dev.slpclk = false → Answers (.vaonWarnEnd low cycles) s u) ∧
        (s.dev.slpclk = true →
          let v := (set u fun p => { p with dipMin := min 1023 low, dipCycles := min 0xFFFFFFFF cycles }).cocoon 0x1001 sevWarning 0x40
            (bytesOf 2 low ++ bytesOf 2 0 ++ bytesOf 4 cycles)
          Answers (.vaonWarnEnd low cycles) s
            (if v.dev.alive then v.postManager 0x40 0x0E00 0 (dataBytes [(16, 2, low), (20, 4, min 0xFFFFFFFF cycles)]) else v))))

/-- The Cocoon recorder (R454-R461): tokens refill each second; the oldest record goes to the next slot, a failed read-back leaving it torn and the record waiting; a
sector is erased ahead; CCN_INFO and CCN_READ answer the manager and the auditors, CCN_FREEZE and CCN_THAW the manager; a freeze ends by itself. -/
def Sys2Proof.Claims.CocoonResults : Prop :=
  ∀ s : State,
    let set := fun (u : State) (f : Ccn → Ccn) => u.onDev fun d => { d with ccn := f d.ccn }
    (s.dev.slpclk = true → Answers .cocoonRefill s (set s fun c => { c with buckets := c.buckets.map fun b =>
      { b with tokens := min s.dev.ccnBurst (b.tokens + s.dev.ccnRefill) } })) ∧
    (Runs s → s.dev.ccnWrites = true → ∀ r rest, s.dev.ccn.buffer = r :: rest →
      Answers (.cocoonSlotWrite true) s (set s fun c => { c.advance with
        buffer := rest, log := Map.ins c.log c.next r, refill := c.refill && !rest.isEmpty }).reportOverflow ∧
      Answers (.cocoonSlotWrite false) s (set s fun c => { c.advance with log := Map.ins c.log c.next (r.take 31 ++ [0xFF]) })) ∧
    (Runs s → s.dev.ccnWrites = true → Answers .cocoonSectorErase s
      (set s fun c => { c with log := c.log.filter fun e => e.1 / 2048 != (s.dev.ccn.next / 2048 + 1) % 128 })) ∧
    (Runs s → Answers .ccnFreezeTimeout s (set s Ccn.thaw) ∧ ∀ q,
      Answers (.ccnOpsecLoRead ⟨q, false⟩) s
        ((s.updPort q fun pt => { pt with latch := Map.ins pt.latch 0x1E00C (word (s.dev.ccn.opsec / 2 ^ 32)) }).emit
          (.regValue q 0x1E008 (word s.dev.ccn.opsec))) ∧
      Answers (.ccnOpsecLoRead ⟨q, true⟩) s
        ((s.updPort q fun pt => { pt with latch := Map.del pt.latch 0x1E00C }).emit
          (.regValue q 0x1E00C (word (s.readLatched q 0x1E00C (s.dev.ccn.opsec / 2 ^ 32)))))) ∧
    ∀ (o : Nat) (j : Journal),
      (Managed s o 0x61 j → s.dev.ccn.frozen = false → s.dev.ccn.refill = false →
        Answers (.ccnFreeze o) s ((set s fun c => { c with frozen := true }).answer j mbOk [])) ∧
      (Managed s o 0x62 j → Answers (.ccnThaw o) s ((set s Ccn.thaw).answer j mbOk [])) ∧
      (Runs s → s.command o 0x60 = some j → j.wellFormed = true →
        (s.dev.auditor j.port = false → Answers (.ccnInfo o) s (s.answer j mbNotPermitted [])) ∧
        (s.dev.auditor j.port = true → let c := s.dev.ccn
          Answers (.ccnInfo o) s (s.answer j mbOk (bytesOf 4 c.next ++ bytesOf 4 c.lap ++ bytesOf 1 c.buffer.length ++ bytesOf 1 (bit1 c.frozen) ++
            [0, 0] ++ bytesOf 4 c.overflow)))) ∧
      (Runs s → s.command o 0x63 = some j → j.wellFormed = true → s.dev.auditor j.port = true → 1 ≤ j.arg 5 4 → j.arg 5 4 ≤ 2048 →
        let (first, n) := (j.arg 1 4, j.arg 5 4)
        let sends := fun slots : List (List Byte) => (s.onDev fun d => d.postWrite j.port (j.arg 9 8) slots.flatten).answer j mbOk
          (bytesOf 4 slots.length)
        (j.arg 0 1 = 0 → first < 262144 → Answers (.ccnRead o) s (sends ((List.range n).map fun i => s.dev.ccn.slot (first + i)))) ∧
        (j.arg 0 1 = 1 → first < 128 → Answers (.ccnRead o) s (sends ((s.dev.ccn.buffer.drop first).take n))))

/-- The running self-test and the operating seconds (R451-R453, R459): a unit's slice counts once an epoch, a memory controller's only in the window
of R271, and fails its unit; a unit late at 2 s starts a new pass; every
600th operating second persists the counters. -/
def Sys2Proof.Claims.SelfTestResults : Prop :=
  ∀ s : State, Runs s →
    (∀ (u : Nat) (fail : Bool), runUnits.contains u = true → s.dev.unitSkipped u = false → s.dev.bist.thisEpoch.contains u = false →
      (s.dev.power.state = .run ∨ s.dev.power.state = .dim) → (u = 0x20 → s.dev.ely.state = .running) → s.dev.sliceWindow u = true →
      let v := s.onDev fun d => { d with bist := { d.bist with
        slices := Map.ins d.bist.slices u (min (slicesPerPass u) (d.unitDone u + 1)), thisEpoch := d.bist.thisEpoch ++ [u] } }
      let breach := if u = 0x31 ∧ s.dev.unitDone u = 0 then firstBreach s.skein.accts else none
      Answers (.selftestSlice u fail) s ((if fail = true ∨ breach.isSome = true then v.sliceFails u breach else v).onDev Dev.endPass)) ∧
    (∀ (u : Nat) (fail : Bool), s.dev.unitSkipped u = true → Answers (.selftestSlice u fail) s s ∧ Answers (.selftestPassLate u) s s) ∧
    (∀ u : Nat, runUnits.contains u = true → s.dev.unitPassed u = false → Answers (.selftestPassLate u) s
      ((s.onDev fun d => { d with bist := { d.bist with late := true, slices := Map.ins d.bist.slices u 0 } }).selftestFail u 2)) ∧
    (s.dev.power.state = .run ∨ s.dev.power.state = .dim → s.dev.slpclk = true →
      let v := s.onDev fun d => { d with ccn := { d.ccn with opsec := (d.ccn.opsec + 1) % 2 ^ 40, sinceCnt := d.ccn.sinceCnt + 1 } }
      Answers .opsecSecond s (if 600 ≤ v.dev.ccn.sinceCnt then v.onDev Dev.persistCounters else v))

end
namespace Sys2Proof.Claims
open Sys2Proof Sys2Proof.Machine

/-- The audio block works: the clocked part runs and its island is up (R382, R431). -/
def Sounds (s : State) : Prop := Runs s ∧ s.dev.islandOn 22 = true

end Sys2Proof.Claims

section
open Sys2Proof Sys2Proof.Machine Sys2Proof.Claims

/-- Streams (R368-R370): AUD_OPEN opens a stream on inputs that the policy grants and no other stream holds; AUD_BUFFER queues a host buffer of whole frames and reads it when
it is first in its queue; a buffer whose requests are all out adds its frames and completes; AUD_OPEN with CLOSE starts the ramp to silence. -/
def Sys2Proof.Claims.StreamResults : Prop :=
  ∀ (p : Fin 64) (r : Fin 4) (s : State), Sounds s →
    (∀ f, s.ready p r 0x40 = some f → bit (byteAt f.bytes 33) 0 = false →
      let b := f.bytes
      let x : Stream := { ply := p, handle := byteAt b 32 % 16, chans := byteAt b 34, fmt := byteAt b 35, rate := le32 b 36, first := byteAt b 40 % 64,
                          started := false, frames := [], part := 0, bufs := [], last := false, closing := false, fade := none, closer := none }
      let ends := fun (u : State) st => Answers (.audOpen p r) s (u.finishDesc p r f.order st [])
      ((x.inputs.any fun i => !(s.dev.entry p).inputs.contains i) = true → ends s 0x05) ∧
      ((∀ i ∈ x.inputs, (s.dev.entry p).inputs.contains i = true) →
        ((s.dev.audio.stream p x.handle).isSome = true ∨ 64 < x.first + x.chans → ends s 0x02) ∧
        (s.dev.audio.stream p x.handle = none → x.first + x.chans ≤ 64 →
          ((x.inputs.any fun i => s.dev.heldInputs.contains i) = true → ends s 0x10) ∧
          ((x.inputs.any fun i => s.dev.heldInputs.contains i) = false → ends (s.updAudio fun a => { a with streams := a.streams ++ [x] }) 0)))) ∧
    (∀ f x, s.ready p r 0x40 = some f → bit (byteAt f.bytes 33) 0 = true → s.dev.audio.stream p (byteAt f.bytes 32 % 16) = some x →
      (x.closer.isSome = true → Answers (.audClose p r) s (s.finishDesc p r f.order 0x02 [])) ∧
      (x.closer = none → Answers (.audClose p r) s ((s.dispatch p r f.order 0).updStream p (byteAt f.bytes 32 % 16) fun x =>
        { x with closing := true, closer := some (r, f.order) }))) ∧
    (∀ f x, s.ready p r 0x41 = some f → s.dev.audio.stream p (byteAt f.bytes 32 % 16) = some x →
      let h := byteAt f.bytes 32 % 16
      (le32 f.bytes 48 % (x.chans * streamBytes x.fmt) ≠ 0 → Answers (.audBuffer p r) s (s.finishDesc p r f.order 0x02 [])) ∧
      (le32 f.bytes 48 % (x.chans * streamBytes x.fmt) = 0 →
        let b : StreamBuf := { ring := r, order := f.order, addr := le64 f.bytes 40, len := le32 f.bytes 48, last := bit (byteAt f.bytes 33) 0 }
        let u := (s.dispatch p r f.order 0).updStream p h fun x => { x with bufs := x.bufs ++ [b] }
        Answers (.audBuffer p r) s (if x.bufs = [] then u.readAudio p h else u))) ∧
    ∀ (h : Nat) (bytes : List Byte) (x : Stream) (b : StreamBuf) (rest : List StreamBuf), s.dev.audio.stream p h = some x → x.bufs = b :: rest →
      s.dev.readOut (.audio p h) = true ∨ (b.len = 0 ∧ s.intake p = true) →
      let v := (s.endReads (.audio p h)).updStream p h fun x =>
        { x with bufs := rest, frames := x.frames ++ x.decode (fitBytes b.len bytes), last := b.last }
      Answers (.audBufferReadDone p h bytes) s ((v.finishDesc p b.ring b.order 0 (bytesOf 4 b.len)).readAudio p h)

/-- Audio registers and locks (R366, R372, R374, R381): the selected crosspoint's target waits for the boundary and the selector may move on; a coefficient of an
unlocked output is set, from the next sample on (R30); AUD_LOCK sets and locks every named output or none; a TDM port's bit clock is lost and returns. -/
def Sys2Proof.Claims.AudioControlResults : Prop :=
  ∀ (q : Fin 4) (s : State), Sounds s →
    (∀ v : Word, s.dev.isManager q = true →
      let sel := s.dev.reg 0x18004
      let (i, o) := (fld sel 21 16, fld sel 12 8)
      let t := clampNat 1 1000 (fld v.toNat 25 16) * 2 ^ 16 + fld v.toNat 15 0
      let u := s.updAudio fun a => { a with xset := Map.ins a.xset (i * 32 + o) (word t),
                                            xpend := if a.xpend.contains (i * 32 + o) then a.xpend else a.xpend ++ [i * 32 + o] }
      (bit sel 0 = false → Answers (.audMixDataWrite q v) s u) ∧
      (bit sel 0 = true → Answers (.audMixDataWrite q v) s
        (u.onDev fun d => d.setReg 0x18004 ((if o = 31 then (i + 1) % 64 else i) * 2 ^ 16 + (o + 1) % 32 * 2 ^ 8 + 1)))) ∧
    (∀ v : Word, s.dev.isManager q = false → Answers (.audMixDataWrite q v) s s ∧ Answers (.audEqDataWrite q v) s s) ∧
    (∀ v : Word, s.dev.isManager q = true →
      let sel := s.dev.reg 0x1800C
      (bit s.dev.audio.lockOut (fld sel 12 8) = true → Answers (.audEqDataWrite q v) s s) ∧
      (fld sel 2 0 ≤ 4 → bit s.dev.audio.lockOut (fld sel 12 8) = false → Answers (.audEqDataWrite q v) s
        (s.audioCatchUp.updAudio fun a => { a with eq := Map.ins a.eq (fld sel 12 8 * 64 + fld sel 6 4 * 8 + fld sel 2 0) v }))) ∧
    (∀ (o : Nat) (j : Journal) (pol : Policy), Managed s o 0x80 j → s.dev.policy = some pol →
      let named := (allFin 32).filter fun k => bit (j.arg 0 4) k.val
      ((named.any fun k => (at' pol.audio k).isNone) = true → Answers (.audLock o) s (s.answer j mbBadArg [])) ∧
      ((named.any fun k => (at' pol.audio k).isNone) = false →
        let u := named.foldl (fun (u : State) k => match at' pol.audio k with | some x => u.onDev (·.lockOutput k x) | none => u) s.audioCatchUp
        Answers (.audLock o) s (u.answer j mbOk (bytesOf 4 u.dev.audio.lockOut)))) ∧
    (∀ p : Fin 4,
      let lost := fun b => s.updAudio fun a => { a with tdm := upd a.tdm p fun t => { t with clkLost := b } }
      Answers (.tdmBclkReturn p) s (lost false) ∧
      (bit (s.dev.active (0x18020 + 8 * p.val)) 31 = true → bit (s.dev.active (0x18020 + 8 * p.val)) 30 = false → Answers (.tdmClkLost p) s (lost true)))

/-- Chimes (R377, R378, R380): a CHIME of a granted waveform and outputs takes a voice, its ply's reserved ones first, or completes NO_RESOURCES; CHIME_STOP ends the ply's
voices of the waveform; a binding sounds voice 15 from the start; a voice that is over is free and its CHIME completes. -/
def Sys2Proof.Claims.ChimeResults : Prop :=
  ∀ (p : Fin 64) (r : Fin 4) (s : State), Sounds s →
    (∀ f, s.ready p r 0x42 = some f → bit (byteAt f.bytes 33) 0 = false →
      let w : Fin 16 := ⟨byteAt f.bytes 32 % 16, by omega⟩
      let e := s.dev.entry p
      let (mask, n) := (le32 f.bytes 36, le16 f.bytes 34)
      (bit e.waves w.val = false ∨ Nat.land mask e.outputs ≠ mask → Answers (.chime p r) s (s.finishDesc p r f.order 0x05 [])) ∧
      (bit e.waves w.val = true → Nat.land mask e.outputs = mask →
        (s.dev.findVoice p = none → Answers (.chime p r) s (s.finishDesc p r f.order 0x10 [])) ∧
        ∀ v, s.dev.findVoice p = some v → Answers (.chime p r) s ((s.dispatch p r f.order 0).setVoice v (some
          { ply := some p, classA := (s.ply p).cls == .a, wave := w, mask := mask, gain := le16 f.bytes 40, left := if n = 0 then none else some n,
            pos := 0, desc := some (r, f.order), sounds := false, stop := false, ended := false, closing := false, fade := none, hold := false })))) ∧
    (∀ f, s.ready p r 0x42 = some f → bit (byteAt f.bytes 33) 0 = true →
      let halt := fun (x : Playing) => if x.ply = some p ∧ x.wave.val = byteAt f.bytes 32 % 16 then { x with stop := true } else x
      Answers (.chimeStop p r) s ((s.updAudio fun a => { a with voices := a.voices.map fun v => v.map halt }).finishDesc p r f.order 0 [])) ∧
    (∀ (i : Nat) (pol : Policy) (b : ChimeBind), s.dev.policy = some pol → pol.binds[i]? = some b →
      (∃ x y, b.src = .edge x y) ∨ s.dev.audio.due.contains i = true → Answers (.chimeTrigger i) s ((s.updAudio fun a => { a with due := a.due.erase i }).setVoice 15
        (some { ply := none, classA := true, wave := b.wave, mask := b.mask, gain := b.gain, left := some 1, pos := 0, desc := none, sounds := false,
                stop := false, ended := false, closing := false, fade := none, hold := false }))) ∧
    ∀ (v : Fin 16) (x : Playing), at' s.dev.audio.voices v = some x →
      (x.ended = false → Answers (.chimeVoiceEnd v) s s) ∧
      (x.ended = true → x.ply = none → Answers (.chimeVoiceEnd v) s (s.setVoice v none)) ∧
      ∀ a b c, x.ended = true → x.ply = some a → x.desc = some (b, c) →
        ((s.ply a).state = .active → Answers (.chimeVoiceEnd v) s ((s.setVoice v none).finishDesc a b c 0 [])) ∧
        ∀ f, (s.ply a).state ≠ .active → (s.ring a b).queue.find? (·.order == c) = some f →
          Answers (.chimeVoiceEnd v) s ((s.setVoice v none).discard a b f)

end
section
open Sys2Proof Sys2Proof.Machine Sys2Proof.Claims

/-- Membership of the ring (R345-R350): a loop-trained port links when JOIN names it; JOIN completes with its outcome; LEAVE stops idle channels, then tells both neighbours
and drops every port and its keys; a membership message changes the members, a port newly trained takes fresh keys, and an ID in use is refused. -/
def Sys2Proof.Claims.RingMembershipResults : Prop :=
  ∀ s : State, Runs s →
    (∀ (q : Fin 2) (rate : Fin 4), s.dev.ringOn q = true → (s.ringPort q).state = .off → rate.val ≠ 0 →
      Answers (.whlLoopTrained q rate) s (s.updRingPort q fun p => { p with state := .loop, rate := rate.val })) ∧
    (∀ (o : Nat) (j : Journal) (out : Option JoinOutcome), Managed s o 0x70 j →
      let (mask, id) := (j.arg 0 1, j.arg 1 1)
      (j.begun = false → 1 ≤ mask → mask ≤ 3 → id ≤ 15 → s.dev.pkgW = true → s.dev.whorl.member = false →
        (∀ q ∈ ringPorts mask, (s.ringPort q).state = .loop) → Answers (.whlJoin o out) s (((ringPorts mask).foldl (fun u q =>
          u.updRingPort q fun p => { p with state := .linking, pin := true, rate := 0 }) s).hold j)) ∧
      (j.begun = true → out = none → Answers (.whlJoin o out) s s) ∧
      ∀ x, j.begun = true → out = some x →
        ((∃ q ∈ ringPorts mask, at' x.rates q = none) → Answers (.whlJoin o out) s (s.failJoin j mask 0x1A)) ∧
        ((∀ q ∈ ringPorts mask, (at' x.rates q).isSome = true) →
          ((x.attested && s.dev.neighboursOk x.measures) = false → Answers (.whlJoin o out) s (s.failJoin j mask mbNotAttested)) ∧
          ((x.attested && s.dev.neighboursOk x.measures) = true → x.taken = true → Answers (.whlJoin o out) s (s.failJoin j mask 0x19)) ∧
          ((x.attested && s.dev.neighboursOk x.measures) = true → x.taken = false → Answers (.whlJoin o out) s (s.completeJoin j mask id x)))) ∧
    (∀ (o : Nat) (j : Journal), Managed s o 0x71 j →
      (s.dev.pkgW = false → Answers (.whlLeave o) s (s.answer j mbNoUnit [])) ∧
      (s.dev.pkgW = true → s.dev.whorl.member = false → Answers (.whlLeave o) s (s.answer j mbBadState [])) ∧
      (s.dev.pkgW = true → s.dev.whorl.member = true → ∃ t u : State, Answers (.whlLeave o) s t ∧
        (s.dev.whorl.chans.all (fun c => c.busy.isNone) = true → t = u.answer j mbOk [] ∧ u.dev.whorl.member = false ∧ u.dev.whorl.chans = [] ∧
          (∀ q : Fin 2, (u.ringPort q).state = .off ∧ (u.ringPort q).pin = false ∧ (u.ringPort q).key = 0 ∧ (u.ringPort q).standby = 0)) ∧
        (s.dev.whorl.chans.all (fun c => c.busy.isNone) = false → t = u.hold j ∧ u.dev.whorl.member = true ∧
          u.dev.whorl.chans = s.dev.whorl.chans.filter (fun c => c.busy.isSome)))) ∧
    (∀ (q : Fin 2) (id maxTime : Nat) (rates : Vector (Option Nat) 2) (reach : Vector (List Nat) 2) (closed : Bool), s.dev.whorl.member = true →
      let u := s.updWhorl fun w => { w with reach := reach, closed := closed }
      let linked := (allFin 2).filter fun q => (at' rates q).isSome && (u.ringPort q).state != .off
      let trained := u.each linked fun u q =>
        (u.updRingPort q fun p => { p with state := .joined, rate := min 3 ((at' rates q).getD 0), nb := (at' reach q).head? }).linkKeys q
      (id = s.dev.whorl.ringId → Answers (.whlAnnounce q (.join id rates reach closed maxTime)) s (s.emit (.whorl q "ring ID in use" id))) ∧
      (id ≠ s.dev.whorl.ringId → Answers (.whlAnnounce q (.join id rates reach closed maxTime)) s
        (((trained.whorlRepair q.val 0x3 id 0).elect true).takeRingTime maxTime)) ∧
      Answers (.whlAnnounce q (.leave id reach closed)) s
        (((u.whorlRepair q.val 0x4 id 0).closeChans (fun c => c.peer == id) true).elect true))

/-- Ring time, repair and the loop test (R351, R352, R359-R362): a mark is corrected for its link's delay, half its round trip, and passed on; a member whose offset exceeds 20 ns x hops + 100 ns is no longer
timed; a link that loses lock is DOWN until its repair ends at the next member or leaves an open chain; a probe goes out with a fresh nonce and its return completes the
command. -/
def Sys2Proof.Claims.RingServiceResults : Prop :=
  ∀ (q : Fin 2) (s : State), Runs s →
    let w := s.dev.whorl
    ((s.ringPort q).state = .joined →
      (∀ n, Answers (.whlDelayMeasure q n) s (s.updRingPort q fun p => { p with delay := n / 2 })) ∧
      (∀ time, w.member = true → w.isMaster = false →
        let t := time + (s.ringPort q).delay
        let u := s.updWhorl fun w => { w with mark := (s.dev.devtime : Int) - t }
        let v := s.updWhorl fun w => { w with mark := (s.dev.devtime : Int) - t, timed := true }
        Answers (.whlTimeMark q time (some s.dev.devtime)) s (if (s.ringPort (1 - q)).state = .joined then v.emit (.whorl (1 - q) "time mark" t) else v) ∧
        Answers (.whlTimeMark q time none) s (if (s.ringPort (1 - q)).state = .joined then u.emit (.whorl (1 - q) "time mark" t) else u)) ∧
      (w.member = true → Answers (.whlLinkLoss q) s (((s.updRingPort q fun p => { p with state := .down, rate := 0, nb := none, key := 0 }).endProbe fun p => p == q).updWhorl
        fun w => { w with chans := w.chans.map fun c => if c.port = q then { c with busy := none, row := 0, got := [] } else c })) ∧
      (∀ nonce, w.member = true → Answers (.whlProbeReceived q nonce) s
        ((s.emit (.whorl q "probe return" nonce)).emit (.whorl q "ring ID" w.ringId)))) ∧
    (w.member = true → w.isMaster = false →
      let u := s.updWhorl fun x => { x with offset := clampInt (-32768) 32767 w.mark }
      (w.timed = true → 20 * w.hops + 100 < w.mark.natAbs → Answers .whlOffsetCheck s
        ((u.updWhorl fun x => { x with timed := false, locked := Vector.replicate 8 false, relock := x.locked }).whorlRepair 0xFF 0x9 w.ringId 0)) ∧
      (w.timed = false ∨ w.mark.natAbs ≤ 20 * w.hops + 100 → Answers .whlOffsetCheck s u)) ∧
    (w.member = true → w.isMaster = true → Answers .whlOffsetCheck s
      ((([0, 1] : List (Fin 2)).filter fun q => (s.ringPort q).state == .joined).foldl (fun u q => u.emit (.whorl q "time mark" s.dev.devtime))
        (s.updWhorl fun x => { x with offset := 0 }))) ∧
    (∀ (link : Option (Nat × Nat)) (gone : Fin 3), w.member = true → (s.ringPort q).state = .down →
      (at' w.reach q = [] → Answers (.whlRepairDone q link gone) s s) ∧
      (at' w.reach q ≠ [] →
      let n := max 1 gone.val
      let lost := (at' w.reach q).take n
      let keep := fun (l : List Nat) => l.filter fun i => !lost.contains i
      let report := fun (u : State) kind => ((u.whorlRepair q.val kind (lost.headD 0) 0).closeChans (fun c => lost.contains c.peer) true).elect true
      (∀ rate far, link = some (rate, far) → (at' w.reach q)[n]? = some far → Answers (.whlRepairDone q link gone) s
        (report
          (let u := ((s.updRingPort q fun p => { p with state := .joined, rate := min 3 rate, nb := some far, repairs := min 1023 (p.repairs + 1) }).updWhorl
            fun w => { w with reach := w.reach.map keep }).linkKeys q
          if n = 1 then u.updRingPort q fun p => { p with key := (s.ringPort q).standby } else u) 0x1)) ∧
      ((∀ rate far, link = some (rate, far) → (at' w.reach q)[n]? ≠ some far) → Answers (.whlRepairDone q link gone) s
        (report (s.updWhorl fun w => { w with reach := put (w.reach.map keep) q [], closed := false }) 0x2)))) ∧
    (∀ (o : Nat) (j : Journal), Managed s o 0x74 j → j.begun = false → s.dev.pkgW = true → fin? 2 (j.arg 0 1) = some q → j.arg 1 1 ≤ 15 → w.member = true →
      (s.ringPort q).state = .joined → Answers (.whlLoopTest o) s
        (((s.emit (.whorl q "probe" (Config.freeWord s.dev.fresh).toNat)).tick.updWhorl fun w => { w with probe := some (o, q) }).hold j)) ∧
    ∀ (o far delay : Nat) (j : Journal), w.probe = some (o, q) → s.command o 0x74 = some j → Answers (.whlProbeReturn q far delay) s
      ((s.updWhorl fun w => { w with probe := none }).answer j mbOk (bytesOf 1 far ++ [0] ++ bytesOf 2 (min 65535 delay)))

/-- Remote layers (R356-R358): a channel opens where ply, memory, port and payload allow; a sender starts on SRC's newest value and at the frame's last byte signals DONE; a
frame received whole is written and DST signalled, or dropped where a layer uses its buffer; the channel closes. -/
def Sys2Proof.Claims.RemoteLayerResults : Prop :=
  ∀ s : State, Runs s →
    (∀ (o : Nat) (j : Journal) (c : Channel) (peerOpen : Bool) (transit : Nat × Nat) (free : Bool), Managed s o 0x72 j → s.dev.pkgW = true →
      channelArgs j = some c → (s.dev.entry c.ply).ringPaths.contains (c.port.val, c.sender) = true → (s.ply c.ply).state ≠ .absent →
      (∀ a ∈ c.bufs.toList, s.dev.ownsRange c.ply a c.span (!c.sender) = true) → s.dev.whorl.member = true →
      s.dev.whorl.chans.any (·.id == c.id) = false → (s.ringPort c.port).state = .joined →
      let same := s.dev.whorl.chans.filter fun e => e.port == c.port && e.sender == c.sender
      (c.sender = true → peerOpen = true ∧ free = true ∧ same.length + transit.1 < 2 ∧
        (same.map (·.rate)).sum + transit.2 + c.rate ≤ ringPayload (s.ringPort c.port).rate) →
      Answers (.whlChanOpen o peerOpen transit free) s ((s.updWhorl fun w => { w with chans := w.chans ++ [c] }).answer j mbOk (bytesOf 1 1))) ∧
    (∀ (o : Nat) (j : Journal), Managed s o 0x73 j → s.dev.pkgW = true → j.arg 0 1 ≤ 63 → s.dev.whorl.chans.any (·.id == j.arg 0 1) = true →
      Answers (.whlChanClose o) s ((s.updWhorl fun w => { w with chans := w.chans.filter fun c => !(c.id == j.arg 0 1) }).answer j mbOk [])) ∧
    (∀ (id : Nat) (c : Channel), s.dev.whorl.chans.find? (fun c => c.id == id && c.sender) = some c →
      let v := (s.ply c.ply).fence c.fence
      (c.busy = none → c.last < v → (s.ringPort c.port).state = .joined → (s.ply c.ply).state = .active →
        Answers (.whlSendStart id) s (s.updChannel id fun c => { c with busy := some v, row := 0, got := [] })) ∧
      (v ≤ c.last → Answers (.whlSendStart id) s s) ∧
      ∀ v, c.busy = some v →
        (∀ u, State.sendRows c v ((List.range c.h).drop c.row) s = (u, false) → Answers (.whlSendDone id) s u) ∧
        ∀ u, State.sendRows c v ((List.range c.h).drop c.row) s = (u, true) → Answers (.whlSendDone id) s
          ((((u.each (u.dev.whorl.chans.filter fun c => c.id == id && c.sender) fun (u : State) (c : Channel) =>
            u.emit (.whorlFrame c.port id v c.got)).dropFrame id).updChannel id fun c => { c with last := v }).signal c.ply c.done v)) ∧
    ∀ (id : Nat) (v : DWord) (bytes : List Byte) (c : Channel), s.dev.whorl.chans.find? (fun c => c.id == id && !c.sender) = some c →
      let used := s.dev.layersRead c.ply (c.buf v) c.span = true ∨ (s.ply c.ply).state ≠ .active
      let begin := s.tick.updChannel id fun c => { c with busy := some v }
      let written := State.receiveRows c v (c.memRow bytes s.dev.fresh) ((List.range c.h).drop c.row) begin
      (c.busy = none → used → Answers (.whlReceiveDone id v bytes) s (s.updRingPort c.port fun p => { p with drops := min 1023 (p.drops + 1) })) ∧
      ((c.busy = none ∧ ¬ used ∨ c.busy = some v) → ∀ u : State,
        (written = (u, false) → Answers (.whlReceiveDone id v bytes) s u) ∧
        (written = (u, true) → Answers (.whlReceiveDone id v bytes) s ((u.dropFrame id).signal c.ply c.fence v)))

end
namespace Sys2Proof.Claims
open Sys2Proof Sys2Proof.Machine

/-- The touch and haptic front ends work: the clocked part runs and their island is up (R386, R431). -/
def Senses (s : State) : Prop := Runs s ∧ s.dev.islandOn 23 = true

/-- A configuration is in force at the start of a panel's next scan (R387). -/
def comes (x : Panel) (b : List Byte) : Prop := x.next = some b ∨ x.next = none ∧ x.cfg = some b

/-- The nodes after a scan that is no recapture, before any drift (R393, R394). -/
def scanned (x : Panel) (b : List Byte) (raw : List Nat) : List Node :=
  (x.nodes.zip raw).map fun e => e.1.scan (x.thr (le16 b 24) b) (x.thr (le16 b 26) b) e.2

end Sys2Proof.Claims

section
open Sys2Proof Sys2Proof.Machine Sys2Proof.Claims

/-- Touch scans (R387-R401): a TCH_CONFIG's block waits for the panel's next scan; a scan starts with the block in force, the passes of its mode and their period; its results wait
while the class A panel's are there, then form the contacts of its touched nodes, reported to an ACTIVE owner; a contact held for 30 s raises PERSISTENT_TOUCH. -/
def Sys2Proof.Claims.TouchScanResults : Prop :=
  ∀ (n : Fin 4) (s : State), Senses s →
    (∀ (p : Fin 64) (r : Fin 4) (f : InFlight), s.ready p r 0x60 = some f →
      Answers (.tchConfig p r) s ((s.updPanel f.tchPanel fun x => { x with next := some f.block }).finishDesc p r f.order 0 [])) ∧
    (let h := s.heldScans
     ∀ b, h.dev.panelValid n = true → (h.panel n).scan = none → h.dev.touch.running = none → comes (h.panel n) b →
      ∃ t : State, Answers (.touchScanStart n) s t ∧ (t.panel n).next = none ∧
        (tcFlag b 0 = false → (t.panel n).scan = none ∧ (t.panel n).scanning = false) ∧
        (tcFlag b 0 = true → (t.panel n).cfg = some b ∧ (t.panel n).scanning = true ∧
          ∃ c : Scan, (t.panel n).scan = some c ∧ c.start = h.dev.devtime ∧ c.done = none ∧
            c.entries = (if (t.panel n).noise then (h.panel n).noiseEntries b else [(t.panel n).freq]) ∧
            (t.panel n).periodUs = max (1000000 / byteAt b 1)
              ((c.entries.map fun e => passTime (h.dev.drives n) ((t.panel n).integ b) (tcDiv b e.val)).sum / 96))) ∧
    (∀ passes : List TouchPass, s.dev.classAScanned n = true → Answers (.touchScanDone n passes) s
      (s.updPanel n fun x => { x with scan := x.scan.map fun c => { c with done := some passes } })) ∧
    (∀ passes : List TouchPass, s.dev.classAScanned n = false → Answers (.touchScanDone n passes) s (s.scanDone n passes).heldScans) ∧
    (∀ (passes : List TouchPass) (c : Scan) (b : List Byte), (s.panel n).scan = some c → (s.panel n).cfg = some b → passes.length = c.entries.length →
      let x := s.panel n
      let count := s.dev.drives n * s.dev.senses n
      let raw := scanRaw count passes
      c.recap = false → x.nodes.length = count → x.drift + 1 < byteAt b 34 →
      let nodes := scanned x b raw
      let cs := nextContacts c.start x.contacts (findPeaks b (s.dev.drives n) (s.dev.senses n) nodes (deltas nodes raw))
      ∃ y : Panel, y.scan = none ∧ y.nodes = nodes ∧ y.drift = x.drift + 1 ∧
        y.contacts = (cs.map fun (k : Contact) => { k with told := s.dev.panelReports n }) ∧
        s.scanDone n passes =
          (if s.dev.panelReports n then (s.updPanel n fun _ => y).report n b c.start x.contacts cs else s.updPanel n fun _ => y)) ∧
    ∀ (id : Nat) (c : Contact), (s.panel n).contacts.find? (·.id == id) = some c →
      (s.dev.devtime < c.persist → Answers (.persistentTouch n id) s s) ∧
      (c.persist ≤ s.dev.devtime →
        let u := s.updPanel n fun x =>
          { x with contacts := x.contacts.map fun e => if e.id = id then { e with persist := e.persist + 600000000000 } else e }
        Answers (.persistentTouch n id) s (u.postPly (u.dev.panelOwner n) (u.dev.panelOwner n).val 0x0C01 n.val
          (dataBytes [(16, 1, id), (20, 4, (u.dev.devtime - c.since) / 1000000000)])))

/-- Panel commands and the wake gesture (R395, R402-R405): RECAL, SELFTEST and REF_STORE act for the manager while no command runs, NO_PANEL without the panel,
refused as R402 says; a running command ends with its result; the wake scan runs in WATCH only and asserts WAKE_N on a gesture. -/
def Sys2Proof.Claims.TouchCommandResults : Prop :=
  ∀ (q n : Fin 4) (s : State),
    (Senses s →
      (s.dev.isManager q = false ∨ s.dev.touch.running.isSome = true →
        Answers (.recal q n) s s ∧ Answers (.selftest q n) s s ∧ Answers (.refStore q n) s s) ∧
      (s.dev.isManager q = true → s.dev.touch.running = none →
        let as := fun code => s.updTouch fun t => { t with lastCmd := code, result := 0 }
        let ends := fun code res => (as code).updTouch fun t => { t with result := res }
        let begins := fun code k => (as code).updTouch fun t => { t with running := some (k, n) }
        let shut := s.dev.panelClassA n && (s.dev.ply (s.dev.panelOwner n)).state == .active
        (s.dev.panelValid n = false →
          Answers (.recal q n) s (ends 1 3) ∧ Answers (.selftest q n) s (ends 2 3) ∧ Answers (.refStore q n) s (ends 3 3)) ∧
        (s.dev.panelValid n = true →
          Answers (.recal q n) s ((as 1).updPanel n fun x => { x with recap := true }) ∧
          (shut = true → Answers (.selftest q n) s (ends 2 1)) ∧
          (shut = false → Answers (.selftest q n) s ((begins 2 .selftest).updPanel n Panel.dropScan)) ∧
          ((s.panel n).contacts ≠ [] → Answers (.refStore q n) s (ends 3 2)) ∧
          ((s.panel n).contacts = [] → Answers (.refStore q n) s (begins 3 .refStore)))) ∧
      ∀ (m : TchMeasure) (ok : Bool),
        (s.dev.touch.running = none → Answers (.tchCmdDone m ok) s s) ∧
        (s.dev.touch.running = some (.selftest, n) →
          let fs := selfTestFaults (fld (s.dev.panelWord n 0) 21 16) (s.dev.drives n) (fld (s.dev.panelWord n 1) 22 16) (s.dev.senses n)
            (s.dev.startRef n .flash) m
          Answers (.tchCmdDone m ok) s (s.updTouch fun t =>
            { t with running := none, result := 0, nFaults := min 31 fs.length, faults := fs.take 16 })) ∧
        (s.dev.touch.running = some (.refStore, n) →
          (ok = false ∨ s.dev.ccn.flash = false → Answers (.tchCmdDone m ok) s (s.updTouch fun t => { t with running := none, result := 4 })) ∧
          (ok = true → s.dev.ccn.flash = true → Answers (.tchCmdDone m ok) s (s.updTouch fun t =>
            { t with running := none, result := 0, stored := put t.stored n (some
              { panel0 := word (s.dev.panelWord n 0), panel1 := word (s.dev.panelWord n 1), base := (s.panel n).nodes.map (·.base) }) })))) ∧
    ∀ xs ys : List Nat,
      (s.dev.power.state ≠ .watch ∨ s.dev.slpclk = false ∨ s.dev.power.vaonOk = false ∨ bit (s.dev.reg 0x19048) 31 = false ∨
        fld (s.dev.reg 0x19048) 27 26 = 0 ∨ s.dev.touch.blocked = true → Answers (.wakeScan xs ys) s s) ∧
      (s.dev.power.state = .watch → s.dev.slpclk = true → s.dev.power.vaonOk = true → bit (s.dev.reg 0x19048) 31 = true →
        fld (s.dev.reg 0x19048) 27 26 ≠ 0 → s.dev.touch.blocked = false →
        ∃ t : State, Answers (.wakeScan xs ys) s t ∧
          (t.dev.touch.trail ≠ [] → t.dev.power = s.dev.power ∧ t.dev.touch.woke = s.dev.touch.woke) ∧
          (t.dev.touch.trail = [] → t.dev.power = { s.dev.power with wakeN := true } ∧ t.dev.touch.woke = true ∧
            (t.dev.touch.wakeKind = 1 ∨ t.dev.touch.wakeKind = 2)))

/-- Haptic loads and triggers (R410, R411, R414): HAP_LOAD takes a record that R410's checks pass and its pool holds; HAP_PLAY and the bound edge of a pin reach the
channel for its next control tick, and a pin that finds its slot empty raises HAP_REFUSED. -/
def Sys2Proof.Claims.HapticTriggerResults : Prop :=
  ∀ (s : State), Senses s →
    (∀ (p : Fin 64) (r : Fin 4) (f : InFlight), s.ready p r 0x50 = some f →
      Answers (.hapPlay p r) s ((s.dispatch p r f.order 0).onDev fun d => d.hapArrive f.hapChan
        { src := .desc p r f.order, slot := f.hapSlot, prio := byteAt f.bytes 34 % 16, gain := le16 f.bytes 36 })) ∧
    (∀ (p : Fin 64) (r : Fin 4) (f : InFlight), s.ready p r 0x51 = some f →
      let c := f.hapChan
      (hapRecord f.block (le32 f.bytes 48) = none → Answers (.hapLoad p r) s (s.finishDesc p r f.order 0x02 [])) ∧
      ∀ e, hapRecord f.block (le32 f.bytes 48) = some e →
        (16384 < (s.hap c).sizeWith f.hapSlot e → Answers (.hapLoad p r) s (s.finishDesc p r f.order 0x02 [])) ∧
        ((s.hap c).sizeWith f.hapSlot e ≤ 16384 → Answers (.hapLoad p r) s
          (((s.dispatch p r f.order 0).updHap c fun x => { x with loads := x.loads ++ [(f.hapSlot, e, p, r, f.order)] }).settleLoads c))) ∧
    ∀ (pin : Fin 8) (rising : Bool),
      let w := s.dev.reg (0x1A100 + 4 * pin.val)
      (bit w 31 = false ∨ bit w 30 = rising → Answers (.htrigEdge pin rising) s s) ∧
      (bit w 31 = true → bit w 30 = !rising → ∀ (c : Fin 8) (k : Fin 32), c.val = fld w 29 27 → k.val = fld w 26 22 →
        let t : Trigger := { src := .pin, slot := k, prio := fld w 21 18, gain := fld w 15 0 }
        (at' (s.hap c).pool k = none → Answers (.htrigEdge pin rising) s (s.hapEvent c 0x0D02 [])) ∧
        (at' (s.hap c).pool k ≠ none → Answers (.htrigEdge pin rising) s (s.onDev fun d => d.hapArrive c t)))

/-- Haptic starts (R411, R415-R417, R419): a lone trigger at a channel is refused while the channel is tripped, disabled or in the drive phase of an effect of higher
priority; on an idle channel with nothing waiting it takes its credits and starts; a start that has waited 2 ms is dropped. -/
def Sys2Proof.Claims.HapticStartResults : Prop :=
  ∀ (c : Fin 8) (s : State), Senses s →
    ((s.hap c).arrivals = [] → (s.hap c).wait = none → Answers (.hapEffectStart c) s s) ∧
    (∀ t : Trigger, (s.hap c).arrivals = [t] →
      let u := s.updHap c fun x => { x with arrivals := [] }
      ((s.hap c).trips ≠ [] → Answers (.hapEffectStart c) s (u.hapRefuse c t 0x0D 0x0D00 (hapLimitData (s.hap c).lastTrip t.slot.val))) ∧
      ((s.hap c).trips = [] → s.dev.hapEnabled c = false → Answers (.hapEffectStart c) s (u.hapRefused c t)) ∧
      ((s.hap c).trips = [] → s.dev.hapEnabled c = true → ∀ e, at' (s.hap c).pool t.slot = some e → (s.hap c).wait = none →
        (∀ r, (s.hap c).run = some r → r.braking = false → t.prio < r.trig.prio → Answers (.hapEffectStart c) s (u.hapRefused c t)) ∧
        ((s.hap c).run = none → s.dev.hapPlaces = [] →
          (∀ k, s.skein.takeHap c (e.cost t.gain) = some k → ∃ v : State, Answers (.hapEffectStart c) s v ∧ v.skein = k ∧ (v.hap c).en = true ∧
            (v.hap c).holding = none ∧
            (v.hap c).run = some { trig := t, effect := e, drawn := e.cost t.gain, braking := false, k := 0, total := 0, energy := 0, stop := false }) ∧
          (s.skein.takeHap c (e.cost t.gain) = none → ∃ v : State, Answers (.hapEffectStart c) s v ∧ v.skein = s.skein ∧ (v.hap c).run = none ∧
            ∃ w, (v.hap c).wait = some w ∧ w.trig = t ∧ w.since = s.dev.devtime)))) ∧
    ∀ w, (s.hap c).wait = some w →
      (s.dev.devtime < w.since + 2000000 → Answers (.hapEnergyTimeout c) s s) ∧
      (w.since + 2000000 ≤ s.dev.devtime →
        let u := s.updHap c fun x => { x with wait := none }
        (∀ p r o, w.trig.src = .desc p r o →
          Answers (.hapEnergyTimeout c) s (((u.finishDesc p r o 0x0B (bytesOf 4 0)).hapEvent c 0x0D01 []).settleLoads c)) ∧
        ((∀ p r o, w.trig.src ≠ .desc p r o) → Answers (.hapEnergyTimeout c) s ((u.hapEvent c 0x0D01 []).settleLoads c)))

/-- Haptic phases and trips (R409, R411, R412, R419, R421, R426): drive, braking and EN_HOLD end when their samples are out; a trip due is taken; re-arming removes the
trips whose delay has passed, HAP_CTL.CLEAR a VOLTAGE trip; a control tick emits one drive code per channel, 0 while HAPn_EN is low. -/
def Sys2Proof.Claims.HapticPhaseResults : Prop :=
  ∀ (c : Fin 8) (s : State),
    (Senses s →
      (∀ r, (s.hap c).run = some r →
        (r.braking = false → 8 * r.effect.samples.length ≤ r.k →
          Answers (.hapDriveEnd c) s (s.updHap c fun x => { x with run := some { r with braking := true, k := 0 } })) ∧
        (r.braking = true → 96 * r.effect.brakeMs ≤ r.k →
          Answers (.hapBrakeEnd c) s ((s.hapEnd c 0).updHap c fun x => { x with holding := some 0 })) ∧
        (r.braking = true ∨ r.k < 8 * r.effect.samples.length → Answers (.hapDriveEnd c) s s) ∧
        (r.braking = false ∨ r.k < 96 * r.effect.brakeMs → Answers (.hapBrakeEnd c) s s)) ∧
      (∀ n, (s.hap c).holding = some n →
        (n < 96 * fld (s.dev.hapReg c 0) 7 4 → Answers (.hapEnHoldExpiry c) s s) ∧
        (96 * fld (s.dev.hapReg c 0) 7 4 ≤ n → Answers (.hapEnHoldExpiry c) s (s.updHap c fun x => { x with holding := none, en := false }))) ∧
      ((s.hap c).due = none → Answers (.hapTrip c) s s) ∧
      (∀ kind, (s.hap c).due = some kind → ∃ t : State, Answers (.hapTrip c) s t ∧ (t.hap c).en = false ∧ (t.hap c).u = 0 ∧ (t.hap c).i = 0 ∧
        (t.hap c).run = none ∧ (t.hap c).wait = none ∧ (t.hap c).lastTrip = kind ∧ (kind, s.dev.devtime) ∈ (t.hap c).trips) ∧
      Answers (.hapRearm c) s (s.updHap c fun x => { x with trips := x.trips.filter fun e => !s.dev.mayRearm c e }) ∧
      (∀ q, s.dev.isManager q = false → Answers (.hapClear q c) s s) ∧
      (∀ q, s.dev.isManager q = true → Answers (.hapClear q c) s (s.updHap c fun x => { x with trips := x.trips.filter fun e => e.1 != 1 })) ∧
      ∀ io : Vector HapSample 8, ∃ t : State, Answers (.hapControlTick io) s t ∧
        ∃ u : List Int, t.dev.out.head? = some (.haptic u) ∧ u.length = 8 ∧ ∀ k : Fin 8, (t.hap k).en = false → u[k.val]? = some 0) ∧
    Answers (.hapEnOneshotExpiry c) s (s.updHap c fun x => { x with en := false, u := 0 })

end
namespace Sys2Proof.Claims
open Sys2Proof Sys2Proof.Machine

/-- The commands that may change DRAM: stores and atomics of shaders, jobs that begin, save or end (bin lists, tiles, saved contexts, timestamps),
copies and fills, migration imports, images received over the ring, controller writes, scrubs, boots, and what a reset, a lost clock or a nap
loses. -/
def mayChangeDram : Instr → Bool
  | .epochBoundary _ | .copy _ _ _ _ _ | .fill _ _ _ _ | .gfxSubmit _ _ | .computeSubmit _ _ | .copyStop _ _ _ _ | .migImport _ _
  | .clusterOffer _ | .classAPreempt _ _ _ | .preemptSaveDone _ | .draw _ _ _ | .drawIndexed _ _ _ | .drawIndirect _ _ _ | .dispatch _
  | .dispatchIndirect _ | .timestamp _ | .passEnd _ | .waveEnd _ _ | .stG _ _ | .stB _ _ | .atomAdd _ _ | .atomMinI _ _ | .atomMinU _ _
  | .atomMaxI _ _ | .atomMaxU _ _ | .atomAnd _ _ | .atomOr _ _ | .atomXor _ _ | .atomXchg _ _ | .atomCas _ _ | .atomAddB _ _ | .deepNapEnter
  | .containerLoad _ _ | .granuleScrubDone _ | .boot _ | .whlAdopt _ | .whlReceiveDone _ _ _ | .warmReset | .refclk0Loss | .thermtrip
  | .vaonReset | .pwronRstNAssert | .watchExit _ | .memCommandOpportunity _ _ => true
  | _ => false

/-- A DRAM byte, by key slot and address, that a ply's stores of `n` bytes at the device addresses `as` go to (R36, R90, R284). -/
def StoredTo (s : State) (p : Fin 64) (as : List Nat) (n k a : Nat) : Prop := ∃ x ∈ as, ∃ j < n, s.dev.xlat p (x + j) true = .ok a k

/-- A DRAM byte, by key slot and address, that a write goes to which waits in a memory channel. Such a write reaches DRAM before a later access to its
unit (R266). -/
def QueuedFor (s : State) (k a : Nat) : Prop :=
  ∃ ch, ∃ r ∈ (at' s.dev.mc.chans ch).queue, ∃ off bs, r.write = some (off, bs) ∧ r.key = k ∧ ∃ j < bs.length, a = r.addr + off + j

/-- A byte, read under key `k`, that no store and no waiting write touches: none goes to it, and those into its 64-byte unit go under the same key
(R283, R285). -/
def Untouched (s : State) (p : Fin 64) (as : List Nat) (n k a : Nat) : Prop :=
  ∀ k' a', StoredTo s p as n k' a' ∨ QueuedFor s k' a' → a' ≠ a ∧ (a' / 64 = a / 64 → k' = k ∧ k ≠ 0)

end Sys2Proof.Claims

section
open Sys2Proof Sys2Proof.Machine Sys2Proof.Claims

/-- Every command but those of `mayChangeDram` leaves every byte of DRAM as it was, whatever the state and its operands. -/
def Obligations.OnlyStoringCommandsChangeDram : Prop :=
  ∀ (c : Instr) (s t : State), mayChangeDram c = false → exec c s = .next t → t.dram = s.dram

/-- Shader stores and atomics write only the bytes of their lanes, and what waited for their units: every DRAM byte that no lane's translated address
and no waiting write names reads as before, and a local atomic changes no DRAM (R249, R254, R266). -/
def Obligations.ShaderStoresWriteOnlyTheirBytes : Prop :=
  ∀ (c : Fin 16) (w : Nat) (u s t : State) (i : Issue) (k a : Nat),
    (∀ n, issued u c w 2 0x01 = some (i, s) → accessBytes (i.f 23 21) = some n → Untouched s i.job.ply (i.writers.map (i.gAddr n)) n k a →
      exec (.stG c w) u = .next t → t.dram.read k a = u.dram.read k a) ∧
    (∀ n b e, issued u c w 2 0x11 = some (i, s) → accessBytes (i.f 23 21) = some n → bufferOf s i = some (b, e) →
      Untouched s i.job.ply (i.writers.filterMap (inBuffer e i n)) n k a →
      exec (.stB c w) u = .next t → t.dram.read k a = u.dram.read k a) ∧
    (∀ b e, issued u c w 2 0x4A = some (i, s) → bufferOf s i = some (b, e) → Untouched s i.job.ply (i.writers.filterMap (inBuffer e i 4)) 4 k a →
      exec (.atomAddB c w) u = .next t → t.dram.read k a = u.dram.read k a) ∧
    ∀ x ∈ [(Instr.atomAdd, 0x40), (Instr.atomMinI, 0x41), (Instr.atomMinU, 0x42), (Instr.atomMaxI, 0x43), (Instr.atomMaxU, 0x44), (Instr.atomAnd, 0x45),
        (Instr.atomOr, 0x46), (Instr.atomXor, 0x47), (Instr.atomXchg, 0x48), (Instr.atomCas, 0x49)],
      issued u c w 2 x.2 = some (i, s) → exec (x.1 c w) u = .next t →
        (bit i.ins 19 = false → t.dram = u.dram) ∧
        (Untouched s i.job.ply (i.writers.map (i.gAddr 4)) 4 k a → t.dram.read k a = u.dram.read k a)

/-- COPY and FILL write only the next bytes of their destination, and what waited for its units: every other DRAM byte reads as before, and a host
destination changes no DRAM (R89, R266). -/
def Obligations.CopiesWriteOnlyTheirDestination : Prop :=
  ∀ (p : Fin 64) (r : Fin 4) (seq : Word) (n : Nat) (host : List Byte) (s t : State) (f : InFlight) (k a : Nat),
    s.running p r 0x10 seq = some f ∧ exec (.copy p r seq n host) s = .next t ∨ s.running p r 0x11 seq = some f ∧ exec (.fill p r seq n) s = .next t →
      (f.copyArgs.dstHost = true → t.dram = s.dram) ∧
      (Untouched s p [f.copyArgs.dst + f.mark] (min n (f.copyArgs.len - f.mark)) k a → t.dram.read k a = s.dram.read k a)

end
section
open Sys2Proof Sys2Proof.Machine Sys2Proof.Claims

/-- Every division by 4,095 in the blend tree is the rule's formula, and its value is the one integer nearest to x / 4,095 (R187). -/
def Obligations.Div4095RoundsToNearest : Prop :=
  ∀ x : Nat, div4095 x = (2 * x + 4095) / 8190 ∧
    ∀ n : Nat, n ≠ div4095 x → ((x : Int) - 4095 * div4095 x).natAbs < ((x : Int) - 4095 * n).natAbs

/-- A LAYER that passes its checks has, in each direction, a scaling ratio within 1/8 to 16 (R176); a scaling layer passes the row of the ratios exactly when its
handle has a scaler and both directions are within. -/
def Obligations.AcceptedLayersScaleWithinBounds : Prop :=
  (∀ (d : Dev) (p : Fin 64) (f : InFlight) (b : Blk), d.layerCheck p f b = stOk → f.layerDisable = false →
    blkSrcW b ≤ 8 * blkDstW b ∧ blkDstW b ≤ 16 * blkSrcW b ∧ blkSrcH b ≤ 8 * blkDstH b ∧ blkDstH b ≤ 16 * blkSrcH b) ∧
  ∀ (handle : Nat) (b : Blk), blkScales b = true → (blkScaleOk handle b = true ↔ handle < 0x18 ∧
    blkSrcW b ≤ 8 * blkDstW b ∧ blkDstW b ≤ 16 * blkSrcW b ∧ blkSrcH b ≤ 8 * blkDstH b ∧ blkDstH b ≤ 16 * blkSrcH b)

/-- A partial render starts when binning needs a page while the pass holds at least 2 and either it holds BIN_MAX pages or the ply's BIN take is refused; with
fewer than 2 the pass waits; a page taken joins the pass with the quads it holds (R216). -/
def Obligations.PartialRenderStartsWhenPagesRunOut : Prop :=
  ∀ (s : State) (o n : Nat) (j : Job) (pa : Pass) (quads : List FragQuad) (rest : List (List FragQuad)),
    s.dev.job o = some j → s.dev.passOf o = some pa → pa.owe = some (quads :: rest) →
    let full := pa.binMax ≠ 0 ∧ pa.binMax ≤ pa.pages
    let take := s.skein.take .bin (plyHolder j.ply) 1
    (full ∨ take = none → 2 ≤ pa.pages → s.binPages o (n + 1) = (s.startRender o false, false)) ∧
    (full ∨ take = none → pa.pages < 2 → s.binPages o (n + 1) = (s, false)) ∧
    ∀ k, ¬ full → take = some k → s.binPages o (n + 1) =
      (({ s with skein := k } : State).updPass o fun pa => { pa.addQuads ((pa.owe.getD []).headD []) with pages := pa.pages + 1, owe := pa.owe.map (·.drop 1) }).binPages o n

/-- VAON falling through 2.20 V is a cold reset that leaves no record of a warning in progress, in the log or in the buffer, then or when a warning would end; VAON
rising through 2.30 V increments the power-cycle count, which is 24 bits wide (R437). -/
def Obligations.SupplyFallsAndRises : Prop :=
  ∀ s : State,
    let t := s.coldReset 1 false false s.dev.power.tripped
    Answers .vaonReset s t ∧ t.dev.ccn.log = s.dev.ccn.log ∧ t.dev.ccn.buffer = [] ∧ (∀ low cycles, Answers (.vaonWarnEnd low cycles) t t) ∧
    (s.dev.power.vaonOk = false → ∃ u, Answers .vaonApply s u ∧ u.dev.power.vaonOk = true ∧
      (s.dev.ccn.pwrcyc < 0xFFFFFF → u.dev.ccn.pwrcyc = s.dev.ccn.pwrcyc + 1) ∧ (s.dev.ccn.pwrcyc = 0xFFFFFF → u.dev.ccn.pwrcyc = 0xFFFFFF))

/-- Urgency (R264, R265): 7 for a reserved request and for one of ports 0 to 3 promoted for its head, whose reported tolerance is below THRESH_NS; the rule's minimum of 6 and
base plus age over target for any other, so that no other reaches 7; a channel promotes at most 16 at a time, every one that asks while fewer than 16 do, and a promoted request that still asks stays promoted. -/
def Obligations.UrgencyOfRequests : Prop :=
  (∀ (d : Dev) (r : McReq),
    (r.reserved = true ∨ r.promoted = true → d.urgency r = 7) ∧
    (r.reserved = false → r.promoted = false → 0 < fld (d.active (0x16040 + 4 * r.port.val)) 15 0 →
      d.urgency r = min 6 (fld (d.active (0x16040 + 4 * r.port.val)) 17 16 + 4 * (d.devtime - r.accepted) / fld (d.active (0x16040 + 4 * r.port.val)) 15 0)) ∧
    (d.urgency r = 7 → r.reserved = true ∨ r.promoted = true) ∧ d.urgency r ≤ 7 ∧
    (d.wantsPromotion r = true ↔ r.reserved = false ∧ r.port.val < 4 ∧ ∃ h l, r.head = some (h, l) ∧ at' d.mc.tol h < d.headThresh)) ∧
  ∀ (d : Dev) (q : List McReq),
    let kept := fun r : McReq => r.promoted && d.wantsPromotion r
    (d.promote q).length = q.length ∧
    (d.promote q).map (fun r => { r with promoted := false }) = q.map (fun r => { r with promoted := false }) ∧
    (∀ r ∈ d.promote q, r.promoted = true → d.wantsPromotion r = true) ∧ (∀ r ∈ q, kept r = true → r ∈ d.promote q) ∧
    ((q.map (·.id)).Nodup → (q.filter kept).length ≤ 16 →
      ((d.promote q).filter (·.promoted)).length = min 16 (q.filter d.wantsPromotion).length)

/-- A node whose raw count exceeds its baseline by more than TOUCH_THR in 3 scans running takes its latest raw count as its baseline, with the suspect mark cleared; one
whose run is shorter keeps its baseline, and a scan that does not exceed it ends the run (R394). -/
def Obligations.RebaselineAfterThreeScans : Prop :=
  ∀ (thr rel : Nat) (x : Node) (a b c : Nat), x.above = 0 →
    let high := fun r : Nat => x.base + thr < (r : Int)
    let one := x.scan thr rel a
    let two := one.scan thr rel b
    let three := two.scan thr rel c
    (high a → high b → high c → three.base = c ∧ three.suspect = false ∧ three.above = 0) ∧
    one.base = x.base ∧ two.base = x.base ∧ (¬ (high a ∧ high b ∧ high c) → three.base = x.base) ∧
    (¬ high a → one.above = 0)

/-- A header entry whose SECTORS does not match its MODE, or that is DELTA with too few sectors for its stream or with a residual wider than its component, decodes as
CLEAR: every component of every sample is 0 (R172). The stream's length is the sum of b + 4 + n x w over the components. -/
def Obligations.IllFormedHeaderDecodesAsClear : Prop :=
  ∀ (o : OzcShape) (entry i : Nat) (slot : List Byte),
    let clear := o.comps.map fun _ => 0
    let (mode, sec) := (ozcMode entry, ozcSectors entry)
    let (hs, used) := ozcDelta (leAt slot 0 256) o.samples o.comps 0
    hs.length = o.comps.length ∧ used = ((hs.zip o.comps).map fun x => x.2.2 + 4 + o.samples * x.1.2.1).sum ∧
    (¬ ((mode = 0 ∧ sec = 0) ∨ (mode = 1 ∧ sec = 1) ∨ (mode = 2 ∧ 1 ≤ sec ∧ sec ≤ 7) ∨ (mode = 3 ∧ sec = 8)) → o.decode entry slot i = clear) ∧
    (mode = 2 → sec < ceilDiv used 256 → o.decode entry slot i = clear) ∧
    (mode = 2 → (∃ x ∈ hs.zip o.comps, x.2.2 < x.1.2.1) → o.decode entry slot i = clear) ∧
    (mode = 0 → o.decode entry slot i = clear)

end

/-- The Skein grants a take only if both tests hold; A take that stays within the taker's own guarantee is never refused by the reserve test while the free pool covers what is owed; A return moves credits, at most what the holder holds, from the holder to the free pool of the kind and touches nothing else (R44). The parts stand above, each with its text. -/
def Obligations.CreditTakesAndReturns : Prop := Sys2Proof.Claims.TakeGrantsWithinCapAndReserve ∧ Sys2Proof.Claims.GuaranteedTakeIsGranted ∧ Sys2Proof.Claims.ReturnMovesCreditsBack

/-- The audit and the swap of an epoch boundary (R50 steps 1 to 4, R48); A checker's breach freezes the snapshot and keeps the first breach's information (R51, R52). The parts stand above, each with its text. -/
def Obligations.EpochBoundaryAndBreach : Prop := Sys2Proof.Claims.EpochBoundaryLedger ∧ Sys2Proof.Claims.BreachFreezesSnapshot

/-- Completion, by conditions on the state and the operands alone, of the 52 floating-point, transcendental, conversion and compare rows, each with its
result: FP32 and packed FP16 arithmetic, VEC 0x20 to 0x45 (R247); The transcendental group and the conversions, VEC 0x50 to 0x69 (R247); What the
transcendental group gives (R247); The compares, VEC 0x70 to 0x81 (R247). The parts stand above, each with its text. -/
def Obligations.VectorFloatAndCompareResults : Prop := Sys2Proof.Claims.VectorFloatResults ∧ Sys2Proof.Claims.VectorConversionResults ∧ Sys2Proof.Claims.TranscendentalValues ∧ Sys2Proof.Claims.VectorCompareResults

/-- The scalar and predicate instructions, SCL 0x00 to 0x26 (R247); Branches, SCL 0x40 to 0x44 (R248). The parts stand above, each with its text. -/
def Obligations.ScalarAndBranchResults : Prop := Sys2Proof.Claims.ScalarResults ∧ Sys2Proof.Claims.BranchResults

/-- What the fetch of an instruction leaves (R44, R235, R243); Reconvergence, SCL 0x45 to 0x4D (R248); Synchronisation and interlock, SCL 0x60 to 0x66 (R220, R248, R256). The parts stand above, each with its text. -/
def Obligations.ControlFlowResults : Prop := Sys2Proof.Claims.FetchResults ∧ Sys2Proof.Claims.ReconvergenceResults ∧ Sys2Proof.Claims.SynchronisationResults

/-- Loads (R249, R252, R255); Stores (R249, R254); Pixel-local storage (R219, R249); Atomics, MEM 0x40 to 0x4A (R249, R254). The parts stand above, each with its text. -/
def Obligations.MemoryInstructionResults : Prop := Sys2Proof.Claims.LoadResults ∧ Sys2Proof.Claims.StoreResults ∧ Sys2Proof.Claims.PixelLocalResults ∧ Sys2Proof.Claims.AtomicResults

/-- Stage outputs, MEM 0x60 to 0x63 (R249, R250); Texture instructions, TEX 0x00 to 0x03 (R244, R250-R252). The parts stand above, each with its text. -/
def Obligations.OutputAndTextureResults : Prop := Sys2Proof.Claims.StageOutputResults ∧ Sys2Proof.Claims.TextureResults

/-- Packets that move between command buffers (R209-R211); Packets that set pipeline state (R206, R210, R213), with fields in range. The parts stand above, each with its text. -/
def Obligations.BufferAndStatePacketResults : Prop := Sys2Proof.Claims.BufferPacketResults ∧ Sys2Proof.Claims.StatePacketResults

/-- PASS_BEGIN opens a pass over the targets as they stand, with a spill area large enough for every tile's image; DRAW, DRAW_INDEXED and DRAW_INDIRECT start a draw of the values in the packet or in the record it names (R210, R212, R214). The parts stand above, each with its text. -/
def Obligations.PassAndDrawPacketResults : Prop := Sys2Proof.Claims.PassPacketResults ∧ Sys2Proof.Claims.DrawPacketResults

/-- DISPATCH and DISPATCH_INDIRECT (R210, R238, R239); BARRIER, SIGNAL and TIMESTAMP (R93, R210, R225), when nothing earlier of the job is in flight where they wait. The parts stand above, each with its text. -/
def Obligations.DispatchAndWaitPacketResults : Prop := Sys2Proof.Claims.DispatchPacketResults ∧ Sys2Proof.Claims.WaitPacketResults

/-- GFX_SUBMIT and COMPUTE_SUBMIT (R206, R207, R227); The scheduler (R226-R229, R257); Retirement and deadlines (R208, R231). The parts stand above, each with its text. -/
def Obligations.GraphicsJobResults : Prop := Sys2Proof.Claims.SubmissionResults ∧ Sys2Proof.Claims.SchedulerResults ∧ Sys2Proof.Claims.JobEndResults

/-- Doorbells (R75, R78, R79); Setting up and disabling rings (R72-R74); The fence registers of the ply page (R72, R91, R94); A signal sets the fence to the larger of its value and the signalled one, and leaves every other fence (R91). The parts stand above, each with its text. -/
def Obligations.RingRegisterResults : Prop := Sys2Proof.Claims.DoorbellResults ∧ Sys2Proof.Claims.RingSetupResults ∧ Sys2Proof.Claims.FenceRegisterResults ∧ Sys2Proof.Claims.FenceSignalTakesTheLarger

/-- Reads of a ring that is not polled (R70, R76, R83, R85); Class A polling (R79, R81, R82); CONS of the completion ring has been read (R78, R98). The parts stand above, each with its text. -/
def Obligations.RingServiceReadResults : Prop := Sys2Proof.Claims.RingReadResults ∧ Sys2Proof.Claims.PollResults ∧ Sys2Proof.Claims.CompletionRingReadResults

/-- DESCRIPTOR_PARSE (R25, R85, R86, R159, R191); Retirement (R87, R88, R91, R92, R95, R115). The parts stand above, each with its text. -/
def Obligations.ParseAndRetirementResults : Prop := Sys2Proof.Claims.ParseResults ∧ Sys2Proof.Claims.RetirementResults

/-- Completion, by conditions on the state and the operands alone, of NOP, FENCE_WAIT, FENCE_WAIT_TIMEOUT, FENCE_SIGNAL, MAP and UNMAP, each with its
result: NOP, FENCE_WAIT and FENCE_SIGNAL, parsed at the head of their ring on an ACTIVE ply with their wait reached and BARRIER met (`AtHead`,
conditions on the state alone), complete; MAP and UNMAP, parsed at the head of their ring (`AtHead`), complete. The parts stand above, each with its
text. -/
def Obligations.FenceAndMappingResults : Prop := Sys2Proof.Claims.FenceDescriptorResults ∧ Sys2Proof.Claims.MappingResults

/-- COPY and FILL (R21, R36, R43, R89); CHECK (R21, R43, R442, R444-R446); COPY_STOP (R115). The parts stand above, each with its text. -/
def Obligations.TransferAndCheckResults : Prop := Sys2Proof.Claims.TransferResults ∧ Sys2Proof.Claims.CheckResults ∧ Sys2Proof.Claims.CopyStopResults

/-- Layers and their commits (R157, R191-R194); SIG_EXPECT (R198, R202). The parts stand above, each with its text. -/
def Obligations.CommitAndSignatureResults : Prop := Sys2Proof.Claims.CommitResults ∧ Sys2Proof.Claims.SignatureExpectResults

/-- PLY_CREATE of an absent ply whose shares and binding the policy allows and admission accepts (R54-R56, R106, R107, R110, R111, R295, R482); PLY_SHARE, PLY_QUIESCE, PLY_RESUME and PLY_QUERY of an existing ply, and the end of its drain (R110, R111, R113, R114, R116, R119, R298). The parts stand above, each with its text. -/
def Obligations.PlyLifecycleResults : Prop := Sys2Proof.Claims.PlyCreateResult ∧ Sys2Proof.Claims.PlyCommandResults

/-- PLY_RESET and PLY_DESTROY of a QUIESCED ply (R110, R123, R124); Migration (R125-R130). The parts stand above, each with its text. -/
def Obligations.PlyEndAndMigrationResults : Prop := Sys2Proof.Claims.PlyEndResults ∧ Sys2Proof.Claims.MigrationResults

/-- Host reads (R44, R46, R66, R121, R326); Configuration, power state and latency (R327-R329, R331, R333, R334). The parts stand above, each with its text. -/
def Obligations.HostReadAndPortServiceResults : Prop := Sys2Proof.Claims.HostReadResults ∧ Sys2Proof.Claims.PortServiceResults

/-- A port's link (R322, R323, R334, R335); What a recognised link-down leaves of its port (R335). The parts stand above, each with its text. -/
def Obligations.LinkUpAndLinkDownResults : Prop := Sys2Proof.Claims.PortLinkResults ∧ Sys2Proof.Claims.LinkDownClearsPort

/-- Register accesses (R18, R19, R38, R52, R105); Mailboxes (R296, R297, R300, R301, R316, R317). The parts stand above, each with its text. -/
def Obligations.RegisterAndMailboxResults : Prop := Sys2Proof.Claims.RegisterAccessResults ∧ Sys2Proof.Claims.MailboxResults

/-- Elytra's own commands (R290-R293, R297, R302, R303); Granules (R303-R307). The parts stand above, each with its text. -/
def Obligations.ElytraAndGranuleResults : Prop := Sys2Proof.Claims.ElytraCommandResults ∧ Sys2Proof.Claims.GranuleCommandResults

/-- Resets and boot (R292, R435, R437-R440, R459); What a cold reset leaves (R438). The parts stand above, each with its text. -/
def Obligations.ResetResults : Prop := Sys2Proof.Claims.ResetAndBootResults ∧ Sys2Proof.Claims.ColdResetKeepsFusesAndFlash

/-- SPDM (R309, R310), the connection; SPDM sessions (R308, R309, R311). The parts stand above, each with its text. -/
def Obligations.SpdmResults : Prop := Sys2Proof.Claims.SpdmConnectionResults ∧ Sys2Proof.Claims.SpdmSessionResults

/-- HD_TCOMMIT.ARM (R136, R139, R141, R433); Reasons for which an ARM is refused (R139), in order; Link training (R140, R150-R152). The parts stand above, each with its text. -/
def Obligations.TimingAndLinkResults : Prop := Sys2Proof.Claims.TimingArmResults ∧ Sys2Proof.Claims.ArmRefusalOrder ∧ Sys2Proof.Claims.LinkTrainingResults

/-- The frame (R135, R136, R138, R140, R146, R154, R355); CMP credits at a head's boundary (R44). The parts stand above, each with its text. -/
def Obligations.FrameResults : Prop := Sys2Proof.Claims.FrameCommandResults ∧ Sys2Proof.Claims.CmpTakeAndReturn

/-- MEM_TRANSFER_ACCEPT (R44, R62, R185, R262-R265, R272, R273, R284); The data path of a channel (R266, R268, R275, R276, R279-R281, R286). The parts stand above, each with its text. -/
def Obligations.TransferAndChannelResults : Prop := Sys2Proof.Claims.TransferAcceptResults ∧ Sys2Proof.Claims.ChannelResults

/-- Upkeep of the DRAM (R41, R259, R268-R271, R277); Naps (R144, R145, R272-R274, R277). The parts stand above, each with its text. -/
def Obligations.UpkeepAndNapResults : Prop := Sys2Proof.Claims.DramUpkeepResults ∧ Sys2Proof.Claims.NapResults

/-- Power commands (R313, R431-R433, R438, R440); Islands, clocks and monitors (R419, R425-R427, R430, R431, R434, R436). The parts stand above, each with its text. -/
def Obligations.PowerResults : Prop := Sys2Proof.Claims.PowerCommandResults ∧ Sys2Proof.Claims.PowerEventResults

/-- The Cocoon recorder (R454-R461); The running self-test and the operating seconds (R451-R453, R459). The parts stand above, each with its text. -/
def Obligations.RecorderAndSelfTestResults : Prop := Sys2Proof.Claims.CocoonResults ∧ Sys2Proof.Claims.SelfTestResults

/-- Streams (R368-R370); Audio registers and locks (R366, R372, R374, R381); Chimes (R377, R378, R380). The parts stand above, each with its text. -/
def Obligations.AudioResults : Prop := Sys2Proof.Claims.StreamResults ∧ Sys2Proof.Claims.AudioControlResults ∧ Sys2Proof.Claims.ChimeResults

/-- Membership of the ring (R345-R350); Ring time, repair and the loop test (R351, R352, R359-R362); Remote layers (R356-R358). The parts stand above, each with its text. -/
def Obligations.WhorlResults : Prop := Sys2Proof.Claims.RingMembershipResults ∧ Sys2Proof.Claims.RingServiceResults ∧ Sys2Proof.Claims.RemoteLayerResults

/-- Touch scans (R387-R401); Panel commands and the wake gesture (R395, R402-R405). The parts stand above, each with its text. -/
def Obligations.TouchResults : Prop := Sys2Proof.Claims.TouchScanResults ∧ Sys2Proof.Claims.TouchCommandResults

/-- Haptic loads and triggers (R410, R411, R414); Haptic starts (R411, R415-R417, R419); Haptic phases and trips (R409, R411, R412, R419, R421, R426). The parts stand above, each with its text. -/
def Obligations.HapticResults : Prop := Sys2Proof.Claims.HapticTriggerResults ∧ Sys2Proof.Claims.HapticStartResults ∧ Sys2Proof.Claims.HapticPhaseResults
end

