-- ==== Sys2Proof/Laws/Tables.lean ====
section
/-! SUPPORT. Laws/Tables.lean: reads after writes of fixed tables and sparse maps, and the canonical form of the DRAM's byte list. -/
namespace Sys2Proof.Machine

/-! Fixed tables -/

@[simp] theorem at'_put_self {α : Type} {n : Nat} (v : Vector α n) (i : Fin n) (x : α) : at' (put v i x) i = x := by
  simp [at', put]

theorem at'_put_ne {α : Type} {n : Nat} (v : Vector α n) {i j : Fin n} (x : α) (h : j ≠ i) : at' (put v i x) j = at' v j := by
  have : i.val ≠ j.val := fun e => h (Fin.ext e.symm)
  simp [at', put, this]

theorem at'_put {α : Type} {n : Nat} (v : Vector α n) (i j : Fin n) (x : α) : at' (put v i x) j = if j = i then x else at' v j := by
  by_cases h : j = i
  · subst h; simp
  · simp [h, at'_put_ne]

@[simp] theorem at'_upd_self {α : Type} {n : Nat} (v : Vector α n) (i : Fin n) (f : α → α) : at' (upd v i f) i = f (at' v i) := by
  simp [upd]

@[simp] theorem put_put {α : Type} {n : Nat} (v : Vector α n) (i : Fin n) (x y : α) : put (put v i x) i y = put v i y := by
  simp [put]

@[simp] theorem upd_upd {α : Type} {n : Nat} (v : Vector α n) (i : Fin n) (f g : α → α) : upd (upd v i f) i g = upd v i (fun x => g (f x)) := by
  simp [upd]

theorem at'_upd_ne {α : Type} {n : Nat} (v : Vector α n) {i j : Fin n} (f : α → α) (h : j ≠ i) : at' (upd v i f) j = at' v j := by
  simp [upd, at'_put_ne, h]

@[simp] theorem at'_map {α β : Type} {n : Nat} (v : Vector α n) (f : α → β) (i : Fin n) : at' (v.map f) i = f (at' v i) := by
  simp [at']

@[simp] theorem at'_ofFn {α : Type} {n : Nat} (f : Fin n → α) (i : Fin n) : at' (Vector.ofFn f) i = f i := by
  simp [at']

@[simp] theorem at'_replicate {α : Type} {n : Nat} (x : α) (i : Fin n) : at' (Vector.replicate n x) i = x := by
  simp [at']

/-- The sum of a table with one entry replaced. -/
theorem sum_put {n : Nat} (v : Vector Nat n) (i : Fin n) (x : Nat) :
    ((allFin n).map (at' (put v i x))).sum + at' v i = ((allFin n).map (at' v)).sum + x := by
  have key : ∀ l : List (Fin n), l.Nodup →
      (l.map (at' (put v i x))).sum + (if i ∈ l then at' v i else 0) = (l.map (at' v)).sum + (if i ∈ l then x else 0) := by
    intro l
    induction l with
    | nil => simp
    | cons a t ih =>
      intro hn
      obtain ⟨ha, ht⟩ := List.nodup_cons.mp hn
      have := ih ht
      by_cases h : a = i
      · subst h
        simp [ha] at this ⊢
        omega
      · have h' : ¬ i = a := fun e => h e.symm
        simp [at'_put_ne v x h, h'] at this ⊢
        omega
  have h := key (allFin n) (List.nodup_finRange n)
  simpa [allFin] using h

/-! Sparse maps -/

theorem Map.find_ins {α : Type} (m : Map α) (k q : Nat) (v : α) : Map.find (Map.ins m k v) q = if q = k then some v else Map.find m q := by
  induction m with
  | nil => simp [Map.ins, Map.find]
  | cons e t ih =>
    obtain ⟨k', v'⟩ := e
    unfold Map.ins
    split
    · simp [Map.find]
    · split
      · rename_i h; subst h
        simp only [Map.find]; split <;> rfl
      · rename_i h1 h2
        simp only [Map.find, ih]
        by_cases h : q = k'
        · subst h; simp [Ne.symm h2]
        · simp [h]

@[simp] theorem Map.get_ins_self {α : Type} (m : Map α) (d : α) (k : Nat) (v : α) : Map.get (Map.ins m k v) d k = v := by
  simp [Map.get, Map.find_ins]

theorem Map.get_ins_ne {α : Type} (m : Map α) (d : α) {k q : Nat} (v : α) (h : q ≠ k) : Map.get (Map.ins m k v) d q = Map.get m d q := by
  simp [Map.get, Map.find_ins, h]

theorem Map.find_del {α : Type} (m : Map α) (k q : Nat) : Map.find (Map.del m k) q = if q = k then none else Map.find m q := by
  induction m with
  | nil => simp [Map.del, Map.find]
  | cons e t ih =>
    obtain ⟨k', v'⟩ := e
    simp only [Map.del] at ih ⊢
    by_cases h : k' = k
    · subst h
      simp only [List.filter_cons, bne_self_eq_false, Bool.false_eq_true, ↓reduceIte, ih, Map.find]
      split <;> simp_all
    · have : (k' != k) = true := by simp [h]
      simp only [List.filter_cons, this, ↓reduceIte, Map.find, ih]
      by_cases hq : q = k'
      · subst hq; simp [h]
      · simp [hq]

@[simp] theorem Map.get_setD_self {α : Type} [DecidableEq α] (m : Map α) (d : α) (k : Nat) (v : α) : Map.get (Map.setD m d k v) d k = v := by
  unfold Map.setD
  split
  · subst_vars; simp [Map.get, Map.find_del]
  · simp

theorem Map.get_setD_ne {α : Type} [DecidableEq α] (m : Map α) (d : α) {k q : Nat} (v : α) (h : q ≠ k) :
    Map.get (Map.setD m d k v) d q = Map.get m d q := by
  unfold Map.setD
  split
  · simp [Map.get, Map.find_del, h]
  · exact Map.get_ins_ne m d v h

/-! Canonical form of the byte list -/

/-- Canonical form as a chain of addresses and nonzero bytes. -/
theorem cellsOk_iff (l : List Host.Cell) : cellsOk l = true ↔ l.Pairwise (fun a b => a.1 < b.1) ∧ ∀ c ∈ l, c.2 ≠ 0 := by
  induction l with
  | nil => simp [cellsOk]
  | cons c t ih =>
    obtain ⟨a, b⟩ := c
    cases t with
    | nil => simp [cellsOk]
    | cons c' t' =>
      obtain ⟨a', b'⟩ := c'
      simp only [cellsOk, Bool.and_eq_true, decide_eq_true_eq, bne_iff_ne, ih, List.pairwise_cons, List.mem_cons, forall_eq_or_imp]
      constructor
      · rintro ⟨⟨hb, hab⟩, ⟨h1, h2⟩, h3, h4⟩
        exact ⟨⟨⟨hab, fun x hx => Nat.lt_trans hab (h1 x hx)⟩, h1, h2⟩, hb, h3, h4⟩
      · rintro ⟨⟨⟨hab, _⟩, h1, h2⟩, hb, h3, h4⟩
        exact ⟨⟨hb, hab⟩, ⟨h1, h2⟩, h3, h4⟩

theorem cellsOk_filter {l : List Host.Cell} (p : Host.Cell → Bool) (h : cellsOk l = true) : cellsOk (l.filter p) = true := by
  rw [cellsOk_iff] at h ⊢
  exact ⟨h.1.filter _, fun c hc => h.2 c (List.mem_filter.mp hc).1⟩

theorem mem_ins {α : Type} {m : Map α} {k : Nat} {v : α} {e : Nat × α} (h : e ∈ Map.ins m k v) : e = (k, v) ∨ e ∈ m := by
  induction m with
  | nil => simpa [Map.ins] using h
  | cons c t ih =>
    obtain ⟨k', v'⟩ := c
    unfold Map.ins at h
    split at h
    · simpa using h
    · split at h
      · simp only [List.mem_cons] at h ⊢; tauto
      · simp only [List.mem_cons] at h ⊢
        rcases h with h | h
        · exact Or.inr (Or.inl h)
        · rcases ih h with h | h
          · exact Or.inl h
          · exact Or.inr (Or.inr h)

/-- Setting a key keeps the keys rising. -/
theorem pairwise_ins {α : Type} {m : Map α} {k : Nat} {v : α} (hp : m.Pairwise fun a b => a.1 < b.1) :
    (Map.ins m k v).Pairwise fun a b => a.1 < b.1 := by
  induction m with
  | nil => simp [Map.ins]
  | cons c t ih =>
    obtain ⟨k', v'⟩ := c
    obtain ⟨h1, h2⟩ := List.pairwise_cons.mp hp
    unfold Map.ins
    split
    · rename_i hk
      exact List.pairwise_cons.mpr ⟨fun x hx => by
        rcases List.mem_cons.mp hx with hx | hx
        · subst hx; exact hk
        · exact Nat.lt_trans hk (h1 x hx), hp⟩
    · split
      · rename_i hk; subst hk
        exact List.pairwise_cons.mpr ⟨h1, h2⟩
      · rename_i hk1 hk2
        refine List.pairwise_cons.mpr ⟨fun x hx => ?_, ih h2⟩
        rcases mem_ins hx with hx | hx
        · subst hx; show k' < k; omega
        · exact h1 x hx

theorem cellsOk_ins {m : List Host.Cell} {k : Nat} {v : Byte} (h : cellsOk m = true) (hv : v ≠ 0) : cellsOk (Map.ins m k v) = true := by
  rw [cellsOk_iff] at h ⊢
  refine ⟨pairwise_ins h.1, fun c hc => ?_⟩
  rcases mem_ins hc with rfl | hc
  · exact hv
  · exact h.2 c hc

theorem cellsOk_setD {m : List Host.Cell} (k : Nat) (v : Byte) (h : cellsOk m = true) : cellsOk (Map.setD m 0 k v) = true := by
  unfold Map.setD
  split
  · exact cellsOk_filter _ h
  · exact cellsOk_ins h ‹_›

/-! DRAM operations keep the canonical form -/

theorem foldl_keeps {α β : Type} (P : α → Prop) (f : α → β → α) (h : ∀ a b, P a → P (f a b)) (l : List β) (a : α) (ha : P a) : P (l.foldl f a) := by
  induction l generalizing a with
  | nil => exact ha
  | cons b t ih => exact ih _ (h a b ha)

theorem Dram.poke_wf {m : Dram} (a : Nat) (b : Byte) (h : m.wf = true) : (m.poke a b).wf = true := cellsOk_setD a b h

theorem Dram.rekey_wf {m : Dram} (g u : Nat) (h : m.wf = true) : (m.rekey g u).wf = true := by
  unfold Dram.rekey
  split
  · exact h
  · exact foldl_keeps (fun m : Dram => m.wf = true) _ (fun m e hm => m.poke_wf _ _ hm) _ _ h

theorem Dram.write_wf {m : Dram} (g a : Nat) (b : Byte) (h : m.wf = true) : (m.write g a b).wf = true := Dram.poke_wf a b (Dram.rekey_wf g _ h)

theorem Dram.writeN_wf {m : Dram} (g a : Nat) (bs : List Byte) (h : m.wf = true) : (m.writeN g a bs).wf = true := by
  induction bs generalizing m a with
  | nil => exact h
  | cons b t ih => exact ih (a + 1) (Dram.write_wf g a b h)

theorem Dram.scrub_wf {m : Dram} (g gran : Nat) (h : m.wf = true) : (m.scrub g gran).wf = true := cellsOk_filter _ h

theorem Dram.lose_wf {m : Dram} (lost : Nat → Bool) (h : m.wf = true) : (m.lose lost).wf = true := h

theorem Dram.blank_wf : Dram.blank.wf = true := rfl

/-! Reads after writes of DRAM -/

@[simp] theorem Dram.raw_poke_self (m : Dram) (a : Nat) (b : Byte) : (m.poke a b).raw a = b := by simp [Dram.raw, Dram.poke]

theorem Dram.raw_poke_ne (m : Dram) {a a' : Nat} (b : Byte) (h : a' ≠ a) : (m.poke a b).raw a' = m.raw a' := by
  simp only [Dram.raw, Dram.poke]; exact Map.get_setD_ne _ _ _ h

@[simp] theorem Dram.keyOf_poke (m : Dram) (a u : Nat) (b : Byte) : (m.poke a b).keyOf u = m.keyOf u := rfl

end Sys2Proof.Machine
end

