-- ==== Sys2Proof/Laws/Credits.lean ====
section
/-! SUPPORT. Laws/Credits.lean: what the operations of the ledger do, and that each of them conserves credits (R44, R46, R49, R50). -/
namespace Sys2Proof.Machine

/-! One account -/

/-- The holdings after one holder's entry is replaced. -/
theorem Account.holdSum_put (a : Account) (h : Fin holders) (x : Nat) :
    ({ a with hold := put a.hold h x } : Account).holdSum + at' a.hold h = a.holdSum + x := sum_put a.hold h x

/-- A granted take: the cap test and the reserve test (R46). -/
theorem Account.grants_iff (a : Account) (h : Fin holders) (n : Nat) :
    a.grants h n = true ↔ at' a.hold h + n ≤ at' a.cap h ∧ n + (a.owedSum - a.owed h) ≤ a.free := by
  simp [Account.grants]

theorem Account.take_eq_some {a b : Account} {h : Fin holders} {n : Nat} (e : a.take h n = some b) :
    a.grants h n = true ∧ b = { a with free := a.free - n, hold := put a.hold h (at' a.hold h + n) } := by
  unfold Account.take at e
  split at e
  · exact ⟨‹_›, (Option.some.inj e).symm⟩
  · cases e

theorem Account.take_eq_none {a : Account} {h : Fin holders} {n : Nat} : a.take h n = none ↔ a.grants h n = false := by
  unfold Account.take; split <;> simp_all

theorem Account.conserves_of_eq {a b : Account} (hf : b.free = a.free) (hh : b.hold = a.hold) (ht : b.total = a.total) (h : a.Conserves) : b.Conserves := by
  unfold Account.Conserves Account.holdSum at *; rw [hf, hh, ht]; exact h

theorem Account.take_conserves {a b : Account} {h : Fin holders} {n : Nat} (e : a.take h n = some b) (hc : a.Conserves) : b.Conserves := by
  obtain ⟨hg, rfl⟩ := Account.take_eq_some e
  have hle := ((a.grants_iff h n).mp hg).2
  have hs := a.holdSum_put h (at' a.hold h + n)
  simp only [Account.Conserves, Account.holdSum] at hc hs ⊢
  omega

theorem Account.give_conserves {a : Account} (h : Fin holders) (n : Nat) (hc : a.Conserves) : (a.give h n).Conserves := by
  have hs := a.holdSum_put h (at' a.hold h - min n (at' a.hold h))
  simp only [Account.Conserves, Account.holdSum, Account.give] at hc hs ⊢
  omega

theorem Account.giveAll_conserves {a : Account} (h : Fin holders) (hc : a.Conserves) : (a.giveAll h).Conserves := Account.give_conserves h _ hc

theorem sum_const_zero {α : Type} (l : List α) : (l.map fun _ => 0).sum = 0 := by induction l <;> simp_all

theorem at'_zeros {n : Nat} : at' (Vector.replicate n 0) = fun _ => (0 : Nat) := funext fun i => at'_replicate 0 i

theorem sum_replicate_zero (n : Nat) : ((allFin n).map (at' (Vector.replicate n 0))).sum = 0 := by
  rw [at'_zeros]; exact sum_const_zero _

theorem Account.holdSum_zero {a : Account} (h : a.hold = Vector.replicate holders 0) : a.holdSum = 0 := by
  unfold Account.holdSum; rw [h]; exact sum_replicate_zero holders

theorem Account.giveEvery_conserves {a : Account} (hc : a.Conserves) : a.giveEvery.Conserves := by
  unfold Account.Conserves at hc ⊢
  rw [Account.holdSum_zero (a := a.giveEvery) rfl, Nat.add_zero]
  unfold Account.giveEvery; exact hc

theorem Account.swap_conserves {a : Account} (hc : a.Conserves) : a.swap.Conserves := Account.conserves_of_eq rfl rfl rfl hc

theorem Account.setShare_conserves {a : Account} (h : Fin holders) (g c : Nat) (hc : a.Conserves) : (a.setShare h g c).Conserves :=
  Account.conserves_of_eq rfl rfl rfl hc

theorem Account.setPending_conserves {a : Account} (h : Fin holders) (g c : Nat) (hc : a.Conserves) : (a.setPending h g c).Conserves :=
  Account.conserves_of_eq rfl rfl rfl hc

theorem Account.withCap_conserves {a : Account} (c : Vector Nat holders) (hc : a.Conserves) : ({ a with cap := c } : Account).Conserves :=
  Account.conserves_of_eq (a := a) rfl rfl rfl hc

theorem Account.empty_conserves (t : Nat) : (Account.empty t).Conserves := by
  unfold Account.Conserves
  rw [Account.holdSum_zero (a := Account.empty t) rfl, Nat.add_zero]; rfl

theorem Account.openCap_conserves {a : Account} (hs : List (Fin holders)) (hc : a.Conserves) : (a.openCap hs).Conserves :=
  foldl_keeps Account.Conserves _ (fun _ _ h => Account.setShare_conserves _ _ _ h) _ _ hc

theorem Account.fresh_conserves (i : Fin 11) (mem clusters bin : Nat) : (Account.fresh i mem clusters bin).Conserves := by
  unfold Account.fresh
  have h := Account.setShare_conserves devHolder (deviceReserve i (kindTotal i mem clusters bin))
    (if i.val = 9 ∨ i.val = 10 then 0 else kindTotal i mem clusters bin) (Account.empty_conserves (kindTotal i mem clusters bin))
  dsimp only
  split
  · exact Account.openCap_conserves _ h
  · split
    · exact Account.openCap_conserves _ h
    · exact h

/-! The ledger -/

@[simp] theorem Skein.acct_setAcct_self (k : Skein) (kd : Kind) (a : Account) : (k.setAcct kd a).acct kd = a := at'_put_self _ _ _

theorem Kind.idx_inj {a b : Kind} (h : a.idx = b.idx) : a = b := by
  cases a with
  | htag q =>
    cases b with
    | htag q' => revert h q q'; decide
    | _ => revert h q; decide
  | _ =>
    cases b with
    | htag q' => revert h q'; decide
    | _ => revert h; decide

theorem Skein.acct_setAcct_ne (k : Skein) {kd kd' : Kind} (a : Account) (h : kd' ≠ kd) : (k.setAcct kd a).acct kd' = k.acct kd' := by
  simp only [Skein.acct, Skein.setAcct]
  exact at'_put_ne _ _ fun e => h (Kind.idx_inj e)

theorem Skein.setAcct_conserves {k : Skein} (kd : Kind) {a : Account} (h : k.Conserves) (ha : a.Conserves) : (k.setAcct kd a).Conserves := by
  intro i
  simp only [Skein.setAcct, at'_put]
  split
  · exact ha
  · exact h i

theorem Skein.conserves_of_accts {k k' : Skein} (e : k'.accts = k.accts) (h : k.Conserves) : k'.Conserves := by
  unfold Skein.Conserves; rw [e]; exact h

theorem Skein.acct_conserves {k : Skein} (kd : Kind) (h : k.Conserves) : (k.acct kd).Conserves := h kd.idx

theorem Skein.take_eq_some {k k' : Skein} {kd : Kind} {h : Fin holders} {n : Nat} (e : k.take kd h n = some k') :
    ∃ a, (k.acct kd).take h n = some a ∧ k' = k.setAcct kd a := by
  unfold Skein.take at e
  cases ha : (k.acct kd).take h n with
  | none => simp [ha] at e
  | some a => simp only [ha, Option.map_some, Option.some.injEq] at e; exact ⟨a, rfl, e.symm⟩

theorem Skein.take_conserves {k k' : Skein} {kd : Kind} {h : Fin holders} {n : Nat} (e : k.take kd h n = some k') (hc : k.Conserves) : k'.Conserves := by
  obtain ⟨a, ha, rfl⟩ := Skein.take_eq_some e
  exact Skein.setAcct_conserves kd hc (Account.take_conserves ha (Skein.acct_conserves kd hc))

theorem Skein.give_conserves {k : Skein} (kd : Kind) (h : Fin holders) (n : Nat) (hc : k.Conserves) : (k.give kd h n).Conserves :=
  Skein.setAcct_conserves kd hc (Account.give_conserves h n (Skein.acct_conserves kd hc))

theorem Skein.giveAll_conserves {k : Skein} (kd : Kind) (h : Fin holders) (hc : k.Conserves) : (k.giveAll kd h).Conserves :=
  Skein.setAcct_conserves kd hc (Account.giveAll_conserves h (Skein.acct_conserves kd hc))

theorem Skein.noteBreach_conserves {k : Skein} (i : Nat) (d : Int) (b : Bool) (hc : k.Conserves) : (k.noteBreach i d b).Conserves :=
  Skein.conserves_of_accts rfl hc

theorem Skein.snapshot_accts (k : Skein) (e : Nat) : (k.snapshot e).1.accts = k.accts := by
  unfold Skein.snapshot
  split
  · rfl
  · dsimp only; split <;> rfl

theorem Skein.snapshot_conserves {k : Skein} (e : Nat) (hc : k.Conserves) : (k.snapshot e).1.Conserves :=
  Skein.conserves_of_accts (k.snapshot_accts e) hc

theorem Skein.returnMem_conserves {k : Skein} (hc : k.Conserves) : k.returnMem.Conserves :=
  Skein.setAcct_conserves .mem hc (Account.giveEvery_conserves (Skein.acct_conserves .mem hc))

theorem Skein.swapShares_conserves {k : Skein} (hc : k.Conserves) : k.swapShares.Conserves := by
  intro i
  simp only [Skein.swapShares, at'_map]
  exact Account.swap_conserves (hc i)

theorem Skein.reevaluate_conserves {k : Skein} (f : Fin 64 → Bool) (hc : k.Conserves) : (k.reevaluate f).Conserves :=
  Skein.conserves_of_accts (k := k) (k' := k.reevaluate f) (by unfold Skein.reevaluate; rfl) hc

theorem Skein.takeHap_conserves {k k' : Skein} {c : Fin 8} {n : Nat} (e : k.takeHap c n = some k') (hc : k.Conserves) : k'.Conserves := by
  unfold Skein.takeHap at e
  cases ha : k.take .hap (hapHolder c) n with
  | none => simp [ha] at e
  | some q =>
    rw [ha, Option.map_some] at e
    rw [← Option.some.inj e]
    exact Skein.conserves_of_accts (k := q) rfl (Skein.take_conserves ha hc)

theorem Skein.rechargeHap_conserves {k : Skein} (hc : k.Conserves) : k.rechargeHap.Conserves := by
  unfold Skein.rechargeHap
  split
  · exact hc
  · dsimp only
    split
    · exact Skein.give_conserves _ _ _ (Skein.conserves_of_accts rfl hc)
    · exact Skein.conserves_of_accts rfl hc

theorem Skein.trainMem_conserves {k : Skein} (t : Nat) (hc : k.Conserves) : (k.trainMem t).Conserves := by
  refine Skein.setAcct_conserves .mem hc (Account.setShare_conserves _ _ _ ?_)
  unfold Account.Conserves
  rw [Account.holdSum_zero]
  · rfl
  · rfl

theorem Skein.reset_conserves (n : Nat) : (Skein.reset n).Conserves := by
  intro i
  simp only [Skein.reset, at'_ofFn]
  exact Account.fresh_conserves i 0 n 1024

theorem Skein.enter_conserves {k : Skein} (kd : Kind) (p : Fin 64) (g c : Nat) (a : Bool) (hc : k.Conserves) : (k.enter kd p g c a).Conserves :=
  Skein.setAcct_conserves kd hc (Account.setPending_conserves _ _ _ (Account.setPending_conserves _ _ _ (Skein.acct_conserves kd hc)))

end Sys2Proof.Machine
end

