-- ==== Sys2Proof/Laws/State.lean ====
section
/-! SUPPORT. Laws/State.lean: what each update of the state leaves alone, one lemma per field and update, and the rules by which `Keeps` composes. -/
namespace Sys2Proof.Machine

/-! Fields after updates -/
variable {wr : Bool}

@[simp] theorem State.onDev_pending (s : State) (f : Dev → Dev) : (s.onDev f).pending = s.pending := rfl
@[simp] theorem State.onDev_dram (s : State) (f : Dev → Dev) : (s.onDev f).dram = s.dram := rfl
@[simp] theorem State.onDev_skein (s : State) (f : Dev → Dev) : (s.onDev f).skein = s.skein := rfl
@[simp] theorem State.onDev_dev (s : State) (f : Dev → Dev) : (s.onDev f).dev = f s.dev := rfl
@[simp] theorem State.onSkein_pending (s : State) (f : Skein → Skein) : (s.onSkein f).pending = s.pending := rfl
@[simp] theorem State.onSkein_dram (s : State) (f : Skein → Skein) : (s.onSkein f).dram = s.dram := rfl
@[simp] theorem State.onSkein_skein (s : State) (f : Skein → Skein) : (s.onSkein f).skein = f s.skein := rfl
@[simp] theorem State.onSkein_dev (s : State) (f : Skein → Skein) : (s.onSkein f).dev = s.dev := rfl
@[simp] theorem State.updPly_pending (s : State) (p : Fin 64) (f : Ply → Ply) : (s.updPly p f).pending = s.pending := rfl
@[simp] theorem State.updPly_dram (s : State) (p : Fin 64) (f : Ply → Ply) : (s.updPly p f).dram = s.dram := rfl
@[simp] theorem State.updPly_skein (s : State) (p : Fin 64) (f : Ply → Ply) : (s.updPly p f).skein = s.skein := rfl
@[simp] theorem State.updPort_pending (s : State) (q : Fin 4) (f : Port → Port) : (s.updPort q f).pending = s.pending := rfl
@[simp] theorem State.updPort_dram (s : State) (q : Fin 4) (f : Port → Port) : (s.updPort q f).dram = s.dram := rfl
@[simp] theorem State.updPort_skein (s : State) (q : Fin 4) (f : Port → Port) : (s.updPort q f).skein = s.skein := rfl
@[simp] theorem State.updHead_pending (s : State) (h : Fin 8) (f : Head → Head) : (s.updHead h f).pending = s.pending := rfl
@[simp] theorem State.updHead_dram (s : State) (h : Fin 8) (f : Head → Head) : (s.updHead h f).dram = s.dram := rfl
@[simp] theorem State.updHead_skein (s : State) (h : Fin 8) (f : Head → Head) : (s.updHead h f).skein = s.skein := rfl
@[simp] theorem State.updCarder_skein (s : State) (f : Carder → Carder) : (s.updCarder f).skein = s.skein := rfl
@[simp] theorem State.updCarder_dram (s : State) (f : Carder → Carder) : (s.updCarder f).dram = s.dram := rfl
@[simp] theorem State.updRing_skein (s : State) (p : Fin 64) (r : Fin 4) (f : SubRing → SubRing) : (s.updRing p r f).skein = s.skein := rfl
@[simp] theorem State.updRing_dram (s : State) (p : Fin 64) (r : Fin 4) (f : SubRing → SubRing) : (s.updRing p r f).dram = s.dram := rfl
@[simp] theorem State.updCq_skein (s : State) (p : Fin 64) (f : CplRing → CplRing) : (s.updCq p f).skein = s.skein := rfl
@[simp] theorem State.updCq_dram (s : State) (p : Fin 64) (f : CplRing → CplRing) : (s.updCq p f).dram = s.dram := rfl
@[simp] theorem State.emit_skein (s : State) (o : Out) : (s.emit o).skein = s.skein := rfl
@[simp] theorem State.emit_dram (s : State) (o : Out) : (s.emit o).dram = s.dram := rfl
@[simp] theorem State.emit_out (s : State) (o : Out) : (s.emit o).dev.out = o :: s.dev.out := rfl
@[simp] theorem State.tick_fresh (s : State) : s.tick.dev.fresh = s.dev.fresh + 1 := rfl

@[simp] theorem Dev.ply_updPly_self (d : Dev) (p : Fin 64) (f : Ply → Ply) : (d.updPly p f).ply p = f (d.ply p) := at'_upd_self _ _ _
theorem Dev.ply_updPly_ne (d : Dev) {p q : Fin 64} (f : Ply → Ply) (h : q ≠ p) : (d.updPly p f).ply q = d.ply q := at'_upd_ne _ _ h
@[simp] theorem Dev.port_updPort_self (d : Dev) (q : Fin 4) (f : Port → Port) : (d.updPort q f).port q = f (d.port q) := at'_upd_self _ _ _
theorem Dev.port_updPort_ne (d : Dev) {p q : Fin 4} (f : Port → Port) (h : q ≠ p) : (d.updPort p f).port q = d.port q := at'_upd_ne _ _ h
@[simp] theorem Dev.head_updHead_self (d : Dev) (h : Fin 8) (f : Head → Head) : (d.updHead h f).head h = f (d.head h) := at'_upd_self _ _ _
theorem Dev.head_updHead_ne (d : Dev) {p q : Fin 8} (f : Head → Head) (h : q ≠ p) : (d.updHead p f).head q = d.head q := at'_upd_ne _ _ h
@[simp] theorem State.ply_updPly_self (s : State) (p : Fin 64) (f : Ply → Ply) : (s.updPly p f).ply p = f (s.ply p) := at'_upd_self _ _ _
theorem State.ply_updPly_ne (s : State) {p q : Fin 64} (f : Ply → Ply) (h : q ≠ p) : (s.updPly p f).ply q = s.ply q := at'_upd_ne _ _ h
@[simp] theorem State.port_updPort_self (s : State) (q : Fin 4) (f : Port → Port) : (s.updPort q f).port q = f (s.port q) := at'_upd_self _ _ _
theorem State.port_updPort_ne (s : State) {p q : Fin 4} (f : Port → Port) (h : q ≠ p) : (s.updPort p f).port q = s.port q := at'_upd_ne _ _ h
@[simp] theorem State.head_updHead_self (s : State) (h : Fin 8) (f : Head → Head) : (s.updHead h f).head h = f (s.head h) := at'_upd_self _ _ _
@[simp] theorem Dev.updPly_updPly (d : Dev) (p : Fin 64) (f g : Ply → Ply) : (d.updPly p f).updPly p g = d.updPly p (fun y => g (f y)) := by
  simp [Dev.updPly]

/-! How `Keeps` composes -/

theorem Keeps.refl (s : State) : Keeps wr s s := ⟨rfl, id, fun _ => rfl⟩

theorem Keeps.trans {s t u : State} (h : Keeps wr s t) (h' : Keeps wr t u) : Keeps wr s u := ⟨h'.pending.trans h.pending, fun w => h'.sound (h.sound w), fun w => (h'.dram w).trans (h.dram w)⟩

/-- A change of the device part alone. -/
theorem Keeps.mkDev {s t : State} (d : Dev) (h : Keeps wr s t) : Keeps wr s ⟨t.pending, t.dram, t.skein, d⟩ := ⟨h.pending, fun w => ⟨(h.sound w).dram, (h.sound w).skein⟩, h.dram⟩

theorem Keeps.mkDev_iff {s t : State} (d : Dev) : Keeps wr s ⟨t.pending, t.dram, t.skein, d⟩ ↔ Keeps wr s t := ⟨fun h => h.mkDev t.dev, fun h => h.mkDev d⟩

/-- A change of the ledger that conserves credits. -/
theorem Keeps.mkSkein {s t : State} (k : Skein) (d : Dev) (hk : t.skein.Conserves → k.Conserves) (h : Keeps wr s t) : Keeps wr s ⟨t.pending, t.dram, k, d⟩ :=
  ⟨h.pending, fun w => ⟨(h.sound w).dram, hk (h.sound w).skein⟩, h.dram⟩

/-- A granted take. -/
theorem Keeps.mkTake {s t : State} {kd : Kind} {x : Fin holders} {n : Nat} {k : Skein} (d : Dev) (e : t.skein.take kd x n = some k) (h : Keeps wr s t) :
    Keeps wr s ⟨t.pending, t.dram, k, d⟩ := h.mkSkein k d (Skein.take_conserves e)

/-- A change of DRAM that keeps the canonical form. -/
theorem Keeps.mkDram {s t : State} (m : Dram) (d : Dev) (hm : t.dram.wf = true → m.wf = true) (h : Keeps true s t) : Keeps true s ⟨t.pending, m, t.skein, d⟩ :=
  ⟨h.pending, fun w => ⟨hm (h.sound w).dram, (h.sound w).skein⟩, fun w => Bool.noConfusion w⟩

/-- Bytes stored in DRAM. -/
theorem Keeps.mkWriteN {s t : State} (g a : Nat) (bs : List Byte) (d : Dev) (h : Keeps true s t) : Keeps true s ⟨t.pending, t.dram.writeN g a bs, t.skein, d⟩ :=
  h.mkDram _ d (Dram.writeN_wf g a bs)

/-- DRAM contents lost. -/
theorem Keeps.mkLose {s t : State} (f : Nat → Bool) (d : Dev) (h : Keeps true s t) : Keeps true s ⟨t.pending, t.dram.lose f, t.skein, d⟩ :=
  h.mkDram _ d (Dram.lose_wf f)

/-- A granule scrubbed. -/
theorem Keeps.mkScrub {s t : State} (g x : Nat) (d : Dev) (h : Keeps true s t) : Keeps true s ⟨t.pending, t.dram.scrub g x, t.skein, d⟩ :=
  h.mkDram _ d (Dram.scrub_wf g x)

/-- What a meaning keeps: it answers a next state that keeps. -/
def KeepsRes (wr : Bool) (s : State) (r : Res) : Prop := ∃ t, r = .next t ∧ Keeps wr s t

theorem Keeps.ite {s a b : State} {c : Prop} [Decidable c] (ha : Keeps wr s a) (hb : Keeps wr s b) : Keeps wr s (if c then a else b) := by
  split
  · exact ha
  · exact hb

theorem Keeps.getD {s d : State} {o : Option State} (ho : ∀ t, o = some t → Keeps wr s t) (hd : Keeps wr s d) : Keeps wr s (o.getD d) := by
  cases o with
  | none => exact hd
  | some t => exact ho t rfl

theorem KeepsRes.next {s t : State} (h : Keeps wr s t) : KeepsRes wr s (.next t) := ⟨t, rfl, h⟩

theorem Keeps.foldl {α : Type} {s t : State} {l : List α} {f : State → α → State} (hf : ∀ t a, Keeps wr s t → Keeps wr s (f t a)) (h : Keeps wr s t) :
    Keeps wr s (l.foldl f t) := foldl_keeps (Keeps wr s) f hf l t h

theorem State.each_keeps {α : Type} {s₀ : State} (s : State) (l : List α) (f : State → α → State) (h : Keeps wr s₀ s)
    (hf : ∀ t a, Keeps wr s₀ t → Keeps wr s₀ (f t a)) : Keeps wr s₀ (s.each l f) := Keeps.foldl hf h

theorem State.onDev_keeps {s₀ : State} (s : State) (f : Dev → Dev) (h : Keeps wr s₀ s) : Keeps wr s₀ (s.onDev f) := h.mkDev _

theorem State.updPly_keeps {s₀ : State} (s : State) (p : Fin 64) (f : Ply → Ply) (h : Keeps wr s₀ s) : Keeps wr s₀ (s.updPly p f) := h.mkDev _

theorem State.updPort_keeps {s₀ : State} (s : State) (q : Fin 4) (f : Port → Port) (h : Keeps wr s₀ s) : Keeps wr s₀ (s.updPort q f) := h.mkDev _

/-- A change of the ledger that conserves credits. -/
theorem State.onSkein_keeps {s₀ : State} (s : State) (f : Skein → Skein) (hf : s.skein.Conserves → (f s.skein).Conserves) (h : Keeps wr s₀ s) :
    Keeps wr s₀ (s.onSkein f) := h.mkSkein _ _ hf

/-- Credits return. -/
theorem State.give_keeps {s₀ : State} (s : State) (kd : Kind) (x : Fin holders) (n : Nat) (h : Keeps wr s₀ s) : Keeps wr s₀ (s.onSkein fun k => k.give kd x n) :=
  h.mkSkein _ _ (Skein.give_conserves kd x n)

/-- All that a holder holds returns. -/
theorem State.giveAll_keeps {s₀ : State} (s : State) (kd : Kind) (x : Fin holders) (h : Keeps wr s₀ s) : Keeps wr s₀ (s.onSkein fun k => k.giveAll kd x) :=
  h.mkSkein _ _ (Skein.giveAll_conserves kd x)

/-- The MEM account comes into existence. -/
theorem State.trainMem_keeps {s₀ : State} (s : State) (n : Nat) (h : Keeps wr s₀ s) : Keeps wr s₀ (s.onSkein fun k => k.trainMem n) :=
  h.mkSkein _ _ (Skein.trainMem_conserves n)

/-- A breach noted. -/
theorem State.noteBreach_keeps {s₀ : State} (s : State) (i : Nat) (d : Int) (b : Bool) (h : Keeps wr s₀ s) : Keeps wr s₀ (s.onSkein fun k => k.noteBreach i d b) :=
  h.mkSkein _ _ (Skein.noteBreach_conserves i d b)

theorem State.clocked_keeps {s₀ : State} (s : State) (f : State → Res) (h : Keeps wr s₀ s) (hf : KeepsRes wr s₀ (f s)) : KeepsRes wr s₀ (s.clocked f) := by
  unfold State.clocked
  split
  · exact hf
  · exact KeepsRes.next h

end Sys2Proof.Machine
end

