-- ==== Sys2Proof/Laws/Ops.lean ====
section
/-! SUPPORT. Laws/Ops.lean: the operations and commands of Machine/Ops.lean keep the queue, the canonical form of DRAM and the credits. -/
namespace Sys2Proof.Machine
variable {wr : Bool}

theorem State.updRing_keeps {s₀ : State} (s : State) (p : Fin 64) (r : Fin 4) (f : SubRing → SubRing) (hk : Keeps wr s₀ s) : Keeps wr s₀ (State.updRing s p r f) := by
  unfold State.updRing
  repeat' first
    | with_reducible assumption
    | intro _
    | with_reducible exact Keeps.refl _
    | with_reducible apply State.onDev_keeps
    | with_reducible apply State.updPly_keeps

theorem State.updCq_keeps {s₀ : State} (s : State) (p : Fin 64) (f : CplRing → CplRing) (hk : Keeps wr s₀ s) : Keeps wr s₀ (State.updCq s p f) := by
  unfold State.updCq
  repeat' first
    | with_reducible assumption
    | intro _
    | with_reducible exact Keeps.refl _
    | with_reducible apply State.onDev_keeps
    | with_reducible apply State.updPly_keeps

theorem State.emit_keeps {s₀ : State} (s : State) (o : Out) (hk : Keeps wr s₀ s) : Keeps wr s₀ (State.emit s o) := by
  unfold State.emit
  repeat' first
    | with_reducible assumption
    | intro _
    | with_reducible exact Keeps.refl _
    | with_reducible apply State.onDev_keeps
    | with_reducible apply State.updPly_keeps
    | with_reducible apply State.updPort_keeps
    | with_reducible apply Keeps.ite
    | split
    | dsimp only
    | simp only [Keeps.mkDev_iff]

theorem State.tick_keeps {s₀ : State} (s : State) (hk : Keeps wr s₀ s) : Keeps wr s₀ (State.tick s) := by
  unfold State.tick
  repeat' first
    | with_reducible assumption
    | intro _
    | with_reducible exact Keeps.refl _
    | with_reducible apply State.onDev_keeps

theorem State.issueRead_keeps {s₀ : State} (s : State) (r : HostRead) (hk : Keeps wr s₀ s) : Keeps wr s₀ (State.issueRead s r) := by
  unfold State.issueRead
  repeat' first
    | with_reducible assumption
    | intro _
    | with_reducible exact Keeps.refl _
    | with_reducible apply State.onDev_keeps
    | with_reducible apply State.updPly_keeps
    | with_reducible apply State.updPort_keeps
    | (with_reducible refine Keeps.mkTake _ (by assumption) ?_)
    | with_reducible apply Keeps.ite
    | split
    | dsimp only
    | simp only [Keeps.mkDev_iff]

theorem State.startRead_keeps {s₀ : State} (s : State) (q : Fin 4) (p : Option (Fin 64)) (what : ReadFor) (rs : List (Nat × Nat)) (hk : Keeps wr s₀ s) : Keeps wr s₀ (State.startRead s q p what rs) := by
  unfold State.startRead
  repeat' first
    | with_reducible assumption
    | intro _
    | with_reducible exact Keeps.refl _
    | with_reducible apply State.issueRead_keeps
    | with_reducible apply State.onDev_keeps
    | with_reducible apply State.updPly_keeps
    | with_reducible apply State.updPort_keeps
    | with_reducible apply Keeps.foldl
    | with_reducible apply Keeps.ite
    | split
    | dsimp only
    | simp only [Keeps.mkDev_iff]

theorem State.plyReads_keeps {s₀ : State} (s : State) (p : Fin 64) (what : ReadFor) (rs : List (Nat × Nat)) (hk : Keeps wr s₀ s) : Keeps wr s₀ (State.plyReads s p what rs) := by
  unfold State.plyReads
  repeat' first
    | with_reducible assumption
    | intro _
    | with_reducible exact Keeps.refl _
    | with_reducible apply State.startRead_keeps
    | with_reducible apply State.onDev_keeps
    | with_reducible apply State.updPly_keeps
    | with_reducible apply State.updPort_keeps
    | with_reducible apply Keeps.ite
    | split
    | dsimp only
    | simp only [Keeps.mkDev_iff]

theorem State.endRead_keeps {s₀ : State} (s : State) (r : HostRead) (hk : Keeps wr s₀ s) : Keeps wr s₀ (State.endRead s r) := by
  unfold State.endRead
  split
  · exact hk.mkSkein _ _ (Skein.give_conserves _ _ _)
  · exact hk

theorem State.endReads_keeps {s₀ : State} (s : State) (what : ReadFor) (hk : Keeps wr s₀ s) : Keeps wr s₀ (State.endReads s what) := by
  unfold State.endReads
  repeat' first
    | with_reducible assumption
    | intro _
    | with_reducible exact Keeps.refl _
    | with_reducible apply State.endRead_keeps
    | with_reducible apply State.onDev_keeps
    | with_reducible apply State.updPly_keeps
    | with_reducible apply State.updPort_keeps
    | with_reducible apply Keeps.foldl
    | with_reducible apply Keeps.ite
    | split
    | dsimp only
    | simp only [Keeps.mkDev_iff]

theorem State.wantCons_keeps {s₀ : State} (s : State) (p : Fin 64) (hk : Keeps wr s₀ s) : Keeps wr s₀ (State.wantCons s p) := by
  unfold State.wantCons
  repeat' first
    | with_reducible assumption
    | intro _
    | with_reducible exact Keeps.refl _
    | with_reducible apply State.updCq_keeps
    | with_reducible apply State.plyReads_keeps
    | with_reducible apply State.onDev_keeps
    | with_reducible apply State.updPly_keeps
    | with_reducible apply State.updPort_keeps
    | with_reducible apply State.issueRead_keeps
    | with_reducible apply Keeps.ite
    | split
    | dsimp only
    | simp only [Keeps.mkDev_iff]

theorem State.postPlyAt_keeps {s₀ : State} (s : State) (time : Nat) (p : Fin 64) (about : Nat) (code : Nat) (unit : Nat) (data : List Byte) (hk : Keeps wr s₀ s) : Keeps wr s₀ (State.postPlyAt s time p about code unit data) := by
  unfold State.postPlyAt
  repeat' first
    | with_reducible assumption
    | intro _
    | with_reducible exact Keeps.refl _
    | with_reducible apply State.updCq_keeps
    | with_reducible apply State.wantCons_keeps
    | with_reducible apply State.onDev_keeps
    | with_reducible apply State.updPly_keeps
    | with_reducible apply State.updPort_keeps
    | with_reducible apply Keeps.ite
    | split
    | dsimp only
    | simp only [Keeps.mkDev_iff]

theorem State.postPly_keeps {s₀ : State} (s : State) (p : Fin 64) (about : Nat) (code : Nat) (unit : Nat) (data : List Byte) (hk : Keeps wr s₀ s) : Keeps wr s₀ (State.postPly s p about code unit data) := by
  unfold State.postPly
  repeat' first
    | with_reducible assumption
    | intro _
    | with_reducible exact Keeps.refl _
    | with_reducible apply State.postPlyAt_keeps

theorem State.postManager_keeps {s₀ : State} (s : State) (about : Nat) (code : Nat) (unit : Nat) (data : List Byte) (hk : Keeps wr s₀ s) : Keeps wr s₀ (State.postManager s about code unit data) := by
  unfold State.postManager
  repeat' first
    | with_reducible assumption
    | intro _
    | with_reducible exact Keeps.refl _
    | with_reducible apply State.onDev_keeps
    | with_reducible apply State.updPly_keeps
    | with_reducible apply State.updPort_keeps
    | with_reducible apply Keeps.ite
    | split
    | dsimp only

theorem State.postBoth_keeps {s₀ : State} (s : State) (p : Fin 64) (code : Nat) (unit : Nat) (data : List Byte) (hk : Keeps wr s₀ s) : Keeps wr s₀ (State.postBoth s p code unit data) := by
  unfold State.postBoth
  repeat' first
    | with_reducible assumption
    | intro _
    | with_reducible exact Keeps.refl _
    | with_reducible apply State.postPly_keeps
    | with_reducible apply State.postManager_keeps

theorem State.updHead_keeps {s₀ : State} (s : State) (h : Fin 8) (f : Head → Head) (hk : Keeps wr s₀ s) : Keeps wr s₀ (State.updHead s h f) := by
  unfold State.updHead
  repeat' first
    | with_reducible assumption
    | intro _
    | with_reducible exact Keeps.refl _
    | with_reducible apply State.onDev_keeps
    | with_reducible apply State.updPly_keeps
    | with_reducible apply State.updPort_keeps
    | with_reducible apply Keeps.ite
    | split
    | dsimp only
    | simp only [Keeps.mkDev_iff]

theorem State.updCarder_keeps {s₀ : State} (s : State) (f : Carder → Carder) (hk : Keeps wr s₀ s) : Keeps wr s₀ (State.updCarder s f) := by
  unfold State.updCarder
  repeat' first
    | with_reducible assumption
    | intro _
    | with_reducible exact Keeps.refl _
    | with_reducible apply State.onDev_keeps

theorem State.eccReport_keeps {s₀ : State} (s : State) (out : EccOutcome) (phys : Nat) (port : Nat) (ply : Option (Fin 64)) (hk : Keeps wr s₀ s) : Keeps wr s₀ (State.eccReport s out phys port ply) := by
  unfold State.eccReport
  repeat' first
    | with_reducible assumption
    | intro _
    | with_reducible exact Keeps.refl _
    | with_reducible apply State.postPly_keeps
    | with_reducible apply State.postManager_keeps
    | with_reducible apply State.onDev_keeps
    | with_reducible apply State.updPly_keeps
    | with_reducible apply State.updPort_keeps
    | with_reducible apply Keeps.ite
    | split
    | dsimp only
    | simp only [Keeps.mkDev_iff]

theorem State.eccFound_keeps {s₀ : State} (s : State) (out : EccOutcome) (phys : Nat) (port : Nat) (ply : Option (Fin 64)) (hk : Keeps wr s₀ s) : Keeps wr s₀ (State.eccFound s out phys port ply) := by
  unfold State.eccFound
  repeat' first
    | with_reducible assumption
    | intro _
    | with_reducible exact Keeps.refl _
    | with_reducible apply State.eccReport_keeps
    | with_reducible apply State.onDev_keeps
    | with_reducible apply State.updPly_keeps
    | with_reducible apply State.updPort_keeps
    | with_reducible apply Keeps.ite
    | split
    | dsimp only
    | simp only [Keeps.mkDev_iff]

theorem State.touchCheck_keeps {s₀ : State} (s : State) (phys : Nat) (write : Bool) (hk : Keeps wr s₀ s) : Keeps wr s₀ (State.touchCheck s phys write) := by
  unfold State.touchCheck
  repeat' first
    | with_reducible assumption
    | intro _
    | with_reducible exact Keeps.refl _
    | with_reducible apply State.emit_keeps
    | with_reducible apply State.onDev_keeps
    | with_reducible apply State.updPly_keeps
    | with_reducible apply State.updPort_keeps
    | (with_reducible refine Keeps.mkTake _ (by assumption) ?_)
    | with_reducible apply Keeps.ite
    | split
    | dsimp only
    | simp only [Keeps.mkDev_iff]

theorem State.openUnit_keeps {s₀ : State} (s : State) (phys : Nat) (port : Nat) (ply : Option (Fin 64)) (whole : Bool) (hk : Keeps wr s₀ s) : Keeps wr s₀ (State.openUnit s phys port ply whole) := by
  unfold State.openUnit
  repeat' first
    | with_reducible assumption
    | intro _
    | with_reducible exact Keeps.refl _
    | with_reducible apply State.eccReport_keeps
    | with_reducible apply State.touchCheck_keeps
    | with_reducible apply State.onDev_keeps
    | with_reducible apply State.updPly_keeps
    | with_reducible apply State.updPort_keeps
    | with_reducible apply Keeps.ite
    | split
    | dsimp only
    | simp only [Keeps.mkDev_iff]

theorem State.perform_keeps {s₀ : State} (s : State) (ch : Fin 16) (q : List McReq) (r : McReq) (hk : Keeps true s₀ s) : Keeps true s₀ (State.perform s ch q r) := by
  unfold State.perform
  repeat' first
    | with_reducible assumption
    | intro _
    | with_reducible exact Keeps.refl _
    | with_reducible apply State.touchCheck_keeps
    | with_reducible apply State.openUnit_keeps
    | with_reducible apply State.onDev_keeps
    | with_reducible apply State.updPly_keeps
    | with_reducible apply State.updPort_keeps
    | with_reducible apply Keeps.mkWriteN
    | with_reducible apply Keeps.ite
    | split
    | dsimp only
    | simp only [Keeps.mkDev_iff]

theorem State.settleUnit_keeps {s₀ : State} (s : State) (unit : Nat) (hk : Keeps true s₀ s) : Keeps true s₀ (State.settleUnit s unit) := by
  unfold State.settleUnit
  repeat' first
    | with_reducible assumption
    | intro _
    | with_reducible exact Keeps.refl _
    | with_reducible apply State.perform_keeps
    | with_reducible apply State.onDev_keeps
    | with_reducible apply State.updPly_keeps
    | with_reducible apply State.updPort_keeps
    | with_reducible apply Keeps.foldl
    | with_reducible apply Keeps.ite
    | split
    | dsimp only
    | simp only [Keeps.mkDev_iff]

theorem State.plyWrite1_keeps {s₀ s s₁ : State} {p : Fin 64} {addr : Nat} {b : Byte} (e : s.plyWrite1 p addr b = some s₁) (hk : Keeps true s₀ s) : Keeps true s₀ s₁ := by
  unfold State.plyWrite1 at e
  split at e
  · rw [← Option.some.inj e]
    exact hk.mkDram _ _ (Dram.write_wf _ _ _)
  · cases e

theorem State.reachUnit_keeps {s₀ : State} (s : State) (p : Fin 64) (eng : Engine) (addr : Nat) (n : Nat) (u : Nat) (hk : Keeps true s₀ s) : Keeps true s₀ (State.reachUnit s p eng addr n u) := by
  unfold State.reachUnit
  repeat' first
    | with_reducible assumption
    | intro _
    | with_reducible exact Keeps.refl _
    | with_reducible apply State.openUnit_keeps
    | with_reducible apply State.settleUnit_keeps
    | with_reducible apply State.onDev_keeps
    | with_reducible apply State.updPly_keeps
    | with_reducible apply State.updPort_keeps
    | with_reducible apply Keeps.ite
    | split
    | dsimp only
    | simp only [Keeps.mkDev_iff]

theorem foldlM_keeps {α : Type} {s₀ : State} {f : State → α → Option State} (hf : ∀ s a t, f s a = some t → Keeps wr s₀ s → Keeps wr s₀ t) {l : List α} {s t : State}
    (e : l.foldlM f s = some t) (hk : Keeps wr s₀ s) : Keeps wr s₀ t := by
  induction l generalizing s with
  | nil => cases e; exact hk
  | cons a l ih =>
    simp only [List.foldlM_cons, Option.bind_eq_bind, Option.bind_eq_some_iff] at e
    obtain ⟨u, hu, e⟩ := e
    exact ih e (hf _ _ _ hu hk)

theorem State.plyWrite_keeps {s₀ s s₁ : State} {p : Fin 64} {eng : Engine} {addr : Nat} {bs : List Byte} (e : s.plyWrite p eng addr bs = some s₁) (hk : Keeps true s₀ s) : Keeps true s₀ s₁ := by
  unfold State.plyWrite at e
  split at e
  · cases e; exact hk
  · split at e
    · exact foldlM_keeps (fun _ _ _ e h => State.plyWrite1_keeps e h) e (Keeps.foldl (fun _ _ h => State.reachUnit_keeps _ _ _ _ _ _ h) hk)
    · cases e

theorem State.takeMem_keeps {s₀ s s₁ : State} {x : Fin holders} {n : Nat} {rs : List (Nat × Nat)} (e : s.takeMem x n rs = some s₁) (hk : Keeps wr s₀ s) : Keeps wr s₀ s₁ := by
  unfold State.takeMem at e
  split at e
  · cases e
  · obtain ⟨k, hk', rfl⟩ := Option.map_eq_some_iff.mp e
    exact hk.mkTake _ hk'

theorem State.readPair_keeps {s₀ : State} (s : State) (q : Fin 4) (lo : Nat) (v : Nat) (hi : Bool) (hk : Keeps wr s₀ s) : Keeps wr s₀ (State.readPair s q lo v hi) := by
  unfold State.readPair
  repeat' first
    | with_reducible assumption
    | intro _
    | with_reducible exact Keeps.refl _
    | with_reducible apply State.emit_keeps
    | with_reducible apply State.onDev_keeps
    | with_reducible apply State.updPly_keeps
    | with_reducible apply State.updPort_keeps
    | with_reducible apply Keeps.ite
    | split
    | dsimp only
    | simp only [Keeps.mkDev_iff]

theorem State.updJob_keeps {s₀ : State} (s : State) (o : Nat) (f : Job → Job) (hk : Keeps wr s₀ s) : Keeps wr s₀ (State.updJob s o f) := by
  unfold State.updJob
  repeat' first
    | with_reducible assumption
    | intro _
    | with_reducible exact Keeps.refl _
    | with_reducible apply State.onDev_keeps

theorem State.updCluster_keeps {s₀ : State} (s : State) (c : Fin 16) (f : Cluster → Cluster) (hk : Keeps wr s₀ s) : Keeps wr s₀ (State.updCluster s c f) := by
  unfold State.updCluster
  repeat' first
    | with_reducible assumption
    | intro _
    | with_reducible exact Keeps.refl _
    | with_reducible apply State.onDev_keeps

theorem State.freePages_keeps {s₀ : State} (s : State) (o : Nat) (hk : Keeps wr s₀ s) : Keeps wr s₀ (State.freePages s o) := by
  unfold State.freePages
  repeat' first
    | with_reducible assumption
    | intro _
    | with_reducible exact Keeps.refl _
    | with_reducible apply State.updJob_keeps
    | with_reducible apply State.onDev_keeps
    | with_reducible apply State.updPly_keeps
    | with_reducible apply State.updPort_keeps
    | with_reducible apply State.give_keeps
    | with_reducible apply State.giveAll_keeps
    | with_reducible apply Keeps.ite
    | split

theorem State.dropJob_keeps {s₀ : State} (s : State) (o : Nat) (hk : Keeps wr s₀ s) : Keeps wr s₀ (State.dropJob s o) := by
  unfold State.dropJob
  repeat' first
    | with_reducible assumption
    | intro _
    | with_reducible exact Keeps.refl _
    | with_reducible apply State.freePages_keeps
    | with_reducible apply State.onDev_keeps
    | with_reducible apply State.updPly_keeps
    | with_reducible apply State.updPort_keeps
    | with_reducible apply State.give_keeps
    | with_reducible apply State.giveAll_keeps
    | with_reducible apply Keeps.ite
    | split
    | dsimp only
    | simp only [Keeps.mkDev_iff]

end Sys2Proof.Machine
end

