-- ==== Sys2Proof/Laws/Drain.lean ====
section
/-! SUPPORT. Laws/Drain.lean: the operations and commands of Machine/Drain.lean keep the queue, the canonical form of DRAM and the credits. -/
namespace Sys2Proof.Machine
variable {wr : Bool}

theorem State.writeCompletion_keeps {s₀ : State} (s : State) (p : Fin 64) (r : Fin 4) (f : InFlight) (status : Nat) (result : List Byte) (hk : Keeps wr s₀ s) : Keeps wr s₀ (State.writeCompletion s p r f status result) := by
  unfold State.writeCompletion
  repeat' first
    | with_reducible assumption
    | intro _
    | with_reducible exact Keeps.refl _
    | with_reducible apply State.onDev_keeps
    | with_reducible apply State.updPly_keeps
    | with_reducible apply State.updCq_keeps
    | with_reducible apply State.wantCons_keeps
    | with_reducible apply State.updPort_keeps
    | with_reducible apply Keeps.ite
    | split
    | dsimp only
    | simp only [Keeps.mkDev_iff]

theorem State.discard_keeps {s₀ : State} (s : State) (p : Fin 64) (r : Fin 4) (f : InFlight) (hk : Keeps wr s₀ s) : Keeps wr s₀ (State.discard s p r f) := by
  unfold State.discard
  repeat' first
    | with_reducible assumption
    | intro _
    | with_reducible exact Keeps.refl _
    | with_reducible apply State.updRing_keeps
    | with_reducible apply State.writeCompletion_keeps
    | with_reducible apply State.onDev_keeps
    | with_reducible apply State.updPly_keeps
    | with_reducible apply State.updPort_keeps
    | with_reducible apply State.give_keeps

theorem State.stopIntake_keeps {s₀ : State} (s : State) (p : Fin 64) (hk : Keeps wr s₀ s) : Keeps wr s₀ (State.stopIntake s p) := by
  unfold State.stopIntake
  repeat' first
    | with_reducible assumption
    | intro _
    | with_reducible exact Keeps.refl _
    | with_reducible apply State.each_keeps
    | with_reducible apply State.onDev_keeps
    | with_reducible apply State.updPly_keeps
    | with_reducible apply State.discard_keeps
    | with_reducible apply State.updPort_keeps
    | (with_reducible refine Keeps.mkTake _ (by assumption) ?_)
    | with_reducible apply Keeps.ite
    | split
    | dsimp only
    | simp only [Keeps.mkDev_iff]

theorem State.drainCarder_keeps {s₀ : State} (s : State) (p : Fin 64) (cause : Nat) (hk : Keeps wr s₀ s) : Keeps wr s₀ (State.drainCarder s p cause) := by
  unfold State.drainCarder
  repeat' first
    | with_reducible assumption
    | intro _
    | with_reducible exact Keeps.refl _
    | with_reducible apply State.updHead_keeps
    | with_reducible apply State.discard_keeps
    | with_reducible apply State.onDev_keeps
    | with_reducible apply State.updPly_keeps
    | with_reducible apply State.updPort_keeps
    | with_reducible apply State.each_keeps

theorem State.drainGfx_keeps {s₀ : State} (s : State) (p : Fin 64) (hk : Keeps wr s₀ s) : Keeps wr s₀ (State.drainGfx s p) := by
  unfold State.drainGfx
  repeat' first
    | with_reducible assumption
    | intro _
    | with_reducible exact Keeps.refl _
    | with_reducible apply State.dropJob_keeps
    | with_reducible apply State.discard_keeps
    | with_reducible apply State.onDev_keeps
    | with_reducible apply State.updPly_keeps
    | with_reducible apply State.updPort_keeps
    | with_reducible apply State.each_keeps
    | with_reducible apply Keeps.foldl

theorem State.drainHaptics_keeps {s₀ : State} (s : State) (p : Fin 64) (hk : Keeps wr s₀ s) : Keeps wr s₀ (State.drainHaptics s p) := by
  unfold State.drainHaptics
  repeat' first
    | with_reducible assumption
    | intro _
    | with_reducible exact Keeps.refl _
    | with_reducible apply State.discard_keeps
    | with_reducible apply State.onDev_keeps
    | with_reducible apply State.updPly_keeps
    | with_reducible apply State.updPort_keeps
    | with_reducible apply State.each_keeps

theorem State.startDrain_keeps {s₀ : State} (s : State) (p : Fin 64) (cause : Nat) (hk : Keeps wr s₀ s) : Keeps wr s₀ (State.startDrain s p cause) := by
  unfold State.startDrain
  repeat' first
    | with_reducible assumption
    | intro _
    | with_reducible exact Keeps.refl _
    | with_reducible apply State.stopIntake_keeps
    | with_reducible apply State.drainCarder_keeps
    | with_reducible apply State.drainGfx_keeps
    | with_reducible apply State.drainHaptics_keeps
    | with_reducible apply State.onDev_keeps

theorem State.faultPly_keeps {s₀ : State} (s : State) (p : Fin 64) (addr : Nat) (write : Bool) (eng : Engine) (iommu : Bool) (hk : Keeps wr s₀ s) : Keeps wr s₀ (State.faultPly s p addr write eng iommu) := by
  unfold State.faultPly
  repeat' first
    | with_reducible assumption
    | intro _
    | with_reducible exact Keeps.refl _
    | with_reducible apply State.onDev_keeps
    | with_reducible apply State.updPly_keeps
    | with_reducible apply State.postBoth_keeps
    | with_reducible apply State.startDrain_keeps
    | with_reducible apply State.updPort_keeps
    | with_reducible apply Keeps.ite
    | split
    | dsimp only
    | simp only [Keeps.mkDev_iff]

theorem State.faultAt_keeps {s₀ : State} (s : State) (p : Fin 64) (addr : Nat) (n : Nat) (write : Bool) (eng : Engine) (hk : Keeps wr s₀ s) : Keeps wr s₀ (State.faultAt s p addr n write eng) := by
  unfold State.faultAt
  repeat' first
    | with_reducible assumption
    | intro _
    | with_reducible exact Keeps.refl _
    | with_reducible apply State.eccReport_keeps
    | with_reducible apply State.faultPly_keeps
    | with_reducible apply State.onDev_keeps
    | with_reducible apply State.updPly_keeps
    | with_reducible apply State.updPort_keeps
    | with_reducible apply State.each_keeps
    | with_reducible apply Keeps.ite
    | split
    | dsimp only
    | simp only [Keeps.mkDev_iff]

theorem State.quiesce_keeps {s₀ : State} (s : State) (p : Fin 64) (hk : Keeps wr s₀ s) : Keeps wr s₀ (State.quiesce s p) := by
  unfold State.quiesce
  repeat' first
    | with_reducible assumption
    | intro _
    | with_reducible exact Keeps.refl _
    | with_reducible apply State.startDrain_keeps
    | with_reducible apply State.onDev_keeps
    | with_reducible apply State.updPly_keeps
    | with_reducible apply State.updPort_keeps
    | with_reducible apply Keeps.ite

theorem State.orphan_keeps {s₀ : State} (s : State) (p : Fin 64) (hk : Keeps wr s₀ s) : Keeps wr s₀ (State.orphan s p) := by
  unfold State.orphan
  repeat' first
    | with_reducible assumption
    | intro _
    | with_reducible exact Keeps.refl _
    | with_reducible apply State.postManager_keeps
    | with_reducible apply State.startDrain_keeps
    | with_reducible apply State.onDev_keeps
    | with_reducible apply State.updPly_keeps
    | with_reducible apply State.updPort_keeps
    | with_reducible apply Keeps.ite
    | split
    | dsimp only

end Sys2Proof.Machine
end

