-- ==== Sys2Proof/Laws/LayerChecks.lean ====
section
/-! SUPPORT. Laws/LayerChecks.lean: the operations and commands of Machine/LayerChecks.lean keep the queue, the canonical form of DRAM and the credits. -/
namespace Sys2Proof.Machine
variable {wr : Bool}

theorem State.updDesc_keeps {s₀ : State} (s : State) (p : Fin 64) (r : Fin 4) (order : Nat) (f : InFlight → InFlight) (hk : Keeps wr s₀ s) : Keeps wr s₀ (State.updDesc s p r order f) := by
  unfold State.updDesc
  repeat' first
    | with_reducible assumption
    | intro _
    | with_reducible exact Keeps.refl _
    | with_reducible apply State.updRing_keeps
    | with_reducible apply State.onDev_keeps
    | with_reducible apply State.updPly_keeps
    | with_reducible apply State.updPort_keeps
    | with_reducible apply Keeps.ite
    | split
    | dsimp only
    | simp only [Keeps.mkDev_iff]

theorem State.finishDesc_keeps {s₀ : State} (s : State) (p : Fin 64) (r : Fin 4) (order : Nat) (status : Nat) (result : List Byte) (hk : Keeps wr s₀ s) : Keeps wr s₀ (State.finishDesc s p r order status result) := by
  unfold State.finishDesc
  repeat' first
    | with_reducible assumption
    | intro _
    | with_reducible exact Keeps.refl _
    | with_reducible apply State.updDesc_keeps
    | with_reducible apply State.onDev_keeps
    | with_reducible apply State.updPly_keeps
    | with_reducible apply State.updPort_keeps
    | with_reducible apply Keeps.ite
    | split
    | dsimp only
    | simp only [Keeps.mkDev_iff]

theorem State.checkLayer_keeps {s₀ s t : State} {p : Fin 64} {r : Fin 4} {f : InFlight} {st : Nat} (e : s.checkLayer p r f = some (t, st)) (hk : Keeps wr s₀ s) : Keeps wr s₀ t := by
  unfold State.checkLayer at e
  obtain ⟨u, hu, h⟩ := Option.map_eq_some_iff.mp e
  have hk' := State.takeMem_keeps hu hk
  dsimp only at h
  split at h
  · exact (Prod.mk.inj h).1 ▸ State.faultAt_keeps _ _ _ _ _ _ hk'
  · exact (Prod.mk.inj h).1 ▸ State.updDesc_keeps _ _ _ _ _ hk'

end Sys2Proof.Machine
end

