-- ==== Sys2Proof/Laws/Groups.lean ====
section
/-! SUPPORT. Laws/Groups.lean: the operations and commands of Machine/Groups.lean keep the queue, the canonical form of DRAM and the credits. -/
namespace Sys2Proof.Machine
variable {wr : Bool}

theorem State.finishGroup_keeps {s₀ : State} (s : State) (p : Fin 64) (r : Fin 4) (orders : List Nat) (commit : Nat) (status : Nat) (frame : DWord) (hk : Keeps wr s₀ s) : Keeps wr s₀ (State.finishGroup s p r orders commit status frame) := by
  unfold State.finishGroup
  repeat' first
    | with_reducible assumption
    | intro _
    | with_reducible exact Keeps.refl _
    | with_reducible apply State.finishDesc_keeps
    | with_reducible apply State.onDev_keeps
    | with_reducible apply State.updPly_keeps
    | with_reducible apply State.updPort_keeps
    | with_reducible apply State.each_keeps

theorem State.checkLayers_keeps {s₀ : State} (s : State) (p : Fin 64) (r : Fin 4) (head : Fin 8) (ls : List InFlight) (hk : Keeps wr s₀ s) : Keeps wr s₀ (State.checkLayers s p r head ls) := by
  induction ls generalizing s with
  | nil => exact hk
  | cons l t ih =>
    unfold State.checkLayers
    repeat' first
      | with_reducible assumption
      | (with_reducible refine ih _ ?_)
      | (with_reducible refine State.checkLayer_keeps (by assumption) ?_)
      | with_reducible apply Keeps.ite
      | split

theorem State.settleGroup_keeps {s₀ : State} (s : State) (p : Fin 64) (r : Fin 4) (f : InFlight) (hk : Keeps wr s₀ s) : Keeps wr s₀ (State.settleGroup s p r f) := by
  unfold State.settleGroup
  repeat' first
    | with_reducible assumption
    | intro _
    | with_reducible exact Keeps.refl _
    | with_reducible apply State.checkLayers_keeps
    | with_reducible apply State.finishGroup_keeps
    | with_reducible apply State.onDev_keeps
    | with_reducible apply State.updPly_keeps
    | with_reducible apply State.updPort_keeps
    | with_reducible apply Keeps.ite
    | split
    | dsimp only
    | simp only [Keeps.mkDev_iff]

theorem State.groupsOnAccept_keeps {s₀ : State} (s : State) (p : Fin 64) (r : Fin 4) (f : InFlight) (hk : Keeps wr s₀ s) : Keeps wr s₀ (State.groupsOnAccept s p r f) := by
  unfold State.groupsOnAccept
  repeat' first
    | with_reducible assumption
    | intro _
    | with_reducible exact Keeps.refl _
    | with_reducible apply State.finishDesc_keeps
    | with_reducible apply State.settleGroup_keeps
    | with_reducible apply State.onDev_keeps
    | with_reducible apply State.updPly_keeps
    | with_reducible apply State.updPort_keeps
    | with_reducible apply State.each_keeps
    | with_reducible apply Keeps.ite

theorem State.groupsOnLayer_keeps {s₀ : State} (s : State) (p : Fin 64) (r : Fin 4) (order : Nat) (hk : Keeps wr s₀ s) : Keeps wr s₀ (State.groupsOnLayer s p r order) := by
  unfold State.groupsOnLayer
  repeat' first
    | with_reducible assumption
    | intro _
    | with_reducible exact Keeps.refl _
    | with_reducible apply State.settleGroup_keeps
    | with_reducible apply State.onDev_keeps
    | with_reducible apply State.updPly_keeps
    | with_reducible apply State.updPort_keeps
    | with_reducible apply Keeps.ite
    | split

end Sys2Proof.Machine
end

