-- ==== Sys2Proof/Laws/Rings.lean ====
section
/-! SUPPORT. Laws/Rings.lean: the operations and commands of Machine/Rings.lean keep the queue, the canonical form of DRAM and the credits. -/
namespace Sys2Proof.Machine
variable {wr : Bool}

theorem State.writeCons_keeps {s₀ : State} (s : State) (p : Fin 64) (r : Fin 4) (hk : Keeps wr s₀ s) : Keeps wr s₀ (State.writeCons s p r) := by
  unfold State.writeCons
  repeat' first
    | with_reducible assumption
    | intro _
    | with_reducible exact Keeps.refl _
    | with_reducible apply State.onDev_keeps

theorem State.writeAsleep_keeps {s₀ : State} (s : State) (p : Fin 64) (r : Fin 4) (v : Bool) (hk : Keeps wr s₀ s) : Keeps wr s₀ (State.writeAsleep s p r v) := by
  unfold State.writeAsleep
  repeat' first
    | with_reducible assumption
    | intro _
    | with_reducible exact Keeps.refl _
    | with_reducible apply State.onDev_keeps
    | with_reducible apply State.updRing_keeps
    | with_reducible apply State.writeCons_keeps
    | with_reducible apply State.updPly_keeps
    | with_reducible apply State.updPort_keeps
    | with_reducible apply Keeps.ite
    | split
    | dsimp only
    | simp only [Keeps.mkDev_iff]

theorem State.readRecord_keeps {s₀ : State} (s : State) (p : Fin 64) (r : Fin 4) (st : RingRead) (hk : Keeps wr s₀ s) : Keeps wr s₀ (State.readRecord s p r st) := by
  unfold State.readRecord
  repeat' first
    | with_reducible assumption
    | intro _
    | with_reducible exact Keeps.refl _
    | with_reducible apply State.updRing_keeps
    | with_reducible apply State.plyReads_keeps
    | with_reducible apply State.onDev_keeps
    | with_reducible apply State.updPly_keeps
    | with_reducible apply State.updPort_keeps
    | with_reducible apply State.issueRead_keeps
    | with_reducible apply Keeps.ite
    | split
    | dsimp only
    | simp only [Keeps.mkDev_iff]

theorem State.startPass_keeps {s₀ : State} (s : State) (p : Fin 64) (r : Fin 4) (hk : Keeps wr s₀ s) : Keeps wr s₀ (State.startPass s p r) := by
  unfold State.startPass
  repeat' first
    | with_reducible assumption
    | intro _
    | with_reducible exact Keeps.refl _
    | with_reducible apply State.updRing_keeps
    | with_reducible apply State.writeAsleep_keeps
    | with_reducible apply State.readRecord_keeps
    | with_reducible apply State.onDev_keeps
    | with_reducible apply State.updPly_keeps
    | with_reducible apply State.updPort_keeps
    | with_reducible apply Keeps.ite

theorem State.stopRing_keeps {s₀ : State} (s : State) (p : Fin 64) (r : Fin 4) (hk : Keeps wr s₀ s) : Keeps wr s₀ (State.stopRing s p r) := by
  unfold State.stopRing
  repeat' first
    | with_reducible assumption
    | intro _
    | with_reducible exact Keeps.refl _
    | with_reducible apply State.updRing_keeps
    | with_reducible apply State.idle_keeps
    | with_reducible apply State.postPly_keeps

theorem State.wantPoll_keeps {s₀ : State} (s : State) (p : Fin 64) (hk : Keeps wr s₀ s) : Keeps wr s₀ (State.wantPoll s p) := by
  unfold State.wantPoll
  repeat' first
    | with_reducible assumption
    | intro _
    | with_reducible exact Keeps.refl _
    | with_reducible apply State.onDev_keeps
    | with_reducible apply State.updPly_keeps
    | with_reducible apply State.updPort_keeps
    | (with_reducible refine Keeps.mkTake _ (by assumption) ?_)
    | with_reducible apply Keeps.ite
    | split
    | dsimp only
    | simp only [Keeps.mkDev_iff]

theorem State.endPoll_keeps {s₀ : State} (s : State) (p : Fin 64) (hk : Keeps wr s₀ s) : Keeps wr s₀ (State.endPoll s p) := by
  unfold State.endPoll
  repeat' first
    | with_reducible assumption
    | intro _
    | with_reducible exact Keeps.refl _
    | with_reducible apply State.wantPoll_keeps
    | with_reducible apply State.onDev_keeps
    | with_reducible apply State.updPly_keeps
    | with_reducible apply State.updPort_keeps
    | with_reducible apply State.give_keeps
    | with_reducible apply State.giveAll_keeps
    | with_reducible apply Keeps.ite

theorem State.accept_keeps {s₀ s s₁ : State} {p : Fin 64} {r : Fin 4} {bs : List Byte} (e : s.accept p r bs = some s₁) (hk : Keeps wr s₀ s) : Keeps wr s₀ s₁ := by
  unfold State.accept at e
  obtain ⟨k, he, rfl⟩ := Option.map_eq_some_iff.mp e
  exact State.groupsOnAccept_keeps _ _ _ _ (State.updRing_keeps _ _ _ _ (hk.mkTake _ he))

theorem State.acceptBatch_keeps {s₀ : State} (s : State) (p : Fin 64) (r : Fin 4) (l : List (List Byte)) (hk : Keeps wr s₀ s) :
    Keeps wr s₀ (s.acceptBatch p r l).1 := by
  induction l generalizing s with
  | nil => exact hk
  | cons bs t ih =>
    unfold State.acceptBatch
    dsimp only
    split
    · exact hk
    · split
      · exact hk
      · exact ih _ (State.accept_keeps (by assumption) hk)

theorem execNudgeSq_keeps (q : Fin 4) (p : Fin 64) (mask : Fin 16) (s : State) : KeepsRes wr s (execNudgeSq q p mask s) := by
  unfold execNudgeSq
  have hk : Keeps wr s s := Keeps.refl s
  repeat' first
    | with_reducible assumption
    | intro _
    | with_reducible exact Keeps.refl _
    | with_reducible apply State.each_keeps
    | with_reducible apply State.updRing_keeps
    | with_reducible apply State.startPass_keeps
    | with_reducible apply State.wantPoll_keeps
    | with_reducible apply State.onDev_keeps
    | with_reducible apply State.updPly_keeps
    | with_reducible apply State.updPort_keeps
    | (with_reducible refine Keeps.mkTake _ (by assumption) ?_)
    | with_reducible apply KeepsRes.next
    | with_reducible apply State.clocked_keeps
    | with_reducible apply Keeps.ite
    | split
    | dsimp only
    | simp only [Keeps.mkDev_iff]

theorem execNudgeCq_keeps (q : Fin 4) (p : Fin 64) (s : State) : KeepsRes wr s (execNudgeCq q p s) := by
  unfold execNudgeCq
  have hk : Keeps wr s s := Keeps.refl s
  repeat' first
    | with_reducible assumption
    | intro _
    | with_reducible exact Keeps.refl _
    | with_reducible apply State.updCq_keeps
    | with_reducible apply State.wantCons_keeps
    | with_reducible apply State.onDev_keeps
    | with_reducible apply State.updPly_keeps
    | with_reducible apply State.updPort_keeps
    | with_reducible apply KeepsRes.next
    | with_reducible apply State.clocked_keeps
    | with_reducible apply Keeps.ite
    | split

theorem execRingEnable_keeps (q : Fin 4) (p : Fin 64) (ring : Fin 5) (value : Word) (s : State) : KeepsRes wr s (execRingEnable q p ring value s) := by
  unfold execRingEnable
  have hk : Keeps wr s s := Keeps.refl s
  repeat' first
    | with_reducible assumption
    | intro _
    | with_reducible exact Keeps.refl _
    | with_reducible apply State.onDev_keeps
    | with_reducible apply State.updRing_keeps
    | with_reducible apply State.updCq_keeps
    | with_reducible apply State.startPass_keeps
    | with_reducible apply State.updPly_keeps
    | with_reducible apply State.updPort_keeps
    | (with_reducible refine Keeps.mkTake _ (by assumption) ?_)
    | with_reducible apply KeepsRes.next
    | with_reducible apply State.clocked_keeps
    | with_reducible apply Keeps.ite
    | split
    | dsimp only
    | simp only [Keeps.mkDev_iff]

theorem execRingDisable_keeps (q : Fin 4) (p : Fin 64) (r : Fin 4) (s : State) : KeepsRes wr s (execRingDisable q p r s) := by
  unfold execRingDisable
  have hk : Keeps wr s s := Keeps.refl s
  repeat' first
    | with_reducible assumption
    | intro _
    | with_reducible exact Keeps.refl _
    | with_reducible apply State.onDev_keeps
    | with_reducible apply State.updPly_keeps
    | with_reducible apply State.updRing_keeps
    | with_reducible apply State.updPort_keeps
    | with_reducible apply KeepsRes.next
    | with_reducible apply State.clocked_keeps
    | with_reducible apply Keeps.ite
    | split
    | dsimp only
    | simp only [Keeps.mkDev_iff]

theorem execCqDisable_keeps (q : Fin 4) (p : Fin 64) (s : State) : KeepsRes wr s (execCqDisable q p s) := by
  unfold execCqDisable
  have hk : Keeps wr s s := Keeps.refl s
  repeat' first
    | with_reducible assumption
    | intro _
    | with_reducible exact Keeps.refl _
    | with_reducible apply State.each_keeps
    | with_reducible apply State.onDev_keeps
    | with_reducible apply State.updPly_keeps
    | with_reducible apply State.updPort_keeps
    | with_reducible apply KeepsRes.next
    | with_reducible apply State.clocked_keeps
    | with_reducible apply Keeps.ite
    | split
    | dsimp only
    | simp only [Keeps.mkDev_iff]

theorem execFenceValHiWrite_keeps (q : Fin 4) (p : Fin 64) (value : Word) (s : State) : KeepsRes wr s (execFenceValHiWrite q p value s) := by
  unfold execFenceValHiWrite
  have hk : Keeps wr s s := Keeps.refl s
  repeat' first
    | with_reducible assumption
    | intro _
    | with_reducible exact Keeps.refl _
    | with_reducible apply State.onDev_keeps
    | with_reducible apply State.updPly_keeps
    | with_reducible apply State.updPort_keeps
    | with_reducible apply KeepsRes.next
    | with_reducible apply State.clocked_keeps
    | with_reducible apply Keeps.ite
    | split

theorem execFenceValLoRead_keeps (q : Fin 4) (p : Fin 64) (s : State) : KeepsRes wr s (execFenceValLoRead q p s) := by
  unfold execFenceValLoRead
  have hk : Keeps wr s s := Keeps.refl s
  repeat' first
    | with_reducible assumption
    | intro _
    | with_reducible exact Keeps.refl _
    | with_reducible apply State.emit_keeps
    | with_reducible apply State.onDev_keeps
    | with_reducible apply State.updPly_keeps
    | with_reducible apply State.updPort_keeps
    | with_reducible apply KeepsRes.next
    | with_reducible apply State.clocked_keeps
    | with_reducible apply Keeps.ite
    | split

theorem execRingServiceResume_keeps (p : Fin 64) (r : Fin 4) (s : State) : KeepsRes wr s (execRingServiceResume p r s) := by
  unfold execRingServiceResume
  have hk : Keeps wr s s := Keeps.refl s
  repeat' first
    | with_reducible assumption
    | intro _
    | with_reducible exact Keeps.refl _
    | with_reducible apply State.startPass_keeps
    | with_reducible apply State.onDev_keeps
    | with_reducible apply State.updPly_keeps
    | with_reducible apply State.updPort_keeps
    | (with_reducible refine Keeps.mkTake _ (by assumption) ?_)
    | with_reducible apply KeepsRes.next
    | with_reducible apply State.clocked_keeps
    | with_reducible apply Keeps.ite
    | split

theorem State.readSlots_keeps {s₀ : State} (s : State) (p : Fin 64) (r : Fin 4) (hk : Keeps wr s₀ s) : Keeps wr s₀ (State.readSlots s p r) := by
  unfold State.readSlots
  repeat' first
    | with_reducible assumption
    | intro _
    | with_reducible exact Keeps.refl _
    | with_reducible apply State.updRing_keeps
    | with_reducible apply State.plyReads_keeps
    | with_reducible apply State.onDev_keeps
    | with_reducible apply State.updPly_keeps
    | with_reducible apply State.updPort_keeps
    | with_reducible apply State.issueRead_keeps
    | with_reducible apply Keeps.ite
    | split
    | dsimp only
    | simp only [Keeps.mkDev_iff]

theorem State.goToSleep_keeps {s₀ : State} (s : State) (p : Fin 64) (r : Fin 4) (hk : Keeps wr s₀ s) : Keeps wr s₀ (State.goToSleep s p r) := by
  unfold State.goToSleep
  repeat' first
    | with_reducible assumption
    | intro _
    | with_reducible exact Keeps.refl _
    | with_reducible apply State.writeAsleep_keeps
    | with_reducible apply State.readRecord_keeps

theorem execDoorbellRecordReadDone_keeps (p : Fin 64) (r : Fin 4) (prod : Word) (s : State) : KeepsRes wr s (execDoorbellRecordReadDone p r prod s) := by
  unfold execDoorbellRecordReadDone
  have hk : Keeps wr s s := Keeps.refl s
  repeat' first
    | with_reducible assumption
    | intro _
    | with_reducible exact Keeps.refl _
    | with_reducible apply State.updRing_keeps
    | with_reducible apply State.endReads_keeps
    | with_reducible apply State.writeAsleep_keeps
    | with_reducible apply State.readRecord_keeps
    | with_reducible apply State.startPass_keeps
    | with_reducible apply State.stopRing_keeps
    | with_reducible apply State.readSlots_keeps
    | with_reducible apply State.goToSleep_keeps
    | with_reducible apply State.onDev_keeps
    | with_reducible apply State.updPly_keeps
    | with_reducible apply State.updPort_keeps
    | (with_reducible refine Keeps.mkTake _ (by assumption) ?_)
    | with_reducible apply KeepsRes.next
    | with_reducible apply State.clocked_keeps
    | with_reducible apply State.endRead_keeps
    | with_reducible apply Keeps.ite
    | split
    | dsimp only
    | simp only [Keeps.mkDev_iff]

theorem execSlotReadDone_keeps (p : Fin 64) (r : Fin 4) (slots : List (List Byte)) (s : State) : KeepsRes wr s (execSlotReadDone p r slots s) := by
  unfold execSlotReadDone
  have hk : Keeps wr s s := Keeps.refl s
  repeat' first
    | with_reducible assumption
    | intro _
    | with_reducible exact Keeps.refl _
    | with_reducible apply State.updRing_keeps
    | with_reducible apply State.endReads_keeps
    | with_reducible apply State.writeCons_keeps
    | with_reducible apply State.stopRing_keeps
    | with_reducible apply State.acceptBatch_keeps
    | with_reducible apply State.readSlots_keeps
    | with_reducible apply State.goToSleep_keeps
    | with_reducible apply State.onDev_keeps
    | with_reducible apply State.updPly_keeps
    | with_reducible apply State.updPort_keeps
    | (with_reducible refine Keeps.mkTake _ (by assumption) ?_)
    | with_reducible apply KeepsRes.next
    | with_reducible apply State.clocked_keeps
    | with_reducible apply State.endRead_keeps
    | with_reducible apply Keeps.ite
    | split
    | dsimp only
    | simp only [Keeps.mkDev_iff]

theorem execPollTimer_keeps (p : Fin 64) (s : State) : KeepsRes wr s (execPollTimer p s) := by
  unfold execPollTimer
  have hk : Keeps wr s s := Keeps.refl s
  repeat' first
    | with_reducible assumption
    | intro _
    | with_reducible exact Keeps.refl _
    | with_reducible apply State.wantPoll_keeps
    | with_reducible apply State.onDev_keeps
    | with_reducible apply State.updPly_keeps
    | with_reducible apply State.updPort_keeps
    | with_reducible apply KeepsRes.next
    | with_reducible apply State.clocked_keeps

theorem State.acceptPolled_keeps {s₀ : State} (s : State) (p : Fin 64) (r : Fin 4) (known prod : Word) (slots : List (List Byte)) (n : Nat)
    (hk : Keeps wr s₀ s) : Keeps wr s₀ (s.acceptPolled p r known prod slots n) := by
  induction n generalizing s with
  | zero => exact hk
  | succ n ih =>
    unfold State.acceptPolled
    dsimp only
    split
    · exact hk
    · split
      · split
        · exact State.stopRing_keeps _ _ _ hk
        · exact hk
      · split
        · exact hk
        · exact ih _ (State.accept_keeps (by assumption) hk)

theorem execPollReadsDone_keeps (p : Fin 64) (block : List Byte) (slots : Vector (List (List Byte)) 4) (s : State) : KeepsRes wr s (execPollReadsDone p block slots s) := by
  unfold execPollReadsDone
  have hk : Keeps wr s s := Keeps.refl s
  repeat' first
    | with_reducible assumption
    | intro _
    | with_reducible exact Keeps.refl _
    | with_reducible apply State.each_keeps
    | with_reducible apply State.updRing_keeps
    | with_reducible apply State.writeCons_keeps
    | with_reducible apply State.stopRing_keeps
    | with_reducible apply State.endPoll_keeps
    | with_reducible apply State.acceptPolled_keeps
    | with_reducible apply State.onDev_keeps
    | with_reducible apply State.updPly_keeps
    | with_reducible apply State.updPort_keeps
    | with_reducible apply KeepsRes.next
    | with_reducible apply State.clocked_keeps
    | with_reducible apply Keeps.ite
    | split
    | dsimp only
    | simp only [Keeps.mkDev_iff]

theorem execCqConsReadDone_keeps (p : Fin 64) (cons : Word) (s : State) : KeepsRes wr s (execCqConsReadDone p cons s) := by
  unfold execCqConsReadDone
  have hk : Keeps wr s s := Keeps.refl s
  repeat' first
    | with_reducible assumption
    | intro _
    | with_reducible exact Keeps.refl _
    | with_reducible apply State.onDev_keeps
    | with_reducible apply State.updCq_keeps
    | with_reducible apply State.plyReads_keeps
    | with_reducible apply State.endReads_keeps
    | with_reducible apply State.wantCons_keeps
    | with_reducible apply State.updPly_keeps
    | with_reducible apply State.updPort_keeps
    | with_reducible apply KeepsRes.next
    | with_reducible apply State.clocked_keeps
    | with_reducible apply State.issueRead_keeps
    | with_reducible apply State.endRead_keeps
    | with_reducible apply Keeps.ite
    | split
    | dsimp only
    | simp only [Keeps.mkDev_iff]

theorem State.dispatch_keeps {s₀ : State} (s : State) (p : Fin 64) (r : Fin 4) (order : Nat) (mark : Nat) (hk : Keeps wr s₀ s) : Keeps wr s₀ (State.dispatch s p r order mark) := by
  unfold State.dispatch
  repeat' first
    | with_reducible assumption
    | intro _
    | with_reducible exact Keeps.refl _
    | with_reducible apply State.updDesc_keeps

theorem execFenceWaitTimeout_keeps (p : Fin 64) (r : Fin 4) (s : State) : KeepsRes wr s (execFenceWaitTimeout p r s) := by
  unfold execFenceWaitTimeout
  have hk : Keeps wr s s := Keeps.refl s
  repeat' first
    | with_reducible assumption
    | intro _
    | with_reducible exact Keeps.refl _
    | with_reducible apply State.finishDesc_keeps
    | with_reducible apply State.onDev_keeps
    | with_reducible apply State.updPly_keeps
    | with_reducible apply State.updPort_keeps
    | with_reducible apply State.each_keeps
    | with_reducible apply KeepsRes.next
    | with_reducible apply State.clocked_keeps
    | with_reducible apply Keeps.ite
    | split

theorem execNop_keeps (p : Fin 64) (r : Fin 4) (s : State) : KeepsRes wr s (execNop p r s) := by
  unfold execNop
  have hk : Keeps wr s s := Keeps.refl s
  repeat' first
    | with_reducible assumption
    | intro _
    | with_reducible exact Keeps.refl _
    | with_reducible apply State.finishDesc_keeps
    | with_reducible apply State.onDev_keeps
    | with_reducible apply State.updPly_keeps
    | with_reducible apply State.updPort_keeps
    | with_reducible apply KeepsRes.next
    | with_reducible apply State.clocked_keeps
    | with_reducible apply Keeps.ite
    | split

theorem execFenceWait_keeps (p : Fin 64) (r : Fin 4) (s : State) : KeepsRes wr s (execFenceWait p r s) := by
  unfold execFenceWait
  have hk : Keeps wr s s := Keeps.refl s
  repeat' first
    | with_reducible assumption
    | intro _
    | with_reducible exact Keeps.refl _
    | with_reducible apply State.finishDesc_keeps
    | with_reducible apply State.onDev_keeps
    | with_reducible apply State.updPly_keeps
    | with_reducible apply State.updPort_keeps
    | with_reducible apply KeepsRes.next
    | with_reducible apply State.clocked_keeps
    | with_reducible apply Keeps.ite
    | split

theorem execFenceSignal_keeps (p : Fin 64) (r : Fin 4) (s : State) : KeepsRes wr s (execFenceSignal p r s) := by
  unfold execFenceSignal
  have hk : Keeps wr s s := Keeps.refl s
  repeat' first
    | with_reducible assumption
    | intro _
    | with_reducible exact Keeps.refl _
    | with_reducible apply State.finishDesc_keeps
    | with_reducible apply State.onDev_keeps
    | with_reducible apply State.updPly_keeps
    | with_reducible apply State.updPort_keeps
    | with_reducible apply KeepsRes.next
    | with_reducible apply State.clocked_keeps
    | with_reducible apply Keeps.ite
    | split

theorem State.copyPiece_keeps {s₀ s s₁ : State} {p : Fin 64} {src dst n : Nat} {srcHost dstHost : Bool} {host : List Byte} {b : Bool}
    (e : s.copyPiece p src dst n srcHost dstHost host = some (s₁, b)) (hk : Keeps true s₀ s) : Keeps true s₀ s₁ := by
  unfold State.copyPiece at e
  split at e
  · cases e
  · have hm := State.takeMem_keeps (by assumption) hk
    split at e
    · cases e; exact State.faultAt_keeps _ _ _ _ _ _ hm
    · split at e
      · cases e; exact State.onDev_keeps _ _ hm
      · split at e
        · cases e; exact State.faultAt_keeps _ _ _ _ _ _ hm
        · cases e; exact State.plyWrite_keeps (by assumption) hm

theorem State.moveOn_keeps {s₀ s s₁ : State} {p : Fin 64} {r : Fin 4} {f : InFlight} {n : Nat} {host : List Byte}
    (e : s.moveOn p r f n host = some s₁) (hk : Keeps true s₀ s) : Keeps true s₀ s₁ := by
  unfold State.moveOn at e
  obtain ⟨⟨u, b⟩, hu, h⟩ := Option.map_eq_some_iff.mp e
  have hk' := State.copyPiece_keeps hu hk
  cases b
  · exact h ▸ State.finishDesc_keeps _ _ _ _ _ _ hk'
  · dsimp only at h
    split at h
    · exact h ▸ State.updDesc_keeps _ _ _ _ _ hk'
    · exact h ▸ State.finishDesc_keeps _ _ _ _ _ _ hk'

theorem State.readData_keeps {s₀ : State} (s : State) (p : Fin 64) (r : Fin 4) (f : InFlight) (addr : Nat) (n : Nat) (hk : Keeps wr s₀ s) : Keeps wr s₀ (State.readData s p r f addr n) := by
  unfold State.readData
  repeat' first
    | with_reducible assumption
    | intro _
    | with_reducible exact Keeps.refl _
    | with_reducible apply State.plyReads_keeps
    | with_reducible apply State.updDesc_keeps
    | with_reducible apply State.onDev_keeps
    | with_reducible apply State.updPly_keeps
    | with_reducible apply State.updPort_keeps
    | with_reducible apply Keeps.ite
    | split
    | dsimp only
    | simp only [Keeps.mkDev_iff]

theorem State.copyOn_keeps {s₀ : State} (s : State) (p : Fin 64) (r : Fin 4) (f : InFlight) (n : Nat) (host : List Byte) (hk : Keeps true s₀ s) : Keeps true s₀ (State.copyOn s p r f n host) := by
  unfold State.copyOn
  repeat' first
    | with_reducible assumption
    | intro _
    | with_reducible exact Keeps.refl _
    | with_reducible apply State.endReads_keeps
    | (with_reducible refine State.moveOn_keeps (by assumption) ?_)
    | with_reducible apply State.readData_keeps
    | with_reducible apply State.onDev_keeps
    | with_reducible apply State.updPly_keeps
    | with_reducible apply State.updPort_keeps
    | with_reducible apply Keeps.getD
    | with_reducible apply Keeps.ite
    | split
    | dsimp only
    | simp only [Keeps.mkDev_iff]

theorem execCopy_keeps (p : Fin 64) (r : Fin 4) (seq : Word) (n : Nat) (host : List Byte) (s : State) : KeepsRes true s (execCopy p r seq n host s) := by
  unfold execCopy
  have hk : Keeps true s s := Keeps.refl s
  repeat' first
    | with_reducible assumption
    | intro _
    | with_reducible exact Keeps.refl _
    | with_reducible apply State.dispatch_keeps
    | with_reducible apply State.copyOn_keeps
    | with_reducible apply State.onDev_keeps
    | with_reducible apply State.updPly_keeps
    | with_reducible apply State.updPort_keeps
    | with_reducible apply KeepsRes.next
    | with_reducible apply State.clocked_keeps
    | with_reducible apply State.moveOn_keeps
    | with_reducible apply Keeps.ite
    | split
    | dsimp only
    | simp only [Keeps.mkDev_iff]

theorem execFill_keeps (p : Fin 64) (r : Fin 4) (seq : Word) (n : Nat) (s : State) : KeepsRes true s (execFill p r seq n s) := by
  unfold execFill
  have hk : Keeps true s s := Keeps.refl s
  repeat' first
    | with_reducible assumption
    | intro _
    | with_reducible exact Keeps.refl _
    | with_reducible apply State.dispatch_keeps
    | (with_reducible refine State.moveOn_keeps (by assumption) ?_)
    | with_reducible apply State.onDev_keeps
    | with_reducible apply State.updPly_keeps
    | with_reducible apply State.updPort_keeps
    | with_reducible apply Keeps.getD
    | with_reducible apply KeepsRes.next
    | with_reducible apply State.clocked_keeps
    | with_reducible apply State.moveOn_keeps
    | with_reducible apply Keeps.ite
    | split
    | dsimp only
    | simp only [Keeps.mkDev_iff]

theorem execMap_keeps (p : Fin 64) (r : Fin 4) (s : State) : KeepsRes wr s (execMap p r s) := by
  unfold execMap
  have hk : Keeps wr s s := Keeps.refl s
  repeat' first
    | with_reducible assumption
    | intro _
    | with_reducible exact Keeps.refl _
    | with_reducible apply State.finishDesc_keeps
    | with_reducible apply State.onDev_keeps
    | with_reducible apply State.updPly_keeps
    | with_reducible apply State.updPort_keeps
    | with_reducible apply Keeps.foldl
    | with_reducible apply KeepsRes.next
    | with_reducible apply State.clocked_keeps
    | with_reducible apply Keeps.ite
    | split
    | dsimp only

theorem execUnmap_keeps (p : Fin 64) (r : Fin 4) (s : State) : KeepsRes wr s (execUnmap p r s) := by
  unfold execUnmap
  have hk : Keeps wr s s := Keeps.refl s
  repeat' first
    | with_reducible assumption
    | intro _
    | with_reducible exact Keeps.refl _
    | with_reducible apply State.finishDesc_keeps
    | with_reducible apply State.onDev_keeps
    | with_reducible apply State.updPly_keeps
    | with_reducible apply State.updPort_keeps
    | with_reducible apply KeepsRes.next
    | with_reducible apply State.clocked_keeps
    | with_reducible apply Keeps.ite
    | split

theorem execHostReadCompletion_keeps (i : Nat) (s : State) : KeepsRes wr s (execHostReadCompletion i s) := by
  unfold execHostReadCompletion
  have hk : Keeps wr s s := Keeps.refl s
  repeat' first
    | with_reducible assumption
    | intro _
    | with_reducible exact Keeps.refl _
    | with_reducible apply State.endRead_keeps
    | with_reducible apply State.onDev_keeps
    | with_reducible apply State.updPly_keeps
    | with_reducible apply State.updPort_keeps
    | with_reducible apply KeepsRes.next
    | with_reducible apply State.clocked_keeps
    | with_reducible apply Keeps.ite
    | split
    | dsimp only
    | simp only [Keeps.mkDev_iff]

theorem State.afterTimeout_keeps {s₀ : State} (s : State) (r : HostRead) (hk : Keeps wr s₀ s) : Keeps wr s₀ (State.afterTimeout s r) := by
  unfold State.afterTimeout
  repeat' first
    | with_reducible assumption
    | intro _
    | with_reducible exact Keeps.refl _
    | with_reducible apply State.onDev_keeps
    | with_reducible apply State.updCq_keeps
    | with_reducible apply State.issueRead_keeps
    | with_reducible apply State.updPly_keeps
    | with_reducible apply State.updPort_keeps
    | (with_reducible refine Keeps.mkTake _ (by assumption) ?_)
    | with_reducible apply Keeps.ite
    | split
    | dsimp only
    | simp only [Keeps.mkDev_iff]

theorem execHtagCompletionTimeout_keeps (i : Nat) (poll : Option (Fin 64)) (s : State) : KeepsRes wr s (execHtagCompletionTimeout i poll s) := by
  unfold execHtagCompletionTimeout
  have hk : Keeps wr s s := Keeps.refl s
  repeat' first
    | with_reducible assumption
    | intro _
    | with_reducible exact Keeps.refl _
    | with_reducible apply State.endRead_keeps
    | with_reducible apply State.endPoll_keeps
    | with_reducible apply State.afterTimeout_keeps
    | with_reducible apply State.onDev_keeps
    | with_reducible apply State.updPly_keeps
    | with_reducible apply State.updPort_keeps
    | with_reducible apply KeepsRes.next
    | with_reducible apply State.clocked_keeps
    | with_reducible apply Keeps.ite
    | split

theorem execCreditWaitRetry_keeps (i : Nat) (s : State) : KeepsRes wr s (execCreditWaitRetry i s) := by
  unfold execCreditWaitRetry
  have hk : Keeps wr s s := Keeps.refl s
  repeat' first
    | with_reducible assumption
    | intro _
    | with_reducible exact Keeps.refl _
    | with_reducible apply State.issueRead_keeps
    | with_reducible apply State.onDev_keeps
    | with_reducible apply State.updPly_keeps
    | with_reducible apply State.updPort_keeps
    | with_reducible apply KeepsRes.next
    | with_reducible apply State.clocked_keeps
    | with_reducible apply Keeps.ite
    | split

theorem execIommuRefusal_keeps (p : Fin 64) (addr : Nat) (access : RefusedAccess) (read : Option Nat) (s : State) : KeepsRes wr s (execIommuRefusal p addr access read s) := by
  unfold execIommuRefusal
  have hk : Keeps wr s s := Keeps.refl s
  repeat' first
    | with_reducible assumption
    | intro _
    | with_reducible exact Keeps.refl _
    | with_reducible apply State.endRead_keeps
    | with_reducible apply State.faultPly_keeps
    | with_reducible apply State.onDev_keeps
    | with_reducible apply State.updPly_keeps
    | with_reducible apply State.updPort_keeps
    | with_reducible apply KeepsRes.next
    | with_reducible apply State.clocked_keeps
    | with_reducible apply Keeps.ite
    | split
    | dsimp only
    | simp only [Keeps.mkDev_iff]

theorem execHapRecharge_keeps (s : State) : KeepsRes wr s (execHapRecharge s) :=
  State.clocked_keeps _ _ (Keeps.refl s) (KeepsRes.next ((Keeps.refl s).mkSkein _ _ Skein.rechargeHap_conserves))

end Sys2Proof.Machine
end

