-- ==== Sys2Proof/Laws/Mailbox.lean ====
section
/-! SUPPORT. Laws/Mailbox.lean: the operations and commands of Machine/Mailbox.lean keep the queue, the canonical form of DRAM and the credits. -/
namespace Sys2Proof.Machine
variable {wr : Bool}

theorem State.respond_keeps {s₀ : State} (s : State) (q : Fin 4) (r : MbxResponse) (hk : Keeps wr s₀ s) : Keeps wr s₀ (State.respond s q r) := by
  unfold State.respond
  repeat' first
    | with_reducible assumption
    | intro _
    | with_reducible exact Keeps.refl _
    | with_reducible apply State.onDev_keeps
    | with_reducible apply State.updPly_keeps
    | with_reducible apply State.updPort_keeps

theorem State.answer_keeps {s₀ : State} (s : State) (j : Journal) (status : Nat) (result : List Byte) (hk : Keeps wr s₀ s) : Keeps wr s₀ (State.answer s j status result) := by
  unfold State.answer
  repeat' first
    | with_reducible assumption
    | intro _
    | with_reducible exact Keeps.refl _
    | with_reducible apply State.respond_keeps
    | with_reducible apply State.onDev_keeps
    | with_reducible apply State.updPly_keeps
    | with_reducible apply State.updPort_keeps
    | with_reducible apply Keeps.ite

theorem State.hold_keeps {s₀ : State} (s : State) (j : Journal) (hk : Keeps wr s₀ s) : Keeps wr s₀ (State.hold s j) := by
  unfold State.hold
  repeat' first
    | with_reducible assumption
    | intro _
    | with_reducible exact Keeps.refl _
    | with_reducible apply State.onDev_keeps
    | with_reducible apply State.updPly_keeps
    | with_reducible apply State.updPort_keeps
    | with_reducible apply Keeps.ite

theorem State.managed_keeps {s₀ : State} (s : State) (order : Nat) (code : Nat) (act : Journal → State) (hk : Keeps wr s₀ s) (hact : ∀ x, Keeps wr s₀ (act x)) : KeepsRes wr s₀ (State.managed s order code act) := by
  unfold State.managed
  repeat' first
    | with_reducible assumption
    | intro _
    | with_reducible exact Keeps.refl _
    | with_reducible apply State.answer_keeps
    | with_reducible apply State.onDev_keeps
    | with_reducible apply State.updPly_keeps
    | with_reducible apply State.updPort_keeps
    | with_reducible apply KeepsRes.next
    | with_reducible apply Keeps.ite
    | with_reducible apply hact
    | split

theorem execMbxReqProdWrite_keeps (q : Fin 4) (value : Word) (s : State) : KeepsRes wr s (execMbxReqProdWrite q value s) := by
  unfold execMbxReqProdWrite
  have hk : Keeps wr s s := Keeps.refl s
  repeat' first
    | with_reducible assumption
    | intro _
    | with_reducible exact Keeps.refl _
    | with_reducible apply State.onDev_keeps
    | with_reducible apply State.updPort_keeps
    | with_reducible apply State.updPly_keeps
    | with_reducible apply KeepsRes.next
    | with_reducible apply State.clocked_keeps
    | with_reducible apply Keeps.ite
    | split
    | dsimp only
    | simp only [Keeps.mkDev_iff]

theorem execMbxRspConsWrite_keeps (q : Fin 4) (value : Word) (s : State) : KeepsRes wr s (execMbxRspConsWrite q value s) := by
  unfold execMbxRspConsWrite
  have hk : Keeps wr s s := Keeps.refl s
  repeat' first
    | with_reducible assumption
    | intro _
    | with_reducible exact Keeps.refl _
    | with_reducible apply State.updPort_keeps
    | with_reducible apply State.onDev_keeps
    | with_reducible apply State.updPly_keeps
    | with_reducible apply KeepsRes.next
    | with_reducible apply State.clocked_keeps
    | with_reducible apply Keeps.ite
    | split
    | dsimp only
    | simp only [Keeps.mkDev_iff]

theorem State.restartElytra_keeps {s₀ : State} (s : State) (cause : Nat) (hk : Keeps wr s₀ s) : Keeps wr s₀ (State.restartElytra s cause) := by
  unfold State.restartElytra
  repeat' first
    | with_reducible assumption
    | intro _
    | with_reducible exact Keeps.refl _
    | with_reducible apply State.onDev_keeps
    | with_reducible apply State.updPly_keeps
    | with_reducible apply State.updPort_keeps
    | with_reducible apply Keeps.ite
    | split
    | dsimp only
    | simp only [Keeps.mkDev_iff]

theorem execMbxRequestTake_keeps (fetched : Word) (s : State) : KeepsRes wr s (execMbxRequestTake fetched s) := by
  unfold execMbxRequestTake
  have hk : Keeps wr s s := Keeps.refl s
  repeat' first
    | with_reducible assumption
    | intro _
    | with_reducible exact Keeps.refl _
    | (with_reducible refine State.accept_keeps (by assumption) ?_)
    | with_reducible apply State.respond_keeps
    | with_reducible apply State.restartElytra_keeps
    | with_reducible apply State.onDev_keeps
    | with_reducible apply State.updPly_keeps
    | with_reducible apply State.updPort_keeps
    | with_reducible apply KeepsRes.next
    | with_reducible apply State.clocked_keeps
    | with_reducible apply Keeps.ite
    | split
    | dsimp only

theorem execMbxResponse_keeps (q : Fin 4) (s : State) : KeepsRes wr s (execMbxResponse q s) := by
  unfold execMbxResponse
  have hk : Keeps wr s s := Keeps.refl s
  repeat' first
    | with_reducible assumption
    | intro _
    | with_reducible exact Keeps.refl _
    | with_reducible apply State.onDev_keeps
    | with_reducible apply State.updPly_keeps
    | with_reducible apply State.updPort_keeps
    | with_reducible apply Keeps.foldl
    | with_reducible apply KeepsRes.next
    | with_reducible apply State.clocked_keeps
    | with_reducible apply Keeps.ite
    | split
    | dsimp only

theorem execGate_keeps (s : State) : KeepsRes wr s (execGate s) := by
  unfold execGate
  have hk : Keeps wr s s := Keeps.refl s
  repeat' first
    | with_reducible assumption
    | intro _
    | with_reducible exact Keeps.refl _
    | with_reducible apply State.onDev_keeps
    | with_reducible apply State.updPly_keeps
    | with_reducible apply State.updPort_keeps
    | with_reducible apply KeepsRes.next
    | with_reducible apply State.clocked_keeps

end Sys2Proof.Machine
end

