-- ==== Sys2Proof/Laws/Cocoon.lean ====
section
/-! SUPPORT. Laws/Cocoon.lean: the operations and commands of Machine/Cocoon.lean keep the queue, the canonical form of DRAM and the credits. -/
namespace Sys2Proof.Machine
variable {wr : Bool}

theorem State.cocoon_keeps {s₀ : State} (s : State) (code : Nat) (sev : Nat) (ply : Nat) (data : List Byte) (hk : Keeps wr s₀ s) : Keeps wr s₀ (State.cocoon s code sev ply data) := by
  unfold State.cocoon
  repeat' first
    | with_reducible assumption
    | intro _
    | with_reducible exact Keeps.refl _
    | with_reducible apply State.onDev_keeps
    | with_reducible apply State.updPly_keeps
    | with_reducible apply State.updPort_keeps
    | with_reducible apply Keeps.ite
    | split
    | dsimp only
    | simp only [Keeps.mkDev_iff]

theorem execCocoonRefill_keeps (s : State) : KeepsRes wr s (execCocoonRefill s) := by
  unfold execCocoonRefill
  have hk : Keeps wr s s := Keeps.refl s
  repeat' first
    | with_reducible assumption
    | intro _
    | with_reducible exact Keeps.refl _
    | with_reducible apply State.onDev_keeps
    | with_reducible apply State.updPly_keeps
    | with_reducible apply State.updPort_keeps
    | with_reducible apply KeepsRes.next
    | with_reducible apply Keeps.ite
    | split

theorem State.reportOverflow_keeps {s₀ : State} (s : State) (hk : Keeps wr s₀ s) : Keeps wr s₀ (State.reportOverflow s) := by
  unfold State.reportOverflow
  repeat' first
    | with_reducible assumption
    | intro _
    | with_reducible exact Keeps.refl _
    | with_reducible apply State.postManager_keeps
    | with_reducible apply State.cocoon_keeps
    | with_reducible apply State.onDev_keeps
    | with_reducible apply State.updPly_keeps
    | with_reducible apply State.updPort_keeps
    | with_reducible apply Keeps.ite

theorem execCocoonSlotWrite_keeps (good : Bool) (s : State) : KeepsRes wr s (execCocoonSlotWrite good s) := by
  unfold execCocoonSlotWrite
  have hk : Keeps wr s s := Keeps.refl s
  repeat' first
    | with_reducible assumption
    | intro _
    | with_reducible exact Keeps.refl _
    | with_reducible apply State.reportOverflow_keeps
    | with_reducible apply State.onDev_keeps
    | with_reducible apply State.updPly_keeps
    | with_reducible apply State.updPort_keeps
    | (with_reducible refine Keeps.mkTake _ (by assumption) ?_)
    | with_reducible apply KeepsRes.next
    | with_reducible apply State.clocked_keeps
    | with_reducible apply Keeps.ite
    | split

theorem execCocoonSectorErase_keeps (s : State) : KeepsRes wr s (execCocoonSectorErase s) := by
  unfold execCocoonSectorErase
  have hk : Keeps wr s s := Keeps.refl s
  repeat' first
    | with_reducible assumption
    | intro _
    | with_reducible exact Keeps.refl _
    | with_reducible apply State.onDev_keeps
    | with_reducible apply State.updPly_keeps
    | with_reducible apply State.updPort_keeps
    | with_reducible apply KeepsRes.next
    | with_reducible apply State.clocked_keeps
    | with_reducible apply Keeps.ite
    | split

theorem execCcnOpsecLoRead_keeps (q : PairRead) (s : State) : KeepsRes wr s (execCcnOpsecLoRead q s) := by
  unfold execCcnOpsecLoRead
  have hk : Keeps wr s s := Keeps.refl s
  repeat' first
    | with_reducible assumption
    | intro _
    | with_reducible exact Keeps.refl _
    | with_reducible apply State.readPair_keeps
    | with_reducible apply State.onDev_keeps
    | with_reducible apply State.updPly_keeps
    | with_reducible apply State.updPort_keeps
    | with_reducible apply KeepsRes.next
    | with_reducible apply State.clocked_keeps
    | with_reducible apply State.emit_keeps
    | with_reducible apply Keeps.ite
    | split
    | dsimp only
    | simp only [Keeps.mkDev_iff]

theorem State.audited_keeps {s₀ : State} (s : State) (order : Nat) (code : Nat) (act : Journal → State) (hk : Keeps wr s₀ s) (hact : ∀ x, Keeps wr s₀ (act x)) : KeepsRes wr s₀ (State.audited s order code act) := by
  unfold State.audited
  repeat' first
    | with_reducible assumption
    | intro _
    | with_reducible exact Keeps.refl _
    | with_reducible apply State.answer_keeps
    | with_reducible apply State.onDev_keeps
    | with_reducible apply State.updPly_keeps
    | with_reducible apply State.updPort_keeps
    | with_reducible apply KeepsRes.next
    | with_reducible apply Keeps.ite
    | with_reducible apply hact
    | split

theorem execCcnInfo_keeps (order : Nat) (s : State) : KeepsRes wr s (execCcnInfo order s) := by
  unfold execCcnInfo
  have hk : Keeps wr s s := Keeps.refl s
  repeat' first
    | with_reducible assumption
    | intro _
    | with_reducible exact Keeps.refl _
    | with_reducible apply State.answer_keeps
    | with_reducible apply State.audited_keeps
    | with_reducible apply State.onDev_keeps
    | with_reducible apply State.updPly_keeps
    | with_reducible apply State.updPort_keeps
    | with_reducible apply KeepsRes.next
    | with_reducible apply State.clocked_keeps

theorem execCcnFreeze_keeps (order : Nat) (s : State) : KeepsRes wr s (execCcnFreeze order s) := by
  unfold execCcnFreeze
  have hk : Keeps wr s s := Keeps.refl s
  repeat' first
    | with_reducible assumption
    | intro _
    | with_reducible exact Keeps.refl _
    | with_reducible apply State.answer_keeps
    | with_reducible apply State.managed_keeps
    | with_reducible apply State.onDev_keeps
    | with_reducible apply State.updPly_keeps
    | with_reducible apply State.updPort_keeps
    | with_reducible apply KeepsRes.next
    | with_reducible apply State.clocked_keeps
    | with_reducible apply Keeps.ite

theorem execCcnThaw_keeps (order : Nat) (s : State) : KeepsRes wr s (execCcnThaw order s) := by
  unfold execCcnThaw
  have hk : Keeps wr s s := Keeps.refl s
  repeat' first
    | with_reducible assumption
    | intro _
    | with_reducible exact Keeps.refl _
    | with_reducible apply State.answer_keeps
    | with_reducible apply State.managed_keeps
    | with_reducible apply State.onDev_keeps
    | with_reducible apply State.updPly_keeps
    | with_reducible apply State.updPort_keeps
    | with_reducible apply KeepsRes.next
    | with_reducible apply State.clocked_keeps

theorem execCcnFreezeTimeout_keeps (s : State) : KeepsRes wr s (execCcnFreezeTimeout s) := by
  unfold execCcnFreezeTimeout
  have hk : Keeps wr s s := Keeps.refl s
  repeat' first
    | with_reducible assumption
    | intro _
    | with_reducible exact Keeps.refl _
    | with_reducible apply State.onDev_keeps
    | with_reducible apply State.updPly_keeps
    | with_reducible apply State.updPort_keeps
    | with_reducible apply KeepsRes.next
    | with_reducible apply State.clocked_keeps

theorem execCcnRead_keeps (order : Nat) (s : State) : KeepsRes wr s (execCcnRead order s) := by
  unfold execCcnRead
  have hk : Keeps wr s s := Keeps.refl s
  repeat' first
    | with_reducible assumption
    | intro _
    | with_reducible exact Keeps.refl _
    | with_reducible apply State.onDev_keeps
    | with_reducible apply State.answer_keeps
    | with_reducible apply State.audited_keeps
    | with_reducible apply State.updPly_keeps
    | with_reducible apply State.updPort_keeps
    | (with_reducible refine Keeps.mkTake _ (by assumption) ?_)
    | with_reducible apply KeepsRes.next
    | with_reducible apply State.clocked_keeps
    | with_reducible apply Keeps.ite
    | split
    | dsimp only
    | simp only [Keeps.mkDev_iff]

end Sys2Proof.Machine
end

