-- ==== Sys2Proof/Laws/Mc.lean ====
section
/-! SUPPORT. Laws/Mc.lean: the operations and commands of Machine/Mc.lean keep the queue, the canonical form of DRAM and the credits. -/
namespace Sys2Proof.Machine
variable {wr : Bool}

theorem State.updChan_keeps {s₀ : State} (s : State) (i : Fin 16) (f : Chan → Chan) (hk : Keeps wr s₀ s) : Keeps wr s₀ (State.updChan s i f) := by
  unfold State.updChan
  repeat' first
    | with_reducible assumption
    | intro _
    | with_reducible exact Keeps.refl _
    | with_reducible apply State.onDev_keeps

theorem State.updMc_keeps {s₀ : State} (s : State) (f : Mc → Mc) (hk : Keeps wr s₀ s) : Keeps wr s₀ (State.updMc s f) := by
  unfold State.updMc
  repeat' first
    | with_reducible assumption
    | intro _
    | with_reducible exact Keeps.refl _
    | with_reducible apply State.onDev_keeps

theorem State.sendCmd_keeps {s₀ : State} (s : State) (ch : Fin 16) (k : DramCmd) (addr : Nat) (hk : Keeps wr s₀ s) : Keeps wr s₀ (State.sendCmd s ch k addr) := by
  unfold State.sendCmd
  repeat' first
    | with_reducible assumption
    | intro _
    | with_reducible exact Keeps.refl _
    | with_reducible apply State.emit_keeps
    | with_reducible apply State.updChan_keeps
    | with_reducible apply State.onDev_keeps
    | with_reducible apply State.updPly_keeps
    | with_reducible apply State.updPort_keeps
    | with_reducible apply Keeps.ite
    | split
    | dsimp only
    | simp only [Keeps.mkDev_iff]

theorem execMemCommandOpportunity_keeps (ch : Fin 16) (good : Nat) (s : State) : KeepsRes true s (execMemCommandOpportunity ch good s) := by
  unfold execMemCommandOpportunity
  have hk : Keeps true s s := Keeps.refl s
  repeat' first
    | with_reducible assumption
    | intro _
    | with_reducible exact Keeps.refl _
    | with_reducible apply State.perform_keeps
    | with_reducible apply State.updChan_keeps
    | with_reducible apply State.sendCmd_keeps
    | with_reducible apply State.onDev_keeps
    | with_reducible apply State.updPly_keeps
    | with_reducible apply State.updPort_keeps
    | with_reducible apply KeepsRes.next
    | with_reducible apply State.clocked_keeps
    | with_reducible apply State.emit_keeps
    | with_reducible apply Keeps.mkWriteN
    | with_reducible apply Keeps.ite
    | split
    | dsimp only
    | simp only [Keeps.mkDev_iff]

theorem State.deviceUncorrectable_keeps {s₀ : State} (s : State) (phys : Nat) (u : DeviceUnit) (hk : Keeps wr s₀ s) : Keeps wr s₀ (State.deviceUncorrectable s phys u) := by
  unfold State.deviceUncorrectable
  repeat' first
    | with_reducible assumption
    | intro _
    | with_reducible exact Keeps.refl _
    | with_reducible apply State.each_keeps
    | with_reducible apply State.onDev_keeps
    | with_reducible apply State.cocoon_keeps
    | with_reducible apply State.faultPly_keeps
    | with_reducible apply State.updPly_keeps
    | with_reducible apply State.updPort_keeps
    | with_reducible apply Keeps.foldl
    | with_reducible apply Keeps.ite
    | split
    | dsimp only
    | simp only [Keeps.mkDev_iff]

theorem execPatrolScrub_keeps (addr : Nat) (errs : List (Nat × Byte)) (unit : DeviceUnit) (s : State) : KeepsRes wr s (execPatrolScrub addr errs unit s) := by
  unfold execPatrolScrub
  have hk : Keeps wr s s := Keeps.refl s
  repeat' first
    | with_reducible assumption
    | intro _
    | with_reducible exact Keeps.refl _
    | with_reducible apply State.eccFound_keeps
    | (with_reducible refine State.takeMem_keeps (by assumption) ?_)
    | with_reducible apply State.deviceUncorrectable_keeps
    | with_reducible apply State.onDev_keeps
    | with_reducible apply State.updPly_keeps
    | with_reducible apply State.updPort_keeps
    | (with_reducible refine Keeps.mkTake _ (by assumption) ?_)
    | with_reducible apply KeepsRes.next
    | with_reducible apply State.clocked_keeps
    | with_reducible apply State.eccReport_keeps
    | with_reducible apply Keeps.ite
    | split
    | dsimp only
    | simp only [Keeps.mkDev_iff]

theorem execBankIdleClose_keeps (ch : Fin 16) (bank : Fin 16) (s : State) : KeepsRes wr s (execBankIdleClose ch bank s) := by
  unfold execBankIdleClose
  have hk : Keeps wr s s := Keeps.refl s
  repeat' first
    | with_reducible assumption
    | intro _
    | with_reducible exact Keeps.refl _
    | with_reducible apply State.updChan_keeps
    | with_reducible apply State.onDev_keeps
    | with_reducible apply State.updPly_keeps
    | with_reducible apply State.updPort_keeps
    | with_reducible apply KeepsRes.next
    | with_reducible apply State.clocked_keeps

theorem execRefreshDue_keeps (ch : Fin 16) (bank : Fin 16) (s : State) : KeepsRes wr s (execRefreshDue ch bank s) := by
  unfold execRefreshDue
  have hk : Keeps wr s s := Keeps.refl s
  repeat' first
    | with_reducible assumption
    | intro _
    | with_reducible exact Keeps.refl _
    | with_reducible apply State.updChan_keeps
    | with_reducible apply State.sendCmd_keeps
    | with_reducible apply State.onDev_keeps
    | with_reducible apply State.updPly_keeps
    | with_reducible apply State.updPort_keeps
    | with_reducible apply KeepsRes.next
    | with_reducible apply State.clocked_keeps
    | with_reducible apply State.emit_keeps
    | with_reducible apply Keeps.ite
    | split
    | dsimp only
    | simp only [Keeps.mkDev_iff]

theorem execMr4Poll_keeps (rates : Vector Nat 32) (hot : Vector Bool 32) (s : State) : KeepsRes wr s (execMr4Poll rates hot s) := by
  unfold execMr4Poll
  have hk : Keeps wr s s := Keeps.refl s
  repeat' first
    | with_reducible assumption
    | intro _
    | with_reducible exact Keeps.refl _
    | with_reducible apply State.each_keeps
    | with_reducible apply State.updChan_keeps
    | with_reducible apply State.onDev_keeps
    | with_reducible apply State.updPly_keeps
    | with_reducible apply State.updPort_keeps
    | with_reducible apply KeepsRes.next
    | with_reducible apply State.clocked_keeps
    | with_reducible apply Keeps.ite
    | split
    | dsimp only
    | simp only [Keeps.mkDev_iff]

theorem execDramTraining_keeps (s : State) : KeepsRes wr s (execDramTraining s) := by
  unfold execDramTraining
  have hk : Keeps wr s s := Keeps.refl s
  repeat' first
    | with_reducible assumption
    | intro _
    | with_reducible exact Keeps.refl _
    | with_reducible apply State.onDev_keeps
    | with_reducible apply State.updPly_keeps
    | with_reducible apply State.updPort_keeps
    | with_reducible apply State.give_keeps
    | with_reducible apply State.giveAll_keeps
    | with_reducible apply State.trainMem_keeps
    | with_reducible apply KeepsRes.next
    | with_reducible apply State.clocked_keeps
    | with_reducible apply Keeps.ite
    | split

theorem execDqsOscSample_keeps (ch : Fin 16) (drifted : Bool) (s : State) : KeepsRes wr s (execDqsOscSample ch drifted s) := by
  unfold execDqsOscSample
  have hk : Keeps wr s s := Keeps.refl s
  repeat' first
    | with_reducible assumption
    | intro _
    | with_reducible exact Keeps.refl _
    | with_reducible apply State.updChan_keeps
    | with_reducible apply State.onDev_keeps
    | with_reducible apply State.updPly_keeps
    | with_reducible apply State.updPort_keeps
    | with_reducible apply KeepsRes.next
    | with_reducible apply State.clocked_keeps

theorem execRetrainSlice_keeps (ch : Fin 16) (s : State) : KeepsRes wr s (execRetrainSlice ch s) := by
  unfold execRetrainSlice
  have hk : Keeps wr s s := Keeps.refl s
  repeat' first
    | with_reducible assumption
    | intro _
    | with_reducible exact Keeps.refl _
    | with_reducible apply State.updChan_keeps
    | with_reducible apply State.updMc_keeps
    | with_reducible apply State.onDev_keeps
    | with_reducible apply State.updPly_keeps
    | with_reducible apply State.updPort_keeps
    | with_reducible apply KeepsRes.next
    | with_reducible apply State.clocked_keeps
    | with_reducible apply Keeps.ite
    | split
    | dsimp only
    | simp only [Keeps.mkDev_iff]

theorem execRetrainForceTimeout_keeps (ch : Fin 16) (s : State) : KeepsRes wr s (execRetrainForceTimeout ch s) := by
  unfold execRetrainForceTimeout
  have hk : Keeps wr s s := Keeps.refl s
  repeat' first
    | with_reducible assumption
    | intro _
    | with_reducible exact Keeps.refl _
    | with_reducible apply State.updChan_keeps
    | with_reducible apply State.onDev_keeps
    | with_reducible apply State.updPly_keeps
    | with_reducible apply State.updPort_keeps
    | with_reducible apply KeepsRes.next
    | with_reducible apply State.clocked_keeps
    | with_reducible apply Keeps.ite
    | split
    | dsimp only
    | simp only [Keeps.mkDev_iff]

theorem execLightNapEnter_keeps (ch : Fin 16) (s : State) : KeepsRes wr s (execLightNapEnter ch s) := by
  unfold execLightNapEnter
  have hk : Keeps wr s s := Keeps.refl s
  repeat' first
    | with_reducible assumption
    | intro _
    | with_reducible exact Keeps.refl _
    | with_reducible apply State.updChan_keeps
    | with_reducible apply State.onDev_keeps
    | with_reducible apply State.updPly_keeps
    | with_reducible apply State.updPort_keeps
    | with_reducible apply KeepsRes.next
    | with_reducible apply State.clocked_keeps
    | with_reducible apply Keeps.ite
    | split
    | dsimp only

theorem execLightNapExit_keeps (ch : Fin 16) (s : State) : KeepsRes wr s (execLightNapExit ch s) := by
  unfold execLightNapExit
  have hk : Keeps wr s s := Keeps.refl s
  repeat' first
    | with_reducible assumption
    | intro _
    | with_reducible exact Keeps.refl _
    | with_reducible apply State.updChan_keeps
    | with_reducible apply State.onDev_keeps
    | with_reducible apply State.updPly_keeps
    | with_reducible apply State.updPort_keeps
    | with_reducible apply KeepsRes.next
    | with_reducible apply State.clocked_keeps

theorem execDeepNapRequest_keeps (s : State) : KeepsRes wr s (execDeepNapRequest s) := by
  unfold execDeepNapRequest
  have hk : Keeps wr s s := Keeps.refl s
  repeat' first
    | with_reducible assumption
    | intro _
    | with_reducible exact Keeps.refl _
    | with_reducible apply State.updMc_keeps
    | with_reducible apply State.onDev_keeps
    | with_reducible apply State.updPly_keeps
    | with_reducible apply State.updPort_keeps
    | with_reducible apply KeepsRes.next
    | with_reducible apply State.clocked_keeps
    | with_reducible apply Keeps.ite
    | split

theorem State.losePasr_keeps {s₀ : State} (s : State) (hk : Keeps true s₀ s) : Keeps true s₀ (State.losePasr s) := by
  unfold State.losePasr
  repeat' first
    | with_reducible assumption
    | intro _
    | with_reducible exact Keeps.refl _
    | with_reducible apply State.onDev_keeps
    | with_reducible apply State.updPly_keeps
    | with_reducible apply State.updPort_keeps
    | with_reducible apply Keeps.mkLose
    | with_reducible apply Keeps.ite
    | split

theorem execDeepNapEnter_keeps (s : State) : KeepsRes true s (execDeepNapEnter s) := by
  unfold execDeepNapEnter
  have hk : Keeps true s s := Keeps.refl s
  repeat' first
    | with_reducible assumption
    | intro _
    | with_reducible exact Keeps.refl _
    | with_reducible apply State.updMc_keeps
    | with_reducible apply State.losePasr_keeps
    | with_reducible apply State.onDev_keeps
    | with_reducible apply State.updPly_keeps
    | with_reducible apply State.updPort_keeps
    | with_reducible apply KeepsRes.next
    | with_reducible apply State.clocked_keeps
    | with_reducible apply Keeps.ite
    | split
    | dsimp only

theorem execDeepNapExit_keeps (s : State) : KeepsRes wr s (execDeepNapExit s) := by
  unfold execDeepNapExit
  have hk : Keeps wr s s := Keeps.refl s
  repeat' first
    | with_reducible assumption
    | intro _
    | with_reducible exact Keeps.refl _
    | with_reducible apply State.onDev_keeps
    | with_reducible apply State.updPly_keeps
    | with_reducible apply State.updPort_keeps
    | with_reducible apply KeepsRes.next
    | with_reducible apply State.clocked_keeps
    | with_reducible apply Keeps.ite
    | split
    | dsimp only
    | simp only [Keeps.mkDev_iff]

theorem execParityReplay_keeps (ch : Fin 16) (s : State) : KeepsRes wr s (execParityReplay ch s) := by
  unfold execParityReplay
  have hk : Keeps wr s s := Keeps.refl s
  repeat' first
    | with_reducible assumption
    | intro _
    | with_reducible exact Keeps.refl _
    | with_reducible apply State.each_keeps
    | with_reducible apply State.emit_keeps
    | with_reducible apply State.updChan_keeps
    | with_reducible apply State.updMc_keeps
    | with_reducible apply State.onDev_keeps
    | with_reducible apply State.updPly_keeps
    | with_reducible apply State.updPort_keeps
    | with_reducible apply KeepsRes.next
    | with_reducible apply State.clocked_keeps
    | with_reducible apply Keeps.ite
    | split
    | dsimp only
    | simp only [Keeps.mkDev_iff]

theorem execMemPasr_keeps (order : Nat) (s : State) : KeepsRes wr s (execMemPasr order s) := by
  unfold execMemPasr
  have hk : Keeps wr s s := Keeps.refl s
  repeat' first
    | with_reducible assumption
    | intro _
    | with_reducible exact Keeps.refl _
    | with_reducible apply State.answer_keeps
    | with_reducible apply State.managed_keeps
    | with_reducible apply State.updMc_keeps
    | with_reducible apply State.onDev_keeps
    | with_reducible apply State.updPly_keeps
    | with_reducible apply State.updPort_keeps
    | with_reducible apply KeepsRes.next
    | with_reducible apply State.clocked_keeps
    | with_reducible apply Keeps.ite
    | split
    | dsimp only
    | simp only [Keeps.mkDev_iff]

end Sys2Proof.Machine
end

