-- ==== Sys2Proof/Laws/Checks.lean ====
section
/-! SUPPORT. Laws/Checks.lean: the operations and commands of Machine/Checks.lean keep the queue, the canonical form of DRAM and the credits. -/
namespace Sys2Proof.Machine
variable {wr : Bool}

theorem State.updCheck_keeps {s₀ : State} (s : State) (u : Fin 8) (f : CheckUnit → CheckUnit) (hk : Keeps wr s₀ s) : Keeps wr s₀ (State.updCheck s u f) := by
  unfold State.updCheck
  repeat' first
    | with_reducible assumption
    | intro _
    | with_reducible exact Keeps.refl _
    | with_reducible apply State.onDev_keeps

theorem State.startCheck_keeps {s₀ : State} (s : State) (u : Fin 8) (hk : Keeps wr s₀ s) : Keeps wr s₀ (State.startCheck s u) := by
  unfold State.startCheck
  repeat' first
    | with_reducible assumption
    | intro _
    | with_reducible exact Keeps.refl _
    | with_reducible apply State.updCheck_keeps
    | with_reducible apply State.onDev_keeps
    | with_reducible apply State.updPly_keeps
    | with_reducible apply State.updPort_keeps
    | with_reducible apply Keeps.ite
    | split

theorem State.dropCheck_keeps {s₀ : State} (s : State) (p : Fin 64) (r : Fin 4) (f : InFlight) (hk : Keeps wr s₀ s) : Keeps wr s₀ (State.dropCheck s p r f) := by
  unfold State.dropCheck
  repeat' first
    | with_reducible assumption
    | intro _
    | with_reducible exact Keeps.refl _
    | with_reducible apply State.onDev_keeps
    | with_reducible apply State.finishDesc_keeps
    | with_reducible apply State.updCheck_keeps
    | with_reducible apply State.startCheck_keeps
    | with_reducible apply State.updPly_keeps
    | with_reducible apply State.updPort_keeps
    | with_reducible apply Keeps.ite
    | split
    | dsimp only
    | simp only [Keeps.mkDev_iff]

theorem State.feedCheck_keeps {s₀ : State} (s : State) (p : Fin 64) (r : Fin 4) (f : InFlight) (j : CheckJob) (bs : List Byte) (hk : Keeps wr s₀ s) : Keeps wr s₀ (State.feedCheck s p r f j bs) := by
  unfold State.feedCheck
  repeat' first
    | with_reducible assumption
    | intro _
    | with_reducible exact Keeps.refl _
    | with_reducible apply State.updDesc_keeps
    | with_reducible apply State.finishDesc_keeps
    | with_reducible apply State.updCheck_keeps
    | with_reducible apply State.startCheck_keeps
    | with_reducible apply State.onDev_keeps
    | with_reducible apply State.updPly_keeps
    | with_reducible apply State.updPort_keeps
    | with_reducible apply Keeps.ite
    | split
    | dsimp only
    | simp only [Keeps.mkDev_iff]

theorem State.checkOn_keeps {s₀ : State} (s : State) (p : Fin 64) (r : Fin 4) (f : InFlight) (n : Nat) (host : List Byte) (hk : Keeps wr s₀ s) : Keeps wr s₀ (State.checkOn s p r f n host) := by
  unfold State.checkOn
  repeat' first
    | with_reducible assumption
    | intro _
    | with_reducible exact Keeps.refl _
    | with_reducible apply State.endReads_keeps
    | (with_reducible refine State.takeMem_keeps (by assumption) ?_)
    | with_reducible apply State.faultAt_keeps
    | with_reducible apply State.readData_keeps
    | with_reducible apply State.dropCheck_keeps
    | with_reducible apply State.feedCheck_keeps
    | with_reducible apply State.onDev_keeps
    | with_reducible apply State.updPly_keeps
    | with_reducible apply State.updPort_keeps
    | (with_reducible refine Keeps.mkTake _ (by assumption) ?_)
    | with_reducible apply Keeps.ite
    | split
    | dsimp only
    | simp only [Keeps.mkDev_iff]

theorem execCheck_keeps (p : Fin 64) (r : Fin 4) (seq : Word) (n : Nat) (host : List Byte) (s : State) : KeepsRes wr s (execCheck p r seq n host s) := by
  unfold execCheck
  have hk : Keeps wr s s := Keeps.refl s
  repeat' first
    | with_reducible assumption
    | intro _
    | with_reducible exact Keeps.refl _
    | with_reducible apply State.dispatch_keeps
    | with_reducible apply State.updCheck_keeps
    | with_reducible apply State.startCheck_keeps
    | with_reducible apply State.checkOn_keeps
    | with_reducible apply State.onDev_keeps
    | with_reducible apply State.updPly_keeps
    | with_reducible apply State.updPort_keeps
    | with_reducible apply KeepsRes.next
    | with_reducible apply State.clocked_keeps
    | with_reducible apply Keeps.ite
    | split

theorem execCopyStop_keeps (p : Fin 64) (r : Fin 4) (seq : Word) (host : List Byte) (s : State) : KeepsRes true s (execCopyStop p r seq host s) := by
  unfold execCopyStop
  have hk : Keeps true s s := Keeps.refl s
  repeat' first
    | with_reducible assumption
    | intro _
    | with_reducible exact Keeps.refl _
    | with_reducible apply State.onDev_keeps
    | with_reducible apply State.endReads_keeps
    | with_reducible apply State.finishDesc_keeps
    | (with_reducible refine State.moveOn_keeps (by assumption) ?_)
    | with_reducible apply State.dropCheck_keeps
    | with_reducible apply State.updPly_keeps
    | with_reducible apply State.updPort_keeps
    | with_reducible apply Keeps.getD
    | (with_reducible refine Keeps.mkTake _ (by assumption) ?_)
    | with_reducible apply KeepsRes.next
    | with_reducible apply State.clocked_keeps
    | with_reducible apply Keeps.ite
    | split
    | dsimp only
    | simp only [Keeps.mkDev_iff]

end Sys2Proof.Machine
end

