-- ==== Sys2Proof/Laws/Layers.lean ====
section
/-! SUPPORT. Laws/Layers.lean: the operations and commands of Machine/Layers.lean keep the queue, the canonical form of DRAM and the credits. -/
namespace Sys2Proof.Machine
variable {wr : Bool}

theorem State.armGroup_keeps {s₀ : State} (s : State) (p : Fin 64) (r : Fin 4) (f : InFlight) (hk : Keeps wr s₀ s) : Keeps wr s₀ (State.armGroup s p r f) := by
  unfold State.armGroup
  repeat' first
    | with_reducible assumption
    | intro _
    | with_reducible exact Keeps.refl _
    | with_reducible apply State.updHead_keeps
    | with_reducible apply State.finishGroup_keeps
    | with_reducible apply State.dispatch_keeps
    | with_reducible apply State.onDev_keeps
    | with_reducible apply State.updPly_keeps
    | with_reducible apply State.updPort_keeps
    | with_reducible apply Keeps.ite

theorem execLayer_keeps (p : Fin 64) (r : Fin 4) (s : State) : KeepsRes wr s (execLayer p r s) := by
  unfold execLayer
  have hk : Keeps wr s s := Keeps.refl s
  repeat' first
    | with_reducible assumption
    | intro _
    | with_reducible exact Keeps.refl _
    | with_reducible apply State.dispatch_keeps
    | with_reducible apply State.onDev_keeps
    | with_reducible apply State.updPly_keeps
    | with_reducible apply State.updPort_keeps
    | with_reducible apply KeepsRes.next
    | with_reducible apply State.clocked_keeps
    | with_reducible apply Keeps.ite
    | split

theorem execCommit_keeps (p : Fin 64) (r : Fin 4) (s : State) : KeepsRes wr s (execCommit p r s) := by
  unfold execCommit
  have hk : Keeps wr s s := Keeps.refl s
  repeat' first
    | with_reducible assumption
    | intro _
    | with_reducible exact Keeps.refl _
    | with_reducible apply State.finishGroup_keeps
    | with_reducible apply State.settleGroup_keeps
    | with_reducible apply State.onDev_keeps
    | with_reducible apply State.updPly_keeps
    | with_reducible apply State.updPort_keeps
    | with_reducible apply KeepsRes.next
    | with_reducible apply State.clocked_keeps
    | with_reducible apply Keeps.ite
    | split
    | dsimp only

theorem State.commitArm_keeps {s₀ : State} (s : State) (p : Fin 64) (r : Fin 4) (hk : Keeps wr s₀ s) : Keeps wr s₀ (State.commitArm s p r) := by
  unfold State.commitArm
  repeat' first
    | with_reducible assumption
    | intro _
    | with_reducible exact Keeps.refl _
    | with_reducible apply State.finishGroup_keeps
    | with_reducible apply State.armGroup_keeps
    | with_reducible apply State.onDev_keeps
    | with_reducible apply State.updPly_keeps
    | with_reducible apply State.updPort_keeps
    | with_reducible apply Keeps.ite
    | split
    | dsimp only
    | simp only [Keeps.mkDev_iff]

theorem execCommitArm_keeps (p : Fin 64) (r : Fin 4) (s : State) : KeepsRes wr s (execCommitArm p r s) := by
  unfold execCommitArm
  have hk : Keeps wr s s := Keeps.refl s
  repeat' first
    | with_reducible assumption
    | intro _
    | with_reducible exact Keeps.refl _
    | with_reducible apply State.commitArm_keeps
    | with_reducible apply State.onDev_keeps
    | with_reducible apply State.updPly_keeps
    | with_reducible apply State.updPort_keeps
    | with_reducible apply KeepsRes.next
    | with_reducible apply State.clocked_keeps
    | with_reducible apply State.finishGroup_keeps
    | with_reducible apply State.armGroup_keeps
    | with_reducible apply Keeps.ite
    | split
    | dsimp only
    | simp only [Keeps.mkDev_iff]

theorem execSigExpect_keeps (p : Fin 64) (r : Fin 4) (missed : Bool) (s : State) : KeepsRes wr s (execSigExpect p r missed s) := by
  unfold execSigExpect
  have hk : Keeps wr s s := Keeps.refl s
  repeat' first
    | with_reducible assumption
    | intro _
    | with_reducible exact Keeps.refl _
    | with_reducible apply State.updHead_keeps
    | with_reducible apply State.finishDesc_keeps
    | with_reducible apply State.onDev_keeps
    | with_reducible apply State.updPly_keeps
    | with_reducible apply State.updPort_keeps
    | with_reducible apply KeepsRes.next
    | with_reducible apply State.clocked_keeps
    | with_reducible apply Keeps.ite
    | split
    | dsimp only

theorem execHeadTolReport_keeps (h : Fin 8) (held : List (Nat × Nat)) (s : State) : KeepsRes wr s (execHeadTolReport h held s) := by
  unfold execHeadTolReport
  have hk : Keeps wr s s := Keeps.refl s
  repeat' first
    | with_reducible assumption
    | intro _
    | with_reducible exact Keeps.refl _
    | with_reducible apply State.updMc_keeps
    | with_reducible apply State.onDev_keeps
    | with_reducible apply State.updHead_keeps
    | with_reducible apply State.updPly_keeps
    | with_reducible apply State.updPort_keeps
    | with_reducible apply KeepsRes.next
    | with_reducible apply State.clocked_keeps
    | with_reducible apply Keeps.ite
    | split
    | dsimp only
    | simp only [Keeps.mkDev_iff]

theorem execHeadTopupAck_keeps (h : Fin 8) (s : State) : KeepsRes wr s (execHeadTopupAck h s) := by
  unfold execHeadTopupAck
  have hk : Keeps wr s s := Keeps.refl s
  repeat' first
    | with_reducible assumption
    | intro _
    | with_reducible exact Keeps.refl _
    | with_reducible apply State.updMc_keeps
    | with_reducible apply State.updHead_keeps
    | with_reducible apply State.onDev_keeps
    | with_reducible apply State.updPly_keeps
    | with_reducible apply State.updPort_keeps
    | with_reducible apply KeepsRes.next
    | with_reducible apply State.clocked_keeps
    | with_reducible apply Keeps.ite
    | split
    | dsimp only
    | simp only [Keeps.mkDev_iff]

end Sys2Proof.Machine
end

