-- ==== Sys2Proof/Laws/Fences.lean ====
section
/-! SUPPORT. Laws/Fences.lean: the operations and commands of Machine/Fences.lean keep the queue, the canonical form of DRAM and the credits. -/
namespace Sys2Proof.Machine
variable {wr : Bool}

theorem State.releaseHead_keeps {s₀ : State} (s : State) (p : Fin 64) (r : Fin 4) (hk : Keeps wr s₀ s) : Keeps wr s₀ (State.releaseHead s p r) := by
  unfold State.releaseHead
  repeat' first
    | with_reducible assumption
    | intro _
    | with_reducible exact Keeps.refl _
    | with_reducible apply State.commitArm_keeps
    | with_reducible apply State.updDesc_keeps
    | with_reducible apply State.finishDesc_keeps
    | with_reducible apply State.onDev_keeps
    | with_reducible apply State.updPly_keeps
    | with_reducible apply State.updPort_keeps
    | with_reducible apply State.each_keeps
    | (with_reducible refine Keeps.mkTake _ (by assumption) ?_)
    | with_reducible apply Keeps.ite
    | split
    | dsimp only
    | simp only [Keeps.mkDev_iff]

theorem State.signal_keeps {s₀ : State} (s : State) (p : Fin 64) (i : Nat) (v : DWord) (hk : Keeps wr s₀ s) : Keeps wr s₀ (State.signal s p i v) := by
  unfold State.signal
  repeat' first
    | with_reducible assumption
    | intro _
    | with_reducible exact Keeps.refl _
    | with_reducible apply State.each_keeps
    | with_reducible apply State.updPly_keeps
    | with_reducible apply State.releaseHead_keeps
    | with_reducible apply State.onDev_keeps
    | with_reducible apply State.updPort_keeps
    | with_reducible apply Keeps.ite
    | split
    | dsimp only
    | simp only [Keeps.mkDev_iff]

theorem execFenceValLoWrite_keeps (q : Fin 4) (p : Fin 64) (value : Word) (s : State) : KeepsRes wr s (execFenceValLoWrite q p value s) := by
  unfold execFenceValLoWrite
  have hk : Keeps wr s s := Keeps.refl s
  repeat' first
    | with_reducible assumption
    | intro _
    | with_reducible exact Keeps.refl _
    | with_reducible apply State.clocked_keeps
    | with_reducible apply State.signal_keeps
    | with_reducible apply State.onDev_keeps
    | with_reducible apply State.updPly_keeps
    | with_reducible apply State.updPort_keeps
    | with_reducible apply KeepsRes.next
    | with_reducible apply Keeps.ite
    | split
    | dsimp only
    | simp only [Keeps.mkDev_iff]

theorem State.awaitEntry_keeps {s₀ : State} (s : State) (p : Fin 64) (r : Fin 4) (f : InFlight) (hk : Keeps wr s₀ s) : Keeps wr s₀ (State.awaitEntry s p r f) := by
  unfold State.awaitEntry
  repeat' first
    | with_reducible assumption
    | intro _
    | with_reducible exact Keeps.refl _
    | with_reducible apply State.updCq_keeps
    | with_reducible apply State.wantCons_keeps
    | with_reducible apply State.onDev_keeps
    | with_reducible apply State.updPly_keeps
    | with_reducible apply State.updPort_keeps
    | with_reducible apply Keeps.ite
    | split
    | dsimp only
    | simp only [Keeps.mkDev_iff]

theorem execDescriptorRetire_keeps (p : Fin 64) (r : Fin 4) (seq : Word) (s : State) : KeepsRes wr s (execDescriptorRetire p r seq s) := by
  unfold execDescriptorRetire
  have hk : Keeps wr s s := Keeps.refl s
  repeat' first
    | with_reducible assumption
    | intro _
    | with_reducible exact Keeps.refl _
    | with_reducible apply State.give_keeps
    | with_reducible apply State.giveAll_keeps
    | with_reducible apply State.onDev_keeps
    | with_reducible apply State.clocked_keeps
    | with_reducible apply State.updRing_keeps
    | with_reducible apply State.writeCompletion_keeps
    | with_reducible apply State.signal_keeps
    | with_reducible apply State.awaitEntry_keeps
    | with_reducible apply State.updPly_keeps
    | with_reducible apply State.updPort_keeps
    | with_reducible apply KeepsRes.next
    | with_reducible apply State.onSkein_keeps
    | with_reducible apply Keeps.ite
    | split
    | dsimp only
    | simp only [Keeps.mkDev_iff]

end Sys2Proof.Machine
end

