-- ==== Sys2Proof/Laws/Links.lean ====
section
/-! SUPPORT. Laws/Links.lean: the operations and commands of Machine/Links.lean keep the queue, the canonical form of DRAM and the credits. -/
namespace Sys2Proof.Machine
variable {wr : Bool}

theorem State.postHead_keeps {s₀ : State} (s : State) (h : Fin 8) (about : Nat) (code : Nat) (unit : Nat) (data : List Byte) (hk : Keeps wr s₀ s) : Keeps wr s₀ (State.postHead s h about code unit data) := by
  unfold State.postHead
  repeat' first
    | with_reducible assumption
    | intro _
    | with_reducible exact Keeps.refl _
    | with_reducible apply State.postPly_keeps
    | with_reducible apply State.postManager_keeps
    | with_reducible apply State.onDev_keeps
    | with_reducible apply State.updPly_keeps
    | with_reducible apply State.updPort_keeps
    | with_reducible apply State.each_keeps

theorem State.linkNone_keeps {s₀ : State} (s : State) (h : Fin 8) (hk : Keeps wr s₀ s) : Keeps wr s₀ (State.linkNone s h) := by
  unfold State.linkNone
  repeat' first
    | with_reducible assumption
    | intro _
    | with_reducible exact Keeps.refl _
    | with_reducible apply State.updHead_keeps
    | with_reducible apply State.postHead_keeps

theorem State.fitLinks_keeps {s₀ : State} (s : State) (h : Fin 8) (hk : Keeps wr s₀ s) : Keeps wr s₀ (State.fitLinks s h) := by
  unfold State.fitLinks
  repeat' first
    | with_reducible assumption
    | intro _
    | with_reducible exact Keeps.refl _
    | with_reducible apply State.updHead_keeps
    | with_reducible apply State.postHead_keeps
    | with_reducible apply State.onDev_keeps
    | with_reducible apply State.updPly_keeps
    | with_reducible apply State.updPort_keeps
    | with_reducible apply State.each_keeps
    | with_reducible apply Keeps.ite
    | split
    | dsimp only

theorem State.linkDone_keeps {s₀ : State} (s : State) (h : Fin 8) (hk : Keeps wr s₀ s) : Keeps wr s₀ (State.linkDone s h) := by
  unfold State.linkDone
  repeat' first
    | with_reducible assumption
    | intro _
    | with_reducible exact Keeps.refl _
    | with_reducible apply State.fitLinks_keeps
    | with_reducible apply State.onDev_keeps
    | with_reducible apply State.updPly_keeps
    | with_reducible apply State.updPort_keeps
    | with_reducible apply Keeps.ite

theorem State.attemptFailed_keeps {s₀ : State} (s : State) (h : Fin 8) (hk : Keeps wr s₀ s) : Keeps wr s₀ (State.attemptFailed s h) := by
  unfold State.attemptFailed
  repeat' first
    | with_reducible assumption
    | intro _
    | with_reducible exact Keeps.refl _
    | with_reducible apply State.updHead_keeps
    | with_reducible apply State.linkNone_keeps
    | with_reducible apply State.linkDone_keeps
    | with_reducible apply State.onDev_keeps
    | with_reducible apply State.updPly_keeps
    | with_reducible apply State.updPort_keeps
    | with_reducible apply Keeps.ite
    | split

theorem execLinkTrainStart_keeps (h : Fin 8) (caps : SinkCaps) (s : State) : KeepsRes wr s (execLinkTrainStart h caps s) := by
  unfold execLinkTrainStart
  have hk : Keeps wr s s := Keeps.refl s
  repeat' first
    | with_reducible assumption
    | intro _
    | with_reducible exact Keeps.refl _
    | with_reducible apply State.updHead_keeps
    | with_reducible apply State.linkNone_keeps
    | with_reducible apply State.linkDone_keeps
    | with_reducible apply State.onDev_keeps
    | with_reducible apply State.updPly_keeps
    | with_reducible apply State.updPort_keeps
    | with_reducible apply KeepsRes.next
    | with_reducible apply State.clocked_keeps
    | with_reducible apply Keeps.ite
    | split

theorem execTrainAttemptDone_keeps (h : Fin 8) (ok : Bool) (s : State) : KeepsRes wr s (execTrainAttemptDone h ok s) := by
  unfold execTrainAttemptDone
  have hk : Keeps wr s s := Keeps.refl s
  repeat' first
    | with_reducible assumption
    | intro _
    | with_reducible exact Keeps.refl _
    | with_reducible apply State.updHead_keeps
    | with_reducible apply State.linkDone_keeps
    | with_reducible apply State.attemptFailed_keeps
    | with_reducible apply State.onDev_keeps
    | with_reducible apply State.updPly_keeps
    | with_reducible apply State.updPort_keeps
    | with_reducible apply KeepsRes.next
    | with_reducible apply State.clocked_keeps
    | with_reducible apply Keeps.ite
    | split

theorem execTrainAttemptTimeout_keeps (h : Fin 8) (s : State) : KeepsRes wr s (execTrainAttemptTimeout h s) := by
  unfold execTrainAttemptTimeout
  have hk : Keeps wr s s := Keeps.refl s
  repeat' first
    | with_reducible assumption
    | intro _
    | with_reducible exact Keeps.refl _
    | with_reducible apply State.attemptFailed_keeps
    | with_reducible apply State.onDev_keeps
    | with_reducible apply State.updPly_keeps
    | with_reducible apply State.updPort_keeps
    | with_reducible apply KeepsRes.next
    | with_reducible apply State.clocked_keeps
    | with_reducible apply Keeps.ite
    | split

theorem State.beginTraining_keeps {s₀ : State} (s : State) (h : Fin 8) (hk : Keeps wr s₀ s) : Keeps wr s₀ (State.beginTraining s h) := by
  unfold State.beginTraining
  repeat' first
    | with_reducible assumption
    | intro _
    | with_reducible exact Keeps.refl _
    | with_reducible apply State.updHead_keeps

theorem execDpHotplugPlug_keeps (h : Fin 8) (s : State) : KeepsRes wr s (execDpHotplugPlug h s) := by
  unfold execDpHotplugPlug
  have hk : Keeps wr s s := Keeps.refl s
  repeat' first
    | with_reducible assumption
    | intro _
    | with_reducible exact Keeps.refl _
    | with_reducible apply State.idle_keeps
    | with_reducible apply State.updHead_keeps
    | with_reducible apply State.postHead_keeps
    | with_reducible apply State.beginTraining_keeps
    | with_reducible apply State.onDev_keeps
    | with_reducible apply State.updPly_keeps
    | with_reducible apply State.updPort_keeps
    | with_reducible apply KeepsRes.next
    | with_reducible apply State.clocked_keeps
    | with_reducible apply Keeps.ite
    | split
    | dsimp only

theorem execDpHotplugUnplug_keeps (h : Fin 8) (s : State) : KeepsRes wr s (execDpHotplugUnplug h s) := by
  unfold execDpHotplugUnplug
  have hk : Keeps wr s s := Keeps.refl s
  repeat' first
    | with_reducible assumption
    | intro _
    | with_reducible exact Keeps.refl _
    | with_reducible apply State.idle_keeps
    | with_reducible apply State.updHead_keeps
    | with_reducible apply State.postHead_keeps
    | with_reducible apply State.linkDone_keeps
    | with_reducible apply State.onDev_keeps
    | with_reducible apply State.updPly_keeps
    | with_reducible apply State.updPort_keeps
    | with_reducible apply KeepsRes.next
    | with_reducible apply State.clocked_keeps
    | with_reducible apply Keeps.ite
    | split

theorem execDpHotplugIrq_keeps (h : Fin 8) (lostLock : Bool) (s : State) : KeepsRes wr s (execDpHotplugIrq h lostLock s) := by
  unfold execDpHotplugIrq
  have hk : Keeps wr s s := Keeps.refl s
  repeat' first
    | with_reducible assumption
    | intro _
    | with_reducible exact Keeps.refl _
    | with_reducible apply State.postHead_keeps
    | with_reducible apply State.beginTraining_keeps
    | with_reducible apply State.onDev_keeps
    | with_reducible apply State.updPly_keeps
    | with_reducible apply State.updPort_keeps
    | with_reducible apply KeepsRes.next
    | with_reducible apply State.clocked_keeps
    | with_reducible apply Keeps.ite
    | split

theorem State.chargeLayer_keeps {s₀ : State} (s : State) (h : Fin 8) (handle : Nat) (hk : Keeps wr s₀ s) : Keeps wr s₀ (State.chargeLayer s h handle) := by
  unfold State.chargeLayer
  repeat' first
    | with_reducible assumption
    | intro _
    | with_reducible exact Keeps.refl _
    | with_reducible apply State.updHead_keeps
    | with_reducible apply State.hold_keeps
    | with_reducible apply State.onDev_keeps
    | with_reducible apply State.updPly_keeps
    | with_reducible apply State.updPort_keeps
    | (with_reducible refine Keeps.mkTake _ (by assumption) ?_)
    | with_reducible apply Keeps.ite
    | split
    | dsimp only
    | simp only [Keeps.mkDev_iff]

theorem State.chargePlate_keeps {s₀ : State} (s : State) (h : Fin 8) (i : Fin 16) (hk : Keeps wr s₀ s) : Keeps wr s₀ (State.chargePlate s h i) := by
  unfold State.chargePlate -- manual
  extract_lets set e n
  split
  · exact hk
  · generalize n = m
    split
    · exact State.updHead_keeps _ _ _ (hk.mkTake _ (by assumption))
    · exact State.updHead_keeps _ _ _ hk

theorem State.retryCmp_keeps {s₀ : State} (s : State) (hk : Keeps wr s₀ s) : Keeps wr s₀ (State.retryCmp s) := by
  unfold State.retryCmp
  repeat' first
    | with_reducible assumption
    | intro _
    | with_reducible exact Keeps.refl _
    | with_reducible apply State.each_keeps
    | with_reducible apply State.hold_keeps
    | with_reducible apply State.chargeLayer_keeps
    | with_reducible apply State.chargePlate_keeps
    | with_reducible apply State.onDev_keeps
    | with_reducible apply State.updPly_keeps
    | with_reducible apply State.updPort_keeps
    | with_reducible apply Keeps.ite
    | split
    | dsimp only
    | simp only [Keeps.mkDev_iff]

theorem State.returnCmp_keeps {s₀ : State} (s : State) (h : Fin 8) (hk : Keeps wr s₀ s) : Keeps wr s₀ (State.returnCmp s h) := by
  unfold State.returnCmp
  repeat' first
    | with_reducible assumption
    | intro _
    | with_reducible exact Keeps.refl _
    | with_reducible apply State.give_keeps
    | with_reducible apply State.giveAll_keeps
    | with_reducible apply State.each_keeps
    | with_reducible apply State.onSkein_keeps
    | with_reducible apply State.updHead_keeps
    | with_reducible apply State.hold_keeps
    | with_reducible apply State.retryCmp_keeps
    | with_reducible apply State.onDev_keeps
    | with_reducible apply State.updPly_keeps
    | with_reducible apply State.updPort_keeps
    | with_reducible apply Keeps.ite
    | split
    | dsimp only
    | simp only [Keeps.mkDev_iff]

theorem State.takeCmp_keeps {s₀ : State} (s : State) (h : Fin 8) (hk : Keeps wr s₀ s) : Keeps wr s₀ (State.takeCmp s h) := by
  unfold State.takeCmp
  repeat' first
    | with_reducible assumption
    | intro _
    | with_reducible exact Keeps.refl _
    | with_reducible apply State.each_keeps
    | with_reducible apply State.chargeLayer_keeps
    | with_reducible apply State.chargePlate_keeps
    | with_reducible apply State.onDev_keeps
    | with_reducible apply State.updPly_keeps
    | with_reducible apply State.updPort_keeps
    | with_reducible apply State.updHead_keeps
    | (with_reducible refine Keeps.mkTake _ (by assumption) ?_)
    | with_reducible apply Keeps.ite
    | split
    | dsimp only
    | simp only [Keeps.mkDev_iff]

theorem State.fbOnHead_keeps {s₀ : State} (s : State) (h : Fin 8) (hk : Keeps wr s₀ s) : Keeps wr s₀ (State.fbOnHead s h) := by
  unfold State.fbOnHead
  repeat' first
    | with_reducible assumption
    | intro _
    | with_reducible exact Keeps.refl _
    | with_reducible apply State.updCarder_keeps
    | with_reducible apply State.onDev_keeps
    | with_reducible apply State.updPly_keeps
    | with_reducible apply State.updPort_keeps
    | with_reducible apply Keeps.ite

theorem State.answerOrder_keeps {s₀ : State} (s : State) (order : Nat) (status : Nat) (result : List Byte) (hk : Keeps wr s₀ s) : Keeps wr s₀ (State.answerOrder s order status result) := by
  unfold State.answerOrder
  repeat' first
    | with_reducible assumption
    | intro _
    | with_reducible exact Keeps.refl _
    | with_reducible apply State.answer_keeps
    | with_reducible apply State.onDev_keeps
    | with_reducible apply State.updPly_keeps
    | with_reducible apply State.updPort_keeps
    | with_reducible apply Keeps.ite
    | split

theorem State.swapTenancies_keeps {s₀ : State} (s : State) (h : Fin 8) (now : Bool) (hk : Keeps wr s₀ s) : Keeps wr s₀ (State.swapTenancies s h now) := by
  unfold State.swapTenancies
  repeat' first
    | with_reducible assumption
    | intro _
    | with_reducible exact Keeps.refl _
    | with_reducible apply State.updHead_keeps
    | with_reducible apply State.answerOrder_keeps
    | with_reducible apply State.onDev_keeps
    | with_reducible apply State.updPly_keeps
    | with_reducible apply State.updPort_keeps
    | with_reducible apply Keeps.ite
    | split

theorem State.headOff_keeps {s₀ : State} (s : State) (h : Fin 8) (hk : Keeps wr s₀ s) : Keeps wr s₀ (State.headOff s h) := by
  unfold State.headOff
  repeat' first
    | with_reducible assumption
    | intro _
    | with_reducible exact Keeps.refl _
    | with_reducible apply State.updMc_keeps
    | with_reducible apply State.updHead_keeps
    | with_reducible apply State.returnCmp_keeps
    | with_reducible apply State.fbOnHead_keeps
    | with_reducible apply State.swapTenancies_keeps
    | with_reducible apply State.onDev_keeps
    | with_reducible apply State.updPly_keeps
    | with_reducible apply State.updPort_keeps
    | with_reducible apply Keeps.ite
    | split
    | dsimp only
    | simp only [Keeps.mkDev_iff]

theorem State.linkOnChange_keeps {s₀ : State} (s : State) (h : Fin 8) (hk : Keeps wr s₀ s) : Keeps wr s₀ (State.linkOnChange s h) := by
  unfold State.linkOnChange
  repeat' first
    | with_reducible assumption
    | intro _
    | with_reducible exact Keeps.refl _
    | with_reducible apply State.idle_keeps
    | with_reducible apply State.updHead_keeps
    | with_reducible apply State.beginTraining_keeps
    | with_reducible apply State.onDev_keeps
    | with_reducible apply State.updPly_keeps
    | with_reducible apply State.updPort_keeps
    | with_reducible apply Keeps.ite
    | split
    | dsimp only

theorem State.beginChange_keeps {s₀ : State} (s : State) (h : Fin 8) (hk : Keeps wr s₀ s) : Keeps wr s₀ (State.beginChange s h) := by
  unfold State.beginChange
  repeat' first
    | with_reducible assumption
    | intro _
    | with_reducible exact Keeps.refl _
    | with_reducible apply State.idle_keeps
    | with_reducible apply State.updHead_keeps
    | with_reducible apply State.fitLinks_keeps
    | with_reducible apply State.fbOnHead_keeps
    | with_reducible apply State.linkOnChange_keeps
    | with_reducible apply State.onDev_keeps
    | with_reducible apply State.updPly_keeps
    | with_reducible apply State.updPort_keeps
    | with_reducible apply State.each_keeps
    | with_reducible apply Keeps.ite

theorem State.serveHeld_keeps {s₀ : State} (s : State) (h : Fin 8) (hk : Keeps wr s₀ s) : Keeps wr s₀ (State.serveHeld s h) := by
  unfold State.serveHeld
  repeat' first
    | with_reducible assumption
    | intro _
    | with_reducible exact Keeps.refl _
    | with_reducible apply State.updHead_keeps
    | with_reducible apply State.finishGroup_keeps
    | with_reducible apply State.onDev_keeps
    | with_reducible apply State.updPly_keeps
    | with_reducible apply State.updPort_keeps
    | with_reducible apply State.each_keeps
    | with_reducible apply Keeps.ite

theorem State.joinPair_keeps {s₀ : State} (s : State) (h : Fin 8) (hk : Keeps wr s₀ s) : Keeps wr s₀ (State.joinPair s h) := by
  unfold State.joinPair
  repeat' first
    | with_reducible assumption
    | intro _
    | with_reducible exact Keeps.refl _
    | with_reducible apply State.each_keeps
    | with_reducible apply State.updHead_keeps
    | with_reducible apply State.finishGroup_keeps
    | with_reducible apply State.returnCmp_keeps
    | with_reducible apply State.swapTenancies_keeps
    | with_reducible apply State.onDev_keeps
    | with_reducible apply State.updPly_keeps
    | with_reducible apply State.updPort_keeps
    | with_reducible apply Keeps.ite
    | split
    | dsimp only
    | simp only [Keeps.mkDev_iff]

theorem State.ownTiming_keeps {s₀ : State} (s : State) (o : Fin 8) (hk : Keeps wr s₀ s) : Keeps wr s₀ (State.ownTiming s o) := by
  unfold State.ownTiming
  repeat' first
    | with_reducible assumption
    | intro _
    | with_reducible exact Keeps.refl _
    | with_reducible apply State.onDev_keeps
    | with_reducible apply State.headOff_keeps
    | with_reducible apply State.beginChange_keeps
    | with_reducible apply State.updPly_keeps
    | with_reducible apply State.updPort_keeps
    | with_reducible apply Keeps.ite
    | split
    | dsimp only
    | simp only [Keeps.mkDev_iff]

theorem State.swapTiming_keeps {s₀ : State} (s : State) (h : Fin 8) (t : Timing) (hk : Keeps wr s₀ s) : Keeps wr s₀ (State.swapTiming s h t) := by
  unfold State.swapTiming
  repeat' first
    | with_reducible assumption
    | intro _
    | with_reducible exact Keeps.refl _
    | with_reducible apply State.onDev_keeps
    | with_reducible apply State.updHead_keeps
    | with_reducible apply State.headOff_keeps
    | with_reducible apply State.beginChange_keeps
    | with_reducible apply State.serveHeld_keeps
    | with_reducible apply State.joinPair_keeps
    | with_reducible apply State.ownTiming_keeps
    | with_reducible apply State.updPly_keeps
    | with_reducible apply State.updPort_keeps
    | (with_reducible refine Keeps.mkTake _ (by assumption) ?_)
    | with_reducible apply Keeps.ite
    | split
    | dsimp only
    | simp only [Keeps.mkDev_iff]

theorem State.enableHead_keeps {s₀ : State} (s : State) (h : Fin 8) (t : Timing) (hk : Keeps wr s₀ s) : Keeps wr s₀ (State.enableHead s h t) := by
  unfold State.enableHead
  repeat' first
    | with_reducible assumption
    | intro _
    | with_reducible exact Keeps.refl _
    | with_reducible apply State.updHead_keeps
    | with_reducible apply State.swapTiming_keeps
    | with_reducible apply State.onDev_keeps
    | with_reducible apply State.updPly_keeps
    | with_reducible apply State.updPort_keeps
    | with_reducible apply Keeps.ite
    | split
    | dsimp only
    | simp only [Keeps.mkDev_iff]

theorem execTimingArm_keeps (q : Fin 4) (h : Fin 8) (s : State) : KeepsRes wr s (execTimingArm q h s) := by
  unfold execTimingArm
  have hk : Keeps wr s s := Keeps.refl s
  repeat' first
    | with_reducible assumption
    | intro _
    | with_reducible exact Keeps.refl _
    | with_reducible apply State.each_keeps
    | with_reducible apply State.onDev_keeps
    | with_reducible apply State.updHead_keeps
    | with_reducible apply State.beginTraining_keeps
    | with_reducible apply State.enableHead_keeps
    | with_reducible apply State.updPly_keeps
    | with_reducible apply State.updPort_keeps
    | with_reducible apply KeepsRes.next
    | with_reducible apply State.clocked_keeps
    | with_reducible apply Keeps.ite
    | split
    | dsimp only
    | simp only [Keeps.mkDev_iff]

theorem execPllLock_keeps (h : Fin 8) (s : State) : KeepsRes wr s (execPllLock h s) := by
  unfold execPllLock
  have hk : Keeps wr s s := Keeps.refl s
  repeat' first
    | with_reducible assumption
    | intro _
    | with_reducible exact Keeps.refl _
    | with_reducible apply State.updHead_keeps
    | with_reducible apply State.onDev_keeps
    | with_reducible apply State.updPly_keeps
    | with_reducible apply State.updPort_keeps
    | with_reducible apply State.each_keeps
    | with_reducible apply KeepsRes.next
    | with_reducible apply State.clocked_keeps
    | with_reducible apply Keeps.ite
    | split

theorem execHdFrameLoRead_keeps (q : PairRead) (h : Fin 8) (s : State) : KeepsRes wr s (execHdFrameLoRead q h s) := by
  unfold execHdFrameLoRead
  have hk : Keeps wr s s := Keeps.refl s
  repeat' first
    | with_reducible assumption
    | intro _
    | with_reducible exact Keeps.refl _
    | with_reducible apply State.readPair_keeps
    | with_reducible apply State.onDev_keeps
    | with_reducible apply State.updPly_keeps
    | with_reducible apply State.updPort_keeps
    | with_reducible apply KeepsRes.next
    | with_reducible apply State.clocked_keeps
    | with_reducible apply State.emit_keeps
    | with_reducible apply Keeps.ite
    | split
    | dsimp only
    | simp only [Keeps.mkDev_iff]

end Sys2Proof.Machine
end

