-- ==== Sys2Proof/Laws/Frames.lean ====
section
/-! SUPPORT. Laws/Frames.lean: the operations and commands of Machine/Frames.lean keep the queue, the canonical form of DRAM and the credits. -/
namespace Sys2Proof.Machine
variable {wr : Bool}

theorem State.updWhorl_keeps {s₀ : State} (s : State) (f : Whorl → Whorl) (hk : Keeps wr s₀ s) : Keeps wr s₀ (State.updWhorl s f) := by
  unfold State.updWhorl
  repeat' first
    | with_reducible assumption
    | intro _
    | with_reducible exact Keeps.refl _
    | with_reducible apply State.onDev_keeps

theorem State.whorlRepair_keeps {s₀ : State} (s : State) (unit : Nat) (kind : Nat) (id : Nat) (chan : Nat) (hk : Keeps wr s₀ s) : Keeps wr s₀ (State.whorlRepair s unit kind id chan) := by
  unfold State.whorlRepair
  repeat' first
    | with_reducible assumption
    | intro _
    | with_reducible exact Keeps.refl _
    | with_reducible apply State.postManager_keeps

theorem State.swapFollow_keeps {s₀ : State} (s : State) (h : Fin 8) (hk : Keeps wr s₀ s) : Keeps wr s₀ (State.swapFollow s h) := by
  unfold State.swapFollow
  repeat' first
    | with_reducible assumption
    | intro _
    | with_reducible exact Keeps.refl _
    | with_reducible apply State.beginChange_keeps
    | with_reducible apply State.updWhorl_keeps
    | with_reducible apply State.onDev_keeps
    | with_reducible apply State.updPly_keeps
    | with_reducible apply State.updPort_keeps
    | with_reducible apply Keeps.ite
    | split
    | dsimp only
    | simp only [Keeps.mkDev_iff]

theorem State.checkLock_keeps {s₀ : State} (s : State) (h : Fin 8) (ref : Option Int) (hk : Keeps wr s₀ s) : Keeps wr s₀ (State.checkLock s h ref) := by
  unfold State.checkLock
  repeat' first
    | with_reducible assumption
    | intro _
    | with_reducible exact Keeps.refl _
    | with_reducible apply State.updWhorl_keeps
    | with_reducible apply State.whorlRepair_keeps
    | with_reducible apply State.onDev_keeps
    | with_reducible apply State.updPly_keeps
    | with_reducible apply State.updPort_keeps
    | with_reducible apply Keeps.ite
    | split

theorem State.lockHead_keeps {s₀ : State} (s : State) (h : Fin 8) (same : Bool) (hk : Keeps wr s₀ s) : Keeps wr s₀ (State.lockHead s h same) := by
  unfold State.lockHead
  repeat' first
    | with_reducible assumption
    | intro _
    | with_reducible exact Keeps.refl _
    | with_reducible apply State.updWhorl_keeps
    | with_reducible apply State.onDev_keeps
    | with_reducible apply State.updPly_keeps
    | with_reducible apply State.updPort_keeps
    | with_reducible apply Keeps.ite

theorem State.mismatch_keeps {s₀ : State} (s : State) (h : Fin 8) (r : Fin 4) (hk : Keeps wr s₀ s) : Keeps wr s₀ (State.mismatch s h r) := by
  unfold State.mismatch
  repeat' first
    | with_reducible assumption
    | intro _
    | with_reducible exact Keeps.refl _
    | with_reducible apply State.postPly_keeps
    | with_reducible apply State.postManager_keeps
    | with_reducible apply State.updHead_keeps
    | with_reducible apply State.updCarder_keeps
    | with_reducible apply State.hold_keeps
    | with_reducible apply State.onDev_keeps
    | with_reducible apply State.updPly_keeps
    | with_reducible apply State.updPort_keeps
    | with_reducible apply Keeps.getD
    | with_reducible apply Keeps.ite
    | split
    | dsimp only
    | simp only [Keeps.mkDev_iff]

theorem State.latchSig_keeps {s₀ : State} (s : State) (h : Fin 8) (r : Fin 4) (hk : Keeps wr s₀ s) : Keeps wr s₀ (State.latchSig s h r) := by
  unfold State.latchSig
  repeat' first
    | with_reducible assumption
    | intro _
    | with_reducible exact Keeps.refl _
    | with_reducible apply State.idle_keeps
    | with_reducible apply State.updHead_keeps
    | with_reducible apply State.hold_keeps
    | with_reducible apply State.mismatch_keeps
    | with_reducible apply State.onDev_keeps
    | with_reducible apply State.updPly_keeps
    | with_reducible apply State.updPort_keeps
    | with_reducible apply Keeps.ite

theorem State.applyGroup_keeps {s₀ : State} (s : State) (h : Fin 8) (g : Group) (hk : Keeps wr s₀ s) : Keeps wr s₀ (State.applyGroup s h g) := by
  unfold State.applyGroup
  repeat' first
    | with_reducible assumption
    | intro _
    | with_reducible exact Keeps.refl _
    | with_reducible apply State.updHead_keeps
    | with_reducible apply State.finishGroup_keeps
    | with_reducible apply State.onDev_keeps
    | with_reducible apply State.updPly_keeps
    | with_reducible apply State.updPort_keeps
    | with_reducible apply Keeps.foldl
    | with_reducible apply Keeps.ite
    | split
    | dsimp only
    | simp only [Keeps.mkDev_iff]

theorem State.dropStale_keeps {s₀ : State} (s : State) (h : Fin 8) (hk : Keeps wr s₀ s) : Keeps wr s₀ (State.dropStale s h) := by
  unfold State.dropStale
  repeat' first
    | with_reducible assumption
    | intro _
    | with_reducible exact Keeps.refl _
    | with_reducible apply State.each_keeps
    | with_reducible apply State.updHead_keeps
    | with_reducible apply State.finishGroup_keeps
    | with_reducible apply State.onDev_keeps
    | with_reducible apply State.updPly_keeps
    | with_reducible apply State.updPort_keeps
    | with_reducible apply Keeps.ite
    | split
    | dsimp only
    | simp only [Keeps.mkDev_iff]

theorem State.applyGroups_keeps {s₀ : State} (s : State) (h : Fin 8) (hk : Keeps wr s₀ s) : Keeps wr s₀ (State.applyGroups s h) := by
  unfold State.applyGroups
  repeat' first
    | with_reducible assumption
    | intro _
    | with_reducible exact Keeps.refl _
    | with_reducible apply State.updHead_keeps
    | with_reducible apply State.applyGroup_keeps
    | with_reducible apply State.onDev_keeps
    | with_reducible apply State.updPly_keeps
    | with_reducible apply State.updPort_keeps
    | with_reducible apply State.each_keeps

theorem State.showPlates_keeps {s₀ : State} (s : State) (h : Fin 8) (hk : Keeps wr s₀ s) : Keeps wr s₀ (State.showPlates s h) := by
  unfold State.showPlates
  repeat' first
    | with_reducible assumption
    | intro _
    | with_reducible exact Keeps.refl _
    | with_reducible apply State.each_keeps
    | with_reducible apply State.postBoth_keeps
    | with_reducible apply State.updHead_keeps
    | with_reducible apply State.onDev_keeps
    | with_reducible apply State.updPly_keeps
    | with_reducible apply State.updPort_keeps
    | with_reducible apply Keeps.ite
    | split
    | dsimp only
    | simp only [Keeps.mkDev_iff]

theorem State.swapArmed_keeps {s₀ : State} (s : State) (h : Fin 8) (hk : Keeps wr s₀ s) : Keeps wr s₀ (State.swapArmed s h) := by
  unfold State.swapArmed
  repeat' first
    | with_reducible assumption
    | intro _
    | with_reducible exact Keeps.refl _
    | with_reducible apply State.updHead_keeps
    | with_reducible apply State.swapTiming_keeps
    | with_reducible apply State.onDev_keeps
    | with_reducible apply State.updPly_keeps
    | with_reducible apply State.updPort_keeps
    | with_reducible apply Keeps.ite
    | split

theorem State.startFrame_keeps {s₀ : State} (s : State) (h : Fin 8) (hk : Keeps wr s₀ s) : Keeps wr s₀ (State.startFrame s h) := by
  unfold State.startFrame
  repeat' first
    | with_reducible assumption
    | intro _
    | with_reducible exact Keeps.refl _
    | with_reducible apply State.each_keeps
    | with_reducible apply State.updHead_keeps
    | with_reducible apply State.onDev_keeps
    | with_reducible apply State.updPly_keeps
    | with_reducible apply State.updPort_keeps
    | with_reducible apply Keeps.ite
    | split
    | dsimp only
    | simp only [Keeps.mkDev_iff]

theorem State.underrun_keeps {s₀ : State} (s : State) (h : Fin 8) (handle : Nat) (line : Nat) (col : Nat) (hk : Keeps wr s₀ s) : Keeps wr s₀ (State.underrun s h handle line col) := by
  unfold State.underrun
  repeat' first
    | with_reducible assumption
    | intro _
    | with_reducible exact Keeps.refl _
    | with_reducible apply State.updHead_keeps
    | with_reducible apply State.postHead_keeps
    | with_reducible apply State.onDev_keeps
    | with_reducible apply State.updPly_keeps
    | with_reducible apply State.updPort_keeps
    | with_reducible apply Keeps.ite
    | split
    | dsimp only

theorem State.dryHeld_keeps {s₀ : State} (s : State) (h : Fin 8) (hk : Keeps wr s₀ s) : Keeps wr s₀ (State.dryHeld s h) := by
  unfold State.dryHeld
  repeat' first
    | with_reducible assumption
    | intro _
    | with_reducible exact Keeps.refl _
    | with_reducible apply State.each_keeps
    | with_reducible apply State.hold_keeps
    | with_reducible apply State.underrun_keeps
    | with_reducible apply State.onDev_keeps
    | with_reducible apply State.updPly_keeps
    | with_reducible apply State.updPort_keeps
    | with_reducible apply Keeps.ite
    | split
    | dsimp only
    | simp only [Keeps.mkDev_iff]

theorem State.boundary_keeps {s₀ : State} (s : State) (h : Fin 8) (ending : Bool) (hk : Keeps wr s₀ s) : Keeps wr s₀ (State.boundary s h ending) := by
  unfold State.boundary
  repeat' first
    | with_reducible assumption
    | intro _
    | with_reducible exact Keeps.refl _
    | with_reducible apply State.returnCmp_keeps
    | with_reducible apply State.takeCmp_keeps
    | with_reducible apply State.swapTenancies_keeps
    | with_reducible apply State.each_keeps
    | with_reducible apply State.onDev_keeps
    | with_reducible apply State.tick_keeps
    | with_reducible apply State.updHead_keeps
    | with_reducible apply State.swapFollow_keeps
    | with_reducible apply State.latchSig_keeps
    | with_reducible apply State.dropStale_keeps
    | with_reducible apply State.applyGroups_keeps
    | with_reducible apply State.showPlates_keeps
    | with_reducible apply State.swapArmed_keeps
    | with_reducible apply State.startFrame_keeps
    | with_reducible apply State.dryHeld_keeps
    | with_reducible apply State.updPly_keeps
    | with_reducible apply State.updPort_keeps
    | (with_reducible refine Keeps.mkTake _ (by assumption) ?_)
    | with_reducible apply Keeps.ite
    | split
    | dsimp only
    | simp only [Keeps.mkDev_iff]

theorem execFrameBoundary_keeps (h : Fin 8) (ref : Option Int) (s : State) : KeepsRes wr s (execFrameBoundary h ref s) := by
  unfold execFrameBoundary
  have hk : Keeps wr s s := Keeps.refl s
  repeat' first
    | with_reducible assumption
    | intro _
    | with_reducible exact Keeps.refl _
    | with_reducible apply State.checkLock_keeps
    | with_reducible apply State.boundary_keeps
    | with_reducible apply State.onDev_keeps
    | with_reducible apply State.updPly_keeps
    | with_reducible apply State.updPort_keeps
    | with_reducible apply KeepsRes.next
    | with_reducible apply State.clocked_keeps
    | with_reducible apply Keeps.ite
    | split

theorem execIdleFrameEnd_keeps (h : Fin 8) (same : Bool) (s : State) : KeepsRes wr s (execIdleFrameEnd h same s) := by
  unfold execIdleFrameEnd
  have hk : Keeps wr s s := Keeps.refl s
  repeat' first
    | with_reducible assumption
    | intro _
    | with_reducible exact Keeps.refl _
    | with_reducible apply State.lockHead_keeps
    | with_reducible apply State.boundary_keeps
    | with_reducible apply State.onDev_keeps
    | with_reducible apply State.updPly_keeps
    | with_reducible apply State.updPort_keeps
    | with_reducible apply KeepsRes.next
    | with_reducible apply State.clocked_keeps
    | with_reducible apply Keeps.ite
    | split
    | dsimp only

theorem execArmingCutoff_keeps (h : Fin 8) (s : State) : KeepsRes wr s (execArmingCutoff h s) := by
  unfold execArmingCutoff
  have hk : Keeps wr s s := Keeps.refl s
  repeat' first
    | with_reducible assumption
    | intro _
    | with_reducible exact Keeps.refl _
    | with_reducible apply State.updHead_keeps
    | with_reducible apply State.onDev_keeps
    | with_reducible apply State.updPly_keeps
    | with_reducible apply State.updPort_keeps
    | with_reducible apply KeepsRes.next
    | with_reducible apply State.clocked_keeps
    | with_reducible apply Keeps.ite
    | split

theorem State.underrunNow_keeps {s₀ : State} (s : State) (h : Fin 8) (handle : Fin 64) (hk : Keeps wr s₀ s) : Keeps wr s₀ (State.underrunNow s h handle) := by
  unfold State.underrunNow
  repeat' first
    | with_reducible assumption
    | intro _
    | with_reducible exact Keeps.refl _
    | with_reducible apply State.underrun_keeps
    | with_reducible apply State.onDev_keeps
    | with_reducible apply State.updPly_keeps
    | with_reducible apply State.updPort_keeps
    | with_reducible apply Keeps.ite

theorem execUnderrun_keeps (h : Fin 8) (handle : Fin 64) (line : Nat) (col : Nat) (s : State) : KeepsRes wr s (execUnderrun h handle line col s) := by
  unfold execUnderrun
  have hk : Keeps wr s s := Keeps.refl s
  repeat' first
    | with_reducible assumption
    | intro _
    | with_reducible exact Keeps.refl _
    | with_reducible apply State.underrun_keeps
    | with_reducible apply State.onDev_keeps
    | with_reducible apply State.updPly_keeps
    | with_reducible apply State.updPort_keeps
    | with_reducible apply KeepsRes.next
    | with_reducible apply State.clocked_keeps
    | with_reducible apply Keeps.ite
    | split

theorem execFbselRelease_keeps (q : Fin 4) (s : State) : KeepsRes wr s (execFbselRelease q s) := by
  unfold execFbselRelease
  have hk : Keeps wr s s := Keeps.refl s
  repeat' first
    | with_reducible assumption
    | intro _
    | with_reducible exact Keeps.refl _
    | with_reducible apply State.updCarder_keeps
    | with_reducible apply State.onDev_keeps
    | with_reducible apply State.updPly_keeps
    | with_reducible apply State.updPort_keeps
    | with_reducible apply KeepsRes.next
    | with_reducible apply State.clocked_keeps
    | with_reducible apply Keeps.ite
    | split

theorem execCmpLutDataWrite_keeps (q : Fin 4) (value : Word) (s : State) : KeepsRes wr s (execCmpLutDataWrite q value s) := by
  unfold execCmpLutDataWrite
  have hk : Keeps wr s s := Keeps.refl s
  repeat' first
    | with_reducible assumption
    | intro _
    | with_reducible exact Keeps.refl _
    | with_reducible apply State.updCarder_keeps
    | with_reducible apply State.onDev_keeps
    | with_reducible apply State.updPly_keeps
    | with_reducible apply State.updPort_keeps
    | with_reducible apply KeepsRes.next
    | with_reducible apply State.clocked_keeps
    | with_reducible apply Keeps.ite
    | split

theorem execCmpLutDataRead_keeps (q : Fin 4) (s : State) : KeepsRes wr s (execCmpLutDataRead q s) := by
  unfold execCmpLutDataRead
  have hk : Keeps wr s s := Keeps.refl s
  repeat' first
    | with_reducible assumption
    | intro _
    | with_reducible exact Keeps.refl _
    | with_reducible apply State.emit_keeps
    | with_reducible apply State.onDev_keeps
    | with_reducible apply State.updPly_keeps
    | with_reducible apply State.updPort_keeps
    | with_reducible apply KeepsRes.next
    | with_reducible apply State.clocked_keeps

theorem execTenApply_keeps (order : Nat) (s : State) : KeepsRes wr s (execTenApply order s) := by
  unfold execTenApply
  have hk : Keeps wr s s := Keeps.refl s
  repeat' first
    | with_reducible assumption
    | intro _
    | with_reducible exact Keeps.refl _
    | with_reducible apply State.answerOrder_keeps
    | with_reducible apply State.updHead_keeps
    | with_reducible apply State.answer_keeps
    | with_reducible apply State.hold_keeps
    | with_reducible apply State.onDev_keeps
    | with_reducible apply State.updPly_keeps
    | with_reducible apply State.updPort_keeps
    | with_reducible apply KeepsRes.next
    | with_reducible apply State.clocked_keeps
    | with_reducible apply Keeps.ite
    | split
    | dsimp only
    | simp only [Keeps.mkDev_iff]

theorem execSigHoldClear_keeps (q : Fin 4) (h : Fin 8) (r : Fin 4) (s : State) : KeepsRes wr s (execSigHoldClear q h r s) := by
  unfold execSigHoldClear
  have hk : Keeps wr s s := Keeps.refl s
  repeat' first
    | with_reducible assumption
    | intro _
    | with_reducible exact Keeps.refl _
    | with_reducible apply State.updHead_keeps
    | with_reducible apply State.hold_keeps
    | with_reducible apply State.onDev_keeps
    | with_reducible apply State.updPly_keeps
    | with_reducible apply State.updPort_keeps
    | with_reducible apply KeepsRes.next
    | with_reducible apply State.clocked_keeps
    | with_reducible apply Keeps.ite
    | split

theorem execSigResultLoRead_keeps (q : PairRead) (h : Fin 8) (r : Fin 4) (s : State) : KeepsRes wr s (execSigResultLoRead q h r s) := by
  unfold execSigResultLoRead
  have hk : Keeps wr s s := Keeps.refl s
  repeat' first
    | with_reducible assumption
    | intro _
    | with_reducible exact Keeps.refl _
    | with_reducible apply State.readPair_keeps
    | with_reducible apply State.onDev_keeps
    | with_reducible apply State.updPly_keeps
    | with_reducible apply State.updPort_keeps
    | with_reducible apply KeepsRes.next
    | with_reducible apply State.clocked_keeps
    | with_reducible apply State.emit_keeps
    | with_reducible apply Keeps.ite
    | split
    | dsimp only
    | simp only [Keeps.mkDev_iff]

end Sys2Proof.Machine
end

