-- ==== Sys2Proof/Laws/MemErrors.lean ====
section
/-! SUPPORT. Laws/MemErrors.lean: the operations and commands of Machine/MemErrors.lean keep the queue, the canonical form of DRAM and the credits. -/
namespace Sys2Proof.Machine
variable {wr : Bool}

theorem execMemTransferAccept_keeps (client : MemClient) (ply : Option (Fin 64)) (addr : Nat) (write : Option (Nat × List Byte)) (head : Option (Fin 8 × Fin 64)) (s : State) : KeepsRes wr s (execMemTransferAccept client ply addr write head s) := by
  unfold execMemTransferAccept -- manual
  apply State.clocked_keeps _ _ (Keeps.refl s)
  have hk : Keeps wr s s := Keeps.refl s
  split
  · exact KeepsRes.next hk
  · split
    · exact KeepsRes.next (State.onDev_keeps _ _ hk)
    · split
      · split
        · exact KeepsRes.next (State.faultPly_keeps _ _ _ _ _ _ hk)
        · exact KeepsRes.next hk
      · extract_lets h unit w cost
        clear_value h unit w cost
        split
        · exact KeepsRes.next hk
        · have hm := State.takeMem_keeps (by assumption) hk
          extract_lets reserved ch r s'
          split
          · exact KeepsRes.next hk
          · exact KeepsRes.next (State.updMc_keeps _ _ (State.updChan_keeps _ _ _ hm))

theorem State.poisoned_keeps {s₀ : State} (s : State) (r : McReq) (u : DeviceUnit) (pixel : Option (Nat × Nat)) (hk : Keeps wr s₀ s) : Keeps wr s₀ (State.poisoned s r u pixel) := by
  unfold State.poisoned
  repeat' first
    | with_reducible assumption
    | intro _
    | with_reducible exact Keeps.refl _
    | with_reducible apply State.deviceUncorrectable_keeps
    | with_reducible apply State.faultPly_keeps
    | with_reducible apply State.underrun_keeps
    | with_reducible apply State.underrunNow_keeps
    | with_reducible apply State.onDev_keeps
    | with_reducible apply State.updPly_keeps
    | with_reducible apply State.updPort_keeps
    | with_reducible apply Keeps.ite
    | split
    | dsimp only
    | simp only [Keeps.mkDev_iff]

theorem execMemReadReturn_keeps (ch : Fin 16) (id : Nat) (errs : List (Nat × Byte)) (unit : DeviceUnit) (line : Nat) (col : Nat) (s : State) : KeepsRes wr s (execMemReadReturn ch id errs unit line col s) := by
  unfold execMemReadReturn
  have hk : Keeps wr s s := Keeps.refl s
  repeat' first
    | with_reducible assumption
    | intro _
    | with_reducible exact Keeps.refl _
    | with_reducible apply State.updChan_keeps
    | with_reducible apply State.clocked_keeps
    | with_reducible apply State.eccFound_keeps
    | with_reducible apply State.poisoned_keeps
    | with_reducible apply State.onDev_keeps
    | with_reducible apply State.updPly_keeps
    | with_reducible apply State.updPort_keeps
    | with_reducible apply KeepsRes.next
    | with_reducible apply State.eccReport_keeps
    | with_reducible apply Keeps.ite
    | split
    | dsimp only
    | simp only [Keeps.mkDev_iff]

theorem State.failQueue_keeps {s₀ : State} (s : State) (ch : Fin 16) (hk : Keeps wr s₀ s) : Keeps wr s₀ (State.failQueue s ch) := by
  unfold State.failQueue
  repeat' first
    | with_reducible assumption
    | intro _
    | with_reducible exact Keeps.refl _
    | with_reducible apply State.updChan_keeps
    | with_reducible apply State.each_keeps
    | with_reducible apply State.eccReport_keeps
    | with_reducible apply State.poisoned_keeps
    | with_reducible apply State.onDev_keeps
    | with_reducible apply State.updPly_keeps
    | with_reducible apply State.updPort_keeps
    | with_reducible apply Keeps.ite
    | split
    | dsimp only
    | simp only [Keeps.mkDev_iff]

theorem execCaParityAlert_keeps (ch : Fin 16) (s : State) : KeepsRes wr s (execCaParityAlert ch s) := by
  unfold execCaParityAlert
  have hk : Keeps wr s s := Keeps.refl s
  repeat' first
    | with_reducible assumption
    | intro _
    | with_reducible exact Keeps.refl _
    | with_reducible apply State.postManager_keeps
    | with_reducible apply State.cocoon_keeps
    | with_reducible apply State.updChan_keeps
    | with_reducible apply State.updMc_keeps
    | with_reducible apply State.failQueue_keeps
    | with_reducible apply State.onDev_keeps
    | with_reducible apply State.updPly_keeps
    | with_reducible apply State.updPort_keeps
    | with_reducible apply KeepsRes.next
    | with_reducible apply State.clocked_keeps
    | with_reducible apply Keeps.ite
    | split
    | dsimp only

end Sys2Proof.Machine
end

