-- ==== Sys2Proof/Laws/Plies.lean ====
section
/-! SUPPORT. Laws/Plies.lean: the operations and commands of Machine/Plies.lean keep the queue, the canonical form of DRAM and the credits. -/
namespace Sys2Proof.Machine
variable {wr : Bool}

/-- The shares of a new ply enter the ledger. -/
theorem Keeps.mkEnterAll {s t : State} (l : List (Kind × Nat × Nat)) (p : Fin 64) (a : Bool) (d : Dev) (h : Keeps wr s t) :
    Keeps wr s ⟨t.pending, t.dram, l.foldl (fun k x => k.enter x.1 p x.2.1 x.2.2 a) t.skein, d⟩ :=
  h.mkSkein _ _ fun hc => foldl_keeps Skein.Conserves _ (fun _ _ hc => Skein.enter_conserves _ _ _ _ _ hc) _ _ hc

/-- The shares of a destroyed ply leave the ledger. -/
theorem State.leaveAll_keeps {s₀ : State} (s : State) (l : List Kind) (p : Fin 64) (h : Keeps wr s₀ s) :
    Keeps wr s₀ (s.onSkein fun k => l.foldl (fun k kd => k.enter kd p 0 0 false) k) :=
  h.mkSkein _ _ (foldl_keeps Skein.Conserves _ (fun _ _ hc => Skein.enter_conserves _ _ _ _ _ hc) l s.skein)

/-- The CAP of a new ply is 0 in every kind (R55). -/
theorem State.closeCaps_keeps {s₀ : State} (s : State) (l : List Kind) (x y : Fin holders) (h : Keeps wr s₀ s) :
    Keeps wr s₀ (s.onSkein fun k => l.foldl (fun k kd => k.setAcct kd { k.acct kd with cap := put (put (k.acct kd).cap x 0) y 0 }) k) :=
  h.mkSkein _ _ (foldl_keeps Skein.Conserves _
    (fun _ kd hc => Skein.setAcct_conserves kd hc (Account.withCap_conserves _ (Skein.acct_conserves kd hc))) l s.skein)

/-- One pending share is entered (R50, R53). -/
theorem State.setPending_keeps {s₀ : State} (s : State) (kd : Kind) (x : Fin holders) (g c : Nat) (h : Keeps wr s₀ s) :
    Keeps wr s₀ (s.onSkein fun q => q.setAcct kd ((s.skein.acct kd).setPending x g c)) :=
  h.mkSkein _ _ fun hc => Skein.setAcct_conserves kd hc (Account.setPending_conserves _ _ _ (Skein.acct_conserves kd hc))

/-- The HTAG shares of a ply move to another port (R482). -/
theorem State.moveShares_keeps {s₀ : State} (s : State) (c : Prop) [Decidable c] (kd kd' : Kind) (p : Fin 64) (g x : Nat) (a : Bool) (h : Keeps wr s₀ s) :
    Keeps wr s₀ (s.onSkein fun k => if c then k else (k.enter kd p g x a).enter kd' p 0 0 false) := by
  refine h.mkSkein _ _ fun hc => ?_
  dsimp only
  split
  · exact hc
  · exact Skein.enter_conserves _ _ _ _ _ (Skein.enter_conserves _ _ _ _ _ hc)

theorem State.fetchBuffer_keeps {s₀ : State} {α : Type} (s : State) (j : Journal) (addr : Nat) (n : Nat) (data : Option α) (empty : α) (act : State → α → State) (hk : Keeps wr s₀ s) (hact : ∀ x0 x1, Keeps wr s₀ x0 → Keeps wr s₀ (act x0 x1)) : Keeps wr s₀ (State.fetchBuffer s j addr n data empty act) := by
  unfold State.fetchBuffer
  repeat' first
    | with_reducible assumption
    | intro _
    | with_reducible exact Keeps.refl _
    | with_reducible apply State.startRead_keeps
    | with_reducible apply State.endReads_keeps
    | with_reducible apply State.answer_keeps
    | with_reducible apply State.hold_keeps
    | with_reducible apply State.onDev_keeps
    | with_reducible apply State.updPly_keeps
    | with_reducible apply State.updPort_keeps
    | with_reducible apply hact
    | with_reducible apply Keeps.ite
    | split
    | dsimp only
    | simp only [Keeps.mkDev_iff]

theorem State.wakeFor_keeps {s₀ : State} (s : State) (p : Fin 64) (hk : Keeps wr s₀ s) : Keeps wr s₀ (State.wakeFor s p) := by
  unfold State.wakeFor
  repeat' first
    | with_reducible assumption
    | intro _
    | with_reducible exact Keeps.refl _
    | with_reducible apply State.onDev_keeps
    | with_reducible apply State.updPly_keeps
    | with_reducible apply State.updPort_keeps
    | with_reducible apply Keeps.ite
    | split
    | dsimp only
    | simp only [Keeps.mkDev_iff]

theorem execPlyCreate_keeps (order : Nat) (block : Option (List Byte)) (s : State) : KeepsRes wr s (execPlyCreate order block s) := by
  unfold execPlyCreate
  have hk : Keeps wr s s := Keeps.refl s
  repeat' first
    | with_reducible assumption
    | intro _
    | with_reducible exact Keeps.refl _
    | with_reducible apply State.give_keeps
    | with_reducible apply State.giveAll_keeps
    | with_reducible apply State.onDev_keeps
    | with_reducible apply State.updPly_keeps
    | with_reducible apply State.clocked_keeps
    | with_reducible apply State.answer_keeps
    | with_reducible apply State.managed_keeps
    | with_reducible apply State.fetchBuffer_keeps
    | with_reducible apply State.wakeFor_keeps
    | with_reducible apply State.updPort_keeps
    | with_reducible apply Keeps.foldl
    | (with_reducible refine Keeps.mkTake _ (by assumption) ?_)
    | with_reducible apply KeepsRes.next
    | with_reducible apply Keeps.mkEnterAll
    | with_reducible apply State.leaveAll_keeps
    | with_reducible apply State.closeCaps_keeps
    | with_reducible apply State.setPending_keeps
    | with_reducible apply State.moveShares_keeps
    | with_reducible apply State.onSkein_keeps
    | with_reducible apply Keeps.ite
    | split
    | dsimp only
    | simp only [Keeps.mkDev_iff]

theorem execPlyShare_keeps (order : Nat) (s : State) : KeepsRes wr s (execPlyShare order s) := by
  unfold execPlyShare
  have hk : Keeps wr s s := Keeps.refl s
  repeat' first
    | with_reducible assumption
    | intro _
    | with_reducible exact Keeps.refl _
    | with_reducible apply State.give_keeps
    | with_reducible apply State.giveAll_keeps
    | with_reducible apply State.updPly_keeps
    | with_reducible apply State.clocked_keeps
    | with_reducible apply State.answer_keeps
    | with_reducible apply State.managed_keeps
    | with_reducible apply State.onDev_keeps
    | with_reducible apply State.updPort_keeps
    | (with_reducible refine Keeps.mkTake _ (by assumption) ?_)
    | with_reducible apply KeepsRes.next
    | with_reducible apply Keeps.mkEnterAll
    | with_reducible apply State.leaveAll_keeps
    | with_reducible apply State.closeCaps_keeps
    | with_reducible apply State.setPending_keeps
    | with_reducible apply State.moveShares_keeps
    | with_reducible apply State.onSkein_keeps
    | with_reducible apply Keeps.ite
    | split
    | dsimp only
    | simp only [Keeps.mkDev_iff]

theorem execPlyQuiesce_keeps (order : Nat) (s : State) : KeepsRes wr s (execPlyQuiesce order s) := by
  unfold execPlyQuiesce
  have hk : Keeps wr s s := Keeps.refl s
  repeat' first
    | with_reducible assumption
    | intro _
    | with_reducible exact Keeps.refl _
    | with_reducible apply State.quiesce_keeps
    | with_reducible apply State.answer_keeps
    | with_reducible apply State.managed_keeps
    | with_reducible apply Keeps.mkEnterAll
    | with_reducible apply State.leaveAll_keeps
    | with_reducible apply State.closeCaps_keeps
    | with_reducible apply State.setPending_keeps
    | with_reducible apply State.moveShares_keeps
    | with_reducible apply State.onDev_keeps
    | with_reducible apply State.updPly_keeps
    | with_reducible apply State.updPort_keeps
    | with_reducible apply KeepsRes.next
    | with_reducible apply State.clocked_keeps
    | with_reducible apply Keeps.ite
    | split

theorem State.readRings_keeps {s₀ : State} (s : State) (p : Fin 64) (hk : Keeps wr s₀ s) : Keeps wr s₀ (State.readRings s p) := by
  unfold State.readRings
  repeat' first
    | with_reducible assumption
    | intro _
    | with_reducible exact Keeps.refl _
    | with_reducible apply State.startPass_keeps
    | with_reducible apply State.wantPoll_keeps
    | with_reducible apply Keeps.mkEnterAll
    | with_reducible apply State.leaveAll_keeps
    | with_reducible apply State.closeCaps_keeps
    | with_reducible apply State.setPending_keeps
    | with_reducible apply State.moveShares_keeps
    | with_reducible apply State.onDev_keeps
    | with_reducible apply State.updPly_keeps
    | with_reducible apply State.updPort_keeps
    | with_reducible apply State.each_keeps

theorem execPlyResume_keeps (order : Nat) (s : State) : KeepsRes wr s (execPlyResume order s) := by
  unfold execPlyResume
  have hk : Keeps wr s s := Keeps.refl s
  repeat' first
    | with_reducible assumption
    | intro _
    | with_reducible exact Keeps.refl _
    | with_reducible apply State.updPly_keeps
    | with_reducible apply State.clocked_keeps
    | with_reducible apply State.orphan_keeps
    | with_reducible apply State.answer_keeps
    | with_reducible apply State.managed_keeps
    | with_reducible apply State.wakeFor_keeps
    | with_reducible apply State.readRings_keeps
    | with_reducible apply State.onDev_keeps
    | with_reducible apply State.updPort_keeps
    | with_reducible apply KeepsRes.next
    | with_reducible apply Keeps.mkEnterAll
    | with_reducible apply Keeps.ite
    | split
    | dsimp only
    | simp only [Keeps.mkDev_iff]

theorem execPlyReset_keeps (order : Nat) (s : State) : KeepsRes wr s (execPlyReset order s) := by
  unfold execPlyReset
  have hk : Keeps wr s s := Keeps.refl s
  repeat' first
    | with_reducible assumption
    | intro _
    | with_reducible exact Keeps.refl _
    | with_reducible apply State.give_keeps
    | with_reducible apply State.giveAll_keeps
    | with_reducible apply State.onDev_keeps
    | with_reducible apply State.updPly_keeps
    | with_reducible apply State.clocked_keeps
    | with_reducible apply State.orphan_keeps
    | with_reducible apply State.answer_keeps
    | with_reducible apply State.managed_keeps
    | with_reducible apply State.wakeFor_keeps
    | with_reducible apply State.updPort_keeps
    | with_reducible apply Keeps.getD
    | (with_reducible refine Keeps.mkTake _ (by assumption) ?_)
    | with_reducible apply KeepsRes.next
    | with_reducible apply Keeps.mkEnterAll
    | with_reducible apply State.leaveAll_keeps
    | with_reducible apply State.closeCaps_keeps
    | with_reducible apply State.setPending_keeps
    | with_reducible apply State.moveShares_keeps
    | with_reducible apply State.onSkein_keeps
    | with_reducible apply Keeps.ite
    | split
    | dsimp only
    | simp only [Keeps.mkDev_iff]

theorem execPlyDestroy_keeps (order : Nat) (s : State) : KeepsRes wr s (execPlyDestroy order s) := by
  unfold execPlyDestroy
  have hk : Keeps wr s s := Keeps.refl s
  repeat' first
    | with_reducible assumption
    | intro _
    | with_reducible exact Keeps.refl _
    | with_reducible apply State.answer_keeps
    | with_reducible apply State.managed_keeps
    | with_reducible apply Keeps.mkEnterAll
    | with_reducible apply State.leaveAll_keeps
    | with_reducible apply State.closeCaps_keeps
    | with_reducible apply State.setPending_keeps
    | with_reducible apply State.moveShares_keeps
    | with_reducible apply State.onDev_keeps
    | with_reducible apply State.updPly_keeps
    | with_reducible apply State.updPort_keeps
    | with_reducible apply Keeps.foldl
    | with_reducible apply State.give_keeps
    | with_reducible apply State.giveAll_keeps
    | with_reducible apply KeepsRes.next
    | with_reducible apply State.clocked_keeps
    | with_reducible apply Keeps.ite
    | split

theorem execPlyQuery_keeps (order : Nat) (s : State) : KeepsRes wr s (execPlyQuery order s) := by
  unfold execPlyQuery
  have hk : Keeps wr s s := Keeps.refl s
  repeat' first
    | with_reducible assumption
    | intro _
    | with_reducible exact Keeps.refl _
    | with_reducible apply State.answer_keeps
    | with_reducible apply State.managed_keeps
    | with_reducible apply Keeps.mkEnterAll
    | with_reducible apply State.leaveAll_keeps
    | with_reducible apply State.closeCaps_keeps
    | with_reducible apply State.setPending_keeps
    | with_reducible apply State.moveShares_keeps
    | with_reducible apply State.onDev_keeps
    | with_reducible apply State.updPly_keeps
    | with_reducible apply State.updPort_keeps
    | (with_reducible refine Keeps.mkTake _ (by assumption) ?_)
    | with_reducible apply KeepsRes.next
    | with_reducible apply State.clocked_keeps
    | with_reducible apply Keeps.ite
    | split

theorem execPlyQuiesced_keeps (p : Fin 64) (s : State) : KeepsRes wr s (execPlyQuiesced p s) := by
  unfold execPlyQuiesced
  have hk : Keeps wr s s := Keeps.refl s
  repeat' first
    | with_reducible assumption
    | intro _
    | with_reducible exact Keeps.refl _
    | with_reducible apply State.postBoth_keeps
    | with_reducible apply Keeps.mkEnterAll
    | with_reducible apply State.leaveAll_keeps
    | with_reducible apply State.closeCaps_keeps
    | with_reducible apply State.setPending_keeps
    | with_reducible apply State.moveShares_keeps
    | with_reducible apply State.onDev_keeps
    | with_reducible apply State.updPly_keeps
    | with_reducible apply State.updPort_keeps
    | (with_reducible refine Keeps.mkTake _ (by assumption) ?_)
    | with_reducible apply KeepsRes.next
    | with_reducible apply State.clocked_keeps
    | with_reducible apply Keeps.ite
    | split
    | dsimp only

theorem State.migrating_keeps {s₀ : State} (s : State) (order : Nat) (code : Nat) (argOk : Journal → Bool) (act : Journal → Fin 64 → State) (hk : Keeps wr s₀ s) (hact : ∀ x0 x1, Keeps wr s₀ (act x0 x1)) : KeepsRes wr s₀ (State.migrating s order code argOk act) := by
  unfold State.migrating
  repeat' first
    | with_reducible assumption
    | intro _
    | with_reducible exact Keeps.refl _
    | with_reducible apply State.answer_keeps
    | with_reducible apply State.managed_keeps
    | with_reducible apply State.onDev_keeps
    | with_reducible apply State.updPly_keeps
    | with_reducible apply State.updPort_keeps
    | with_reducible apply KeepsRes.next
    | with_reducible apply Keeps.mkEnterAll
    | with_reducible apply hact
    | with_reducible apply Keeps.ite
    | split
    | dsimp only
    | simp only [Keeps.mkDev_iff]

theorem execMigLogStart_keeps (order : Nat) (block : Option (List Byte)) (s : State) : KeepsRes wr s (execMigLogStart order block s) := by
  unfold execMigLogStart
  have hk : Keeps wr s s := Keeps.refl s
  repeat' first
    | with_reducible assumption
    | intro _
    | with_reducible exact Keeps.refl _
    | with_reducible apply State.updPly_keeps
    | with_reducible apply State.clocked_keeps
    | with_reducible apply State.answer_keeps
    | with_reducible apply State.managed_keeps
    | with_reducible apply State.fetchBuffer_keeps
    | with_reducible apply State.onDev_keeps
    | with_reducible apply State.updPort_keeps
    | with_reducible apply KeepsRes.next
    | with_reducible apply State.migrating_keeps
    | with_reducible apply Keeps.mkEnterAll
    | with_reducible apply Keeps.ite
    | split
    | dsimp only
    | simp only [Keeps.mkDev_iff]

theorem State.flushLog_keeps {s₀ : State} (s : State) (p : Fin 64) (q : Fin 4) (hk : Keeps wr s₀ s) : Keeps wr s₀ (State.flushLog s p q) := by
  unfold State.flushLog
  repeat' first
    | with_reducible assumption
    | intro _
    | with_reducible exact Keeps.refl _
    | with_reducible apply State.onDev_keeps
    | with_reducible apply State.updPly_keeps
    | with_reducible apply State.updPort_keeps
    | with_reducible apply Keeps.foldl
    | with_reducible apply Keeps.mkEnterAll
    | with_reducible apply Keeps.ite
    | split
    | dsimp only
    | simp only [Keeps.mkDev_iff]

theorem execMigLogSwap_keeps (order : Nat) (s : State) : KeepsRes wr s (execMigLogSwap order s) := by
  unfold execMigLogSwap
  have hk : Keeps wr s s := Keeps.refl s
  repeat' first
    | with_reducible assumption
    | intro _
    | with_reducible exact Keeps.refl _
    | with_reducible apply State.updPly_keeps
    | with_reducible apply State.clocked_keeps
    | with_reducible apply State.answer_keeps
    | with_reducible apply State.migrating_keeps
    | with_reducible apply State.flushLog_keeps
    | with_reducible apply State.onDev_keeps
    | with_reducible apply State.updPort_keeps
    | with_reducible apply KeepsRes.next
    | with_reducible apply Keeps.mkEnterAll
    | with_reducible apply Keeps.ite
    | split
    | dsimp only
    | simp only [Keeps.mkDev_iff]

theorem execMigLogStop_keeps (order : Nat) (s : State) : KeepsRes wr s (execMigLogStop order s) := by
  unfold execMigLogStop
  have hk : Keeps wr s s := Keeps.refl s
  repeat' first
    | with_reducible assumption
    | intro _
    | with_reducible exact Keeps.refl _
    | with_reducible apply State.updPly_keeps
    | with_reducible apply State.clocked_keeps
    | with_reducible apply State.answer_keeps
    | with_reducible apply State.migrating_keeps
    | with_reducible apply State.flushLog_keeps
    | with_reducible apply State.onDev_keeps
    | with_reducible apply State.updPort_keeps
    | with_reducible apply KeepsRes.next
    | with_reducible apply Keeps.mkEnterAll
    | with_reducible apply Keeps.ite
    | split
    | dsimp only
    | simp only [Keeps.mkDev_iff]

theorem execMigSession_keeps (order : Nat) (relay : Relay) (measures : Option (List (List Byte))) (agreed : Bool) (s : State) : KeepsRes wr s (execMigSession order relay measures agreed s) := by
  unfold execMigSession
  have hk : Keeps wr s s := Keeps.refl s
  repeat' first
    | with_reducible assumption
    | intro _
    | with_reducible exact Keeps.refl _
    | with_reducible apply State.onDev_keeps
    | with_reducible apply State.updPly_keeps
    | with_reducible apply State.clocked_keeps
    | with_reducible apply State.answer_keeps
    | with_reducible apply State.fetchBuffer_keeps
    | with_reducible apply State.migrating_keeps
    | with_reducible apply State.updPort_keeps
    | with_reducible apply KeepsRes.next
    | with_reducible apply Keeps.mkEnterAll
    | with_reducible apply Keeps.ite
    | split
    | dsimp only
    | simp only [Keeps.mkDev_iff]

theorem State.granuleErrors_keeps {s₀ : State} (s : State) (p : Fin 64) (g : Nat) (hk : Keeps wr s₀ s) : Keeps wr s₀ (State.granuleErrors s p g) := by
  unfold State.granuleErrors
  repeat' first
    | with_reducible assumption
    | intro _
    | with_reducible exact Keeps.refl _
    | with_reducible apply State.eccReport_keeps
    | with_reducible apply State.faultPly_keeps
    | with_reducible apply State.onDev_keeps
    | with_reducible apply State.updPly_keeps
    | with_reducible apply State.updPort_keeps
    | with_reducible apply Keeps.ite
    | split
    | dsimp only
    | simp only [Keeps.mkDev_iff]

theorem State.exportGranules_keeps {s₀ : State} (s : State) (p : Fin 64) (q : Fin 4) (salt round addr room n : Nat) (hk : Keeps wr s₀ s) :
    Keeps wr s₀ (s.exportGranules p q salt round addr room n).1 := by
  induction room generalizing s n with
  | zero => exact hk
  | succ room ih =>
    unfold State.exportGranules
    split
    · exact hk
    · split
      · exact hk
      · exact ih _ _ (State.updPly_keeps _ _ _ (State.onDev_keeps _ _ (State.granuleErrors_keeps _ _ _ (State.takeMem_keeps (by assumption) hk))))

theorem State.startRound_keeps {s₀ : State} (s : State) (p : Fin 64) (round : Nat) (hk : Keeps wr s₀ s) : Keeps wr s₀ (State.startRound s p round) := by
  unfold State.startRound
  repeat' first
    | with_reducible assumption
    | intro _
    | with_reducible exact Keeps.refl _
    | with_reducible apply State.updPly_keeps
    | with_reducible apply State.onDev_keeps
    | with_reducible apply State.updPort_keeps
    | with_reducible apply Keeps.ite
    | split
    | dsimp only
    | simp only [Keeps.mkDev_iff]

theorem execMigExport_keeps (order salt : Nat) (s : State) : KeepsRes wr s (execMigExport order salt s) := by
  unfold execMigExport
  have hk : Keeps wr s s := Keeps.refl s
  repeat' first
    | with_reducible assumption
    | intro _
    | with_reducible exact Keeps.refl _
    | with_reducible apply State.onDev_keeps
    | with_reducible apply State.updPly_keeps
    | with_reducible apply State.clocked_keeps
    | with_reducible apply State.answer_keeps
    | with_reducible apply State.hold_keeps
    | with_reducible apply State.migrating_keeps
    | with_reducible apply State.exportGranules_keeps
    | with_reducible apply State.startRound_keeps
    | with_reducible apply State.updPort_keeps
    | with_reducible apply KeepsRes.next
    | with_reducible apply Keeps.mkEnterAll
    | with_reducible apply Keeps.ite
    | split
    | dsimp only
    | simp only [Keeps.mkDev_iff]

theorem State.reachGranule_keeps {s₀ : State} (s : State) (eng : Engine) (p : Option (Fin 64)) (g : Nat) (hk : Keeps true s₀ s) : Keeps true s₀ (State.reachGranule s eng p g) := by
  unfold State.reachGranule
  repeat' first
    | with_reducible assumption
    | intro _
    | with_reducible exact Keeps.refl _
    | with_reducible apply State.openUnit_keeps
    | with_reducible apply State.settleUnit_keeps
    | with_reducible apply State.onDev_keeps
    | with_reducible apply State.updPly_keeps
    | with_reducible apply State.updPort_keeps
    | with_reducible apply Keeps.foldl
    | with_reducible apply Keeps.ite
    | split
    | dsimp only
    | simp only [Keeps.mkDev_iff]

theorem State.importRecord_keeps {s₀ s s₁ : State} {p : Fin 64} {r : MigRecord} (e : s.importRecord p r = .done s₁) (hk : Keeps true s₀ s) : Keeps true s₀ s₁ := by
  unfold State.importRecord at e
  split at e
  · dsimp only at e
    split at e
    · cases e
    · split at e
      · cases e
      · cases e
        exact State.updPly_keeps _ _ _ (Keeps.mkWriteN _ _ _ _ (State.reachGranule_keeps _ _ _ _ (State.onDev_keeps _ _ (State.takeMem_keeps (by assumption) hk))))
  · cases e
    exact State.updPly_keeps _ _ _ hk

theorem State.importAll_keeps {s₀ : State} (s : State) (p : Fin 64) (l : List MigRecord) (n : Nat) (hk : Keeps true s₀ s) : Keeps true s₀ (s.importAll p l n).1 := by
  induction l generalizing s n with
  | nil => exact hk
  | cons r t ih =>
    unfold State.importAll
    split
    · exact hk
    · split
      · exact hk
      · exact hk
      · exact ih _ _ (State.importRecord_keeps (by assumption) hk)

theorem State.importFrom_keeps {s₀ : State} (s : State) (j : Journal) (p : Fin 64) (records : List MigRecord) (n : Nat) (hk : Keeps true s₀ s) : Keeps true s₀ (State.importFrom s j p records n) := by
  unfold State.importFrom
  repeat' first
    | with_reducible assumption
    | intro _
    | with_reducible exact Keeps.refl _
    | with_reducible apply State.updPly_keeps
    | with_reducible apply State.answer_keeps
    | with_reducible apply State.importAll_keeps
    | with_reducible apply State.onDev_keeps
    | with_reducible apply State.updPort_keeps
    | with_reducible apply Keeps.ite
    | split
    | dsimp only
    | simp only [Keeps.mkDev_iff]

theorem execMigImport_keeps (order : Nat) (records : Option (List MigRecord)) (s : State) : KeepsRes true s (execMigImport order records s) := by
  unfold execMigImport
  have hk : Keeps true s s := Keeps.refl s
  repeat' first
    | with_reducible assumption
    | intro _
    | with_reducible exact Keeps.refl _
    | with_reducible apply State.clocked_keeps
    | with_reducible apply State.answer_keeps
    | with_reducible apply State.fetchBuffer_keeps
    | with_reducible apply State.migrating_keeps
    | with_reducible apply State.importFrom_keeps
    | with_reducible apply State.onDev_keeps
    | with_reducible apply State.updPly_keeps
    | with_reducible apply State.updPort_keeps
    | with_reducible apply Keeps.getD
    | with_reducible apply KeepsRes.next
    | with_reducible apply State.importAll_keeps
    | with_reducible apply Keeps.mkEnterAll
    | with_reducible apply Keeps.ite
    | split
    | dsimp only
    | simp only [Keeps.mkDev_iff]

end Sys2Proof.Machine
end

