-- ==== Sys2Proof/Laws/Granules.lean ====
section
/-! SUPPORT. Laws/Granules.lean: the operations and commands of Machine/Granules.lean keep the queue, the canonical form of DRAM and the credits. -/
namespace Sys2Proof.Machine
variable {wr : Bool}

theorem State.anyPort_keeps {s₀ : State} (s : State) (order : Nat) (code : Nat) (act : Journal → State) (hk : Keeps wr s₀ s) (hact : ∀ x0, Keeps wr s₀ (act x0)) : KeepsRes wr s₀ (State.anyPort s order code act) := by
  unfold State.anyPort
  repeat' first
    | with_reducible assumption
    | intro _
    | with_reducible exact Keeps.refl _
    | with_reducible apply State.answer_keeps
    | with_reducible apply State.onDev_keeps
    | with_reducible apply State.updPly_keeps
    | with_reducible apply State.updPort_keeps
    | with_reducible apply KeepsRes.next
    | with_reducible apply Keeps.ite
    | with_reducible apply hact
    | split

theorem execElyInfo_keeps (order : Nat) (s : State) : KeepsRes wr s (execElyInfo order s) := by
  unfold execElyInfo
  have hk : Keeps wr s s := Keeps.refl s
  repeat' first
    | with_reducible assumption
    | intro _
    | with_reducible exact Keeps.refl _
    | with_reducible apply State.answer_keeps
    | with_reducible apply State.anyPort_keeps
    | with_reducible apply State.onDev_keeps
    | with_reducible apply State.updPly_keeps
    | with_reducible apply State.updPort_keeps
    | with_reducible apply KeepsRes.next
    | with_reducible apply State.clocked_keeps

theorem execContainerStage_keeps (order : Nat) (c : Option Container) (s : State) : KeepsRes wr s (execContainerStage order c s) := by
  unfold execContainerStage
  have hk : Keeps wr s s := Keeps.refl s
  repeat' first
    | with_reducible assumption
    | intro _
    | with_reducible exact Keeps.refl _
    | with_reducible apply State.onDev_keeps
    | with_reducible apply State.clocked_keeps
    | with_reducible apply State.fetchBuffer_keeps
    | with_reducible apply State.answer_keeps
    | with_reducible apply State.managed_keeps
    | with_reducible apply State.updPly_keeps
    | with_reducible apply State.updPort_keeps
    | with_reducible apply KeepsRes.next
    | with_reducible apply Keeps.ite
    | split
    | dsimp only
    | simp only [Keeps.mkDev_iff]

theorem execSvnCommit_keeps (order : Nat) (s : State) : KeepsRes wr s (execSvnCommit order s) := by
  unfold execSvnCommit
  have hk : Keeps wr s s := Keeps.refl s
  repeat' first
    | with_reducible assumption
    | intro _
    | with_reducible exact Keeps.refl _
    | with_reducible apply State.onDev_keeps
    | with_reducible apply State.clocked_keeps
    | with_reducible apply State.answer_keeps
    | with_reducible apply State.managed_keeps
    | with_reducible apply State.updPly_keeps
    | with_reducible apply State.updPort_keeps
    | with_reducible apply KeepsRes.next
    | with_reducible apply Keeps.ite
    | split
    | dsimp only
    | simp only [Keeps.mkDev_iff]

theorem execWmRaise_keeps (order : Nat) (s : State) : KeepsRes wr s (execWmRaise order s) := by
  unfold execWmRaise
  have hk : Keeps wr s s := Keeps.refl s
  repeat' first
    | with_reducible assumption
    | intro _
    | with_reducible exact Keeps.refl _
    | with_reducible apply State.answer_keeps
    | with_reducible apply State.managed_keeps
    | with_reducible apply State.onDev_keeps
    | with_reducible apply State.updPly_keeps
    | with_reducible apply State.updPort_keeps
    | with_reducible apply KeepsRes.next
    | with_reducible apply State.clocked_keeps
    | with_reducible apply Keeps.ite

theorem execMemGive_keeps (order : Nat) (s : State) : KeepsRes wr s (execMemGive order s) := by
  unfold execMemGive
  have hk : Keeps wr s s := Keeps.refl s
  repeat' first
    | with_reducible assumption
    | intro _
    | with_reducible exact Keeps.refl _
    | with_reducible apply State.answer_keeps
    | with_reducible apply State.managed_keeps
    | with_reducible apply State.onDev_keeps
    | with_reducible apply State.updPly_keeps
    | with_reducible apply State.updPort_keeps
    | with_reducible apply KeepsRes.next
    | with_reducible apply State.clocked_keeps
    | with_reducible apply Keeps.ite
    | split

theorem execMemTake_keeps (order : Nat) (s : State) : KeepsRes wr s (execMemTake order s) := by
  unfold execMemTake
  have hk : Keeps wr s s := Keeps.refl s
  repeat' first
    | with_reducible assumption
    | intro _
    | with_reducible exact Keeps.refl _
    | with_reducible apply State.answer_keeps
    | with_reducible apply State.hold_keeps
    | with_reducible apply State.managed_keeps
    | with_reducible apply State.onDev_keeps
    | with_reducible apply State.updPly_keeps
    | with_reducible apply State.updPort_keeps
    | with_reducible apply KeepsRes.next
    | with_reducible apply State.clocked_keeps
    | with_reducible apply Keeps.ite
    | split

theorem execGranuleScrubDone_keeps (gran : Nat) (s : State) : KeepsRes true s (execGranuleScrubDone gran s) := by
  unfold execGranuleScrubDone
  have hk : Keeps true s s := Keeps.refl s
  repeat' first
    | with_reducible assumption
    | intro _
    | with_reducible exact Keeps.refl _
    | with_reducible apply State.each_keeps
    | with_reducible apply State.onDev_keeps
    | with_reducible apply State.clocked_keeps
    | with_reducible apply State.reachGranule_keeps
    | (with_reducible refine State.takeMem_keeps (by assumption) ?_)
    | with_reducible apply State.answer_keeps
    | with_reducible apply State.updPly_keeps
    | with_reducible apply State.updPort_keeps
    | (with_reducible refine Keeps.mkTake _ (by assumption) ?_)
    | with_reducible apply Keeps.mkScrub
    | with_reducible apply KeepsRes.next
    | with_reducible apply Keeps.ite
    | split
    | dsimp only
    | simp only [Keeps.mkDev_iff]

theorem execLend_keeps (order : Nat) (s : State) : KeepsRes wr s (execLend order s) := by
  unfold execLend
  have hk : Keeps wr s s := Keeps.refl s
  repeat' first
    | with_reducible assumption
    | intro _
    | with_reducible exact Keeps.refl _
    | with_reducible apply State.onDev_keeps
    | with_reducible apply State.updPly_keeps
    | with_reducible apply State.clocked_keeps
    | with_reducible apply State.answer_keeps
    | with_reducible apply State.hold_keeps
    | with_reducible apply State.managed_keeps
    | with_reducible apply State.updPort_keeps
    | with_reducible apply Keeps.foldl
    | with_reducible apply KeepsRes.next
    | with_reducible apply Keeps.ite
    | split
    | dsimp only
    | simp only [Keeps.mkDev_iff]

theorem execUnlend_keeps (order : Nat) (s : State) : KeepsRes wr s (execUnlend order s) := by
  unfold execUnlend
  have hk : Keeps wr s s := Keeps.refl s
  repeat' first
    | with_reducible assumption
    | intro _
    | with_reducible exact Keeps.refl _
    | with_reducible apply State.answer_keeps
    | with_reducible apply State.hold_keeps
    | with_reducible apply State.managed_keeps
    | with_reducible apply State.onDev_keeps
    | with_reducible apply State.updPly_keeps
    | with_reducible apply State.updPort_keeps
    | with_reducible apply KeepsRes.next
    | with_reducible apply State.clocked_keeps
    | with_reducible apply Keeps.ite
    | split

theorem execOwnerQuery_keeps (order : Nat) (s : State) : KeepsRes wr s (execOwnerQuery order s) := by
  unfold execOwnerQuery
  have hk : Keeps wr s s := Keeps.refl s
  repeat' first
    | with_reducible assumption
    | intro _
    | with_reducible exact Keeps.refl _
    | with_reducible apply State.answer_keeps
    | with_reducible apply State.anyPort_keeps
    | with_reducible apply State.onDev_keeps
    | with_reducible apply State.updPly_keeps
    | with_reducible apply State.updPort_keeps
    | with_reducible apply KeepsRes.next
    | with_reducible apply State.clocked_keeps
    | with_reducible apply Keeps.ite

theorem State.retainedFails_keeps {s₀ : State} (s : State) (hk : Keeps wr s₀ s) : Keeps wr s₀ (State.retainedFails s) := by
  unfold State.retainedFails
  repeat' first
    | with_reducible assumption
    | with_reducible apply State.onDev_keeps
    | with_reducible apply Keeps.ite
    | split

theorem execElyRestartTrigger_keeps (cause : Fin 16) (s : State) : KeepsRes wr s (execElyRestartTrigger cause s) := by
  unfold execElyRestartTrigger
  have hk : Keeps wr s s := Keeps.refl s
  repeat' first
    | with_reducible assumption
    | intro _
    | with_reducible exact Keeps.refl _
    | with_reducible apply State.clocked_keeps
    | with_reducible apply State.restartElytra_keeps
    | with_reducible apply State.retainedFails_keeps
    | with_reducible apply State.onDev_keeps
    | with_reducible apply State.updPly_keeps
    | with_reducible apply State.updPort_keeps
    | with_reducible apply KeepsRes.next
    | with_reducible apply Keeps.ite
    | split
    | dsimp only
    | simp only [Keeps.mkDev_iff]

theorem execElyWatchdogExpiry_keeps (s : State) : KeepsRes wr s (execElyWatchdogExpiry s) := by
  unfold execElyWatchdogExpiry
  have hk : Keeps wr s s := Keeps.refl s
  repeat' first
    | with_reducible assumption
    | intro _
    | with_reducible exact Keeps.refl _
    | with_reducible apply State.restartElytra_keeps
    | with_reducible apply State.onDev_keeps
    | with_reducible apply State.updPly_keeps
    | with_reducible apply State.updPort_keeps
    | with_reducible apply KeepsRes.next
    | with_reducible apply State.clocked_keeps

theorem execElyRestartDone_keeps (s : State) : KeepsRes wr s (execElyRestartDone s) := by
  unfold execElyRestartDone
  have hk : Keeps wr s s := Keeps.refl s
  repeat' first
    | with_reducible assumption
    | intro _
    | with_reducible exact Keeps.refl _
    | with_reducible apply State.each_keeps
    | with_reducible apply State.onDev_keeps
    | with_reducible apply State.clocked_keeps
    | with_reducible apply State.updPly_keeps
    | with_reducible apply State.updPort_keeps
    | (with_reducible refine Keeps.mkTake _ (by assumption) ?_)
    | with_reducible apply KeepsRes.next
    | with_reducible apply Keeps.ite
    | split
    | dsimp only
    | simp only [Keeps.mkDev_iff]

end Sys2Proof.Machine
end

