-- ==== Sys2Proof/Laws/Raster.lean ====
section
/-! SUPPORT. Laws/Raster.lean: the operations and commands of Machine/Raster.lean keep the queue, the canonical form of DRAM and the credits. -/
namespace Sys2Proof.Machine
variable {wr : Bool}

theorem State.readRanges_keeps {s₀ s s₁ : State} {p : Fin 64} {rs : List (Nat × Nat)} {b : Bool} (e : s.readRanges p rs = some (s₁, b))
    (hk : Keeps wr s₀ s) : Keeps wr s₀ s₁ := by
  unfold State.readRanges at e -- manual
  rw [Option.map_eq_some_iff] at e
  obtain ⟨t, ht, e⟩ := e
  have hm := State.takeMem_keeps ht hk
  split at e <;> cases e
  · exact State.faultAt_keeps _ _ _ _ _ _ hm
  · exact hm

theorem State.plyWrites_keeps {s₀ s s₁ : State} {p : Fin 64} {eng : Engine} {ws : List (Nat × List Byte)} (e : s.plyWrites p eng ws = some s₁) (hk : Keeps true s₀ s) :
    Keeps true s₀ s₁ := foldlM_keeps (fun _ _ _ e h => State.plyWrite_keeps e h) e hk

theorem State.updPass_keeps {s₀ : State} (s : State) (o : Nat) (f : Pass → Pass) (hk : Keeps wr s₀ s) : Keeps wr s₀ (State.updPass s o f) := by
  unfold State.updPass
  repeat' first
    | with_reducible assumption
    | intro _
    | with_reducible exact Keeps.refl _
    | with_reducible apply State.updJob_keeps

theorem State.launchVertex_keeps {s₀ : State} (s : State) (c : Fin 16) (j : Job) (d : Draw) (hk : Keeps wr s₀ s) : Keeps wr s₀ (State.launchVertex s c j d) := by
  unfold State.launchVertex
  repeat' first
    | with_reducible assumption
    | intro _
    | with_reducible exact Keeps.refl _
    | with_reducible apply State.updJob_keeps
    | with_reducible apply State.updCluster_keeps
    | (with_reducible refine State.readRanges_keeps (by assumption) ?_)
    | with_reducible apply State.onDev_keeps
    | with_reducible apply State.updPly_keeps
    | with_reducible apply State.updPort_keeps
    | with_reducible apply Keeps.getD
    | with_reducible apply State.faultPly_keeps
    | with_reducible apply Keeps.ite
    | split
    | dsimp only
    | simp only [Keeps.mkDev_iff]

theorem State.launchGroup_keeps {s₀ : State} (s : State) (c : Fin 16) (j : Job) (d : Dispatch) (hk : Keeps wr s₀ s) : Keeps wr s₀ (State.launchGroup s c j d) := by
  unfold State.launchGroup
  repeat' first
    | with_reducible assumption
    | with_reducible apply State.onDev_keeps
    | intro _
    | with_reducible exact Keeps.refl _
    | with_reducible apply State.updJob_keeps
    | with_reducible apply State.updCluster_keeps

theorem State.launchFragment_keeps {s₀ : State} (s : State) (c : Fin 16) (j : Job) (pa : Pass) (f : FragWave) (hk : Keeps wr s₀ s) : Keeps wr s₀ (State.launchFragment s c j pa f) := by
  unfold State.launchFragment
  repeat' first
    | with_reducible assumption
    | intro _
    | with_reducible exact Keeps.refl _
    | with_reducible apply State.updJob_keeps
    | with_reducible apply State.updCluster_keeps
    | with_reducible apply State.updPass_keeps
    | with_reducible apply State.onDev_keeps
    | with_reducible apply State.updPly_keeps
    | with_reducible apply State.updPort_keeps
    | with_reducible apply Keeps.getD
    | with_reducible apply Keeps.foldl
    | with_reducible apply Keeps.ite
    | split
    | dsimp only
    | simp only [Keeps.mkDev_iff]

theorem State.finishTile_keeps {s₀ s s₁ : State} {c : Fin 16} {j : Job} {pa : Pass} {tile : Nat} {final : Bool}
    (e : s.finishTile c j pa tile final = some s₁) (hk : Keeps true s₀ s) : Keeps true s₀ s₁ := by
  unfold State.finishTile at e
  dsimp only at e
  split at e
  · cases e
  · have hm := State.takeMem_keeps (by assumption) hk
    split at e
    · cases e; exact State.faultAt_keeps _ _ _ _ _ _ hm
    · split at e
      · cases e; exact State.faultAt_keeps _ _ _ _ _ _ hm
      · cases e
        exact State.updCluster_keeps _ _ _ (State.updPass_keeps _ _ _ (State.plyWrites_keeps (by assumption) (State.onDev_keeps _ _ hm)))

theorem State.takeTile_keeps {s₀ : State} (s : State) (c : Fin 16) (j : Job) (pa : Pass) (hk : Keeps wr s₀ s) : Keeps wr s₀ (State.takeTile s c j pa) := by
  unfold State.takeTile
  repeat' first
    | with_reducible assumption
    | intro _
    | with_reducible exact Keeps.refl _
    | with_reducible apply State.onDev_keeps
    | with_reducible apply State.updCluster_keeps
    | (with_reducible refine State.readRanges_keeps (by assumption) ?_)
    | with_reducible apply State.updPass_keeps
    | with_reducible apply State.updPly_keeps
    | with_reducible apply State.updPort_keeps
    | (with_reducible refine State.takeMem_keeps (by assumption) ?_)
    | with_reducible apply State.faultPly_keeps
    | (with_reducible refine Keeps.mkTake _ (by assumption) ?_)
    | with_reducible apply Keeps.ite
    | split
    | dsimp only
    | simp only [Keeps.mkDev_iff]

theorem State.renderOn_keeps {s₀ : State} (s : State) (c : Fin 16) (j : Job) (pa : Pass) (final : Bool) (hk : Keeps true s₀ s) : Keeps true s₀ (State.renderOn s c j pa final) := by
  unfold State.renderOn
  repeat' first
    | with_reducible assumption
    | intro _
    | with_reducible exact Keeps.refl _
    | with_reducible apply State.updPass_keeps
    | with_reducible apply State.launchFragment_keeps
    | (with_reducible refine State.finishTile_keeps (by assumption) ?_)
    | with_reducible apply State.takeTile_keeps
    | with_reducible apply State.onDev_keeps
    | with_reducible apply State.updPly_keeps
    | with_reducible apply State.updPort_keeps
    | with_reducible apply Keeps.getD
    | (with_reducible refine Keeps.mkTake _ (by assumption) ?_)
    | with_reducible apply Keeps.ite
    | split

theorem State.feedOnce_keeps {s₀ : State} (s : State) (c : Fin 16) (hk : Keeps true s₀ s) : Keeps true s₀ (State.feedOnce s c) := by
  unfold State.feedOnce
  repeat' first
    | with_reducible assumption
    | intro _
    | with_reducible exact Keeps.refl _
    | with_reducible apply State.launchVertex_keeps
    | with_reducible apply State.launchGroup_keeps
    | with_reducible apply State.renderOn_keeps
    | with_reducible apply State.onDev_keeps
    | with_reducible apply State.updPly_keeps
    | with_reducible apply State.updPort_keeps
    | with_reducible apply Keeps.ite
    | split
    | dsimp only

theorem State.pump_keeps {s₀ : State} (s : State) (o : Nat) (hk : Keeps true s₀ s) : Keeps true s₀ (State.pump s o) := by
  unfold State.pump
  repeat' first
    | with_reducible assumption
    | intro _
    | with_reducible exact Keeps.refl _
    | with_reducible apply State.feedOnce_keeps
    | with_reducible apply State.onDev_keeps
    | with_reducible apply State.updPly_keeps
    | with_reducible apply State.updPort_keeps
    | with_reducible apply State.each_keeps
    | with_reducible apply Keeps.foldl

theorem State.stopJob_keeps {s₀ : State} (s : State) (o : Nat) (status : Nat) (hk : Keeps wr s₀ s) : Keeps wr s₀ (State.stopJob s o status) := by
  unfold State.stopJob
  repeat' first
    | with_reducible assumption
    | intro _
    | with_reducible exact Keeps.refl _
    | with_reducible apply State.updJob_keeps
    | with_reducible apply State.updCluster_keeps
    | with_reducible apply State.freePages_keeps
    | with_reducible apply State.onDev_keeps
    | with_reducible apply State.updPly_keeps
    | with_reducible apply State.updPort_keeps
    | with_reducible apply State.each_keeps

end Sys2Proof.Machine
end

