-- ==== Sys2Proof/Laws/Sched.lean ====
section
/-! SUPPORT. Laws/Sched.lean: the operations and commands of Machine/Sched.lean keep the queue, the canonical form of DRAM and the credits. -/
namespace Sys2Proof.Machine
variable {wr : Bool}

theorem State.place_keeps {s₀ : State} (s : State) (o : Nat) (beyond : Bool) (c : Fin 16) (hk : Keeps wr s₀ s) : Keeps wr s₀ (State.place s o beyond c) := by
  unfold State.place
  repeat' first
    | with_reducible assumption
    | intro _
    | with_reducible exact Keeps.refl _
    | with_reducible apply State.onDev_keeps
    | with_reducible apply State.updJob_keeps
    | with_reducible apply State.updCluster_keeps
    | with_reducible apply State.updPly_keeps
    | with_reducible apply State.updPort_keeps
    | with_reducible apply Keeps.getD
    | with_reducible apply Keeps.ite
    | split
    | dsimp only
    | simp only [Keeps.mkDev_iff]

theorem State.tryPlace_keeps {s₀ s s₁ : State} {j : Job} {beyond : Bool} {cs : List (Fin 16)} (e : s.tryPlace j beyond cs = some s₁) (hk : Keeps true s₀ s) :
    Keeps true s₀ s₁ := by
  unfold State.tryPlace at e -- manual
  dsimp only at e
  split at e
  · cases e
  · rename_i s' hs
    have hm : Keeps true s₀ s' := by
      split at hs
      · cases hs; exact hk
      · exact State.takeMem_keeps hs hk
    obtain ⟨k, hk', rfl⟩ := Option.map_eq_some_iff.mp e
    exact State.pump_keeps _ _ (Keeps.foldl (fun _ _ h => State.place_keeps _ _ _ _ h) (hm.mkTake _ hk'))

theorem State.placeReserved_keeps {s₀ s s₁ : State} {j : Job} {first : List (Fin 16)} (e : s.placeReserved j first = some s₁) (hk : Keeps true s₀ s) :
    Keeps true s₀ s₁ := by
  unfold State.placeReserved at e
  dsimp only at e
  split at e
  · exact State.tryPlace_keeps e hk
  · cases e

theorem execClusterOffer_keeps (c : Fin 16) (s : State) : KeepsRes true s (execClusterOffer c s) := by
  unfold execClusterOffer
  refine State.clocked_keeps _ _ (Keeps.refl s) ?_
  split
  · exact KeepsRes.next (Keeps.refl s)
  · refine KeepsRes.next ?_
    cases e : s.offerOrder.findSome? fun x =>
        if !s.freeFor x.2.order c then none
        else if x.1 then s.placeReserved x.2 [c] else s.tryPlace x.2 ((s.ply x.2.ply).cls == .a) [c] with
    | none => exact Keeps.refl s
    | some t =>
      obtain ⟨x, _, hx⟩ := List.exists_of_findSome?_eq_some e
      split at hx
      · cases hx
      · split at hx
        · exact State.placeReserved_keeps hx (Keeps.refl s)
        · exact State.tryPlace_keeps hx (Keeps.refl s)

theorem State.submit_keeps {s₀ : State} (s : State) (p : Fin 64) (r : Fin 4) (op : Nat) (hk : Keeps true s₀ s) : Keeps true s₀ (State.submit s p r op) := by
  unfold State.submit
  repeat' first
    | with_reducible assumption
    | intro _
    | with_reducible exact Keeps.refl _
    | with_reducible apply State.dispatch_keeps
    | (with_reducible refine State.placeReserved_keeps (by assumption) ?_)
    | with_reducible apply State.onDev_keeps
    | with_reducible apply State.updPly_keeps
    | with_reducible apply State.updPort_keeps
    | with_reducible apply Keeps.getD
    | with_reducible apply Keeps.ite
    | split

theorem execGfxSubmit_keeps (p : Fin 64) (r : Fin 4) (s : State) : KeepsRes true s (execGfxSubmit p r s) := by
  unfold execGfxSubmit
  have hk : Keeps true s s := Keeps.refl s
  repeat' first
    | with_reducible assumption
    | intro _
    | with_reducible exact Keeps.refl _
    | with_reducible apply State.submit_keeps
    | with_reducible apply State.onDev_keeps
    | with_reducible apply State.updPly_keeps
    | with_reducible apply State.updPort_keeps
    | with_reducible apply KeepsRes.next
    | with_reducible apply State.clocked_keeps

theorem execComputeSubmit_keeps (p : Fin 64) (r : Fin 4) (s : State) : KeepsRes true s (execComputeSubmit p r s) := by
  unfold execComputeSubmit
  have hk : Keeps true s s := Keeps.refl s
  repeat' first
    | with_reducible assumption
    | intro _
    | with_reducible exact Keeps.refl _
    | with_reducible apply State.submit_keeps
    | with_reducible apply State.onDev_keeps
    | with_reducible apply State.updPly_keeps
    | with_reducible apply State.updPort_keeps
    | with_reducible apply KeepsRes.next
    | with_reducible apply State.clocked_keeps

theorem execGfxJobRetire_keeps (p : Fin 64) (r : Fin 4) (seq : Word) (s : State) : KeepsRes wr s (execGfxJobRetire p r seq s) := by
  unfold execGfxJobRetire
  have hk : Keeps wr s s := Keeps.refl s
  repeat' first
    | with_reducible assumption
    | intro _
    | with_reducible exact Keeps.refl _
    | with_reducible apply State.dropJob_keeps
    | with_reducible apply State.finishDesc_keeps
    | with_reducible apply State.onDev_keeps
    | with_reducible apply State.updPly_keeps
    | with_reducible apply State.updPort_keeps
    | with_reducible apply Keeps.getD
    | with_reducible apply KeepsRes.next
    | with_reducible apply State.clocked_keeps
    | with_reducible apply Keeps.ite
    | split

theorem execGfxDeadlineMiss_keeps (p : Fin 64) (r : Fin 4) (seq : Word) (s : State) : KeepsRes wr s (execGfxDeadlineMiss p r seq s) := by
  unfold execGfxDeadlineMiss
  have hk : Keeps wr s s := Keeps.refl s
  repeat' first
    | with_reducible assumption
    | intro _
    | with_reducible exact Keeps.refl _
    | with_reducible apply State.postPly_keeps
    | with_reducible apply State.updJob_keeps
    | with_reducible apply State.onDev_keeps
    | with_reducible apply State.updPly_keeps
    | with_reducible apply State.updPort_keeps
    | with_reducible apply KeepsRes.next
    | with_reducible apply State.clocked_keeps
    | with_reducible apply Keeps.ite
    | split

theorem State.preempt_keeps {s₀ : State} (s : State) (cs : List (Fin 16)) (dest : Option Nat) (hk : Keeps wr s₀ s) : Keeps wr s₀ (State.preempt s cs dest) := by
  unfold State.preempt
  repeat' first
    | with_reducible assumption
    | intro _
    | with_reducible exact Keeps.refl _
    | with_reducible apply State.each_keeps
    | with_reducible apply State.onDev_keeps
    | with_reducible apply State.updCluster_keeps
    | with_reducible apply State.updPly_keeps
    | with_reducible apply State.updPort_keeps
    | with_reducible apply Keeps.ite
    | split
    | dsimp only
    | simp only [Keeps.mkDev_iff]

theorem execClassAPreempt_keeps (p : Fin 64) (r : Fin 4) (seq : Word) (s : State) : KeepsRes true s (execClassAPreempt p r seq s) := by
  unfold execClassAPreempt
  have hk : Keeps true s s := Keeps.refl s
  repeat' first
    | with_reducible assumption
    | intro _
    | with_reducible exact Keeps.refl _
    | with_reducible apply State.each_keeps
    | with_reducible apply State.clocked_keeps
    | with_reducible apply State.updCluster_keeps
    | (with_reducible refine State.placeReserved_keeps (by assumption) ?_)
    | with_reducible apply State.preempt_keeps
    | with_reducible apply State.onDev_keeps
    | with_reducible apply State.updPly_keeps
    | with_reducible apply State.updPort_keeps
    | (with_reducible refine Keeps.mkTake _ (by assumption) ?_)
    | with_reducible apply KeepsRes.next
    | with_reducible apply Keeps.ite
    | split
    | dsimp only
    | simp only [Keeps.mkDev_iff]

theorem State.saveTo_keeps {s₀ s s₁ : State} {p : Fin 64} {area : Nat × Nat} (e : s.saveTo p area = some s₁) (hk : Keeps true s₀ s) : Keeps true s₀ s₁ := by
  obtain ⟨pages, _, rfl⟩ := Option.map_eq_some_iff.mp e
  exact hk.mkLose _ _

theorem State.unplace_keeps {s₀ : State} (s : State) (c : Fin 16) (j : Job) (hk : Keeps wr s₀ s) : Keeps wr s₀ (State.unplace s c j) := by
  unfold State.unplace
  repeat' first
    | with_reducible assumption
    | intro _
    | with_reducible exact Keeps.refl _
    | with_reducible apply State.give_keeps
    | with_reducible apply State.giveAll_keeps
    | with_reducible apply State.onDev_keeps
    | with_reducible apply State.updJob_keeps
    | with_reducible apply State.updCluster_keeps
    | with_reducible apply State.updPly_keeps
    | with_reducible apply State.updPort_keeps
    | with_reducible apply State.onSkein_keeps
    | with_reducible apply Keeps.ite
    | split
    | dsimp only
    | simp only [Keeps.mkDev_iff]

theorem State.drainSave_keeps {s₀ : State} (s : State) (x : SavedImage) (hk : Keeps true s₀ s) : Keeps true s₀ (State.drainSave s x) := by
  unfold State.drainSave
  repeat' first
    | with_reducible assumption
    | intro _
    | with_reducible exact Keeps.refl _
    | with_reducible apply State.onDev_keeps
    | (with_reducible refine State.takeMem_keeps (by assumption) ?_)
    | with_reducible apply State.faultAt_keeps
    | (with_reducible refine State.saveTo_keeps (by assumption) ?_)
    | with_reducible apply State.updPly_keeps
    | with_reducible apply State.updPort_keeps
    | (with_reducible refine Keeps.mkTake _ (by assumption) ?_)
    | with_reducible apply Keeps.ite
    | split
    | dsimp only
    | simp only [Keeps.mkDev_iff]

theorem State.drainSaves_keeps {s₀ : State} (s : State) (hk : Keeps true s₀ s) : Keeps true s₀ (State.drainSaves s) := by
  unfold State.drainSaves
  repeat' first
    | with_reducible assumption
    | intro _
    | with_reducible exact Keeps.refl _
    | with_reducible apply State.each_keeps
    | with_reducible apply State.drainSave_keeps
    | with_reducible apply State.onDev_keeps
    | with_reducible apply State.updPly_keeps
    | with_reducible apply State.updPort_keeps
    | with_reducible apply Keeps.ite
    | split
    | dsimp only
    | simp only [Keeps.mkDev_iff]

theorem execPreemptSaveDone_keeps (c : Fin 16) (s : State) : KeepsRes true s (execPreemptSaveDone c s) := by
  unfold execPreemptSaveDone
  have hk : Keeps true s s := Keeps.refl s
  repeat' first
    | with_reducible assumption
    | intro _
    | with_reducible exact Keeps.refl _
    | with_reducible apply State.onDev_keeps
    | with_reducible apply State.clocked_keeps
    | (with_reducible refine State.takeMem_keeps (by assumption) ?_)
    | with_reducible apply State.faultAt_keeps
    | (with_reducible refine State.saveTo_keeps (by assumption) ?_)
    | with_reducible apply State.unplace_keeps
    | with_reducible apply State.drainSaves_keeps
    | with_reducible apply State.updPly_keeps
    | with_reducible apply State.updPort_keeps
    | (with_reducible refine Keeps.mkTake _ (by assumption) ?_)
    | with_reducible apply KeepsRes.next
    | with_reducible apply State.faultPly_keeps
    | with_reducible apply Keeps.ite
    | split
    | dsimp only
    | simp only [Keeps.mkDev_iff]

end Sys2Proof.Machine
end

