-- ==== Sys2Proof/Laws/Whorl.lean ====
section
/-! SUPPORT. Laws/Whorl.lean: the operations and commands of Machine/Whorl.lean keep the queue, the canonical form of DRAM and the credits. -/
namespace Sys2Proof.Machine
variable {wr : Bool}

theorem State.updRingPort_keeps {s₀ : State} (s : State) (q : Fin 2) (f : WhlPort → WhlPort) (hk : Keeps wr s₀ s) : Keeps wr s₀ (State.updRingPort s q f) := by
  unfold State.updRingPort
  repeat' first
    | with_reducible assumption
    | intro _
    | with_reducible exact Keeps.refl _
    | with_reducible apply State.updWhorl_keeps

theorem State.elect_keeps {s₀ : State} (s : State) (was : Bool) (hk : Keeps wr s₀ s) : Keeps wr s₀ (State.elect s was) := by
  unfold State.elect
  repeat' first
    | with_reducible assumption
    | intro _
    | with_reducible exact Keeps.refl _
    | with_reducible apply State.updWhorl_keeps
    | with_reducible apply State.whorlRepair_keeps
    | with_reducible apply State.onDev_keeps
    | with_reducible apply State.updPly_keeps
    | with_reducible apply State.updPort_keeps
    | with_reducible apply Keeps.ite

theorem State.takeRingTime_keeps {s₀ : State} (s : State) (maxTime : Nat) (hk : Keeps wr s₀ s) : Keeps wr s₀ (State.takeRingTime s maxTime) := by
  unfold State.takeRingTime
  repeat' first
    | with_reducible assumption
    | intro _
    | with_reducible exact Keeps.refl _
    | with_reducible apply State.updWhorl_keeps
    | with_reducible apply State.onDev_keeps
    | with_reducible apply State.updPly_keeps
    | with_reducible apply State.updPort_keeps
    | (with_reducible refine Keeps.mkTake _ (by assumption) ?_)
    | with_reducible apply Keeps.ite

theorem State.closeChans_keeps {s₀ : State} (s : State) (sel : Channel → Bool) (report : Bool) (hk : Keeps wr s₀ s) : Keeps wr s₀ (State.closeChans s sel report) := by
  unfold State.closeChans
  repeat' first
    | with_reducible assumption
    | intro _
    | with_reducible exact Keeps.refl _
    | with_reducible apply State.updWhorl_keeps
    | with_reducible apply State.whorlRepair_keeps
    | with_reducible apply State.onDev_keeps
    | with_reducible apply State.updPly_keeps
    | with_reducible apply State.updPort_keeps
    | with_reducible apply State.each_keeps
    | with_reducible apply Keeps.ite

theorem State.endProbe_keeps {s₀ : State} (s : State) (sel : Fin 2 → Bool) (hk : Keeps wr s₀ s) : Keeps wr s₀ (State.endProbe s sel) := by
  unfold State.endProbe
  repeat' first
    | with_reducible assumption
    | intro _
    | with_reducible exact Keeps.refl _
    | with_reducible apply State.answerOrder_keeps
    | with_reducible apply State.updWhorl_keeps
    | with_reducible apply State.onDev_keeps
    | with_reducible apply State.updPly_keeps
    | with_reducible apply State.updPort_keeps
    | with_reducible apply Keeps.ite
    | split
    | dsimp only
    | simp only [Keeps.mkDev_iff]

theorem State.linkKeys_keeps {s₀ : State} (s : State) (q : Fin 2) (hk : Keeps wr s₀ s) : Keeps wr s₀ (State.linkKeys s q) := by
  unfold State.linkKeys
  repeat' first
    | with_reducible assumption
    | intro _
    | with_reducible exact Keeps.refl _
    | with_reducible apply State.onDev_keeps
    | with_reducible apply State.updRingPort_keeps
    | with_reducible apply State.updPly_keeps
    | with_reducible apply State.updPort_keeps
    | with_reducible apply State.each_keeps
    | with_reducible apply Keeps.ite
    | split
    | dsimp only
    | simp only [Keeps.mkDev_iff]

theorem execWhlLoopTrained_keeps (q : Fin 2) (rate : Fin 4) (s : State) : KeepsRes wr s (execWhlLoopTrained q rate s) := by
  unfold execWhlLoopTrained
  have hk : Keeps wr s s := Keeps.refl s
  repeat' first
    | with_reducible assumption
    | intro _
    | with_reducible exact Keeps.refl _
    | with_reducible apply State.updRingPort_keeps
    | with_reducible apply State.onDev_keeps
    | with_reducible apply State.updPly_keeps
    | with_reducible apply State.updPort_keeps
    | with_reducible apply KeepsRes.next
    | with_reducible apply State.clocked_keeps
    | with_reducible apply Keeps.ite
    | split
    | dsimp only

theorem State.failJoin_keeps {s₀ : State} (s : State) (j : Journal) (mask : Nat) (status : Nat) (hk : Keeps wr s₀ s) : Keeps wr s₀ (State.failJoin s j mask status) := by
  unfold State.failJoin
  repeat' first
    | with_reducible assumption
    | intro _
    | with_reducible exact Keeps.refl _
    | with_reducible apply State.answer_keeps
    | with_reducible apply State.updRingPort_keeps
    | with_reducible apply State.onDev_keeps
    | with_reducible apply State.updPly_keeps
    | with_reducible apply State.updPort_keeps
    | with_reducible apply State.each_keeps

theorem State.completeJoin_keeps {s₀ : State} (s : State) (j : Journal) (mask : Nat) (id : Nat) (o : JoinOutcome) (hk : Keeps wr s₀ s) : Keeps wr s₀ (State.completeJoin s j mask id o) := by
  unfold State.completeJoin
  repeat' first
    | with_reducible assumption
    | intro _
    | with_reducible exact Keeps.refl _
    | with_reducible apply State.each_keeps
    | with_reducible apply State.updWhorl_keeps
    | with_reducible apply State.whorlRepair_keeps
    | with_reducible apply State.answer_keeps
    | with_reducible apply State.updRingPort_keeps
    | with_reducible apply State.elect_keeps
    | with_reducible apply State.takeRingTime_keeps
    | with_reducible apply State.linkKeys_keeps
    | with_reducible apply State.onDev_keeps
    | with_reducible apply State.updPly_keeps
    | with_reducible apply State.updPort_keeps
    | with_reducible apply Keeps.getD
    | (with_reducible refine Keeps.mkTake _ (by assumption) ?_)
    | with_reducible apply Keeps.ite
    | split
    | dsimp only
    | simp only [Keeps.mkDev_iff]

theorem execWhlJoin_keeps (order : Nat) (out : Option JoinOutcome) (s : State) : KeepsRes wr s (execWhlJoin order out s) := by
  unfold execWhlJoin
  have hk : Keeps wr s s := Keeps.refl s
  repeat' first
    | with_reducible assumption
    | intro _
    | with_reducible exact Keeps.refl _
    | with_reducible apply State.each_keeps
    | with_reducible apply State.clocked_keeps
    | with_reducible apply State.answer_keeps
    | with_reducible apply State.hold_keeps
    | with_reducible apply State.managed_keeps
    | with_reducible apply State.updRingPort_keeps
    | with_reducible apply State.failJoin_keeps
    | with_reducible apply State.completeJoin_keeps
    | with_reducible apply State.onDev_keeps
    | with_reducible apply State.updPly_keeps
    | with_reducible apply State.updPort_keeps
    | (with_reducible refine Keeps.mkTake _ (by assumption) ?_)
    | with_reducible apply KeepsRes.next
    | with_reducible apply Keeps.ite
    | split
    | dsimp only
    | simp only [Keeps.mkDev_iff]

theorem execWhlLeave_keeps (order : Nat) (s : State) : KeepsRes wr s (execWhlLeave order s) := by
  unfold execWhlLeave
  have hk : Keeps wr s s := Keeps.refl s
  repeat' first
    | with_reducible assumption
    | intro _
    | with_reducible exact Keeps.refl _
    | with_reducible apply State.each_keeps
    | with_reducible apply State.clocked_keeps
    | with_reducible apply State.emit_keeps
    | with_reducible apply State.updWhorl_keeps
    | with_reducible apply State.whorlRepair_keeps
    | with_reducible apply State.answer_keeps
    | with_reducible apply State.hold_keeps
    | with_reducible apply State.managed_keeps
    | with_reducible apply State.updRingPort_keeps
    | with_reducible apply State.closeChans_keeps
    | with_reducible apply State.endProbe_keeps
    | with_reducible apply State.onDev_keeps
    | with_reducible apply State.updPly_keeps
    | with_reducible apply State.updPort_keeps
    | with_reducible apply KeepsRes.next
    | with_reducible apply Keeps.ite
    | split
    | dsimp only
    | simp only [Keeps.mkDev_iff]

theorem execWhlAnnounce_keeps (q : Fin 2) (m : WhlMsg) (s : State) : KeepsRes wr s (execWhlAnnounce q m s) := by
  unfold execWhlAnnounce
  have hk : Keeps wr s s := Keeps.refl s
  repeat' first
    | with_reducible assumption
    | intro _
    | with_reducible exact Keeps.refl _
    | with_reducible apply State.each_keeps
    | with_reducible apply State.clocked_keeps
    | with_reducible apply State.emit_keeps
    | with_reducible apply State.updWhorl_keeps
    | with_reducible apply State.whorlRepair_keeps
    | with_reducible apply State.updRingPort_keeps
    | with_reducible apply State.elect_keeps
    | with_reducible apply State.takeRingTime_keeps
    | with_reducible apply State.closeChans_keeps
    | with_reducible apply State.linkKeys_keeps
    | with_reducible apply State.onDev_keeps
    | with_reducible apply State.updPly_keeps
    | with_reducible apply State.updPort_keeps
    | with_reducible apply Keeps.getD
    | (with_reducible refine Keeps.mkTake _ (by assumption) ?_)
    | with_reducible apply KeepsRes.next
    | with_reducible apply Keeps.ite
    | split
    | dsimp only
    | simp only [Keeps.mkDev_iff]

theorem execWhlTimeMark_keeps (q : Fin 2) (time : Nat) (adopt : Option Nat) (s : State) : KeepsRes wr s (execWhlTimeMark q time adopt s) := by
  unfold execWhlTimeMark
  have hk : Keeps wr s s := Keeps.refl s
  repeat' first
    | with_reducible assumption
    | intro _
    | with_reducible exact Keeps.refl _
    | with_reducible apply State.clocked_keeps
    | with_reducible apply State.emit_keeps
    | with_reducible apply State.updWhorl_keeps
    | with_reducible apply State.onDev_keeps
    | with_reducible apply State.updPly_keeps
    | with_reducible apply State.updPort_keeps
    | with_reducible apply KeepsRes.next
    | with_reducible apply Keeps.ite
    | split
    | dsimp only
    | simp only [Keeps.mkDev_iff]

theorem execWhlDelayMeasure_keeps (q : Fin 2) (roundTrip : Nat) (s : State) : KeepsRes wr s (execWhlDelayMeasure q roundTrip s) := by
  unfold execWhlDelayMeasure
  have hk : Keeps wr s s := Keeps.refl s
  repeat' first
    | with_reducible assumption
    | intro _
    | with_reducible exact Keeps.refl _
    | with_reducible apply State.updRingPort_keeps
    | with_reducible apply State.onDev_keeps
    | with_reducible apply State.updPly_keeps
    | with_reducible apply State.updPort_keeps
    | with_reducible apply KeepsRes.next
    | with_reducible apply State.clocked_keeps
    | with_reducible apply Keeps.ite
    | split

theorem execWhlOffsetCheck_keeps (s : State) : KeepsRes wr s (execWhlOffsetCheck s) := by
  unfold execWhlOffsetCheck
  have hk : Keeps wr s s := Keeps.refl s
  repeat' first
    | with_reducible assumption
    | intro _
    | with_reducible exact Keeps.refl _
    | with_reducible apply State.each_keeps
    | with_reducible apply State.clocked_keeps
    | with_reducible apply State.emit_keeps
    | with_reducible apply State.updWhorl_keeps
    | with_reducible apply State.whorlRepair_keeps
    | with_reducible apply State.onDev_keeps
    | with_reducible apply State.updPly_keeps
    | with_reducible apply State.updPort_keeps
    | with_reducible apply KeepsRes.next
    | with_reducible apply Keeps.ite
    | split
    | dsimp only
    | simp only [Keeps.mkDev_iff]

theorem execWhlChanOpen_keeps (order : Nat) (peerOpen : Bool) (transit : Nat × Nat) (pathFree : Bool) (s : State) : KeepsRes wr s (execWhlChanOpen order peerOpen transit pathFree s) := by
  unfold execWhlChanOpen
  have hk : Keeps wr s s := Keeps.refl s
  repeat' first
    | with_reducible assumption
    | intro _
    | with_reducible exact Keeps.refl _
    | with_reducible apply State.clocked_keeps
    | with_reducible apply State.updWhorl_keeps
    | with_reducible apply State.answer_keeps
    | with_reducible apply State.managed_keeps
    | with_reducible apply State.onDev_keeps
    | with_reducible apply State.updPly_keeps
    | with_reducible apply State.updPort_keeps
    | with_reducible apply KeepsRes.next
    | with_reducible apply Keeps.ite
    | split
    | dsimp only
    | simp only [Keeps.mkDev_iff]

theorem execWhlChanClose_keeps (order : Nat) (s : State) : KeepsRes wr s (execWhlChanClose order s) := by
  unfold execWhlChanClose
  have hk : Keeps wr s s := Keeps.refl s
  repeat' first
    | with_reducible assumption
    | intro _
    | with_reducible exact Keeps.refl _
    | with_reducible apply State.answer_keeps
    | with_reducible apply State.managed_keeps
    | with_reducible apply State.closeChans_keeps
    | with_reducible apply State.onDev_keeps
    | with_reducible apply State.updPly_keeps
    | with_reducible apply State.updPort_keeps
    | with_reducible apply KeepsRes.next
    | with_reducible apply State.clocked_keeps
    | with_reducible apply Keeps.ite

theorem State.updChannel_keeps {s₀ : State} (s : State) (id : Nat) (f : Channel → Channel) (hk : Keeps wr s₀ s) : Keeps wr s₀ (State.updChannel s id f) := by
  unfold State.updChannel
  repeat' first
    | with_reducible assumption
    | intro _
    | with_reducible exact Keeps.refl _
    | with_reducible apply State.updWhorl_keeps

theorem execWhlSendStart_keeps (id : Nat) (s : State) : KeepsRes wr s (execWhlSendStart id s) := by
  unfold execWhlSendStart
  have hk : Keeps wr s s := Keeps.refl s
  repeat' first
    | with_reducible assumption
    | intro _
    | with_reducible exact Keeps.refl _
    | with_reducible apply State.clocked_keeps
    | with_reducible apply State.updChannel_keeps
    | with_reducible apply State.onDev_keeps
    | with_reducible apply State.updPly_keeps
    | with_reducible apply State.updPort_keeps
    | with_reducible apply KeepsRes.next
    | with_reducible apply Keeps.ite
    | split
    | dsimp only
    | simp only [Keeps.mkDev_iff]

theorem State.dropFrame_keeps {s₀ : State} (s : State) (id : Nat) (hk : Keeps wr s₀ s) : Keeps wr s₀ (State.dropFrame s id) := by
  unfold State.dropFrame
  repeat' first
    | with_reducible assumption
    | intro _
    | with_reducible exact Keeps.refl _
    | with_reducible apply State.updChannel_keeps
    | with_reducible apply State.onDev_keeps
    | with_reducible apply State.updPly_keeps
    | with_reducible apply State.updPort_keeps
    | with_reducible apply Keeps.ite
    | split
    | dsimp only
    | simp only [Keeps.mkDev_iff]

theorem State.sendRows_keeps {s₀ : State} {c : Channel} {v : DWord} : ∀ {ys : List Nat} {s s₁ : State} {b : Bool},
    State.sendRows c v ys s = (s₁, b) → Keeps wr s₀ s → Keeps wr s₀ s₁ := by
  intro ys -- manual
  induction ys with
  | nil => intro s s₁ b e hk; cases e; exact hk
  | cons y ys ih =>
    intro s s₁ b e hk
    unfold State.sendRows at e
    dsimp only at e
    split at e
    · cases e; exact hk
    · have hm := State.takeMem_keeps (by assumption) hk
      split at e
      · cases e; exact State.faultAt_keeps _ _ _ _ _ _ (State.dropFrame_keeps _ _ hm)
      · exact ih e (State.updChannel_keeps _ _ _ hm)

theorem execWhlSendDone_keeps (id : Nat) (s : State) : KeepsRes wr s (execWhlSendDone id s) := by
  unfold execWhlSendDone
  have hk : Keeps wr s s := Keeps.refl s
  repeat' first
    | with_reducible assumption
    | intro _
    | with_reducible exact Keeps.refl _
    | with_reducible apply State.each_keeps
    | with_reducible apply State.clocked_keeps
    | with_reducible apply State.signal_keeps
    | with_reducible apply State.emit_keeps
    | with_reducible apply State.updChannel_keeps
    | with_reducible apply State.dropFrame_keeps
    | with_reducible apply State.sendRows_keeps
    | with_reducible apply State.onDev_keeps
    | with_reducible apply State.updPly_keeps
    | with_reducible apply State.updPort_keeps
    | with_reducible apply KeepsRes.next
    | (with_reducible refine State.sendRows_keeps (by assumption) ?_)
    | with_reducible apply State.faultPly_keeps
    | with_reducible apply Keeps.ite
    | split
    | dsimp only
    | simp only [Keeps.mkDev_iff]

theorem State.receiveRows_keeps {s₀ : State} {c : Channel} {v : DWord} {rows : Nat → List Byte} : ∀ {ys : List Nat} {s s₁ : State} {b : Bool},
    State.receiveRows c v rows ys s = (s₁, b) → Keeps true s₀ s → Keeps true s₀ s₁ := by
  intro ys -- manual
  induction ys with
  | nil => intro s s₁ b e hk; cases e; exact hk
  | cons y ys ih =>
    intro s s₁ b e hk
    unfold State.receiveRows at e
    dsimp only at e
    split at e
    · cases e; exact hk
    · have hm := State.takeMem_keeps (by assumption) hk
      split at e
      · cases e; exact State.faultAt_keeps _ _ _ _ _ _ (State.dropFrame_keeps _ _ hm)
      · exact ih e (State.updChannel_keeps _ _ _ (State.plyWrite_keeps (by assumption) hm))

theorem execWhlReceiveDone_keeps (id : Nat) (v : DWord) (bytes : List Byte) (s : State) : KeepsRes true s (execWhlReceiveDone id v bytes s) := by
  unfold execWhlReceiveDone
  have hk : Keeps true s s := Keeps.refl s
  repeat' first
    | with_reducible assumption
    | intro _
    | with_reducible exact Keeps.refl _
    | with_reducible apply State.clocked_keeps
    | with_reducible apply State.signal_keeps
    | with_reducible apply State.tick_keeps
    | with_reducible apply State.updRingPort_keeps
    | with_reducible apply State.updChannel_keeps
    | with_reducible apply State.dropFrame_keeps
    | with_reducible apply State.receiveRows_keeps
    | with_reducible apply State.onDev_keeps
    | with_reducible apply State.updPly_keeps
    | with_reducible apply State.updPort_keeps
    | with_reducible apply KeepsRes.next
    | (with_reducible refine State.receiveRows_keeps (by assumption) ?_)
    | with_reducible apply State.faultPly_keeps
    | (with_reducible refine State.plyWrites_keeps (by assumption) ?_)
    | with_reducible apply Keeps.ite
    | split
    | dsimp only
    | simp only [Keeps.mkDev_iff]

theorem execWhlLinkLoss_keeps (q : Fin 2) (s : State) : KeepsRes wr s (execWhlLinkLoss q s) := by
  unfold execWhlLinkLoss
  have hk : Keeps wr s s := Keeps.refl s
  repeat' first
    | with_reducible assumption
    | intro _
    | with_reducible exact Keeps.refl _
    | with_reducible apply State.clocked_keeps
    | with_reducible apply State.updWhorl_keeps
    | with_reducible apply State.updRingPort_keeps
    | with_reducible apply State.endProbe_keeps
    | with_reducible apply State.onDev_keeps
    | with_reducible apply State.updPly_keeps
    | with_reducible apply State.updPort_keeps
    | with_reducible apply KeepsRes.next
    | with_reducible apply Keeps.ite
    | split
    | dsimp only
    | simp only [Keeps.mkDev_iff]

theorem execWhlRepairDone_keeps (q : Fin 2) (link : Option (Nat × Nat)) (gone : Fin 3) (s : State) : KeepsRes wr s (execWhlRepairDone q link gone s) := by
  unfold execWhlRepairDone
  have hk : Keeps wr s s := Keeps.refl s
  repeat' first
    | with_reducible assumption
    | intro _
    | with_reducible exact Keeps.refl _
    | with_reducible apply State.clocked_keeps
    | with_reducible apply State.updWhorl_keeps
    | with_reducible apply State.whorlRepair_keeps
    | with_reducible apply State.updRingPort_keeps
    | with_reducible apply State.elect_keeps
    | with_reducible apply State.closeChans_keeps
    | with_reducible apply State.linkKeys_keeps
    | with_reducible apply State.onDev_keeps
    | with_reducible apply State.updPly_keeps
    | with_reducible apply State.updPort_keeps
    | with_reducible apply State.each_keeps
    | (with_reducible refine Keeps.mkTake _ (by assumption) ?_)
    | with_reducible apply KeepsRes.next
    | with_reducible apply Keeps.ite
    | split
    | dsimp only
    | simp only [Keeps.mkDev_iff]

theorem execWhlLoopTest_keeps (order : Nat) (s : State) : KeepsRes wr s (execWhlLoopTest order s) := by
  unfold execWhlLoopTest
  have hk : Keeps wr s s := Keeps.refl s
  repeat' first
    | with_reducible assumption
    | intro _
    | with_reducible exact Keeps.refl _
    | with_reducible apply State.emit_keeps
    | with_reducible apply State.tick_keeps
    | with_reducible apply State.answer_keeps
    | with_reducible apply State.hold_keeps
    | with_reducible apply State.managed_keeps
    | with_reducible apply State.updWhorl_keeps
    | with_reducible apply State.onDev_keeps
    | with_reducible apply State.updPly_keeps
    | with_reducible apply State.updPort_keeps
    | with_reducible apply KeepsRes.next
    | with_reducible apply State.clocked_keeps
    | with_reducible apply Keeps.ite
    | split

theorem execWhlProbeReturn_keeps (q : Fin 2) (far : Nat) (delay : Nat) (s : State) : KeepsRes wr s (execWhlProbeReturn q far delay s) := by
  unfold execWhlProbeReturn
  have hk : Keeps wr s s := Keeps.refl s
  repeat' first
    | with_reducible assumption
    | intro _
    | with_reducible exact Keeps.refl _
    | with_reducible apply State.answer_keeps
    | with_reducible apply State.updWhorl_keeps
    | with_reducible apply State.onDev_keeps
    | with_reducible apply State.updPly_keeps
    | with_reducible apply State.updPort_keeps
    | with_reducible apply KeepsRes.next
    | with_reducible apply State.clocked_keeps
    | with_reducible apply Keeps.ite
    | split

theorem execWhlProbeReceived_keeps (q : Fin 2) (nonce : Nat) (s : State) : KeepsRes wr s (execWhlProbeReceived q nonce s) := by
  unfold execWhlProbeReceived
  have hk : Keeps wr s s := Keeps.refl s
  repeat' first
    | with_reducible assumption
    | intro _
    | with_reducible exact Keeps.refl _
    | with_reducible apply State.emit_keeps
    | with_reducible apply State.onDev_keeps
    | with_reducible apply State.updPly_keeps
    | with_reducible apply State.updPort_keeps
    | with_reducible apply KeepsRes.next
    | with_reducible apply State.clocked_keeps
    | with_reducible apply Keeps.ite
    | split

end Sys2Proof.Machine
end

