-- ==== Sys2Proof/Laws/Audio.lean ====
section
/-! SUPPORT. Laws/Audio.lean: the operations and commands of Machine/Audio.lean keep the queue, the canonical form of DRAM and the credits. -/
namespace Sys2Proof.Machine
variable {wr : Bool}

theorem State.updAudio_keeps {s₀ : State} (s : State) (f : Audio → Audio) (hk : Keeps wr s₀ s) : Keeps wr s₀ (State.updAudio s f) := by
  unfold State.updAudio
  repeat' first
    | with_reducible assumption
    | intro _
    | with_reducible exact Keeps.refl _
    | with_reducible apply State.onDev_keeps

theorem State.audioRun_keeps {s₀ : State} (s : State) (n : Nat) (hk : Keeps wr s₀ s) : Keeps wr s₀ (State.audioRun s n) := by
  unfold State.audioRun
  repeat' first
    | with_reducible assumption
    | intro _
    | with_reducible exact Keeps.refl _
    | with_reducible apply State.updAudio_keeps
    | with_reducible apply State.onDev_keeps
    | with_reducible apply State.updPly_keeps
    | with_reducible apply State.updPort_keeps
    | with_reducible apply Keeps.ite
    | split
    | dsimp only
    | simp only [Keeps.mkDev_iff]

theorem State.audioCatchUp_keeps {s₀ : State} (s : State) (hk : Keeps wr s₀ s) : Keeps wr s₀ (State.audioCatchUp s) := by
  unfold State.audioCatchUp
  repeat' first
    | with_reducible assumption
    | intro _
    | with_reducible exact Keeps.refl _
    | with_reducible apply State.audioRun_keeps
    | with_reducible apply State.onDev_keeps
    | with_reducible apply State.updPly_keeps
    | with_reducible apply State.updPort_keeps
    | with_reducible apply Keeps.ite
    | split
    | dsimp only
    | simp only [Keeps.mkDev_iff]

theorem State.audioOn_keeps {s₀ : State} (s : State) (f : State → Res) (hk : Keeps wr s₀ s) (hf : ∀ t, Keeps wr s₀ t → KeepsRes wr s₀ (f t)) : KeepsRes wr s₀ (State.audioOn s f) := by
  unfold State.audioOn
  repeat' first
    | with_reducible assumption
    | intro _
    | with_reducible exact Keeps.refl _
    | with_reducible apply State.onDev_keeps
    | with_reducible apply State.updPly_keeps
    | with_reducible apply State.updPort_keeps
    | with_reducible apply KeepsRes.next
    | with_reducible apply State.clocked_keeps
    | with_reducible apply Keeps.ite
    | with_reducible apply hf
    | split

theorem State.updStream_keeps {s₀ : State} (s : State) (p : Fin 64) (h : Nat) (f : Stream → Stream) (hk : Keeps wr s₀ s) : Keeps wr s₀ (State.updStream s p h f) := by
  unfold State.updStream
  repeat' first
    | with_reducible assumption
    | intro _
    | with_reducible exact Keeps.refl _
    | with_reducible apply State.updAudio_keeps

theorem execAudOpen_keeps (p : Fin 64) (r : Fin 4) (s : State) : KeepsRes wr s (execAudOpen p r s) := by
  unfold execAudOpen
  have hk : Keeps wr s s := Keeps.refl s
  repeat' first
    | with_reducible assumption
    | intro _
    | with_reducible exact Keeps.refl _
    | with_reducible apply State.finishDesc_keeps
    | with_reducible apply State.audioOn_keeps
    | with_reducible apply State.updAudio_keeps
    | with_reducible apply State.onDev_keeps
    | with_reducible apply State.updPly_keeps
    | with_reducible apply State.updPort_keeps
    | with_reducible apply KeepsRes.next
    | with_reducible apply Keeps.ite
    | split
    | dsimp only

theorem execAudClose_keeps (p : Fin 64) (r : Fin 4) (s : State) : KeepsRes wr s (execAudClose p r s) := by
  unfold execAudClose
  have hk : Keeps wr s s := Keeps.refl s
  repeat' first
    | with_reducible assumption
    | intro _
    | with_reducible exact Keeps.refl _
    | with_reducible apply State.finishDesc_keeps
    | with_reducible apply State.dispatch_keeps
    | with_reducible apply State.audioOn_keeps
    | with_reducible apply State.updStream_keeps
    | with_reducible apply State.onDev_keeps
    | with_reducible apply State.updPly_keeps
    | with_reducible apply State.updPort_keeps
    | with_reducible apply KeepsRes.next
    | with_reducible apply Keeps.ite
    | split
    | dsimp only

theorem State.readAudio_keeps {s₀ : State} (s : State) (p : Fin 64) (h : Nat) (hk : Keeps wr s₀ s) : Keeps wr s₀ (State.readAudio s p h) := by
  unfold State.readAudio
  repeat' first
    | with_reducible assumption
    | intro _
    | with_reducible exact Keeps.refl _
    | with_reducible apply State.plyReads_keeps
    | with_reducible apply State.onDev_keeps
    | with_reducible apply State.updPly_keeps
    | with_reducible apply State.updPort_keeps
    | (with_reducible refine Keeps.mkTake _ (by assumption) ?_)
    | with_reducible apply State.issueRead_keeps
    | with_reducible apply Keeps.ite
    | split
    | dsimp only
    | simp only [Keeps.mkDev_iff]

theorem execAudBuffer_keeps (p : Fin 64) (r : Fin 4) (s : State) : KeepsRes wr s (execAudBuffer p r s) := by
  unfold execAudBuffer
  have hk : Keeps wr s s := Keeps.refl s
  repeat' first
    | with_reducible assumption
    | intro _
    | with_reducible exact Keeps.refl _
    | with_reducible apply State.finishDesc_keeps
    | with_reducible apply State.dispatch_keeps
    | with_reducible apply State.audioOn_keeps
    | with_reducible apply State.updStream_keeps
    | with_reducible apply State.readAudio_keeps
    | with_reducible apply State.onDev_keeps
    | with_reducible apply State.updPly_keeps
    | with_reducible apply State.updPort_keeps
    | with_reducible apply KeepsRes.next
    | with_reducible apply Keeps.ite
    | split
    | dsimp only

theorem execAudBufferReadDone_keeps (p : Fin 64) (h : Nat) (bytes : List Byte) (s : State) : KeepsRes wr s (execAudBufferReadDone p h bytes s) := by
  unfold execAudBufferReadDone
  have hk : Keeps wr s s := Keeps.refl s
  repeat' first
    | with_reducible assumption
    | intro _
    | with_reducible exact Keeps.refl _
    | with_reducible apply State.clocked_keeps
    | with_reducible apply State.endReads_keeps
    | with_reducible apply State.finishDesc_keeps
    | with_reducible apply State.updStream_keeps
    | with_reducible apply State.readAudio_keeps
    | with_reducible apply State.onDev_keeps
    | with_reducible apply State.updPly_keeps
    | with_reducible apply State.updPort_keeps
    | (with_reducible refine Keeps.mkTake _ (by assumption) ?_)
    | with_reducible apply KeepsRes.next
    | with_reducible apply State.endRead_keeps
    | with_reducible apply Keeps.ite
    | split
    | dsimp only
    | simp only [Keeps.mkDev_iff]

theorem execAudMixDataWrite_keeps (q : Fin 4) (value : Word) (s : State) : KeepsRes wr s (execAudMixDataWrite q value s) := by
  unfold execAudMixDataWrite
  have hk : Keeps wr s s := Keeps.refl s
  repeat' first
    | with_reducible assumption
    | intro _
    | with_reducible exact Keeps.refl _
    | with_reducible apply State.audioOn_keeps
    | with_reducible apply State.updAudio_keeps
    | with_reducible apply State.onDev_keeps
    | with_reducible apply State.updPly_keeps
    | with_reducible apply State.updPort_keeps
    | with_reducible apply KeepsRes.next
    | with_reducible apply Keeps.ite
    | split

theorem execAudEqDataWrite_keeps (q : Fin 4) (value : Word) (s : State) : KeepsRes wr s (execAudEqDataWrite q value s) := by
  unfold execAudEqDataWrite
  have hk : Keeps wr s s := Keeps.refl s
  repeat' first
    | with_reducible assumption
    | intro _
    | with_reducible exact Keeps.refl _
    | with_reducible apply State.updAudio_keeps
    | with_reducible apply State.audioCatchUp_keeps
    | with_reducible apply State.audioOn_keeps
    | with_reducible apply State.onDev_keeps
    | with_reducible apply State.updPly_keeps
    | with_reducible apply State.updPort_keeps
    | with_reducible apply KeepsRes.next
    | with_reducible apply Keeps.ite
    | split
    | dsimp only
    | simp only [Keeps.mkDev_iff]

theorem execAudLock_keeps (order : Nat) (s : State) : KeepsRes wr s (execAudLock order s) := by
  unfold execAudLock
  have hk : Keeps wr s s := Keeps.refl s
  repeat' first
    | with_reducible assumption
    | intro _
    | with_reducible exact Keeps.refl _
    | with_reducible apply State.onDev_keeps
    | with_reducible apply State.answer_keeps
    | with_reducible apply State.managed_keeps
    | with_reducible apply State.audioCatchUp_keeps
    | with_reducible apply State.audioOn_keeps
    | with_reducible apply State.updPly_keeps
    | with_reducible apply State.updPort_keeps
    | with_reducible apply Keeps.foldl
    | with_reducible apply KeepsRes.next
    | with_reducible apply Keeps.ite
    | split
    | dsimp only
    | simp only [Keeps.mkDev_iff]

theorem execTdmClkLost_keeps (p : Fin 4) (s : State) : KeepsRes wr s (execTdmClkLost p s) := by
  unfold execTdmClkLost
  have hk : Keeps wr s s := Keeps.refl s
  repeat' first
    | with_reducible assumption
    | intro _
    | with_reducible exact Keeps.refl _
    | with_reducible apply State.audioOn_keeps
    | with_reducible apply State.updAudio_keeps
    | with_reducible apply State.onDev_keeps
    | with_reducible apply State.updPly_keeps
    | with_reducible apply State.updPort_keeps
    | with_reducible apply KeepsRes.next
    | with_reducible apply Keeps.ite
    | split
    | dsimp only

theorem execTdmBclkReturn_keeps (p : Fin 4) (s : State) : KeepsRes wr s (execTdmBclkReturn p s) := by
  unfold execTdmBclkReturn
  have hk : Keeps wr s s := Keeps.refl s
  repeat' first
    | with_reducible assumption
    | intro _
    | with_reducible exact Keeps.refl _
    | with_reducible apply State.audioOn_keeps
    | with_reducible apply State.updAudio_keeps
    | with_reducible apply State.onDev_keeps
    | with_reducible apply State.updPly_keeps
    | with_reducible apply State.updPort_keeps
    | with_reducible apply KeepsRes.next

theorem State.setVoice_keeps {s₀ : State} (s : State) (v : Fin 16) (x : Option Playing) (hk : Keeps wr s₀ s) : Keeps wr s₀ (State.setVoice s v x) := by
  unfold State.setVoice
  repeat' first
    | with_reducible assumption
    | intro _
    | with_reducible exact Keeps.refl _
    | with_reducible apply State.updAudio_keeps

theorem execChime_keeps (p : Fin 64) (r : Fin 4) (s : State) : KeepsRes wr s (execChime p r s) := by
  unfold execChime
  have hk : Keeps wr s s := Keeps.refl s
  repeat' first
    | with_reducible assumption
    | intro _
    | with_reducible exact Keeps.refl _
    | with_reducible apply State.finishDesc_keeps
    | with_reducible apply State.hold_keeps
    | with_reducible apply State.dispatch_keeps
    | with_reducible apply State.audioOn_keeps
    | with_reducible apply State.setVoice_keeps
    | with_reducible apply State.onDev_keeps
    | with_reducible apply State.updPly_keeps
    | with_reducible apply State.updPort_keeps
    | with_reducible apply KeepsRes.next
    | with_reducible apply Keeps.ite
    | split
    | dsimp only
    | simp only [Keeps.mkDev_iff]

theorem execChimeStop_keeps (p : Fin 64) (r : Fin 4) (s : State) : KeepsRes wr s (execChimeStop p r s) := by
  unfold execChimeStop
  have hk : Keeps wr s s := Keeps.refl s
  repeat' first
    | with_reducible assumption
    | intro _
    | with_reducible exact Keeps.refl _
    | with_reducible apply State.finishDesc_keeps
    | with_reducible apply State.audioOn_keeps
    | with_reducible apply State.updAudio_keeps
    | with_reducible apply State.onDev_keeps
    | with_reducible apply State.updPly_keeps
    | with_reducible apply State.updPort_keeps
    | with_reducible apply KeepsRes.next
    | with_reducible apply Keeps.ite
    | split

theorem execChimeTrigger_keeps (i : Nat) (s : State) : KeepsRes wr s (execChimeTrigger i s) := by
  unfold execChimeTrigger
  have hk : Keeps wr s s := Keeps.refl s
  repeat' first
    | with_reducible assumption
    | intro _
    | with_reducible exact Keeps.refl _
    | with_reducible apply State.hold_keeps
    | with_reducible apply State.updAudio_keeps
    | with_reducible apply State.audioOn_keeps
    | with_reducible apply State.setVoice_keeps
    | with_reducible apply State.onDev_keeps
    | with_reducible apply State.updPly_keeps
    | with_reducible apply State.updPort_keeps
    | with_reducible apply KeepsRes.next
    | with_reducible apply Keeps.ite
    | split
    | dsimp only
    | simp only [Keeps.mkDev_iff]

theorem execChimeVoiceEnd_keeps (v : Fin 16) (s : State) : KeepsRes wr s (execChimeVoiceEnd v s) := by
  unfold execChimeVoiceEnd
  have hk : Keeps wr s s := Keeps.refl s
  repeat' first
    | with_reducible assumption
    | intro _
    | with_reducible exact Keeps.refl _
    | with_reducible apply State.discard_keeps
    | with_reducible apply State.finishDesc_keeps
    | with_reducible apply State.audioOn_keeps
    | with_reducible apply State.setVoice_keeps
    | with_reducible apply State.onDev_keeps
    | with_reducible apply State.updPly_keeps
    | with_reducible apply State.updPort_keeps
    | with_reducible apply KeepsRes.next
    | with_reducible apply Keeps.ite
    | split
    | dsimp only

theorem State.endAudioDesc_keeps {s₀ : State} (s : State) (p : Fin 64) (r : Fin 4) (o : Nat) (result : List Byte) (hk : Keeps wr s₀ s) : Keeps wr s₀ (State.endAudioDesc s p r o result) := by
  unfold State.endAudioDesc
  repeat' first
    | with_reducible assumption
    | intro _
    | with_reducible exact Keeps.refl _
    | with_reducible apply State.discard_keeps
    | with_reducible apply State.finishDesc_keeps
    | with_reducible apply State.onDev_keeps
    | with_reducible apply State.updPly_keeps
    | with_reducible apply State.updPort_keeps
    | with_reducible apply Keeps.ite
    | split

theorem State.stepStreams_keeps {s₀ : State} (s : State) (hk : Keeps wr s₀ s) : Keeps wr s₀ (State.stepStreams s) := by
  unfold State.stepStreams
  repeat' first
    | with_reducible assumption
    | intro _
    | with_reducible exact Keeps.refl _
    | with_reducible apply State.onDev_keeps
    | with_reducible apply State.updAudio_keeps
    | with_reducible apply State.endAudioDesc_keeps
    | with_reducible apply State.updPly_keeps
    | with_reducible apply State.updPort_keeps
    | with_reducible apply Keeps.foldl
    | with_reducible apply Keeps.ite
    | split
    | dsimp only
    | simp only [Keeps.mkDev_iff]

theorem State.chargeVoice_keeps {s₀ : State} (s : State) (v : Fin 16) (hk : Keeps wr s₀ s) : Keeps wr s₀ (State.chargeVoice s v) := by
  unfold State.chargeVoice
  repeat' first
    | with_reducible assumption
    | intro _
    | with_reducible exact Keeps.refl _
    | (with_reducible refine State.takeMem_keeps (by assumption) ?_)
    | with_reducible apply State.hold_keeps
    | with_reducible apply State.setVoice_keeps
    | with_reducible apply State.onDev_keeps
    | with_reducible apply State.updPly_keeps
    | with_reducible apply State.updPort_keeps
    | (with_reducible refine Keeps.mkTake _ (by assumption) ?_)
    | with_reducible apply Keeps.getD
    | with_reducible apply Keeps.ite
    | split
    | dsimp only
    | simp only [Keeps.mkDev_iff]

theorem State.consume_keeps {s₀ : State} (s : State) (hk : Keeps wr s₀ s) : Keeps wr s₀ (State.consume s) := by
  unfold State.consume
  repeat' first
    | with_reducible assumption
    | intro _
    | with_reducible exact Keeps.refl _
    | with_reducible apply State.postPly_keeps
    | with_reducible apply State.updStream_keeps
    | with_reducible apply State.onDev_keeps
    | with_reducible apply State.updPly_keeps
    | with_reducible apply State.updPort_keeps
    | with_reducible apply Keeps.foldl
    | with_reducible apply Keeps.ite
    | split
    | dsimp only
    | simp only [Keeps.mkDev_iff]

theorem State.endBlock_keeps {s₀ : State} (s : State) (hk : Keeps wr s₀ s) : Keeps wr s₀ (State.endBlock s) := by
  unfold State.endBlock
  repeat' first
    | with_reducible assumption
    | intro _
    | with_reducible exact Keeps.refl _
    | with_reducible apply State.each_keeps
    | with_reducible apply State.emit_keeps
    | with_reducible apply State.updAudio_keeps
    | with_reducible apply State.audioRun_keeps
    | with_reducible apply State.onDev_keeps
    | with_reducible apply State.updPly_keeps
    | with_reducible apply State.updPort_keeps
    | with_reducible apply Keeps.ite
    | split
    | dsimp only
    | simp only [Keeps.mkDev_iff]

theorem State.audioBlock_keeps {s₀ : State} (s : State) (io : AudioIn) (hk : Keeps wr s₀ s) : Keeps wr s₀ (State.audioBlock s io) := by
  unfold State.audioBlock
  repeat' first
    | with_reducible assumption
    | intro _
    | with_reducible exact Keeps.refl _
    | with_reducible apply State.onDev_keeps
    | with_reducible apply State.updAudio_keeps
    | with_reducible apply State.stepStreams_keeps
    | with_reducible apply State.chargeVoice_keeps
    | with_reducible apply State.consume_keeps
    | with_reducible apply State.updPly_keeps
    | with_reducible apply State.updPort_keeps
    | with_reducible apply Keeps.foldl
    | with_reducible apply State.emit_keeps
    | with_reducible apply State.each_keeps
    | with_reducible apply Keeps.ite
    | split
    | dsimp only
    | simp only [Keeps.mkDev_iff]

end Sys2Proof.Machine
end

