-- ==== Sys2Proof/Laws/Touch.lean ====
section
/-! SUPPORT. Laws/Touch.lean: the operations and commands of Machine/Touch.lean keep the queue, the canonical form of DRAM and the credits. -/
namespace Sys2Proof.Machine
variable {wr : Bool}

theorem State.updTouch_keeps {s₀ : State} (s : State) (f : Touch → Touch) (hk : Keeps wr s₀ s) : Keeps wr s₀ (State.updTouch s f) := by
  unfold State.updTouch
  repeat' first
    | with_reducible assumption
    | intro _
    | with_reducible exact Keeps.refl _
    | with_reducible apply State.onDev_keeps
    | with_reducible apply State.updPly_keeps
    | with_reducible apply State.updPort_keeps
    | with_reducible apply Keeps.ite
    | split
    | dsimp only
    | simp only [Keeps.mkDev_iff]

theorem State.updPanel_keeps {s₀ : State} (s : State) (n : Fin 4) (f : Panel → Panel) (hk : Keeps wr s₀ s) : Keeps wr s₀ (State.updPanel s n f) := by
  unfold State.updPanel
  repeat' first
    | with_reducible assumption
    | intro _
    | with_reducible exact Keeps.refl _
    | with_reducible apply State.updTouch_keeps
    | with_reducible apply State.onDev_keeps
    | with_reducible apply State.updPly_keeps
    | with_reducible apply State.updPort_keeps
    | with_reducible apply Keeps.ite
    | split
    | dsimp only
    | simp only [Keeps.mkDev_iff]

theorem State.sensing_keeps {s₀ : State} (s : State) (f : State → Res) (hk : Keeps wr s₀ s) (hf : ∀ t, Keeps wr s₀ t → KeepsRes wr s₀ (f t)) : KeepsRes wr s₀ (State.sensing s f) := by
  unfold State.sensing
  repeat' first
    | with_reducible assumption
    | intro _
    | with_reducible exact Keeps.refl _
    | with_reducible apply State.onDev_keeps
    | with_reducible apply State.updPly_keeps
    | with_reducible apply State.updPort_keeps
    | with_reducible apply KeepsRes.next
    | with_reducible apply State.clocked_keeps
    | with_reducible apply Keeps.ite
    | with_reducible apply hf
    | split

theorem execTchConfig_keeps (p : Fin 64) (r : Fin 4) (s : State) : KeepsRes wr s (execTchConfig p r s) := by
  unfold execTchConfig
  have hk : Keeps wr s s := Keeps.refl s
  repeat' first
    | with_reducible assumption
    | intro _
    | with_reducible exact Keeps.refl _
    | with_reducible apply State.finishDesc_keeps
    | with_reducible apply State.updPanel_keeps
    | with_reducible apply State.sensing_keeps
    | with_reducible apply State.onDev_keeps
    | with_reducible apply State.updPly_keeps
    | with_reducible apply State.updPort_keeps
    | with_reducible apply KeepsRes.next
    | with_reducible apply Keeps.ite
    | split

theorem State.chargerNoise_keeps {s₀ : State} (s : State) (n : Fin 4) (code : Nat) (hk : Keeps wr s₀ s) : Keeps wr s₀ (State.chargerNoise s n code) := by
  unfold State.chargerNoise
  repeat' first
    | with_reducible assumption
    | intro _
    | with_reducible exact Keeps.refl _
    | with_reducible apply State.postPly_keeps

theorem State.report_keeps {s₀ : State} (s : State) (n : Fin 4) (b : List Byte) (start : Nat) (old : List Contact) (new : List Contact) (hk : Keeps wr s₀ s) : Keeps wr s₀ (State.report s n b start old new) := by
  unfold State.report
  repeat' first
    | with_reducible assumption
    | intro _
    | with_reducible exact Keeps.refl _
    | with_reducible apply State.postPlyAt_keeps
    | with_reducible apply State.onDev_keeps
    | with_reducible apply State.updPly_keeps
    | with_reducible apply State.updPort_keeps
    | with_reducible apply State.each_keeps

theorem State.scanDone_keeps {s₀ : State} (s : State) (n : Fin 4) (passes : List TouchPass) (hk : Keeps wr s₀ s) : Keeps wr s₀ (State.scanDone s n passes) := by
  unfold State.scanDone
  repeat' first
    | with_reducible assumption
    | intro _
    | with_reducible exact Keeps.refl _
    | with_reducible apply State.updPanel_keeps
    | with_reducible apply State.report_keeps
    | with_reducible apply State.onDev_keeps
    | with_reducible apply State.updPly_keeps
    | with_reducible apply State.updPort_keeps
    | (with_reducible refine Keeps.mkTake _ (by assumption) ?_)
    | with_reducible apply Keeps.ite
    | split
    | dsimp only
    | simp only [Keeps.mkDev_iff]

theorem State.heldScans_keeps {s₀ : State} (s : State) (hk : Keeps wr s₀ s) : Keeps wr s₀ (State.heldScans s) := by
  unfold State.heldScans
  repeat' first
    | with_reducible assumption
    | intro _
    | with_reducible exact Keeps.refl _
    | with_reducible apply State.each_keeps
    | with_reducible apply State.scanDone_keeps
    | with_reducible apply State.onDev_keeps
    | with_reducible apply State.updPly_keeps
    | with_reducible apply State.updPort_keeps
    | with_reducible apply Keeps.ite
    | split
    | dsimp only
    | simp only [Keeps.mkDev_iff]

theorem execTouchScanDone_keeps (n : Fin 4) (passes : List TouchPass) (s : State) : KeepsRes wr s (execTouchScanDone n passes s) := by
  unfold execTouchScanDone
  have hk : Keeps wr s s := Keeps.refl s
  repeat' first
    | with_reducible assumption
    | intro _
    | with_reducible exact Keeps.refl _
    | with_reducible apply State.updPanel_keeps
    | with_reducible apply State.sensing_keeps
    | with_reducible apply State.scanDone_keeps
    | with_reducible apply State.heldScans_keeps
    | with_reducible apply State.onDev_keeps
    | with_reducible apply State.updPly_keeps
    | with_reducible apply State.updPort_keeps
    | with_reducible apply KeepsRes.next
    | with_reducible apply State.report_keeps
    | (with_reducible refine Keeps.mkTake _ (by assumption) ?_)
    | with_reducible apply Keeps.ite
    | split
    | dsimp only
    | simp only [Keeps.mkDev_iff]

theorem execTouchScanStart_keeps (n : Fin 4) (s : State) : KeepsRes wr s (execTouchScanStart n s) := by
  unfold execTouchScanStart -- manual
  refine State.sensing_keeps _ _ (Keeps.refl s) (fun t ht => ?_)
  have hk := State.heldScans_keeps t ht
  extract_lets u x testing
  have hk : Keeps wr s u := hk
  clear_value u x testing
  split
  · exact KeepsRes.next hk
  · split
    · exact KeepsRes.next hk
    · extract_lets fresh on x' x'' was now x3 entries time us x4 s'
      have hs : ∀ y, Keeps wr s (u.updPanel n fun _ => y) := fun y => State.updPanel_keeps _ _ _ hk
      split
      · exact KeepsRes.next (hs _)
      · refine KeepsRes.next ?_
        split
        · exact hs _
        · exact State.chargerNoise_keeps _ _ _ (hs _)

theorem execPersistentTouch_keeps (n : Fin 4) (id : Nat) (s : State) : KeepsRes wr s (execPersistentTouch n id s) := by
  unfold execPersistentTouch
  have hk : Keeps wr s s := Keeps.refl s
  repeat' first
    | with_reducible assumption
    | intro _
    | with_reducible exact Keeps.refl _
    | with_reducible apply State.postPly_keeps
    | with_reducible apply State.updPanel_keeps
    | with_reducible apply State.sensing_keeps
    | with_reducible apply State.onDev_keeps
    | with_reducible apply State.updPly_keeps
    | with_reducible apply State.updPort_keeps
    | with_reducible apply KeepsRes.next
    | with_reducible apply Keeps.ite
    | split

theorem State.tchCmd_keeps {s₀ : State} (s : State) (q : Fin 4) (n : Fin 4) (code : Nat) (act : State → State) (hk : Keeps wr s₀ s) (hact : ∀ x0, Keeps wr s₀ x0 → Keeps wr s₀ (act x0)) : KeepsRes wr s₀ (State.tchCmd s q n code act) := by
  unfold State.tchCmd
  repeat' first
    | with_reducible assumption
    | intro _
    | with_reducible exact Keeps.refl _
    | with_reducible apply State.updTouch_keeps
    | with_reducible apply State.onDev_keeps
    | with_reducible apply State.updPly_keeps
    | with_reducible apply State.updPort_keeps
    | with_reducible apply KeepsRes.next
    | with_reducible apply Keeps.ite
    | with_reducible apply hact
    | split

theorem execRecal_keeps (q : Fin 4) (n : Fin 4) (s : State) : KeepsRes wr s (execRecal q n s) := by
  unfold execRecal
  have hk : Keeps wr s s := Keeps.refl s
  repeat' first
    | with_reducible assumption
    | intro _
    | with_reducible exact Keeps.refl _
    | with_reducible apply State.updPanel_keeps
    | with_reducible apply State.sensing_keeps
    | with_reducible apply State.tchCmd_keeps

theorem execSelftest_keeps (q : Fin 4) (n : Fin 4) (s : State) : KeepsRes wr s (execSelftest q n s) := by
  unfold execSelftest
  have hk : Keeps wr s s := Keeps.refl s
  repeat' first
    | with_reducible assumption
    | intro _
    | with_reducible exact Keeps.refl _
    | with_reducible apply State.updTouch_keeps
    | with_reducible apply State.updPanel_keeps
    | with_reducible apply State.sensing_keeps
    | with_reducible apply State.tchCmd_keeps
    | with_reducible apply State.onDev_keeps
    | with_reducible apply State.updPly_keeps
    | with_reducible apply State.updPort_keeps
    | with_reducible apply KeepsRes.next
    | with_reducible apply Keeps.ite

theorem execRefStore_keeps (q : Fin 4) (n : Fin 4) (s : State) : KeepsRes wr s (execRefStore q n s) := by
  unfold execRefStore
  have hk : Keeps wr s s := Keeps.refl s
  repeat' first
    | with_reducible assumption
    | intro _
    | with_reducible exact Keeps.refl _
    | with_reducible apply State.updTouch_keeps
    | with_reducible apply State.sensing_keeps
    | with_reducible apply State.tchCmd_keeps
    | with_reducible apply State.onDev_keeps
    | with_reducible apply State.updPly_keeps
    | with_reducible apply State.updPort_keeps
    | with_reducible apply KeepsRes.next
    | with_reducible apply Keeps.ite

theorem execTchCmdDone_keeps (m : TchMeasure) (flashOk : Bool) (s : State) : KeepsRes wr s (execTchCmdDone m flashOk s) := by
  unfold execTchCmdDone
  have hk : Keeps wr s s := Keeps.refl s
  repeat' first
    | with_reducible assumption
    | intro _
    | with_reducible exact Keeps.refl _
    | with_reducible apply State.updTouch_keeps
    | with_reducible apply State.sensing_keeps
    | with_reducible apply State.onDev_keeps
    | with_reducible apply State.updPly_keeps
    | with_reducible apply State.updPort_keeps
    | (with_reducible refine Keeps.mkTake _ (by assumption) ?_)
    | with_reducible apply KeepsRes.next
    | with_reducible apply Keeps.ite
    | split
    | dsimp only

theorem execWakeScan_keeps (xs : List Nat) (ys : List Nat) (s : State) : KeepsRes wr s (execWakeScan xs ys s) := by
  unfold execWakeScan
  have hk : Keeps wr s s := Keeps.refl s
  repeat' first
    | with_reducible assumption
    | intro _
    | with_reducible exact Keeps.refl _
    | with_reducible apply State.onDev_keeps
    | with_reducible apply State.updPly_keeps
    | with_reducible apply State.updPort_keeps
    | (with_reducible refine Keeps.mkTake _ (by assumption) ?_)
    | with_reducible apply KeepsRes.next
    | with_reducible apply Keeps.ite
    | split
    | dsimp only
    | simp only [Keeps.mkDev_iff]

end Sys2Proof.Machine
end

