-- ==== Sys2Proof/Laws/Haptics.lean ====
section
/-! SUPPORT. Laws/Haptics.lean: the operations and commands of Machine/Haptics.lean keep the queue, the canonical form of DRAM and the credits. -/
namespace Sys2Proof.Machine
variable {wr : Bool}

theorem State.updHap_keeps {s₀ : State} (s : State) (c : Fin 8) (f : HapChan → HapChan) (hk : Keeps wr s₀ s) : Keeps wr s₀ (State.updHap s c f) := by
  unfold State.updHap
  repeat' first
    | with_reducible assumption
    | intro _
    | with_reducible exact Keeps.refl _
    | with_reducible apply State.onDev_keeps

theorem State.settleLoads_keeps {s₀ : State} (s : State) (c : Fin 8) (hk : Keeps wr s₀ s) : Keeps wr s₀ (State.settleLoads s c) := by
  unfold State.settleLoads
  repeat' first
    | with_reducible assumption
    | intro _
    | with_reducible exact Keeps.refl _
    | with_reducible apply State.finishDesc_keeps
    | with_reducible apply State.updHap_keeps
    | with_reducible apply State.onDev_keeps
    | with_reducible apply State.updPly_keeps
    | with_reducible apply State.updPort_keeps
    | with_reducible apply State.each_keeps

theorem execHapLoad_keeps (p : Fin 64) (r : Fin 4) (s : State) : KeepsRes wr s (execHapLoad p r s) := by
  unfold execHapLoad
  have hk : Keeps wr s s := Keeps.refl s
  repeat' first
    | with_reducible assumption
    | intro _
    | with_reducible exact Keeps.refl _
    | with_reducible apply State.finishDesc_keeps
    | with_reducible apply State.dispatch_keeps
    | with_reducible apply State.sensing_keeps
    | with_reducible apply State.updHap_keeps
    | with_reducible apply State.settleLoads_keeps
    | with_reducible apply State.onDev_keeps
    | with_reducible apply State.updPly_keeps
    | with_reducible apply State.updPort_keeps
    | with_reducible apply KeepsRes.next
    | with_reducible apply Keeps.ite
    | split
    | dsimp only

theorem State.hapEvent_keeps {s₀ : State} (s : State) (c : Fin 8) (code : Nat) (data : List Byte) (hk : Keeps wr s₀ s) : Keeps wr s₀ (State.hapEvent s c code data) := by
  unfold State.hapEvent
  repeat' first
    | with_reducible assumption
    | intro _
    | with_reducible exact Keeps.refl _
    | with_reducible apply State.postManager_keeps
    | with_reducible apply State.postBoth_keeps
    | with_reducible apply State.onDev_keeps
    | with_reducible apply State.updPly_keeps
    | with_reducible apply State.updPort_keeps
    | with_reducible apply Keeps.ite
    | split

theorem State.hapRefuse_keeps {s₀ : State} (s : State) (c : Fin 8) (t : Trigger) (status : Nat) (code : Nat) (data : List Byte) (hk : Keeps wr s₀ s) : Keeps wr s₀ (State.hapRefuse s c t status code data) := by
  unfold State.hapRefuse
  repeat' first
    | with_reducible assumption
    | intro _
    | with_reducible exact Keeps.refl _
    | with_reducible apply State.finishDesc_keeps
    | with_reducible apply State.hapEvent_keeps
    | with_reducible apply State.onDev_keeps
    | with_reducible apply State.updPly_keeps
    | with_reducible apply State.updPort_keeps
    | with_reducible apply Keeps.ite
    | split

theorem State.hapRefused_keeps {s₀ : State} (s : State) (c : Fin 8) (t : Trigger) (hk : Keeps wr s₀ s) : Keeps wr s₀ (State.hapRefused s c t) := by
  unfold State.hapRefused
  repeat' first
    | with_reducible assumption
    | intro _
    | with_reducible exact Keeps.refl _
    | with_reducible apply State.hapRefuse_keeps

theorem State.hapEnd_keeps {s₀ : State} (s : State) (c : Fin 8) (cause : Nat) (hk : Keeps wr s₀ s) : Keeps wr s₀ (State.hapEnd s c cause) := by
  unfold State.hapEnd
  repeat' first
    | with_reducible assumption
    | intro _
    | with_reducible exact Keeps.refl _
    | with_reducible apply State.finishDesc_keeps
    | with_reducible apply State.updHap_keeps
    | with_reducible apply State.settleLoads_keeps
    | with_reducible apply State.onDev_keeps
    | with_reducible apply State.updPly_keeps
    | with_reducible apply State.updPort_keeps
    | with_reducible apply Keeps.ite
    | split

theorem State.hapBegin_keeps {s₀ s s₁ : State} {c : Fin 8} {t : Trigger} {x : Effect} (e : s.hapBegin c t x = some s₁) (hk : Keeps wr s₀ s) :
    Keeps wr s₀ s₁ := by
  obtain ⟨k, hk', rfl⟩ := Option.map_eq_some_iff.mp e
  exact State.updHap_keeps _ _ _ (State.hapEnd_keeps _ _ _ (State.updHap_keeps _ _ _ (hk.mkSkein _ _ (Skein.takeHap_conserves hk'))))

theorem State.hapServe_keeps {s₀ : State} (s : State) (c : Fin 8) (w : HapWait) (hk : Keeps wr s₀ s) : Keeps wr s₀ (State.hapServe s c w) := by
  unfold State.hapServe
  repeat' first
    | with_reducible assumption
    | intro _
    | with_reducible exact Keeps.refl _
    | with_reducible apply State.place_keeps
    | with_reducible apply State.updHap_keeps
    | (with_reducible refine State.hapBegin_keeps (by assumption) ?_)
    | with_reducible apply State.onDev_keeps
    | with_reducible apply State.updPly_keeps
    | with_reducible apply State.updPort_keeps
    | with_reducible apply Keeps.ite
    | split

theorem State.hapTrigger_keeps {s₀ : State} (s : State) (c : Fin 8) (t : Trigger) (hk : Keeps wr s₀ s) : Keeps wr s₀ (State.hapTrigger s c t) := by
  unfold State.hapTrigger
  repeat' first
    | with_reducible assumption
    | intro _
    | with_reducible exact Keeps.refl _
    | with_reducible apply State.finishDesc_keeps
    | with_reducible apply State.place_keeps
    | with_reducible apply State.updHap_keeps
    | with_reducible apply State.hapRefuse_keeps
    | with_reducible apply State.hapRefused_keeps
    | with_reducible apply State.hapServe_keeps
    | with_reducible apply State.onDev_keeps
    | with_reducible apply State.updPly_keeps
    | with_reducible apply State.updPort_keeps
    | with_reducible apply Keeps.ite
    | split

theorem execHapEffectStart_keeps (c : Fin 8) (s : State) : KeepsRes wr s (execHapEffectStart c s) := by
  unfold execHapEffectStart
  have hk : Keeps wr s s := Keeps.refl s
  repeat' first
    | with_reducible assumption
    | intro _
    | with_reducible exact Keeps.refl _
    | with_reducible apply State.sensing_keeps
    | with_reducible apply State.updHap_keeps
    | with_reducible apply State.hapRefused_keeps
    | with_reducible apply State.hapServe_keeps
    | with_reducible apply State.hapTrigger_keeps
    | with_reducible apply State.onDev_keeps
    | with_reducible apply State.updPly_keeps
    | with_reducible apply State.updPort_keeps
    | with_reducible apply State.each_keeps
    | with_reducible apply KeepsRes.next
    | with_reducible apply Keeps.ite
    | split
    | dsimp only

theorem execHapEnergyTimeout_keeps (c : Fin 8) (s : State) : KeepsRes wr s (execHapEnergyTimeout c s) := by
  unfold execHapEnergyTimeout
  have hk : Keeps wr s s := Keeps.refl s
  repeat' first
    | with_reducible assumption
    | intro _
    | with_reducible exact Keeps.refl _
    | with_reducible apply State.finishDesc_keeps
    | with_reducible apply State.sensing_keeps
    | with_reducible apply State.updHap_keeps
    | with_reducible apply State.settleLoads_keeps
    | with_reducible apply State.hapEvent_keeps
    | with_reducible apply State.onDev_keeps
    | with_reducible apply State.updPly_keeps
    | with_reducible apply State.updPort_keeps
    | with_reducible apply KeepsRes.next
    | with_reducible apply Keeps.ite
    | split

theorem execHapPlay_keeps (p : Fin 64) (r : Fin 4) (s : State) : KeepsRes wr s (execHapPlay p r s) := by
  unfold execHapPlay
  have hk : Keeps wr s s := Keeps.refl s
  repeat' first
    | with_reducible assumption
    | intro _
    | with_reducible exact Keeps.refl _
    | with_reducible apply State.dispatch_keeps
    | with_reducible apply State.sensing_keeps
    | with_reducible apply State.onDev_keeps
    | with_reducible apply State.updPly_keeps
    | with_reducible apply State.updPort_keeps
    | with_reducible apply KeepsRes.next
    | with_reducible apply Keeps.ite
    | split

theorem execHtrigEdge_keeps (pin : Fin 8) (rising : Bool) (s : State) : KeepsRes wr s (execHtrigEdge pin rising s) := by
  unfold execHtrigEdge
  have hk : Keeps wr s s := Keeps.refl s
  repeat' first
    | with_reducible assumption
    | intro _
    | with_reducible exact Keeps.refl _
    | with_reducible apply State.sensing_keeps
    | with_reducible apply State.hapRefused_keeps
    | with_reducible apply State.onDev_keeps
    | with_reducible apply State.updPly_keeps
    | with_reducible apply State.updPort_keeps
    | with_reducible apply KeepsRes.next
    | with_reducible apply Keeps.ite
    | split
    | dsimp only

theorem execHapDriveEnd_keeps (c : Fin 8) (s : State) : KeepsRes wr s (execHapDriveEnd c s) := by
  unfold execHapDriveEnd
  have hk : Keeps wr s s := Keeps.refl s
  repeat' first
    | with_reducible assumption
    | intro _
    | with_reducible exact Keeps.refl _
    | with_reducible apply State.sensing_keeps
    | with_reducible apply State.updHap_keeps
    | with_reducible apply State.onDev_keeps
    | with_reducible apply State.updPly_keeps
    | with_reducible apply State.updPort_keeps
    | with_reducible apply KeepsRes.next
    | with_reducible apply Keeps.ite
    | split

theorem execHapBrakeEnd_keeps (c : Fin 8) (s : State) : KeepsRes wr s (execHapBrakeEnd c s) := by
  unfold execHapBrakeEnd
  have hk : Keeps wr s s := Keeps.refl s
  repeat' first
    | with_reducible assumption
    | intro _
    | with_reducible exact Keeps.refl _
    | with_reducible apply State.sensing_keeps
    | with_reducible apply State.updHap_keeps
    | with_reducible apply State.hapEnd_keeps
    | with_reducible apply State.onDev_keeps
    | with_reducible apply State.updPly_keeps
    | with_reducible apply State.updPort_keeps
    | with_reducible apply KeepsRes.next
    | with_reducible apply Keeps.ite
    | split

theorem execHapEnHoldExpiry_keeps (c : Fin 8) (s : State) : KeepsRes wr s (execHapEnHoldExpiry c s) := by
  unfold execHapEnHoldExpiry
  have hk : Keeps wr s s := Keeps.refl s
  repeat' first
    | with_reducible assumption
    | intro _
    | with_reducible exact Keeps.refl _
    | with_reducible apply State.sensing_keeps
    | with_reducible apply State.updHap_keeps
    | with_reducible apply State.onDev_keeps
    | with_reducible apply State.updPly_keeps
    | with_reducible apply State.updPort_keeps
    | with_reducible apply KeepsRes.next
    | with_reducible apply Keeps.ite
    | split

theorem State.hapTrip_keeps {s₀ : State} (s : State) (c : Fin 8) (kind : Nat) (hk : Keeps wr s₀ s) : Keeps wr s₀ (State.hapTrip s c kind) := by
  unfold State.hapTrip
  repeat' first
    | with_reducible assumption
    | intro _
    | with_reducible exact Keeps.refl _
    | with_reducible apply State.finishDesc_keeps
    | with_reducible apply State.updHap_keeps
    | with_reducible apply State.settleLoads_keeps
    | with_reducible apply State.hapEvent_keeps
    | with_reducible apply State.hapEnd_keeps
    | with_reducible apply State.onDev_keeps
    | with_reducible apply State.updPly_keeps
    | with_reducible apply State.updPort_keeps
    | with_reducible apply Keeps.ite
    | split

theorem execHapTrip_keeps (c : Fin 8) (s : State) : KeepsRes wr s (execHapTrip c s) := by
  unfold execHapTrip
  have hk : Keeps wr s s := Keeps.refl s
  repeat' first
    | with_reducible assumption
    | intro _
    | with_reducible exact Keeps.refl _
    | with_reducible apply State.sensing_keeps
    | with_reducible apply State.hapTrip_keeps
    | with_reducible apply State.onDev_keeps
    | with_reducible apply State.updPly_keeps
    | with_reducible apply State.updPort_keeps
    | with_reducible apply KeepsRes.next
    | with_reducible apply Keeps.ite
    | split

theorem execHapRearm_keeps (c : Fin 8) (s : State) : KeepsRes wr s (execHapRearm c s) := by
  unfold execHapRearm
  have hk : Keeps wr s s := Keeps.refl s
  repeat' first
    | with_reducible assumption
    | intro _
    | with_reducible exact Keeps.refl _
    | with_reducible apply State.sensing_keeps
    | with_reducible apply State.updHap_keeps
    | with_reducible apply State.onDev_keeps
    | with_reducible apply State.updPly_keeps
    | with_reducible apply State.updPort_keeps
    | with_reducible apply KeepsRes.next

theorem execHapClear_keeps (q : Fin 4) (c : Fin 8) (s : State) : KeepsRes wr s (execHapClear q c s) := by
  unfold execHapClear
  have hk : Keeps wr s s := Keeps.refl s
  repeat' first
    | with_reducible assumption
    | intro _
    | with_reducible exact Keeps.refl _
    | with_reducible apply State.sensing_keeps
    | with_reducible apply State.updHap_keeps
    | with_reducible apply State.onDev_keeps
    | with_reducible apply State.updPly_keeps
    | with_reducible apply State.updPort_keeps
    | with_reducible apply KeepsRes.next
    | with_reducible apply Keeps.ite
    | split

theorem execHapEnOneshotExpiry_keeps (c : Fin 8) (s : State) : KeepsRes wr s (execHapEnOneshotExpiry c s) := by
  unfold execHapEnOneshotExpiry
  have hk : Keeps wr s s := Keeps.refl s
  repeat' first
    | with_reducible assumption
    | intro _
    | with_reducible exact Keeps.refl _
    | with_reducible apply State.updHap_keeps
    | with_reducible apply State.onDev_keeps
    | with_reducible apply State.updPly_keeps
    | with_reducible apply State.updPort_keeps
    | with_reducible apply KeepsRes.next

theorem execHapControlTick_keeps (io : Vector HapSample 8) (s : State) : KeepsRes wr s (execHapControlTick io s) := by
  unfold execHapControlTick
  have hk : Keeps wr s s := Keeps.refl s
  repeat' first
    | with_reducible assumption
    | intro _
    | with_reducible exact Keeps.refl _
    | with_reducible apply State.emit_keeps
    | with_reducible apply State.tick_keeps
    | with_reducible apply State.idle_keeps
    | with_reducible apply State.sensing_keeps
    | with_reducible apply State.updHap_keeps
    | with_reducible apply State.hapTrip_keeps
    | with_reducible apply State.onDev_keeps
    | with_reducible apply State.updPly_keeps
    | with_reducible apply State.updPort_keeps
    | with_reducible apply State.each_keeps
    | with_reducible apply KeepsRes.next
    | with_reducible apply Keeps.ite
    | split

end Sys2Proof.Machine
end

