-- ==== Sys2Proof/Laws/Ports.lean ====
section
/-! SUPPORT. Laws/Ports.lean: the operations and commands of Machine/Ports.lean keep the queue, the canonical form of DRAM and the credits. -/
namespace Sys2Proof.Machine
variable {wr : Bool}

theorem State.resumeTraffic_keeps {s₀ : State} (s : State) (q : Fin 4) (hk : Keeps wr s₀ s) : Keeps wr s₀ (State.resumeTraffic s q) := by
  unfold State.resumeTraffic
  repeat' first
    | with_reducible assumption
    | intro _
    | with_reducible exact Keeps.refl _
    | with_reducible apply State.emit_keeps
    | with_reducible apply State.issueRead_keeps
    | with_reducible apply State.onDev_keeps
    | with_reducible apply State.updPly_keeps
    | with_reducible apply State.updPort_keeps
    | with_reducible apply Keeps.foldl
    | with_reducible apply Keeps.ite

theorem State.cfgWrite_keeps {s₀ : State} (s : State) (q : Fin 4) (off : Nat) (v : Word) (hk : Keeps wr s₀ s) : Keeps wr s₀ (State.cfgWrite s q off v) := by
  unfold State.cfgWrite
  repeat' first
    | with_reducible assumption
    | intro _
    | with_reducible exact Keeps.refl _
    | with_reducible apply State.onDev_keeps
    | with_reducible apply State.updPort_keeps
    | with_reducible apply State.resumeTraffic_keeps
    | with_reducible apply State.updPly_keeps
    | with_reducible apply Keeps.ite
    | split
    | dsimp only
    | simp only [Keeps.mkDev_iff]

theorem execConfigRequest_keeps (q : Fin 4) (off : Nat) (write : Option Word) (s : State) : KeepsRes wr s (execConfigRequest q off write s) := by
  unfold execConfigRequest
  have hk : Keeps wr s s := Keeps.refl s
  repeat' first
    | with_reducible assumption
    | intro _
    | with_reducible exact Keeps.refl _
    | with_reducible apply State.emit_keeps
    | with_reducible apply State.cfgWrite_keeps
    | with_reducible apply State.onDev_keeps
    | with_reducible apply State.updPly_keeps
    | with_reducible apply State.updPort_keeps
    | with_reducible apply KeepsRes.next
    | with_reducible apply State.clocked_keeps
    | with_reducible apply Keeps.ite
    | split

theorem execPowerStateChange_keeps (q : Fin 4) (d3hot : Bool) (busMaster : Bool) (s : State) : KeepsRes wr s (execPowerStateChange q d3hot busMaster s) := by
  unfold execPowerStateChange
  have hk : Keeps wr s s := Keeps.refl s
  repeat' first
    | with_reducible assumption
    | intro _
    | with_reducible exact Keeps.refl _
    | with_reducible apply State.cfgWrite_keeps
    | with_reducible apply State.onDev_keeps
    | with_reducible apply State.updPly_keeps
    | with_reducible apply State.updPort_keeps
    | with_reducible apply KeepsRes.next
    | with_reducible apply State.clocked_keeps
    | with_reducible apply Keeps.ite
    | split

theorem State.releaseWake_keeps {s₀ : State} (s : State) (q : Fin 4) (hk : Keeps wr s₀ s) : Keeps wr s₀ (State.releaseWake s q) := by
  unfold State.releaseWake
  repeat' first
    | with_reducible assumption
    | intro _
    | with_reducible exact Keeps.refl _
    | with_reducible apply State.onDev_keeps
    | with_reducible apply State.updPly_keeps
    | with_reducible apply State.updPort_keeps
    | with_reducible apply Keeps.ite

theorem execLinkUp_keeps (q : Fin 4) (speed : Nat) (width : Nat) (s : State) : KeepsRes wr s (execLinkUp q speed width s) := by
  unfold execLinkUp
  have hk : Keeps wr s s := Keeps.refl s
  repeat' first
    | with_reducible assumption
    | intro _
    | with_reducible exact Keeps.refl _
    | with_reducible apply State.releaseWake_keeps
    | with_reducible apply State.onDev_keeps
    | with_reducible apply State.updPly_keeps
    | with_reducible apply State.updPort_keeps
    | with_reducible apply KeepsRes.next
    | with_reducible apply State.clocked_keeps
    | with_reducible apply Keeps.ite
    | split
    | dsimp only

theorem execPerstNRelease_keeps (q : Fin 4) (s : State) : KeepsRes wr s (execPerstNRelease q s) := by
  unfold execPerstNRelease
  have hk : Keeps wr s s := Keeps.refl s
  repeat' first
    | with_reducible assumption
    | intro _
    | with_reducible exact Keeps.refl _
    | with_reducible apply State.onDev_keeps
    | with_reducible apply State.updPly_keeps
    | with_reducible apply State.updPort_keeps
    | with_reducible apply KeepsRes.next

theorem execLinkL1Change_keeps (q : Fin 4) (enter : Bool) (s : State) : KeepsRes wr s (execLinkL1Change q enter s) := by
  unfold execLinkL1Change
  have hk : Keeps wr s s := Keeps.refl s
  repeat' first
    | with_reducible assumption
    | intro _
    | with_reducible exact Keeps.refl _
    | with_reducible apply State.releaseWake_keeps
    | with_reducible apply State.onDev_keeps
    | with_reducible apply State.updPly_keeps
    | with_reducible apply State.updPort_keeps
    | with_reducible apply KeepsRes.next
    | with_reducible apply State.clocked_keeps
    | with_reducible apply Keeps.ite
    | split

theorem execLtrMessage_keeps (q : Fin 4) (s : State) : KeepsRes wr s (execLtrMessage q s) := by
  unfold execLtrMessage
  have hk : Keeps wr s s := Keeps.refl s
  repeat' first
    | with_reducible assumption
    | intro _
    | with_reducible exact Keeps.refl _
    | with_reducible apply State.emit_keeps
    | with_reducible apply State.onDev_keeps
    | with_reducible apply State.updPly_keeps
    | with_reducible apply State.updPort_keeps
    | with_reducible apply KeepsRes.next
    | with_reducible apply State.clocked_keeps
    | with_reducible apply Keeps.ite
    | split
    | dsimp only

theorem execAspmIdleTimeout_keeps (q : Fin 4) (s : State) : KeepsRes wr s (execAspmIdleTimeout q s) := by
  unfold execAspmIdleTimeout
  have hk : Keeps wr s s := Keeps.refl s
  repeat' first
    | with_reducible assumption
    | intro _
    | with_reducible exact Keeps.refl _
    | with_reducible apply State.emit_keeps
    | with_reducible apply State.onDev_keeps
    | with_reducible apply State.updPly_keeps
    | with_reducible apply State.updPort_keeps
    | with_reducible apply KeepsRes.next
    | with_reducible apply State.clocked_keeps
    | with_reducible apply Keeps.ite
    | split
    | dsimp only

theorem execWakeNAssert_keeps (s : State) : KeepsRes wr s (execWakeNAssert s) := by
  unfold execWakeNAssert
  have hk : Keeps wr s s := Keeps.refl s
  repeat' first
    | with_reducible assumption
    | intro _
    | with_reducible exact Keeps.refl _
    | with_reducible apply State.emit_keeps
    | with_reducible apply State.onDev_keeps
    | with_reducible apply State.updPly_keeps
    | with_reducible apply State.updPort_keeps
    | with_reducible apply KeepsRes.next
    | with_reducible apply Keeps.ite
    | split
    | dsimp only

theorem execAtsInvalidate_keeps (q : Fin 4) (pasid : Nat) (first : Nat) (pages : Nat) (s : State) : KeepsRes wr s (execAtsInvalidate q pasid first pages s) := by
  unfold execAtsInvalidate
  have hk : Keeps wr s s := Keeps.refl s
  repeat' first
    | with_reducible assumption
    | intro _
    | with_reducible exact Keeps.refl _
    | with_reducible apply State.updPort_keeps
    | with_reducible apply State.clocked_keeps
    | with_reducible apply State.onDev_keeps
    | with_reducible apply State.updPly_keeps
    | with_reducible apply KeepsRes.next
    | with_reducible apply Keeps.ite
    | split
    | dsimp only
    | simp only [Keeps.mkDev_iff]

theorem execAtsInvalidateComplete_keeps (q : Fin 4) (s : State) : KeepsRes wr s (execAtsInvalidateComplete q s) := by
  unfold execAtsInvalidateComplete
  have hk : Keeps wr s s := Keeps.refl s
  repeat' first
    | with_reducible assumption
    | intro _
    | with_reducible exact Keeps.refl _
    | with_reducible apply State.emit_keeps
    | with_reducible apply State.onDev_keeps
    | with_reducible apply State.updPly_keeps
    | with_reducible apply State.updPort_keeps
    | with_reducible apply KeepsRes.next
    | with_reducible apply State.clocked_keeps
    | with_reducible apply Keeps.ite
    | split

theorem State.startPtm_keeps {s₀ : State} (s : State) (q : Fin 4) (hk : Keeps wr s₀ s) : Keeps wr s₀ (State.startPtm s q) := by
  unfold State.startPtm
  repeat' first
    | with_reducible assumption
    | intro _
    | with_reducible exact Keeps.refl _
    | with_reducible apply State.emit_keeps
    | with_reducible apply State.onDev_keeps
    | with_reducible apply State.updPly_keeps
    | with_reducible apply State.updPort_keeps
    | with_reducible apply Keeps.ite

theorem execPtmTimer_keeps (q : Fin 4) (s : State) : KeepsRes wr s (execPtmTimer q s) := by
  unfold execPtmTimer
  have hk : Keeps wr s s := Keeps.refl s
  repeat' first
    | with_reducible assumption
    | intro _
    | with_reducible exact Keeps.refl _
    | with_reducible apply State.startPtm_keeps
    | with_reducible apply State.onDev_keeps
    | with_reducible apply State.updPly_keeps
    | with_reducible apply State.updPort_keeps
    | with_reducible apply KeepsRes.next
    | with_reducible apply State.clocked_keeps
    | with_reducible apply Keeps.ite
    | split

theorem execPtmNow_keeps (q : Fin 4) (value : Word) (s : State) : KeepsRes wr s (execPtmNow q value s) := by
  unfold execPtmNow
  have hk : Keeps wr s s := Keeps.refl s
  repeat' first
    | with_reducible assumption
    | intro _
    | with_reducible exact Keeps.refl _
    | with_reducible apply State.startPtm_keeps
    | with_reducible apply State.onDev_keeps
    | with_reducible apply State.updPly_keeps
    | with_reducible apply State.updPort_keeps
    | with_reducible apply KeepsRes.next
    | with_reducible apply State.clocked_keeps
    | with_reducible apply Keeps.ite
    | split

theorem execPtmResponse_keeps (q : Fin 4) (t2 : Nat) (d : Nat) (s : State) : KeepsRes wr s (execPtmResponse q t2 d s) := by
  unfold execPtmResponse
  have hk : Keeps wr s s := Keeps.refl s
  repeat' first
    | with_reducible assumption
    | intro _
    | with_reducible exact Keeps.refl _
    | with_reducible apply State.onDev_keeps
    | with_reducible apply State.updPly_keeps
    | with_reducible apply State.updPort_keeps
    | with_reducible apply KeepsRes.next
    | with_reducible apply State.clocked_keeps
    | with_reducible apply Keeps.ite
    | split

theorem State.dropReads_keeps {s₀ : State} (s : State) (q : Fin 4) (hk : Keeps wr s₀ s) : Keeps wr s₀ (State.dropReads s q) := by
  unfold State.dropReads
  repeat' first
    | with_reducible assumption
    | intro _
    | with_reducible exact Keeps.refl _
    | with_reducible apply State.endRead_keeps
    | with_reducible apply State.onDev_keeps
    | with_reducible apply State.updPly_keeps
    | with_reducible apply State.updPort_keeps
    | with_reducible apply State.each_keeps
    | with_reducible apply Keeps.foldl
    | with_reducible apply State.give_keeps

theorem State.linkDown_keeps {s₀ : State} (s : State) (q : Fin 4) (c : DownCause) (up : Bool) (hk : Keeps wr s₀ s) : Keeps wr s₀ (State.linkDown s q c up) := by
  unfold State.linkDown
  repeat' first
    | with_reducible assumption
    | intro _
    | with_reducible exact Keeps.refl _
    | with_reducible apply State.each_keeps
    | with_reducible apply State.onDev_keeps
    | with_reducible apply State.updPort_keeps
    | with_reducible apply State.postManager_keeps
    | with_reducible apply State.cocoon_keeps
    | with_reducible apply State.orphan_keeps
    | with_reducible apply State.dropReads_keeps
    | with_reducible apply State.updPly_keeps
    | (with_reducible refine Keeps.mkTake _ (by assumption) ?_)
    | with_reducible apply Keeps.ite
    | split
    | dsimp only
    | simp only [Keeps.mkDev_iff]

theorem State.recogniseDown_keeps {s₀ : State} (s : State) (q : Fin 4) (c : DownCause) (up : Bool) (hk : Keeps wr s₀ s) : Keeps wr s₀ (State.recogniseDown s q c up) := by
  unfold State.recogniseDown
  repeat' first
    | with_reducible assumption
    | intro _
    | with_reducible exact Keeps.refl _
    | with_reducible apply State.linkDown_keeps
    | with_reducible apply State.onDev_keeps
    | with_reducible apply State.updPly_keeps
    | with_reducible apply State.updPort_keeps
    | with_reducible apply Keeps.ite

theorem execPerstNAssert_keeps (q : Fin 4) (s : State) : KeepsRes wr s (execPerstNAssert q s) := by
  unfold execPerstNAssert
  have hk : Keeps wr s s := Keeps.refl s
  repeat' first
    | with_reducible assumption
    | intro _
    | with_reducible exact Keeps.refl _
    | with_reducible apply State.recogniseDown_keeps
    | with_reducible apply State.onDev_keeps
    | with_reducible apply State.updPly_keeps
    | with_reducible apply State.updPort_keeps
    | with_reducible apply KeepsRes.next
    | with_reducible apply Keeps.ite
    | split
    | dsimp only

theorem execHotReset_keeps (q : Fin 4) (s : State) : KeepsRes wr s (execHotReset q s) := by
  unfold execHotReset
  have hk : Keeps wr s s := Keeps.refl s
  repeat' first
    | with_reducible assumption
    | intro _
    | with_reducible exact Keeps.refl _
    | with_reducible apply State.recogniseDown_keeps
    | with_reducible apply State.onDev_keeps
    | with_reducible apply State.updPly_keeps
    | with_reducible apply State.updPort_keeps
    | with_reducible apply KeepsRes.next
    | with_reducible apply State.clocked_keeps

theorem execFlr_keeps (q : Fin 4) (dlPending : Bool) (s : State) : KeepsRes wr s (execFlr q dlPending s) := by
  unfold execFlr
  have hk : Keeps wr s s := Keeps.refl s
  repeat' first
    | with_reducible assumption
    | intro _
    | with_reducible exact Keeps.refl _
    | with_reducible apply State.recogniseDown_keeps
    | with_reducible apply State.onDev_keeps
    | with_reducible apply State.updPly_keeps
    | with_reducible apply State.updPort_keeps
    | with_reducible apply KeepsRes.next
    | with_reducible apply State.clocked_keeps

theorem execDlDownDetect_keeps (q : Fin 4) (s : State) : KeepsRes wr s (execDlDownDetect q s) := by
  unfold execDlDownDetect
  have hk : Keeps wr s s := Keeps.refl s
  repeat' first
    | with_reducible assumption
    | intro _
    | with_reducible exact Keeps.refl _
    | with_reducible apply State.recogniseDown_keeps
    | with_reducible apply State.onDev_keeps
    | with_reducible apply State.updPly_keeps
    | with_reducible apply State.updPort_keeps
    | with_reducible apply KeepsRes.next
    | with_reducible apply State.clocked_keeps

end Sys2Proof.Machine
end

