-- ==== Sys2Proof/Laws/Selftest.lean ====
section
/-! SUPPORT. Laws/Selftest.lean: the operations and commands of Machine/Selftest.lean keep the queue, the canonical form of DRAM and the credits. -/
namespace Sys2Proof.Machine
variable {wr : Bool}

theorem State.selftestFail_keeps {s₀ : State} (s : State) (unit : Nat) (kind : Nat) (hk : Keeps wr s₀ s) : Keeps wr s₀ (State.selftestFail s unit kind) := by
  unfold State.selftestFail
  repeat' first
    | with_reducible assumption
    | intro _
    | with_reducible exact Keeps.refl _
    | with_reducible apply State.postManager_keeps

theorem State.ledgerBreach_keeps {s₀ : State} (s : State) (acct : Nat) (delta : Int) (hk : Keeps wr s₀ s) : Keeps wr s₀ (State.ledgerBreach s acct delta) := by
  unfold State.ledgerBreach
  repeat' first
    | with_reducible assumption
    | intro _
    | with_reducible exact Keeps.refl _
    | with_reducible apply State.postPly_keeps
    | with_reducible apply State.postManager_keeps
    | with_reducible apply State.cocoon_keeps
    | with_reducible apply State.onDev_keeps
    | with_reducible apply State.updPly_keeps
    | with_reducible apply State.updPort_keeps
    | with_reducible apply State.each_keeps

theorem State.moultResult_keeps {s₀ : State} (s : State) (fails : Nat) (startup : Bool) (todo : List Nat) (hk : Keeps wr s₀ s) : Keeps wr s₀ (State.moultResult s fails startup todo) := by
  unfold State.moultResult
  repeat' first
    | with_reducible assumption
    | intro _
    | with_reducible exact Keeps.refl _
    | with_reducible apply State.cocoon_keeps
    | with_reducible apply State.onDev_keeps

theorem State.toReport_keeps {s₀ : State} (s : State) (us : List Nat) (hk : Keeps wr s₀ s) : Keeps wr s₀ (State.toReport s us) := by
  unfold State.toReport
  repeat' first
    | with_reducible assumption
    | intro _
    | with_reducible exact Keeps.refl _
    | with_reducible apply State.report_keeps
    | with_reducible apply State.onDev_keeps

theorem State.startTest_keeps {s₀ : State} (s : State) (fails : Nat) (hk : Keeps wr s₀ s) : Keeps wr s₀ (State.startTest s fails) := by
  unfold State.startTest
  repeat' first
    | with_reducible assumption
    | intro _
    | with_reducible exact Keeps.refl _
    | with_reducible apply State.moultResult_keeps
    | with_reducible apply State.toReport_keeps
    | with_reducible apply State.onDev_keeps
    | with_reducible apply State.updPly_keeps
    | with_reducible apply State.updPort_keeps
    | with_reducible apply Keeps.ite
    | split
    | dsimp only

theorem State.reportTest_keeps {s₀ : State} (s : State) (hk : Keeps wr s₀ s) : Keeps wr s₀ (State.reportTest s) := by
  unfold State.reportTest
  repeat' first
    | with_reducible assumption
    | intro _
    | with_reducible exact Keeps.refl _
    | with_reducible apply State.report_keeps
    | with_reducible apply State.selftestFail_keeps
    | with_reducible apply State.onDev_keeps
    | with_reducible apply State.updPly_keeps
    | with_reducible apply State.updPort_keeps
    | with_reducible apply State.each_keeps

theorem State.runDeferred_keeps {s₀ : State} (s : State) (islands : List Nat) (fails : Nat) (hk : Keeps wr s₀ s) : Keeps wr s₀ (State.runDeferred s islands fails) := by
  unfold State.runDeferred
  repeat' first
    | with_reducible assumption
    | intro _
    | with_reducible exact Keeps.refl _
    | with_reducible apply State.cocoon_keeps
    | with_reducible apply State.selftestFail_keeps
    | with_reducible apply State.onDev_keeps
    | with_reducible apply State.updPly_keeps
    | with_reducible apply State.updPort_keeps
    | with_reducible apply Keeps.ite
    | split

theorem State.sliceFails_keeps {s₀ : State} (s : State) (u : Nat) (breach : Option (Nat × Int)) (hk : Keeps wr s₀ s) : Keeps wr s₀ (State.sliceFails s u breach) := by
  unfold State.sliceFails
  repeat' first
    | with_reducible assumption
    | intro _
    | with_reducible exact Keeps.refl _
    | with_reducible apply State.tick_keeps
    | with_reducible apply State.cocoon_keeps
    | with_reducible apply State.selftestFail_keeps
    | with_reducible apply State.ledgerBreach_keeps
    | with_reducible apply State.onDev_keeps
    | with_reducible apply State.updPly_keeps
    | with_reducible apply State.updPort_keeps
    | with_reducible apply State.each_keeps
    | with_reducible apply Keeps.getD
    | with_reducible apply State.give_keeps
    | with_reducible apply State.giveAll_keeps
    | with_reducible apply State.noteBreach_keeps
    | with_reducible apply Keeps.ite
    | split

theorem execSelftestSlice_keeps (u : Nat) (fail : Bool) (s : State) : KeepsRes wr s (execSelftestSlice u fail s) := by
  unfold execSelftestSlice
  have hk : Keeps wr s s := Keeps.refl s
  repeat' first
    | with_reducible assumption
    | intro _
    | with_reducible exact Keeps.refl _
    | with_reducible apply State.onDev_keeps
    | with_reducible apply State.clocked_keeps
    | with_reducible apply State.sliceFails_keeps
    | with_reducible apply State.updPly_keeps
    | with_reducible apply State.updPort_keeps
    | with_reducible apply State.each_keeps
    | (with_reducible refine Keeps.mkTake _ (by assumption) ?_)
    | with_reducible apply KeepsRes.next
    | with_reducible apply Keeps.ite
    | split
    | dsimp only
    | simp only [Keeps.mkDev_iff]

theorem execSelftestPassLate_keeps (u : Nat) (s : State) : KeepsRes wr s (execSelftestPassLate u s) := by
  unfold execSelftestPassLate
  have hk : Keeps wr s s := Keeps.refl s
  repeat' first
    | with_reducible assumption
    | intro _
    | with_reducible exact Keeps.refl _
    | with_reducible apply State.selftestFail_keeps
    | with_reducible apply State.onDev_keeps
    | with_reducible apply State.updPly_keeps
    | with_reducible apply State.updPort_keeps
    | with_reducible apply KeepsRes.next
    | with_reducible apply State.clocked_keeps
    | with_reducible apply Keeps.ite
    | split

theorem execOpsecSecond_keeps (s : State) : KeepsRes wr s (execOpsecSecond s) := by
  unfold execOpsecSecond
  have hk : Keeps wr s s := Keeps.refl s
  repeat' first
    | with_reducible assumption
    | intro _
    | with_reducible exact Keeps.refl _
    | with_reducible apply State.onDev_keeps
    | with_reducible apply State.updPly_keeps
    | with_reducible apply State.updPort_keeps
    | with_reducible apply KeepsRes.next
    | with_reducible apply State.clocked_keeps
    | with_reducible apply Keeps.ite
    | split
    | dsimp only

end Sys2Proof.Machine
end

