-- ==== Sys2Proof/Laws/Boot.lean ====
section
/-! SUPPORT. Laws/Boot.lean: the operations and commands of Machine/Boot.lean keep the queue, the canonical form of DRAM and the credits. -/
namespace Sys2Proof.Machine
variable {wr : Bool}

theorem State.applyHead_keeps {s₀ : State} (s : State) (pol : Policy) (h : Fin 8) (hk : Keeps wr s₀ s) : Keeps wr s₀ (State.applyHead s pol h) := by
  unfold State.applyHead
  repeat' first
    | with_reducible assumption
    | intro _
    | with_reducible exact Keeps.refl _
    | with_reducible apply State.enableHead_keeps
    | with_reducible apply State.onDev_keeps
    | with_reducible apply State.updHead_keeps
    | with_reducible apply State.updPly_keeps
    | with_reducible apply State.updPort_keeps
    | with_reducible apply Keeps.foldl
    | with_reducible apply Keeps.ite
    | split
    | dsimp only
    | simp only [Keeps.mkDev_iff]

theorem State.placeAssets_keeps {s₀ : State} (s : State) (c : Container) (hk : Keeps true s₀ s) : Keeps true s₀ (State.placeAssets s c) := by
  unfold State.placeAssets
  repeat' first
    | with_reducible assumption
    | intro _
    | with_reducible exact Keeps.refl _
    | with_reducible apply State.onDev_keeps
    | with_reducible apply State.updPly_keeps
    | with_reducible apply State.updPort_keeps
    | with_reducible apply Keeps.foldl
    | with_reducible apply Keeps.mkWriteN

theorem State.startFirmware_keeps {s₀ : State} (s : State) (c : Container) (hk : Keeps true s₀ s) : Keeps true s₀ (s.startFirmware c) := by
  unfold State.startFirmware
  extract_lets pol s₁ s₂ s₃ s₄
  have h₁ : Keeps true s₀ s₁ := State.onDev_keeps _ _ hk
  have h₂ : Keeps true s₀ s₂ := h₁.mkSkein _ _ fun hc => Skein.setAcct_conserves .bin hc (Account.fresh_conserves _ _ _ _)
  have h₄ : Keeps true s₀ s₄ := State.onDev_keeps _ _ (State.placeAssets_keeps _ _ h₂)
  exact State.reportTest_keeps _ (State.each_keeps _ _ _ h₄ fun _ _ h => State.applyHead_keeps _ _ _ h)

theorem State.bootFrom_keeps {s₀ : State} (s : State) (c : Container) (part : Fin 2) (gen : Nat) (hk : Keeps true s₀ s) : Keeps true s₀ (State.bootFrom s c part gen) := by
  unfold State.bootFrom
  repeat' first
    | with_reducible assumption
    | intro _
    | with_reducible exact Keeps.refl _
    | with_reducible apply State.give_keeps
    | with_reducible apply State.giveAll_keeps
    | with_reducible apply State.onDev_keeps
    | with_reducible apply State.cocoon_keeps
    | with_reducible apply State.startFirmware_keeps
    | with_reducible apply State.updPly_keeps
    | with_reducible apply State.updPort_keeps
    | with_reducible apply State.trainMem_keeps
    | with_reducible apply State.onSkein_keeps
    | with_reducible apply Keeps.ite
    | split
    | dsimp only
    | simp only [Keeps.mkDev_iff]

theorem State.bootRom_keeps {s₀ : State} (s : State) (hk : Keeps true s₀ s) : Keeps true s₀ (State.bootRom s) := by
  unfold State.bootRom
  repeat' first
    | with_reducible assumption
    | intro _
    | with_reducible exact Keeps.refl _
    | with_reducible apply State.onDev_keeps
    | with_reducible apply State.bootFrom_keeps
    | with_reducible apply State.updPly_keeps
    | with_reducible apply State.updPort_keeps
    | with_reducible apply Keeps.ite
    | split
    | dsimp only
    | simp only [Keeps.mkDev_iff]

theorem State.resetTo_keeps {s₀ : State} (s : State) (power : Power) (ely : Ely) (bist : Bist) (ccn : Ccn) (touch : Touch) (regs : List (Nat × Word))
    (hk : Keeps wr s₀ s) : Keeps wr s₀ (s.resetTo power ely bist ccn touch regs) :=
  hk.mkSkein _ _ fun _ => Skein.reset_conserves _

theorem State.coldReset_keeps {s₀ : State} (s : State) (cause : Nat) (vaonOk : Bool) (tripped : Bool) (tripSeen : Bool) (hk : Keeps true s₀ s) : Keeps true s₀ (State.coldReset s cause vaonOk tripped tripSeen) := by
  unfold State.coldReset
  repeat' first
    | with_reducible assumption
    | intro _
    | with_reducible exact Keeps.refl _
    | with_reducible apply State.resetTo_keeps
    | with_reducible apply State.onDev_keeps
    | with_reducible apply State.updPly_keeps
    | with_reducible apply State.updPort_keeps
    | with_reducible apply Keeps.mkLose

theorem execVaonReset_keeps (s : State) : KeepsRes true s (execVaonReset s) := by
  unfold execVaonReset
  have hk : Keeps true s s := Keeps.refl s
  repeat' first
    | with_reducible assumption
    | intro _
    | with_reducible exact Keeps.refl _
    | with_reducible apply State.coldReset_keeps
    | with_reducible apply State.onDev_keeps
    | with_reducible apply State.updPly_keeps
    | with_reducible apply State.updPort_keeps
    | with_reducible apply KeepsRes.next

theorem execPwronRstNAssert_keeps (s : State) : KeepsRes true s (execPwronRstNAssert s) := by
  unfold execPwronRstNAssert
  have hk : Keeps true s s := Keeps.refl s
  repeat' first
    | with_reducible assumption
    | intro _
    | with_reducible exact Keeps.refl _
    | with_reducible apply State.coldReset_keeps
    | with_reducible apply State.onDev_keeps
    | with_reducible apply State.updPly_keeps
    | with_reducible apply State.updPort_keeps
    | with_reducible apply KeepsRes.next

theorem execVaonApply_keeps (s : State) : KeepsRes wr s (execVaonApply s) := by
  unfold execVaonApply
  have hk : Keeps wr s s := Keeps.refl s
  repeat' first
    | with_reducible assumption
    | intro _
    | with_reducible exact Keeps.refl _
    | with_reducible apply State.onDev_keeps
    | with_reducible apply State.updPly_keeps
    | with_reducible apply State.updPort_keeps
    | with_reducible apply KeepsRes.next
    | with_reducible apply Keeps.ite
    | split

theorem execThermtrip_keeps (s : State) : KeepsRes true s (execThermtrip s) := by
  unfold execThermtrip
  have hk : Keeps true s s := Keeps.refl s
  repeat' first
    | with_reducible assumption
    | intro _
    | with_reducible exact Keeps.refl _
    | with_reducible apply State.cocoon_keeps
    | with_reducible apply State.resetTo_keeps
    | with_reducible apply State.onDev_keeps
    | with_reducible apply State.updPly_keeps
    | with_reducible apply State.updPort_keeps
    | with_reducible apply Keeps.mkLose
    | with_reducible apply KeepsRes.next
    | with_reducible apply Keeps.ite
    | split

theorem execBoot_keeps (b : BootIn) (s : State) : KeepsRes true s (execBoot b s) := by
  unfold execBoot
  have hk : Keeps true s s := Keeps.refl s
  repeat' first
    | with_reducible assumption
    | intro _
    | with_reducible exact Keeps.refl _
    | with_reducible apply State.startTest_keeps
    | with_reducible apply State.onDev_keeps
    | with_reducible apply State.bootRom_keeps
    | with_reducible apply State.updPly_keeps
    | with_reducible apply State.updPort_keeps
    | with_reducible apply Keeps.getD
    | with_reducible apply KeepsRes.next
    | with_reducible apply Keeps.ite
    | split
    | dsimp only
    | simp only [Keeps.mkDev_iff]

theorem execContainerLoad_keeps (order : Nat) (c : Option Container) (s : State) : KeepsRes true s (execContainerLoad order c s) := by
  unfold execContainerLoad
  have hk : Keeps true s s := Keeps.refl s
  repeat' first
    | with_reducible assumption
    | intro _
    | with_reducible exact Keeps.refl _
    | with_reducible apply State.clocked_keeps
    | with_reducible apply State.fetchBuffer_keeps
    | with_reducible apply State.answer_keeps
    | with_reducible apply State.bootFrom_keeps
    | with_reducible apply State.onDev_keeps
    | with_reducible apply State.updPly_keeps
    | with_reducible apply State.updPort_keeps
    | with_reducible apply KeepsRes.next
    | with_reducible apply Keeps.ite
    | split
    | dsimp only
    | simp only [Keeps.mkDev_iff]

theorem execWarmReset_keeps (s : State) : KeepsRes true s (execWarmReset s) := by
  unfold execWarmReset
  have hk : Keeps true s s := Keeps.refl s
  repeat' first
    | with_reducible assumption
    | intro _
    | with_reducible exact Keeps.refl _
    | with_reducible apply State.each_keeps
    | with_reducible apply State.clocked_keeps
    | with_reducible apply State.linkDown_keeps
    | with_reducible apply State.bootRom_keeps
    | with_reducible apply State.resetTo_keeps
    | with_reducible apply State.onDev_keeps
    | with_reducible apply State.updPly_keeps
    | with_reducible apply State.updPort_keeps
    | with_reducible apply KeepsRes.next
    | with_reducible apply Keeps.ite
    | split
    | dsimp only
    | simp only [Keeps.mkDev_iff]

theorem execWatchExit_keeps (b : BootIn) (s : State) : KeepsRes true s (execWatchExit b s) := by
  unfold execWatchExit
  have hk : Keeps true s s := Keeps.refl s
  repeat' first
    | with_reducible assumption
    | intro _
    | with_reducible exact Keeps.refl _
    | with_reducible apply State.startTest_keeps
    | with_reducible apply State.each_keeps
    | with_reducible apply State.updPort_keeps
    | with_reducible apply State.bootRom_keeps
    | with_reducible apply State.resetTo_keeps
    | with_reducible apply State.onDev_keeps
    | with_reducible apply State.updPly_keeps
    | with_reducible apply Keeps.mkLose
    | with_reducible apply KeepsRes.next
    | with_reducible apply Keeps.ite
    | split
    | dsimp only
    | simp only [Keeps.mkDev_iff]

end Sys2Proof.Machine
end

