-- ==== Sys2Proof/Laws/Dispatch.lean ====
section
/-! SUPPORT. Laws/Dispatch.lean: each command runs its meaning. -/
namespace Sys2Proof.Machine
open Sys2Proof

@[simp] theorem exec_registerWrite (q : Fin 4) (bar2 : Bool) (off : Nat) (value : Word) (s : State) : exec (.registerWrite q bar2 off value) s = execRegisterWrite q bar2 off value s := rfl
@[simp] theorem exec_configRequest (q : Fin 4) (off : Nat) (write : Option Word) (s : State) : exec (.configRequest q off write) s = execConfigRequest q off write s := rfl
@[simp] theorem exec_epochBoundary (io : AudioIn) (s : State) : exec (.epochBoundary io) s = execEpochBoundary io s := rfl
@[simp] theorem exec_sknAuditRelease (q : Fin 4) (s : State) : exec (.sknAuditRelease q) s = execSknAuditRelease q s := rfl
@[simp] theorem exec_sknAuditEpochLoRead (q : PairRead) (s : State) : exec (.sknAuditEpochLoRead q) s = execSknAuditEpochLoRead q s := rfl
@[simp] theorem exec_creditWaitRetry (i : Nat) (s : State) : exec (.creditWaitRetry i) s = execCreditWaitRetry i s := rfl
@[simp] theorem exec_hapRecharge (s : State) : exec (.hapRecharge) s = execHapRecharge s := rfl
@[simp] theorem exec_hostReadCompletion (i : Nat) (s : State) : exec (.hostReadCompletion i) s = execHostReadCompletion i s := rfl
@[simp] theorem exec_htagCompletionTimeout (i : Nat) (poll : Option (Fin 64)) (s : State) : exec (.htagCompletionTimeout i poll) s = execHtagCompletionTimeout i poll s := rfl
@[simp] theorem exec_iommuRefusal (p : Fin 64) (addr : Nat) (access : RefusedAccess) (read : Option Nat) (s : State) : exec (.iommuRefusal p addr access read) s = execIommuRefusal p addr access read s := rfl
@[simp] theorem exec_nudgeSq (q : Fin 4) (p : Fin 64) (mask : Fin 16) (s : State) : exec (.nudgeSq q p mask) s = execNudgeSq q p mask s := rfl
@[simp] theorem exec_nudgeCq (q : Fin 4) (p : Fin 64) (s : State) : exec (.nudgeCq q p) s = execNudgeCq q p s := rfl
@[simp] theorem exec_ringEnable (q : Fin 4) (p : Fin 64) (ring : Fin 5) (value : Word) (s : State) : exec (.ringEnable q p ring value) s = execRingEnable q p ring value s := rfl
@[simp] theorem exec_ringDisable (q : Fin 4) (p : Fin 64) (r : Fin 4) (s : State) : exec (.ringDisable q p r) s = execRingDisable q p r s := rfl
@[simp] theorem exec_cqDisable (q : Fin 4) (p : Fin 64) (s : State) : exec (.cqDisable q p) s = execCqDisable q p s := rfl
@[simp] theorem exec_fenceValLoWrite (q : Fin 4) (p : Fin 64) (value : Word) (s : State) : exec (.fenceValLoWrite q p value) s = execFenceValLoWrite q p value s := rfl
@[simp] theorem exec_fenceValHiWrite (q : Fin 4) (p : Fin 64) (value : Word) (s : State) : exec (.fenceValHiWrite q p value) s = execFenceValHiWrite q p value s := rfl
@[simp] theorem exec_fenceValLoRead (q : Fin 4) (p : Fin 64) (s : State) : exec (.fenceValLoRead q p) s = execFenceValLoRead q p s := rfl
@[simp] theorem exec_ringServiceResume (p : Fin 64) (r : Fin 4) (s : State) : exec (.ringServiceResume p r) s = execRingServiceResume p r s := rfl
@[simp] theorem exec_doorbellRecordReadDone (p : Fin 64) (r : Fin 4) (prod : Word) (s : State) : exec (.doorbellRecordReadDone p r prod) s = execDoorbellRecordReadDone p r prod s := rfl
@[simp] theorem exec_slotReadDone (p : Fin 64) (r : Fin 4) (slots : List (List Byte)) (s : State) : exec (.slotReadDone p r slots) s = execSlotReadDone p r slots s := rfl
@[simp] theorem exec_pollTimer (p : Fin 64) (s : State) : exec (.pollTimer p) s = execPollTimer p s := rfl
@[simp] theorem exec_pollReadsDone (p : Fin 64) (block : List Byte) (slots : Vector (List (List Byte)) 4) (s : State) : exec (.pollReadsDone p block slots) s = execPollReadsDone p block slots s := rfl
@[simp] theorem exec_descriptorParse (p : Fin 64) (r : Fin 4) (s : State) : exec (.descriptorParse p r) s = execDescriptorParse p r s := rfl
@[simp] theorem exec_cqConsReadDone (p : Fin 64) (cons : Word) (s : State) : exec (.cqConsReadDone p cons) s = execCqConsReadDone p cons s := rfl
@[simp] theorem exec_fenceWaitTimeout (p : Fin 64) (r : Fin 4) (s : State) : exec (.fenceWaitTimeout p r) s = execFenceWaitTimeout p r s := rfl
@[simp] theorem exec_descriptorRetire (p : Fin 64) (r : Fin 4) (seq : Word) (s : State) : exec (.descriptorRetire p r seq) s = execDescriptorRetire p r seq s := rfl
@[simp] theorem exec_portEvtData7Read (q : Fin 4) (s : State) : exec (.portEvtData7Read q) s = execPortEvtData7Read q s := rfl
@[simp] theorem exec_portEvtStatusRead (q : Fin 4) (s : State) : exec (.portEvtStatusRead q) s = execPortEvtStatusRead q s := rfl
@[simp] theorem exec_nop (p : Fin 64) (r : Fin 4) (s : State) : exec (.nop p r) s = execNop p r s := rfl
@[simp] theorem exec_fenceWait (p : Fin 64) (r : Fin 4) (s : State) : exec (.fenceWait p r) s = execFenceWait p r s := rfl
@[simp] theorem exec_fenceSignal (p : Fin 64) (r : Fin 4) (s : State) : exec (.fenceSignal p r) s = execFenceSignal p r s := rfl
@[simp] theorem exec_copy (p : Fin 64) (r : Fin 4) (seq : Word) (n : Nat) (host : List Byte) (s : State) : exec (.copy p r seq n host) s = execCopy p r seq n host s := rfl
@[simp] theorem exec_fill (p : Fin 64) (r : Fin 4) (seq : Word) (n : Nat) (s : State) : exec (.fill p r seq n) s = execFill p r seq n s := rfl
@[simp] theorem exec_check (p : Fin 64) (r : Fin 4) (seq : Word) (n : Nat) (host : List Byte) (s : State) : exec (.check p r seq n host) s = execCheck p r seq n host s := rfl
@[simp] theorem exec_commit (p : Fin 64) (r : Fin 4) (s : State) : exec (.commit p r) s = execCommit p r s := rfl
@[simp] theorem exec_layer (p : Fin 64) (r : Fin 4) (s : State) : exec (.layer p r) s = execLayer p r s := rfl
@[simp] theorem exec_sigExpect (p : Fin 64) (r : Fin 4) (missed : Bool) (s : State) : exec (.sigExpect p r missed) s = execSigExpect p r missed s := rfl
@[simp] theorem exec_gfxSubmit (p : Fin 64) (r : Fin 4) (s : State) : exec (.gfxSubmit p r) s = execGfxSubmit p r s := rfl
@[simp] theorem exec_computeSubmit (p : Fin 64) (r : Fin 4) (s : State) : exec (.computeSubmit p r) s = execComputeSubmit p r s := rfl
@[simp] theorem exec_audOpen (p : Fin 64) (r : Fin 4) (s : State) : exec (.audOpen p r) s = execAudOpen p r s := rfl
@[simp] theorem exec_audClose (p : Fin 64) (r : Fin 4) (s : State) : exec (.audClose p r) s = execAudClose p r s := rfl
@[simp] theorem exec_audBuffer (p : Fin 64) (r : Fin 4) (s : State) : exec (.audBuffer p r) s = execAudBuffer p r s := rfl
@[simp] theorem exec_chime (p : Fin 64) (r : Fin 4) (s : State) : exec (.chime p r) s = execChime p r s := rfl
@[simp] theorem exec_chimeStop (p : Fin 64) (r : Fin 4) (s : State) : exec (.chimeStop p r) s = execChimeStop p r s := rfl
@[simp] theorem exec_hapPlay (p : Fin 64) (r : Fin 4) (s : State) : exec (.hapPlay p r) s = execHapPlay p r s := rfl
@[simp] theorem exec_hapLoad (p : Fin 64) (r : Fin 4) (s : State) : exec (.hapLoad p r) s = execHapLoad p r s := rfl
@[simp] theorem exec_tchConfig (p : Fin 64) (r : Fin 4) (s : State) : exec (.tchConfig p r) s = execTchConfig p r s := rfl
@[simp] theorem exec_mapPages (p : Fin 64) (r : Fin 4) (s : State) : exec (.mapPages p r) s = execMap p r s := rfl
@[simp] theorem exec_unmapPages (p : Fin 64) (r : Fin 4) (s : State) : exec (.unmapPages p r) s = execUnmap p r s := rfl
@[simp] theorem exec_plyCreate (order : Nat) (block : Option (List Byte)) (s : State) : exec (.plyCreate order block) s = execPlyCreate order block s := rfl
@[simp] theorem exec_plyShare (order : Nat) (s : State) : exec (.plyShare order) s = execPlyShare order s := rfl
@[simp] theorem exec_plyQuiesce (order : Nat) (s : State) : exec (.plyQuiesce order) s = execPlyQuiesce order s := rfl
@[simp] theorem exec_plyResume (order : Nat) (s : State) : exec (.plyResume order) s = execPlyResume order s := rfl
@[simp] theorem exec_plyReset (order : Nat) (s : State) : exec (.plyReset order) s = execPlyReset order s := rfl
@[simp] theorem exec_plyDestroy (order : Nat) (s : State) : exec (.plyDestroy order) s = execPlyDestroy order s := rfl
@[simp] theorem exec_plyQuery (order : Nat) (s : State) : exec (.plyQuery order) s = execPlyQuery order s := rfl
@[simp] theorem exec_plyQuiesced (p : Fin 64) (s : State) : exec (.plyQuiesced p) s = execPlyQuiesced p s := rfl
@[simp] theorem exec_copyStop (p : Fin 64) (r : Fin 4) (seq : Word) (host : List Byte) (s : State) : exec (.copyStop p r seq host) s = execCopyStop p r seq host s := rfl
@[simp] theorem exec_migSession (order : Nat) (relay : Relay) (measures : Option (List (List Byte))) (agreed : Bool) (s : State) : exec (.migSession order relay measures agreed) s = execMigSession order relay measures agreed s := rfl
@[simp] theorem exec_migLogStart (order : Nat) (block : Option (List Byte)) (s : State) : exec (.migLogStart order block) s = execMigLogStart order block s := rfl
@[simp] theorem exec_migLogSwap (order : Nat) (s : State) : exec (.migLogSwap order) s = execMigLogSwap order s := rfl
@[simp] theorem exec_migLogStop (order : Nat) (s : State) : exec (.migLogStop order) s = execMigLogStop order s := rfl
@[simp] theorem exec_migExport (order salt : Nat) (s : State) : exec (.migExport order salt) s = execMigExport order salt s := rfl
@[simp] theorem exec_migImport (order : Nat) (records : Option (List MigRecord)) (s : State) : exec (.migImport order records) s = execMigImport order records s := rfl
@[simp] theorem exec_timingArm (q : Fin 4) (h : Fin 8) (s : State) : exec (.timingArm q h) s = execTimingArm q h s := rfl
@[simp] theorem exec_hdFrameLoRead (q : PairRead) (h : Fin 8) (s : State) : exec (.hdFrameLoRead q h) s = execHdFrameLoRead q h s := rfl
@[simp] theorem exec_armingCutoff (h : Fin 8) (s : State) : exec (.armingCutoff h) s = execArmingCutoff h s := rfl
@[simp] theorem exec_frameBoundary (h : Fin 8) (ref : Option Int) (s : State) : exec (.frameBoundary h ref) s = execFrameBoundary h ref s := rfl
@[simp] theorem exec_commitArm (p : Fin 64) (r : Fin 4) (s : State) : exec (.commitArm p r) s = execCommitArm p r s := rfl
@[simp] theorem exec_pllLock (h : Fin 8) (s : State) : exec (.pllLock h) s = execPllLock h s := rfl
@[simp] theorem exec_idleFrameEnd (h : Fin 8) (same : Bool) (s : State) : exec (.idleFrameEnd h same) s = execIdleFrameEnd h same s := rfl
@[simp] theorem exec_linkTrainStart (h : Fin 8) (caps : SinkCaps) (s : State) : exec (.linkTrainStart h caps) s = execLinkTrainStart h caps s := rfl
@[simp] theorem exec_trainAttemptDone (h : Fin 8) (ok : Bool) (s : State) : exec (.trainAttemptDone h ok) s = execTrainAttemptDone h ok s := rfl
@[simp] theorem exec_trainAttemptTimeout (h : Fin 8) (s : State) : exec (.trainAttemptTimeout h) s = execTrainAttemptTimeout h s := rfl
@[simp] theorem exec_dpHotplugPlug (h : Fin 8) (s : State) : exec (.dpHotplugPlug h) s = execDpHotplugPlug h s := rfl
@[simp] theorem exec_dpHotplugUnplug (h : Fin 8) (s : State) : exec (.dpHotplugUnplug h) s = execDpHotplugUnplug h s := rfl
@[simp] theorem exec_dpHotplugIrq (h : Fin 8) (lostLock : Bool) (s : State) : exec (.dpHotplugIrq h lostLock) s = execDpHotplugIrq h lostLock s := rfl
@[simp] theorem exec_headTolReport (h : Fin 8) (held : List (Nat × Nat)) (s : State) : exec (.headTolReport h held) s = execHeadTolReport h held s := rfl
@[simp] theorem exec_headTopupAck (h : Fin 8) (s : State) : exec (.headTopupAck h) s = execHeadTopupAck h s := rfl
@[simp] theorem exec_underrun (h : Fin 8) (handle : Fin 64) (line col : Nat) (s : State) : exec (.underrun h handle line col) s = execUnderrun h handle line col s := rfl
@[simp] theorem exec_fbselRelease (q : Fin 4) (s : State) : exec (.fbselRelease q) s = execFbselRelease q s := rfl
@[simp] theorem exec_cmpLutDataWrite (q : Fin 4) (value : Word) (s : State) : exec (.cmpLutDataWrite q value) s = execCmpLutDataWrite q value s := rfl
@[simp] theorem exec_cmpLutDataRead (q : Fin 4) (s : State) : exec (.cmpLutDataRead q) s = execCmpLutDataRead q s := rfl
@[simp] theorem exec_tenApply (order : Nat) (s : State) : exec (.tenApply order) s = execTenApply order s := rfl
@[simp] theorem exec_sigHoldClear (q : Fin 4) (h : Fin 8) (r : Fin 4) (s : State) : exec (.sigHoldClear q h r) s = execSigHoldClear q h r s := rfl
@[simp] theorem exec_sigResultLoRead (q : PairRead) (h : Fin 8) (r : Fin 4) (s : State) : exec (.sigResultLoRead q h r) s = execSigResultLoRead q h r s := rfl
@[simp] theorem exec_clusterOffer (c : Fin 16) (s : State) : exec (.clusterOffer c) s = execClusterOffer c s := rfl
@[simp] theorem exec_classAPreempt (p : Fin 64) (r : Fin 4) (seq : Word) (s : State) : exec (.classAPreempt p r seq) s = execClassAPreempt p r seq s := rfl
@[simp] theorem exec_preemptSaveDone (c : Fin 16) (s : State) : exec (.preemptSaveDone c) s = execPreemptSaveDone c s := rfl
@[simp] theorem exec_gfxJobRetire (p : Fin 64) (r : Fin 4) (seq : Word) (s : State) : exec (.gfxJobRetire p r seq) s = execGfxJobRetire p r seq s := rfl
@[simp] theorem exec_gfxDeadlineMiss (p : Fin 64) (r : Fin 4) (seq : Word) (s : State) : exec (.gfxDeadlineMiss p r seq) s = execGfxDeadlineMiss p r seq s := rfl
@[simp] theorem exec_pktNop (o : Nat) (s : State) : exec (.pktNop o) s = execPktNop o s := rfl
@[simp] theorem exec_call (o : Nat) (s : State) : exec (.call o) s = execCall o s := rfl
@[simp] theorem exec_pktEnd (o : Nat) (s : State) : exec (.pktEnd o) s = execPktEnd o s := rfl
@[simp] theorem exec_saveArea (o : Nat) (s : State) : exec (.saveArea o) s = execSaveArea o s := rfl
@[simp] theorem exec_shader (o : Nat) (s : State) : exec (.shader o) s = execShader o s := rfl
@[simp] theorem exec_resources (o : Nat) (s : State) : exec (.resources o) s = execResources o s := rfl
@[simp] theorem exec_constPkt (o : Nat) (s : State) : exec (.constPkt o) s = execConst o s := rfl
@[simp] theorem exec_target (o : Nat) (s : State) : exec (.target o) s = execTarget o s := rfl
@[simp] theorem exec_raster (o : Nat) (s : State) : exec (.raster o) s = execRaster o s := rfl
@[simp] theorem exec_blend (o : Nat) (s : State) : exec (.blend o) s = execBlend o s := rfl
@[simp] theorem exec_draw (o pages : Nat) (quads : List (List FragQuad)) (s : State) : exec (.draw o pages quads) s = execDraw o pages quads s := rfl
@[simp] theorem exec_drawIndexed (o pages : Nat) (quads : List (List FragQuad)) (s : State) : exec (.drawIndexed o pages quads) s = execDrawIndexed o pages quads s := rfl
@[simp] theorem exec_drawIndirect (o pages : Nat) (quads : List (List FragQuad)) (s : State) : exec (.drawIndirect o pages quads) s = execDrawIndirect o pages quads s := rfl
@[simp] theorem exec_dispatch (o : Nat) (s : State) : exec (.dispatch o) s = execDispatch o s := rfl
@[simp] theorem exec_dispatchIndirect (o : Nat) (s : State) : exec (.dispatchIndirect o) s = execDispatchIndirect o s := rfl
@[simp] theorem exec_pktBarrier (o : Nat) (s : State) : exec (.pktBarrier o) s = execPktBarrier o s := rfl
@[simp] theorem exec_pktSignal (o : Nat) (s : State) : exec (.pktSignal o) s = execPktSignal o s := rfl
@[simp] theorem exec_timestamp (o : Nat) (s : State) : exec (.timestamp o) s = execTimestamp o s := rfl
@[simp] theorem exec_passBegin (o : Nat) (s : State) : exec (.passBegin o) s = execPassBegin o s := rfl
@[simp] theorem exec_passEnd (o : Nat) (s : State) : exec (.passEnd o) s = execPassEnd o s := rfl
@[simp] theorem exec_movB32 (c : Fin 16) (w : Nat) (s : State) : exec (.movB32 c w) s = execMovB32 c w s := rfl
@[simp] theorem exec_addI32 (c : Fin 16) (w : Nat) (s : State) : exec (.addI32 c w) s = execAddI32 c w s := rfl
@[simp] theorem exec_subI32 (c : Fin 16) (w : Nat) (s : State) : exec (.subI32 c w) s = execSubI32 c w s := rfl
@[simp] theorem exec_mulLoU32 (c : Fin 16) (w : Nat) (s : State) : exec (.mulLoU32 c w) s = execMulLoU32 c w s := rfl
@[simp] theorem exec_mulHiU32 (c : Fin 16) (w : Nat) (s : State) : exec (.mulHiU32 c w) s = execMulHiU32 c w s := rfl
@[simp] theorem exec_mulHiI32 (c : Fin 16) (w : Nat) (s : State) : exec (.mulHiI32 c w) s = execMulHiI32 c w s := rfl
@[simp] theorem exec_madU32 (c : Fin 16) (w : Nat) (s : State) : exec (.madU32 c w) s = execMadU32 c w s := rfl
@[simp] theorem exec_minI32 (c : Fin 16) (w : Nat) (s : State) : exec (.minI32 c w) s = execMinI32 c w s := rfl
@[simp] theorem exec_maxI32 (c : Fin 16) (w : Nat) (s : State) : exec (.maxI32 c w) s = execMaxI32 c w s := rfl
@[simp] theorem exec_minU32 (c : Fin 16) (w : Nat) (s : State) : exec (.minU32 c w) s = execMinU32 c w s := rfl
@[simp] theorem exec_maxU32 (c : Fin 16) (w : Nat) (s : State) : exec (.maxU32 c w) s = execMaxU32 c w s := rfl
@[simp] theorem exec_andIns (c : Fin 16) (w : Nat) (s : State) : exec (.andIns c w) s = execAnd c w s := rfl
@[simp] theorem exec_orIns (c : Fin 16) (w : Nat) (s : State) : exec (.orIns c w) s = execOr c w s := rfl
@[simp] theorem exec_xor (c : Fin 16) (w : Nat) (s : State) : exec (.xor c w) s = execXor c w s := rfl
@[simp] theorem exec_notIns (c : Fin 16) (w : Nat) (s : State) : exec (.notIns c w) s = execNot c w s := rfl
@[simp] theorem exec_shl (c : Fin 16) (w : Nat) (s : State) : exec (.shl c w) s = execShl c w s := rfl
@[simp] theorem exec_shrU (c : Fin 16) (w : Nat) (s : State) : exec (.shrU c w) s = execShrU c w s := rfl
@[simp] theorem exec_shrI (c : Fin 16) (w : Nat) (s : State) : exec (.shrI c w) s = execShrI c w s := rfl
@[simp] theorem exec_fieldU32 (c : Fin 16) (w : Nat) (s : State) : exec (.fieldU32 c w) s = execFieldU32 c w s := rfl
@[simp] theorem exec_fieldI32 (c : Fin 16) (w : Nat) (s : State) : exec (.fieldI32 c w) s = execFieldI32 c w s := rfl
@[simp] theorem exec_merge (c : Fin 16) (w : Nat) (s : State) : exec (.merge c w) s = execMerge c w s := rfl
@[simp] theorem exec_popc (c : Fin 16) (w : Nat) (s : State) : exec (.popc c w) s = execPopc c w s := rfl
@[simp] theorem exec_lowbit (c : Fin 16) (w : Nat) (s : State) : exec (.lowbit c w) s = execLowbit c w s := rfl
@[simp] theorem exec_highbit (c : Fin 16) (w : Nat) (s : State) : exec (.highbit c w) s = execHighbit c w s := rfl
@[simp] theorem exec_sel (c : Fin 16) (w : Nat) (s : State) : exec (.sel c w) s = execSel c w s := rfl
@[simp] theorem exec_laneGet (c : Fin 16) (w : Nat) (s : State) : exec (.laneGet c w) s = execLaneGet c w s := rfl
@[simp] theorem exec_laneLow (c : Fin 16) (w : Nat) (s : State) : exec (.laneLow c w) s = execLaneLow c w s := rfl
@[simp] theorem exec_addF32 (c : Fin 16) (w : Nat) (s : State) : exec (.addF32 c w) s = execAddF32 c w s := rfl
@[simp] theorem exec_subF32 (c : Fin 16) (w : Nat) (s : State) : exec (.subF32 c w) s = execSubF32 c w s := rfl
@[simp] theorem exec_mulF32 (c : Fin 16) (w : Nat) (s : State) : exec (.mulF32 c w) s = execMulF32 c w s := rfl
@[simp] theorem exec_fmaF32 (c : Fin 16) (w : Nat) (s : State) : exec (.fmaF32 c w) s = execFmaF32 c w s := rfl
@[simp] theorem exec_minF32 (c : Fin 16) (w : Nat) (s : State) : exec (.minF32 c w) s = execMinF32 c w s := rfl
@[simp] theorem exec_maxF32 (c : Fin 16) (w : Nat) (s : State) : exec (.maxF32 c w) s = execMaxF32 c w s := rfl
@[simp] theorem exec_fractF32 (c : Fin 16) (w : Nat) (s : State) : exec (.fractF32 c w) s = execFractF32 c w s := rfl
@[simp] theorem exec_floor (c : Fin 16) (w : Nat) (s : State) : exec (.floor c w) s = execFloor c w s := rfl
@[simp] theorem exec_ceil (c : Fin 16) (w : Nat) (s : State) : exec (.ceil c w) s = execCeil c w s := rfl
@[simp] theorem exec_trunc (c : Fin 16) (w : Nat) (s : State) : exec (.trunc c w) s = execTrunc c w s := rfl
@[simp] theorem exec_round (c : Fin 16) (w : Nat) (s : State) : exec (.round c w) s = execRound c w s := rfl
@[simp] theorem exec_h2Add (c : Fin 16) (w : Nat) (s : State) : exec (.h2Add c w) s = execH2Add c w s := rfl
@[simp] theorem exec_h2Mul (c : Fin 16) (w : Nat) (s : State) : exec (.h2Mul c w) s = execH2Mul c w s := rfl
@[simp] theorem exec_h2Fma (c : Fin 16) (w : Nat) (s : State) : exec (.h2Fma c w) s = execH2Fma c w s := rfl
@[simp] theorem exec_h2Min (c : Fin 16) (w : Nat) (s : State) : exec (.h2Min c w) s = execH2Min c w s := rfl
@[simp] theorem exec_h2Max (c : Fin 16) (w : Nat) (s : State) : exec (.h2Max c w) s = execH2Max c w s := rfl
@[simp] theorem exec_dothF32 (c : Fin 16) (w : Nat) (s : State) : exec (.dothF32 c w) s = execDothF32 c w s := rfl
@[simp] theorem exec_recipF32 (c : Fin 16) (w : Nat) (s : State) : exec (.recipF32 c w) s = execRecipF32 c w s := rfl
@[simp] theorem exec_rsqrtF32 (c : Fin 16) (w : Nat) (s : State) : exec (.rsqrtF32 c w) s = execRsqrtF32 c w s := rfl
@[simp] theorem exec_sqrtF32 (c : Fin 16) (w : Nat) (s : State) : exec (.sqrtF32 c w) s = execSqrtF32 c w s := rfl
@[simp] theorem exec_exp2F32 (c : Fin 16) (w : Nat) (s : State) : exec (.exp2F32 c w) s = execExp2F32 c w s := rfl
@[simp] theorem exec_log2F32 (c : Fin 16) (w : Nat) (s : State) : exec (.log2F32 c w) s = execLog2F32 c w s := rfl
@[simp] theorem exec_sinturnF32 (c : Fin 16) (w : Nat) (s : State) : exec (.sinturnF32 c w) s = execSinturnF32 c w s := rfl
@[simp] theorem exec_costurnF32 (c : Fin 16) (w : Nat) (s : State) : exec (.costurnF32 c w) s = execCosturnF32 c w s := rfl
@[simp] theorem exec_cvtF32I32 (c : Fin 16) (w : Nat) (s : State) : exec (.cvtF32I32 c w) s = execCvtF32I32 c w s := rfl
@[simp] theorem exec_cvtF32U32 (c : Fin 16) (w : Nat) (s : State) : exec (.cvtF32U32 c w) s = execCvtF32U32 c w s := rfl
@[simp] theorem exec_cvtI32F32 (c : Fin 16) (w : Nat) (s : State) : exec (.cvtI32F32 c w) s = execCvtI32F32 c w s := rfl
@[simp] theorem exec_cvtU32F32 (c : Fin 16) (w : Nat) (s : State) : exec (.cvtU32F32 c w) s = execCvtU32F32 c w s := rfl
@[simp] theorem exec_cvtF32F16Lo (c : Fin 16) (w : Nat) (s : State) : exec (.cvtF32F16Lo c w) s = execCvtF32F16Lo c w s := rfl
@[simp] theorem exec_cvtF32F16Hi (c : Fin 16) (w : Nat) (s : State) : exec (.cvtF32F16Hi c w) s = execCvtF32F16Hi c w s := rfl
@[simp] theorem exec_cvtH2F32 (c : Fin 16) (w : Nat) (s : State) : exec (.cvtH2F32 c w) s = execCvtH2F32 c w s := rfl
@[simp] theorem exec_cvtUnorm8 (c : Fin 16) (w : Nat) (s : State) : exec (.cvtUnorm8 c w) s = execCvtUnorm8 c w s := rfl
@[simp] theorem exec_unpackUnorm8 (c : Fin 16) (w : Nat) (s : State) : exec (.unpackUnorm8 c w) s = execUnpackUnorm8 c w s := rfl
@[simp] theorem exec_cvtUnorm16 (c : Fin 16) (w : Nat) (s : State) : exec (.cvtUnorm16 c w) s = execCvtUnorm16 c w s := rfl
@[simp] theorem exec_cmpLtF32 (c : Fin 16) (w : Nat) (s : State) : exec (.cmpLtF32 c w) s = execCmpLtF32 c w s := rfl
@[simp] theorem exec_cmpEqF32 (c : Fin 16) (w : Nat) (s : State) : exec (.cmpEqF32 c w) s = execCmpEqF32 c w s := rfl
@[simp] theorem exec_cmpLeF32 (c : Fin 16) (w : Nat) (s : State) : exec (.cmpLeF32 c w) s = execCmpLeF32 c w s := rfl
@[simp] theorem exec_cmpGtF32 (c : Fin 16) (w : Nat) (s : State) : exec (.cmpGtF32 c w) s = execCmpGtF32 c w s := rfl
@[simp] theorem exec_cmpNeF32 (c : Fin 16) (w : Nat) (s : State) : exec (.cmpNeF32 c w) s = execCmpNeF32 c w s := rfl
@[simp] theorem exec_cmpGeF32 (c : Fin 16) (w : Nat) (s : State) : exec (.cmpGeF32 c w) s = execCmpGeF32 c w s := rfl
@[simp] theorem exec_cmpLtI32 (c : Fin 16) (w : Nat) (s : State) : exec (.cmpLtI32 c w) s = execCmpLtI32 c w s := rfl
@[simp] theorem exec_cmpEqI32 (c : Fin 16) (w : Nat) (s : State) : exec (.cmpEqI32 c w) s = execCmpEqI32 c w s := rfl
@[simp] theorem exec_cmpLeI32 (c : Fin 16) (w : Nat) (s : State) : exec (.cmpLeI32 c w) s = execCmpLeI32 c w s := rfl
@[simp] theorem exec_cmpGtI32 (c : Fin 16) (w : Nat) (s : State) : exec (.cmpGtI32 c w) s = execCmpGtI32 c w s := rfl
@[simp] theorem exec_cmpNeI32 (c : Fin 16) (w : Nat) (s : State) : exec (.cmpNeI32 c w) s = execCmpNeI32 c w s := rfl
@[simp] theorem exec_cmpGeI32 (c : Fin 16) (w : Nat) (s : State) : exec (.cmpGeI32 c w) s = execCmpGeI32 c w s := rfl
@[simp] theorem exec_cmpLtU32 (c : Fin 16) (w : Nat) (s : State) : exec (.cmpLtU32 c w) s = execCmpLtU32 c w s := rfl
@[simp] theorem exec_cmpEqU32 (c : Fin 16) (w : Nat) (s : State) : exec (.cmpEqU32 c w) s = execCmpEqU32 c w s := rfl
@[simp] theorem exec_cmpLeU32 (c : Fin 16) (w : Nat) (s : State) : exec (.cmpLeU32 c w) s = execCmpLeU32 c w s := rfl
@[simp] theorem exec_cmpGtU32 (c : Fin 16) (w : Nat) (s : State) : exec (.cmpGtU32 c w) s = execCmpGtU32 c w s := rfl
@[simp] theorem exec_cmpNeU32 (c : Fin 16) (w : Nat) (s : State) : exec (.cmpNeU32 c w) s = execCmpNeU32 c w s := rfl
@[simp] theorem exec_cmpGeU32 (c : Fin 16) (w : Nat) (s : State) : exec (.cmpGeU32 c w) s = execCmpGeU32 c w s := rfl
@[simp] theorem exec_interpF32 (c : Fin 16) (w : Nat) (s : State) : exec (.interpF32 c w) s = execInterpF32 c w s := rfl
@[simp] theorem exec_sMov (c : Fin 16) (w : Nat) (s : State) : exec (.sMov c w) s = execSMov c w s := rfl
@[simp] theorem exec_sMovi (c : Fin 16) (w : Nat) (s : State) : exec (.sMovi c w) s = execSMovi c w s := rfl
@[simp] theorem exec_sAdd (c : Fin 16) (w : Nat) (s : State) : exec (.sAdd c w) s = execSAdd c w s := rfl
@[simp] theorem exec_sSub (c : Fin 16) (w : Nat) (s : State) : exec (.sSub c w) s = execSSub c w s := rfl
@[simp] theorem exec_sMulLo (c : Fin 16) (w : Nat) (s : State) : exec (.sMulLo c w) s = execSMulLo c w s := rfl
@[simp] theorem exec_sAnd (c : Fin 16) (w : Nat) (s : State) : exec (.sAnd c w) s = execSAnd c w s := rfl
@[simp] theorem exec_sOr (c : Fin 16) (w : Nat) (s : State) : exec (.sOr c w) s = execSOr c w s := rfl
@[simp] theorem exec_sXor (c : Fin 16) (w : Nat) (s : State) : exec (.sXor c w) s = execSXor c w s := rfl
@[simp] theorem exec_sShl (c : Fin 16) (w : Nat) (s : State) : exec (.sShl c w) s = execSShl c w s := rfl
@[simp] theorem exec_sShrU (c : Fin 16) (w : Nat) (s : State) : exec (.sShrU c w) s = execSShrU c w s := rfl
@[simp] theorem exec_sMinU (c : Fin 16) (w : Nat) (s : State) : exec (.sMinU c w) s = execSMinU c w s := rfl
@[simp] theorem exec_sMaxU (c : Fin 16) (w : Nat) (s : State) : exec (.sMaxU c w) s = execSMaxU c w s := rfl
@[simp] theorem exec_sCmpEq (c : Fin 16) (w : Nat) (s : State) : exec (.sCmpEq c w) s = execSCmpEq c w s := rfl
@[simp] theorem exec_sCmpLtU (c : Fin 16) (w : Nat) (s : State) : exec (.sCmpLtU c w) s = execSCmpLtU c w s := rfl
@[simp] theorem exec_sCmpLtI (c : Fin 16) (w : Nat) (s : State) : exec (.sCmpLtI c w) s = execSCmpLtI c w s := rfl
@[simp] theorem exec_pAnd (c : Fin 16) (w : Nat) (s : State) : exec (.pAnd c w) s = execPAnd c w s := rfl
@[simp] theorem exec_pOr (c : Fin 16) (w : Nat) (s : State) : exec (.pOr c w) s = execPOr c w s := rfl
@[simp] theorem exec_pXor (c : Fin 16) (w : Nat) (s : State) : exec (.pXor c w) s = execPXor c w s := rfl
@[simp] theorem exec_pAndn (c : Fin 16) (w : Nat) (s : State) : exec (.pAndn c w) s = execPAndn c w s := rfl
@[simp] theorem exec_pNot (c : Fin 16) (w : Nat) (s : State) : exec (.pNot c w) s = execPNot c w s := rfl
@[simp] theorem exec_pTos (c : Fin 16) (w : Nat) (s : State) : exec (.pTos c w) s = execPTos c w s := rfl
@[simp] theorem exec_pFroms (c : Fin 16) (w : Nat) (s : State) : exec (.pFroms c w) s = execPFroms c w s := rfl
@[simp] theorem exec_bra (c : Fin 16) (w : Nat) (s : State) : exec (.bra c w) s = execBra c w s := rfl
@[simp] theorem exec_braSz (c : Fin 16) (w : Nat) (s : State) : exec (.braSz c w) s = execBraSz c w s := rfl
@[simp] theorem exec_braSnz (c : Fin 16) (w : Nat) (s : State) : exec (.braSnz c w) s = execBraSnz c w s := rfl
@[simp] theorem exec_braPany (c : Fin 16) (w : Nat) (s : State) : exec (.braPany c w) s = execBraPany c w s := rfl
@[simp] theorem exec_braPnone (c : Fin 16) (w : Nat) (s : State) : exec (.braPnone c w) s = execBraPnone c w s := rfl
@[simp] theorem exec_ifIns (c : Fin 16) (w : Nat) (s : State) : exec (.ifIns c w) s = execIf c w s := rfl
@[simp] theorem exec_elseIns (c : Fin 16) (w : Nat) (s : State) : exec (.elseIns c w) s = execElse c w s := rfl
@[simp] theorem exec_endif (c : Fin 16) (w : Nat) (s : State) : exec (.endif c w) s = execEndif c w s := rfl
@[simp] theorem exec_loop (c : Fin 16) (w : Nat) (s : State) : exec (.loop c w) s = execLoop c w s := rfl
@[simp] theorem exec_breakIns (c : Fin 16) (w : Nat) (s : State) : exec (.breakIns c w) s = execBreak c w s := rfl
@[simp] theorem exec_cont (c : Fin 16) (w : Nat) (s : State) : exec (.cont c w) s = execCont c w s := rfl
@[simp] theorem exec_endloop (c : Fin 16) (w : Nat) (s : State) : exec (.endloop c w) s = execEndloop c w s := rfl
@[simp] theorem exec_kill (c : Fin 16) (w : Nat) (s : State) : exec (.kill c w) s = execKill c w s := rfl
@[simp] theorem exec_waveEnd (c : Fin 16) (w : Nat) (s : State) : exec (.waveEnd c w) s = execWaveEnd c w s := rfl
@[simp] theorem exec_bar (c : Fin 16) (w : Nat) (s : State) : exec (.bar c w) s = execBar c w s := rfl
@[simp] theorem exec_membarWg (c : Fin 16) (w : Nat) (s : State) : exec (.membarWg c w) s = execMembarWg c w s := rfl
@[simp] theorem exec_membarDev (c : Fin 16) (w : Nat) (s : State) : exec (.membarDev c w) s = execMembarDev c w s := rfl
@[simp] theorem exec_idle (c : Fin 16) (w : Nat) (s : State) : exec (.idle c w) s = execIdle c w s := rfl
@[simp] theorem exec_time (c : Fin 16) (w : Nat) (s : State) : exec (.time c w) s = execTime c w s := rfl
@[simp] theorem exec_ilkBegin (c : Fin 16) (w : Nat) (s : State) : exec (.ilkBegin c w) s = execIlkBegin c w s := rfl
@[simp] theorem exec_ilkEnd (c : Fin 16) (w : Nat) (s : State) : exec (.ilkEnd c w) s = execIlkEnd c w s := rfl
@[simp] theorem exec_ldG (c : Fin 16) (w : Nat) (s : State) : exec (.ldG c w) s = execLdG c w s := rfl
@[simp] theorem exec_stG (c : Fin 16) (w : Nat) (s : State) : exec (.stG c w) s = execStG c w s := rfl
@[simp] theorem exec_ldB (c : Fin 16) (w : Nat) (s : State) : exec (.ldB c w) s = execLdB c w s := rfl
@[simp] theorem exec_stB (c : Fin 16) (w : Nat) (s : State) : exec (.stB c w) s = execStB c w s := rfl
@[simp] theorem exec_ldL (c : Fin 16) (w : Nat) (s : State) : exec (.ldL c w) s = execLdL c w s := rfl
@[simp] theorem exec_stL (c : Fin 16) (w : Nat) (s : State) : exec (.stL c w) s = execStL c w s := rfl
@[simp] theorem exec_plsLd (c : Fin 16) (w : Nat) (s : State) : exec (.plsLd c w) s = execPlsLd c w s := rfl
@[simp] theorem exec_plsSt (c : Fin 16) (w : Nat) (s : State) : exec (.plsSt c w) s = execPlsSt c w s := rfl
@[simp] theorem exec_atomAdd (c : Fin 16) (w : Nat) (s : State) : exec (.atomAdd c w) s = execAtomAdd c w s := rfl
@[simp] theorem exec_atomMinI (c : Fin 16) (w : Nat) (s : State) : exec (.atomMinI c w) s = execAtomMinI c w s := rfl
@[simp] theorem exec_atomMinU (c : Fin 16) (w : Nat) (s : State) : exec (.atomMinU c w) s = execAtomMinU c w s := rfl
@[simp] theorem exec_atomMaxI (c : Fin 16) (w : Nat) (s : State) : exec (.atomMaxI c w) s = execAtomMaxI c w s := rfl
@[simp] theorem exec_atomMaxU (c : Fin 16) (w : Nat) (s : State) : exec (.atomMaxU c w) s = execAtomMaxU c w s := rfl
@[simp] theorem exec_atomAnd (c : Fin 16) (w : Nat) (s : State) : exec (.atomAnd c w) s = execAtomAnd c w s := rfl
@[simp] theorem exec_atomOr (c : Fin 16) (w : Nat) (s : State) : exec (.atomOr c w) s = execAtomOr c w s := rfl
@[simp] theorem exec_atomXor (c : Fin 16) (w : Nat) (s : State) : exec (.atomXor c w) s = execAtomXor c w s := rfl
@[simp] theorem exec_atomXchg (c : Fin 16) (w : Nat) (s : State) : exec (.atomXchg c w) s = execAtomXchg c w s := rfl
@[simp] theorem exec_atomCas (c : Fin 16) (w : Nat) (s : State) : exec (.atomCas c w) s = execAtomCas c w s := rfl
@[simp] theorem exec_atomAddB (c : Fin 16) (w : Nat) (s : State) : exec (.atomAddB c w) s = execAtomAddB c w s := rfl
@[simp] theorem exec_outPos (c : Fin 16) (w : Nat) (s : State) : exec (.outPos c w) s = execOutPos c w s := rfl
@[simp] theorem exec_outVar (c : Fin 16) (w : Nat) (s : State) : exec (.outVar c w) s = execOutVar c w s := rfl
@[simp] theorem exec_outColour (c : Fin 16) (w : Nat) (s : State) : exec (.outColour c w) s = execOutColour c w s := rfl
@[simp] theorem exec_outDepth (c : Fin 16) (w : Nat) (s : State) : exec (.outDepth c w) s = execOutDepth c w s := rfl
@[simp] theorem exec_sample (c : Fin 16) (w : Nat) (s : State) : exec (.sample c w) s = execSample c w s := rfl
@[simp] theorem exec_sampleL (c : Fin 16) (w : Nat) (s : State) : exec (.sampleL c w) s = execSampleL c w s := rfl
@[simp] theorem exec_sampleB (c : Fin 16) (w : Nat) (s : State) : exec (.sampleB c w) s = execSampleB c w s := rfl
@[simp] theorem exec_fetch (c : Fin 16) (w : Nat) (s : State) : exec (.fetch c w) s = execFetch c w s := rfl
@[simp] theorem exec_memTransferAccept (client : MemClient) (ply : Option (Fin 64)) (addr : Nat) (write : Option (Nat × List Byte)) (head : Option (Fin 8 × Fin 64)) (s : State) : exec (.memTransferAccept client ply addr write head) s = execMemTransferAccept client ply addr write head s := rfl
@[simp] theorem exec_memReadReturn (ch : Fin 16) (id : Nat) (errs : List (Nat × Byte)) (unit : DeviceUnit) (line col : Nat) (s : State) : exec (.memReadReturn ch id errs unit line col) s = execMemReadReturn ch id errs unit line col s := rfl
@[simp] theorem exec_refreshDue (ch bank : Fin 16) (s : State) : exec (.refreshDue ch bank) s = execRefreshDue ch bank s := rfl
@[simp] theorem exec_mr4Poll (rates : Vector Nat 32) (hot : Vector Bool 32) (s : State) : exec (.mr4Poll rates hot) s = execMr4Poll rates hot s := rfl
@[simp] theorem exec_bankIdleClose (ch bank : Fin 16) (s : State) : exec (.bankIdleClose ch bank) s = execBankIdleClose ch bank s := rfl
@[simp] theorem exec_dramTraining (s : State) : exec (.dramTraining) s = execDramTraining s := rfl
@[simp] theorem exec_dqsOscSample (ch : Fin 16) (drifted : Bool) (s : State) : exec (.dqsOscSample ch drifted) s = execDqsOscSample ch drifted s := rfl
@[simp] theorem exec_retrainSlice (ch : Fin 16) (s : State) : exec (.retrainSlice ch) s = execRetrainSlice ch s := rfl
@[simp] theorem exec_retrainForceTimeout (ch : Fin 16) (s : State) : exec (.retrainForceTimeout ch) s = execRetrainForceTimeout ch s := rfl
@[simp] theorem exec_lightNapEnter (ch : Fin 16) (s : State) : exec (.lightNapEnter ch) s = execLightNapEnter ch s := rfl
@[simp] theorem exec_lightNapExit (ch : Fin 16) (s : State) : exec (.lightNapExit ch) s = execLightNapExit ch s := rfl
@[simp] theorem exec_deepNapRequest (s : State) : exec (.deepNapRequest) s = execDeepNapRequest s := rfl
@[simp] theorem exec_deepNapEnter (s : State) : exec (.deepNapEnter) s = execDeepNapEnter s := rfl
@[simp] theorem exec_deepNapExit (s : State) : exec (.deepNapExit) s = execDeepNapExit s := rfl
@[simp] theorem exec_caParityAlert (ch : Fin 16) (s : State) : exec (.caParityAlert ch) s = execCaParityAlert ch s := rfl
@[simp] theorem exec_parityReplay (ch : Fin 16) (s : State) : exec (.parityReplay ch) s = execParityReplay ch s := rfl
@[simp] theorem exec_patrolScrub (addr : Nat) (errs : List (Nat × Byte)) (unit : DeviceUnit) (s : State) : exec (.patrolScrub addr errs unit) s = execPatrolScrub addr errs unit s := rfl
@[simp] theorem exec_memPasr (order : Nat) (s : State) : exec (.memPasr order) s = execMemPasr order s := rfl
@[simp] theorem exec_mbxReqProdWrite (q : Fin 4) (value : Word) (s : State) : exec (.mbxReqProdWrite q value) s = execMbxReqProdWrite q value s := rfl
@[simp] theorem exec_mbxRspConsWrite (q : Fin 4) (value : Word) (s : State) : exec (.mbxRspConsWrite q value) s = execMbxRspConsWrite q value s := rfl
@[simp] theorem exec_mbxRequestTake (fetched : Word) (s : State) : exec (.mbxRequestTake fetched) s = execMbxRequestTake fetched s := rfl
@[simp] theorem exec_mbxResponse (q : Fin 4) (s : State) : exec (.mbxResponse q) s = execMbxResponse q s := rfl
@[simp] theorem exec_gate (s : State) : exec (.gate) s = execGate s := rfl
@[simp] theorem exec_elyInfo (order : Nat) (s : State) : exec (.elyInfo order) s = execElyInfo order s := rfl
@[simp] theorem exec_containerLoad (order : Nat) (c : Option Container) (s : State) : exec (.containerLoad order c) s = execContainerLoad order c s := rfl
@[simp] theorem exec_containerStage (order : Nat) (c : Option Container) (s : State) : exec (.containerStage order c) s = execContainerStage order c s := rfl
@[simp] theorem exec_svnCommit (order : Nat) (s : State) : exec (.svnCommit order) s = execSvnCommit order s := rfl
@[simp] theorem exec_wmRaise (order : Nat) (s : State) : exec (.wmRaise order) s = execWmRaise order s := rfl
@[simp] theorem exec_memGive (order : Nat) (s : State) : exec (.memGive order) s = execMemGive order s := rfl
@[simp] theorem exec_memTake (order : Nat) (s : State) : exec (.memTake order) s = execMemTake order s := rfl
@[simp] theorem exec_granuleScrubDone (gran : Nat) (s : State) : exec (.granuleScrubDone gran) s = execGranuleScrubDone gran s := rfl
@[simp] theorem exec_lend (order : Nat) (s : State) : exec (.lend order) s = execLend order s := rfl
@[simp] theorem exec_unlend (order : Nat) (s : State) : exec (.unlend order) s = execUnlend order s := rfl
@[simp] theorem exec_ownerQuery (order : Nat) (s : State) : exec (.ownerQuery order) s = execOwnerQuery order s := rfl
@[simp] theorem exec_audLock (order : Nat) (s : State) : exec (.audLock order) s = execAudLock order s := rfl
@[simp] theorem exec_elyRestartTrigger (cause : Fin 16) (s : State) : exec (.elyRestartTrigger cause) s = execElyRestartTrigger cause s := rfl
@[simp] theorem exec_elyWatchdogExpiry (s : State) : exec (.elyWatchdogExpiry) s = execElyWatchdogExpiry s := rfl
@[simp] theorem exec_elyRestartDone (s : State) : exec (.elyRestartDone) s = execElyRestartDone s := rfl
@[simp] theorem exec_boot (b : BootIn) (s : State) : exec (.boot b) s = execBoot b s := rfl
@[simp] theorem exec_getVersion (q : Fin 4) (s : State) : exec (.getVersion q) s = execGetVersion q s := rfl
@[simp] theorem exec_getCapabilities (q : Fin 4) (s : State) : exec (.getCapabilities q) s = execGetCapabilities q s := rfl
@[simp] theorem exec_negotiateAlgorithms (q : Fin 4) (offered : Bool) (s : State) : exec (.negotiateAlgorithms q offered) s = execNegotiateAlgorithms q offered s := rfl
@[simp] theorem exec_getDigests (q : Fin 4) (s : State) : exec (.getDigests q) s = execGetDigests q s := rfl
@[simp] theorem exec_getCertificate (q : Fin 4) (slot : Nat) (part : ChainPart) (s : State) : exec (.getCertificate q slot part) s = execGetCertificate q slot part s := rfl
@[simp] theorem exec_challenge (q : Fin 4) (slot : Nat) (s : State) : exec (.challenge q slot) s = execChallenge q slot s := rfl
@[simp] theorem exec_getMeasurements (q : Fin 4) (op : Nat) (signed : Bool) (s : State) : exec (.getMeasurements q op signed) s = execGetMeasurements q op signed s := rfl
@[simp] theorem exec_keyExchange (q : Fin 4) (s : State) : exec (.keyExchange q) s = execKeyExchange q s := rfl
@[simp] theorem exec_finish (q i : Fin 4) (ok : Bool) (s : State) : exec (.finish q i ok) s = execFinish q i ok s := rfl
@[simp] theorem exec_keyUpdate (q i : Fin 4) (s : State) : exec (.keyUpdate q i) s = execKeyUpdate q i s := rfl
@[simp] theorem exec_spdmHeartbeat (q i : Fin 4) (s : State) : exec (.spdmHeartbeat q i) s = execSpdmHeartbeat q i s := rfl
@[simp] theorem exec_endSession (q i : Fin 4) (s : State) : exec (.endSession q i) s = execEndSession q i s := rfl
@[simp] theorem exec_vendorDefined (q i : Fin 4) (s : State) : exec (.vendorDefined q i) s = execVendorDefined q i s := rfl
@[simp] theorem exec_keyProg (q i : Fin 4) (stream : Fin 3) (s : State) : exec (.keyProg q i stream) s = execKeyProg q i stream s := rfl
@[simp] theorem exec_kSetStop (q i : Fin 4) (stream : Fin 3) (s : State) : exec (.kSetStop q i stream) s = execKSetStop q i stream s := rfl
@[simp] theorem exec_perstNAssert (q : Fin 4) (s : State) : exec (.perstNAssert q) s = execPerstNAssert q s := rfl
@[simp] theorem exec_perstNRelease (q : Fin 4) (s : State) : exec (.perstNRelease q) s = execPerstNRelease q s := rfl
@[simp] theorem exec_hotReset (q : Fin 4) (s : State) : exec (.hotReset q) s = execHotReset q s := rfl
@[simp] theorem exec_flr (q : Fin 4) (dlPending : Bool) (s : State) : exec (.flr q dlPending) s = execFlr q dlPending s := rfl
@[simp] theorem exec_dlDownDetect (q : Fin 4) (s : State) : exec (.dlDownDetect q) s = execDlDownDetect q s := rfl
@[simp] theorem exec_linkUp (q : Fin 4) (speed width : Nat) (s : State) : exec (.linkUp q speed width) s = execLinkUp q speed width s := rfl
@[simp] theorem exec_atsInvalidate (q : Fin 4) (pasid first pages : Nat) (s : State) : exec (.atsInvalidate q pasid first pages) s = execAtsInvalidate q pasid first pages s := rfl
@[simp] theorem exec_atsInvalidateComplete (q : Fin 4) (s : State) : exec (.atsInvalidateComplete q) s = execAtsInvalidateComplete q s := rfl
@[simp] theorem exec_ptmTimer (q : Fin 4) (s : State) : exec (.ptmTimer q) s = execPtmTimer q s := rfl
@[simp] theorem exec_ptmNow (q : Fin 4) (value : Word) (s : State) : exec (.ptmNow q value) s = execPtmNow q value s := rfl
@[simp] theorem exec_ptmResponse (q : Fin 4) (t2 d : Nat) (s : State) : exec (.ptmResponse q t2 d) s = execPtmResponse q t2 d s := rfl
@[simp] theorem exec_powerStateChange (q : Fin 4) (d3hot busMaster : Bool) (s : State) : exec (.powerStateChange q d3hot busMaster) s = execPowerStateChange q d3hot busMaster s := rfl
@[simp] theorem exec_ltrMessage (q : Fin 4) (s : State) : exec (.ltrMessage q) s = execLtrMessage q s := rfl
@[simp] theorem exec_aspmIdleTimeout (q : Fin 4) (s : State) : exec (.aspmIdleTimeout q) s = execAspmIdleTimeout q s := rfl
@[simp] theorem exec_wakeNAssert (s : State) : exec (.wakeNAssert) s = execWakeNAssert s := rfl
@[simp] theorem exec_whlJoin (order : Nat) (out : Option JoinOutcome) (s : State) : exec (.whlJoin order out) s = execWhlJoin order out s := rfl
@[simp] theorem exec_whlLeave (order : Nat) (s : State) : exec (.whlLeave order) s = execWhlLeave order s := rfl
@[simp] theorem exec_whlChanOpen (order : Nat) (peerOpen : Bool) (transit : Nat × Nat) (pathFree : Bool) (s : State) : exec (.whlChanOpen order peerOpen transit pathFree) s = execWhlChanOpen order peerOpen transit pathFree s := rfl
@[simp] theorem exec_whlChanClose (order : Nat) (s : State) : exec (.whlChanClose order) s = execWhlChanClose order s := rfl
@[simp] theorem exec_whlLoopTest (order : Nat) (s : State) : exec (.whlLoopTest order) s = execWhlLoopTest order s := rfl
@[simp] theorem exec_whlProbeReturn (q : Fin 2) (far delay : Nat) (s : State) : exec (.whlProbeReturn q far delay) s = execWhlProbeReturn q far delay s := rfl
@[simp] theorem exec_whlTimeMark (q : Fin 2) (time : Nat) (adopt : Option Nat) (s : State) : exec (.whlTimeMark q time adopt) s = execWhlTimeMark q time adopt s := rfl
@[simp] theorem exec_whlOffsetCheck (s : State) : exec (.whlOffsetCheck) s = execWhlOffsetCheck s := rfl
@[simp] theorem exec_whlDelayMeasure (q : Fin 2) (roundTrip : Nat) (s : State) : exec (.whlDelayMeasure q roundTrip) s = execWhlDelayMeasure q roundTrip s := rfl
@[simp] theorem exec_whlAdopt (io : AudioIn) (s : State) : exec (.whlAdopt io) s = execWhlAdopt io s := rfl
@[simp] theorem exec_whlLinkLoss (q : Fin 2) (s : State) : exec (.whlLinkLoss q) s = execWhlLinkLoss q s := rfl
@[simp] theorem exec_whlRepairDone (q : Fin 2) (link : Option (Nat × Nat)) (gone : Fin 3) (s : State) : exec (.whlRepairDone q link gone) s = execWhlRepairDone q link gone s := rfl
@[simp] theorem exec_whlSendStart (id : Nat) (s : State) : exec (.whlSendStart id) s = execWhlSendStart id s := rfl
@[simp] theorem exec_whlSendDone (id : Nat) (s : State) : exec (.whlSendDone id) s = execWhlSendDone id s := rfl
@[simp] theorem exec_whlReceiveDone (id : Nat) (v : DWord) (bytes : List Byte) (s : State) : exec (.whlReceiveDone id v bytes) s = execWhlReceiveDone id v bytes s := rfl
@[simp] theorem exec_audBufferReadDone (p : Fin 64) (h : Nat) (bytes : List Byte) (s : State) : exec (.audBufferReadDone p h bytes) s = execAudBufferReadDone p h bytes s := rfl
@[simp] theorem exec_audMixDataWrite (q : Fin 4) (value : Word) (s : State) : exec (.audMixDataWrite q value) s = execAudMixDataWrite q value s := rfl
@[simp] theorem exec_audEqDataWrite (q : Fin 4) (value : Word) (s : State) : exec (.audEqDataWrite q value) s = execAudEqDataWrite q value s := rfl
@[simp] theorem exec_tdmClkLost (p : Fin 4) (s : State) : exec (.tdmClkLost p) s = execTdmClkLost p s := rfl
@[simp] theorem exec_chimeTrigger (i : Nat) (s : State) : exec (.chimeTrigger i) s = execChimeTrigger i s := rfl
@[simp] theorem exec_chimeVoiceEnd (v : Fin 16) (s : State) : exec (.chimeVoiceEnd v) s = execChimeVoiceEnd v s := rfl
@[simp] theorem exec_touchScanStart (n : Fin 4) (s : State) : exec (.touchScanStart n) s = execTouchScanStart n s := rfl
@[simp] theorem exec_touchScanDone (n : Fin 4) (passes : List TouchPass) (s : State) : exec (.touchScanDone n passes) s = execTouchScanDone n passes s := rfl
@[simp] theorem exec_persistentTouch (n : Fin 4) (id : Nat) (s : State) : exec (.persistentTouch n id) s = execPersistentTouch n id s := rfl
@[simp] theorem exec_recal (q n : Fin 4) (s : State) : exec (.recal q n) s = execRecal q n s := rfl
@[simp] theorem exec_selftest (q n : Fin 4) (s : State) : exec (.selftest q n) s = execSelftest q n s := rfl
@[simp] theorem exec_refStore (q n : Fin 4) (s : State) : exec (.refStore q n) s = execRefStore q n s := rfl
@[simp] theorem exec_tchCmdDone (m : TchMeasure) (flashOk : Bool) (s : State) : exec (.tchCmdDone m flashOk) s = execTchCmdDone m flashOk s := rfl
@[simp] theorem exec_wakeScan (xs ys : List Nat) (s : State) : exec (.wakeScan xs ys) s = execWakeScan xs ys s := rfl
@[simp] theorem exec_htrigEdge (pin : Fin 8) (rising : Bool) (s : State) : exec (.htrigEdge pin rising) s = execHtrigEdge pin rising s := rfl
@[simp] theorem exec_hapEffectStart (c : Fin 8) (s : State) : exec (.hapEffectStart c) s = execHapEffectStart c s := rfl
@[simp] theorem exec_hapEnergyTimeout (c : Fin 8) (s : State) : exec (.hapEnergyTimeout c) s = execHapEnergyTimeout c s := rfl
@[simp] theorem exec_hapDriveEnd (c : Fin 8) (s : State) : exec (.hapDriveEnd c) s = execHapDriveEnd c s := rfl
@[simp] theorem exec_hapBrakeEnd (c : Fin 8) (s : State) : exec (.hapBrakeEnd c) s = execHapBrakeEnd c s := rfl
@[simp] theorem exec_hapEnHoldExpiry (c : Fin 8) (s : State) : exec (.hapEnHoldExpiry c) s = execHapEnHoldExpiry c s := rfl
@[simp] theorem exec_hapTrip (c : Fin 8) (s : State) : exec (.hapTrip c) s = execHapTrip c s := rfl
@[simp] theorem exec_hapRearm (c : Fin 8) (s : State) : exec (.hapRearm c) s = execHapRearm c s := rfl
@[simp] theorem exec_hapClear (q : Fin 4) (c : Fin 8) (s : State) : exec (.hapClear q c) s = execHapClear q c s := rfl
@[simp] theorem exec_hapEnOneshotExpiry (c : Fin 8) (s : State) : exec (.hapEnOneshotExpiry c) s = execHapEnOneshotExpiry c s := rfl
@[simp] theorem exec_pwrStateRun (order : Nat) (s : State) : exec (.pwrStateRun order) s = execPwrStateRun order s := rfl
@[simp] theorem exec_pwrStateDim (order : Nat) (s : State) : exec (.pwrStateDim order) s = execPwrStateDim order s := rfl
@[simp] theorem exec_pwrStateWatch (order fails : Nat) (s : State) : exec (.pwrStateWatch order fails) s = execPwrStateWatch order fails s := rfl
@[simp] theorem exec_pwrIsland (order : Nat) (s : State) : exec (.pwrIsland order) s = execPwrIsland order s := rfl
@[simp] theorem exec_pwrOppoint (order : Nat) (s : State) : exec (.pwrOppoint order) s = execPwrOppoint order s := rfl
@[simp] theorem exec_pwrReset (order : Nat) (s : State) : exec (.pwrReset order) s = execPwrReset order s := rfl
@[simp] theorem exec_warmReset (s : State) : exec (.warmReset) s = execWarmReset s := rfl
@[simp] theorem exec_islandRampStart (s : State) : exec (.islandRampStart) s = execIslandRampStart s := rfl
@[simp] theorem exec_islandPowerGood (i : Fin 32) (fails : Nat) (s : State) : exec (.islandPowerGood i fails) s = execIslandPowerGood i fails s := rfl
@[simp] theorem exec_refclk0Loss (s : State) : exec (.refclk0Loss) s = execRefclk0Loss s := rfl
@[simp] theorem exec_slpclkLoss (s : State) : exec (.slpclkLoss) s = execSlpclkLoss s := rfl
@[simp] theorem exec_fcntStart (q n : Fin 4) (value : Word) (s : State) : exec (.fcntStart q n value) s = execFcntStart q n value s := rfl
@[simp] theorem exec_fcntDone (n : Fin 4) (edges : Nat) (s : State) : exec (.fcntDone n edges) s = execFcntDone n edges s := rfl
@[simp] theorem exec_tempSample (temps : Vector (BitVec 16) 8) (vaon : Nat) (s : State) : exec (.tempSample temps vaon) s = execTempSample temps vaon s := rfl
@[simp] theorem exec_thermtrip (s : State) : exec (.thermtrip) s = execThermtrip s := rfl
@[simp] theorem exec_vaonWarnStart (s : State) : exec (.vaonWarnStart) s = execVaonWarnStart s := rfl
@[simp] theorem exec_vaonWarnEnd (low cycles : Nat) (s : State) : exec (.vaonWarnEnd low cycles) s = execVaonWarnEnd low cycles s := rfl
@[simp] theorem exec_vaonReset (s : State) : exec (.vaonReset) s = execVaonReset s := rfl
@[simp] theorem exec_vaonApply (s : State) : exec (.vaonApply) s = execVaonApply s := rfl
@[simp] theorem exec_pwronRstNAssert (s : State) : exec (.pwronRstNAssert) s = execPwronRstNAssert s := rfl
@[simp] theorem exec_watchExit (b : BootIn) (s : State) : exec (.watchExit b) s = execWatchExit b s := rfl
@[simp] theorem exec_opsecSecond (s : State) : exec (.opsecSecond) s = execOpsecSecond s := rfl
@[simp] theorem exec_selftestSlice (u : Nat) (fail : Bool) (s : State) : exec (.selftestSlice u fail) s = execSelftestSlice u fail s := rfl
@[simp] theorem exec_selftestPassLate (u : Nat) (s : State) : exec (.selftestPassLate u) s = execSelftestPassLate u s := rfl
@[simp] theorem exec_cocoonRefill (s : State) : exec (.cocoonRefill) s = execCocoonRefill s := rfl
@[simp] theorem exec_cocoonSlotWrite (good : Bool) (s : State) : exec (.cocoonSlotWrite good) s = execCocoonSlotWrite good s := rfl
@[simp] theorem exec_cocoonSectorErase (s : State) : exec (.cocoonSectorErase) s = execCocoonSectorErase s := rfl
@[simp] theorem exec_ccnInfo (order : Nat) (s : State) : exec (.ccnInfo order) s = execCcnInfo order s := rfl
@[simp] theorem exec_ccnFreeze (order : Nat) (s : State) : exec (.ccnFreeze order) s = execCcnFreeze order s := rfl
@[simp] theorem exec_ccnThaw (order : Nat) (s : State) : exec (.ccnThaw order) s = execCcnThaw order s := rfl
@[simp] theorem exec_ccnFreezeTimeout (s : State) : exec (.ccnFreezeTimeout) s = execCcnFreezeTimeout s := rfl
@[simp] theorem exec_ccnRead (order : Nat) (s : State) : exec (.ccnRead order) s = execCcnRead order s := rfl
@[simp] theorem exec_ccnOpsecLoRead (q : PairRead) (s : State) : exec (.ccnOpsecLoRead q) s = execCcnOpsecLoRead q s := rfl
@[simp] theorem exec_hapControlTick (io : Vector HapSample 8) (s : State) : exec (.hapControlTick io) s = execHapControlTick io s := rfl
@[simp] theorem exec_tdmBclkReturn (p : Fin 4) (s : State) : exec (.tdmBclkReturn p) s = execTdmBclkReturn p s := rfl
@[simp] theorem exec_slpclkReturn (s : State) : exec (.slpclkReturn) s = execSlpclkReturn s := rfl
@[simp] theorem exec_memCommandOpportunity (ch : Fin 16) (good : Nat) (s : State) : exec (.memCommandOpportunity ch good) s = execMemCommandOpportunity ch good s := rfl
@[simp] theorem exec_whlLoopTrained (q : Fin 2) (rate : Fin 4) (s : State) : exec (.whlLoopTrained q rate) s = execWhlLoopTrained q rate s := rfl
@[simp] theorem exec_whlAnnounce (q : Fin 2) (m : WhlMsg) (s : State) : exec (.whlAnnounce q m) s = execWhlAnnounce q m s := rfl
@[simp] theorem exec_whlProbeReceived (q : Fin 2) (nonce : Nat) (s : State) : exec (.whlProbeReceived q nonce) s = execWhlProbeReceived q nonce s := rfl
@[simp] theorem exec_linkL1Change (q : Fin 4) (enter : Bool) (s : State) : exec (.linkL1Change q enter) s = execLinkL1Change q enter s := rfl

end Sys2Proof.Machine
end

