-- ==== Sys2Proof/Laws/Power.lean ====
section
/-! SUPPORT. Laws/Power.lean: the operations and commands of Machine/Power.lean keep the queue, the canonical form of DRAM and the credits. -/
namespace Sys2Proof.Machine
variable {wr : Bool}

theorem State.updPower_keeps {s₀ : State} (s : State) (f : Power → Power) (hk : Keeps wr s₀ s) : Keeps wr s₀ (State.updPower s f) := by
  unfold State.updPower
  repeat' first
    | with_reducible assumption
    | intro _
    | with_reducible exact Keeps.refl _
    | with_reducible apply State.onDev_keeps

theorem State.setIsland_keeps {s₀ : State} (s : State) (i : Fin 32) (x : Island) (hk : Keeps wr s₀ s) : Keeps wr s₀ (State.setIsland s i x) := by
  unfold State.setIsland
  repeat' first
    | with_reducible assumption
    | intro _
    | with_reducible exact Keeps.refl _
    | with_reducible apply State.updPower_keeps

theorem State.denyPower_keeps {s₀ : State} (s : State) (j : Journal) (c : Nat × Nat) (hk : Keeps wr s₀ s) : Keeps wr s₀ (State.denyPower s j c) := by
  unfold State.denyPower
  repeat' first
    | with_reducible assumption
    | intro _
    | with_reducible exact Keeps.refl _
    | with_reducible apply State.answer_keeps
    | with_reducible apply State.cocoon_keeps

theorem State.pwrState_keeps {s₀ : State} (s : State) (order : Nat) (target : Nat) (hk : Keeps wr s₀ s) : KeepsRes wr s₀ (State.pwrState s order target) := by
  unfold State.pwrState
  repeat' first
    | with_reducible assumption
    | intro _
    | with_reducible exact Keeps.refl _
    | with_reducible apply State.answer_keeps
    | with_reducible apply State.hold_keeps
    | with_reducible apply State.managed_keeps
    | with_reducible apply State.updPower_keeps
    | with_reducible apply State.onDev_keeps
    | with_reducible apply State.updPly_keeps
    | with_reducible apply State.updPort_keeps
    | with_reducible apply KeepsRes.next
    | with_reducible apply Keeps.ite
    | split

theorem execPwrStateRun_keeps (order : Nat) (s : State) : KeepsRes wr s (execPwrStateRun order s) := by
  unfold execPwrStateRun
  have hk : Keeps wr s s := Keeps.refl s
  repeat' first
    | with_reducible assumption
    | intro _
    | with_reducible exact Keeps.refl _
    | with_reducible apply State.pwrState_keeps
    | with_reducible apply State.onDev_keeps
    | with_reducible apply State.updPly_keeps
    | with_reducible apply State.updPort_keeps
    | with_reducible apply KeepsRes.next
    | with_reducible apply State.clocked_keeps

theorem execPwrStateDim_keeps (order : Nat) (s : State) : KeepsRes wr s (execPwrStateDim order s) := by
  unfold execPwrStateDim
  have hk : Keeps wr s s := Keeps.refl s
  repeat' first
    | with_reducible assumption
    | intro _
    | with_reducible exact Keeps.refl _
    | with_reducible apply State.pwrState_keeps
    | with_reducible apply State.onDev_keeps
    | with_reducible apply State.updPly_keeps
    | with_reducible apply State.updPort_keeps
    | with_reducible apply KeepsRes.next
    | with_reducible apply State.clocked_keeps

theorem execPwrIsland_keeps (order : Nat) (s : State) : KeepsRes wr s (execPwrIsland order s) := by
  unfold execPwrIsland
  have hk : Keeps wr s s := Keeps.refl s
  repeat' first
    | with_reducible assumption
    | intro _
    | with_reducible exact Keeps.refl _
    | with_reducible apply State.answer_keeps
    | with_reducible apply State.hold_keeps
    | with_reducible apply State.managed_keeps
    | with_reducible apply State.updPower_keeps
    | with_reducible apply State.denyPower_keeps
    | with_reducible apply State.onDev_keeps
    | with_reducible apply State.updPly_keeps
    | with_reducible apply State.updPort_keeps
    | with_reducible apply KeepsRes.next
    | with_reducible apply State.clocked_keeps
    | with_reducible apply Keeps.ite
    | split

theorem execPwrOppoint_keeps (order : Nat) (s : State) : KeepsRes wr s (execPwrOppoint order s) := by
  unfold execPwrOppoint
  have hk : Keeps wr s s := Keeps.refl s
  repeat' first
    | with_reducible assumption
    | intro _
    | with_reducible exact Keeps.refl _
    | with_reducible apply State.answer_keeps
    | with_reducible apply State.hold_keeps
    | with_reducible apply State.managed_keeps
    | with_reducible apply State.updPower_keeps
    | with_reducible apply State.onDev_keeps
    | with_reducible apply State.updPly_keeps
    | with_reducible apply State.updPort_keeps
    | with_reducible apply KeepsRes.next
    | with_reducible apply State.clocked_keeps
    | with_reducible apply Keeps.ite

theorem execPwrReset_keeps (order : Nat) (s : State) : KeepsRes wr s (execPwrReset order s) := by
  unfold execPwrReset
  have hk : Keeps wr s s := Keeps.refl s
  repeat' first
    | with_reducible assumption
    | intro _
    | with_reducible exact Keeps.refl _
    | with_reducible apply State.answer_keeps
    | with_reducible apply State.managed_keeps
    | with_reducible apply State.updPower_keeps
    | with_reducible apply State.onDev_keeps
    | with_reducible apply State.updPly_keeps
    | with_reducible apply State.updPort_keeps
    | with_reducible apply KeepsRes.next
    | with_reducible apply State.clocked_keeps
    | with_reducible apply Keeps.ite

theorem State.leave_keeps {s₀ : State} (s : State) (hk : Keeps wr s₀ s) : Keeps wr s₀ (State.leave s) := by
  unfold State.leave
  repeat' first
    | with_reducible assumption
    | intro _
    | with_reducible exact Keeps.refl _
    | with_reducible apply State.idle_keeps
    | with_reducible apply State.updCarder_keeps
    | with_reducible apply State.headOff_keeps
    | with_reducible apply State.updHap_keeps
    | with_reducible apply State.hapEnd_keeps
    | with_reducible apply State.onDev_keeps
    | with_reducible apply State.updPly_keeps
    | with_reducible apply State.updPort_keeps
    | with_reducible apply State.each_keeps

theorem State.enterWatch_keeps {s₀ : State} (s : State) (hk : Keeps wr s₀ s) : Keeps wr s₀ (State.enterWatch s) := by
  unfold State.enterWatch
  repeat' first
    | with_reducible assumption
    | intro _
    | with_reducible exact Keeps.refl _
    | with_reducible apply State.each_keeps
    | with_reducible apply State.onDev_keeps
    | with_reducible apply State.linkDown_keeps
    | with_reducible apply State.updPly_keeps
    | with_reducible apply State.updPort_keeps
    | with_reducible apply Keeps.ite
    | split
    | dsimp only
    | simp only [Keeps.mkDev_iff]

theorem State.goDown_keeps {s₀ : State} (s : State) (order : Nat) (fails : Nat) (hk : Keeps wr s₀ s) : Keeps wr s₀ (State.goDown s order fails) := by
  unfold State.goDown
  repeat' first
    | with_reducible assumption
    | intro _
    | with_reducible exact Keeps.refl _
    | with_reducible apply State.answer_keeps
    | with_reducible apply State.moultResult_keeps
    | with_reducible apply State.updPower_keeps
    | with_reducible apply State.enterWatch_keeps
    | with_reducible apply State.onDev_keeps
    | with_reducible apply State.updPly_keeps
    | with_reducible apply State.updPort_keeps
    | with_reducible apply Keeps.ite
    | split

theorem execPwrStateWatch_keeps (order : Nat) (fails : Nat) (s : State) : KeepsRes wr s (execPwrStateWatch order fails s) := by
  unfold execPwrStateWatch
  have hk : Keeps wr s s := Keeps.refl s
  repeat' first
    | with_reducible assumption
    | intro _
    | with_reducible exact Keeps.refl _
    | with_reducible apply State.answer_keeps
    | with_reducible apply State.hold_keeps
    | with_reducible apply State.managed_keeps
    | with_reducible apply State.updPower_keeps
    | with_reducible apply State.denyPower_keeps
    | with_reducible apply State.goDown_keeps
    | with_reducible apply State.onDev_keeps
    | with_reducible apply State.updPly_keeps
    | with_reducible apply State.updPort_keeps
    | with_reducible apply KeepsRes.next
    | with_reducible apply State.clocked_keeps
    | with_reducible apply Keeps.ite
    | split

theorem State.powerOff_keeps {s₀ : State} (s : State) (i : Fin 32) (hk : Keeps wr s₀ s) : Keeps wr s₀ (State.powerOff s i) := by
  unfold State.powerOff
  repeat' first
    | with_reducible assumption
    | intro _
    | with_reducible exact Keeps.refl _
    | with_reducible apply State.give_keeps
    | with_reducible apply State.giveAll_keeps
    | with_reducible apply State.updRingPort_keeps
    | with_reducible apply State.preempt_keeps
    | with_reducible apply State.recogniseDown_keeps
    | with_reducible apply State.updPower_keeps
    | with_reducible apply State.setIsland_keeps
    | with_reducible apply State.onDev_keeps
    | with_reducible apply State.updPly_keeps
    | with_reducible apply State.updPort_keeps
    | with_reducible apply State.onSkein_keeps
    | with_reducible apply Keeps.ite
    | split
    | dsimp only
    | simp only [Keeps.mkDev_iff]

theorem State.powerOn_keeps {s₀ : State} (s : State) (i : Fin 32) (hk : Keeps wr s₀ s) : Keeps wr s₀ (State.powerOn s i) := by
  unfold State.powerOn
  repeat' first
    | with_reducible assumption
    | intro _
    | with_reducible exact Keeps.refl _
    | with_reducible apply State.updPower_keeps
    | with_reducible apply State.setIsland_keeps
    | with_reducible apply State.onDev_keeps
    | with_reducible apply State.updPly_keeps
    | with_reducible apply State.updPort_keeps
    | with_reducible apply Keeps.ite
    | split

theorem State.powerEpoch_keeps {s₀ : State} (s : State) (hk : Keeps wr s₀ s) : Keeps wr s₀ (State.powerEpoch s) := by
  unfold State.powerEpoch
  repeat' first
    | with_reducible assumption
    | intro _
    | with_reducible exact Keeps.refl _
    | with_reducible apply State.updHead_keeps
    | with_reducible apply State.enableHead_keeps
    | with_reducible apply State.updPower_keeps
    | with_reducible apply State.leave_keeps
    | with_reducible apply State.powerOff_keeps
    | with_reducible apply State.powerOn_keeps
    | with_reducible apply State.onDev_keeps
    | with_reducible apply State.updPly_keeps
    | with_reducible apply State.updPort_keeps
    | with_reducible apply State.each_keeps
    | with_reducible apply Keeps.getD
    | with_reducible apply Keeps.foldl
    | with_reducible apply Keeps.ite
    | split

theorem execIslandRampStart_keeps (s : State) : KeepsRes wr s (execIslandRampStart s) := by
  unfold execIslandRampStart
  have hk : Keeps wr s s := Keeps.refl s
  repeat' first
    | with_reducible assumption
    | intro _
    | with_reducible exact Keeps.refl _
    | with_reducible apply State.updPower_keeps
    | with_reducible apply State.setIsland_keeps
    | with_reducible apply State.onDev_keeps
    | with_reducible apply State.updPly_keeps
    | with_reducible apply State.updPort_keeps
    | (with_reducible refine Keeps.mkTake _ (by assumption) ?_)
    | with_reducible apply KeepsRes.next
    | with_reducible apply State.clocked_keeps
    | with_reducible apply Keeps.ite
    | split

theorem execIslandPowerGood_keeps (i : Fin 32) (fails : Nat) (s : State) : KeepsRes wr s (execIslandPowerGood i fails s) := by
  unfold execIslandPowerGood
  have hk : Keeps wr s s := Keeps.refl s
  repeat' first
    | with_reducible assumption
    | intro _
    | with_reducible exact Keeps.refl _
    | with_reducible apply State.runDeferred_keeps
    | with_reducible apply State.setIsland_keeps
    | with_reducible apply State.onDev_keeps
    | with_reducible apply State.updPly_keeps
    | with_reducible apply State.updPort_keeps
    | with_reducible apply State.give_keeps
    | with_reducible apply State.giveAll_keeps
    | with_reducible apply KeepsRes.next
    | with_reducible apply State.clocked_keeps
    | with_reducible apply Keeps.ite
    | split

theorem execRefclk0Loss_keeps (s : State) : KeepsRes true s (execRefclk0Loss s) := by
  unfold execRefclk0Loss
  have hk : Keeps true s s := Keeps.refl s
  repeat' first
    | with_reducible assumption
    | intro _
    | with_reducible exact Keeps.refl _
    | with_reducible apply State.onDev_keeps
    | with_reducible apply State.updPly_keeps
    | with_reducible apply State.updPort_keeps
    | with_reducible apply Keeps.mkLose
    | with_reducible apply KeepsRes.next
    | with_reducible apply Keeps.ite
    | split

theorem execSlpclkLoss_keeps (s : State) : KeepsRes wr s (execSlpclkLoss s) := by
  unfold execSlpclkLoss
  have hk : Keeps wr s s := Keeps.refl s
  repeat' first
    | with_reducible assumption
    | intro _
    | with_reducible exact Keeps.refl _
    | with_reducible apply State.onDev_keeps
    | with_reducible apply State.updPly_keeps
    | with_reducible apply State.updPort_keeps
    | with_reducible apply KeepsRes.next

theorem execSlpclkReturn_keeps (s : State) : KeepsRes wr s (execSlpclkReturn s) := by
  unfold execSlpclkReturn
  have hk : Keeps wr s s := Keeps.refl s
  repeat' first
    | with_reducible assumption
    | intro _
    | with_reducible exact Keeps.refl _
    | with_reducible apply State.onDev_keeps
    | with_reducible apply State.updPly_keeps
    | with_reducible apply State.updPort_keeps
    | with_reducible apply KeepsRes.next

theorem State.updFcnt_keeps {s₀ : State} (s : State) (n : Fin 4) (f : Fcnt → Fcnt) (hk : Keeps wr s₀ s) : Keeps wr s₀ (State.updFcnt s n f) := by
  unfold State.updFcnt
  repeat' first
    | with_reducible assumption
    | intro _
    | with_reducible exact Keeps.refl _
    | with_reducible apply State.updPower_keeps

theorem execFcntStart_keeps (q : Fin 4) (n : Fin 4) (value : Word) (s : State) : KeepsRes wr s (execFcntStart q n value s) := by
  unfold execFcntStart
  have hk : Keeps wr s s := Keeps.refl s
  repeat' first
    | with_reducible assumption
    | intro _
    | with_reducible exact Keeps.refl _
    | with_reducible apply State.updFcnt_keeps
    | with_reducible apply State.onDev_keeps
    | with_reducible apply State.updPly_keeps
    | with_reducible apply State.updPort_keeps
    | with_reducible apply KeepsRes.next
    | with_reducible apply State.clocked_keeps
    | with_reducible apply Keeps.ite
    | split

theorem execFcntDone_keeps (n : Fin 4) (edges : Nat) (s : State) : KeepsRes wr s (execFcntDone n edges s) := by
  unfold execFcntDone
  have hk : Keeps wr s s := Keeps.refl s
  repeat' first
    | with_reducible assumption
    | intro _
    | with_reducible exact Keeps.refl _
    | with_reducible apply State.clocked_keeps
    | with_reducible apply State.updFcnt_keeps
    | with_reducible apply State.onDev_keeps
    | with_reducible apply State.updPly_keeps
    | with_reducible apply State.updPort_keeps
    | with_reducible apply KeepsRes.next
    | with_reducible apply Keeps.ite
    | split
    | dsimp only
    | simp only [Keeps.mkDev_iff]

theorem execTempSample_keeps (temps : Vector (BitVec 16) 8) (vaon : Nat) (s : State) : KeepsRes wr s (execTempSample temps vaon s) := by
  unfold execTempSample
  have hk : Keeps wr s s := Keeps.refl s
  repeat' first
    | with_reducible assumption
    | intro _
    | with_reducible exact Keeps.refl _
    | with_reducible apply State.postManager_keeps
    | with_reducible apply State.updPower_keeps
    | with_reducible apply State.onDev_keeps
    | with_reducible apply State.updPly_keeps
    | with_reducible apply State.updPort_keeps
    | with_reducible apply State.each_keeps
    | with_reducible apply KeepsRes.next
    | with_reducible apply State.clocked_keeps
    | with_reducible apply Keeps.ite

theorem execVaonWarnStart_keeps (s : State) : KeepsRes wr s (execVaonWarnStart s) := by
  unfold execVaonWarnStart
  have hk : Keeps wr s s := Keeps.refl s
  repeat' first
    | with_reducible assumption
    | intro _
    | with_reducible exact Keeps.refl _
    | with_reducible apply State.hapTrip_keeps
    | with_reducible apply State.updPower_keeps
    | with_reducible apply State.onDev_keeps
    | with_reducible apply State.updPly_keeps
    | with_reducible apply State.updPort_keeps
    | with_reducible apply State.each_keeps
    | with_reducible apply KeepsRes.next
    | with_reducible apply Keeps.ite
    | split

theorem execVaonWarnEnd_keeps (low : Nat) (cycles : Nat) (s : State) : KeepsRes wr s (execVaonWarnEnd low cycles s) := by
  unfold execVaonWarnEnd
  have hk : Keeps wr s s := Keeps.refl s
  repeat' first
    | with_reducible assumption
    | intro _
    | with_reducible exact Keeps.refl _
    | with_reducible apply State.postManager_keeps
    | with_reducible apply State.cocoon_keeps
    | with_reducible apply State.updPower_keeps
    | with_reducible apply State.onDev_keeps
    | with_reducible apply State.updPly_keeps
    | with_reducible apply State.updPort_keeps
    | with_reducible apply KeepsRes.next
    | with_reducible apply Keeps.ite
    | split
    | dsimp only

end Sys2Proof.Machine
end

