-- ==== Sys2Proof/Laws/Epoch.lean ====
section
/-! SUPPORT. Laws/Epoch.lean: the operations and commands of Machine/Epoch.lean keep the queue, the canonical form of DRAM and the credits. -/
namespace Sys2Proof.Machine
variable {wr : Bool}

theorem State.reclaimGfx_keeps {s₀ : State} (s : State) (hk : Keeps wr s₀ s) : Keeps wr s₀ (State.reclaimGfx s) := by
  unfold State.reclaimGfx
  repeat' first
    | with_reducible assumption
    | intro _
    | with_reducible exact Keeps.refl _
    | with_reducible apply State.preempt_keeps
    | with_reducible apply State.hold_keeps
    | with_reducible apply State.onDev_keeps
    | with_reducible apply State.updPly_keeps
    | with_reducible apply State.updPort_keeps
    | (with_reducible refine Keeps.mkTake _ (by assumption) ?_)
    | with_reducible apply Keeps.ite
    | split
    | dsimp only
    | simp only [Keeps.mkDev_iff]

theorem State.auditEpoch_keeps {s₀ : State} (s : State) (epoch : Nat) (hk : Keeps wr s₀ s) : Keeps wr s₀ (s.auditEpoch epoch) := by
  unfold State.auditEpoch
  have h : Keeps wr s₀ ⟨s.pending, s.dram, (s.skein.snapshot epoch).1, s.dev⟩ := hk.mkSkein _ _ (Skein.snapshot_conserves epoch)
  dsimp only
  split
  · exact Keeps.mkSkein _ _ Skein.returnMem_conserves (State.ledgerBreach_keeps _ _ _ h)
  · exact Keeps.mkSkein _ _ Skein.returnMem_conserves h

theorem State.swapEpoch_keeps {s₀ : State} (s : State) (hk : Keeps wr s₀ s) : Keeps wr s₀ s.swapEpoch := by
  unfold State.swapEpoch
  refine State.each_keeps _ _ _ (Keeps.mkSkein _ _ (Skein.reevaluate_conserves _) (State.each_keeps _ _ _ (hk.mkSkein _ _ Skein.swapShares_conserves) ?_)) ?_
  · intro t p h
    exact Keeps.ite (State.updPly_keeps _ _ _ h) (State.postBoth_keeps _ _ _ _ _ (State.updPly_keeps _ _ _ h))
  · exact fun t p h => State.postManager_keeps _ _ _ _ _ h

theorem State.swapRest_keeps {s₀ : State} (s : State) (io : AudioIn) (hk : Keeps true s₀ s) : Keeps true s₀ (State.swapRest s io) := by
  unfold State.swapRest
  repeat' first
    | with_reducible assumption
    | intro _
    | with_reducible exact Keeps.refl _
    | with_reducible apply State.onDev_keeps
    | with_reducible apply State.powerEpoch_keeps
    | with_reducible apply State.audioBlock_keeps
    | with_reducible apply State.drainSaves_keeps
    | with_reducible apply State.reclaimGfx_keeps
    | with_reducible apply State.updPly_keeps
    | with_reducible apply State.updPort_keeps
    | with_reducible apply Keeps.ite
    | split
    | dsimp only
    | simp only [Keeps.mkDev_iff]

theorem State.boundaryAt_keeps {s₀ : State} (s : State) (t : Nat) (io : AudioIn) (hk : Keeps true s₀ s) : Keeps true s₀ (State.boundaryAt s t io) := by
  unfold State.boundaryAt
  repeat' first
    | with_reducible assumption
    | intro _
    | with_reducible exact Keeps.refl _
    | with_reducible apply State.onDev_keeps
    | with_reducible apply State.endBlock_keeps
    | with_reducible apply State.auditEpoch_keeps
    | with_reducible apply State.swapEpoch_keeps
    | with_reducible apply State.swapRest_keeps
    | with_reducible apply State.updPly_keeps
    | with_reducible apply State.updPort_keeps
    | with_reducible apply Keeps.ite
    | split
    | dsimp only
    | simp only [Keeps.mkDev_iff]

theorem execEpochBoundary_keeps (io : AudioIn) (s : State) : KeepsRes true s (execEpochBoundary io s) := by
  unfold execEpochBoundary
  have hk : Keeps true s s := Keeps.refl s
  repeat' first
    | with_reducible assumption
    | intro _
    | with_reducible exact Keeps.refl _
    | with_reducible apply State.clocked_keeps
    | with_reducible apply State.boundaryAt_keeps
    | with_reducible apply State.onDev_keeps
    | with_reducible apply State.updPly_keeps
    | with_reducible apply State.updPort_keeps
    | with_reducible apply KeepsRes.next
    | with_reducible apply Keeps.ite
    | split
    | dsimp only
    | simp only [Keeps.mkDev_iff]

theorem State.idle_keeps {s₀ : State} (s : State) (hk : Keeps true s₀ s) : Keeps true s₀ (State.idle s) := by
  unfold State.idle
  repeat' first
    | with_reducible assumption
    | intro _
    | with_reducible exact Keeps.refl _
    | with_reducible apply State.onDev_keeps
    | with_reducible apply State.boundaryAt_keeps
    | with_reducible apply State.updPly_keeps
    | with_reducible apply State.updPort_keeps
    | with_reducible apply Keeps.ite
    | split
    | dsimp only
    | simp only [Keeps.mkDev_iff]

theorem execWhlAdopt_keeps (io : AudioIn) (s : State) : KeepsRes true s (execWhlAdopt io s) := by
  unfold execWhlAdopt
  have hk : Keeps true s s := Keeps.refl s
  repeat' first
    | with_reducible assumption
    | intro _
    | with_reducible exact Keeps.refl _
    | with_reducible apply State.onDev_keeps
    | with_reducible apply State.clocked_keeps
    | with_reducible apply State.updWhorl_keeps
    | with_reducible apply State.whorlRepair_keeps
    | with_reducible apply State.boundaryAt_keeps
    | with_reducible apply State.updPly_keeps
    | with_reducible apply State.updPort_keeps
    | with_reducible apply KeepsRes.next
    | with_reducible apply Keeps.ite
    | split
    | dsimp only
    | simp only [Keeps.mkDev_iff]

end Sys2Proof.Machine
end

