-- ==== Sys2Proof/Laws/Waves.lean ====
section
/-! SUPPORT. Laws/Waves.lean: the operations and commands of Machine/Waves.lean keep the queue, the canonical form of DRAM and the credits. -/
namespace Sys2Proof.Machine
variable {wr : Bool}

theorem State.fillCode_keeps {s₀ s s₁ : State} {c : Fin 16} {p : Fin 64} {addr n : Nat} (e : s.fillCode c p addr n = some s₁) (hk : Keeps wr s₀ s) :
    Keeps wr s₀ s₁ := by
  unfold State.fillCode at e -- manual
  dsimp only at e
  split at e
  · cases e; exact hk
  · obtain ⟨t, ht, rfl⟩ := Option.map_eq_some_iff.mp e
    exact State.updCluster_keeps _ _ _ (State.takeMem_keeps ht hk)

theorem State.fillTex_keeps {s₀ s s₁ : State} {c : Fin 16} {p : Fin 64} {rs : List (Nat × Nat)} (e : s.fillTex c p rs = some s₁) (hk : Keeps wr s₀ s) :
    Keeps wr s₀ s₁ := by
  unfold State.fillTex at e -- manual
  dsimp only at e
  split at e
  · cases e; exact hk
  · obtain ⟨t, ht, rfl⟩ := Option.map_eq_some_iff.mp e
    exact State.updCluster_keeps _ _ _ (State.takeMem_keeps ht hk)

theorem State.setWave_keeps {s₀ : State} (s : State) (c : Fin 16) (w : Wave) (hk : Keeps wr s₀ s) : Keeps wr s₀ (State.setWave s c w) := by
  unfold State.setWave
  repeat' first
    | with_reducible assumption
    | intro _
    | with_reducible exact Keeps.refl _
    | with_reducible apply State.updCluster_keeps

theorem State.advance_keeps {s₀ : State} (s : State) (i : Issue) (w : Wave) (hk : Keeps wr s₀ s) : Keeps wr s₀ (State.advance s i w) := by
  unfold State.advance
  repeat' first
    | with_reducible assumption
    | intro _
    | with_reducible exact Keeps.refl _
    | with_reducible apply State.setWave_keeps

theorem State.badIns_keeps {s₀ : State} (s : State) (i : Issue) (hk : Keeps wr s₀ s) : Keeps wr s₀ (State.badIns s i) := by
  unfold State.badIns
  repeat' first
    | with_reducible assumption
    | intro _
    | with_reducible exact Keeps.refl _
    | with_reducible apply State.stopJob_keeps

theorem State.issue_keeps {s₀ : State} (s : State) (c : Fin 16) (w : Nat) (fmt : Nat) (op : Nat) (run : Issue → State → State) (hk : Keeps wr s₀ s) (hrun : ∀ x0 x1, Keeps wr s₀ x1 → Keeps wr s₀ (run x0 x1)) : KeepsRes wr s₀ (State.issue s c w fmt op run) := by
  unfold State.issue
  repeat' first
    | with_reducible assumption
    | intro _
    | with_reducible exact Keeps.refl _
    | with_reducible apply State.clocked_keeps
    | with_reducible apply State.faultAt_keeps
    | (with_reducible refine State.fillCode_keeps (by assumption) ?_)
    | with_reducible apply State.badIns_keeps
    | with_reducible apply State.onDev_keeps
    | with_reducible apply State.updPly_keeps
    | with_reducible apply State.updPort_keeps
    | with_reducible apply KeepsRes.next
    | with_reducible apply State.faultPly_keeps
    | with_reducible apply hrun
    | with_reducible apply Keeps.ite
    | split
    | dsimp only
    | simp only [Keeps.mkDev_iff]

theorem State.vec_keeps {s₀ : State} (s : State) (c : Fin 16) (w : Nat) (op : Nat) (kd : VecKind) (f : Nat → Nat → Nat → Nat → Nat → Nat) (hk : Keeps wr s₀ s) : KeepsRes wr s₀ (State.vec s c w op kd f) := by
  unfold State.vec
  repeat' first
    | with_reducible assumption
    | intro _
    | with_reducible exact Keeps.refl _
    | with_reducible apply State.advance_keeps
    | with_reducible apply State.badIns_keeps
    | with_reducible apply State.issue_keeps
    | with_reducible apply State.onDev_keeps
    | with_reducible apply State.updPly_keeps
    | with_reducible apply State.updPort_keeps
    | with_reducible apply Keeps.foldl
    | with_reducible apply KeepsRes.next
    | with_reducible apply Keeps.ite

theorem State.vecCmp_keeps {s₀ : State} (s : State) (c : Fin 16) (w : Nat) (op : Nat) (kd : VecKind) (f : Nat → Nat → Bool) (hk : Keeps wr s₀ s) : KeepsRes wr s₀ (State.vecCmp s c w op kd f) := by
  unfold State.vecCmp
  repeat' first
    | with_reducible assumption
    | intro _
    | with_reducible exact Keeps.refl _
    | with_reducible apply State.advance_keeps
    | with_reducible apply State.badIns_keeps
    | with_reducible apply State.issue_keeps
    | with_reducible apply State.onDev_keeps
    | with_reducible apply State.updPly_keeps
    | with_reducible apply State.updPort_keeps
    | with_reducible apply KeepsRes.next
    | with_reducible apply Keeps.ite

theorem State.scl_keeps {s₀ : State} (s : State) (c : Fin 16) (w : Nat) (op : Nat) (n : Nat) (run : Issue → Nat → Nat → State → State) (hk : Keeps wr s₀ s) (hrun : ∀ x0 x1 x2 x3, Keeps wr s₀ x3 → Keeps wr s₀ (run x0 x1 x2 x3)) : KeepsRes wr s₀ (State.scl s c w op n run) := by
  unfold State.scl
  repeat' first
    | with_reducible assumption
    | intro _
    | with_reducible exact Keeps.refl _
    | with_reducible apply State.badIns_keeps
    | with_reducible apply State.issue_keeps
    | with_reducible apply State.onDev_keeps
    | with_reducible apply State.updPly_keeps
    | with_reducible apply State.updPort_keeps
    | with_reducible apply KeepsRes.next
    | with_reducible apply Keeps.ite
    | with_reducible apply hrun

theorem State.sclOp_keeps {s₀ : State} (s : State) (c : Fin 16) (w : Nat) (op : Nat) (n : Nat) (f : Nat → Nat → Nat) (hk : Keeps wr s₀ s) : KeepsRes wr s₀ (State.sclOp s c w op n f) := by
  unfold State.sclOp
  repeat' first
    | with_reducible assumption
    | intro _
    | with_reducible exact Keeps.refl _
    | with_reducible apply State.advance_keeps
    | with_reducible apply State.scl_keeps

theorem State.sclPred_keeps {s₀ : State} (s : State) (c : Fin 16) (w : Nat) (op : Nat) (f : BitVec 32 → BitVec 32 → BitVec 32) (hk : Keeps wr s₀ s) : KeepsRes wr s₀ (State.sclPred s c w op f) := by
  unfold State.sclPred
  repeat' first
    | with_reducible assumption
    | intro _
    | with_reducible exact Keeps.refl _
    | with_reducible apply State.advance_keeps
    | with_reducible apply State.scl_keeps

theorem State.jump_keeps {s₀ : State} (s : State) (i : Issue) (w : Wave) (pc : Nat) (hk : Keeps wr s₀ s) : Keeps wr s₀ (State.jump s i w pc) := by
  unfold State.jump
  repeat' first
    | with_reducible assumption
    | intro _
    | with_reducible exact Keeps.refl _
    | with_reducible apply State.setWave_keeps

theorem State.branch_keeps {s₀ : State} (s : State) (c : Fin 16) (w : Nat) (op : Nat) (n : Nat) (take : Issue → Nat → Bool) (hk : Keeps wr s₀ s) : KeepsRes wr s₀ (State.branch s c w op n take) := by
  unfold State.branch
  repeat' first
    | with_reducible assumption
    | intro _
    | with_reducible exact Keeps.refl _
    | with_reducible apply State.advance_keeps
    | with_reducible apply State.scl_keeps
    | with_reducible apply State.jump_keeps
    | with_reducible apply State.onDev_keeps
    | with_reducible apply State.updPly_keeps
    | with_reducible apply State.updPort_keeps
    | (with_reducible refine Keeps.mkTake _ (by assumption) ?_)
    | with_reducible apply KeepsRes.next
    | with_reducible apply Keeps.ite

theorem State.endWave_keeps {s₀ : State} (s : State) (c : Fin 16) (j : Job) (w : Wave) (hk : Keeps true s₀ s) : Keeps true s₀ (State.endWave s c j w) := by
  unfold State.endWave
  repeat' first
    | with_reducible assumption
    | intro _
    | with_reducible exact Keeps.refl _
    | with_reducible apply State.updCluster_keeps
    | with_reducible apply State.updPass_keeps
    | with_reducible apply State.pump_keeps
    | with_reducible apply State.onDev_keeps
    | with_reducible apply State.updPly_keeps
    | with_reducible apply State.updPort_keeps
    | with_reducible apply Keeps.ite
    | split


end Sys2Proof.Machine
end

