-- ==== Sys2Proof/Laws/MemIns.lean ====
section
/-! SUPPORT. Laws/MemIns.lean: the operations and commands of Machine/MemIns.lean keep the queue, the canonical form of DRAM and the credits. -/
namespace Sys2Proof.Machine
variable {wr : Bool}

theorem State.loadAt_keeps {s₀ : State} (s : State) (i : Issue) (dev : Bool) (as : List Nat) (n : Nat) (hk : Keeps wr s₀ s) :
    Keeps wr s₀ (s.loadAt i dev as n).1 := by
  unfold State.loadAt
  split
  · exact State.faultAt_keeps _ _ _ _ _ _ hk
  · dsimp only
    split
    · exact hk
    · exact Keeps.ite (State.takeMem_keeps (by assumption) hk) (State.updCluster_keeps _ _ _ (State.takeMem_keeps (by assumption) hk))

theorem State.loadAt_keeps' {s₀ s s₁ : State} {i : Issue} {dev : Bool} {as : List Nat} {n : Nat} {x : Option (List (List Byte))}
    (e : s.loadAt i dev as n = (s₁, x)) (hk : Keeps wr s₀ s) : Keeps wr s₀ s₁ := by
  have h := State.loadAt_keeps s i dev as n hk
  rw [e] at h
  exact h

theorem State.storeAt_keeps {s₀ : State} (s : State) (i : Issue) (l1 : Bool) (ws : List (Nat × List Byte)) (hk : Keeps true s₀ s) :
    Keeps true s₀ (s.storeAt i l1 ws).1 := by
  unfold State.storeAt
  split
  · exact State.faultAt_keeps _ _ _ _ _ _ hk
  · split
    · exact hk
    · split
      · exact hk
      · have h := State.plyWrites_keeps (by assumption) (State.takeMem_keeps (by assumption) hk)
        exact Keeps.ite (Keeps.foldl (fun _ _ h => State.updCluster_keeps _ _ _ h) h) h

theorem State.storeAt_keeps' {s₀ s s₁ : State} {i : Issue} {l1 : Bool} {ws : List (Nat × List Byte)} {x : Bool} (e : s.storeAt i l1 ws = (s₁, x))
    (hk : Keeps true s₀ s) : Keeps true s₀ s₁ := by
  have h := State.storeAt_keeps s i l1 ws hk
  rw [e] at h
  exact h

theorem State.setGroup_keeps {s₀ : State} (s : State) (c : Fin 16) (g : WorkGroup) (hk : Keeps wr s₀ s) : Keeps wr s₀ (State.setGroup s c g) := by
  unfold State.setGroup
  repeat' first
    | with_reducible assumption
    | intro _
    | with_reducible exact Keeps.refl _
    | with_reducible apply State.updCluster_keeps

theorem State.mem_keeps {s₀ : State} (s : State) (c : Fin 16) (w : Nat) (op : Nat) (base : Nat) (sized : Bool) (run : Issue → Nat → State → State) (hk : Keeps wr s₀ s) (hrun : ∀ x0 x1 x2, Keeps wr s₀ x2 → Keeps wr s₀ (run x0 x1 x2)) : KeepsRes wr s₀ (State.mem s c w op base sized run) := by
  unfold State.mem
  repeat' first
    | with_reducible assumption
    | intro _
    | with_reducible exact Keeps.refl _
    | with_reducible apply State.badIns_keeps
    | with_reducible apply State.issue_keeps
    | with_reducible apply State.onDev_keeps
    | with_reducible apply State.updPly_keeps
    | with_reducible apply State.updPort_keeps
    | with_reducible apply KeepsRes.next
    | with_reducible apply Keeps.ite
    | with_reducible apply hrun
    | split

theorem execLdG_keeps (c : Fin 16) (w : Nat) (s : State) : KeepsRes wr s (execLdG c w s) := by
  unfold execLdG
  have hk : Keeps wr s s := Keeps.refl s
  repeat' first
    | with_reducible assumption
    | intro _
    | with_reducible exact Keeps.refl _
    | with_reducible apply State.advance_keeps
    | (with_reducible refine State.loadAt_keeps' (by assumption) ?_)
    | with_reducible apply State.loadAt_keeps
    | with_reducible apply State.mem_keeps
    | with_reducible apply State.onDev_keeps
    | with_reducible apply State.updPly_keeps
    | with_reducible apply State.updPort_keeps
    | with_reducible apply KeepsRes.next
    | with_reducible apply Keeps.ite
    | split
    | dsimp only

theorem execStG_keeps (c : Fin 16) (w : Nat) (s : State) : KeepsRes true s (execStG c w s) := by
  unfold execStG
  have hk : Keeps true s s := Keeps.refl s
  repeat' first
    | with_reducible assumption
    | intro _
    | with_reducible exact Keeps.refl _
    | with_reducible apply State.advance_keeps
    | (with_reducible refine State.storeAt_keeps' (by assumption) ?_)
    | with_reducible apply State.storeAt_keeps
    | with_reducible apply State.mem_keeps
    | with_reducible apply State.onDev_keeps
    | with_reducible apply State.updPly_keeps
    | with_reducible apply State.updPort_keeps
    | with_reducible apply KeepsRes.next
    | with_reducible apply Keeps.ite
    | split

theorem State.withBuffer_keeps {s₀ : State} (s : State) (i : Issue) (run : Option (Nat × Nat) → State → State) (hk : Keeps wr s₀ s) (hrun : ∀ x0 x1, Keeps wr s₀ x1 → Keeps wr s₀ (run x0 x1)) : Keeps wr s₀ (State.withBuffer s i run) := by
  unfold State.withBuffer
  repeat' first
    | with_reducible assumption
    | intro _
    | with_reducible exact Keeps.refl _
    | (with_reducible refine State.fillTex_keeps (by assumption) ?_)
    | with_reducible apply State.faultAt_keeps
    | with_reducible apply State.onDev_keeps
    | with_reducible apply State.updPly_keeps
    | with_reducible apply State.updPort_keeps
    | with_reducible apply State.faultPly_keeps
    | with_reducible apply hrun
    | with_reducible apply Keeps.ite
    | split
    | dsimp only
    | simp only [Keeps.mkDev_iff]

theorem execLdB_keeps (c : Fin 16) (w : Nat) (s : State) : KeepsRes wr s (execLdB c w s) := by
  unfold execLdB
  have hk : Keeps wr s s := Keeps.refl s
  repeat' first
    | with_reducible assumption
    | intro _
    | with_reducible exact Keeps.refl _
    | with_reducible apply State.advance_keeps
    | (with_reducible refine State.loadAt_keeps' (by assumption) ?_)
    | with_reducible apply State.loadAt_keeps
    | with_reducible apply State.mem_keeps
    | with_reducible apply State.withBuffer_keeps
    | with_reducible apply State.onDev_keeps
    | with_reducible apply State.updPly_keeps
    | with_reducible apply State.updPort_keeps
    | with_reducible apply Keeps.getD
    | with_reducible apply KeepsRes.next
    | with_reducible apply Keeps.ite
    | split
    | dsimp only
    | simp only [Keeps.mkDev_iff]

theorem execStB_keeps (c : Fin 16) (w : Nat) (s : State) : KeepsRes true s (execStB c w s) := by
  unfold execStB
  have hk : Keeps true s s := Keeps.refl s
  repeat' first
    | with_reducible assumption
    | intro _
    | with_reducible exact Keeps.refl _
    | with_reducible apply State.advance_keeps
    | (with_reducible refine State.storeAt_keeps' (by assumption) ?_)
    | with_reducible apply State.storeAt_keeps
    | with_reducible apply State.mem_keeps
    | with_reducible apply State.withBuffer_keeps
    | with_reducible apply State.onDev_keeps
    | with_reducible apply State.updPly_keeps
    | with_reducible apply State.updPort_keeps
    | with_reducible apply KeepsRes.next
    | with_reducible apply Keeps.ite
    | split
    | dsimp only
    | simp only [Keeps.mkDev_iff]

theorem execLdL_keeps (c : Fin 16) (w : Nat) (s : State) : KeepsRes wr s (execLdL c w s) := by
  unfold execLdL
  have hk : Keeps wr s s := Keeps.refl s
  repeat' first
    | with_reducible assumption
    | intro _
    | with_reducible exact Keeps.refl _
    | with_reducible apply State.advance_keeps
    | with_reducible apply State.mem_keeps

theorem execStL_keeps (c : Fin 16) (w : Nat) (s : State) : KeepsRes wr s (execStL c w s) := by
  unfold execStL
  have hk : Keeps wr s s := Keeps.refl s
  repeat' first
    | with_reducible assumption
    | intro _
    | with_reducible exact Keeps.refl _
    | with_reducible apply State.advance_keeps
    | with_reducible apply State.setGroup_keeps
    | with_reducible apply State.mem_keeps
    | with_reducible apply State.onDev_keeps
    | with_reducible apply State.updPly_keeps
    | with_reducible apply State.updPort_keeps
    | with_reducible apply Keeps.foldl
    | with_reducible apply KeepsRes.next
    | with_reducible apply Keeps.ite
    | split
    | dsimp only

theorem execPlsLd_keeps (c : Fin 16) (w : Nat) (s : State) : KeepsRes wr s (execPlsLd c w s) := by
  unfold execPlsLd
  have hk : Keeps wr s s := Keeps.refl s
  repeat' first
    | with_reducible assumption
    | intro _
    | with_reducible exact Keeps.refl _
    | with_reducible apply State.advance_keeps
    | with_reducible apply State.badIns_keeps
    | with_reducible apply State.mem_keeps
    | with_reducible apply State.onDev_keeps
    | with_reducible apply State.updPly_keeps
    | with_reducible apply State.updPort_keeps
    | with_reducible apply Keeps.foldl
    | with_reducible apply KeepsRes.next
    | with_reducible apply Keeps.ite
    | split

theorem execPlsSt_keeps (c : Fin 16) (w : Nat) (s : State) : KeepsRes wr s (execPlsSt c w s) := by
  unfold execPlsSt
  have hk : Keeps wr s s := Keeps.refl s
  repeat' first
    | with_reducible assumption
    | intro _
    | with_reducible exact Keeps.refl _
    | with_reducible apply State.updCluster_keeps
    | with_reducible apply State.advance_keeps
    | with_reducible apply State.badIns_keeps
    | with_reducible apply State.mem_keeps
    | with_reducible apply State.onDev_keeps
    | with_reducible apply State.updPly_keeps
    | with_reducible apply State.updPort_keeps
    | with_reducible apply Keeps.foldl
    | with_reducible apply KeepsRes.next
    | with_reducible apply Keeps.ite
    | split

theorem State.atomicAt_keeps {s₀ : State} (s : State) (i : Issue) (at? : Nat → Option Nat) (f : Nat → Nat → Nat → Nat) (hk : Keeps true s₀ s) :
    Keeps true s₀ (s.atomicAt i at? f) := by
  unfold State.atomicAt -- manual
  extract_lets ls as rs one
  split
  · exact State.faultAt_keeps _ _ _ _ _ _ hk
  · exact State.faultAt_keeps _ _ _ _ _ _ hk
  · split
    · exact hk
    · refine State.updCluster_keeps _ _ _ (State.advance_keeps _ _ _ ?_)
      refine foldl_keeps (fun acc : State × Wave => Keeps true s₀ acc.1) _ ?_ _ _ (State.takeMem_keeps (by assumption) hk)
      intro acc l h
      unfold one
      dsimp only
      split
      · exact Keeps.getD (fun _ e => State.plyWrite_keeps e h) h
      · exact h

theorem State.atomicLocal_keeps {s₀ : State} (s : State) (i : Issue) (f : Nat → Nat → Nat → Nat) (hk : Keeps wr s₀ s) : Keeps wr s₀ (State.atomicLocal s i f) := by
  unfold State.atomicLocal
  repeat' first
    | with_reducible assumption
    | intro _
    | with_reducible exact Keeps.refl _
    | with_reducible apply State.advance_keeps
    | with_reducible apply State.setGroup_keeps
    | with_reducible apply State.onDev_keeps
    | with_reducible apply State.updPly_keeps
    | with_reducible apply State.updPort_keeps
    | with_reducible apply Keeps.foldl
    | with_reducible apply Keeps.ite
    | split
    | dsimp only

theorem State.atomic_keeps {s₀ : State} (s : State) (c : Fin 16) (w : Nat) (op : Nat) (f : Nat → Nat → Nat → Nat) (hk : Keeps true s₀ s) : KeepsRes true s₀ (State.atomic s c w op f) := by
  unfold State.atomic
  repeat' first
    | with_reducible assumption
    | intro _
    | with_reducible exact Keeps.refl _
    | with_reducible apply State.mem_keeps
    | with_reducible apply State.atomicAt_keeps
    | with_reducible apply State.atomicLocal_keeps
    | with_reducible apply State.onDev_keeps
    | with_reducible apply State.updPly_keeps
    | with_reducible apply State.updPort_keeps
    | with_reducible apply KeepsRes.next
    | with_reducible apply Keeps.ite

theorem execAtomAdd_keeps (c : Fin 16) (w : Nat) (s : State) : KeepsRes true s (execAtomAdd c w s) := by
  unfold execAtomAdd
  have hk : Keeps true s s := Keeps.refl s
  repeat' first
    | with_reducible assumption
    | intro _
    | with_reducible exact Keeps.refl _
    | with_reducible apply State.atomic_keeps

theorem execAtomMinI_keeps (c : Fin 16) (w : Nat) (s : State) : KeepsRes true s (execAtomMinI c w s) := by
  unfold execAtomMinI
  have hk : Keeps true s s := Keeps.refl s
  repeat' first
    | with_reducible assumption
    | intro _
    | with_reducible exact Keeps.refl _
    | with_reducible apply State.atomic_keeps

theorem execAtomMinU_keeps (c : Fin 16) (w : Nat) (s : State) : KeepsRes true s (execAtomMinU c w s) := by
  unfold execAtomMinU
  have hk : Keeps true s s := Keeps.refl s
  repeat' first
    | with_reducible assumption
    | intro _
    | with_reducible exact Keeps.refl _
    | with_reducible apply State.atomic_keeps

theorem execAtomMaxI_keeps (c : Fin 16) (w : Nat) (s : State) : KeepsRes true s (execAtomMaxI c w s) := by
  unfold execAtomMaxI
  have hk : Keeps true s s := Keeps.refl s
  repeat' first
    | with_reducible assumption
    | intro _
    | with_reducible exact Keeps.refl _
    | with_reducible apply State.atomic_keeps

theorem execAtomMaxU_keeps (c : Fin 16) (w : Nat) (s : State) : KeepsRes true s (execAtomMaxU c w s) := by
  unfold execAtomMaxU
  have hk : Keeps true s s := Keeps.refl s
  repeat' first
    | with_reducible assumption
    | intro _
    | with_reducible exact Keeps.refl _
    | with_reducible apply State.atomic_keeps

theorem execAtomAnd_keeps (c : Fin 16) (w : Nat) (s : State) : KeepsRes true s (execAtomAnd c w s) := by
  unfold execAtomAnd
  have hk : Keeps true s s := Keeps.refl s
  repeat' first
    | with_reducible assumption
    | intro _
    | with_reducible exact Keeps.refl _
    | with_reducible apply State.atomic_keeps

theorem execAtomOr_keeps (c : Fin 16) (w : Nat) (s : State) : KeepsRes true s (execAtomOr c w s) := by
  unfold execAtomOr
  have hk : Keeps true s s := Keeps.refl s
  repeat' first
    | with_reducible assumption
    | intro _
    | with_reducible exact Keeps.refl _
    | with_reducible apply State.atomic_keeps

theorem execAtomXor_keeps (c : Fin 16) (w : Nat) (s : State) : KeepsRes true s (execAtomXor c w s) := by
  unfold execAtomXor
  have hk : Keeps true s s := Keeps.refl s
  repeat' first
    | with_reducible assumption
    | intro _
    | with_reducible exact Keeps.refl _
    | with_reducible apply State.atomic_keeps

theorem execAtomXchg_keeps (c : Fin 16) (w : Nat) (s : State) : KeepsRes true s (execAtomXchg c w s) := by
  unfold execAtomXchg
  have hk : Keeps true s s := Keeps.refl s
  repeat' first
    | with_reducible assumption
    | intro _
    | with_reducible exact Keeps.refl _
    | with_reducible apply State.atomic_keeps

theorem execAtomCas_keeps (c : Fin 16) (w : Nat) (s : State) : KeepsRes true s (execAtomCas c w s) := by
  unfold execAtomCas
  have hk : Keeps true s s := Keeps.refl s
  repeat' first
    | with_reducible assumption
    | intro _
    | with_reducible exact Keeps.refl _
    | with_reducible apply State.atomic_keeps

theorem execAtomAddB_keeps (c : Fin 16) (w : Nat) (s : State) : KeepsRes true s (execAtomAddB c w s) := by
  unfold execAtomAddB
  have hk : Keeps true s s := Keeps.refl s
  repeat' first
    | with_reducible assumption
    | intro _
    | with_reducible exact Keeps.refl _
    | with_reducible apply State.mem_keeps
    | with_reducible apply State.withBuffer_keeps
    | with_reducible apply State.atomicAt_keeps
    | with_reducible apply State.onDev_keeps
    | with_reducible apply State.updPly_keeps
    | with_reducible apply State.updPort_keeps
    | with_reducible apply KeepsRes.next
    | with_reducible apply Keeps.ite
    | split
    | dsimp only
    | simp only [Keeps.mkDev_iff]

theorem State.export'_keeps {s₀ : State} (s : State) (c : Fin 16) (w : Nat) (op : Nat) (frag : Bool) (slot : Issue → Nat) (n : Nat) (hk : Keeps wr s₀ s) : KeepsRes wr s₀ (State.export' s c w op frag slot n) := by
  unfold State.export'
  repeat' first
    | with_reducible assumption
    | intro _
    | with_reducible exact Keeps.refl _
    | with_reducible apply State.advance_keeps
    | with_reducible apply State.badIns_keeps
    | with_reducible apply State.mem_keeps
    | with_reducible apply State.onDev_keeps
    | with_reducible apply State.updPly_keeps
    | with_reducible apply State.updPort_keeps
    | with_reducible apply Keeps.foldl
    | with_reducible apply KeepsRes.next
    | with_reducible apply Keeps.ite

theorem execOutPos_keeps (c : Fin 16) (w : Nat) (s : State) : KeepsRes wr s (execOutPos c w s) := by
  unfold execOutPos
  have hk : Keeps wr s s := Keeps.refl s
  repeat' first
    | with_reducible assumption
    | intro _
    | with_reducible exact Keeps.refl _
    | with_reducible apply State.export'_keeps

theorem execOutVar_keeps (c : Fin 16) (w : Nat) (s : State) : KeepsRes wr s (execOutVar c w s) := by
  unfold execOutVar
  have hk : Keeps wr s s := Keeps.refl s
  repeat' first
    | with_reducible assumption
    | intro _
    | with_reducible exact Keeps.refl _
    | with_reducible apply State.export'_keeps

theorem execOutColour_keeps (c : Fin 16) (w : Nat) (s : State) : KeepsRes wr s (execOutColour c w s) := by
  unfold execOutColour
  have hk : Keeps wr s s := Keeps.refl s
  repeat' first
    | with_reducible assumption
    | intro _
    | with_reducible exact Keeps.refl _
    | with_reducible apply State.export'_keeps

theorem execOutDepth_keeps (c : Fin 16) (w : Nat) (s : State) : KeepsRes wr s (execOutDepth c w s) := by
  unfold execOutDepth
  have hk : Keeps wr s s := Keeps.refl s
  repeat' first
    | with_reducible assumption
    | intro _
    | with_reducible exact Keeps.refl _
    | with_reducible apply State.export'_keeps

end Sys2Proof.Machine
end

