-- ==== Sys2Proof/Laws/Packets.lean ====
section
/-! SUPPORT. Laws/Packets.lean: the operations and commands of Machine/Packets.lean keep the queue, the canonical form of DRAM and the credits. -/
namespace Sys2Proof.Machine
variable {wr : Bool}

/-- What a packet keeps in each of its outcomes. -/
def PktKeeps (wr : Bool) (s : State) : PktRes → Prop
  | .done t => Keeps wr s t
  | .moved t => Keeps wr s t
  | .wait t => Keeps wr s t
  | .bad => True

/-- What a packet's values keep. -/
def ArgsKeeps {α : Type} (wr : Bool) (s : State) : Except PktRes (State × α) → Prop
  | .error r => PktKeeps wr s r
  | .ok x => Keeps wr s x.1

theorem PktKeeps.done {s t : State} (h : Keeps wr s t) : PktKeeps wr s (.done t) := h
theorem PktKeeps.moved {s t : State} (h : Keeps wr s t) : PktKeeps wr s (.moved t) := h
theorem PktKeeps.wait {s t : State} (h : Keeps wr s t) : PktKeeps wr s (.wait t) := h
theorem PktKeeps.bad {s : State} : PktKeeps wr s .bad := trivial
theorem ArgsKeeps.error {α : Type} {s : State} {r : PktRes} (h : PktKeeps wr s r) : ArgsKeeps wr s (.error r : Except PktRes (State × α)) := h
theorem ArgsKeeps.ok {α : Type} {s t : State} {x : α} (h : Keeps wr s t) : ArgsKeeps wr s (.ok (t, x)) := h

theorem State.passBytes_keeps {s₀ : State} (s : State) (o : Nat) (n : Nat) (hk : Keeps wr s₀ s) : Keeps wr s₀ (State.passBytes s o n) := by
  unfold State.passBytes
  repeat' first
    | with_reducible assumption
    | intro _
    | with_reducible exact Keeps.refl _
    | with_reducible apply State.updJob_keeps

theorem State.fetchPacket_keeps {s₀ s s₁ : State} {p : Fin 64} {o : Nat} {b : CmdBuf} {n : Nat} (e : s.fetchPacket p o b n = some s₁) (hk : Keeps wr s₀ s) :
    Keeps wr s₀ s₁ := by
  unfold State.fetchPacket at e -- manual
  dsimp only at e
  split at e
  · cases e; exact hk
  · obtain ⟨t, ht, rfl⟩ := Option.map_eq_some_iff.mp e
    exact State.updJob_keeps _ _ _ (State.takeMem_keeps ht hk)

theorem State.packet_keeps {s₀ : State} (s : State) (o op : Nat) (run : Job → List Nat → State → PktRes) (hk : Keeps wr s₀ s)
    (hrun : ∀ j ds t, Keeps wr s₀ t → PktKeeps wr s₀ (run j ds t)) : KeepsRes wr s₀ (s.packet o op run) := by
  unfold State.packet
  refine State.clocked_keeps _ _ hk ?_
  split
  · exact KeepsRes.next hk
  · rename_i j _
    split
    · exact KeepsRes.next hk
    · split
      · exact KeepsRes.next hk
      · extract_lets bad at0 finish
        have hbad : KeepsRes wr s₀ bad := KeepsRes.next (State.stopJob_keeps _ _ _ hk)
        have hfinish : ∀ n ds, KeepsRes wr s₀ (finish n ds) := by
          intro n ds
          unfold finish
          split
          · exact KeepsRes.next hk
          · rename_i s' hs
            have h := hrun j ds s' (State.fetchPacket_keeps hs hk)
            revert h
            cases run j ds s' with
            | done t => exact fun h => KeepsRes.next (State.passBytes_keeps _ _ _ h)
            | moved t => exact fun h => KeepsRes.next h
            | wait t => exact fun h => KeepsRes.next h
            | bad => exact fun _ => hbad
        clear_value finish bad
        have hf := fun a : Nat × Nat => KeepsRes.next (State.faultAt_keeps s j.ply a.1 a.2 false .raster hk)
        have hn := KeepsRes.next hk
        split
        · split
          · exact hfinish _ _
          · exact hn
        · split
          · exact hf (_, _)
          · dsimp only
            split
            · exact hbad
            · split
              · exact hbad
              · split
                · exact hn
                · split
                  · exact hbad
                  · split
                    · exact hf (_, _)
                    · exact hfinish _ _

theorem execPktNop_keeps (o : Nat) (s : State) : KeepsRes wr s (execPktNop o s) := by
  unfold execPktNop
  have hk : Keeps wr s s := Keeps.refl s
  repeat' first
    | with_reducible assumption
    | intro _
    | with_reducible exact Keeps.refl _
    | with_reducible apply State.packet_keeps
    | with_reducible apply PktKeeps.done

theorem execCall_keeps (o : Nat) (s : State) : KeepsRes wr s (execCall o s) := by
  unfold execCall
  have hk : Keeps wr s s := Keeps.refl s
  repeat' first
    | with_reducible assumption
    | intro _
    | with_reducible exact Keeps.refl _
    | with_reducible apply State.updJob_keeps
    | with_reducible apply State.passBytes_keeps
    | with_reducible apply State.packet_keeps
    | with_reducible apply State.onDev_keeps
    | with_reducible apply State.updPly_keeps
    | with_reducible apply State.updPort_keeps
    | with_reducible apply KeepsRes.next
    | with_reducible apply PktKeeps.done
    | with_reducible apply PktKeeps.moved
    | with_reducible apply PktKeeps.wait
    | with_reducible exact PktKeeps.bad
    | with_reducible apply ArgsKeeps.error
    | with_reducible apply ArgsKeeps.ok
    | with_reducible apply Keeps.ite
    | split
    | dsimp only
    | simp only [Keeps.mkDev_iff]

theorem execPktEnd_keeps (o : Nat) (s : State) : KeepsRes wr s (execPktEnd o s) := by
  unfold execPktEnd
  have hk : Keeps wr s s := Keeps.refl s
  repeat' first
    | with_reducible assumption
    | intro _
    | with_reducible exact Keeps.refl _
    | with_reducible apply State.updJob_keeps
    | with_reducible apply State.packet_keeps
    | with_reducible apply PktKeeps.done
    | with_reducible apply PktKeeps.moved
    | with_reducible apply PktKeeps.wait
    | with_reducible exact PktKeeps.bad
    | with_reducible apply ArgsKeeps.error
    | with_reducible apply ArgsKeeps.ok
    | with_reducible apply State.onDev_keeps
    | with_reducible apply State.updPly_keeps
    | with_reducible apply State.updPort_keeps
    | with_reducible apply KeepsRes.next
    | with_reducible apply Keeps.ite
    | split

theorem execSaveArea_keeps (o : Nat) (s : State) : KeepsRes wr s (execSaveArea o s) := by
  unfold execSaveArea
  have hk : Keeps wr s s := Keeps.refl s
  repeat' first
    | with_reducible assumption
    | intro _
    | with_reducible exact Keeps.refl _
    | with_reducible apply State.updJob_keeps
    | with_reducible apply State.packet_keeps
    | with_reducible apply PktKeeps.done
    | with_reducible apply PktKeeps.moved
    | with_reducible apply PktKeeps.wait
    | with_reducible exact PktKeeps.bad
    | with_reducible apply ArgsKeeps.error
    | with_reducible apply ArgsKeeps.ok
    | with_reducible apply State.onDev_keeps
    | with_reducible apply State.updPly_keeps
    | with_reducible apply State.updPort_keeps
    | with_reducible apply KeepsRes.next
    | with_reducible apply Keeps.ite
    | split

theorem State.updPipe_keeps {s₀ : State} (s : State) (o : Nat) (f : Pipe → Pipe) (hk : Keeps wr s₀ s) : Keeps wr s₀ (State.updPipe s o f) := by
  unfold State.updPipe
  repeat' first
    | with_reducible assumption
    | intro _
    | with_reducible exact Keeps.refl _
    | with_reducible apply State.updJob_keeps

theorem execShader_keeps (o : Nat) (s : State) : KeepsRes wr s (execShader o s) := by
  unfold execShader
  have hk : Keeps wr s s := Keeps.refl s
  repeat' first
    | with_reducible assumption
    | intro _
    | with_reducible exact Keeps.refl _
    | with_reducible apply State.packet_keeps
    | with_reducible apply State.updPipe_keeps
    | with_reducible apply PktKeeps.done
    | with_reducible apply PktKeeps.moved
    | with_reducible apply PktKeeps.wait
    | with_reducible exact PktKeeps.bad
    | with_reducible apply ArgsKeeps.error
    | with_reducible apply ArgsKeeps.ok
    | with_reducible apply State.onDev_keeps
    | with_reducible apply State.updPly_keeps
    | with_reducible apply State.updPort_keeps
    | with_reducible apply KeepsRes.next
    | with_reducible apply Keeps.ite
    | split
    | dsimp only

theorem execResources_keeps (o : Nat) (s : State) : KeepsRes wr s (execResources o s) := by
  unfold execResources
  have hk : Keeps wr s s := Keeps.refl s
  repeat' first
    | with_reducible assumption
    | intro _
    | with_reducible exact Keeps.refl _
    | with_reducible apply State.packet_keeps
    | with_reducible apply State.updPipe_keeps
    | with_reducible apply PktKeeps.done
    | with_reducible apply PktKeeps.moved
    | with_reducible apply PktKeeps.wait
    | with_reducible exact PktKeeps.bad
    | with_reducible apply ArgsKeeps.error
    | with_reducible apply ArgsKeeps.ok
    | with_reducible apply State.onDev_keeps
    | with_reducible apply State.updPly_keeps
    | with_reducible apply State.updPort_keeps
    | with_reducible apply KeepsRes.next
    | with_reducible apply Keeps.ite
    | split

theorem execConst_keeps (o : Nat) (s : State) : KeepsRes wr s (execConst o s) := by
  unfold execConst
  have hk : Keeps wr s s := Keeps.refl s
  repeat' first
    | with_reducible assumption
    | intro _
    | with_reducible exact Keeps.refl _
    | with_reducible apply State.packet_keeps
    | with_reducible apply State.updPipe_keeps
    | with_reducible apply PktKeeps.done
    | with_reducible apply PktKeeps.moved
    | with_reducible apply PktKeeps.wait
    | with_reducible exact PktKeeps.bad
    | with_reducible apply ArgsKeeps.error
    | with_reducible apply ArgsKeeps.ok
    | with_reducible apply State.onDev_keeps
    | with_reducible apply State.updPly_keeps
    | with_reducible apply State.updPort_keeps
    | with_reducible apply Keeps.foldl
    | with_reducible apply KeepsRes.next
    | with_reducible apply Keeps.ite
    | split
    | dsimp only

theorem execTarget_keeps (o : Nat) (s : State) : KeepsRes wr s (execTarget o s) := by
  unfold execTarget
  have hk : Keeps wr s s := Keeps.refl s
  repeat' first
    | with_reducible assumption
    | intro _
    | with_reducible exact Keeps.refl _
    | with_reducible apply State.packet_keeps
    | with_reducible apply State.updPipe_keeps
    | with_reducible apply State.onDev_keeps
    | with_reducible apply State.updPly_keeps
    | with_reducible apply State.updPort_keeps
    | with_reducible apply KeepsRes.next
    | with_reducible apply PktKeeps.done
    | with_reducible apply PktKeeps.moved
    | with_reducible apply PktKeeps.wait
    | with_reducible exact PktKeeps.bad
    | with_reducible apply ArgsKeeps.error
    | with_reducible apply ArgsKeeps.ok
    | with_reducible apply Keeps.ite
    | split
    | dsimp only
    | simp only [Keeps.mkDev_iff]

theorem execRaster_keeps (o : Nat) (s : State) : KeepsRes wr s (execRaster o s) := by
  unfold execRaster
  have hk : Keeps wr s s := Keeps.refl s
  repeat' first
    | with_reducible assumption
    | intro _
    | with_reducible exact Keeps.refl _
    | with_reducible apply State.packet_keeps
    | with_reducible apply State.updPipe_keeps
    | with_reducible apply PktKeeps.done
    | with_reducible apply PktKeeps.moved
    | with_reducible apply PktKeeps.wait
    | with_reducible exact PktKeeps.bad
    | with_reducible apply ArgsKeeps.error
    | with_reducible apply ArgsKeeps.ok
    | with_reducible apply State.onDev_keeps
    | with_reducible apply State.updPly_keeps
    | with_reducible apply State.updPort_keeps
    | with_reducible apply KeepsRes.next
    | with_reducible apply Keeps.ite
    | split
    | dsimp only

theorem execBlend_keeps (o : Nat) (s : State) : KeepsRes wr s (execBlend o s) := by
  unfold execBlend
  have hk : Keeps wr s s := Keeps.refl s
  repeat' first
    | with_reducible assumption
    | intro _
    | with_reducible exact Keeps.refl _
    | with_reducible apply State.packet_keeps
    | with_reducible apply State.updPipe_keeps
    | with_reducible apply PktKeeps.done
    | with_reducible apply PktKeeps.moved
    | with_reducible apply PktKeeps.wait
    | with_reducible exact PktKeeps.bad
    | with_reducible apply ArgsKeeps.error
    | with_reducible apply ArgsKeeps.ok
    | with_reducible apply State.onDev_keeps
    | with_reducible apply State.updPly_keeps
    | with_reducible apply State.updPort_keeps
    | with_reducible apply KeepsRes.next
    | with_reducible apply Keeps.ite
    | split

theorem State.startRender_keeps {s₀ : State} (s : State) (o : Nat) (final : Bool) (hk : Keeps true s₀ s) : Keeps true s₀ (State.startRender s o final) := by
  unfold State.startRender
  repeat' first
    | with_reducible assumption
    | intro _
    | with_reducible exact Keeps.refl _
    | with_reducible apply State.updPass_keeps
    | with_reducible apply State.pump_keeps

theorem State.partialOn_keeps {s₀ : State} (s : State) (o : Nat) (j : Job) (hk : Keeps true s₀ s) : Keeps true s₀ (State.partialOn s o j) := by
  unfold State.partialOn
  repeat' first
    | with_reducible assumption
    | intro _
    | with_reducible exact Keeps.refl _
    | with_reducible apply State.postPly_keeps
    | with_reducible apply State.freePages_keeps
    | with_reducible apply State.updPass_keeps
    | with_reducible apply State.pump_keeps
    | with_reducible apply PktKeeps.done
    | with_reducible apply PktKeeps.moved
    | with_reducible apply PktKeeps.wait
    | with_reducible exact PktKeeps.bad
    | with_reducible apply ArgsKeeps.error
    | with_reducible apply ArgsKeeps.ok
    | with_reducible apply State.onDev_keeps
    | with_reducible apply State.updPly_keeps
    | with_reducible apply State.updPort_keeps
    | with_reducible apply Keeps.ite
    | split
    | dsimp only

theorem State.binPages_keeps {s₀ : State} (s : State) (o n : Nat) (hk : Keeps true s₀ s) : Keeps true s₀ (s.binPages o n).1 := by
  induction n generalizing s with
  | zero => exact hk
  | succ n ih =>
    unfold State.binPages
    split
    · split
      · exact hk
      · dsimp only
        split
        · rename_i k hk'
          split at hk'
          · cases hk'
          · exact ih _ (State.updPass_keeps _ _ _ (hk.mkTake _ hk'))
        · dsimp only
          split
          · exact State.startRender_keeps _ _ _ hk
          · exact hk
    · exact hk

theorem State.binPages_keeps' {s₀ s s₁ : State} {o n : Nat} {x : Bool} (e : s.binPages o n = (s₁, x)) (hk : Keeps true s₀ s) : Keeps true s₀ s₁ := by
  have h := State.binPages_keeps s o n hk
  rw [e] at h
  exact h

theorem State.splitQuads_keeps {s₀ : State} (s : State) (o : Nat) (pages : Nat) (quads : List FragQuad) (hk : Keeps wr s₀ s) : Keeps wr s₀ (State.splitQuads s o pages quads) := by
  unfold State.splitQuads
  repeat' first
    | with_reducible assumption
    | intro _
    | with_reducible exact Keeps.refl _
    | with_reducible apply State.updPass_keeps
    | with_reducible apply State.onDev_keeps
    | with_reducible apply State.updPly_keeps
    | with_reducible apply State.updPort_keeps
    | with_reducible apply Keeps.ite
    | split
    | dsimp only
    | simp only [Keeps.mkDev_iff]

theorem State.binOn_keeps {s₀ : State} (s : State) (o : Nat) (j : Job) (pa : Pass) (pages : Nat) (quads : List (List FragQuad)) (hk : Keeps true s₀ s) : PktKeeps true s₀ (State.binOn s o j pa pages quads) := by
  unfold State.binOn
  repeat' first
    | with_reducible assumption
    | intro _
    | with_reducible exact Keeps.refl _
    | with_reducible apply State.updPass_keeps
    | with_reducible apply State.pump_keeps
    | with_reducible apply State.partialOn_keeps
    | (with_reducible refine State.binPages_keeps' (by assumption) ?_)
    | with_reducible apply State.binPages_keeps
    | with_reducible apply State.splitQuads_keeps
    | with_reducible apply State.onDev_keeps
    | with_reducible apply State.updPly_keeps
    | with_reducible apply State.updPort_keeps
    | with_reducible apply PktKeeps.done
    | with_reducible apply PktKeeps.moved
    | with_reducible apply PktKeeps.wait
    | with_reducible exact PktKeeps.bad
    | with_reducible apply ArgsKeeps.error
    | with_reducible apply ArgsKeeps.ok
    | with_reducible apply Keeps.getD
    | with_reducible apply Keeps.ite
    | split
    | dsimp only
    | simp only [Keeps.mkDev_iff]

theorem State.startDraw_keeps {s₀ : State} (s : State) (o : Nat) (j : Job) (d : Draw) (hk : Keeps true s₀ s) : PktKeeps true s₀ (State.startDraw s o j d) := by
  unfold State.startDraw
  repeat' first
    | with_reducible assumption
    | intro _
    | with_reducible exact Keeps.refl _
    | with_reducible apply State.updPass_keeps
    | with_reducible apply State.pump_keeps
    | with_reducible apply PktKeeps.done
    | with_reducible apply PktKeeps.moved
    | with_reducible apply PktKeeps.wait
    | with_reducible exact PktKeeps.bad
    | with_reducible apply ArgsKeeps.error
    | with_reducible apply ArgsKeeps.ok
    | with_reducible apply State.onDev_keeps
    | with_reducible apply State.updPly_keeps
    | with_reducible apply State.updPort_keeps
    | with_reducible apply Keeps.ite
    | split

theorem State.drawPacket_keeps {s₀ : State} (s : State) (o op pages : Nat) (quads : List (List FragQuad))
    (mk : Job → List Nat → State → Except PktRes (State × Draw)) (hk : Keeps true s₀ s) (hmk : ∀ j ds t, Keeps true s₀ t → ArgsKeeps true s₀ (mk j ds t)) :
    KeepsRes true s₀ (s.drawPacket o op pages quads mk) := by
  refine State.packet_keeps _ _ _ _ hk ?_
  intro j ds t h
  split
  · exact PktKeeps.bad
  · split
    · exact State.binOn_keeps _ _ _ _ _ _ h
    · have hm := hmk j ds t h
      revert hm
      cases mk j ds t with
      | error r => exact id
      | ok x => exact fun hm => State.startDraw_keeps _ _ _ _ hm

theorem execDraw_keeps (o : Nat) (pages : Nat) (quads : List (List FragQuad)) (s : State) : KeepsRes true s (execDraw o pages quads s) := by
  unfold execDraw
  have hk : Keeps true s s := Keeps.refl s
  repeat' first
    | with_reducible assumption
    | intro _
    | with_reducible exact Keeps.refl _
    | with_reducible apply State.drawPacket_keeps
    | with_reducible apply PktKeeps.done
    | with_reducible apply PktKeeps.moved
    | with_reducible apply PktKeeps.wait
    | with_reducible exact PktKeeps.bad
    | with_reducible apply ArgsKeeps.error
    | with_reducible apply ArgsKeeps.ok
    | with_reducible apply State.onDev_keeps
    | with_reducible apply State.updPly_keeps
    | with_reducible apply State.updPort_keeps
    | with_reducible apply KeepsRes.next
    | with_reducible apply Keeps.ite
    | split

theorem execDrawIndexed_keeps (o : Nat) (pages : Nat) (quads : List (List FragQuad)) (s : State) : KeepsRes true s (execDrawIndexed o pages quads s) := by
  unfold execDrawIndexed
  have hk : Keeps true s s := Keeps.refl s
  repeat' first
    | with_reducible assumption
    | intro _
    | with_reducible exact Keeps.refl _
    | with_reducible apply State.drawPacket_keeps
    | with_reducible apply PktKeeps.done
    | with_reducible apply PktKeeps.moved
    | with_reducible apply PktKeeps.wait
    | with_reducible exact PktKeeps.bad
    | with_reducible apply ArgsKeeps.error
    | with_reducible apply ArgsKeeps.ok
    | with_reducible apply State.onDev_keeps
    | with_reducible apply State.updPly_keeps
    | with_reducible apply State.updPort_keeps
    | with_reducible apply KeepsRes.next
    | with_reducible apply Keeps.ite
    | split
    | dsimp only

theorem State.readArgs_error {s₀ s : State} {p : Fin 64} {a n : Nat} {r : PktRes} (e : s.readArgs p a n = .error r) (hk : Keeps wr s₀ s) : PktKeeps wr s₀ r := by
  unfold State.readArgs at e
  split at e
  · cases e; exact hk
  · split at e
    · cases e; exact State.faultAt_keeps _ _ _ _ _ _ (State.takeMem_keeps (by assumption) hk)
    · cases e

theorem State.readArgs_ok {s₀ s s₁ : State} {p : Fin 64} {a n : Nat} {v : List Nat} (e : s.readArgs p a n = .ok (s₁, v)) (hk : Keeps wr s₀ s) :
    Keeps wr s₀ s₁ := by
  unfold State.readArgs at e
  split at e
  · cases e
  · split at e
    · cases e
    · cases e; exact State.takeMem_keeps (by assumption) hk

theorem execDrawIndirect_keeps (o : Nat) (pages : Nat) (quads : List (List FragQuad)) (s : State) : KeepsRes true s (execDrawIndirect o pages quads s) := by
  unfold execDrawIndirect
  have hk : Keeps true s s := Keeps.refl s
  repeat' first
    | with_reducible assumption
    | intro _
    | with_reducible exact Keeps.refl _
    | with_reducible apply State.drawPacket_keeps
    | (with_reducible refine State.readArgs_error (by assumption) ?_)
    | (with_reducible refine State.readArgs_ok (by assumption) ?_)
    | with_reducible apply PktKeeps.done
    | with_reducible apply PktKeeps.moved
    | with_reducible apply PktKeeps.wait
    | with_reducible exact PktKeeps.bad
    | with_reducible apply ArgsKeeps.error
    | with_reducible apply ArgsKeeps.ok
    | with_reducible apply State.onDev_keeps
    | with_reducible apply State.updPly_keeps
    | with_reducible apply State.updPort_keeps
    | with_reducible apply KeepsRes.next
    | with_reducible apply Keeps.ite
    | split
    | dsimp only

theorem execPassBegin_keeps (o : Nat) (s : State) : KeepsRes wr s (execPassBegin o s) := by
  unfold execPassBegin
  have hk : Keeps wr s s := Keeps.refl s
  repeat' first
    | with_reducible assumption
    | intro _
    | with_reducible exact Keeps.refl _
    | with_reducible apply State.updJob_keeps
    | with_reducible apply State.packet_keeps
    | with_reducible apply PktKeeps.done
    | with_reducible apply PktKeeps.moved
    | with_reducible apply PktKeeps.wait
    | with_reducible exact PktKeeps.bad
    | with_reducible apply ArgsKeeps.error
    | with_reducible apply ArgsKeeps.ok
    | with_reducible apply State.onDev_keeps
    | with_reducible apply State.updPly_keeps
    | with_reducible apply State.updPort_keeps
    | with_reducible apply KeepsRes.next
    | with_reducible apply Keeps.ite
    | split
    | dsimp only

theorem execPassEnd_keeps (o : Nat) (s : State) : KeepsRes true s (execPassEnd o s) := by
  unfold execPassEnd
  have hk : Keeps true s s := Keeps.refl s
  repeat' first
    | with_reducible assumption
    | intro _
    | with_reducible exact Keeps.refl _
    | with_reducible apply State.updJob_keeps
    | with_reducible apply State.freePages_keeps
    | with_reducible apply State.pump_keeps
    | with_reducible apply State.packet_keeps
    | with_reducible apply State.startRender_keeps
    | with_reducible apply PktKeeps.done
    | with_reducible apply PktKeeps.moved
    | with_reducible apply PktKeeps.wait
    | with_reducible exact PktKeeps.bad
    | with_reducible apply ArgsKeeps.error
    | with_reducible apply ArgsKeeps.ok
    | with_reducible apply State.onDev_keeps
    | with_reducible apply State.updPly_keeps
    | with_reducible apply State.updPort_keeps
    | with_reducible apply KeepsRes.next
    | with_reducible apply Keeps.ite
    | split
    | dsimp only

theorem State.startDispatch_keeps {s₀ : State} (s : State) (o : Nat) (j : Job) (x : Nat) (y : Nat) (z : Nat) (hk : Keeps true s₀ s) : PktKeeps true s₀ (State.startDispatch s o j x y z) := by
  unfold State.startDispatch
  repeat' first
    | with_reducible assumption
    | intro _
    | with_reducible exact Keeps.refl _
    | with_reducible apply State.updJob_keeps
    | with_reducible apply State.pump_keeps
    | with_reducible apply PktKeeps.done
    | with_reducible apply PktKeeps.moved
    | with_reducible apply PktKeeps.wait
    | with_reducible exact PktKeeps.bad
    | with_reducible apply ArgsKeeps.error
    | with_reducible apply ArgsKeeps.ok
    | with_reducible apply State.onDev_keeps
    | with_reducible apply State.updPly_keeps
    | with_reducible apply State.updPort_keeps
    | with_reducible apply Keeps.ite
    | split
    | dsimp only

theorem execDispatch_keeps (o : Nat) (s : State) : KeepsRes true s (execDispatch o s) := by
  unfold execDispatch
  have hk : Keeps true s s := Keeps.refl s
  repeat' first
    | with_reducible assumption
    | intro _
    | with_reducible exact Keeps.refl _
    | with_reducible apply State.packet_keeps
    | with_reducible apply State.startDispatch_keeps

theorem execDispatchIndirect_keeps (o : Nat) (s : State) : KeepsRes true s (execDispatchIndirect o s) := by
  unfold execDispatchIndirect
  have hk : Keeps true s s := Keeps.refl s
  repeat' first
    | with_reducible assumption
    | intro _
    | with_reducible exact Keeps.refl _
    | with_reducible apply State.packet_keeps
    | (with_reducible refine State.readArgs_error (by assumption) ?_)
    | (with_reducible refine State.readArgs_ok (by assumption) ?_)
    | with_reducible apply State.startDispatch_keeps
    | with_reducible apply PktKeeps.done
    | with_reducible apply PktKeeps.moved
    | with_reducible apply PktKeeps.wait
    | with_reducible exact PktKeeps.bad
    | with_reducible apply ArgsKeeps.error
    | with_reducible apply ArgsKeeps.ok
    | with_reducible apply State.onDev_keeps
    | with_reducible apply State.updPly_keeps
    | with_reducible apply State.updPort_keeps
    | with_reducible apply KeepsRes.next
    | with_reducible apply Keeps.ite
    | split

theorem execPktBarrier_keeps (o : Nat) (s : State) : KeepsRes wr s (execPktBarrier o s) := by
  unfold execPktBarrier
  have hk : Keeps wr s s := Keeps.refl s
  repeat' first
    | with_reducible assumption
    | intro _
    | with_reducible exact Keeps.refl _
    | with_reducible apply State.each_keeps
    | with_reducible apply State.updJob_keeps
    | with_reducible apply State.updCluster_keeps
    | with_reducible apply State.packet_keeps
    | with_reducible apply State.onDev_keeps
    | with_reducible apply State.updPly_keeps
    | with_reducible apply State.updPort_keeps
    | with_reducible apply KeepsRes.next
    | with_reducible apply PktKeeps.done
    | with_reducible apply PktKeeps.moved
    | with_reducible apply PktKeeps.wait
    | with_reducible exact PktKeeps.bad
    | with_reducible apply ArgsKeeps.error
    | with_reducible apply ArgsKeeps.ok
    | with_reducible apply Keeps.ite
    | split
    | dsimp only
    | simp only [Keeps.mkDev_iff]

theorem execPktSignal_keeps (o : Nat) (s : State) : KeepsRes wr s (execPktSignal o s) := by
  unfold execPktSignal
  have hk : Keeps wr s s := Keeps.refl s
  repeat' first
    | with_reducible assumption
    | intro _
    | with_reducible exact Keeps.refl _
    | with_reducible apply State.signal_keeps
    | with_reducible apply State.packet_keeps
    | with_reducible apply State.onDev_keeps
    | with_reducible apply State.updPly_keeps
    | with_reducible apply State.updPort_keeps
    | with_reducible apply KeepsRes.next
    | with_reducible apply PktKeeps.done
    | with_reducible apply PktKeeps.moved
    | with_reducible apply PktKeeps.wait
    | with_reducible exact PktKeeps.bad
    | with_reducible apply ArgsKeeps.error
    | with_reducible apply ArgsKeeps.ok
    | with_reducible apply Keeps.ite
    | split
    | dsimp only
    | simp only [Keeps.mkDev_iff]

theorem execTimestamp_keeps (o : Nat) (s : State) : KeepsRes true s (execTimestamp o s) := by
  unfold execTimestamp
  have hk : Keeps true s s := Keeps.refl s
  repeat' first
    | with_reducible assumption
    | intro _
    | with_reducible exact Keeps.refl _
    | (with_reducible refine State.plyWrite_keeps (by assumption) ?_)
    | (with_reducible refine State.takeMem_keeps (by assumption) ?_)
    | with_reducible apply State.faultAt_keeps
    | with_reducible apply State.packet_keeps
    | with_reducible apply State.onDev_keeps
    | with_reducible apply State.updPly_keeps
    | with_reducible apply State.updPort_keeps
    | (with_reducible refine Keeps.mkTake _ (by assumption) ?_)
    | with_reducible apply KeepsRes.next
    | with_reducible apply State.faultPly_keeps
    | with_reducible apply PktKeeps.done
    | with_reducible apply PktKeeps.moved
    | with_reducible apply PktKeeps.wait
    | with_reducible exact PktKeeps.bad
    | with_reducible apply ArgsKeeps.error
    | with_reducible apply ArgsKeeps.ok
    | with_reducible apply Keeps.ite
    | split
    | dsimp only
    | simp only [Keeps.mkDev_iff]

end Sys2Proof.Machine
end

