-- ==== Sys2Proof/Laws/Registers.lean ====
section
/-! SUPPORT. Laws/Registers.lean: the operations and commands of Machine/Registers.lean keep the queue, the canonical form of DRAM and the credits. -/
namespace Sys2Proof.Machine
variable {wr : Bool}

theorem execRegisterWrite_keeps (q : Fin 4) (bar2 : Bool) (off : Nat) (value : Word) (s : State) : KeepsRes wr s (execRegisterWrite q bar2 off value s) := by
  unfold execRegisterWrite
  have hk : Keeps wr s s := Keeps.refl s
  repeat' first
    | with_reducible assumption
    | intro _
    | with_reducible exact Keeps.refl _
    | with_reducible apply State.onDev_keeps
    | with_reducible apply State.updPly_keeps
    | with_reducible apply State.clocked_keeps
    | with_reducible apply State.audioCatchUp_keeps
    | with_reducible apply State.updPort_keeps
    | with_reducible apply KeepsRes.next
    | with_reducible apply Keeps.ite
    | split
    | dsimp only
    | simp only [Keeps.mkDev_iff]

theorem execSknAuditRelease_keeps (q : Fin 4) (s : State) : KeepsRes wr s (execSknAuditRelease q s) := by
  refine State.clocked_keeps _ _ (Keeps.refl s) ?_
  split
  · exact KeepsRes.next ((Keeps.refl s).mkSkein _ _ id)
  · exact KeepsRes.next (Keeps.refl s)

theorem execSknAuditEpochLoRead_keeps (q : PairRead) (s : State) : KeepsRes wr s (execSknAuditEpochLoRead q s) := by
  unfold execSknAuditEpochLoRead
  have hk : Keeps wr s s := Keeps.refl s
  repeat' first
    | with_reducible assumption
    | intro _
    | with_reducible exact Keeps.refl _
    | with_reducible apply State.auditEpoch_keeps
    | with_reducible apply State.clocked_keeps
    | with_reducible apply State.readPair_keeps
    | with_reducible apply State.onDev_keeps
    | with_reducible apply State.updPly_keeps
    | with_reducible apply State.updPort_keeps
    | (with_reducible refine Keeps.mkTake _ (by assumption) ?_)
    | with_reducible apply KeepsRes.next
    | with_reducible apply State.emit_keeps
    | with_reducible apply Keeps.ite
    | split
    | dsimp only
    | simp only [Keeps.mkDev_iff]

theorem execPortEvtData7Read_keeps (q : Fin 4) (s : State) : KeepsRes wr s (execPortEvtData7Read q s) := by
  unfold execPortEvtData7Read
  have hk : Keeps wr s s := Keeps.refl s
  repeat' first
    | with_reducible assumption
    | intro _
    | with_reducible exact Keeps.refl _
    | with_reducible apply State.emit_keeps
    | with_reducible apply State.onDev_keeps
    | with_reducible apply State.updPly_keeps
    | with_reducible apply State.updPort_keeps
    | with_reducible apply KeepsRes.next
    | with_reducible apply State.clocked_keeps

theorem execPortEvtStatusRead_keeps (q : Fin 4) (s : State) : KeepsRes wr s (execPortEvtStatusRead q s) := by
  unfold execPortEvtStatusRead
  have hk : Keeps wr s s := Keeps.refl s
  repeat' first
    | with_reducible assumption
    | intro _
    | with_reducible exact Keeps.refl _
    | with_reducible apply State.emit_keeps
    | with_reducible apply State.onDev_keeps
    | with_reducible apply State.updPly_keeps
    | with_reducible apply State.updPort_keeps
    | with_reducible apply KeepsRes.next
    | with_reducible apply State.clocked_keeps

end Sys2Proof.Machine
end

