-- ==== Sys2Proof/Laws/Parse.lean ====
section
/-! SUPPORT. Laws/Parse.lean: the operations and commands of Machine/Parse.lean keep the queue, the canonical form of DRAM and the credits. -/
namespace Sys2Proof.Machine
variable {wr : Bool}

theorem State.reserveEntry_keeps {s₀ : State} (s : State) (p : Fin 64) (r : Fin 4) (order : Nat) (hk : Keeps wr s₀ s) : Keeps wr s₀ (State.reserveEntry s p r order) := by
  unfold State.reserveEntry
  repeat' first
    | with_reducible assumption
    | intro _
    | with_reducible exact Keeps.refl _
    | with_reducible apply State.onDev_keeps
    | with_reducible apply State.updCq_keeps
    | with_reducible apply State.wantCons_keeps
    | with_reducible apply State.updDesc_keeps
    | with_reducible apply State.updPly_keeps
    | with_reducible apply State.updPort_keeps
    | with_reducible apply Keeps.ite
    | split
    | dsimp only
    | simp only [Keeps.mkDev_iff]

theorem State.checkOnce_keeps {s₀ s t : State} {p : Fin 64} {r : Fin 4} {f : InFlight} {st : Nat}
    (e : (if f.seen then some (s, f.status) else s.checkLayer p r f) = some (t, st)) (hk : Keeps wr s₀ s) : Keeps wr s₀ t := by
  split at e
  · cases e; exact hk
  · exact State.checkLayer_keeps e hk

theorem State.parseLayer_keeps {s₀ : State} (s : State) (p : Fin 64) (r : Fin 4) (f : InFlight) (hk : Keeps wr s₀ s) : Keeps wr s₀ (State.parseLayer s p r f) := by
  unfold State.parseLayer
  repeat' first
    | with_reducible assumption
    | intro _
    | with_reducible exact Keeps.refl _
    | with_reducible apply State.groupsOnLayer_keeps
    | with_reducible apply State.updDesc_keeps
    | (with_reducible refine State.checkLayer_keeps (by assumption) ?_)
    | with_reducible apply State.reserveEntry_keeps
    | with_reducible apply State.onDev_keeps
    | with_reducible apply State.updPly_keeps
    | with_reducible apply State.updPort_keeps
    | (with_reducible refine State.checkOnce_keeps (by assumption) ?_)
    | (with_reducible refine State.takeMem_keeps (by assumption) ?_)
    | with_reducible apply Keeps.getD
    | (with_reducible refine Keeps.mkTake _ (by assumption) ?_)
    | with_reducible apply Keeps.ite
    | split
    | dsimp only
    | simp only [Keeps.mkDev_iff]

theorem State.holdOrArm_keeps {s₀ : State} (s : State) (p : Fin 64) (r : Fin 4) (order : Nat) (hk : Keeps wr s₀ s) : Keeps wr s₀ (State.holdOrArm s p r order) := by
  unfold State.holdOrArm
  repeat' first
    | with_reducible assumption
    | intro _
    | with_reducible exact Keeps.refl _
    | with_reducible apply State.releaseHead_keeps
    | with_reducible apply State.reserveEntry_keeps
    | with_reducible apply State.onDev_keeps
    | with_reducible apply State.updPly_keeps
    | with_reducible apply State.updPort_keeps
    | with_reducible apply Keeps.ite
    | split
    | dsimp only
    | simp only [Keeps.mkDev_iff]

theorem execDescriptorParse_keeps (p : Fin 64) (r : Fin 4) (s : State) : KeepsRes wr s (execDescriptorParse p r s) := by
  unfold execDescriptorParse
  have hk : Keeps wr s s := Keeps.refl s
  repeat' first
    | with_reducible assumption
    | intro _
    | with_reducible exact Keeps.refl _
    | with_reducible apply State.clocked_keeps
    | (with_reducible refine State.takeMem_keeps (by assumption) ?_)
    | with_reducible apply State.faultAt_keeps
    | with_reducible apply State.settleGroup_keeps
    | with_reducible apply State.updDesc_keeps
    | with_reducible apply State.finishDesc_keeps
    | with_reducible apply State.parseLayer_keeps
    | with_reducible apply State.holdOrArm_keeps
    | with_reducible apply State.onDev_keeps
    | with_reducible apply State.updPly_keeps
    | with_reducible apply State.updPort_keeps
    | (with_reducible refine Keeps.mkTake _ (by assumption) ?_)
    | with_reducible apply KeepsRes.next
    | with_reducible apply State.reserveEntry_keeps
    | with_reducible apply Keeps.getD
    | with_reducible apply Keeps.ite
    | split
    | dsimp only
    | simp only [Keeps.mkDev_iff]

end Sys2Proof.Machine
end

