-- ==== Sys2Proof/Laws/Scalar.lean ====
section
/-! SUPPORT. Laws/Scalar.lean: the operations and commands of Machine/Scalar.lean keep the queue, the canonical form of DRAM and the credits. -/
namespace Sys2Proof.Machine
variable {wr : Bool}

theorem execSMov_keeps (c : Fin 16) (w : Nat) (s : State) : KeepsRes wr s (execSMov c w s) := by
  unfold execSMov
  have hk : Keeps wr s s := Keeps.refl s
  repeat' first
    | with_reducible assumption
    | intro _
    | with_reducible exact Keeps.refl _
    | with_reducible apply State.sclOp_keeps

theorem execSMovi_keeps (c : Fin 16) (w : Nat) (s : State) : KeepsRes wr s (execSMovi c w s) := by
  unfold execSMovi
  have hk : Keeps wr s s := Keeps.refl s
  repeat' first
    | with_reducible assumption
    | intro _
    | with_reducible exact Keeps.refl _
    | with_reducible apply State.advance_keeps
    | with_reducible apply State.scl_keeps

theorem execSAdd_keeps (c : Fin 16) (w : Nat) (s : State) : KeepsRes wr s (execSAdd c w s) := by
  unfold execSAdd
  have hk : Keeps wr s s := Keeps.refl s
  repeat' first
    | with_reducible assumption
    | intro _
    | with_reducible exact Keeps.refl _
    | with_reducible apply State.sclOp_keeps

theorem execSSub_keeps (c : Fin 16) (w : Nat) (s : State) : KeepsRes wr s (execSSub c w s) := by
  unfold execSSub
  have hk : Keeps wr s s := Keeps.refl s
  repeat' first
    | with_reducible assumption
    | intro _
    | with_reducible exact Keeps.refl _
    | with_reducible apply State.sclOp_keeps

theorem execSMulLo_keeps (c : Fin 16) (w : Nat) (s : State) : KeepsRes wr s (execSMulLo c w s) := by
  unfold execSMulLo
  have hk : Keeps wr s s := Keeps.refl s
  repeat' first
    | with_reducible assumption
    | intro _
    | with_reducible exact Keeps.refl _
    | with_reducible apply State.sclOp_keeps

theorem execSAnd_keeps (c : Fin 16) (w : Nat) (s : State) : KeepsRes wr s (execSAnd c w s) := by
  unfold execSAnd
  have hk : Keeps wr s s := Keeps.refl s
  repeat' first
    | with_reducible assumption
    | intro _
    | with_reducible exact Keeps.refl _
    | with_reducible apply State.sclOp_keeps

theorem execSOr_keeps (c : Fin 16) (w : Nat) (s : State) : KeepsRes wr s (execSOr c w s) := by
  unfold execSOr
  have hk : Keeps wr s s := Keeps.refl s
  repeat' first
    | with_reducible assumption
    | intro _
    | with_reducible exact Keeps.refl _
    | with_reducible apply State.sclOp_keeps

theorem execSXor_keeps (c : Fin 16) (w : Nat) (s : State) : KeepsRes wr s (execSXor c w s) := by
  unfold execSXor
  have hk : Keeps wr s s := Keeps.refl s
  repeat' first
    | with_reducible assumption
    | intro _
    | with_reducible exact Keeps.refl _
    | with_reducible apply State.sclOp_keeps

theorem execSShl_keeps (c : Fin 16) (w : Nat) (s : State) : KeepsRes wr s (execSShl c w s) := by
  unfold execSShl
  have hk : Keeps wr s s := Keeps.refl s
  repeat' first
    | with_reducible assumption
    | intro _
    | with_reducible exact Keeps.refl _
    | with_reducible apply State.sclOp_keeps

theorem execSShrU_keeps (c : Fin 16) (w : Nat) (s : State) : KeepsRes wr s (execSShrU c w s) := by
  unfold execSShrU
  have hk : Keeps wr s s := Keeps.refl s
  repeat' first
    | with_reducible assumption
    | intro _
    | with_reducible exact Keeps.refl _
    | with_reducible apply State.sclOp_keeps

theorem execSMinU_keeps (c : Fin 16) (w : Nat) (s : State) : KeepsRes wr s (execSMinU c w s) := by
  unfold execSMinU
  have hk : Keeps wr s s := Keeps.refl s
  repeat' first
    | with_reducible assumption
    | intro _
    | with_reducible exact Keeps.refl _
    | with_reducible apply State.sclOp_keeps

theorem execSMaxU_keeps (c : Fin 16) (w : Nat) (s : State) : KeepsRes wr s (execSMaxU c w s) := by
  unfold execSMaxU
  have hk : Keeps wr s s := Keeps.refl s
  repeat' first
    | with_reducible assumption
    | intro _
    | with_reducible exact Keeps.refl _
    | with_reducible apply State.sclOp_keeps

theorem execSCmpEq_keeps (c : Fin 16) (w : Nat) (s : State) : KeepsRes wr s (execSCmpEq c w s) := by
  unfold execSCmpEq
  have hk : Keeps wr s s := Keeps.refl s
  repeat' first
    | with_reducible assumption
    | intro _
    | with_reducible exact Keeps.refl _
    | with_reducible apply State.sclOp_keeps

theorem execSCmpLtU_keeps (c : Fin 16) (w : Nat) (s : State) : KeepsRes wr s (execSCmpLtU c w s) := by
  unfold execSCmpLtU
  have hk : Keeps wr s s := Keeps.refl s
  repeat' first
    | with_reducible assumption
    | intro _
    | with_reducible exact Keeps.refl _
    | with_reducible apply State.sclOp_keeps

theorem execSCmpLtI_keeps (c : Fin 16) (w : Nat) (s : State) : KeepsRes wr s (execSCmpLtI c w s) := by
  unfold execSCmpLtI
  have hk : Keeps wr s s := Keeps.refl s
  repeat' first
    | with_reducible assumption
    | intro _
    | with_reducible exact Keeps.refl _
    | with_reducible apply State.sclOp_keeps

theorem execPAnd_keeps (c : Fin 16) (w : Nat) (s : State) : KeepsRes wr s (execPAnd c w s) := by
  unfold execPAnd
  have hk : Keeps wr s s := Keeps.refl s
  repeat' first
    | with_reducible assumption
    | intro _
    | with_reducible exact Keeps.refl _
    | with_reducible apply State.sclPred_keeps

theorem execPOr_keeps (c : Fin 16) (w : Nat) (s : State) : KeepsRes wr s (execPOr c w s) := by
  unfold execPOr
  have hk : Keeps wr s s := Keeps.refl s
  repeat' first
    | with_reducible assumption
    | intro _
    | with_reducible exact Keeps.refl _
    | with_reducible apply State.sclPred_keeps

theorem execPXor_keeps (c : Fin 16) (w : Nat) (s : State) : KeepsRes wr s (execPXor c w s) := by
  unfold execPXor
  have hk : Keeps wr s s := Keeps.refl s
  repeat' first
    | with_reducible assumption
    | intro _
    | with_reducible exact Keeps.refl _
    | with_reducible apply State.sclPred_keeps

theorem execPAndn_keeps (c : Fin 16) (w : Nat) (s : State) : KeepsRes wr s (execPAndn c w s) := by
  unfold execPAndn
  have hk : Keeps wr s s := Keeps.refl s
  repeat' first
    | with_reducible assumption
    | intro _
    | with_reducible exact Keeps.refl _
    | with_reducible apply State.sclPred_keeps

theorem execPNot_keeps (c : Fin 16) (w : Nat) (s : State) : KeepsRes wr s (execPNot c w s) := by
  unfold execPNot
  have hk : Keeps wr s s := Keeps.refl s
  repeat' first
    | with_reducible assumption
    | intro _
    | with_reducible exact Keeps.refl _
    | with_reducible apply State.sclPred_keeps

theorem execPTos_keeps (c : Fin 16) (w : Nat) (s : State) : KeepsRes wr s (execPTos c w s) := by
  unfold execPTos
  have hk : Keeps wr s s := Keeps.refl s
  repeat' first
    | with_reducible assumption
    | intro _
    | with_reducible exact Keeps.refl _
    | with_reducible apply State.advance_keeps
    | with_reducible apply State.scl_keeps

theorem execPFroms_keeps (c : Fin 16) (w : Nat) (s : State) : KeepsRes wr s (execPFroms c w s) := by
  unfold execPFroms
  have hk : Keeps wr s s := Keeps.refl s
  repeat' first
    | with_reducible assumption
    | intro _
    | with_reducible exact Keeps.refl _
    | with_reducible apply State.advance_keeps
    | with_reducible apply State.scl_keeps

theorem execBra_keeps (c : Fin 16) (w : Nat) (s : State) : KeepsRes wr s (execBra c w s) := by
  unfold execBra
  have hk : Keeps wr s s := Keeps.refl s
  repeat' first
    | with_reducible assumption
    | intro _
    | with_reducible exact Keeps.refl _
    | with_reducible apply State.branch_keeps

theorem execBraSz_keeps (c : Fin 16) (w : Nat) (s : State) : KeepsRes wr s (execBraSz c w s) := by
  unfold execBraSz
  have hk : Keeps wr s s := Keeps.refl s
  repeat' first
    | with_reducible assumption
    | intro _
    | with_reducible exact Keeps.refl _
    | with_reducible apply State.branch_keeps

theorem execBraSnz_keeps (c : Fin 16) (w : Nat) (s : State) : KeepsRes wr s (execBraSnz c w s) := by
  unfold execBraSnz
  have hk : Keeps wr s s := Keeps.refl s
  repeat' first
    | with_reducible assumption
    | intro _
    | with_reducible exact Keeps.refl _
    | with_reducible apply State.branch_keeps

theorem execBraPany_keeps (c : Fin 16) (w : Nat) (s : State) : KeepsRes wr s (execBraPany c w s) := by
  unfold execBraPany
  have hk : Keeps wr s s := Keeps.refl s
  repeat' first
    | with_reducible assumption
    | intro _
    | with_reducible exact Keeps.refl _
    | with_reducible apply State.branch_keeps

theorem execBraPnone_keeps (c : Fin 16) (w : Nat) (s : State) : KeepsRes wr s (execBraPnone c w s) := by
  unfold execBraPnone
  have hk : Keeps wr s s := Keeps.refl s
  repeat' first
    | with_reducible assumption
    | intro _
    | with_reducible exact Keeps.refl _
    | with_reducible apply State.branch_keeps

theorem State.reconverge_keeps {s₀ : State} (s : State) (i : Issue) (w : Wave) (pc : Nat) (hk : Keeps wr s₀ s) : Keeps wr s₀ (State.reconverge s i w pc) := by
  unfold State.reconverge
  repeat' first
    | with_reducible assumption
    | intro _
    | with_reducible exact Keeps.refl _
    | with_reducible apply State.advance_keeps
    | with_reducible apply State.jump_keeps
    | with_reducible apply State.onDev_keeps
    | with_reducible apply State.updPly_keeps
    | with_reducible apply State.updPort_keeps
    | with_reducible apply Keeps.ite

theorem execIf_keeps (c : Fin 16) (w : Nat) (s : State) : KeepsRes wr s (execIf c w s) := by
  unfold execIf
  have hk : Keeps wr s s := Keeps.refl s
  repeat' first
    | with_reducible assumption
    | intro _
    | with_reducible exact Keeps.refl _
    | with_reducible apply State.badIns_keeps
    | with_reducible apply State.scl_keeps
    | with_reducible apply State.reconverge_keeps
    | with_reducible apply State.onDev_keeps
    | with_reducible apply State.updPly_keeps
    | with_reducible apply State.updPort_keeps
    | with_reducible apply KeepsRes.next
    | with_reducible apply Keeps.ite
    | split
    | dsimp only

theorem execElse_keeps (c : Fin 16) (w : Nat) (s : State) : KeepsRes wr s (execElse c w s) := by
  unfold execElse
  have hk : Keeps wr s s := Keeps.refl s
  repeat' first
    | with_reducible assumption
    | intro _
    | with_reducible exact Keeps.refl _
    | with_reducible apply State.badIns_keeps
    | with_reducible apply State.scl_keeps
    | with_reducible apply State.reconverge_keeps
    | with_reducible apply State.onDev_keeps
    | with_reducible apply State.updPly_keeps
    | with_reducible apply State.updPort_keeps
    | with_reducible apply KeepsRes.next
    | with_reducible apply Keeps.ite
    | split

theorem execEndif_keeps (c : Fin 16) (w : Nat) (s : State) : KeepsRes wr s (execEndif c w s) := by
  unfold execEndif
  have hk : Keeps wr s s := Keeps.refl s
  repeat' first
    | with_reducible assumption
    | intro _
    | with_reducible exact Keeps.refl _
    | with_reducible apply State.advance_keeps
    | with_reducible apply State.badIns_keeps
    | with_reducible apply State.scl_keeps
    | with_reducible apply State.onDev_keeps
    | with_reducible apply State.updPly_keeps
    | with_reducible apply State.updPort_keeps
    | with_reducible apply KeepsRes.next
    | with_reducible apply Keeps.ite
    | split

theorem execLoop_keeps (c : Fin 16) (w : Nat) (s : State) : KeepsRes wr s (execLoop c w s) := by
  unfold execLoop
  have hk : Keeps wr s s := Keeps.refl s
  repeat' first
    | with_reducible assumption
    | intro _
    | with_reducible exact Keeps.refl _
    | with_reducible apply State.advance_keeps
    | with_reducible apply State.badIns_keeps
    | with_reducible apply State.scl_keeps
    | with_reducible apply State.onDev_keeps
    | with_reducible apply State.updPly_keeps
    | with_reducible apply State.updPort_keeps
    | with_reducible apply KeepsRes.next
    | with_reducible apply Keeps.ite
    | split

theorem execBreak_keeps (c : Fin 16) (w : Nat) (s : State) : KeepsRes wr s (execBreak c w s) := by
  unfold execBreak
  have hk : Keeps wr s s := Keeps.refl s
  repeat' first
    | with_reducible assumption
    | intro _
    | with_reducible exact Keeps.refl _
    | with_reducible apply State.advance_keeps
    | with_reducible apply State.badIns_keeps
    | with_reducible apply State.scl_keeps
    | with_reducible apply State.jump_keeps
    | with_reducible apply State.onDev_keeps
    | with_reducible apply State.updPly_keeps
    | with_reducible apply State.updPort_keeps
    | with_reducible apply Keeps.foldl
    | with_reducible apply KeepsRes.next
    | with_reducible apply Keeps.ite
    | split

theorem execCont_keeps (c : Fin 16) (w : Nat) (s : State) : KeepsRes wr s (execCont c w s) := by
  unfold execCont
  have hk : Keeps wr s s := Keeps.refl s
  repeat' first
    | with_reducible assumption
    | intro _
    | with_reducible exact Keeps.refl _
    | with_reducible apply State.advance_keeps
    | with_reducible apply State.badIns_keeps
    | with_reducible apply State.scl_keeps
    | with_reducible apply State.onDev_keeps
    | with_reducible apply State.updPly_keeps
    | with_reducible apply State.updPort_keeps
    | with_reducible apply KeepsRes.next
    | with_reducible apply Keeps.ite
    | split

theorem execEndloop_keeps (c : Fin 16) (w : Nat) (s : State) : KeepsRes wr s (execEndloop c w s) := by
  unfold execEndloop
  have hk : Keeps wr s s := Keeps.refl s
  repeat' first
    | with_reducible assumption
    | intro _
    | with_reducible exact Keeps.refl _
    | with_reducible apply State.advance_keeps
    | with_reducible apply State.badIns_keeps
    | with_reducible apply State.scl_keeps
    | with_reducible apply State.jump_keeps
    | with_reducible apply State.onDev_keeps
    | with_reducible apply State.updPly_keeps
    | with_reducible apply State.updPort_keeps
    | with_reducible apply KeepsRes.next
    | with_reducible apply Keeps.ite
    | split

theorem execKill_keeps (c : Fin 16) (w : Nat) (s : State) : KeepsRes wr s (execKill c w s) := by
  unfold execKill
  have hk : Keeps wr s s := Keeps.refl s
  repeat' first
    | with_reducible assumption
    | intro _
    | with_reducible exact Keeps.refl _
    | with_reducible apply State.leave_keeps
    | with_reducible apply State.advance_keeps
    | with_reducible apply State.badIns_keeps
    | with_reducible apply State.scl_keeps
    | with_reducible apply State.onDev_keeps
    | with_reducible apply State.updPly_keeps
    | with_reducible apply State.updPort_keeps
    | with_reducible apply KeepsRes.next
    | with_reducible apply Keeps.ite
    | split

theorem execWaveEnd_keeps (c : Fin 16) (w : Nat) (s : State) : KeepsRes true s (execWaveEnd c w s) := by
  unfold execWaveEnd
  have hk : Keeps true s s := Keeps.refl s
  repeat' first
    | with_reducible assumption
    | intro _
    | with_reducible exact Keeps.refl _
    | with_reducible apply State.scl_keeps
    | with_reducible apply State.endWave_keeps

theorem execBar_keeps (c : Fin 16) (w : Nat) (s : State) : KeepsRes wr s (execBar c w s) := by
  unfold execBar
  have hk : Keeps wr s s := Keeps.refl s
  repeat' first
    | with_reducible assumption
    | intro _
    | with_reducible exact Keeps.refl _
    | with_reducible apply State.updCluster_keeps
    | with_reducible apply State.advance_keeps
    | with_reducible apply State.scl_keeps
    | with_reducible apply State.onDev_keeps
    | with_reducible apply State.updPly_keeps
    | with_reducible apply State.updPort_keeps
    | with_reducible apply KeepsRes.next
    | with_reducible apply Keeps.ite
    | split

theorem execMembarWg_keeps (c : Fin 16) (w : Nat) (s : State) : KeepsRes wr s (execMembarWg c w s) := by
  unfold execMembarWg
  have hk : Keeps wr s s := Keeps.refl s
  repeat' first
    | with_reducible assumption
    | intro _
    | with_reducible exact Keeps.refl _
    | with_reducible apply State.advance_keeps
    | with_reducible apply State.scl_keeps

theorem execMembarDev_keeps (c : Fin 16) (w : Nat) (s : State) : KeepsRes wr s (execMembarDev c w s) := by
  unfold execMembarDev
  have hk : Keeps wr s s := Keeps.refl s
  repeat' first
    | with_reducible assumption
    | intro _
    | with_reducible exact Keeps.refl _
    | with_reducible apply State.updCluster_keeps
    | with_reducible apply State.advance_keeps
    | with_reducible apply State.scl_keeps

theorem execIdle_keeps (c : Fin 16) (w : Nat) (s : State) : KeepsRes wr s (execIdle c w s) := by
  unfold execIdle
  have hk : Keeps wr s s := Keeps.refl s
  repeat' first
    | with_reducible assumption
    | intro _
    | with_reducible exact Keeps.refl _
    | with_reducible apply State.advance_keeps
    | with_reducible apply State.scl_keeps

theorem execTime_keeps (c : Fin 16) (w : Nat) (s : State) : KeepsRes wr s (execTime c w s) := by
  unfold execTime
  have hk : Keeps wr s s := Keeps.refl s
  repeat' first
    | with_reducible assumption
    | intro _
    | with_reducible exact Keeps.refl _
    | with_reducible apply State.advance_keeps
    | with_reducible apply State.badIns_keeps
    | with_reducible apply State.scl_keeps
    | with_reducible apply State.onDev_keeps
    | with_reducible apply State.updPly_keeps
    | with_reducible apply State.updPort_keeps
    | with_reducible apply KeepsRes.next
    | with_reducible apply Keeps.ite

theorem execIlkBegin_keeps (c : Fin 16) (w : Nat) (s : State) : KeepsRes wr s (execIlkBegin c w s) := by
  unfold execIlkBegin
  have hk : Keeps wr s s := Keeps.refl s
  repeat' first
    | with_reducible assumption
    | intro _
    | with_reducible exact Keeps.refl _
    | with_reducible apply State.advance_keeps
    | with_reducible apply State.scl_keeps
    | with_reducible apply State.onDev_keeps
    | with_reducible apply State.updPly_keeps
    | with_reducible apply State.updPort_keeps
    | with_reducible apply KeepsRes.next
    | with_reducible apply Keeps.ite
    | split

theorem execIlkEnd_keeps (c : Fin 16) (w : Nat) (s : State) : KeepsRes wr s (execIlkEnd c w s) := by
  unfold execIlkEnd
  have hk : Keeps wr s s := Keeps.refl s
  repeat' first
    | with_reducible assumption
    | intro _
    | with_reducible exact Keeps.refl _
    | with_reducible apply State.leave_keeps
    | with_reducible apply State.advance_keeps
    | with_reducible apply State.scl_keeps

end Sys2Proof.Machine
end

