-- ==== Sys2Proof/Laws/Spdm.lean ====
section
/-! SUPPORT. Laws/Spdm.lean: the operations and commands of Machine/Spdm.lean keep the queue, the canonical form of DRAM and the credits. -/
namespace Sys2Proof.Machine
variable {wr : Bool}

theorem State.doe_keeps {s₀ : State} (s : State) (q : Fin 4) (bs : List Byte) (hk : Keeps wr s₀ s) : Keeps wr s₀ (State.doe s q bs) := by
  unfold State.doe
  repeat' first
    | with_reducible assumption
    | intro _
    | with_reducible exact Keeps.refl _
    | with_reducible apply State.emit_keeps

theorem State.freeBytes_keeps {s₀ : State} (s : State) (n : Nat) (hk : Keeps wr s₀ s) : Keeps wr s₀ (s.freeBytes n).1 := State.tick_keeps s hk

theorem State.spdm_keeps {s₀ : State} (s : State) (q : Fin 4) (act : State → State) (hk : Keeps wr s₀ s) (hact : ∀ x0, Keeps wr s₀ x0 → Keeps wr s₀ (act x0)) : KeepsRes wr s₀ (State.spdm s q act) := by
  unfold State.spdm
  repeat' first
    | with_reducible assumption
    | intro _
    | with_reducible exact Keeps.refl _
    | with_reducible apply State.onDev_keeps
    | with_reducible apply State.updPly_keeps
    | with_reducible apply State.updPort_keeps
    | with_reducible apply KeepsRes.next
    | with_reducible apply State.clocked_keeps
    | with_reducible apply Keeps.ite
    | with_reducible apply hact
    | split

theorem State.spdmPhase_keeps {s₀ : State} (s : State) (q : Fin 4) (n : Nat) (hk : Keeps wr s₀ s) : Keeps wr s₀ (State.spdmPhase s q n) := by
  unfold State.spdmPhase
  repeat' first
    | with_reducible assumption
    | intro _
    | with_reducible exact Keeps.refl _
    | with_reducible apply State.spdm_keeps
    | with_reducible apply State.onDev_keeps
    | with_reducible apply State.updPly_keeps
    | with_reducible apply State.updPort_keeps

theorem execGetVersion_keeps (q : Fin 4) (s : State) : KeepsRes wr s (execGetVersion q s) := by
  unfold execGetVersion
  have hk : Keeps wr s s := Keeps.refl s
  repeat' first
    | with_reducible assumption
    | intro _
    | with_reducible exact Keeps.refl _
    | with_reducible apply State.doe_keeps
    | with_reducible apply State.spdm_keeps
    | with_reducible apply State.spdmPhase_keeps

theorem execGetCapabilities_keeps (q : Fin 4) (s : State) : KeepsRes wr s (execGetCapabilities q s) := by
  unfold execGetCapabilities
  have hk : Keeps wr s s := Keeps.refl s
  repeat' first
    | with_reducible assumption
    | intro _
    | with_reducible exact Keeps.refl _
    | with_reducible apply State.doe_keeps
    | with_reducible apply State.spdm_keeps
    | with_reducible apply State.spdmPhase_keeps
    | with_reducible apply State.onDev_keeps
    | with_reducible apply State.updPly_keeps
    | with_reducible apply State.updPort_keeps
    | with_reducible apply KeepsRes.next
    | with_reducible apply Keeps.ite

theorem execNegotiateAlgorithms_keeps (q : Fin 4) (offered : Bool) (s : State) : KeepsRes wr s (execNegotiateAlgorithms q offered s) := by
  unfold execNegotiateAlgorithms
  have hk : Keeps wr s s := Keeps.refl s
  repeat' first
    | with_reducible assumption
    | intro _
    | with_reducible exact Keeps.refl _
    | with_reducible apply State.doe_keeps
    | with_reducible apply State.spdm_keeps
    | with_reducible apply State.spdmPhase_keeps
    | with_reducible apply State.onDev_keeps
    | with_reducible apply State.updPly_keeps
    | with_reducible apply State.updPort_keeps
    | with_reducible apply KeepsRes.next
    | with_reducible apply Keeps.ite

theorem State.negotiated_keeps {s₀ : State} (s : State) (q : Fin 4) (act : State → State) (hk : Keeps wr s₀ s) (hact : ∀ x0, Keeps wr s₀ x0 → Keeps wr s₀ (act x0)) : KeepsRes wr s₀ (State.negotiated s q act) := by
  unfold State.negotiated
  repeat' first
    | with_reducible assumption
    | intro _
    | with_reducible exact Keeps.refl _
    | with_reducible apply State.doe_keeps
    | with_reducible apply State.spdm_keeps
    | with_reducible apply State.onDev_keeps
    | with_reducible apply State.updPly_keeps
    | with_reducible apply State.updPort_keeps
    | with_reducible apply KeepsRes.next
    | with_reducible apply Keeps.ite
    | with_reducible apply hact

theorem execGetDigests_keeps (q : Fin 4) (s : State) : KeepsRes wr s (execGetDigests q s) := by
  unfold execGetDigests
  have hk : Keeps wr s s := Keeps.refl s
  repeat' first
    | with_reducible assumption
    | intro _
    | with_reducible exact Keeps.refl _
    | with_reducible apply State.doe_keeps
    | with_reducible apply State.negotiated_keeps
    | with_reducible apply State.onDev_keeps
    | with_reducible apply State.updPly_keeps
    | with_reducible apply State.updPort_keeps
    | with_reducible apply KeepsRes.next
    | with_reducible apply State.freeBytes_keeps
    | with_reducible apply Keeps.ite
    | split
    | dsimp only
    | simp only [Keeps.mkDev_iff]

theorem execGetCertificate_keeps (q : Fin 4) (slot : Nat) (part : ChainPart) (s : State) : KeepsRes wr s (execGetCertificate q slot part s) := by
  unfold execGetCertificate
  have hk : Keeps wr s s := Keeps.refl s
  repeat' first
    | with_reducible assumption
    | intro _
    | with_reducible exact Keeps.refl _
    | with_reducible apply State.doe_keeps
    | with_reducible apply State.negotiated_keeps
    | with_reducible apply State.onDev_keeps
    | with_reducible apply State.updPly_keeps
    | with_reducible apply State.updPort_keeps
    | (with_reducible refine Keeps.mkTake _ (by assumption) ?_)
    | with_reducible apply KeepsRes.next
    | with_reducible apply State.freeBytes_keeps
    | with_reducible apply Keeps.ite
    | split
    | dsimp only
    | simp only [Keeps.mkDev_iff]

theorem execChallenge_keeps (q : Fin 4) (slot : Nat) (s : State) : KeepsRes wr s (execChallenge q slot s) := by
  unfold execChallenge
  have hk : Keeps wr s s := Keeps.refl s
  repeat' first
    | with_reducible assumption
    | intro _
    | with_reducible exact Keeps.refl _
    | with_reducible apply State.doe_keeps
    | with_reducible apply State.freeBytes_keeps
    | with_reducible apply State.negotiated_keeps
    | with_reducible apply State.onDev_keeps
    | with_reducible apply State.updPly_keeps
    | with_reducible apply State.updPort_keeps
    | with_reducible apply KeepsRes.next
    | with_reducible apply Keeps.ite

theorem execGetMeasurements_keeps (q : Fin 4) (op : Nat) (signed : Bool) (s : State) : KeepsRes wr s (execGetMeasurements q op signed s) := by
  unfold execGetMeasurements
  have hk : Keeps wr s s := Keeps.refl s
  repeat' first
    | with_reducible assumption
    | intro _
    | with_reducible exact Keeps.refl _
    | with_reducible apply State.doe_keeps
    | with_reducible apply State.freeBytes_keeps
    | with_reducible apply State.negotiated_keeps
    | with_reducible apply State.onDev_keeps
    | with_reducible apply State.updPly_keeps
    | with_reducible apply State.updPort_keeps
    | with_reducible apply KeepsRes.next
    | with_reducible apply Keeps.ite
    | split

theorem State.newKey_keeps {s₀ : State} (s : State) (hk : Keeps wr s₀ s) : Keeps wr s₀ s.newKey.1 := by
  exact State.onDev_keeps s (fun d => { d with ely := { d.ely with nextKey := d.ely.nextKey + 1 } }) hk

theorem execKeyExchange_keeps (q : Fin 4) (s : State) : KeepsRes wr s (execKeyExchange q s) := by
  unfold execKeyExchange
  have hk : Keeps wr s s := Keeps.refl s
  repeat' first
    | with_reducible assumption
    | intro _
    | with_reducible exact Keeps.refl _
    | with_reducible apply State.doe_keeps
    | with_reducible apply State.freeBytes_keeps
    | with_reducible apply State.spdm_keeps
    | with_reducible apply State.negotiated_keeps
    | with_reducible apply State.newKey_keeps
    | with_reducible apply State.onDev_keeps
    | with_reducible apply State.updPly_keeps
    | with_reducible apply State.updPort_keeps
    | with_reducible apply KeepsRes.next
    | with_reducible apply Keeps.ite
    | split

theorem State.updSession_keeps {s₀ : State} (s : State) (q : Fin 4) (i : Fin 4) (f : SpdmSession → SpdmSession) (hk : Keeps wr s₀ s) : Keeps wr s₀ (State.updSession s q i f) := by
  unfold State.updSession
  repeat' first
    | with_reducible assumption
    | intro _
    | with_reducible exact Keeps.refl _
    | with_reducible apply State.spdm_keeps
    | with_reducible apply State.onDev_keeps
    | with_reducible apply State.updPly_keeps
    | with_reducible apply State.updPort_keeps

theorem execFinish_keeps (q : Fin 4) (i : Fin 4) (ok : Bool) (s : State) : KeepsRes wr s (execFinish q i ok s) := by
  unfold execFinish
  have hk : Keeps wr s s := Keeps.refl s
  repeat' first
    | with_reducible assumption
    | intro _
    | with_reducible exact Keeps.refl _
    | with_reducible apply State.doe_keeps
    | with_reducible apply State.spdm_keeps
    | with_reducible apply State.negotiated_keeps
    | with_reducible apply State.updSession_keeps
    | with_reducible apply State.onDev_keeps
    | with_reducible apply State.updPly_keeps
    | with_reducible apply State.updPort_keeps
    | with_reducible apply KeepsRes.next
    | with_reducible apply Keeps.ite
    | split

theorem State.inSession_keeps {s₀ : State} (s : State) (q : Fin 4) (i : Fin 4) (act : State → State) (hk : Keeps wr s₀ s) (hact : ∀ x0, Keeps wr s₀ x0 → Keeps wr s₀ (act x0)) : KeepsRes wr s₀ (State.inSession s q i act) := by
  unfold State.inSession
  repeat' first
    | with_reducible assumption
    | intro _
    | with_reducible exact Keeps.refl _
    | with_reducible apply State.doe_keeps
    | with_reducible apply State.spdm_keeps
    | with_reducible apply State.onDev_keeps
    | with_reducible apply State.updPly_keeps
    | with_reducible apply State.updPort_keeps
    | with_reducible apply KeepsRes.next
    | with_reducible apply Keeps.ite
    | with_reducible apply hact
    | split

theorem execKeyUpdate_keeps (q : Fin 4) (i : Fin 4) (s : State) : KeepsRes wr s (execKeyUpdate q i s) := by
  unfold execKeyUpdate
  have hk : Keeps wr s s := Keeps.refl s
  repeat' first
    | with_reducible assumption
    | intro _
    | with_reducible exact Keeps.refl _
    | with_reducible apply State.doe_keeps
    | with_reducible apply State.newKey_keeps
    | with_reducible apply State.updSession_keeps
    | with_reducible apply State.inSession_keeps

theorem execSpdmHeartbeat_keeps (q : Fin 4) (i : Fin 4) (s : State) : KeepsRes wr s (execSpdmHeartbeat q i s) := by
  unfold execSpdmHeartbeat
  have hk : Keeps wr s s := Keeps.refl s
  repeat' first
    | with_reducible assumption
    | intro _
    | with_reducible exact Keeps.refl _
    | with_reducible apply State.doe_keeps
    | with_reducible apply State.inSession_keeps

theorem execEndSession_keeps (q : Fin 4) (i : Fin 4) (s : State) : KeepsRes wr s (execEndSession q i s) := by
  unfold execEndSession
  have hk : Keeps wr s s := Keeps.refl s
  repeat' first
    | with_reducible assumption
    | intro _
    | with_reducible exact Keeps.refl _
    | with_reducible apply State.doe_keeps
    | with_reducible apply State.spdm_keeps
    | with_reducible apply State.inSession_keeps
    | with_reducible apply State.onDev_keeps
    | with_reducible apply State.updPly_keeps
    | with_reducible apply State.updPort_keeps

theorem execVendorDefined_keeps (q : Fin 4) (i : Fin 4) (s : State) : KeepsRes wr s (execVendorDefined q i s) := by
  unfold execVendorDefined
  have hk : Keeps wr s s := Keeps.refl s
  repeat' first
    | with_reducible assumption
    | intro _
    | with_reducible exact Keeps.refl _
    | with_reducible apply State.doe_keeps
    | with_reducible apply State.inSession_keeps

theorem execKeyProg_keeps (q : Fin 4) (i : Fin 4) (stream : Fin 3) (s : State) : KeepsRes wr s (execKeyProg q i stream s) := by
  unfold execKeyProg
  have hk : Keeps wr s s := Keeps.refl s
  repeat' first
    | with_reducible assumption
    | intro _
    | with_reducible exact Keeps.refl _
    | with_reducible apply State.doe_keeps
    | with_reducible apply State.newKey_keeps
    | with_reducible apply State.inSession_keeps
    | with_reducible apply State.onDev_keeps
    | with_reducible apply State.updPly_keeps
    | with_reducible apply State.updPort_keeps

theorem execKSetStop_keeps (q : Fin 4) (i : Fin 4) (stream : Fin 3) (s : State) : KeepsRes wr s (execKSetStop q i stream s) := by
  unfold execKSetStop
  have hk : Keeps wr s s := Keeps.refl s
  repeat' first
    | with_reducible assumption
    | intro _
    | with_reducible exact Keeps.refl _
    | with_reducible apply State.doe_keeps
    | with_reducible apply State.inSession_keeps
    | with_reducible apply State.onDev_keeps
    | with_reducible apply State.updPly_keeps
    | with_reducible apply State.updPort_keeps

end Sys2Proof.Machine
end

