-- ==== Sys2Proof/Laws/Stores.lean ====
section
/-! SUPPORT. Laws/Stores.lean: what a store through a ply's translation leaves alone: every DRAM byte that it does not name, and the translation. -/
namespace Sys2Proof.Machine

theorem Dram.readN_length (m : Dram) (g a n : Nat) : (m.readN g a n).length = n := by simp [Dram.readN]

theorem Dram.raw_pokes (l : List (Byte × Nat)) (m : Dram) (b : Nat) (x : Nat) (h : ∀ e ∈ l, b + e.2 ≠ x) :
    (l.foldl (fun (m : Dram) (e : Byte × Nat) => m.poke (b + e.2) e.1) m).raw x = m.raw x := by
  induction l generalizing m with
  | nil => rfl
  | cons e l ih =>
    rw [List.foldl_cons, ih]
    · exact Dram.raw_poke_ne _ _ (fun q => h e (List.mem_cons_self) q.symm)
    · exact fun e he => h e (List.mem_cons_of_mem _ he)

theorem Dram.keyOf_pokes (l : List (Byte × Nat)) (m : Dram) (b : Nat) (u : Nat) :
    (l.foldl (fun (m : Dram) (e : Byte × Nat) => m.poke (b + e.2) e.1) m).keyOf u = m.keyOf u := by
  induction l generalizing m with
  | nil => rfl
  | cons e l ih => rw [List.foldl_cons, ih]; simp

theorem Dram.raw_pokes_at (l : List Byte) (i0 : Nat) (m : Dram) (b : Nat) (j : Nat) (hj : j < l.length) :
    ((l.zipIdx i0).foldl (fun (m : Dram) (e : Byte × Nat) => m.poke (b + e.2) e.1) m).raw (b + (i0 + j)) = l[j] := by
  induction l generalizing m i0 j with
  | nil => simp at hj
  | cons x l ih =>
    rw [List.zipIdx_cons, List.foldl_cons]
    cases j with
    | zero =>
      rw [Dram.raw_pokes]
      · simp
      · intro e he
        have := (List.mem_zipIdx he).1
        omega
    | succ j =>
      have := ih (i0 + 1) (m.poke (b + i0) x) j (by simpa using hj)
      rw [show b + (i0 + (j + 1)) = b + (i0 + 1 + j) by omega]
      simpa using this

theorem Dram.keyOf_rekeyed (m : Dram) (u g v : Nat) : ({ m with unitKey := Map.ins m.unitKey u g } : Dram).keyOf v = if v = u then g else m.keyOf v := by
  unfold Dram.keyOf
  by_cases h : v = u
  · subst h; simp
  · simp [h, Map.get_ins_ne _ _ _ h]

/-- A byte reads the same where the stored bytes of its unit and the unit's key are the same. -/
theorem Dram.read_congr {m m' : Dram} (k a : Nat) (hk : m'.keyOf (a / 64) = m.keyOf (a / 64)) (hr : ∀ x, x / 64 = a / 64 → m'.raw x = m.raw x) :
    m'.read k a = m.read k a := by
  have hc : m'.cipher (a / 64) (a / 16 % 4) = m.cipher (a / 64) (a / 16 % 4) := by
    have hb : ∀ i ∈ List.range 16, m'.raw (64 * (a / 64) + 16 * (a / 16 % 4) + i) = m.raw (64 * (a / 64) + 16 * (a / 16 % 4) + i) := by
      intro i hi
      have := List.mem_range.mp hi
      exact hr _ (by omega)
    unfold Dram.cipher
    dsimp only
    rw [hk]
    rw [List.map_congr_left hb]
    rw [List.map_congr_left (fun i hi => by rw [hb i hi])]
  unfold Dram.read
  rw [hk, hr a rfl, hc]

theorem Dram.read_rekey (m : Dram) (g u : Nat) (k a : Nat) (h : a / 64 = u → g = k ∧ k ≠ 0) : (m.rekey g u).read k a = m.read k a := by
  unfold Dram.rekey
  split
  · rfl
  · rename_i hk
    dsimp only
    by_cases hu : a / 64 = u
    · obtain ⟨rfl, h0⟩ := h hu
      subst hu
      have e : a = a / 64 * 64 + (0 + a % 64) := by omega
      have hkey : (((m.readN g (a/64 * 64) 64).zipIdx).foldl (fun (m : Dram) (e : Byte × Nat) => m.poke (a/64 * 64 + e.2) e.1) ({ m with unitKey := Map.ins m.unitKey (a/64) g } : Dram)).keyOf (a / 64) = g := by
        rw [Dram.keyOf_pokes, Dram.keyOf_rekeyed]; simp
      have hlen : a % 64 < (m.readN g (a/64 * 64) 64).length := by rw [Dram.readN_length]; omega
      have hraw := Dram.raw_pokes_at (m.readN g (a/64 * 64) 64) 0 { m with unitKey := Map.ins m.unitKey (a/64) g } (a/64*64) (a % 64) hlen
      rw [← e] at hraw
      rw [Dram.read, hkey, if_pos ⟨rfl, h0⟩, hraw]
      simp only [Dram.readN, List.getElem_map, List.getElem_range]
      congr 1
      omega
    · refine Dram.read_congr k a ?_ ?_
      · rw [Dram.keyOf_pokes, Dram.keyOf_rekeyed, if_neg hu]
      · intro x hx
        rw [Dram.raw_pokes]
        · rfl
        · intro e he
          have := (List.mem_zipIdx he).2.1
          rw [Dram.readN_length] at this
          omega

theorem Dram.read_write_other (m : Dram) (g x : Nat) (b : Byte) (k a : Nat) (hx : x ≠ a) (h : x / 64 = a / 64 → g = k ∧ k ≠ 0) : (m.write g x b).read k a = m.read k a := by
  rw [← Dram.read_rekey m g (x / 64) k a (fun e => h e.symm)]
  unfold Dram.write
  by_cases hu : x / 64 = a / 64
  · obtain ⟨rfl, h0⟩ := h hu
    have hkey : (m.rekey g (x / 64)).keyOf (a / 64) = g := by
      rw [hu]
      unfold Dram.rekey
      split
      · rename_i hk; exact hk.1
      · dsimp only
        rw [Dram.keyOf_pokes, Dram.keyOf_rekeyed, if_pos rfl]
    unfold Dram.read
    rw [Dram.keyOf_poke, hkey, if_pos ⟨rfl, h0⟩, if_pos ⟨rfl, h0⟩, Dram.raw_poke_ne _ _ (Ne.symm hx)]
  · refine Dram.read_congr k a (by simp) ?_
    intro y hy
    exact Dram.raw_poke_ne _ _ (fun q => hu (by rw [← q]; exact hy))

theorem Dram.read_writeN_other (bs : List Byte) (m : Dram) (g x k a : Nat)
    (h : ∀ j < bs.length, x + j ≠ a ∧ ((x + j) / 64 = a / 64 → g = k ∧ k ≠ 0)) : (m.writeN g x bs).read k a = m.read k a := by
  induction bs generalizing m x with
  | nil => rfl
  | cons b bs ih =>
    rw [Dram.writeN, ih]
    · exact Dram.read_write_other _ _ _ _ _ _ (h 0 (by simp)).1 (h 0 (by simp)).2
    · intro j hj
      have := h (j + 1) (by simpa using hj)
      rwa [show x + (j + 1) = x + 1 + j by omega] at this


/-! Reporting leaves memory alone -/

/-- Two device states that hold the same channels, translate alike and own alike. -/
def Dev.MemAlike (d e : Dev) : Prop :=
  e.mc.chans = d.mc.chans ∧ e.dramTop = d.dramTop ∧ e.ely = d.ely ∧ e.variant = d.variant ∧ ∀ p, (e.ply p).tables = (d.ply p).tables

variable {d₀ : Dev}

theorem Dev.MemAlike.refl (d : Dev) : d.MemAlike d := ⟨rfl, rfl, rfl, rfl, fun _ => rfl⟩

theorem Dev.MemAlike.trans {d e f : Dev} (h : d.MemAlike e) (h' : e.MemAlike f) : d.MemAlike f :=
  ⟨h'.1.trans h.1, h'.2.1.trans h.2.1, h'.2.2.1.trans h.2.2.1, h'.2.2.2.1.trans h.2.2.2.1, fun p => (h'.2.2.2.2 p).trans (h.2.2.2.2 p)⟩

theorem Dev.MemAlike.xlat {d e : Dev} (h : d.MemAlike e) (p : Fin 64) (x : Nat) (w : Bool) : e.xlat p x w = d.xlat p x w := by
  unfold Dev.xlat
  rw [h.2.2.2.2 p, h.2.1, h.2.2.1]

/-- An update of a ply that leaves its tables. -/
theorem Dev.updPly_memAlike (d : Dev) (p : Fin 64) (f : Ply → Ply) (hf : ∀ y, (f y).tables = y.tables) (h : d₀.MemAlike d) : d₀.MemAlike (d.updPly p f) := by
  refine h.trans ⟨rfl, rfl, rfl, rfl, fun q => ?_⟩
  by_cases e : q = p
  · subst e; simp [hf]
  · rw [Dev.ply_updPly_ne _ _ e]

theorem Dev.updPort_memAlike (d : Dev) (q : Fin 4) (f : Port → Port) (h : d₀.MemAlike d) : d₀.MemAlike (d.updPort q f) := h

theorem Dev.emit_memAlike (d : Dev) (o : Out) (h : d₀.MemAlike d) : d₀.MemAlike (d.emit o) := h

theorem Dev.MemAlike.foldl {α : Type} {f : Dev → α → Dev} (hf : ∀ d x, d₀.MemAlike d → d₀.MemAlike (f d x)) (l : List α) {d : Dev} (h : d₀.MemAlike d) :
    d₀.MemAlike (l.foldl f d) := by
  induction l generalizing d with
  | nil => exact h
  | cons x l ih => exact ih (hf _ _ h)

theorem Dev.post_memAlike (d : Dev) (q : Fin 4) (o : Out) (h : d₀.MemAlike d) : d₀.MemAlike (d.post q o) := by
  unfold Dev.post
  dsimp only
  split
  · exact h
  · exact h

theorem Dev.sendMsix_memAlike (d : Dev) (q : Fin 4) (v : Nat) (h : d₀.MemAlike d) : d₀.MemAlike (d.sendMsix q v) := by
  unfold Dev.sendMsix
  dsimp only
  repeat' first
    | with_reducible assumption
    | apply Dev.post_memAlike
    | exact h
    | split

theorem Dev.plyMsix_memAlike (d : Dev) (p : Fin 64) (v : Nat) (h : d₀.MemAlike d) : d₀.MemAlike (d.plyMsix p v) := by
  unfold Dev.plyMsix
  dsimp only
  split
  · exact Dev.sendMsix_memAlike _ _ _ h
  · exact h

theorem Dev.atcTouch_memAlike (d : Dev) (q : Fin 4) (x a n : Nat) (h : d₀.MemAlike d) : d₀.MemAlike (d.atcTouch q x a n) := by
  unfold Dev.atcTouch
  split
  · exact h
  · refine Dev.MemAlike.foldl (fun d y h => ?_) _ h
    dsimp only
    split
    · exact h
    · exact h

theorem Dev.emitReads_memAlike (d : Dev) (q : Fin 4) (x : Nat) (rs : List (Nat × Nat)) (h : d₀.MemAlike d) : d₀.MemAlike (d.emitReads q x rs) := by
  unfold Dev.emitReads
  exact Dev.MemAlike.foldl (fun d y h => Dev.emit_memAlike _ _ (Dev.atcTouch_memAlike _ _ _ _ _ h)) _ h

theorem Dev.postWrite_memAlike (d : Dev) (q : Fin 4) (a : Nat) (bs : List Byte) (h : d₀.MemAlike d) : d₀.MemAlike (d.postWrite q a bs) :=
  Dev.post_memAlike _ _ _ h

theorem Dev.logMark_memAlike (d : Dev) (p : Fin 64) (x : Nat × Nat × Nat) (h : d₀.MemAlike d) : d₀.MemAlike (d.logMark p x) := by
  unfold Dev.logMark
  dsimp only
  split
  · refine Dev.postWrite_memAlike _ _ _ _ (Dev.updPly_memAlike _ _ _ (fun _ => rfl) ?_)
    split
    · exact h
    · split <;> exact h
  · refine Dev.updPly_memAlike _ _ _ (fun _ => rfl) ?_
    split
    · exact h
    · split <;> exact h

theorem Dev.logWrite_memAlike (d : Dev) (p : Fin 64) (a n : Nat) (h : d₀.MemAlike d) : d₀.MemAlike (d.logWrite p a n) := by
  unfold Dev.logWrite
  dsimp only
  split
  · refine Dev.MemAlike.foldl (fun d y h => ?_) _ h
    split
    · exact Dev.updPly_memAlike _ _ _ (fun _ => rfl) h
    · exact Dev.MemAlike.foldl (fun d y h => Dev.logMark_memAlike _ _ _ h) _ h
  · exact h

theorem Dev.hostWrite_memAlike (d : Dev) (p : Fin 64) (ev : Bool) (a : Nat) (bs : List Byte) (h : d₀.MemAlike d) : d₀.MemAlike (d.hostWrite p ev a bs) := by
  unfold Dev.hostWrite
  dsimp only
  split
  · exact Dev.post_memAlike _ _ _ (Dev.atcTouch_memAlike _ _ _ _ _ (Dev.logWrite_memAlike _ _ _ _ h))
  · exact h

theorem Dev.deliver_memAlike (d : Dev) (x : Nat) (bs : List Byte) (h : d₀.MemAlike d) : d₀.MemAlike (d.deliver x bs).1 := by
  unfold Dev.deliver
  dsimp only
  split
  · exact h
  · exact h

theorem Dev.putEvent_memAlike (d : Dev) (p : Fin 64) (bs : List Byte) (h : d₀.MemAlike d) : d₀.MemAlike (d.putEvent p bs) := by
  have h1 : d₀.MemAlike (((d.deliver p.val bs).1.writeEntry p true (d.deliver p.val bs).2).writeProd p true) :=
    Dev.hostWrite_memAlike _ _ _ _ _ (Dev.updPly_memAlike _ _ _ (fun _ => rfl) (Dev.hostWrite_memAlike _ _ _ _ _ (Dev.deliver_memAlike _ _ _ h)))
  unfold Dev.putEvent
  dsimp only
  split
  · exact Dev.plyMsix_memAlike _ _ _ h1
  · exact h1

theorem Dev.reportLost_memAlike (d : Dev) (p : Fin 64) (h : d₀.MemAlike d) : d₀.MemAlike (d.reportLost p) := by
  unfold Dev.reportLost
  dsimp only
  split
  · exact Dev.putEvent_memAlike _ _ _ (Dev.updPly_memAlike _ _ _ (fun _ => rfl) h)
  · exact h

theorem Dev.bindEvent_memAlike (d : Dev) (a c : Nat) (h : d₀.MemAlike d) : d₀.MemAlike (d.bindEvent a c) := by
  unfold Dev.bindEvent
  dsimp only
  repeat' first
    | exact h
    | split

theorem Dev.limit_memAlike (d : Dev) (x c u : Nat) (h : d₀.MemAlike d) : d₀.MemAlike (d.limit x c u).1 := by
  unfold Dev.limit
  dsimp only
  repeat' first
    | exact h
    | split

theorem Dev.logEvent_memAlike (d : Dev) (q : Fin 4) (p c u : Nat) (bs : List Byte) (h : d₀.MemAlike d) : d₀.MemAlike (d.logEvent q p c u bs) := by
  have hl := Dev.limit_memAlike d (64 + q.val) c u h
  unfold Dev.logEvent
  split
  · rename_i e; rw [e] at hl; exact hl
  · rename_i d' e
    rw [e] at hl
    dsimp only
    split
    · exact hl
    · have hd := Dev.deliver_memAlike _ (64 + q.val) (eventEntry p c u d'.devtime bs) hl
      split
      · exact Dev.sendMsix_memAlike _ _ _ (Dev.updPort_memAlike _ _ _ hd)
      · exact Dev.updPort_memAlike _ _ _ hd

theorem State.issueRead_memAlike (s : State) (r : HostRead) (h : d₀.MemAlike s.dev) : d₀.MemAlike (s.issueRead r).dev := by
  unfold State.issueRead
  dsimp only
  split
  · exact h
  · split
    · exact Dev.emitReads_memAlike _ _ _ _ h
    · exact h

theorem State.wantCons_memAlike (s : State) (p : Fin 64) (h : d₀.MemAlike s.dev) : d₀.MemAlike (s.wantCons p).dev := by
  unfold State.wantCons
  split
  · have : ∀ (l : List (Nat × Nat)) (q : Fin 4) (s : State), d₀.MemAlike s.dev →
        d₀.MemAlike (l.foldl (fun (s : State) x => s.issueRead { port := q, ply := some p, what := .cons p, addr := x.1, len := x.2 }) s).dev := by
      intro l q
      induction l with
      | nil => exact fun s h => h
      | cons x l ih => exact fun s h => ih _ (State.issueRead_memAlike _ _ h)
    exact this _ _ _ (Dev.updPly_memAlike _ _ _ (fun _ => rfl) h)
  · exact h

theorem State.postPlyAt_memAlike (s : State) (t : Nat) (p : Fin 64) (x c u : Nat) (bs : List Byte) (h : d₀.MemAlike s.dev) : d₀.MemAlike (s.postPlyAt t p x c u bs).dev := by
  have hb := Dev.bindEvent_memAlike s.dev x c h
  have key : ∀ (w : List CqWait) (v : State), d₀.MemAlike v.dev → d₀.MemAlike (if w = [] ∧ 0 < (v.ply p).cq.freeEntries then
      v.onDev fun d => d.putEvent p (eventEntry x c u t bs)
      else (v.updCq p fun c' => { c' with waiters := c'.waiters ++ [.event (eventEntry x c u t bs)] }).wantCons p).dev := by
    intro w v hv
    split
    · exact Dev.putEvent_memAlike _ _ _ hv
    · exact State.wantCons_memAlike _ _ (Dev.updPly_memAlike _ _ _ (fun _ => rfl) hv)
  unfold State.postPlyAt
  dsimp only
  split
  · exact hb
  · have hl := Dev.limit_memAlike _ p.val c u hb
    split
    · rename_i e; erw [e] at hl; exact hl
    · rename_i e
      erw [e] at hl
      split
      · exact Dev.updPly_memAlike _ _ _ (fun _ => rfl) hl
      · refine key _ _ ?_
        split
        · exact Dev.reportLost_memAlike _ _ hl
        · exact hl

theorem State.postManager_memAlike (s : State) (x c u : Nat) (bs : List Byte) (h : d₀.MemAlike s.dev) : d₀.MemAlike (s.postManager x c u bs).dev := by
  have hb := Dev.bindEvent_memAlike s.dev x c h
  unfold State.postManager
  dsimp only
  split
  · exact Dev.logEvent_memAlike _ _ _ _ _ _ hb
  · exact hb

theorem State.eccReport_memAlike (s : State) (o : EccOutcome) (x q : Nat) (p : Option (Fin 64)) (h : d₀.MemAlike s.dev) : d₀.MemAlike (s.eccReport o x q p).dev := by
  unfold State.eccReport
  dsimp only
  split
  · exact h
  · exact State.postManager_memAlike _ _ _ _ _ h
  · refine State.postManager_memAlike _ _ _ _ _ ?_
    split
    · exact State.postPlyAt_memAlike _ _ _ _ _ _ _ h
    · exact h

theorem State.touchCheck_memAlike (s : State) (x : Nat) (w : Bool) (h : d₀.MemAlike s.dev) : d₀.MemAlike (s.touchCheck x w).dev := by
  unfold State.touchCheck
  dsimp only
  repeat' first
    | exact h
    | split

theorem Dev.trackWrite_memAlike (d : Dev) (g : Nat) (h : d₀.MemAlike d) : d₀.MemAlike (d.trackWrite g) := by
  unfold Dev.trackWrite
  split
  · exact h
  · split
    · exact Dev.updPly_memAlike _ _ _ (fun _ => rfl) h
    · exact h

theorem State.openUnit_memAlike (s : State) (x q : Nat) (p : Option (Fin 64)) (w : Bool) (h : d₀.MemAlike s.dev) : d₀.MemAlike (s.openUnit x q p w).dev := by
  have h1 : d₀.MemAlike ((s.onDev (·.trackWrite (x / 65536))).touchCheck x true).dev :=
    State.touchCheck_memAlike _ _ _ (Dev.trackWrite_memAlike _ _ h)
  unfold State.openUnit
  dsimp only
  split
  · exact h1
  · split
    · exact h1
    · exact State.eccReport_memAlike _ _ _ _ _ h1

/-! What stores leave alone -/

/-- A byte read under key `k` that bytes stored at `x` do not touch: none goes to it, and bytes of its 64-byte unit go under the same key (R283, R285). -/
def Misses (k a key x : Nat) : Prop := x ≠ a ∧ (x / 64 = a / 64 → key = k ∧ k ≠ 0)

/-- No write that waits in a channel touches a byte read under key `k`. -/
def State.QueueMisses (s : State) (k a : Nat) : Prop :=
  ∀ ch, ∀ r ∈ (at' s.dev.mc.chans ch).queue, ∀ off bs, r.write = some (off, bs) → ∀ j < bs.length, Misses k a r.key (r.addr + off + j)

/-- A DRAM byte reads the same under a key in both states, both translate alike, and no more writes wait for it. -/
def SameByte (s t : State) (k a : Nat) : Prop :=
  t.dram.read k a = s.dram.read k a ∧ (∀ p x w, t.dev.xlat p x w = s.dev.xlat p x w) ∧ (s.QueueMisses k a → t.QueueMisses k a)

theorem SameByte.same {s : State} {k a} : SameByte s s k a := ⟨rfl, fun _ _ _ => rfl, id⟩

theorem SameByte.trans {s t u : State} {k a} (h : SameByte s t k a) (h' : SameByte t u k a) : SameByte s u k a :=
  ⟨h'.1.trans h.1, fun p x w => (h'.2.1 p x w).trans (h.2.1 p x w), fun q => h'.2.2 (h.2.2 q)⟩

theorem Dev.MemAlike.sameByte {s t : State} {k a : Nat} (h : s.dev.MemAlike t.dev) (hd : t.dram.read k a = s.dram.read k a) : SameByte s t k a :=
  ⟨hd, fun _ _ _ => h.xlat _ _ _, fun q ch r hr => q ch r (by rw [← h.1]; exact hr)⟩

theorem State.openUnit_sameByte (s : State) (x q : Nat) (p : Option (Fin 64)) (w : Bool) (k a : Nat) : SameByte s (s.openUnit x q p w) k a :=
  Dev.MemAlike.sameByte (State.openUnit_memAlike _ _ _ _ _ (Dev.MemAlike.refl _))
    (by rw [(State.openUnit_keeps (wr := false) s x q p w (Keeps.refl s)).dram rfl])

/-- A queued write reaches DRAM. -/
theorem State.perform_write (s : State) (ch : Fin 16) (q : List McReq) (r : McReq) (off : Nat) (bs : List Byte) (hw : r.write = some (off, bs)) (k a : Nat)
    (h : ∀ j < bs.length, Misses k a r.key (r.addr + off + j)) : SameByte s (s.perform ch q r) k a := by
  unfold State.perform
  rw [hw]
  dsimp only
  have h1 := State.openUnit_sameByte s r.addr r.port.val r.ply (bs.length == 64) k a
  exact ⟨(Dram.read_writeN_other bs _ _ _ k a h).trans h1.1, h1.2.1, h1.2.2⟩

/-- Queues that lose entries keep what they miss. -/
theorem State.queueMisses_sub {s t : State} {k a : Nat} (h : ∀ ch, ∀ r ∈ (at' t.dev.mc.chans ch).queue, r ∈ (at' s.dev.mc.chans ch).queue) (q : s.QueueMisses k a) :
    t.QueueMisses k a := fun ch r hr => q ch r (h ch r hr)

/-- A queued request reaches DRAM. -/
theorem State.perform_sameByte (s : State) (ch : Fin 16) (q : List McReq) (r : McReq) (k a : Nat)
    (h : ∀ off bs, r.write = some (off, bs) → ∀ j < bs.length, Misses k a r.key (r.addr + off + j)) : SameByte s (s.perform ch q r) k a := by
  cases hw : r.write with
  | some w => exact State.perform_write s ch q r w.1 w.2 hw k a (h w.1 w.2 hw)
  | none =>
    unfold State.perform
    rw [hw]
    dsimp only
    have ht : SameByte s (s.touchCheck r.addr false) k a := Dev.MemAlike.sameByte (State.touchCheck_memAlike _ _ _ (Dev.MemAlike.refl _))
      (by rw [(State.touchCheck_keeps (wr := false) s r.addr false (Keeps.refl s)).dram rfl])
    refine ht.trans ⟨rfl, fun _ _ _ => rfl, State.queueMisses_sub fun c x hx => ?_⟩
    simp only [State.onDev_dev] at hx
    by_cases hc : c = ch
    · subst hc; rw [at'_upd_self] at hx; exact hx
    · rw [at'_upd_ne _ _ hc] at hx; exact hx

theorem State.settleUnit_sameByte (s : State) (u k a : Nat) (hq : s.QueueMisses k a) : SameByte s (s.settleUnit u) k a := by
  unfold State.settleUnit
  dsimp only
  split
  · exact SameByte.same
  · have h1 : SameByte s (s.onDev fun d => { d with mc := { d.mc with chans := upd d.mc.chans (chanOf s.dev.pkgW u) fun c =>
        { c with queue := c.queue.filter (·.addr != u) } } }) k a := by
      refine ⟨rfl, fun _ _ _ => rfl, State.queueMisses_sub fun c x hx => ?_⟩
      simp only [State.onDev_dev] at hx
      by_cases hc : c = chanOf s.dev.pkgW u
      · subst hc; rw [at'_upd_self] at hx; exact (List.mem_filter.mp hx).1
      · rw [at'_upd_ne _ _ hc] at hx; exact hx
    refine h1.trans ?_
    have : ∀ (l : List McReq) (v : State), (∀ r ∈ l, r ∈ (at' s.dev.mc.chans (chanOf s.dev.pkgW u)).queue) →
        SameByte v (l.foldl (fun w r => w.perform (chanOf s.dev.pkgW u) [] r) v) k a := by
      intro l
      induction l with
      | nil => exact fun v _ => SameByte.same
      | cons r l ih =>
        intro v hl
        exact (State.perform_sameByte v _ [] r k a fun off bs hw => hq _ r (hl r List.mem_cons_self) off bs hw).trans
          (ih _ fun x hx => hl x (List.mem_cons_of_mem _ hx))
    dsimp only
    apply this
    intro r hr
    exact (List.mem_filter.mp hr).1

theorem State.reachUnit_sameByte (s : State) (p : Fin 64) (eng : Engine) (addr n u k a : Nat) (hq : s.QueueMisses k a) :
    SameByte s (s.reachUnit p eng addr n u) k a := by
  unfold State.reachUnit
  split
  · exact (State.settleUnit_sameByte s _ k a hq).trans (State.openUnit_sameByte _ _ _ _ _ k a)
  · exact SameByte.same

theorem State.plyWrite1_frame {s t : State} {p x b} (k a : Nat) (e : s.plyWrite1 p x b = some t)
    (h : ∀ k' a', s.dev.xlat p x true = .ok a' k' → Misses k a k' a') : SameByte s t k a := by
  unfold State.plyWrite1 at e
  split at e
  · rename_i a' k' hx
    cases e
    obtain ⟨h1, h2⟩ := h _ _ hx
    exact ⟨Dram.read_write_other _ _ _ _ _ _ h1 h2, fun _ _ _ => rfl, id⟩
  · cases e

theorem foldlM_sameByte {α : Type} {f : State → α → Option State} {s : State} (k a : Nat) (l : List α)
    (hf : ∀ s' x t, x ∈ l → SameByte s s' k a → f s' x = some t → SameByte s' t k a) {u t : State} (hu : SameByte s u k a) (e : l.foldlM f u = some t) : SameByte u t k a := by
  induction l generalizing u with
  | nil => cases e; exact SameByte.same
  | cons x l ih =>
    simp only [List.foldlM_cons, Option.bind_eq_bind, Option.bind_eq_some_iff] at e
    obtain ⟨v, hv, e⟩ := e
    have h1 := hf _ _ _ (List.mem_cons_self) hu hv
    exact h1.trans (ih (fun s' x t hx => hf s' x t (List.mem_cons_of_mem _ hx)) (hu.trans h1) e)

/-- A store through a ply's translation leaves every byte that neither it nor a queued write touches. -/
theorem State.plyWrite_frame {s t : State} {p eng x bs} (k a : Nat) (e : s.plyWrite p eng x bs = some t) (hq : s.QueueMisses k a)
    (h : ∀ j < bs.length, ∀ k' a', s.dev.xlat p (x + j) true = .ok a' k' → Misses k a k' a') : SameByte s t k a := by
  unfold State.plyWrite at e
  split at e
  · cases e; exact SameByte.same
  · split at e
    · have hr : ∀ (l : List Nat) (v : State), SameByte s v k a → SameByte s (l.foldl (fun s u => s.reachUnit p eng x bs.length u) v) k a := by
        intro l
        induction l with
        | nil => exact fun v h => h
        | cons u l ih => exact fun v hv => ih _ (hv.trans (State.reachUnit_sameByte _ _ _ _ _ _ _ _ (hv.2.2 hq)))
      have h0 := hr (unitsIn x bs.length) s SameByte.same
      refine h0.trans (foldlM_sameByte (s := s) k a _ ?_ h0 e)
      intro s' y t hy hs ht
      refine State.plyWrite1_frame k a ht ?_
      intro k' a' hx
      rw [hs.2.1] at hx
      refine h y.2 ?_ k' a' hx
      have := (List.mem_zipIdx hy).2.1
      omega
    · cases e

theorem State.plyWrites_frame {s t : State} {p eng ws} (k a : Nat) (e : s.plyWrites p eng ws = some t) (hq : s.QueueMisses k a)
    (h : ∀ w ∈ ws, ∀ j < w.2.length, ∀ k' a', s.dev.xlat p (w.1 + j) true = .ok a' k' → Misses k a k' a') : SameByte s t k a := by
  unfold State.plyWrites at e
  refine foldlM_sameByte k a _ ?_ (SameByte.same (s := s)) e
  intro s' w t hw hs ht
  refine State.plyWrite_frame k a ht (hs.2.2 hq) ?_
  intro j hj k' a' hx
  rw [hs.2.1] at hx
  exact h w hw j hj k' a' hx

end Sys2Proof.Machine
end

