-- ==== Sys2Proof/Laws/Tex.lean ====
section
/-! SUPPORT. Laws/Tex.lean: the operations and commands of Machine/Tex.lean keep the queue, the canonical form of DRAM and the credits. -/
namespace Sys2Proof.Machine
variable {wr : Bool}

theorem State.tex_keeps {s₀ : State} (s : State) (c : Fin 16) (w : Nat) (op : Nat) (sampled : Bool) (lane : Issue → TexEntry → SampEntry → Nat → State → Except Nat (List Nat × Bool)) (reads : Issue → TexEntry → SampEntry → Nat → State → List (Nat × Nat)) (hk : Keeps wr s₀ s) : KeepsRes wr s₀ (State.tex s c w op sampled lane reads) := by
  unfold State.tex
  repeat' first
    | with_reducible assumption
    | intro _
    | with_reducible exact Keeps.refl _
    | with_reducible apply State.onDev_keeps
    | (with_reducible refine State.fillTex_keeps (by assumption) ?_)
    | with_reducible apply State.advance_keeps
    | with_reducible apply State.badIns_keeps
    | with_reducible apply State.issue_keeps
    | with_reducible apply State.faultAt_keeps
    | with_reducible apply State.updPly_keeps
    | with_reducible apply State.updPort_keeps
    | with_reducible apply Keeps.foldl
    | with_reducible apply KeepsRes.next
    | with_reducible apply State.faultPly_keeps
    | with_reducible apply Keeps.ite
    | split
    | dsimp only
    | simp only [Keeps.mkDev_iff]

theorem execSample_keeps (c : Fin 16) (w : Nat) (s : State) : KeepsRes wr s (execSample c w s) := by
  unfold execSample
  have hk : Keeps wr s s := Keeps.refl s
  repeat' first
    | with_reducible assumption
    | intro _
    | with_reducible exact Keeps.refl _
    | with_reducible apply State.tex_keeps
    | with_reducible apply State.onDev_keeps
    | with_reducible apply State.updPly_keeps
    | with_reducible apply State.updPort_keeps
    | with_reducible apply KeepsRes.next
    | with_reducible apply Keeps.ite
    | split
    | dsimp only
    | simp only [Keeps.mkDev_iff]

theorem execSampleL_keeps (c : Fin 16) (w : Nat) (s : State) : KeepsRes wr s (execSampleL c w s) := by
  unfold execSampleL
  have hk : Keeps wr s s := Keeps.refl s
  repeat' first
    | with_reducible assumption
    | intro _
    | with_reducible exact Keeps.refl _
    | with_reducible apply State.tex_keeps
    | with_reducible apply State.onDev_keeps
    | with_reducible apply State.updPly_keeps
    | with_reducible apply State.updPort_keeps
    | with_reducible apply KeepsRes.next
    | with_reducible apply Keeps.ite
    | split
    | dsimp only
    | simp only [Keeps.mkDev_iff]

theorem execSampleB_keeps (c : Fin 16) (w : Nat) (s : State) : KeepsRes wr s (execSampleB c w s) := by
  unfold execSampleB
  have hk : Keeps wr s s := Keeps.refl s
  repeat' first
    | with_reducible assumption
    | intro _
    | with_reducible exact Keeps.refl _
    | with_reducible apply State.tex_keeps
    | with_reducible apply State.onDev_keeps
    | with_reducible apply State.updPly_keeps
    | with_reducible apply State.updPort_keeps
    | with_reducible apply KeepsRes.next
    | with_reducible apply Keeps.ite
    | split
    | dsimp only
    | simp only [Keeps.mkDev_iff]

theorem execFetch_keeps (c : Fin 16) (w : Nat) (s : State) : KeepsRes wr s (execFetch c w s) := by
  unfold execFetch
  have hk : Keeps wr s s := Keeps.refl s
  repeat' first
    | with_reducible assumption
    | intro _
    | with_reducible exact Keeps.refl _
    | with_reducible apply State.tex_keeps
    | with_reducible apply State.onDev_keeps
    | with_reducible apply State.updPly_keeps
    | with_reducible apply State.updPort_keeps
    | with_reducible apply KeepsRes.next
    | with_reducible apply Keeps.ite
    | split
    | dsimp only
    | simp only [Keeps.mkDev_iff]

end Sys2Proof.Machine
end

