-- ==== Sys2Proof/Laws/Vector.lean ====
section
/-! SUPPORT. Laws/Vector.lean: the operations and commands of Machine/Vector.lean keep the queue, the canonical form of DRAM and the credits. -/
namespace Sys2Proof.Machine
variable {wr : Bool}

theorem execMovB32_keeps (c : Fin 16) (w : Nat) (s : State) : KeepsRes wr s (execMovB32 c w s) := by
  unfold execMovB32
  have hk : Keeps wr s s := Keeps.refl s
  repeat' first
    | with_reducible assumption
    | intro _
    | with_reducible exact Keeps.refl _
    | with_reducible apply State.vec_keeps

theorem execAddI32_keeps (c : Fin 16) (w : Nat) (s : State) : KeepsRes wr s (execAddI32 c w s) := by
  unfold execAddI32
  have hk : Keeps wr s s := Keeps.refl s
  repeat' first
    | with_reducible assumption
    | intro _
    | with_reducible exact Keeps.refl _
    | with_reducible apply State.vec_keeps

theorem execSubI32_keeps (c : Fin 16) (w : Nat) (s : State) : KeepsRes wr s (execSubI32 c w s) := by
  unfold execSubI32
  have hk : Keeps wr s s := Keeps.refl s
  repeat' first
    | with_reducible assumption
    | intro _
    | with_reducible exact Keeps.refl _
    | with_reducible apply State.vec_keeps

theorem execMulLoU32_keeps (c : Fin 16) (w : Nat) (s : State) : KeepsRes wr s (execMulLoU32 c w s) := by
  unfold execMulLoU32
  have hk : Keeps wr s s := Keeps.refl s
  repeat' first
    | with_reducible assumption
    | intro _
    | with_reducible exact Keeps.refl _
    | with_reducible apply State.vec_keeps

theorem execMulHiU32_keeps (c : Fin 16) (w : Nat) (s : State) : KeepsRes wr s (execMulHiU32 c w s) := by
  unfold execMulHiU32
  have hk : Keeps wr s s := Keeps.refl s
  repeat' first
    | with_reducible assumption
    | intro _
    | with_reducible exact Keeps.refl _
    | with_reducible apply State.vec_keeps

theorem execMulHiI32_keeps (c : Fin 16) (w : Nat) (s : State) : KeepsRes wr s (execMulHiI32 c w s) := by
  unfold execMulHiI32
  have hk : Keeps wr s s := Keeps.refl s
  repeat' first
    | with_reducible assumption
    | intro _
    | with_reducible exact Keeps.refl _
    | with_reducible apply State.vec_keeps

theorem execMadU32_keeps (c : Fin 16) (w : Nat) (s : State) : KeepsRes wr s (execMadU32 c w s) := by
  unfold execMadU32
  have hk : Keeps wr s s := Keeps.refl s
  repeat' first
    | with_reducible assumption
    | intro _
    | with_reducible exact Keeps.refl _
    | with_reducible apply State.vec_keeps

theorem execMinI32_keeps (c : Fin 16) (w : Nat) (s : State) : KeepsRes wr s (execMinI32 c w s) := by
  unfold execMinI32
  have hk : Keeps wr s s := Keeps.refl s
  repeat' first
    | with_reducible assumption
    | intro _
    | with_reducible exact Keeps.refl _
    | with_reducible apply State.vec_keeps

theorem execMaxI32_keeps (c : Fin 16) (w : Nat) (s : State) : KeepsRes wr s (execMaxI32 c w s) := by
  unfold execMaxI32
  have hk : Keeps wr s s := Keeps.refl s
  repeat' first
    | with_reducible assumption
    | intro _
    | with_reducible exact Keeps.refl _
    | with_reducible apply State.vec_keeps

theorem execMinU32_keeps (c : Fin 16) (w : Nat) (s : State) : KeepsRes wr s (execMinU32 c w s) := by
  unfold execMinU32
  have hk : Keeps wr s s := Keeps.refl s
  repeat' first
    | with_reducible assumption
    | intro _
    | with_reducible exact Keeps.refl _
    | with_reducible apply State.vec_keeps

theorem execMaxU32_keeps (c : Fin 16) (w : Nat) (s : State) : KeepsRes wr s (execMaxU32 c w s) := by
  unfold execMaxU32
  have hk : Keeps wr s s := Keeps.refl s
  repeat' first
    | with_reducible assumption
    | intro _
    | with_reducible exact Keeps.refl _
    | with_reducible apply State.vec_keeps

theorem execAnd_keeps (c : Fin 16) (w : Nat) (s : State) : KeepsRes wr s (execAnd c w s) := by
  unfold execAnd
  have hk : Keeps wr s s := Keeps.refl s
  repeat' first
    | with_reducible assumption
    | intro _
    | with_reducible exact Keeps.refl _
    | with_reducible apply State.vec_keeps

theorem execOr_keeps (c : Fin 16) (w : Nat) (s : State) : KeepsRes wr s (execOr c w s) := by
  unfold execOr
  have hk : Keeps wr s s := Keeps.refl s
  repeat' first
    | with_reducible assumption
    | intro _
    | with_reducible exact Keeps.refl _
    | with_reducible apply State.vec_keeps

theorem execXor_keeps (c : Fin 16) (w : Nat) (s : State) : KeepsRes wr s (execXor c w s) := by
  unfold execXor
  have hk : Keeps wr s s := Keeps.refl s
  repeat' first
    | with_reducible assumption
    | intro _
    | with_reducible exact Keeps.refl _
    | with_reducible apply State.vec_keeps

theorem execNot_keeps (c : Fin 16) (w : Nat) (s : State) : KeepsRes wr s (execNot c w s) := by
  unfold execNot
  have hk : Keeps wr s s := Keeps.refl s
  repeat' first
    | with_reducible assumption
    | intro _
    | with_reducible exact Keeps.refl _
    | with_reducible apply State.vec_keeps

theorem execShl_keeps (c : Fin 16) (w : Nat) (s : State) : KeepsRes wr s (execShl c w s) := by
  unfold execShl
  have hk : Keeps wr s s := Keeps.refl s
  repeat' first
    | with_reducible assumption
    | intro _
    | with_reducible exact Keeps.refl _
    | with_reducible apply State.vec_keeps

theorem execShrU_keeps (c : Fin 16) (w : Nat) (s : State) : KeepsRes wr s (execShrU c w s) := by
  unfold execShrU
  have hk : Keeps wr s s := Keeps.refl s
  repeat' first
    | with_reducible assumption
    | intro _
    | with_reducible exact Keeps.refl _
    | with_reducible apply State.vec_keeps

theorem execShrI_keeps (c : Fin 16) (w : Nat) (s : State) : KeepsRes wr s (execShrI c w s) := by
  unfold execShrI
  have hk : Keeps wr s s := Keeps.refl s
  repeat' first
    | with_reducible assumption
    | intro _
    | with_reducible exact Keeps.refl _
    | with_reducible apply State.vec_keeps

theorem execFieldU32_keeps (c : Fin 16) (w : Nat) (s : State) : KeepsRes wr s (execFieldU32 c w s) := by
  unfold execFieldU32
  have hk : Keeps wr s s := Keeps.refl s
  repeat' first
    | with_reducible assumption
    | intro _
    | with_reducible exact Keeps.refl _
    | with_reducible apply State.vec_keeps

theorem execFieldI32_keeps (c : Fin 16) (w : Nat) (s : State) : KeepsRes wr s (execFieldI32 c w s) := by
  unfold execFieldI32
  have hk : Keeps wr s s := Keeps.refl s
  repeat' first
    | with_reducible assumption
    | intro _
    | with_reducible exact Keeps.refl _
    | with_reducible apply State.vec_keeps

theorem execMerge_keeps (c : Fin 16) (w : Nat) (s : State) : KeepsRes wr s (execMerge c w s) := by
  unfold execMerge
  have hk : Keeps wr s s := Keeps.refl s
  repeat' first
    | with_reducible assumption
    | intro _
    | with_reducible exact Keeps.refl _
    | with_reducible apply State.vec_keeps

theorem execPopc_keeps (c : Fin 16) (w : Nat) (s : State) : KeepsRes wr s (execPopc c w s) := by
  unfold execPopc
  have hk : Keeps wr s s := Keeps.refl s
  repeat' first
    | with_reducible assumption
    | intro _
    | with_reducible exact Keeps.refl _
    | with_reducible apply State.vec_keeps

theorem execLowbit_keeps (c : Fin 16) (w : Nat) (s : State) : KeepsRes wr s (execLowbit c w s) := by
  unfold execLowbit
  have hk : Keeps wr s s := Keeps.refl s
  repeat' first
    | with_reducible assumption
    | intro _
    | with_reducible exact Keeps.refl _
    | with_reducible apply State.vec_keeps

theorem execHighbit_keeps (c : Fin 16) (w : Nat) (s : State) : KeepsRes wr s (execHighbit c w s) := by
  unfold execHighbit
  have hk : Keeps wr s s := Keeps.refl s
  repeat' first
    | with_reducible assumption
    | intro _
    | with_reducible exact Keeps.refl _
    | with_reducible apply State.vec_keeps

theorem execSel_keeps (c : Fin 16) (w : Nat) (s : State) : KeepsRes wr s (execSel c w s) := by
  unfold execSel
  have hk : Keeps wr s s := Keeps.refl s
  repeat' first
    | with_reducible assumption
    | intro _
    | with_reducible exact Keeps.refl _
    | with_reducible apply State.advance_keeps
    | with_reducible apply State.badIns_keeps
    | with_reducible apply State.issue_keeps
    | with_reducible apply State.onDev_keeps
    | with_reducible apply State.updPly_keeps
    | with_reducible apply State.updPort_keeps
    | with_reducible apply Keeps.foldl
    | with_reducible apply KeepsRes.next
    | with_reducible apply Keeps.ite

theorem execLaneGet_keeps (c : Fin 16) (w : Nat) (s : State) : KeepsRes wr s (execLaneGet c w s) := by
  unfold execLaneGet
  have hk : Keeps wr s s := Keeps.refl s
  repeat' first
    | with_reducible assumption
    | intro _
    | with_reducible exact Keeps.refl _
    | with_reducible apply State.advance_keeps
    | with_reducible apply State.badIns_keeps
    | with_reducible apply State.issue_keeps
    | with_reducible apply State.onDev_keeps
    | with_reducible apply State.updPly_keeps
    | with_reducible apply State.updPort_keeps
    | with_reducible apply KeepsRes.next
    | with_reducible apply Keeps.ite

theorem execLaneLow_keeps (c : Fin 16) (w : Nat) (s : State) : KeepsRes wr s (execLaneLow c w s) := by
  unfold execLaneLow
  have hk : Keeps wr s s := Keeps.refl s
  repeat' first
    | with_reducible assumption
    | intro _
    | with_reducible exact Keeps.refl _
    | with_reducible apply State.advance_keeps
    | with_reducible apply State.badIns_keeps
    | with_reducible apply State.issue_keeps
    | with_reducible apply State.onDev_keeps
    | with_reducible apply State.updPly_keeps
    | with_reducible apply State.updPort_keeps
    | with_reducible apply KeepsRes.next
    | with_reducible apply Keeps.ite

theorem execAddF32_keeps (c : Fin 16) (w : Nat) (s : State) : KeepsRes wr s (execAddF32 c w s) := by
  unfold execAddF32
  have hk : Keeps wr s s := Keeps.refl s
  repeat' first
    | with_reducible assumption
    | intro _
    | with_reducible exact Keeps.refl _
    | with_reducible apply State.vec_keeps

theorem execSubF32_keeps (c : Fin 16) (w : Nat) (s : State) : KeepsRes wr s (execSubF32 c w s) := by
  unfold execSubF32
  have hk : Keeps wr s s := Keeps.refl s
  repeat' first
    | with_reducible assumption
    | intro _
    | with_reducible exact Keeps.refl _
    | with_reducible apply State.vec_keeps

theorem execMulF32_keeps (c : Fin 16) (w : Nat) (s : State) : KeepsRes wr s (execMulF32 c w s) := by
  unfold execMulF32
  have hk : Keeps wr s s := Keeps.refl s
  repeat' first
    | with_reducible assumption
    | intro _
    | with_reducible exact Keeps.refl _
    | with_reducible apply State.vec_keeps

theorem execFmaF32_keeps (c : Fin 16) (w : Nat) (s : State) : KeepsRes wr s (execFmaF32 c w s) := by
  unfold execFmaF32
  have hk : Keeps wr s s := Keeps.refl s
  repeat' first
    | with_reducible assumption
    | intro _
    | with_reducible exact Keeps.refl _
    | with_reducible apply State.vec_keeps

theorem execMinF32_keeps (c : Fin 16) (w : Nat) (s : State) : KeepsRes wr s (execMinF32 c w s) := by
  unfold execMinF32
  have hk : Keeps wr s s := Keeps.refl s
  repeat' first
    | with_reducible assumption
    | intro _
    | with_reducible exact Keeps.refl _
    | with_reducible apply State.vec_keeps

theorem execMaxF32_keeps (c : Fin 16) (w : Nat) (s : State) : KeepsRes wr s (execMaxF32 c w s) := by
  unfold execMaxF32
  have hk : Keeps wr s s := Keeps.refl s
  repeat' first
    | with_reducible assumption
    | intro _
    | with_reducible exact Keeps.refl _
    | with_reducible apply State.vec_keeps

theorem execFractF32_keeps (c : Fin 16) (w : Nat) (s : State) : KeepsRes wr s (execFractF32 c w s) := by
  unfold execFractF32
  have hk : Keeps wr s s := Keeps.refl s
  repeat' first
    | with_reducible assumption
    | intro _
    | with_reducible exact Keeps.refl _
    | with_reducible apply State.vec_keeps

theorem execFloor_keeps (c : Fin 16) (w : Nat) (s : State) : KeepsRes wr s (execFloor c w s) := by
  unfold execFloor
  have hk : Keeps wr s s := Keeps.refl s
  repeat' first
    | with_reducible assumption
    | intro _
    | with_reducible exact Keeps.refl _
    | with_reducible apply State.vec_keeps

theorem execCeil_keeps (c : Fin 16) (w : Nat) (s : State) : KeepsRes wr s (execCeil c w s) := by
  unfold execCeil
  have hk : Keeps wr s s := Keeps.refl s
  repeat' first
    | with_reducible assumption
    | intro _
    | with_reducible exact Keeps.refl _
    | with_reducible apply State.vec_keeps

theorem execTrunc_keeps (c : Fin 16) (w : Nat) (s : State) : KeepsRes wr s (execTrunc c w s) := by
  unfold execTrunc
  have hk : Keeps wr s s := Keeps.refl s
  repeat' first
    | with_reducible assumption
    | intro _
    | with_reducible exact Keeps.refl _
    | with_reducible apply State.vec_keeps

theorem execRound_keeps (c : Fin 16) (w : Nat) (s : State) : KeepsRes wr s (execRound c w s) := by
  unfold execRound
  have hk : Keeps wr s s := Keeps.refl s
  repeat' first
    | with_reducible assumption
    | intro _
    | with_reducible exact Keeps.refl _
    | with_reducible apply State.vec_keeps

theorem execH2Add_keeps (c : Fin 16) (w : Nat) (s : State) : KeepsRes wr s (execH2Add c w s) := by
  unfold execH2Add
  have hk : Keeps wr s s := Keeps.refl s
  repeat' first
    | with_reducible assumption
    | intro _
    | with_reducible exact Keeps.refl _
    | with_reducible apply State.vec_keeps

theorem execH2Mul_keeps (c : Fin 16) (w : Nat) (s : State) : KeepsRes wr s (execH2Mul c w s) := by
  unfold execH2Mul
  have hk : Keeps wr s s := Keeps.refl s
  repeat' first
    | with_reducible assumption
    | intro _
    | with_reducible exact Keeps.refl _
    | with_reducible apply State.vec_keeps

theorem execH2Fma_keeps (c : Fin 16) (w : Nat) (s : State) : KeepsRes wr s (execH2Fma c w s) := by
  unfold execH2Fma
  have hk : Keeps wr s s := Keeps.refl s
  repeat' first
    | with_reducible assumption
    | intro _
    | with_reducible exact Keeps.refl _
    | with_reducible apply State.vec_keeps

theorem execH2Min_keeps (c : Fin 16) (w : Nat) (s : State) : KeepsRes wr s (execH2Min c w s) := by
  unfold execH2Min
  have hk : Keeps wr s s := Keeps.refl s
  repeat' first
    | with_reducible assumption
    | intro _
    | with_reducible exact Keeps.refl _
    | with_reducible apply State.vec_keeps

theorem execH2Max_keeps (c : Fin 16) (w : Nat) (s : State) : KeepsRes wr s (execH2Max c w s) := by
  unfold execH2Max
  have hk : Keeps wr s s := Keeps.refl s
  repeat' first
    | with_reducible assumption
    | intro _
    | with_reducible exact Keeps.refl _
    | with_reducible apply State.vec_keeps

theorem execDothF32_keeps (c : Fin 16) (w : Nat) (s : State) : KeepsRes wr s (execDothF32 c w s) := by
  unfold execDothF32
  have hk : Keeps wr s s := Keeps.refl s
  repeat' first
    | with_reducible assumption
    | intro _
    | with_reducible exact Keeps.refl _
    | with_reducible apply State.vec_keeps

theorem execRecipF32_keeps (c : Fin 16) (w : Nat) (s : State) : KeepsRes wr s (execRecipF32 c w s) := by
  unfold execRecipF32
  have hk : Keeps wr s s := Keeps.refl s
  repeat' first
    | with_reducible assumption
    | intro _
    | with_reducible exact Keeps.refl _
    | with_reducible apply State.vec_keeps

theorem execRsqrtF32_keeps (c : Fin 16) (w : Nat) (s : State) : KeepsRes wr s (execRsqrtF32 c w s) := by
  unfold execRsqrtF32
  have hk : Keeps wr s s := Keeps.refl s
  repeat' first
    | with_reducible assumption
    | intro _
    | with_reducible exact Keeps.refl _
    | with_reducible apply State.vec_keeps

theorem execSqrtF32_keeps (c : Fin 16) (w : Nat) (s : State) : KeepsRes wr s (execSqrtF32 c w s) := by
  unfold execSqrtF32
  have hk : Keeps wr s s := Keeps.refl s
  repeat' first
    | with_reducible assumption
    | intro _
    | with_reducible exact Keeps.refl _
    | with_reducible apply State.vec_keeps

theorem execExp2F32_keeps (c : Fin 16) (w : Nat) (s : State) : KeepsRes wr s (execExp2F32 c w s) := by
  unfold execExp2F32
  have hk : Keeps wr s s := Keeps.refl s
  repeat' first
    | with_reducible assumption
    | intro _
    | with_reducible exact Keeps.refl _
    | with_reducible apply State.vec_keeps

theorem execLog2F32_keeps (c : Fin 16) (w : Nat) (s : State) : KeepsRes wr s (execLog2F32 c w s) := by
  unfold execLog2F32
  have hk : Keeps wr s s := Keeps.refl s
  repeat' first
    | with_reducible assumption
    | intro _
    | with_reducible exact Keeps.refl _
    | with_reducible apply State.vec_keeps

theorem execSinturnF32_keeps (c : Fin 16) (w : Nat) (s : State) : KeepsRes wr s (execSinturnF32 c w s) := by
  unfold execSinturnF32
  have hk : Keeps wr s s := Keeps.refl s
  repeat' first
    | with_reducible assumption
    | intro _
    | with_reducible exact Keeps.refl _
    | with_reducible apply State.vec_keeps

theorem execCosturnF32_keeps (c : Fin 16) (w : Nat) (s : State) : KeepsRes wr s (execCosturnF32 c w s) := by
  unfold execCosturnF32
  have hk : Keeps wr s s := Keeps.refl s
  repeat' first
    | with_reducible assumption
    | intro _
    | with_reducible exact Keeps.refl _
    | with_reducible apply State.vec_keeps

theorem execCvtF32I32_keeps (c : Fin 16) (w : Nat) (s : State) : KeepsRes wr s (execCvtF32I32 c w s) := by
  unfold execCvtF32I32
  have hk : Keeps wr s s := Keeps.refl s
  repeat' first
    | with_reducible assumption
    | intro _
    | with_reducible exact Keeps.refl _
    | with_reducible apply State.vec_keeps

theorem execCvtF32U32_keeps (c : Fin 16) (w : Nat) (s : State) : KeepsRes wr s (execCvtF32U32 c w s) := by
  unfold execCvtF32U32
  have hk : Keeps wr s s := Keeps.refl s
  repeat' first
    | with_reducible assumption
    | intro _
    | with_reducible exact Keeps.refl _
    | with_reducible apply State.vec_keeps

theorem execCvtI32F32_keeps (c : Fin 16) (w : Nat) (s : State) : KeepsRes wr s (execCvtI32F32 c w s) := by
  unfold execCvtI32F32
  have hk : Keeps wr s s := Keeps.refl s
  repeat' first
    | with_reducible assumption
    | intro _
    | with_reducible exact Keeps.refl _
    | with_reducible apply State.vec_keeps

theorem execCvtU32F32_keeps (c : Fin 16) (w : Nat) (s : State) : KeepsRes wr s (execCvtU32F32 c w s) := by
  unfold execCvtU32F32
  have hk : Keeps wr s s := Keeps.refl s
  repeat' first
    | with_reducible assumption
    | intro _
    | with_reducible exact Keeps.refl _
    | with_reducible apply State.vec_keeps

theorem execCvtF32F16Lo_keeps (c : Fin 16) (w : Nat) (s : State) : KeepsRes wr s (execCvtF32F16Lo c w s) := by
  unfold execCvtF32F16Lo
  have hk : Keeps wr s s := Keeps.refl s
  repeat' first
    | with_reducible assumption
    | intro _
    | with_reducible exact Keeps.refl _
    | with_reducible apply State.vec_keeps

theorem execCvtF32F16Hi_keeps (c : Fin 16) (w : Nat) (s : State) : KeepsRes wr s (execCvtF32F16Hi c w s) := by
  unfold execCvtF32F16Hi
  have hk : Keeps wr s s := Keeps.refl s
  repeat' first
    | with_reducible assumption
    | intro _
    | with_reducible exact Keeps.refl _
    | with_reducible apply State.vec_keeps

theorem execCvtH2F32_keeps (c : Fin 16) (w : Nat) (s : State) : KeepsRes wr s (execCvtH2F32 c w s) := by
  unfold execCvtH2F32
  have hk : Keeps wr s s := Keeps.refl s
  repeat' first
    | with_reducible assumption
    | intro _
    | with_reducible exact Keeps.refl _
    | with_reducible apply State.vec_keeps

theorem execCvtUnorm8_keeps (c : Fin 16) (w : Nat) (s : State) : KeepsRes wr s (execCvtUnorm8 c w s) := by
  unfold execCvtUnorm8
  have hk : Keeps wr s s := Keeps.refl s
  repeat' first
    | with_reducible assumption
    | intro _
    | with_reducible exact Keeps.refl _
    | with_reducible apply State.vec_keeps

theorem execUnpackUnorm8_keeps (c : Fin 16) (w : Nat) (s : State) : KeepsRes wr s (execUnpackUnorm8 c w s) := by
  unfold execUnpackUnorm8
  have hk : Keeps wr s s := Keeps.refl s
  repeat' first
    | with_reducible assumption
    | intro _
    | with_reducible exact Keeps.refl _
    | with_reducible apply State.vec_keeps

theorem execCvtUnorm16_keeps (c : Fin 16) (w : Nat) (s : State) : KeepsRes wr s (execCvtUnorm16 c w s) := by
  unfold execCvtUnorm16
  have hk : Keeps wr s s := Keeps.refl s
  repeat' first
    | with_reducible assumption
    | intro _
    | with_reducible exact Keeps.refl _
    | with_reducible apply State.vec_keeps

theorem execCmpLtF32_keeps (c : Fin 16) (w : Nat) (s : State) : KeepsRes wr s (execCmpLtF32 c w s) := by
  unfold execCmpLtF32
  have hk : Keeps wr s s := Keeps.refl s
  repeat' first
    | with_reducible assumption
    | intro _
    | with_reducible exact Keeps.refl _
    | with_reducible apply State.vecCmp_keeps

theorem execCmpEqF32_keeps (c : Fin 16) (w : Nat) (s : State) : KeepsRes wr s (execCmpEqF32 c w s) := by
  unfold execCmpEqF32
  have hk : Keeps wr s s := Keeps.refl s
  repeat' first
    | with_reducible assumption
    | intro _
    | with_reducible exact Keeps.refl _
    | with_reducible apply State.vecCmp_keeps

theorem execCmpLeF32_keeps (c : Fin 16) (w : Nat) (s : State) : KeepsRes wr s (execCmpLeF32 c w s) := by
  unfold execCmpLeF32
  have hk : Keeps wr s s := Keeps.refl s
  repeat' first
    | with_reducible assumption
    | intro _
    | with_reducible exact Keeps.refl _
    | with_reducible apply State.vecCmp_keeps

theorem execCmpGtF32_keeps (c : Fin 16) (w : Nat) (s : State) : KeepsRes wr s (execCmpGtF32 c w s) := by
  unfold execCmpGtF32
  have hk : Keeps wr s s := Keeps.refl s
  repeat' first
    | with_reducible assumption
    | intro _
    | with_reducible exact Keeps.refl _
    | with_reducible apply State.vecCmp_keeps

theorem execCmpNeF32_keeps (c : Fin 16) (w : Nat) (s : State) : KeepsRes wr s (execCmpNeF32 c w s) := by
  unfold execCmpNeF32
  have hk : Keeps wr s s := Keeps.refl s
  repeat' first
    | with_reducible assumption
    | intro _
    | with_reducible exact Keeps.refl _
    | with_reducible apply State.vecCmp_keeps

theorem execCmpGeF32_keeps (c : Fin 16) (w : Nat) (s : State) : KeepsRes wr s (execCmpGeF32 c w s) := by
  unfold execCmpGeF32
  have hk : Keeps wr s s := Keeps.refl s
  repeat' first
    | with_reducible assumption
    | intro _
    | with_reducible exact Keeps.refl _
    | with_reducible apply State.vecCmp_keeps

theorem execCmpLtI32_keeps (c : Fin 16) (w : Nat) (s : State) : KeepsRes wr s (execCmpLtI32 c w s) := by
  unfold execCmpLtI32
  have hk : Keeps wr s s := Keeps.refl s
  repeat' first
    | with_reducible assumption
    | intro _
    | with_reducible exact Keeps.refl _
    | with_reducible apply State.vecCmp_keeps

theorem execCmpEqI32_keeps (c : Fin 16) (w : Nat) (s : State) : KeepsRes wr s (execCmpEqI32 c w s) := by
  unfold execCmpEqI32
  have hk : Keeps wr s s := Keeps.refl s
  repeat' first
    | with_reducible assumption
    | intro _
    | with_reducible exact Keeps.refl _
    | with_reducible apply State.vecCmp_keeps

theorem execCmpLeI32_keeps (c : Fin 16) (w : Nat) (s : State) : KeepsRes wr s (execCmpLeI32 c w s) := by
  unfold execCmpLeI32
  have hk : Keeps wr s s := Keeps.refl s
  repeat' first
    | with_reducible assumption
    | intro _
    | with_reducible exact Keeps.refl _
    | with_reducible apply State.vecCmp_keeps

theorem execCmpGtI32_keeps (c : Fin 16) (w : Nat) (s : State) : KeepsRes wr s (execCmpGtI32 c w s) := by
  unfold execCmpGtI32
  have hk : Keeps wr s s := Keeps.refl s
  repeat' first
    | with_reducible assumption
    | intro _
    | with_reducible exact Keeps.refl _
    | with_reducible apply State.vecCmp_keeps

theorem execCmpNeI32_keeps (c : Fin 16) (w : Nat) (s : State) : KeepsRes wr s (execCmpNeI32 c w s) := by
  unfold execCmpNeI32
  have hk : Keeps wr s s := Keeps.refl s
  repeat' first
    | with_reducible assumption
    | intro _
    | with_reducible exact Keeps.refl _
    | with_reducible apply State.vecCmp_keeps

theorem execCmpGeI32_keeps (c : Fin 16) (w : Nat) (s : State) : KeepsRes wr s (execCmpGeI32 c w s) := by
  unfold execCmpGeI32
  have hk : Keeps wr s s := Keeps.refl s
  repeat' first
    | with_reducible assumption
    | intro _
    | with_reducible exact Keeps.refl _
    | with_reducible apply State.vecCmp_keeps

theorem execCmpLtU32_keeps (c : Fin 16) (w : Nat) (s : State) : KeepsRes wr s (execCmpLtU32 c w s) := by
  unfold execCmpLtU32
  have hk : Keeps wr s s := Keeps.refl s
  repeat' first
    | with_reducible assumption
    | intro _
    | with_reducible exact Keeps.refl _
    | with_reducible apply State.vecCmp_keeps

theorem execCmpEqU32_keeps (c : Fin 16) (w : Nat) (s : State) : KeepsRes wr s (execCmpEqU32 c w s) := by
  unfold execCmpEqU32
  have hk : Keeps wr s s := Keeps.refl s
  repeat' first
    | with_reducible assumption
    | intro _
    | with_reducible exact Keeps.refl _
    | with_reducible apply State.vecCmp_keeps

theorem execCmpLeU32_keeps (c : Fin 16) (w : Nat) (s : State) : KeepsRes wr s (execCmpLeU32 c w s) := by
  unfold execCmpLeU32
  have hk : Keeps wr s s := Keeps.refl s
  repeat' first
    | with_reducible assumption
    | intro _
    | with_reducible exact Keeps.refl _
    | with_reducible apply State.vecCmp_keeps

theorem execCmpGtU32_keeps (c : Fin 16) (w : Nat) (s : State) : KeepsRes wr s (execCmpGtU32 c w s) := by
  unfold execCmpGtU32
  have hk : Keeps wr s s := Keeps.refl s
  repeat' first
    | with_reducible assumption
    | intro _
    | with_reducible exact Keeps.refl _
    | with_reducible apply State.vecCmp_keeps

theorem execCmpNeU32_keeps (c : Fin 16) (w : Nat) (s : State) : KeepsRes wr s (execCmpNeU32 c w s) := by
  unfold execCmpNeU32
  have hk : Keeps wr s s := Keeps.refl s
  repeat' first
    | with_reducible assumption
    | intro _
    | with_reducible exact Keeps.refl _
    | with_reducible apply State.vecCmp_keeps

theorem execCmpGeU32_keeps (c : Fin 16) (w : Nat) (s : State) : KeepsRes wr s (execCmpGeU32 c w s) := by
  unfold execCmpGeU32
  have hk : Keeps wr s s := Keeps.refl s
  repeat' first
    | with_reducible assumption
    | intro _
    | with_reducible exact Keeps.refl _
    | with_reducible apply State.vecCmp_keeps

theorem execInterpF32_keeps (c : Fin 16) (w : Nat) (s : State) : KeepsRes wr s (execInterpF32 c w s) := by
  unfold execInterpF32
  have hk : Keeps wr s s := Keeps.refl s
  repeat' first
    | with_reducible assumption
    | intro _
    | with_reducible exact Keeps.refl _
    | with_reducible apply State.advance_keeps
    | with_reducible apply State.badIns_keeps
    | with_reducible apply State.issue_keeps
    | with_reducible apply State.onDev_keeps
    | with_reducible apply State.updPly_keeps
    | with_reducible apply State.updPort_keeps
    | with_reducible apply Keeps.getD
    | with_reducible apply Keeps.foldl
    | with_reducible apply KeepsRes.next
    | with_reducible apply Keeps.ite
    | split

end Sys2Proof.Machine
end

