-- ==== Sys2Proof/Machine/Pins.lean ====
section
/-! DEFINITION. Machine/Pins.lean: the level of each pin in each condition (R466), read from the state: OFF, reset, WATCH, and RUN or DIM. -/
namespace Sys2Proof.Machine

/-- A group of pins of R466 that share one level. -/
inductive Pin where
  | refclk0 | slpclk | pwronRstN | perstN (q : Fin 4) | wakeN | heartbeat | thermtripN | fbselN
  /-- BYPE_N and BYPW_N. -/
  | bypN (e : Fin 2)
  | hapEn (c : Fin 8) | hapDrv (c : Fin 8)
  /-- HTRIG, HAPn_VS, HAPn_IS and ACCn. -/
  | hapIn
  | tdrv (k : Fin 64) | tsns (k : Fin 128)
  | dpLanes (h : Fin 8) | dpHpd (h : Fin 8)
  | hostLanes (q : Fin 4) | whorlLanes (e : Fin 2)
  | tdmClock (p : Fin 4) | tdmDout (p : Fin 4)
  | flash | memReset | memOther
  /-- TEST_EN, TCK, TMS, TDI and TSTRST_N. -/
  | testIn
  | tdo
deriving DecidableEq, Repr

/-- A level of R466. `active` is what the pin's own interface drives; `even` is the drive pair's 0 V differential; `idle` is electrical idle. -/
inductive PinLevel where
  | hiZ | input | ignored | low | high | released | idle | even | active
deriving DecidableEq, Repr

/-- The conditions of R466. -/
inductive PinTime where | off | reset | watch | running
deriving DecidableEq, Repr

/-- The condition that holds: without VAON the device is off; a held reset and the THERMTRIP_N hold are reset (R435, R466). -/
def Dev.pinTime (d : Dev) : PinTime :=
  if !d.power.vaonOk then .off
  else if d.power.held || d.power.tripped then .reset
  else if d.power.state = .watch then .watch
  else .running

/-- Whether an electrode belongs to a panel that scans, a drive electrode where `drive` (R384, R466). -/
def Dev.electrodeOn (d : Dev) (drive : Bool) (k : Nat) : Bool :=
  (allFin 4).any fun n =>
    let first := if drive then fld (d.panelWord n 0) 21 16 else fld (d.panelWord n 1) 22 16
    let count := if drive then d.drives n else d.senses n
    d.panelValid n && decide (first ≤ k) && decide (k < first + count) &&
      (if d.pinTime = .watch then bit (d.reg 0x19048) 31 && !d.touch.blocked && fld (d.reg 0x19048) 29 28 == n.val else (at' d.touch.panels n).scanning)

/-- A driven pin's level. -/
def pinOf (b : Bool) : PinLevel := if b then .high else .low

/-- The level of a pin in RUN and DIM. -/
def Dev.pinRunning (d : Dev) : Pin → PinLevel
  | .refclk0 | .slpclk | .pwronRstN | .perstN _ | .hapIn | .dpHpd _ | .testIn => .input
  | .wakeN => if d.power.wakeN then .low else .released
  | .heartbeat => pinOf d.carder.hbLevel
  | .thermtripN => .released
  | .fbselN => pinOf d.carder.fbHigh
  | .bypN e => pinOf (at' d.whorl.ports e).pin
  | .hapEn c => pinOf (d.hap c).en
  | .hapDrv c => if (d.hap c).en then .active else .even
  | .tdrv k => if d.electrodeOn true k.val then .active else .low
  | .tsns k => if d.electrodeOn false k.val then .active else .low
  | .dpLanes h => if (d.head h).gen = .off then .idle else .active
  | .hostLanes q => if (d.port q).linkUp then .active else .idle
  | .whorlLanes e => if (at' d.whorl.ports e).state = .off then .idle else .active
  | .tdmClock p => let c := d.active (0x18020 + 8 * p.val); if bit c 31 && bit c 30 then .active else .input
  | .tdmDout p => if bit (d.active (0x18020 + 8 * p.val)) 31 then .active else .hiZ
  | .flash | .memReset | .memOther => .active
  | .tdo => .hiZ

/-- The level of a pin (R466). -/
def Dev.pin (d : Dev) (x : Pin) : PinLevel :=
  match d.pinTime with
  | .off => .hiZ
  | .reset => match x with
    | .refclk0 | .slpclk | .pwronRstN | .testIn => .input
    | .perstN _ | .hapIn | .dpHpd _ => .ignored
    | .wakeN => .released
    | .thermtripN => if d.power.tripped then .low else .released
    | .heartbeat | .hapEn _ | .tdrv _ | .tsns _ | .memReset => .low
    | .hapDrv _ => .even
    | .hostLanes _ | .whorlLanes _ => .idle
    | .memOther => .active
    | .fbselN | .bypN _ | .dpLanes _ | .tdmClock _ | .tdmDout _ | .flash | .tdo => .hiZ
  | .watch => match x with
    | .refclk0 | .slpclk | .pwronRstN => .input
    | .perstN q => if q = d.power.watchPort then .input else .ignored
    | .wakeN => if d.power.wakeN then .low else .released
    | .thermtripN => .released
    | .heartbeat | .fbselN | .bypN _ | .hapEn _ | .memReset => .low
    | .hapIn | .dpHpd _ => .ignored
    | .tdrv k => if d.electrodeOn true k.val then .active else .low
    | .tsns k => if d.electrodeOn false k.val then .active else .low
    | .hapDrv _ | .dpLanes _ | .hostLanes _ | .whorlLanes _ | .tdmClock _ | .tdmDout _ | .flash | .memOther | .testIn | .tdo => .hiZ
  | .running => d.pinRunning x

end Sys2Proof.Machine
end

