-- ==== Sys2Proof/WellFormed.lean ====
section
/-! DEFINITION. WellFormed.lean: operands that a command's sender can give. The meanings are total all the same: an ill-formed command has the effect that
its meaning gives it. -/
namespace Sys2Proof
open Sys2Proof.Machine

/-- A block of audio input: at most 64 mixer inputs, each with 48 samples of 32 bits (R366, R367). -/
def Machine.AudioIn.ok (io : AudioIn) : Bool :=
  io.inputs.all (fun e => decide (e.1 < 64) && decide (e.2.length = 48) && e.2.all fun x => decide (-(2 ^ 31) ≤ x) && decide (x < 2 ^ 31)) &&
    io.conv.toList.all fun l => decide (l.length ≤ 48)

/-- The quads that a draw covers stand at even pixels (R237). -/
def fragsOk (quads : List (List FragQuad)) : Bool := quads.all fun l => l.all fun x => x.x % 2 == 0 && x.y % 2 == 0

/-- Operands in range: register offsets (R17, R37), slots of 64 bytes in batches of at most 8 (R76, R84), polls (R79), lengths (R89), quads (R237), transfers
inside one 64-byte unit, link speeds and widths (R322), self-test units (R451), stream handles (R368). -/
def Instr.wellFormed (i : Instr) : Bool :=
  match i with
  | .registerWrite _ bar2 off _ => decide (off % 4 = 0) && decide (off < if bar2 then 0x40000 else 0x100000)
  | .configRequest _ off _ => decide (off % 4 = 0) && decide (off < 4096)
  | .epochBoundary io => io.ok
  | .iommuRefusal _ addr _ _ => decide (addr < 2 ^ 64)
  | .slotReadDone _ _ slots => slots.all (·.length == 64) && decide (slots.length ≤ 8)
  | .pollReadsDone _ block slots => decide (block.length = 512) && slots.toList.all fun l => l.all (·.length == 64) && decide (l.length ≤ 8)
  | .copy _ _ _ n _ => decide (n ≤ 2 ^ 30)
  | .fill _ _ _ n => decide (n ≤ 2 ^ 30)
  | .check _ _ _ n _ => decide (n ≤ 2 ^ 30)
  | .draw _ _ quads => fragsOk quads
  | .drawIndexed _ _ quads => fragsOk quads
  | .drawIndirect _ _ quads => fragsOk quads
  | .memTransferAccept client _ addr write _ => client.eng.ports.contains client.port.val && decide (addr < 2 ^ 40) && (match write with | some (o, bs) => decide (addr % 64 = 0) && decide (o + bs.length ≤ 64) | none => true)
  | .patrolScrub addr _ _ => decide (addr < 2 ^ 40)
  | .linkUp _ speed width => decide (1 ≤ speed) && decide (speed ≤ 5) && ([1, 2, 4, 8, 16] : List Nat).contains width
  | .atsInvalidate _ pasid _ pages => decide (pasid < 2 ^ 20) && decide (1 ≤ pages)
  | .whlAdopt io => io.ok
  | .audBufferReadDone _ h _ => decide (h < 16)
  | .tempSample _ vaon => decide (vaon < 1024)
  | .selftestSlice u _ => decide (0x20 ≤ u) && decide (u ≤ 0x3A)
  | .selftestPassLate u => decide (0x20 ≤ u) && decide (u ≤ 0x3A)
  | .sknAuditRelease .. | .sknAuditEpochLoRead .. | .creditWaitRetry .. | .hapRecharge .. | .hostReadCompletion .. | .htagCompletionTimeout ..
  | .nudgeSq .. | .nudgeCq .. | .ringEnable .. | .ringDisable .. | .cqDisable .. | .fenceValLoWrite .. | .fenceValHiWrite .. | .fenceValLoRead ..
  | .ringServiceResume .. | .doorbellRecordReadDone .. | .pollTimer .. | .descriptorParse .. | .cqConsReadDone .. | .fenceWaitTimeout ..
  | .descriptorRetire .. | .portEvtData7Read .. | .portEvtStatusRead .. | .nop .. | .fenceWait .. | .fenceSignal .. | .commit .. | .layer ..
  | .sigExpect .. | .gfxSubmit .. | .computeSubmit .. | .audOpen .. | .audClose .. | .audBuffer .. | .chime .. | .chimeStop .. | .hapPlay ..
  | .hapLoad .. | .tchConfig .. | .mapPages .. | .unmapPages .. | .plyCreate .. | .plyShare .. | .plyQuiesce .. | .plyResume .. | .plyReset ..
  | .plyDestroy .. | .plyQuery .. | .plyQuiesced .. | .copyStop .. | .migSession .. | .migLogStart .. | .migLogSwap .. | .migLogStop ..
  | .migExport .. | .migImport .. | .timingArm .. | .hdFrameLoRead .. | .armingCutoff .. | .frameBoundary .. | .commitArm .. | .pllLock ..
  | .idleFrameEnd .. | .linkTrainStart .. | .trainAttemptDone .. | .trainAttemptTimeout .. | .dpHotplugPlug .. | .dpHotplugUnplug ..
  | .dpHotplugIrq .. | .headTolReport .. | .headTopupAck .. | .underrun .. | .fbselRelease .. | .cmpLutDataWrite .. | .cmpLutDataRead ..
  | .tenApply .. | .sigHoldClear .. | .sigResultLoRead .. | .clusterOffer .. | .classAPreempt .. | .preemptSaveDone .. | .gfxJobRetire ..
  | .gfxDeadlineMiss .. | .pktNop .. | .call .. | .pktEnd .. | .saveArea .. | .shader .. | .resources .. | .constPkt .. | .target .. | .raster ..
  | .blend .. | .dispatch .. | .dispatchIndirect .. | .pktBarrier .. | .pktSignal .. | .timestamp .. | .passBegin .. | .passEnd .. | .movB32 ..
  | .addI32 .. | .subI32 .. | .mulLoU32 .. | .mulHiU32 .. | .mulHiI32 .. | .madU32 .. | .minI32 .. | .maxI32 .. | .minU32 .. | .maxU32 ..
  | .andIns .. | .orIns .. | .xor .. | .notIns .. | .shl .. | .shrU .. | .shrI .. | .fieldU32 .. | .fieldI32 .. | .merge .. | .popc .. | .lowbit ..
  | .highbit .. | .sel .. | .laneGet .. | .laneLow .. | .addF32 .. | .subF32 .. | .mulF32 .. | .fmaF32 .. | .minF32 .. | .maxF32 .. | .fractF32 ..
  | .floor .. | .ceil .. | .trunc .. | .round .. | .h2Add .. | .h2Mul .. | .h2Fma .. | .h2Min .. | .h2Max .. | .dothF32 .. | .recipF32 ..
  | .rsqrtF32 .. | .sqrtF32 .. | .exp2F32 .. | .log2F32 .. | .sinturnF32 .. | .costurnF32 .. | .cvtF32I32 .. | .cvtF32U32 .. | .cvtI32F32 ..
  | .cvtU32F32 .. | .cvtF32F16Lo .. | .cvtF32F16Hi .. | .cvtH2F32 .. | .cvtUnorm8 .. | .unpackUnorm8 .. | .cvtUnorm16 .. | .cmpLtF32 ..
  | .cmpEqF32 .. | .cmpLeF32 .. | .cmpGtF32 .. | .cmpNeF32 .. | .cmpGeF32 .. | .cmpLtI32 .. | .cmpEqI32 .. | .cmpLeI32 .. | .cmpGtI32 ..
  | .cmpNeI32 .. | .cmpGeI32 .. | .cmpLtU32 .. | .cmpEqU32 .. | .cmpLeU32 .. | .cmpGtU32 .. | .cmpNeU32 .. | .cmpGeU32 .. | .interpF32 .. | .sMov ..
  | .sMovi .. | .sAdd .. | .sSub .. | .sMulLo .. | .sAnd .. | .sOr .. | .sXor .. | .sShl .. | .sShrU .. | .sMinU .. | .sMaxU .. | .sCmpEq ..
  | .sCmpLtU .. | .sCmpLtI .. | .pAnd .. | .pOr .. | .pXor .. | .pAndn .. | .pNot .. | .pTos .. | .pFroms .. | .bra .. | .braSz .. | .braSnz ..
  | .braPany .. | .braPnone .. | .ifIns .. | .elseIns .. | .endif .. | .loop .. | .breakIns .. | .cont .. | .endloop .. | .kill .. | .waveEnd ..
  | .bar .. | .membarWg .. | .membarDev .. | .idle .. | .time .. | .ilkBegin .. | .ilkEnd .. | .ldG .. | .stG .. | .ldB .. | .stB .. | .ldL ..
  | .stL .. | .plsLd .. | .plsSt .. | .atomAdd .. | .atomMinI .. | .atomMinU .. | .atomMaxI .. | .atomMaxU .. | .atomAnd .. | .atomOr ..
  | .atomXor .. | .atomXchg .. | .atomCas .. | .atomAddB .. | .outPos .. | .outVar .. | .outColour .. | .outDepth .. | .sample .. | .sampleL ..
  | .sampleB .. | .fetch .. | .memReadReturn .. | .refreshDue .. | .mr4Poll .. | .bankIdleClose .. | .dramTraining .. | .dqsOscSample ..
  | .retrainSlice .. | .retrainForceTimeout .. | .lightNapEnter .. | .lightNapExit .. | .deepNapRequest .. | .deepNapEnter .. | .deepNapExit ..
  | .caParityAlert .. | .parityReplay .. | .memPasr .. | .mbxReqProdWrite .. | .mbxRspConsWrite .. | .mbxRequestTake .. | .mbxResponse .. | .gate ..
  | .elyInfo .. | .containerLoad .. | .containerStage .. | .svnCommit .. | .wmRaise .. | .memGive .. | .memTake .. | .granuleScrubDone .. | .lend ..
  | .unlend .. | .ownerQuery .. | .audLock .. | .elyRestartTrigger .. | .elyWatchdogExpiry .. | .elyRestartDone .. | .boot .. | .getVersion ..
  | .getCapabilities .. | .negotiateAlgorithms .. | .getDigests .. | .getCertificate .. | .challenge .. | .getMeasurements .. | .keyExchange ..
  | .finish .. | .keyUpdate .. | .spdmHeartbeat .. | .endSession .. | .vendorDefined .. | .keyProg .. | .kSetStop .. | .perstNAssert ..
  | .perstNRelease .. | .hotReset .. | .flr .. | .dlDownDetect .. | .atsInvalidateComplete .. | .ptmTimer .. | .ptmNow .. | .ptmResponse ..
  | .powerStateChange .. | .ltrMessage .. | .aspmIdleTimeout .. | .wakeNAssert .. | .whlJoin .. | .whlLeave .. | .whlChanOpen .. | .whlChanClose ..
  | .whlLoopTest .. | .whlProbeReturn .. | .whlTimeMark .. | .whlOffsetCheck .. | .whlDelayMeasure .. | .whlLinkLoss .. | .whlRepairDone ..
  | .whlSendStart .. | .whlSendDone .. | .whlReceiveDone .. | .audMixDataWrite .. | .audEqDataWrite .. | .tdmClkLost .. | .chimeTrigger ..
  | .chimeVoiceEnd .. | .touchScanStart .. | .touchScanDone .. | .persistentTouch .. | .recal .. | .selftest .. | .refStore .. | .tchCmdDone ..
  | .wakeScan .. | .htrigEdge .. | .hapEffectStart .. | .hapEnergyTimeout .. | .hapDriveEnd .. | .hapBrakeEnd .. | .hapEnHoldExpiry .. | .hapTrip ..
  | .hapRearm .. | .hapClear .. | .hapEnOneshotExpiry .. | .pwrStateRun .. | .pwrStateDim .. | .pwrStateWatch .. | .pwrIsland .. | .pwrOppoint ..
  | .pwrReset .. | .warmReset .. | .islandRampStart .. | .islandPowerGood .. | .refclk0Loss .. | .slpclkLoss .. | .fcntStart .. | .fcntDone ..
  | .thermtrip .. | .vaonWarnStart .. | .vaonWarnEnd .. | .vaonReset .. | .vaonApply .. | .pwronRstNAssert .. | .watchExit .. | .opsecSecond ..
  | .cocoonRefill .. | .cocoonSlotWrite .. | .cocoonSectorErase .. | .ccnInfo .. | .ccnFreeze .. | .ccnThaw .. | .ccnFreezeTimeout .. | .ccnRead ..
  | .ccnOpsecLoRead .. | .hapControlTick .. | .tdmBclkReturn .. | .slpclkReturn .. | .memCommandOpportunity .. | .whlLoopTrained ..
  | .whlAnnounce .. | .whlProbeReceived .. | .linkL1Change .. => true

end Sys2Proof
end

