-- ==== Sys2Proof/Tests/Slice0.lean ====
section
/-! SUPPORT. Tests/Slice0.lean: the model's own tests: ill-formed commands that `wellFormed` refuses, worked examples of the manual, and for every statement
about commands states and operands that meet its hypotheses. -/
namespace Sys2Proof.Tests

set_option Elab.async false

open Sys2Proof Sys2Proof.Machine Sys2Proof.Claims

/-! A small running block: OZ8C16, manager on port 0, ply 1 of class B on port 0, granules 1024 to 1027 mapped for it at page 0 on, no credit taken. -/

/-- A policy entry that grants everything a test needs. -/
def grantAll : PlyPolicy :=
  { PlyPolicy.empty with cls := some .b, ports := [0, 1], guarMax := Vector.replicate 6 1000, capMax := Vector.replicate 6 100000, memMax := 4096,
                         heads := [0, 1], panels := [0, 1], haptics := [0, 1], waves := 0xFFFF, outputs := 0xFFFFFFFF, inputs := [0, 1, 2, 3],
                         handles := [0, 1, 2], ringPaths := [(0, true), (1, false)], checks := [0, 1] }

/-- A haptic channel of which the policy says nothing, and the running policy. -/
def policy (classA : Bool) (hap : HapPolicy) : Policy :=
  { manager := 0, plies := Vector.replicate 64 (if classA then { grantAll with cls := some .a } else grantAll), lendPairs := [(1, 2, true)],
    heads := Vector.replicate 8 HeadPolicy.empty, hbEn := false, hbHead := 0, fbSticky := false, binTotal := 1024, auditors := [1], wmInit := 32, wmMax := 40,
    waves := Vector.replicate 16 none, binds := [{ src := .edge 0 true, wave := 0, mask := 1, gain := 0x4000 }, { src := .event 0x0E00, wave := 1, mask := 1, gain := 0x4000 }],
    audio := put (Vector.replicate 32 none) 0 (some { out := 0, comp := 0, compT := 0, lim := 0, tdm := 0 }), panels := Vector.replicate 4 none,
    haptics := Vector.replicate 8 hap, pins := Vector.replicate 8 0, chkLock := 0, ccnBurst := 8, ccnRefill := 1, migOk := [] }

/-- The ledger with every share open. -/
def openLedger : Skein :=
  let k := (Skein.reset 16).trainMem 2133250
  { k with accts := k.accts.map fun a => { a with cap := Vector.replicate holders a.total, guar := Vector.replicate holders 0 } }

/-- A memory of LPDDR5X at 8,533 MT/s, 16 GiB, without inline ECC. -/
def lpddr : MemDesc := { ddr5 := false, rate := 8533, iecc := false, gib := 16, ranks := 1, parts := .package }

/-- The header and the section table of a container with four sections of a byte each. -/
def containerHeader : List Byte :=
  bytesOf 4 0x494B5350 ++ bytesOf 2 1 ++ bytesOf 2 4 ++ bytesOf 4 4096 ++ bytesOf 8 0 ++ [1] ++ List.replicate 43 0 ++
    (([(1, 1280), (2, 1536), (0x10, 1792), (0x11, 2048)] : List (Nat × Nat)).flatMap fun x =>
      bytesOf 2 x.1 ++ [0, 0] ++ bytesOf 4 x.2 ++ bytesOf 4 1 ++ List.replicate 52 0)
/-- The running container of the tests. -/
def container (classA : Bool) : Container :=
  { bytes := containerHeader, policy := policy classA { acc := false, sense := 0, lim := 0 }, memDesc := lpddr, assets := [] }

/-- The ply of the tests. -/
def ply1 (cls : PlyClass) (ring : SubRing) : Ply :=
  { Ply.absent with cls := cls, state := .active, port := 0, pasid := 5, dbrBase := 0x10000, rings := put Ply.absent.rings 0 ring,
                    cq := { CplRing.blank with enable := true, log2Depth := 6, base := 0x20000 },
                    tables := (List.range 4).map fun k => (k, { page := 1024 + k, read := true, write := true }) }

/-- The submission ring 0 of the tests, with these descriptors in flight. -/
def ring0 (q : List InFlight) : SubRing := { SubRing.blank with enable := true, log2Depth := 6, base := 0x30000, read := .idle, queue := q }

/-- DRAM whose granules 1024 to 1027 were written under key generation 7, with bytes stored from an address of granule 1024 on. -/
def memory (off : Nat) (bytes : List Byte) : Dram :=
  ({ Dram.blank with granKey := (List.range 4).map fun k => (1024 + k, 7) } : Dram).writeN 7 (1024 * 65536 + off) bytes

/-- The block with its parts up and this ply. -/
def block (classA : Bool) (y : Ply) : State :=
  { pending := [], dram := memory 0 [], skein := openLedger,
    dev := { State.reset.dev with
      devtime := 1000000, lastEpoch := 1000000, plies := put State.reset.dev.plies 1 y, dramTop := 2 ^ 34,
      ports := (State.reset.dev.ports.map fun q => { q with perst := false, linkUp := true, speed := 5, width := 4,
                                                            cfg := [(0x04, 6), (0x25C, 0x10000), (0x264, 0x80000000), (0x270, 1)] }),
      power := { State.reset.dev.power with state := .run, strap := 1, islands := Vector.replicate 32 Island.good },
      mc := { Mc.blank with desc := some lpddr, trained := true },
      ely := { Ely.blank with state := .running, running := some (container classA), owner := (List.range 4).map fun k => (1024 + k, 1),
                              keySlot := put (put Ely.blank.keySlot 1 7) 64 9, nextKey := 10 } } }

/-- The block with a class B ply and nothing in flight; and with one descriptor ready at the head of its ring. -/
def world : State := block false (ply1 .b (ring0 []))

/-- A descriptor of these bytes at offsets, everything else 0. -/
def desc (fields : List (Nat × Nat × Nat)) : List Byte :=
  fields.foldl (fun (b : List Byte) f => b.take f.1 ++ bytesOf f.2.1 f.2.2 ++ b.drop (f.1 + f.2.1)) (List.replicate 64 0)

/-- It, accepted as number 0. -/
def flight (phase : DescPhase) (bytes : List Byte) : InFlight :=
  { bytes := bytes, seq := 0, order := 0, phase := phase, reserved := true, standing := false, status := 0, result := [], block := [], mark := 0, reading := 0, armedAt := none, seen := false }

@[inherit_doc world] def withDesc (bytes : List Byte) : State := block false (ply1 .b (ring0 [flight .parsed bytes]))

theorem world_runs : world.dev.alive = true ∧ world.dev.isManager 0 = true ∧ world.dev.isManager 1 = false := by decide +kernel

/-- Command number 1 in Elytra's journal: its port, code and arguments (offset in ARGS, length, value). -/
def asking (s : State) (port : Fin 4) (code : Nat) (args : List (Nat × Nat × Nat)) (begun : Bool) : State :=
  let n := match commandTable.find? (·.1 == code) with | some x => x.2.1 | none => 0
  let slot := desc ([(0, 1, code), (4, 1, n)] ++ args.map fun a => (8 + a.1, a.2))
  s.onDev fun d => { d with ely := { d.ely with journal := [{ order := 1, port := port, slot := slot, begun := begun, mark := 0, mute := false }] } }

/-- A value there is, and it passes a test. -/
def holds {α : Type} (x : Option α) (test : α → Bool) : Bool := match x with | some a => test a | none => false

/-! ### Shader instructions -/

/-- A job of ply 1 on cluster 0 with one wave of 32 active lanes at device address 0, where this word and literal stand, the line of code in the
instruction cache. Its resource table holds a buffer, a
texture and a sampler. -/
def shading (work : WaveWork) (pass : Option Pass) (stack : List StackEntry) (groups : List WorkGroup) (word lit : Nat) : State :=
  let d := (memory 0 (bytesOf 8 word ++ bytesOf 4 lit)).writeN 7 (1025 * 65536)
    ((desc [(0, 1, 1), (8, 8, 0x30000), (16, 4, 4096), (32, 1, 2), (33, 1, 1), (34, 1, 1), (36, 2, 4), (38, 2, 4), (40, 8, 0x20000), (56, 4, 256)]) ++
      [3, 0, 0, 0])
  let st : Stage := { Stage.zero with vregs := 16, sregs := 16, table := 65536 }
  let j : Job :=
    { order := 0, ply := 1, ring := 0, seq := 0, compute := false, want := 1, deadline := 0, wcet := 0, armed := 0, started := some 0, bufs := [],
      pipe := Pipe.zero, save := none, pass := pass, dispatches := [], saved := [], nextWave := 1, nextGroup := 1, missed := false, ended := none, code := d, tex := d }
  let w : Wave :=
    { id := 0, part := 0, work := work, stage := st, pc := 0, amask := BitVec.allOnes 32, live := BitVec.allOnes 32, killed := 0, v := [], s := [],
      p := Vector.replicate 8 1, stack := stack, barrier := false, outs := [] }
  let c : Cluster := { Cluster.idle with job := some 0, ctx := { Context.empty with waves := [w], groups := groups }, icache := [0] }
  { world with dev := { world.dev with gfx := { world.dev.gfx with jobs := [j], clusters := put world.dev.gfx.clusters 0 c } } }

/-- A compute wave of group 0. -/
def computing (word : Nat) : State := shading (.compute 0) none [] [{ id := 0, waves := 1, size := 4096, lds := [], seed := 0 }] word 0

/-- The instruction of a format and opcode, with its other bits. -/
def insWord (fmt op rest : Nat) : Nat := fmt * 2 ^ 62 + op * 2 ^ 54 + rest

/-- Wave 0 of cluster 0 issues an instruction that passes a test, with the state after its fetch. -/
def issues (s : State) (fmt op : Nat) (test : Issue → State → Bool) : Bool := holds (issued s 0 0 fmt op) fun x => test x.1 x.2

/-- Sources v1, s2 and 3, destination v4. -/
def vecBits : Nat := 4 * 2 ^ 40 + 1 * 2 ^ 31 + 0x102 * 2 ^ 22 + 0x183 * 2 ^ 13

/-- Every opcode in the list issues and passes the checks of its kind. -/
def vecIssues (ops : List Nat) (kd : VecKind) : Bool := ops.all fun op => issues (computing (insWord 0 op vecBits)) 0 op fun i _ => i.vecOk kd

theorem witness_VectorIntegerResults :
    (vecIssues [0x00, 0x0E, 0x15, 0x16, 0x17] int1 && vecIssues [0x12, 0x13, 0x14, 0x06] int3 &&
      vecIssues [0x01, 0x02, 0x03, 0x04, 0x05, 0x07, 0x08, 0x09, 0x0A, 0x0B, 0x0C, 0x0D, 0x0F, 0x10, 0x11] int2) = true := by decide +kernel

/-- A fragment wave of one quad at the origin, in a pass with one draw and pixel-local storage. -/
def quadWave : FragWave :=
  { draw := 0, tile := 0, order := 0, quads := [{ x := 0, y := 0, inst := 0, prim := 0, front := true, lanes := Vector.replicate 4 { cover := 1, depth := [], z := 0, invw := 0, vars := [7] } }] }
@[inherit_doc quadWave] def passOne : Pass :=
  let d : Draw := { pipe := Pipe.zero, topo := 0, count := 3, insts := 1, first := 0, firstInst := 0, indexed := none, nextInst := 0, nextPos := 0, restarts := [],
                    outs := [], inFlight := 0 }
  { width := 32, height := 32, samples := 1, pls := true, binMax := 0, spill := 0, spillUnits := 16, targets := Vector.replicate 5 Target.zero, draws := [d],
    binning := false, frags := [], nextOrder := 0, pages := 0, owe := none, partials := 0, spilled := [], render := none, todo := [], tilesDone := [] }
@[inherit_doc quadWave] def fragmenting (word : Nat) : State := shading (.fragment quadWave 0 0 false) (some passOne) [] [] word 0

@[inherit_doc computing] def stacked (stack : List StackEntry) (word : Nat) : State := shading (.compute 0) none stack [] word 0

/-- A reconvergence entry. -/
def entry (isLoop : Bool) : StackEntry := { mask := BitVec.allOnes 32, isLoop := isLoop, ifMask := 1, resume := 8, stop := 8, cont := 0 }

/-- SEL and the lane instructions, INTERP.F32: sources as before, the predicate p3, the varying 0. -/
theorem witness_LaneSelectionResults :
    (issues (computing (insWord 0 0x18 (4 * 2 ^ 40 + 2 ^ 31 + 0x102 * 2 ^ 22 + 3 * 2 ^ 13))) 0 0x18 (fun i _ => i.vecOk int2 && i.f 21 16 == 0) &&
      issues (computing (insWord 0 0x19 vecBits)) 0 0x19 (fun i _ => i.vecOk int2 && !bit i.ins 47) &&
      issues (computing (insWord 0 0x1A vecBits)) 0 0x1A (fun i _ => i.vecOk int1 && !bit i.ins 47) &&
      issues (fragmenting (insWord 0 0x90 (4 * 2 ^ 40 + 0x19F * 2 ^ 31))) 0 0x90 (fun i _ => i.vecOk flt1 && i.f 39 31 == 0x180 + 31 &&
        i.wave.work == .fragment quadWave 0 0 false && holds i.job.pass fun pa => pa.draws[quadWave.draw]?.isSome)) = true := by decide +kernel

theorem witness_VectorFloatResults :
    (vecIssues [0x20, 0x21, 0x22, 0x24, 0x25] flt2 && vecIssues [0x23] flt3 && vecIssues [0x26, 0x27, 0x28, 0x29, 0x2A] flt1 &&
      vecIssues [0x40, 0x41, 0x43, 0x44] half2 && vecIssues [0x42] half3 && vecIssues [0x45] { flt3 with half := true }) = true := by decide +kernel
theorem witness_VectorConversionResults :
    (vecIssues [0x50, 0x51, 0x52, 0x53, 0x54, 0x55, 0x56] flt1 && vecIssues [0x60, 0x61] { int1 with isInt := false, res := 1 } &&
      vecIssues [0x62, 0x63] { flt1 with res := 0 } && vecIssues [0x64, 0x65] { flt1 with mod16 := true } && vecIssues [0x66] { flt2 with res := 2 } &&
      vecIssues [0x67, 0x69] { flt2 with fb := false, res := 0 } && vecIssues [0x68] { int2 with isInt := false, res := 1 }) = true := by decide +kernel
theorem witness_VectorCompareResults :
    (vecIssues [0x70, 0x71, 0x72, 0x73, 0x74, 0x75] flt2 && vecIssues ((List.range 12).map (0x76 + ·)) int2) = true := by decide +kernel
/-- Lanes 0 and 31, and a register that D is not. -/
theorem witness_VectorWritesActiveLanesOnly :
    issues (computing (insWord 0 0 vecBits)) 0 0 (fun i _ => i.f 47 40 == 4 && i.active.getLsbD 0 && i.active.getLsbD 31 && decide (4 < i.wave.stage.vregs)) = true := by
  decide +kernel

/-- Sources s2 and 3, destination s4, SIMM 5; every scalar opcode in the list issues with `n` sources. -/
def sclIssues (ops : List Nat) (n : Nat) : Bool := ops.all fun op =>
  issues (computing (insWord 1 op (4 * 2 ^ 41 + 0x102 * 2 ^ 32 + 0x183 * 2 ^ 23 + 5))) 1 op fun i _ => sclOk i n
/-- A fetch whose lines the cluster's instruction cache lacks, and one whose lines it has. -/
theorem witness_FetchResults :
    (issues (computing (insWord 1 0x60 0)) 1 0x60 (fun _ s => (s.cluster 0).icache == [0]) &&
      issues ((computing (insWord 1 0x60 0)).updCluster 0 fun k => { k with icache := [] }) 1 0x60 fun _ s => (s.cluster 0).icache == [0]) = true := by decide +kernel
theorem witness_ScalarResults :
    (sclIssues [0x00, 0x26] 1 && sclIssues ((List.range 13).map (2 + ·)) 2 && sclIssues [0x01, 0x20, 0x21, 0x22, 0x23, 0x24, 0x25] 0) = true := by decide +kernel
theorem witness_BranchResults : (sclIssues [0x40, 0x43, 0x44] 0 && sclIssues [0x41, 0x42] 1) = true := by decide +kernel
/-- IF and LOOP on a stack with room, ELSE and ENDIF on an entry, BREAK, CONT and ENDLOOP inside an IF of a loop, KILL of a fragment, END. -/
theorem witness_ReconvergenceResults :
    ((sclIssues [0x45, 0x48, 0x4D] 0 && [0x46, 0x47].all fun op => issues (stacked [entry false] (insWord 1 op 5)) 1 op fun i _ => sclOk i 0 && i.wave.stack == [entry false]) &&
      ([0x49, 0x4A, 0x4B].all fun op => issues (stacked [entry false, entry true] (insWord 1 op 5)) 1 op fun i _ =>
        sclOk i 0 && i.wave.stack == [entry false] ++ entry true :: [] && [entry false].all (!·.isLoop)) &&
      issues (fragmenting (insWord 1 0x4C 0)) 1 0x4C fun i _ => sclOk i 0 && i.wave.work == .fragment quadWave 0 0 false) = true := by decide +kernel
/-- Of a compute wave and of a fragment wave whose pixels no other wave holds. -/
theorem witness_SynchronisationResults :
    (sclIssues [0x60, 0x61, 0x62, 0x63, 0x64, 0x65, 0x66] 0 && [0x60, 0x65, 0x66].all (fun op => issues (fragmenting (insWord 1 op 0)) 1 op fun i s =>
        sclOk i 0 && i.wave.work == .fragment quadWave 0 0 false && !(s.cluster 0).ctx.ilkHeld quadWave (i.wave.amask &&& ~~~0 &&& ~~~0)) &&
      issues (computing (insWord 1 0x64 (4 * 2 ^ 41))) 1 0x64 (fun i _ => i.f 47 41 % 2 == 0)) = true := by decide +kernel

/-- A memory instruction of width 32 bits at a base. -/
def memBits (base : Nat) : Nat := 4 * 2 ^ 40 + 1 * 2 ^ 32 + base * 2 ^ 24 + 2 * 2 ^ 21
theorem witness_LoadResults :
    (issues (computing (insWord 2 0x00 (memBits 2))) 2 0x00 (fun i s => accessBytes (i.f 23 21) == some 4 && i.f 31 24 % 2 == 0 &&
        (s.loadAt i (bit i.ins 19) ((lanesOf i.active).map (i.gAddr 4)) 4).2.isSome) &&
      issues (computing (insWord 2 0x10 (memBits 0))) 2 0x10 (fun i s => holds (bufferOf s i) fun b => b.2.isSome &&
          (b.1.loadAt i false (((lanesOf i.active).filter fun l => (inBuffer b.2 i 4 l).isSome).map fun l => (inBuffer b.2 i 4 l).getD 0) 4).2.isSome) &&
      issues (computing (insWord 2 0x20 (memBits 0))) 2 0x20 (fun i s => i.f 31 24 == 0 && (s.group i).isSome)) = true := by
  decide +kernel
theorem witness_StoreResults :
    (issues (computing (insWord 2 0x01 (memBits 2))) 2 0x01 (fun i s => (s.storeAt i true (i.writers.map fun l => (i.gAddr 4 l, i.dataBytes 4 l))).2) &&
      issues (computing (insWord 2 0x11 (memBits 0))) 2 0x11 (fun i s => holds (bufferOf s i) fun b => b.2.isSome &&
          (b.1.storeAt i true (i.writers.filterMap fun l => (inBuffer b.2 i 4 l).map fun a => (a, i.dataBytes 4 l))).2) &&
      issues (computing (insWord 2 0x21 (memBits 0))) 2 0x21 (fun i s => ((s.advance i i.wave).group i).isSome)) = true := by
  decide +kernel
theorem witness_PixelLocalResults :
    ([0x30, 0x31].all fun op => issues (fragmenting (insWord 2 op (memBits 0))) 2 op fun i _ =>
      accessBytes (i.f 23 21) == some 4 && i.f 31 24 == 0 && i.plsWords 4 == some (0, 1) && (i.plsPixel 3).isSome) = true := by decide +kernel
/-- A global atomic with DEV 1 issues on this state with its lanes mapped and its credits there. -/
def globalAtomic (s : State) (op : Nat) : Bool :=
  issues s 2 op fun i s => bit i.ins 19 && i.f 31 24 % 2 == 0 && lanesMapped s i (fun l => some (i.gAddr 4 l)) && (atomicMem s i (fun l => some (i.gAddr 4 l))).isSome
/-- So does one on the local data store with DEV 0. -/
def localAtomic (s : State) (op : Nat) : Bool := issues s 2 op fun i _ => !bit i.ins 19 && i.f 31 24 == 0
/-- And one on a buffer. -/
def bufferAtomic (s : State) : Bool :=
  issues s 2 0x4A fun i s => holds (bufferOf s i) fun b => (i.writers.all fun l => (inBuffer b.2 i 4 l).isSome) &&
    lanesMapped b.1 i (inBuffer b.2 i 4) && (atomicMem b.1 i (inBuffer b.2 i 4)).isSome
theorem witness_AtomicResults_global : globalAtomic (computing (insWord 2 0x40 (memBits 2 + 2 ^ 19))) 0x40 = true := by decide +kernel
theorem witness_AtomicResults_local :
    (((List.range 10).map (0x40 + ·)).all fun op => localAtomic (computing (insWord 2 op (memBits 0))) op) = true := by decide +kernel
theorem witness_AtomicResults_buffer : bufferAtomic (computing (insWord 2 0x4A (memBits 0))) = true := by decide +kernel
/-- In a vertex wave and in a fragment wave. -/
theorem witness_StageOutputResults :
    ([0x60, 0x61].all (fun op => issues (shading (.vertex 0 0 0 32) (some passOne) [] [] (insWord 2 op (memBits 0)) 0) 2 op fun i _ =>
        i.f 31 24 == 0 && i.wave.work == .vertex 0 0 0 32) &&
      [0x62, 0x63].all (fun op => issues (fragmenting (insWord 2 op (memBits 0))) 2 op fun i _ =>
        i.f 31 24 == 0 && i.wave.work == .fragment quadWave 0 0 false)) = true := by decide +kernel
/-- The texture entry 1 and the sampler entry 2. -/
def texBits : Nat := 4 * 2 ^ 40 + 1 * 2 ^ 32 + 1 * 2 ^ 24 + 2 * 2 ^ 16
/-- Whether a lane's sample has a value. -/
def sampled (r : Except Nat (List Nat × Bool)) : Bool := match r with | .ok _ => true | .error _ => false
/-- A texture instruction issues with its texture and sampler, its end lanes have a result, and what those lanes read comes into the texture cache. -/
def textures (s : State) (op : Nat) : Bool :=
  issues s 3 op fun i s => i.f 2 0 == 0 && holds ((s.resource i 1).bind texEntry) fun t =>
    holds ((s.resource i 2).bind sampEntry) fun m =>
      let lod := fun l => if op = 1 then i.crd 2 l else if op = 0 then i.derived t l else f32.add 0 (i.derived t l) (i.crd 2 l)
      let u := fun l => signed 32 (i.crd 0 l) + i.offU
      let v := fun l => signed 32 (i.crd 1 l) + i.offV
      ([0, 31].all fun l => sampled (if op = 3 then s.fetchLane i.job t false (u l) (v l) (i.crd 2 l) l
        else s.sampleLane i.job t m false (i.crd 0 l, i.crd 1 l) (lod l) i.offU i.offV l)) &&
      (s.fillTex i.c i.job.ply ((i.wave.stage.table + 32, 32) :: (i.wave.stage.table + 64, 32) :: [0, 31].flatMap fun l =>
        if op = 3 then s.fetchReads i.job t false (u l) (v l) (i.crd 2 l)
        else s.sampleReads i.job t m false (i.crd 0 l, i.crd 1 l) (lod l) i.offU i.offV)).isSome
theorem witness_TextureResults : ([0, 1, 2, 3].all fun op => textures (computing (insWord 3 op texBits)) op) = true := by decide +kernel

/-! ### Ill-formed commands, each refused by one check of `wellFormed`; its well-formed neighbour passes. -/

/-- Audio inputs with one block of samples. -/
def audioIn (input n : Nat) (x : Int) (conv : Nat) : AudioIn :=
  { inputs := [(input, List.replicate n x)], conv := Vector.replicate 4 (List.replicate conv []), slips := Vector.replicate 4 0 }
/-- A quad at a pixel. -/
def quadAt (x y : Nat) : FragQuad := { x := x, y := y, inst := 0, prim := 0, front := true, lanes := Vector.replicate 4 { cover := 1, depth := [], z := 0, invw := 0, vars := [] } }
/-- Batches of slots of one ring. -/
def batch (n len : Nat) : List (List Byte) := List.replicate n (List.replicate len 0)

theorem test_wellFormed_registers :
    ([.registerWrite 0 false 0x10002 0, .registerWrite 0 false 0x100000 0, .registerWrite 0 true 0x40000 0, .configRequest 0 2 none, .configRequest 0 4096 none] : List Instr).all
      (!·.wellFormed) ∧ (Instr.registerWrite 0 true 0x3FFFC 0).wellFormed ∧ (Instr.configRequest 0 4092 none).wellFormed := by decide +kernel
theorem test_wellFormed_audio :
    ([.epochBoundary (audioIn 64 48 0 48), .epochBoundary (audioIn 63 47 0 48), .epochBoundary (audioIn 63 48 (2 ^ 31) 48), .whlAdopt (audioIn 63 48 0 49)] : List Instr).all
      (!·.wellFormed) ∧ (Instr.epochBoundary (audioIn 63 48 (-(2 ^ 31)) 48)).wellFormed := by decide +kernel
theorem test_wellFormed_slots :
    ([.slotReadDone 1 0 (batch 9 64), .slotReadDone 1 0 (batch 1 63), .pollReadsDone 1 (List.replicate 511 0) (Vector.replicate 4 []),
      .pollReadsDone 1 (List.replicate 512 0) (Vector.replicate 4 (batch 1 65))] : List Instr).all (!·.wellFormed) ∧
      (Instr.slotReadDone 1 0 (batch 8 64)).wellFormed := by decide +kernel
theorem test_wellFormed_lengths :
    ([.copy 1 0 0 (2 ^ 30 + 1) [], .fill 1 0 0 (2 ^ 30 + 1), .check 1 0 0 (2 ^ 30 + 1) [], .draw 0 0 [[quadAt 1 0]], .drawIndexed 0 0 [[quadAt 0 1]],
      .drawIndirect 0 0 [[quadAt 3 3]]] : List Instr).all (!·.wellFormed) ∧ (Instr.draw 0 0 [[quadAt 2 4]]).wellFormed := by decide +kernel
theorem test_wellFormed_memory :
    ([.memTransferAccept ⟨0, .carder⟩ none (2 ^ 40) none none, .memTransferAccept ⟨0, .carder⟩ none 32 (some (0, [])) none,
      .memTransferAccept ⟨0, .carder⟩ none 64 (some (60, List.replicate 5 0)) none, .memTransferAccept ⟨0, .copy⟩ none 64 none none,
      .patrolScrub (2 ^ 40) [] .other, .iommuRefusal 1 (2 ^ 64) ⟨true, .copy⟩ none] : List Instr).all (!·.wellFormed) ∧
      (Instr.memTransferAccept ⟨0, .carder⟩ none 64 (some (60, List.replicate 4 0)) none).wellFormed := by decide +kernel
theorem test_wellFormed_links :
    ([.linkUp 0 0 4, .linkUp 0 6 4, .linkUp 0 5 3, .atsInvalidate 0 (2 ^ 20) 0 1, .atsInvalidate 0 5 0 0, .audBufferReadDone 1 16 [], .tempSample (Vector.replicate 8 0) 1024,
      .selftestSlice 0x1F false, .selftestPassLate 0x3B] : List Instr).all (!·.wellFormed) ∧ (Instr.linkUp 0 5 16).wellFormed := by decide +kernel

/-! ### The ledger -/

/-- The GFX account of OZ8C16 has 8,000 credits: a take of all of them is granted, one more is refused. -/
theorem witness_TakeGrantsWithinCapAndReserve :
    (openLedger.take .gfx (plyHolder 1) 8000).isSome = true ∧ (openLedger.take .gfx (plyHolder 1) 8001).isNone = true := by decide +kernel
/-- A guarantee of 1,000, nothing held, 1,000 free. -/
theorem witness_GuaranteedTakeIsGranted :
    let a : Account := { openLedger.acct .gfx with guar := put (Vector.replicate holders 0) (plyHolder 1) 1000 }
    at' a.hold (plyHolder 1) + 1000 ≤ at' a.guar (plyHolder 1) ∧ a.owedSum ≤ a.free ∧ at' a.hold (plyHolder 1) + 1000 ≤ at' a.cap (plyHolder 1) := by decide +kernel
/-- A frozen snapshot and one that is not. -/
theorem witness_EpochBoundaryLedger : openLedger.held = false ∧ (openLedger.noteBreach 3 1 true).held = true := by decide +kernel

/-! ### Worked examples of the manual -/

/-- R11: ELY_ID of OZ6W08 reads 0xB0A6_420A. -/
theorem test_elyId : (State.reset.onDev fun d => { d with variant := 10 }).dev.elyId = 0xB0A6420A := by decide +kernel
/-- R162: the 3840 × 2160 ARGB8888 layer at 60 Hz costs 44 CMP, with OZC 45. -/
def timing594 : Timing :=
  { ctl := 0x80000000, htim0 := 0x00B00F00, htim1 := 0x01280058, vtim0 := 0x00080870, vtim1 := 0x0048000A, pll0 := 0x0500003B, pll1 := 0x00666666, out := 0x08000000, bobbin := 0 }
@[inherit_doc timing594] def layer4k (ozc : Nat) : Blk :=
  List.replicate 1 1 ++ [BitVec.ofNat 8 ozc] ++ List.replicate 30 0 ++ bytesOf 4 15360 ++ List.replicate 28 0 ++
    (bytesOf 2 0 ++ bytesOf 2 0 ++ bytesOf 2 3840 ++ bytesOf 2 2160 ++ bytesOf 2 0 ++ bytesOf 2 0 ++ bytesOf 2 3840 ++ bytesOf 2 2160) ++ List.replicate 48 0
theorem test_layerCmp : layerCmp timing594 (layer4k 0) = 44 ∧ layerCmp timing594 (layer4k 1) = 45 := by decide +kernel
theorem test_timing : timing594.ht = 4400 ∧ timing594.vt = 2250 ∧ timing594.fieldsOk = true ∧ timing594.pllOk = true ∧ timing594.derivedOk = true := by decide +kernel
/-- R151: 12 bpc on HBR2 × 4 lanes runs at 8 bpc; on UHBR10 × 4 lanes at 12 bpc. -/
theorem test_fitOutput : (fitOutput timing594 [{ rate := 2, lanes := 4 }] false).map (·.bpc) = some 0 ∧ (fitOutput timing594 [{ rate := 4, lanes := 4 }] false).map (·.bpc) = some 2 := by
  decide +kernel
/-- R166: limited-range BT.709 white and black of NV12. -/
theorem test_yuvToRgb :
    let b : Blk := [0x10, 0, 0] ++ List.replicate 125 0
    yuvToRgb b (expand12 8 235) (expand12 8 128) (expand12 8 128) = { r := 4095, g := 4095, b := 4095, a := 4095 } ∧
      yuvToRgb b (expand12 8 16) (expand12 8 128) (expand12 8 128) = { r := 0, g := 0, b := 0, a := 4095 } := by decide +kernel
/-- R171, R173: the example block's header entry and slot bytes, and its decoding. -/
def ozcBlock : List Byte := (List.range 64).flatMap fun i => [16, BitVec.ofNat 8 (100 + i % 8 % 4), BitVec.ofNat 8 (40 + i / 8), 255]
theorem test_ozcEncode : (ozcShape 1 0).encode ozcBlock = (0x8800, [0x10, 0x40, 0x26] ++ List.replicate 16 0xE4 ++ [0x28, 0x03, 0, 0, 0x90] ++
    ((ozcShape 1 0).encode ozcBlock).2.extract 24 44 ++ [0xFF, 0x0F] ++ List.replicate 18 0) := by decide +kernel
theorem test_ozcDecode : (ozcShape 1 0).decode 0x8800 ((ozcShape 1 0).encode ozcBlock).2 63 = [16, 103, 47, 255] := by decide +kernel
/-- R178: the first destination pixels of the 1920 to 3840 scaling. -/
theorem test_scalePos : ((List.range 4).map fun xd => scalePos 1920 3840 0 xd) = [(-1, 48), (0, 16), (0, 48), (1, 16)] := by decide +kernel
/-- R188-R190: the blend example, and its conversion to 8 bits. -/
theorem test_blend :
    (blendOver { r := 1000, g := 0, b := 0, a := 4095 } (premultiply 0 3000 { r := 2056, g := 0, b := 0, a := 2056 })).r = 2138 ∧
      convertOut 8 false 0 0 0 2138 = 133 ∧ convertOut 8 true 0 0 0 2138 = 133 ∧ convertOut 8 true 0 3 0 2138 = 134 := by decide +kernel
/-- R200, R204: the TAP0 example of width 8; R447: one CRC continued across two plies. -/
theorem test_checkValue :
    let sig : CheckParams := { width := 8, poly := 7, init := 0, xorout := 0, refin := false, refout := false }
    let crc : CheckParams := { width := 32, poly := 0x04C11DB7, init := 0xFFFFFFFF, xorout := 0xFFFFFFFF, refin := true, refout := true }
    sig.value [0xFF, 0x0F, 0, 0, 8, 8, 0, 0, 0, 0, 0, 0] = 0x90 ∧ crc.feedAll 0xFFFFFFFF [0x31, 0x32, 0x33, 0x34] = 0x3AF83826 ∧
      crc.feedAll 0x3AF83826 [0x35, 0x36, 0x37, 0x38, 0x39] = 0x9B63D02C ∧ crc.final 0x9B63D02C = 0xCBF43926 := by decide +kernel
/-- R239: bytes of a wave of 40 and of 56 vector registers with 40 scalar registers, and the waves that a partition holds. -/
theorem test_waveBytes :
    ({ Stage.zero with vregs := 40, sregs := 40 } : Stage).waveBytes = 5568 ∧ ({ Stage.zero with vregs := 56, sregs := 40 } : Stage).waveBytes = 7616 ∧
      Context.empty.room 0 { Stage.zero with vregs := 40, sregs := 40 } 11 = true ∧ Context.empty.room 0 { Stage.zero with vregs := 40, sregs := 40 } 12 = false := by decide +kernel
/-- R218: the spill area of the 1920 × 720 pass is 604 units. -/
theorem test_spillUnits :
    let colour : Target := { Target.zero with enable := true, format := 1 }
    let p : Pass := { passOne with width := 1920, height := 720, targets := put (put (Vector.replicate 5 Target.zero) 0 colour) 4 { colour with format := 0x40 } }
    p.tileCount = 1380 ∧ p.imageBytes = 28672 ∧ ceilDiv (p.tileCount * p.imageBytes) 65536 = 604 := by decide +kernel
/-- The FMA.F32 example of the instruction encoding: v4 := v1 × s10 + 1.0, guarded by p2. -/
theorem test_fmaWord :
    (issued (computing 0x08E80400C2B80000) 0 0 0 0x23).map (fun (i, _) => (i.f 47 40, i.f 39 31, i.f 30 22, i.f 21 13, i.vecOk flt3)) = some (4, 0x001, 0x10A, 0x1C0, true) := by
  decide +kernel

/-- Reset values that the register tables state: ELY_SEC_WM, HD_TOL, HD_OUT, PWR_STATUS, PWR_INR, HAP_RESV, CHK_CTL, TCH_FAULT. -/
theorem test_resetRegisters :
    ([(0x10008, 0x20), (0x12038, 0xFFFFF), (0x1201C, 0x108100C0), (0x1B040, 0x49000000), (0x1B048, 0x100000), (0x1A120, 0x190), (0x1C000, 0x60000020),
      (0x19080, 0xFF00)].all fun x : Nat × Word => State.reset.barRead 0 false x.1 == x.2) = true := by decide +kernel

/-! ### Packets and jobs -/

/-- The job of `shading` with nothing in flight and a command buffer of these dwords at device address 0, whose units are in already, changed by `f`. -/
def reading (f : Job → Job) (words : List Nat) : State :=
  let s := shading (.compute 0) none [] [] 0 0
  let j : Job := { order := 0, ply := 1, ring := 0, seq := 0, compute := false, want := 1, deadline := 0, wcet := 0, armed := 0, started := some 0,
                   bufs := [{ addr := 0, len := 4 * words.length, pos := 0, read := ceilTo (4 * words.length) 64 }], pipe := Pipe.zero, save := some (65536, 1), pass := none, dispatches := [], saved := [],
                   nextWave := 0, nextGroup := 0, missed := false, ended := none, code := Dram.blank, tex := Dram.blank }
  { s with dram := memory 0 (words.flatMap (bytesOf 4)),
           dev := { s.dev with gfx := { s.dev.gfx with jobs := [f j], clusters := put s.dev.gfx.clusters 0 { Cluster.idle with job := some 0 } } } }
/-- A packet's header and payload. -/
def pkt (op : Nat) (d : List Nat) : List Nat := (op * 2 ^ 24 + d.length) :: d
/-- The job, ply 1's, reads this packet next, and it passes a test. -/
def reads (s : State) (op : Nat) (d : List Nat) (ok : Job → Bool) : Bool :=
  holds (nextPacket s 0) fun x => x.2.2.1 == op && x.2.2.2 == d && ok x.2.1 && x.2.1.ply == 1

/-- A packet whose units of the buffer must be transferred first: MEM for them is there. -/
theorem test_packetFetch :
    (reads (reading (fun j => { j with bufs := [{ addr := 0, len := 8, pos := 0, read := 0 }] }) (pkt 0 [7])) 0 [7] fun _ => true) = true := by decide +kernel
/-- NOP, CALL, END in a buffer and at its end, SAVE_AREA. -/
theorem witness_BufferPacketResults :
    reads (reading id (pkt 0 [7])) 0 [7] (fun _ => true) ∧ reads (reading id (pkt 1 [64, 0, 4])) 1 [64, 0, 4] (fun j => j.bufs.length == 1) ∧
      reads (reading id (pkt 2 [])) 2 [] (fun j => j.pass.isNone) ∧
      holds ((reading (fun j => { j with bufs := [{ addr := 0, len := 4, pos := 4, read := 64 }] }) [0]).dev.job 0)
        (fun j => j.ended.isNone && j.pass.isNone && (j.bufs.map fun b => decide (b.len ≤ b.pos ∧ ceilTo b.pos 64 ≤ b.read)) == [true]) ∧
      reads (reading (fun j => { j with save := none }) (pkt 3 [65536, 0, 10])) 3 [65536, 0, 10] (fun j => j.save.isNone && decide ((if j.compute then 6 else 10) * j.want ≤ 10)) := by
  decide +kernel
/-- Each with fields in range, at the ends of some ranges. -/
theorem witness_StatePacketResults :
    ([(0x10, [2, 256, 0, 0x007F0100, 131072, 0x00000401 + 2 ^ 20]), (0x11, [0, 64, 0]), (0x12, [1 + 127 * 256, 5]), (0x13, [4 + 8 + 0x4000, 4096, 0, 262144, 0, 0, 0, 255]),
      (0x14, [0, 0, 0, 0, 0, 0, 0, 0]), (0x15, [0, 0, 0, 0])] : List (Nat × List Nat)).all (fun x => reads (reading id (pkt x.1 x.2)) x.1 x.2 fun _ => true) ∧
      fld 0x007F0100 8 0 = 256 ∧ fld 0x007F0100 22 16 = 127 ∧ fld (0x00000401 + 2 ^ 20) 9 0 * fld (0x00000401 + 2 ^ 20) 19 10 * fld (0x00000401 + 2 ^ 20) 29 20 = 1 ∧
      blendOk 0 = true := by decide +kernel
/-- A pass of one tile with a spill area of one unit; one with its final render started and every tile handled. -/
theorem witness_PassPacketResults :
    reads (reading id (pkt 0x60 [32 + 32 * 65536, 0, 65536, 0, 1])) 0x60 [32 + 32 * 65536, 0, 65536, 0, 1]
        (fun j => let img := newPass j (32 + 32 * 65536) 0 65536 0 1; decide (ceilDiv (img.tileCount * img.imageBytes) 65536 ≤ 1)) ∧
      reads (reading (fun j => { j with pass := some { passOne with render := some true } }) (pkt 0x61 [])) 0x61 []
        (fun j => holds j.pass fun pa => pa.render.isSome &&
          let s := (reading (fun j => { j with pass := some { passOne with render := some true } }) (pkt 0x61 [])).pump 0
          holds (s.dev.passOf 0) fun pb => s.renderDone 0 pb) := by
  decide +kernel
/-- A stage that may hold one wave, as a shader and as a workgroup of one wave. -/
def someStages : Pipe := { Pipe.zero with stages := Vector.replicate 3 { Stage.zero with vregs := 8, sregs := 16, wx := 32, wy := 1, wz := 1 } }
/-- A draw before it is binned, with one whose record is in memory; and one that is shaded and has its pages. -/
theorem witness_DrawPacketResults :
    reads (reading (fun j => { j with pass := some { passOne with draws := [] }, pipe := someStages }) (pkt 0x20 [5, 3, 1, 0, 0])) 0x20 [5, 3, 1, 0, 0]
        (fun j => (holds j.pass fun pa => !pa.binning) && j.save.isSome && (List.range 2).all fun i => decide (0 < (at' j.pipe.stages (Fin.ofNat 3 i)).waveLimit)) ∧
      reads (reading (fun j => { j with pass := some passOne, pipe := someStages }) (pkt 0x22 [5, 0, 0, 0, 0])) 0x22 [5, 0, 0, 0, 0]
        (fun j => match (reading id []).readArgs j.ply 0 4 with | .ok (_, v) => v.length == 4 | .error _ => false) ∧
      (let pa : Pass := { passOne with binning := true, draws := passOne.draws.map fun d => { d with nextInst := 1 }, owe := some [] }
       let s := reading (fun j => { j with pass := some pa }) (pkt 0x21 [5, 3, 1, 0, 0, 0, 0, 0])
       reads s 0x21 [5, 3, 1, 0, 0, 0, 0, 0] fun _ => (holds pa.current fun x => x.shaded) && pa.render.isNone && (s.binPages 0 1).2) := by
  decide +kernel
/-- One workgroup of one wave, in the packet and in a record. -/
theorem witness_DispatchPacketResults :
    reads (reading (fun j => { j with pipe := someStages }) (pkt 0x30 [1, 1, 65535])) 0x30 [1, 1, 65535]
        (fun j => j.save.isSome && decide (ceilDiv (at' j.pipe.stages 2).waves 4 ≤ (at' j.pipe.stages 2).waveLimit)) ∧
      reads (reading (fun j => { j with pipe := someStages }) (pkt 0x31 [12, 0] ++ [1, 0, 1])) 0x31 [12, 0]
        (fun j => match (reading id (pkt 0x31 [12, 0] ++ [1, 0, 1])).readArgs j.ply 12 3 with | .ok (_, v) => v == [1, 0, 1] | .error _ => false) := by decide +kernel
theorem witness_WaitPacketResults :
    reads (reading id (pkt 0x40 [7])) 0x40 [7] (fun j => (reading id (pkt 0x40 [7])).jobQuiet j) ∧
      reads (reading id (pkt 0x50 [4095, 1, 0])) 0x50 [4095, 1, 0] (fun j => (reading id (pkt 0x50 [4095, 1, 0])).jobQuiet j) ∧
      reads (reading id (pkt 0x51 [65544, 0])) 0x51 [65544, 0] (fun j => (reading id (pkt 0x51 [65544, 0])).jobQuiet j &&
        ((reading id (pkt 0x51 [65544, 0])).plyWrite j.ply .raster 65544 (bytesOf 8 1000000)).isSome &&
        ((reading id (pkt 0x51 [65544, 0])).takeMem (plyHolder j.ply) (writeCost 65544 8) [(65544, 8)]).isSome) := by decide +kernel

/-- A submission at the head of a ring, class B (nothing placed) and class A with a reservation (placed at once). -/
def submitting (op : Nat) (classA : Bool) : State :=
  let bytes := desc [(0, 1, op), (40, 4, 64), (44, 1, 1)]
  let s := block classA (ply1 (if classA then .a else .b) (ring0 [flight .parsed bytes]))
  if classA then s.onSkein fun k => k.setAcct .gfx { k.acct .gfx with guar := put (k.acct .gfx).guar (plyHolder 1) 1000 } else s
theorem witness_SubmissionResults :
    ([0x30, 0x31].all fun op => holds ((submitting op false).ready 1 0 op) (fun f => ((submitting op false).placeReserved (f.toJob 1 0 1000000 Dram.blank) []).isNone)) = true ∧
      holds ((submitting 0x30 true).ready 1 0 0x30) (fun f =>
        let j := f.toJob 1 0 (submitting 0x30 true).dev.devtime (submitting 0x30 true).dram
        ((((submitting 0x30 true).dispatch 1 0 f.order 0).onDev (·.updGfx fun g => { g with jobs := g.jobs ++ [j] })).placeReserved j []).isSome) = true := by decide +kernel
/-- A job that wants a cluster and is offered it; a class A job whose start is due, with clusters to take and with none; a cluster that saves, with and
without a save area. -/
def waiting (classA saving : Bool) (clusters : Vector Cluster 16 → Vector Cluster 16) (save : Option (Nat × Nat)) : State :=
  let s := reading (fun j => { j with want := 2, save := save }) [0]
  let y := ply1 (if classA then .a else .b) (ring0 [])
  let s : State := { s with dev := { s.dev with plies := put s.dev.plies 1 y, gfx := { s.dev.gfx with
    clusters := clusters (put s.dev.gfx.clusters 0 { Cluster.idle with job := some 0, saving := saving }) } } }
  if classA then s.onSkein fun k => k.setAcct .gfx { k.acct .gfx with guar := put (k.acct .gfx).guar (plyHolder 1) 1000 } else s
theorem witness_SchedulerResults_offer :
    (let s := waiting false false id none
     s.dev.clusterOn 1 && (s.cluster 1).job.isNone && holds s.offerOrder.head? fun x => (offered s 1 x).isSome) = true := by decide +kernel
theorem witness_SchedulerResults_preempt :
    (let s := waiting true false id none
     holds (s.dev.jobBySeq 1 0 0) fun j => s.tier1 j && decide (j.latest ≤ s.dev.devtime + 15000) && (s.placeReserved j []).isSome) = true ∧
      (let s := waiting true false (fun v => Vector.ofFn fun c : Fin 16 => if c = 0 then at' v 0 else { Cluster.idle with job := some 9 }) none
       holds (s.dev.jobBySeq 1 0 0) fun j => s.tier1 j && decide (j.latest ≤ s.dev.devtime + 15000) && (s.placeReserved j []).isNone) = true := by decide +kernel
/-- A cluster that saves a wave, and one with nothing on it; a job with a save area and one without; the save buffer held back or not. -/
def savingWave (classA : Bool) (save : Option (Nat × Nat)) : State :=
  let w := (at' (computing 0).dev.gfx.clusters 0).ctx
  (waiting classA true id save).updCluster 0 fun k => { k with ctx := w }
theorem witness_SchedulerResults_save :
    (let s := savingWave false (some (65536, 1))
     (s.cluster 0).saving && !(s.cluster 0).ctx.isEmpty && !s.saveReserved && holds (s.dev.job 0) fun j => holds j.save fun area =>
       let units := ceilDiv ((s.cluster 0).ctx.saveBytes j) 64
       holds (s.takeMem (plyHolder j.ply) units [(area.1, 64 * units)]) fun t => (t.saveTo j.ply area).isSome) = true ∧
      (let s := savingWave true (some (65536, 1)); s.saveReserved && decide (s.dev.gfx.saves.length < 4) && !(s.cluster 0).ctx.isEmpty) = true ∧
      (let s := waiting false true id none; (s.cluster 0).saving && holds (s.dev.job 0) fun j => j.save.isNone) = true := by decide +kernel
/-- A job past its end, one past its deadline (its miss raised or not) and one before it. -/
theorem witness_JobEndResults :
    (let s := reading (fun j => { j with bufs := [] }) [0]; holds (s.dev.jobBySeq 1 0 0) fun j => j.bufs.isEmpty && j.pass.isNone && s.jobQuiet j) = true ∧
      ([true, false].all fun m => let s := reading (fun j => { j with deadline := 1000000, missed := m }) [0]
        holds (s.dev.jobBySeq 1 0 0) fun j => j.deadline != 0 && decide (j.deadline ≤ s.dev.devtime) && j.missed == m) = true ∧
      (let s := reading (fun j => { j with deadline := 1000001 }) [0]; holds (s.dev.jobBySeq 1 0 0) fun j => decide (s.dev.devtime < j.deadline)) = true := by decide +kernel

/-! ### Rings and descriptors -/

/-- Ply 1 of a class with its ring 0 changed. -/
def ringed (cls : PlyClass) (f : SubRing → SubRing) (g : Ply → Ply) : State := block (cls == .a) (g (ply1 cls (f (ring0 []))))
/-- A host read that is outstanding for ring 0. -/
def awaiting (f : SubRing → SubRing) (g : Ply → Ply) (w : ReadFor) : State :=
  let s := ringed .b f g
  { s with dev := { s.dev with reads := [{ port := 0, ply := some 1, what := w, addr := 0x30000, len := 64 }] } }

/-- A ring that is not polled, one that is, and an enabled completion ring. -/
theorem witness_DoorbellResults :
    (world.dev.alive && world.dev.pageOpen 0 1 && (world.ply 1).cq.enable && world.intake 1 && (world.ring 1 0).runs && !(world.ring 1 0).poll &&
      ((ringed .a (fun g => { g with poll := true, log2Depth := 3 }) id).ring 1 0).poll) = true := by decide +kernel
/-- Ring 0 enabled, ring 1 not and its set-up out of order, or in order; the completion ring likewise. -/
theorem witness_RingSetupResults :
    let ctl : Word := 0x3000
    let near := (ringed .b id fun y => { y with rings := put y.rings 1 { at' y.rings 1 with base := 0x40000, log2Depth := 3 } })
    world.dev.pageOpen 0 1 = true ∧ (world.ring 1 0).enable = true ∧ (world.ring 1 1).enable = false ∧ fld ctl.toNat 15 12 = 3 ∧
      (near.ply 1).ringOk 1 (near.port 0).mrrs = true ∧ (world.ply 1).ringOk 1 (world.port 0).mrrs = false ∧ (world.ply 1).cq.enable = true ∧ (world.ply 1).cq.setupOk = true ∧
      ((ringed .b id fun y => { y with cq := { y.cq with enable := false } }).ply 1).cq.enable = false ∧
      ({ (world.ply 1).cq with log2Depth := 5 } : CplRing).setupOk = false := by decide +kernel
theorem witness_FenceRegisterResults : world.dev.alive = true ∧ world.dev.pageOpen 0 1 = true ∧ world.dev.pageOpen 1 1 = false := by decide +kernel
/-- A value below the fence's and one above it. -/
theorem witness_FenceSignalTakesTheLarger :
    let y := (world.ply 1).signal 4095 5
    y.fence 4095 = 5 ∧ (y.signal 4095 4).fence 4095 = 5 ∧ (y.signal 4095 6).fence 4095 = 6 ∧ (y.signal 4094 6).fence 4095 = 5 ∧
      ([1, 2, 0x20].all fun op => let s := withDesc (desc [(0, 1, op)])
        holds (s.ring 1 0).head fun f => s.intake 1 && f.phase == .parsed && f.opcode == op && (s.ply 1).reached f && (s.ring 1 0).barrierMet f) = true := by
  decide +kernel
/-- A PROD read of a pass and one before sleep, a slot read of two slots, a stalled ring. -/
theorem witness_RingReadResults :
    let reading := fun r => awaiting (fun g => { g with read := r }) id (.record 1 0)
    let slots := awaiting (fun g => { g with read := .slots 2, prod := 2 }) id (.slots 1 0)
    let takes := fun s : State => s.dev.alive && s.intake 1 && (s.ring 1 0).enable && !(s.ring 1 0).error
    ([RingRead.record, .confirm].all fun r => (reading r).dev.readOut (.record 1 0) && takes ((reading r).endReads (.record 1 0)) &&
        (((reading r).endReads (.record 1 0)).ring 1 0).read == r) = true ∧
      (slots.dev.readOut (.slots 1 0) && takes (slots.endReads (.slots 1 0)) && ((slots.endReads (.slots 1 0)).ring 1 0).read == .slots 2) = true ∧
      takes (ringed .b (fun g => { g with read := .stalled }) id) = true := by
  decide +kernel
theorem witness_AcceptanceTakesOneCredit : (world.accept 1 0 (desc [(0, 1, 1)])).isSome = true := by
  decide +kernel
/-- A class A ply with a polled ring, its standing tags free; the poll outstanding. -/
def polling (out : Bool) : State :=
  let s := ringed .a (fun g => { g with poll := true, log2Depth := 3 }) fun y => if out then { y with pollTags := 2, pollOut := some (Vector.replicate 4 (some 0)) } else y
  s.onSkein fun k => k.setAcct (.htag 0) { k.acct (.htag 0) with cap := put (k.acct (.htag 0)).cap (standHolder 1) 4 }
theorem witness_PollResults :
    (let s := polling false
     s.intake 1 && (s.ply 1).cls == .a && !(s.ply 1).polled.isEmpty && (s.port (s.ply 1).port).trafficOk && (s.ply 1).pollOut.isNone && (s.ply 1).pollTags == 0 &&
       (s.skein.take (.htag 0) (standHolder 1) (1 + (s.ply 1).polled.length)).isSome) = true ∧
      (decide (0 < ((polling true).ply 1).pollTags) && ((polling true).ply 1).pollOut.isSome) = true := by decide +kernel
theorem witness_CompletionRingReadResults :
    let s := awaiting id (fun y => { y with cq := { y.cq with reread := .first } }) (.cons 1)
    (s.dev.alive && s.dev.readOut (.cons 1) && ((s.endReads (.cons 1)).ply 1).cq.enable && ((s.endReads (.cons 1)).ply 1).cq.reread != .none) = true := by
  decide +kernel

/-- An accepted head of ring 0 with these bytes. -/
def accepted (bytes : List Byte) : State := block false (ply1 .b (ring0 [{ flight .accepted bytes with reserved := false }]))
/-- The state and the descriptor numbered 0 of ring 0 pass a test. -/
def descOk (s : State) (test : State → InFlight → Bool) : Bool := s.dev.alive && holds (s.descBySeq 1 0 0) (test s)
/-- So do the state and the head of ring 0. -/
def headOk (s : State) (test : State → InFlight → Bool) : Bool := s.dev.alive && holds (s.ring 1 0).head (test s)

/-- Descriptor `f` stands ready at the head of ring 0. -/
def atHead (s : State) (op : Nat) (f : InFlight) : Bool :=
  s.dev.alive && (s.ply 1).state == .active && f.phase == .parsed && f.opcode == op && (!f.waitEn || decide (f.waitValue ≤ (s.ply 1).fence f.waitFence)) &&
    (s.ring 1 0).barrierMet f

/-- Each kind: a LAYER that its COMMIT's acceptance had checked, a COMMIT of a head that the die lacks, an opcode that no row has, a NOP, a TCH_CONFIG
whose block is not mapped and a HAP_LOAD whose block is, refused by its check. -/
theorem witness_ParseResults :
    let hap := fun n => desc [(0, 1, 0x51), (32, 1, 0), (40, 8, 0), (48, 4, n)]
    headOk (block false (ply1 .b (ring0 [{ flight .accepted (desc [(0, 1, 0x21)]) with seen := true }])))
        (fun s f => s.intake 1 && f.phase == .accepted && f.opcode == 0x21 && f.seen) = true ∧
      ([0xFF, 0x01].all fun op => headOk (accepted (desc [(0, 1, op)])) fun s f => s.intake 1 && f.phase == .accepted && f.opcode == op &&
        (s.dev.parseCheck 1 f == stOk) == (op == 1)) = true ∧
      headOk (accepted (desc [(0, 1, 0x20), (32, 1, 9)])) (fun s f => f.opcode == 0x20 && s.dev.parseCheck 1 f != stOk) = true ∧
      headOk (accepted (desc [(0, 1, 0x51), (40, 8, 0x100000), (48, 4, 18)])) (fun s f => s.dev.parseCheck 1 f == stOk && !s.dev.mapped 1 0x100000 18 false) = true ∧
      headOk (accepted (hap 18)) (fun s f => s.dev.parseCheck 1 f == stOk && s.dev.mapped 1 0 18 false &&
        holds (s.takeMem (plyHolder 1) (unitsOf 0 18) [(0, 18)]) fun t => holds (t.plyRead 1 0 18) fun bs => t.dev.blockCheck 1 f bs != stOk) = true := by
  decide +kernel
/-- A finished descriptor with an entry and one that finds none, a finished FENCE_SIGNAL with its signal enabled, a finished descriptor of a ply that
drains. -/
theorem witness_RetirementResults :
    let done := fun b st => block false { ply1 .b (ring0 [flight .finished b]) with state := st }
    let full := block false { ply1 .b (ring0 [{ flight .finished (desc [(0, 1, 1)]) with reserved := false }]) with
      cq := { (ply1 .b (ring0 [])).cq with reserved := 64 } }
    descOk (done (desc [(0, 1, 1)]) .active) (fun s f => s.descBySeq 1 0 0 == some f && f.phase == .finished && f.reserved && f.opcode != 0x03) = true ∧
      descOk full (fun s f => f.phase == .finished && (s.ply 1).cq.enable && (s.ply 1).writesHost false && !f.reserved && (s.ply 1).cq.freeEntries == 0) = true ∧
      descOk (done (desc [(0, 1, 3), (16, 8, 9), (26, 2, 0x8005)]) .active) (fun s f => s.descBySeq 1 0 0 == some f && f.opcode == 0x03 && f.signalEn && f.reserved) = true ∧
      descOk (done (desc [(0, 1, 1)]) .draining) (fun s f => (s.ply 1).state != .active && f.opcode != 0x71) = true := by decide +kernel
theorem witness_FenceDescriptorResults :
    ([0x01, 0x02, 0x03].all fun op => headOk (withDesc (desc [(0, 1, op)])) fun s f => atHead s op f) = true ∧
      headOk (withDesc (desc [(0, 1, 2), (8, 8, 9), (24, 2, 0x8005), (32, 4, 1)])) (fun s f => f.phase == .parsed && f.opcode == 0x02 && le32 f.bytes 32 != 0 && f.waitEn &&
        decide ((s.ply 1).fence f.waitFence < f.waitValue)) = true := by decide +kernel
/-- A descriptor of ring 0 whose host data is out: `n` bytes of it. -/
def fetching (bytes : List Byte) (n : Nat) : State :=
  let s := block false (ply1 .b (ring0 [{ flight .dispatched bytes with reading := n }]))
  { s with dev := { s.dev with reads := [{ port := 0, ply := some 1, what := .data 1 0, addr := 0, len := n }] } }
/-- A COPY within the device, one from the host before and after its read, one to it, and a FILL. -/
theorem witness_TransferResults :
    let args := fun side => desc [(0, 1, 0x10), (32, 8, 0), (40, 8, 128), (48, 4, 64), (52, 1, side)]
    let takes := fun (s : State) (n : Nat) (rs : List (Nat × Nat)) (test : State → Bool) => holds ((s.dispatch 1 0 0 0).takeMem (plyHolder 1) n rs) test
    (headOk (withDesc (args 0)) fun s f => s.running 1 0 0x10 0 == some f && !f.copyArgs.srcHost && takes s (unitsOf 0 64 + writeCost 128 64) [(0, 64), (128, 64)] fun t =>
        holds (t.plyRead 1 0 64) fun bs => (t.plyWrite 1 .copy 128 bs).isSome) = true ∧
      (headOk (withDesc (args 1)) fun s f => s.running 1 0 0x10 0 == some f && f.copyArgs.srcHost && f.reading == 0) = true ∧
      (descOk (fetching (args 1) 64) fun s f => s.running 1 0 0x10 0 == some f && f.copyArgs.srcHost && f.reading == 64 && (s.dispatch 1 0 0 0).dev.readOut (.data 1 0) &&
        takes s (writeCost 128 64) [(128, 64)] fun t => (t.plyWrite 1 .copy 128 (List.replicate 64 0)).isSome) = true ∧
      (headOk (withDesc (args 2)) fun s f => s.running 1 0 0x10 0 == some f && f.copyArgs.dstHost && takes s (unitsOf 0 64) [(0, 64)] fun t => (t.plyRead 1 0 64).isSome) = true ∧
      (headOk (withDesc (desc [(0, 1, 0x11), (32, 8, 128), (40, 4, 64), (44, 4, 7)])) fun s f => s.running 1 0 0x11 0 == some f && !f.copyArgs.dstHost) = true := by decide +kernel
/-- A CHECK that runs in its unit, with data from device memory or from the host, whose read is still to be issued or out. -/
def checking (side n : Nat) : State :=
  let s := fetching (desc [(0, 1, 0x12), (32, 8, 0), (40, 4, 9), (45, 1, 2 * side)]) n
  let j : CheckJob := { ply := 1, ring := 0, order := 0, params := s.dev.chkParams 0, reg := 0, stale := false }
  s.updCheck 0 fun c => { c with job := some j }
theorem witness_CheckResults :
    let fed := fun (s : State) (f : InFlight) => s.running 1 0 0x12 0 == some f && f.phase == .dispatched && holds (s.dev.check f.chkUnit).job (·.order == f.order)
    (headOk (withDesc (desc [(0, 1, 0x12), (40, 4, 9)])) fun s f => s.running 1 0 0x12 0 == some f && f.phase != .dispatched) = true ∧
      (descOk (checking 0 0) fun s f => fed s f && !f.chkHost && holds (s.takeMem (plyHolder 1) (unitsOf 0 9) [(0, 9)]) fun t => (t.plyRead 1 0 9).isSome) = true ∧
      (descOk (checking 1 0) fun s f => fed s f && f.chkHost && f.reading == 0) = true ∧
      (descOk (checking 1 9) fun s f => fed s f && f.chkHost && f.reading == 9 && s.dev.readOut (.data 1 0)) = true := by
  decide +kernel
theorem witness_CopyStopResults :
    ([0x12, 0x10, 0x11].all fun op => descOk (block false { ply1 .b (ring0 [flight .dispatched (desc [(0, 1, op)])]) with state := .draining })
      fun s f => s.descBySeq 1 0 0 == some f && !s.intake 1 && f.phase == .dispatched && f.opcode == op) = true := by decide +kernel
/-- A MAP with no right, one of a granule that is not the ply's, one of a page that is mapped, one of a free page; an UNMAP that waits for an earlier
descriptor, and one that runs. -/
theorem witness_MappingResults :
    let m := fun page granule rights => desc [(0, 1, 0x70), (32, 8, page * 65536), (40, 8, granule * 65536), (48, 4, 1), (52, 1, rights)]
    let own := fun (s : State) g => decide (g * 65536 < s.dev.dramTop) && s.dev.ely.ownerOf g == some 1
    headOk (withDesc (m 4 1024 0)) (fun s f => atHead s 0x70 f && !bit (byteAt f.bytes 52) 0 && !bit (byteAt f.bytes 52) 1) = true ∧
      headOk (withDesc (m 4 2000 3)) (fun s f => atHead s 0x70 f && bit (byteAt f.bytes 52) 0 && !own s 2000 && !s.dev.ely.lentTo 2000 1 true) = true ∧
      headOk (withDesc (m 3 1024 3)) (fun s f => atHead s 0x70 f && own s 1024 && Map.find (s.ply 1).tables 3 != none) = true ∧
      headOk (withDesc (m 4 1024 3)) (fun s f => atHead s 0x70 f && own s 1024 && Map.find (s.ply 1).tables 4 == none) = true ∧
      headOk (withDesc (desc [(0, 1, 0x71), (48, 4, 1)])) (fun s f => atHead s 0x71 f && (s.ply 1).earlierRetired f.order && !s.dev.layersUse 1 0 1) = true ∧
      headOk (block false { ply1 .b (ring0 [{ flight .parsed (desc [(0, 1, 0x71), (48, 4, 1)]) with order := 1 }]) with
          rings := put (ply1 .b (ring0 [{ flight .parsed (desc [(0, 1, 0x71), (48, 4, 1)]) with order := 1 }])).rings 1 (ring0 [flight .accepted (desc [])]) })
        (fun s f => atHead s 0x71 f && !(s.ply 1).earlierRetired f.order) = true := by decide +kernel
/-- A checked LAYER; a COMMIT of a group in order, of age 0 and past its age; one whose group is short. -/
theorem witness_CommitResults :
    let commit := fun count age => desc [(0, 1, 0x20), (32, 1, 0), (33, 1, count), (34, 1, age)]
    headOk (withDesc (desc [(0, 1, 0x21)])) (fun s f => atHead s 0x21 f) = true ∧
      headOk (withDesc (commit 1 0)) (fun s f => atHead s 0x20 f && (s.groupStatus 1 0 f).isSome && (s.ring 1 0).queue.any (fun e => e.order == f.order)) = true ∧
      ([0, 1].all fun age => headOk ({ withDesc (commit 0 age) with dev := ((withDesc (commit 0 age)).updHead 0 fun x => { x with frame := 2 }).dev })
        fun s f => atHead s 0x20 f && (s.groupStatus 1 0 f).isNone && (((s.ring 1 0).groupOf f).all fun l => l.seen) &&
          overAge f.mark f.commitAge (s.head f.commitHead).frame.toNat == (age == 1)) = true := by
  decide +kernel
/-- Ply 1 owns region 1 of head 0: values for this frame, the third after it, the fourth after it and the frame before it; region 0 has another owner. -/
theorem witness_SignatureExpectResults :
    let s := fun n k => (withDesc (desc [(0, 1, 0x22), (40, 8, n), (48, 1, 16 * k)])).onDev fun d => (d.setBoth (sigBase 0 1) 0x410000).updHead 0 fun x => { x with frame := 5 }
    ([5, 8, 9, 4].all fun n => headOk (s n 1) fun s f => atHead s 0x22 f && s.dev.sigOwner f.sigHead f.sigRegion == some 1 && (s.head f.sigHead).frame == 5) = true ∧
      headOk (s 5 0) (fun s f => atHead s 0x22 f && s.dev.sigOwner f.sigHead f.sigRegion != some 1) = true := by decide +kernel

/-! ### Plies: mailbox commands of the manager -/

/-- Elytra runs the command, well formed and from the manager's port, and a test of it passes. -/
def managed (s : State) (code : Nat) (test : State → Journal → Bool) : Bool :=
  s.dev.alive && holds (s.command 1 code) fun j => j.wellFormed && s.dev.isManager j.port && test s j
/-- So does a command that names ply 1, which exists. -/
def managedPly (s : State) (code : Nat) (test : State → Journal → Bool) : Bool :=
  managed s code fun s j => j.ply 0 == some 1 && (s.ply 1).state != .absent && test s j

/-- The block with Elytra's read of command 1's buffer outstanding. -/
def buffered (s : State) : State := { s with dev := { s.dev with reads := [{ port := 0, ply := none, what := .buffer 1, addr := 0, len := 64 }] } }
/-- The command's buffer has been read, or its read is still to start. -/
def bufferIn (s : State) (j : Journal) : Bool := j.begun && s.dev.readBusy (.buffer j.order) && s.dev.readOut (.buffer j.order)

/-- From port 1, and from port 0 with a wrong ARG_LEN. -/
theorem witness_ManagerCommandRefusals :
    ([0x20, 0x21, 0x22, 0x23, 0x24, 0x25, 0x26, 0x28, 0x2A, 0x2B, 0x03, 0x04, 0x08, 0x09, 0x0A, 0x0B, 0x0C, 0x40, 0x51, 0x52, 0x53, 0x61, 0x62, 0x71, 0x73].all fun code =>
      holds ((asking world 1 code [] false).command 1 code) fun j => j.wellFormed && !world.dev.isManager j.port) = true ∧
      (holds ((asking world 0 0x21 [(0, 1, 64), (2, 1, 1)] false).command 1 0x21) fun j => !j.wellFormed) = true := by decide +kernel

/-- PLY_CREATE of ply 2 on port 1 with a GFX guarantee of 500, for either class. -/
def shares2 : List Byte := (List.range 8).flatMap fun k => bytesOf 4 (if k = 1 then 500 else 0) ++ bytesOf 4 (if k = 1 then 1000 else 0)
@[inherit_doc shares2] def creates (classA : Bool) : Bool :=
  managed (buffered (asking (block classA (ply1 .b (ring0 []))) 0 0x20 [(0, 1, 2), (1, 1, 1), (4, 4, 7)] true)) 0x20 fun s j =>
    let u := s.endReads (.buffer 1)
    let shares := (List.range 8).map (shareBlock shares2)
    let kinds := (shares.take 6).zipIdx.filterMap fun x => (shareKind x.2 1).map fun kd => (kd, x.1)
    let k' := kinds.foldl (fun k x => k.enter x.1 2 x.2.1 x.2.2 classA) u.skein
    let s' := { u with skein := k' }.updPly 2 fun _ => { Ply.absent with cls := if classA then .a else .b, state := .active, port := 1, pasid := 7 }
    bufferIn s j && j.ply 0 == some 2 && fin? 4 (j.arg 1 1) == some 1 && j.arg 2 1 == 0 && j.arg 4 4 == 7 && (shares.zipIdx.all fun x => shareArgOk x.2 x.1.1 x.1.2) &&
      (s.dev.entry 2).cls == some (if classA then .a else .b) && (s.dev.entry 2).ports.contains 1 &&
      ((shares.take 6).zipIdx.all fun x => decide (x.1.1 ≤ atD (s.dev.entry 2).guarMax x.2 0) && decide (x.1.2 ≤ atD (s.dev.entry 2).capMax x.2 0)) &&
      (s.ply 2).state == .absent && (s.port 1).pasidEn && !(s.port 1).down && !s.dev.pairInUse 2 1 7 && (kinds.all fun x => k'.fits x.1) &&
      (!classA || (s'.creditCapsOk && s'.dev.countCapsOk))
theorem witness_PlyCreateResult : creates false = true := by decide +kernel
theorem witness_PlyCreateResult_classA : creates true = true := by decide +kernel
/-- The commands with a buffer, before its read starts. -/
theorem witness_BufferCommandsStart :
    ([(0x20, [(0, 1, 2), (1, 1, 1), (4, 4, 7)]), (0x29, [(0, 1, 1), (2, 1, 1)]), (0x28, [(0, 1, 1), (16, 4, 9), (28, 4, 64)])] :
      List (Nat × List (Nat × Nat × Nat))).all (fun x => managed (asking world 0 x.1 x.2 false) x.1 fun _ j => !j.begun) = true := by decide +kernel

/-- Ply 1 in a state. -/
def inState (st : PlyState) (c : Cause) : State := block false { ply1 .b (ring0 []) with state := st, cause := c }
theorem witness_PlyCommandResults :
    managedPly (asking world 0 0x21 [(0, 1, 1), (1, 1, 1), (4, 4, 500), (8, 4, 1000)] false) 0x21 (fun s j => j.arg 1 1 == 1 && j.arg 4 4 == 500 && j.arg 8 4 == 1000 &&
        shareKind 1 (s.ply 1).port == some .gfx && shareArgOk 1 500 1000 && decide (500 ≤ atD (s.dev.entry 1).guarMax 1 0) && decide (1000 ≤ atD (s.dev.entry 1).capMax 1 0) &&
        ((s.onSkein fun q => q.setAcct .gfx ((s.skein.acct .gfx).setPending (plyHolder 1) 500 1000)).skein.fits .gfx)) = true ∧
      ([PlyState.active, .quiesced].all fun st => managedPly (asking (inState st .none) 0 0x22 [(0, 1, 1)] false) 0x22 fun s _ => (s.ply 1).state == st) = true ∧
      ([PlyState.active, .quiesced].all fun st => [Cause.none, .orphan].all fun c => managedPly (asking (inState st c) 0 0x23 [(0, 1, 1)] false) 0x23 fun s _ =>
        (s.ply 1).state == st && (s.ply 1).cause == c) = true ∧
      managedPly (asking world 0 0x26 [(0, 1, 1)] false) 0x26 (fun _ _ => true) = true := by decide +kernel
/-- A draining ply that holds nothing, and one that holds a RING credit. -/
theorem witness_PlyCommandResults_drained :
    let s := inState .draining .manager
    let t := s.onSkein fun k => k.setAcct .ring { k.acct .ring with hold := put (k.acct .ring).hold (plyHolder 1) 1 }
    s.dev.alive = true ∧ (s.ply 1).state = .draining ∧ s.dev.ely.state = .running ∧ s.skein.plyZero 1 = true ∧ t.skein.plyZero 1 = false := by decide +kernel
/-- A reset on the same port and to port 1; a destruction with nothing lent. -/
theorem witness_PlyEndResults :
    let s := inState .quiesced .manager
    managedPly (asking s 0 0x24 [(0, 1, 1)] false) 0x24 (fun s j => (s.ply 1).state == .quiesced && j.arg 1 1 == 0 && (s.ply 1).cause != .orphan) = true ∧
      managedPly (asking s 0 0x24 [(0, 1, 1), (1, 1, 1), (2, 1, 1), (4, 4, 0xFFFFF)] false) 0x24 (fun s j => j.arg 1 1 == 1 && fin? 4 (j.arg 2 1) == some 1 && j.arg 4 4 == 0xFFFFF &&
        (s.dev.entry 1).ports.contains 1 && (s.port 1).pasidEn && !(s.port 1).down && !s.dev.pairInUse 1 1 0xFFFFF && (s.onSkein fun k => (k.enter (.htag 1) 1
          (at' (k.acct (.htag 0)).pguar (plyHolder 1)) (at' (k.acct (.htag 0)).pcap (plyHolder 1)) false).enter (.htag 0) 1 0 0 false).skein.fits (.htag 1)) = true ∧
      managedPly (asking s 0 0x25 [(0, 1, 1)] false) 0x25 (fun s _ => (s.ply 1).state == .quiesced && !(s.dev.ely.lend.any fun x => x.2.owner == 1)) = true := by decide +kernel
/-- A log of one window of one page; swap and stop of a log that is on; a session step; an import with an agreed session. -/
def migrating (role : Nat) (due : Bool) : State :=
  block false { ply1 .b (ring0 []) with state := .quiesced, cause := .manager, log := { DirtyLog.off with on := true },
                                        mig := { Migration.none with role := role, agreed := true, tracking := true, round := 1, stateDue := due } }
theorem witness_MigrationResults :
    (windowAt (bytesOf 8 4096 ++ bytesOf 8 1 ++ bytesOf 16 0) 0).ok = true ∧
      managedPly (buffered (asking world 0 0x29 [(0, 1, 1), (2, 1, 1)] true)) 0x29 (fun s j => j.arg 1 1 == 0 && j.arg 2 1 == 1 && bufferIn s j) = true ∧
      ([1, 2].all fun m => managedPly (asking (migrating 1 true) 0 0x29 [(0, 1, 1), (1, 1, m)] false) 0x29 fun s j => (s.ply 1).log.on && j.arg 1 1 == m) = true ∧
      ([0, 1].all fun role => managedPly (buffered (asking world 0 0x28 [(0, 1, 1), (1, 1, role), (16, 4, 9), (28, 4, 64)] true)) 0x28 fun s j =>
        j.arg 1 1 == role && j.arg 16 4 == 9 && bufferIn s j && decide (64 ≤ j.arg 28 4)) = true ∧
      managedPly (buffered (asking (migrating 2 false) 0 0x2B [(0, 1, 1), (16, 4, 9)] true)) 0x2B (fun s j => (s.ply 1).state == .quiesced && (s.ply 1).mig.agreed && (s.ply 1).mig.role == 2 &&
        (s.ply 1).mig.done == 0 && bufferIn s j) = true ∧
      managedPly (asking ((migrating 2 false).updPly 1 fun y => { y with mig := { y.mig with done := 3 } }) 0 0x2B [(0, 1, 1)] true) 0x2B (fun s j =>
        (s.ply 1).state == .quiesced && (s.ply 1).mig.agreed && (s.ply 1).mig.role == 2 && j.begun && (s.ply 1).mig.done == 2 + 1) = true := by
  decide +kernel
/-- An export of round 1 with no granule left and no room for the state record, one whose buffer takes it, and one that waits for MEM with a granule left. -/
theorem witness_MigrationResults_export :
    ([(47, false), (100000, true)].all fun x => managedPly (asking (migrating 1 true) 0 0x2A [(0, 1, 1), (2, 2, 1), (16, 4, x.1)] false) 0x2A fun s j =>
      let r := (s.startRound 1 (j.arg 2 2)).exportGranules 1 j.port 0 (j.arg 2 2) (j.arg 8 8) (j.arg 16 4 / 65584) 0
      let m := (r.1.ply 1).mig
      (s.ply 1).mig.agreed && (s.ply 1).mig.role == 1 && j.arg 2 2 == (s.ply 1).mig.round && !r.2.2 && m.todo.isEmpty && m.stateDue &&
        decide (r.2.1 * 65584 + 48 + (r.1.plyRecord 1 (m.seq + 1)).body.length ≤ j.arg 16 4) == x.2) = true ∧
      (let s := (migrating 1 true).updPly 1 fun y => { y with mig := { y.mig with todo := [1024] } }
       let s := { s with skein := s.skein.setAcct .mem { s.skein.acct .mem with free := 0 } }
       managedPly (asking s 0 0x2A [(0, 1, 1), (2, 2, 1), (16, 4, 100000)] false) 0x2A fun s j => (s.ply 1).mig.agreed && (s.ply 1).mig.role == 1 &&
         ((s.startRound 1 (j.arg 2 2)).exportGranules 1 j.port 0 (j.arg 2 2) (j.arg 8 8) (j.arg 16 4 / 65584) 0).2.2) = true := by
  decide +kernel

/-! ### Host ports, registers, mailboxes -/

/-- A read that nobody waits for, one of a ring whose last request is out, one with another request to come, and one that waits for its tag. -/
theorem witness_HostReadResults :
    let r : HostRead := { port := 0, ply := some 1, what := .other, addr := 0x30000, len := 64 }
    let x := { r with what := .record 1 0 }
    let s := world.onDev fun d => { d with reads := [r, x, { r with what := .cons 1 }], readWaits := [{ r with what := .cons 1 }] }
    s.dev.alive = true ∧ s.dev.reads[0]? = some r ∧ s.dev.reads[1]? = some x ∧ x.what ≠ .other ∧
      ((s.dev.reads.erase x).any (·.what == x.what) || s.dev.readWaits.any (·.what == x.what)) = false ∧
      (s.dev.readWaits.any (·.what == .cons 1)) = true ∧ s.dev.readWaits[0]? = some { r with what := .cons 1 } ∧ r.ply = some 1 ∧
      0 < ((polling true).ply 1).pollTags := by decide +kernel
/-- A port that is up; one whose link is down and whose lanes allow x4. -/
theorem witness_PortLinkResults :
    let low := world.updPort 1 fun pt => { pt with linkUp := false }
    let held := world.updPort 1 fun pt => { pt with perst := true }
    world.dev.alive = true ∧ world.dev.portPresent 1 = true ∧ (world.port 1).perst = false ∧ (world.port 1).linkUp = true ∧ (world.port 1).down = false ∧
      (held.port 1).perst = true ∧ world.dev.portPresent 3 = false ∧
      at' low.dev.power.islands (hostIsland 1) = .good ∧ (low.port 1).perst = false ∧ (low.port 1).linkUp = false ∧ 4 ≤ strapLanes low.dev.power.strap 1 := by decide +kernel
/-- The manager's port, to which no ply is bound. -/
theorem witness_LinkDownClearsPort :
    let s := block false { ply1 .b (ring0 []) with port := 1 }
    s.dev.manager = some 0 ∧ (s.ply 0).state = .absent ∧ (s.ply 1).port ≠ 0 ∧ ((allFin 64).all fun p => p == 1 || (s.ply p).state == .absent) = true ∧
      (s.dev.reads.filter fun r => r.port == 0) = [] := by decide +kernel
/-- The configuration space before and after the firmware starts; LTR's value new and repeated; ASPM; a wake that is due; an invalidation, pending or done. -/
theorem witness_PortServiceResults :
    let rom := world.onDev fun d => { d with ely := { d.ely with state := .rom } }
    let aspm := world.updPort 0 fun pt => { pt with cfg := Map.ins pt.cfg 0x80 2, ltrLast := 100 }
    let wake := world.onDev fun d => { d with ccn := { d.ccn with wakeDue := true } }
    let ats := world.updPort 0 fun pt => { pt with inval := [{ pasid := 5, first := 0, pages := 1, reads := [], polls := [] }] }
    world.dev.cfgReady 0 = true ∧ rom.dev.cfgReady 0 = false ∧ (world.port 0).reg 0x8 ≠ (world.port 0).ltrLast ∧ (aspm.port 0).reg 0x8 = (aspm.port 0).ltrLast ∧
      world.dev.classAOn 0 = false ∧ (ringed .a id id).dev.classAOn 0 = true ∧ (aspm.port 0).inL1 = false ∧ (aspm.port 0).inD0 = true ∧ (aspm.port 0).aspmL1 = true ∧
      wake.dev.ccn.wakeDue = true ∧ wake.dev.slpclk = true ∧ (world.port 0).linkUp = true ∧ (world.port 0).atsEn = true ∧
      ((ats.port 0).inval.find? fun v => v.reads.isEmpty && v.polls.isEmpty).isSome = true := by decide +kernel
/-- R332's example: t4 = 8,000,001,800, t1 = 8,000,000,000, t2 = 71,000,000,500, d = 200. -/
def ptm : State := (world.onDev fun d => { d with devtime := 8000001800 }).updPort 1 fun pt => { pt with ptmT1 := some 8000000000 }
theorem witness_TimeCorrelationResults :
    let off := world.updPort 1 fun pt => { pt with cfg := Map.ins pt.cfg 0x270 0 }
    ptm.dev.alive = true ∧ (ptm.port 1).linkUp = true ∧ (ptm.port 1).ptmEn = true ∧ (ptm.port 1).ptmT1 = some 8000000000 ∧ (off.port 1).ptmEn = false ∧
      (world.port 1).ptmT1 = none ∧ bit (((world.onDev fun d => d.writePort 1 0x10 0x80000000).port 1).reg 0x10) 31 = true ∧ bit ((world.port 1).reg 0x10) 31 = false := by decide +kernel
theorem test_ptmExample :
    (match exec (.ptmResponse 1 71000000500 200) ptm with | .next t => (t.port 1).ptmHost.toNat == 71000001500 && (t.port 1).ptmDev.toNat == 8000001800 | _ => false) = true := by
  decide +kernel
/-- The audio output registers' range, and an absent port. -/
theorem witness_RegisterAccessResults_ports : 0x10000 ≤ 0x18100 ∧ 0x18100 < 0x18300 ∧ world.dev.portPresent 0 = true ∧ world.dev.portPresent 3 = false := by decide +kernel
/-- Offsets at the ends of each range, from the manager's port and from another. -/
theorem witness_RegisterAccessResults :
    world.dev.alive = true ∧ world.dev.isManager 0 = true ∧ world.dev.isManager 1 = false ∧ world.dev.pageOpen 0 1 = true ∧ world.dev.pageOpen 0 2 = false ∧
      ([(0x1FFC, 1), (0x1000, 1), (0x2000, 2)] : List (Nat × Nat)).all (fun x => x.1 / 4096 == x.2) = true ∧ (64 * 4096 ≤ 0x40000 ∧ 0x40000 % 4 = 0) := by decide +kernel
/-- An inbox with a request while Elytra is in each state; a response that waits, with its interrupt enabled or not. -/
theorem witness_MailboxResults :
    let s := fun (st : ElyState) (rom : Bool) => world.onDev fun d => { d with ely := { d.ely with state := st, romMode := rom, inbox := [0], cmdMap := firmwareMap, entries := firmwareEntries } }
    let r : MbxResponse := { order := 1, cmd := 1, irq := true, tag := 0, status := 0, result := [] }
    let t := world.updPort 0 fun pt => { pt with mbx := { pt.mbx with ready := [r] }, regs := Map.ins pt.regs 0x20400 0x80000000 }
    ([ElyState.halted, .restarting, .running, .rom].all fun st => (s st true).dev.alive && (s st true).dev.ely.state == st && (s st true).dev.ely.inbox == [0]) = true ∧
      Map.find (s .running false).dev.ely.cmdMap 0 = none ∧ Map.find (s .running false).dev.ely.cmdMap 0x20 = some 10 ∧
      Map.get (s .running false).dev.ely.entries 1 10 % 4 = 0 ∧ (t.port 0).mbx.ready = [r] ∧ idxDiff (t.port 0).mbx.rspProd (t.port 0).mbx.rspCons < 8 ∧
      bit (Map.get (t.port 0).regs 0 0x20400).toNat 31 = true ∧ bit (Map.get (world.port 0).regs 0 0x20400).toNat 31 = false := by decide +kernel
/-- A ring time to adopt ahead of DEVTIME, behind it, and none. -/
theorem witness_EpochCommandResults :
    let s := fun x => world.updWhorl fun w => { w with adopt := some x }
    world.dev.alive = true ∧ world.dev.whorl.adopt = none ∧ (s 2000000).dev.whorl.adopt = some 2000000 ∧ 1000000 < 2000000 ∧ (s 500000).dev.whorl.adopt = some 500000 ∧
      500000 ≤ world.dev.devtime := by decide +kernel

/-! ### Elytra -/

/-- SHA-384 of the empty message and of a key (FIPS 180-4; computed outside the model). -/
def emptyDigest : List Byte := beBytes 48 0x38b060a751ac96384cd9327eb1b1e36a21fdb71114be07434c0cc7bf63f6e1da274edebfe76f65fbd51ad2f14898b95b
@[inherit_doc emptyDigest] def keyDigest : List Byte := beBytes 48 0x6d9c01c180971303f69b79e7fc45e77e84b673d1538288a39f2e875943e89b1ddf279d92765b648d8025b7ec40baa71a
/-- A container with four empty sections, signed (by signatures computed outside the model) under a key whose digest is `keyDigest`, the OEM's key to be
provisioned. -/
def signedBytes : List Byte :=
  bytesOf 4 0x494B5350 ++ bytesOf 2 1 ++ bytesOf 2 4 ++ bytesOf 4 1792 ++ bytesOf 8 0 ++ [1] ++ List.replicate 43 0 ++
  (([1, 2, 0x10, 0x11] : List Nat).flatMap fun t => bytesOf 4 t ++ bytesOf 4 1280 ++ bytesOf 8 0 ++ emptyDigest) ++ List.replicate 960 0 ++
  beBytes 48 0x655215376f821adde245e224dc53752b581b436fa2d35bc3337f336ee6a7910e1635b8b8e9a08c579cda81ffa19a171 ++
  beBytes 48 0xa54d08ba945b2be3947c18108e5176f6a28eafb0693a39afb24d649bc59a334a4a6cbcc67489e30d6cf2252471465636 ++
  beBytes 48 0xc299fbb4e0d8dca50ae05dffdc860ab459f3c7019ef15b1b351d73b681acd7b5bed4e781789df021937a1f6db649b3c9 ++
  beBytes 48 0xc299fbb4e0d8dca50ae05dffdc860ab459f3c7019ef15b1b351d73b681acd7b5bed4e781789df021937a1f6db649b3c9 ++
  beBytes 48 0x4109ff0819df8d67e818d893f2aa84ac14a6c53deea56476c35796e7e4755c3d87751c330ea81c56f23f0ee898429c04 ++
  beBytes 48 0x4d5d417d315277342b543d8ba91073d4718097a5fb1aed78701c48ab579f0cc33a18c11985e556464b439d951a0d3a30 ++
  beBytes 48 0x2eec3a40cea8975bef918b54a676f5d6346012a8a51393b1efc5638919e076fa852d8c03d8e55c46e3ada57d97e8e689 ++
  beBytes 48 0x2eec3a40cea8975bef918b54a676f5d6346012a8a51393b1efc5638919e076fa852d8c03d8e55c46e3ada57d97e8e689 ++ List.replicate 128 0
@[inherit_doc signedBytes] def signed : Container := { container false with bytes := signedBytes }
/-- The fuses of a device with that key. -/
def keyFuses : List Byte := keyDigest ++ List.replicate 976 0
@[inherit_doc keyFuses] def keyed (e : Ely) : Ely := { e with fuses := keyFuses }
/-- What of validity depends on the container alone: its form, the digests of its sections and key, and its two signatures. -/
theorem signed_formed : (signed.headerOk && signed.sectionsOk && signed.lengthOk && signed.provision) = true := by decide +kernel
@[inherit_doc signed_formed] theorem signed_digests : (signed.digestsOk && sha384 (signed.signatures.take 96) == keyDigest) = true := by decide +kernel
@[inherit_doc signed_formed] theorem signed_oem : signed.oemSigOk = true := by decide +kernel
@[inherit_doc signed_formed] theorem signed_askulo :
    ecdsaVerify (signed.signatures.take 96) ((signed.signatures.drop 96).take 96) signed.askuloText = true := by decide +kernel
/-- It is valid on every such device: the keys, signatures and digests of R291 verify. -/
theorem signed_valid (e : Ely) : signed.valid (keyed e) = true := by
  have formed := signed_formed
  have digests := signed_digests
  have fuses : keyFuses.take 48 = keyDigest ∧ ((keyFuses.drop 48).take 48).any (· != 0) = false ∧ fuseCount keyFuses 128 = 0 ∧ fuseCount keyFuses 136 = 0 := by
    decide +kernel
  simp only [Bool.and_eq_true, beq_iff_eq] at formed digests
  simp only [Container.valid, Container.askuloOk, Container.oemKeyOk, Ely.oemFused, Ely.oemHash, Ely.askuloHash, Ely.svnAskulo, Ely.svnOem, keyed, formed, digests, signed_oem, signed_askulo, fuses]
  simp
theorem signed_sized : signed.sized 1792 = signed := by decide +kernel

theorem witness_ElytraCommandResults :
    let running := world.onDev fun d => { d with ely := { d.ely with secWm := 32 } }
    (holds ((asking running 1 0x01 [] false).commandAny 1 0x01) (·.wellFormed)) = true ∧
      (holds ((asking running 1 0x0D [(0, 4, 1024), (4, 4, 32)] false).commandAny 1 0x0D) fun j => j.wellFormed && !world.dev.rangeBad (j.arg 0 4) (j.arg 4 4) && j.arg 4 4 == 32) = true ∧
      managed (asking running 0 0x04 [] false) 0x04 (fun s _ => s.dev.ely.running.isSome) = true ∧
      ([(32, true), (40, false), (41, false)].all fun x => managed (asking running 0 0x08 [(0, 4, x.1)] false) 0x08 fun s j => decide (j.arg 0 4 ≤ s.dev.ely.secWm) == x.2 &&
        holds s.dev.policy fun pol => decide (pol.wmMax < j.arg 0 4) == (x.1 == 41)) = true ∧
      (40 * 2 ^ 21 ≤ running.dev.dramTop ∧ ((granuleRange (32 * 32) 0).all fun g => running.dev.ely.ownerByte g == 0xFF) = true) := by decide +kernel
/-- CONTAINER_STAGE with its buffer read, on a device with those fuses and with flash; a container that is too short; the read still to start. -/
def staging (code : Nat) (n : Nat) (f : Dev → Dev) : State := buffered (asking (world.onDev f) 0 code [(8, 4, n)] true)
theorem witness_ElytraCommandResults_stage :
    let s := staging 0x03 1792 fun d => { d with ely := keyed d.ely, ccn := { d.ccn with flash := true } }
    managed s 0x03 (fun s j => bufferIn s j && j.arg 8 4 == 1792 && (s.endReads (.buffer 1)).dev.ccn.flash) = true ∧ (s.endReads (.buffer 1)).dev.ely = keyed s.dev.ely ∧
      (managed (staging 0x03 8 id) 0x03 fun s j => bufferIn s j && !(signed.sized (j.arg 8 4)).valid (s.endReads (.buffer 1)).dev.ely) = true ∧
      managed (asking world 0 0x03 [(8, 4, 1792)] false) 0x03 (fun _ j => !j.begun && decide (0 < j.arg 8 4)) = true := by decide +kernel
/-- Granules 1024 to 1279, from the old watermark to the new, are free where ply 1 owns none. -/
theorem witness_ElytraCommandResults_raise :
    let s := world.onDev fun d => { d with ely := { d.ely with secWm := 32, owner := [] } }
    ((granuleRange 1024 256).all fun g => s.dev.ely.ownerByte g == 0xFF && !s.dev.droppedGranule g) = true := by decide +kernel
/-- A gift of the free granule 2048; a take of granule 1024, which the ply does not map; a scrub of it. -/
def unmapped : State := block false { ply1 .b (ring0 []) with tables := [] }
theorem witness_GranuleCommandResults_own :
    managedPly (asking world 0 0x09 [(0, 1, 1), (1, 4, 2048), (5, 4, 1)] false) 0x09 (fun s j => !s.dev.rangeBad (j.arg 1 4) (j.arg 5 4) &&
        ((granuleRange (j.arg 1 4) (j.arg 5 4)).all fun g => s.dev.ely.ownerByte g == 0xFF && decide (s.dev.ely.secWm * 32 ≤ g)) &&
        decide ((s.dev.ely.owned 1).length + 1 ≤ (s.dev.entry 1).memMax)) = true ∧
      managed (asking unmapped 0 0x0A [(0, 1, 1), (1, 4, 1024), (5, 4, 1)] false) 0x0A (fun s j => j.ply 0 == some 1 && !j.begun && !s.dev.rangeBad (j.arg 1 4) (j.arg 5 4) &&
        ((granuleRange (j.arg 1 4) (j.arg 5 4)).all fun g => s.dev.ely.ownerOf g == some 1 && s.dev.ely.ownerByte g != 0xFE) && !(s.ply 1).mapsAny (granuleRange (j.arg 1 4) (j.arg 5 4))) = true ∧
      (let s := world.onDev fun d => { d with ely := { d.ely with owner := [(1024, 0xFC)] } }
       s.dev.alive && s.dev.ely.ownerByte 1024 == 0xFC && s.dev.ely.state == .running && (s.takeMem devHolder 1024 [(1024 * 65536, 65536)]).isSome) = true := by decide +kernel
/-- Granule 1024 lent for reading, not lent before and lowering a right to write; unlent from its borrower. -/
def lent (write : Bool) : State :=
  world.onDev fun d => { d with ely := { d.ely with owner := [(1024, 0xFE)], lend := [(1024, { owner := 1, borrowers := [{ ply := 2, write := write }] })] } }
theorem witness_GranuleCommandResults_lend :
    ([(false, world, false), (false, lent true, true), (true, lent true, true)].all fun x => managed (asking x.2.1 0 0x0B [(0, 1, 1), (1, 1, 2), (2, 1, 1), (4, 4, 1024), (8, 4, 1)] x.1) 0x0B fun s j =>
        j.ply 0 == some 1 && j.ply 1 == some 2 && lendRights (j.arg 2 1) == some false && !s.dev.rangeBad (j.arg 4 4) (j.arg 8 4) && j.begun == x.1 &&
        (holds s.dev.policy fun pol => pol.lendPairs.any fun y => y.1 == 1 && y.2.1 == 2) && s.dev.ely.ownerOf 1024 == some 1 && decide (1 ≤ s.dev.ely.freeLends) &&
        (match Map.find s.dev.ely.lend 1024 with | some l => decide (l.borrowers.length < 4) | none => true) && s.dev.ely.lentTo 1024 2 true == x.2.2 &&
        (s.ply 2).earlierRetired j.mark) = true ∧
      ([false, true].all fun b => managed (asking (lent false) 0 0x0C [(0, 1, 1), (1, 1, 2), (4, 4, 1024), (8, 4, 1)] b) 0x0C fun s j => j.ply 0 == some 1 && j.ply 1 == some 2 &&
        !s.dev.rangeBad (j.arg 4 4) (j.arg 8 4) && s.dev.ely.ownerOf 1024 == some 1 && s.dev.ely.lentTo 1024 2 false && j.begun == b && (s.ply 2).earlierRetired j.mark &&
        ((s.ply 2).pagesIn [1024]).isEmpty) = true := by decide +kernel
/-- Elytra runs, restarts with a good copy, or with none and no flash, or is halted or in ROM mode. -/
theorem witness_ElytraRestartResults :
    let s := fun st (copy : List Byte) lost => world.onDev fun d =>
      { d with ely := { d.ely with state := st, romMode := true, running := some signed, copy := copy, fwDigest := emptyDigest, retainedLost := lost } }
    world.dev.alive = true ∧ world.dev.ely.state = .running ∧ (s .rom [] false).dev.ely.state = .rom ∧ (s .rom [] false).dev.ely.romMode = true ∧
      ((s .restarting signed.bytes false).dev.ely.state = .restarting ∧ (s .restarting signed.bytes false).dev.reloadFrom.isSome = true) ∧
      (s .restarting [] true).dev.ely.retainedLost = true ∧ (s .restarting [] true).dev.ccn.flash = false ∧ (s .halted [] false).dev.ely.state = .halted := by decide +kernel
/-- The block at reset is ready to boot; VAON off; ROM mode asked for a container from port 0; a warm reset that is due; WATCH. -/
theorem witness_ResetAndBootResults :
    let off := State.reset.onDev fun d => { d with power := { d.power with vaonOk := false } }
    let rom := fun n => staging 0x02 n fun d => { d with ely := keyed { d.ely with state := .rom, romMode := true, running := none } }
    let due := world.onDev fun d => { d with power := { d.power with resetDue := true } }
    let watch := world.onDev fun d => { d with power := { d.power with state := .watch } }
    (State.reset.dev.power.vaonOk = true ∧ State.reset.dev.power.tripped = false ∧ State.reset.dev.ely.state = .rom ∧ State.reset.dev.ely.romMode = false ∧ State.reset.dev.mc.desc = none) ∧
      off.dev.power.vaonOk = false ∧ ([8, 1792].all fun n => holds ((rom n).commandAny 1 0x02) fun j => j.wellFormed && j.port == 0 && j.arg 8 4 == n && bufferIn (rom n) j) = true ∧
      ((rom 8).dev.ely.romMode = true ∧ (signed.sized 8).valid ((rom 8).endReads (.buffer 1)).dev.ely = false) ∧ ((rom 1792).endReads (.buffer 1)).dev.ely = keyed (rom 1792).dev.ely ∧
      due.dev.power.resetDue = true ∧ (watch.dev.power.state = .watch ∧ watch.dev.power.vaonOk = true ∧ watch.dev.power.tripped = false ∧
        watch.dev.power.held = false) := by decide +kernel
/-- A port in each phase, with a session that opens, one established, and all four in use. -/
def spdm (phase : Nat) (ids : List Nat) (opening : Bool) : State :=
  world.updPort 0 fun pt => { pt with spdm := { pt.spdm with phase := phase, sessions := ids.map fun i => { id := i, opening := opening, keyGen := 1 } } }
theorem witness_SpdmConnectionResults :
    ((List.range 4).all fun k => (spdm k [] false).dev.alive && (spdm k [] false).dev.ely.state == .running && ((spdm k [] false).port 0).linkUp && ((spdm k [] false).port 0).spdm.phase == k) = true := by
  decide +kernel
theorem witness_SpdmSessionResults :
    ((allFin 4).all fun k => (((spdm 3 [0, 1, 2, 3] false).port 0).spdm.session k).isSome) = true ∧ (((spdm 3 [0] false).port 0).spdm.session 1).isNone = true ∧
      (holds (((spdm 3 [0] true).port 0).spdm.session 0) (·.opening)) = true ∧ (holds (((spdm 3 [3] false).port 0).spdm.session 3) fun x => !x.opening) = true := by decide +kernel

/-! ### Heads -/

/-- Head 0 changed. -/
def headed (f : Head → Head) : State := world.updHead 0 f
/-- An ARM that turns the head off, one that fixes the 594 MHz mode, one of a set out of range. -/
theorem witness_TimingArmResults :
    (world.dev.alive && world.dev.isManager 0 && world.dev.headExposed 0 && world.dev.armError 0 (world.dev.pendingTiming 0) == 0 && !(world.dev.pendingTiming 0).enable) = true ∧
      (world.dev.armError 0 timing594 == 0 && world.dev.armError 0 { timing594 with htim0 := 0 } == 1) = true := by decide +kernel
/-- TLOCK, an ARM pending, the odd head of a pair, a set that turns the head off, one out of range. -/
theorem witness_ArmRefusalOrder :
    let lock := world.onDev fun d => d.setBoth 0x12000 2
    let pair := (headed fun x => { x with paired := true }).updHead 1 fun x => { x with paired := true }
    bit (lock.dev.reg (hdBase 0)) 1 = true ∧ bit (world.dev.reg (hdBase 0)) 1 = false ∧ ((headed fun x => { x with armed := some timing594 }).head 0).armed.isSome = true ∧
      (world.head 0).armed = none ∧ pair.dev.slave 1 = true ∧ pair.dev.slave 0 = false ∧ timing594.pair = false ∧ timing594.enable = true ∧
      ({ timing594 with htim0 := 0 } : Timing).fieldsOk = false := by decide +kernel
theorem witness_LinkTrainingResults :
    let s := fun l tries => headed fun x => { x with link := l, tries := tries, gen := .changing }
    ((s .training []).head 0).link = .training ∧ ((s .training []).head 0).tries = [] ∧ ((s .training [{ rate := 2, lanes := 4 }]).head 0).tries = [{ rate := 2, lanes := 4 }] ∧
      ((s .training []).head 0).gen = .changing ∧ world.dev.headExposed 0 = true ∧ world.dev.hpdIgnore 0 = false ∧
      (world.onDev fun d => { d with variant := 4 }).dev.headExposed 7 = false := by decide +kernel
/-- A running head, the odd head of a pair, a mode change whose links are up and PLLs locked, an underrun of a layer, seen before on its head or not. -/
def scanning : State :=
  headed fun x => { x with gen := .running, timing := timing594, layers := [{ handle := 3, ply := 1, block := layer4k 0, coef := [], gran := 12, cmp := 44, hold := false, next := none, fill := Vector.replicate 2 0, dry := [(0, 1, 2)], dryRun := 0 }] }
theorem witness_FrameCommandResults :
    let pair := (headed fun x => { x with paired := true }).updHead 1 fun x => { x with paired := true }
    let change := headed fun x => { x with gen := .changing, relocked := true, link := .trained }
    (!scanning.dev.slave 0 && (scanning.head 0).gen == .running) = true ∧ pair.dev.slave 1 = true ∧
      ((change.head 0).gen == .changing && (change.dev.group 0).all fun k => (change.head k).relocked && (change.head k).link == .trained) = true ∧
      ((change.dev.group 0).all fun k => (change.head k).link != .training && (change.head k).link != .waiting) = true ∧
      (holds ((scanning.head 0).layers.find? (·.handle == 3)) fun e => e.dry.any (·.1 == (scanning.head 0).scanHead 0 5)) = true ∧
      (world.dev.isManager 0 && !world.dev.pkgW) = true := by decide +kernel
theorem witness_FrameCommandResults_underrun :
    let s := scanning.updHead 0 fun x => { x with layers := x.layers.map fun e => { e with dry := [] } }
    (holds ((s.head 0).layers.find? (·.handle == 3)) fun e => !e.dry.any (·.1 == (s.head 0).scanHead 0 5)) = true := by decide +kernel
/-- One layer, no plate, 44 CMP credits there. -/
theorem witness_CmpTakeAndReturn :
    ((scanning.head 0).layers.length = 1 ∧ ((List.range 16).all fun i => !(at' (scanning.head 0).plates (Fin.ofNat 16 i)).shown) = true) ∧
      (scanning.sparesSlots 0 ((scanning.head 0).layers.getD 0 { handle := 0, ply := 0, block := [], coef := [], gran := 0, cmp := 0, hold := false, next := none, fill := Vector.replicate 2 0, dry := [], dryRun := 0 }) 44 &&
        (scanning.skein.take .cmp (plyHolder 1) (layerCmp timing594 (layer4k 0))).isSome) = true ∧
      ((scanning.onSkein fun k => k.setAcct .cmp { k.acct .cmp with free := 0 }).skein.take .cmp (plyHolder 1) 44).isNone = true := by decide +kernel
/-- Tables that exist and are writable, and ones that are not; a tenancy set applied on a head that is off, that runs, and that waits for another. -/
theorem witness_HeadRegisterResults :
    let far := world.onDev fun d => d.setBoth 0x13000 0x40000
    let ten := fun g w => asking (headed fun x => { x with gen := g, tenWait := w }) 0 0x30 [] false
    world.dev.headExposed 0 = true ∧ world.dev.isManager 0 = true ∧ world.dev.isManager 1 = false ∧ world.dev.lutExists world.dev.lutSel.1 = true ∧
      world.dev.lutWritable world.dev.lutSel.1 world.dev.lutSel.2.1 = true ∧ far.dev.lutExists far.dev.lutSel.1 = false ∧
      ([(Gen.off, none), (.running, none), (.running, some (1, 0, false))].all fun x => managed (ten x.1 x.2) 0x30 fun s j => !j.begun && fin? 8 (j.arg 0 1) == some 0 &&
        s.dev.headExposed 0 && !s.dev.slave 0 && j.arg 1 1 == 0 && s.dev.policy.isSome && (s.head 0).gen == x.1 && (s.head 0).tenWait == x.2) = true := by decide +kernel

/-! ### Memory controllers -/

/-- A transfer of a ply and one of the device, with room and mapped, on a port of its engine; one that the ply does not map; one of a port that is not its
engine's and a layer's fetch of a layer that does not exist; a refused take; deep nap. -/
theorem witness_TransferAcceptResults :
    (world.dev.mc.trained && !world.dev.mc.deep && Engine.copy.ports.contains 9 && world.dev.wanted 9 (some 1) none 0 && world.dev.wanted 13 none none 64) = true ∧
      transferTarget world (some 1) 0 true = .ok (1024 * 65536) 7 ∧ transferTarget world none 64 false = .ok 64 9 ∧ transferTarget world none (2 ^ 34) false = .fault ∧
      transferTarget world none (1024 * 65536) true = .ok (1024 * 65536) 7 ∧
      transferTarget world (some 1) 0x100000 false = .fault ∧ (world.takeMem (plyHolder 1) 2 [(1024 * 65536, 1)]).isSome = true ∧
      ((world.onSkein fun k => k.setAcct .mem { k.acct .mem with free := 0 }).takeMem (plyHolder 1) 2 [(1024 * 65536, 1)]).isNone = true ∧
      (world.dev.mc.chan 0).hasRoom true = true ∧ (world.updChan 0 fun c => { c with training := true }).dev.mc.trained = true ∧
      Engine.copy.ports.contains 8 = false ∧ world.dev.wanted 0 (some 1) (some (0, 3)) 0 = false ∧ (world.onDev fun d => { d with mc := { d.mc with deep := true } }).dev.mc.deep = true := by
  decide +kernel
/-- A request of a channel. -/
def request (write : Option (Nat × List Byte)) : McReq :=
  { id := 3, port := 9, eng := .copy, ply := some 1, addr := 1024 * 65536, key := 7, write := write, reserved := false, head := none, promoted := false, accepted := 0, data := [] }
/-- A read and a write that issue; a read that returns; parity alerts on package W, once and again; a replay, with the channel training or not. -/
theorem witness_ChannelResults :
    let s := fun q f => world.updChan 0 fun c => f { c with queue := q }
    let w := (world.onDev fun d => { d with variant := 10 })
    let ok := fun s : State => let u := s.updChan 0 fun c => { c with retry := c.retry.drop 0, replaying := c.replaying && true, queue := s.dev.promote c.queue }
      !u.dev.mc.deep && !(u.dev.mc.chan 0).alert && !(u.dev.mc.chan 0).training && !(u.dev.mc.chan 0).slice && (u.dev.choose (u.dev.mc.chan 0)).isSome
    ok (s [request none] id) = true ∧ ok (s [request (some (0, [1]))] id) = true ∧ ((s [] id).dev.choose ((s [] id).dev.mc.chan 0)).isNone = true ∧
      (((s [] fun c => { c with issued := [request none] }).dev.mc.chan 0).issued.find? (·.id == 3)).isSome = true ∧ w.dev.pkgW = true ∧ world.dev.pkgW = false ∧
      ([true, false].all fun b => ((w.updChan 0 fun c => { c with replaying := b }).dev.mc.chan 0).replaying == b && !((w.updChan 0 fun c => { c with replaying := b }).dev.mc.chan 0).alert) = true ∧
      ((w.updChan 0 fun c => { c with alert := true }).dev.mc.chan 0).alert = true ∧ (world.takeMem devHolder 1 [(64, 1)]).isSome = true ∧ world.dev.mc.trained = true ∧ 64 < world.dev.dramTop := by decide +kernel
theorem witness_DramUpkeepResults :
    let un := world.updMc fun m => { m with trained := false }
    let s := fun reserved n => world.updChan 0 fun c => { c with queue := [{ request none with reserved := reserved }], drift := true, banks := c.banks.map fun b => { b with postponed := n } }
    un.dev.mc.desc = some lpddr ∧ memDescOk un.dev.pkgW lpddr = true ∧
      un.dev.mc.trained = false ∧ ([(true, 7), (false, 7), (true, 8)].all fun x => ((s x.1 x.2).dev.mc.chan 0).queue.any (·.reserved) == x.1 &&
        (at' ((s x.1 x.2).dev.mc.chan 0).banks 5).postponed == x.2 && (s x.1 x.2).dev.canIssue 0) = true ∧
      (world.updChan 0 fun c => { c with slice := true }).dev.canIssue 0 = false ∧ ((world.updChan 0 fun c => { c with slice := true }).dev.mc.chan 0).slice = true ∧
      (s false 0).dev.sliceFree 0 = true ∧ (s true 0).dev.sliceFree 0 = false ∧ ((s false 0).dev.mc.chan 0).slice = false ∧ ((s false 0).dev.mc.chan 0).drift = true := by decide +kernel
/-- Every head reports 10 microseconds and every channel naps. -/
def resting (deep topUp : Bool) : State :=
  world.onDev fun d => { d.setBoth 0x16004 0x80000000 with mc := { d.mc with tol := Vector.replicate 8 10000, deep := deep, topUp := topUp, acks := [0, 1, 2, 3, 4, 5, 6, 7], chans := d.mc.chans.map fun c => { c with light := true } } }
theorem witness_DramUpkeepResults_slice :
    (resting false false).dev.toleranceAbove 2000 = true ∧ (world.updMc fun m => { m with tol := put m.tol 0 2000 }).dev.toleranceAbove 2000 = false ∧
      managed (asking world 0 0x40 [(0, 1, 1)] false) 0x40 (fun s j => j.arg 1 1 == 0 && !s.dev.pkgW && holds s.dev.mc.desc fun m => s.dev.pasrUnsafe m (j.arg 0 1) (j.arg 2 2)) = true ∧
      managed (asking world 0 0x40 [(1, 1, 1)] false) 0x40 (fun s j => j.arg 1 1 != 0 && s.dev.mc.desc.isSome) = true ∧
      managed (asking (world.onDev fun d => { d with variant := 10 }) 0 0x40 [] false) 0x40 (fun s j => j.arg 1 1 == 0 && s.dev.pkgW) = true ∧
      managed (asking (world.onDev fun d => { d with ely := { d.ely with secWm := 0 } }) 0 0x40 [(0, 1, 128)] false) 0x40
        (fun s j => holds s.dev.mc.desc fun m => !s.dev.pasrUnsafe m (j.arg 0 1) (j.arg 2 2)) = true := by decide +kernel
theorem witness_NapResults :
    ((resting false false).dev.mc.trained && (resting false false).dev.napDepth == 2 && ((resting false false).dev.mc.chan 0).queue.isEmpty && (resting false false).dev.toleranceAbove 20 &&
        (resting false false).dev.deepOk && !(resting false false).dev.mc.deep) = true ∧ (world.updMc fun m => { m with tol := put m.tol 0 20 }).dev.toleranceAbove 20 = false ∧
      ((resting false true).dev.mc.topUp && ((List.range (resting false true).dev.nHeads).all fun h => (resting false true).dev.mc.acks.contains h) &&
        (resting false true).dev.toleranceAbove 1500) = true ∧ (resting true false).dev.mc.deep = true ∧
      (((resting false true).updMc fun m => { m with acks := [] }).dev.mc.acks.contains 0 = false ∧ (resting false true).dev.headExposed 0 = true) ∧
      (world.onDev fun d => { d with variant := 4 }).dev.headExposed 7 = false := by decide +kernel

/-! ### Power, recorder, self-test -/

/-- The block with its power state changed, and a command 1 in the journal. -/
def powered (f : Power → Power) (code : Nat) (args : List (Nat × Nat × Nat)) (begun : Bool) : State :=
  asking (world.onDev fun d => { d with power := f d.power }) 0 code args begun
/-- PWR_STATE to RUN and DIM, accepted and reached; PWR_ISLAND of the Whorl-free islands, free or claimed by a session that opens. -/
theorem witness_PowerCommandResults_state :
    ([1, 2].all fun t => managed (powered id 0x50 [(0, 1, t)] false) 0x50 fun _ j => j.arg 0 1 == t && j.arg 1 1 == 0 && !j.begun) = true ∧
      ([1, 2].all fun t => managed (powered id 0x50 [(0, 1, t)] true) 0x50 fun s j => j.arg 0 1 == t && j.begun && s.dev.power.pendState.isNone && s.dev.gfxIslands.all s.dev.islandSettled) = true := by
  decide +kernel
theorem witness_PowerCommandResults_island :
    ([(0x20, true), (0x10, false)].all fun x => managed (asking ((world.updPort 0 fun pt => { pt with spdm := { pt.spdm with sessions := [{ id := 0, opening := true, keyGen := 1 }] } })) 0 0x51
        [(0, 4, 0x100), (4, 4, x.1)] false) 0x51 fun s j => Nat.land (j.arg 0 4) (j.arg 4 4) == 0 && !j.begun && (maskIslands (j.arg 0 4) ++ maskIslands (j.arg 4 4)).all (fun i => s.dev.islandExists i.val) &&
          !(maskIslands (j.arg 0 4)).contains 0 && (maskIslands (j.arg 4 4)).all (fun i => !s.dev.offRefused i.val) && (s.dev.claimed 1 ((maskIslands (j.arg 4 4)).map (·.val))).isNone == x.2) = true ∧
      managed (powered id 0x51 [(0, 4, 0x100), (4, 4, 0)] true) 0x51 (fun s j => j.begun && (maskIslands 0x100).all s.dev.islandSettled && j.arg 0 4 == 0x100) = true := by decide +kernel
theorem witness_PowerCommandResults_point :
    ([(0, 1, false), (0, 0, true), (1, 4, false), (1, 0, true)].all fun x => managed (powered id 0x52 [(0, 1, x.1), (1, 1, x.2.1)] x.2.2) 0x52 fun s j => j.arg 0 1 == x.1 && j.arg 1 1 == x.2.1 &&
        j.begun == x.2.2 && s.dev.power.pendVc.isNone && s.dev.power.pendVg.isNone) = true ∧
      managed (asking (world.updHead 0 fun x => { x with gen := .running }) 0 0x52 [] false) 0x52 (fun s j => j.arg 0 1 == 0 && j.arg 1 1 == 0 && s.dev.headOn 0 && !j.begun) = true ∧
      managed (powered id 0x53 [(0, 1, 1)] false) 0x53 (fun _ j => j.arg 0 1 == 1) = true := by decide +kernel
/-- WATCH with every ply absent, free or claimed; the second command, while the device leaves. -/
theorem witness_PowerCommandResults_watch :
    let s := fun l : List SpdmSession => (block false Ply.absent).updPort 0 fun pt => { pt with spdm := { pt.spdm with sessions := l } }
    ([([], true), ([{ id := 0, opening := true, keyGen := 1 }], false)].all fun x => managed (asking (s x.1) 0 0x50 [(0, 1, 3)] false) 0x50 fun s j =>
      s.dev.power.state != .leaving && j.arg 0 1 == 3 && j.arg 1 1 == 0 && !j.begun && ((allFin 64).all fun p => (s.ply p).state == .absent) && !s.dev.whorl.member &&
        (s.dev.claimed 1 ((List.range 25).map (· + 1))).isNone == x.2) = true ∧
      ((powered (fun p => { p with state := .leaving }) 0x50 [] false).dev.alive && (powered (fun p => { p with state := .leaving }) 0x50 [] false).dev.power.state == .leaving) = true := by
  decide +kernel
/-- A ramp-up whose tokens are there, and one whose are not; power-good; both clocks; VAON with and without a warning. -/
theorem witness_PowerEventResults :
    let s := fun f : Power → Power => world.onDev fun d => { d with power := f d.power }
    let ramp := s fun p => { p with waits := [9], islands := put p.islands 9 .ramping }
    let poor := ramp.onSkein fun k => k.setAcct .inr { k.acct .inr with free := 0 }
    ramp.dev.power.waits = [9] ∧ (ramp.skein.take .inr (islandHolder 9) (islandTokens 9)).isSome = true ∧ (poor.skein.take .inr (islandHolder 9) (islandTokens 9)).isNone = true ∧
      ramp.dev.island 9 = .ramping ∧ world.dev.refclk = true ∧ (world.onDev fun d => { d with refclk := false }).dev.refclk = false ∧ world.dev.isManager 0 = true ∧
      world.dev.power.vaonOk = true ∧ world.dev.power.vaonWarn = false ∧ (s fun p => { p with vaonWarn := true }).dev.power.vaonWarn = true ∧ world.dev.slpclk = true ∧
      (world.onDev fun d => { d with slpclk := false }).dev.slpclk = false := by decide +kernel
theorem witness_CocoonResults :
    let s := world.onDev fun d => { d with ccn := { d.ccn with flash := true, buffer := [List.replicate 32 0] } }
    s.dev.slpclk = true ∧ s.dev.alive = true ∧ s.dev.ccnWrites = true ∧ s.dev.ccn.buffer = [List.replicate 32 0] ∧
      managed (asking s 0 0x61 [] false) 0x61 (fun s _ => !s.dev.ccn.frozen && !s.dev.ccn.refill) = true ∧ managed (asking s 0 0x62 [] false) 0x62 (fun _ _ => true) = true ∧
      ([1, 2, 0].all fun q => holds ((asking s (Fin.ofNat 4 q) 0x60 [] false).command 1 0x60) fun j => j.wellFormed && s.dev.auditor j.port == (q != 2)) = true ∧
      ([(0, 262143), (1, 127)].all fun x => holds ((asking s 1 0x63 [(0, 1, x.1), (1, 4, x.2), (5, 4, 1)] false).command 1 0x63) fun j => j.wellFormed && s.dev.auditor j.port && j.arg 5 4 == 1 &&
        j.arg 0 1 == x.1 && j.arg 1 4 == x.2) = true := by decide +kernel
/-- A unit of its own island, one of a head that is off, the first and the last. -/
theorem witness_SelfTestResults :
    (world.dev.alive && runUnits.contains 0x20 && runUnits.contains 0x3A && !world.dev.unitSkipped 0x20 && !world.dev.unitSkipped 0x3A && world.dev.unitSkipped 0x21 &&
      !world.dev.bist.thisEpoch.contains 0x20 && world.dev.power.state == .run && world.dev.ely.state == .running && !world.dev.unitPassed 0x20 && world.dev.slpclk) = true := by decide +kernel

/-! ### Audio -/

/-- A ready descriptor on a block whose audio part is changed. -/
def playing (bytes : List Byte) (f : Audio → Audio) : State := (withDesc bytes).updAudio f
/-- A stream of ply 1 on inputs 0 and 1. -/
def stream : Stream :=
  { ply := 1, handle := 0, chans := 2, fmt := 0, rate := 48000, first := 0, started := false, frames := [], part := 0, bufs := [], last := false, closing := false, fade := none,
    closer := none }
/-- AUD_OPEN of granted inputs, with inputs that the ply lacks, with a handle that is open, past input 63, with inputs that another stream holds; AUD_OPEN with CLOSE
of a stream, closing already or not; AUD_BUFFER of whole frames or not; a buffer read. -/
theorem witness_StreamResults :
    let opens := fun chans first => desc [(0, 1, 0x40), (34, 1, chans), (36, 4, 48000), (40, 1, first)]
    let grant := fun (b : List Byte) f => (holds ((playing b f).ready 1 0 0x40) fun x => bit (byteAt x.bytes 33) 0 == false) && (playing b f).dev.islandOn 22
    (grant (opens 2 0) id && !world.dev.audio.streams.any (fun _ => true) && [0, 1].all (world.dev.entry 1).inputs.contains && grant (opens 1 9) id && !(world.dev.entry 1).inputs.contains 9) = true ∧
      (grant (opens 2 0) (fun a => { a with streams := [stream] }) && ((playing (opens 2 0) fun a => { a with streams := [stream] }).dev.audio.stream 1 0).isSome) = true ∧
      ((playing (opens 2 0) fun a => { a with streams := [{ stream with ply := 2 }] }).dev.heldInputs.contains 1) = true ∧
      ([none, some (0, 7)].all fun c => let s := playing (desc [(0, 1, 0x40), (33, 1, 1)]) fun a => { a with streams := [{ stream with closer := c }] }
        (s.ready 1 0 0x40).isSome && holds (s.dev.audio.stream 1 0) fun x => x.closer == c) = true ∧
      ([4, 6].all fun n => let s := playing (desc [(0, 1, 0x41), (48, 4, n)]) fun a => { a with streams := [stream] }
        (s.ready 1 0 0x41).isSome && holds (s.dev.audio.stream 1 0) fun x => n % (x.chans * streamBytes x.fmt) == (if n = 4 then 0 else 2)) = true := by decide +kernel
/-- The first buffer of a stream, read from host memory, or empty. -/
theorem witness_StreamResults_read :
    let b : StreamBuf := { ring := 0, order := 0, addr := 0, len := 4, last := true }
    let s := fun b => (playing (desc [(0, 1, 0x41)]) fun a => { a with streams := [{ stream with bufs := [b] }] }).onDev fun d =>
      { d with reads := [{ port := 0, ply := some 1, what := .audio 1 0, addr := 0, len := 4 }] }
    (s b).dev.alive = true ∧ (s b).dev.readOut (.audio 1 0) = true ∧ holds ((s b).dev.audio.stream 1 0) (fun x => x.bufs == [b]) = true ∧
      holds ((s { b with len := 0 }).dev.audio.stream 1 0) (fun x => x.bufs.length == 1) = true ∧ (s { b with len := 0 }).intake 1 = true := by decide +kernel
/-- The crosspoint selector, moving on or not, at its last output; a coefficient of a free and of a locked output; AUD_LOCK of an output that the policy gives and
of one that it does not; a clocked TDM port. -/
theorem witness_AudioControlResults :
    let sel := fun v => world.onDev fun d => d.setBoth 0x18004 v
    let eq := fun (v lock : Nat) => (world.onDev fun d => d.setBoth 0x1800C v).updAudio fun a => { a with lockOut := lock }
    world.dev.islandOn 22 = true ∧ world.dev.isManager 0 = true ∧ world.dev.isManager 1 = false ∧ bit ((sel 0x3F1F01).dev.reg 0x18004) 0 = true ∧ bit (world.dev.reg 0x18004) 0 = false ∧
      fld ((eq 4 0).dev.reg 0x1800C) 2 0 = 4 ∧ bit (eq 4 0).dev.audio.lockOut (fld ((eq 4 0).dev.reg 0x1800C) 12 8) = false ∧
      bit (eq 4 1).dev.audio.lockOut (fld ((eq 4 1).dev.reg 0x1800C) 12 8) = true ∧
      ([(1, false), (2, true)].all fun x => managed (asking world 0 0x80 [(0, 4, x.1)] false) 0x80 fun s j => holds s.dev.policy fun pol =>
        (((allFin 32).filter fun k => bit (j.arg 0 4) k.val).any fun k => (at' pol.audio k).isNone) == x.2) = true ∧
      (let s := world.onDev fun d => d.setBoth 0x18020 0x80000000; bit (s.dev.active 0x18020) 31 && !bit (s.dev.active 0x18020) 30) = true := by decide +kernel
/-- A voice of the ply's. -/
def voice (desc : Option (Fin 4 × Nat)) (ply : Option (Fin 64)) (ended : Bool) : Playing :=
  { ply := ply, classA := false, wave := 0, mask := 1, gain := 0x4000, left := some 1, pos := 0, desc := desc, sounds := true, stop := false, ended := ended, closing := false, fade := none, hold := false }
theorem witness_ChimeResults :
    let chime := fun mask flags => desc [(0, 1, 0x42), (33, 1, flags), (34, 2, 1), (36, 4, mask), (40, 2, 0x4000)]
    let full := fun a : Audio => { a with voices := Vector.replicate 16 (some (voice none none false)) }
    (holds ((playing (chime 1 0) id).ready 1 0 0x42) fun f => bit (byteAt f.bytes 33) 0 == false && bit ((playing (chime 1 0) id).dev.entry 1).waves 0 &&
        Nat.land 1 ((playing (chime 1 0) id).dev.entry 1).outputs == 1 && ((playing (chime 1 0) id).dev.findVoice 1).isSome && ((playing (chime 1 0) full).dev.findVoice 1).isNone) = true ∧
      (holds ((playing (chime 1 1) id).ready 1 0 0x42) fun f => bit (byteAt f.bytes 33) 0) = true ∧
      (holds world.dev.policy fun pol => (pol.binds[0]?).isSome && (pol.binds[1]?).isSome) = true ∧ (world.updAudio fun a => { a with due := [1] }).dev.audio.due.contains 1 = true ∧
      ([voice none none false, voice none none true, voice (some (0, 0)) (some 1) true].all fun x =>
        at' (playing (chime 1 0) fun a => { a with voices := put a.voices 2 (some x) }).dev.audio.voices 2 == some x) = true := by decide +kernel
theorem witness_ChimeResults_refused :
    let s := (withDesc (desc [(0, 1, 0x42), (36, 4, 1)])).onDev fun d => { d with ely := { d.ely with running := some { container false with policy :=
      { (container false).policy with plies := Vector.replicate 64 { grantAll with waves := 0 } } } } }
    (holds (s.ready 1 0 0x42) fun _ => !bit (s.dev.entry 1).waves 0) = true := by decide +kernel

/-! ### The ring of package W -/

/-- A member of ring ID 2 on package W, joined on both ports. -/
def ringed2 (f : Whorl → Whorl) : State :=
  (world.onDev fun d => { d with variant := 10 }).updWhorl fun w => f { w with member := true, ringId := 2, masterId := 1, ports := w.ports.map fun p => { p with state := .joined, nb := some 3, rate := 3 } }
theorem witness_RingMembershipResults :
    let off := (world.onDev fun d => { d with variant := 10 })
    let loop := off.updWhorl fun w => { w with ports := w.ports.map fun p => { p with state := .loop } }
    let x : JoinOutcome := { rates := Vector.replicate 2 (some 3), attested := true, measures := [], taken := false, reach := Vector.replicate 2 [], closed := false, maxTime := 0 }
    (off.dev.ringOn 0 && (off.ringPort 0).state == .off) = true ∧
      managed (asking loop 0 0x70 [(0, 1, 3), (1, 1, 15)] false) 0x70 (fun s j => !j.begun && j.arg 0 1 == 3 && j.arg 1 1 == 15 && s.dev.pkgW && !s.dev.whorl.member &&
        (ringPorts 3).all fun q => (s.ringPort q).state == .loop) = true ∧
      managed (asking loop 0 0x70 [(0, 1, 3), (1, 1, 15)] true) 0x70 (fun _ j => j.begun && (ringPorts 3).all fun q => (at' x.rates q).isSome) = true ∧ (x.attested && loop.dev.neighboursOk x.measures) = true ∧
      loop.dev.neighboursOk [[]] = false ∧ managed (asking world 0 0x71 [] false) 0x71 (fun s _ => !s.dev.pkgW) = true ∧
      ((ringPorts 3).any fun q => (at' (Vector.replicate 2 (none : Option Nat)) q).isNone) = true ∧
      managed (asking off 0 0x71 [] false) 0x71 (fun s _ => !s.dev.whorl.member) = true ∧
      managed (asking (ringed2 id) 0 0x71 [] false) 0x71 (fun s _ => s.dev.whorl.member && s.dev.whorl.ringId == 2 && s.dev.whorl.chans.all fun c => c.busy.isNone) = true ∧
      ((ringed2 id).dev.whorl.member = true ∧ (ringed2 id).dev.whorl.ringId ≠ 3) := by decide +kernel
/-- A member off time by 300 ns, and one whose link is down, to a member that answers, or one that does not. -/
theorem witness_RingServiceResults :
    let late := ringed2 fun w => { w with timed := true, mark := 300, reach := Vector.replicate 2 [3] }
    let down := ringed2 fun w => { w with reach := Vector.replicate 2 [3, 4], ports := w.ports.map fun p => { p with state := .down } }
    let probe := ringed2 fun w => { w with probe := some (1, 0) }
    ((late.ringPort 0).state == .joined && late.dev.whorl.member && !late.dev.whorl.isMaster && late.dev.whorl.timed && decide (20 * late.dev.whorl.hops + 100 < late.dev.whorl.mark.natAbs)) = true ∧
      (ringed2 fun w => { w with masterId := 2 }).dev.whorl.isMaster = true ∧
      ((down.ringPort 0).state == .down && (at' down.dev.whorl.reach 0)[max 1 (0 : Fin 3).val]? == some 4 && (at' down.dev.whorl.reach 0)[max 1 (2 : Fin 3).val]? != some 4) = true ∧
      managed (asking (ringed2 id) 0 0x74 [(0, 1, 0), (1, 1, 3)] false) 0x74 (fun s j => !j.begun && s.dev.pkgW && fin? 2 (j.arg 0 1) == some 0 && s.dev.whorl.member &&
        (s.ringPort 0).state == .joined) = true ∧
      (probe.dev.whorl.probe == some (1, 0) && ((asking probe 0 0x74 [] true).command 1 0x74).isSome) = true := by decide +kernel
/-- Channel 5 of ply 1 on a port: 16 pixels by 1, buffers at 0 and 4,096. -/
def channel (sender : Bool) : Channel :=
  { id := 5, sender := sender, ply := 1, port := if sender then 0 else 1, peer := 3, argb := false, w := 16, h := 1, stride := 256, bufs := #v[0, 4096], fence := 8, done := if sender then 9 else 0,
    rate := 1, last := 0, busy := none, row := 0, got := [] }
theorem witness_RemoteLayerResults_open :
    ([true, false].all fun sender => managed (asking (ringed2 id) 0 0x72 [(0, 1, bit1 sender), (1, 1, 5), (2, 1, 1), (3, 1, if sender then 0 else 3), (4, 1, 3), (5, 1, 1), (8, 2, 16), (10, 2, 1),
        (12, 4, 256), (24, 8, 4096), (32, 2, 8), (34, 2, if sender then 9 else 0), (38, 2, 1)] false) 0x72 fun s j => s.dev.pkgW && channelArgs j == some (channel sender) &&
      (s.dev.entry 1).ringPaths.contains ((channel sender).port.val, sender) && (s.ply 1).state != .absent && ((channel sender).bufs.toList.all fun a => s.dev.ownsRange 1 a (channel sender).span (!sender)) &&
      s.dev.whorl.member && s.dev.whorl.chans.isEmpty && (s.ringPort (channel sender).port).state == .joined && decide (1 ≤ ringPayload (s.ringPort 0).rate)) = true ∧
      managed (asking (ringed2 fun w => { w with chans := [channel true] }) 0 0x73 [(0, 1, 5)] false) 0x73 (fun s j => s.dev.pkgW && j.arg 0 1 == 5 && s.dev.whorl.chans.any (·.id == 5)) = true := by
  decide +kernel
/-- A sender with a value to send, one that sends, one with none; a receiver whose buffer no layer uses, and a ply that is not ACTIVE. -/
theorem witness_RemoteLayerResults_frame :
    let s := fun c => (ringed2 fun w => { w with chans := [c] }).updPly 1 fun y => y.signal 8 1
    let idle := ringed2 fun w => { w with chans := [channel true] }
    let rcv := s { channel false with argb := true }
    (decide ((channel true).last < ((s (channel true)).ply 1).fence 8) && ((s (channel true)).ringPort 0).state == .joined && ((s (channel true)).ply 1).state == .active) = true ∧
      (idle.ply 1).fence 8 ≤ (channel true).last ∧ 
      (let c := { channel true with busy := some 1 }
       (State.sendRows c 1 ((List.range c.h).drop c.row) (s c)).2 = true ∧
         (State.sendRows c 1 ((List.range c.h).drop c.row) ((s c).onSkein fun k => k.setAcct .mem { k.acct .mem with free := 0 })).2 = false) ∧
      (let c := { channel false with argb := true }
       rcv.dev.layersRead 1 (c.buf 1) c.span = false ∧
         (State.receiveRows c 1 (c.memRow (List.replicate 64 0) 0) ((List.range c.h).drop c.row) (rcv.tick.updChannel 5 fun c => { c with busy := some 1 })).2 = true) ∧
      ((rcv.updPly 1 fun y => { y with state := .quiesced }).ply 1).state = .quiesced := by decide +kernel

/-! ### Touch and haptics -/

/-- A configuration block: 60 scans/s, CDC 8, one frequency, thresholds 100 and 60, DRIFT_N 8. -/
def touchBlock : List Byte :=
  desc [(0, 1, 1), (1, 1, 60), (2, 1, 8), (3, 1, 2), (4, 2, 1), (6, 2, 1), (8, 2, 192), (24, 2, 100), (26, 2, 60), (28, 2, 40), (30, 2, 20), (32, 1, 8), (33, 1, 2), (34, 1, 8)] ++ List.replicate 64 0
/-- Panel 0 of ply 1: 2 drives by 2 senses; changed by `f`, with TCH_CMD's state `g`. -/
def sensing (f : Panel → Panel) (g : Touch → Touch) : State :=
  (world.onDev fun d => ((d.setBoth 0x19000 (0x81000000 + 2 * 256)).setBoth 0x19004 2)).updTouch fun t => g { t with panels := upd t.panels 0 f }
/-- A TCH_CONFIG; a panel idle with a block in force and with one that comes; one at the end of a scan; contacts before and after their 30 s. -/
theorem witness_TouchScanResults :
    let node : Node := { base := 1000, touched := false, suspect := false, above := 0, sum := 0 }
    let idle := (sensing (fun x => { x with cfg := some touchBlock }) id).heldScans
    let scan := sensing (fun x => { x with cfg := some touchBlock, scan := some { start := 0, entries := [0], recap := false, done := none }, nodes := List.replicate 4 node, drift := 6 }) id
    let held := fun t => sensing (fun x => { x with contacts := [{ id := 1, x := 0, y := 0, strength := 0, size := 1, suspect := false, told := true, since := 0, persist := t }] }) id
    (world.dev.islandOn 23 && ((withDesc (desc [(0, 1, 0x60)])).ready 1 0 0x60).isSome && idle.dev.panelValid 0 && (idle.panel 0).scan.isNone && idle.dev.touch.running.isNone &&
        (idle.panel 0).next.isNone && (idle.panel 0).cfg == some touchBlock && tcFlag touchBlock 0 && !tcFlag (0 :: touchBlock.drop 1) 0) = true ∧
      (holds (scan.panel 0).scan fun c => c.entries.length == 1 && !c.recap && (scan.panel 0).nodes.length == scan.dev.drives 0 * scan.dev.senses 0 &&
        decide ((scan.panel 0).drift + 1 < byteAt touchBlock 34)) = true ∧
      ([1000000, 1000001].all fun t => holds (((held t).panel 0).contacts.find? (·.id == 1)) fun c => decide (c.persist ≤ (held t).dev.devtime) == (t == 1000000)) = true := by decide +kernel
/-- Panel 1 is the class A panel, its results there or not yet; panel 0 has no class A panel beside it. -/
theorem witness_TouchScanResults_order :
    let two := fun t0 => (sensing id fun t => { t with panels := upd t.panels 1 fun x => { x with cfg := some touchBlock, scan := some { start := t0, entries := [0], recap := false, done := none } } }).onDev
      fun d => (d.setBoth 0x19010 (0xC1000000 + 512)).setBoth 0x19014 2
    (two 0).dev.classAScanned 0 = true ∧ (two 0).dev.classAScanned 1 = false ∧ (two 1000000).dev.classAScanned 0 = false := by decide +kernel
/-- A panel with no contact and one with a contact, a class A one whose owner is ACTIVE, one that the policy does not give; each command running; WATCH with the
wake gesture on, and off. -/
theorem witness_TouchCommandResults :
    let busy := fun k => sensing id fun t => { t with running := some (k, 0) }
    let classA := (sensing id id).onDev fun d => d.setBoth 0x19000 (0xC1000000 + 512)
    let watch := (sensing id fun t => { t with blocked := false }).onDev fun d => { d.setBoth 0x19048 0x84000000 with power := { d.power with state := .watch } }
    (world.dev.islandOn 23 && world.dev.isManager 0 && !world.dev.isManager 1 && (sensing id id).dev.touch.running.isNone && (sensing id id).dev.panelValid 0 && !(sensing id id).dev.panelValid 1 &&
        !(sensing id id).dev.panelClassA 0 && ((sensing id id).panel 0).contacts.isEmpty) = true ∧
      (classA.dev.panelClassA 0 && (classA.dev.ply (classA.dev.panelOwner 0)).state == .active) = true ∧
      ([TchCmd.selftest, .refStore].all fun k => (busy k).dev.touch.running == some (k, 0)) = true ∧
      (watch.dev.power.state == .watch && watch.dev.slpclk && watch.dev.power.vaonOk && bit (watch.dev.reg 0x19048) 31 && fld (watch.dev.reg 0x19048) 27 26 == 1 && !watch.dev.touch.blocked) = true := by
  decide +kernel
/-- An effect of one sample and ENERGY 25. -/
def click : Effect := { energy := 25, brakeMs := 1, samples := [16384] }
/-- Channel 0 enabled with the click in slot 0, changed by `f`. -/
def buzzing (on : Bool) (f : HapChan → HapChan) : State :=
  (world.onDev fun d => (d.setBoth 0x1A000 (bit1 on * 2 ^ 31 + 16)).setBoth 0x1A008 0x10000000).updHap 0 fun x => f { x with pool := put x.pool 0 (some click) }
/-- R411's worked burst: a click of ENERGY 25 at gain 0x2D41 needs 13 credits. -/
theorem test_hapticCost : click.cost 0x2D41 = 13 := by decide +kernel
/-- HAP_PLAY; HAP_LOAD of a record in order, out of order, and past the pool; a bound pin's edge, with its slot full or empty. -/
theorem witness_HapticTriggerResults :
    let record : List Byte := bytesOf 2 1 ++ bytesOf 2 25 ++ [1] ++ List.replicate 11 0 ++ bytesOf 2 16384
    let load := block false (ply1 .b (ring0 [{ flight .parsed (desc [(0, 1, 0x51), (48, 4, 18)]) with block := record }]))
    let pin := fun v => (buzzing true id).onDev fun d => d.setBoth 0x1A100 v
    (((withDesc (desc [(0, 1, 0x50)])).ready 1 0 0x50).isSome && holds (load.ready 1 0 0x51) fun f => hapRecord f.block (le32 f.bytes 48) == some { click with samples := [16384] } &&
        decide ((load.hap f.hapChan).sizeWith f.hapSlot click ≤ 16384) && (hapRecord [] 18).isNone) = true ∧
      (let w := (pin 0x80000000).dev.reg 0x1A100; bit w 31 && bit w 30 == false && fld w 29 27 == 0 && fld w 26 22 == 0 && ((at' ((pin 0x80000000).hap 0).pool 0).isSome)) = true ∧
      (let w := (pin 0x80400000).dev.reg 0x1A100; bit w 31 && fld w 26 22 == 1 && ((at' ((pin 0x80400000).hap 0).pool 1).isNone)) = true := by decide +kernel
theorem witness_HapticTriggerResults_full :
    let big : Effect := { click with samples := List.replicate 1200 0 }
    let c : HapChan := { (world.hap 0) with pool := Vector.replicate 32 (some big) }
    16384 < c.sizeWith 0 click := by decide +kernel
/-- A lone trigger at a channel that is tripped, disabled, playing an effect of higher priority, idle with credits and without; a start that waits. -/
theorem witness_HapticStartResults :
    let t : Trigger := { src := .pin, slot := 0, prio := 3, gain := 0x4000 }
    let run : HapRun := { trig := { t with prio := 4 }, effect := click, drawn := 25, braking := false, k := 0, total := 0, energy := 0, stop := false }
    let s := buzzing true fun x => { x with arrivals := [t] }
    let poor := s.onSkein fun k => k.setAcct .hap { k.acct .hap with free := 0 }
    let wait := buzzing true fun x => { x with wait := some { trig := t, effect := click, since := 0, place := 0 } }
    (world.dev.islandOn 23 && (s.hap 0).arrivals == [t] && (s.hap 0).trips.isEmpty && s.dev.hapEnabled 0 && at' (s.hap 0).pool 0 == some click && (s.hap 0).wait.isNone && (s.hap 0).run.isNone &&
        s.dev.hapPlaces.isEmpty && (s.skein.takeHap 0 (click.cost 0x4000)).isSome && (poor.skein.takeHap 0 (click.cost 0x4000)).isNone) = true ∧
      (!(buzzing false id).dev.hapEnabled 0 && ((buzzing true fun x => { x with trips := [(1, 0)] }).hap 0).trips == [(1, 0)] &&
        ((buzzing true fun x => { x with run := some run }).hap 0).run == some run && decide (t.prio < run.trig.prio)) = true ∧
      (holds (wait.hap 0).wait fun w => decide (wait.dev.devtime < w.since + 2000000) && decide (w.since + 2000000 ≤ (wait.onDev fun d => { d with devtime := 2000000 }).dev.devtime)) = true := by
  decide +kernel
/-- A drive at its last sample and before it, braking likewise; EN_HOLD running out; a trip due. -/
theorem witness_HapticPhaseResults :
    let t : Trigger := { src := .pin, slot := 0, prio := 3, gain := 0x4000 }
    let run := fun b k => buzzing true fun x => { x with run := some { trig := t, effect := click, drawn := 25, braking := b, k := k, total := 0, energy := 0, stop := false } }
    let held := fun n => buzzing true fun x => { x with holding := some n }
    ([(false, 7), (false, 8), (true, 95), (true, 96)].all fun x => holds ((run x.1 x.2).hap 0).run fun r => r.braking == x.1 && r.k == x.2 && 8 * r.effect.samples.length == 8 && 96 * r.effect.brakeMs == 96) = true ∧
      ([95, 96].all fun n => ((held n).hap 0).holding == some n && 96 * fld ((held n).dev.hapReg 0 0) 7 4 == 96) = true ∧
      ((buzzing true fun x => { x with due := some 1 }).hap 0).due = some 1 ∧ (world.hap 0).due = none ∧ world.dev.isManager 0 = true := by decide +kernel

/-! ### Frames and single rules -/

/-- A store, an atomic and a COPY that change DRAM, and a byte that they do not touch; the command that keeps it. -/
theorem witness_frames :
    mayChangeDram (.nop 1 0) = false ∧ world.dev.xlat 1 5 true = .ok (1024 * 65536 + 5) 7 ∧ world.dev.xlat 1 65536 true = .ok (1025 * 65536) 7 ∧
      ((withDesc (desc [(0, 1, 0x10), (40, 8, 128), (48, 4, 64)])).running 1 0 0x10 0).isSome = true ∧ (issued (computing (insWord 2 0x01 (4 * 2 ^ 40 + 1 * 2 ^ 32 + 2 * 2 ^ 24 + 2 * 2 ^ 21))) 0 0 2 0x01).isSome = true := by
  decide +kernel
/-- A write that waits for byte 64 of granule 1024. -/
def byteWrite : McReq := { request (some (0, [1])) with addr := 1024 * 65536 + 64 }
@[inherit_doc byteWrite] def waitingWrite : State := world.updChan 3 fun c => { c with queue := [byteWrite] }
/-- That byte is written to; byte 0 is not, by a store of 4 bytes at 128 either. -/
theorem witness_QueuedFor : QueuedFor waitingWrite 7 (1024 * 65536 + 64) :=
  ⟨3, byteWrite, by decide +kernel, 0, [1], rfl, rfl, 0, by decide, rfl⟩
theorem witness_Untouched : Untouched waitingWrite 1 [128] 4 7 (1024 * 65536) := by
  have stored : ∀ j : Fin 4, waitingWrite.dev.xlat 1 (128 + j.val) true = .ok (1024 * 65536 + 128 + j.val) 7 := by decide +kernel
  have queues : ∀ ch, (at' waitingWrite.dev.mc.chans ch).queue = if ch = 3 then [byteWrite] else [] := by decide +kernel
  rintro k a (⟨x, hx, j, hj, h⟩ | ⟨ch, r, hr, off, bs, hw, hk, j, hj, ha⟩)
  · simp only [List.mem_singleton] at hx
    rw [hx, stored ⟨j, hj⟩] at h
    injection h with h
    omega
  · rw [queues] at hr
    split at hr <;> simp only [List.mem_singleton, List.not_mem_nil] at hr
    subst hr
    injection hw with hw
    injection hw with ho hb
    subst ho hb
    simp only [byteWrite, request, List.length_singleton] at ha hj
    omega
/-- A pass that owes a page, with 2 pages and with fewer, at BIN_MAX and below it with credits. -/
theorem witness_PartialRenderStartsWhenPagesRunOut :
    let s := fun pages max => reading (fun j => { j with pass := some { passOne with binning := true, owe := some [[]], pages := pages, binMax := max } }) [0]
    ([(2, 2), (1, 1), (2, 0)].all fun x => holds ((s x.1 x.2).dev.passOf 0) fun pa => pa.owe == some [[]] && pa.pages == x.1 && pa.binMax == x.2) = true ∧
      ((s 2 0).skein.take .bin (plyHolder 1) 1).isSome = true := by decide +kernel
/-- VAON off with a count below its top and at it. -/
theorem witness_SupplyFallsAndRises :
    ([0, 0xFFFFFE, 0xFFFFFF].all fun n => let s := State.reset.onDev fun d => { d with power := { d.power with vaonOk := false }, ccn := { d.ccn with pwrcyc := n } }
      !s.dev.power.vaonOk && s.dev.ccn.pwrcyc == n) = true := by decide +kernel
/-- Requests of each kind: reserved, promoted, plain; R264's example climbs from 0 to 6. -/
theorem witness_UrgencyOfRequests :
    let s := world.onDev fun d => d.setBoth (0x16040 + 4 * 5) 2000
    (([0, 499, 500, 1000, 1500, 2000, 2500, 3000, 9000].map fun a => s.dev.urgency { request none with port := 5, accepted := 1000000 - a }) = [0, 0, 1, 2, 3, 4, 5, 6, 6]) ∧
      s.dev.urgency { request none with reserved := true } = 7 ∧
      (let q := (List.range 17).map fun i => { request none with id := i }
       (q.map (·.id)).Nodup ∧ (q.filter fun r => r.promoted && s.dev.wantsPromotion r).length ≤ 16) := by decide +kernel
/-- A node that is high for three scans running, and one that is not. -/
theorem witness_RebaselineAfterThreeScans :
    let x : Node := { base := 100, touched := false, suspect := true, above := 0, sum := 0 }
    (((x.scan 10 5 200).scan 10 5 201).scan 10 5 202).base = 202 ∧ (((x.scan 10 5 200).scan 10 5 100).scan 10 5 202).base = 100 := by decide +kernel
/-- A LAYER that passes its checks: the 4K layer unscaled, and the ratios' own row at both ends of its range. -/
theorem witness_AcceptedLayersScaleWithinBounds :
    let b := fun w h dw dh => (layer4k 0).take 64 ++ ([0, 0, w, h, 0, 0, dw, dh].flatMap fun v => bytesOf 2 v) ++ List.replicate 48 0
    blkScaleOk 0x17 (b 800 800 100 12800) = true ∧ blkScaleOk 0x17 (b 801 800 100 12800) = false ∧ blkScaleOk 0x18 (b 800 800 100 12800) = false := by decide +kernel
end Sys2Proof.Tests
end

namespace Sys2Proof.Machine
open Sys2Proof.Claims

/-! Rules of the shared operations -/

/-- While the clocked part runs, a clocked row has its effect (R425). -/
theorem State.clocked_of_runs {s : State} (hr : Runs s) (f : State → Res) : s.clocked f = f s := if_pos hr

theorem fin?_eq_some {n v : Nat} {i : Fin n} (h : v = i.val) : fin? n v = some i := by
  subst h
  exact dif_pos i.isLt

theorem fin?_eq_none {n v : Nat} (h : n ≤ v) : fin? n v = none := dif_neg (Nat.not_lt.mpr h)

theorem State.updPort_ely (s : State) (q : Fin 4) (f : Port → Port) : (s.updPort q f).dev.ely = s.dev.ely := rfl

/-! REGISTER_WRITE, by the region of the address -/
section RegisterWrite
variable {q : Fin 4} {off : Nat} {v : Word} {s : State}

/-- Registers are 32 bits wide: an address off the word grid names none (R17). -/
theorem registerWrite_offGrid (hr : Runs s) (hg : off % 4 ≠ 0) (bar2 : Bool) : Answers (.registerWrite q bar2 off v) s s := by
  simp only [Answers, exec_registerWrite, execRegisterWrite, State.clocked_of_runs hr, if_pos hg]

/-- A page of BAR2 takes the write if it is open to the port (R38). -/
theorem registerWrite_page (q : Fin 4) (v : Word) (hr : Runs s) (hg : off % 4 = 0) {p : Fin 64} (hp : off / 4096 = p.val) :
    Answers (.registerWrite q true off v) s (if s.dev.pageOpen q p then s.updPly p fun y => y.writePage (off % 4096) v.toNat else s) := by
  simp [Answers, execRegisterWrite, State.clocked_of_runs hr, hg, fin?_eq_some hp]

/-- Above the page of ply 63, BAR2 holds no register (R17, R37). -/
theorem registerWrite_beyondPages (hr : Runs s) (hg : off % 4 = 0) (hp : 64 * 4096 ≤ off) : Answers (.registerWrite q true off v) s s := by
  have hnone : fin? 64 (off / 4096) = none := fin?_eq_none (by omega)
  simp [Answers, execRegisterWrite, State.clocked_of_runs hr, hg, hnone]

/-- A port writes its own port set-up region (R37). -/
theorem registerWrite_portRegion (hr : Runs s) (hg : off % 4 = 0) (hi : off < 0x10000) :
    Answers (.registerWrite q false off v) s (s.onDev fun d => d.writePort q off v.toNat) := by
  simp [Answers, execRegisterWrite, State.clocked_of_runs hr, hg, hi]

/-- The device set-up region takes the manager's writes only (R19); an output's registers have the samples up to now made first (R30). -/
theorem registerWrite_deviceRegion (q : Fin 4) (v : Word) (hr : Runs s) (hg : off % 4 = 0) (lo : 0x10000 ≤ off) (hi : off < 0x20000) :
    Answers (.registerWrite q false off v) s
      (if s.dev.isManager q then
        (if 0x18100 ≤ off ∧ off < 0x18300 then s.audioCatchUp else s).onDev fun d => d.writeDevice off v.toNat else s) := by
  have hport : ¬ off < 0x10000 := by omega
  simp [Answers, execRegisterWrite, State.clocked_of_runs hr, hg, hport, hi]

/-- The mailbox of a present port (R294, R322). -/
theorem registerWrite_mailbox (hr : Runs s) (hg : off % 4 = 0) (lo : 0x20000 ≤ off) (hi : off < 0x20418) :
    Answers (.registerWrite q false off v) s (if s.dev.portPresent q then s.onDev fun d => d.writeMbx q off v.toNat else s) := by
  have hport : ¬ off < 0x10000 := by omega
  have hdev : ¬ off < 0x20000 := by omega
  simp [Answers, execRegisterWrite, State.clocked_of_runs hr, hg, hport, hdev, hi]

/-- Above the mailbox's registers, BAR0 holds none (R17, R37). -/
theorem registerWrite_beyondMailbox (hr : Runs s) (hg : off % 4 = 0) (lo : 0x20418 ≤ off) : Answers (.registerWrite q false off v) s s := by
  have hport : ¬ off < 0x10000 := by omega
  have hdev : ¬ off < 0x20000 := by omega
  have hmbx : ¬ off < 0x20418 := by omega
  simp [Answers, execRegisterWrite, State.clocked_of_runs hr, hg, hport, hdev, hmbx]

end RegisterWrite

/-! Reads and writes with an effect of their own -/

theorem sknAuditRelease_answers {s : State} (hr : Runs s) (q : Fin 4) :
    Answers (.sknAuditRelease q) s (if s.dev.isManager q then s.onSkein fun k => { k with held := false } else s) := by
  rw [Answers, exec_sknAuditRelease, execSknAuditRelease, State.clocked_of_runs hr]
  split <;> rfl

theorem sknAuditEpochLoRead_answers {s : State} (hr : Runs s) (q : Fin 4) (hi : Bool) :
    Answers (.sknAuditEpochLoRead ⟨q, hi⟩) s (s.readPair q 0x4004 s.skein.auditEpoch hi) := by
  rw [Answers, exec_sknAuditEpochLoRead, execSknAuditEpochLoRead, State.clocked_of_runs hr]

theorem portEvtData7Read_answers {s : State} (hr : Runs s) (q : Fin 4) :
    Answers (.portEvtData7Read q) s
      ((s.updPort q fun pt => { pt with evtLog := pt.evtLog.drop 1 }).emit (.regValue q 0x302C (word ((s.port q).evtWord 7)))) := by
  rw [Answers, exec_portEvtData7Read, execPortEvtData7Read, State.clocked_of_runs hr]

theorem portEvtStatusRead_answers {s : State} (hr : Runs s) (q : Fin 4) :
    Answers (.portEvtStatusRead q) s
      ((s.updPort q fun pt => { pt with evtLost := 0 }).emit (.regValue q 0x3004 (word (s.port q).evtStatus))) := by
  rw [Answers, exec_portEvtStatusRead, execPortEvtStatusRead, State.clocked_of_runs hr]

theorem registerAccessResults : RegisterAccessResults := by
  intro q s off v hr
  refine ⟨registerWrite_offGrid hr, fun hg => ⟨?page, ?closed, registerWrite_beyondPages hr hg, registerWrite_portRegion hr hg,
    ?device, ?outputs, ?notManager, registerWrite_mailbox hr hg, registerWrite_beyondMailbox hr hg⟩, ?release, ?keepsHeld,
    sknAuditEpochLoRead_answers hr q false, sknAuditEpochLoRead_answers hr q true, portEvtData7Read_answers hr q, portEvtStatusRead_answers hr q⟩
  case page =>
    intro p hp ho
    simpa only [if_pos ho] using registerWrite_page q v hr hg hp
  case closed =>
    intro p hp hc
    simpa [hc] using registerWrite_page q v hr hg hp
  case device =>
    intro lo hi hm ho
    have hrange : ¬ (0x18100 ≤ off ∧ off < 0x18300) := by omega
    simpa only [if_pos hm, if_neg hrange] using registerWrite_deviceRegion q v hr hg lo hi
  case outputs =>
    intro lo hi hm
    simpa only [if_pos hm, if_pos (And.intro lo hi)] using registerWrite_deviceRegion q v hr hg (by omega) (by omega)
  case notManager =>
    intro lo hi hm
    simpa [hm] using registerWrite_deviceRegion q v hr hg lo hi
  case release =>
    intro hm
    simpa only [if_pos hm] using sknAuditRelease_answers hr q
  case keepsHeld =>
    intro hm
    simpa [hm] using sknAuditRelease_answers hr q

/-! Requests and responses -/

/-- REQ_PROD moves to a new index: the requests up to it that find one of the 8 slots after REQ_CONS are offered to Elytra, the others are discarded
and counted at once and left for REQ_CONS to pass over (R296; log entry 34). -/
def State.offerRequests (s : State) (q : Fin 4) (v : Word) : State :=
  let m := (s.port q).mbx
  let fresh := (List.range (idxDiff (v.toNat % 65536) m.reqProd)).map fun i => (m.reqProd + i) % 65536
  let bad := fresh.filter fun i => !decide (idxDiff i m.reqCons < 8)
  (s.updPort q fun pt => { pt with mbx := { pt.mbx with
      reqProd := v.toNat % 65536, skipped := pt.mbx.skipped ++ bad, dropped := min 0xFFFF (pt.mbx.dropped + bad.length) } }).onDev fun d =>
    { d with ely := { d.ely with inbox := d.ely.inbox ++ (fresh.filter fun i => decide (idxDiff i m.reqCons < 8)).map fun _ => q } }

/-- An absent port has no mailbox to offer from (R322). -/
theorem mbxReqProdWrite_answers {s : State} (hr : Runs s) (q : Fin 4) (v : Word) :
    Answers (.mbxReqProdWrite q v) s (if s.dev.portPresent q then s.offerRequests q v else s) := by
  cases hp : s.dev.portPresent q <;> simp [Answers, execMbxReqProdWrite, State.clocked_of_runs hr, hp, State.offerRequests]

theorem mbxRspConsWrite_answers {s : State} (hr : Runs s) (q : Fin 4) (v : Word) :
    Answers (.mbxRspConsWrite q v) s
      (if s.dev.portPresent q then s.updPort q fun pt => { pt with mbx := { pt.mbx with rspCons := v.toNat % 65536 } } else s) := by
  cases hp : s.dev.portPresent q <;> simp [Answers, execMbxRspConsWrite, State.clocked_of_runs hr, hp]

/-- The journal entry of the request at REQ_CONS of port `q` (R296). -/
def State.nextRequest (s : State) (q : Fin 4) : Journal :=
  let m := (s.port q).mbx
  { order := s.dev.ely.nextOrder, port := q, slot := m.slot m.reqCons, begun := false, mark := 0, mute := false }

/-- That request is taken: `rest` is what still waits, and REQ_CONS advances (R296). -/
def State.takeRequest (s : State) (q : Fin 4) (rest : List (Fin 4)) : State :=
  (s.onDev fun d => { d with ely := { d.ely with inbox := rest, nextOrder := s.dev.ely.nextOrder + 1 } }).updPort q fun pt =>
    { pt with mbx := pt.mbx.advance }

/-- The mailbox hardware answers a request with a status alone (R297). -/
def State.refuseRequest (s : State) (j : Journal) (status : Nat) : State :=
  s.respond j.port { order := j.order, cmd := j.code, irq := j.irq, tag := j.tag, status := status, result := [] }

/-- A request joins the journal (R296). -/
def State.journalRequest (s : State) (j : Journal) : State :=
  s.onDev fun d => { d with ely := { d.ely with journal := d.ely.journal ++ [j] } }

@[simp] theorem State.takeRequest_state (s : State) (q : Fin 4) (rest : List (Fin 4)) : (s.takeRequest q rest).dev.ely.state = s.dev.ely.state := rfl
@[simp] theorem State.takeRequest_romMode (s : State) (q : Fin 4) (rest : List (Fin 4)) : (s.takeRequest q rest).dev.ely.romMode = s.dev.ely.romMode := rfl
@[simp] theorem State.takeRequest_cmdMap (s : State) (q : Fin 4) (rest : List (Fin 4)) : (s.takeRequest q rest).dev.ely.cmdMap = s.dev.ely.cmdMap := rfl
@[simp] theorem State.takeRequest_entries (s : State) (q : Fin 4) (rest : List (Fin 4)) : (s.takeRequest q rest).dev.ely.entries = s.dev.ely.entries := rfl

/-- What becomes of a taken request, `fetched` being the word at its entry's address (R297, R299, R301, R316, R317). -/
def State.serveRequest (s : State) (j : Journal) (fetched : Word) : State :=
  match s.dev.ely.state with
  | .halted => s.refuseRequest j mbHalted
  | .restarting => s.refuseRequest j mbBusy
  | .rom => if s.dev.ely.romMode && (j.code == 0x01 || j.code == 0x02) then s.journalRequest j else s.refuseRequest j mbBusy
  | .running =>
    match Map.find s.dev.ely.cmdMap j.code with
    | none => s.refuseRequest j mbUnknown
    | some e =>
      if Map.get s.dev.ely.entries 1 e % 4 = 0 ∧ fetched = gateWord e then s.journalRequest j
      else (s.restartElytra 0x3).refuseRequest j mbBusy

/-- MBX_REQUEST_TAKE takes the request at the front of the inbox and serves it. -/
theorem mbxRequestTake_answers {s : State} (hr : Runs s) {q : Fin 4} {rest : List (Fin 4)} (hin : s.dev.ely.inbox = q :: rest) (fetched : Word) :
    Answers (.mbxRequestTake fetched) s ((s.takeRequest q rest).serveRequest (s.nextRequest q) fetched) := by
  rw [Answers, exec_mbxRequestTake, execMbxRequestTake, State.clocked_of_runs hr, State.serveRequest, State.takeRequest_state]
  simp only [hin, State.updPort_ely, State.onDev_dev]
  cases s.dev.ely.state with
  | halted => rfl
  | restarting => rfl
  | rom => exact (apply_ite Host.Outcome.next _ _ _).symm
  | running =>
    rw [State.takeRequest_cmdMap]
    cases hfind : Map.find s.dev.ely.cmdMap (s.nextRequest q).code with
    | none =>
      rw [State.nextRequest] at hfind
      simp only [hfind]
      rfl
    | some e =>
      rw [State.nextRequest] at hfind
      simp only [hfind]
      exact (apply_ite Host.Outcome.next _ _ _).symm

section ServeRequest
variable {s : State} {j : Journal} {fetched : Word}

theorem State.serveRequest_halted (h : s.dev.ely.state = .halted) : s.serveRequest j fetched = s.refuseRequest j mbHalted := by
  simp only [State.serveRequest, h]

theorem State.serveRequest_restarting (h : s.dev.ely.state = .restarting) : s.serveRequest j fetched = s.refuseRequest j mbBusy := by
  simp only [State.serveRequest, h]

/-- The ROM serves ELY_INFO and CONTAINER_LOAD, in ROM mode only (R297). -/
theorem State.serveRequest_rom (h : s.dev.ely.state = .rom) :
    s.serveRequest j fetched =
      if s.dev.ely.romMode = true ∧ (j.code = 0x01 ∨ j.code = 0x02) then s.journalRequest j else s.refuseRequest j mbBusy := by
  simp only [State.serveRequest, h, Bool.and_eq_true, Bool.or_eq_true, beq_iff_eq]

theorem State.serveRequest_unmapped (h : s.dev.ely.state = .running) (hfind : Map.find s.dev.ely.cmdMap j.code = none) :
    s.serveRequest j fetched = s.refuseRequest j mbUnknown := by
  simp only [State.serveRequest, h, hfind]

/-- A mapped code joins the journal through its entry's GATE instruction; without it Elytra restarts (R301, R316). -/
theorem State.serveRequest_mapped (h : s.dev.ely.state = .running) {e : Nat} (hfind : Map.find s.dev.ely.cmdMap j.code = some e) :
    s.serveRequest j fetched =
      if Map.get s.dev.ely.entries 1 e % 4 = 0 ∧ fetched = gateWord e then s.journalRequest j else (s.restartElytra 0x3).refuseRequest j mbBusy := by
  simp only [State.serveRequest, h, hfind]

end ServeRequest

/-- The response `r` is written into the slot at RSP_PROD, which advances; `rest` is what still waits (R296). -/
def State.writeResponse (s : State) (q : Fin 4) (r : MbxResponse) (rest : List MbxResponse) : State :=
  let m := (s.port q).mbx
  let slots := (List.range 16).foldl (fun t k => Map.ins t (16 * (m.rspProd % 8) + k) (word (le32 r.bytes (4 * k)))) m.rsp
  s.updPort q fun pt => { pt with mbx := { pt.mbx with rsp := slots, rspProd := (m.rspProd + 1) % 65536, ready := rest } }

theorem State.writeResponse_regs (s : State) (q : Fin 4) (r : MbxResponse) (rest : List MbxResponse) :
    ((s.writeResponse q r rest).port q).regs = (s.port q).regs := by
  simp only [State.writeResponse, State.port_updPort_self]

/-- While fewer than 8 responses are unread the first one that is ready goes out, with MSI-X where MBX_CTL and the request ask for it (R296). -/
theorem mbxResponse_answers {s : State} (hr : Runs s) {q : Fin 4} {r : MbxResponse} {rest : List MbxResponse} (hready : (s.port q).mbx.ready = r :: rest)
    (hroom : idxDiff (s.port q).mbx.rspProd (s.port q).mbx.rspCons < 8) :
    let ctl := (Map.get (s.port q).regs 0 0x20400).toNat
    Answers (.mbxResponse q) s
      (if bit ctl 31 = true ∧ r.irq = true then (s.writeResponse q r rest).onDev fun d => d.sendMsix q (fld ctl 8 0) else s.writeResponse q r rest) := by
  have hfull : ¬ 8 ≤ idxDiff (s.port q).mbx.rspProd (s.port q).mbx.rspCons := Nat.not_le.mpr hroom
  rw [← State.writeResponse_regs s q r rest]
  simp only [Answers, exec_mbxResponse, execMbxResponse, State.clocked_of_runs hr, hready, if_neg hfull, Bool.and_eq_true]
  rfl

theorem mailboxResults : MailboxResults := by
  intro q s hr
  refine ⟨fun v => ⟨?absent, ?present⟩, fun fetched rest hin => ?take, fun r rest hready hroom => ⟨?quiet, ?interrupt⟩, State.clocked_of_runs hr _⟩
  case absent =>
    intro hp
    have hprod := mbxReqProdWrite_answers hr q v
    have hcons := mbxRspConsWrite_answers hr q v
    simp only [hp, Bool.false_eq_true, if_false] at hprod hcons
    exact ⟨hprod, hcons⟩
  case present =>
    intro hp
    have hprod := mbxReqProdWrite_answers hr q v
    have hcons := mbxRspConsWrite_answers hr q v
    rw [if_pos hp] at hprod hcons
    exact ⟨hprod, hcons⟩
  case take =>
    have hserve := mbxRequestTake_answers hr hin fetched
    have hstate := State.takeRequest_state s q rest
    refine ⟨fun hst => ?halted, fun hst => ?restarting, fun hst => ⟨fun hfind => ?unmapped, fun e hfind => ⟨fun hgate => ?gate, fun hgate => ?noGate⟩⟩,
      fun hst => ⟨fun hmode hcode => ?served, fun hrefused => ?refused⟩⟩
    case halted => rwa [State.serveRequest_halted (hstate.trans hst)] at hserve
    case restarting => rwa [State.serveRequest_restarting (hstate.trans hst)] at hserve
    case unmapped => rwa [State.serveRequest_unmapped (j := s.nextRequest q) (hstate.trans hst) hfind] at hserve
    case gate => rwa [State.serveRequest_mapped (j := s.nextRequest q) (hstate.trans hst) hfind, State.takeRequest_entries, if_pos hgate] at hserve
    case noGate =>
      rwa [State.serveRequest_mapped (j := s.nextRequest q) (hstate.trans hst) hfind, State.takeRequest_entries, if_neg (not_and_or.mpr hgate)] at hserve
    case served =>
      have hyes : s.dev.ely.romMode = true ∧ ((s.nextRequest q).code = 0x01 ∨ (s.nextRequest q).code = 0x02) := ⟨hmode, hcode⟩
      rwa [State.serveRequest_rom (hstate.trans hst), State.takeRequest_romMode, if_pos hyes] at hserve
    case refused =>
      have hno : ¬ (s.dev.ely.romMode = true ∧ ((s.nextRequest q).code = 0x01 ∨ (s.nextRequest q).code = 0x02)) := by
        rw [not_and_or, not_or, Bool.not_eq_true]
        exact hrefused
      rwa [State.serveRequest_rom (hstate.trans hst), State.takeRequest_romMode, if_neg hno] at hserve
  case quiet =>
    intro hirq
    have hno : ¬ (bit (Map.get (s.port q).regs 0 0x20400).toNat 31 = true ∧ r.irq = true) := by
      rw [not_and_or, Bool.not_eq_true, Bool.not_eq_true]
      exact hirq
    have hout := mbxResponse_answers hr hready hroom
    simp only [if_neg hno] at hout
    exact hout
  case interrupt =>
    intro hctl hirq
    have hout := mbxResponse_answers hr hready hroom
    simp only [if_pos (And.intro hctl hirq)] at hout
    exact hout

/-- Settles O34: it holds, each clause by the lemma of its row. Two things in it are the model's choice and not the manual's words: REQ_CONS passes over
a discarded request, which is counted when it is offered (log entry 34), and each register or mailbox access is one command (log entry 80). -/
theorem registerAndMailboxResults : Obligations.RegisterAndMailboxResults := ⟨registerAccessResults, mailboxResults⟩

end Sys2Proof.Machine

namespace Sys2Proof.Machine
open Sys2Proof.Claims

/-! Time: the idle step, the epoch boundary and the adoption of ring time (R27, R31, R50, R352) -/
section Time
variable {s : State}

theorem step_of_empty_queue (h : s.pending = []) : step s = .next s.idle := by simp only [step, h]

/-- Where the next REFCLK0 cycle ends on a multiple of 500,000 ns, that is the next one (R27, R31). -/
theorem nextEpoch_eq_of_onGrid {now : Nat} (h : (now + 10) % 500000 = 0) : (now / 500000 + 1) * 500000 = now + 10 := by omega

theorem epochBoundary_answers (hr : Runs s) (io : AudioIn) :
    Answers (.epochBoundary io) s (s.boundaryAt ((s.dev.devtime / 500000 + 1) * 500000) io) := by
  rw [Answers, exec_epochBoundary, execEpochBoundary, State.clocked_of_runs hr]

theorem whlAdopt_answers_none (hr : Runs s) (io : AudioIn) (h : s.dev.whorl.adopt = none) : Answers (.whlAdopt io) s s := by
  simp only [Answers, exec_whlAdopt, execWhlAdopt, State.clocked_of_runs hr, h]

/-- Ring time `x` is adopted where it lies ahead; DEVTIME never goes back (R352). -/
theorem whlAdopt_answers_some (hr : Runs s) (io : AudioIn) {x : Nat} (h : s.dev.whorl.adopt = some x) :
    let u := s.updWhorl fun w => { w with adopt := none, timed := true }
    Answers (.whlAdopt io) s
      (if x ≤ s.dev.devtime then u
       else ((u.onDev fun d => d.keepIntervals (x - (s.dev.devtime / 500000 + 1) * 500000)).boundaryAt x io).whorlRepair 0xFF 0x6 s.dev.whorl.ringId 0) := by
  simp only [Answers, exec_whlAdopt, execWhlAdopt, State.clocked_of_runs hr, h]
  exact (apply_ite Host.Outcome.next _ _ _).symm

end Time

/-- Settles O2: it holds, by the three branches of the idle step. That an empty queue lets one REFCLK0 cycle pass is the model's choice (log entry 2),
and so is that the boundary on that edge has free audio samples (log entry 103). -/
theorem idleStepCountsTime : Obligations.IdleStepCountsTime := by
  intro s hq
  rw [step_of_empty_queue hq]
  refine ⟨fun hstill => ?still, fun hr hsame => ?within, fun hr hnext => ⟨?edge, fun hgrid => ?row⟩⟩
  case still => simp only [State.idle, hstill, Bool.not_false, if_true]
  case within =>
    simp only [State.idle, hr, Bool.not_true, Bool.false_eq_true, if_false, if_pos hsame]
    rfl
  case edge => simp only [State.idle, hr, Bool.not_true, Bool.false_eq_true, if_false, if_neg hnext]
  case row =>
    have hrow := epochBoundary_answers (s := s.onDev fun d => { d with fresh := d.fresh + 8192 }) hr (AudioIn.free s.dev.fresh)
    rwa [State.onDev_dev, nextEpoch_eq_of_onGrid hgrid] at hrow

/-- Settles O35: it holds, by the rows EPOCH_BOUNDARY and WHL_ADOPT. Two things in it are the model's choice and not the manual's words: EPOCH_BOUNDARY
stands for all the REFCLK0 cycles up to the next multiple of 500,000 ns, after a jump of DEVTIME too (log entry 103), and an adoption time that is not
ahead clears the request (log entry 97). -/
theorem epochCommandResults : Obligations.EpochCommandResults := by
  intro io s hr
  refine ⟨epochBoundary_answers hr io, whlAdopt_answers_none hr io, fun x hx => ⟨fun hpast => ?past, fun hahead => ?ahead⟩⟩
  case past => simpa only [if_pos hpast] using whlAdopt_answers_some hr io hx
  case ahead =>
    have hout := whlAdopt_answers_some hr io hx
    simp only [if_neg (Nat.not_le.mpr hahead)] at hout
    exact hout

/-! What host traffic leaves alone: reads leave every ply, and a host write changes nothing of a ply but its dirty log (R125, R326) -/

theorem Dev.post_plies (d : Dev) (q : Fin 4) (o : Out) : (d.post q o).plies = d.plies := by
  simp only [Dev.post]
  split <;> rfl

theorem Dev.atcTouch_plies (d : Dev) (q : Fin 4) (pasid addr n : Nat) : (d.atcTouch q pasid addr n).plies = d.plies := by
  unfold Dev.atcTouch
  split
  · rfl
  · refine foldl_keeps (fun e => e.plies = d.plies) _ (fun e pg he => ?_) _ d rfl
    dsimp only
    split <;> exact he

theorem Dev.emitReads_plies (d : Dev) (q : Fin 4) (pasid : Nat) (rs : List (Nat × Nat)) : (d.emitReads q pasid rs).plies = d.plies :=
  foldl_keeps (fun e => e.plies = d.plies)
    (fun e x => (e.atcTouch q pasid x.1 x.2).emit (.hostRead q (e.port q).atsEn pasid x.1 x.2))
    (fun e x he => (Dev.atcTouch_plies e q pasid x.1 x.2).trans he) rs d rfl

theorem State.issueRead_plies (s : State) (r : HostRead) : (s.issueRead r).dev.plies = s.dev.plies := by
  unfold State.issueRead
  dsimp only
  split
  · rfl
  · split
    · exact Dev.emitReads_plies ..
    · rfl

theorem State.plyReads_plies (s : State) (p : Fin 64) (what : ReadFor) (rs : List (Nat × Nat)) : (s.plyReads p what rs).dev.plies = s.dev.plies :=
  foldl_keeps (fun t => t.dev.plies = s.dev.plies) _ (fun t _ ht => (State.issueRead_plies t _).trans ht) _ s rfl

/-- Every ply has the same submission rings in both. -/
def Dev.SameRings (d e : Dev) : Prop := ∀ p, (e.ply p).rings = (d.ply p).rings

theorem Dev.SameRings.of_plies {d e f : Dev} (h : d.SameRings e) (hp : f.plies = e.plies) : d.SameRings f := fun p =>
  (congrArg (fun v => (at' v p).rings) hp).trans (h p)

theorem Dev.SameRings.updPly {d e : Dev} (h : d.SameRings e) (p : Fin 64) {f : Ply → Ply} (hf : (f (e.ply p)).rings = (e.ply p).rings) :
    d.SameRings (e.updPly p f) := by
  intro x
  by_cases hx : x = p
  · rw [hx, Dev.ply_updPly_self, hf, h p]
  · rw [Dev.ply_updPly_ne _ _ hx, h x]

theorem Dev.logMark_sameRings {d e : Dev} (h : d.SameRings e) (p : Fin 64) (x : Nat × Nat × Nat) : d.SameRings (e.logMark p x) := by
  have hlog : ∀ (f : Dev) (l : DirtyLog), f.plies = e.plies → d.SameRings (f.updPly p fun y => { y with log := l }) := fun f l hf =>
    (h.of_plies hf).updPly p rfl
  unfold Dev.logMark
  dsimp only
  split
  · refine Dev.SameRings.of_plies (hlog _ _ ?_) (Dev.post_plies ..)
    split
    · rfl
    · split <;> rfl
  · refine hlog _ _ ?_
    split
    · rfl
    · split <;> rfl

theorem Dev.logWrite_sameRings (d : Dev) (p : Fin 64) (addr n : Nat) : d.SameRings (d.logWrite p addr n) := by
  unfold Dev.logWrite
  split
  · refine foldl_keeps d.SameRings _ (fun e pg he => ?_) _ d fun _ => rfl
    dsimp only
    split
    · exact he.updPly p rfl
    · exact foldl_keeps d.SameRings _ (fun f x hf => Dev.logMark_sameRings hf p x) _ e he
  · exact fun _ => rfl

theorem Dev.hostWrite_sameRings (d : Dev) (p : Fin 64) (event : Bool) (addr : Nat) (bs : List Byte) : d.SameRings (d.hostWrite p event addr bs) := by
  simp only [Dev.hostWrite]
  split
  · exact Dev.SameRings.of_plies (Dev.logWrite_sameRings d p addr bs.length) ((Dev.post_plies ..).trans (Dev.atcTouch_plies ..))
  · exact fun _ => rfl

/-! Rings after an update of one -/

@[simp] theorem State.ring_updRing_self (s : State) (p : Fin 64) (r : Fin 4) (f : SubRing → SubRing) : (s.updRing p r f).ring p r = f (s.ring p r) := by
  simp only [State.ring, State.updRing, State.ply_updPly_self, at'_upd_self]

theorem State.ring_updRing_ne (s : State) {p x : Fin 64} {r k : Fin 4} (f : SubRing → SubRing) (h : ¬ (x = p ∧ k = r)) :
    (s.updRing p r f).ring x k = s.ring x k := by
  by_cases hx : x = p
  · subst hx
    rw [State.ring, State.updRing, State.ply_updPly_self, at'_upd_ne _ _ fun hk => h ⟨rfl, hk⟩]
    rfl
  · rw [State.ring, State.updRing, State.ply_updPly_ne _ _ hx]
    rfl

/-- The same rings are polled in both. -/
def State.SamePolls (s t : State) : Prop := ∀ p r, (t.ring p r).poll = (s.ring p r).poll

theorem State.SamePolls.refl (s : State) : s.SamePolls s := fun _ _ => rfl

theorem State.SamePolls.of_rings {s t u : State} (h : s.SamePolls t) (hd : t.dev.SameRings u.dev) : s.SamePolls u := fun p r =>
  (congrArg (fun v => (at' v r).poll) (hd p)).trans (h p r)

theorem State.SamePolls.updRing {s t : State} (h : s.SamePolls t) (p : Fin 64) (r : Fin 4) {f : SubRing → SubRing} (hf : ∀ g, (f g).poll = g.poll) :
    s.SamePolls (t.updRing p r f) := by
  intro x k
  by_cases hxk : x = p ∧ k = r
  · rw [hxk.1, hxk.2, State.ring_updRing_self, hf, h p r]
  · rw [State.ring_updRing_ne _ _ hxk, h x k]

theorem State.SamePolls.plyReads {s t : State} (h : s.SamePolls t) (p : Fin 64) (what : ReadFor) (rs : List (Nat × Nat)) :
    s.SamePolls (t.plyReads p what rs) := h.of_rings (Dev.SameRings.of_plies (fun _ => rfl) (State.plyReads_plies t p what rs))

/-- A pass leaves which rings are polled. -/
theorem State.SamePolls.startPass {s t : State} (h : s.SamePolls t) (p : Fin 64) (r : Fin 4) : s.SamePolls (t.startPass p r) := by
  have hawake : s.SamePolls (t.writeAsleep p r false) := State.SamePolls.updRing (h.of_rings (Dev.hostWrite_sameRings t.dev p _ _ _)) p r fun _ => rfl
  simp only [State.startPass, State.readRecord]
  refine State.SamePolls.plyReads ?_ p _ _
  refine State.SamePolls.updRing ?_ p r fun _ => rfl
  refine State.SamePolls.updRing ?_ p r fun _ => rfl
  split
  · exact hawake
  · exact h


/-! Changes of one ring or ply are known by what they make of it -/

theorem State.updRing_congr {s : State} {p : Fin 64} {r : Fin 4} {f g : SubRing → SubRing} (h : f (s.ring p r) = g (s.ring p r)) :
    s.updRing p r f = s.updRing p r g := by
  have hrings : upd (s.ply p).rings r f = upd (s.ply p).rings r g := congrArg (put (s.ply p).rings r) h
  exact congrArg (fun rs => s.onDev fun d => { d with plies := put d.plies p { d.ply p with rings := rs } }) hrings

theorem State.updCq_congr {s : State} {p : Fin 64} {f g : CplRing → CplRing} (h : f (s.ply p).cq = g (s.ply p).cq) : s.updCq p f = s.updCq p g :=
  congrArg (fun c => s.onDev fun d => { d with plies := put d.plies p { d.ply p with cq := c } }) h

/-- A change of a ply is known by what it makes of that ply. -/
theorem State.updPly_congr {s : State} {p : Fin 64} {f g : Ply → Ply} (h : f (s.ply p) = g (s.ply p)) : s.updPly p f = s.updPly p g :=
  congrArg (fun y => s.onDev fun d => { d with plies := put d.plies p y }) h

/-- RING_CTL as written while the ring is disabled (R72, R73). -/
theorem State.updRing_setCtl_of_disabled {s : State} {p : Fin 64} {r : Fin 4} (hoff : (s.ring p r).enable = false) (cls : PlyClass) (v : Word) :
    (s.updRing p r fun g => g.setCtl cls v) = s.updRing p r fun g =>
      { g with log2Depth := fld v.toNat 15 12, poll := bit v.toNat 11 && cls == .a, vec := fld v.toNat 10 8, vecEn := bit v.toNat 7 } :=
  State.updRing_congr (if_neg (ne_true_of_eq_false hoff))

theorem State.updCq_setCtl_of_disabled {s : State} {p : Fin 64} (hoff : (s.ply p).cq.enable = false) (v : Word) :
    (s.updCq p fun c => c.setCtl v) = s.updCq p fun c => { c with log2Depth := fld v.toNat 15 12 } :=
  State.updCq_congr (if_neg (ne_true_of_eq_false hoff))

/-! Doorbells (R75, R78, R79) -/
section PlyPage
variable {q : Fin 4} {p : Fin 64} {s : State}

theorem nudgeCq_answers (ho : Open s q p) (hen : (s.ply p).cq.enable = true) :
    Answers (.nudgeCq q p) s (if (s.ply p).cq.reread = .none then s.wantCons p else s.updCq p fun c => { c with again := true }) := by
  obtain ⟨hr, hpage⟩ := ho
  rw [Answers, exec_nudgeCq, execNudgeCq, State.clocked_of_runs hr, if_pos ⟨hpage, hen⟩]

/-- The rings that the mask names and that are not polled start a pass in turn, or one more where a pass runs. -/
def State.nudgeRings (s : State) (p : Fin 64) (m : Fin 16) : State :=
  (allFin 4).foldl (fun u r =>
    if bit m.val r.val && (s.ring p r).runs && !(s.ring p r).poll then
      (if (u.ring p r).read = .idle ∨ (u.ring p r).read = .stalled then u.startPass p r else u.updRing p r fun g => { g with again := true })
    else u) s

theorem State.nudgeRings_samePolls (s : State) (p : Fin 64) (m : Fin 16) : s.SamePolls (s.nudgeRings p m) := by
  refine foldl_keeps s.SamePolls _ (fun t r ht => ?_) _ s (State.SamePolls.refl s)
  split
  · split
    · exact ht.startPass p r
    · exact ht.updRing p r fun _ => rfl
  · exact ht

/-- Where the mask names a polled ring the ply is polled besides. -/
theorem nudgeSq_answers (ho : Open s q p) (hin : s.intake p = true) (m : Fin 16) :
    Answers (.nudgeSq q p m) s
      (if (allFin 4).any fun r => bit m.val r.val && (s.ring p r).runs && (s.ring p r).poll then (s.nudgeRings p m).wantPoll p else s.nudgeRings p m) := by
  obtain ⟨hr, hpage⟩ := ho
  have hrings : s.each ((allFin 4).filter (fun r => bit m.val r.val && (s.ring p r).runs) |>.filter fun r => !(s.ring p r).poll) (fun s r =>
      if (s.ring p r).read = .idle ∨ (s.ring p r).read = .stalled then s.startPass p r else s.updRing p r fun g => { g with again := true }) =
      s.nudgeRings p m := by
    simp only [State.each, State.nudgeRings, List.foldl_filter, Bool.and_eq_true, ite_and]
  simp only [Answers, exec_nudgeSq, execNudgeSq, State.clocked_of_runs hr, hpage, hin, Bool.and_self, Bool.not_true, Bool.false_eq_true, if_false, hrings,
    List.any_filter, s.nudgeRings_samePolls p m p _]

/-! Setting up and disabling rings (R72-R74) -/

/-- RING_ENABLE of a submission ring: an enabled one is left; of the others the fields are taken, and the ring is enabled where its set-up is in order. -/
theorem ringEnable_submission_answers (ho : Open s q p) (r : Fin 4) (v : Word) :
    Answers (.ringEnable q p ⟨r.val, by omega⟩ v) s
      (if (s.ring p r).enable then s else
        let u := s.updRing p r fun g => g.setCtl (s.ply p).cls v
        let x := u.updRing p r SubRing.enabled
        let y := x.onDev fun d => (d.hostWrite p false ((d.ply p).record r 8) (bytesOf 4 0)).hostWrite p false ((d.ply p).record r 16) [0]
        if (u.ply p).ringOk r (s.port q).mrrs then (if y.intake p && !(y.ring p r).poll then y.startPass p r else y)
        else u.updRing p r fun g => { g with setupErr := true }) := by
  obtain ⟨hr, hpage⟩ := ho
  simp only [Answers, exec_ringEnable, execRingEnable, State.clocked_of_runs hr, hpage, Bool.not_true, Bool.false_eq_true, if_false, r.isLt,
    dif_pos, apply_ite Host.Outcome.next]
  rfl

/-- RING_ENABLE of the completion ring. -/
theorem ringEnable_completion_answers (ho : Open s q p) (v : Word) :
    Answers (.ringEnable q p 4 v) s
      (if (s.ply p).cq.enable then s else
        let u := s.updCq p fun c => c.setCtl v
        let x := u.updCq p fun c =>
          { c with enable := true, setupErr := false, asleep := false, prod := 0, cons := 0, reserved := 0, reread := .none, again := false }
        if (u.ply p).cq.setupOk then x.onDev fun d =>
          ((d.hostWrite p true ((d.ply p).dbrBase.toNat + 256) (bytesOf 4 0)).hostWrite p true ((d.ply p).dbrBase.toNat + 272) [0]).reportLost p
        else u.updCq p fun c => { c with setupErr := true }) := by
  obtain ⟨hr, hpage⟩ := ho
  have hring : ¬ (4 : Fin 5).val < 4 := by decide
  simp only [Answers, exec_ringEnable, execRingEnable, State.clocked_of_runs hr, hpage, Bool.not_true, Bool.false_eq_true, if_false,
    dif_neg hring, apply_ite Host.Outcome.next]

theorem ringDisable_answers (ho : Open s q p) (r : Fin 4) :
    Answers (.ringDisable q p r) s
      (((s.updPly p fun y => { y with pollOut := y.pollOut.map fun v => put v r none }).onDev (·.dropReads (ReadFor.ofRing p r))).updRing p r fun g =>
        { g with enable := false, read := .idle, again := false }) := by
  obtain ⟨hr, hpage⟩ := ho
  rw [Answers, exec_ringDisable, execRingDisable, State.clocked_of_runs hr, if_pos hpage]

/-- CQ_DISABLE: what waits for a reservation goes on without one, and the events and entries that wait are dropped. -/
theorem cqDisable_answers (ho : Open s q p) (hen : (s.ply p).cq.enable = true) :
    let u := (s.onDev (·.dropReads (· == .cons p))).updPly p fun y =>
      { y with cq := { y.cq with enable := false, reserved := 0, waiters := [], reread := .none, again := false },
               rings := y.rings.map fun g => { g with queue := g.queue.map fun f =>
                 { f with reserved := false, phase := if f.phase = .waitEntry then .parsed else f.phase } } }
    let events := (s.ply p).cq.waiters.filter fun w => match w with | .reserve _ _ => false | _ => true
    Answers (.cqDisable q p) s (events.foldl (fun u _ => u.onDev (·.dropEvent p)) u) := by
  obtain ⟨hr, hpage⟩ := ho
  simp only [Answers, exec_cqDisable, execCqDisable, State.clocked_of_runs hr, hpage, hen, Bool.and_self, Bool.not_true, Bool.false_eq_true, if_false,
    beq_iff_eq] <;> rfl

/-! The fence registers (R72, R91, R94) -/

theorem fenceValHiWrite_answers (ho : Open s q p) (v : Word) :
    Answers (.fenceValHiWrite q p v) s (s.updPly p fun y => { y with fenceStage := v }) := by
  obtain ⟨hr, hpage⟩ := ho
  rw [Answers, exec_fenceValHiWrite, execFenceValHiWrite, State.clocked_of_runs hr, if_pos hpage]

theorem fenceValLoWrite_answers (ho : Open s q p) (v : Word) :
    Answers (.fenceValLoWrite q p v) s (s.signal p (s.ply p).fenceSel (DWord.ofWords (s.ply p).fenceStage v)) := by
  obtain ⟨hr, hpage⟩ := ho
  rw [Answers, exec_fenceValLoWrite, execFenceValLoWrite, State.clocked_of_runs hr, if_pos hpage]

theorem fenceValLoRead_answers (ho : Open s q p) :
    Answers (.fenceValLoRead q p) s ((s.updPly p fun y => { y with fenceLatch := ((y.fence y.fenceSel) >>> 32).setWidth 32 }).emit
      (.regValue q (p.val * 4096 + 0x24) (((s.ply p).fence (s.ply p).fenceSel).setWidth 32))) := by
  obtain ⟨hr, hpage⟩ := ho
  have hlatch : s.updPly p (fun y => { y with fenceLatch := DWord.hi ((s.ply p).fence (s.ply p).fenceSel) }) =
      s.updPly p fun y => { y with fenceLatch := ((y.fence y.fenceSel) >>> 32).setWidth 32 } := State.updPly_congr rfl
  rw [Answers, exec_fenceValLoRead, execFenceValLoRead, State.clocked_of_runs hr, if_pos hpage]
  exact congrArg (fun u : State => Host.Outcome.next (u.emit _)) hlatch

end PlyPage

/-! Signals and what they release (R25, R86, R91, R93) -/

theorem Ply.fence_signal_self (y : Ply) (n : Nat) (v : DWord) : (y.signal n v).fence n = if y.fence n < v then v else y.fence n := by
  unfold Ply.signal
  split
  · exact Map.get_setD_self ..
  · rfl

theorem Ply.fence_signal_ne (y : Ply) {n k : Nat} (v : DWord) (h : k ≠ n) : (y.signal n v).fence k = y.fence k := by
  unfold Ply.signal
  split
  · exact Map.get_setD_ne _ _ _ h
  · rfl

/-- A parsed head is ready where its ply takes work, its wait is reached and its BARRIER is met (R86). -/
theorem State.ready_of_head {s : State} {p : Fin 64} {r : Fin 4} {f : InFlight} (hhead : (s.ring p r).head = some f) (hin : s.intake p = true)
    (hphase : f.phase = .parsed) (hreach : (s.ply p).reached f = true) (hbar : (s.ring p r).barrierMet f = true) : s.ready p r f.opcode = some f := by
  simp [State.ready, hhead, hin, hphase, hreach, hbar]

/-- Two descriptors agree in what decides which stands at the head, whether its wait is reached and whether its BARRIER is met (R86, R89). -/
structure InFlight.SamePlace (f g : InFlight) : Prop where
  phase : g.phase = f.phase
  bytes : g.bytes = f.bytes
  order : g.order = f.order

theorem InFlight.SamePlace.refl (f : InFlight) : f.SamePlace f := ⟨rfl, rfl, rfl⟩

theorem InFlight.SamePlace.opcode {f g : InFlight} (h : f.SamePlace g) : g.opcode = f.opcode := congrArg (byteAt · 0) h.bytes

section SamePlace
variable {k : InFlight → InFlight}

theorem InFlight.SamePlace.ite (hk : ∀ e : InFlight, e.SamePlace (k e)) (order : Nat) (e : InFlight) :
    e.SamePlace (if e.order = order then k e else e) := by
  split
  · exact hk e
  · exact InFlight.SamePlace.refl e

theorem SubRing.head_map (g : SubRing) (hk : ∀ e : InFlight, e.SamePlace (k e)) :
    ({ g with queue := g.queue.map k } : SubRing).head = g.head.map k := by
  have hsame : ((fun e : InFlight => e.undispatched || e.opcode == 0x02) ∘ k) = fun e => e.undispatched || e.opcode == 0x02 := by
    funext e
    simp only [Function.comp, InFlight.undispatched, (hk e).phase, (hk e).opcode]
  simp only [SubRing.head, List.find?_map, hsame]

/-- The BARRIER of a descriptor that has no group looks at the order of its ring's descriptors alone (R89). -/
theorem SubRing.barrierMet_map (g : SubRing) (hk : ∀ e : InFlight, e.SamePlace (k e)) {f : InFlight} (hc : f.opcode ≠ 0x20) (hl : f.opcode ≠ 0x21) :
    ({ g with queue := g.queue.map k } : SubRing).barrierMet (k f) = g.barrierMet f := by
  have hneeds : (k f).needsBarrier = f.needsBarrier := by simp only [InFlight.needsBarrier, InFlight.barrier, InFlight.opcode, (hk f).bytes]
  simp [SubRing.barrierMet, (hk f).opcode, hc, hl, hneeds, (hk _).order, List.all_map, Function.comp_def]

theorem Ply.reached_congr {y z : Ply} {f g : InFlight} (hfences : z.fences = y.fences) (hbytes : g.bytes = f.bytes) : z.reached g = y.reached f := by
  unfold Ply.reached Ply.fence InFlight.waitEn InFlight.waitValue InFlight.waitFence
  rw [hfences, hbytes]

/-- A FENCE_WAIT that stands ready at the head does so once it is armed. -/
theorem State.ready_updDesc_fenceWait {s : State} {p : Fin 64} {r : Fin 4} {f : InFlight} (hk : ∀ e : InFlight, e.SamePlace (k e))
    (hhead : (s.ring p r).head = some f) (hin : s.intake p = true) (hphase : f.phase = .parsed) (hreach : (s.ply p).reached f = true)
    (hop : f.opcode = 0x02) (hbar : (s.ring p r).barrierMet f = true) : (s.updDesc p r f.order k).ready p r 0x02 = some (k f) := by
  have hplace := InFlight.SamePlace.ite hk f.order
  have hself : (if f.order = f.order then k f else f) = k f := if_pos rfl
  have hring : (s.updDesc p r f.order k).ring p r =
      { s.ring p r with queue := (s.ring p r).queue.map fun e => if e.order = f.order then k e else e } := State.ring_updRing_self ..
  have hply : (s.updDesc p r f.order k).ply p = { s.ply p with rings := ((s.updDesc p r f.order k).ply p).rings } := by
    simp only [State.updDesc, State.updRing, State.ply_updPly_self]
  have hhead' : ((s.updDesc p r f.order k).ring p r).head = some (k f) := by
    rw [hring, SubRing.head_map _ hplace, hhead, Option.map_some, hself]
  have hbar' : ((s.updDesc p r f.order k).ring p r).barrierMet (k f) = true := by
    have hmap := SubRing.barrierMet_map (s.ring p r) hplace (f := f) (by omega) (by omega)
    rwa [hself, hbar, ← hring] at hmap
  have hin' : (s.updDesc p r f.order k).intake p = true := by rwa [State.intake, hply]
  have hreach' : ((s.updDesc p r f.order k).ply p).reached (k f) = true := by
    rwa [Ply.reached_congr (congrArg Ply.fences hply) (hk f).bytes]
  have hready := State.ready_of_head hhead' hin' ((hk f).phase.trans hphase) hreach' hbar'
  rwa [(hk f).opcode, hop] at hready

end SamePlace

section ReleaseHead
variable {s : State} {p : Fin 64} {r : Fin 4} {f : InFlight} (hhead : (s.ring p r).head = some f) (hin : s.intake p = true) (hphase : f.phase = .parsed)
  (hreach : (s.ply p).reached f = true)
include hhead hin hphase hreach

theorem State.releaseHead_of_other (hw : f.opcode ≠ 0x02) (hc : f.opcode ≠ 0x20) :
    s.releaseHead p r = s.updDesc p r f.order fun f => { f with armedAt := f.armedAt.or (some s.dev.devtime) } := by
  simp [State.releaseHead, hhead, hin, hphase, hreach, hw, hc]

theorem State.releaseHead_of_commit (hc : f.opcode = 0x20) :
    s.releaseHead p r = (s.updDesc p r f.order fun f => { f with armedAt := f.armedAt.or (some s.dev.devtime) }).commitArm p r := by
  simp [State.releaseHead, hhead, hin, hphase, hreach, hc]

/-- A FENCE_WAIT's result is the fence's value (R86). -/
theorem State.releaseHead_of_fenceWait (hw : f.opcode = 0x02) (hbar : (s.ring p r).barrierMet f = true) :
    s.releaseHead p r = (s.updDesc p r f.order fun f => { f with armedAt := f.armedAt.or (some s.dev.devtime) }).finishDesc p r f.order 0
      (bytesOf 8 ((s.ply p).fence f.waitFence).toNat) := by
  have hready := State.ready_updDesc_fenceWait (k := fun f => { f with armedAt := f.armedAt.or (some s.dev.devtime) }) (fun _ => ⟨rfl, rfl, rfl⟩)
    hhead hin hphase hreach hw hbar
  have hfences : ((s.updDesc p r f.order fun f => { f with armedAt := f.armedAt.or (some s.dev.devtime) }).ply p).fences = (s.ply p).fences := by
    simp only [State.updDesc, State.updRing, State.ply_updPly_self]
  simp only [State.releaseHead, hhead, hin, hphase, hreach, beq_self_eq_true, Bool.true_or, Bool.not_true, Bool.or_self, Bool.false_eq_true, if_false,
    if_pos hw, hready]
  rw [Ply.fence, hfences]
  rfl

end ReleaseHead

theorem doorbellResults : DoorbellResults := fun _ _ _ ho =>
  ⟨nudgeCq_answers ho, nudgeSq_answers ho⟩

theorem ringSetupResults : RingSetupResults := by
  intro q p v s ho
  refine ⟨fun r hon => ?left, fun r hoff => ?submission, fun hon => ?cqLeft, fun hoff => ?completion, ringDisable_answers ho, cqDisable_answers ho⟩
  case left => simpa only [if_pos hon] using ringEnable_submission_answers ho r v
  case cqLeft => simpa only [if_pos hon] using ringEnable_completion_answers ho v
  case submission =>
    have hout := ringEnable_submission_answers ho r v
    rw [if_neg (ne_true_of_eq_false hoff), State.updRing_setCtl_of_disabled hoff] at hout
    intro u
    refine ⟨fun hbad => ?_, fun hok => ?_⟩
    · rwa [if_neg (ne_true_of_eq_false hbad)] at hout
    · rwa [if_pos hok] at hout
  case completion =>
    have hout := ringEnable_completion_answers ho v
    rw [if_neg (ne_true_of_eq_false hoff), State.updCq_setCtl_of_disabled hoff] at hout
    intro u
    refine ⟨fun hbad => ?_, fun hok => ?_⟩
    · rwa [if_neg (ne_true_of_eq_false hbad)] at hout
    · rwa [if_pos hok] at hout

theorem fenceRegisterResults : FenceRegisterResults := fun _ _ v _ ho =>
  ⟨fenceValHiWrite_answers ho v, fenceValLoWrite_answers ho v, fenceValLoRead_answers ho⟩

theorem fenceSignalTakesTheLarger : FenceSignalTakesTheLarger :=
  ⟨fun y n _ v => ⟨Ply.fence_signal_self y n v, Ply.fence_signal_ne y v⟩, fun _ _ _ _ => rfl, fun _ _ _ _ hhead hin hphase hreach =>
    ⟨State.releaseHead_of_other hhead hin hphase hreach, State.releaseHead_of_commit hhead hin hphase hreach,
      State.releaseHead_of_fenceWait hhead hin hphase hreach⟩⟩

/-- Settles O21: it holds, each clause by the lemma of its row. Three things in it are the model's choice and not the manual's words: enabling a
ring that is not polled starts a pass (log entry 23), LAYERs that wait when a ring is enabled are marked, so that no later COMMIT claims them (log
entries 24, 81), and while the ply may not write host memory the record's clearing leaves no write (log entry 28). -/
theorem ringRegisterResults : Obligations.RingRegisterResults :=
  ⟨doorbellResults, ringSetupResults, fenceRegisterResults, fenceSignalTakesTheLarger⟩

/-! DESCRIPTOR_PARSE (R85, R86, R159, R191) -/
section Parse
variable {p : Fin 64} {r : Fin 4} {s : State} {f : InFlight} (hr : Runs s) (hhead : (s.ring p r).head = some f) (hin : s.intake p = true)
  (hphase : f.phase = .accepted)
include hr hhead hin hphase

theorem descriptorParse_answers_layer (hop : f.opcode = 0x21) : Answers (.descriptorParse p r) s (s.parseLayer p r f) := by
  simp [Answers, execDescriptorParse, State.clocked_of_runs hr, hhead, hin, hphase, hop]

theorem descriptorParse_answers_failedCommit (hop : f.opcode = 0x20) (hbad : s.dev.parseCheck p f ≠ stOk) :
    Answers (.descriptorParse p r) s (s.settleGroup p r f) := by
  simp [Answers, execDescriptorParse, State.clocked_of_runs hr, hhead, hin, hphase, hop, hbad]

theorem descriptorParse_answers_failed (hc : f.opcode ≠ 0x20) (hl : f.opcode ≠ 0x21) (hbad : s.dev.parseCheck p f ≠ stOk) :
    Answers (.descriptorParse p r) s (s.finishDesc p r f.order (s.dev.parseCheck p f) []) := by
  simp [Answers, execDescriptorParse, State.clocked_of_runs hr, hhead, hin, hphase, hc, hl, hbad]

theorem descriptorParse_answers_noBlock (hl : f.opcode ≠ 0x21) (hok : s.dev.parseCheck p f = stOk) (hread : f.parseRead = none) :
    Answers (.descriptorParse p r) s (s.holdOrArm p r f.order) := by
  simp [Answers, execDescriptorParse, State.clocked_of_runs hr, hhead, hin, hphase, hl, hok, hread]

theorem descriptorParse_answers_unmapped (hl : f.opcode ≠ 0x21) (hok : s.dev.parseCheck p f = stOk) {a n : Nat} (hread : f.parseRead = some (a, n))
    (hmap : s.dev.mapped p a n false = false) : Answers (.descriptorParse p r) s (s.finishDesc p r f.order stNotPermitted []) := by
  simp [Answers, execDescriptorParse, State.clocked_of_runs hr, hhead, hin, hphase, hl, hok, hread, hmap]

/-- A block that is mapped is read under MEM and checked; one that passes stays with its descriptor. -/
theorem descriptorParse_answers_block (hl : f.opcode ≠ 0x21) (hok : s.dev.parseCheck p f = stOk) {a n : Nat} (hread : f.parseRead = some (a, n))
    (hmap : s.dev.mapped p a n false = true) {t : State} (htake : s.takeMem (plyHolder p) (unitsOf a n) [(a, n)] = some t) {bs : List Byte}
    (hbs : t.plyRead p a n = some bs) :
    Answers (.descriptorParse p r) s
      (if t.dev.blockCheck p f bs ≠ stOk then t.finishDesc p r f.order (t.dev.blockCheck p f bs) []
       else (t.updDesc p r f.order fun f => { f with block := bs }).holdOrArm p r f.order) := by
  simp [Answers, execDescriptorParse, State.clocked_of_runs hr, hhead, hin, hphase, hl, hok, hread, hmap, htake, hbs, apply_ite Host.Outcome.next]

end Parse

/-- Each branch of the parse. The state that `awaits` writes out is that of `State.finishDesc`, by definition. -/
theorem parseResults : ParseResults := by
  intro p r s f hr hhead hin hphase
  refine ⟨fun hop t st hcheck => ?layer, fun hop => descriptorParse_answers_failedCommit hr hhead hin hphase hop,
    fun hc hl => descriptorParse_answers_failed hr hhead hin hphase hc hl, fun hl hok hnotHap hnotTouch => ?noBlock, fun hop hok => ?block⟩
  case layer =>
    have hout := descriptorParse_answers_layer hr hhead hin hphase hop
    simpa only [State.parseLayer, hcheck] using hout
  case noBlock =>
    have hread : f.parseRead = none := if_neg (not_or.mpr ⟨hnotHap, hnotTouch⟩)
    exact descriptorParse_answers_noBlock hr hhead hin hphase hl hok hread
  case block =>
    have hl : f.opcode ≠ 0x21 := by omega
    have hread : f.parseRead = some (le64 f.bytes 40, le32 f.bytes 48) := if_pos hop
    refine ⟨descriptorParse_answers_unmapped hr hhead hin hphase hl hok hread, fun t bs hmap htake hbs => ?_⟩
    have hout := descriptorParse_answers_block hr hhead hin hphase hl hok hread hmap htake hbs
    refine ⟨fun hbad => ?_, fun hgood => ?_⟩
    · rwa [if_pos hbad] at hout
    · rwa [if_neg (not_not.mpr hgood)] at hout

/-! DESCRIPTOR_RETIRE (R87, R88, R91, R92, R95, R115) -/

theorem Ply.discards_eq_false_iff (y : Ply) (f : InFlight) : y.discards f = false ↔ y.state = .active ∨ (f.opcode = 0x71 ∧ f.status = stOk) := by
  rw [Ply.discards, Bool.and_eq_false_iff, bne_eq_false_iff_eq, Bool.not_eq_false', Bool.and_eq_true, beq_iff_eq, beq_iff_eq]

theorem Ply.lacksEntry_iff (y : Ply) (f : InFlight) :
    y.lacksEntry f = true ↔ y.cq.enable = true ∧ y.writesHost false = true ∧ f.reserved = false ∧ (y.cq.waiters ≠ [] ∨ y.cq.freeEntries = 0) := by
  simp [Ply.lacksEntry, and_assoc]

/-- The signal of a finished descriptor, given only where it completes without an error or asks for one with it too (R87, R92). -/
def State.retireSignal (s : State) (p : Fin 64) (f : InFlight) : State :=
  if f.signalEn && (f.status == 0 || f.sigOnError) then s.signal p f.signalFence f.signalValue else s

/-- A retiring descriptor's RING credit returns, and its place in the ring is free (R87). -/
def State.freePlace (s : State) (p : Fin 64) (r : Fin 4) (f : InFlight) : State :=
  (s.onSkein fun k => k.give .ring (f.holder p) 1).updRing p r fun g => { g with queue := g.queue.filter fun e => e.order != f.order }

theorem State.retireSignal_of_kept (s : State) {p : Fin 64} {f : InFlight} (hkept : (s.ply p).discards f = false) :
    (if (s.ply p).retireSignals f then s.signal p f.signalFence f.signalValue else s) = s.retireSignal p f := by
  simp only [Ply.retireSignals, hkept, Bool.not_false, Bool.true_and]
  rfl

section Retire
variable {p : Fin 64} {r : Fin 4} {q : Word} {s : State} {f : InFlight} (hr : Runs s)
  (hfind : ((s.ring p r).queue.find? fun f => f.seq == q && f.phase == .finished) = some f)
include hr hfind

theorem descriptorRetire_answers_waiting (hkept : (s.ply p).discards f = false) (hnone : (s.ply p).lacksEntry f = true) :
    Answers (.descriptorRetire p r q) s (s.awaitEntry p r f) := by
  simp [Answers, execDescriptorRetire, State.clocked_of_runs hr, hfind, hkept, hnone]

theorem descriptorRetire_answers_discarded (hgone : (s.ply p).discards f = true) :
    Answers (.descriptorRetire p r q) s ((s.freePlace p r f).writeCompletion p r f stDiscarded []) := by
  simp [Answers, execDescriptorRetire, State.clocked_of_runs hr, hfind, hgone, Ply.retireSignals, Ply.retireStatus, State.freePlace]

theorem descriptorRetire_answers_kept (hkept : (s.ply p).discards f = false) (hentry : (s.ply p).lacksEntry f = false)
    (hother : ¬ (f.opcode = 0x03 ∧ f.status = stOk)) :
    Answers (.descriptorRetire p r q) s (((s.retireSignal p f).freePlace p r f).writeCompletion p r f f.status f.result) := by
  simp [Answers, execDescriptorRetire, State.clocked_of_runs hr, hfind, hkept, hentry, hother, s.retireSignal_of_kept hkept, Ply.retireStatus,
    State.freePlace]

/-- A FENCE_SIGNAL tells whether it raised its fence, and what the fence then holds (R92). -/
theorem descriptorRetire_answers_fenceSignal (hkept : (s.ply p).discards f = false) (hentry : (s.ply p).lacksEntry f = false) (hop : f.opcode = 0x03)
    (hok : f.status = stOk) :
    let u := s.retireSignal p f
    let now := bytesOf 8 ((u.ply p).fence f.signalFence).toNat
    let v := if le64 f.bytes 32 = 0 then u else u.onDev fun d => d.hostWrite p false (le64 f.bytes 32) now
    Answers (.descriptorRetire p r q) s
      ((v.freePlace p r f).writeCompletion p r f (if (s.ply p).fence f.signalFence < f.signalValue then stOk else 0x0A) now) := by
  simp [Answers, execDescriptorRetire, State.clocked_of_runs hr, hfind, hkept, hentry, hop, hok, s.retireSignal_of_kept hkept, Ply.retireStatus,
    State.freePlace, ite_not]

end Retire

theorem retirementResults : RetirementResults := by
  intro p r q s f hr hfind
  refine ⟨fun hkept hnone => ?waits, fun hkept hentry hother => ?kept, fun hkept hentry hop hok => ?fenceSignal, fun hgone => ?discarded⟩
  case waits => exact descriptorRetire_answers_waiting hr hfind ((Ply.discards_eq_false_iff ..).mpr hkept) ((Ply.lacksEntry_iff ..).mpr hnone)
  case kept =>
    have hentry' := eq_false_of_ne_true (mt (Ply.lacksEntry_iff ..).mp hentry)
    exact descriptorRetire_answers_kept hr hfind ((Ply.discards_eq_false_iff ..).mpr hkept) hentry' (not_and_or.mpr hother)
  case fenceSignal =>
    have hentry' := eq_false_of_ne_true (mt (Ply.lacksEntry_iff ..).mp hentry)
    exact descriptorRetire_answers_fenceSignal hr hfind ((Ply.discards_eq_false_iff ..).mpr hkept) hentry' hop hok
  case discarded =>
    exact descriptorRetire_answers_discarded hr hfind (eq_true_of_ne_false (mt (Ply.discards_eq_false_iff ..).mp hgone))

/-- Settles O24: it holds, each clause by the lemma of its branch. Two things in it are the model's choice and not the manual's words: a descriptor that
failed its checks holds no completion entry, and where none is free it waits for one in order with its RING credit (log entry 81). -/
theorem parseAndRetirementResults : Obligations.ParseAndRetirementResults := ⟨parseResults, retirementResults⟩

/-! COPY and FILL (R21, R36, R43, R89) -/

theorem State.running_opcode {s : State} {p : Fin 64} {r : Fin 4} {op : Nat} {q : Word} {f : InFlight} (h : s.running p r op q = some f) :
    f.opcode = op := by
  unfold State.running at h
  split at h
  · cases h
  · next g _ =>
    split at h
    · cases h
    · next hop =>
      have hg : g = f := by
        split at h
        · exact Option.some.inj (Option.ite_none_right_eq_some.mp h).2
        · split at h
          · exact Option.some.inj (Option.ite_none_right_eq_some.mp h).2
          · cases h
      exact hg ▸ not_not.mp hop

section Transfer
variable {p : Fin 64} {r : Fin 4} {q : Word} {s t u : State} {f : InFlight}

/-- The MEM credits of the device sides of `m` bytes of a transfer (R43, R89). -/
def State.takePiece (s : State) (p : Fin 64) (f : InFlight) (m : Nat) : Option State :=
  let a := f.copyArgs
  s.takeMem (plyHolder p) ((if a.srcHost then 0 else unitsOf (a.src + f.mark) m) + (if a.dstHost then 0 else writeCost (a.dst + f.mark) m))
    ((if a.srcHost then [] else [(a.src + f.mark, m)]) ++ if a.dstHost then [] else [(a.dst + f.mark, m)])

/-- Bytes of a transfer reach its destination: they leave as a host write, or are stored (R89). -/
def PutsPiece (p : Fin 64) (f : InFlight) (bs : List Byte) (t u : State) : Prop :=
  if f.copyArgs.dstHost then u = t.onDev fun d => d.hostWrite p false (f.copyArgs.dst + f.mark) bs
  else t.plyWrite p .copy (f.copyArgs.dst + f.mark) bs = some u

/-- A transfer has moved `m` more bytes: it goes on from there, or completes with the number of bytes moved (R89). -/
def State.movedBy (u : State) (p : Fin 64) (r : Fin 4) (f : InFlight) (m : Nat) : State :=
  if f.mark + m < f.copyArgs.len then u.updDesc p r f.order fun f => { f with mark := f.mark + m, reading := 0 }
  else u.finishDesc p r f.order 0 (bytesOf 4 f.copyArgs.len)

/-- A piece whose MEM take is granted and whose bytes `bs` are read and reach their destination is moved. -/
theorem State.moveOn_of_puts {n : Nat} {host bs : List Byte} (htake : s.takePiece p f (min n (f.copyArgs.len - f.mark)) = some t)
    (hdata : (if f.copyArgs.srcHost then some (fitBytes (min n (f.copyArgs.len - f.mark)) (f.hostSide host (min n (f.copyArgs.len - f.mark))))
      else t.plyRead p (f.copyArgs.src + f.mark) (min n (f.copyArgs.len - f.mark))) = some bs)
    (hput : PutsPiece p f bs t u) : s.moveOn p r f n host = some (u.movedBy p r f (min n (f.copyArgs.len - f.mark))) := by
  rw [State.takePiece] at htake
  unfold PutsPiece at hput
  simp only [State.moveOn, State.copyPiece, htake, hdata]
  split at hput
  · next hdst => rw [if_pos hdst, hput]; rfl
  · next hdst => rw [if_neg hdst, hput]; rfl

theorem copy_answers (hr : Runs s) (hrun : s.running p r 0x10 q = some f) (n : Nat) (host : List Byte) :
    Answers (.copy p r q n host) s ((s.dispatch p r f.order f.mark).copyOn p r f n host) := by
  simp only [Answers, exec_copy, execCopy, State.clocked_of_runs hr, hrun]

theorem fill_answers (hr : Runs s) (hrun : s.running p r 0x11 q = some f) (n : Nat) :
    Answers (.fill p r q n) s (((s.dispatch p r f.order f.mark).moveOn p r f n []).getD (s.dispatch p r f.order f.mark)) := by
  simp only [Answers, exec_fill, execFill, State.clocked_of_runs hr, hrun]

theorem State.copyOn_device {n : Nat} {host bs : List Byte} (hsrc : f.copyArgs.srcHost = false)
    (htake : s.takePiece p f (min n (f.copyArgs.len - f.mark)) = some t)
    (hread : t.plyRead p (f.copyArgs.src + f.mark) (min n (f.copyArgs.len - f.mark)) = some bs) (hput : PutsPiece p f bs t u) :
    s.copyOn p r f n host = u.movedBy p r f (min n (f.copyArgs.len - f.mark)) := by
  have hmove : s.moveOn p r f n [] = _ := State.moveOn_of_puts htake (by rwa [if_neg (ne_true_of_eq_false hsrc)]) hput
  rw [State.copyOn]
  simp only [hsrc, Bool.not_false, if_true, hmove, Option.getD_some]

theorem State.copyOn_startsRead (n : Nat) (host : List Byte) (hsrc : f.copyArgs.srcHost = true) (hidle : f.reading = 0) :
    s.copyOn p r f n host = s.readData p r f (f.copyArgs.src + f.mark) (min n (f.copyArgs.len - f.mark)) := by
  simp [State.copyOn, hsrc, hidle]

theorem State.copyOn_hostData (n : Nat) {host : List Byte} (hop : f.opcode = 0x10) (hsrc : f.copyArgs.srcHost = true) (hbusy : f.reading ≠ 0)
    (hout : s.dev.readOut (.data p f.order) = true) (htake : s.takePiece p f (min f.reading (f.copyArgs.len - f.mark)) = some t)
    (hput : PutsPiece p f (fitBytes (min f.reading (f.copyArgs.len - f.mark)) host) t u) :
    s.copyOn p r f n host = (u.movedBy p r f (min f.reading (f.copyArgs.len - f.mark))).endReads (.data p f.order) := by
  have hdata : f.hostSide host (min f.reading (f.copyArgs.len - f.mark)) = host := by simp [InFlight.hostSide, hop]
  have hmove : s.moveOn p r f f.reading host = _ := State.moveOn_of_puts htake (by rw [if_pos hsrc, hdata]) hput
  simp [State.copyOn, hsrc, hbusy, hout, hmove]

theorem fitBytes_of_length {n : Nat} {bs : List Byte} (h : bs.length = n) : fitBytes n bs = bs := by
  rw [fitBytes, ← h, List.take_left]

/-- A FILL repeats its 4-byte pattern from the start of its range (R89). -/
theorem State.moveOn_fill {n : Nat} (hop : f.opcode = 0x11) (htake : s.takePiece p f (min n (f.copyArgs.len - f.mark)) = some t)
    (hput : PutsPiece p f ((List.range (min n (f.copyArgs.len - f.mark))).map fun i => (bytesOf 4 (le32 f.bytes 44)).getD ((f.mark + i) % 4) 0) t u) :
    s.moveOn p r f n [] = some (u.movedBy p r f (min n (f.copyArgs.len - f.mark))) := by
  have hsrc : f.copyArgs.srcHost = true := by simp [InFlight.copyArgs, hop]
  refine State.moveOn_of_puts htake ?_ hput
  rw [if_pos hsrc, fitBytes_of_length]
  · simp only [InFlight.hostSide, if_pos hop]
  · simp [InFlight.hostSide, hop]

end Transfer

theorem transferResults : TransferResults := by
  intro p r q n host bs s t u f hr
  refine ⟨fun hrun hsrc htake hread hput => ?device, fun hrun hsrc hidle => ?startsRead, fun hrun hsrc hbusy hout hbs htake hput => ?hostData,
    fun hrun hbs htake hput => ?fill⟩
  case device =>
    have hcopy := copy_answers hr hrun n host
    rwa [State.copyOn_device hsrc htake hread hput] at hcopy
  case startsRead =>
    have hcopy := copy_answers hr hrun n host
    rwa [State.copyOn_startsRead n host hsrc hidle] at hcopy
  case hostData =>
    have hcopy := copy_answers hr hrun n host
    subst hbs
    rwa [State.copyOn_hostData n (State.running_opcode hrun) hsrc hbusy hout htake hput] at hcopy
  case fill =>
    have hfill := fill_answers hr hrun n
    subst hbs
    rwa [State.moveOn_fill (State.running_opcode hrun) htake hput, Option.getD_some] at hfill

/-! CHECK (R21, R43, R442, R444-R446) -/
section Check
variable {p : Fin 64} {r : Fin 4} {q : Word} {s t : State} {f : InFlight} {j : CheckJob}

theorem check_answers_queued (hr : Runs s) (hrun : s.running p r 0x12 q = some f) (n : Nat) (host : List Byte) (hphase : f.phase ≠ .dispatched) :
    Answers (.check p r q n host) s
      ((((s.dispatch p r f.order 0).updCheck f.chkUnit fun c => { c with queue := c.queue ++ [(p, r, f.order)] }).startCheck f.chkUnit).checkOn
        p r { f with phase := .dispatched, mark := 0 } n host) := by
  simp only [Answers, exec_check, execCheck, State.clocked_of_runs hr, hrun, if_neg hphase]

theorem check_answers_running (hr : Runs s) (hrun : s.running p r 0x12 q = some f) (n : Nat) (host : List Byte) (hphase : f.phase = .dispatched) :
    Answers (.check p r q n host) s (s.checkOn p r f n host) := by
  simp only [Answers, exec_check, execCheck, State.clocked_of_runs hr, hrun, if_pos hphase]

section CheckOn
variable (n : Nat) (host : List Byte) (hjob : (s.dev.check f.chkUnit).job = some j) (hmine : j.order = f.order)
include hjob hmine

theorem State.checkOn_device (hdev : f.chkHost = false)
    (htake : s.takeMem (plyHolder p) (unitsOf (f.chkAddr + f.mark) (min n (f.chkLen - f.mark))) [(f.chkAddr + f.mark, min n (f.chkLen - f.mark))] = some t)
    {bs : List Byte} (hread : t.plyRead p (f.chkAddr + f.mark) (min n (f.chkLen - f.mark)) = some bs) :
    s.checkOn p r f n host = t.feedCheck p r f j bs := by
  simp [State.checkOn, hjob, hmine, hdev, htake, hread]

theorem State.checkOn_startsRead (hhost : f.chkHost = true) (hidle : f.reading = 0) :
    s.checkOn p r f n host = s.readData p r f (f.chkAddr + f.mark) (min n (f.chkLen - f.mark)) := by
  simp [State.checkOn, hjob, hmine, hhost, hidle]

theorem State.checkOn_hostData (hhost : f.chkHost = true) (hbusy : f.reading ≠ 0) (hout : s.dev.readOut (.data p f.order) = true) :
    s.checkOn p r f n host = (s.endReads (.data p f.order)).feedCheck p r f j (fitBytes f.reading host) := by
  simp [State.checkOn, hjob, hmine, hhost, hbusy, hout]

end CheckOn
end Check

theorem checkResults : CheckResults := by
  intro p r q n host s f hr hrun
  refine ⟨fun hphase => check_answers_queued hr hrun n host hphase, fun j t bs hphase hjob hmine => ?_⟩
  have hcheck := check_answers_running hr hrun n host hphase
  refine ⟨fun hdev htake hread => ?device, fun hhost hidle => ?startsRead, fun hhost hbusy hout => ?hostData⟩
  case device => rwa [State.checkOn_device n host hjob hmine hdev htake hread] at hcheck
  case startsRead => rwa [State.checkOn_startsRead n host hjob hmine hhost hidle] at hcheck
  case hostData => rwa [State.checkOn_hostData n host hjob hmine hhost hbusy hout] at hcheck

/-! COPY_STOP (R115) -/
section CopyStop
variable {p : Fin 64} {r : Fin 4} {q : Word} {s : State} {f : InFlight} (hr : Runs s) (hdesc : s.descBySeq p r q = some f) (hdrain : s.intake p = false)
  (hphase : f.phase = .dispatched) (host : List Byte)
include hr hdesc hdrain hphase

theorem copyStop_answers_check (hop : f.opcode = 0x12) : Answers (.copyStop p r q host) s (s.dropCheck p r f) := by
  simp [Answers, execCopyStop, State.clocked_of_runs hr, hdesc, hdrain, hphase, hop]

/-- The boundary is one of the transfer's progress; host data goes no further than the read that is out. -/
theorem copyStop_answers_transfer (hop : f.opcode = 0x10 ∨ f.opcode = 0x11) :
    let left := ceilTo f.mark 4096 - f.mark
    let m := if f.opcode = 0x10 ∧ f.copyArgs.srcHost = true then (if s.dev.readOut (.data p f.order) then min left f.reading else 0) else left
    let t := (s.moveOn p r f m host).getD s
    Answers (.copyStop p r q host) s
      ((if t.dev.readOut (.data p f.order) then t.endReads (.data p f.order) else t.onDev (·.dropReads (· == .data p f.order))).finishDesc
        p r f.order stDiscarded []) := by
  have hcheck : f.opcode ≠ 0x12 := by omega
  simp only [Answers, exec_copyStop, execCopyStop, State.clocked_of_runs hr, hdesc, hdrain, hphase, bne_self_eq_false, Bool.or_self, Bool.false_eq_true,
    if_false, if_neg hcheck, if_pos hop, Bool.and_eq_true, decide_eq_true_eq]

end CopyStop

theorem copyStopResults : CopyStopResults := fun _ _ _ host _ _ hr hdesc hdrain hphase =>
  ⟨copyStop_answers_check hr hdesc hdrain hphase host, copyStop_answers_transfer hr hdesc hdrain hphase host⟩

/-- Settles O26: it holds, each clause by the lemma of its row. The model's choice, and not the manual's words, are that a drain's 4 KiB boundary is one of
the transfer's progress and not of an address, that host data is read first and comes with a later command (log entry 81), and that a transfer whose
MEM take is refused stops where it stands (log entry 29). -/
theorem transferAndCheckResults : Obligations.TransferAndCheckResults := ⟨transferResults, checkResults, copyStopResults⟩

/-! Rules of the audio rows -/

/-- While the audio island is up, an audio row has its effect (R382, R431). -/
theorem State.audioOn_of_sounds {s : State} (hs : Sounds s) (f : State → Res) : s.audioOn f = f s := by
  obtain ⟨hr, hisland⟩ := hs
  rw [State.audioOn, State.clocked_of_runs hr, if_pos hisland]

/-- A manager's command that Elytra runs is carried out (R299). -/
theorem State.managed_of_managed {s : State} {o code : Nat} {j : Journal} (h : Managed s o code j) (act : Journal → State) :
    s.managed o code act = .next (act j) := by
  obtain ⟨_, hcmd, hwf, hman⟩ := h
  simp [State.managed, hcmd, hwf, hman]

/-! Streams (R368-R370) -/
section Streams
variable {p : Fin 64} {r : Fin 4} {s : State} {f : InFlight} (hs : Sounds s)

/-- The stream that an AUD_OPEN asks for (R368). -/
def InFlight.openedStream (f : InFlight) (p : Fin 64) : Stream :=
  let b := f.bytes
  { ply := p, handle := byteAt b 32 % 16, chans := byteAt b 34, fmt := byteAt b 35, rate := le32 b 36, first := byteAt b 40 % 64,
    started := false, frames := [], part := 0, bufs := [], last := false, closing := false, fade := none, closer := none }

/-- The status of an AUD_OPEN, in the order of its tests (R368). -/
def State.openStatus (s : State) (x : Stream) : Nat :=
  if x.inputs.any fun i => !(s.dev.entry x.ply).inputs.contains i then 0x05
  else if (s.dev.audio.stream x.ply x.handle).isSome || decide (64 < x.first + x.chans) then 0x02
  else if x.inputs.any fun i => s.dev.heldInputs.contains i then 0x10 else 0

include hs

theorem audOpen_answers (hready : s.ready p r 0x40 = some f) (hopen : bit (byteAt f.bytes 33) 0 = false) :
    Answers (.audOpen p r) s
      ((if s.openStatus (f.openedStream p) = 0 then s.updAudio fun a => { a with streams := a.streams ++ [f.openedStream p] } else s).finishDesc p r f.order
        (s.openStatus (f.openedStream p)) []) := by
  simp only [Answers, exec_audOpen, execAudOpen, State.audioOn_of_sounds hs, hready, hopen, Bool.false_eq_true, if_false]
  rfl

theorem audOpen_answers_refused (hready : s.ready p r 0x40 = some f) (hopen : bit (byteAt f.bytes 33) 0 = false) {st : Nat}
    (hst : s.openStatus (f.openedStream p) = st) (hbad : st ≠ 0) : Answers (.audOpen p r) s (s.finishDesc p r f.order st []) := by
  have hout := audOpen_answers hs hready hopen
  rwa [hst, if_neg hbad] at hout

theorem audOpen_answers_opened (hready : s.ready p r 0x40 = some f) (hopen : bit (byteAt f.bytes 33) 0 = false)
    (hst : s.openStatus (f.openedStream p) = 0) :
    Answers (.audOpen p r) s ((s.updAudio fun a => { a with streams := a.streams ++ [f.openedStream p] }).finishDesc p r f.order 0 []) := by
  have hout := audOpen_answers hs hready hopen
  rwa [hst, if_pos rfl] at hout

/-- A stream that closes already has its closer (R370; log entry 98). -/
theorem audClose_answers {x : Stream} (hready : s.ready p r 0x40 = some f) (hclose : bit (byteAt f.bytes 33) 0 = true)
    (hstream : s.dev.audio.stream p (byteAt f.bytes 32 % 16) = some x) :
    Answers (.audClose p r) s
      (if x.closer.isSome then s.finishDesc p r f.order 0x02 []
       else (s.dispatch p r f.order 0).updStream p (byteAt f.bytes 32 % 16) fun x => { x with closing := true, closer := some (r, f.order) }) := by
  simp only [Answers, exec_audClose, execAudClose, State.audioOn_of_sounds hs, hready, hclose, hstream, Bool.not_true, Bool.false_eq_true, if_false]
  exact (apply_ite Host.Outcome.next _ _ _).symm

/-- A buffer of whole frames joins its stream's queue, and is read where it is the first (R369). -/
theorem audBuffer_answers {x : Stream} (hready : s.ready p r 0x41 = some f) (hstream : s.dev.audio.stream p (byteAt f.bytes 32 % 16) = some x) :
    let h := byteAt f.bytes 32 % 16
    let b : StreamBuf := { ring := r, order := f.order, addr := le64 f.bytes 40, len := le32 f.bytes 48, last := bit (byteAt f.bytes 33) 0 }
    let u := (s.dispatch p r f.order 0).updStream p h fun x => { x with bufs := x.bufs ++ [b] }
    Answers (.audBuffer p r) s
      (if le32 f.bytes 48 % (x.chans * streamBytes x.fmt) ≠ 0 then s.finishDesc p r f.order 0x02 [] else if x.bufs = [] then u.readAudio p h else u) := by
  simp only [Answers, exec_audBuffer, execAudBuffer, State.audioOn_of_sounds hs, hready, hstream, List.isEmpty_iff]
  exact (apply_ite Host.Outcome.next _ _ _).symm

theorem audBufferReadDone_answers {h : Nat} (bytes : List Byte) {x : Stream} {b : StreamBuf} {rest : List StreamBuf}
    (hstream : s.dev.audio.stream p h = some x) (hbufs : x.bufs = b :: rest) (hout : s.dev.readOut (.audio p h) = true ∨ (b.len = 0 ∧ s.intake p = true)) :
    let v := (s.endReads (.audio p h)).updStream p h fun x =>
      { x with bufs := rest, frames := x.frames ++ x.decode (fitBytes b.len bytes), last := b.last }
    Answers (.audBufferReadDone p h bytes) s ((v.finishDesc p b.ring b.order 0 (bytesOf 4 b.len)).readAudio p h) := by
  have hdone : (s.dev.readOut (.audio p h) || (b.len == 0 && s.intake p)) = true := by simpa using hout
  obtain ⟨hr, _⟩ := hs
  simp only [Answers, exec_audBufferReadDone, execAudBufferReadDone, State.clocked_of_runs hr, hstream, hbufs, hdone, Bool.not_true, Bool.false_eq_true,
    if_false]

end Streams

theorem streamResults : StreamResults := by
  intro p r s hs
  refine ⟨fun f hready hopen => ?opens, fun f x hready hclose hstream => ?closes, fun f x hready hstream => ?buffers,
    fun h bytes x b rest => audBufferReadDone_answers hs bytes⟩
  case opens =>
    intro b x ends
    refine ⟨fun hdenied => ?denied, fun hgranted => ⟨fun hbad => ?badField, fun hnew hfits => ⟨fun htaken => ?taken, fun hfree => ?opened⟩⟩⟩
    case denied => exact audOpen_answers_refused hs hready hopen (if_pos hdenied) (by decide)
    all_goals
      have hpolicy : ¬ ((x.inputs.any fun i => !(s.dev.entry p).inputs.contains i) = true) := by simpa using hgranted
    case badField =>
      have hst : s.openStatus x = 0x02 := by rw [State.openStatus, if_neg hpolicy, if_pos (by simpa using hbad)]
      exact audOpen_answers_refused hs hready hopen hst (by decide)
    all_goals
      have hfield : ¬ (((s.dev.audio.stream p x.handle).isSome || decide (64 < x.first + x.chans)) = true) := by simp [hnew, hfits]
    case taken =>
      have hst : s.openStatus x = 0x10 := by rw [State.openStatus, if_neg hpolicy, if_neg hfield, if_pos htaken]
      exact audOpen_answers_refused hs hready hopen hst (by decide)
    case opened =>
      have hst : s.openStatus x = 0 := by rw [State.openStatus, if_neg hpolicy, if_neg hfield, if_neg (ne_true_of_eq_false hfree)]
      exact audOpen_answers_opened hs hready hopen hst
  case closes =>
    have hout := audClose_answers hs hready hclose hstream
    refine ⟨fun hcloser => ?again, fun hcloser => ?first⟩
    case again => rwa [if_pos hcloser] at hout
    case first => rwa [hcloser, if_neg (by decide)] at hout
  case buffers =>
    have hout := audBuffer_answers hs hready hstream
    refine ⟨fun hpart => ?part, fun hwhole => ?whole⟩
    case part => simpa only [if_pos hpart] using hout
    case whole => simpa only [if_neg (not_not.mpr hwhole)] using hout

/-! Audio registers and locks (R366, R372, R374, R381) -/
/-- The ramp time of a crosspoint, held within 1 and 1,000, and its target, as AUD_MIX_DATA names them (R366). -/
theorem mixData_eq (v : Nat) :
    (if fld (v % 2 ^ 26) 25 16 = 0 then v % 2 ^ 26 + 2 ^ 16
     else if 1000 < fld (v % 2 ^ 26) 25 16 then 1000 * 2 ^ 16 + v % 2 ^ 26 % 2 ^ 16 else v % 2 ^ 26) =
      clampNat 1 1000 (fld v 25 16) * 2 ^ 16 + fld v 15 0 := by
  have hramp : fld (v % 2 ^ 26) 25 16 = fld v 25 16 := by unfold fld; omega
  have hword : v % 2 ^ 26 = fld v 25 16 * 2 ^ 16 + fld v 15 0 := by unfold fld; omega
  have hlow : v % 2 ^ 26 % 2 ^ 16 = fld v 15 0 := by unfold fld; omega
  rw [hramp, hlow, hword, clampNat]
  by_cases hzero : fld v 25 16 = 0
  · rw [if_pos hzero, if_pos (by omega)]
    omega
  · rw [if_neg hzero, if_neg (by omega : ¬ fld v 25 16 < 1)]
    split <;> rfl

section AudioControl
variable {q : Fin 4} {s : State} (hs : Sounds s)

/-- The selected crosspoint's target and ramp time `w` wait for the boundary (R366). -/
def State.setCross (s : State) (w : Word) : State :=
  let k := fld (s.dev.reg 0x18004) 21 16 * 32 + fld (s.dev.reg 0x18004) 12 8
  s.updAudio fun a => { a with xset := Map.ins a.xset k w, xpend := if a.xpend.contains k then a.xpend else a.xpend ++ [k] }

include hs

theorem audMixData_answers (hm : s.dev.isManager q = true) (v : Word) :
    let sel := s.dev.reg 0x18004
    let (i, o) := (fld sel 21 16, fld sel 12 8)
    let u := s.setCross (word (clampNat 1 1000 (fld v.toNat 25 16) * 2 ^ 16 + fld v.toNat 15 0))
    Answers (.audMixDataWrite q v) s
      (if bit sel 0 then u.onDev fun d => d.setReg 0x18004 ((if o = 31 then (i + 1) % 64 else i) * 2 ^ 16 + (o + 1) % 32 * 2 ^ 8 + 1) else u) := by
  rw [← mixData_eq v.toNat]
  simp only [Answers, exec_audMixDataWrite, execAudMixDataWrite, State.audioOn_of_sounds hs, hm, Bool.not_true, Bool.false_eq_true, if_false]
  rfl

theorem audMixData_answers_other (hm : s.dev.isManager q = false) (v : Word) : Answers (.audMixDataWrite q v) s s := by
  simp only [Answers, exec_audMixDataWrite, execAudMixDataWrite, State.audioOn_of_sounds hs, hm, Bool.not_false, if_true]

/-- A coefficient that is none, or one of a locked output, is left (R374, R381). -/
theorem audEqData_answers (q : Fin 4) (v : Word) :
    let sel := s.dev.reg 0x1800C
    Answers (.audEqDataWrite q v) s
      (if s.dev.isManager q = false ∨ 4 < fld sel 2 0 ∨ bit s.dev.audio.lockOut (fld sel 12 8) = true then s
       else s.audioCatchUp.updAudio fun a => { a with eq := Map.ins a.eq (fld sel 12 8 * 64 + fld sel 6 4 * 8 + fld sel 2 0) v }) := by
  simp [Answers, execAudEqDataWrite, State.audioOn_of_sounds hs, or_assoc, apply_ite Host.Outcome.next]

/-- The settings that the policy gives the named outputs lock them (R381). -/
def State.lockNamed (s : State) (pol : Policy) (named : List (Fin 32)) : State :=
  named.foldl (fun u k => match at' pol.audio k with | some x => u.onDev (·.lockOutput k x) | none => u) s

theorem audLock_answers {o : Nat} {j : Journal} {pol : Policy} (hj : Managed s o 0x80 j) (hpol : s.dev.policy = some pol) :
    let named := (allFin 32).filter fun k => bit (j.arg 0 4) k.val
    let u := s.audioCatchUp.lockNamed pol named
    Answers (.audLock o) s
      (if named.any fun k => (at' pol.audio k).isNone then s.answer j mbBadArg [] else u.answer j mbOk (bytesOf 4 u.dev.audio.lockOut)) := by
  simp only [Answers, exec_audLock, execAudLock, State.audioOn_of_sounds hs, State.managed_of_managed hj, hpol, Option.bind_some] <;> rfl

theorem tdmBclkReturn_answers (p : Fin 4) :
    Answers (.tdmBclkReturn p) s (s.updAudio fun a => { a with tdm := upd a.tdm p fun t => { t with clkLost := false } }) := by
  rw [Answers, exec_tdmBclkReturn, execTdmBclkReturn, State.audioOn_of_sounds hs]

theorem tdmClkLost_answers {p : Fin 4} (hrun : bit (s.dev.active (0x18020 + 8 * p.val)) 31 = true)
    (hslave : bit (s.dev.active (0x18020 + 8 * p.val)) 30 = false) :
    Answers (.tdmClkLost p) s (s.updAudio fun a => { a with tdm := upd a.tdm p fun t => { t with clkLost := true } }) := by
  simp [Answers, execTdmClkLost, State.audioOn_of_sounds hs, hrun, hslave]

end AudioControl

theorem audioControlResults : AudioControlResults := by
  intro q s hs
  refine ⟨fun v hm => ?mixData, fun v hm => ⟨audMixData_answers_other hs hm v, ?eqOther⟩, fun v hm => ?eqData, fun o j pol hj hpol => ?lock,
    fun p => ⟨tdmBclkReturn_answers hs p, tdmClkLost_answers hs⟩⟩
  case mixData =>
    have hout := audMixData_answers hs hm v
    refine ⟨fun hstay => ?stays, fun hmoves => ?moves⟩
    case stays => simpa only [if_neg (ne_true_of_eq_false hstay), State.setCross] using hout
    case moves => simpa only [if_pos hmoves, State.setCross] using hout
  case eqOther => simpa only [if_pos (Or.inl hm)] using audEqData_answers hs q v
  case eqData =>
    have hout := audEqData_answers hs q v
    refine ⟨fun hlocked => ?locked, fun hcoef hfree => ?set⟩
    case locked => simpa only [if_pos (Or.inr (Or.inr hlocked))] using hout
    case set =>
      have hsets : ¬ (s.dev.isManager q = false ∨ 4 < fld (s.dev.reg 0x1800C) 2 0 ∨ bit s.dev.audio.lockOut (fld (s.dev.reg 0x1800C) 12 8) = true) := by
        simp [hm, hfree, hcoef]
      simpa only [if_neg hsets] using hout
  case lock =>
    have hout := audLock_answers hs hj hpol
    refine ⟨fun hmissing => ?missing, fun hall => ?locks⟩
    case missing => simpa only [if_pos hmissing] using hout
    case locks =>
      simp only [if_neg (ne_true_of_eq_false hall)] at hout
      exact hout

/-! Chimes (R377, R378, R380) -/
section Chimes
variable {p : Fin 64} {r : Fin 4} {s : State} {f : InFlight} (hs : Sounds s)

/-- A voice that plays a CHIME (R377). -/
def State.chimeVoice (s : State) (p : Fin 64) (r : Fin 4) (f : InFlight) : Playing :=
  { ply := some p, classA := (s.ply p).cls == .a, wave := ⟨byteAt f.bytes 32 % 16, by omega⟩, mask := le32 f.bytes 36, gain := le16 f.bytes 40,
    left := if le16 f.bytes 34 = 0 then none else some (le16 f.bytes 34), pos := 0, desc := some (r, f.order), sounds := false, stop := false, ended := false,
    closing := false, fade := none, hold := false }

/-- The waveform or an output that a CHIME names is not granted to its ply (R377). -/
def State.deniesChime (s : State) (p : Fin 64) (f : InFlight) : Prop :=
  bit (s.dev.entry p).waves (byteAt f.bytes 32 % 16) = false ∨ Nat.land (le32 f.bytes 36) (s.dev.entry p).outputs ≠ le32 f.bytes 36

theorem State.deniesChime_iff (s : State) (p : Fin 64) (f : InFlight) : s.deniesChime p f ↔
    (!bit (s.dev.entry p).waves (byteAt f.bytes 32 % 16) || Nat.land (le32 f.bytes 36) (s.dev.entry p).outputs != le32 f.bytes 36) = true := by
  rw [State.deniesChime, Bool.or_eq_true, Bool.not_eq_true', bne_iff_ne]

include hs

section Chime
variable (hready : s.ready p r 0x42 = some f) (hplay : bit (byteAt f.bytes 33) 0 = false)
include hready hplay

theorem chime_answers_denied (hno : s.deniesChime p f) : Answers (.chime p r) s (s.finishDesc p r f.order 0x05 []) := by
  simp only [Answers, exec_chime, execChime, State.audioOn_of_sounds hs, hready, hplay, Bool.false_eq_true, if_false, if_pos ((s.deniesChime_iff p f).mp hno)]

theorem chime_answers_noVoice (hgranted : ¬ s.deniesChime p f) (hnone : s.dev.findVoice p = none) :
    Answers (.chime p r) s (s.finishDesc p r f.order 0x10 []) := by
  simp only [Answers, exec_chime, execChime, State.audioOn_of_sounds hs, hready, hplay, Bool.false_eq_true, if_false,
    if_neg (mt (s.deniesChime_iff p f).mpr hgranted), hnone]

theorem chime_answers_voice (hgranted : ¬ s.deniesChime p f) {v : Fin 16} (hvoice : s.dev.findVoice p = some v) :
    Answers (.chime p r) s ((s.dispatch p r f.order 0).setVoice v (some (s.chimeVoice p r f))) := by
  simp only [Answers, exec_chime, execChime, State.audioOn_of_sounds hs, hready, hplay, Bool.false_eq_true, if_false,
    if_neg (mt (s.deniesChime_iff p f).mpr hgranted), hvoice, State.chimeVoice]

end Chime

theorem chimeStop_answers (hready : s.ready p r 0x42 = some f) (hstop : bit (byteAt f.bytes 33) 0 = true) :
    let halt := fun (x : Playing) => if x.ply = some p ∧ x.wave.val = byteAt f.bytes 32 % 16 then { x with stop := true } else x
    Answers (.chimeStop p r) s ((s.updAudio fun a => { a with voices := a.voices.map fun v => v.map halt }).finishDesc p r f.order 0 []) := by
  simp only [Answers, exec_chimeStop, execChimeStop, State.audioOn_of_sounds hs, hready, hstop, Bool.not_true, Bool.false_eq_true, if_false]

/-- A binding to an edge fires with the edge, one to an event once that is due (R380). -/
theorem chimeTrigger_answers {i : Nat} {pol : Policy} {b : ChimeBind} (hpol : s.dev.policy = some pol) (hbind : pol.binds[i]? = some b)
    (hfires : (∃ x y, b.src = .edge x y) ∨ s.dev.audio.due.contains i = true) :
    Answers (.chimeTrigger i) s ((s.updAudio fun a => { a with due := a.due.erase i }).setVoice 15
      (some { ply := none, classA := true, wave := b.wave, mask := b.mask, gain := b.gain, left := some 1, pos := 0, desc := none, sounds := false,
              stop := false, ended := false, closing := false, fade := none, hold := false })) := by
  rcases hfires with ⟨x, y, hsrc⟩ | hdue
  · simp [Answers, execChimeTrigger, State.audioOn_of_sounds hs, hpol, hbind, hsrc]
  · simp only [Answers, exec_chimeTrigger, execChimeTrigger, State.audioOn_of_sounds hs, hpol, Option.bind_some, hbind, hdue, Bool.not_true, Bool.and_false,
      Bool.false_eq_true, if_false]

section VoiceEnd
variable {v : Fin 16} {x : Playing} (hx : at' s.dev.audio.voices v = some x)
include hx

theorem chimeVoiceEnd_answers_sounding (hends : x.ended = false) : Answers (.chimeVoiceEnd v) s s := by
  simp only [Answers, exec_chimeVoiceEnd, execChimeVoiceEnd, State.audioOn_of_sounds hs, hx, hends, Bool.not_false, if_true]

/-- The voice of a binding, which has no ply, is free. -/
theorem chimeVoiceEnd_answers_bound (hends : x.ended = true) (hply : x.ply = none) : Answers (.chimeVoiceEnd v) s (s.setVoice v none) := by
  simp [Answers, execChimeVoiceEnd, State.audioOn_of_sounds hs, hx, hends, hply]

variable {a : Fin 64} {b : Fin 4} {c : Nat} (hends : x.ended = true) (hply : x.ply = some a) (hdesc : x.desc = some (b, c))
include hends hply hdesc

theorem chimeVoiceEnd_answers_active (hactive : (s.ply a).state = .active) : Answers (.chimeVoiceEnd v) s ((s.setVoice v none).finishDesc a b c 0 []) := by
  have hactive' : ((s.setVoice v none).ply a).state = .active := hactive
  simp [Answers, execChimeVoiceEnd, State.audioOn_of_sounds hs, hx, hends, hply, hdesc, hactive']

theorem chimeVoiceEnd_answers_draining (hdrain : (s.ply a).state ≠ .active) (hfind : (s.ring a b).queue.find? (·.order == c) = some f) :
    Answers (.chimeVoiceEnd v) s ((s.setVoice v none).discard a b f) := by
  have hdrain' : ((s.setVoice v none).ply a).state ≠ .active := hdrain
  have hfind' : ((s.setVoice v none).ring a b).queue.find? (·.order == c) = some f := hfind
  simp [Answers, execChimeVoiceEnd, State.audioOn_of_sounds hs, hx, hends, hply, hdesc, hdrain', hfind']

end VoiceEnd
end Chimes

theorem chimeResults : ChimeResults := by
  intro p r s hs
  refine ⟨fun f hready hplay => ⟨chime_answers_denied hs hready hplay, fun hwave hmask => ?granted⟩, fun f => chimeStop_answers hs,
    fun i pol b => chimeTrigger_answers hs, fun v x hx => ⟨chimeVoiceEnd_answers_sounding hs hx, chimeVoiceEnd_answers_bound hs hx,
      fun a b c hends hply hdesc => ⟨chimeVoiceEnd_answers_active hs hx hends hply hdesc, fun f => ?drained⟩⟩⟩
  case drained => exact chimeVoiceEnd_answers_draining hs hx hends hply hdesc
  case granted =>
    have hgranted : ¬ s.deniesChime p f := not_or.mpr ⟨ne_false_of_eq_true hwave, not_not.mpr hmask⟩
    exact ⟨chime_answers_noVoice hs hready hplay hgranted, fun v => chime_answers_voice hs hready hplay hgranted⟩

/-- Settles O47: it holds, each clause by the lemma of its row. The model's choice, and not the manual's words, are that a handle already open and a
stream that closes already answer BAD_FIELD (log entry 98), and that AUD_OPEN with CLOSE uses only its handle (log entry 76). -/
theorem audioResults : Obligations.AudioResults := ⟨streamResults, audioControlResults, chimeResults⟩

end Sys2Proof.Machine

namespace Sys2Proof.Machine
open Sys2Proof.Claims

/-! Every command answers a next state, keeps the queue and soundness, and changes DRAM only if it is one of `mayChangeDram` -/

theorem exec_keeps (c : Instr) (s : State) : KeepsRes (mayChangeDram c) s (exec c s) :=
  match c with
  | .registerWrite .. => execRegisterWrite_keeps ..
  | .configRequest .. => execConfigRequest_keeps ..
  | .epochBoundary .. => execEpochBoundary_keeps ..
  | .sknAuditRelease .. => execSknAuditRelease_keeps ..
  | .sknAuditEpochLoRead .. => execSknAuditEpochLoRead_keeps ..
  | .creditWaitRetry .. => execCreditWaitRetry_keeps ..
  | .hapRecharge => execHapRecharge_keeps ..
  | .hostReadCompletion .. => execHostReadCompletion_keeps ..
  | .htagCompletionTimeout .. => execHtagCompletionTimeout_keeps ..
  | .iommuRefusal .. => execIommuRefusal_keeps ..
  | .nudgeSq .. => execNudgeSq_keeps ..
  | .nudgeCq .. => execNudgeCq_keeps ..
  | .ringEnable .. => execRingEnable_keeps ..
  | .ringDisable .. => execRingDisable_keeps ..
  | .cqDisable .. => execCqDisable_keeps ..
  | .fenceValLoWrite .. => execFenceValLoWrite_keeps ..
  | .fenceValHiWrite .. => execFenceValHiWrite_keeps ..
  | .fenceValLoRead .. => execFenceValLoRead_keeps ..
  | .ringServiceResume .. => execRingServiceResume_keeps ..
  | .doorbellRecordReadDone .. => execDoorbellRecordReadDone_keeps ..
  | .slotReadDone .. => execSlotReadDone_keeps ..
  | .pollTimer .. => execPollTimer_keeps ..
  | .pollReadsDone .. => execPollReadsDone_keeps ..
  | .descriptorParse .. => execDescriptorParse_keeps ..
  | .cqConsReadDone .. => execCqConsReadDone_keeps ..
  | .fenceWaitTimeout .. => execFenceWaitTimeout_keeps ..
  | .descriptorRetire .. => execDescriptorRetire_keeps ..
  | .portEvtData7Read .. => execPortEvtData7Read_keeps ..
  | .portEvtStatusRead .. => execPortEvtStatusRead_keeps ..
  | .nop .. => execNop_keeps ..
  | .fenceWait .. => execFenceWait_keeps ..
  | .fenceSignal .. => execFenceSignal_keeps ..
  | .copy .. => execCopy_keeps ..
  | .fill .. => execFill_keeps ..
  | .check .. => execCheck_keeps ..
  | .commit .. => execCommit_keeps ..
  | .layer .. => execLayer_keeps ..
  | .sigExpect .. => execSigExpect_keeps ..
  | .gfxSubmit .. => execGfxSubmit_keeps ..
  | .computeSubmit .. => execComputeSubmit_keeps ..
  | .audOpen .. => execAudOpen_keeps ..
  | .audClose .. => execAudClose_keeps ..
  | .audBuffer .. => execAudBuffer_keeps ..
  | .chime .. => execChime_keeps ..
  | .chimeStop .. => execChimeStop_keeps ..
  | .hapPlay .. => execHapPlay_keeps ..
  | .hapLoad .. => execHapLoad_keeps ..
  | .tchConfig .. => execTchConfig_keeps ..
  | .mapPages .. => execMap_keeps ..
  | .unmapPages .. => execUnmap_keeps ..
  | .plyCreate .. => execPlyCreate_keeps ..
  | .plyShare .. => execPlyShare_keeps ..
  | .plyQuiesce .. => execPlyQuiesce_keeps ..
  | .plyResume .. => execPlyResume_keeps ..
  | .plyReset .. => execPlyReset_keeps ..
  | .plyDestroy .. => execPlyDestroy_keeps ..
  | .plyQuery .. => execPlyQuery_keeps ..
  | .plyQuiesced .. => execPlyQuiesced_keeps ..
  | .copyStop .. => execCopyStop_keeps ..
  | .migSession .. => execMigSession_keeps ..
  | .migLogStart .. => execMigLogStart_keeps ..
  | .migLogSwap .. => execMigLogSwap_keeps ..
  | .migLogStop .. => execMigLogStop_keeps ..
  | .migExport .. => execMigExport_keeps ..
  | .migImport .. => execMigImport_keeps ..
  | .timingArm .. => execTimingArm_keeps ..
  | .hdFrameLoRead .. => execHdFrameLoRead_keeps ..
  | .armingCutoff .. => execArmingCutoff_keeps ..
  | .frameBoundary .. => execFrameBoundary_keeps ..
  | .commitArm .. => execCommitArm_keeps ..
  | .pllLock .. => execPllLock_keeps ..
  | .idleFrameEnd .. => execIdleFrameEnd_keeps ..
  | .linkTrainStart .. => execLinkTrainStart_keeps ..
  | .trainAttemptDone .. => execTrainAttemptDone_keeps ..
  | .trainAttemptTimeout .. => execTrainAttemptTimeout_keeps ..
  | .dpHotplugPlug .. => execDpHotplugPlug_keeps ..
  | .dpHotplugUnplug .. => execDpHotplugUnplug_keeps ..
  | .dpHotplugIrq .. => execDpHotplugIrq_keeps ..
  | .headTolReport .. => execHeadTolReport_keeps ..
  | .headTopupAck .. => execHeadTopupAck_keeps ..
  | .underrun .. => execUnderrun_keeps ..
  | .fbselRelease .. => execFbselRelease_keeps ..
  | .cmpLutDataWrite .. => execCmpLutDataWrite_keeps ..
  | .cmpLutDataRead .. => execCmpLutDataRead_keeps ..
  | .tenApply .. => execTenApply_keeps ..
  | .sigHoldClear .. => execSigHoldClear_keeps ..
  | .sigResultLoRead .. => execSigResultLoRead_keeps ..
  | .clusterOffer .. => execClusterOffer_keeps ..
  | .classAPreempt .. => execClassAPreempt_keeps ..
  | .preemptSaveDone .. => execPreemptSaveDone_keeps ..
  | .gfxJobRetire .. => execGfxJobRetire_keeps ..
  | .gfxDeadlineMiss .. => execGfxDeadlineMiss_keeps ..
  | .pktNop .. => execPktNop_keeps ..
  | .call .. => execCall_keeps ..
  | .pktEnd .. => execPktEnd_keeps ..
  | .saveArea .. => execSaveArea_keeps ..
  | .shader .. => execShader_keeps ..
  | .resources .. => execResources_keeps ..
  | .constPkt .. => execConst_keeps ..
  | .target .. => execTarget_keeps ..
  | .raster .. => execRaster_keeps ..
  | .blend .. => execBlend_keeps ..
  | .draw .. => execDraw_keeps ..
  | .drawIndexed .. => execDrawIndexed_keeps ..
  | .drawIndirect .. => execDrawIndirect_keeps ..
  | .dispatch .. => execDispatch_keeps ..
  | .dispatchIndirect .. => execDispatchIndirect_keeps ..
  | .pktBarrier .. => execPktBarrier_keeps ..
  | .pktSignal .. => execPktSignal_keeps ..
  | .timestamp .. => execTimestamp_keeps ..
  | .passBegin .. => execPassBegin_keeps ..
  | .passEnd .. => execPassEnd_keeps ..
  | .movB32 .. => execMovB32_keeps ..
  | .addI32 .. => execAddI32_keeps ..
  | .subI32 .. => execSubI32_keeps ..
  | .mulLoU32 .. => execMulLoU32_keeps ..
  | .mulHiU32 .. => execMulHiU32_keeps ..
  | .mulHiI32 .. => execMulHiI32_keeps ..
  | .madU32 .. => execMadU32_keeps ..
  | .minI32 .. => execMinI32_keeps ..
  | .maxI32 .. => execMaxI32_keeps ..
  | .minU32 .. => execMinU32_keeps ..
  | .maxU32 .. => execMaxU32_keeps ..
  | .andIns .. => execAnd_keeps ..
  | .orIns .. => execOr_keeps ..
  | .xor .. => execXor_keeps ..
  | .notIns .. => execNot_keeps ..
  | .shl .. => execShl_keeps ..
  | .shrU .. => execShrU_keeps ..
  | .shrI .. => execShrI_keeps ..
  | .fieldU32 .. => execFieldU32_keeps ..
  | .fieldI32 .. => execFieldI32_keeps ..
  | .merge .. => execMerge_keeps ..
  | .popc .. => execPopc_keeps ..
  | .lowbit .. => execLowbit_keeps ..
  | .highbit .. => execHighbit_keeps ..
  | .sel .. => execSel_keeps ..
  | .laneGet .. => execLaneGet_keeps ..
  | .laneLow .. => execLaneLow_keeps ..
  | .addF32 .. => execAddF32_keeps ..
  | .subF32 .. => execSubF32_keeps ..
  | .mulF32 .. => execMulF32_keeps ..
  | .fmaF32 .. => execFmaF32_keeps ..
  | .minF32 .. => execMinF32_keeps ..
  | .maxF32 .. => execMaxF32_keeps ..
  | .fractF32 .. => execFractF32_keeps ..
  | .floor .. => execFloor_keeps ..
  | .ceil .. => execCeil_keeps ..
  | .trunc .. => execTrunc_keeps ..
  | .round .. => execRound_keeps ..
  | .h2Add .. => execH2Add_keeps ..
  | .h2Mul .. => execH2Mul_keeps ..
  | .h2Fma .. => execH2Fma_keeps ..
  | .h2Min .. => execH2Min_keeps ..
  | .h2Max .. => execH2Max_keeps ..
  | .dothF32 .. => execDothF32_keeps ..
  | .recipF32 .. => execRecipF32_keeps ..
  | .rsqrtF32 .. => execRsqrtF32_keeps ..
  | .sqrtF32 .. => execSqrtF32_keeps ..
  | .exp2F32 .. => execExp2F32_keeps ..
  | .log2F32 .. => execLog2F32_keeps ..
  | .sinturnF32 .. => execSinturnF32_keeps ..
  | .costurnF32 .. => execCosturnF32_keeps ..
  | .cvtF32I32 .. => execCvtF32I32_keeps ..
  | .cvtF32U32 .. => execCvtF32U32_keeps ..
  | .cvtI32F32 .. => execCvtI32F32_keeps ..
  | .cvtU32F32 .. => execCvtU32F32_keeps ..
  | .cvtF32F16Lo .. => execCvtF32F16Lo_keeps ..
  | .cvtF32F16Hi .. => execCvtF32F16Hi_keeps ..
  | .cvtH2F32 .. => execCvtH2F32_keeps ..
  | .cvtUnorm8 .. => execCvtUnorm8_keeps ..
  | .unpackUnorm8 .. => execUnpackUnorm8_keeps ..
  | .cvtUnorm16 .. => execCvtUnorm16_keeps ..
  | .cmpLtF32 .. => execCmpLtF32_keeps ..
  | .cmpEqF32 .. => execCmpEqF32_keeps ..
  | .cmpLeF32 .. => execCmpLeF32_keeps ..
  | .cmpGtF32 .. => execCmpGtF32_keeps ..
  | .cmpNeF32 .. => execCmpNeF32_keeps ..
  | .cmpGeF32 .. => execCmpGeF32_keeps ..
  | .cmpLtI32 .. => execCmpLtI32_keeps ..
  | .cmpEqI32 .. => execCmpEqI32_keeps ..
  | .cmpLeI32 .. => execCmpLeI32_keeps ..
  | .cmpGtI32 .. => execCmpGtI32_keeps ..
  | .cmpNeI32 .. => execCmpNeI32_keeps ..
  | .cmpGeI32 .. => execCmpGeI32_keeps ..
  | .cmpLtU32 .. => execCmpLtU32_keeps ..
  | .cmpEqU32 .. => execCmpEqU32_keeps ..
  | .cmpLeU32 .. => execCmpLeU32_keeps ..
  | .cmpGtU32 .. => execCmpGtU32_keeps ..
  | .cmpNeU32 .. => execCmpNeU32_keeps ..
  | .cmpGeU32 .. => execCmpGeU32_keeps ..
  | .interpF32 .. => execInterpF32_keeps ..
  | .sMov .. => execSMov_keeps ..
  | .sMovi .. => execSMovi_keeps ..
  | .sAdd .. => execSAdd_keeps ..
  | .sSub .. => execSSub_keeps ..
  | .sMulLo .. => execSMulLo_keeps ..
  | .sAnd .. => execSAnd_keeps ..
  | .sOr .. => execSOr_keeps ..
  | .sXor .. => execSXor_keeps ..
  | .sShl .. => execSShl_keeps ..
  | .sShrU .. => execSShrU_keeps ..
  | .sMinU .. => execSMinU_keeps ..
  | .sMaxU .. => execSMaxU_keeps ..
  | .sCmpEq .. => execSCmpEq_keeps ..
  | .sCmpLtU .. => execSCmpLtU_keeps ..
  | .sCmpLtI .. => execSCmpLtI_keeps ..
  | .pAnd .. => execPAnd_keeps ..
  | .pOr .. => execPOr_keeps ..
  | .pXor .. => execPXor_keeps ..
  | .pAndn .. => execPAndn_keeps ..
  | .pNot .. => execPNot_keeps ..
  | .pTos .. => execPTos_keeps ..
  | .pFroms .. => execPFroms_keeps ..
  | .bra .. => execBra_keeps ..
  | .braSz .. => execBraSz_keeps ..
  | .braSnz .. => execBraSnz_keeps ..
  | .braPany .. => execBraPany_keeps ..
  | .braPnone .. => execBraPnone_keeps ..
  | .ifIns .. => execIf_keeps ..
  | .elseIns .. => execElse_keeps ..
  | .endif .. => execEndif_keeps ..
  | .loop .. => execLoop_keeps ..
  | .breakIns .. => execBreak_keeps ..
  | .cont .. => execCont_keeps ..
  | .endloop .. => execEndloop_keeps ..
  | .kill .. => execKill_keeps ..
  | .waveEnd .. => execWaveEnd_keeps ..
  | .bar .. => execBar_keeps ..
  | .membarWg .. => execMembarWg_keeps ..
  | .membarDev .. => execMembarDev_keeps ..
  | .idle .. => execIdle_keeps ..
  | .time .. => execTime_keeps ..
  | .ilkBegin .. => execIlkBegin_keeps ..
  | .ilkEnd .. => execIlkEnd_keeps ..
  | .ldG .. => execLdG_keeps ..
  | .stG .. => execStG_keeps ..
  | .ldB .. => execLdB_keeps ..
  | .stB .. => execStB_keeps ..
  | .ldL .. => execLdL_keeps ..
  | .stL .. => execStL_keeps ..
  | .plsLd .. => execPlsLd_keeps ..
  | .plsSt .. => execPlsSt_keeps ..
  | .atomAdd .. => execAtomAdd_keeps ..
  | .atomMinI .. => execAtomMinI_keeps ..
  | .atomMinU .. => execAtomMinU_keeps ..
  | .atomMaxI .. => execAtomMaxI_keeps ..
  | .atomMaxU .. => execAtomMaxU_keeps ..
  | .atomAnd .. => execAtomAnd_keeps ..
  | .atomOr .. => execAtomOr_keeps ..
  | .atomXor .. => execAtomXor_keeps ..
  | .atomXchg .. => execAtomXchg_keeps ..
  | .atomCas .. => execAtomCas_keeps ..
  | .atomAddB .. => execAtomAddB_keeps ..
  | .outPos .. => execOutPos_keeps ..
  | .outVar .. => execOutVar_keeps ..
  | .outColour .. => execOutColour_keeps ..
  | .outDepth .. => execOutDepth_keeps ..
  | .sample .. => execSample_keeps ..
  | .sampleL .. => execSampleL_keeps ..
  | .sampleB .. => execSampleB_keeps ..
  | .fetch .. => execFetch_keeps ..
  | .memTransferAccept .. => execMemTransferAccept_keeps ..
  | .memReadReturn .. => execMemReadReturn_keeps ..
  | .refreshDue .. => execRefreshDue_keeps ..
  | .mr4Poll .. => execMr4Poll_keeps ..
  | .bankIdleClose .. => execBankIdleClose_keeps ..
  | .dramTraining => execDramTraining_keeps ..
  | .dqsOscSample .. => execDqsOscSample_keeps ..
  | .retrainSlice .. => execRetrainSlice_keeps ..
  | .retrainForceTimeout .. => execRetrainForceTimeout_keeps ..
  | .lightNapEnter .. => execLightNapEnter_keeps ..
  | .lightNapExit .. => execLightNapExit_keeps ..
  | .deepNapRequest => execDeepNapRequest_keeps ..
  | .deepNapEnter => execDeepNapEnter_keeps ..
  | .deepNapExit => execDeepNapExit_keeps ..
  | .caParityAlert .. => execCaParityAlert_keeps ..
  | .parityReplay .. => execParityReplay_keeps ..
  | .patrolScrub .. => execPatrolScrub_keeps ..
  | .memPasr .. => execMemPasr_keeps ..
  | .mbxReqProdWrite .. => execMbxReqProdWrite_keeps ..
  | .mbxRspConsWrite .. => execMbxRspConsWrite_keeps ..
  | .mbxRequestTake .. => execMbxRequestTake_keeps ..
  | .mbxResponse .. => execMbxResponse_keeps ..
  | .gate => execGate_keeps ..
  | .elyInfo .. => execElyInfo_keeps ..
  | .containerLoad .. => execContainerLoad_keeps ..
  | .containerStage .. => execContainerStage_keeps ..
  | .svnCommit .. => execSvnCommit_keeps ..
  | .wmRaise .. => execWmRaise_keeps ..
  | .memGive .. => execMemGive_keeps ..
  | .memTake .. => execMemTake_keeps ..
  | .granuleScrubDone .. => execGranuleScrubDone_keeps ..
  | .lend .. => execLend_keeps ..
  | .unlend .. => execUnlend_keeps ..
  | .ownerQuery .. => execOwnerQuery_keeps ..
  | .audLock .. => execAudLock_keeps ..
  | .elyRestartTrigger .. => execElyRestartTrigger_keeps ..
  | .elyWatchdogExpiry => execElyWatchdogExpiry_keeps ..
  | .elyRestartDone => execElyRestartDone_keeps ..
  | .boot .. => execBoot_keeps ..
  | .getVersion .. => execGetVersion_keeps ..
  | .getCapabilities .. => execGetCapabilities_keeps ..
  | .negotiateAlgorithms .. => execNegotiateAlgorithms_keeps ..
  | .getDigests .. => execGetDigests_keeps ..
  | .getCertificate .. => execGetCertificate_keeps ..
  | .challenge .. => execChallenge_keeps ..
  | .getMeasurements .. => execGetMeasurements_keeps ..
  | .keyExchange .. => execKeyExchange_keeps ..
  | .finish .. => execFinish_keeps ..
  | .keyUpdate .. => execKeyUpdate_keeps ..
  | .spdmHeartbeat .. => execSpdmHeartbeat_keeps ..
  | .endSession .. => execEndSession_keeps ..
  | .vendorDefined .. => execVendorDefined_keeps ..
  | .keyProg .. => execKeyProg_keeps ..
  | .kSetStop .. => execKSetStop_keeps ..
  | .perstNAssert .. => execPerstNAssert_keeps ..
  | .perstNRelease .. => execPerstNRelease_keeps ..
  | .hotReset .. => execHotReset_keeps ..
  | .flr .. => execFlr_keeps ..
  | .dlDownDetect .. => execDlDownDetect_keeps ..
  | .linkUp .. => execLinkUp_keeps ..
  | .atsInvalidate .. => execAtsInvalidate_keeps ..
  | .atsInvalidateComplete .. => execAtsInvalidateComplete_keeps ..
  | .ptmTimer .. => execPtmTimer_keeps ..
  | .ptmNow .. => execPtmNow_keeps ..
  | .ptmResponse .. => execPtmResponse_keeps ..
  | .powerStateChange .. => execPowerStateChange_keeps ..
  | .ltrMessage .. => execLtrMessage_keeps ..
  | .aspmIdleTimeout .. => execAspmIdleTimeout_keeps ..
  | .wakeNAssert => execWakeNAssert_keeps ..
  | .whlJoin .. => execWhlJoin_keeps ..
  | .whlLeave .. => execWhlLeave_keeps ..
  | .whlChanOpen .. => execWhlChanOpen_keeps ..
  | .whlChanClose .. => execWhlChanClose_keeps ..
  | .whlLoopTest .. => execWhlLoopTest_keeps ..
  | .whlProbeReturn .. => execWhlProbeReturn_keeps ..
  | .whlTimeMark .. => execWhlTimeMark_keeps ..
  | .whlOffsetCheck => execWhlOffsetCheck_keeps ..
  | .whlDelayMeasure .. => execWhlDelayMeasure_keeps ..
  | .whlAdopt .. => execWhlAdopt_keeps ..
  | .whlLinkLoss .. => execWhlLinkLoss_keeps ..
  | .whlRepairDone .. => execWhlRepairDone_keeps ..
  | .whlSendStart .. => execWhlSendStart_keeps ..
  | .whlSendDone .. => execWhlSendDone_keeps ..
  | .whlReceiveDone .. => execWhlReceiveDone_keeps ..
  | .audBufferReadDone .. => execAudBufferReadDone_keeps ..
  | .audMixDataWrite .. => execAudMixDataWrite_keeps ..
  | .audEqDataWrite .. => execAudEqDataWrite_keeps ..
  | .tdmClkLost .. => execTdmClkLost_keeps ..
  | .chimeTrigger .. => execChimeTrigger_keeps ..
  | .chimeVoiceEnd .. => execChimeVoiceEnd_keeps ..
  | .touchScanStart .. => execTouchScanStart_keeps ..
  | .touchScanDone .. => execTouchScanDone_keeps ..
  | .persistentTouch .. => execPersistentTouch_keeps ..
  | .recal .. => execRecal_keeps ..
  | .selftest .. => execSelftest_keeps ..
  | .refStore .. => execRefStore_keeps ..
  | .tchCmdDone .. => execTchCmdDone_keeps ..
  | .wakeScan .. => execWakeScan_keeps ..
  | .htrigEdge .. => execHtrigEdge_keeps ..
  | .hapEffectStart .. => execHapEffectStart_keeps ..
  | .hapEnergyTimeout .. => execHapEnergyTimeout_keeps ..
  | .hapDriveEnd .. => execHapDriveEnd_keeps ..
  | .hapBrakeEnd .. => execHapBrakeEnd_keeps ..
  | .hapEnHoldExpiry .. => execHapEnHoldExpiry_keeps ..
  | .hapTrip .. => execHapTrip_keeps ..
  | .hapRearm .. => execHapRearm_keeps ..
  | .hapClear .. => execHapClear_keeps ..
  | .hapEnOneshotExpiry .. => execHapEnOneshotExpiry_keeps ..
  | .pwrStateRun .. => execPwrStateRun_keeps ..
  | .pwrStateDim .. => execPwrStateDim_keeps ..
  | .pwrStateWatch .. => execPwrStateWatch_keeps ..
  | .pwrIsland .. => execPwrIsland_keeps ..
  | .pwrOppoint .. => execPwrOppoint_keeps ..
  | .pwrReset .. => execPwrReset_keeps ..
  | .warmReset => execWarmReset_keeps ..
  | .islandRampStart => execIslandRampStart_keeps ..
  | .islandPowerGood .. => execIslandPowerGood_keeps ..
  | .refclk0Loss => execRefclk0Loss_keeps ..
  | .slpclkLoss => execSlpclkLoss_keeps ..
  | .fcntStart .. => execFcntStart_keeps ..
  | .fcntDone .. => execFcntDone_keeps ..
  | .tempSample .. => execTempSample_keeps ..
  | .thermtrip => execThermtrip_keeps ..
  | .vaonWarnStart => execVaonWarnStart_keeps ..
  | .vaonWarnEnd .. => execVaonWarnEnd_keeps ..
  | .vaonReset => execVaonReset_keeps ..
  | .vaonApply => execVaonApply_keeps ..
  | .pwronRstNAssert => execPwronRstNAssert_keeps ..
  | .watchExit .. => execWatchExit_keeps ..
  | .opsecSecond => execOpsecSecond_keeps ..
  | .selftestSlice .. => execSelftestSlice_keeps ..
  | .selftestPassLate .. => execSelftestPassLate_keeps ..
  | .cocoonRefill => execCocoonRefill_keeps ..
  | .cocoonSlotWrite .. => execCocoonSlotWrite_keeps ..
  | .cocoonSectorErase => execCocoonSectorErase_keeps ..
  | .ccnInfo .. => execCcnInfo_keeps ..
  | .ccnFreeze .. => execCcnFreeze_keeps ..
  | .ccnThaw .. => execCcnThaw_keeps ..
  | .ccnFreezeTimeout => execCcnFreezeTimeout_keeps ..
  | .ccnRead .. => execCcnRead_keeps ..
  | .ccnOpsecLoRead .. => execCcnOpsecLoRead_keeps ..
  | .hapControlTick .. => execHapControlTick_keeps ..
  | .tdmBclkReturn .. => execTdmBclkReturn_keeps ..
  | .slpclkReturn => execSlpclkReturn_keeps ..
  | .memCommandOpportunity .. => execMemCommandOpportunity_keeps ..
  | .whlLoopTrained .. => execWhlLoopTrained_keeps ..
  | .whlAnnounce .. => execWhlAnnounce_keeps ..
  | .whlProbeReceived .. => execWhlProbeReceived_keeps ..
  | .linkL1Change .. => execLinkL1Change_keeps ..

theorem step_of_queue {s : State} {c : Instr} {rest : List Instr} (h : s.pending = c :: rest) : step s = exec c { s with pending := rest } := by
  simp only [step, h]

/-- Settles O4: it holds. An empty queue lets a REFCLK0 cycle pass, and any other step is the command at the queue's front; both keep soundness. -/
theorem stepKeepsSound : Obligations.StepKeepsSound := by
  intro s t hs hstep
  cases hq : s.pending with
  | nil =>
    rw [step_of_empty_queue hq] at hstep
    cases hstep
    exact (State.idle_keeps s (Keeps.refl s)).sound hs
  | cons c rest =>
    obtain ⟨u, hexec, hkeeps⟩ := exec_keeps c { s with pending := rest }
    rw [step_of_queue hq, hexec] at hstep
    cases hstep
    exact hkeeps.sound ⟨hs.dram, hs.skein⟩

end Sys2Proof.Machine

namespace Sys2Proof.Machine
open Sys2Proof.Claims

/-! The tests of a take, and what a take and a return leave (R44, R46) -/

/-- What the holders other than `h` are owed (R46). -/
def Account.owedOthers (a : Account) (h : Fin holders) : Nat := (((allFin holders).filter (· != h)).map a.owed).sum

theorem Account.owed_add_owedOthers (a : Account) (h : Fin holders) : a.owed h + a.owedOthers h = a.owedSum := by
  have herase : (allFin holders).erase h = (allFin holders).filter (· != h) := (List.nodup_finRange holders).erase_eq_filter h
  rw [Account.owedOthers, ← herase]
  exact List.sum_map_erase a.owed (List.mem_finRange h)

/-- Neither what `h` holds nor the free pool counts in what the others are owed. -/
theorem Account.owedOthers_hold_put (a : Account) (h : Fin holders) (x free : Nat) :
    ({ a with free := free, hold := put a.hold h x } : Account).owedOthers h = a.owedOthers h := by
  refine congrArg List.sum (List.map_congr_left fun g hg => ?_)
  have hne : g ≠ h := by simpa using (List.mem_filter.mp hg).2
  simp only [Account.owed, at'_put_ne a.hold x hne]

theorem Account.grants_iff_owedOthers (a : Account) (h : Fin holders) (n : Nat) :
    a.grants h n = true ↔ at' a.hold h + n ≤ at' a.cap h ∧ n + a.owedOthers h ≤ a.free := by
  have hsum := a.owed_add_owedOthers h
  rw [Account.grants_iff, ← hsum, Nat.add_sub_cancel_left]

theorem Account.take_of_grants {a : Account} {h : Fin holders} {n : Nat} (hg : a.grants h n = true) :
    a.take h n = some { a with free := a.free - n, hold := put a.hold h (at' a.hold h + n) } := if_pos hg

theorem takeGrantsWithinCapAndReserve : TakeGrantsWithinCapAndReserve := by
  intro k kd h n a others
  have hiff : a.grants h n = true ↔ at' a.hold h + n ≤ at' a.cap h ∧ n + others ≤ a.free := a.grants_iff_owedOthers h n
  split
  · next hyes =>
    have htake : k.take kd h n = some (k.setAcct kd { a with free := a.free - n, hold := put a.hold h (at' a.hold h + n) }) := by
      rw [Skein.take, Account.take_of_grants (hiff.mpr hyes), Option.map_some]
    refine ⟨_, htake, ?_⟩
    simp only [Skein.acct_setAcct_self, at'_put_self]
    have hfree : n ≤ a.free := by omega
    exact ⟨Nat.sub_add_cancel hfree, trivial, fun g hg => at'_put_ne _ _ hg, trivial, trivial, trivial,
      fun kd' hkd => Skein.acct_setAcct_ne k _ hkd⟩
  · next hno =>
    have hrefuse : a.take h n = none := Account.take_eq_none.mpr (eq_false_of_ne_true (mt hiff.mp hno))
    exact congrArg (Option.map (k.setAcct kd)) hrefuse

theorem guaranteedTakeIsGranted : GuaranteedTakeIsGranted := by
  intro a h n hguar hfree hcap
  have hsum := a.owed_add_owedOthers h
  have howed : a.owed h = at' a.guar h - at' a.hold h := rfl
  have hg : a.grants h n = true := (a.grants_iff_owedOthers h n).mpr ⟨hcap, by omega⟩
  refine ⟨_, Account.take_of_grants hg, ?_⟩
  rw [← Account.owed_add_owedOthers _ h, Account.owedOthers_hold_put]
  simp only [Account.owed, at'_put_self]
  omega

theorem returnMovesCreditsBack : ReturnMovesCreditsBack := by
  intro k kd h n a b
  have hb : b = a.give h n := Skein.acct_setAcct_self ..
  simp only [hb, Account.give, at'_put_self]
  exact ⟨Nat.sub_add_cancel (Nat.min_le_right ..), trivial, fun g hg => at'_put_ne _ _ hg, trivial, trivial, trivial,
    fun kd' hkd => Skein.acct_setAcct_ne k _ hkd⟩

/-- Settles O6: it holds. The reserve test counts what every holder but the taker is owed, so a take within the taker's own guarantee passes it. -/
theorem creditTakesAndReturns : Obligations.CreditTakesAndReturns :=
  ⟨takeGrantsWithinCapAndReserve, guaranteedTakeIsGranted, returnMovesCreditsBack⟩

/-! The ledger at an epoch boundary (R48, R50), and a breach (R51, R52) -/

theorem Skein.snapshot_of_held {k : Skein} (h : k.held = true) (epoch : Nat) : k.snapshot epoch = (k, none) := if_pos h

/-- A snapshot that is not frozen is taken, with a breach in it or not. -/
theorem Skein.snapshot_audit {k : Skein} (h : k.held = false) (epoch : Nat) :
    (k.snapshot epoch).1.audit = k.accts ∧ (k.snapshot epoch).1.auditEpoch = epoch := by
  rw [Skein.snapshot, if_neg (ne_true_of_eq_false h)]
  dsimp only
  split <;> exact ⟨rfl, rfl⟩

theorem Skein.acct_swapShares (k : Skein) (kd : Kind) : k.swapShares.acct kd = (k.acct kd).swap := at'_map ..

theorem Skein.live_iff (k : Skein) (p : Fin 64) : k.live p = true ↔ ∀ kd ∈ allKinds,
    at' (k.acct kd).guar (plyHolder p) ≠ 0 ∨ at' (k.acct kd).guar (standHolder p) ≠ 0 → (k.acct kd).owedSum ≤ (k.acct kd).free := by
  simp only [Skein.live, List.all_eq_true, Bool.or_eq_true, beq_iff_eq, decide_eq_true_eq, Nat.add_eq_zero_iff, or_iff_not_imp_left, not_and_or]

theorem Skein.reevaluate_resvLive (k : Skein) (classA : Fin 64 → Bool) (p : Fin 64) :
    at' (k.reevaluate classA).resvLive p = true ↔ classA p = true ∧ k.live p = true := by
  rw [Skein.reevaluate, at'_ofFn, Bool.and_eq_true]

theorem epochBoundaryLedger : EpochBoundaryLedger := by
  intro k epoch classA k1 k2 k3 k4
  have haccts : k1.accts = k.accts := k.snapshot_accts epoch
  have hacct : ∀ kd, k1.acct kd = k.acct kd := fun kd => congrArg (at' · kd.idx) haccts
  have hmem : k2.acct .mem = (k.acct .mem).giveEvery := (Skein.acct_setAcct_self ..).trans (congrArg Account.giveEvery (hacct .mem))
  refine ⟨fun hh => Skein.snapshot_audit hh epoch, fun hh => congrArg Prod.fst (Skein.snapshot_of_held hh epoch), haccts, fun h => ?empty, ?free,
    fun kd hkd => (Skein.acct_setAcct_ne k1 _ hkd).trans (hacct kd), fun kd => ?shares, rfl, fun p => ?live⟩
  case empty => rw [hmem]; exact at'_replicate ..
  case free => rw [hmem]; rfl
  case shares =>
    rw [show k3.acct kd = (k2.acct kd).swap from Skein.acct_swapShares ..]
    exact ⟨rfl, rfl, rfl, rfl⟩
  case live => rw [show at' k4.resvLive p = true ↔ _ from Skein.reevaluate_resvLive .., Skein.live_iff]

theorem breachFreezesSnapshot : BreachFreezesSnapshot := fun _ _ _ _ epoch =>
  ⟨rfl, rfl, rfl, fun hb => if_pos hb, Skein.snapshot_of_held rfl epoch⟩

/-- Settles O7: it holds, one operation of the ledger after the other. -/
theorem epochBoundaryAndBreach : Obligations.EpochBoundaryAndBreach := ⟨epochBoundaryLedger, breachFreezesSnapshot⟩

/-- Settles O3: it holds; nothing is stored, and every account starts with its total in the free pool. -/
theorem resetIsSound : Obligations.ResetIsSound := ⟨Dram.blank_wf, Skein.reset_conserves 16⟩

end Sys2Proof.Machine

namespace Sys2Proof.Machine
open Sys2Proof.Claims

/-! What takes of MEM credits leave (R44, R46, R272, R273) -/

/-- Ending naps changes nothing but the memory controller. -/
theorem Dev.wake_eq (d : Dev) (rs : List (Nat × Nat)) : d.wake rs = { d with mc := (d.wake rs).mc } := by
  unfold Dev.wake Dev.leaveDeep
  split
  · rfl
  · split <;> rfl

theorem State.takeMem_eq_some {s t : State} {h : Fin holders} {n : Nat} {rs : List (Nat × Nat)} (e : s.takeMem h n rs = some t) :
    ∃ k, s.skein.take .mem h n = some k ∧ t = { s with skein := k, dev := s.dev.wake rs } := by
  unfold State.takeMem at e
  split at e
  · cases e
  · obtain ⟨k, hk, hs⟩ := Option.map_eq_some_iff.mp e
    exact ⟨k, hk, hs.symm⟩

theorem State.takeMem_dram {s t : State} {h : Fin holders} {n : Nat} {rs : List (Nat × Nat)} (e : s.takeMem h n rs = some t) : t.dram = s.dram := by
  obtain ⟨k, _, rfl⟩ := State.takeMem_eq_some e
  rfl

theorem State.takeMem_gfx {s t : State} {h : Fin holders} {n : Nat} {rs : List (Nat × Nat)} (e : s.takeMem h n rs = some t) :
    t.dev.gfx = s.dev.gfx := by
  obtain ⟨k, _, rfl⟩ := State.takeMem_eq_some e
  rw [Dev.wake_eq]

@[simp] theorem State.cluster_updCluster_self (s : State) (c : Fin 16) (f : Cluster → Cluster) : (s.updCluster c f).cluster c = f (s.cluster c) :=
  at'_upd_self ..

/-! The issue of an instruction (R44, R235, R243, R244) -/

/-- What it takes for wave `w` of cluster `c` to issue `i` out of state `u`, `s` being the state after the fetch. -/
structure Issues (u : State) (c : Fin 16) (w fmt op : Nat) (i : Issue) (s : State) : Prop where
  alive   : Runs u
  job     : ∃ o, (u.cluster c).job = some o ∧ u.dev.job o = some i.job
  wave    : (u.cluster c).wave w = some i.wave
  free    : ((u.cluster c).saving || i.wave.barrier || i.job.ended.isSome) = false
  fetch   : u.fetch i.job i.wave.pc = .ins i.ins i.lit i.next
  cluster : i.c = c
  defined : insDefined fmt op = true
  row     : i.f 63 62 = fmt ∧ i.f 61 54 = op
  code    : u.fillCode c i.job.ply i.wave.pc (i.next - i.wave.pc) = some s

theorem issues_of_issued {u s : State} {c : Fin 16} {w fmt op : Nat} {i : Issue} (h : issued u c w fmt op = some (i, s)) : Issues u c w fmt op i s := by
  unfold issued at h
  split at h
  case h_2 => cases h
  case h_1 j x hjob hwave =>
    obtain ⟨o, ho, hj⟩ := Option.bind_eq_some_iff.mp hjob
    split at h
    case isFalse => cases h
    case isTrue hfree =>
      simp only [Bool.and_eq_true, Bool.not_eq_true', Option.isNone_iff_eq_none] at hfree
      obtain ⟨⟨⟨halive, hsaving⟩, hbar⟩, hended⟩ := hfree
      split at h
      case h_2 => cases h
      case h_1 word lit next hfetch =>
        dsimp only at h
        split at h
        case isFalse => cases h
        case isTrue hrow =>
          obtain ⟨hdef, hrow⟩ := (Bool.and_eq_true ..).mp hrow
          obtain ⟨t, ht, heq⟩ := Option.map_eq_some_iff.mp h
          cases heq
          exact ⟨halive, ⟨o, ho, hj⟩, hwave, by simp [hsaving, hbar, hended], hfetch, rfl, hdef, of_decide_eq_true hrow, ht⟩

section Issued
variable {u s : State} {c : Fin 16} {w op : Nat} {i : Issue}

/-- An issued instruction runs on the state after its fetch. -/
theorem State.issue_of_issued {fmt : Nat} (h : issued u c w fmt op = some (i, s)) (run : Issue → State → State) :
    u.issue c w fmt op run = .next (run i s) := by
  obtain ⟨halive, ⟨o, ho, hj⟩, hwave, hfree, hfetch, hc, hdef, hrow, hcode⟩ := issues_of_issued h
  obtain ⟨_, job, wave, ins, lit, next⟩ := i
  subst hc
  obtain ⟨hfmt, hop⟩ := hrow
  simp only [Issue.f] at hfmt hop
  simp only [State.issue, State.clocked_of_runs halive, ho, hj, hwave, hfree, hfetch, hcode, Issue.f, hfmt, hop, hdef, Bool.false_eq_true, if_false,
    Bool.not_true, and_self, if_true]

/-- A scalar instruction without reserved bits or codes runs on its sources (R244, R246). -/
theorem State.scl_of_issued {n : Nat} (h : issued u c w 1 op = some (i, s)) (hok : sclOk i n = true) (run : Issue → Nat → Nat → State → State) :
    u.scl c w op n run = .next (run i (i.src false (i.f 40 32) 0) (i.src false (i.f 31 23) 0) s) := by
  have hbad : (bit i.ins 53 || (decide (1 ≤ n) && !codeOk true i.lit (i.f 40 32)) || (decide (2 ≤ n) && !codeOk true i.lit (i.f 31 23))) = false := by
    simp only [sclOk, Bool.and_eq_true, Bool.or_eq_true, Bool.not_eq_true', beq_iff_eq, decide_eq_true_eq] at hok
    obtain ⟨⟨hgen, ha⟩, hb⟩ := hok
    have ha' : ¬ 1 ≤ n ∨ codeOk true i.lit (i.f 40 32) = true := ha.imp_left (by omega)
    have hb' : ¬ 2 ≤ n ∨ codeOk true i.lit (i.f 31 23) = true := hb.imp_left (by omega)
    simpa [hgen] using And.intro (ha'.resolve_left ∘ not_not.mpr) (hb'.resolve_left ∘ not_not.mpr)
  rw [State.scl, State.issue_of_issued h, if_neg (ne_true_of_eq_false hbad)]

end Issued

/-! The instruction cache (R44, R235, R243) -/

/-- The 64-byte lines of a range that a cluster's instruction cache lacks. -/
def State.codeMiss (s : State) (c : Fin 16) (addr n : Nat) : List Nat := (lineList [(addr, n)]).filter fun l => !(s.cluster c).icache.contains l

theorem State.fillCode_of_cached {s : State} {c : Fin 16} {addr n : Nat} (h : s.codeMiss c addr n = []) (p : Fin 64) :
    s.fillCode c p addr n = some s := if_pos (List.isEmpty_iff.mpr h)

theorem State.fillCode_eq_some {s t : State} {c : Fin 16} {p : Fin 64} {addr n : Nat} (hmiss : s.codeMiss c addr n ≠ [])
    (h : s.fillCode c p addr n = some t) :
    ∃ u, s.takeMem (plyHolder p) (s.codeMiss c addr n).length (lineRanges64 (s.codeMiss c addr n)) = some u ∧
      t = u.updCluster c fun k => { k with icache := ((s.codeMiss c addr n).reverse ++ k.icache).take 256 } := by
  have hfill : s.fillCode c p addr n = _ := if_neg (mt List.isEmpty_iff.mp hmiss)
  obtain ⟨u, hu, ht⟩ := Option.map_eq_some_iff.mp (hfill.symm.trans h)
  exact ⟨u, hu, ht.symm⟩

theorem fetchResults : FetchResults := by
  intro c w fmt op u s i h miss
  have hcode := (issues_of_issued h).code
  by_cases hmiss : miss = []
  · have hsame : s = u := Option.some.inj (hcode.symm.trans (State.fillCode_of_cached hmiss _))
    subst hsame
    exact ⟨fun _ => rfl, (if_pos hmiss).symm, rfl, rfl, rfl, rfl⟩
  · obtain ⟨t, ht, rfl⟩ := State.fillCode_eq_some hmiss hcode
    have hgfx := State.takeMem_gfx ht
    have hcluster : t.cluster c = u.cluster c := congrArg (fun g : Gfx => at' g.clusters c) hgfx
    have hjobs : t.dev.gfx.jobs = u.dev.gfx.jobs := congrArg Gfx.jobs hgfx
    have hdram : t.dram = u.dram := State.takeMem_dram ht
    rw [State.cluster_updCluster_self, hcluster, if_neg hmiss]
    exact ⟨fun hnone => absurd hnone hmiss, rfl, rfl, rfl, hjobs, hdram⟩

/-! Reconvergence (R248) -/

theorem Wave.push_of_room {x : Wave} (h : x.stack.length < 16) (e : StackEntry) : x.push e = some { x with stack := e :: x.stack } :=
  if_neg (Nat.not_le.mpr h)

/-- The innermost loop of a stack is its first loop entry. -/
theorem innerLoop_append {inner outer : List StackEntry} {e : StackEntry} (hinner : inner.all (!·.isLoop) = true) (he : e.isLoop = true) :
    innerLoop (inner ++ e :: outer) = some (inner, e, outer) := by
  induction inner with
  | nil => exact if_pos he
  | cons a t ih =>
    obtain ⟨ha, ht⟩ := (Bool.and_eq_true ..).mp hinner
    rw [List.cons_append, innerLoop, if_neg (by simpa using ha), ih ht, Option.map_some]

section Reconvergence
variable {u s : State} {c : Fin 16} {w : Nat} {i : Issue} (hok : sclOk i 0 = true)
include hok

theorem ifIns_answers (h : issued u c w 1 0x45 = some (i, s)) (hroom : i.wave.stack.length < 16) :
    Answers (.ifIns c w) u (s.reconverge i
      { i.wave with amask := i.wave.amask &&& i.p0,
                    stack := { mask := i.wave.amask, isLoop := false, ifMask := i.wave.amask &&& i.p0, resume := 0, stop := 0, cont := 0 } :: i.wave.stack }
      i.target) := by
  rw [Answers, exec_ifIns, execIf, State.scl_of_issued h hok]
  simp only [Wave.push_of_room hroom]

theorem elseIns_answers (h : issued u c w 1 0x46 = some (i, s)) {e : StackEntry} {t : List StackEntry} (hstack : i.wave.stack = e :: t) :
    Answers (.elseIns c w) u (s.reconverge i { i.wave with amask := e.mask &&& ~~~e.ifMask &&& ~~~i.wave.killed } i.target) := by
  rw [Answers, exec_elseIns, execElse, State.scl_of_issued h hok]
  simp only [hstack]

theorem endif_answers (h : issued u c w 1 0x47 = some (i, s)) {e : StackEntry} {t : List StackEntry} (hstack : i.wave.stack = e :: t) :
    Answers (.endif c w) u (s.advance i { i.wave with amask := e.mask &&& ~~~i.wave.killed, stack := t }) := by
  rw [Answers, exec_endif, execEndif, State.scl_of_issued h hok]
  simp only [hstack]

theorem loop_answers (h : issued u c w 1 0x48 = some (i, s)) (hroom : i.wave.stack.length < 16) :
    Answers (.loop c w) u (s.advance i { i.wave with stack :=
      { mask := i.wave.amask, isLoop := true, ifMask := 0, resume := i.next, stop := i.target, cont := 0 } :: i.wave.stack }) := by
  rw [Answers, exec_loop, execLoop, State.scl_of_issued h hok]
  simp only [Wave.push_of_room hroom]

section InLoop
variable {e : StackEntry} {inner outer : List StackEntry} (hloop : innerLoop i.wave.stack = some (inner, e, outer))
include hloop

theorem breakIns_answers (h : issued u c w 1 0x49 = some (i, s)) :
    let inner' := dropLanes inner (i.wave.amask &&& i.p0)
    Answers (.breakIns c w) u
      (if (inner'.foldl (fun m y => m ||| y.mask) ((i.wave.amask &&& ~~~i.p0) ||| e.cont)) &&& ~~~i.wave.killed = 0 then
        s.jump i { i.wave with amask := e.mask &&& ~~~i.wave.killed, stack := outer } (s.pastIns i.job e.stop)
      else s.advance i { i.wave with amask := i.wave.amask &&& ~~~i.p0, stack := inner' ++ e :: outer }) := by
  rw [Answers, exec_breakIns, execBreak, State.scl_of_issued h hok]
  simp only [hloop]

theorem cont_answers (h : issued u c w 1 0x4A = some (i, s)) :
    Answers (.cont c w) u (s.advance i
      { i.wave with amask := i.wave.amask &&& ~~~(i.wave.amask &&& i.p0),
                    stack := dropLanes inner (i.wave.amask &&& i.p0) ++ { e with cont := e.cont ||| (i.wave.amask &&& i.p0) } :: outer }) := by
  rw [Answers, exec_cont, execCont, State.scl_of_issued h hok]
  simp only [hloop]

theorem endloop_answers (h : issued u c w 1 0x4B = some (i, s)) :
    let again := (i.wave.amask ||| e.cont) &&& ~~~i.wave.killed
    Answers (.endloop c w) u (if again = 0 then s.advance i { i.wave with amask := e.mask &&& ~~~i.wave.killed, stack := outer }
      else s.jump i { i.wave with amask := again, stack := { e with cont := 0 } :: outer } e.resume) := by
  rw [Answers, exec_endloop, execEndloop, State.scl_of_issued h hok]
  simp only [hloop]

end InLoop

theorem kill_answers (h : issued u c w 1 0x4C = some (i, s)) {f : FragWave} {o l : BitVec 32} {b : Bool} (hwork : i.wave.work = .fragment f o l b) :
    let m := i.wave.amask &&& i.p0
    Answers (.kill c w) u (s.advance i
      { i.wave with amask := i.wave.amask &&& ~~~m, killed := i.wave.killed ||| m, work := .fragment f (o &&& ~~~m) (l ||| (o &&& m)) b }) := by
  rw [Answers, exec_kill, execKill, State.scl_of_issued h hok]
  simp only [hwork, WaveWork.leave]

theorem waveEnd_answers (h : issued u c w 1 0x4D = some (i, s)) : Answers (.waveEnd c w) u (s.endWave c i.job i.wave) := by
  rw [Answers, exec_waveEnd, execWaveEnd, State.scl_of_issued h hok]

end Reconvergence

theorem reconvergenceResults : ReconvergenceResults := fun _ _ _ _ _ _ _ _ _ =>
  ⟨fun h hok => ifIns_answers hok h, fun h hok => elseIns_answers hok h, fun h hok => endif_answers hok h, fun h hok => loop_answers hok h,
    fun h hok hstack hinner he => breakIns_answers hok ((congrArg innerLoop hstack).trans (innerLoop_append hinner he)) h,
    fun h hok hstack hinner he => cont_answers hok ((congrArg innerLoop hstack).trans (innerLoop_append hinner he)) h,
    fun h hok hstack hinner he => endloop_answers hok ((congrArg innerLoop hstack).trans (innerLoop_append hinner he)) h,
    fun _ _ _ _ h hok => kill_answers hok h, fun h hok => waveEnd_answers hok h⟩

/-! Synchronisation and interlock (R220, R248, R256) -/

/-- Registers are 32 bits wide: a value counts modulo 2^32. -/
theorem Wave.setS_mod (x : Wave) (r v : Nat) : x.setS r (v % 2 ^ 32) = x.setS r v := by
  have hword : word (v % 2 ^ 32) = word v := BitVec.eq_of_toNat_eq (by simp [word])
  simp only [Wave.setS, hword]

theorem WaveWork.leave_of_not_fragment {k : WaveWork} (h : ∀ f o l b, k ≠ .fragment f o l b) (m : BitVec 32) : k.leave m = k := by
  cases k with
  | fragment f o l b => exact absurd rfl (h f o l b)
  | vertex => rfl
  | compute => rfl

section Synchronisation
variable {u s : State} {c : Fin 16} {w : Nat} {i : Issue} (hok : sclOk i 0 = true)
include hok

theorem bar_answers_compute (h : issued u c w 1 0x60 = some (i, s)) {g : Nat} (hwork : i.wave.work = .compute g) :
    Answers (.bar c w) u ((s.advance i { i.wave with barrier := true }).updCluster c fun k => { k with ctx := k.ctx.releaseBar g }) := by
  rw [Answers, exec_bar, execBar, State.scl_of_issued h hok]
  simp only [hwork]

theorem bar_answers_other (h : issued u c w 1 0x60 = some (i, s)) (hwork : ∀ g, i.wave.work ≠ .compute g) : Answers (.bar c w) u (s.advance i i.wave) := by
  rw [Answers, exec_bar, execBar, State.scl_of_issued h hok]
  cases hk : i.wave.work with
  | compute g => exact absurd hk (hwork g)
  | vertex => rfl
  | fragment => rfl

theorem membarWg_answers (h : issued u c w 1 0x61 = some (i, s)) : Answers (.membarWg c w) u (s.advance i i.wave) := by
  rw [Answers, exec_membarWg, execMembarWg, State.scl_of_issued h hok]

theorem membarDev_answers (h : issued u c w 1 0x62 = some (i, s)) :
    Answers (.membarDev c w) u ((s.advance i i.wave).updCluster c fun k => { k with l1 := [] }) := by
  rw [Answers, exec_membarDev, execMembarDev, State.scl_of_issued h hok]

theorem idle_answers (h : issued u c w 1 0x63 = some (i, s)) : Answers (.idle c w) u (s.advance i i.wave) := by
  rw [Answers, exec_idle, execIdle, State.scl_of_issued h hok]

theorem time_answers (h : issued u c w 1 0x64 = some (i, s)) (heven : i.f 47 41 % 2 = 0) :
    Answers (.time c w) u
      (s.advance i ((i.wave.setS (i.f 47 41) (s.dev.devtime % 2 ^ 32)).setS (i.f 47 41 + 1) (s.dev.devtime / 2 ^ 32))) := by
  rw [Answers, exec_time, execTime, State.scl_of_issued h hok, Wave.setS_mod]
  exact congrArg Host.Outcome.next (if_neg (by omega))

theorem ilkBegin_answers_fragment (h : issued u c w 1 0x65 = some (i, s)) {f : FragWave} {o l : BitVec 32} {b : Bool}
    (hwork : i.wave.work = .fragment f o l b) (hfree : (s.cluster c).ctx.ilkHeld f (i.wave.amask &&& ~~~o &&& ~~~l) = false) :
    Answers (.ilkBegin c w) u (s.advance i { i.wave with work := .fragment f (o ||| (i.wave.amask &&& ~~~o &&& ~~~l)) l b }) := by
  rw [Answers, exec_ilkBegin, execIlkBegin, State.scl_of_issued h hok]
  simp only [hwork, hfree, Bool.false_eq_true, if_false]

theorem ilkBegin_answers_other (h : issued u c w 1 0x65 = some (i, s)) (hwork : ∀ f o l b, i.wave.work ≠ .fragment f o l b) :
    Answers (.ilkBegin c w) u (s.advance i i.wave) := by
  rw [Answers, exec_ilkBegin, execIlkBegin, State.scl_of_issued h hok]
  cases hk : i.wave.work with
  | fragment f o l b => exact absurd hk (hwork f o l b)
  | vertex => rfl
  | compute => rfl

theorem ilkEnd_answers (h : issued u c w 1 0x66 = some (i, s)) :
    Answers (.ilkEnd c w) u (s.advance i { i.wave with work := i.wave.work.leave i.wave.amask }) := by
  rw [Answers, exec_ilkEnd, execIlkEnd, State.scl_of_issued h hok]

theorem ilkEnd_answers_fragment (h : issued u c w 1 0x66 = some (i, s)) {f : FragWave} {o l : BitVec 32} {b : Bool}
    (hwork : i.wave.work = .fragment f o l b) :
    Answers (.ilkEnd c w) u (s.advance i { i.wave with work := .fragment f (o &&& ~~~i.wave.amask) (l ||| (o &&& i.wave.amask)) b }) := by
  simpa only [hwork, WaveWork.leave] using ilkEnd_answers hok h

theorem ilkEnd_answers_other (h : issued u c w 1 0x66 = some (i, s)) (hwork : ∀ f o l b, i.wave.work ≠ .fragment f o l b) :
    Answers (.ilkEnd c w) u (s.advance i i.wave) := by
  simpa only [WaveWork.leave_of_not_fragment hwork] using ilkEnd_answers hok h

end Synchronisation

theorem synchronisationResults : SynchronisationResults := fun _ _ _ _ _ =>
  ⟨fun _ h hok => bar_answers_compute hok h, fun h hok => bar_answers_other hok h, fun h hok => membarWg_answers hok h,
    fun h hok => membarDev_answers hok h, fun h hok => idle_answers hok h, fun h hok => time_answers hok h,
    fun _ _ _ _ h hok => ilkBegin_answers_fragment hok h, fun _ _ _ _ h hok => ilkEnd_answers_fragment hok h,
    fun h hok => ilkBegin_answers_other hok h, fun h hok => ilkEnd_answers_other hok h⟩

/-- Settles O14: it holds, each clause by the lemma of its row. The model's choice, and not the manual's words, is that the waves of a workgroup leave BAR
once every wave of it that has not ended waits there (log entry 66). -/
theorem controlFlowResults : Obligations.ControlFlowResults := ⟨fetchResults, reconvergenceResults, synchronisationResults⟩

end Sys2Proof.Machine

namespace Sys2Proof.Machine
open Sys2Proof.Claims

/-! Acceptance of a slot (R55, R61, R85, R191) -/
section Acceptance
variable (s : State) (p : Fin 64) (r : Fin 4) (bs : List Byte)

/-- The descriptor that an accepted slot becomes; a COMMIT notes the frame of its head. -/
def State.acceptedDesc : InFlight :=
  let f : InFlight := { bytes := bs, seq := (s.ring p r).cons, order := s.dev.order, phase := .accepted, reserved := false,
                        standing := (s.ring p r).poll && decide ((s.ring p r).queue.length < 8), status := 0, result := List.replicate 16 0, block := [],
                        mark := 0, reading := 0, armedAt := none, seen := false }
  { f with mark := if f.opcode = 0x20 then (s.head f.commitHead).frame.toNat else 0 }

/-- The state in which that descriptor has joined its ring's queue, the ledger being `k`. -/
def State.joinRing (k : Skein) : State :=
  ({ s with skein := k, dev := { s.dev with order := s.dev.order + 1 } } : State).updRing p r fun g =>
    { g with cons := g.cons + 1, queue := g.queue ++ [s.acceptedDesc p r bs] }

theorem State.ring_joinRing (k : Skein) :
    (s.joinRing p r bs k).ring p r =
      { s.ring p r with cons := (s.ring p r).cons + 1, queue := (s.ring p r).queue ++ [s.acceptedDesc p r bs] } := State.ring_updRing_self ..

theorem State.accept_eq : s.accept p r bs = (s.skein.take .ring ((s.acceptedDesc p r bs).holder p) 1).map fun k =>
    (s.joinRing p r bs k).groupsOnAccept p r (s.acceptedDesc p r bs) := by
  unfold State.accept State.joinRing State.acceptedDesc
  dsimp only
  split <;> rfl

end Acceptance

/-- Two states agree in ledger and DRAM, and in how far ring `r` of ply `p` is consumed and how much it holds. -/
structure State.SameIntake (p : Fin 64) (r : Fin 4) (s t : State) : Prop where
  skein  : t.skein = s.skein
  dram   : t.dram = s.dram
  cons   : (t.ring p r).cons = (s.ring p r).cons
  length : (t.ring p r).queue.length = (s.ring p r).queue.length

section SameIntake
variable {s t : State} {p : Fin 64} {r : Fin 4}

theorem State.SameIntake.refl (s : State) : s.SameIntake p r s := ⟨rfl, rfl, rfl, rfl⟩

theorem State.SameIntake.finishDesc (h : s.SameIntake p r t) (order status : Nat) (result : List Byte) :
    s.SameIntake p r (t.finishDesc p r order status result) := by
  have hring := State.ring_updRing_self t p r fun g => { g with queue := g.queue.map fun e => if e.order = order then e.finish status result else e }
  exact ⟨h.skein, h.dram, (congrArg SubRing.cons hring).trans h.cons, by
    rw [State.finishDesc, State.updDesc, hring, List.length_map, h.length]⟩

/-- Any descriptor but a COMMIT at most completes LAYERs before it, which stay in the queue. -/
theorem State.groupsOnAccept_sameIntake {f : InFlight} (hop : f.opcode ≠ 0x20) : s.SameIntake p r (s.groupsOnAccept p r f) := by
  unfold State.groupsOnAccept
  split
  · exact State.SameIntake.refl s
  · exact foldl_keeps (s.SameIntake p r) _ (fun t e ht => ht.finishDesc ..) _ s (State.SameIntake.refl s)

end SameIntake

/-- Settles O23: it holds. The accepted descriptor is `State.acceptedDesc`, and the state in between is that in which it has joined its ring. -/
theorem acceptanceTakesOneCredit : Obligations.AcceptanceTakesOneCredit := by
  intro s t p r bs haccept g
  rw [State.accept_eq] at haccept
  obtain ⟨k, htake, rfl⟩ := Option.map_eq_some_iff.mp haccept
  have hring := s.ring_joinRing p r bs k
  refine ⟨s.acceptedDesc p r bs, s.joinRing p r bs k, rfl, rfl, rfl, rfl, rfl, htake, congrArg SubRing.cons hring, congrArg SubRing.queue hring, rfl, rfl,
    rfl, fun hop => ?_⟩
  obtain ⟨hskein, hdram, hcons, hlength⟩ := (s.joinRing p r bs k).groupsOnAccept_sameIntake (p := p) (r := r) hop
  refine ⟨hskein, hdram, hcons.trans (congrArg SubRing.cons hring), hlength.trans ?_⟩
  rw [hring, List.length_append, List.length_singleton]

end Sys2Proof.Machine

namespace Sys2Proof.Machine
open Sys2Proof.Claims

/-! Frame boundaries, the idle frame's end, the cut-off, underruns and FBSEL_N (R135, R136, R138, R140, R146, R154, R355) -/
section Frame
variable {s : State} (hr : Runs s) (h : Fin 8)
include hr

/-- The odd head of a pair has no boundary of its own. -/
theorem frameBoundary_answers (ref : Option Int) : Answers (.frameBoundary h ref) s
    (if s.dev.slave h = true ∨ (s.head h).gen ≠ .running then s else (s.boundary h false).checkLock h ref) := by
  simp only [Answers, exec_frameBoundary, execFrameBoundary, State.clocked_of_runs hr, Bool.or_eq_true, bne_iff_ne]
  exact (apply_ite Host.Outcome.next _ _ _).symm

theorem idleFrameEnd_answers (same : Bool) : Answers (.idleFrameEnd h same) s
    (if s.dev.slave h = true ∨ (s.head h).gen ≠ .changing ∨
        ¬ ∀ k ∈ s.dev.group h, (s.head k).relocked = true ∧ (s.head k).link ≠ .training ∧ (s.head k).link ≠ .waiting
      then s else (s.lockHead h same).boundary h true) := by
  simp only [Answers, exec_idleFrameEnd, execIdleFrameEnd, State.clocked_of_runs hr, Bool.or_eq_true, bne_iff_ne, Bool.not_eq_true', List.all_eq_false,
    Bool.and_eq_true, not_forall, exists_prop, and_assoc, or_assoc]
  exact (apply_ite Host.Outcome.next _ _ _).symm

theorem armingCutoff_answers : Answers (.armingCutoff h) s
    (if s.dev.slave h = true ∨ (s.head h).gen = .off then s else s.updHead h fun x => { x with cutoff := true }) := by
  simp only [Answers, exec_armingCutoff, execArmingCutoff, State.clocked_of_runs hr, Bool.or_eq_true, beq_iff_eq]
  exact (apply_ite Host.Outcome.next _ _ _).symm

theorem underrun_answers (hrun : (s.head (s.dev.master h)).gen = .running) (l : Fin 64) (line col : Nat) :
    Answers (.underrun h l line col) s (s.underrun h l.val line col) := by
  rw [Answers, exec_underrun, execUnderrun, State.clocked_of_runs hr, if_pos hrun]

theorem fbselRelease_answers {q : Fin 4} (hm : s.dev.isManager q = true) (hC : s.dev.pkgW = false) :
    Answers (.fbselRelease q) s (s.updCarder fun c => { c with fbLatched := false, fbCount := 0 }) := by
  simp [Answers, execFbselRelease, State.clocked_of_runs hr, hm, hC]

end Frame

theorem frameCommandResults : FrameCommandResults := by
  intro h s hr
  refine ⟨fun ref hmaster hrun => ?boundary, fun hslave => ⟨fun ref => ?noBoundary, fun b => ?noEnd, ?noCutoff⟩, fun same hmaster hchange hready => ?idleEnd,
    fun hmaster hon => ?cutoff, fun l line col e hrun hfind => ⟨fun hdry => ?again, fun hdry => ?first⟩, fun q => fbselRelease_answers hr⟩
  case boundary => simpa [hmaster, hrun] using frameBoundary_answers hr h ref
  case noBoundary => simpa only [if_pos (Or.inl hslave)] using frameBoundary_answers hr h ref
  case noEnd => simpa only [if_pos (Or.inl hslave)] using idleFrameEnd_answers hr h b
  case noCutoff => simpa only [if_pos (Or.inl hslave)] using armingCutoff_answers hr h
  case idleEnd =>
    have hno : ¬ (s.dev.slave h = true ∨ (s.head h).gen ≠ .changing ∨ _) :=
      not_or.mpr ⟨ne_true_of_eq_false hmaster, not_or.mpr ⟨not_not.mpr hchange, not_not.mpr hready⟩⟩
    simpa only [if_neg hno] using idleFrameEnd_answers hr h same
  case cutoff => simpa [hmaster, hon] using armingCutoff_answers hr h
  case again =>
    have hout := underrun_answers hr h hrun l line col
    simpa only [State.underrun, hfind, if_pos hdry] using hout
  case first =>
    have hout := underrun_answers hr h hrun l line col
    simp only [State.underrun, hfind, hdry, Bool.false_eq_true, if_false] at hout
    exact hout

/-! CMP credits at a head's boundary (R44, R46, R156, R162, R196) -/

@[simp] theorem State.head_updHead_ne (s : State) {h k : Fin 8} (f : Head → Head) (hne : k ≠ h) : (s.updHead h f).head k = s.head k :=
  Dev.head_updHead_ne _ f hne

theorem Skein.acct_give_ne (k : Skein) {kd kd' : Kind} (x : Fin holders) (n : Nat) (h : kd' ≠ kd) : (k.give kd x n).acct kd' = k.acct kd' :=
  Skein.acct_setAcct_ne k ((k.acct kd).give x n) h

theorem Skein.acct_take_ne {k k' : Skein} {kd kd' : Kind} {x : Fin holders} {n : Nat} (e : k.take kd x n = some k') (h : kd' ≠ kd) :
    k'.acct kd' = k.acct kd' := by
  obtain ⟨a, _, rfl⟩ := Skein.take_eq_some e
  exact Skein.acct_setAcct_ne k a h

/-- Two states agree in every account but CMP. -/
def State.SameButCmp (s t : State) : Prop := ∀ kd, kd ≠ .cmp → t.skein.acct kd = s.skein.acct kd

section SameButCmp
variable {s t : State} (ht : s.SameButCmp t)
include ht

theorem State.SameButCmp.give (x : Fin holders) (n : Nat) : s.SameButCmp (t.onSkein fun k => k.give .cmp x n) := by
  intro kd hkd
  rw [State.onSkein_skein, Skein.acct_give_ne _ _ _ hkd, ht kd hkd]

theorem State.SameButCmp.take {x : Fin holders} {n : Nat} {k : Skein} (hk : t.skein.take .cmp x n = some k) : s.SameButCmp { t with skein := k } := fun kd hkd =>
  (Skein.acct_take_ne hk hkd).trans (ht kd hkd)

end SameButCmp

/-- What a layer's charge leaves on its head. -/
def State.markLayer (s : State) (h : Fin 8) (handle n : Nat) (hold : Bool) : State :=
  s.updHead h fun x => { x with layers := x.layers.map fun e => if e.handle = handle then { e with cmp := n, hold := hold } else e }

/-- What a plate's charge leaves on its head. -/
def State.markPlate (s : State) (h : Fin 8) (i : Fin 16) (n : Nat) (hold : Bool) : State :=
  s.updHead h fun x => { x with plates := upd x.plates i fun p => { p with cmp := n, hold := hold } }

/-- A layer's charge: no such layer, a refusal that holds it, or a granted take. -/
theorem State.chargeLayer_cases (s : State) (h : Fin 8) (handle : Nat) :
    s.chargeLayer h handle = s ∨ s.chargeLayer h handle = s.markLayer h handle 0 true ∨
      ∃ x n k, s.skein.take .cmp x n = some k ∧ s.chargeLayer h handle = ({ s with skein := k } : State).markLayer h handle n false := by
  unfold State.chargeLayer
  extract_lets set
  split
  · exact .inl rfl
  · extract_lets n
    generalize n = m
    split
    · exact .inr (.inl rfl)
    · split
      · exact .inr (.inr ⟨_, _, _, ‹_›, rfl⟩)
      · exact .inr (.inl rfl)

/-- A plate's charge: a plate that does not show, a refusal that holds it, or a granted take. -/
theorem State.chargePlate_cases (s : State) (h : Fin 8) (i : Fin 16) :
    s.chargePlate h i = s ∨ s.chargePlate h i = s.markPlate h i 0 true ∨
      ∃ x n k, s.skein.take .cmp x n = some k ∧ s.chargePlate h i = ({ s with skein := k } : State).markPlate h i n false := by
  unfold State.chargePlate
  extract_lets set e n
  split
  · exact .inl rfl
  · generalize n = m
    split
    · exact .inr (.inr ⟨_, _, _, ‹_›, rfl⟩)
    · exact .inr (.inl rfl)

section Charge
variable {s t : State} (h : Fin 8)

theorem State.SameButCmp.chargeLayer (ht : s.SameButCmp t) (handle : Nat) : s.SameButCmp (t.chargeLayer h handle) := by
  obtain heq | heq | ⟨x, n, k, hk, heq⟩ := t.chargeLayer_cases h handle
  · rwa [heq]
  · rw [heq]; exact ht
  · rw [heq]; exact ht.take hk

theorem State.SameButCmp.chargePlate (ht : s.SameButCmp t) (i : Fin 16) : s.SameButCmp (t.chargePlate h i) := by
  obtain heq | heq | ⟨x, n, k, hk, heq⟩ := t.chargePlate_cases h i
  · rwa [heq]
  · rw [heq]; exact ht
  · rw [heq]; exact ht.take hk

variable {h} {k : Fin 8} (hne : k ≠ h)
include hne

/-- A charge leaves every other head. -/
theorem State.head_chargeLayer_ne (handle : Nat) : (s.chargeLayer h handle).head k = s.head k := by
  obtain heq | heq | ⟨x, n, l, _, heq⟩ := s.chargeLayer_cases h handle
  · rw [heq]
  · rw [heq]; exact State.head_updHead_ne s _ hne
  · rw [heq]; exact State.head_updHead_ne { s with skein := l } _ hne

theorem State.head_chargePlate_ne (i : Fin 16) : (s.chargePlate h i).head k = s.head k := by
  obtain heq | heq | ⟨x, n, l, _, heq⟩ := s.chargePlate_cases h i
  · rw [heq]
  · rw [heq]; exact State.head_updHead_ne s _ hne
  · rw [heq]; exact State.head_updHead_ne { s with skein := l } _ hne

end Charge

theorem State.SameButCmp.refl (s : State) : s.SameButCmp s := fun _ _ => rfl

/-- The held layers and plates of one head try again. -/
def State.retryHead (s : State) (h : Fin 8) : State :=
  let t := s.each ((s.head h).layers.filter (·.hold)) fun u l => u.chargeLayer h l.handle
  t.each ((allFin 16).filter fun i => (at' (s.head h).plates i).hold) fun u i => u.chargePlate h i

theorem State.retryCmp_eq (s : State) : s.retryCmp = (allFin 8).foldl State.retryHead s := rfl

theorem State.SameButCmp.retryHead {s t : State} (ht : s.SameButCmp t) (h : Fin 8) : s.SameButCmp (t.retryHead h) :=
  foldl_keeps s.SameButCmp (fun u i => u.chargePlate h i) (fun _ i hu => hu.chargePlate h i) _ _
    (foldl_keeps s.SameButCmp (fun u (l : ActiveLayer) => u.chargeLayer h l.handle) (fun _ l hu => hu.chargeLayer h l.handle) _ t ht)

theorem State.SameButCmp.retryCmp {s t : State} (ht : s.SameButCmp t) : s.SameButCmp t.retryCmp := by
  rw [State.retryCmp_eq]
  exact foldl_keeps s.SameButCmp State.retryHead (fun _ h hu => hu.retryHead h) _ t ht

theorem State.SameButCmp.giveEach {s t : State} (ht : s.SameButCmp t) {α : Type} (l : List α) (x : α → Fin holders) (n : α → Nat) :
    s.SameButCmp (t.each l fun u a => u.onSkein fun k => k.give .cmp (x a) (n a)) :=
  foldl_keeps s.SameButCmp _ (fun _ a hu => hu.give (x a) (n a)) l t ht

theorem State.returnCmp_sameButCmp (s : State) (h : Fin 8) : s.SameButCmp (s.returnCmp h) := by
  have hlayers := (State.SameButCmp.refl s).giveEach (s.head h).layers (fun l => plyHolder l.ply) (·.cmp)
  have hplates := hlayers.giveEach (s.head h).plates.toList (fun _ => devHolder) (·.cmp)
  exact State.SameButCmp.retryCmp hplates

theorem State.takeCmp_sameButCmp (s : State) (h : Fin 8) : s.SameButCmp (s.takeCmp h) := by
  have hcharge : ∀ ls : List ActiveLayer, ∀ u, s.SameButCmp u → s.SameButCmp (u.each ls fun s l => s.chargeLayer h l.handle) := fun ls u hu =>
    foldl_keeps s.SameButCmp _ (fun v l hv => hv.chargeLayer h l.handle) ls u hu
  exact hcharge _ _ (foldl_keeps s.SameButCmp _ (fun v i hv => hv.chargePlate h i) _ _ (hcharge _ _ (State.SameButCmp.refl s)))

/-- The retries of a head leave every other, and this one where nothing of it is held. -/
theorem State.head_retryHead {s : State} {h k : Fin 8}
    (hfree : k = h → (∀ l ∈ (s.head h).layers, l.hold = false) ∧ ∀ i, (at' (s.head h).plates i).hold = false) : (s.retryHead k).head h = s.head h := by
  unfold State.retryHead
  by_cases hk : k = h
  · obtain ⟨hlayers, hplates⟩ := hfree hk
    have hnoLayer : (s.head h).layers.filter (·.hold) = [] := List.filter_eq_nil_iff.mpr fun l hl => ne_true_of_eq_false (hlayers l hl)
    have hnoPlate : (allFin 16).filter (fun i => (at' (s.head h).plates i).hold) = [] :=
      List.filter_eq_nil_iff.mpr fun i _ => ne_true_of_eq_false (hplates i)
    rw [hk, hnoLayer, hnoPlate]
    rfl
  · have hne : h ≠ k := Ne.symm hk
    refine foldl_keeps (fun u : State => u.head h = s.head h) (fun u i => u.chargePlate k i)
      (fun u i hu => (State.head_chargePlate_ne hne i).trans hu) _ _ ?_
    exact foldl_keeps (fun u : State => u.head h = s.head h) (fun u (l : ActiveLayer) => u.chargeLayer k l.handle)
      (fun u l hu => (State.head_chargeLayer_ne hne l.handle).trans hu) _ s rfl

/-- A head on which nothing is held is left by the retries. -/
theorem State.head_retryCmp {s : State} {h : Fin 8} (hl : ∀ l ∈ (s.head h).layers, l.hold = false) (hp : ∀ i, (at' (s.head h).plates i).hold = false) :
    s.retryCmp.head h = s.head h := by
  rw [State.retryCmp_eq]
  refine foldl_keeps (fun u : State => u.head h = s.head h) State.retryHead (fun u k hu => ?_) _ s rfl
  exact (State.head_retryHead fun _ => by rw [hu]; exact ⟨hl, hp⟩).trans hu

/-- What the credits' return makes of the layers and plates of a head. -/
def Head.uncharged (x : Head) : Head :=
  { x with layers := x.layers.map fun l => { l with cmp := 0, hold := false }, plates := x.plates.map fun p => { p with cmp := 0, hold := false } }

theorem State.head_returnCmp (s : State) (h : Fin 8) : (s.returnCmp h).head h = (s.head h).uncharged := by
  have hgive : ∀ {α : Type} (l : List α) (x : α → Fin holders) (n : α → Nat) (u : State), u.head h = s.head h →
      (u.each l fun s a => s.onSkein fun k => k.give .cmp (x a) (n a)).head h = s.head h := fun l x n u hu =>
    foldl_keeps (fun v : State => v.head h = s.head h) (fun v a => v.onSkein fun k => k.give .cmp (x a) (n a)) (fun v a hv => hv) l u hu
  have hhead := hgive (s.head h).plates.toList (fun _ => devHolder) (·.cmp) _ (hgive (s.head h).layers (fun l => plyHolder l.ply) (·.cmp) s rfl)
  unfold State.returnCmp
  dsimp only
  rw [State.head_retryCmp]
  · rw [State.head_updHead_self, hhead, Head.uncharged]
  · rw [State.head_updHead_self]
    simp
  · rw [State.head_updHead_self]
    simp

/-! The take of a layer alone on its head -/

theorem State.head_markLayer (s : State) (h : Fin 8) (handle n : Nat) (hold : Bool) : (s.markLayer h handle n hold).head h =
    { s.head h with layers := (s.head h).layers.map fun e => if e.handle = handle then { e with cmp := n, hold := hold } else e } :=
  State.head_updHead_self ..

/-- A layer's charge leaves the plates. -/
theorem State.plates_chargeLayer (s : State) (h : Fin 8) (handle : Nat) : ((s.chargeLayer h handle).head h).plates = (s.head h).plates := by
  obtain heq | heq | ⟨x, n, k, _, heq⟩ := s.chargeLayer_cases h handle
  · rw [heq]
  · rw [heq, State.head_markLayer]
  · rw [heq, State.head_markLayer]; rfl

/-- An operation that leaves the state, done for every entry of a list, leaves it. -/
theorem State.each_of_fixed {α : Type} {s : State} {f : State → α → State} (hf : ∀ a, f s a = s) (l : List α) : s.each l f = s := by
  induction l with
  | nil => rfl
  | cons a t ih => rwa [State.each, List.foldl_cons, hf a]

/-- A plate that does not show takes no credits. -/
theorem State.chargePlate_of_hidden {s : State} {h : Fin 8} {i : Fin 16} (hhide : (at' (s.head h).plates i).shown = false) : s.chargePlate h i = s := by
  unfold State.chargePlate
  extract_lets set e n
  generalize n = m
  simp only [hhide, Bool.not_false, if_true]

theorem State.chargePlates_of_hidden {s : State} {h : Fin 8} (hhide : ∀ i, (at' (s.head h).plates i).shown = false) :
    (s.each (allFin 16) fun u i => u.chargePlate h i) = s :=
  State.each_of_fixed (f := fun u i => u.chargePlate h i) (fun i => State.chargePlate_of_hidden (hhide i)) (allFin 16)

/-- The class A slots first, then the plates, then the other layers (R156). -/
theorem State.takeCmp_eq (s : State) (h : Fin 8) : s.takeCmp h =
    ((s.each ((s.head h).layers.filter fun l => s.dev.isSlot h l.handle) fun u l => u.chargeLayer h l.handle).each (allFin 16) fun u i =>
      u.chargePlate h i).each ((s.head h).layers.filter fun l => !s.dev.isSlot h l.handle) fun u l => u.chargeLayer h l.handle := by
  simp only [State.takeCmp, List.partition_eq_filter_filter, Function.comp_def]

theorem State.each_nil {α : Type} (s : State) (f : State → α → State) : s.each [] f = s := rfl
theorem State.each_singleton {α : Type} (s : State) (a : α) (f : State → α → State) : s.each [a] f = f s a := rfl

section Single
variable {s : State} {h : Fin 8} {l : ActiveLayer} (hl : (s.head h).layers = [l])
include hl

theorem State.takeCmp_of_single (hhide : ∀ i, (at' (s.head h).plates i).shown = false) : s.takeCmp h = s.chargeLayer h l.handle := by
  have hplates := State.plates_chargeLayer s h l.handle
  have hhide' : ∀ i, (at' ((s.chargeLayer h l.handle).head h).plates i).shown = false := by rwa [hplates]
  rw [State.takeCmp_eq, hl]
  cases hslot : s.dev.isSlot h l.handle with
  | true =>
    simp only [List.filter_cons, hslot, List.filter_nil, Bool.not_true, Bool.false_eq_true, if_true, if_false, State.each_singleton, State.each_nil]
    rw [State.chargePlates_of_hidden hhide']
  | false =>
    simp only [List.filter_cons, hslot, List.filter_nil, Bool.not_false, Bool.false_eq_true, if_true, if_false, State.each_singleton, State.each_nil]
    rw [State.chargePlates_of_hidden hhide]

theorem State.find_single : (s.head h).layers.find? (·.handle == l.handle) = some l := by
  simp only [hl, List.find?_cons, beq_self_eq_true]

theorem State.chargeLayer_of_granted (hspare : s.sparesSlots h l (layerCmp (s.head h).timing l.block) = true) {k : Skein}
    (htake : s.skein.take .cmp (plyHolder l.ply) (layerCmp (s.head h).timing l.block) = some k) :
    s.chargeLayer h l.handle = ({ s with skein := k } : State).markLayer h l.handle (layerCmp (s.head h).timing l.block) false := by
  simp only [State.chargeLayer, State.find_single hl, hspare, htake, Bool.not_true, Bool.false_eq_true, if_false]
  rfl

theorem State.chargeLayer_of_refused (htake : s.skein.take .cmp (plyHolder l.ply) (layerCmp (s.head h).timing l.block) = none) :
    s.chargeLayer h l.handle = s.markLayer h l.handle 0 true := by
  simp only [State.chargeLayer, State.find_single hl, htake, ite_self]
  rfl

theorem State.layers_markLayer (n : Nat) (hold : Bool) :
    ((s.markLayer h l.handle n hold).head h).layers.map (fun x => (x.cmp, x.hold)) = [(n, hold)] := by
  simp only [State.head_markLayer, hl, List.map_cons, List.map_nil, if_true]

end Single

theorem cmpTakeAndReturn : CmpTakeAndReturn := by
  intro h s
  refine ⟨?zeroed, s.returnCmp_sameButCmp h, s.takeCmp_sameButCmp h, (State.returnCmp_keeps s h (Keeps.refl s)).dram rfl,
    (State.takeCmp_keeps s h (Keeps.refl s)).dram rfl, fun l hl hhide => ⟨fun k hspare htake => ?granted, fun htake => ?refused⟩⟩
  case zeroed => rw [State.head_returnCmp, Head.uncharged, List.map_map]; rfl
  case granted =>
    rw [State.takeCmp_of_single hl hhide, State.chargeLayer_of_granted hl hspare htake]
    exact ⟨rfl, State.layers_markLayer (s := { s with skein := k }) hl _ _⟩
  case refused =>
    rw [State.takeCmp_of_single hl hhide, State.chargeLayer_of_refused hl htake]
    exact ⟨rfl, State.layers_markLayer hl _ _⟩

/-- Settles O41: it holds, each clause by the lemma of its row. The model's choice, and not the manual's words, is that a layer whose CMP take is refused at a
boundary is held and not fetched for that frame (log entry 53). -/
theorem frameResults : Obligations.FrameResults := ⟨frameCommandResults, cmpTakeAndReturn⟩

end Sys2Proof.Machine

namespace Sys2Proof.Machine
open Sys2Proof.Claims

/-! Channels after an update of one -/

@[simp] theorem State.chan_updChan_self (s : State) (ch : Fin 16) (f : Chan → Chan) : (s.updChan ch f).dev.mc.chan ch = f (s.dev.mc.chan ch) :=
  at'_upd_self ..

theorem State.updChan_updChan (s : State) (ch : Fin 16) (f g : Chan → Chan) : (s.updChan ch f).updChan ch g = s.updChan ch fun c => g (f c) := by
  simp only [State.updChan, State.onDev, upd_upd]

/-- A change of a channel is known by what it makes of that channel. -/
theorem State.updChan_congr {s : State} {ch : Fin 16} {f g : Chan → Chan} (h : f (s.dev.mc.chan ch) = g (s.dev.mc.chan ch)) :
    s.updChan ch f = s.updChan ch g :=
  congrArg (fun c => s.onDev fun d => { d with mc := { d.mc with chans := put d.mc.chans ch c } }) h

/-- When a channel cannot issue (R62, R271, R275, R276). -/
theorem Dev.canIssue_eq_false_iff (d : Dev) (ch : Fin 16) : d.canIssue ch = false ↔ d.mc.deep = true ∨ (d.mc.chan ch).alert = true ∨
    (d.mc.chan ch).training = true ∨ (d.mc.chan ch).slice = true ∨ (d.pkgW = true ∧ 32 ≤ (d.mc.chan ch).retry.length) := by
  simp only [Dev.canIssue, Bool.and_eq_false_iff, Bool.not_eq_false', Bool.and_eq_true, decide_eq_true_eq, or_assoc]

theorem Dev.canIssue_of {d : Dev} {ch : Fin 16} (hdeep : d.mc.deep = false) (halert : (d.mc.chan ch).alert = false)
    (htraining : (d.mc.chan ch).training = false) (hslice : (d.mc.chan ch).slice = false)
    (hretry : d.pkgW = false ∨ (d.mc.chan ch).retry.length < 32) : d.canIssue ch = true := by
  have hroom : (d.pkgW && decide (32 ≤ (d.mc.chan ch).retry.length)) = false :=
    (Bool.and_eq_false_iff ..).mpr (hretry.imp_right fun h => decide_eq_false (Nat.not_le.mpr h))
  simp only [Dev.canIssue, hdeep, halert, htraining, hslice, hroom, Bool.not_false, Bool.and_self]

/-! MEM_TRANSFER_ACCEPT (R44, R62, R185, R262-R265, R272, R273, R284) -/
section Accept
variable {port : Fin 16} {eng : Engine} {ply : Option (Fin 64)} {addr : Nat} {write : Option (Nat × List Byte)} {head : Option (Fin 8 × Fin 64)} {s : State}
  (hr : Runs s)

theorem transferTarget_eq (s : State) (ply : Option (Fin 64)) (addr : Nat) (write : Bool) :
    transferTarget s ply addr write = s.dev.memTarget ply addr write := by
  cases ply <;> rfl

include hr

theorem memTransferAccept_answers_none (h : s.dev.mc.trained = false ∨ eng.ports.contains port.val = false ∨ s.dev.wanted port ply head addr = false) :
    Answers (.memTransferAccept ⟨port, eng⟩ ply addr write head) s s := by
  have hno : (!s.dev.mc.trained || !eng.ports.contains port.val || !s.dev.wanted port ply head addr) = true := by
    simpa only [Bool.or_eq_true, Bool.not_eq_true', or_assoc] using h
  simp only [Answers, exec_memTransferAccept, execMemTransferAccept, State.clocked_of_runs hr, if_pos hno]

variable (htrained : s.dev.mc.trained = true) (hport : eng.ports.contains port.val = true) (hwanted : s.dev.wanted port ply head addr = true)
include htrained hport hwanted

theorem memTransferAccept_answers_deep (hdeep : s.dev.mc.deep = true) :
    Answers (.memTransferAccept ⟨port, eng⟩ ply addr write head) s (s.onDev Dev.leaveDeep) := by
  simp only [Answers, exec_memTransferAccept, execMemTransferAccept, State.clocked_of_runs hr, htrained, hport, hwanted, hdeep, Bool.not_true, Bool.or_self,
    Bool.false_eq_true, if_false, if_true]

variable (hawake : s.dev.mc.deep = false)
include hawake

theorem memTransferAccept_answers_fault (hfault : s.dev.memTarget ply addr write.isSome = .fault) :
    Answers (.memTransferAccept ⟨port, eng⟩ ply addr write head) s
      (match (generalizing := false) ply with | some p => s.faultPly p addr write.isSome eng false | none => s) := by
  simp only [Answers, exec_memTransferAccept, execMemTransferAccept, State.clocked_of_runs hr, htrained, hport, hwanted, hawake, hfault, Bool.not_true,
    Bool.or_self, Bool.false_eq_true, if_false]
  cases ply <;> rfl

/-- The MEM holder of a transfer (R42, R44). -/
def transferHolder (ply : Option (Fin 64)) : Fin holders := match ply with | some p => plyHolder p | none => devHolder

/-- What a transfer writes of its 64-byte unit. -/
def unitPart (write : Option (Nat × List Byte)) : Option (Nat × List Byte) := write.map fun w => (w.1 % 64, w.2.take (64 - w.1 % 64))

/-- MEM credits of a transfer: 2 for a partial write (R285). -/
def transferCost (w : Option (Nat × List Byte)) : Nat := match w with | some (_, bs) => if bs.length = 64 then 1 else 2 | none => 1

/-- Whether a transfer is reserved, `t` being the state after its take (R62). -/
def State.reservesTransfer (s t : State) (ply : Option (Fin 64)) : Bool :=
  match ply with
  | some p => (s.ply p).cls == .a && at' s.skein.resvLive p &&
      decide (at' (t.skein.acct .mem).hold (transferHolder ply) ≤ at' (t.skein.acct .mem).guar (transferHolder ply))
  | none => false

/-- The state in which the request `r` has joined its channel's queue; a reserved one aborts a retraining slice (R62, R265). -/
def State.queueTransfer (s t : State) (r : McReq) : State :=
  (t.updChan (chanOf s.dev.pkgW r.addr) fun c => { c with queue := s.dev.promote (c.queue ++ [r]), slice := if r.reserved then false else c.slice }).updMc
    fun m => { m with nextId := m.nextId + 1 }

section Target
variable {phys key : Nat} (hok : s.dev.memTarget ply addr write.isSome = .ok phys key)
include hok

/-- What becomes of a transfer whose address is translated, as the take of its MEM credits and its channel's queue decide. -/
theorem memTransferAccept_exec_ok : exec (.memTransferAccept ⟨port, eng⟩ ply addr write head) s =
    match s.takeMem (transferHolder ply) (transferCost (unitPart write)) [(phys / 64 * 64, 1)] with
    | none => .next s
    | some t =>
      if !(s.dev.mc.chan (chanOf s.dev.pkgW (phys / 64 * 64))).hasRoom (s.reservesTransfer t ply) then .next s
      else .next (s.queueTransfer t
        { id := s.dev.mc.nextId, port := port, eng := eng, ply := ply, addr := phys / 64 * 64, key := key, write := unitPart write,
          reserved := s.reservesTransfer t ply, head := head, promoted := false, accepted := s.dev.devtime, data := [] }) := by
  simp only [exec_memTransferAccept, execMemTransferAccept, State.clocked_of_runs hr, htrained, hport, hwanted, hawake, hok, Bool.not_true, Bool.or_self,
    Bool.false_eq_true, if_false]
  rfl

theorem memTransferAccept_answers_refused (htake : s.takeMem (transferHolder ply) (transferCost (unitPart write)) [(phys / 64 * 64, 1)] = none) :
    Answers (.memTransferAccept ⟨port, eng⟩ ply addr write head) s s := by
  rw [Answers, memTransferAccept_exec_ok hr htrained hport hwanted hawake hok, htake]

section Taken
variable {t : State} (htake : s.takeMem (transferHolder ply) (transferCost (unitPart write)) [(phys / 64 * 64, 1)] = some t)
include htake

theorem memTransferAccept_answers_full
    (hfull : (s.dev.mc.chan (chanOf s.dev.pkgW (phys / 64 * 64))).hasRoom (s.reservesTransfer t ply) = false) :
    Answers (.memTransferAccept ⟨port, eng⟩ ply addr write head) s s := by
  simp only [Answers, memTransferAccept_exec_ok hr htrained hport hwanted hawake hok, htake, hfull, Bool.not_false, if_true]

theorem memTransferAccept_answers_queued
    (hroom : (s.dev.mc.chan (chanOf s.dev.pkgW (phys / 64 * 64))).hasRoom (s.reservesTransfer t ply) = true) :
    Answers (.memTransferAccept ⟨port, eng⟩ ply addr write head) s (s.queueTransfer t
      { id := s.dev.mc.nextId, port := port, eng := eng, ply := ply, addr := phys / 64 * 64, key := key, write := unitPart write,
        reserved := s.reservesTransfer t ply, head := head, promoted := false, accepted := s.dev.devtime, data := [] }) := by
  simp only [Answers, memTransferAccept_exec_ok hr htrained hport hwanted hawake hok, htake, hroom, Bool.not_true, Bool.false_eq_true, if_false]

end Taken
end Target
end Accept

theorem transferAcceptResults : TransferAcceptResults := by
  intro port eng ply addr write head s hr c
  refine ⟨memTransferAccept_answers_none hr, fun htrained hport hwanted => ⟨memTransferAccept_answers_deep hr htrained hport hwanted, fun hawake =>
    ⟨fun hfault => ?fault, fun phys key hok => ?target⟩⟩⟩
  case fault => exact memTransferAccept_answers_fault hr htrained hport hwanted hawake ((transferTarget_eq ..).symm.trans hfault)
  case target =>
    have hok' := (transferTarget_eq s ply addr write.isSome).symm.trans hok
    exact ⟨memTransferAccept_answers_refused hr htrained hport hwanted hawake hok', fun t htake =>
      ⟨memTransferAccept_answers_full hr htrained hport hwanted hawake hok' htake,
        memTransferAccept_answers_queued hr htrained hport hwanted hawake hok' htake⟩⟩

/-! The data path of a channel (R266, R268, R275, R276, R279-R281, R286) -/

theorem State.openUnit_dram (s : State) (phys port : Nat) (ply : Option (Fin 64)) (whole : Bool) : (s.openUnit phys port ply whole).dram = s.dram :=
  (State.openUnit_keeps s phys port ply whole (Keeps.refl s)).dram rfl

/-- A request reaches DRAM: its write is stored, what precedes it being seen to, or its data is read and on its way (R266, R281). -/
theorem State.perform_eq (s : State) (ch : Fin 16) (q : List McReq) (r : McReq) : s.perform ch q r =
    match r.write with
    | some (off, bs) => { s.openUnit r.addr r.port.val r.ply (bs.length == 64) with dram := s.dram.writeN r.key (r.addr + off) bs }
    | none => (s.touchCheck r.addr false).updChan ch fun c => { c with issued := c.issued ++ [{ r with data := readThrough s.dram q r }] } := by
  unfold State.perform
  cases hwrite : r.write with
  | none =>
    simp only
    rfl
  | some w => simp only [State.openUnit_dram]

/-- A command opportunity begins: `good` commands at the front of the retry buffer have passed the parity-alert window, and promotions follow the reports
(R264, R275). -/
def State.passWindow (s : State) (ch : Fin 16) (good : Nat) : State :=
  s.updChan ch fun c => { c with retry := c.retry.drop good, replaying := c.replaying && good == 0, queue := s.dev.promote c.queue }

/-- A channel once the request `r` has issued: out of the queue, its bank's row served, and on DDR5 its command in the retry buffer (R268, R275). -/
def Dev.chanAfter (d : Dev) (ch : Fin 16) (r : McReq) : Chan :=
  let c := d.mc.chan ch
  { c with queue := c.queue.filter (·.id != r.id), banks := upd c.banks (d.mc.bankOf r.addr) (·.serve (rowOf r.addr)),
           retry := if d.pkgW then c.retry ++ [(if r.write.isSome then .wr else .rd, r.addr)] else c.retry }

/-- The state in which the command of `r` has gone out. -/
def State.issueCommand (s : State) (ch : Fin 16) (r : McReq) : State :=
  (s.updChan ch fun _ => s.dev.chanAfter ch r).emit (.dramCmd ch.val (if r.write.isSome then "WR" else "RD") r.addr)

theorem State.sendCmd_issue (s : State) (ch : Fin 16) (r : McReq) :
    (s.updChan ch fun c => { c with queue := c.queue.filter (·.id != r.id),
                                    banks := upd c.banks (s.dev.mc.bankOf r.addr) (·.serve (rowOf r.addr)) }).sendCmd ch
      (if r.write.isSome then .wr else .rd) r.addr = s.issueCommand ch r := by
  have hname : (if r.write.isSome then DramCmd.wr else .rd).name s.dev.pkgW = if r.write.isSome then "WR" else "RD" := by
    cases r.write <;> rfl
  rw [State.sendCmd, State.updChan_updChan, State.issueCommand, ← hname]
  exact congrArg (fun u : State => u.emit _) (State.updChan_congr rfl)

section Opportunity
variable {ch : Fin 16} {s : State} (hr : Runs s) (good : Nat)
include hr

/-- Nothing issues where the channel cannot, or has no request to choose. -/
theorem memCommandOpportunity_answers_idle
    (h : (s.passWindow ch good).dev.canIssue ch = false ∨ (s.passWindow ch good).dev.choose ((s.passWindow ch good).dev.mc.chan ch) = none) :
    Answers (.memCommandOpportunity ch good) s (s.passWindow ch good) := by
  rw [State.passWindow] at h ⊢
  simp only [Answers, exec_memCommandOpportunity, execMemCommandOpportunity, State.clocked_of_runs hr]
  split
  · rfl
  · next hcan =>
    have hnone := h.resolve_left (by simpa using hcan)
    rw [hnone]

theorem memCommandOpportunity_answers_issue {r : McReq} (hcan : (s.passWindow ch good).dev.canIssue ch = true)
    (hchoose : (s.passWindow ch good).dev.choose ((s.passWindow ch good).dev.mc.chan ch) = some r) :
    Answers (.memCommandOpportunity ch good) s
      (((s.passWindow ch good).issueCommand ch r).perform ch ((s.passWindow ch good).dev.mc.chan ch).queue r) := by
  rw [← State.sendCmd_issue]
  rw [State.passWindow] at hcan hchoose ⊢
  simp only [Answers, exec_memCommandOpportunity, execMemCommandOpportunity, State.clocked_of_runs hr, hcan, hchoose, Bool.not_true, Bool.false_eq_true, if_false]

end Opportunity

/-- A read that returns goes through the ECC decoder; where its unit holds an uncorrectable error its requester responds (R281). -/
theorem memReadReturn_answers {ch : Fin 16} {s : State} (hr : Runs s) {id : Nat} {r : McReq}
    (hfind : (s.dev.mc.chan ch).issued.find? (·.id == id) = some r) (errs : List (Nat × Byte)) (unit : DeviceUnit) (line col : Nat) :
    let u := s.updChan ch fun c => { c with issued := c.issued.filter (·.id != id) }
    let seen := u.dev.decodeEcc r.addr errs
    let v := u.eccFound seen r.addr r.port.val r.ply
    Answers (.memReadReturn ch id errs unit line col) s (if seen = .uncorrectable then v.poisoned r unit (some (line, col)) else v) := by
  simp only [Answers, exec_memReadReturn, execMemReadReturn, State.clocked_of_runs hr, hfind]

section Alert
variable {ch : Fin 16} {s : State} (hr : Runs s)
include hr

theorem caParityAlert_answers_none (h : s.dev.pkgW = false) : Answers (.caParityAlert ch) s s := by
  simp [Answers, execCaParityAlert, State.clocked_of_runs hr, h]

section Live
variable (hW : s.dev.pkgW = true) (hch : ch.val < 8) (htraining : (s.dev.mc.chan ch).training = false) (halert : (s.dev.mc.chan ch).alert = false)
include hW hch htraining halert

theorem caParityAlert_answers_first (hfirst : (s.dev.mc.chan ch).replaying = false) :
    Answers (.caParityAlert ch) s (s.updChan ch fun c => { c with alert := true }) := by
  simp [Answers, execCaParityAlert, State.clocked_of_runs hr, hW, Nat.not_le.mpr hch, htraining, halert, hfirst]

/-- A second alert before the first replayed command is known good is a fault (R276). -/
theorem caParityAlert_answers_fault (hagain : (s.dev.mc.chan ch).replaying = true) :
    let u := s.updChan ch fun c => { c with training := true, alert := false, replaying := false, retry := [], slice := false, light := false }
    let v := u.updMc fun m => { m with faults := min 0xFFFF (m.faults + 1) }
    Answers (.caParityAlert ch) s (((v.postManager 0x40 0x0700 ch.val []).cocoon 0x0700 sevCritical 0x40 (bytesOf 2 ch.val)).failQueue ch) := by
  simp [Answers, execCaParityAlert, State.clocked_of_runs hr, hW, Nat.not_le.mpr hch, htraining, halert, hagain]

end Live

theorem parityReplay_answers_training (h : (s.dev.mc.chan ch).training = true) :
    Answers (.parityReplay ch) s (s.updChan ch fun c => { c with training := false, alert := false }) := by
  simp only [Answers, exec_parityReplay, execParityReplay, State.clocked_of_runs hr, h, if_true]

omit hr in
/-- Commands that go out leave the package as it is, so each is named as the first state names it. -/
theorem State.each_emit_commands (ch : Nat) (l : List (DramCmd × Nat)) :
    (s.each l fun u e => u.emit (.dramCmd ch (e.1.name u.dev.pkgW) e.2)) = l.foldl (fun u e => u.emit (.dramCmd ch (e.1.name s.dev.pkgW) e.2)) s := by
  induction l generalizing s with
  | nil => rfl
  | cons e t ih => exact ih (s := s.emit (.dramCmd ch (e.1.name s.dev.pkgW) e.2))

theorem parityReplay_answers_replay (htraining : (s.dev.mc.chan ch).training = false) (halert : (s.dev.mc.chan ch).alert = true) :
    let c := s.dev.mc.chan ch
    let u := c.retry.foldl (fun u e => u.emit (.dramCmd ch.val (e.1.name s.dev.pkgW) e.2)) s
    Answers (.parityReplay ch) s ((u.updChan ch fun c => { c with alert := false, replaying := !c.retry.isEmpty }).updMc fun m =>
      { m with replays := min 0xFFFF (m.replays + 1) }) := by
  simp only [Answers, exec_parityReplay, execParityReplay, State.clocked_of_runs hr, htraining, halert, Bool.not_true, Bool.false_eq_true, if_false,
    State.each_emit_commands]

theorem patrolScrub_answers {a : Nat} {t : State} (htrained : s.dev.mc.trained = true) (hin : a < s.dev.dramTop)
    (htake : s.takeMem devHolder 1 [(a, 1)] = some t) (errs : List (Nat × Byte)) (unit : DeviceUnit) :
    let seen := t.dev.decodeEcc (a / 64 * 64) errs
    let v := t.eccFound seen (a / 64 * 64) 14 none
    Answers (.patrolScrub a errs unit) s (if seen = .uncorrectable then v.deviceUncorrectable (a / 64 * 64) unit else v) := by
  simp only [Answers, exec_patrolScrub, execPatrolScrub, State.clocked_of_runs hr, htrained, htake, Bool.not_true, Bool.false_or, decide_eq_true_eq,
    if_neg (Nat.not_le.mpr hin)]

end Alert

theorem channelResults : ChannelResults := by
  intro ch s hr
  refine ⟨fun good => ⟨fun hidle => ?idle, fun r hdeep halert htraining hslice hretry hchoose => ?issues⟩,
    fun id line col errs unit r hfind => memReadReturn_answers hr hfind errs unit line col,
    fun c hc hW hch htraining halert => ?alert, caParityAlert_answers_none hr, ⟨parityReplay_answers_training hr, parityReplay_answers_replay hr⟩,
    fun a errs unit t htrained hin htake => patrolScrub_answers hr htrained hin htake errs unit⟩
  case idle =>
    refine memCommandOpportunity_answers_idle hr good ?_
    simp only [Dev.canIssue_eq_false_iff, or_assoc]
    exact hidle
  case issues =>
    have hout := memCommandOpportunity_answers_issue hr good (Dev.canIssue_of hdeep halert htraining hslice hretry) hchoose
    rw [State.perform_eq] at hout
    exact hout
  case alert =>
    subst hc
    exact ⟨caParityAlert_answers_first hr hW hch htraining halert, caParityAlert_answers_fault hr hW hch htraining halert⟩

/-- Settles O43: it holds, each clause by the lemma of its row. What the environment brings to a channel (the commands that have passed the parity-alert
window, the errors of a unit) comes with the command, which is the model's choice (log entry 102). -/
theorem transferAndChannelResults : Obligations.TransferAndChannelResults := ⟨transferAcceptResults, channelResults⟩

end Sys2Proof.Machine

namespace Sys2Proof.Machine
open Sys2Proof.Claims

/-! Upkeep of the DRAM (R41, R259, R268-R271, R277) -/

/-- SEG_DROP of a MEM_PASR; with inline ECC on, its bit 7 is taken as 0 (R277). -/
def Journal.segDrop (j : Journal) (m : MemDesc) : Nat := if m.iecc then j.arg 0 1 % 128 else j.arg 0 1

section Upkeep
variable {ch : Fin 16} {s : State} (hr : Runs s)
include hr

theorem dramTraining_answers {m : MemDesc} (hdesc : s.dev.mc.desc = some m) (hok : memDescOk s.dev.pkgW m = true) (hnew : s.dev.mc.trained = false) :
    Answers .dramTraining s
      ((s.onDev fun d => { d with dramTop := m.top, mc := { d.mc with trained := true } }).onSkein fun k => k.trainMem (memTotal m.rate m.iecc)) := by
  simp only [Answers, exec_dramTraining, execDramTraining, State.clocked_of_runs hr, hdesc, hok, hnew, Bool.not_true, Bool.or_self, Bool.false_eq_true,
    if_false]

theorem bankIdleClose_answers (bank : Fin 16) :
    Answers (.bankIdleClose ch bank) s (s.updChan ch fun c => { c with banks := upd c.banks bank fun b =>
      match b.row with | some r => { b with row := none, lastRow := some r } | none => b }) := by
  rw [Answers, exec_bankIdleClose, execBankIdleClose, State.clocked_of_runs hr] <;> rfl

theorem mr4Poll_answers (rates : Vector Nat 32) (hot : Vector Bool 32) :
    Answers (.mr4Poll rates hot) s (s.dev.chanList.foldl (fun u k => u.updChan k fun c =>
      { c with refRate := Vector.ofFn fun r => atD rates (k.val + 16 * r.val) 0,
               fine := u.dev.pkgW && (atD hot k.val false || atD hot (k.val + 16) false) }) s) := by
  rw [Answers, exec_mr4Poll, execMr4Poll, State.clocked_of_runs hr]
  rfl

theorem dqsOscSample_answers (b : Bool) : Answers (.dqsOscSample ch b) s (s.updChan ch fun c => { c with drift := c.drift || b }) := by
  rw [Answers, exec_dqsOscSample, execDqsOscSample, State.clocked_of_runs hr]

theorem retrainForceTimeout_answers :
    Answers (.retrainForceTimeout ch) s (s.updChan ch fun c => { c with forced := c.forced || (c.drift && !c.slice) }) := by
  rw [Answers, exec_retrainForceTimeout, execRetrainForceTimeout, State.clocked_of_runs hr]

section Refresh
variable (bank : Fin 16) (htrained : s.dev.mc.trained = true) (hawake : s.dev.mc.deep = false)

omit hr in
/-- A refresh that falls due ends light nap, which does not matter to what holds the channel. -/
theorem Dev.canIssue_endLight (s : State) (ch : Fin 16) : (s.updChan ch fun c => { c with light := false }).dev.canIssue ch = s.dev.canIssue ch := by
  simp only [Dev.canIssue, State.chan_updChan_self]
  rfl

include htrained hawake

theorem refreshDue_answers_postponed
    (h : s.dev.canIssue ch = false ∨ ((s.dev.mc.chan ch).queue.any (·.reserved) = true ∧ (at' (s.dev.mc.chan ch).banks bank).postponed < 8)) :
    Answers (.refreshDue ch bank) s
      (s.updChan ch fun c => { c with light := false, banks := upd c.banks bank fun b => { b with postponed := min 8 (b.postponed + 1) } }) := by
  have hwaits : (!s.dev.canIssue ch || (s.dev.mc.chan ch).queue.any (·.reserved) && decide ((at' (s.dev.mc.chan ch).banks bank).postponed < 8)) = true := by
    simpa only [Bool.or_eq_true, Bool.not_eq_true', Bool.and_eq_true, decide_eq_true_eq] using h
  simp only [Answers, exec_refreshDue, execRefreshDue, State.clocked_of_runs hr, htrained, hawake, Bool.not_true, Bool.or_self, Bool.false_eq_true, if_false,
    Dev.canIssue_endLight, if_pos hwaits, State.updChan_updChan]

variable (hcan : s.dev.canIssue ch = true)
include hcan

/-- After 8 postponements an all-bank refresh goes out. -/
theorem refreshDue_answers_all (hlate : 8 ≤ (at' (s.dev.mc.chan ch).banks bank).postponed) :
    Answers (.refreshDue ch bank) s
      ((s.updChan ch fun c => { c with light := false, banks := c.banks.map fun b => { b.shut with postponed := 0 } }).sendCmd ch .refAll 0) := by
  simp only [Answers, exec_refreshDue, execRefreshDue, State.clocked_of_runs hr, htrained, hawake, hcan, Bool.not_true, Bool.or_self,
    Bool.false_eq_true, if_false, Dev.canIssue_endLight, Nat.not_lt.mpr hlate, decide_false, Bool.and_false, if_pos hlate, State.updChan_updChan]

theorem refreshDue_answers_bank (hfree : (s.dev.mc.chan ch).queue.any (·.reserved) = false) (hearly : (at' (s.dev.mc.chan ch).banks bank).postponed < 8) :
    Answers (.refreshDue ch bank) s
      ((s.updChan ch fun c => { c with light := false, banks := upd c.banks bank fun b => { b.shut with postponed := 0 } }).sendCmd ch .refBank bank.val) := by
  simp only [Answers, exec_refreshDue, execRefreshDue, State.clocked_of_runs hr, htrained, hawake, hcan, hfree, Bool.not_true, Bool.or_self, Bool.false_and,
    Bool.false_eq_true, if_false, Dev.canIssue_endLight, if_neg (Nat.not_le.mpr hearly), State.updChan_updChan]

end Refresh

section Slice

theorem retrainSlice_answers_ends (hslice : (s.dev.mc.chan ch).slice = true) :
    Answers (.retrainSlice ch) s ((s.updChan ch fun c => { c with slice := false, drift := false, forced := false }).updMc fun m =>
      if (s.dev.mc.chan ch).forced then { m with forcedN := min 0x7FFF (m.forcedN + 1) } else m) := by
  simp only [Answers, exec_retrainSlice, execRetrainSlice, State.clocked_of_runs hr, hslice, if_true]

variable (hslice : (s.dev.mc.chan ch).slice = false)
include hslice

theorem retrainSlice_answers_none (h : (s.dev.mc.chan ch).drift = false ∨ s.dev.sliceFree ch = false) : Answers (.retrainSlice ch) s s := by
  have hno : (!(s.dev.mc.chan ch).drift || !s.dev.sliceFree ch) = true := by simpa only [Bool.or_eq_true, Bool.not_eq_true'] using h
  simp only [Answers, exec_retrainSlice, execRetrainSlice, State.clocked_of_runs hr, hslice, Bool.false_eq_true, if_false, if_pos hno]

/-- A slice that is due waits for its window, unless it is forced. -/
theorem retrainSlice_answers_due (hdrift : (s.dev.mc.chan ch).drift = true) (hfree : s.dev.sliceFree ch = true) :
    Answers (.retrainSlice ch) s
      (if s.dev.toleranceAbove 2000 then s.updChan ch fun c => { c with slice := true, forced := false }
       else if (s.dev.mc.chan ch).forced then s.updChan ch fun c => { c with slice := true } else s) := by
  simp only [Answers, exec_retrainSlice, execRetrainSlice, State.clocked_of_runs hr, hslice, hdrift, hfree, Bool.not_true, Bool.or_self, Bool.false_eq_true,
    if_false, apply_ite Host.Outcome.next]

end Slice

theorem memPasr_answers {o : Nat} {j : Journal} {m : MemDesc} (hj : Managed s o 0x40 j) (hdesc : s.dev.mc.desc = some m) :
    Answers (.memPasr o) s
      (if j.arg 1 1 ≠ 0 then s.answer j mbBadArg [] else if s.dev.pkgW then s.answer j 0x11 []
       else if s.dev.pasrUnsafe m (j.segDrop m) (j.arg 2 2) then s.answer j 0x10 []
       else (s.updMc fun c => { c with pSegDrop := j.segDrop m, pBankDrop := j.arg 2 2 }).answer j mbOk []) := by
  simp only [Answers, exec_memPasr, execMemPasr, State.clocked_of_runs hr, State.managed_of_managed hj, hdesc] <;> rfl

end Upkeep

theorem dramUpkeepResults : DramUpkeepResults := by
  intro ch s hr
  refine ⟨fun m hdesc hok hnew => dramTraining_answers hr hdesc hok hnew, fun bank htrained hawake =>
      ⟨refreshDue_answers_postponed hr bank htrained hawake, refreshDue_answers_all hr bank htrained hawake,
        refreshDue_answers_bank hr bank htrained hawake⟩,
    bankIdleClose_answers hr, mr4Poll_answers hr, dqsOscSample_answers hr, retrainForceTimeout_answers hr,
    ⟨retrainSlice_answers_ends hr, retrainSlice_answers_none hr, fun hslice hdrift hfree => ?slice⟩, fun o j m hj hdesc => ?pasr⟩
  case slice =>
    have hout := retrainSlice_answers_due hr hslice hdrift hfree
    refine ⟨fun hwin => ?_, fun hwin hforced => ?_, fun hwin hfree' => ?_⟩
    · rwa [if_pos hwin] at hout
    · rwa [if_neg (ne_true_of_eq_false hwin), if_pos hforced] at hout
    · rwa [if_neg (ne_true_of_eq_false hwin), if_neg (ne_true_of_eq_false hfree')] at hout
  case pasr =>
    have hout := memPasr_answers hr hj hdesc
    refine ⟨fun hres => ?_, fun hres => ⟨fun hW => ?_, fun hC hbad => ?_, fun hC hgood => ?_⟩⟩
    · rwa [if_pos hres] at hout
    · rwa [if_neg (not_not.mpr hres), if_pos hW] at hout
    · have hbad' : s.dev.pasrUnsafe m (j.segDrop m) (j.arg 2 2) = true := hbad
      rw [if_neg (not_not.mpr hres), if_neg (ne_true_of_eq_false hC), if_pos hbad'] at hout
      exact hout
    · have hgood' : s.dev.pasrUnsafe m (j.segDrop m) (j.arg 2 2) = false := hgood
      rw [if_neg (not_not.mpr hres), if_neg (ne_true_of_eq_false hC), if_neg (ne_true_of_eq_false hgood')] at hout
      exact hout

/-! Naps (R144, R145, R272-R274, R277) -/

theorem Dev.leaveDeep_of_awake {d : Dev} (h : d.mc.deep = false) : d.leaveDeep = d := if_neg (ne_true_of_eq_false h)

section Naps
variable {ch : Fin 16} {s : State} (hr : Runs s)
include hr

theorem lightNapEnter_answers (htrained : s.dev.mc.trained = true) (hlow : 1 ≤ s.dev.napDepth) (hhigh : s.dev.napDepth ≤ 2)
    (hempty : (s.dev.mc.chan ch).queue = []) (htol : s.dev.toleranceAbove 20 = true) :
    Answers (.lightNapEnter ch) s (s.updChan ch fun c => { c with light := true }) := by
  simp [Answers, execLightNapEnter, State.clocked_of_runs hr, htrained, hlow, hhigh, hempty, htol]

theorem lightNapEnter_answers_none (h : s.dev.toleranceAbove 20 = false ∨ (s.dev.mc.chan ch).queue ≠ []) : Answers (.lightNapEnter ch) s s := by
  have hno : ((s.dev.mc.chan ch).queue.isEmpty && s.dev.toleranceAbove 20) = false := by
    rw [Bool.and_eq_false_iff, List.isEmpty_eq_false_iff]
    exact h.symm
  simp only [Answers, exec_lightNapEnter, execLightNapEnter, State.clocked_of_runs hr, Bool.and_assoc, hno, Bool.and_false, Bool.false_eq_true, if_false]

theorem lightNapExit_answers : Answers (.lightNapExit ch) s (s.updChan ch fun c => { c with light := false }) := by
  rw [Answers, exec_lightNapExit, execLightNapExit, State.clocked_of_runs hr]

theorem deepNapRequest_answers (hok : s.dev.deepOk = true) (hawake : s.dev.mc.deep = false) :
    Answers .deepNapRequest s (s.updMc fun m => { m with topUp := true, acks := [] }) := by
  simp [Answers, execDeepNapRequest, State.clocked_of_runs hr, hok, hawake]

theorem headTopupAck_answers {h : Fin 8} (htop : s.dev.mc.topUp = true) (hnew : s.dev.mc.acks.contains h.val = false) (hexposed : s.dev.headExposed h = true) :
    let m := s.dev.master h
    let half : Fin 2 := if m = h then 0 else 1
    Answers (.headTopupAck h) s ((s.updHead m fun x => { x with layers := x.layers.map fun l =>
      { l with fill := put l.fill half (max (at' l.fill half) (x.fullFill s.dev.devtime l half.val)) } }).updMc fun m =>
        { m with acks := m.acks ++ [h.val] }) := by
  simp only [Answers, exec_headTopupAck, execHeadTopupAck, State.clocked_of_runs hr, htop, hnew, hexposed, Bool.not_true, Bool.or_self, Bool.false_eq_true,
    if_false]

/-- With every acknowledgement in, the conditions of a deep nap are tested again. -/
theorem deepNapEnter_answers (htop : s.dev.mc.topUp = true) (hacks : ∀ h, h < s.dev.nHeads → s.dev.mc.acks.contains h = true) :
    let go := s.dev.deepOk && s.dev.toleranceAbove 1500
    let u := s.updMc fun m => { m with topUp := false, acks := [], deep := go }
    Answers .deepNapEnter s (if go then u.losePasr else u) := by
  have hall : (List.range s.dev.nHeads).all s.dev.mc.acks.contains = true := List.all_eq_true.mpr fun h hh => hacks h (List.mem_range.mp hh)
  simp only [Answers, exec_deepNapEnter, execDeepNapEnter, State.clocked_of_runs hr, htop, hall, Bool.and_self, Bool.not_true, Bool.false_eq_true, if_false]

theorem deepNapExit_answers : Answers .deepNapExit s (s.onDev Dev.leaveDeep) := by
  rw [Answers, exec_deepNapExit, execDeepNapExit, State.clocked_of_runs hr]

theorem headTolReport_answers_hidden {h : Fin 8} (hhidden : s.dev.headExposed h = false) (held : List (Nat × Nat)) :
    Answers (.headTolReport h held) s s := by
  simp only [Answers, exec_headTolReport, execHeadTolReport, State.clocked_of_runs hr, hhidden, Bool.not_false, if_true]

/-- A head reports what its bobbins hold in time; a low report ends the naps that it does not tolerate. -/
theorem headTolReport_answers {h : Fin 8} (hexposed : s.dev.headExposed h = true) (held : List (Nat × Nat)) :
    let m := s.dev.master h
    let half : Fin 2 := if m = h then 0 else 1
    let b := s.updHead m fun x => { x with layers := x.layers.map fun l => match Map.find held l.handle with
      | some n => { l with fill := put l.fill half (min n (6 * (x.layerCols l half.val).length * x.timing.lines)) }
      | none => l }
    let u := b.updMc fun c => { c with tol := put c.tol h (b.dev.tolerance h) }
    let v := if u.dev.toleranceAbove 20 then u else u.updMc fun m => { m with chans := m.chans.map fun c => { c with light := false } }
    Answers (.headTolReport h held) s (if v.dev.toleranceAbove 1500 then v else v.onDev Dev.leaveDeep) := by
  simp only [Answers, exec_headTolReport, execHeadTolReport, State.clocked_of_runs hr, hexposed, Bool.not_true, Bool.false_eq_true, if_false] <;> rfl

end Naps

theorem napResults : NapResults := by
  intro ch s hr
  refine ⟨lightNapEnter_answers hr, lightNapEnter_answers_none hr, lightNapExit_answers hr, deepNapRequest_answers hr, fun h => headTopupAck_answers hr,
    fun htop hacks => ?deepEnter, fun hdeep => ?exit, fun hawake => ?awake,
    fun h held => ⟨fun hhidden => headTolReport_answers_hidden hr hhidden held, fun hexposed => headTolReport_answers hr hexposed held⟩⟩
  case deepEnter =>
    have hout := deepNapEnter_answers hr htop hacks
    refine ⟨fun hok htol => ?_, fun hlow => ?_⟩
    · simpa only [hok, htol, Bool.and_self, if_true] using hout
    · simpa only [(Bool.and_eq_false_iff ..).mpr hlow, Bool.false_eq_true, if_false] using hout
  case exit =>
    have hout := deepNapExit_answers hr
    rw [State.onDev, Dev.leaveDeep, if_pos hdeep] at hout
    exact hout
  case awake =>
    have hout := deepNapExit_answers hr
    rwa [State.onDev, Dev.leaveDeep_of_awake hawake] at hout

/-- Settles O44: it holds, each clause by the lemma of its row. The model's choice, and not the manual's words, are that a refresh counts as postponed while
its channel cannot issue, that a forced slice counts when it ends (log entry 102), and that MEM_PASR tests the byte between its masks before it answers
NOT_SUPPORTED (log entry 113). -/
theorem upkeepAndNapResults : Obligations.UpkeepAndNapResults := ⟨dramUpkeepResults, napResults⟩

end Sys2Proof.Machine

namespace Sys2Proof.Machine
open Sys2Proof.Claims

/-! Host reads (R44, R46, R66, R121, R326) -/

section HostReads
variable {s : State} {i : Nat} {x : HostRead} (hr : Runs s)
include hr

/-- An outstanding request that completes: it ends, unless it is the last one of a read whose data is wanted. -/
theorem hostReadCompletion_answers (hx : s.dev.reads[i]? = some x) :
    Answers (.hostReadCompletion i) s
      (if x.what == .other || (s.dev.reads.erase x).any (·.what == x.what) || s.dev.readWaits.any (·.what == x.what) then s.endRead x else s) := by
  simp only [Answers, exec_hostReadCompletion, execHostReadCompletion, State.clocked_of_runs hr, hx, apply_ite Host.Outcome.next]

theorem htagCompletionTimeout_answers (hx : s.dev.reads[i]? = some x) :
    Answers (.htagCompletionTimeout i none) s ((s.endRead x).afterTimeout x) := by
  simp only [Answers, exec_htagCompletionTimeout, execHtagCompletionTimeout, State.clocked_of_runs hr, hx]

theorem htagCompletionTimeout_answers_poll {p : Fin 64} (hp : 0 < (s.ply p).pollTags) :
    Answers (.htagCompletionTimeout i (some p)) s (s.endPoll p) := by
  simp only [Answers, exec_htagCompletionTimeout, execHtagCompletionTimeout, State.clocked_of_runs hr, if_pos hp]

theorem creditWaitRetry_answers (hx : s.dev.readWaits[i]? = some x) :
    Answers (.creditWaitRetry i) s ((s.onDev fun d => { d with readWaits := d.readWaits.eraseIdx i }).issueRead x) := by
  simp only [Answers, exec_creditWaitRetry, execCreditWaitRetry, State.clocked_of_runs hr, hx]

theorem iommuRefusal_answers (p : Fin 64) (a : Nat) (w : Bool) (eng : Engine) :
    Answers (.iommuRefusal p a ⟨w, eng⟩ none) s (s.faultPly p a w eng true) := by
  simp only [Answers, exec_iommuRefusal, execIommuRefusal, State.clocked_of_runs hr, Option.bind_none]

/-- The ply's refused read ends, and its engine is the one named. -/
theorem iommuRefusal_answers_read {p : Fin 64} (a : Nat) (w : Bool) (eng : Engine) (hx : s.dev.reads[i]? = some x) (hp : x.ply = some p) :
    Answers (.iommuRefusal p a ⟨w, eng⟩ (some i)) s ((s.endRead x).faultPly p a w x.what.engine true) := by
  simp only [Answers, exec_iommuRefusal, execIommuRefusal, State.clocked_of_runs hr, Option.bind_some, hx, if_pos hp]

theorem hapRecharge_answers : Answers .hapRecharge s (s.onSkein Skein.rechargeHap) := by
  rw [Answers, exec_hapRecharge, execHapRecharge, State.clocked_of_runs hr]

end HostReads

theorem hostReadResults : HostReadResults := by
  intro s i hr
  refine ⟨fun x hx => ?completion, fun _ => htagCompletionTimeout_answers hr, fun _ => htagCompletionTimeout_answers_poll hr,
    fun _ => creditWaitRetry_answers hr,
    fun p a w eng => ⟨iommuRefusal_answers hr p a w eng, fun _ => iommuRefusal_answers_read hr a w eng⟩, hapRecharge_answers hr⟩
  have hout := hostReadCompletion_answers hr hx
  rw [Bool.or_assoc] at hout
  refine ⟨fun h => ?_, fun hother hlast => ?_⟩
  · rwa [if_pos ((Bool.or_eq_true ..).mpr (h.imp_left beq_iff_eq.mpr))] at hout
  · have hother' : (x.what == .other) = false := beq_eq_false_iff_ne.mpr hother
    rwa [hother', hlast, Bool.or_self, if_neg Bool.false_ne_true] at hout

/-! Configuration, power state and latency of a port (R327-R329, R331, R333, R334) -/

section PortService
variable {q : Fin 4} {s : State} (hr : Runs s)
include hr

section Configuration
variable (hup : (s.port q).linkUp = true) (hpresent : s.dev.portPresent q = true)
include hup hpresent

theorem configRequest_answers_retry (hready : s.dev.cfgReady q = false) (off : Nat) (w : Option Word) :
    Answers (.configRequest q off w) s (s.emit (.cfgReply q none)) := by
  simp [Answers, execConfigRequest, State.clocked_of_runs hr, hup, hpresent, hready]

theorem configRequest_answers_read (hready : s.dev.cfgReady q = true) (off : Nat) :
    Answers (.configRequest q off none) s (s.emit (.cfgReply q (some (s.dev.cfgRead q off)))) := by
  simp [Answers, execConfigRequest, State.clocked_of_runs hr, hup, hpresent, hready]

theorem configRequest_answers_write (hready : s.dev.cfgReady q = true) (off : Nat) (v : Word) :
    Answers (.configRequest q off (some v)) s ((s.cfgWrite q off v).emit (.cfgReply q (some 0))) := by
  simp [Answers, execConfigRequest, State.clocked_of_runs hr, hup, hpresent, hready]

theorem powerStateChange_answers (hready : s.dev.cfgReady q = true) (d3 bm : Bool) :
    Answers (.powerStateChange q d3 bm) s ((s.cfgWrite q 0x44 (Word.put ((s.port q).cfgWord 0x44) 1 0 (if d3 then 3 else 0))).cfgWrite q 0x04
      (Word.put ((s.port q).cfgWord 0x04) 2 2 (bit1 bm))) := by
  simp only [Answers, exec_powerStateChange, execPowerStateChange, State.clocked_of_runs hr, hup, hpresent, hready, Bool.and_self, Bool.not_true,
    Bool.false_eq_true, if_false]

end Configuration

theorem ltrMessage_answers_same (hsame : s.dev.ltrValue q = (s.port q).ltrLast) : Answers (.ltrMessage q) s s := by
  simp only [Answers, exec_ltrMessage, execLtrMessage, State.clocked_of_runs hr, hsame, ne_eq, not_true_eq_false, and_false, if_false]

theorem ltrMessage_answers_changed (hup : (s.port q).linkUp = true) (hnew : s.dev.ltrValue q ≠ (s.port q).ltrLast) :
    Answers (.ltrMessage q) s ((s.updPort q fun pt => { pt with ltrLast := s.dev.ltrValue q }).emit (.pcieMsg q "LTR" (s.dev.ltrValue q))) := by
  simp only [Answers, exec_ltrMessage, execLtrMessage, State.clocked_of_runs hr, if_pos (And.intro hup hnew)]

theorem aspmIdleTimeout_answers_awake (hA : s.dev.classAOn q = true) : Answers (.aspmIdleTimeout q) s s := by
  simp only [Answers, exec_aspmIdleTimeout, execAspmIdleTimeout, State.clocked_of_runs hr, hA, Bool.not_true, Bool.and_false, Bool.false_eq_true, if_false]

theorem aspmIdleTimeout_answers_l1 (hA : s.dev.classAOn q = false) (hup : (s.port q).linkUp = true) (hl0 : (s.port q).inL1 = false)
    (hd0 : (s.port q).inD0 = true) (hen : (s.port q).aspmL1 = true) :
    Answers (.aspmIdleTimeout q) s ((s.updPort q fun pt => { pt with inL1 := true }).emit (.pcieMsg q "ASPM L1" 0)) := by
  simp only [Answers, exec_aspmIdleTimeout, execAspmIdleTimeout, State.clocked_of_runs hr, hA, hup, hl0, hd0, hen, Bool.not_false, Bool.and_self, if_true]

/-- A wake that is due goes out on WAKE_N while the link is down, as PM_PME in D3hot, or not at all. -/
theorem wakeNAssert_answers (hdue : s.dev.ccn.wakeDue = true) (hclk : s.dev.slpclk = true) :
    let u := s.onDev fun d => { d with ccn := { d.ccn with wakeDue := false } }
    let pt := s.port s.dev.power.watchPort
    Answers .wakeNAssert s (if !pt.linkUp then u.onDev fun d => { d with power := { d.power with wakeN := true } }
      else if !pt.inD0 && pt.pmeEn then u.emit (.pcieMsg s.dev.power.watchPort "PM_PME" 0) else u) := by
  have halive : (s.onDev fun d => { d with ccn := { d.ccn with wakeDue := false } }).dev.alive = true := hr
  simp only [Answers, exec_wakeNAssert, execWakeNAssert, hdue, hclk, halive, Bool.and_self, Bool.not_true, Bool.or_false, Bool.false_eq_true, if_false]
  cases (s.port s.dev.power.watchPort).linkUp with
  | false => rfl
  | true => cases (s.port s.dev.power.watchPort).inD0 with
    | true => rfl
    | false => cases (s.port s.dev.power.watchPort).pmeEn <;> rfl

theorem atsInvalidateComplete_answers {v : Inval} (hv : (s.port q).inval.find? (fun v => v.reads.isEmpty && v.polls.isEmpty) = some v) :
    Answers (.atsInvalidateComplete q) s ((s.updPort q fun pt => { pt with inval := pt.inval.erase v }).emit (.pcieMsg q "Invalidate Completion" v.pasid)) := by
  simp only [Answers, exec_atsInvalidateComplete, execAtsInvalidateComplete, State.clocked_of_runs hr, hv]

end PortService

/-! Invalidation of a port's translation cache (R327) -/

/-- A range meets a run of pages exactly when it has a byte in one of them. -/
theorem meetsPages_iff (first pages a n : Nat) :
    meetsPages first pages (a, n) = true ↔ ∃ b, a ≤ b ∧ b < a + n ∧ first ≤ b / 4096 ∧ b / 4096 < first + pages := by
  simp only [meetsPages, Bool.and_eq_true, decide_eq_true_eq]
  refine ⟨fun ⟨⟨⟨hn, hpages⟩, hlow⟩, hhigh⟩ => ⟨max a (first * 4096), ?_⟩, fun ⟨b, _, _, _, _⟩ => ?_⟩
  · omega
  · omega

/-- The PASID under which a read request was sent; a request without a PASID counts as PASID 0. -/
def State.readPasid (s : State) (x : HostRead) : Nat := match x.ply with | some p => (s.ply p).pasid | none => 0

/-- A port's read requests that an invalidation awaits. -/
def State.invalidReads (s : State) (q : Fin 4) (pasid first pages : Nat) : List HostRead :=
  s.dev.reads.filter fun x => x.port == q && meetsPages first pages (x.addr, x.len) && s.readPasid x == pasid

theorem State.mem_invalidReads (s : State) (q : Fin 4) (pasid first pages : Nat) (x : HostRead) :
    x ∈ s.invalidReads q pasid first pages ↔ x ∈ s.dev.reads ∧ x.port = q ∧ s.readPasid x = pasid ∧
      ∃ b, x.addr ≤ b ∧ b < x.addr + x.len ∧ first ≤ b / 4096 ∧ b / 4096 < first + pages := by
  rw [State.invalidReads, List.mem_filter, Bool.and_eq_true, Bool.and_eq_true, beq_iff_eq, beq_iff_eq, meetsPages_iff, and_right_comm, and_assoc]

/-- An invalidation of a run of pages under a PASID, with the requests of its port that it awaits. -/
def State.invalidation (s : State) (q : Fin 4) (pasid first pages : Nat) : Inval :=
  { pasid := pasid, first := first, pages := pages, reads := s.invalidReads q pasid first pages,
    polls := allPlies.filter fun p => let y := s.ply p; y.port == q && y.pasid == pasid && decide (0 < y.pollTags) &&
      ((y.dbrBase.toNat, 512) :: y.rings.toList.map fun g => (g.base.toNat, 512)).any (meetsPages first pages) }

theorem atsInvalidate_answers {q : Fin 4} {s : State} (hr : Runs s) (pasid first pages : Nat) (hup : (s.port q).linkUp = true)
    (hats : (s.port q).atsEn = true) :
    Answers (.atsInvalidate q pasid first pages) s (s.updPort q fun pt =>
      { pt with atc := pt.atc.filter fun e => !(e.pasid == pasid && decide (first ≤ e.page) && decide (e.page < first + pages)),
                inval := pt.inval ++ [s.invalidation q pasid first pages] }) := by
  have hreads : (s.dev.reads.filter fun r => r.port == q && meetsPages first pages (r.addr, r.len) && match r.ply with
      | some p => (s.ply p).pasid == pasid
      | none => pasid == 0) = s.invalidReads q pasid first pages := by
    refine List.filter_congr fun x _ => congrArg _ ?_
    cases hp : x.ply with
    | none => simp only [State.readPasid, hp, beq_eq_beq, eq_comm]
    | some p => simp only [State.readPasid, hp]
  rw [Answers, State.invalidation, ← hreads, exec_atsInvalidate, execAtsInvalidate, State.clocked_of_runs hr, hup, hats, Bool.and_self, Bool.not_true,
    if_neg Bool.false_ne_true] <;> rfl

theorem portServiceResults : PortServiceResults := by
  intro q s hr
  refine ⟨fun hup hpresent => ⟨configRequest_answers_retry hr hup hpresent, fun hready =>
      ⟨configRequest_answers_read hr hup hpresent hready, configRequest_answers_write hr hup hpresent hready,
        powerStateChange_answers hr hup hpresent hready⟩⟩,
    ⟨ltrMessage_answers_same hr, ltrMessage_answers_changed hr⟩, aspmIdleTimeout_answers_awake hr, aspmIdleTimeout_answers_l1 hr,
    wakeNAssert_answers hr, fun pasid first pages hup hats => ?invalidate, fun _ => atsInvalidateComplete_answers hr⟩
  refine ⟨_, s.invalidation q pasid first pages, atsInvalidate_answers hr pasid first pages hup hats, rfl, rfl, ?_, ?_, rfl,
    s.mem_invalidReads q pasid first pages⟩
  · rw [State.port_updPort_self]
  · rw [State.port_updPort_self]

/-- Settles O31: it holds, each clause by the lemma of its row. The model's choice, and not the manual's words, are what is read again after a completion
time-out (log entry 25) and the places of the standard's own configuration registers, 0x44 and 0x04 among them (log entry 20). -/
theorem hostReadAndPortServiceResults : Obligations.HostReadAndPortServiceResults := ⟨hostReadResults, portServiceResults⟩

end Sys2Proof.Machine

namespace Sys2Proof.Machine
open Sys2Proof.Claims

/-! The ledger under shares that are entered (R50, R55) -/

theorem plyHolder_ne_standHolder (p o : Fin 64) : plyHolder p ≠ standHolder o := Fin.ne_of_val_ne (by simp only [plyHolder, standHolder]; omega)

theorem Skein.acct_enter_ne (k : Skein) {kd kd' : Kind} (p : Fin 64) (g c : Nat) (classA : Bool) (h : kd' ≠ kd) :
    (k.enter kd p g c classA).acct kd' = k.acct kd' := Skein.acct_setAcct_ne k _ h

/-- Only the pending shares of an account change when a share is entered. -/
theorem Skein.acct_enter_live (k : Skein) (kd kd' : Kind) (p : Fin 64) (g c : Nat) (classA : Bool) :
    ((k.enter kd p g c classA).acct kd').free = (k.acct kd').free ∧ ((k.enter kd p g c classA).acct kd').hold = (k.acct kd').hold ∧
      ((k.enter kd p g c classA).acct kd').guar = (k.acct kd').guar := by
  by_cases h : kd' = kd
  · subst h
    rw [Skein.enter, Skein.acct_setAcct_self]
    exact ⟨rfl, rfl, rfl⟩
  · rw [Skein.acct_enter_ne k p g c classA h]
    exact ⟨rfl, rfl, rfl⟩

/-- The ply's own pending share of a kind after it is entered. -/
theorem Skein.pending_enter_self (k : Skein) (kd : Kind) (p : Fin 64) (g c : Nat) (classA : Bool) :
    at' ((k.enter kd p g c classA).acct kd).pguar (plyHolder p) = g ∧ at' ((k.enter kd p g c classA).acct kd).pcap (plyHolder p) = c := by
  rw [Skein.enter, Skein.acct_setAcct_self]
  simp only [Account.setPending, at'_put_ne _ _ (plyHolder_ne_standHolder p p), at'_put_self, and_self]

/-- Shares of a ply, each with its kind, entered one after the other. -/
def Skein.enterAll (k : Skein) (p : Fin 64) (classA : Bool) (l : List (Kind × Nat × Nat)) : Skein :=
  l.foldl (fun k x => k.enter x.1 p x.2.1 x.2.2 classA) k

theorem Skein.acct_enterAll_live (k : Skein) (p : Fin 64) (classA : Bool) (l : List (Kind × Nat × Nat)) (kd : Kind) :
    ((k.enterAll p classA l).acct kd).free = (k.acct kd).free ∧ ((k.enterAll p classA l).acct kd).hold = (k.acct kd).hold ∧
      ((k.enterAll p classA l).acct kd).guar = (k.acct kd).guar := by
  induction l generalizing k with
  | nil => exact ⟨rfl, rfl, rfl⟩
  | cons x l ih =>
    obtain ⟨hfree, hhold, hguar⟩ := ih (k.enter x.1 p x.2.1 x.2.2 classA)
    obtain ⟨hfree', hhold', hguar'⟩ := k.acct_enter_live x.1 kd p x.2.1 x.2.2 classA
    exact ⟨hfree.trans hfree', hhold.trans hhold', hguar.trans hguar'⟩

theorem Skein.acct_enterAll_of_notMem (k : Skein) (p : Fin 64) (classA : Bool) {l : List (Kind × Nat × Nat)} {kd : Kind} (h : kd ∉ l.map (·.1)) :
    (k.enterAll p classA l).acct kd = k.acct kd := by
  induction l generalizing k with
  | nil => rfl
  | cons x l ih =>
    obtain ⟨hne, hnot⟩ := not_or.mp (List.mem_cons.not.mp h)
    exact (ih _ hnot).trans (Skein.acct_enter_ne k p _ _ classA hne)

/-- A share among those entered is pending, when each kind comes once. -/
theorem Skein.pending_enterAll (k : Skein) (p : Fin 64) (classA : Bool) {l : List (Kind × Nat × Nat)} (hl : (l.map (·.1)).Nodup) {x : Kind × Nat × Nat}
    (hx : x ∈ l) : at' ((k.enterAll p classA l).acct x.1).pguar (plyHolder p) = x.2.1 ∧ at' ((k.enterAll p classA l).acct x.1).pcap (plyHolder p) = x.2.2 := by
  induction l generalizing k with
  | nil => exact absurd hx List.not_mem_nil
  | cons y l ih =>
    obtain ⟨hnot, hl'⟩ := List.nodup_cons.mp hl
    rcases List.mem_cons.mp hx with rfl | hx'
    · rw [Skein.enterAll, List.foldl_cons, ← Skein.enterAll, Skein.acct_enterAll_of_notMem _ p classA hnot]
      exact k.pending_enter_self x.1 p x.2.1 x.2.2 classA
    · exact ih _ hl' hx'

theorem mem_allKinds (kd : Kind) : kd ∈ allKinds := by
  cases kd with
  | htag q => revert q; decide
  | _ => decide

/-- A change of every account of a list that names each once. -/
theorem Skein.acct_foldl_setAcct (f : Account → Account) {l : List Kind} (hl : l.Nodup) (k : Skein) (kd : Kind) :
    (l.foldl (fun k kd => k.setAcct kd (f (k.acct kd))) k).acct kd = if kd ∈ l then f (k.acct kd) else k.acct kd := by
  induction l generalizing k with
  | nil => rfl
  | cons x l ih =>
    obtain ⟨hnot, hl'⟩ := List.nodup_cons.mp hl
    rw [List.foldl_cons, ih hl']
    by_cases h : kd = x
    · subst h
      rw [if_neg hnot, if_pos List.mem_cons_self, Skein.acct_setAcct_self]
    · rw [Skein.acct_setAcct_ne k _ h]
      simp only [List.mem_cons, h, false_or]

/-- The CAP of a ply, and of its standing reservation, set to 0 in an account. -/
def Account.closeCap (p : Fin 64) (a : Account) : Account := { a with cap := put (put a.cap (plyHolder p) 0) (standHolder p) 0 }

theorem Account.cap_closeCap (p : Fin 64) (a : Account) : at' (a.closeCap p).cap (plyHolder p) = 0 := by
  rw [Account.closeCap, at'_put_ne _ _ (plyHolder_ne_standHolder p p), at'_put_self]

/-- The CAP of a ply set to 0 in every kind (R55). -/
def Skein.closeCaps (k : Skein) (p : Fin 64) : Skein := allKinds.foldl (fun k kd => k.setAcct kd ((k.acct kd).closeCap p)) k

theorem Skein.acct_closeCaps (k : Skein) (p : Fin 64) (kd : Kind) : (k.closeCaps p).acct kd = (k.acct kd).closeCap p := by
  rw [Skein.closeCaps, Skein.acct_foldl_setAcct _ (by decide), if_pos (mem_allKinds kd)]

/-! The share block of a PLY_CREATE (R298, R482) -/

/-- The six shares of a share block, each with its kind at port `q`. -/
def blockShares (b : List Byte) (q : Fin 4) : List (Kind × Nat × Nat) :=
  [(.mem, shareBlock b 0), (.gfx, shareBlock b 1), (.cmp, shareBlock b 2), (.bin, shareBlock b 3), (.ring, shareBlock b 4), (.htag q, shareBlock b 5)]

theorem blockShares_eq (b : List Byte) (q : Fin 4) :
    (((List.range 8).map (shareBlock b)).take 6).zipIdx.filterMap (fun x => (shareKind x.2 q).map fun kd => (kd, x.1)) = blockShares b q := rfl

theorem blockShares_nodup (b : List Byte) (q : Fin 4) : ((blockShares b q).map (·.1)).Nodup := by
  simp [blockShares]

theorem mem_blockShares (b : List Byte) {q : Fin 4} {k : Nat} {kd : Kind} (h : shareKind k q = some kd) : (kd, shareBlock b k) ∈ blockShares b q := by
  unfold shareKind at h
  split at h
  case h_7 => exact absurd h (by simp)
  all_goals
    obtain rfl := Option.some.inj h
    simp [blockShares]

/-! What the end of a read leaves alone (R44) -/

/-- All of a state but its credits and its host reads, as far as the commands on plies look at it. -/
structure State.SameButReads (s t : State) : Prop where
  dram : t.dram = s.dram
  plies : t.dev.plies = s.dev.plies
  policy : t.dev.policy = s.dev.policy
  ely : t.dev.ely = s.dev.ely
  cfg (q : Fin 4) : (t.port q).cfg = (s.port q).cfg
  down (q : Fin 4) : (t.port q).down = (s.port q).down

/-- A part of every port that an update of one port leaves alone. -/
theorem Dev.port_updPort_part {α : Type} (part : Port → α) (d : Dev) (q o : Fin 4) {f : Port → Port} (hf : ∀ x, part (f x) = part x) :
    part ((d.updPort q f).port o) = part (d.port o) := by
  by_cases h : o = q
  · subst h
    rw [Dev.port_updPort_self, hf]
  · rw [Dev.port_updPort_ne d f h]

theorem State.endRead_sameButReads (s : State) (r : HostRead) : s.SameButReads (s.endRead r) := by
  unfold State.endRead
  split
  · exact ⟨rfl, rfl, rfl, rfl, fun q => s.dev.port_updPort_part Port.cfg r.port q fun _ => rfl,
      fun q => s.dev.port_updPort_part Port.down r.port q fun _ => rfl⟩
  · exact ⟨rfl, rfl, rfl, rfl, fun _ => rfl, fun _ => rfl⟩

theorem State.SameButReads.trans {s t u : State} (h : s.SameButReads t) (h' : t.SameButReads u) : s.SameButReads u :=
  ⟨h'.dram.trans h.dram, h'.plies.trans h.plies, h'.policy.trans h.policy, h'.ely.trans h.ely, fun q => (h'.cfg q).trans (h.cfg q),
    fun q => (h'.down q).trans (h.down q)⟩

theorem State.endReads_sameButReads (s : State) (what : ReadFor) : s.SameButReads (s.endReads what) :=
  foldl_keeps (State.SameButReads s) (fun s r => s.endRead r) (fun t r h => h.trans (t.endRead_sameButReads r)) _ s
    ⟨rfl, rfl, rfl, rfl, fun _ => rfl, fun _ => rfl⟩

namespace State.SameButReads
variable {s u : State} (h : s.SameButReads u)
include h

theorem ply_eq (p : Fin 64) : u.ply p = s.ply p := by
  rw [State.ply, Dev.ply, h.plies]
  rfl

theorem entry_eq (p : Fin 64) : u.dev.entry p = s.dev.entry p := by
  simp only [Dev.entry, h.policy]

theorem pasidEn_eq (q : Fin 4) : (u.port q).pasidEn = (s.port q).pasidEn := by
  simp only [Port.pasidEn, Port.cfgWord, h.cfg]

theorem pairInUse_eq (p : Fin 64) (q : Fin 4) (pasid : Nat) : u.dev.pairInUse p q pasid = s.dev.pairInUse p q pasid := by
  simp only [Dev.pairInUse, Dev.ply, h.plies]

end State.SameButReads

/-! A command's host buffer (R42, R295) -/

section Buffer
variable {α : Type} {s : State} {j : Journal} {addr n : Nat} {act : State → α → State}

theorem State.fetchBuffer_starts (data : Option α) (empty : α) (hnew : j.begun = false) (hn : n ≠ 0) :
    s.fetchBuffer j addr n data empty act = (s.hold j).startRead j.port none (.buffer j.order) [(addr, n)] := by
  simp only [State.fetchBuffer, if_neg hn, hnew, Bool.not_false, if_true]

/-- A buffer that has been read is acted on. -/
theorem State.fetchBuffer_of_read {u : State} {data empty x : α} (h : bufferRead s j n data empty = some (u, x)) :
    s.fetchBuffer j addr n (some data) empty act = act u x := by
  unfold bufferRead at h
  by_cases hn : n = 0
  · obtain ⟨rfl, rfl⟩ := Prod.mk.inj (Option.some.inj ((if_pos hn).symm.trans h))
    exact if_pos hn
  · simp only [if_neg hn, Option.ite_none_right_eq_some, Bool.and_eq_true, Option.some.injEq, Prod.mk.injEq] at h
    obtain ⟨⟨⟨hbegun, hbusy⟩, hout⟩, rfl, rfl⟩ := h
    simp only [State.fetchBuffer, if_neg hn, hbegun, hbusy, hout, Bool.not_true, Bool.false_eq_true, if_false]

theorem sameButReads_of_bufferRead {u : State} {data empty x : α} (h : bufferRead s j n data empty = some (u, x)) : s.SameButReads u := by
  unfold bufferRead at h
  by_cases hn : n = 0
  · obtain ⟨rfl, _⟩ := Prod.mk.inj (Option.some.inj ((if_pos hn).symm.trans h))
    exact ⟨rfl, rfl, rfl, rfl, fun _ => rfl, fun _ => rfl⟩
  · simp only [if_neg hn, Option.ite_none_right_eq_some, Option.some.injEq, Prod.mk.injEq] at h
    obtain ⟨_, rfl, _⟩ := h
    exact s.endReads_sameButReads _

end Buffer

/-! A ply that wakes the DRAM (R274) -/

theorem Dev.deep_leaveDeep (d : Dev) : d.leaveDeep.mc.deep = false := by
  cases h : d.mc.deep with
  | false => rwa [Dev.leaveDeep_of_awake h]
  | true => rw [Dev.leaveDeep, if_pos h]

theorem Dev.leaveDeep_eq (d : Dev) : ∃ m, d.leaveDeep = { d with mc := m } := by
  unfold Dev.leaveDeep
  split
  · exact ⟨_, rfl⟩
  · exact ⟨d.mc, rfl⟩

section Wake
variable (s : State) (p : Fin 64)

/-- Waking the DRAM changes only its controller. -/
theorem State.wakeFor_eq : ∃ m, s.wakeFor p = s.updMc fun _ => m := by
  unfold State.wakeFor
  split
  · obtain ⟨m, hm⟩ := s.dev.leaveDeep_eq
    exact ⟨m, congrArg (fun d => { s with dev := d }) hm⟩
  · exact ⟨s.dev.mc, rfl⟩

theorem State.wakeFor_skein : (s.wakeFor p).skein = s.skein := by
  obtain ⟨m, h⟩ := s.wakeFor_eq p
  exact h ▸ rfl

theorem State.wakeFor_dram : (s.wakeFor p).dram = s.dram := by
  obtain ⟨m, h⟩ := s.wakeFor_eq p
  exact h ▸ rfl

theorem State.wakeFor_ply (o : Fin 64) : (s.wakeFor p).ply o = s.ply o := by
  obtain ⟨m, h⟩ := s.wakeFor_eq p
  exact h ▸ rfl

theorem State.wakeFor_ely : (s.wakeFor p).dev.ely = s.dev.ely := by
  obtain ⟨m, h⟩ := s.wakeFor_eq p
  exact h ▸ rfl

theorem State.deep_wakeFor (hcls : (s.ply p).cls = .a) (hact : (s.ply p).state = .active) : (s.wakeFor p).dev.mc.deep = false := by
  rw [State.wakeFor, hcls, hact, beq_self_eq_true, beq_self_eq_true, Bool.and_self, if_pos rfl]
  exact s.dev.deep_leaveDeep

end Wake

/-! PLY_CREATE (R54-R56, R106, R107, R110, R111, R295, R482) -/

theorem Ely.freshKey_keySlot (e : Ely) (p : Fin 64) : (e.freshKey p.val).keySlot[p.val]? = some e.nextKey ∧ (e.freshKey p.val).nextKey = e.nextKey + 1 := by
  rw [Ely.freshKey, dif_pos (Nat.lt_succ_of_lt p.isLt)]
  simp

/-- The state once a ply is created, its shares `k` entered: no credit may be taken for it yet, it has a fresh key and, in class A, its chime voices. -/
def State.created (u : State) (k : Skein) (p : Fin 64) (y : Ply) (voices : Nat) : State :=
  (((({ u with skein := k }.updPly p fun _ => y).onSkein fun k => k.closeCaps p)).onDev fun d =>
    { d with ely := d.ely.freshKey p.val, audio := if y.cls == PlyClass.a then d.audio.reserve p voices else d.audio }).wakeFor p

section Created
variable (u : State) (k : Skein) (p : Fin 64) (y : Ply) (voices : Nat)

theorem State.created_dram : (u.created k p y voices).dram = u.dram := State.wakeFor_dram _ p

theorem State.created_skein : (u.created k p y voices).skein = k.closeCaps p := State.wakeFor_skein _ p

theorem State.created_ply : (u.created k p y voices).ply p = y := (State.wakeFor_ply _ p p).trans (u.dev.ply_updPly_self p _)

theorem State.created_ply_ne {o : Fin 64} (h : o ≠ p) : (u.created k p y voices).ply o = u.ply o :=
  (State.wakeFor_ply _ p o).trans (u.dev.ply_updPly_ne _ h)

theorem State.created_ely : (u.created k p y voices).dev.ely = u.dev.ely.freshKey p.val := State.wakeFor_ely _ p

theorem State.deep_created (hcls : y.cls = .a) (hact : y.state = .active) : (u.created k p y voices).dev.mc.deep = false :=
  State.deep_wakeFor _ p ((congrArg Ply.cls (u.dev.ply_updPly_self p _)).trans hcls) ((congrArg Ply.state (u.dev.ply_updPly_self p _)).trans hact)

end Created


/-- The credits of a created ply: none has moved, its CAP is 0 in every kind, and its shares are pending (R55). -/
theorem Skein.created_credits (k : Skein) (p : Fin 64) (classA : Bool) (l : List (Kind × Nat × Nat)) (kd : Kind) :
    (((k.enterAll p classA l).closeCaps p).acct kd).free = (k.acct kd).free ∧ (((k.enterAll p classA l).closeCaps p).acct kd).hold = (k.acct kd).hold ∧
      (((k.enterAll p classA l).closeCaps p).acct kd).guar = (k.acct kd).guar ∧
      at' (((k.enterAll p classA l).closeCaps p).acct kd).cap (plyHolder p) = 0 := by
  obtain ⟨hfree, hhold, hguar⟩ := k.acct_enterAll_live p classA l kd
  rw [Skein.acct_closeCaps]
  exact ⟨hfree, hhold, hguar, Account.cap_closeCap p _⟩

theorem plyCreateResult : PlyCreateResult := by
  intro o pasid flags bs s u j p q cls shares kinds k' y u' hj hp hq hflags hflags2 hpasid hlow hhigh
  have hr : Runs s := hj.1
  have harg : ¬(flags / 2 ≠ 0 ∨ pasid = 0 ∨ 0xFFFFF < pasid) := by omega
  refine ⟨fun hnew hn => ?starts, fun hread hargs hcls hport hpol habsent hpen hdown hpair hfits hcaps => ?created⟩
  case starts =>
    simp only [Answers, exec_plyCreate, execPlyCreate, State.clocked_of_runs hr, State.managed_of_managed hj, hp, hq, hflags, hpasid, if_neg harg]
    exact congrArg _ (State.fetchBuffer_starts _ _ hnew hn)
  case created =>
    have hsame : s.SameButReads u := sameButReads_of_bufferRead hread
    refine ⟨u.created k' p y (s.dev.entry p).voices, ?answers, State.created_ply .., fun o ho => ?other, ?slot, ?next, ?dram,
      fun hcls hact => State.deep_created u k' p y _ hcls hact, fun kd => ?credits, fun k kd _ hkd => ?pending⟩
    case answers =>
      have hargs' : (shares.zipIdx.all fun x => shareArgOk x.2 x.1.1 x.1.2) = true := List.all_eq_true.mpr hargs
      have hlimits : ((shares.take 6).zipIdx.all fun x =>
          decide (x.1.1 ≤ atD (s.dev.entry p).guarMax x.2 0) && decide (x.1.2 ≤ atD (s.dev.entry p).capMax x.2 0)) = true := by
        simpa only [List.all_eq_true, Bool.and_eq_true, decide_eq_true_eq] using hpol
      have hfits' : (kinds.all fun x => k'.fits x.1) = true := List.all_eq_true.mpr hfits
      have hcaps' : (cls == .a && !(u'.creditCapsOk && u'.dev.countCapsOk)) = false := by
        cases cls with
        | a => simp only [hcaps rfl, Bool.and_self, Bool.not_true, Bool.and_false]
        | b => rfl
        | c => rfl
      have hpen' : (!(s.port q).pasidEn || (s.port q).down) = false := by rw [hpen, hdown]; rfl
      have hpol' : (!((s.dev.entry p).ports.contains q.val) || !((shares.take 6).zipIdx.all fun x =>
          decide (x.1.1 ≤ atD (s.dev.entry p).guarMax x.2 0) && decide (x.1.2 ≤ atD (s.dev.entry p).capMax x.2 0))) = false := by
        rw [hport, hlimits]; rfl
      simp only [Answers, exec_plyCreate, execPlyCreate, State.clocked_of_runs hr, State.managed_of_managed hj, hp, hq, hflags, hpasid, if_neg harg]
      refine congrArg _ ((State.fetchBuffer_of_read hread).trans ?_)
      rw [hsame.entry_eq, hsame.ply_eq, hsame.pasidEn_eq, hsame.down, hsame.pairInUse_eq]
      refine (if_neg (ne_true_of_eq_false (congrArg not hargs'))).trans ?_
      rw [hcls]
      refine (if_neg (ne_true_of_eq_false hpol')).trans ?_
      refine (if_neg (not_not.mpr habsent)).trans ?_
      refine (if_neg (ne_true_of_eq_false hpen')).trans ?_
      refine (if_neg (ne_true_of_eq_false hpair)).trans ?_
      refine (if_neg (ne_true_of_eq_false (congrArg not hfits'))).trans ?_
      exact (if_neg (ne_true_of_eq_false hcaps')).trans rfl
    case other => rw [State.created_ply_ne _ _ _ _ _ ho, hsame.ply_eq]
    case slot => rw [State.created_ely, (Ely.freshKey_keySlot _ p).1, hsame.ely]
    case next => rw [State.created_ely, (Ely.freshKey_keySlot _ p).2, hsame.ely]
    case dram => rw [State.created_dram, hsame.dram]
    case credits =>
      rw [State.created_skein]
      exact u.skein.created_credits p (cls == .a) kinds kd
    case pending =>
      have hkinds : kinds = blockShares (fitBytes 64 bs) q := blockShares_eq (fitBytes 64 bs) q
      have hk' : k' = u.skein.enterAll p (cls == .a) kinds := rfl
      rw [State.created_skein, Skein.acct_closeCaps, hk', hkinds]
      exact u.skein.pending_enterAll p (cls == .a) (blockShares_nodup _ q) (mem_blockShares _ hkd)

/-! PLY_SHARE, PLY_QUIESCE, PLY_RESUME and PLY_QUERY (R110, R111, R113, R114, R116, R119, R298) -/

theorem lt_six_of_shareKind {k : Nat} {q : Fin 4} {kd : Kind} (h : shareKind k q = some kd) : k < 6 := by
  unfold shareKind at h
  split at h
  case h_7 => exact absurd h (by simp)
  all_goals decide

section Commands
variable {o : Nat} {s : State} {j : Journal} {p : Fin 64}

/-- A share of a ply that is pending in one kind (R113). -/
def State.pendingShare (s : State) (kd : Kind) (p : Fin 64) (g c : Nat) : State :=
  s.onSkein fun q => q.setAcct kd ((s.skein.acct kd).setPending (plyHolder p) g c)

/-- A share within the policy's limits, whose rise admission accepts, is pending from now on. -/
theorem plyShare_answers (hj : ManagedPly s o 0x21 j p) {k g c : Nat} {kd : Kind} (hk : j.arg 1 1 = k) (hg : j.arg 4 4 = g) (hc : j.arg 8 4 = c)
    (hkd : shareKind k (s.ply p).port = some kd) (hok : shareArgOk k g c = true)
    (hguar : ((s.ply p).basePending k (s.skein.acct kd) p).1 < g → g ≤ atD (s.dev.entry p).guarMax k 0)
    (hcap : ((s.ply p).basePending k (s.skein.acct kd) p).2 < c → c ≤ atD (s.dev.entry p).capMax k 0)
    (hadmit : ((s.ply p).basePending k (s.skein.acct kd) p).1 < g →
      (s.pendingShare kd p g c).skein.fits kd = true ∧
      ((s.ply p).cls = .a → (s.pendingShare kd p g c).creditCapsOk = true)) :
    Answers (.plyShare o) s (((s.pendingShare kd p g c).updPly p fun y =>
      { y with shareDue := true,
               shareBase := (k, (s.ply p).basePending k (s.skein.acct kd) p) :: y.shareBase.filter (·.1 != k) }).answer j mbOk []) := by
  obtain ⟨hm, hp, hexists⟩ := hj
  have harg : ¬(8 ≤ k ∨ (!shareArgOk k g c) = true) := by
    have := lt_six_of_shareKind hkd
    rw [hok]
    simp only [Bool.not_true, Bool.false_eq_true, or_false]
    omega
  simp only [Answers, exec_plyShare, execPlyShare, State.clocked_of_runs hm.1, State.managed_of_managed hm, hp, hk, hg, hc, if_neg harg, hkd]
  generalize (s.ply p).basePending k (s.skein.acct kd) p = base at *
  have hlimits : ¬(decide (base.1 < g) && decide (atD (s.dev.entry p).guarMax k 0 < g) ||
      decide (base.2 < c) && decide (atD (s.dev.entry p).capMax k 0 < c)) = true := by
    simp only [Bool.or_eq_true, Bool.and_eq_true, decide_eq_true_eq]
    omega
  have hspace : (decide (base.1 < g) && !(s.pendingShare kd p g c).skein.fits kd) = false := by
    simpa using fun hup => (hadmit hup).1
  have hcaps : (decide (base.1 < g) && (s.ply p).cls == .a && !(s.pendingShare kd p g c).creditCapsOk) = false := by
    simpa using fun hup => (hadmit hup).2
  rw [if_neg hlimits, if_neg hexists]
  exact congrArg _ ((if_neg (ne_true_of_eq_false hspace)).trans (if_neg (ne_true_of_eq_false hcaps)))

theorem plyQuiesce_answers (hj : ManagedPly s o 0x22 j p) : Answers (.plyQuiesce o) s ((s.quiesce p).answer j mbOk []) := by
  obtain ⟨hm, hp, hexists⟩ := hj
  simp only [Answers, exec_plyQuiesce, execPlyQuiesce, State.clocked_of_runs hm.1, State.managed_of_managed hm, hp, if_neg hexists]

theorem plyResume_answers_running (hj : ManagedPly s o 0x23 j p) (h : (s.ply p).state ≠ .quiesced) : Answers (.plyResume o) s (s.answer j mbBadState []) := by
  obtain ⟨hm, hp, hexists⟩ := hj
  simp only [Answers, exec_plyResume, execPlyResume, State.clocked_of_runs hm.1, State.managed_of_managed hm, hp]

/-- A QUIESCED ply resumes unless its binding is lost. -/
theorem plyResume_answers (hj : ManagedPly s o 0x23 j p) (h : (s.ply p).state = .quiesced) :
    Answers (.plyResume o) s (if (s.ply p).cause = .orphan then s.answer j mbUnbound []
      else (((s.updPly p fun y => { y with state := .active, cause := .none, hostDead := false }).wakeFor p).readRings p).answer j mbOk []) := by
  obtain ⟨hm, hp, _⟩ := hj
  simp only [Answers, exec_plyResume, execPlyResume, State.clocked_of_runs hm.1, State.managed_of_managed hm, hp, h]

theorem plyQuery_answers (hj : ManagedPly s o 0x26 j p) :
    let y := s.ply p
    Answers (.plyQuery o) s (s.answer j mbOk (bytesOf 1 y.state.code ++ bytesOf 1 (if y.state = .quiesced then y.cause.code else 0) ++
      bytesOf 1 y.cls.code ++ bytesOf 1 (bit1 (at' s.skein.resvLive p)) ++ bytesOf 1 y.port.val ++ [0, 0, 0] ++ bytesOf 4 y.pasid ++
      bytesOf 1 (s.skein.heldMask p))) := by
  obtain ⟨hm, hp, hexists⟩ := hj
  simp only [Answers, exec_plyQuery, execPlyQuery, State.clocked_of_runs hm.1, State.managed_of_managed hm, hp, if_neg hexists]

end Commands

section Drained
variable {s : State} {p : Fin 64} (hr : Runs s)
include hr

theorem plyQuiesced_answers_holding (hheld : s.skein.plyZero p = false) : Answers (.plyQuiesced p) s s := by
  simp only [Answers, exec_plyQuiesced, execPlyQuiesced, State.clocked_of_runs hr, hheld, Bool.and_false, Bool.false_and, Bool.false_eq_true, if_false]

/-- A completion entry that waits to be written. -/
def CqWait.isEntry (w : CqWait) : Bool := match w with | .entry _ _ => true | _ => false

/-- A ply that has drained is QUIESCED, and the DISCARDED entries still unwritten are lost. -/
theorem plyQuiesced_answers (hst : (s.ply p).state = .draining ∨ (s.ply p).state = .faulted ∨ (s.ply p).state = .orphaned)
    (hely : s.dev.ely.state = .running) (hzero : s.skein.plyZero p = true) :
    Answers (.plyQuiesced p) s ((s.updPly p fun y => { y with
      state := .quiesced, evtLost := min 0xFFFFFFFF (y.evtLost + ((s.ply p).cq.waiters.filter CqWait.isEntry).length),
      cq := { y.cq with waiters := y.cq.waiters.filter fun w => !w.isEntry } }).postBoth p 0x0101 0 []) := by
  simp only [Answers, exec_plyQuiesced, execPlyQuiesced, State.clocked_of_runs hr, hzero, hely]
  rcases hst with h | h | h
  all_goals
    rw [h]
    rfl

end Drained

theorem plyCommandResults : PlyCommandResults := by
  intro o s j p
  refine ⟨fun hj k g c kd hk hg hc hkd => plyShare_answers hj hk hg hc hkd, fun hj => ?quiesce, fun hj => ?resume, plyQuery_answers,
    fun hr hst hely => ⟨plyQuiesced_answers_holding hr, plyQuiesced_answers hr hst hely⟩⟩
  case quiesce =>
    have hout := plyQuiesce_answers hj
    refine ⟨fun h => ?_, fun h => ?_⟩
    · rwa [State.quiesce, if_neg (beq_iff_eq.not.mpr h)] at hout
    · rwa [State.quiesce, if_pos (beq_iff_eq.mpr h)] at hout
  case resume =>
    refine ⟨plyResume_answers_running hj, fun h horphan => ?_, fun h hbound => ?_⟩
    · have hout := plyResume_answers hj h
      rwa [if_pos horphan] at hout
    · have hout := plyResume_answers hj h
      rwa [if_neg hbound] at hout

/-- Settles O29: it holds, each clause by the lemma of its row. The model's choice, and not the manual's words, are that until the next epoch boundary the
CAP of a new ply of any class is 0 in every kind, and what PLY_SHARE judges a rise against (log entry 82). -/
theorem plyLifecycleResults : Obligations.PlyLifecycleResults := ⟨plyCreateResult, plyCommandResults⟩

end Sys2Proof.Machine

namespace Sys2Proof.Machine
open Sys2Proof.Claims

/-! Descriptors that end at the head of their ring (R84, R86, R89) -/
section AtHead
variable {s : State} {p : Fin 64} {r : Fin 4} {f : InFlight}

theorem State.ready_of_atHead {op : Nat} (h : AtHead s p r op f) : s.ready p r op = some f := by
  obtain ⟨hhead, hactive, hphase, rfl, hwait, hbar⟩ := h
  refine State.ready_of_head hhead (beq_iff_eq.mpr hactive) hphase ?_ hbar
  cases hen : f.waitEn with
  | false => simp [Ply.reached, hen]
  | true => simp [Ply.reached, hen, hwait hen]

/-- A FENCE_SIGNAL implies BARRIER, and has no group that it need not wait for (R89). -/
theorem order_le_of_fenceSignal (h : AtHead s p r 0x03 f) : ∀ e ∈ (s.ring p r).queue, f.order ≤ e.order := by
  obtain ⟨_, _, _, hop, _, hbar⟩ := h
  simpa [SubRing.barrierMet, InFlight.needsBarrier, hop] using hbar

/-- A FENCE_WAIT whose fence has not reached its value may time out where it gives a timeout (R86). -/
theorem fenceWaitTimeout_answers (hr : Runs s) (hhead : (s.ring p r).head = some f) (hphase : f.phase = .parsed) (hop : f.opcode = 0x02)
    (hgives : le32 f.bytes 32 ≠ 0) (hen : f.waitEn = true) (hbelow : (s.ply p).fence f.waitFence < f.waitValue) :
    Answers (.fenceWaitTimeout p r) s (s.finishDesc p r f.order 0x06 (bytesOf 8 ((s.ply p).fence f.waitFence).toNat)) := by
  have hunreached : (s.ply p).reached f = false := by simp [Ply.reached, hen, hbelow]
  simp [Answers, execFenceWaitTimeout, State.clocked_of_runs hr, hhead, hphase, hop, hgives, hunreached]

end AtHead

/-- The state that `awaits` writes out is that of `State.finishDesc`, by definition. -/
theorem fenceDescriptorResults : FenceDescriptorResults := by
  intro p r s f hr
  refine ⟨fun h => ?nop, fun h => ?wait, fun h => ⟨?signal, order_le_of_fenceSignal h⟩, fun hhead hphase hop hgives hen hbelow =>
    fenceWaitTimeout_answers hr hhead hphase hop hgives hen hbelow⟩
  case nop =>
    simp only [Answers, exec_nop, execNop, State.clocked_of_runs hr, State.ready_of_atHead h]
    rfl
  case wait =>
    simp only [Answers, exec_fenceWait, execFenceWait, State.clocked_of_runs hr, State.ready_of_atHead h]
    rfl
  case signal =>
    simp only [Answers, exec_fenceSignal, execFenceSignal, State.clocked_of_runs hr, State.ready_of_atHead h]
    rfl

/-! MAP and UNMAP (R90, R306) -/

theorem Map.find_filter_keys {α : Type} (m : Map α) (keep : Nat → Bool) (q : Nat) :
    Map.find (m.filter fun e => keep e.1) q = if keep q then Map.find m q else none := by
  induction m with
  | nil => simp [Map.find]
  | cons e t ih =>
    by_cases hq : q = e.1
    · subst hq
      cases hk : keep e.1 <;> simp [Map.find, ih, hk]
    · cases hk : keep e.1 <;> simp [Map.find, ih, hq, hk]

/-- Keys set one after the other from `base` on. -/
theorem Map.find_insRange {α : Type} (m : Map α) (base : Nat) (v : Nat → α) (n q : Nat) :
    Map.find ((List.range n).foldl (fun t i => Map.ins t (base + i) (v i)) m) q =
      if base ≤ q ∧ q < base + n then some (v (q - base)) else Map.find m q := by
  induction n with
  | zero => simp
  | succ n ih =>
    rw [List.range_succ, List.foldl_append, List.foldl_cons, List.foldl_nil, Map.find_ins, ih]
    by_cases hlast : q = base + n
    · have hin : base ≤ q ∧ q < base + (n + 1) := by omega
      have hoff : q - base = n := by omega
      rw [if_pos hlast, if_pos hin, hoff]
    · have hsame : (base ≤ q ∧ q < base + (n + 1)) ↔ (base ≤ q ∧ q < base + n) := by omega
      simp only [if_neg hlast, hsame]

/-- Bits 0 and 1, a MAP's right to read and its right to write (R89), are the value modulo 4. -/
theorem mod_four_eq_zero_iff (v : Nat) : v % 4 = 0 ↔ bit v 0 = false ∧ bit v 1 = false := by
  simp only [bit, Nat.testBit_eq_decide_div_mod_eq, decide_eq_false_iff_not]
  omega

theorem grants_iff (v : Nat) : (bit v 0 = true ∨ bit v 1 = true) ↔ ¬ v % 4 = 0 := by
  rw [mod_four_eq_zero_iff, not_and_or, Bool.not_eq_false, Bool.not_eq_false]

section Mapping
variable {s : State} {p : Fin 64} {r : Fin 4} {f : InFlight}

/-- Every target granule of a MAP lies in DRAM and is the ply's own, or lent to it with the rights that are asked for (R90, R306). -/
def Dev.mapTargetsOk (d : Dev) (p : Fin 64) (f : InFlight) : Prop :=
  ∀ i < le32 f.bytes 48, (le64 f.bytes 40 / 65536 + i) * 65536 < d.dramTop ∧
    (d.ely.ownerOf (le64 f.bytes 40 / 65536 + i) = some p.val ∨
      d.ely.lentTo (le64 f.bytes 40 / 65536 + i) p.val (bit (byteAt f.bytes 52) 1) = true)

/-- Some page of a MAP's range is mapped already (R90). -/
def Ply.mapTaken (y : Ply) (f : InFlight) : Prop :=
  ∃ i, le64 f.bytes 32 / 65536 ≤ i ∧ i < le64 f.bytes 32 / 65536 + le32 f.bytes 48 ∧ Map.find y.tables i ≠ none

theorem Dev.all_mayAccess_iff (d : Dev) (p : Fin 64) (f : InFlight) :
    ((List.range f.pages.2).all fun i => decide ((le64 f.bytes 40 / 65536 + i) * 65536 < d.dramTop) &&
      d.ely.mayAccess (le64 f.bytes 40 / 65536 + i) p.val (bit (byteAt f.bytes 52) 1)) = true ↔ d.mapTargetsOk p f := by
  simp [Dev.mapTargetsOk, Ely.mayAccess, InFlight.pages]

theorem Ply.any_mapped_iff (y : Ply) (f : InFlight) :
    ((List.range f.pages.2).any fun i => (Map.find y.tables (f.pages.1 + i)).isSome) = true ↔ y.mapTaken f := by
  simp only [List.any_eq_true, List.mem_range, InFlight.pages, Ply.mapTaken, Option.isSome_iff_ne_none]
  constructor
  · rintro ⟨i, hi, hmapped⟩
    exact ⟨_, Nat.le_add_right .., Nat.add_lt_add_left hi _, hmapped⟩
  · rintro ⟨i, hlow, hhigh, hmapped⟩
    refine ⟨i - le64 f.bytes 32 / 65536, by omega, ?_⟩
    rwa [Nat.add_sub_cancel' hlow]

/-! A MAP's status, by the first test that fails (R90) -/

theorem Dev.mapStatus_of_noRight (d : Dev) (p : Fin 64) (hnone : bit (byteAt f.bytes 52) 0 = false ∧ bit (byteAt f.bytes 52) 1 = false) :
    d.mapStatus p f = 0x02 := if_pos ((mod_four_eq_zero_iff _).mpr hnone)

section Grants
variable {d : Dev} (hgrants : bit (byteAt f.bytes 52) 0 = true ∨ bit (byteAt f.bytes 52) 1 = true)
include hgrants

theorem Dev.mapStatus_of_foreign (hbad : ¬ d.mapTargetsOk p f) : d.mapStatus p f = 0x05 := by
  have hall := eq_false_of_ne_true (mt (d.all_mayAccess_iff p f).mp hbad)
  simp only [Dev.mapStatus, if_neg ((grants_iff _).mp hgrants), hall, Bool.not_false, if_true]

theorem Dev.mapStatus_of_taken (hmine : d.mapTargetsOk p f) (htaken : (d.ply p).mapTaken f) : d.mapStatus p f = 0x02 := by
  have hall := (d.all_mayAccess_iff p f).mpr hmine
  have hany := ((d.ply p).any_mapped_iff f).mpr htaken
  simp only [Dev.mapStatus, if_neg ((grants_iff _).mp hgrants), hall, hany, Bool.not_true, Bool.false_eq_true, if_false, if_true]

theorem Dev.mapStatus_of_free (hmine : d.mapTargetsOk p f) (hfree : ¬ (d.ply p).mapTaken f) : d.mapStatus p f = 0 := by
  have hall := (d.all_mayAccess_iff p f).mpr hmine
  have hany := eq_false_of_ne_true (mt ((d.ply p).any_mapped_iff f).mp hfree)
  simp only [Dev.mapStatus, if_neg ((grants_iff _).mp hgrants), hall, hany, Bool.not_true, Bool.false_eq_true, if_false]

end Grants

/-- A MAP that fails maps nothing (R90). -/
theorem mapPages_answers_failed (hr : Runs s) (h : AtHead s p r 0x70 f) {st : Nat} (hst : s.dev.mapStatus p f = st) (hbad : st ≠ 0) :
    Answers (.mapPages p r) s (s.finishDesc p r f.order st []) := by
  simp only [Answers, exec_mapPages, execMap, State.clocked_of_runs hr, State.ready_of_atHead h, hst, if_pos hbad]

/-- The ply's page table after a MAP that succeeds. -/
def Ply.mappedTables (y : Ply) (f : InFlight) : Map Pte :=
  (List.range f.pages.2).foldl (fun t i => Map.ins t (f.pages.1 + i)
    { page := le64 f.bytes 40 / 65536 + i, read := bit (byteAt f.bytes 52) 0, write := bit (byteAt f.bytes 52) 1 }) y.tables

theorem mapPages_answers_mapped (hr : Runs s) (h : AtHead s p r 0x70 f) (hok : s.dev.mapStatus p f = 0) :
    Answers (.mapPages p r) s ((s.updPly p fun y => { y with tables := (s.ply p).mappedTables f }).finishDesc p r f.order 0 []) := by
  have hsame : (s.updPly p fun y => { y with tables := y.mappedTables f }) = s.updPly p fun y => { y with tables := (s.ply p).mappedTables f } :=
    State.updPly_congr rfl
  rw [← hsame]
  simp only [Answers, exec_mapPages, execMap, State.clocked_of_runs hr, State.ready_of_atHead h, hok, ne_eq, not_true_eq_false, if_false]
  rfl

theorem Ply.find_mappedTables (y : Ply) (f : InFlight) (i : Nat) :
    Map.find (y.mappedTables f) i = if f.pages.1 ≤ i ∧ i < f.pages.1 + f.pages.2 then
      some (Pte.mk (le64 f.bytes 40 / 65536 + (i - f.pages.1)) (bit (byteAt f.bytes 52) 0) (bit (byteAt f.bytes 52) 1)) else Map.find y.tables i :=
  Map.find_insRange ..

/-- The ply's page table after an UNMAP. -/
def Ply.unmappedTables (y : Ply) (f : InFlight) : Map Pte :=
  y.tables.filter fun e => decide (e.1 < f.pages.1) || decide (f.pages.1 + f.pages.2 ≤ e.1)

theorem Ply.find_unmappedTables (y : Ply) (f : InFlight) (i : Nat) :
    Map.find (y.unmappedTables f) i = if f.pages.1 ≤ i ∧ i < f.pages.1 + f.pages.2 then none else Map.find y.tables i := by
  rw [Ply.unmappedTables, Map.find_filter_keys y.tables fun k => decide (k < f.pages.1) || decide (f.pages.1 + f.pages.2 ≤ k)]
  by_cases hin : f.pages.1 ≤ i ∧ i < f.pages.1 + f.pages.2
  · simp [hin]
  · have hout : i < f.pages.1 ∨ f.pages.1 + f.pages.2 ≤ i := by omega
    simp [hin, hout]

theorem unmapPages_answers_waiting (hr : Runs s) (h : AtHead s p r 0x71 f)
    (hwaits : (s.ply p).earlierRetired f.order = false ∨ s.dev.layersUse p f.pages.1 f.pages.2 = true) : Answers (.unmapPages p r) s s := by
  have hcond : (!(s.ply p).earlierRetired f.order || s.dev.layersUse p f.pages.1 f.pages.2) = true := by simpa using hwaits
  simp only [Answers, exec_unmapPages, execUnmap, State.clocked_of_runs hr, State.ready_of_atHead h, if_pos hcond]

theorem unmapPages_answers_unmapped (hr : Runs s) (h : AtHead s p r 0x71 f) (hretired : (s.ply p).earlierRetired f.order = true)
    (hfree : s.dev.layersUse p f.pages.1 f.pages.2 = false) :
    Answers (.unmapPages p r) s ((s.updPly p fun y => { y with tables := (s.ply p).unmappedTables f }).finishDesc p r f.order 0 []) := by
  have hsame : (s.updPly p fun y => { y with tables := y.unmappedTables f }) = s.updPly p fun y => { y with tables := (s.ply p).unmappedTables f } :=
    State.updPly_congr rfl
  rw [← hsame]
  simp only [Answers, exec_unmapPages, execUnmap, State.clocked_of_runs hr, State.ready_of_atHead h, hretired, hfree, Bool.not_true, Bool.or_self,
    Bool.false_eq_true, if_false]
  rfl

end Mapping

theorem mappingResults : MappingResults := by
  intro p r s f hr
  refine ⟨fun h => ⟨fun hnone => ?noRight, fun hgrants hforeign => ?notPermitted, fun hgrants hmine htaken => ?taken,
    fun hgrants hmine hfree => ⟨(s.ply p).mappedTables f, ?mapped, (s.ply p).find_mappedTables f⟩⟩,
    fun h => ⟨unmapPages_answers_waiting hr h, fun hretired hfree =>
      ⟨(s.ply p).unmappedTables f, unmapPages_answers_unmapped hr h hretired hfree, (s.ply p).find_unmappedTables f⟩⟩⟩
  case noRight => exact mapPages_answers_failed hr h (s.dev.mapStatus_of_noRight p hnone) (by decide)
  case notPermitted =>
    obtain ⟨i, hi, hforeign⟩ := hforeign
    exact mapPages_answers_failed hr h (Dev.mapStatus_of_foreign hgrants fun hok => hforeign (hok i hi)) (by decide)
  case taken => exact mapPages_answers_failed hr h (Dev.mapStatus_of_taken hgrants hmine htaken) (by decide)
  case mapped => exact mapPages_answers_mapped hr h (Dev.mapStatus_of_free hgrants hmine hfree)

/-- Settles O25: it holds, each clause by the lemma of its row; a MAP's status is that of the first test that fails. -/
theorem fenceAndMappingResults : Obligations.FenceAndMappingResults := ⟨fenceDescriptorResults, mappingResults⟩

/-! The packet that a job reads next (R209-R211) -/

/-- A job's next packet is run on its payload, on the state after the fetch; what is done lets the job go past its bytes. -/
theorem State.packet_of_nextPacket {u s t : State} {o op : Nat} {j : Job} {d : List Nat} (h : nextPacket u o = some (s, j, op, d))
    {run : Job → List Nat → State → PktRes} (hrun : run j d s = .done t) : u.packet o op run = .next (t.passBytes o (4 + 4 * d.length)) := by
  unfold nextPacket at h
  split at h
  · cases h
  next job hjob =>
  split at h
  · cases h
  next b rest hbufs =>
  obtain ⟨⟨halive, hended, hrunning, hleft⟩, h⟩ := Option.ite_none_right_eq_some.mp h
  obtain ⟨header, hheader, h⟩ := Option.bind_eq_some_iff.mp h
  obtain ⟨range, hrange, h⟩ := Option.bind_eq_some_iff.mp h
  obtain ⟨⟨hreserved, hleast, hmost, hinside, hplace⟩, h⟩ := Option.ite_none_right_eq_some.mp h
  obtain ⟨payload, hpayload, h⟩ := Option.bind_eq_some_iff.mp h
  obtain ⟨fetched, hfetch, h⟩ := Option.map_eq_some_iff.mp h
  cases h
  have hheld : (j.ended.isSome || u.dev.runningOn o == 0) = false := by
    rw [Option.isNone_iff_eq_none.mp hended, beq_false_of_ne hrunning]
    rfl
  have hmore : ¬ b.len ≤ b.pos := by omega
  have hok : ¬ (fld (le32 header 0) 23 16 ≠ 0 ∨ fld (le32 header 0) 15 0 < range.1 ∨ range.2 < fld (le32 header 0) 15 0 ∨
      b.len < b.pos + 4 + 4 * fld (le32 header 0) 15 0) := by omega
  simp only [State.packet, State.clocked_of_runs halive, hjob, hbufs, hheld, Bool.false_eq_true, if_false, if_neg hmore, hheader, hrange, if_neg hok,
    ne_eq, not_true_eq_false, hplace, Bool.not_true, hpayload, hfetch, hrun, List.length_map, List.length_range]


/-! DISPATCH and DISPATCH_INDIRECT (R210, R238, R239) -/

/-- An address below 2^40 and aligned, in the first two dwords of a payload (R209). -/
theorem dwAddr_of_addrOf {align lo hi : Nat} (hsize : addrOf lo hi < 2 ^ 40) (halign : addrOf lo hi % align = 0) :
    dwAddr [lo, hi] 0 align = some (addrOf lo hi) := if_pos ⟨hsize, halign⟩

section Dispatch
variable {o x y z : Nat} {j : Job}

/-- What a dispatch of known counts makes of the state: the job has one more, unless there is no workgroup in it (R239). -/
def State.dispatched (s : State) (o : Nat) (g : Stage) (x y z : Nat) : State :=
  if x * y * z = 0 ∨ g.lanes = 0 then s else
    (s.updJob o fun j => { j with dispatches := j.dispatches ++ [{ stage := g, nx := x, ny := y, nz := z, next := 0 }] }).pump o

theorem State.startDispatch_of_fits (hx : x ≤ 65535) (hy : y ≤ 65535) (hz : z ≤ 65535) (hsave : j.save.isSome = true)
    (hwaves : ceilDiv (at' j.pipe.stages 2).waves 4 ≤ (at' j.pipe.stages 2).waveLimit) (hlds : (at' j.pipe.stages 2).lds ≤ 131072) (s : State) :
    s.startDispatch o j x y z = .done (s.dispatched o (at' j.pipe.stages 2) x y z) := by
  have hsaves : ¬ j.save.isNone = true := ne_true_of_eq_false (Option.isNone_eq_false_iff.mpr hsave)
  have hok : ¬ (j.save.isNone = true ∨ 65535 < x ∨ 65535 < y ∨ 65535 < z ∨ (at' j.pipe.stages 2).waveLimit < ceilDiv (at' j.pipe.stages 2).waves 4 ∨
      131072 < (at' j.pipe.stages 2).lds) := by
    rw [or_iff_right hsaves]
    omega
  rw [State.startDispatch]
  simp only [if_neg hok, State.dispatched, apply_ite PktRes.done]

end Dispatch

theorem dispatchPacketResults : DispatchPacketResults := by
  intro o x y z w s j hx hy hz hsave g go hwaves hlds
  have hstart : ∀ u : State, u.startDispatch o j x y z = .done (go u) := State.startDispatch_of_fits hx hy hz hsave hwaves hlds
  refine ⟨fun hnext => ?direct, fun lo hi u hnext hsize halign hargs => ?indirect⟩
  case direct =>
    rw [Answers, exec_dispatch, execDispatch]
    exact State.packet_of_nextPacket hnext (hstart s)
  case indirect =>
    rw [Answers, exec_dispatchIndirect, execDispatchIndirect]
    refine State.packet_of_nextPacket hnext ?_
    simp only [dwAddr_of_addrOf hsize halign, hargs]
    exact hstart u

/-! BARRIER, SIGNAL and TIMESTAMP (R91, R93, R210, R225) -/

/-- Nothing stands in the bits of a number from its size on. -/
theorem fld_eq_zero_of_lt {v hi lo : Nat} (h : v < 2 ^ lo) : fld v hi lo = 0 := by rw [fld, Nat.div_eq_of_lt h, Nat.zero_mod]

theorem waitPacketResults : WaitPacketResults := by
  refine ⟨fun d o w s j hnext hbits hquiet => ?barrier, fun f lo hi o w s j hnext hfence hquiet => ?signal,
    fun lo hi o w s u v j hnext hsize halign hquiet htake hwrite => ?timestamp⟩
  case barrier =>
    have hwait : (bit d 0 && !s.jobQuiet j) = false := by
      cases hb : bit d 0 with
      | false => rfl
      | true => rw [hquiet hb]; rfl
    rw [Answers, exec_pktBarrier, execPktBarrier]
    refine State.packet_of_nextPacket hnext ?_
    simp only [dw, List.getD_cons_zero, fld_eq_zero_of_lt (lo := 3) hbits, hwait, ne_eq, not_true_eq_false, if_false, Bool.false_eq_true]
  case signal =>
    rw [Answers, exec_pktSignal, execPktSignal]
    refine State.packet_of_nextPacket hnext ?_
    simp only [dw, List.getD_cons_zero, fld_eq_zero_of_lt (lo := 12) hfence, hquiet, ne_eq, not_true_eq_false, if_false, Bool.not_true, Bool.false_eq_true]
    rfl
  case timestamp =>
    rw [Answers, exec_timestamp, execTimestamp]
    refine State.packet_of_nextPacket hnext ?_
    simp only [dwAddr_of_addrOf hsize halign, hquiet, Bool.not_true, Bool.false_eq_true, if_false, htake, hwrite]

/-- Settles O19: it holds, each clause by the lemma of its packet. The model's choice, and not the manual's words, is that a line of a texture cache shows
memory as it stood at the job's start or at its last BARRIER with INVAL (log entry 95). -/
theorem dispatchAndWaitPacketResults : Obligations.DispatchAndWaitPacketResults := ⟨dispatchPacketResults, waitPacketResults⟩

/-! Reads of a ring that is not polled (R70, R76, R83, R85) -/
section RingReads
variable {p : Fin 64} {r : Fin 4} {s : State}

theorem State.intake_and_runs_of_takesWork (h : TakesWork s p r) : (s.intake p && (s.ring p r).runs) = true := by
  obtain ⟨_, hin, hen, herr⟩ := h
  rw [SubRing.runs, hin, hen, herr]
  rfl

/-- PROD as read in a pass, or once more before sleep, decides how the service procedure goes on (R76). -/
theorem recordRead_answers (hr : Runs s) (hout : s.dev.readOut (.record p r) = true) (v : Word)
    (hwork : TakesWork (s.endReads (.record p r)) p r)
    (hread : ((s.endReads (.record p r)).ring p r).read = .record ∨ ((s.endReads (.record p r)).ring p r).read = .confirm) :
    let u := s.endReads (.record p r)
    let x := u.updRing p r fun g => { g with prod := v }
    Answers (.doorbellRecordReadDone p r v) s
      (if (u.ring p r).depth < (v - (u.ring p r).cons).toNat then x.stopRing p r
      else if (u.ring p r).read = .record then (if v = (u.ring p r).cons then x.goToSleep p r else x.readSlots p r)
      else if v = (u.ring p r).cons then (if (u.ring p r).again then x.startPass p r else x.updRing p r fun g => { g with read := .idle })
      else (x.writeAsleep p r false).readRecord p r .record) := by
  simp only [Answers, exec_doorbellRecordReadDone, execDoorbellRecordReadDone, State.clocked_of_runs hr, hout, State.intake_and_runs_of_takesWork hwork,
    Bool.not_true, Bool.false_eq_true, if_false, if_pos hread, apply_ite Host.Outcome.next]

/-- Slots read are offered in index order, and CONS is written for those accepted. -/
theorem slotRead_answers (hr : Runs s) (hout : s.dev.readOut (.slots p r) = true) {slots : List (List Byte)}
    (hwork : TakesWork (s.endReads (.slots p r)) p r) (hread : ((s.endReads (.slots p r)).ring p r).read = .slots slots.length) :
    let u := s.endReads (.slots p r)
    let x := (u.acceptBatch p r slots).1.writeCons p r
    Answers (.slotReadDone p r slots) s (match (u.acceptBatch p r slots).2 with
      | .wrongSeq => x.stopRing p r
      | .refused => x.updRing p r fun g => { g with read := .stalled }
      | .all => if (x.ring p r).cons = (x.ring p r).prod then x.goToSleep p r else x.readSlots p r) := by
  simp only [Answers, exec_slotReadDone, execSlotReadDone, State.clocked_of_runs hr, hout, State.intake_and_runs_of_takesWork hwork, hread, List.take_left,
    Bool.not_true, Bool.false_eq_true, if_false]
  cases ((s.endReads (.slots p r)).acceptBatch p r slots).2 <;> rfl

theorem ringServiceResume_answers (hwork : TakesWork s p r) (hread : (s.ring p r).read = .stalled) :
    Answers (.ringServiceResume p r) s (s.startPass p r) := by
  simp only [Answers, exec_ringServiceResume, execRingServiceResume, State.clocked_of_runs hwork.1, State.intake_and_runs_of_takesWork hwork, hread,
    beq_self_eq_true, Bool.and_self, if_true]

end RingReads

theorem ringReadResults : RingReadResults := by
  intro p r s hr
  refine ⟨fun v hout hwork hread => ?record, fun slots n hout hwork hread hlen => ?slots, ringServiceResume_answers⟩
  case record => simpa only [ne_eq, ite_not] using recordRead_answers hr hout v hwork hread
  case slots =>
    subst hlen
    exact slotRead_answers hr hout hwork hread

/-! Class A polling (R79, R81, R82) -/
section Polls
variable {p : Fin 64} {s : State}

theorem pollTimer_answers (hr : Runs s) : Answers (.pollTimer p) s (s.wantPoll p) := by
  simp only [Answers, exec_pollTimer, execPollTimer, State.clocked_of_runs hr]

/-- A ply whose poll is out: its tags are held, and the PROD of each polled ring is known as the poll was issued (R79, R82). -/
def Ply.withPollOut (y : Ply) : Ply :=
  { y with pollOut := some (Vector.ofFn fun r => if y.polled.contains r then some (at' y.rings r).prod else none),
           pollTags := 1 + y.polled.length, pollDefer := false }

/-- A poll with the tags that the ledger `k` has granted goes out: the reads of the doorbell block and of each polled ring's slots (R81). -/
def State.issuePoll (s : State) (p : Fin 64) (k : Skein) : State :=
  let y := s.ply p
  (({ s with skein := k } : State).updPly p Ply.withPollOut).onDev fun d =>
    d.emitReads y.port y.pasid ((y.dbrBase.toNat, 512) :: y.polled.map fun r => ((at' y.rings r).base.toNat, 512))

theorem State.wantPoll_of_granted (hin : s.intake p = true) (hcls : (s.ply p).cls = .a) (hpolled : (s.ply p).polled ≠ [])
    (htraffic : (s.port (s.ply p).port).trafficOk = true) (hout : (s.ply p).pollOut = none) (htags : (s.ply p).pollTags = 0) {k : Skein}
    (htake : s.skein.take (.htag (s.ply p).port) (standHolder p) (1 + (s.ply p).polled.length) = some k) : s.wantPoll p = s.issuePoll p k := by
  have hpolls : (!s.intake p || (s.ply p).cls != .a || (s.ply p).polled.isEmpty || !(s.port (s.ply p).port).trafficOk) = false := by
    simp [hin, hcls, hpolled, htraffic]
  have hidle : ((s.ply p).pollOut.isSome || decide (0 < (s.ply p).pollTags)) = false := by simp [hout, htags]
  simp only [State.wantPoll, hpolls, hidle, Bool.false_eq_true, if_false, htake]
  rfl

theorem State.ply_issuePoll (s : State) (p : Fin 64) (k : Skein) : (s.issuePoll p k).ply p = (s.ply p).withPollOut :=
  (congrArg (at' · p) (Dev.emitReads_plies ..)).trans (State.ply_updPly_self ..)

/-- What the reads of a poll make of one ring: one that the poll read and that still runs accepts what its PROD covers (R82, R83). -/
def State.pollRing (p : Fin 64) (block : List Byte) (slots : Vector (List (List Byte)) 4) (known : Vector (Option Word) 4) (u : State) (r : Fin 4) : State :=
  let v := word (le32 block (64 * r.val))
  let c := (u.ring p r).cons
  match at' known r with
  | none => u
  | some k =>
    if !(u.ring p r).runs then u
    else if 8 < (v - c).toNat then u.stopRing p r
    else
      let x := (u.acceptPolled p r k v (at' slots r) 8).updRing p r fun g => { g with prod := v }
      if (x.ring p r).cons = c then x else x.writeCons p r

theorem pollReadsDone_answers (hr : Runs s) (block : List Byte) (slots : Vector (List (List Byte)) 4) {known : Vector (Option Word) 4}
    (htags : 0 < (s.ply p).pollTags) (hout : (s.ply p).pollOut = some known) :
    Answers (.pollReadsDone p block slots) s (((allFin 4).foldl (State.pollRing p block slots known) s).endPoll p) := by
  simp only [Answers, exec_pollReadsDone, execPollReadsDone, State.clocked_of_runs hr, if_neg (Nat.ne_of_gt htags), hout, State.each]
  refine congrArg (fun f => Host.Outcome.next ((List.foldl f s (allFin 4)).endPoll p)) ?_
  funext u r
  unfold State.pollRing
  cases at' known r with
  | none => cases (u.ring p r).runs <;> rfl
  | some k => cases (u.ring p r).runs <;> rfl

end Polls

theorem pollResults : PollResults := by
  intro p s hr
  refine ⟨pollTimer_answers hr, fun hin hcls hpolled htraffic hout htags k htake => ⟨s.issuePoll p k, ?issued, rfl, ?tags, ?known, rfl⟩,
    fun block slots known htags hout => pollReadsDone_answers hr block slots htags hout⟩
  case issued =>
    rw [← State.wantPoll_of_granted hin hcls hpolled htraffic hout htags htake]
    exact pollTimer_answers hr
  case tags => rw [State.ply_issuePoll, Ply.withPollOut]
  case known =>
    rw [State.ply_issuePoll]
    rfl

/-! The read of the completion ring's CONS (R78, R98) -/

theorem completionRingReadResults : CompletionRingReadResults := by
  intro p v s hr hout
  dsimp only
  intro hen hreread
  have hwanted : (!((s.endReads (.cons p)).ply p).cq.enable || ((s.endReads (.cons p)).ply p).cq.reread == .none) = false := by
    rw [hen, beq_false_of_ne hreread]
    rfl
  simp only [Answers, exec_cqConsReadDone, execCqConsReadDone, State.clocked_of_runs hr, hout, hwanted, Bool.not_true, Bool.false_eq_true, if_false,
    apply_ite Host.Outcome.next]

/-- Settles O22: it holds, each clause by the lemma of its row. The model's choice, and not the manual's words, are that a poll that falls due while the
port's traffic is held, or whose tags are refused, is dropped (log entry 27), that EVENTS_LOST is written before the events held behind it, and that held
events beyond the first re-read of CONS are dropped (log entry 83). -/
theorem ringServiceReadResults : Obligations.RingServiceReadResults := ⟨ringReadResults, pollResults, completionRingReadResults⟩

end Sys2Proof.Machine

namespace Sys2Proof.Machine
open Sys2Proof.Claims

/-! HD_TCOMMIT.ARM (R136, R139, R141, R143, R150, R152, R433) -/

/-- An accepted ARM trains the links of its head's group that wait for one: those that are short and have no configuration, and those without a sink whose
hot-plug pin is high or ignored (R150, R152). -/
def State.trainOnArm (u : State) (h : Fin 8) : State :=
  (u.dev.group h).foldl (fun v k => let x := v.head k
    if (x.link = .short ∧ x.cfg.isNone) ∨ (x.link = .noSink ∧ (x.hpd ∨ v.dev.hpdIgnore k)) then v.beginTraining k else v) u

/-- An accepted set waits for VDDC to rise (R433), takes effect at once on a head that is OFF (R141), or waits for the boundary with its bobbins beside the
old ones (R136, R143). -/
def State.placeTiming (v : State) (h : Fin 8) (t : Timing) : State :=
  if t.enable ∧ v.dev.power.vc = 0 then v.updHead h fun x => { x with armed := some t, armLate := false }
  else if (v.head h).gen = .off then v.enableHead h t
  else (if t.enable then v.onDev fun d => d.refit h t (t.pair && h.val % 2 == 0) else v).updHead h fun x => { x with armed := some t, armLate := x.cutoff }

section Arm
variable {q : Fin 4} {h : Fin 8} {s : State} (hw : HeadWrite s q h)
include hw

theorem timingArm_answers_refused (herr : s.dev.armError h (s.dev.pendingTiming h) ≠ 0) :
    Answers (.timingArm q h) s (s.updHead h fun x => { x with err := s.dev.armError h (s.dev.pendingTiming h) }) := by
  obtain ⟨hr, hm, hexposed⟩ := hw
  simp only [Answers, exec_timingArm, execTimingArm, State.clocked_of_runs hr, hm, hexposed, Bool.not_true, Bool.or_self, Bool.false_eq_true, if_false,
    if_pos herr]

theorem timingArm_answers_accepted (herr : s.dev.armError h (s.dev.pendingTiming h) = 0) :
    Answers (.timingArm q h) s
      (((s.updHead h fun x => { x with err := s.dev.armError h (s.dev.pendingTiming h) }).trainOnArm h).placeTiming h (s.dev.pendingTiming h)) := by
  obtain ⟨hr, hm, hexposed⟩ := hw
  simp only [Answers, exec_timingArm, execTimingArm, State.clocked_of_runs hr, hm, hexposed, Bool.not_true, Bool.or_self, Bool.false_eq_true, if_false,
    if_neg (not_not.mpr herr), State.placeTiming, apply_ite Host.Outcome.next]
  rfl

end Arm

theorem timingArmResults : TimingArmResults :=
  fun _ _ _ hw => ⟨timingArm_answers_refused hw, timingArm_answers_accepted hw⟩

/-! The order in which an ARM is refused (R139) -/
section ArmRefusal
variable {d : Dev} {h : Fin 8} {t : Timing}

theorem Dev.armError_of_locked (hlock : bit (d.reg (hdBase h)) 1 = true) : d.armError h t = 6 := if_pos hlock

variable (hopen : bit (d.reg (hdBase h)) 1 = false)
include hopen

theorem Dev.armError_of_armed (harmed : (d.head h).armed.isSome = true) : d.armError h t = 8 := by
  simp only [Dev.armError, hopen, harmed, Bool.false_eq_true, if_false, if_true]

variable (hnone : (d.head h).armed = none)
include hnone

theorem Dev.armError_of_slave (hslave : d.slave h = true) : d.armError h t = 5 := by
  simp only [Dev.armError, hopen, hnone, hslave, Option.isSome_none, Bool.true_or, Bool.false_eq_true, if_false, if_true]

variable (hmaster : d.slave h = false) (hsingle : t.pair = false)
include hmaster hsingle

theorem Dev.armError_of_turnsOff (hoff : t.enable = false) : d.armError h t = 0 := by
  simp only [Dev.armError, hopen, hnone, hmaster, hsingle, hoff, Option.isSome_none, Bool.and_false, Bool.false_and, Bool.or_self, Bool.not_false,
    Bool.false_eq_true, if_false, if_true]

theorem Dev.armError_of_fieldOutOfRange (hon : t.enable = true) (hfields : t.fieldsOk = false) : d.armError h t = 1 := by
  simp only [Dev.armError, hopen, hnone, hmaster, hsingle, hon, hfields, Option.isSome_none, Bool.and_false, Bool.false_and, Bool.or_self, Bool.not_false,
    Bool.not_true, Bool.false_eq_true, if_false, if_true]

end ArmRefusal

theorem armRefusalOrder : ArmRefusalOrder := fun _ _ _ =>
  ⟨Dev.armError_of_locked, Dev.armError_of_armed, Dev.armError_of_slave, Dev.armError_of_turnsOff, Dev.armError_of_fieldOutOfRange⟩

/-! Link training (R150, R151) and the PLL of a mode change (R140) -/

/-- After a failed attempt the next configuration is tried; after the last none has trained (R150). -/
theorem State.attemptFailed_of_tries {s : State} {h : Fin 8} {c : LinkCfg} {rest : List LinkCfg} (htries : (s.head h).tries = c :: rest) :
    s.attemptFailed h = if rest = [] then (s.linkNone h).linkDone h else s.updHead h fun x => { x with tries := rest } := by
  cases rest with
  | nil => simp only [State.attemptFailed, htries, if_true]
  | cons c' rest' => simp only [State.attemptFailed, htries, reduceCtorEq, if_false]

section Training
variable {h : Fin 8} {s : State} (hr : Runs s)
include hr

theorem pllLock_answers (hchange : (s.head h).gen = .changing) :
    Answers (.pllLock h) s (s.each (s.dev.group h) fun u k => u.updHead k fun x => { x with relocked := true }) := by
  rw [Answers, exec_pllLock, execPllLock, State.clocked_of_runs hr, if_pos hchange]

variable (htrain : (s.head h).link = .training)
include htrain

theorem linkTrainStart_answers (hnew : (s.head h).tries = []) (caps : SinkCaps) :
    let l := trainOrder (s.head (s.dev.master h)).timing caps
    let u := s.updHead h fun x => { x with sink := some caps, tries := l }
    Answers (.linkTrainStart h caps) s (if l = [] then (u.linkNone h).linkDone h else u) := by
  have hstart : ¬((s.head h).link ≠ .training ∨ (s.head h).tries ≠ []) := not_or.mpr ⟨not_not.mpr htrain, not_not.mpr hnew⟩
  simp only [Answers, exec_linkTrainStart, execLinkTrainStart, State.clocked_of_runs hr, if_neg hstart]

variable {c : LinkCfg} {rest : List LinkCfg} (htries : (s.head h).tries = c :: rest)
include htries

theorem trainAttemptDone_answers_trained :
    Answers (.trainAttemptDone h true) s ((s.updHead h fun x => { x with link := .trained, cfg := some c, tries := [] }).linkDone h) := by
  simp only [Answers, exec_trainAttemptDone, execTrainAttemptDone, State.clocked_of_runs hr, htrain, htries, if_true]

theorem trainAttemptDone_answers_failed : Answers (.trainAttemptDone h false) s (s.attemptFailed h) := by
  simp only [Answers, exec_trainAttemptDone, execTrainAttemptDone, State.clocked_of_runs hr, htrain, htries, Bool.false_eq_true, if_false]

theorem trainAttemptTimeout_answers : Answers (.trainAttemptTimeout h) s (s.attemptFailed h) := by
  simp only [Answers, exec_trainAttemptTimeout, execTrainAttemptTimeout, State.clocked_of_runs hr, htrain, htries]

end Training

/-! Plug, unplug and interrupt of a sink (R141, R152) -/

/-- DP_HOTPLUG is reported with what happened: 1 a plug, 2 an unplug, 3 an interrupt (R152). -/
def State.sayHotplug (u : State) (h : Fin 8) (n : Nat) : State := u.postHead h 0x40 0x0302 h.val (dataBytes [(16, 1, n)])

/-- The link of a head after a plug: an idle one stays so, one that waits for its first sink trains, another trains if AUTO_TRAIN is 1 (R141, R152). -/
def State.linkOnPlug (u : State) (h : Fin 8) : State :=
  match (u.head h).link with
  | .idle => u
  | .waiting => u.beginTraining h
  | _ => if u.dev.autoTrain h then u.beginTraining h else u.updHead h fun x => { x with link := .noSink }

theorem State.next_linkOnPlug (u : State) (h : Fin 8) :
    (match (u.head h).link with
      | .idle => .next u
      | .waiting => .next (u.beginTraining h)
      | _ => .next (if u.dev.autoTrain h then u.beginTraining h else u.updHead h fun x => { x with link := .noSink }) : Res) = .next (u.linkOnPlug h) := by
  rw [State.linkOnPlug]
  cases (u.head h).link <;> rfl

/-- A head whose sink is gone: what was read of it is forgotten, and its link is without a sink unless it is idle or waits for its first one (R152). -/
def Head.unplugged (x : Head) : Head :=
  { x with hpd := false, sink := none, tries := [], trained := false, steady := false, cfg := none,
           link := match x.link with | .idle => .idle | .waiting => .waiting | _ => .noSink }

section Hotplug
variable {h : Fin 8} {s : State}

section Seen
variable (hp : Plugs s h)
include hp

theorem dpHotplugPlug_answers : Answers (.dpHotplugPlug h) s (((s.updHead h fun x => { x with hpd := true }).sayHotplug h 1).linkOnPlug h) := by
  obtain ⟨hr, hexposed, hheard⟩ := hp
  simp only [Answers, exec_dpHotplugPlug, execDpHotplugPlug, State.clocked_of_runs hr, hexposed, hheard, Bool.not_true, Bool.or_self, Bool.false_eq_true,
    if_false]
  exact State.next_linkOnPlug _ h

theorem dpHotplugUnplug_answers :
    let down := (s.updHead h Head.unplugged).sayHotplug h 2
    Answers (.dpHotplugUnplug h) s (if (down.head h).link = .noSink then down.linkDone h else down) := by
  obtain ⟨hr, hexposed, hheard⟩ := hp
  simp only [Answers, exec_dpHotplugUnplug, execDpHotplugUnplug, State.clocked_of_runs hr, hexposed, hheard, Bool.not_true, Bool.or_self,
    Bool.false_eq_true, if_false]
  rfl

theorem dpHotplugIrq_answers (lost : Bool) :
    let u := s.sayHotplug h 3
    let x := u.head h
    Answers (.dpHotplugIrq h lost) s
      (if (x.link = .trained ∧ lost = true) ∨ (x.link = .short ∧ (x.cfg.isNone = true ∨ lost = true)) then u.beginTraining h else u) := by
  obtain ⟨hr, hexposed, hheard⟩ := hp
  simp only [Answers, exec_dpHotplugIrq, execDpHotplugIrq, State.clocked_of_runs hr, hexposed, hheard, Bool.not_true, Bool.or_self, Bool.false_eq_true,
    if_false]
  rfl

end Seen

/-- The hot-plug pin of a head that the variant does not have, or with HPD_IGNORE, changes nothing (R134, R152). -/
theorem hotplug_answers_ignored (hr : Runs s) (hdeaf : s.dev.headExposed h = false ∨ s.dev.hpdIgnore h = true) :
    Answers (.dpHotplugPlug h) s s ∧ Answers (.dpHotplugUnplug h) s s ∧ ∀ b, Answers (.dpHotplugIrq h b) s s := by
  have hgate : (!s.dev.headExposed h || s.dev.hpdIgnore h) = true := by simpa using hdeaf
  refine ⟨?plug, ?unplug, fun b => ?irq⟩
  case plug => rw [Answers, exec_dpHotplugPlug, execDpHotplugPlug, State.clocked_of_runs hr, if_pos hgate]
  case unplug => rw [Answers, exec_dpHotplugUnplug, execDpHotplugUnplug, State.clocked_of_runs hr, if_pos hgate]
  case irq => rw [Answers, exec_dpHotplugIrq, execDpHotplugIrq, State.clocked_of_runs hr, if_pos hgate]

end Hotplug

theorem linkTrainingResults : LinkTrainingResults := by
  intro h s hr
  refine ⟨fun caps htrain hnew => linkTrainStart_answers hr htrain hnew caps, fun c rest htrain htries => ?attempt, pllLock_answers hr,
    fun hp => ⟨dpHotplugPlug_answers hp, dpHotplugUnplug_answers hp, dpHotplugIrq_answers hp⟩, hotplug_answers_ignored hr⟩
  case attempt =>
    intro fails
    have hfails : s.attemptFailed h = fails := State.attemptFailed_of_tries htries
    exact ⟨trainAttemptDone_answers_trained hr htrain htries, hfails ▸ trainAttemptDone_answers_failed hr htrain htries,
      hfails ▸ trainAttemptTimeout_answers hr htrain htries⟩

/-- Settles O40: it holds, each clause by the lemma of its row. LOCKED (code 6) is tested before the reasons that the statement's text lists (R139). The model's
choice, and not the manual's words, are that a plug on a head whose link is idle is only reported (log entry 115), and the readings of heads and links, a
set that waits for VDDC among them (log entry 85). -/
theorem timingAndLinkResults : Obligations.TimingAndLinkResults := ⟨timingArmResults, armRefusalOrder, linkTrainingResults⟩

end Sys2Proof.Machine

namespace Sys2Proof.Machine
open Sys2Proof.Claims

/-! Reads that latch a high word, HOLD, and the colour tables (R134, R168, R182, R203, R204) -/

/-- A read of the high word answers the latched word where there is one, and ends the latch. -/
theorem State.readPair_hi (s : State) (q : Fin 4) (lo v : Nat) :
    s.readPair q lo v true = (s.updPort q fun pt => { pt with latch := Map.del pt.latch (lo + 4) }).emit
      (.regValue q (lo + 4) (match Map.find (s.port q).latch (lo + 4) with | some x => x | none => word (v / 2 ^ 32))) := by
  rw [State.readPair, if_pos rfl, State.readLatched]
  cases Map.find (s.port q).latch (lo + 4) with
  | none => rfl
  | some x => simp only [word, BitVec.ofNat_toNat, BitVec.setWidth_eq]

section HeadRegisters
variable {s : State} (hr : Runs s) (q : Fin 4)
include hr

theorem hdFrameLoRead_answers (hi : Bool) (h : Fin 8) : Answers (.hdFrameLoRead ⟨q, hi⟩ h) s
    (s.readPair q (hdBase h + 0x30) (if s.dev.headExposed h then (s.head (s.dev.master h)).frame.toNat else 0) hi) := by
  rw [Answers, exec_hdFrameLoRead, execHdFrameLoRead, State.clocked_of_runs hr]

theorem sigResultLoRead_answers (hi : Bool) (h : Fin 8) (r : Fin 4) : Answers (.sigResultLoRead ⟨q, hi⟩ h r) s
    (s.readPair q (sigBase h r + 0x28) (if s.dev.headExposed h then (at' (s.head h).sigs r).result.toNat else 0) hi) := by
  rw [Answers, exec_sigResultLoRead, execSigResultLoRead, State.clocked_of_runs hr]

theorem sigHoldClear_answers (h : Fin 8) (r : Fin 4) : Answers (.sigHoldClear q h r) s
    (if s.dev.isManager q then s.updHead h fun x => { x with sigs := upd x.sigs r fun g => { g with hold := false } } else s) := by
  rw [Answers, exec_sigHoldClear, execSigHoldClear, State.clocked_of_runs hr, apply_ite Host.Outcome.next]

theorem cmpLutDataWrite_answers_unmanaged (hm : s.dev.isManager q = false) (v : Word) : Answers (.cmpLutDataWrite q v) s s := by
  rw [Answers, exec_cmpLutDataWrite, execCmpLutDataWrite, State.clocked_of_runs hr, hm]
  rfl

/-- The manager's write moves the selector on, and reaches the selected entry where the table exists and may be written. -/
theorem cmpLutDataWrite_answers {t b i : Nat} (hsel : s.dev.lutSel = (t, b, i)) (hm : s.dev.isManager q = true) (v : Word) :
    Answers (.cmpLutDataWrite q v) s ((if s.dev.lutExists t && s.dev.lutWritable t b then
      s.updCarder fun c => { c with luts := Map.ins c.luts ((t * 2 + b) * 1024 + i) (v.toNat % 4096) } else s).onDev Dev.lutAdvance) := by
  simp only [Answers, exec_cmpLutDataWrite, execCmpLutDataWrite, State.clocked_of_runs hr, hm, hsel, Bool.not_true, Bool.false_eq_true, if_false]

theorem cmpLutDataRead_answers {t b i : Nat} (hsel : s.dev.lutSel = (t, b, i)) : Answers (.cmpLutDataRead q) s
    ((s.onDev Dev.lutAdvance).emit (.regValue q 0x13004 (word (if s.dev.lutExists t then s.dev.carder.lut t b i else 0)))) := by
  simp only [Answers, exec_cmpLutDataRead, execCmpLutDataRead, State.clocked_of_runs hr, hsel]

end HeadRegisters

/-! TEN_APPLY (R181, R182) -/

/-- A TEN_APPLY that waits for the boundary of a head is answered SUPERSEDED (R182). -/
def State.supersedeTenancy (s : State) (h : Fin 8) : State :=
  match (s.head h).tenWait with
  | some (_, old, _) => s.answerOrder old mbSuperseded (bytesOf 8 0)
  | none => s

section TenApply
variable {o : Nat} {s : State} {j : Journal} {h : Fin 8} {pol : Policy} (hj : Managed s o 0x30 j) (hnew : j.begun = false)
  (hh : fin? 8 (j.arg 0 1) = some h) (hexposed : s.dev.headExposed h = true) (hmaster : s.dev.slave h = false) (hset : j.arg 1 1 ≤ 3)
  (hpol : s.dev.policy = some pol) (hthere : j.arg 1 1 = 0 ∨ (atD (at' pol.heads h).sets (j.arg 1 1) none).isSome = true)
include hj hnew hh hexposed hmaster hset hpol hthere

/-- The set takes effect at once on a head that is OFF; on another it waits for the boundary, in the place of one that waits. -/
theorem tenApply_answers : Answers (.tenApply o) s
    (if (s.head h).gen = .off then
      (s.updHead h fun x => { x with tens := s.dev.tenancySet h (j.arg 1 1), tenSet := j.arg 1 1, tenWait := none }).answer j mbOk
        (bytesOf 8 (s.head h).frame.toNat)
    else
      ((s.supersedeTenancy h).updHead h fun x => { x with tenWait := some (j.arg 1 1, j.order, x.cutoff) }).hold j) := by
  obtain ⟨hr, hcmd, hwf, hman⟩ := hj
  have harg : (j.arg 1 1 != 0 && (atD (at' pol.heads h).sets (j.arg 1 1) none).isNone) = false := by
    rcases hthere with hzero | hsome
    · simp [hzero]
    · rw [← Option.not_isSome, hsome, Bool.not_true, Bool.and_false]
  simp only [Answers, exec_tenApply, execTenApply, State.clocked_of_runs hr, hcmd, hnew, hwf, hman, hh, hexposed, hmaster,
    decide_eq_false (Nat.not_lt.mpr hset), hpol, harg, State.head_updHead_self, Bool.not_true, Bool.or_self, Bool.false_eq_true, if_false,
    apply_ite Host.Outcome.next]
  rfl

end TenApply

/-- Settles O42: it holds, each clause by the lemma of its row. -/
theorem headRegisterResults : Obligations.HeadRegisterResults := by
  intro q h r s hr lo hi
  refine ⟨⟨hdFrameLoRead_answers hr q false h, ?frameHi⟩, ⟨sigResultLoRead_answers hr q false h r, ?resultHi⟩, fun hm => ?clears,
    fun hm => ⟨?keepsHold, cmpLutDataWrite_answers_unmanaged hr q hm⟩, ?tables,
    fun o j pol hj hnew hh hexposed hmaster hset hpol hthere => ?tenancy⟩
  case frameHi =>
    have hout := hdFrameLoRead_answers hr q true h
    rwa [State.readPair_hi] at hout
  case resultHi =>
    have hout := sigResultLoRead_answers hr q true h r
    rwa [State.readPair_hi] at hout
  case clears => simpa only [hm, if_true] using sigHoldClear_answers hr q h r
  case keepsHold => simpa only [hm, Bool.false_eq_true, if_false] using sigHoldClear_answers hr q h r
  case tables =>
    obtain ⟨⟨t, b, i⟩, hsel⟩ : ∃ sel, s.dev.lutSel = sel := ⟨_, rfl⟩
    rw [hsel]
    refine ⟨fun v hm => ⟨fun hexists hfree => ?stored, fun hno => ?lost⟩, cmpLutDataRead_answers hr q hsel⟩
    case stored => simpa only [hexists, hfree, Bool.and_self, if_true] using cmpLutDataWrite_answers hr q hsel hm v
    case lost =>
      have hgate : (s.dev.lutExists t && s.dev.lutWritable t b) = false := (Bool.and_eq_false_iff).mpr hno
      simpa only [hgate, Bool.false_eq_true, if_false] using cmpLutDataWrite_answers hr q hsel hm v
  case tenancy =>
    have hout := tenApply_answers hj hnew hh hexposed hmaster hset hpol hthere
    refine ⟨fun hoff => ?now, fun hon hwait => ?waits, fun i old late hon hwait => ?replaces⟩
    case now => simpa only [if_pos hoff] using hout
    case waits => simpa only [if_neg hon, State.supersedeTenancy, hwait] using hout
    case replaces => simpa only [if_neg hon, State.supersedeTenancy, hwait] using hout

end Sys2Proof.Machine

namespace Sys2Proof.Machine
open Sys2Proof.Claims

/-! OZC header entries (R170-R172) -/

/-- The stream names a base and a width for each component, and ends after the base, the width and the residuals of each (R171). -/
theorem ozcDelta_length_used (bits n : Nat) (comps : List (Nat × Nat)) (off : Nat) :
    (ozcDelta bits n comps off).1.length = comps.length ∧
      (ozcDelta bits n comps off).2 = off + (((ozcDelta bits n comps off).1.zip comps).map fun x => x.2.2 + 4 + n * x.1.2.1).sum := by
  induction comps generalizing off with
  | nil => exact ⟨rfl, rfl⟩
  | cons c comps ih =>
    obtain ⟨hlen, hused⟩ := ih (off + c.2 + 4 + n * (bits / 2 ^ (off + c.2) % 16))
    refine ⟨by simp only [ozcDelta, List.length_cons, hlen], ?_⟩
    simp only [ozcDelta, List.zip_cons_cons, List.map_cons, List.sum_cons, hused]
    omega

/-- SECTORS matches MODE (R172). -/
def ozcMatched (entry : Nat) : Prop :=
  (ozcMode entry = 0 ∧ ozcSectors entry = 0) ∨ (ozcMode entry = 1 ∧ ozcSectors entry = 1) ∨
    (ozcMode entry = 2 ∧ 1 ≤ ozcSectors entry ∧ ozcSectors entry ≤ 7) ∨ (ozcMode entry = 3 ∧ ozcSectors entry = 8)

section Decode
variable {o : OzcShape} {entry : Nat} {slot : List Byte}

/-- An entry that is not a well-formed one of SOLID, DELTA or RAW decodes as CLEAR. -/
theorem OzcShape.decode_of_other (hsolid : ¬ (ozcMode entry = 1 ∧ ozcSectors entry = 1)) (hraw : ¬ (ozcMode entry = 3 ∧ ozcSectors entry = 8))
    (hdelta : ¬ (ozcMode entry = 2 ∧ 1 ≤ ozcSectors entry ∧ ozcSectors entry ≤ 7)) (i : Nat) :
    o.decode entry slot i = o.comps.map fun _ => 0 := by
  simp only [OzcShape.decode, if_neg hsolid, if_neg hraw, if_neg hdelta]

theorem OzcShape.decode_of_unmatched (hbad : ¬ ozcMatched entry) (i : Nat) : o.decode entry slot i = o.comps.map fun _ => 0 :=
  decode_of_other (fun h => hbad (.inr (.inl h))) (fun h => hbad (.inr (.inr (.inr h)))) (fun h => hbad (.inr (.inr (.inl h)))) i

theorem OzcShape.decode_of_clear (hmode : ozcMode entry = 0) (i : Nat) : o.decode entry slot i = o.comps.map fun _ => 0 :=
  decode_of_other (by omega) (by omega) (by omega) i

/-- A DELTA entry with a fault of its stream decodes as CLEAR, whatever its SECTORS. -/
theorem OzcShape.decode_of_badDelta (hmode : ozcMode entry = 2)
    (hbad : ozcSectors entry < ceilDiv (ozcDelta (leAt slot 0 256) o.samples o.comps 0).2 256 ∨
      ∃ x ∈ (ozcDelta (leAt slot 0 256) o.samples o.comps 0).1.zip o.comps, x.2.2 < x.1.2.1) (i : Nat) :
    o.decode entry slot i = o.comps.map fun _ => 0 := by
  by_cases hsec : 1 ≤ ozcSectors entry ∧ ozcSectors entry ≤ 7
  · have hfault : ozcSectors entry < ceilDiv (ozcDelta (leAt slot 0 256) o.samples o.comps 0).2 256 ∨
        ((ozcDelta (leAt slot 0 256) o.samples o.comps 0).1.zip o.comps).any (fun x => decide (x.2.2 < x.1.2.1)) = true := by
      simpa only [List.any_eq_true, decide_eq_true_eq] using hbad
    have hsolid : ¬ (ozcMode entry = 1 ∧ ozcSectors entry = 1) := by omega
    have hraw : ¬ (ozcMode entry = 3 ∧ ozcSectors entry = 8) := by omega
    simp only [OzcShape.decode, if_neg hsolid, if_neg hraw, if_pos (And.intro hmode hsec), if_pos hfault]
  · exact decode_of_other (by omega) (by omega) (fun h => hsec h.2) i

end Decode

/-- Settles O60: it holds, by the first of R172's conditions that the entry meets. -/
theorem illFormedHeaderDecodesAsClear : Obligations.IllFormedHeaderDecodesAsClear := by
  intro o entry i slot
  obtain ⟨hlen, hused⟩ := ozcDelta_length_used (leAt slot 0 256) o.samples o.comps 0
  exact ⟨hlen, hused.trans (Nat.zero_add _), fun hbad => OzcShape.decode_of_unmatched hbad i,
    fun hmode hshort => OzcShape.decode_of_badDelta hmode (.inl hshort) i, fun hmode hwide => OzcShape.decode_of_badDelta hmode (.inr hwide) i,
    fun hmode => OzcShape.decode_of_clear hmode i⟩

end Sys2Proof.Machine

namespace Sys2Proof.Machine
open Sys2Proof.Claims

/-! Scaling ratios (R161, R176) -/

/-- In each direction, 8 x DST is at least SRC and DST at most 16 x SRC (R176). -/
def blkRatiosOk (b : Blk) : Prop :=
  blkSrcW b ≤ 8 * blkDstW b ∧ blkDstW b ≤ 16 * blkSrcW b ∧ blkSrcH b ≤ 8 * blkDstH b ∧ blkDstH b ≤ 16 * blkSrcH b

theorem blkScaleOk_iff_of_scales {b : Blk} (hscales : blkScales b = true) (handle : Nat) :
    blkScaleOk handle b = true ↔ handle < 0x18 ∧ blkRatiosOk b := by
  simp only [blkScaleOk, hscales, blkRatiosOk, Bool.not_true, Bool.false_or, Bool.and_eq_true, decide_eq_true_eq, and_assoc]

/-- A layer that does not scale has the ratio 1. -/
theorem blkRatiosOk_of_unscaled {b : Blk} (hsame : blkScales b = false) : blkRatiosOk b := by
  simp only [blkScales, Bool.or_eq_false_iff, bne_eq_false_iff_eq] at hsame
  obtain ⟨hw, hh⟩ := hsame
  unfold blkRatiosOk
  omega

theorem blkRatiosOk_of_blkScaleOk {handle : Nat} {b : Blk} (hok : blkScaleOk handle b = true) : blkRatiosOk b := by
  cases hscales : blkScales b with
  | false => exact blkRatiosOk_of_unscaled hscales
  | true => exact ((blkScaleOk_iff_of_scales hscales handle).mp hok).2

/-- A row of R161 that is passed leaves the status to the rows after it. -/
theorem rowPassed_of_status_ok {c : Prop} [Decidable c] {st rest : Nat} (hst : st ≠ stOk) (hok : (if c then st else rest) = stOk) : ¬ c ∧ rest = stOk := by
  by_cases hc : c
  · exact absurd ((if_pos hc).symm.trans hok) hst
  · exact ⟨hc, (if_neg hc).symm.trans hok⟩

/-- A LAYER that passes has passed every row, the sixth among them (R161). -/
theorem Dev.blkScaleOk_of_layerCheck {d : Dev} {p : Fin 64} {f : InFlight} {b : Blk} (hok : d.layerCheck p f b = stOk) (huses : f.layerDisable = false) :
    blkScaleOk f.layerHandle b = true := by
  simp only [Dev.layerCheck, huses, Bool.false_eq_true, if_false] at hok
  obtain ⟨-, hunit⟩ := rowPassed_of_status_ok (by decide) hok
  obtain ⟨-, hgrant⟩ := rowPassed_of_status_ok (by decide) hunit
  obtain ⟨-, hmapped⟩ := rowPassed_of_status_ok (by decide) hgrant
  obtain ⟨-, hfields⟩ := rowPassed_of_status_ok (by decide) hmapped
  obtain ⟨-, haligned⟩ := rowPassed_of_status_ok (by decide) hfields
  obtain ⟨-, heven⟩ := rowPassed_of_status_ok (by decide) haligned
  obtain ⟨hscale, -⟩ := rowPassed_of_status_ok (by decide) heven
  simpa only [Bool.not_eq_true', Bool.not_eq_false] using hscale

/-- Settles O55: it holds, by the sixth row of R161. -/
theorem acceptedLayersScaleWithinBounds : Obligations.AcceptedLayersScaleWithinBounds :=
  ⟨fun _ _ _ _ hok huses => blkRatiosOk_of_blkScaleOk (Dev.blkScaleOk_of_layerCheck hok huses),
    fun handle _ hscales => blkScaleOk_iff_of_scales hscales handle⟩

end Sys2Proof.Machine

namespace Sys2Proof.Machine
open Sys2Proof.Claims

/-! Groups and their COMMITs (R191-R194) -/

/-- A descriptor on its ring whose engine has finished with it is in its last phase (R87). -/
theorem State.phase_of_mem_finishDesc {s : State} {p : Fin 64} {r : Fin 4} {order status : Nat} {result : List Byte} {e : InFlight}
    (he : e ∈ ((s.finishDesc p r order status result).ring p r).queue) (horder : e.order = order) : e.phase = .finished := by
  rw [State.finishDesc, State.updDesc, State.ring_updRing_self] at he
  obtain ⟨e₀, -, rfl⟩ := List.mem_map.mp he
  by_cases hsame : e₀.order = order
  · simp only [if_pos hsame, InFlight.finish]
  · rw [if_neg hsame] at horder
    exact absurd horder hsame

/-- LAYERs that have all been checked are not checked again. -/
theorem State.checkLayers_of_seen (s : State) (p : Fin 64) (r : Fin 4) (head : Fin 8) {ls : List InFlight} (hseen : ∀ l ∈ ls, l.seen = true) :
    s.checkLayers p r head ls = s := by
  induction ls with
  | nil => rfl
  | cons l ls ih =>
    obtain ⟨hl, hls⟩ := List.forall_mem_cons.mp hseen
    simp only [State.checkLayers, if_pos hl, ih hls, ite_self]

section Groups
variable {s : State} {p : Fin 64} {r : Fin 4} {f : InFlight}

theorem State.settleGroup_of_status {st : Nat} (hst : s.groupStatus p r f = some st) :
    s.settleGroup p r f = s.finishGroup p r (((s.ring p r).groupOf f).map (·.order)) f.order st 0 := by
  simp only [State.settleGroup, hst, reduceCtorEq, if_false]

theorem State.settleGroup_of_seen (hnone : s.groupStatus p r f = none) (hseen : ∀ l ∈ (s.ring p r).groupOf f, l.seen = true) :
    s.settleGroup p r f = s := by
  simp only [State.settleGroup, hnone, if_true, State.checkLayers_of_seen s p r f.commitHead hseen]

/-- A descriptor in its place at the head after its group has completed is finished. -/
theorem State.phase_of_head_finishGroup {orders : List Nat} {commit status : Nat} {frame : DWord}
    (hhead : ((s.finishGroup p r orders commit status frame).ring p r).head = some f) (horder : f.order = commit) : f.phase = .finished :=
  State.phase_of_mem_finishDesc (List.mem_of_find?_eq_some hhead) horder

section Commit
variable (hr : Runs s) (hhead : (s.ring p r).head = some f) (hop : f.opcode = 0x20) (hphase : f.phase = .parsed)
include hr hhead hop hphase

/-- A status decided against the group completes it; its COMMIT is then finished, so that its age no longer matters. -/
theorem commit_answers_decided {st : Nat} (hst : s.groupStatus p r f = some st) :
    Answers (.commit p r) s (s.finishGroup p r (((s.ring p r).groupOf f).map (·.order)) f.order st 0) := by
  have hparsed : ¬ (f.opcode ≠ 0x20 ∨ f.phase ≠ .parsed) := by simp [hop, hphase]
  simp only [Answers, exec_commit, execCommit, State.clocked_of_runs hr, hhead, if_neg hparsed, State.settleGroup_of_status hst]
  split
  next f' hhead' =>
    have hnot : ¬ (f'.order = f.order ∧ f'.phase = .parsed ∧ overAge f.mark f.commitAge (s.head f.commitHead).frame.toNat = true) := by
      rintro ⟨horder, hparsed', -⟩
      have hfinished := State.phase_of_head_finishGroup hhead' horder
      rw [hparsed'] at hfinished
      cases hfinished
    rw [if_neg hnot]
  next => rfl

/-- With its LAYERs checked and nothing decided against it, a COMMIT waits unless it is over its age. -/
theorem commit_answers_undecided (hnone : s.groupStatus p r f = none) (hseen : ∀ l ∈ (s.ring p r).groupOf f, l.seen = true) :
    Answers (.commit p r) s (if overAge f.mark f.commitAge (s.head f.commitHead).frame.toNat then
      s.finishGroup p r (((s.ring p r).groupOf f).map (·.order)) f.order stStale (s.head f.commitHead).frame else s) := by
  simp only [Answers, exec_commit, execCommit, State.clocked_of_runs hr, hhead, hop, hphase, State.settleGroup_of_seen hnone hseen, ne_eq,
    not_true_eq_false, or_self, if_false, true_and, apply_ite Host.Outcome.next]

end Commit

/-! A group at the head of its ring whose wait is reached (R192) -/
section Arm
variable (hready : s.ready p r 0x20 = some f)
include hready

theorem State.commitArm_of_status {st : Nat} (hst : s.groupStatus p r f = some st) :
    s.commitArm p r = s.finishGroup p r (((s.ring p r).groupOf f).map (·.order)) f.order st 0 := by
  simp only [State.commitArm, hready, hst]

theorem State.commitArm_of_undecided (hnone : s.groupStatus p r f = none) :
    s.commitArm p r = if overAge f.mark f.commitAge (s.head f.commitHead).frame.toNat then
      s.finishGroup p r (((s.ring p r).groupOf f).map (·.order)) f.order stStale (s.head f.commitHead).frame else s.armGroup p r f := by
  simp only [State.commitArm, hready, hnone]

end Arm

theorem commitArm_answers (hr : Runs s) : Answers (.commitArm p r) s (s.commitArm p r) := by
  rw [Answers, exec_commitArm, execCommitArm, State.clocked_of_runs hr]

theorem layer_answers (hr : Runs s) (h : AtHead s p r 0x21 f) : Answers (.layer p r) s (s.dispatch p r f.order f.mark) := by
  simp only [Answers, exec_layer, execLayer, State.clocked_of_runs hr, State.ready_of_atHead h]

end Groups

theorem commitResults : CommitResults := by
  intro p r s f hr
  refine ⟨layer_answers hr, fun hhead hop hphase => ⟨fun st hst _ => commit_answers_decided hr hhead hop hphase hst, fun hnone hseen => ?undecided⟩,
    fun h => ?arm⟩
  case undecided =>
    have hout := commit_answers_undecided hr hhead hop hphase hnone hseen
    refine ⟨fun hyoung => ?waits, fun hold => ?stale⟩
    case waits => rwa [hyoung, if_neg Bool.false_ne_true] at hout
    case stale => rwa [if_pos hold] at hout
  case arm =>
    have hready := State.ready_of_atHead h
    have hout := commitArm_answers (p := p) (r := r) hr
    refine ⟨fun st hst => ?decided, fun hnone hold => ?stale, fun hnone hyoung => ?armed⟩
    case decided => rwa [State.commitArm_of_status hready hst] at hout
    case stale => rwa [State.commitArm_of_undecided hready hnone, if_pos hold] at hout
    case armed => rwa [State.commitArm_of_undecided hready hnone, hyoung, if_neg Bool.false_ne_true] at hout

/-! Expected signatures (R198, R202) -/

/-- The value that a SIG_EXPECT brings is stored for its frame. -/
def State.storeExpected (s : State) (f : InFlight) : State :=
  s.updHead f.sigHead fun x => { x with sigs := upd x.sigs f.sigRegion fun g => { g with expect := Map.ins g.expect (le64 f.bytes 40) (le64 f.bytes 32) } }

/-- The first test that fails decides the completion: the region's owner, then the frame, then the latch. -/
theorem sigExpect_answers {s : State} {p : Fin 64} {r : Fin 4} {f : InFlight} (hr : Runs s) (h : AtHead s p r 0x22 f) (missed : Bool) :
    Answers (.sigExpect p r missed) s
      (if s.dev.sigOwner f.sigHead f.sigRegion ≠ some p.val then s.finishDesc p r f.order stNotPermitted []
      else if (s.head f.sigHead).frame.toNat + 3 < le64 f.bytes 40 then s.finishDesc p r f.order stBadField []
      else if le64 f.bytes 40 < (s.head f.sigHead).frame.toNat then s.finishDesc p r f.order stStale [1]
      else if (missed && le64 f.bytes 40 == (s.head f.sigHead).frame.toNat) = true then s.finishDesc p r f.order stStale [2]
      else (s.storeExpected f).finishDesc p r f.order stOk [0]) := by
  simp only [Answers, exec_sigExpect, execSigExpect, State.clocked_of_runs hr, State.ready_of_atHead h, apply_ite Host.Outcome.next]
  rfl

theorem signatureExpectResults : SignatureExpectResults := by
  intro p r missed s f hr h
  have hout := sigExpect_answers hr h missed
  refine ⟨fun hforeign => ?notPermitted, fun howner => ⟨fun hlater => ?badField, fun hpast => ?past, fun hlow hhigh => ?current⟩⟩
  case notPermitted => rwa [if_pos hforeign] at hout
  all_goals rw [if_neg (not_not.mpr howner)] at hout
  case badField => rwa [if_pos hlater] at hout
  case past => rwa [if_neg (by omega), if_pos hpast] at hout
  case current =>
    rw [if_neg (Nat.not_lt.mpr hhigh), if_neg (Nat.not_lt.mpr hlow)] at hout
    refine ⟨fun hmissed hnow => ?missedLatch, fun hmeets => ?stored⟩
    case missedLatch => rwa [if_pos (by simp [hmissed, hnow])] at hout
    case stored =>
      have hnot := ne_true_of_eq_false (Bool.and_eq_false_iff.mpr (hmeets.imp_right beq_eq_false_iff_ne.mpr))
      rwa [if_neg hnot] at hout

/-- Settles O27: it holds, each clause by the lemma of its row. The model's choice, and not the manual's words, are that SIG_EXPECT tests the region's owner
before the frame, and that a value can miss its latch for the current frame alone (log entry 86). -/
theorem commitAndSignatureResults : Obligations.CommitAndSignatureResults := ⟨commitResults, signatureExpectResults⟩

end Sys2Proof.Machine

namespace Sys2Proof.Machine

/-! Division by 4,095 in the blend tree (R187) -/

/-- Rounding leaves a remainder of at most 2,047 on either side, so that 4,095, being odd, never meets a tie. -/
theorem natAbs_sub_div4095_le (x : Nat) : ((x : Int) - 4095 * div4095 x).natAbs ≤ 2047 := by
  have hlow : 8190 * div4095 x ≤ 2 * x + 4095 := Nat.mul_div_le (2 * x + 4095) 8190
  have hhigh : 2 * x + 4095 < 8190 * (div4095 x + 1) := Nat.lt_mul_div_succ (2 * x + 4095) (by decide)
  omega

/-- Where one integer is within 2,047 of `x` when taken 4,095 times, every other one is farther: two multiples of 4,095 lie at least 4,095 apart. -/
theorem natAbs_sub_lt_of_ne {x d n : Nat} (hd : ((x : Int) - 4095 * d).natAbs ≤ 2047) (hne : n ≠ d) :
    ((x : Int) - 4095 * d).natAbs < ((x : Int) - 4095 * n).natAbs := by
  obtain hbelow | habove := Nat.lt_or_gt_of_ne hne
  · have hgap : 4095 * n + 4095 ≤ 4095 * d := by omega
    omega
  · have hgap : 4095 * d + 4095 ≤ 4095 * n := by omega
    omega

/-- Settles O54: it holds, the value being the rule's formula by definition, and the nearest integer because its remainder is below half of 4,095. -/
theorem div4095RoundsToNearest : Obligations.Div4095RoundsToNearest :=
  fun x => ⟨rfl, fun _ hne => natAbs_sub_lt_of_ne (natAbs_sub_div4095_le x) hne⟩

end Sys2Proof.Machine

namespace Sys2Proof.Machine
open Sys2Proof.Claims

/-! MEM instructions that a wave issues (R244, R249) -/

/-- What a MEM row asks of BASE: 0 where it is reserved, an even number where it names the low word of a global address. Row kind 3 is global where DEV is 1
and reserved where DEV is 0. -/
def Issue.baseOk (i : Issue) (base : Nat) : Prop :=
  let kind := if base = 3 then (if bit i.ins 19 then 1 else 0) else base
  (kind = 0 → i.f 31 24 = 0) ∧ (kind = 1 → i.f 31 24 % 2 = 0)

section MemIssued
variable {u s t b : State} {c : Fin 16} {w op base n : Nat} {i : Issue} {vs : List (List Byte)} {e : Option (Nat × Nat)}

theorem Issue.baseOk_reserved (h : i.f 31 24 = 0) : i.baseOk 0 := ⟨fun _ => h, fun h => (nomatch h)⟩
theorem Issue.baseOk_global (h : i.f 31 24 % 2 = 0) : i.baseOk 1 := ⟨fun h => (nomatch h), fun _ => h⟩
theorem Issue.baseOk_index : i.baseOk 2 := ⟨fun h => (nomatch h), fun h => (nomatch h)⟩
theorem Issue.baseOk_atomicGlobal (hdev : bit i.ins 19 = true) (h : i.f 31 24 % 2 = 0) : i.baseOk 3 := by simp [Issue.baseOk, hdev, h]
theorem Issue.baseOk_atomicLocal (hdev : bit i.ins 19 = false) (h : i.f 31 24 = 0) : i.baseOk 3 := by simp [Issue.baseOk, hdev, h]

/-- A MEM instruction whose BASE may stand runs on the bytes of its WIDTH, where it uses WIDTH, and on a word otherwise. -/
theorem State.mem_of_issued (h : issued u c w 2 op = some (i, s)) (hbase : i.baseOk base) (sized : Bool) (run : Issue → Nat → State → State) :
    u.mem c w op base sized run =
      .next (if sized then (accessBytes (i.f 23 21)).elim (s.badIns i) (run i · s) else run i 4 s) := by
  obtain ⟨hzero, heven⟩ := hbase
  rw [State.mem, State.issue_of_issued h]
  generalize (if base = 3 then (if bit i.ins 19 then 1 else 0) else base) = kind at hzero heven ⊢
  match kind with
  | 0 => cases accessBytes (i.f 23 21) <;> cases sized <;> simp [hzero rfl]
  | 1 => cases accessBytes (i.f 23 21) <;> cases sized <;> simp [heven rfl]
  | _ + 2 => cases accessBytes (i.f 23 21) <;> cases sized <;> simp

theorem State.mem_of_width (h : issued u c w 2 op = some (i, s)) (hbase : i.baseOk base) (hn : accessBytes (i.f 23 21) = some n)
    (run : Issue → Nat → State → State) : u.mem c w op base true run = .next (run i n s) := by
  rw [State.mem_of_issued h hbase, if_pos rfl, hn, Option.elim_some]

theorem State.mem_of_word (h : issued u c w 2 op = some (i, s)) (hbase : i.baseOk base) (run : Issue → Nat → State → State) :
    u.mem c w op base false run = .next (run i 4 s) := by
  rw [State.mem_of_issued h hbase, if_neg Bool.false_ne_true]

/-- A buffer instruction whose entry can be read, with MEM for it, runs on the buffer that the entry describes (R252). -/
theorem State.withBuffer_of_bufferOf (h : bufferOf s i = some (b, e)) (run : Option (Nat × Nat) → State → State) : s.withBuffer i run = run e b := by
  unfold bufferOf at h
  split at h
  case h_2 => cases h
  case h_1 entry hentry =>
    obtain ⟨t, ht, heq⟩ := Option.map_eq_some_iff.mp h
    cases heq
    simp only [State.withBuffer, hentry, ht]

/-! Loads (R249, R252, R255) -/

section Sized
variable (hn : accessBytes (i.f 23 21) = some n)
include hn

theorem ldG_answers (h : issued u c w 2 0x00 = some (i, s)) (heven : i.f 31 24 % 2 = 0)
    (hload : s.loadAt i (bit i.ins 19) ((lanesOf i.active).map (i.gAddr n)) n = (t, some vs)) :
    Answers (.ldG c w) u (t.advance i (i.loaded ((lanesOf i.active).zip vs))) := by
  rw [Answers, exec_ldG, execLdG, State.mem_of_width h (Issue.baseOk_global heven) hn]
  simp only [hload]

theorem ldB_answers (h : issued u c w 2 0x10 = some (i, s)) (hbuf : bufferOf s i = some (b, e)) :
    let inside := (lanesOf i.active).filter fun l => (inBuffer e i n l).isSome
    let outside := (lanesOf i.active).filter fun l => (inBuffer e i n l).isNone
    b.loadAt i (bit i.ins 19) (inside.map fun l => (inBuffer e i n l).getD 0) n = (t, some vs) →
      Answers (.ldB c w) u (t.advance i (i.loaded (inside.zip vs ++ outside.map fun l => (l, zeros n)))) := by
  intro inside outside hload
  rw [Answers, exec_ldB, execLdB, State.mem_of_width h Issue.baseOk_index hn, State.withBuffer_of_bufferOf hbuf]
  cases e <;> simp only [inside, outside, inBuffer, Option.bind_some, Option.bind_none] at hload ⊢ <;> simp only [hload]

theorem ldL_answers (h : issued u c w 2 0x20 = some (i, s)) (hzero : i.f 31 24 = 0) {g : WorkGroup} (hg : s.group i = some g) :
    Answers (.ldL c w) u (s.advance i (i.loaded ((lanesOf i.active).map fun l =>
      (l, match i.within g.size n l with | some o => g.bytes o n | none => zeros n)))) := by
  rw [Answers, exec_ldL, execLdL, State.mem_of_width h (Issue.baseOk_reserved hzero) hn]
  simp only [hg] <;> rfl

/-! Stores (R249, R254) -/

theorem stG_answers (h : issued u c w 2 0x01 = some (i, s)) (heven : i.f 31 24 % 2 = 0)
    (hstore : s.storeAt i true (i.writers.map fun l => (i.gAddr n l, i.dataBytes n l)) = (t, true)) : Answers (.stG c w) u (t.advance i i.wave) := by
  rw [Answers, exec_stG, execStG, State.mem_of_width h (Issue.baseOk_global heven) hn]
  simp only [hstore]

theorem stB_answers (h : issued u c w 2 0x11 = some (i, s)) (hbuf : bufferOf s i = some (b, e))
    (hstore : b.storeAt i true (i.writers.filterMap fun l => (inBuffer e i n l).map fun a => (a, i.dataBytes n l)) = (t, true)) :
    Answers (.stB c w) u (t.advance i i.wave) := by
  rw [Answers, exec_stB, execStB, State.mem_of_width h Issue.baseOk_index hn, State.withBuffer_of_bufferOf hbuf]
  cases e <;> simp only [inBuffer, Option.bind_some, Option.bind_none, Option.map_map, Option.map_none, Function.comp_def] at hstore ⊢ <;> simp only [hstore]

theorem stL_answers (h : issued u c w 2 0x21 = some (i, s)) (hzero : i.f 31 24 = 0) {g : WorkGroup} (hg : (s.advance i i.wave).group i = some g) :
    Answers (.stL c w) u ((s.advance i i.wave).setGroup i.c (i.writers.foldl (fun g l => match i.within g.size n l with
      | some o => g.write o (i.dataBytes n l)
      | none => g) g)) := by
  rw [Answers, exec_stL, execStL, State.mem_of_width h (Issue.baseOk_reserved hzero) hn]
  simp only [hg] <;> rfl

/-! Storage of a pixel in tile memory (R219, R249) -/

theorem plsLd_answers (h : issued u c w 2 0x30 = some (i, s)) (hzero : i.f 31 24 = 0) {k m : Nat} (hwords : i.plsWords n = some (k, m)) :
    Answers (.plsLd c w) u (s.advance i ((lanesOf i.active).foldl (fun (x : Wave) l => x.putWords (i.f 47 40) l ((List.range m).map fun j =>
      match i.plsPixel l with
      | some p => (Map.get (s.cluster i.c).ctx.pls 0 (4 * p + k + j)).toNat
      | none => 0)) i.wave)) := by
  rw [Answers, exec_plsLd, execPlsLd, State.mem_of_width h (Issue.baseOk_reserved hzero) hn]
  simp only [hwords] <;> rfl

theorem plsSt_answers (h : issued u c w 2 0x31 = some (i, s)) (hzero : i.f 31 24 = 0) {k m : Nat} (hwords : i.plsWords n = some (k, m)) :
    let put := fun (pls : List (Nat × Word)) (l : Nat) => match i.plsPixel l with
      | some p => (List.range m).foldl (fun pls j => Map.setD pls 0 (4 * p + k + j) (word (i.wave.vreg (i.f 47 40 + j) l))) pls
      | none => pls
    Answers (.plsSt c w) u ((s.advance i i.wave).updCluster i.c fun cl =>
      { cl with ctx := { cl.ctx with pls := i.writers.foldl put cl.ctx.pls } }) := by
  intro put
  rw [Answers, exec_plsSt, execPlsSt, State.mem_of_width h (Issue.baseOk_reserved hzero) hn]
  simp only [hwords] <;> rfl

end Sized

theorem loadResults : LoadResults := fun _ _ _ _ _ _ _ _ hn =>
  ⟨fun h heven hload => ldG_answers hn h heven hload, fun _ _ h hbuf => ldB_answers hn h hbuf, fun _ h hzero hg => ldL_answers hn h hzero hg⟩

theorem storeResults : StoreResults := fun _ _ _ _ _ _ _ hn =>
  ⟨fun h heven hstore => stG_answers hn h heven hstore, fun _ _ h hbuf hstore => stB_answers hn h hbuf hstore, fun _ h hzero hg => stL_answers hn h hzero hg⟩

theorem pixelLocalResults : PixelLocalResults := fun _ _ _ _ _ _ _ _ hn hzero hwords =>
  ⟨fun h => plsLd_answers hn h hzero hwords, fun h => plsSt_answers hn h hzero hwords⟩

/-! Atomics (R249, R252, R254, R255) -/

/-- Where every lane's word can be read and written and MEM for them is granted, the lanes of a global atomic act one after another. -/
theorem State.atomicAt_of_mapped {at? : Nat → Option Nat} (hmap : lanesMapped s i at? = true) (hmem : atomicMem s i at? = some t)
    (f : Nat → Nat → Nat → Nat) : s.atomicAt i at? f = atomicEnd i at? f t := by
  simp only [lanesMapped, Bool.and_eq_true, Option.isNone_iff_eq_none] at hmap
  obtain ⟨hread, hwrite⟩ := hmap
  rw [atomicMem] at hmem
  simp only [State.atomicAt, hread, hwrite, hmem]
  refine congrArg (fun x : State × Wave => (x.1.advance i x.2).updCluster i.c (·.dropL1 (i.writers.filterMap at?)))
    (List.foldl_ext _ _ _ fun acc l _ => ?_)
  cases at? l <;> rfl

/-- An atomic runs on global memory where DEV is 1 and on the data store of its workgroup where DEV is 0. -/
theorem atomRow_of_atomic {ins : Fin 16 → Nat → Instr} {f : Nat → Nat → Nat → Nat} (hins : ∀ c w u, exec (ins c w) u = u.atomic c w op f) :
    AtomRow ins op f := by
  intro c w u s i h
  refine ⟨fun t hdev heven hmap hmem => ?global, fun hdev hzero => ?workgroup⟩
  case global =>
    rw [Answers, hins, State.atomic, State.mem_of_word h (Issue.baseOk_atomicGlobal hdev heven), if_pos hdev, State.atomicAt_of_mapped hmap hmem]
  case workgroup =>
    rw [Answers, hins, State.atomic, State.mem_of_word h (Issue.baseOk_atomicLocal hdev hzero), if_neg (ne_true_of_eq_false hdev)]

theorem atomAddB_answers (h : issued u c w 2 0x4A = some (i, s)) (hbuf : bufferOf s i = some (b, e)) (hmap : lanesMapped b i (inBuffer e i 4) = true)
    (hmem : atomicMem b i (inBuffer e i 4) = some t) : Answers (.atomAddB c w) u (atomicEnd i (inBuffer e i 4) (fun o v _ => (o + v) % 2 ^ 32) t) := by
  rw [Answers, exec_atomAddB, execAtomAddB, State.mem_of_word h Issue.baseOk_index, State.withBuffer_of_bufferOf hbuf,
    ← State.atomicAt_of_mapped hmap hmem]
  cases e <;> rfl

end MemIssued

theorem atomicResults : AtomicResults :=
  ⟨atomRow_of_atomic fun _ _ _ => rfl, atomRow_of_atomic fun _ _ _ => rfl, atomRow_of_atomic fun _ _ _ => rfl, atomRow_of_atomic fun _ _ _ => rfl,
    atomRow_of_atomic fun _ _ _ => rfl, atomRow_of_atomic fun _ _ _ => rfl, atomRow_of_atomic fun _ _ _ => rfl, atomRow_of_atomic fun _ _ _ => rfl,
    atomRow_of_atomic fun _ _ _ => rfl, atomRow_of_atomic fun _ _ _ => rfl, fun _ _ _ _ _ _ _ _ h hbuf hmap hmem => atomAddB_answers h hbuf hmap hmem⟩

/-- Settles O15: it holds, each clause by the lemma of its row. The model's choice, and not the manual's words, is that a byte of a workgroup's allocation that
nothing has written reads as a free value (log entry 77). -/
theorem memoryInstructionResults : Obligations.MemoryInstructionResults := ⟨loadResults, storeResults, pixelLocalResults, atomicResults⟩

end Sys2Proof.Machine

namespace Sys2Proof.Machine
open Sys2Proof.Claims

/-! Partial renders (R216) -/

/-- Where binning needs a page and gets none, a partial render starts if the pass holds 2 pages, and the pass waits otherwise. -/
theorem State.binPages_of_noPage {s : State} {o : Nat} {j : Job} {pa : Pass} (n : Nat) (hjob : s.dev.job o = some j) (hpass : s.dev.passOf o = some pa)
    (howe : pa.owe ≠ some []) (hnone : (pa.binMax ≠ 0 ∧ pa.binMax ≤ pa.pages) ∨ s.skein.take .bin (plyHolder j.ply) 1 = none) :
    s.binPages o (n + 1) = (if 2 ≤ pa.pages then s.startRender o false else s, false) := by
  have hpage : (if (decide (pa.binMax ≠ 0) && decide (pa.binMax ≤ pa.pages)) = true then none else s.skein.take .bin (plyHolder j.ply) 1) = none := by
    obtain ⟨hmax, hfull⟩ | hrefused := hnone
    · exact if_pos (by rw [decide_eq_true hmax, decide_eq_true hfull]; rfl)
    · rw [hrefused, ite_self]
  simp only [State.binPages, hjob, hpass, if_neg howe, hpage]

/-- A page that binning needs and gets joins the pass with the quads that it holds. -/
theorem State.binPages_of_page {s : State} {o : Nat} {j : Job} {pa : Pass} {k : Skein} (n : Nat) (hjob : s.dev.job o = some j)
    (hpass : s.dev.passOf o = some pa) (howe : pa.owe ≠ some []) (hroom : ¬ (pa.binMax ≠ 0 ∧ pa.binMax ≤ pa.pages))
    (htake : s.skein.take .bin (plyHolder j.ply) 1 = some k) :
    s.binPages o (n + 1) = (({ s with skein := k } : State).updPass o fun pa =>
      { pa.addQuads ((pa.owe.getD []).headD []) with pages := pa.pages + 1, owe := pa.owe.map (·.drop 1) }).binPages o n := by
  have hfull : (decide (pa.binMax ≠ 0) && decide (pa.binMax ≤ pa.pages)) = false := by
    rw [← Bool.decide_and]
    exact decide_eq_false hroom
  simp only [State.binPages, hjob, hpass, if_neg howe, hfull, Bool.false_eq_true, if_false, htake]

/-- Settles O56: it holds, by the two outcomes of a page's take. How many pages a draw's lists take comes with its command (log entry 62). -/
theorem partialRenderStartsWhenPagesRunOut : Obligations.PartialRenderStartsWhenPagesRunOut := by
  intro s o n j pa quads rest hjob hpass howes full take
  have howe : pa.owe ≠ some [] := by simp [howes]
  refine ⟨fun hnone hpages => ?starts, fun hnone hpages => ?waits, fun k hroom htake => State.binPages_of_page n hjob hpass howe hroom htake⟩
  case starts => rw [State.binPages_of_noPage n hjob hpass howe hnone, if_pos hpages]
  case waits => rw [State.binPages_of_noPage n hjob hpass howe hnone, if_neg (Nat.not_le.mpr hpages)]

/-! A job after an update of it, and after the fetch of its packet -/

theorem State.job_updJob (s : State) (o : Nat) {f : Job → Job} (hf : ∀ j, (f j).order = j.order) : (s.updJob o f).dev.job o = (s.dev.job o).map f := by
  have horder : (fun j : Job => (if j.order = o then f j else j).order == o) = fun j => j.order == o := funext fun j => by split <;> simp only [hf]
  simp only [State.updJob, Dev.job, State.onDev_dev, Dev.updGfx, List.find?_map, Function.comp_def, horder]
  exact Option.map_congr fun j hj => if_pos (eq_of_beq (List.find?_some (p := fun j : Job => j.order == o) hj))

/-- MEM for a packet changes nothing of its job but how far its buffer has been transferred. -/
theorem State.job_of_fetchPacket {u s : State} {p : Fin 64} {o n : Nat} {b : CmdBuf} {j : Job} (hjob : u.dev.job o = some j)
    (h : u.fetchPacket p o b n = some s) : ∃ bufs, s.dev.job o = some { j with bufs := bufs } := by
  unfold State.fetchPacket at h
  dsimp only at h
  split at h
  case isTrue =>
    cases h
    exact ⟨j.bufs, hjob⟩
  case isFalse =>
    obtain ⟨t, ht, rfl⟩ := Option.map_eq_some_iff.mp h
    have hsame : t.dev.job o = some j := (congrArg (fun g : Gfx => g.jobs.find? fun x : Job => x.order == o) (State.takeMem_gfx ht)).trans hjob
    rw [State.job_updJob]
    case hf => exact fun _ => rfl
    exact ⟨_, congrArg (Option.map _) hsame⟩

/-! What a packet comes to (R209-R211) -/

/-- The answer of a packet of `n` bytes: what is done lets the job go past them, and BAD_FIELD stops the job as it stood before the fetch. -/
def PktRes.answer (u : State) (o n : Nat) : PktRes → Res
  | .done t => .next (t.passBytes o n)
  | .moved t => .next t
  | .wait t => .next t
  | .bad => .next (u.stopJob o 0x02)

section NextPacket
variable {u s : State} {o op : Nat} {j : Job} {d : List Nat}

/-- A job's next packet is run on its payload, on the state after the fetch. -/
theorem State.packet_and_fetch_of_nextPacket (h : nextPacket u o = some (s, j, op, d)) :
    (∀ run : Job → List Nat → State → PktRes, u.packet o op run = (run j d s).answer u o (4 + 4 * d.length)) ∧
      u.dev.job o = some j ∧ ∃ b, u.fetchPacket j.ply o b (4 + 4 * d.length) = some s := by
  unfold nextPacket at h
  split at h
  case h_1 => cases h
  case h_2 job hjob =>
  split at h
  case h_1 => cases h
  case h_2 b rest hbufs =>
  obtain ⟨⟨halive, hended, hrunning, hleft⟩, h⟩ := Option.ite_none_right_eq_some.mp h
  obtain ⟨header, hheader, h⟩ := Option.bind_eq_some_iff.mp h
  obtain ⟨range, hrange, h⟩ := Option.bind_eq_some_iff.mp h
  obtain ⟨⟨hreserved, hleast, hmost, hinside, hplace⟩, h⟩ := Option.ite_none_right_eq_some.mp h
  obtain ⟨payload, hpayload, h⟩ := Option.bind_eq_some_iff.mp h
  obtain ⟨fetched, hfetch, h⟩ := Option.map_eq_some_iff.mp h
  cases h
  have hheld : (j.ended.isSome || u.dev.runningOn o == 0) = false := by
    rw [Option.isNone_iff_eq_none.mp hended, beq_false_of_ne hrunning]
    rfl
  have hmore : ¬ b.len ≤ b.pos := by omega
  have hok : ¬ (fld (le32 header 0) 23 16 ≠ 0 ∨ fld (le32 header 0) 15 0 < range.1 ∨ range.2 < fld (le32 header 0) 15 0 ∨
      b.len < b.pos + 4 + 4 * fld (le32 header 0) 15 0) := by omega
  rw [List.length_map, List.length_range]
  refine ⟨fun run => ?_, hjob, b, hfetch⟩
  simp only [State.packet, State.clocked_of_runs halive, hjob, hbufs, hheld, Bool.false_eq_true, if_false, if_neg hmore, hheader, hrange, if_neg hok,
    ne_eq, not_true_eq_false, hplace, Bool.not_true, hpayload, hfetch]
  cases run j _ s <;> rfl

/-- A packet's fetch leaves its job's fields but the buffers. -/
theorem State.job_of_nextPacket (h : nextPacket u o = some (s, j, op, d)) : ∃ bufs, s.dev.job o = some { j with bufs := bufs } := by
  obtain ⟨_, hjob, _, hfetch⟩ := State.packet_and_fetch_of_nextPacket h
  exact State.job_of_fetchPacket hjob hfetch

theorem State.packet_of_nextPacket_moved {t : State} (h : nextPacket u o = some (s, j, op, d)) {run : Job → List Nat → State → PktRes}
    (hrun : run j d s = .moved t) : u.packet o op run = .next t := by
  rw [(State.packet_and_fetch_of_nextPacket h).1, hrun, PktRes.answer]

theorem State.packet_of_nextPacket_wait {t : State} (h : nextPacket u o = some (s, j, op, d)) {run : Job → List Nat → State → PktRes}
    (hrun : run j d s = .wait t) : u.packet o op run = .next t := by
  rw [(State.packet_and_fetch_of_nextPacket h).1, hrun, PktRes.answer]

end NextPacket

/-- A buffer that has been read to its length, and transferred to there, ends as with END (R209). -/
theorem State.packet_end_of_bufferRead {s t : State} {o : Nat} {j : Job} {b : CmdBuf} {rest : List CmdBuf} (hr : Runs s) (hjob : s.dev.job o = some j)
    (hbufs : j.bufs = b :: rest) (hended : j.ended = none) (hrunning : s.dev.runningOn o ≠ 0) (hread : b.len ≤ b.pos) (hfetched : ceilTo b.pos 64 ≤ b.read)
    {run : Job → List Nat → State → PktRes} (hrun : run j [] s = .moved t) : s.packet o 0x02 run = .next t := by
  have hfetch : s.fetchPacket j.ply o b 0 = some s := if_pos hfetched
  simp only [State.packet, State.clocked_of_runs hr, hjob, hbufs, hended, Option.isSome_none, Bool.false_or, beq_false_of_ne hrunning, Bool.false_eq_true,
    if_false, if_pos hread, if_true, hfetch, hrun]

/-- A packet that is done at once: what its payload makes of the job and the state after the fetch. -/
theorem pktRow_of_done {ins : Nat → Instr} {op : Nat} {d : List Nat} {ok : Job → Prop} {f : Nat → State → State}
    {run : Nat → Job → List Nat → State → PktRes} (hins : ∀ o u, exec (ins o) u = u.packet o op (run o))
    (hrun : ∀ o s j, ok j → run o j d s = .done (f o s)) : PktRow ins op d ok f := fun o u s j hnext hok =>
  (hins o u).trans (State.packet_of_nextPacket hnext (hrun o s j hok))

/-! Buffers (R209-R211) -/

/-- An address below 2^40 and aligned, in the dwords of a payload from `i` on (R209). -/
theorem dwAddr_eq_some {d : List Nat} {i align : Nat} (hsize : addrOf (dw d i) (dw d (i + 1)) < 2 ^ 40)
    (halign : addrOf (dw d i) (dw d (i + 1)) % align = 0) : dwAddr d i align = some (addrOf (dw d i) (dw d (i + 1))) := if_pos ⟨hsize, halign⟩

theorem call_answers {o lo hi n : Nat} {u s : State} {j : Job} (h : nextPacket u o = some (s, j, 0x01, [lo, hi, n])) (houter : j.bufs.length = 1)
    (hsize : addrOf lo hi < 2 ^ 40) (halign : addrOf lo hi % 64 = 0) (hleast : 4 ≤ n) (hmost : n ≤ 2 ^ 24) (hwords : n % 4 = 0) :
    Answers (.call o) u ((s.passBytes o 16).updJob o fun j => { j with bufs := { addr := addrOf lo hi, len := n, pos := 0, read := 0 } :: j.bufs }) := by
  have haddr : dwAddr [lo, hi, n] 0 64 = some (addrOf lo hi) := dwAddr_eq_some hsize halign
  have hok : ¬ (2 ≤ j.bufs.length ∨ n < 4 ∨ 2 ^ 24 < n ∨ n % 4 ≠ 0) := by omega
  rw [Answers, exec_call, execCall]
  refine State.packet_of_nextPacket_moved h ?_
  simp only [haddr]
  exact if_neg hok

theorem bufferPacketResults : BufferPacketResults := by
  refine ⟨fun d => pktRow_of_done exec_pktNop fun _ _ _ _ => rfl, fun _ _ _ _ _ _ _ h => call_answers h,
    fun o u s j h hpass => ?endPacket, fun o s j b rest hjob hbufs hr hended hrunning hread hpass hfetched => ?endOfBuffer,
    fun lo hi n => pktRow_of_done exec_saveArea fun o s j hok => ?saveArea⟩
  case endPacket =>
    rw [Answers, exec_pktEnd, execPktEnd]
    exact State.packet_of_nextPacket_moved h (if_neg (by simp [hpass]))
  case endOfBuffer =>
    rw [Answers, exec_pktEnd, execPktEnd]
    exact State.packet_end_of_bufferRead hr hjob hbufs hended hrunning hread hfetched (if_neg (by simp [hpass]))
  case saveArea =>
    obtain ⟨hsize, halign, hbits, hunits, hnew⟩ := hok
    have haddr : dwAddr [lo, hi, n] 0 65536 = some (addrOf lo hi) := dwAddr_eq_some hsize halign
    have hfits : ¬ (j.save.isSome = true ∨ fld n 31 16 ≠ 0 ∨ n < (if j.compute then 6 else 10) * j.want) := by
      simpa [hnew, fld_eq_zero_of_lt (lo := 16) hbits] using hunits
    simp only [haddr]
    exact if_neg hfits

/-! Pipeline state (R206, R210, R213) -/

/-- What SHADER asks of a stage's workgroup and its data store: sizes in range for the compute stage, 0 for the others (R210). -/
def shaderOwnOk (st l w : Nat) : Bool :=
  if st = 2 then decide (l ≤ 131072) && fld w 31 30 == 0 && decide (1 ≤ fld w 9 0 * fld w 19 10 * fld w 29 20) &&
    decide (fld w 9 0 * fld w 19 10 * fld w 29 20 ≤ 1024)
  else l == 0 && w == 0

theorem shaderOwnOk_of_inRange {st : Fin 3} {l w : Nat}
    (h : if st = 2 then l ≤ 131072 ∧ fld w 31 30 = 0 ∧ 1 ≤ fld w 9 0 * fld w 19 10 * fld w 29 20 ∧ fld w 9 0 * fld w 19 10 * fld w 29 20 ≤ 1024
      else l = 0 ∧ w = 0) : shaderOwnOk st.val l w = true := by
  by_cases hst : st = 2
  · subst hst
    simpa [shaderOwnOk, and_assoc] using h
  · have hval : st.val ≠ 2 := fun hval => hst (Fin.ext hval)
    simpa [shaderOwnOk, hst, hval] using h

/-- What TARGET asks of a target's format, operations and row stride (R210). -/
def targetFieldsOk (w stride c1 : Nat) : Bool :=
  (if fld w 2 0 == 4 then fld w 15 8 == 0x40 && c1 / 256 == 0 else decide (1 ≤ fld w 15 8) && decide (fld w 15 8 ≤ 9)) &&
    (!bit w 16 || (decide (1 ≤ fld w 15 8) && decide (fld w 15 8 ≤ 5))) && decide (fld w 18 17 ≤ 2) && decide (fld w 20 19 ≤ 2) &&
    stride % 256 == 0 && decide (stride ≤ 262144)

theorem targetFieldsOk_of_inRange {k : Fin 5} {w stride c1 : Nat} (hslot : fld w 2 0 = k.val)
    (hformat : if k = 4 then fld w 15 8 = 0x40 ∧ c1 < 256 else 1 ≤ fld w 15 8 ∧ fld w 15 8 ≤ 9)
    (hozc : bit w 16 = true → 1 ≤ fld w 15 8 ∧ fld w 15 8 ≤ 5) (hload : fld w 18 17 ≤ 2) (hstore : fld w 20 19 ≤ 2) (hstride : stride % 256 = 0)
    (hwidth : stride ≤ 262144) : targetFieldsOk w stride c1 = true := by
  have hformats : (if fld w 2 0 == 4 then fld w 15 8 == 0x40 && c1 / 256 == 0 else decide (1 ≤ fld w 15 8) && decide (fld w 15 8 ≤ 9)) = true := by
    by_cases hk : k = 4
    · obtain ⟨hfmt, hclear⟩ := (if_pos hk).mp hformat
      simp [hslot, hk, hfmt, Nat.div_eq_of_lt hclear]
    · have hval : k.val ≠ 4 := fun hval => hk (Fin.ext hval)
      simpa [hslot, hk, hval] using hformat
  have hcodes : (!bit w 16 || (decide (1 ≤ fld w 15 8) && decide (fld w 15 8 ≤ 5))) = true := by
    cases hb : bit w 16 with
    | false => rfl
    | true => simpa using hozc hb
  rw [targetFieldsOk, hformats, hcodes, decide_eq_true hload, decide_eq_true hstore, hstride, decide_eq_true hwidth]
  rfl

theorem statePacketResults : StatePacketResults := by
  refine ⟨fun st lo hi r l w => pktRow_of_done exec_shader fun o s _ hok => ?shader,
    fun st lo hi => pktRow_of_done exec_resources fun o s _ hok => ?resources,
    fun st h vs => pktRow_of_done exec_constPkt fun o s _ hok => ?const,
    fun k w lo hi stride hlo hhi c0 c1 => pktRow_of_done exec_target fun o s _ hok => ?target,
    fun x y w h d4 d5 d6 d7 => pktRow_of_done exec_raster fun o s _ hok => ?raster,
    fun b0 b1 b2 b3 => pktRow_of_done exec_blend fun o s _ hok => ?blend⟩
  case shader =>
    obtain ⟨hsize, halign, hvLeast, hvMost, hvGap, hsLeast, hsMost, hrest, hown⟩ := hok
    have haddr : dwAddr [st.val, lo, hi, r, l, w] 1 256 = some (addrOf lo hi) := dwAddr_eq_some hsize halign
    have hst : fin? 3 (dw [st.val, lo, hi, r, l, w] 0) = some st := fin?_eq_some rfl
    have hbad : ¬ (fld r 8 0 = 0 ∨ 256 < fld r 8 0 ∨ fld r 22 16 = 0 ∨ 128 < fld r 22 16 ∨ fld r 15 9 ≠ 0 ∨ fld r 31 23 ≠ 0 ∨
        (!shaderOwnOk st.val l w) = true) := by
      simp only [shaderOwnOk_of_inRange hown, Bool.not_true, Bool.false_eq_true, or_false]
      omega
    simp only [haddr, hst]
    exact if_neg hbad
  case resources =>
    obtain ⟨hsize, halign⟩ := hok
    have haddr : dwAddr [st.val, lo, hi] 1 64 = some (addrOf lo hi) := dwAddr_eq_some hsize halign
    have hst : fin? 3 (dw [st.val, lo, hi] 0) = some st := fin?_eq_some rfl
    simp only [haddr, hst]
  case const =>
    obtain ⟨hstage, hreserved, hhigh, hroom⟩ := hok
    have hst : fin? 3 (fld (dw (h :: vs) 0) 1 0) = some st := fin?_eq_some hstage
    have hok : ¬ (fld h 7 2 ≠ 0 ∨ fld h 31 15 ≠ 0 ∨ 128 < fld h 14 8 + (vs.length + 1 - 1)) := by omega
    simp only [hst]
    exact if_neg hok
  case target =>
    obtain ⟨hslot, hlow, hhigh, hsize, halign, hheader, hformat, hozc, hload, hstore, hstride, hwidth⟩ := hok
    have haddr : dwAddr [w, lo, hi, stride, hlo, hhi, c0, c1] 1 4096 = some (addrOf lo hi) := dwAddr_eq_some hsize halign
    have hhead : dwAddr [w, lo, hi, stride, hlo, hhi, c0, c1] 4 1 = some (addrOf hlo hhi) := dwAddr_eq_some hheader (Nat.mod_one _)
    have hk : fin? 5 (fld (dw [w, lo, hi, stride, hlo, hhi, c0, c1] 0) 2 0) = some k := fin?_eq_some hslot
    have hbad : ¬ (fld w 7 4 ≠ 0 ∨ fld w 31 21 ≠ 0 ∨ (!targetFieldsOk w stride c1) = true) := by
      simp only [targetFieldsOk_of_inRange hslot hformat hozc hload hstore hstride hwidth, Bool.not_true, Bool.false_eq_true, or_false]
      omega
    simp only [haddr, hhead, hk]
    exact if_neg hbad
  case raster =>
    obtain ⟨h4l, h4h, h5l, h5h, h6, hcull, h7⟩ := hok
    refine if_neg ?_
    simp [dw, h4l, h4h, h5l, h5h, h6, hcull, h7]
  case blend =>
    exact if_pos hok

/-- Settles O17: it holds, each clause by the lemma of its packet. The model's choice, and not the manual's words, is that SHADER's 7 bits for the count of scalar
registers take the counts 1 to 127 alone (log entry 96). -/
theorem bufferAndStatePacketResults : Obligations.BufferAndStatePacketResults := ⟨bufferPacketResults, statePacketResults⟩

/-! Passes (R210, R212, R213, R217, R218) -/

theorem passBegin_answers {o size m lo hi units : Nat} {u s : State} {j : Job} (h : nextPacket u o = some (s, j, 0x60, [size, m, lo, hi, units]))
    (hx : fld size 15 14 = 0) (hy : fld size 31 30 = 0) (hxLeast : 1 ≤ fld size 13 0) (hxMost : fld size 13 0 ≤ 8192) (hyLeast : 1 ≤ fld size 29 16)
    (hyMost : fld size 29 16 ≤ 8192) (hsamples : fld m 1 0 ≠ 3) (hm : fld m 15 3 = 0) (hsize : addrOf lo hi < 2 ^ 40) (halign : addrOf lo hi % 65536 = 0)
    (hbits : units < 65536) (hspill : ceilDiv ((newPass j size m lo hi units).tileCount * (newPass j size m lo hi units).imageBytes) 65536 ≤ units) :
    Answers (.passBegin o) u ((s.updJob o fun x => { x with pass := some (newPass j size m lo hi units) }).passBytes o 24) := by
  have haddr : dwAddr [size, m, lo, hi, units] 2 65536 = some (addrOf lo hi) := dwAddr_eq_some hsize halign
  have hfields : ¬ (fld size 15 14 ≠ 0 ∨ fld size 31 30 ≠ 0 ∨ fld size 13 0 = 0 ∨ 8192 < fld size 13 0 ∨ fld size 29 16 = 0 ∨ 8192 < fld size 29 16 ∨
      fld m 1 0 = 3 ∨ fld m 15 3 ≠ 0 ∨ fld units 31 16 ≠ 0) := by
    rw [fld_eq_zero_of_lt (lo := 16) hbits]
    omega
  rw [Answers, exec_passBegin, execPassBegin]
  refine State.packet_of_nextPacket h ?_
  simp only [haddr]
  exact (if_neg hfields).trans (if_neg (Nat.not_lt.mpr hspill))

theorem passEnd_answers {o : Nat} {w s : State} {j : Job} {pa pb : Pass} (h : nextPacket w o = some (s, j, 0x61, [])) (hpass : j.pass = some pa) :
    let u := if pa.render.isSome then s.pump o else s.startRender o true
    u.dev.passOf o = some pb → u.renderDone o pb = true →
      Answers (.passEnd o) w (((u.freePages o).updJob o fun j => { j with pass := none }).passBytes o 4) := by
  intro u hpb hdone
  rw [Answers, exec_passEnd, execPassEnd]
  refine State.packet_of_nextPacket h ?_
  simp only [hpass]
  simp only [u] at hpb hdone
  simp only [hpb, hdone, if_true]
  rfl

theorem passPacketResults : PassPacketResults := by
  refine ⟨fun size m lo hi units o u s j h hok => ?opens, fun o w s j pa pb h hpass => passEnd_answers h hpass⟩
  obtain ⟨hx, hy, hxLeast, hxMost, hyLeast, hyMost, hsamples, hm, hsize, halign, hbits, hspill⟩ := hok
  obtain ⟨bufs, hjob⟩ := State.job_of_nextPacket h
  simp only [hjob]
  exact passBegin_answers (j := j) h hx hy hxLeast hxMost hyLeast hyMost hsamples hm hsize halign hbits hspill

/-! Draws (R210, R212, R214) -/

theorem State.startDraw_of_fits {o : Nat} {j : Job} {x : Draw} (hsave : j.save.isSome = true) (hvertex : 0 < (at' x.pipe.stages 0).waveLimit)
    (hfragment : 0 < (at' x.pipe.stages 1).waveLimit) (u : State) :
    u.startDraw o j x = .wait ((u.updPass o fun pa => { pa with draws := pa.draws ++ [x], binning := true, owe := none }).pump o) := by
  have hsaves : ¬ j.save.isNone = true := ne_true_of_eq_false (Option.isNone_eq_false_iff.mpr hsave)
  exact if_neg (by rw [or_iff_right hsaves]; omega)

theorem State.binOn_of_binned {o pages : Nat} {quads : List (List FragQuad)} {s v : State} {pa : Pass} {x : Draw} (hrender : pa.render = none)
    (hcurrent : pa.current = some x) (hshaded : x.shaded = true) (j : Job) :
    let split := s.splitQuads o pages quads.flatten
    split.binPages o (((split.dev.passOf o).bind (·.owe)).elim 0 List.length + 1) = (v, true) →
      s.binOn o j pa pages quads = .done (v.updPass o fun pa => { pa with binning := false, owe := none }) := by
  intro split hpages
  simp only [split] at hpages
  simp only [State.binOn, hrender, Option.isSome_none, Bool.false_eq_true, if_false, hcurrent, hshaded, Bool.not_true, hpages]

/-- A draw packet: its values give the draw that `mk` names, which starts, or the draw in binning goes on. -/
theorem drawRow_of_values {ins : Nat → Nat → List (List FragQuad) → Instr} {op : Nat} {d : List Nat} {mk : Job → State → State → Draw → Prop}
    {val : Job → List Nat → State → Except PktRes (State × Draw)} (hins : ∀ o pages quads w, exec (ins o pages quads) w = w.drawPacket o op pages quads val)
    (hval : ∀ j s u x, mk j s u x → val j d s = .ok (u, x)) : DrawRow ins op d mk := by
  intro o pages quads w s u j pa h hpass
  refine ⟨fun x hidle hmk hsave hvertex hfragment => ?starts, fun x v hbinning hrender hcurrent hshaded => ?binned⟩
  case starts =>
    rw [Answers, hins, State.drawPacket]
    refine State.packet_of_nextPacket_wait h ?_
    simp only [hpass, hidle, Bool.false_eq_true, if_false, hval j s u x hmk]
    exact State.startDraw_of_fits hsave hvertex hfragment u
  case binned =>
    intro split hpages
    rw [Answers, hins, State.drawPacket]
    refine State.packet_of_nextPacket h ?_
    simp only [hpass, hbinning, if_true]
    exact State.binOn_of_binned hrender hcurrent hshaded j hpages

theorem drawPacketResults : DrawPacketResults := by
  refine ⟨fun topo n m first inst htopo => drawRow_of_values exec_draw fun j s u x hmk => ?draw,
    fun w n m first base inst lo hi size htopo hbit hres hindex hsize halign => drawRow_of_values exec_drawIndexed fun j s u x hmk => ?indexed,
    fun w lo hi xlo xhi size htopo hbit hres hsize halign hindex hxsize hxalign => drawRow_of_values exec_drawIndirect fun j s u x hmk => ?indirect⟩
  case draw =>
    obtain ⟨rfl, rfl⟩ := hmk
    exact if_neg (Nat.not_lt.mpr htopo)
  case indexed =>
    obtain ⟨rfl, rfl⟩ := hmk
    have haddr : dwAddr [w, n, m, first, base, inst, lo, hi] 6 size = some (addrOf lo hi) := dwAddr_eq_some hsize halign
    have hok : ¬ (5 < fld w 2 0 ∨ bit w 3 = true ∨ fld w 31 7 ≠ 0) := by simp [htopo, hbit, hres]
    have hindex' : indexBytes (fld (dw [w, n, m, first, base, inst, lo, hi] 0) 5 4) = some size := hindex
    simp only [hindex', haddr]
    exact if_neg hok
  case indirect =>
    obtain ⟨v, hargs, rfl⟩ := hmk
    have haddr : dwAddr [w, lo, hi, xlo, xhi] 1 16 = some (addrOf lo hi) := dwAddr_eq_some hsize halign
    have hxaddr : dwAddr [w, lo, hi, xlo, xhi] 3 size = some (addrOf xlo xhi) := dwAddr_eq_some hxsize hxalign
    have hok : ¬ (5 < fld w 2 0 ∨ bit w 3 = true ∨ fld w 31 8 ≠ 0) := by simp [htopo, hbit, hres]
    simp only [dw, List.getD_cons_zero, haddr, hindex, hxaddr, if_neg hok, hargs]

/-- Settles O18: it holds, each clause by the lemma of its packet. The model's choice, and not the manual's words, is that a draw's covered quads and the
pages of its lists come with its command (log entry 62). -/
theorem passAndDrawPacketResults : Obligations.PassAndDrawPacketResults := ⟨passPacketResults, drawPacketResults⟩

end Sys2Proof.Machine

namespace Sys2Proof.Machine
open Sys2Proof.Claims

/-! Submission of jobs (R206, R207, R227) -/
section Submission
variable {p : Fin 64} {r : Fin 4} {s : State} {f : InFlight} {op : Nat}

/-- The state in which a submitted descriptor's job has joined the engine's jobs. -/
def State.withJobOf (s : State) (p : Fin 64) (r : Fin 4) (f : InFlight) : State :=
  (s.dispatch p r f.order 0).onDev (·.updGfx fun g => { g with jobs := g.jobs ++ [f.toJob p r s.dev.devtime s.dram] })

theorem State.submit_of_ready (h : s.ready p r op = some f) :
    s.submit p r op = ((s.withJobOf p r f).placeReserved (f.toJob p r s.dev.devtime s.dram) []).getD (s.withJobOf p r f) := by
  simp only [State.submit, h]
  rfl

theorem submitRow_of_submit {ins : Fin 64 → Fin 4 → Instr} (hins : ∀ p r s, exec (ins p r) s = s.clocked fun s => .next (s.submit p r op)) :
    SubmitRow ins op := by
  intro p r s f hr hready j u
  have hout : Answers (ins p r) s ((u.placeReserved j []).getD u) := by
    rw [Answers, hins, State.clocked_of_runs hr, State.submit_of_ready hready]
    rfl
  refine ⟨rfl, rfl, rfl, rfl, rfl, rfl, rfl, fun hnone => ?waits, fun t hplaced => ?placed⟩
  case waits => rwa [hnone] at hout
  case placed => rwa [hplaced] at hout

end Submission

theorem submissionResults : SubmissionResults := ⟨submitRow_of_submit exec_gfxSubmit, submitRow_of_submit exec_computeSubmit⟩

/-! The scheduler (R226-R229, R257) -/
section Scheduler
variable {s : State} (hr : Runs s)
include hr

/-- An idle powered cluster goes to the first job in order whose offer is granted. -/
theorem clusterOffer_answers {c : Fin 16} {l l' : List (Bool × Job)} {x : Bool × Job} {t : State} (hon : s.dev.clusterOn c = true)
    (hidle : (s.cluster c).job = none) (horder : s.offerOrder = l ++ x :: l') (hrefused : ∀ y ∈ l, offered s c y = none)
    (hgranted : offered s c x = some t) : Answers (.clusterOffer c) s t := by
  have hready : (!(s.dev.clusterOn c && (s.cluster c).job.isNone)) = false := by rw [hon, hidle]; rfl
  have hfirst : s.offerOrder.findSome? (offered s c) = some t := by
    rw [horder, List.findSome?_append, List.findSome?_eq_none_iff.mpr hrefused, Option.none_or, List.findSome?_cons, hgranted]
  rw [Answers, exec_clusterOffer, execClusterOffer, State.clocked_of_runs hr, if_neg (ne_true_of_eq_false hready)]
  exact congrArg (fun o : Option State => Host.Outcome.next (o.getD s)) hfirst

section Preempt
variable {p : Fin 64} {r : Fin 4} {q : Word} {j : Job} (hjob : s.dev.jobBySeq p r q = some j) (htier : s.tier1 j = true) (hdue : j.latest ≤ s.dev.devtime + 15000)
include hjob htier hdue

theorem classAPreempt_answers_placed {t : State} (hplace : s.placeReserved j [] = some t) : Answers (.classAPreempt p r q) s t := by
  have hstart : (!(s.tier1 j && decide (j.latest ≤ s.dev.devtime + 15000))) = false := by rw [htier, decide_eq_true hdue]; rfl
  rw [Answers, exec_classAPreempt, execClassAPreempt, State.clocked_of_runs hr]
  simp only [hjob, if_neg (ne_true_of_eq_false hstart), hplace]

/-- Where too few clusters are idle, the shortfall is preempted: those that come to the job without that are kept for it (log entry 116). -/
theorem classAPreempt_answers_shortfall (hshort : s.placeReserved j [] = none) :
    let need := s.admitted j - s.dev.runningOn j.order
    let mine := (s.comingTo j).take need
    let t := s.each mine fun s c => s.updCluster c fun k => { k with dest := some j.order }
    Answers (.classAPreempt p r q) s (t.preempt (t.victims.take (need - mine.length)) (some j.order)) := by
  have hstart : (!(s.tier1 j && decide (j.latest ≤ s.dev.devtime + 15000))) = false := by rw [htier, decide_eq_true hdue]; rfl
  rw [Answers, exec_classAPreempt, execClassAPreempt, State.clocked_of_runs hr]
  simp only [hjob, if_neg (ne_true_of_eq_false hstart), hshort]

end Preempt

section Saves
variable {c : Fin 16} {o : Nat} {j : Job} (hheld : (s.cluster c).job = some o) (hjob : s.dev.job o = some j) (hsaving : (s.cluster c).saving = true)
include hheld hjob hsaving

theorem preemptSaveDone_answers_nothing (hnone : (s.cluster c).ctx.isEmpty = true ∨ j.save = none) : Answers (.preemptSaveDone c) s (s.unplace c j) := by
  have harea : (if (s.cluster c).ctx.isEmpty = true then none else j.save) = none := by
    obtain hempty | hsave := hnone
    · exact if_pos hempty
    · rw [hsave, ite_self]
  rw [Answers, exec_preemptSaveDone, execPreemptSaveDone, State.clocked_of_runs hr]
  simp only [hheld, hjob, hsaving, Bool.not_true, Bool.false_eq_true, if_false, harea]

section Area
variable {area : Nat × Nat} (harea : j.save = some area) (hfull : (s.cluster c).ctx.isEmpty = false)
include harea hfull

theorem preemptSaveDone_answers_buffered (hreserved : s.saveReserved = true) (hroom : s.dev.gfx.saves.length < 4) : Answers (.preemptSaveDone c) s
    ((s.unplace c j).onDev (·.updGfx fun g => { g with
      saves := g.saves ++ [{ order := o, ply := j.ply, addr := area.1, size := area.2, units := ceilDiv ((s.cluster c).ctx.saveBytes j) 64 }] })).drainSaves := by
  rw [Answers, exec_preemptSaveDone, execPreemptSaveDone, State.clocked_of_runs hr]
  simp only [hheld, hjob, hsaving, Bool.not_true, Bool.false_eq_true, if_false, hfull, harea, hreserved, decide_eq_true hroom, Bool.and_self, if_true]

theorem preemptSaveDone_answers_written (hnone : s.saveReserved = false ∨ 4 ≤ s.dev.gfx.saves.length) {t u : State}
    (htake : s.takeMem (plyHolder j.ply) (ceilDiv ((s.cluster c).ctx.saveBytes j) 64) [(area.1, 64 * ceilDiv ((s.cluster c).ctx.saveBytes j) 64)] = some t)
    (hsave : t.saveTo j.ply area = some u) : Answers (.preemptSaveDone c) s (u.unplace c j) := by
  have hbuffer : (s.saveReserved && decide (s.dev.gfx.saves.length < 4)) = false :=
    Bool.and_eq_false_iff.mpr (hnone.imp_right fun h => decide_eq_false (Nat.not_lt.mpr h))
  rw [Answers, exec_preemptSaveDone, execPreemptSaveDone, State.clocked_of_runs hr]
  simp only [hheld, hjob, hsaving, Bool.not_true, Bool.false_eq_true, if_false, hfull, harea, hbuffer, htake, hsave]

end Area
end Saves
end Scheduler

theorem schedulerResults : SchedulerResults := by
  intro s hr
  refine ⟨?offers, ?preempts, ?saves⟩
  case offers => exact fun _ _ _ _ _ hon hidle horder hrefused hgranted => clusterOffer_answers hr hon hidle horder hrefused hgranted
  case preempts =>
    intro p r q j hjob htier hdue
    exact ⟨fun _ hplace => classAPreempt_answers_placed hr hjob htier hdue hplace, fun hshort => classAPreempt_answers_shortfall hr hjob htier hdue hshort⟩
  case saves =>
    intro c o j hheld hjob hsaving
    refine ⟨fun hnone => preemptSaveDone_answers_nothing hr hheld hjob hsaving hnone, fun area harea hfull => ⟨fun hreserved hroom => ?buffered, ?written⟩⟩
    case buffered => exact preemptSaveDone_answers_buffered hr hheld hjob hsaving harea hfull hreserved hroom
    case written => exact fun hnone _ _ htake hsave => preemptSaveDone_answers_written hr hheld hjob hsaving harea hfull hnone htake hsave

/-! Retirement and deadlines (R208, R231) -/
section JobEnd
variable {p : Fin 64} {r : Fin 4} {q : Word} {s : State} {j : Job} (hr : Runs s) (hjob : s.dev.jobBySeq p r q = some j)
include hr hjob

theorem gfxJobRetire_answers (hend : j.ended.isSome = true ∨ (j.bufs = [] ∧ j.pass = none ∧ s.jobQuiet j = true)) : Answers (.gfxJobRetire p r q) s
    ((s.finishDesc p r j.order (j.ended.getD 0) (bytesOf 8 (j.started.getD 0) ++ bytesOf 8 s.dev.devtime)).dropJob j.order) := by
  have hretires : (j.ended.isSome || (j.bufs.isEmpty && j.pass.isNone && s.jobQuiet j)) = true := by
    obtain hended | ⟨hbufs, hpass, hquiet⟩ := hend
    · rw [hended, Bool.true_or]
    · rw [hbufs, hpass, hquiet]
      exact Bool.or_true _
  rw [Answers, exec_gfxJobRetire, execGfxJobRetire, State.clocked_of_runs hr]
  simp only [hjob, if_pos hretires]

/-- Where the deadline has not passed, where there is none, or where its miss has been raised, nothing happens. -/
theorem gfxDeadlineMiss_answers_none (h : ¬ (j.deadline ≠ 0 ∧ j.deadline ≤ s.dev.devtime ∧ j.missed = false)) : Answers (.gfxDeadlineMiss p r q) s s := by
  rw [Answers, exec_gfxDeadlineMiss, execGfxDeadlineMiss, State.clocked_of_runs hr]
  simp only [hjob, Bool.not_eq_true', if_neg h]

theorem gfxDeadlineMiss_answers_missed (h : j.deadline ≠ 0 ∧ j.deadline ≤ s.dev.devtime ∧ j.missed = false) :
    let u := (s.updJob j.order fun j => { j with missed := true }).onDev (·.updGfx fun g => { g with misses := satInc g.misses 1 })
    Answers (.gfxDeadlineMiss p r q) s (u.postPly p p.val 0x0600 0 (dataBytes [(16, 8, j.deadline), (24, 4, q.toNat), (28, 1, r.val)])) := by
  rw [Answers, exec_gfxDeadlineMiss, execGfxDeadlineMiss, State.clocked_of_runs hr]
  simp only [hjob, Bool.not_eq_true', if_pos h]

end JobEnd

theorem jobEndResults : JobEndResults := fun _ _ _ _ _ hr hjob =>
  ⟨gfxJobRetire_answers hr hjob, fun hdeadline hpast =>
    ⟨fun hraised => gfxDeadlineMiss_answers_none hr hjob fun ⟨_, _, hnew⟩ => Bool.false_ne_true (hnew.symm.trans hraised),
      fun hnew => gfxDeadlineMiss_answers_missed hr hjob ⟨hdeadline, hpast, hnew⟩⟩,
    fun hearly => gfxDeadlineMiss_answers_none hr hjob fun ⟨_, hpast, _⟩ => Nat.not_le.mpr hearly hpast⟩

/-- Settles O20: it holds, each clause by the lemma of its row. The model's choice, and not the manual's words, are that a cluster preempted for a class A job
is kept for it, that at most four saves use the save buffer of the L2 at a time (log entry 116), and that a save area reads back as free bytes (log entry
70). -/
theorem graphicsJobResults : Obligations.GraphicsJobResults := ⟨submissionResults, schedulerResults, jobEndResults⟩

end Sys2Proof.Machine

namespace Sys2Proof.Machine

/-! Words as numbers (R245, R247) -/

@[simp] theorem word_toNat (a : Word) : word a.toNat = a := BitVec.ofNat_toNat ..

@[simp] theorem toNat_word (v : Nat) : (word v).toNat = v % 2 ^ 32 := BitVec.toNat_ofNat ..

theorem toNat_word_of_lt {v : Nat} (h : v < 2 ^ 32) : (word v).toNat = v := by rw [toNat_word, Nat.mod_eq_of_lt h]

/-- The model's two's complement value is the library's. -/
theorem signed_eq_toInt (w v : Nat) : signed w v = (BitVec.ofNat w v).toInt := by
  rw [BitVec.toInt_eq_toNat_cond, BitVec.toNat_ofNat, signed]
  push_cast
  rfl

@[simp] theorem signed_toNat (a : Word) : signed 32 a.toNat = a.toInt := by rw [signed_eq_toInt, BitVec.ofNat_toNat, BitVec.setWidth_eq]

theorem ofNat_unsigned (w : Nat) (z : Int) : BitVec.ofNat w (unsigned w z) = BitVec.ofInt w z := by
  have hofInt : unsigned w z = (BitVec.ofInt w z).toNat := by simp [unsigned]
  rw [hofInt, BitVec.ofNat_toNat, BitVec.setWidth_eq]

/-! Integer operations on 32-bit words (R247) -/

theorem word_sub (a b : Word) : word (a.toNat + 2 ^ 32 - b.toNat) = a - b := by
  apply BitVec.eq_of_toNat_eq
  rw [toNat_word, BitVec.toNat_sub]
  congr 1
  omega

theorem word_add (a b : Word) : word (a.toNat + b.toNat) = a + b := by
  rw [word, BitVec.ofNat_add, BitVec.ofNat_toNat, BitVec.ofNat_toNat, BitVec.setWidth_eq, BitVec.setWidth_eq]

theorem word_mul (a b : Word) : word (a.toNat * b.toNat) = a * b := by
  rw [word, BitVec.ofNat_mul, BitVec.ofNat_toNat, BitVec.ofNat_toNat, BitVec.setWidth_eq, BitVec.setWidth_eq]

theorem word_mad (a b c : Word) : word (a.toNat * b.toNat + c.toNat) = a * b + c := by
  rw [word, BitVec.ofNat_add]
  exact congrArg₂ (· + ·) (word_mul a b) (word_toNat c)

theorem word_mulHiU (a b : Word) : word (a.toNat * b.toNat / 2 ^ 32) = ((a.setWidth 64 * b.setWidth 64) >>> 32).setWidth 32 := by
  have hlt : a.toNat * b.toNat < 2 ^ 64 := (Nat.mul_lt_mul'' a.isLt b.isLt).trans_eq (by decide)
  have ha : (a.setWidth 64).toNat = a.toNat := BitVec.toNat_setWidth_of_le (by decide)
  have hb : (b.setWidth 64).toNat = b.toNat := BitVec.toNat_setWidth_of_le (by decide)
  apply BitVec.eq_of_toNat_eq
  rw [toNat_word, BitVec.toNat_setWidth, BitVec.toNat_ushiftRight, Nat.shiftRight_eq_div_pow, BitVec.toNat_mul, ha, hb, Nat.mod_eq_of_lt hlt]

theorem word_mulHiI (a b : Word) :
    word (unsigned 64 (signed 32 a.toNat * signed 32 b.toNat) / 2 ^ 32) = ((a.signExtend 64 * b.signExtend 64) >>> 32).setWidth 32 := by
  have hprod : unsigned 64 (a.toInt * b.toInt) = (a.signExtend 64 * b.signExtend 64).toNat := by
    rw [BitVec.signExtend, BitVec.signExtend, ← BitVec.ofInt_mul]
    simp [unsigned]
  apply BitVec.eq_of_toNat_eq
  rw [signed_toNat, signed_toNat, hprod, toNat_word, BitVec.toNat_setWidth, BitVec.toNat_ushiftRight, Nat.shiftRight_eq_div_pow]

theorem word_minI (a b : Word) : word (if signed 32 a.toNat ≤ signed 32 b.toNat then a.toNat else b.toNat) = if a.toInt ≤ b.toInt then a else b := by
  rw [signed_toNat, signed_toNat]
  split <;> exact word_toNat _

theorem word_maxI (a b : Word) : word (if signed 32 a.toNat ≤ signed 32 b.toNat then b.toNat else a.toNat) = if a.toInt ≤ b.toInt then b else a := by
  rw [signed_toNat, signed_toNat]
  split <;> exact word_toNat _

theorem word_minU (a b : Word) : word (min a.toNat b.toNat) = if a ≤ b then a else b := by
  simp only [Nat.min_def, BitVec.le_def]
  split <;> exact word_toNat _

theorem word_maxU (a b : Word) : word (max a.toNat b.toNat) = if a ≤ b then b else a := by
  simp only [Nat.max_def, BitVec.le_def]
  split <;> exact word_toNat _

theorem word_and (a b : Word) : word (Nat.land a.toNat b.toNat) = a &&& b := (congrArg word (BitVec.toNat_and a b).symm).trans (word_toNat _)
theorem word_or (a b : Word) : word (Nat.lor a.toNat b.toNat) = a ||| b := (congrArg word (BitVec.toNat_or a b).symm).trans (word_toNat _)
theorem word_xor (a b : Word) : word (Nat.xor a.toNat b.toNat) = a ^^^ b := (congrArg word (BitVec.toNat_xor a b).symm).trans (word_toNat _)
theorem word_not (a : Word) : word (2 ^ 32 - 1 - a.toNat) = ~~~a := (congrArg word (BitVec.toNat_not (x := a)).symm).trans (word_toNat _)

theorem word_merge (a b c : Word) : word (Nat.lor (Nat.land a.toNat b.toNat) (Nat.land (2 ^ 32 - 1 - a.toNat) c.toNat)) = (a &&& b) ||| (~~~a &&& c) := by
  have hnot : 2 ^ 32 - 1 - a.toNat = (~~~a).toNat := BitVec.toNat_not.symm
  have hand : ∀ x y : Word, Nat.land x.toNat y.toNat = (x &&& y).toNat := fun x y => (BitVec.toNat_and x y).symm
  rw [hnot, hand, hand, word_or]

theorem word_shl (a b : Word) : word (a.toNat * 2 ^ (b.toNat % 32)) = a <<< (b.toNat % 32) := by
  apply BitVec.eq_of_toNat_eq
  rw [toNat_word, BitVec.toNat_shiftLeft, Nat.shiftLeft_eq]

/-- A word shifted right is its quotient by a power of two. -/
theorem toNat_div_two_pow (a : Word) (n : Nat) : a.toNat / 2 ^ n = (a >>> n).toNat := by rw [BitVec.toNat_ushiftRight, Nat.shiftRight_eq_div_pow]

theorem word_shrU (a b : Word) : word (a.toNat / 2 ^ (b.toNat % 32)) = a >>> (b.toNat % 32) := by rw [toNat_div_two_pow, word_toNat]

theorem word_shrI (a b : Word) : word (unsigned 32 (signed 32 a.toNat / 2 ^ (b.toNat % 32))) = a.sshiftRight (b.toNat % 32) := by
  rw [signed_toNat, word, ofNat_unsigned, BitVec.sshiftRight, Int.shiftRight_eq_div_pow]
  push_cast
  rfl

theorem word_fieldU (a b c : Word) :
    word (a.toNat / 2 ^ (b.toNat % 32) % 2 ^ (c.toNat % 64)) = BitVec.ofNat 32 ((a >>> (b.toNat % 32)).toNat % 2 ^ (c.toNat % 64)) := by
  rw [toNat_div_two_pow, word]

theorem word_fieldI (a b c : Word) :
    word (if c.toNat % 64 = 0 then 0 else unsigned 32 (signed (c.toNat % 64) (a.toNat / 2 ^ (b.toNat % 32)))) =
      if c.toNat % 64 = 0 then 0 else ((a >>> (b.toNat % 32)).setWidth (c.toNat % 64)).signExtend 32 := by
  split
  · rfl
  · rw [toNat_div_two_pow, signed_eq_toInt, BitVec.ofNat_toNat, word, ofNat_unsigned, BitVec.signExtend]

/-! Bits of a word (R247) -/

theorem word_popc (a : Word) : word ((List.range 32).filter (bit a.toNat)).length = BitVec.ofNat 32 ((List.range 32).filter a.getLsbD).length := rfl

theorem word_getD_ones (o : Option Nat) : word (o.getD (2 ^ 32 - 1)) = match o with | some k => BitVec.ofNat 32 k | none => 0xFFFFFFFF := by
  cases o <;> rfl

theorem word_lowbit (a : Word) : word (((List.range 32).find? (bit a.toNat)).getD (2 ^ 32 - 1)) =
    match (List.range 32).find? a.getLsbD with | some k => BitVec.ofNat 32 k | none => 0xFFFFFFFF := word_getD_ones _

/-- The highest set bit below `n`, searched from above, is the logarithm. -/
theorem find?_testBit_reverse_range {v : Nat} (hv : v ≠ 0) : ∀ {n : Nat}, v < 2 ^ n → (List.range n).reverse.find? v.testBit = some (Nat.log2 v) := by
  intro n
  induction n with
  | zero => intro h; omega
  | succ n ih =>
    intro h
    rw [List.range_succ, List.reverse_append, List.reverse_singleton, List.singleton_append]
    by_cases hn : v < 2 ^ n
    · rw [List.find?_cons_of_neg (by simp [Nat.testBit_lt_two_pow hn]), ih hn]
    · have hlog : Nat.log2 v = n := (Nat.log2_eq_iff hv).mpr ⟨Nat.le_of_not_lt hn, h⟩
      rw [List.find?_cons_of_pos (by rw [← hlog]; exact Nat.testBit_log2 hv), hlog]

theorem word_highbit (a : Word) : word (if a.toNat = 0 then 2 ^ 32 - 1 else bitLen a.toNat - 1) =
    match (List.range 32).reverse.find? a.getLsbD with | some k => BitVec.ofNat 32 k | none => 0xFFFFFFFF := by
  by_cases hzero : a.toNat = 0
  · have ha : a = 0 := BitVec.eq_of_toNat_eq hzero
    subst ha
    rfl
  · have hfind : (List.range 32).reverse.find? a.getLsbD = some (Nat.log2 a.toNat) := find?_testBit_reverse_range hzero a.isLt
    rw [if_neg hzero, hfind, bitLen, if_neg hzero, Nat.add_sub_cancel, word]

end Sys2Proof.Machine

namespace Sys2Proof.Machine
open Sys2Proof.Claims

/-! Operands are words (R240, R243, R245) -/

theorem leAt_lt (bs : List Byte) (i n : Nat) : leAt bs i n < 256 ^ n := by
  induction n generalizing i with
  | zero => exact Nat.one_pos
  | succ n ih =>
    have hlow : byteAt bs i < 256 := (bs.getD i 0).isLt
    have hhigh := ih (i + 1)
    rw [leAt, Nat.pow_succ]
    omega

theorem State.fetch_lit_lt {s : State} {j : Job} {pc ins next : Nat} {lit : Option Nat} (h : s.fetch j pc = .ins ins lit next) : lit.getD 0 < 2 ^ 32 := by
  unfold State.fetch at h
  split at h
  · cases h
  · dsimp only at h
    split at h
    · split at h
      · cases h
      · obtain ⟨_, hlit, _⟩ := Fetched.ins.inj h
        rw [← hlit]
        exact leAt_lt ..
    · obtain ⟨_, hlit, _⟩ := Fetched.ins.inj h
      rw [← hlit]
      exact Nat.two_pow_pos 32

theorem Wave.vreg_lt (x : Wave) (r l : Nat) : x.vreg r l < 2 ^ 32 := by
  unfold Wave.vreg
  split
  · exact BitVec.isLt _
  · exact Nat.two_pow_pos 32

theorem Wave.sreg_lt (x : Wave) (r : Nat) : x.sreg r < 2 ^ 32 := by
  unfold Wave.sreg
  split
  · exact BitVec.isLt _
  · exact Nat.two_pow_pos 32

theorem inlineF32_lt (k : Nat) : inlineF32 k < 2 ^ 32 := by
  have hlisted : ∀ k < 10, inlineF32 k < 2 ^ 32 := by decide
  by_cases hk : k < 10
  · exact hlisted k hk
  · rw [inlineF32, List.getD_eq_default _ _ (by simpa using hk)]
    exact Nat.two_pow_pos 32

theorem Issue.src_lt {i : Issue} (hlit : i.lit.getD 0 < 2 ^ 32) (code : Nat) {l : Nat} (hl : l < 2 ^ 32) : i.src false code l < 2 ^ 32 := by
  unfold Issue.src
  split
  · exact Wave.vreg_lt ..
  split
  · exact Wave.sreg_lt ..
  split
  · omega
  split
  · omega
  split
  · exact inlineF32_lt _
  split
  · exact BitVec.isLt _
  split
  · exact hl
  · exact hlit

theorem mem_lanesOf {m : BitVec 32} {l : Nat} : l ∈ lanesOf m ↔ l < 32 ∧ m.getLsbD l = true := by rw [lanesOf, List.mem_filter, List.mem_range]

/-! Results of vector instructions (R240, R242, R244) -/

theorem Wave.setV_congr (x : Wave) (r l : Nat) {v v' : Nat} (h : word v = word v') : x.setV r l v = x.setV r l v' := by rw [Wave.setV, Wave.setV, h]

/-- D holds 32-bit words: what an instruction writes counts modulo 2^32. -/
theorem withLanes_congr {i : Issue} {g g' : Nat → Nat} (h : ∀ l ∈ lanesOf i.active, word (g l) = word (g' l)) : withLanes i g = withLanes i g' :=
  List.foldl_ext _ _ _ fun x l hl => x.setV_congr _ l (h l hl)

section Vector
variable {u s : State} {c : Fin 16} {w op : Nat} {i : Issue}

theorem Issue.lit_lt_of_issued {fmt : Nat} (h : issued u c w fmt op = some (i, s)) : i.lit.getD 0 < 2 ^ 32 :=
  State.fetch_lit_lt (issues_of_issued h).fetch

theorem State.vec_of_issued (h : issued u c w 0 op = some (i, s)) (kd : VecKind) (f : Nat → Nat → Nat → Nat → Nat → Nat) :
    u.vec c w op kd f = .next (if i.vecOk kd then s.advance i (withLanes i fun l =>
      i.satd kd (f (i.f 5 4) (i.vsrc kd 0 l) (i.vsrc kd 1 l) (i.vsrc kd 2 l) (i.wave.vreg (i.f 47 40) l))) else s.badIns i) := by
  rw [State.vec, State.issue_of_issued h]
  cases i.vecOk kd <;> rfl

/-- Sources of an integer instruction are words: no modifier acts on them (R244, R246). -/
theorem Issue.vsrc_int_lt (h : issued u c w 0 op = some (i, s)) (n k : Nat) {l : Nat} (hl : l < 32) : i.vsrc { int1 with n := n } k l < 2 ^ 32 := by
  have hsrc : ∀ code, i.src false code l < 2 ^ 32 := fun code => Issue.src_lt (Issue.lit_lt_of_issued h) code (hl.trans (by decide))
  match k with
  | 0 => exact hsrc _
  | 1 => exact hsrc _
  | _ + 2 => exact hsrc _

end Vector

section Rows
variable {ins : Fin 16 → Nat → Instr} {op : Nat}

theorem vecRow_of_vec {kd : VecKind} {f : Nat → Nat → Nat → Nat → Nat → Nat} (hins : ∀ c w u, exec (ins c w) u = u.vec c w op kd f) :
    VecRow ins op kd f :=
  fun c w u _ _ h => (hins c w u).trans (State.vec_of_issued h kd f)

/-- An integer instruction's numbers are an operation on words where they agree modulo 2^32 on words. -/
theorem intRow_of_word {n : Nat} {g : Nat → Nat → Nat → Nat → Nat → Nat} {f : Word → Word → Word → Word}
    (hins : ∀ c w u, exec (ins c w) u = u.vec c w op { int1 with n := n } g)
    (hword : ∀ rnd (x y z : Word) d, word (g rnd x.toNat y.toNat z.toNat d) = f x y z) : IntRow ins op { int1 with n := n } f := by
  intro c w u s i h
  rw [Answers, hins, State.vec_of_issued h]
  congr 3
  refine withLanes_congr fun l hl => ?_
  have hsrc : ∀ k, i.vsrc { int1 with n := n } k l = (word (i.vsrc { int1 with n := n } k l)).toNat :=
    fun k => (toNat_word_of_lt (Issue.vsrc_int_lt h n k (mem_lanesOf.mp hl).1)).symm
  have hsat : ∀ v, i.satd { int1 with n := n } v = v := fun v => by unfold Issue.satd; split <;> rfl
  rw [hsat, word_toNat, ← hword, ← hsrc, ← hsrc, ← hsrc]

end Rows

/-- Settles O9: it holds, each row by the fact about its operation on words. -/
theorem vectorIntegerResults : Obligations.VectorIntegerResults :=
  ⟨intRow_of_word exec_movB32 fun _ a _ _ _ => word_toNat a, intRow_of_word exec_addI32 fun _ a b _ _ => word_add a b,
    intRow_of_word exec_subI32 fun _ a b _ _ => word_sub a b, intRow_of_word exec_mulLoU32 fun _ a b _ _ => word_mul a b,
    intRow_of_word exec_mulHiU32 fun _ a b _ _ => word_mulHiU a b, intRow_of_word exec_mulHiI32 fun _ a b _ _ => word_mulHiI a b,
    intRow_of_word exec_madU32 fun _ a b c _ => word_mad a b c, intRow_of_word exec_minI32 fun _ a b _ _ => word_minI a b,
    intRow_of_word exec_maxI32 fun _ a b _ _ => word_maxI a b, intRow_of_word exec_minU32 fun _ a b _ _ => word_minU a b,
    intRow_of_word exec_maxU32 fun _ a b _ _ => word_maxU a b, intRow_of_word exec_andIns fun _ a b _ _ => word_and a b,
    intRow_of_word exec_orIns fun _ a b _ _ => word_or a b, intRow_of_word exec_xor fun _ a b _ _ => word_xor a b,
    intRow_of_word exec_notIns fun _ a _ _ _ => word_not a, intRow_of_word exec_shl fun _ a b _ _ => word_shl a b,
    intRow_of_word exec_shrU fun _ a b _ _ => word_shrU a b, intRow_of_word exec_shrI fun _ a b _ _ => word_shrI a b,
    intRow_of_word exec_fieldU32 fun _ a b c _ => word_fieldU a b c, intRow_of_word exec_fieldI32 fun _ a b c _ => word_fieldI a b c,
    intRow_of_word exec_merge fun _ a b c _ => word_merge a b c, intRow_of_word exec_popc fun _ a _ _ _ => word_popc a,
    intRow_of_word exec_lowbit fun _ a _ _ _ => word_lowbit a, intRow_of_word exec_highbit fun _ a _ _ _ => word_highbit a⟩

end Sys2Proof.Machine

namespace Sys2Proof.Machine
open Sys2Proof.Claims

/-! What a vector result leaves (R240, R242) -/

theorem Wave.setV_eq (x : Wave) (r l v : Nat) : ∃ m, x.setV r l v = { x with v := m } := by
  unfold Wave.setV
  split
  · exact ⟨_, rfl⟩
  · exact ⟨x.v, rfl⟩

theorem Wave.vreg_setV (x : Wave) {r l d k : Nat} (v : Nat) (hl : l < 32) (hk : k < 32) :
    (x.setV d k v).vreg r l = if (r = d ∧ r < x.stage.vregs) ∧ l = k then v % 2 ^ 32 else x.vreg r l := by
  by_cases hd : d < x.stage.vregs
  case neg =>
    rw [Wave.setV, if_neg hd, if_neg]
    rintro ⟨⟨rfl, hr⟩, -⟩
    exact hd hr
  case pos =>
    rw [Wave.setV, if_pos hd]
    by_cases hr : r < x.stage.vregs
    case neg => simp [Wave.vreg, hr]
    case pos =>
      by_cases hsame : r = d ∧ l = k
      · obtain ⟨rfl, rfl⟩ := hsame
        simp [Wave.vreg, hr]
      · have hkey : r * 32 + l ≠ d * 32 + k := by omega
        rw [if_neg (fun h => hsame ⟨h.1.1, h.2⟩)]
        simp only [Wave.vreg, hr, if_true, Map.get_setD_ne _ _ _ hkey]

/-- Lanes written one after another into register `d`, and nothing else. -/
def Wave.setLanes (x : Wave) (d : Nat) (g : Nat → Nat) (ls : List Nat) : Wave := ls.foldl (fun x l => x.setV d l (g l)) x

theorem withLanes_eq_setLanes (i : Issue) (g : Nat → Nat) : withLanes i g = i.wave.setLanes (i.f 47 40) g (lanesOf i.active) := rfl

theorem Wave.setLanes_eq (x : Wave) (d : Nat) (g : Nat → Nat) (ls : List Nat) : ∃ m, x.setLanes d g ls = { x with v := m } := by
  induction ls generalizing x with
  | nil => exact ⟨x.v, rfl⟩
  | cons a ls ih =>
    obtain ⟨m, hhead⟩ := x.setV_eq d a (g a)
    obtain ⟨m', htail⟩ := ih { x with v := m }
    exact ⟨m', by rw [Wave.setLanes, List.foldl_cons, hhead]; exact htail⟩

theorem Wave.vreg_setLanes (x : Wave) {r l d : Nat} (g : Nat → Nat) (hl : l < 32) {ls : List Nat} (hls : ∀ k ∈ ls, k < 32) :
    (x.setLanes d g ls).vreg r l = if (r = d ∧ r < x.stage.vregs) ∧ l ∈ ls then g l % 2 ^ 32 else x.vreg r l := by
  induction ls generalizing x with
  | nil => rw [if_neg (fun h => List.not_mem_nil h.2)]; rfl
  | cons a ls ih =>
    obtain ⟨ha, hls⟩ := List.forall_mem_cons.mp hls
    have hstage : (x.setV d a (g a)).stage = x.stage := by
      obtain ⟨m, hset⟩ := x.setV_eq d a (g a)
      rw [hset]
    rw [Wave.setLanes, List.foldl_cons, ← Wave.setLanes, ih _ hls, hstage, x.vreg_setV _ hl ha]
    by_cases hd : r = d ∧ r < x.stage.vregs
    · obtain ⟨rfl, hr⟩ := hd
      by_cases hla : l = a
      · simp [hr, hla]
      · simp [hr, hla]
    · rw [if_neg (fun h => hd h.1), if_neg (fun h => hd h.1), if_neg (fun h => hd h.1)]

/-- Settles O12: it holds; each lane's write is one of D's, and nothing else of the wave is written. -/
theorem vectorWritesActiveLanesOnly : Obligations.VectorWritesActiveLanesOnly := by
  intro i g r l hl
  refine ⟨?_, ?_⟩
  · rw [withLanes_eq_setLanes, Wave.vreg_setLanes _ _ hl fun k hk => (mem_lanesOf.mp hk).1]
    simp only [mem_lanesOf, hl, true_and, and_assoc]
  · obtain ⟨m, hrest⟩ := i.wave.setLanes_eq (i.f 47 40) g (lanesOf i.active)
    rw [withLanes_eq_setLanes, hrest]
    exact ⟨rfl, rfl, rfl, rfl, rfl⟩

/-! Selection, lanes and varyings (R247, R250) -/

section Selection
variable {u s : State} {c : Fin 16} {w : Nat} {i : Issue}

theorem sel_answers (h : issued u c w 0 0x18 = some (i, s)) (hok : i.vecOk int2 = true) (hzero : i.f 21 16 = 0) :
    Answers (.sel c w) u (s.advance i (withLanes i fun l => if (i.wave.pred (i.f 15 13)).getLsbD l then i.vsrc int2 0 l else i.vsrc int2 1 l)) := by
  rw [Answers, exec_sel, execSel, State.issue_of_issued h, hok, hzero]
  rfl

theorem laneGet_answers (h : issued u c w 0 0x19 = some (i, s)) (hok : i.vecOk int2 = true) (hscalar : bit i.ins 47 = false) :
    Answers (.laneGet c w) u (s.advance i (i.wave.setS (i.f 46 40) (i.vsrc int2 0 (i.vsrc int2 1 ((lanesOf i.active).headD 0) % 32)))) := by
  rw [Answers, exec_laneGet, execLaneGet, State.issue_of_issued h, hok, hscalar]
  rfl

theorem laneLow_answers (h : issued u c w 0 0x1A = some (i, s)) (hok : i.vecOk int1 = true) (hscalar : bit i.ins 47 = false) :
    Answers (.laneLow c w) u (s.advance i (i.wave.setS (i.f 46 40) (((lanesOf i.active).head?.map (i.vsrc int1 0)).getD 0))) := by
  rw [Answers, exec_laneLow, execLaneLow, State.issue_of_issued h, hok, hscalar]
  cases lanesOf i.active <;> rfl

theorem interpF32_answers (h : issued u c w 0 0x90 = some (i, s)) (hok : i.vecOk flt1 = true) {f : FragWave} {o l : BitVec 32} {b : Bool}
    (hwork : i.wave.work = .fragment f o l b) {pa : Pass} (hpass : i.job.pass = some pa) {d : Draw} (hdraw : pa.draws[f.draw]? = some d) {k : Nat}
    (hk : k < 64) (hsrc : i.src false (i.f 39 31) 0 = k) (hinline : (0x180 ≤ i.f 39 31 ∧ i.f 39 31 < 0x1A0) ∨ (i.f 39 31 = 0x1FF ∧ i.lit.isSome = true)) :
    Answers (.interpF32 c w) u (s.advance i (withLanes i fun l => i.satd flt1 (match f.quads[l / 4]? with
      | some q => if d.exported q (k / 4) then ((atD q.lanes (l % 4) { cover := 0, depth := [], z := 0, invw := 0, vars := [] }).vars.getD k 0).toNat else 0
      | none => 0))) := by
  have hform : (decide (0x180 ≤ i.f 39 31) && decide (i.f 39 31 < 0x1A0) || (i.f 39 31 == 0x1FF && i.lit.isSome)) = true := by simpa using hinline
  have hvalid : (!(i.vecOk flt1 && (decide (0x180 ≤ i.f 39 31) && decide (i.f 39 31 < 0x1A0) || (i.f 39 31 == 0x1FF && i.lit.isSome)) &&
      decide (k < 64))) = false := by rw [hok, hform, decide_eq_true hk]; rfl
  rw [Answers, exec_interpF32, execInterpF32, State.issue_of_issued h]
  simp only [hwork, hpass, hdraw, hsrc, hvalid, Bool.false_eq_true, if_false, withLanes]
  refine congrArg (fun x : Wave => Host.Outcome.next (s.advance i x)) (List.foldl_ext _ _ _ fun x l _ => ?_)
  cases f.quads[l / 4]? <;> rfl

end Selection

/-- Settles O10: it holds, each clause by the lemma of its row. The model's choice, and not the manual's words, are that LANE.GET takes a lane number that is a
vector register from the lowest active lane, and that INTERP.F32's k is an inline integer or the literal (log entries 67 and 68). -/
theorem laneSelectionResults : Obligations.LaneSelectionResults := fun _ _ _ _ _ =>
  ⟨sel_answers, laneGet_answers, laneLow_answers,
    fun _ _ _ _ _ _ _ h hok hwork hpass hdraw hk hsrc hinline => interpF32_answers h hok hwork hpass hdraw hk hsrc hinline⟩

end Sys2Proof.Machine

namespace Sys2Proof.Machine
open Sys2Proof.Claims

/-! Masks of lanes (R242) -/

theorem sum_places_succ (f : Nat → Bool) (n : Nat) : ((List.range (n + 1)).map fun i => if f i then 2 ^ i else 0).sum =
    (f 0).toNat + 2 * ((List.range n).map fun i => if f (i + 1) then 2 ^ i else 0).sum := by
  rw [List.range_succ_eq_map, List.map_cons, List.sum_cons, List.map_map, ← List.sum_map_mul_left]
  congr 1
  · cases f 0 <;> rfl
  · congr 1
    refine List.map_congr_left fun i _ => ?_
    cases h : f (i + 1) <;> simp [h, Nat.pow_succ, Nat.mul_comm]

theorem testBit_sum_places (f : Nat → Bool) (n k : Nat) :
    (((List.range n).map fun i => if f i then 2 ^ i else 0).sum).testBit k = (decide (k < n) && f k) := by
  induction n generalizing f k with
  | zero => simp
  | succ n ih =>
    rw [sum_places_succ]
    cases k with
    | zero => cases h : f 0 <;> simp [Nat.testBit_zero]
    | succ k =>
      have hhalf : ∀ v, ((f 0).toNat + 2 * v) / 2 = v := fun v => by have := Bool.toNat_lt (f 0); omega
      rw [Nat.testBit_succ, hhalf, ih]
      simp

theorem getLsbD_laneMask (f : Nat → Bool) (l : Nat) : (laneMask f).getLsbD l = (decide (l < 32) && f l) := by
  rw [laneMask, BitVec.getLsbD_ofNat, testBit_sum_places]
  cases decide (l < 32) <;> rfl

theorem laneMask_congr {f g : Nat → Bool} (h : ∀ l < 32, f l = g l) : laneMask f = laneMask g := by
  refine BitVec.eq_of_getLsbD_eq fun l hl => ?_
  rw [getLsbD_laneMask, getLsbD_laneMask, h l hl]

/-! Compares (R246, R247) -/

section Compare
variable {u s : State} {c : Fin 16} {w op : Nat} {i : Issue} {kd : VecKind} {f : Nat → Nat → Bool}

theorem State.vecCmp_of_issued (h : issued u c w 0 op = some (i, s)) (kd : VecKind) (f : Nat → Nat → Bool) :
    u.vecCmp c w op kd f = .next (if i.vecOk kd then s.advance i (i.wave.setPred (i.f 42 40)
      ((i.wave.pred (i.f 42 40) &&& ~~~i.active) ||| laneMask fun l => i.active.getLsbD l && f (i.vsrc kd 0 l) (i.vsrc kd 1 l))) else s.badIns i) := by
  rw [State.vecCmp, State.issue_of_issued h]
  cases i.vecOk kd <;> rfl

/-- Merging into a predicate under a mask changes the mask's lanes only. -/
theorem getLsbD_merge_laneMask (p m : BitVec 32) (g : Nat → Bool) {l : Nat} (hl : l < 32) :
    ((p &&& ~~~m) ||| laneMask fun l => m.getLsbD l && g l).getLsbD l = if m.getLsbD l then g l else p.getLsbD l := by
  rw [BitVec.getLsbD_or, BitVec.getLsbD_and, BitVec.getLsbD_not, getLsbD_laneMask]
  cases m.getLsbD l <;> simp [hl]

theorem cmpRow_of_vecCmp {ins : Fin 16 → Nat → Instr} (hins : ∀ c w u, exec (ins c w) u = u.vecCmp c w op kd f) : CmpRow ins op kd f := by
  intro c w u s i h
  have hexec := (hins c w u).trans (State.vecCmp_of_issued h kd f)
  exact ⟨fun hbad => by rw [Answers, hexec, hbad]; rfl,
    fun hok => ⟨_, by rw [Answers, hexec, hok]; rfl, fun l hl => getLsbD_merge_laneMask _ _ _ hl⟩⟩

end Compare

theorem Fp.lt_nan_right (x : Fp) : x.lt .nan = false := by cases x <;> rfl
theorem Fp.lt_nan_left (x : Fp) : Fp.nan.lt x = false := by cases x <;> rfl
theorem Fp.eq_nan_right (x : Fp) : x.eq .nan = false := by cases x <;> rfl
theorem Fp.eq_nan_left (x : Fp) : Fp.nan.eq x = false := by cases x <;> rfl

theorem FpFmt.decode_of_isNan {f : FpFmt} {v : Nat} (h : f.isNan v = true) : f.decode v = .nan := eq_of_beq h

theorem FpFmt.cmp_of_unordered {f : FpFmt} {a b : Nat} (hlt : (f.decode a).lt (f.decode b) = false) (hgt : (f.decode b).lt (f.decode a) = false)
    (heq : (f.decode a).eq (f.decode b) = false) {op : Nat} (hop : op < 6) : f.cmp op a b = (op == 4) := by
  interval_cases op <;> simp [FpFmt.cmp, hlt, hgt, heq]

/-- Every comparison with a NaN is false, except NE. -/
theorem FpFmt.cmp_nan {f : FpFmt} {a b : Nat} (h : f.isNan a = true ∨ f.isNan b = true) {op : Nat} (hop : op < 6) : f.cmp op a b = (op == 4) := by
  obtain ha | hb := h
  · have hnan := FpFmt.decode_of_isNan ha
    exact FpFmt.cmp_of_unordered (hnan ▸ Fp.lt_nan_left _) (hnan ▸ Fp.lt_nan_right _) (hnan ▸ Fp.eq_nan_left _) hop
  · have hnan := FpFmt.decode_of_isNan hb
    exact FpFmt.cmp_of_unordered (hnan ▸ Fp.lt_nan_right _) (hnan ▸ Fp.lt_nan_left _) (hnan ▸ Fp.eq_nan_right _) hop

theorem vectorCompareResults : VectorCompareResults :=
  ⟨cmpRow_of_vecCmp exec_cmpLtF32, cmpRow_of_vecCmp exec_cmpEqF32, cmpRow_of_vecCmp exec_cmpLeF32, cmpRow_of_vecCmp exec_cmpGtF32,
    cmpRow_of_vecCmp exec_cmpNeF32, cmpRow_of_vecCmp exec_cmpGeF32, cmpRow_of_vecCmp exec_cmpLtI32, cmpRow_of_vecCmp exec_cmpEqI32,
    cmpRow_of_vecCmp exec_cmpLeI32, cmpRow_of_vecCmp exec_cmpGtI32, cmpRow_of_vecCmp exec_cmpNeI32, cmpRow_of_vecCmp exec_cmpGeI32,
    cmpRow_of_vecCmp exec_cmpLtU32, cmpRow_of_vecCmp exec_cmpEqU32, cmpRow_of_vecCmp exec_cmpLeU32, cmpRow_of_vecCmp exec_cmpGtU32,
    cmpRow_of_vecCmp exec_cmpNeU32, cmpRow_of_vecCmp exec_cmpGeU32, fun _ _ h _ hop => FpFmt.cmp_nan h hop⟩

/-! Floating-point arithmetic and conversions (R247) -/

theorem vectorFloatResults : VectorFloatResults :=
  ⟨vecRow_of_vec exec_addF32, vecRow_of_vec exec_subF32, vecRow_of_vec exec_mulF32, vecRow_of_vec exec_fmaF32, vecRow_of_vec exec_minF32,
    vecRow_of_vec exec_maxF32, vecRow_of_vec exec_fractF32, vecRow_of_vec exec_floor, vecRow_of_vec exec_ceil, vecRow_of_vec exec_trunc,
    vecRow_of_vec exec_round, vecRow_of_vec exec_h2Add, vecRow_of_vec exec_h2Mul, vecRow_of_vec exec_h2Fma, vecRow_of_vec exec_h2Min,
    vecRow_of_vec exec_h2Max, vecRow_of_vec exec_dothF32⟩

theorem vectorConversionResults : VectorConversionResults :=
  ⟨vecRow_of_vec exec_recipF32, vecRow_of_vec exec_rsqrtF32, vecRow_of_vec exec_sqrtF32, vecRow_of_vec exec_exp2F32, vecRow_of_vec exec_log2F32,
    vecRow_of_vec exec_sinturnF32, vecRow_of_vec exec_costurnF32, vecRow_of_vec exec_cvtF32I32, vecRow_of_vec exec_cvtF32U32,
    vecRow_of_vec exec_cvtI32F32, vecRow_of_vec exec_cvtU32F32, vecRow_of_vec exec_cvtF32F16Lo, vecRow_of_vec exec_cvtF32F16Hi,
    vecRow_of_vec exec_cvtH2F32, vecRow_of_vec exec_cvtUnorm8, vecRow_of_vec exec_unpackUnorm8, vecRow_of_vec exec_cvtUnorm16⟩

/-! The transcendental group's inputs (R247): subnormals count as zeros -/

theorem flushF32_cases (v : Nat) : v % 2 ^ 31 < 2 ^ 23 ∧ flushF32 v = v / 2 ^ 31 * 2 ^ 31 ∨ 2 ^ 23 ≤ v % 2 ^ 31 ∧ flushF32 v = v := by
  have hflush : flushF32 v = if v % 2 ^ 31 < 2 ^ 23 then v / 2 ^ 31 * 2 ^ 31 else v := rfl
  rw [hflush]
  split <;> omega

@[simp] theorem flushF32_flushF32 (v : Nat) : flushF32 (flushF32 v) = flushF32 v := by
  have hv := flushF32_cases v
  have hflushed := flushF32_cases (flushF32 v)
  omega

theorem decode_f32 (v : Nat) : f32.decode v =
    if v / 2 ^ 23 % 2 ^ 8 = 255 then (if v % 2 ^ 23 = 0 then .inf (decide (2 ^ 31 ≤ v % 2 ^ 32)) else .nan)
    else if v / 2 ^ 23 % 2 ^ 8 = 0 then .fin (decide (2 ^ 31 ≤ v % 2 ^ 32)) (v % 2 ^ 23) (-149)
    else .fin (decide (2 ^ 31 ≤ v % 2 ^ 32)) (v % 2 ^ 23 + 2 ^ 23) ((v / 2 ^ 23 % 2 ^ 8 : Nat) - 1 - 149) := rfl

theorem flushF32_of_isNan {v : Nat} (h : f32.isNan v = true) : flushF32 v = v := by
  have hexp : v / 2 ^ 23 % 2 ^ 8 = 255 := by
    by_contra hne
    have hnan := FpFmt.decode_of_isNan h
    rw [decode_f32, if_neg hne] at hnan
    split at hnan <;> cases hnan
  have hv := flushF32_cases v
  omega

/-- The sign of a number is its pattern's top bit. -/
theorem neg_decode_f32 {v : Nat} (h : f32.decode v ≠ .nan) : (f32.decode v).neg = decide (2 ^ 31 ≤ v % 2 ^ 32) := by
  rw [decode_f32] at h ⊢
  split
  · split
    · rfl
    · rename_i hexp hmant
      rw [if_pos hexp, if_neg hmant] at h
      exact absurd rfl h
  · split <;> rfl

theorem mantissa_pos_of_decode {v m : Nat} {neg : Bool} {e : Int} (h : f32.decode v = .fin neg m e) (hv : v % 2 ^ 31 ≠ 0) : m ≠ 0 := by
  rw [decode_f32] at h
  split at h
  · split at h <;> cases h
  · split at h
    · cases h
      omega
    · cases h
      omega

/-- A free choice within some places of a rounded result is one of those places (log entry 63). -/
theorem nearF32_eq_stepF32 (ulps op a v : Nat) : ∃ k : Int, -(ulps : Int) ≤ k ∧ k ≤ ulps ∧ nearF32 ulps op a v = stepF32 v k := by
  have hlt : (Config.transc op a).toNat % (2 * ulps + 1) < 2 * ulps + 1 := Nat.mod_lt _ (by omega)
  exact ⟨_, by omega, by omega, rfl⟩

/-- The transcendental group (R247). -/
def transcendentals : List (Nat → Nat) := [fRecip, fRsqrt, fSqrt, fExp2, fLog2, fSinTurn 0x55 false, fSinTurn 0x56 true]

theorem transcendental_flushF32 (v : Nat) : ∀ f ∈ transcendentals, f v = f (flushF32 v) := by
  simp only [transcendentals, List.forall_mem_cons]
  refine ⟨?_, ?_, ?_, ?_, ?_, ?_, ?_, fun _ h => nomatch h⟩
  all_goals simp only [fRecip, fRsqrt, fSqrt, fExp2, fLog2, fSinTurn, flushF32_flushF32]

theorem transcendental_nan {v : Nat} (h : f32.isNan v = true) : ∀ f ∈ transcendentals, f v = 0x7FC00000 := by
  have hdecode : f32.decode (flushF32 v) = .nan := by rw [flushF32_of_isNan h, FpFmt.decode_of_isNan h]
  simp only [transcendentals, List.forall_mem_cons]
  refine ⟨?_, ?_, ?_, ?_, ?_, ?_, ?_, fun _ h => nomatch h⟩
  all_goals simp only [fRecip, fRsqrt, fSqrt, fExp2, fLog2, fSinTurn, hdecode]; rfl

theorem fRecip_fLog2_of_zero {v : Nat} {neg : Bool} {e : Int} (h : f32.decode (flushF32 v) = .fin neg 0 e) :
    fRecip v = f32.signed neg f32.inf ∧ fLog2 v = f32.signed true f32.inf := by
  constructor
  · simp only [fRecip, h, if_true]
  · simp only [fLog2, h, if_true]

theorem fRsqrt_fSqrt_of_negative {v : Nat} (hv : v < 2 ^ 32) (hneg : 0x80000000 < flushF32 v) : fRsqrt v = 0x7FC00000 ∧ fSqrt v = 0x7FC00000 := by
  have hflush := flushF32_cases v
  have hsign : f32.decode (flushF32 v) ≠ .nan → (f32.decode (flushF32 v)).neg = true := fun h =>
    (neg_decode_f32 h).trans (decide_eq_true (by omega))
  match hx : f32.decode (flushF32 v) with
  | .nan => exact ⟨by simp only [fRsqrt, hx]; rfl, by simp only [fSqrt, hx]; rfl⟩
  | .inf n =>
    obtain rfl : n = true := by simpa [hx, Fp.neg] using hsign
    exact ⟨by simp only [fRsqrt, hx]; rfl, by simp only [fSqrt, hx]; rfl⟩
  | .fin n m e =>
    obtain rfl : n = true := by simpa [hx, Fp.neg] using hsign
    have hm : m ≠ 0 := mantissa_pos_of_decode hx (by omega)
    exact ⟨by simp only [fRsqrt, hx, if_neg hm]; rfl, by simp only [fSqrt, hx, if_neg hm]; rfl⟩

theorem fRecip_near {v m : Nat} {neg : Bool} {e : Int} (h : f32.decode (flushF32 v) = .fin neg m e) (hm : m ≠ 0) :
    ∃ k : Int, -1 ≤ k ∧ k ≤ 1 ∧ fRecip v = stepF32 (f32.roundRat 0 neg 1 m (-e)) k := by
  simp only [fRecip, h, if_neg hm]
  exact nearF32_eq_stepF32 1 ..

theorem fRsqrt_near {v m : Nat} {e : Int} (h : f32.decode (flushF32 v) = .fin false m e) (hm : m ≠ 0) :
    ∃ k : Int, -2 ≤ k ∧ k ≤ 2 ∧ fRsqrt v = stepF32 (f32.roundRat 0 false 1 (sqrtParts m e).1 (-(sqrtParts m e).2)) k := by
  simp only [fRsqrt, h, if_neg hm, Bool.false_eq_true, if_false]
  generalize sqrtParts m e = parts
  obtain ⟨r, x⟩ := parts
  exact nearF32_eq_stepF32 2 ..

theorem fSqrt_near {v m : Nat} {e : Int} (h : f32.decode (flushF32 v) = .fin false m e) (hm : m ≠ 0) :
    ∃ k : Int, -1 ≤ k ∧ k ≤ 1 ∧
      fSqrt v = stepF32 (f32.round 0 false (sqrtParts m e).1 (sqrtParts m e).2 ((sqrtParts m e).1 * (sqrtParts m e).1 != m * 2 ^ 128)) k := by
  simp only [fSqrt, h, if_neg hm, Bool.false_eq_true, if_false]
  generalize sqrtParts m e = parts
  obtain ⟨r, x⟩ := parts
  exact nearF32_eq_stepF32 1 ..

theorem transcendentalValues : TranscendentalValues := fun v hv =>
  ⟨transcendental_flushF32 v, transcendental_nan,
    fun hzero => fRecip_fLog2_of_zero (neg := false) (congrArg f32.decode hzero),
    fun hzero => fRecip_fLog2_of_zero (neg := true) (congrArg f32.decode hzero),
    fun hneg _ => fRsqrt_fSqrt_of_negative hv hneg,
    fun _ _ _ hfin hm => ⟨fRecip_near hfin hm, fun hpos => by subst hpos; exact ⟨fRsqrt_near hfin hm, fSqrt_near hfin hm⟩⟩⟩

/-- Settles O11: it holds, each row by its instruction's one form. Which of the numbers within the table's accuracy a transcendental instruction gives is the
model's choice, and not the manual's words (log entry 63). -/
theorem vectorFloatAndCompareResults : Obligations.VectorFloatAndCompareResults :=
  ⟨vectorFloatResults, vectorConversionResults, transcendentalValues, vectorCompareResults⟩

end Sys2Proof.Machine

namespace Sys2Proof.Machine
open Sys2Proof.Claims

/-! Scalar instructions (R244, R246, R247) -/

theorem Wave.setS_congr (x : Wave) (r : Nat) {v v' : Nat} (h : word v = word v') : x.setS r v = x.setS r v' := by rw [Wave.setS, Wave.setS, h]

theorem not_sclOk (i : Issue) (n : Nat) :
    (bit i.ins 53 || (decide (1 ≤ n) && !codeOk true i.lit (i.f 40 32)) || (decide (2 ≤ n) && !codeOk true i.lit (i.f 31 23))) = !sclOk i n := by
  match n with
  | 0 => simp [sclOk]
  | 1 => simp [sclOk]
  | n + 2 => simp [sclOk]

theorem word_cmpEq (a b : Word) : word (bit1 (a.toNat == b.toNat)) = if a = b then 1 else 0 := by
  by_cases h : a = b
  · simp [h, bit1, word]
  · have hne : a.toNat ≠ b.toNat := fun he => h (BitVec.eq_of_toNat_eq he)
    simp [h, hne, bit1, word]

theorem word_cmpLtU (a b : Word) : word (bit1 (decide (a.toNat < b.toNat))) = if a < b then 1 else 0 := by
  by_cases h : a < b
  · simp [h, BitVec.lt_def.mp h, bit1, word]
  · simp [h, mt BitVec.lt_def.mpr h, bit1, word]

theorem word_cmpLtI (a b : Word) : word (bit1 (decide (signed 32 a.toNat < signed 32 b.toNat))) = if a.toInt < b.toInt then 1 else 0 := by
  by_cases h : a.toInt < b.toInt <;> simp [h, bit1, word]

section Scalar
variable {u s : State} {c : Fin 16} {w op n : Nat} {i : Issue}

theorem State.scl_eq_of_issued (h : issued u c w 1 op = some (i, s)) (n : Nat) (run : Issue → Nat → Nat → State → State) :
    u.scl c w op n run = .next (if sclOk i n then run i (i.src false (i.f 40 32) 0) (i.src false (i.f 31 23) 0) s else s.badIns i) := by
  rw [State.scl, State.issue_of_issued h, not_sclOk]
  cases sclOk i n <;> rfl

theorem toNat_srcA (h : issued u c w 1 op = some (i, s)) : (srcA i).toNat = i.src false (i.f 40 32) 0 :=
  toNat_word_of_lt (Issue.src_lt (Issue.lit_lt_of_issued h) _ (by decide))

theorem toNat_srcB (h : issued u c w 1 op = some (i, s)) : (srcB i).toNat = i.src false (i.f 31 23) 0 :=
  toNat_word_of_lt (Issue.src_lt (Issue.lit_lt_of_issued h) _ (by decide))

variable {ins : Fin 16 → Nat → Instr}

/-- A scalar instruction's number is an operation on words where it agrees modulo 2^32 on words. -/
theorem sclRow_of_word {g : Nat → Nat → Nat} {f : Word → Word → Word} (hins : ∀ c w u, exec (ins c w) u = u.sclOp c w op n g)
    (hword : ∀ x y : Word, word (g x.toNat y.toNat) = f x y) : SclRow ins op n f := by
  intro c w u s i h
  have hvalue : word (g (srcA i).toNat (srcB i).toNat) = word (f (srcA i) (srcB i)).toNat := (hword _ _).trans (word_toNat _).symm
  rw [Answers, hins, State.sclOp, State.scl_eq_of_issued h, ← toNat_srcA h, ← toNat_srcB h, i.wave.setS_congr _ hvalue]

theorem predRow_of_sclPred {f : BitVec 32 → BitVec 32 → BitVec 32} (hins : ∀ c w u, exec (ins c w) u = u.sclPred c w op f) : PredRow ins op f :=
  fun c w u _ _ h hok => (hins c w u).trans (State.scl_of_issued h hok _)

theorem branchRow_of_branch {take : Issue → Nat → Bool} {test : Issue → Bool} (hins : ∀ c w u, exec (ins c w) u = u.branch c w op n take)
    (htest : ∀ i, take i (srcA i).toNat = test i) : BranchRow ins op n test := by
  intro c w u s i h hok
  rw [Answers, hins, State.branch, State.scl_of_issued h hok, ← toNat_srcA h, htest]
  rfl

theorem sMovi_answers (h : issued u c w 1 0x01 = some (i, s)) (hok : sclOk i 0 = true) :
    Answers (.sMovi c w) u (s.advance i (i.wave.setS (i.f 47 41) (unsigned 32 (signed 23 (i.f 22 0))))) :=
  (exec_sMovi c w u).trans (State.scl_of_issued h hok _)

theorem pTos_answers (h : issued u c w 1 0x25 = some (i, s)) (hok : sclOk i 0 = true) :
    Answers (.pTos c w) u (s.advance i (i.wave.setS (i.f 47 41) (i.wave.pred (i.f 34 32)).toNat)) :=
  (exec_pTos c w u).trans (State.scl_of_issued h hok _)

theorem pFroms_answers (h : issued u c w 1 0x26 = some (i, s)) (hok : sclOk i 1 = true) :
    Answers (.pFroms c w) u (s.advance i (i.wave.setPred (i.f 43 41) (srcA i))) :=
  (exec_pFroms c w u).trans (State.scl_of_issued h hok _)

end Scalar

theorem scalarResults : ScalarResults :=
  ⟨sclRow_of_word exec_sMov fun a _ => word_toNat a, sclRow_of_word exec_sAdd word_add, sclRow_of_word exec_sSub word_sub,
    sclRow_of_word exec_sMulLo word_mul, sclRow_of_word exec_sAnd word_and, sclRow_of_word exec_sOr word_or, sclRow_of_word exec_sXor word_xor,
    sclRow_of_word exec_sShl word_shl, sclRow_of_word exec_sShrU word_shrU, sclRow_of_word exec_sMinU word_minU, sclRow_of_word exec_sMaxU word_maxU,
    sclRow_of_word exec_sCmpEq word_cmpEq, sclRow_of_word exec_sCmpLtU word_cmpLtU, sclRow_of_word exec_sCmpLtI word_cmpLtI,
    predRow_of_sclPred exec_pAnd, predRow_of_sclPred exec_pOr, predRow_of_sclPred exec_pXor, predRow_of_sclPred exec_pAndn,
    predRow_of_sclPred exec_pNot, fun _ _ _ _ _ => ⟨sMovi_answers, pTos_answers, pFroms_answers⟩⟩

theorem srcA_toNat_beq_zero (i : Issue) : ((srcA i).toNat == 0) = (srcA i == 0) := by
  rw [Bool.eq_iff_iff, beq_iff_eq, beq_iff_eq, BitVec.toNat_eq]
  rfl

theorem branchResults : BranchResults :=
  ⟨branchRow_of_branch exec_bra fun _ => rfl, branchRow_of_branch exec_braSz srcA_toNat_beq_zero,
    branchRow_of_branch exec_braSnz fun i => congrArg (!·) (srcA_toNat_beq_zero i), branchRow_of_branch exec_braPany fun _ => rfl,
    branchRow_of_branch exec_braPnone fun _ => rfl⟩

/-- Settles O13: it holds, each row by the fact about its operation on words, or by its test. -/
theorem scalarAndBranchResults : Obligations.ScalarAndBranchResults := ⟨scalarResults, branchResults⟩

end Sys2Proof.Machine

namespace Sys2Proof.Machine
open Sys2Proof.Claims

/-! Stage outputs (R249, R250) -/

/-- Whether a wave is at the stage of an output: a fragment shader for colour and depth, a vertex shader for position and varyings (R250). -/
def WaveWork.mayOutput (k : WaveWork) (frag : Bool) : Bool :=
  match k with
  | .vertex _ _ _ _ => !frag
  | .fragment _ _ _ _ => frag
  | .compute _ => false

/-- A stage output of `n` words into a slot: it fails its job outside its stage (R249, R250). -/
def Issue.outRun (i : Issue) (frag : Bool) (slot : Issue → Nat) (n : Nat) (s : State) : State :=
  if !i.wave.work.mayOutput frag then s.badIns i
  else s.advance i { i.wave with outs :=
    (i.writers.foldl (fun m l => Map.ins m (l * 32 + slot i) ((List.range n).map fun k => word (i.wave.vreg (i.f 47 40 + k) l))) i.wave.outs) }

theorem outRow_of_outRun {ins : Fin 16 → Nat → Instr} {op n : Nat} {frag : Bool} {slot : Issue → Nat}
    (hins : ∀ c w u, exec (ins c w) u = u.mem c w op 0 false fun i _ s => i.outRun frag slot n s) : OutRow ins op frag slot n := by
  intro c w u s i h hzero hstage
  have hmay : ¬ (!i.wave.work.mayOutput frag) = true := by
    rw [show i.wave.work.mayOutput frag = true from hstage]
    exact Bool.false_ne_true
  exact (hins c w u).trans ((State.mem_of_word h (Issue.baseOk_reserved hzero) _).trans (congrArg Host.Outcome.next (if_neg hmay)))

theorem stageOutputResults : StageOutputResults :=
  ⟨outRow_of_outRun exec_outPos, outRow_of_outRun exec_outVar, outRow_of_outRun exec_outColour, outRow_of_outRun exec_outDepth⟩

/-! Texture instructions (R244, R250-R252) -/

/-- What a lane of a texture instruction gets: its sample, or zeros and no residency where an entry is ill-formed (R252). -/
def texLane (entries : Option (TexEntry × SampEntry)) (lane : TexEntry → SampEntry → Nat → Except Nat (List Nat × Bool)) (l : Nat) :
    Except Nat (List Nat × Bool) :=
  match entries with
  | some (t, m) => lane t m l
  | none => .ok ([0, 0, 0, 0], false)

/-- What the lanes of a texture instruction read beside its entries. -/
def texReads (entries : Option (TexEntry × SampEntry)) (reads : TexEntry → SampEntry → Nat → List (Nat × Nat)) (ls : List Nat) : List (Nat × Nat) :=
  match entries with
  | some (t, m) => ls.flatMap (reads t m)
  | none => []

/-- The address at which one of some results is a translation fault. -/
def texFault (rs : List (Except Nat (List Nat × Bool))) : Option Nat := rs.findSome? fun r => match r with | .error a => some a | .ok _ => none

/-- The sample of a lane that meets no fault. -/
def texSample : Except Nat (List Nat × Bool) → List Nat × Bool
  | .ok v => v
  | .error _ => ([], false)

/-- The state after a texture instruction whose lanes got these samples: registers, residency predicate, program counter. -/
def State.texDone (b : State) (i : Issue) (vals : List (Nat × List Nat × Bool)) : State :=
  let x := vals.foldl (fun (x : Wave) v => x.putWords (i.f 47 40) v.1 v.2.1) i.wave
  let flag := laneMask fun l => vals.any fun v => v.1 == l && v.2.2
  (b.onDev fun d => { d with fresh := d.fresh + 128 }).advance i
    (if bit i.ins 15 then x.setPred (i.f 14 12) ((i.wave.pred (i.f 14 12) &&& ~~~i.active) ||| (flag &&& i.active)) else x)

/-- Lanes that all got a sample meet no fault. -/
theorem texFault_map_ok (val : Nat → List Nat × Bool) (ls : List Nat) : texFault (ls.map fun l => .ok (val l)) = none := by
  rw [texFault, List.findSome?_map]
  exact List.findSome?_eq_none_iff.mpr fun _ _ => rfl

section Texture
variable {u s b : State} {c : Fin 16} {w op : Nat} {i : Issue} {sampled : Bool} {te e : List Byte} {val : Nat → List Nat × Bool}

/-- A texture instruction whose lanes meet no fault and whose reads the texture cache can have is done with its lanes' samples. -/
theorem State.tex_of_issued (h : issued u c w 3 op = some (i, s)) (hzero : i.f 2 0 = 0) (hte : s.resource i (i.f 31 24) = some te)
    (he : (if sampled then s.resource i (i.f 23 16) else some []) = some e)
    {lane : Issue → TexEntry → SampEntry → Nat → State → Except Nat (List Nat × Bool)}
    {reads : Issue → TexEntry → SampEntry → Nat → State → List (Nat × Nat)}
    (hlanes : ∀ l ∈ lanesOf i.active, texLane (entriesOf sampled te e) (fun t m l => lane i t m l s) l = .ok (val l))
    (hfill : s.fillTex i.c i.job.ply
      (((i.wave.stage.table + 32 * i.f 31 24, 32) :: if sampled then [(i.wave.stage.table + 32 * i.f 23 16, 32)] else []) ++
        texReads (entriesOf sampled te e) (fun t m l => reads i t m l s) (lanesOf i.active)) = some b) :
    u.tex c w op sampled lane reads = .next (b.texDone i ((lanesOf i.active).map fun l => (l, val l))) := by
  have hresults := List.map_congr_left hlanes
  have hzip : (lanesOf i.active).zip ((lanesOf i.active).map val) = (lanesOf i.active).map fun l => (l, val l) := by
    simpa using List.zip_map' (f := id) (g := val) (l := lanesOf i.active)
  rw [State.tex, State.issue_of_issued h]
  simp only [hzero, hte, he, bne_self_eq_false, Bool.false_eq_true, if_false]
  change Host.Outcome.next (match texFault ((lanesOf i.active).map (texLane (entriesOf sampled te e) fun t m l => lane i t m l s)) with
    | some a => s.faultAt i.job.ply a 1 false .raster
    | none => match s.fillTex i.c i.job.ply (((i.wave.stage.table + 32 * i.f 31 24, 32) ::
        if sampled then [(i.wave.stage.table + 32 * i.f 23 16, 32)] else []) ++
          texReads (entriesOf sampled te e) (fun t m l => reads i t m l s) (lanesOf i.active)) with
      | none => s
      | some b => b.texDone i ((lanesOf i.active).zip
          (((lanesOf i.active).map (texLane (entriesOf sampled te e) fun t m l => lane i t m l s)).map texSample))) = _
  rw [hfill, hresults, texFault_map_ok, List.map_map, ← hzip]
  rfl

/-- A flag looked up among the active lanes' samples is that of the lane, where it is active. -/
theorem any_lanesOf (m : BitVec 32) (flag : Nat → Bool) {l : Nat} (hl : l < 32) :
    ((lanesOf m).any fun k => k == l && flag k) = (m.getLsbD l && flag l) := by
  rw [Bool.eq_iff_iff, List.any_eq_true, Bool.and_eq_true]
  constructor
  · rintro ⟨k, hk, hflag⟩
    obtain ⟨hkl, hkflag⟩ := (Bool.and_eq_true ..).mp hflag
    obtain rfl := eq_of_beq hkl
    exact ⟨(mem_lanesOf.mp hk).2, hkflag⟩
  · rintro ⟨hm, hflag⟩
    exact ⟨l, mem_lanesOf.mpr ⟨hl, hm⟩, by simp [hflag]⟩

theorem State.texDone_map (b : State) (i : Issue) (val : Nat → List Nat × Bool) :
    b.texDone i ((lanesOf i.active).map fun l => (l, val l)) =
      (b.onDev fun d => { d with fresh := d.fresh + 128 }).advance i
        (let x := (lanesOf i.active).foldl (fun (x : Wave) l => x.putWords (i.f 47 40) l (val l).1) i.wave
         let flag := laneMask fun l => i.active.getLsbD l && (val l).2
         if bit i.ins 15 then x.setPred (i.f 14 12) ((i.wave.pred (i.f 14 12) &&& ~~~i.active) ||| (flag &&& i.active)) else x) := by
  have hflag : (laneMask fun l => ((lanesOf i.active).map fun l => (l, val l)).any fun v => v.1 == l && v.2.2) =
      laneMask fun l => i.active.getLsbD l && (val l).2 := by
    refine laneMask_congr fun l hl => ?_
    rw [List.any_map]
    exact any_lanesOf i.active (fun k => (val k).2) hl
  rw [State.texDone, hflag, List.foldl_map]

end Texture

theorem texRow_of_tex {ins : Fin 16 → Nat → Instr} {op : Nat} {sampled : Bool}
    {lane : State → Issue → TexEntry → SampEntry → Nat → Except Nat (List Nat × Bool)}
    {reads : State → Issue → TexEntry → SampEntry → Nat → List (Nat × Nat)}
    (hins : ∀ c w u, exec (ins c w) u = u.tex c w op sampled (fun i t m l s => lane s i t m l) fun i t m l s => reads s i t m l) :
    TexRow ins op sampled lane reads := by
  intro c w u s b i te se val h hzero hte hse hlanes hfill
  have hentry : ∃ e, (if sampled then s.resource i (i.f 23 16) else some []) = some e ∧ entriesOf sampled te e = entriesOf sampled te se := by
    cases sampled with
    | true => exact ⟨se, hse rfl, rfl⟩
    | false => exact ⟨[], rfl, rfl⟩
  obtain ⟨e, he, hentries⟩ := hentry
  rw [← hentries] at hlanes hfill
  have hvals : ∀ l ∈ lanesOf i.active, texLane (entriesOf sampled te e) (lane s i) l = .ok (val l) := by
    intro l hl
    have hval := hlanes l hl
    cases hen : entriesOf sampled te e with
    | none =>
      rw [hen] at hval
      exact congrArg Except.ok hval.symm
    | some tm =>
      rw [hen] at hval
      exact hval
  have hreads : texReads (entriesOf sampled te e) (reads s i) (lanesOf i.active) = (match entriesOf sampled te e with
      | some (t, m) => (lanesOf i.active).flatMap fun l => reads s i t m l
      | none => []) := rfl
  exact (hins c w u).trans ((State.tex_of_issued h hzero hte he hvals (hreads ▸ hfill)).trans (congrArg _ (State.texDone_map b i val)))

theorem textureResults : TextureResults :=
  ⟨texRow_of_tex exec_sample, texRow_of_tex exec_sampleL, texRow_of_tex exec_sampleB, texRow_of_tex exec_fetch⟩

/-- Settles O16: it holds, each row by its instruction's one form. The model's choice, and not the manual's words, are the points of a sample that the manual
leaves open, inside `State.sampleLane` and `State.fetchLane` (log entry 69). -/
theorem outputAndTextureResults : Obligations.OutputAndTextureResults := ⟨stageOutputResults, textureResults⟩

end Sys2Proof.Machine

namespace Sys2Proof.Machine
open Sys2Proof.Claims

/-! What accesses leave of a DRAM byte (R249, R254, R266) -/

/-- A state that keeps DRAM, the channels' queues and the translation leaves every byte as it was. -/
theorem SameByte.of_queues {s t : State} {k a : Nat} (hdram : t.dram = s.dram) (hxlat : ∀ p x w, t.dev.xlat p x w = s.dev.xlat p x w)
    (hqueues : ∀ ch, (at' t.dev.mc.chans ch).queue = (at' s.dev.mc.chans ch).queue) : SameByte s t k a :=
  ⟨by rw [hdram], hxlat, fun hq ch r hr => hq ch r (hqueues ch ▸ hr)⟩

theorem Dev.leaveDeep_queue (d : Dev) (ch : Fin 16) : (at' d.leaveDeep.mc.chans ch).queue = (at' d.mc.chans ch).queue := by
  unfold Dev.leaveDeep
  split
  · simp only [at'_map]
  · rfl

/-- Ending naps keeps the queues. -/
theorem Dev.wake_queue (d : Dev) (rs : List (Nat × Nat)) (ch : Fin 16) : (at' (d.wake rs).mc.chans ch).queue = (at' d.mc.chans ch).queue := by
  unfold Dev.wake
  split
  · rfl
  · simp only [at'_ofFn]
    exact d.leaveDeep_queue ch

theorem State.takeMem_sameByte {s t : State} {h : Fin holders} {n : Nat} {rs : List (Nat × Nat)} (e : s.takeMem h n rs = some t) (k a : Nat) :
    SameByte s t k a := by
  obtain ⟨_, _, rfl⟩ := State.takeMem_eq_some e
  refine SameByte.of_queues rfl (fun p x w => ?_) fun ch => s.dev.wake_queue rs ch
  rw [Dev.wake_eq]
  rfl

/-- A change of the raster engine alone leaves every byte. -/
theorem State.updCluster_sameByte (s : State) (c : Fin 16) (f : Cluster → Cluster) (k a : Nat) : SameByte s (s.updCluster c f) k a :=
  SameByte.of_queues rfl (fun _ _ _ => rfl) fun _ => rfl

theorem State.advance_sameByte (s : State) (i : Issue) (x : Wave) (k a : Nat) : SameByte s (s.advance i x) k a := State.updCluster_sameByte ..

theorem State.fillTex_sameByte {s t : State} {c : Fin 16} {p : Fin 64} {rs : List (Nat × Nat)} (e : s.fillTex c p rs = some t) (k a : Nat) :
    SameByte s t k a := by
  unfold State.fillTex at e
  dsimp only at e
  split at e
  · cases e
    exact SameByte.same
  · obtain ⟨v, hv, rfl⟩ := Option.map_eq_some_iff.mp e
    exact (State.takeMem_sameByte hv k a).trans (State.updCluster_sameByte ..)

theorem bufferOf_sameByte {s b : State} {i : Issue} {e : Option (Nat × Nat)} (h : bufferOf s i = some (b, e)) (k a : Nat) : SameByte s b k a := by
  unfold bufferOf at h
  split at h
  case h_2 => cases h
  case h_1 =>
    obtain ⟨t, ht, heq⟩ := Option.map_eq_some_iff.mp h
    cases heq
    exact State.fillTex_sameByte ht k a

theorem State.faultAt_dram (s : State) (p : Fin 64) (addr n : Nat) (write : Bool) (eng : Engine) : (s.faultAt p addr n write eng).dram = s.dram :=
  (State.faultAt_keeps (wr := false) s p addr n write eng (Keeps.refl s)).dram rfl

theorem State.badIns_dram (s : State) (i : Issue) : (s.badIns i).dram = s.dram := (State.badIns_keeps (wr := false) s i (Keeps.refl s)).dram rfl

/-! Stores and atomics (R249, R254) -/

/-- Neither a store of `n` bytes at the device addresses `as` nor a waiting write touches the byte: `Untouched` in the words of the laws of stores. -/
structure Spared (s : State) (p : Fin 64) (as : List Nat) (n k a : Nat) : Prop where
  queue : s.QueueMisses k a
  store : ∀ x ∈ as, ∀ j < n, ∀ k' a', s.dev.xlat p (x + j) true = .ok a' k' → Misses k a k' a'

theorem spared_of_untouched {s : State} {p : Fin 64} {as : List Nat} {n k a : Nat} (h : Untouched s p as n k a) : Spared s p as n k a where
  queue := fun ch r hr off bs hw j hj => h _ _ (.inr ⟨ch, r, hr, off, bs, hw, rfl, j, hj, rfl⟩)
  store := fun x hx j hj k' a' hxlat => h k' a' (.inl ⟨x, hx, j, hj, hxlat⟩)

/-- What leaves a byte spares it still. -/
theorem Spared.of_sameByte {s t : State} {p : Fin 64} {as : List Nat} {n k a : Nat} (h : Spared s p as n k a) (hsame : SameByte s t k a) :
    Spared t p as n k a := by
  obtain ⟨_, hxlat, hqueue⟩ := hsame
  exact ⟨hqueue h.queue, fun x hx j hj k' a' ht => h.store x hx j hj k' a' (hxlat p (x + j) true ▸ ht)⟩

section Access
variable {s : State} {i : Issue} {n k a : Nat}

theorem State.storeAt_read (s : State) (i : Issue) {ws : List (Nat × List Byte)} (hlen : ∀ w ∈ ws, w.2.length ≤ n)
    (h : Spared s i.job.ply (ws.map (·.1)) n k a) (l1 : Bool) : (s.storeAt i l1 ws).1.dram.read k a = s.dram.read k a := by
  unfold State.storeAt
  split
  case h_1 => rw [State.faultAt_dram]
  case h_2 =>
    split
    case h_1 => rfl
    case h_2 t ht =>
      have hmem := State.takeMem_sameByte ht k a
      have hspared := h.of_sameByte hmem
      split
      case h_1 => rfl
      case h_2 v hv =>
        have hwrites := State.plyWrites_frame k a hv hspared.queue fun w hw j hj =>
          hspared.store w.1 (List.mem_map_of_mem hw) j (hj.trans_le (hlen w hw))
        have hl1 := foldl_keeps (SameByte v · k a) (fun (t : State) (w : Nat × List Byte) => t.updCluster i.c fun k => k.storeL1 w.1 w.2)
          (fun t _ ht => ht.trans (t.updCluster_sameByte ..)) ws v SameByte.same
        split
        · exact ((hmem.trans hwrites).trans hl1).1
        · exact (hmem.trans hwrites).1

/-- The lanes of a global atomic, one after another, leave every byte that their words spare. -/
theorem atomicLanes_sameByte {at? : Nat → Option Nat} (f : Nat → Nat → Nat → Nat) {ls : List Nat} (h : Spared s i.job.ply (ls.filterMap at?) 4 k a) :
    SameByte s (atomicLanes i at? f ls s).1 k a := by
  refine List.foldlRecOn ls _ (motive := fun acc : State × Wave => SameByte s acc.1 k a) SameByte.same fun acc hacc l hl => ?_
  cases hat : at? l with
  | none => exact hacc
  | some x =>
    have hspared := h.of_sameByte hacc
    refine hacc.trans (?_ : SameByte acc.1 (Option.getD _ acc.1) k a)
    cases hwrite : acc.1.plyWrite i.job.ply .raster x _ with
    | none => exact SameByte.same
    | some t => exact State.plyWrite_frame k a hwrite hspared.queue fun j hj => hspared.store x (List.mem_filterMap.mpr ⟨l, hl, hat⟩) j hj

theorem State.atomicAt_dram_of_unmapped {at? : Nat → Option Nat} (h : lanesMapped s i at? = false) (f : Nat → Nat → Nat → Nat) :
    (s.atomicAt i at? f).dram = s.dram := by
  unfold State.atomicAt
  dsimp only
  split
  case h_1 => exact State.faultAt_dram ..
  case h_2 => exact State.faultAt_dram ..
  case h_3 hread hwrite => simp [lanesMapped, hread, hwrite] at h

theorem State.atomicAt_of_refused {at? : Nat → Option Nat} (hmap : lanesMapped s i at? = true) (hmem : atomicMem s i at? = none)
    (f : Nat → Nat → Nat → Nat) : s.atomicAt i at? f = s := by
  simp only [lanesMapped, Bool.and_eq_true, Option.isNone_iff_eq_none] at hmap
  obtain ⟨hread, hwrite⟩ := hmap
  rw [atomicMem] at hmem
  simp only [State.atomicAt, hread, hwrite, hmem]

theorem State.atomicAt_read (s : State) (i : Issue) {at? : Nat → Option Nat} (f : Nat → Nat → Nat → Nat)
    (h : Spared s i.job.ply (i.writers.filterMap at?) 4 k a) : (s.atomicAt i at? f).dram.read k a = s.dram.read k a := by
  cases hmap : lanesMapped s i at? with
  | false => rw [State.atomicAt_dram_of_unmapped hmap]
  | true =>
    cases hmem : atomicMem s i at? with
    | none => rw [State.atomicAt_of_refused hmap hmem]
    | some t =>
      have htake : SameByte s t k a := State.takeMem_sameByte hmem k a
      have hlanes := atomicLanes_sameByte f (h.of_sameByte htake)
      rw [State.atomicAt_of_mapped hmap hmem]
      exact (((htake.trans hlanes).trans (State.advance_sameByte ..)).trans (State.updCluster_sameByte ..)).1

end Access

/-! The rows (R244, R249) -/

section MemRows
variable {u s t b : State} {c : Fin 16} {w op base n k a : Nat} {i : Issue} {e : Option (Nat × Nat)}

/-- The fetch of an instruction leaves DRAM. -/
theorem dram_of_issued {fmt : Nat} (h : issued u c w fmt op = some (i, s)) : s.dram = u.dram := by
  obtain ⟨_, _, _, _, _, hdram⟩ := fetchResults c w fmt op u s i h
  exact hdram

/-- What holds of the state in which a MEM instruction has failed its job, and of the states after it has run on the bytes of its WIDTH, or on a word where it
does not use WIDTH, holds of what the row answers. -/
theorem State.of_mem {P : State → Prop} {sized : Bool} {run : Issue → Nat → State → State} (h : issued u c w 2 op = some (i, s))
    (hexec : u.mem c w op base sized run = .next t) (hbad : P (s.badIns i))
    (hrun : ∀ n, (if sized then accessBytes (i.f 23 21) = some n else n = 4) → P (run i n s)) : P t := by
  have hform : ∃ ok : Bool, u.mem c w op base sized run = .next (match accessBytes (i.f 23 21) with
      | none => if sized || !ok then s.badIns i else run i 4 s
      | some n => if ok then run i (if sized then n else 4) s else s.badIns i) := ⟨_, State.issue_of_issued h _⟩
  obtain ⟨ok, hmem⟩ := hform
  rw [hmem] at hexec
  cases hexec
  cases hwidth : accessBytes (i.f 23 21) with
  | none =>
    dsimp only
    split
    · exact hbad
    · cases sized with
      | false => exact hrun 4 rfl
      | true => contradiction
  | some m =>
    dsimp only
    split
    · cases sized with
      | false => exact hrun 4 rfl
      | true => exact hrun m hwidth
    · exact hbad

/-- After its lanes' stores a store goes on, or waits: DRAM is as the stores left it. -/
theorem dram_of_stored (r : State × Bool) (i : Issue) :
    (match r with | (s, false) => s | (s, true) => s.advance i i.wave : State).dram = r.1.dram := by
  obtain ⟨v, done⟩ := r
  cases done <;> rfl

theorem Issue.length_dataBytes_le (i : Issue) (n l : Nat) : (i.dataBytes n l).length ≤ n := List.length_take_le ..

theorem storeLanes_read (s : State) (i : Issue) {at? : Nat → Option Nat} (h : Spared s i.job.ply (i.writers.filterMap at?) n k a) :
    (s.storeAt i true (i.writers.filterMap fun l => (at? l).map fun x => (x, i.dataBytes n l))).1.dram.read k a = s.dram.read k a := by
  refine State.storeAt_read (n := n) s i (fun ws hws => ?_) ?_ true
  · obtain ⟨l, _, hl⟩ := List.mem_filterMap.mp hws
    obtain ⟨x, _, rfl⟩ := Option.map_eq_some_iff.mp hl
    exact i.length_dataBytes_le n l
  · rw [List.map_filterMap]
    simpa only [Option.map_map, Function.comp_def, Option.map_id'] using h

theorem stG_read (h : issued u c w 2 0x01 = some (i, s)) (hn : accessBytes (i.f 23 21) = some n)
    (hspared : Spared s i.job.ply (i.writers.map (i.gAddr n)) n k a) (hexec : exec (.stG c w) u = .next t) : t.dram.read k a = u.dram.read k a := by
  rw [exec_stG, execStG] at hexec
  rw [← dram_of_issued h]
  refine State.of_mem (P := fun t => t.dram.read k a = s.dram.read k a) h hexec (by rw [State.badIns_dram]) fun m hm => ?_
  obtain rfl : n = m := Option.some.inj (hn.symm.trans hm)
  refine (congrArg (Dram.read · k a) (dram_of_stored _ i)).trans ?_
  simpa [List.filterMap_eq_map'] using storeLanes_read s i (at? := fun l => some (i.gAddr n l)) (by simpa [List.filterMap_eq_map'] using hspared)

theorem stB_read (h : issued u c w 2 0x11 = some (i, s)) (hn : accessBytes (i.f 23 21) = some n) (hbuf : bufferOf s i = some (b, e))
    (hspared : Spared s i.job.ply (i.writers.filterMap (inBuffer e i n)) n k a) (hexec : exec (.stB c w) u = .next t) :
    t.dram.read k a = u.dram.read k a := by
  have hsame := bufferOf_sameByte hbuf k a
  rw [exec_stB, execStB] at hexec
  rw [← dram_of_issued h]
  refine State.of_mem (P := fun t => t.dram.read k a = s.dram.read k a) h hexec (by rw [State.badIns_dram]) fun m hm => ?_
  obtain rfl : n = m := Option.some.inj (hn.symm.trans hm)
  rw [State.withBuffer_of_bufferOf hbuf]
  refine ((congrArg (Dram.read · k a) (dram_of_stored _ i)).trans ?_).trans hsame.1
  have hlanes := storeLanes_read b i (hspared.of_sameByte hsame)
  cases e <;> simpa only [inBuffer, Option.bind_some, Option.bind_none, Option.map_map, Option.map_none, Function.comp_def] using hlanes

theorem atomAddB_read (h : issued u c w 2 0x4A = some (i, s)) (hbuf : bufferOf s i = some (b, e))
    (hspared : Spared s i.job.ply (i.writers.filterMap (inBuffer e i 4)) 4 k a) (hexec : exec (.atomAddB c w) u = .next t) :
    t.dram.read k a = u.dram.read k a := by
  have hsame := bufferOf_sameByte hbuf k a
  rw [exec_atomAddB, execAtomAddB] at hexec
  rw [← dram_of_issued h]
  refine State.of_mem (P := fun t => t.dram.read k a = s.dram.read k a) h hexec (by rw [State.badIns_dram]) fun m _ => ?_
  rw [State.withBuffer_of_bufferOf hbuf]
  refine Eq.trans ?_ hsame.1
  cases e <;> exact State.atomicAt_read b i _ (hspared.of_sameByte hsame)

section Atomic
variable {ins : Fin 16 → Nat → Instr} {f : Nat → Nat → Nat → Nat} (hins : ∀ c w u, exec (ins c w) u = u.atomic c w op f)
include hins

theorem atomic_local_dram (h : issued u c w 2 op = some (i, s)) (hexec : exec (ins c w) u = .next t) (hdev : bit i.ins 19 = false) : t.dram = u.dram := by
  rw [← dram_of_issued h]
  refine State.of_mem (P := fun t => t.dram = s.dram) h ((hins c w u).symm.trans hexec) (State.badIns_dram ..) fun m _ => ?_
  rw [if_neg (ne_true_of_eq_false hdev)]
  exact (State.atomicLocal_keeps (wr := false) s i f (Keeps.refl s)).dram rfl

theorem atomic_read (h : issued u c w 2 op = some (i, s)) (hexec : exec (ins c w) u = .next t)
    (hspared : Spared s i.job.ply (i.writers.map (i.gAddr 4)) 4 k a) : t.dram.read k a = u.dram.read k a := by
  cases hdev : bit i.ins 19 with
  | false => rw [atomic_local_dram hins h hexec hdev]
  | true =>
    rw [← dram_of_issued h]
    refine State.of_mem (P := fun t => t.dram.read k a = s.dram.read k a) h ((hins c w u).symm.trans hexec) (by rw [State.badIns_dram]) fun m _ => ?_
    rw [if_pos hdev]
    exact State.atomicAt_read s i f (by simpa [List.filterMap_eq_map'] using hspared)

end Atomic

end MemRows

/-- Every atomic of the list is one of the atomics' common form. -/
theorem exec_atomics : ∀ x ∈ [(Instr.atomAdd, 0x40), (Instr.atomMinI, 0x41), (Instr.atomMinU, 0x42), (Instr.atomMaxI, 0x43), (Instr.atomMaxU, 0x44),
    (Instr.atomAnd, 0x45), (Instr.atomOr, 0x46), (Instr.atomXor, 0x47), (Instr.atomXchg, 0x48), (Instr.atomCas, 0x49)],
    ∃ f, ∀ c w u, exec (x.1 c w) u = u.atomic c w x.2 f := by
  simp only [List.forall_mem_cons]
  exact ⟨⟨_, exec_atomAdd⟩, ⟨_, exec_atomMinI⟩, ⟨_, exec_atomMinU⟩, ⟨_, exec_atomMaxI⟩, ⟨_, exec_atomMaxU⟩, ⟨_, exec_atomAnd⟩, ⟨_, exec_atomOr⟩,
    ⟨_, exec_atomXor⟩, ⟨_, exec_atomXchg⟩, ⟨_, exec_atomCas⟩, fun _ h => nomatch h⟩

/-- Settles O52: it holds. A MEM row fails its job, faults its ply, waits or stores, and a store reaches its lanes' bytes and what waited for their units. -/
theorem shaderStoresWriteOnlyTheirBytes : Obligations.ShaderStoresWriteOnlyTheirBytes := by
  intro c w u s t i k a
  refine ⟨fun n h hn hfree => stG_read h hn (spared_of_untouched hfree), fun n b e h hn hbuf hfree => stB_read h hn hbuf (spared_of_untouched hfree),
    fun b e h hbuf hfree => atomAddB_read h hbuf (spared_of_untouched hfree), fun x hx h hexec => ?_⟩
  obtain ⟨f, hins⟩ := exec_atomics x hx
  exact ⟨atomic_local_dram hins h hexec, fun hfree => atomic_read hins h hexec (spared_of_untouched hfree)⟩

end Sys2Proof.Machine

namespace Sys2Proof.Machine
open Sys2Proof.Claims

/-! A write of DRAM under a key, read under it and under another (R283, R285) -/

section DramWrite
variable {m : Dram} {g a : Nat} {v : Byte}

theorem Dram.keyOf_rekey_self (m : Dram) (g u : Nat) : (m.rekey g u).keyOf u = g := by
  unfold Dram.rekey
  split
  · next h => exact h.1
  · rw [Dram.keyOf_pokes, Dram.keyOf_rekeyed, if_pos rfl]

theorem Dram.keyOf_write_of_unit {b : Nat} (hunit : b / 64 = a / 64) : (m.write g a v).keyOf (b / 64) = g := by
  rw [Dram.write, Dram.keyOf_poke, hunit, Dram.keyOf_rekey_self]

theorem Dram.read_of_key (hkey : m.keyOf (a / 64) = g) (hg : g ≠ 0) : m.read g a = m.raw a := if_pos ⟨hkey, hg⟩

theorem Dram.read_write_self (hg : g ≠ 0) : (m.write g a v).read g a = v := by
  rw [Dram.read_of_key (Dram.keyOf_write_of_unit rfl) hg, Dram.write, Dram.raw_poke_self]

/-- The cells of a block of a unit under a key hold its bytes encrypted (R283). -/
theorem Dram.cipher_of_key {u j : Nat} (hkey : m.keyOf u = g) (hg : g ≠ 0) (hj : j < 4) :
    m.cipher u j = xtsBlock true (slotKey g) (u * 64) j (m.readN g (u * 64 + 16 * j) 16) := by
  have hbytes : m.readN g (u * 64 + 16 * j) 16 = (List.range 16).map fun i => m.raw (64 * u + 16 * j + i) := by
    refine List.map_congr_left fun i hi => ?_
    have hi := List.mem_range.mp hi
    rw [Nat.mul_comm 64 u]
    exact Dram.read_of_key (by rwa [show (u * 64 + 16 * j + i) / 64 = u by omega]) hg
  unfold Dram.cipher
  rw [hkey, if_neg hg, hbytes, Nat.mul_comm u 64]

theorem Dram.read_of_other_key {g' : Nat} (hkey : m.keyOf (a / 64) = g) (hg : g ≠ 0) (hne : g' ≠ g) :
    m.read g' a = (xtsBlock false (slotKey g') (a / 64 * 64) (a / 16 % 4)
      (xtsBlock true (slotKey g) (a / 64 * 64) (a / 16 % 4) (m.readN g (a / 64 * 64 + 16 * (a / 16 % 4)) 16))).getD (a % 16) 0 := by
  have hother : ¬(m.keyOf (a / 64) = g' ∧ g' ≠ 0) := fun h => hne (h.1.symm.trans hkey)
  rw [Dram.read, if_neg hother, Dram.cipher_of_key hkey hg (Nat.mod_lt _ (by decide))]

end DramWrite

/-- Settles O8: it holds. A write puts the whole unit under its key with the other bytes as that key read them, so the unit reads plain under that key alone. -/
theorem dramReadAfterWrite : Obligations.DramReadAfterWrite := by
  intro m g a v hg w
  refine ⟨Dram.read_write_self hg, fun b hb => ?_, fun b g' hunit => ?_, fun b g' hne hunit => ?_⟩
  · exact Dram.read_write_other m g a v g b hb.symm fun _ => ⟨rfl, hg⟩
  · exact Dram.read_write_other m g a v g' b (fun h => hunit (h ▸ rfl)) fun h => absurd h.symm hunit
  · exact Dram.read_of_other_key (Dram.keyOf_write_of_unit hunit) hg hne

/-- Settles O51: it holds. Every meaning keeps DRAM where `mayChangeDram` does not name its command. -/
theorem onlyStoringCommandsChangeDram : Obligations.OnlyStoringCommandsChangeDram := by
  intro c s t hmay hexec
  obtain ⟨u, hu, hkeeps⟩ := exec_keeps c s
  obtain rfl : u = t := by rw [hu] at hexec; cases hexec; rfl
  exact hkeeps.dram hmay

end Sys2Proof.Machine

namespace Sys2Proof.Machine
open Sys2Proof.Claims

/-! Elytra's own commands (R290-R293, R297, R302, R303) -/
section ElytraCommands
variable {o : Nat} {s : State} {j : Journal}

/-- A well-formed command that any port may give is carried out (R299). -/
theorem State.anyPort_of_commandAny {code : Nat} (hcmd : s.commandAny o code = some j) (hwf : j.wellFormed = true) (act : Journal → State) :
    s.anyPort o code act = .next (act j) := by
  simp only [State.anyPort, hcmd, hwf, if_true]

theorem elyInfo_answers (hr : Runs s) (hcmd : s.commandAny o 0x01 = some j) (hwf : j.wellFormed = true) :
    let e := s.dev.ely
    Answers (.elyInfo o) s (s.answer j mbOk (bytesOf 1 e.state.code ++ bytesOf 1 ((s.dev.manager.map (·.val)).getD 0) ++ bytesOf 2 e.restarts ++
      bytesOf 4 e.secWm ++ bytesOf 4 e.freeLends)) := by
  rw [Answers, exec_elyInfo, execElyInfo, State.clocked_of_runs hr, State.anyPort_of_commandAny hcmd hwf]

theorem ownerQuery_answers (hr : Runs s) (hcmd : s.commandAny o 0x0D = some j) (hwf : j.wellFormed = true)
    (hrange : s.dev.rangeBad (j.arg 0 4) (j.arg 4 4) = false) (hfew : j.arg 4 4 ≤ 32) :
    Answers (.ownerQuery o) s (s.answer j mbOk ((List.range (j.arg 4 4)).map fun i => BitVec.ofNat 8 (s.dev.ely.ownerByte (j.arg 0 4 + i)))) := by
  have hargs : ¬(s.dev.rangeBad (j.arg 0 4) (j.arg 4 4) = true ∨ 32 < j.arg 4 4) := by
    rw [hrange]
    exact not_or.mpr ⟨Bool.false_ne_true, Nat.not_lt.mpr hfew⟩
  rw [Answers, exec_ownerQuery, execOwnerQuery, State.clocked_of_runs hr, State.anyPort_of_commandAny hcmd hwf]
  dsimp only
  rw [if_neg hargs, granuleRange, List.map_map]
  rfl

/-- A buffer that is not empty brings its own data, whatever stands for an empty one. -/
theorem bufferRead_data {α β : Type} {u : State} {n : Nat} {data empty x : α} (hn : n ≠ 0) (h : bufferRead s j n data empty = some (u, x))
    (data' empty' : β) : bufferRead s j n data' empty' = some (u, data') := by
  unfold bufferRead at h ⊢
  simp only [if_neg hn, Option.ite_none_right_eq_some, Option.some.injEq, Prod.mk.injEq] at h ⊢
  exact ⟨h.1, h.2.1, trivial⟩

theorem containerStage_starts (c : Container) (hj : Managed s o 0x03 j) : StartsRead (.containerStage o (some c)) s j (j.arg 0 8) (j.arg 8 4) := by
  intro hnew hn
  simp only [Answers, exec_containerStage, execContainerStage, State.clocked_of_runs hj.1, State.managed_of_managed hj, if_neg hn]
  exact congrArg _ (State.fetchBuffer_starts _ _ hnew hn)

/-- A container that has been read is acted on. -/
theorem containerStage_of_read {c : Container} {u : State} (hj : Managed s o 0x03 j) (hn : j.arg 8 4 ≠ 0)
    (hread : bufferRead s j (j.arg 8 4) c c = some (u, c)) :
    let k := c.sized (j.arg 8 4)
    (k.valid u.dev.ely = false → Answers (.containerStage o (some c)) s (u.answer j mbBadContainer [])) ∧
    (k.valid u.dev.ely = true → u.dev.ccn.flash = true →
      let i : Fin 2 := ⟨1 - s.dev.ely.runPart.val, by omega⟩
      Answers (.containerStage o (some c)) s
        ((onEly u fun e => { e with parts := put e.parts i (some { gen := (e.runGen + 1) % 2 ^ 32, container := k }) }).answer j mbOk
          (bytesOf 1 i.val ++ bytesOf 4 (s.dev.ely.runGen + 1)))) := by
  have hdata := bufferRead_data hn hread (some c) none
  have hely : u.dev.ely = s.dev.ely := (sameButReads_of_bufferRead hread).ely
  simp only [Answers, exec_containerStage, execContainerStage, State.clocked_of_runs hj.1, State.managed_of_managed hj, if_neg hn, Option.map_some,
    State.fetchBuffer_of_read hdata]
  refine ⟨fun hbad => ?_, fun hgood hflash => ?_⟩
  · rw [hbad]
    rfl
  · rw [hgood, hflash]
    simp only [← hely]
    rfl

theorem svnCommit_answers {c : Container} (hj : Managed s o 0x04 j) (hrunning : s.dev.ely.running = some c) :
    let u := onEly s fun e => (e.burnCount 128 c.svnAskulo).burnCount 136 c.svnOem
    Answers (.svnCommit o) s (u.answer j mbOk (bytesOf 1 u.dev.ely.svnAskulo ++ bytesOf 1 u.dev.ely.svnOem)) := by
  simp only [Answers, exec_svnCommit, execSvnCommit, State.clocked_of_runs hj.1, State.managed_of_managed hj, hrunning]
  rfl

theorem wmRaise_answers_not_above (hj : Managed s o 0x08 j) (hlow : j.arg 0 4 ≤ s.dev.ely.secWm) :
    Answers (.wmRaise o) s (s.answer j mbOk (bytesOf 4 s.dev.ely.secWm)) := by
  simp only [Answers, exec_wmRaise, execWmRaise, State.clocked_of_runs hj.1, State.managed_of_managed hj, if_pos hlow]

/-- The granules between the old watermark and the one that a WM_RAISE asks for. -/
abbrev raisedGranules (s : State) (j : Journal) : List Nat := granuleRange (s.dev.ely.secWm * 32) ((j.arg 0 4 - s.dev.ely.secWm) * 32)

section Raised
variable {pol : Policy} (hj : Managed s o 0x08 j) (hpol : s.dev.policy = some pol) (hhigh : s.dev.ely.secWm < j.arg 0 4)
include hj hpol hhigh

theorem wmRaise_answers_not_permitted (hmax : pol.wmMax < j.arg 0 4) : Answers (.wmRaise o) s (s.answer j mbNotPermitted []) := by
  simp only [Answers, exec_wmRaise, execWmRaise, State.clocked_of_runs hj.1, State.managed_of_managed hj, if_neg (Nat.not_le.mpr hhigh), hpol, if_pos hmax]

/-- The granules from the old watermark to the new one become secure memory, when all of them are free (R302). -/
theorem wmRaise_answers (hmax : j.arg 0 4 ≤ pol.wmMax) (htop : j.arg 0 4 * 2 ^ 21 ≤ s.dev.dramTop)
    (hfree : ∀ g ∈ raisedGranules s j, s.dev.ely.ownerByte g = 0xFF ∧ s.dev.droppedGranule g = false) :
    Answers (.wmRaise o) s ((onEly s fun e => { e.setOwner (raisedGranules s j) 0xFD with secWm := j.arg 0 4 }).answer j mbOk
      (bytesOf 4 (j.arg 0 4))) := by
  have hany : ((raisedGranules s j).any fun g => s.dev.ely.ownerByte g != 0xFF || s.dev.droppedGranule g) = false := by
    simpa using hfree
  simp only [Answers, exec_wmRaise, execWmRaise, State.clocked_of_runs hj.1, State.managed_of_managed hj, if_neg (Nat.not_le.mpr hhigh), hpol,
    if_neg (Nat.not_lt.mpr hmax), hany, decide_eq_false (Nat.not_lt.mpr htop), Bool.or_self, Bool.false_eq_true, if_false]
  rfl

end Raised

end ElytraCommands

theorem elytraCommandResults : ElytraCommandResults := fun _ _ _ hr =>
  ⟨elyInfo_answers hr, ownerQuery_answers hr,
    fun c hj hn => ⟨containerStage_starts c hj, fun _ => containerStage_of_read hj (Nat.pos_iff_ne_zero.mp hn)⟩,
    fun _ => svnCommit_answers, fun hj => ⟨wmRaise_answers_not_above hj, fun _ hpol hhigh =>
      ⟨wmRaise_answers_not_permitted hj hpol hhigh, wmRaise_answers hj hpol hhigh⟩⟩⟩

/-! Owning, lending and scrubbing granules (R278, R303-R307) -/
section Granules
variable {o : Nat} {s : State} {j : Journal} {p b : Fin 64}

/-- The granules that a MEM_GIVE or MEM_TAKE names. -/
abbrev Journal.namedGranules (j : Journal) : List Nat := granuleRange (j.arg 1 4) (j.arg 5 4)

/-- The granules that a LEND or UNLEND names. -/
abbrev Journal.sharedGranules (j : Journal) : List Nat := granuleRange (j.arg 4 4) (j.arg 8 4)

/-- The test of a gift or loan to a ply against dropped granules, which no class A ply gets (R278). -/
theorem droppedTest_eq_false {cls : PlyClass} {gs : List Nat} (h : cls = .a → ∀ g ∈ gs, s.dev.droppedGranule g = false) :
    (cls == .a && gs.any s.dev.droppedGranule) = false := by
  cases hcls : cls == .a with
  | false => rfl
  | true => exact List.any_eq_false.mpr fun g hg => ne_true_of_eq_false (h (beq_iff_eq.mp hcls) g hg)

/-- Free granules above the watermark, within the ply's limit, become the ply's, all of them (R304). -/
theorem memGive_answers (hj : ManagedPly s o 0x09 j p) (hrange : s.dev.rangeBad (j.arg 1 4) (j.arg 5 4) = false)
    (hfree : ∀ g ∈ j.namedGranules, s.dev.ely.ownerByte g = 0xFF ∧ s.dev.ely.secWm * 32 ≤ g)
    (hmax : (s.dev.ely.owned p.val).length + j.namedGranules.length ≤ (s.dev.entry p).memMax)
    (hkept : (s.ply p).cls = .a → ∀ g ∈ j.namedGranules, s.dev.droppedGranule g = false) :
    let given := fun e : Ely => e.setOwner j.namedGranules p.val
    Answers (.memGive o) s ((onEly s given).answer j mbOk (bytesOf 4 ((given s.dev.ely).owned p.val).length)) := by
  obtain ⟨hm, hp, hexists⟩ := hj
  have htaken : (j.namedGranules.any fun g => s.dev.ely.ownerByte g != 0xFF || decide (g < s.dev.ely.secWm * 32)) = false := by
    simpa using hfree
  simp only [Answers, exec_memGive, execMemGive, State.clocked_of_runs hm.1, State.managed_of_managed hm, hrange, hp, if_neg hexists, htaken,
    decide_eq_false (Nat.not_lt.mpr hmax), droppedTest_eq_false hkept, Bool.false_eq_true, if_false]
  rfl

/-- A ply's own granules that it does not map wait to be scrubbed (R305). -/
theorem memTake_answers (hj : Managed s o 0x0A j) (hp : j.ply 0 = some p) (hnew : j.begun = false)
    (hrange : s.dev.rangeBad (j.arg 1 4) (j.arg 5 4) = false)
    (hown : ∀ g ∈ j.namedGranules, s.dev.ely.ownerOf g = some p.val ∧ s.dev.ely.ownerByte g ≠ 0xFE)
    (hmaps : (s.ply p).mapsAny j.namedGranules = false) :
    Answers (.memTake o) s ((onEly s fun e => e.setOwner j.namedGranules 0xFC).hold j) := by
  have hothers : (j.namedGranules.any fun g => s.dev.ely.ownerOf g != some p.val) = false := by
    simpa using fun g hg => (hown g hg).1
  have hlent : (j.namedGranules.any fun g => s.dev.ely.ownerByte g == 0xFE) = false := by
    simpa using fun g hg => (hown g hg).2
  simp only [Answers, exec_memTake, execMemTake, State.clocked_of_runs hj.1, State.managed_of_managed hj, hnew, hrange, hp, hothers, hlent, hmaps,
    Bool.false_eq_true, if_false]
  rfl

/-- A scrubbed granule is free, and every MEM_TAKE whose last granule it was is answered (R305). -/
theorem granuleScrubDone_answers {g : Nat} {t : State} (hr : Runs s) (hwaits : s.dev.ely.ownerByte g = 0xFC) (hely : s.dev.ely.state = .running)
    (hmem : s.takeMem devHolder 1024 [(g * 65536, 65536)] = some t) :
    let v := t.reachGranule .ely none g
    let u := onEly { v with dram := v.dram.scrub (at' v.dev.ely.keySlot 64) g } fun e => e.setOwner [g] 0xFF
    let ended := u.dev.ely.journal.filter fun j => j.code == 0x0A && j.begun && j.namedGranules.all fun g => u.dev.ely.ownerByte g != 0xFC
    Answers (.granuleScrubDone g) s (ended.foldl (fun u j => u.answer j mbOk []) u) := by
  have hdue : ¬(s.dev.ely.ownerByte g ≠ 0xFC ∨ s.dev.ely.state ≠ .running) := by simp only [hwaits, hely, ne_eq, not_true, or_self, not_false_eq_true]
  simp only [Answers, exec_granuleScrubDone, execGranuleScrubDone, State.clocked_of_runs hr, if_neg hdue, hmem]
  rfl

/-- The lend entry of a granule has the ply among its borrowers. -/
def Ely.borrows (e : Ely) (g p : Nat) : Bool :=
  match Map.find e.lend g with
  | some l => l.borrowers.any (·.ply == p)
  | none => false

/-- The lend entry of a granule has four borrowers, and the ply is none of them (R306). -/
def Ely.crowded (e : Ely) (g p : Nat) : Bool :=
  match Map.find e.lend g with
  | some l => decide (4 ≤ l.borrowers.length) && !e.borrows g p
  | none => false

theorem Ely.crowded_eq_false {e : Ely} {g p : Nat}
    (h : ∀ l, Map.find e.lend g = some l → l.borrowers.length < 4 ∨ (l.borrowers.any (·.ply == p)) = true) : e.crowded g p = false := by
  unfold Ely.crowded Ely.borrows
  cases hl : Map.find e.lend g with
  | none => rfl
  | some l =>
    rcases h l hl with hfew | hthere
    · simp only [decide_eq_false (Nat.not_le.mpr hfew), Bool.false_and]
    · simp only [hthere, Bool.not_true, Bool.and_false]

/-- What R306 and R278 ask of a LEND of ply `p`'s granules to ply `b`, for writing too where `w` is set: the policy has the pair with that right, the
granules are the owner's, no lend entry is full, entries enough are free, and none of the granules is a dropped one for class A. -/
structure Lendable (s : State) (j : Journal) (p b : Fin 64) (w : Bool) (pol : Policy) : Prop where
  pair : ∃ x ∈ pol.lendPairs, x.1 = p.val ∧ x.2.1 = b.val ∧ (x.2.2 = true ∨ w = false)
  own  : ∀ g ∈ j.sharedGranules, s.dev.ely.ownerOf g = some p.val
  room : ∀ g ∈ j.sharedGranules, ∀ l, Map.find s.dev.ely.lend g = some l → l.borrowers.length < 4 ∨ (l.borrowers.any (·.ply == b.val)) = true
  free : (j.sharedGranules.filter fun g => (Map.find s.dev.ely.lend g).isNone).length ≤ s.dev.ely.freeLends
  kept : (s.ply b).cls = .a → ∀ g ∈ j.sharedGranules, s.dev.droppedGranule g = false

/-- Granules are lent at once; where that lowers a right of the borrower, after its barrier, which takes the right to write from the pages that map
them (R306). -/
theorem lend_answers {w lowers : Bool} {pol : Policy} (hj : Managed s o 0x0B j) (hp : j.ply 0 = some p) (hb : j.ply 1 = some b)
    (hw : lendRights (j.arg 2 1) = some w) (hrange : s.dev.rangeBad (j.arg 4 4) (j.arg 8 4) = false) (hpol : s.dev.policy = some pol)
    (hlend : Lendable s j p b w pol) (hlowers : (!w && j.sharedGranules.any fun g => s.dev.ely.lentTo g b.val true) = lowers) :
    let u := onEly s fun e => j.sharedGranules.foldl (fun e g => e.lendOne g p.val b.val w) e
    let v := if lowers then u.updPly b fun y =>
      { y with tables := y.tables.map fun t => if j.sharedGranules.contains t.2.page then (t.1, { t.2 with write := false }) else t } else u
    Answers (.lend o) s
      (if lowers && !j.begun then s.hold j else if lowers && !(s.ply b).earlierRetired j.mark then s
       else v.answer j mbOk (bytesOf 4 v.dev.ely.freeLends)) := by
  obtain ⟨hpair, hown, hroom, hfree, hkept⟩ := hlend
  subst hlowers
  have hpermitted : (pol.lendPairs.any fun x => x.1 == p.val && x.2.1 == b.val && (x.2.2 || !w)) = true := by
    simpa [and_assoc] using hpair
  have hothers : (j.sharedGranules.any fun g => s.dev.ely.ownerOf g != some p.val) = false := by
    simpa using hown
  have hfull : ((j.sharedGranules.any fun g => s.dev.ely.crowded g b.val) ||
      decide (s.dev.ely.freeLends < (j.sharedGranules.filter fun g => (Map.find s.dev.ely.lend g).isNone).length)) = false :=
    (Bool.or_eq_false_iff ..).mpr ⟨List.any_eq_false.mpr fun g hg => ne_true_of_eq_false (Ely.crowded_eq_false (hroom g hg)),
      decide_eq_false (Nat.not_lt.mpr hfree)⟩
  simp only [Answers, exec_lend, execLend, State.clocked_of_runs hj.1, State.managed_of_managed hj, hrange, hp, hb, hw, hpol, hpermitted, hothers,
    Bool.not_true, Bool.false_eq_true, if_false]
  exact congrArg _ ((if_neg (ne_true_of_eq_false hfull)).trans (if_neg (ne_true_of_eq_false (droppedTest_eq_false hkept))))

/-- A borrower's granules leave it after its barrier, once no layer shows a page that maps them (R307). -/
theorem unlend_answers (hj : Managed s o 0x0C j) (hp : j.ply 0 = some p) (hb : j.ply 1 = some b) (hrange : s.dev.rangeBad (j.arg 4 4) (j.arg 8 4) = false)
    (hlent : ∀ g ∈ j.sharedGranules, s.dev.ely.ownerOf g = some p.val ∧ s.dev.ely.lentTo g b.val false = true) {shown : Bool}
    (hshown : (((s.ply b).pagesIn j.sharedGranules).any fun pg => s.dev.layersUse b pg 1) = shown) :
    let pages := (s.ply b).pagesIn j.sharedGranules
    let u := onEly (s.updPly b fun y => { y with tables := y.tables.filter fun t => !pages.contains t.1 }) fun e => e.dropBorrower b.val j.sharedGranules.contains
    Answers (.unlend o) s
      (if !j.begun then s.hold j else if !(s.ply b).earlierRetired j.mark || shown then s
       else u.answer j mbOk (bytesOf 4 u.dev.ely.freeLends)) := by
  subst hshown
  have hothers : (j.sharedGranules.any fun g =>
      !(s.dev.ely.ownerOf g == some p.val && s.dev.ely.lentTo g b.val false)) = false := by
    simpa using hlent
  simp only [Answers, exec_unlend, execUnlend, State.clocked_of_runs hj.1, State.managed_of_managed hj, hrange, hp, hb, hothers, Bool.false_eq_true, if_false]
  rfl

end Granules

theorem granuleCommandResults : GranuleCommandResults := by
  intro o s j p e gs ls
  refine ⟨memGive_answers, memTake_answers, fun g t => granuleScrubDone_answers,
    fun b w pol hj hp hb hw hrange hpol hpair hown hroom hfree hkept => ?lend, fun b hj hp hb hrange hlent => ?unlend⟩
  case lend =>
    intro lowers u
    have hout {l : Bool} (hl : lowers = l) := lend_answers hj hp hb hw hrange hpol ⟨hpair, hown, hroom, hfree, hkept⟩ hl
    refine ⟨hout, fun hl hnew => ?_, fun hl hbegun hretired => ?_⟩
    · have hheld := hout hl
      rwa [hnew] at hheld
    · have hdone := hout hl
      rwa [hbegun, hretired] at hdone
  case unlend =>
    intro pages
    have hout {shown : Bool} (h : (pages.any fun pg => s.dev.layersUse b pg 1) = shown) := unlend_answers hj hp hb hrange hlent h
    refine ⟨fun hnew => ?_, fun hbegun hretired hunused => ?_⟩
    · have hheld := hout rfl
      rwa [hnew] at hheld
    · have hdone := hout (List.any_eq_false.mpr fun pg hpg => ne_true_of_eq_false (hunused pg hpg))
      rwa [hbegun, hretired] at hdone

/-- Settles O36: it holds, each clause by the lemma of its row. The model's choice, and not the manual's words, are the sizes of the fields of ELY_INFO's
result (log entry 56), that a staged container's generation is the running one plus 1 (entry 57), the order of WM_RAISE's tests (entry 82), and that a
refusal carries no result (entry 33). -/
theorem elytraAndGranuleResults : Obligations.ElytraAndGranuleResults := ⟨elytraCommandResults, granuleCommandResults⟩

end Sys2Proof.Machine

namespace Sys2Proof.Machine
open Sys2Proof.Claims

/-! The Cocoon recorder (R454-R461) -/
section Recorder
variable {s : State}

theorem cocoonRefill_answers (h : s.dev.slpclk = true) :
    Answers .cocoonRefill s (s.onDev fun d => { d with ccn := { d.ccn with buckets := d.ccn.buckets.map fun b =>
      { b with tokens := min s.dev.ccnBurst (b.tokens + s.dev.ccnRefill) } } }) := by
  simp only [Answers, exec_cocoonRefill, execCocoonRefill, h, Bool.not_true, Bool.false_eq_true, if_false]
  rfl

section Written
variable (hr : Runs s) (hwrites : s.dev.ccnWrites = true)
include hr hwrites

/-- A record that reads back well leaves the buffer; one that does not stays there, and its slot is torn (R458). -/
theorem cocoonSlotWrite_answers {r : List Byte} {rest : List (List Byte)} (hbuffer : s.dev.ccn.buffer = r :: rest) :
    Answers (.cocoonSlotWrite true) s (s.onDev fun d => { d with ccn := { d.ccn.advance with
      buffer := rest, log := Map.ins d.ccn.log d.ccn.next r, refill := d.ccn.refill && !rest.isEmpty } }).reportOverflow ∧
    Answers (.cocoonSlotWrite false) s
      (s.onDev fun d => { d with ccn := { d.ccn.advance with log := Map.ins d.ccn.log d.ccn.next (r.take 31 ++ [0xFF]) } }) := by
  simp only [Answers, exec_cocoonSlotWrite, execCocoonSlotWrite, State.clocked_of_runs hr, hbuffer, hwrites, Bool.not_true, Bool.false_eq_true, if_false,
    if_true]
  exact ⟨rfl, rfl⟩

theorem cocoonSectorErase_answers : Answers .cocoonSectorErase s
    (s.onDev fun d => { d with ccn := { d.ccn with log := d.ccn.log.filter fun e => e.1 / 2048 != (s.dev.ccn.next / 2048 + 1) % 128 } }) := by
  simp only [Answers, exec_cocoonSectorErase, execCocoonSectorErase, State.clocked_of_runs hr, hwrites, Bool.not_true, Bool.false_eq_true, if_false]

end Written

theorem ccnFreezeTimeout_answers (hr : Runs s) : Answers .ccnFreezeTimeout s (s.onDev fun d => { d with ccn := d.ccn.thaw }) := by
  rw [Answers, exec_ccnFreezeTimeout, execCcnFreezeTimeout, State.clocked_of_runs hr]

theorem ccnOpsecLoRead_answers (hr : Runs s) (q : Fin 4) (hi : Bool) : Answers (.ccnOpsecLoRead ⟨q, hi⟩) s (s.readPair q 0x1E008 s.dev.ccn.opsec hi) := by
  rw [Answers, exec_ccnOpsecLoRead, execCcnOpsecLoRead, State.clocked_of_runs hr]

section Commands
variable {o : Nat} {j : Journal}

theorem ccnFreeze_answers (hj : Managed s o 0x61 j) (hfrozen : s.dev.ccn.frozen = false) (hrefill : s.dev.ccn.refill = false) :
    Answers (.ccnFreeze o) s ((s.onDev fun d => { d with ccn := { d.ccn with frozen := true } }).answer j mbOk []) := by
  simp only [Answers, exec_ccnFreeze, execCcnFreeze, State.clocked_of_runs hj.1, State.managed_of_managed hj, hfrozen, hrefill, Bool.or_self,
    Bool.false_eq_true, if_false]

theorem ccnThaw_answers (hj : Managed s o 0x62 j) : Answers (.ccnThaw o) s ((s.onDev fun d => { d with ccn := d.ccn.thaw }).answer j mbOk []) := by
  rw [Answers, exec_ccnThaw, execCcnThaw, State.clocked_of_runs hj.1, State.managed_of_managed hj]

/-- A well-formed command of the recorder is carried out for the manager and the auditors alone (R460). -/
theorem State.audited_of_command {code : Nat} (hcmd : s.command o code = some j) (hwf : j.wellFormed = true) (act : Journal → State) :
    s.audited o code act = .next (if s.dev.auditor j.port then act j else s.answer j mbNotPermitted []) := by
  cases haud : s.dev.auditor j.port <;> simp [State.audited, hcmd, hwf, haud]

theorem ccnInfo_answers (hr : Runs s) (hcmd : s.command o 0x60 = some j) (hwf : j.wellFormed = true) :
    let c := s.dev.ccn
    Answers (.ccnInfo o) s
      (if s.dev.auditor j.port then s.answer j mbOk (bytesOf 4 c.next ++ bytesOf 4 c.lap ++ bytesOf 1 c.buffer.length ++ bytesOf 1 (bit1 c.frozen) ++
        [0, 0] ++ bytesOf 4 c.overflow) else s.answer j mbNotPermitted []) := by
  rw [Answers, exec_ccnInfo, execCcnInfo, State.clocked_of_runs hr, State.audited_of_command hcmd hwf]

/-- CCN_READ sends slots of the log, or records of the buffer, to the buffer in the auditor's host memory (R460). -/
theorem ccnRead_answers (hr : Runs s) (hcmd : s.command o 0x63 = some j) (hwf : j.wellFormed = true) (haud : s.dev.auditor j.port = true)
    (hlow : 1 ≤ j.arg 5 4) (hhigh : j.arg 5 4 ≤ 2048)
    (hplace : (j.arg 0 1 = 0 ∧ j.arg 1 4 < 262144) ∨ (j.arg 0 1 = 1 ∧ j.arg 1 4 < 128)) :
    let slots := if j.arg 0 1 = 0 then (List.range (j.arg 5 4)).map fun i => s.dev.ccn.slot (j.arg 1 4 + i)
      else (s.dev.ccn.buffer.drop (j.arg 1 4)).take (j.arg 5 4)
    Answers (.ccnRead o) s ((s.onDev fun d => d.postWrite j.port (j.arg 9 8) slots.flatten).answer j mbOk (bytesOf 4 slots.length)) := by
  have hargs : ¬(1 < j.arg 0 1 ∨ j.arg 5 4 = 0 ∨ 2048 < j.arg 5 4 ∨ (j.arg 0 1 = 0 ∧ 262144 ≤ j.arg 1 4) ∨ (j.arg 0 1 = 1 ∧ 128 ≤ j.arg 1 4)) := by
    omega
  rw [Answers, exec_ccnRead, execCcnRead, State.clocked_of_runs hr, State.audited_of_command hcmd hwf, if_pos haud]
  exact congrArg _ (if_neg hargs)

end Commands

end Recorder

theorem cocoonResults : CocoonResults := by
  intro s set
  refine ⟨cocoonRefill_answers, fun hr hwrites r rest => cocoonSlotWrite_answers hr hwrites, cocoonSectorErase_answers,
    fun hr => ⟨ccnFreezeTimeout_answers hr, fun q => ⟨ccnOpsecLoRead_answers hr q false, ?high⟩⟩, fun o j =>
    ⟨ccnFreeze_answers, ccnThaw_answers, fun hr hcmd hwf => ?info, fun hr hcmd hwf haud hlow hhigh => ?read⟩⟩
  case high => exact ccnOpsecLoRead_answers hr q true
  case info =>
    have hout := ccnInfo_answers hr hcmd hwf
    refine ⟨fun haud => ?_, fun haud => ?_⟩
    · rwa [haud] at hout
    · rwa [haud] at hout
  case read =>
    have hout := ccnRead_answers hr hcmd hwf haud hlow hhigh
    refine ⟨fun hsrc hfirst => ?_, fun hsrc hfirst => ?_⟩
    · have hlog := hout (.inl ⟨hsrc, hfirst⟩)
      rwa [if_pos hsrc] at hlog
    · have hbuffer := hout (.inr ⟨hsrc, hfirst⟩)
      rwa [if_neg (by omega)] at hbuffer

/-! The running self-test and the operating seconds (R451-R453, R459) -/

section SelfTest
variable {s : State} {u : Nat} (hr : Runs s)
include hr

/-- A unit's slice counts once an epoch, and fails its unit where it fails or finds the ledger unequal (R451, R452). -/
theorem selftestSlice_answers (fail : Bool) (hunit : runUnits.contains u = true) (hskip : s.dev.unitSkipped u = false)
    (hepoch : s.dev.bist.thisEpoch.contains u = false) (hst : s.dev.power.state = .run ∨ s.dev.power.state = .dim)
    (hely : u = 0x20 → s.dev.ely.state = .running) (hwindow : s.dev.sliceWindow u = true) :
    let v := s.onDev fun d => { d with bist := { d.bist with
      slices := Map.ins d.bist.slices u (min (slicesPerPass u) (d.unitDone u + 1)), thisEpoch := d.bist.thisEpoch ++ [u] } }
    let breach := if u = 0x31 ∧ s.dev.unitDone u = 0 then firstBreach s.skein.accts else none
    Answers (.selftestSlice u fail) s ((if fail = true ∨ breach.isSome = true then v.sliceFails u breach else v).onDev Dev.endPass) := by
  have hpower : (s.dev.power.state == .run || s.dev.power.state == .dim) = true := by simpa using hst
  have hely' : (u == 0x20 && s.dev.ely.state != .running) = false := by simpa using hely
  simp only [Answers, exec_selftestSlice, execSelftestSlice, State.clocked_of_runs hr, hunit, hskip, hepoch, hpower, hely', hwindow, Bool.not_true,
    Bool.false_eq_true, beq_iff_eq, Bool.or_eq_true, or_self, if_false]
  rfl

theorem selftestSlice_answers_skipped (fail : Bool) (hskip : s.dev.unitSkipped u = true) : Answers (.selftestSlice u fail) s s := by
  simp only [Answers, exec_selftestSlice, execSelftestSlice, State.clocked_of_runs hr, hskip, Bool.or_true, Bool.true_or, if_true]

/-- A unit that is skipped counts as passed, and so is never late (R451). -/
theorem selftestPassLate_answers_skipped (hskip : s.dev.unitSkipped u = true) : Answers (.selftestPassLate u) s s := by
  have hpassed : s.dev.unitPassed u = true := by rw [Dev.unitPassed, hskip, Bool.true_or]
  simp only [Answers, exec_selftestPassLate, execSelftestPassLate, State.clocked_of_runs hr, hpassed, Bool.or_true, if_true]

theorem selftestPassLate_answers (hunit : runUnits.contains u = true) (hlate : s.dev.unitPassed u = false) : Answers (.selftestPassLate u) s
    ((s.onDev fun d => { d with bist := { d.bist with late := true, slices := Map.ins d.bist.slices u 0 } }).selftestFail u 2) := by
  simp only [Answers, exec_selftestPassLate, execSelftestPassLate, State.clocked_of_runs hr, hunit, hlate, Bool.not_true, Bool.or_self, Bool.false_eq_true,
    if_false]

theorem opsecSecond_answers (hst : s.dev.power.state = .run ∨ s.dev.power.state = .dim) (hclk : s.dev.slpclk = true) :
    let v := s.onDev fun d => { d with ccn := { d.ccn with opsec := (d.ccn.opsec + 1) % 2 ^ 40, sinceCnt := d.ccn.sinceCnt + 1 } }
    Answers .opsecSecond s (if 600 ≤ v.dev.ccn.sinceCnt then v.onDev Dev.persistCounters else v) := by
  have hpower : (s.dev.power.state == .run || s.dev.power.state == .dim) = true := by simpa using hst
  simp only [Answers, exec_opsecSecond, execOpsecSecond, State.clocked_of_runs hr, hpower, hclk, Bool.not_true, Bool.or_self, Bool.false_eq_true, if_false]

end SelfTest

theorem selfTestResults : SelfTestResults := fun _ hr =>
  ⟨fun _ fail => selftestSlice_answers hr fail,
    fun _ fail hskip => ⟨selftestSlice_answers_skipped hr fail hskip, selftestPassLate_answers_skipped hr hskip⟩,
    fun _ => selftestPassLate_answers hr, opsecSecond_answers hr⟩

/-- Settles O46: it holds, each clause by the lemma of its row. The model's choice, and not the manual's words, are that the Skein checker tests for
an inequality in the first slice of a pass and what it reports of a failure without one (log entry 75), and the readings of the self-test and the recorder
(log entry 94). -/
theorem recorderAndSelfTestResults : Obligations.RecorderAndSelfTestResults := ⟨cocoonResults, selfTestResults⟩

end Sys2Proof.Machine

namespace Sys2Proof.Machine
open Sys2Proof.Claims

/-! Who may send a command (R111, R297, R299, R482) -/

/-- A row that Elytra runs for the manager alone refuses a message that is not well formed, then one from another port. -/
theorem managerOnly_of_exec {ins : Nat → Instr} {code : Nat} {act : Nat → State → Journal → State}
    (h : ∀ o s, exec (ins o) s = s.clocked fun s => s.managed o code (act o s)) : ManagerOnly ins code := by
  intro o s j hr hcmd
  simp only [Answers, h, State.clocked_of_runs hr, State.managed, hcmd]
  refine ⟨fun hwf => ?_, fun hwf hman => ?_⟩
  · rw [hwf]
    rfl
  · rw [hwf, hman]
    rfl

/-- Settles O28: it holds, since each row that it names is `State.managed` with an effect of its own (R299, with the From column of R297 and the order of
R111 and R482). The model's choice, and not the manual's words, is that a refusal carries no result (log entry 33). The statement names 25 of the manager's
commands; MIG_LOG, TEN_APPLY, PWR_STATE, WHL_JOIN, WHL_CHAN_OPEN, WHL_LOOP_TEST and AUD_LOCK are not among them. -/
theorem managerCommandRefusals : Obligations.ManagerCommandRefusals := by
  unfold Obligations.ManagerCommandRefusals
  and_intros
  all_goals
    intros
    exact managerOnly_of_exec fun _ _ => rfl

end Sys2Proof.Machine

namespace Sys2Proof.Machine
open Sys2Proof.Claims

/-! Restarts of Elytra's firmware (R288, R310, R315-R317) -/

/-- The states in which a trigger restarts Elytra (R315). -/
abbrev Ely.MayRestart (e : Ely) : Prop := e.state = .running ∨ e.state = .restarting ∨ (e.state = .rom ∧ e.romMode = true)

/-- The restarts of the last 10 s (R317). -/
abbrev Dev.recentRestarts (d : Dev) : List Nat := d.ely.restartAt.filter fun x => decide (d.devtime < x + 10000000000)

/-- What a restart leaves behind, whatever its trigger (R315-R317). -/
structure RestartedBy (s t : State) (cause : Nat) : Prop where
  state    : t.dev.ely.state = (if 2 ≤ s.dev.recentRestarts.length then .halted else .restarting)
  cause    : t.dev.ely.lastCause = cause
  restarts : t.dev.ely.restarts = min 0xFFFF (s.dev.ely.restarts + 1)
  cmdMap   : t.dev.ely.cmdMap = []
  entries  : t.dev.ely.entries = []
  sram     : t.dev.ely.sram = []
  sessions : ∀ q, (t.port q).spdm.sessions = []
  agreed   : ∀ p, (t.ply p).mig.agreed = false
  skein    : t.skein = s.skein
  dram     : t.dram = s.dram
  owner    : t.dev.ely.owner = s.dev.ely.owner
  keySlot  : t.dev.ely.keySlot = s.dev.ely.keySlot

section Restart
variable {s : State} {cause : Nat}

theorem Ely.mayRestart_iff (e : Ely) : (e.state == .running || e.state == .restarting || (e.state == .rom && e.romMode)) = true ↔ e.MayRestart := by
  simp [Ely.MayRestart, or_assoc]

theorem State.restartElytra_of_not (h : ¬ s.dev.ely.MayRestart) (cause : Nat) : s.restartElytra cause = s := by
  rw [← Ely.mayRestart_iff, Bool.not_eq_true] at h
  simp only [State.restartElytra, h, Bool.not_false, if_true]

theorem State.restartElytra_restartedBy (h : s.dev.ely.MayRestart) (cause : Nat) : RestartedBy s (s.restartElytra cause) cause := by
  rw [← Ely.mayRestart_iff] at h
  simp only [State.restartElytra, h, Bool.not_true, Bool.false_eq_true, if_false]
  refine { state := ?_, sessions := fun q => ?_, agreed := fun p => ?_, cause := rfl, restarts := rfl, cmdMap := rfl, entries := rfl, sram := rfl,
           skein := rfl, dram := rfl, owner := rfl, keySlot := rfl }
  · simp
  · simp [State.port, Dev.port]
  · simp [State.ply, Dev.ply]

/-- A retained copy found lost changes the cause of the restart under way, and nothing that a restart leaves (R316). -/
theorem RestartedBy.retainedFails {t : State} (h : RestartedBy s t 6) : RestartedBy s t.retainedFails 6 := by
  unfold State.retainedFails
  split
  · exact { h with cause := rfl }
  · exact h

theorem State.retainedFails_of_restarting (h : s.dev.ely.state = .restarting) :
    s.retainedFails = onEly s fun e => { e with lastCause := 6, retainedLost := true } := if_pos h

theorem State.retainedFails_of_not (h : s.dev.ely.state ≠ .restarting) : s.retainedFails = s := if_neg h

section Trigger
variable (hr : Runs s)
include hr

/-- The causes that the island itself finds (R315). -/
theorem elyRestartTrigger_answers {c : Fin 16} (hlow : 1 ≤ c.val) (hhigh : c.val ≤ 5) :
    Answers (.elyRestartTrigger c) s (s.restartElytra c.val) := by
  rw [Answers, exec_elyRestartTrigger, execElyRestartTrigger, State.clocked_of_runs hr, if_neg (by omega), if_pos ⟨hlow, hhigh⟩]

/-- RETAINED_LOST starts a restart where none is under way, and is the cause of one that is (R315, R316). -/
theorem elyRestartTrigger_answers_lost : Answers (.elyRestartTrigger 6) s
    (if s.dev.ely.state = .restarting then s else s.restartElytra 6).retainedFails := by
  rw [Answers, exec_elyRestartTrigger, execElyRestartTrigger, State.clocked_of_runs hr]
  exact if_pos rfl

theorem elyRestartTrigger_answers_lost_within (hstate : s.dev.ely.state = .restarting) :
    Answers (.elyRestartTrigger 6) s (onEly s fun e => { e with lastCause := 6, retainedLost := true }) := by
  have hout := elyRestartTrigger_answers_lost hr
  rwa [if_pos hstate, State.retainedFails_of_restarting hstate] at hout

/-- A cause code that R315 does not list triggers nothing. -/
theorem elyRestartTrigger_answers_unlisted {c : Fin 16} (hc : c.val = 0 ∨ 6 < c.val) : Answers (.elyRestartTrigger c) s s := by
  rw [Answers, exec_elyRestartTrigger, execElyRestartTrigger, State.clocked_of_runs hr, if_neg (by omega), if_neg (by omega)]

theorem elyWatchdogExpiry_answers : Answers .elyWatchdogExpiry s (s.restartElytra 0x2) := by
  rw [Answers, exec_elyWatchdogExpiry, execElyWatchdogExpiry, State.clocked_of_runs hr]

theorem elyRestartTrigger_restarts {c : Fin 16} (hlow : 1 ≤ c.val) (hhigh : c.val ≤ 6) (h : s.dev.ely.MayRestart)
    (hlost : c.val = 6 → s.dev.ely.state ≠ .restarting) : ∃ t, Answers (.elyRestartTrigger c) s t ∧ RestartedBy s t c.val := by
  by_cases hc : c = 6
  · subst hc
    have hout := elyRestartTrigger_answers_lost hr
    rw [if_neg (hlost rfl)] at hout
    exact ⟨_, hout, (State.restartElytra_restartedBy h 6).retainedFails⟩
  · exact ⟨_, elyRestartTrigger_answers hr hlow (by omega), State.restartElytra_restartedBy h c.val⟩

/-- Where Elytra is halted, or in ROM outside ROM mode, nothing restarts it. -/
theorem elyRestartTrigger_answers_of_not (h : ¬ s.dev.ely.MayRestart) (c : Fin 16) : Answers (.elyRestartTrigger c) s s := by
  have hstate : s.dev.ely.state ≠ .restarting := fun hs => h (.inr (.inl hs))
  rcases (by omega : (c.val = 0 ∨ 6 < c.val) ∨ (1 ≤ c.val ∧ c.val ≤ 5) ∨ c = 6) with hc | ⟨hlow, hhigh⟩ | rfl
  · exact elyRestartTrigger_answers_unlisted hr hc
  · simpa only [State.restartElytra_of_not h] using elyRestartTrigger_answers hr hlow hhigh
  · simpa only [if_neg hstate, State.restartElytra_of_not h, State.retainedFails_of_not hstate] using elyRestartTrigger_answers_lost hr

theorem elyWatchdogExpiry_answers_of_not (h : ¬ s.dev.ely.MayRestart) : Answers .elyWatchdogExpiry s s := by
  simpa only [State.restartElytra_of_not h] using elyWatchdogExpiry_answers hr

end Trigger

/-! What a restart reloads (R316) -/

theorem Dev.reloadFrom_retained {d : Dev} {c : Container} (hrun : d.ely.running = some c) (hkept : d.ely.retainedLost = false)
    (hdigest : sha384 (({ c with bytes := d.ely.copy } : Container).content 1) = d.ely.fwDigest) :
    d.reloadFrom = some ({ c with bytes := d.ely.copy }, false) := by
  simp only [Dev.reloadFrom, hrun, hkept, hdigest, Bool.not_false, beq_self_eq_true, Bool.and_self, if_true]

theorem Dev.reloadFrom_nothing {d : Dev} (h : d.ely.running = none ∨ (d.ely.retainedLost = true ∧ d.ccn.flash = false)) : d.reloadFrom = none := by
  cases hrun : d.ely.running with
  | none => simp only [Dev.reloadFrom, hrun]
  | some c =>
    obtain ⟨hlost, hflash⟩ := h.resolve_left (hrun ▸ Option.some_ne_none c)
    simp only [Dev.reloadFrom, hrun, hlost, hflash, Bool.not_true, Bool.false_and, Bool.false_eq_true, Bool.not_false, if_false, if_true]

section Done
variable (hr : Runs s) (hstate : s.dev.ely.state = .restarting)
include hr hstate

theorem elyRestartDone_answers_halted (hnone : s.dev.reloadFrom = none) : Answers .elyRestartDone s (onEly s fun e => { e with state := .halted }) := by
  simp only [Answers, exec_elyRestartDone, execElyRestartDone, State.clocked_of_runs hr, hstate, ne_eq, not_true, if_false, hnone]
  rfl

theorem elyRestartDone_answers {c : Container} {flash : Bool} (hfrom : s.dev.reloadFrom = some (c, flash)) :
    let e := s.dev.ely
    let m := sha384 (at' e.measures 7 ++ sha384 (c.content 1) ++ bytesOf 1 e.lastCause)
    let u := onEly s fun e => { e with state := .running, cmdMap := firmwareMap, entries := firmwareEntries, locked := true, sram := c.forSram,
                                       measures := put e.measures 7 m, copy := if flash then c.bytes else e.copy, retainedLost := false }
    Answers .elyRestartDone s (allPorts.foldl (fun u q => u.onDev fun d => d.logEvent q 0x40 0x0800 0 ([BitVec.ofNat 8 e.lastCause] ++ m.take 15)) u) := by
  simp only [Answers, exec_elyRestartDone, execElyRestartDone, State.clocked_of_runs hr, hstate, ne_eq, not_true, if_false, hfrom, onEly, State.onDev,
    Ely.reload, at'_put_self, State.each]

end Done
end Restart

/-- Settles O37: it holds, each clause by the lemma of its row. The model's choice, and not the manual's words, is that a retained copy found lost becomes the
cause of the restart under way (log entry 58). -/
theorem elytraRestartResults : Obligations.ElytraRestartResults := by
  intro s hr e restarts
  refine ⟨fun c hlow hhigh hmay hlost => ?_, ⟨fun hnot => ⟨elyRestartTrigger_answers_of_not hr hnot, elyWatchdogExpiry_answers_of_not hr hnot⟩,
    fun c => elyRestartTrigger_answers_unlisted hr⟩, fun hstate => ?_, elyWatchdogExpiry_answers hr, fun hstate =>
    ⟨fun c => Dev.reloadFrom_retained, Dev.reloadFrom_nothing, elyRestartDone_answers_halted hr hstate, fun c flash => elyRestartDone_answers hr hstate⟩⟩
  · obtain ⟨t, hout, ht⟩ := elyRestartTrigger_restarts hr hlow hhigh hmay hlost
    exact ⟨t, hout, ht.state, ht.cause, ht.restarts, ht.cmdMap, ht.entries, ht.sram, ht.sessions, ht.agreed, ht.skein, ht.dram, ht.owner, ht.keySlot⟩
  · exact elyRestartTrigger_answers_lost_within hr hstate

end Sys2Proof.Machine

namespace Sys2Proof.Machine
open Sys2Proof.Claims

/-! Resets and boot (R292, R435, R437-R440, R459) -/
section Boot
variable {s : State}

theorem vaonApply_answers (hoff : s.dev.power.vaonOk = false) : Answers .vaonApply s (s.onDev fun d =>
    { d with power := { d.power with vaonOk := true }, ccn := { d.ccn with pwrcyc := min 0xFFFFFF (d.ccn.pwrcyc + 1) } }) := by
  simp only [Answers, exec_vaonApply, execVaonApply, hoff, Bool.false_eq_true, if_false]

section Supplied
variable (hvaon : s.dev.power.vaonOk = true) (htrip : s.dev.power.tripped = false)
include hvaon htrip

theorem thermtrip_answers :
    let u := s.cocoon 0x1002 sevCritical 0x40 []
    let d := u.dev
    let v := u.resetTo { d.power.keptBy d.power.lastCause with tripped := true } d.ely.fused d.bist.keptOn d.ccn (d.touch.keptOn .none) d.keptRegs
    Answers .thermtrip s { v with dram := v.dram.lose fun _ => true } := by
  simp only [Answers, exec_thermtrip, execThermtrip, hvaon, htrip, Bool.not_true, Bool.or_self, Bool.false_eq_true, if_false]

/-- The ROM has not run: neither firmware nor ROM mode, and no memory description (R292). -/
theorem boot_answers (b : BootIn) (hely : s.dev.ely.state = .rom) (hrom : s.dev.ely.romMode = false) (hdesc : s.dev.mc.desc = none) :
    let u := s.onDev fun d => { d with refclk := true, power := { d.power with strap := b.strap, vddg := b.vddg, held := false },
                                       ccn := { d.ccn with flash := b.flash } }
    let v := (u.startTest b.fails).bootRom
    Answers (.boot b) s (if leAt (v.dev.ccn.newestCounter.getD []) 5 3 ≠ v.dev.ccn.pwrcyc then v.onDev Dev.persistCounters else v) := by
  simp only [Answers, exec_boot, execBoot, hvaon, htrip, hely, hrom, hdesc, Bool.not_true, bne_self_eq_false, Option.isSome_none, Bool.or_self,
    Bool.false_eq_true, if_false, bne_iff_ne]

theorem watchExit_answers (b : BootIn) (hwatch : s.dev.power.state = .watch) (hheld : s.dev.power.held = false) :
    let d := s.dev
    let u := { s with dram := s.dram.lose fun _ => true }.resetTo { d.power.keptBy 4 with vddg := b.vddg } d.ely.fused d.bist.keptOn d.ccn
      (d.touch.keptOn .kept) d.keptRegs
    let v := allPorts.foldl (fun v q => v.updPort q fun pt => { pt with linkDowns := (d.port q).linkDowns }) u
    Answers (.watchExit b) s (((v.updPort d.power.watchPort fun pt => { pt with perst := false }).startTest b.fails).bootRom) := by
  simp only [Answers, exec_watchExit, execWatchExit, hwatch, hvaon, htrip, hheld, Bool.not_true, bne_self_eq_false, Bool.or_self,
    Bool.false_eq_true, if_false, State.each]

end Supplied

theorem warmReset_answers (hr : Runs s) (hdue : s.dev.power.resetDue = true) :
    let u := (allPorts.filter fun q => s.dev.portPresent q && (s.port q).linkUp).foldl (fun u q => u.linkDown q .dlDown false) s
    let d := u.dev
    let ely := { d.ely.fused with secWm := d.ely.secWm, keySlot := put Ely.blank.keySlot 64 (at' d.ely.keySlot 64), fwDigest := d.ely.fwDigest,
                                  unscrubbed := true }
    let touch := { d.touch.keptOn .none with blocked := d.touch.blocked, wakeX := d.touch.wakeX, wakeY := d.touch.wakeY, wakeN := d.touch.wakeN,
                                             trail := d.touch.trail }
    Answers .warmReset s ((u.resetTo (d.power.keptBy 3) ely d.bist.keptOn d.ccn touch d.keptRegs).bootRom) := by
  simp only [Answers, exec_warmReset, execWarmReset, State.clocked_of_runs hr, hdue, Bool.not_true, Bool.false_eq_true, if_false, State.each]

section RomMode
variable {o : Nat} {j : Journal} (hr : Runs s) (hcmd : s.commandAny o 0x02 = some j) (hwf : j.wellFormed = true) (hely : s.dev.ely.state = .rom)
  (hrom : s.dev.ely.romMode = true) (hport : j.port = 0) (hn : j.arg 8 4 ≠ 0)
include hr hcmd hwf hely hrom hport hn

theorem containerLoad_starts (c : Container) : StartsRead (.containerLoad o (some c)) s j (j.arg 0 8) (j.arg 8 4) := by
  intro hnew _
  simp only [Answers, exec_containerLoad, execContainerLoad, State.clocked_of_runs hr, hcmd, hwf, hely, hrom, hport, if_neg hn, beq_self_eq_true,
    Bool.and_self, Bool.not_true, Bool.false_eq_true, if_false]
  rw [State.fetchBuffer_starts _ _ hnew hn, hport]

/-- A container that has been read is answered before it is judged, and then started (R292). -/
theorem containerLoad_of_read {c : Container} {u : State} (hread : bufferRead s j (j.arg 8 4) c c = some (u, c)) :
    let k := c.sized (j.arg 8 4)
    (k.valid u.dev.ely = false → Answers (.containerLoad o (some c)) s (u.answer j mbBadContainer [])) ∧
    (k.valid u.dev.ely = true → Answers (.containerLoad o (some c)) s ((u.answer j mbOk []).bootFrom k 0 0)) := by
  have hdata := bufferRead_data hn hread (some c) none
  simp only [Answers, exec_containerLoad, execContainerLoad, State.clocked_of_runs hr, hcmd, hwf, hely, hrom, hport, if_neg hn, beq_self_eq_true,
    Bool.and_self, Bool.not_true, Bool.false_eq_true, if_false, Option.map_some, State.fetchBuffer_of_read hdata]
  refine ⟨fun hbad => ?_, fun hgood => ?_⟩
  · rw [hbad]
    rfl
  · rw [hgood]
    rfl

end RomMode
end Boot

theorem resetAndBootResults : ResetAndBootResults := fun _ =>
  ⟨exec_vaonReset _, exec_pwronRstNAssert _, vaonApply_answers, thermtrip_answers, fun b hvaon htrip => boot_answers hvaon htrip b,
    fun _ _ c hr hcmd hwf hely hrom hport hn =>
      ⟨containerLoad_starts hr hcmd hwf hely hrom hport (Nat.ne_of_gt hn) c,
        fun _ => containerLoad_of_read hr hcmd hwf hely hrom hport (Nat.ne_of_gt hn)⟩,
    warmReset_answers, fun b hwatch hvaon htrip => watchExit_answers hvaon htrip b hwatch⟩

/-! What a cold reset leaves (R438) -/

theorem coldResetKeepsFusesAndFlash : ColdResetKeepsFusesAndFlash := by
  intro s cause ok tripped seen t
  have hheld : t.dev.power.held = true := rfl
  have hstill : ¬ Runs t := by simp [Runs, Dev.alive, hheld]
  have habsent (p : Fin 64) : t.ply p = Ply.absent := at'_replicate ..
  exact ⟨hstill, rfl, rfl, rfl, rfl, rfl, rfl, rfl, rfl, rfl, hheld, rfl, fun p => congrArg Ply.state (habsent p), rfl⟩

/-- Settles O38: it holds, each clause by the lemma of its row. The model's choice, and not the manual's words, are that CONTAINER_LOAD is answered before its
container's memory description and policy are judged, and that BOOT persists a counter entry where the newest one has another power-cycle count (log entry
90), that a warm reset brings every link down with the cause DL_Down, and that LINK_DOWNS counts on after WATCH (entries 84 and 91). -/
theorem resetResults : Obligations.ResetResults := ⟨resetAndBootResults, coldResetKeepsFusesAndFlash⟩

end Sys2Proof.Machine

namespace Sys2Proof.Machine
open Sys2Proof.Claims

/-! The SPDM responder: the connection (R309, R310) -/

/-- A request that reaches a responder is answered (R309). -/
theorem State.spdm_of_responds {s : State} {q : Fin 4} (h : Responds s q) (act : State → State) : s.spdm q act = .next (act s) := by
  obtain ⟨hr, hely, hup⟩ := h
  rw [State.spdm, State.clocked_of_runs hr, if_pos ⟨hely, hup⟩]

section Connection
variable {q : Fin 4} {s : State} (h : Responds s q)
include h

theorem getVersion_answers : Answers (.getVersion q) s ((s.spdmPhase q 1).doe q ([0x10, 0x04, 0, 0, 0, 1] ++ bytesOf 2 0x1200)) := by
  rw [Answers, exec_getVersion, execGetVersion, State.spdm_of_responds h]

theorem getCapabilities_answers : Answers (.getCapabilities q) s
    (if (s.port q).spdm.phase = 1 then
      (s.spdmPhase q 2).doe q (spdmMsg 0x61 0 0 ([0, 0, 0, 0] ++ bytesOf 4 0x000062D6 ++ bytesOf 4 4096 ++ bytesOf 4 4096))
    else s.doe q spdmUnexpected) := by
  rw [Answers, exec_getCapabilities, execGetCapabilities, State.spdm_of_responds h]

theorem negotiateAlgorithms_answers (offered : Bool) : Answers (.negotiateAlgorithms q offered) s
    (if (s.port q).spdm.phase ≠ 2 then s.doe q spdmUnexpected
    else if !offered then s.doe q spdmInvalid
    else (s.spdmPhase q 3).doe q (spdmMsg 0x63 2 0 (bytesOf 4 0x80 ++ bytesOf 4 0x2 ++ bytesOf 2 0x10 ++ bytesOf 2 0x2))) := by
  rw [Answers, exec_negotiateAlgorithms, execNegotiateAlgorithms, State.spdm_of_responds h]

/-- Before the algorithms are negotiated, a request that needs them is out of order. -/
theorem State.negotiated_of_other_phase (hphase : (s.port q).spdm.phase ≠ 3) (act : State → State) :
    s.negotiated q act = .next (s.doe q spdmUnexpected) := by
  rw [State.negotiated, State.spdm_of_responds h, if_neg hphase]

theorem unnegotiated_answers (hphase : (s.port q).spdm.phase ≠ 3) :
    Answers (.getDigests q) s (s.doe q spdmUnexpected) ∧ (∀ x k n, Answers (.getCertificate q x ⟨k, n⟩) s (s.doe q spdmUnexpected)) ∧
    (∀ x, Answers (.challenge q x) s (s.doe q spdmUnexpected)) ∧ ∀ op b, Answers (.getMeasurements q op b) s (s.doe q spdmUnexpected) := by
  simp only [Answers, exec_getDigests, execGetDigests, exec_getCertificate, execGetCertificate, exec_challenge, execChallenge, exec_getMeasurements,
    execGetMeasurements, State.negotiated_of_other_phase h hphase, implies_true, and_self]

section Negotiated
variable (hphase : (s.port q).spdm.phase = 3)
include hphase

/-- A request that needs a negotiated connection is answered on one. -/
theorem State.negotiated_of_phase (act : State → State) : s.negotiated q act = .next (act s) := by
  rw [State.negotiated, State.spdm_of_responds h, if_pos hphase]

theorem getDigests_answers :
    Answers (.getDigests q) s (s.doe q (spdmMsg 0x01 0 3 (sha384 (s.dev.ely.chain 0) ++ sha384 (s.dev.ely.chain 1)))) := by
  rw [Answers, exec_getDigests, execGetDigests, State.negotiated_of_phase h hphase]

theorem getCertificate_answers (slot off len : Nat) :
    let rest := (s.dev.ely.chain slot).drop off
    let c := rest.take (min len 4080)
    Answers (.getCertificate q slot ⟨off, len⟩) s (if 2 ≤ slot then s.doe q spdmInvalid
      else s.doe q (spdmMsg 0x02 slot 0 (bytesOf 2 c.length ++ bytesOf 2 (min 65535 (rest.length - c.length)) ++ c))) := by
  rw [Answers, exec_getCertificate, execGetCertificate, State.negotiated_of_phase h hphase]

theorem challenge_answers (slot : Nat) : Answers (.challenge q slot) s (if 2 ≤ slot then s.doe q spdmInvalid
    else s.tick.doe q (spdmMsg 0x03 slot 3 ((List.range 176).map (Config.freeByte s.dev.fresh)))) := by
  rw [Answers, exec_challenge, execChallenge, State.negotiated_of_phase h hphase]
  rfl

/-- The number of measurements, one of them, or all of them, with the signature where it is asked for (R310). -/
theorem getMeasurements_answers (signed : Bool) :
    let (u, sig) := if signed then (s.tick, (List.range 96).map (Config.freeByte s.dev.fresh)) else (s, [])
    Answers (.getMeasurements q 0 signed) s (u.doe q (spdmMsg 0x60 8 0 ([0, 0, 0, 0] ++ sig))) ∧
    (∀ i : Fin 8, let body := measurementBlock s.dev.ely i
      Answers (.getMeasurements q (i.val + 1) signed) s (u.doe q (spdmMsg 0x60 0 0 ([1] ++ bytesOf 3 body.length ++ body ++ sig)))) ∧
    let all := ([0, 1, 2, 3, 4, 5, 6, 7] : List (Fin 8)).flatMap (measurementBlock s.dev.ely)
    Answers (.getMeasurements q 0xFF signed) s (u.doe q (spdmMsg 0x60 0 0 ([8] ++ bytesOf 3 all.length ++ all ++ sig))) := by
  simp only [Answers, exec_getMeasurements, execGetMeasurements, State.negotiated_of_phase h hphase, State.freeBytes]
  refine ⟨rfl, fun i => ?_, rfl⟩
  have hlast : i.val + 1 ≠ 0xFF := by omega
  rw [if_neg (Nat.succ_ne_zero _), if_neg hlast, Nat.add_sub_cancel, fin?_eq_some rfl]

end Negotiated
end Connection

theorem spdmConnectionResults : SpdmConnectionResults := by
  intro q s h free
  refine ⟨getVersion_answers h, fun hphase => ?_, fun hphase => ?_, fun hphase b => ?_, fun hphase => ?_,
    unnegotiated_answers h, fun hphase => ?_⟩
  · simpa only [if_neg hphase] using getCapabilities_answers h
  · simpa only [if_pos hphase] using getCapabilities_answers h
  · simpa only [if_pos hphase] using negotiateAlgorithms_answers h b
  · have hout := negotiateAlgorithms_answers h
    simp only [if_neg (not_not.mpr hphase)] at hout
    exact ⟨hout false, hout true⟩
  · have hout (x k n : Nat) := And.intro (getCertificate_answers h hphase x k n) (challenge_answers h hphase x)
    refine ⟨getDigests_answers h hphase, fun x k n hx => ?_, fun x k n hx => ?_, getMeasurements_answers h hphase⟩
    · simpa only [if_pos hx] using hout x k n
    · simpa only [if_neg (Nat.not_le.mpr hx)] using hout x k n

/-! The SPDM responder: sessions and IDE keys (R308, R309, R311) -/

/-- The first number that a test accepts is found. -/
theorem find?_allFin_of_first {n : Nat} {test : Fin n → Bool} {i : Fin n} (hi : test i = true) (hfirst : ∀ k < i, test k = false) :
    (allFin n).find? test = some i := by
  refine List.find?_eq_some_iff_getElem.mpr ⟨hi, i.val, by simp [allFin], by simp [allFin], fun k hk => ?_⟩
  simp [allFin, hfirst ⟨k, hk.trans i.isLt⟩ hk]

/-- The sessions of a port changed. -/
def State.setSessions (s : State) (q : Fin 4) (f : List SpdmSession → List SpdmSession) : State :=
  s.updPort q fun pt => { pt with spdm := { pt.spdm with sessions := f pt.spdm.sessions } }

section Sessions
variable {q i : Fin 4} {s : State} (h : Responds s q)
include h

section Opening
variable (hphase : (s.port q).spdm.phase = 3)
include hphase

theorem keyExchange_answers_limit (hfull : ∀ k : Fin 4, ((s.port q).spdm.session k).isSome = true) :
    Answers (.keyExchange q) s (s.doe q spdmSessionLimit) := by
  have hnone : ((allFin 4).find? fun i => ((s.port q).spdm.session i).isNone) = none := by
    simpa [allFin, Option.isSome_iff_ne_none] using hfull
  rw [Answers, exec_keyExchange, execKeyExchange, State.negotiated_of_phase h hphase, hnone]

theorem keyExchange_answers (hfree : ((s.port q).spdm.session i).isNone = true) (hfirst : ∀ k < i, ((s.port q).spdm.session k).isSome = true) :
    Answers (.keyExchange q) s
      (((onEly s fun e => { e with nextKey := e.nextKey + 1 }).setSessions q fun l =>
        l ++ [{ id := i.val, opening := true, keyGen := s.dev.ely.nextKey }]).tick.doe q
        (spdmMsg 0x64 0 0 (bytesOf 2 i.val ++ (List.range 272).map (Config.freeByte s.dev.fresh)))) := by
  have hfind : ((allFin 4).find? fun i => ((s.port q).spdm.session i).isNone) = some i :=
    find?_allFin_of_first hfree (by simpa using hfirst)
  rw [Answers, exec_keyExchange, execKeyExchange, State.negotiated_of_phase h hphase, hfind]
  rfl

theorem finish_answers {x : SpdmSession} (hx : (s.port q).spdm.session i = some x) (hopen : x.opening = true) :
    Answers (.finish q i true) s
      ((s.setSessions q fun l => l.map fun y => if y.id = i.val then { y with opening := false } else y).doe q (spdmMsg 0x65 0 0 [])) ∧
    Answers (.finish q i false) s ((s.setSessions q fun l => l.filter (·.id != i.val)).doe q (spdmMsg 0x7F 0x06 0 [])) := by
  simp only [Answers, exec_finish, execFinish, State.negotiated_of_phase h hphase, hx, hopen]
  exact ⟨rfl, rfl⟩

end Opening

/-- A request outside every session of the port is out of order. -/
theorem State.inSession_of_none (hnone : ((s.port q).spdm.session i).isNone = true) (act : State → State) :
    s.inSession q i act = .next (s.doe q spdmUnexpected) := by
  rw [State.inSession, State.spdm_of_responds h, Option.isNone_iff_eq_none.mp hnone]

end Sessions

/-- A request inside an established session of the port is answered. -/
theorem State.inSession_of_inSession {s : State} {q i : Fin 4} (h : InSession s q i) (act : State → State) : s.inSession q i act = .next (act s) := by
  obtain ⟨hresp, x, hx, hopen⟩ := h
  simp only [State.inSession, State.spdm_of_responds hresp, hx, hopen, Bool.false_eq_true, if_false]

theorem spdmSessionResults : SpdmSessionResults := by
  intro q i s h set keyed
  refine ⟨fun hphase => ⟨keyExchange_answers_limit h hphase, keyExchange_answers h hphase, fun x => finish_answers h hphase⟩,
    fun st hin => ?_, fun hnone st => ?_⟩
  · simp only [Answers, exec_keyUpdate, execKeyUpdate, exec_spdmHeartbeat, execSpdmHeartbeat, exec_endSession, execEndSession, exec_vendorDefined,
      execVendorDefined, exec_keyProg, execKeyProg, exec_kSetStop, execKSetStop, State.inSession_of_inSession hin]
    exact ⟨rfl, trivial, rfl, trivial, rfl, trivial⟩
  · simp only [Answers, exec_keyUpdate, execKeyUpdate, exec_keyProg, execKeyProg, exec_kSetStop, execKSetStop, State.inSession_of_none h hnone, and_self]

/-- Settles O39: it holds, each clause by the lemma of its row. The model's choice, and not the manual's words, are the codes, the order and the sizes of the
messages, which are those of SPDM 1.2, and the free values of signatures and key shares (log entry 61). -/
theorem spdmResults : Obligations.SpdmResults := ⟨spdmConnectionResults, spdmSessionResults⟩

end Sys2Proof.Machine

namespace Sys2Proof.Machine
open Sys2Proof.Claims

/-! Power commands (R313, R431-R433, R438, R440) -/

/-- What a PWR_ISLAND that nothing refuses does: a claim denies it, else its changes are queued and it waits for them. -/
def State.changeIslands (s : State) (o : Nat) (j : Journal) : State :=
  let on := maskIslands (j.arg 0 4)
  let off := maskIslands (j.arg 4 4)
  match s.dev.claimed o (off.map (·.val)) with
  | some c => s.denyPower j c
  | none => (s.updPower fun p => p.queue ((allFin 32).filterMap fun i =>
      if on.contains i then some (i, true) else if off.contains i then some (i, false) else none)).hold j

/-- What a PWR_STATE to WATCH that nothing refuses does: a claim denies it, else it waits for the boundary. -/
def State.awaitWatch (s : State) (o : Nat) (j : Journal) : State :=
  match s.dev.claimed o ((List.range 25).map (· + 1)) with
  | some c => s.denyPower j c
  | none => (s.updPower fun p => { p with pendState := some .watch, moult := j.arg 1 1 == 1 }).hold j

/-- A head is on, or is to turn on (R433). -/
def Dev.headNeedsVddc (d : Dev) : Bool :=
  (allFin 8).any fun h => d.headOn h || (match (d.head h).armed with | some t => t.enable | none => false)

theorem Dev.headNeedsVddc_of_headOn {d : Dev} {h : Fin 8} (hon : d.headOn h = true) : d.headNeedsVddc = true :=
  List.any_eq_true.mpr ⟨h, List.mem_finRange h, by rw [hon, Bool.true_or]⟩

theorem Dev.headNeedsVddc_eq_false {d : Dev} (hoff : ∀ h, d.headOn h = false ∧ (d.head h).armed = none) : d.headNeedsVddc = false :=
  List.any_eq_false.mpr fun h _ => by simp only [hoff h, Bool.or_self, Bool.false_eq_true, not_false_eq_true]

section PowerCommands
variable {o : Nat} {s : State} {j : Journal}

/-- PWR_STATE to RUN or DIM is accepted, and held until the state and the graphics islands that it asks for are reached (R432). -/
theorem State.pwrState_of_managed (hj : Managed s o 0x50 j) {target : Nat} (htarget : j.arg 0 1 = target) (hflags : j.arg 1 1 = 0) :
    s.pwrState o target = .next
      (if j.begun then (if s.dev.power.pendState.isNone && s.dev.gfxIslands.all s.dev.islandSettled then s.answer j mbOk [] else s)
      else (s.updPower fun p => { p.queue (s.dev.gfxIslands.map fun i => (i, target == 1)) with
              pendState := some (if target = 1 then .run else .dim), moult := false }).hold j) := by
  have hargs : ¬(j.arg 0 1 ≠ target ∨ j.arg 1 1 ≠ 0) := by
    simp only [htarget, hflags, ne_eq, not_true, or_self, not_false_eq_true]
  have ⟨_, hcmd, _⟩ := hj
  simp only [State.pwrState, hcmd, State.managed_of_managed hj, if_neg hargs]
  simp only [htarget, bne_self_eq_false, Bool.and_false, Bool.false_and, Bool.false_eq_true, if_false]

/-- The row of PWR_STATE with a target: RUN or DIM. -/
theorem pwrState_answers {c : Instr} {target : Nat} {st : PowerState} (hc : exec c s = s.clocked fun s => s.pwrState o target)
    (hst : (if target = 1 then .run else .dim) = st) (hj : Managed s o 0x50 j) (htarget : j.arg 0 1 = target) (hflags : j.arg 1 1 = 0) :
    (j.begun = false → Answers c s ((s.updPower fun p => { p.queue (s.dev.gfxIslands.map fun i => (i, target == 1)) with
      pendState := some st, moult := false }).hold j)) ∧
    (j.begun = true → s.dev.power.pendState = none → (∀ i ∈ s.dev.gfxIslands, s.dev.islandSettled i = true) → Answers c s (s.answer j mbOk [])) := by
  simp only [Answers, hc, State.clocked_of_runs hj.1, State.pwrState_of_managed hj htarget hflags, hst]
  refine ⟨fun hnew => ?_, fun hbegun hstate hsettled => ?_⟩
  · simp only [hnew, Bool.false_eq_true, if_false]
  · simp only [hbegun, hstate, List.all_eq_true.mpr hsettled, Option.isNone_none, Bool.and_self, if_true]

section Islands
variable (hj : Managed s o 0x51 j) (hmasks : Nat.land (j.arg 0 4) (j.arg 4 4) = 0)
include hj hmasks

theorem pwrIsland_answers_reached (hbegun : j.begun = true)
    (hsettled : ∀ i ∈ maskIslands (j.arg 0 4) ++ maskIslands (j.arg 4 4), s.dev.islandSettled i = true) :
    Answers (.pwrIsland o) s (s.answer j mbOk []) := by
  simp only [Answers, exec_pwrIsland, execPwrIsland, State.clocked_of_runs hj.1, State.managed_of_managed hj, if_neg (not_not.mpr hmasks), hbegun,
    List.all_eq_true.mpr hsettled, if_true]

/-- Islands of the variant that may change: a claim on one that would lose its power denies the command, else their changes are queued (R313, R431, R432). -/
theorem pwrIsland_answers (hnew : j.begun = false) (hexist : ∀ i ∈ maskIslands (j.arg 0 4) ++ maskIslands (j.arg 4 4), s.dev.islandExists i.val = true)
    (hvaon : (maskIslands (j.arg 0 4)).contains 0 = false) (hoff : ∀ i ∈ maskIslands (j.arg 4 4), s.dev.offRefused i.val = false) :
    Answers (.pwrIsland o) s (s.changeIslands o j) := by
  have habsent : ((maskIslands (j.arg 0 4) ++ maskIslands (j.arg 4 4)).any fun i => !s.dev.islandExists i.val) = false :=
    List.any_eq_false.mpr fun i hi => by simp only [hexist i hi, Bool.not_true, Bool.false_eq_true, not_false_eq_true]
  have hrefused : ((maskIslands (j.arg 4 4)).any fun i => s.dev.offRefused i.val) = false :=
    List.any_eq_false.mpr fun i hi => ne_true_of_eq_false (hoff i hi)
  simp only [Answers, exec_pwrIsland, execPwrIsland, State.clocked_of_runs hj.1, State.managed_of_managed hj, if_neg (not_not.mpr hmasks), hnew,
    habsent, hvaon, hrefused, Bool.or_self, Bool.false_eq_true, if_false]
  rfl

end Islands

/-- An operating point that its rail has is accepted and held until it swaps in; VDDC is not lowered under a head that is on, or is to turn on (R433). -/
theorem pwrOppoint_answers (hj : Managed s o 0x52 j) (hargs : (j.arg 0 1 = 0 ∧ j.arg 1 1 ≤ 1) ∨ (j.arg 0 1 = 1 ∧ j.arg 1 1 ≤ 4)) :
    Answers (.pwrOppoint o) s
      (if j.begun then (if (if j.arg 0 1 = 0 then s.dev.power.pendVc else s.dev.power.pendVg).isNone then s.answer j mbOk [] else s)
      else if j.arg 0 1 = 0 ∧ j.arg 1 1 = 0 ∧ s.dev.headNeedsVddc then s.answer j mbBadState []
      else (s.updPower fun p => if j.arg 0 1 = 0 then { p with pendVc := some (j.arg 1 1) } else { p with pendVg := some (j.arg 1 1) }).hold j) := by
  have hbad : ¬(1 < j.arg 0 1 ∨ (j.arg 0 1 = 0 ∧ 1 < j.arg 1 1) ∨ (j.arg 0 1 = 1 ∧ 4 < j.arg 1 1)) := by omega
  simp only [Answers, exec_pwrOppoint, execPwrOppoint, State.clocked_of_runs hj.1, State.managed_of_managed hj, if_neg hbad]
  rfl

theorem pwrReset_answers (hj : Managed s o 0x53 j) (harg : j.arg 0 1 = 1) :
    Answers (.pwrReset o) s ((s.updPower fun p => { p with resetDue := true }).answer j mbOk []) := by
  simp only [Answers, exec_pwrReset, execPwrReset, State.clocked_of_runs hj.1, State.managed_of_managed hj, if_neg (not_not.mpr harg)]

/-- A PWR_STATE to WATCH with nothing in its way: a claim denies it, else it waits for the boundary (R313, R440). -/
theorem pwrStateWatch_answers (fails : Nat) (hj : Managed s o 0x50 j) (hstay : s.dev.power.state ≠ .leaving) (htarget : j.arg 0 1 = 3) (hflags : j.arg 1 1 ≤ 1)
    (hnew : j.begun = false) (habsent : ∀ p : Fin 64, (s.ply p).state = .absent) (halone : s.dev.whorl.member = false)
    (hup : j.arg 1 1 = 1 → ∀ i ∈ s.dev.gfxIslands, s.dev.island i = .good) :
    Answers (.pwrStateWatch o fails) s (s.awaitWatch o j) := by
  have hplies : (allPlies.any fun p => (s.dev.ply p).state != .absent) = false :=
    List.any_eq_false.mpr fun p _ => by simp [show (s.dev.ply p).state = .absent from habsent p]
  have hislands : (j.arg 1 1 == 1 && s.dev.gfxIslands.any fun i => s.dev.island i != .good) = false := by
    simpa using hup
  have hargs : ¬(j.arg 0 1 ≠ 3 ∨ 1 < j.arg 1 1) := by omega
  have ⟨_, hcmd, _⟩ := hj
  simp only [Answers, exec_pwrStateWatch, execPwrStateWatch, State.clocked_of_runs hj.1, hcmd, State.managed_of_managed hj, if_neg hargs, hnew, hplies,
    halone, hislands, Bool.or_self, Bool.false_eq_true, if_false, beq_eq_false_iff_ne.mpr hstay]
  simp only [htarget, Nat.reduceBEq, Bool.or_self, Bool.and_false, Bool.false_eq_true, if_false]
  rfl

theorem pwrStateWatch_answers_leaving (fails : Nat) (hr : Runs s) (hleaves : s.dev.power.state = .leaving) :
    Answers (.pwrStateWatch o fails) s (s.goDown o fails) := by
  simp only [Answers, exec_pwrStateWatch, execPwrStateWatch, State.clocked_of_runs hr, hleaves, beq_self_eq_true, if_true]

end PowerCommands

theorem powerCommandResults : PowerCommandResults := by
  intro o s j set settles
  have hset : set = State.updPower := rfl
  refine ⟨pwrState_answers rfl rfl, pwrState_answers rfl rfl,
    fun hj hmasks => ⟨pwrIsland_answers_reached hj hmasks, fun hnew hexist hvaon hoff => ?island⟩,
    fun hj => ⟨fun hrail hpt => ?vddc, fun hrail hpt => ?vddg⟩, pwrReset_answers,
    fun fails => ⟨fun hj hstay htarget hflags hnew habsent halone hup => ?watch, pwrStateWatch_answers_leaving fails⟩⟩
  case island =>
    have hout := pwrIsland_answers hj hmasks hnew hexist hvaon hoff
    refine ⟨fun c hclaim => ?_, fun hclaim => ?_⟩
    · simpa only [State.changeIslands, hclaim] using hout
    · simpa only [hset, State.changeIslands, hclaim] using hout
  case vddc =>
    have hout := pwrOppoint_answers hj (.inl ⟨hrail, hpt⟩)
    simp only [hrail, true_and, if_true] at hout
    refine ⟨fun hbegun hdone => ?_, fun hnew hhigh => ?_, fun hnew hlow hon => ?_, fun hnew hlow hoff => ?_⟩
    · simpa only [hbegun, hdone, Option.isNone_none, if_true] using hout
    · simpa only [hset, hnew, hhigh, Bool.false_eq_true, Nat.one_ne_zero, false_and, if_false] using hout
    · obtain ⟨h, hh⟩ := hon
      simpa only [hnew, hlow, Dev.headNeedsVddc_of_headOn hh, Bool.false_eq_true, if_false, and_self, if_true] using hout
    · simpa only [hset, hnew, hlow, Dev.headNeedsVddc_eq_false hoff, Bool.false_eq_true, and_false, if_false] using hout
  case vddg =>
    have hout := pwrOppoint_answers hj (.inr ⟨hrail, hpt⟩)
    simp only [hrail, Nat.one_ne_zero, false_and, if_false] at hout
    refine ⟨fun hbegun hdone => ?_, fun hnew => ?_⟩
    · simpa only [hbegun, hdone, Option.isNone_none, if_true] using hout
    · simpa only [hset, hnew, Bool.false_eq_true, if_false] using hout
  case watch =>
    have hout := pwrStateWatch_answers fails hj hstay htarget hflags hnew habsent halone hup
    refine ⟨fun hclaim => ?_, fun c hclaim => ?_⟩
    · simpa only [hset, State.awaitWatch, hclaim] using hout
    · simpa only [State.awaitWatch, hclaim] using hout

/-! Islands, clocks and monitors (R419, R425-R427, R430, R431, R434, R436) -/
section PowerEvents
variable {s : State}

/-- The first ramp-up that waits starts once its inrush tokens are granted (R432). -/
theorem islandRampStart_answers (hr : Runs s) {i : Fin 32} {rest : List (Fin 32)} (hwaits : s.dev.power.waits = i :: rest) :
    (s.skein.take .inr (islandHolder i) (islandTokens i.val) = none → Answers .islandRampStart s s) ∧
    ∀ k, s.skein.take .inr (islandHolder i) (islandTokens i.val) = some k →
      Answers .islandRampStart s ((({ s with skein := k } : State).updPower fun p => { p with waits := rest }).setIsland i .ramping) := by
  simp only [Answers, exec_islandRampStart, execIslandRampStart, State.clocked_of_runs hr, hwaits]
  refine ⟨fun hnone => ?_, fun k hk => ?_⟩
  · rw [hnone]
  · rw [hk]

/-- A ramp-up ends: its tokens return, and once no graphics island is on its way the test units put off run (R431, R450). -/
theorem islandPowerGood_answers (hr : Runs s) {i : Fin 32} (fails : Nat) (hramp : s.dev.island i = .ramping) :
    let u := (s.onSkein fun k => k.giveAll .inr (islandHolder i)).setIsland i .good
    let gs := u.dev.gfxIslands
    let v := if (gs.any fun g => u.dev.island g == .waiting || u.dev.island g == .ramping) then u
      else u.runDeferred ((gs.filter fun g => u.dev.island g == .good).map (·.val)) fails
    Answers (.islandPowerGood i fails) s (v.onDev Dev.settlePower) := by
  simp only [Answers, exec_islandPowerGood, execIslandPowerGood, State.clocked_of_runs hr, hramp, bne_self_eq_false, Bool.false_eq_true, if_false]

theorem refclk0Loss_answers (hclk : s.dev.refclk = true) :
    Answers .refclk0Loss s ({ s with dram := s.dram.lose fun _ => true }.onDev fun d => { d with refclk := false }) := by
  simp only [Answers, exec_refclk0Loss, execRefclk0Loss, hclk, Bool.not_true, Bool.false_eq_true, if_false]

theorem refclk0Loss_answers_absent (hclk : s.dev.refclk = false) : Answers .refclk0Loss s s := by
  simp only [Answers, exec_refclk0Loss, execRefclk0Loss, hclk, Bool.not_false, if_true]

theorem fcntStart_answers (hr : Runs s) {q : Fin 4} (hman : s.dev.isManager q = true) (n : Fin 4) (v : Word) :
    let fixed := fun c : Fcnt => { c with gate := clampNat 8 24 (fld v.toNat 28 24), ref := fld v.toNat 21 16, meas := fld v.toNat 13 8 }
    let write := fun c : Fcnt => if c.start then { c with start := bit v.toNat 31 }
      else if bit v.toNat 31 then { fixed c with start := true, done := false, sat := false, count := 0 } else fixed c
    Answers (.fcntStart q n v) s (s.updFcnt n write) := by
  simp only [Answers, exec_fcntStart, execFcntStart, State.clocked_of_runs hr, hman, Bool.not_true, Bool.false_eq_true, if_false]

theorem fcntDone_answers (hr : Runs s) (n : Fin 4) (edges : Nat) :
    let close := fun c : Fcnt => if c.start && !c.done && s.dev.domainRuns c.ref then
      let k := if s.dev.domainOn c.meas then edges else 0
      { c with done := true, sat := decide (2 ^ 32 ≤ k), count := min 0xFFFFFFFF k } else c
    Answers (.fcntDone n edges) s (s.updFcnt n close) := by
  rw [Answers, exec_fcntDone, execFcntDone, State.clocked_of_runs hr]

/-- A sensor's reading, and its warning where it rises through `warn` sixteenths of a degree (R434, R441). -/
def State.readSensor (s : State) (temps : Vector (BitVec 16) 8) (warn : Int) (hyst : Nat) (k : Fin 8) : State :=
  let (t, x) := ((at' temps k).toInt, at' s.dev.power.sensors k)
  let fire := x.armed && decide (warn ≤ t)
  if !s.dev.sensorOn k.val then s.updPower fun p => { p with sensors := put p.sensors k { x with valid := false } }
  else
    let y : Sensor := { valid := true, temp := t, armed := if fire then false else x.armed || decide (t < warn - 16 * hyst) }
    let v := s.updPower fun p => { p with sensors := put p.sensors k y }
    if fire then v.postManager 0x40 0x0E01 k.val (dataBytes [(16, 2, unsigned 16 t)]) else v

theorem tempSample_answers (hr : Runs s) (temps : Vector (BitVec 16) 8) (vaon : Nat) :
    let c := s.dev.reg 0x1B054
    Answers (.tempSample temps vaon) s ((allFin 8).foldl (fun u k => u.readSensor temps (16 * (fld c 23 16 : Nat)) (fld c 11 8) k)
      (s.updPower fun p => { p with vaonNow := min 1023 vaon })) := by
  rw [Answers, exec_tempSample, execTempSample, State.clocked_of_runs hr]
  rfl

theorem vaonWarnStart_answers_warned (hwarn : s.dev.power.vaonWarn = true) : Answers .vaonWarnStart s s := by
  simp only [Answers, exec_vaonWarnStart, execVaonWarnStart, hwarn, Bool.or_true, if_true]

section Supply
variable (hvaon : s.dev.power.vaonOk = true)
include hvaon

/-- VAON falls through its warning level: every haptic channel trips while the clocked part runs (R419, R436). -/
theorem vaonWarnStart_answers (hwarn : s.dev.power.vaonWarn = false) :
    let u := s.updPower fun p => { p with vaonWarn := true }
    Answers .vaonWarnStart s (if u.dev.alive then (allFin 8).foldl (fun u c => u.hapTrip c 5) u else u) := by
  simp only [Answers, exec_vaonWarnStart, execVaonWarnStart, hvaon, hwarn, Bool.not_true, Bool.or_self, Bool.false_eq_true, if_false, State.each]

/-- The end of a dip is recorded and reported, where SLPCLK runs (R425, R436). -/
theorem vaonWarnEnd_answers (hwarn : s.dev.power.vaonWarn = true) (low cycles : Nat) :
    let u := s.onDev fun d => { d with power := { d.power with vaonWarn := false }, haptics := { d.haptics with warnEnd := d.devtime } }
    let v := (u.updPower fun p => { p with dipMin := min 1023 low, dipCycles := min 0xFFFFFFFF cycles }).cocoon 0x1001 sevWarning 0x40
      (bytesOf 2 low ++ bytesOf 2 0 ++ bytesOf 4 cycles)
    Answers (.vaonWarnEnd low cycles) s (if !s.dev.slpclk then u
      else if v.dev.alive then v.postManager 0x40 0x0E00 0 (dataBytes [(16, 2, low), (20, 4, min 0xFFFFFFFF cycles)]) else v) := by
  simp only [Answers, exec_vaonWarnEnd, execVaonWarnEnd, hvaon, hwarn, Bool.not_true, Bool.or_self, Bool.false_eq_true, if_false, State.onDev_dev,
    apply_ite Host.Outcome.next]

end Supply
end PowerEvents

theorem powerEventResults : PowerEventResults := by
  intro s set
  refine ⟨fun i rest hr => islandRampStart_answers hr, fun i fails hr => islandPowerGood_answers hr fails, refclk0Loss_answers, refclk0Loss_answers_absent,
    exec_slpclkLoss s, exec_slpclkReturn s, fun q n v hr hman => fcntStart_answers hr hman n v, fun n edges hr => fcntDone_answers hr n edges,
    fun temps vaon hr => tempSample_answers hr temps vaon, fun hvaon => ⟨vaonWarnStart_answers hvaon, fun hwarn =>
      ⟨vaonWarnStart_answers_warned hwarn, fun low cycles => ?_⟩⟩⟩
  have hout := vaonWarnEnd_answers hvaon hwarn low cycles
  refine ⟨fun hclk => ?_, fun hclk => ?_⟩
  · rwa [hclk] at hout
  · rwa [hclk] at hout

/-- Settles O45: it holds, each clause by the lemma of its row. The model's choice, and not the manual's words, are what a denied or replaced command answers
and the code of a claim in its record (log entry 92), the layout of a VAON dip's record, that an aborted count keeps DONE, and which island a sensor reads with
(entry 93). -/
theorem powerResults : Obligations.PowerResults := ⟨powerCommandResults, powerEventResults⟩

end Sys2Proof.Machine

namespace Sys2Proof.Machine
open Sys2Proof.Claims

/-! The front of the queue, and the completion of every command -/

/-- Settles O1: it holds, since `step` on a queue that is not empty is `exec` of its front. -/
theorem stepRunsFront : Obligations.StepRunsFront := fun _ _ _ => step_of_queue rfl

/-- Settles O5: it holds, since what every command keeps (`exec_keeps`) has the queue in it. -/
theorem everyCommandCompletes : Obligations.EveryCommandCompletes := fun c s =>
  let ⟨t, hexec, hkeeps⟩ := exec_keeps c s
  ⟨t, hexec, hkeeps.pending⟩

/-! The always-on supply (R437) -/

/-- Without VAON a warning's end has nothing to record (R436, R437). -/
theorem vaonWarnEnd_answers_unsupplied {s : State} (hoff : s.dev.power.vaonOk = false) (low cycles : Nat) : Answers (.vaonWarnEnd low cycles) s s := by
  simp only [Answers, exec_vaonWarnEnd, execVaonWarnEnd, hoff, Bool.not_false, Bool.true_or, if_true]

/-- Settles O57: it holds. After the fall VAON is off, so that the end of a warning finds nothing to record; the count saturates as R461 says. -/
theorem supplyFallsAndRises : Obligations.SupplyFallsAndRises := by
  intro s t
  have hoff : t.dev.power.vaonOk = false := rfl
  refine ⟨exec_vaonReset s, rfl, rfl, vaonWarnEnd_answers_unsupplied hoff, fun hvaon => ⟨_, vaonApply_answers hvaon, rfl, fun hlow => ?_, fun htop => ?_⟩⟩
  · exact Nat.min_eq_right hlow
  · simp only [State.onDev_dev, htop, Nat.reduceAdd, Nat.reduceLeDiff, inf_of_le_left]

/-! Time correlation (R332) -/

theorem upd_of_fixed {α : Type} {n : Nat} {v : Vector α n} {i : Fin n} {f : α → α} (h : f (at' v i) = at' v i) : upd v i f = v :=
  (congrArg (put v i) h).trans (Vector.set_getElem_self _)

theorem State.updPort_of_fixed {s : State} {q : Fin 4} {f : Port → Port} (h : f (s.port q) = s.port q) : s.updPort q f = s :=
  congrArg (fun ports => { s with dev := { s.dev with ports := ports } }) (upd_of_fixed h)

section TimeCorrelation
variable {q : Fin 4} {s : State}

/-- A PTM exchange that starts now: its t1 is recorded and its request leaves. -/
def State.requestTime (s : State) (q : Fin 4) : State :=
  (s.updPort q fun pt => { pt with ptmT1 := some s.dev.devtime }).emit (.pcieMsg q "PTM Request" 0)

theorem State.startPtm_of_enabled (hup : (s.port q).linkUp = true) (hen : (s.port q).ptmEn = true) : s.startPtm q = s.requestTime q :=
  if_pos ⟨hup, hen⟩

theorem State.startPtm_of_disabled (hdis : (s.port q).ptmEn = false) : s.startPtm q = s :=
  if_neg fun h => Bool.false_ne_true (hdis.symm.trans h.2)

/-- PORT_PTM_CTL as a write of `v` leaves it (R330). -/
def State.writePtmCtl (s : State) (q : Fin 4) (v : Word) : State :=
  s.updPort q fun pt => { pt with regs := Map.ins pt.regs 0x10 (word (portRegClamp 0x10 (v &&& 0x800000FF).toNat)) }

theorem State.writePtmCtl_linkUp (v : Word) : ((s.writePtmCtl q v).port q).linkUp = (s.port q).linkUp := by
  rw [State.writePtmCtl, State.port_updPort_self]

theorem State.writePtmCtl_ptmEn (v : Word) : ((s.writePtmCtl q v).port q).ptmEn = (s.port q).ptmEn := by
  rw [State.writePtmCtl, State.port_updPort_self]
  rfl

variable (hr : Runs s)
include hr

theorem ptmTimer_answers : Answers (.ptmTimer q) s (if bit ((s.port q).reg 0x10) 31 then s.startPtm q else s) := by
  simp only [Answers, exec_ptmTimer, execPtmTimer, State.clocked_of_runs hr, apply_ite Host.Outcome.next]

theorem ptmNow_answers (hup : (s.port q).linkUp = true) (v : Word) :
    Answers (.ptmNow q v) s (if bit v.toNat 30 then (s.writePtmCtl q v).startPtm q else s.writePtmCtl q v) := by
  simp only [Answers, exec_ptmNow, execPtmNow, State.clocked_of_runs hr, hup, Bool.not_true, Bool.false_eq_true, if_false]
  rfl

theorem ptmResponse_answers_unasked (hnone : (s.port q).ptmT1 = none) (t2 d : Nat) : Answers (.ptmResponse q t2 d) s s := by
  simp only [Answers, exec_ptmResponse, execPtmResponse, State.clocked_of_runs hr, hnone]

theorem ptmResponse_answers {t1 : Nat} (hen : (s.port q).ptmEn = true) (ht1 : (s.port q).ptmT1 = some t1) (t2 d : Nat) :
    Answers (.ptmResponse q t2 d) s (s.updPort q fun pt =>
      { pt with ptmT1 := none, ptmSeq := pt.ptmSeq + 2, ptmDev := BitVec.ofNat 64 s.dev.devtime, ptmHost := hostAt t1 t2 d s.dev.devtime }) := by
  simp only [Answers, exec_ptmResponse, execPtmResponse, State.clocked_of_runs hr, ht1, hen, if_true]

/-- With PTM disabled a response only ends its exchange, if there is one. -/
theorem ptmResponse_answers_disabled (hdis : (s.port q).ptmEn = false) (t2 d : Nat) :
    Answers (.ptmResponse q t2 d) s (s.updPort q fun pt => { pt with ptmT1 := none }) := by
  cases ht1 : (s.port q).ptmT1 with
  | none =>
    rw [State.updPort_of_fixed (f := fun pt => { pt with ptmT1 := none }) (congrArg (fun o => { s.port q with ptmT1 := o }) ht1.symm)]
    exact ptmResponse_answers_unasked hr ht1 t2 d
  | some t1 =>
    simp only [Answers, exec_ptmResponse, execPtmResponse, State.clocked_of_runs hr, ht1, hdis, Bool.false_eq_true, if_false]

end TimeCorrelation

/-- Settles O33: it holds, each clause by the lemma of its row. That an exchange which starts takes the place of one still out is the model's choice (log
entry 60). -/
theorem timeCorrelationResults : Obligations.TimeCorrelationResults := by
  intro q s hr hup store
  refine ⟨fun hen => ?enabled, fun hdis => ?disabled, ptmResponse_answers_unasked hr⟩
  case enabled =>
    refine ⟨fun hauto => ?_, fun hauto => ?_, fun v => ?_, fun t1 t2 d ht1 => ptmResponse_answers hr hen ht1 t2 d⟩
    · have hout := ptmTimer_answers (q := q) hr
      rwa [if_pos hauto, State.startPtm_of_enabled hup hen] at hout
    · simpa only [hauto, Bool.false_eq_true, if_false] using ptmTimer_answers (q := q) hr
    · have hout := ptmNow_answers hr hup v
      rw [State.startPtm_of_enabled ((State.writePtmCtl_linkUp v).trans hup) ((State.writePtmCtl_ptmEn v).trans hen)] at hout
      exact hout
  case disabled =>
    refine ⟨?_, fun v => ?_, ptmResponse_answers_disabled hr hdis⟩
    · simpa only [State.startPtm_of_disabled hdis, ite_self] using ptmTimer_answers (q := q) hr
    · have hout := ptmNow_answers hr hup v
      rwa [State.startPtm_of_disabled ((State.writePtmCtl_ptmEn v).trans hdis), ite_self] at hout

/-! The re-baselining of a node (R394) -/

section Rebaseline
variable {thr rel : Nat} {x : Node} {raw : Nat}

theorem Node.scan_of_not_high (h : ¬ x.base + thr < (raw : Int)) : (x.scan thr rel raw).base = x.base ∧ (x.scan thr rel raw).above = 0 := by
  have hlow : ¬ (thr : Int) < -(x.base - raw) := by omega
  simp only [Node.scan, if_neg hlow, Nat.reduceLeDiff, if_false, and_self]

theorem Node.scan_of_high (h : x.base + thr < (raw : Int)) (hrun : x.above < 2) :
    (x.scan thr rel raw).base = x.base ∧ (x.scan thr rel raw).above = x.above + 1 := by
  have hhigh : (thr : Int) < -(x.base - raw) := by omega
  have hshort : ¬ 3 ≤ x.above + 1 := by omega
  simp only [Node.scan, if_pos hhigh, if_neg hshort, and_self]

theorem Node.scan_of_third (h : x.base + thr < (raw : Int)) (hrun : x.above = 2) :
    (x.scan thr rel raw).base = raw ∧ (x.scan thr rel raw).suspect = false ∧ (x.scan thr rel raw).above = 0 := by
  have hhigh : (thr : Int) < -(x.base - raw) := by omega
  simp only [Node.scan, if_pos hhigh, hrun, Nat.reduceAdd, le_refl, if_true, and_self]

/-- A scan that is not the third of a run keeps the baseline, and the run is at most one longer. -/
theorem Node.scan_base (hrun : x.above < 2) : (x.scan thr rel raw).base = x.base ∧ (x.scan thr rel raw).above ≤ x.above + 1 := by
  by_cases h : x.base + thr < (raw : Int)
  · exact (Node.scan_of_high h hrun).imp_right Nat.le_of_eq
  · exact (Node.scan_of_not_high h).imp_right fun h0 => h0.trans_le (Nat.zero_le _)

end Rebaseline

/-- Settles O59: it holds. The baseline stays until the third scan of a run, so that all three scans are compared with one baseline. -/
theorem rebaselineAfterThreeScans : Obligations.RebaselineAfterThreeScans := by
  intro thr rel x a b c hfirst high one two three
  obtain ⟨hone, hone1⟩ : one.base = x.base ∧ one.above ≤ x.above + 1 := Node.scan_base (by omega)
  obtain ⟨htwo, htwo2⟩ : two.base = one.base ∧ two.above ≤ one.above + 1 := Node.scan_base (by omega)
  rw [hone] at htwo
  refine ⟨fun ha hb hc => ?_, hone, htwo, fun hshort => ?_, fun ha => (Node.scan_of_not_high ha).2⟩
  · have h1 : one.above = x.above + 1 := (Node.scan_of_high ha (by omega)).2
    have h2 : two.above = one.above + 1 := (Node.scan_of_high (hone.symm ▸ hb) (by omega)).2
    exact Node.scan_of_third (htwo.symm ▸ hc) (by omega)
  · by_cases hc : high c
    · have hrun : two.above < 2 := by
        by_cases hb : high b
        · have ha : ¬ high a := fun ha => hshort ⟨ha, hb, hc⟩
          have h1 : one.above = 0 := (Node.scan_of_not_high ha).2
          omega
        · have h2 : two.above = 0 := (Node.scan_of_not_high (hone.symm ▸ hb)).2
          omega
      exact (Node.scan_base hrun).1.trans htwo
    · exact (Node.scan_of_not_high (htwo.symm ▸ hc)).1.trans htwo

end Sys2Proof.Machine

namespace Sys2Proof.Machine
open Sys2Proof.Claims

/-! A port's link (R322, R323, R334, R335) -/

section PortLink
variable {q : Fin 4} {s : State}

theorem State.recogniseDown_of_fresh (hpresent : s.dev.portPresent q = true) (hnew : (s.port q).down = false) {c : DownCause}
    (hlink : (s.port q).linkUp = true ∨ c = .perst) (up : Bool) : s.recogniseDown q c up = s.linkDown q c up := by
  have hcause : (!(s.port q).linkUp && c != .perst) = false := by
    obtain hup | hperst := hlink
    · rw [hup, Bool.not_true, Bool.false_and]
    · rw [hperst, bne_self_eq_false, Bool.and_false]
  simp only [State.recogniseDown, hpresent, hnew, hcause, Bool.not_true, Bool.or_self, Bool.false_eq_true, if_false]

/-- A port that is absent, that has a link-down under way, or that has no link to lose takes no cause (R335). -/
theorem State.recogniseDown_of_not {c : DownCause}
    (hc : s.dev.portPresent q = false ∨ (s.port q).down = true ∨ (s.port q).linkUp = false ∧ c ≠ .perst) (up : Bool) : s.recogniseDown q c up = s := by
  refine if_pos ?_
  obtain habsent | hdown | ⟨hlow, hcause⟩ := hc
  · rw [habsent, Bool.not_false, Bool.true_or, Bool.true_or]
  · rw [hdown, Bool.or_true, Bool.true_or]
  · rw [hlow, bne_iff_ne.mpr hcause, Bool.not_false, Bool.and_self, Bool.or_true]

theorem perstNAssert_answers_held (hlow : (s.port q).perst = true) : Answers (.perstNAssert q) s s := by
  simp only [Answers, exec_perstNAssert, execPerstNAssert, hlow, if_true]

/-- PERST_N falls: where the clocked part runs that is a cause of link-down (R322, R335). -/
theorem perstNAssert_answers (hhigh : (s.port q).perst = false) :
    let u := s.updPort q fun pt => { pt with perst := true }
    Answers (.perstNAssert q) s (if s.dev.alive then u.recogniseDown q .perst false else u) := by
  simp only [Answers, exec_perstNAssert, execPerstNAssert, hhigh, Bool.false_eq_true, if_false, apply_ite Host.Outcome.next]
  rfl

variable (hr : Runs s)
include hr

theorem linkUp_answers (hpresent : s.dev.portPresent q = true) (hpower : s.dev.ely.state = .rom ∨ at' s.dev.power.islands (hostIsland q) = .good)
    (hhigh : (s.port q).perst = false) (hlow : (s.port q).linkUp = false) {speed width : Nat} (hok : linkOk speed width (strapLanes s.dev.power.strap q) = true) :
    Answers (.linkUp q speed width) s
      ((s.updPort q fun pt => { pt with linkUp := true, speed := speed, width := width, inL1 := false, down := false }).releaseWake q) := by
  have hpowered : (s.dev.ely.state == .rom || at' s.dev.power.islands (hostIsland q) == .good) = true := by
    rwa [Bool.or_eq_true, beq_iff_eq, beq_iff_eq]
  simp only [Answers, exec_linkUp, execLinkUp, State.clocked_of_runs hr, hpresent, hpowered, hhigh, hlow, hok, Bool.not_false, Bool.and_self, if_true]

theorem linkL1Change_answers (hup : (s.port q).linkUp = true) (enter : Bool) :
    let u := s.updPort q fun pt => { pt with inL1 := enter }
    Answers (.linkL1Change q enter) s (if enter then u else u.releaseWake q) := by
  simp only [Answers, exec_linkL1Change, execLinkL1Change, State.clocked_of_runs hr, hup, Bool.not_true, Bool.false_eq_true, if_false]

theorem hotReset_answers : Answers (.hotReset q) s (s.recogniseDown q .hotReset false) := by
  rw [Answers, exec_hotReset, execHotReset, State.clocked_of_runs hr]

theorem flr_answers (pending : Bool) : Answers (.flr q pending) s (s.recogniseDown q .flr !pending) := by
  rw [Answers, exec_flr, execFlr, State.clocked_of_runs hr]

theorem dlDownDetect_answers : Answers (.dlDownDetect q) s (s.recogniseDown q .dlDown false) := by
  rw [Answers, exec_dlDownDetect, execDlDownDetect, State.clocked_of_runs hr]

end PortLink

theorem linkOk_of_lanes {speed width lanes : Nat} (hlow : 1 ≤ speed) (htop : speed ≤ 5) (hwidth : width ∈ [1, 2, 4, 8, 16]) (hlanes : width ≤ lanes) :
    linkOk speed width lanes = true := by
  simp only [linkOk, hlow, htop, List.contains_iff_mem.mpr hwidth, hlanes, decide_true, Bool.and_self]

theorem portLinkResults : PortLinkResults := by
  intro q s
  refine ⟨exec_perstNRelease q s, perstNAssert_answers_held, fun hhigh => ?falls, fun hr => ⟨fun speed width hpresent hpower hhigh hlow h1 h5 hwidth hlanes =>
    linkUp_answers hr hpresent hpower hhigh hlow (linkOk_of_lanes h1 h5 hwidth hlanes),
    fun hup => ⟨linkL1Change_answers hr hup true, linkL1Change_answers hr hup false⟩, fun hpresent hup hnew => ?down, fun hnone => ?kept⟩⟩
  case falls =>
    intro u
    have hdown : (u.port q).down = (s.port q).down := by rw [State.port_updPort_self]
    have hout : Answers (.perstNAssert q) s (if s.dev.alive then u.recogniseDown q .perst false else u) := perstNAssert_answers hhigh
    refine ⟨fun hstill => ?_, fun hr hpresent hnew => ?_, fun hr hnone => ?_⟩
    · rwa [if_neg (show ¬ s.dev.alive = true from hstill)] at hout
    · rwa [if_pos (show s.dev.alive = true from hr), State.recogniseDown_of_fresh (s := u) hpresent (hdown.trans hnew) (.inr rfl)] at hout
    · rwa [if_pos (show s.dev.alive = true from hr), State.recogniseDown_of_not (hnone.imp_right fun h => .inl (hdown.trans h))] at hout
  case down =>
    have hfresh (c : DownCause) (up : Bool) : s.recogniseDown q c up = s.linkDown q c up := State.recogniseDown_of_fresh hpresent hnew (.inl hup) up
    exact ⟨hfresh .hotReset false ▸ hotReset_answers hr, hfresh .dlDown false ▸ dlDownDetect_answers hr,
      fun pending => hfresh .flr (!pending) ▸ flr_answers hr pending⟩
  case kept =>
    have hkept {c : DownCause} (hc : c ≠ .perst) (up : Bool) : s.recogniseDown q c up = s :=
      State.recogniseDown_of_not (hnone.imp_right fun h => h.symm.imp_right fun hlow => ⟨hlow, hc⟩) up
    have hreset := hotReset_answers (q := q) hr
    have hdl := dlDownDetect_answers (q := q) hr
    rw [hkept (by decide)] at hreset hdl
    refine ⟨hreset, hdl, fun pending => ?_⟩
    have hflr := flr_answers (q := q) hr pending
    rwa [hkept (by decide)] at hflr

/-! What a recognised link-down leaves of its port (R335) -/

/-- DRAM, the manager and the plies' states and ports are the same. -/
structure State.SameBindings (s t : State) : Prop where
  dram : t.dram = s.dram
  manager : t.dev.manager = s.dev.manager
  state (p : Fin 64) : (t.ply p).state = (s.ply p).state
  port (p : Fin 64) : (t.ply p).port = (s.ply p).port

theorem State.SameBindings.of_sameButReads {s t u : State} (h : s.SameBindings t) (h' : t.SameButReads u) : s.SameBindings u where
  dram := h'.dram.trans h.dram
  manager := by
    rw [← h.manager, Dev.manager, Dev.manager, h'.policy]
  state p := (congrArg Ply.state (h'.ply_eq p)).trans (h.state p)
  port p := (congrArg Ply.port (h'.ply_eq p)).trans (h.port p)

/-- A part of every ply that an update of one ply leaves alone. -/
theorem Dev.ply_updPly_part {α : Type} (part : Ply → α) (d : Dev) (p o : Fin 64) {f : Ply → Ply} (hf : ∀ x, part (f x) = part x) :
    part ((d.updPly p f).ply o) = part (d.ply o) := by
  by_cases h : o = p
  · rw [h, Dev.ply_updPly_self, hf]
  · rw [Dev.ply_updPly_ne d f h]

/-- A ply whose poll, with the reads it has out, is dropped. -/
def Ply.dropPoll (y : Ply) : Ply := { y with pollTags := 0, pollOut := none, pollDefer := false }

theorem State.dropReads_sameBindings (s : State) (q : Fin 4) : s.SameBindings (s.dropReads q) := by
  refine foldl_keeps (State.SameBindings s) _ (fun t p h => ?_) _ _ ?_
  · exact ⟨h.dram, h.manager, fun o => (t.dev.ply_updPly_part (f := Ply.dropPoll) Ply.state p o fun _ => rfl).trans (h.state o),
      fun o => (t.dev.ply_updPly_part (f := Ply.dropPoll) Ply.port p o fun _ => rfl).trans (h.port o)⟩
  · have hreads : s.SameBindings ((s.dev.reads.filter (·.port == q)).foldl (fun s r => s.endRead r) s) :=
      foldl_keeps (State.SameBindings s) _ (fun t r h => h.of_sameButReads (t.endRead_sameButReads r)) _ s ⟨rfl, rfl, fun _ => rfl, fun _ => rfl⟩
    exact ⟨hreads.dram, hreads.manager, hreads.state, hreads.port⟩

/-- Only the recorder differs. -/
def Dev.SameButCcn (d e : Dev) : Prop := ∃ c, e = { d with ccn := c }

theorem Dev.SameButCcn.withCcn {d e : Dev} (h : d.SameButCcn e) (c : Ccn) : d.SameButCcn { e with ccn := c } := by
  obtain ⟨_, rfl⟩ := h
  exact ⟨c, rfl⟩

theorem Dev.ccnBucket_sameButCcn (d : Dev) (code : Nat) : d.SameButCcn (d.ccnBucket code).1 := by
  unfold Dev.ccnBucket
  split
  · exact ⟨_, rfl⟩
  · refine foldl_keeps d.SameButCcn _ (fun e b he => ?_) _ _ ⟨_, rfl⟩
    split
    · exact he
    · exact he.withCcn _

theorem Dev.cocoon_sameButCcn (d : Dev) (code sev ply : Nat) (data : List Byte) : d.SameButCcn (d.cocoon code sev ply data) := by
  have hbucket := d.ccnBucket_sameButCcn code
  unfold Dev.cocoon
  split
  · exact ⟨d.ccn, rfl⟩
  · split
    · exact ⟨_, rfl⟩
    · extract_lets mk setB
      split
      next e b he =>
        rw [he] at hbucket
        split
        · exact hbucket.withCcn _
        · exact hbucket.withCcn _

theorem State.cocoon_eq (s : State) (code sev ply : Nat) (data : List Byte) :
    ∃ c, s.cocoon code sev ply data = s.onDev fun d => { d with ccn := c } :=
  let ⟨c, hc⟩ := s.dev.cocoon_sameButCcn code sev ply data
  ⟨c, congrArg (fun d => { s with dev := d }) hc⟩

theorem State.ply_onDev_ccn (s : State) (c : Ccn) (p : Fin 64) : (s.onDev fun d => { d with ccn := c }).ply p = s.ply p := rfl
theorem State.port_onDev_ccn (s : State) (c : Ccn) (q : Fin 4) : (s.onDev fun d => { d with ccn := c }).port q = s.port q := rfl

/-- What a link-down clears of its port itself (R335). -/
def State.clearPort (s : State) (q : Fin 4) (up : Bool) : State :=
  ((s.dropReads q).updPort q fun pt =>
    { Port.blank pt.perst with
      linkDowns := min 0xFFFF ((s.port q).linkDowns + 1), down := !up, linkUp := up, speed := if up then (s.port q).speed else 0,
      width := if up then (s.port q).width else 0 }).onDev fun d => { d with ely := { d.ely with
    inbox := d.ely.inbox.filter (· != q),
    journal := d.ely.journal.map fun j => if j.port = q then { j with mute := true } else j } }

theorem State.ply_clearPort (s : State) (q : Fin 4) (up : Bool) (p : Fin 64) : (s.clearPort q up).ply p = (s.dropReads q).ply p := rfl

/-- On the manager's port, to which no ply is bound, a link-down leaves besides its record what it clears. -/
theorem State.linkDown_of_unbound {s : State} {q : Fin 4} (hman : s.dev.manager = some q)
    (hply : ∀ p : Fin 64, (s.ply p).port = q → (s.ply p).state = .absent) (c : DownCause) (up : Bool) :
    ∃ n, s.linkDown q c up = (s.clearPort q up).onDev fun d => { d with ccn := n } := by
  have hkeeps := s.dropReads_sameBindings q
  have hman' : (s.clearPort q up).dev.manager = some q := hkeeps.manager.trans hman
  obtain ⟨n, hn⟩ := (s.clearPort q up).cocoon_eq 0x0900 sevError 0x40 ((dataBytes [(16, 1, c.code), (17, 1, q.val)]).take 10)
  refine ⟨n, ?_⟩
  unfold State.linkDown
  extract_lets was s1 s2 s3 data s4 s5
  have h3 : s3 = s.clearPort q up := rfl
  have h4 : s4 = s3 := if_pos hman'
  have h5 : s5 = (s.clearPort q up).onDev fun d => { d with ccn := n } := by
    rw [← hn, ← h3, ← h4]
  rw [h5]
  have hnone : (allPlies.filter fun p => (((s.clearPort q up).onDev fun d => { d with ccn := n }).ply p).state != .absent &&
      (((s.clearPort q up).onDev fun d => { d with ccn := n }).ply p).port == q) = [] := by
    refine List.filter_eq_nil_iff.mpr fun p _ hp => ?_
    rw [State.ply_onDev_ccn, State.ply_clearPort, hkeeps.state, hkeeps.port, Bool.and_eq_true, bne_iff_ne, beq_iff_eq] at hp
    exact hp.1 (hply p hp.2)
  rw [hnone, State.each_nil]

theorem State.port_clearPort (s : State) (q : Fin 4) (up : Bool) : (s.clearPort q up).port q =
    { Port.blank ((s.dropReads q).port q).perst with
      linkDowns := min 0xFFFF ((s.port q).linkDowns + 1), down := !up, linkUp := up, speed := if up then (s.port q).speed else 0,
      width := if up then (s.port q).width else 0 } :=
  State.port_updPort_self ..

theorem State.not_mem_inbox_clearPort (s : State) (q : Fin 4) (up : Bool) : q ∉ (s.clearPort q up).dev.ely.inbox := fun h =>
  bne_iff_ne.mp (List.mem_filter.mp h).2 rfl

theorem State.mute_of_mem_journal_clearPort (s : State) (q : Fin 4) (up : Bool) : ∀ j ∈ (s.clearPort q up).dev.ely.journal, j.port = q → j.mute = true := by
  intro j hj
  obtain ⟨e, _, rfl⟩ := List.mem_map.mp hj
  split
  · exact fun _ => rfl
  next hother => exact fun hport => absurd hport hother

theorem linkDownClearsPort : LinkDownClearsPort := by
  intro q c s hman hply _ t
  obtain ⟨n, ht⟩ : ∃ n, t = _ := State.linkDown_of_unbound hman hply c false
  have hport := s.port_clearPort q false
  rw [← State.port_onDev_ccn _ n, ← ht] at hport
  have hely : t.dev.ely = (s.clearPort q false).dev.ely := by rw [ht, State.onDev_dev]
  have hdram : t.dram = s.dram := by
    rw [ht, State.onDev_dram]
    exact (s.dropReads_sameBindings q).dram
  rw [hport, hely]
  exact ⟨rfl, rfl, rfl, rfl, rfl, rfl, rfl, s.not_mem_inbox_clearPort q false, s.mute_of_mem_journal_clearPort q false, hdram⟩

/-- Settles O32: it holds, each clause by the lemma of its row. That a Function Level Reset keeps the link unless DL_Down is already pending, and that a port
whose island is off does not train, are the model's choice (log entry 84). -/
theorem linkUpAndLinkDownResults : Obligations.LinkUpAndLinkDownResults := ⟨portLinkResults, linkDownClearsPort⟩

end Sys2Proof.Machine

namespace Sys2Proof.Machine
open Sys2Proof.Claims

/-! Events, requests and host writes leave the ring, touch and haptic units alone -/

/-- The ring, touch and haptic units of the device. -/
def Dev.units (d : Dev) : Whorl × Touch × Haptics := (d.whorl, d.touch, d.haptics)

theorem Dev.whorl_of_units {d e : Dev} (h : e.units = d.units) : e.whorl = d.whorl := congrArg Prod.fst h
theorem Dev.touch_of_units {d e : Dev} (h : e.units = d.units) : e.touch = d.touch := congrArg (fun x => x.2.1) h
theorem Dev.haptics_of_units {d e : Dev} (h : e.units = d.units) : e.haptics = d.haptics := congrArg (fun x => x.2.2) h

@[simp] theorem Dev.units_updPly (d : Dev) (p : Fin 64) (f : Ply → Ply) : (d.updPly p f).units = d.units := rfl
@[simp] theorem Dev.units_updPort (d : Dev) (q : Fin 4) (f : Port → Port) : (d.updPort q f).units = d.units := rfl
@[simp] theorem Dev.units_emit (d : Dev) (o : Out) : (d.emit o).units = d.units := rfl

theorem Dev.units_foldl {α : Type} {f : Dev → α → Dev} (hf : ∀ d a, (f d a).units = d.units) (l : List α) (d : Dev) : (l.foldl f d).units = d.units :=
  foldl_keeps (fun e => e.units = d.units) f (fun e a h => (hf e a).trans h) l d rfl

@[simp] theorem Dev.units_post (d : Dev) (q : Fin 4) (o : Out) : (d.post q o).units = d.units := by
  simp only [Dev.post, apply_ite Dev.units, Dev.units_emit, Dev.units_updPort, ite_self]

@[simp] theorem Dev.units_sendMsix (d : Dev) (q : Fin 4) (v : Nat) : (d.sendMsix q v).units = d.units := by
  simp only [Dev.sendMsix, apply_ite Dev.units, Dev.units_updPort, Dev.units_post, ite_self]

@[simp] theorem Dev.units_plyMsix (d : Dev) (p : Fin 64) (v : Nat) : (d.plyMsix p v).units = d.units := by
  simp only [Dev.plyMsix, apply_ite Dev.units, Dev.units_sendMsix, ite_self]

@[simp] theorem Dev.units_atcTouch (d : Dev) (q : Fin 4) (pasid addr n : Nat) : (d.atcTouch q pasid addr n).units = d.units := by
  unfold Dev.atcTouch
  split
  · rfl
  · refine Dev.units_foldl (fun e pg => ?_) _ d
    simp only [Dev.units_updPort, apply_ite Dev.units, Dev.units_emit, ite_self]

@[simp] theorem Dev.units_logMark (d : Dev) (p : Fin 64) (x : Nat × Nat × Nat) : (d.logMark p x).units = d.units := by
  have hread : (if (d.ply p).log.cached.contains x.1 then d else
      let e := { d with fresh := d.fresh + 1 }
      match e.manager with
      | some q => e.emit (.hostRead q (e.port q).atsEn 0 x.1 64)
      | none => e).units = d.units := by
    split
    · rfl
    · dsimp only
      split <;> rfl
  unfold Dev.logMark
  dsimp only
  split
  · rw [Dev.postWrite, Dev.units_post, Dev.units_updPly]
    exact hread
  · rw [Dev.units_updPly]
    exact hread

@[simp] theorem Dev.units_logWrite (d : Dev) (p : Fin 64) (addr n : Nat) : (d.logWrite p addr n).units = d.units := by
  unfold Dev.logWrite
  split
  · refine Dev.units_foldl (fun e pg => ?_) _ d
    dsimp only
    split
    · rfl
    · exact Dev.units_foldl (fun e x => e.units_logMark p x) _ e
  · rfl

@[simp] theorem Dev.units_hostWrite (d : Dev) (p : Fin 64) (event : Bool) (addr : Nat) (bs : List Byte) :
    (d.hostWrite p event addr bs).units = d.units := by
  simp only [Dev.hostWrite, apply_ite Dev.units, Dev.units_post, Dev.units_atcTouch, Dev.units_logWrite, ite_self]

/-! Events -/

@[simp] theorem Dev.units_bindEvent (d : Dev) (about code : Nat) : (d.bindEvent about code).units = d.units := by
  unfold Dev.bindEvent
  extract_lets classA
  split
  · rfl
  · split <;> rfl

@[simp] theorem Dev.units_limit (d : Dev) (dest code unit : Nat) : (d.limit dest code unit).1.units = d.units := by
  unfold Dev.limit
  split
  · rfl
  · dsimp only
    split <;> rfl

@[simp] theorem Dev.units_deliver (d : Dev) (dest : Nat) (bs : List Byte) : (d.deliver dest bs).1.units = d.units := by
  unfold Dev.deliver
  dsimp only
  split <;> rfl

@[simp] theorem Dev.units_logEvent (d : Dev) (q : Fin 4) (ply code unit : Nat) (data : List Byte) : (d.logEvent q ply code unit data).units = d.units := by
  have hlimit := d.units_limit (64 + q.val) code unit
  unfold Dev.logEvent
  split
  next e he => rwa [he] at hlimit
  next e he =>
    rw [he] at hlimit
    simp only [apply_ite Dev.units, Dev.units_sendMsix, Dev.units_updPort, Dev.units_deliver, ite_self]
    exact hlimit

@[simp] theorem Dev.units_putEvent (d : Dev) (p : Fin 64) (bs : List Byte) : (d.putEvent p bs).units = d.units := by
  have hentry : (((d.deliver p.val bs).1.writeEntry p true (d.deliver p.val bs).2).writeProd p true).units = d.units := by
    simp only [Dev.writeProd, Dev.writeEntry, Dev.units_hostWrite, Dev.units_updPly, Dev.units_deliver]
  unfold Dev.putEvent
  dsimp only
  split
  · rw [Dev.units_plyMsix, hentry]
  · exact hentry

@[simp] theorem Dev.units_reportLost (d : Dev) (p : Fin 64) : (d.reportLost p).units = d.units := by
  simp only [Dev.reportLost, apply_ite Dev.units, Dev.units_putEvent, Dev.units_updPly, ite_self]

@[simp] theorem State.units_issueRead (s : State) (r : HostRead) : (s.issueRead r).dev.units = s.dev.units := by
  unfold State.issueRead
  dsimp only
  split
  · rfl
  · split
    · exact Dev.units_foldl (fun e x => by rw [Dev.units_emit, Dev.units_atcTouch]) _ s.dev
    · rfl

@[simp] theorem State.units_wantCons (s : State) (p : Fin 64) : (s.wantCons p).dev.units = s.dev.units := by
  unfold State.wantCons
  split
  · exact foldl_keeps (fun t : State => t.dev.units = s.dev.units) _ (fun t x h => (t.units_issueRead _).trans h) _ _ rfl
  · rfl

/-- An event's entry is written, or the event joins those that wait for a free one. -/
theorem State.units_ite_putEvent (s : State) (p : Fin 64) (bs : List Byte) (c : Prop) [Decidable c] :
    (if c then s.onDev fun d => d.putEvent p bs
      else (s.updCq p fun c => { c with waiters := c.waiters ++ [.event bs] }).wantCons p).dev.units = s.dev.units := by
  split
  · exact s.dev.units_putEvent p bs
  · exact State.units_wantCons ..

@[simp] theorem State.units_postPlyAt (s : State) (time : Nat) (p : Fin 64) (about code unit : Nat) (data : List Byte) :
    (s.postPlyAt time p about code unit data).dev.units = s.dev.units := by
  have hbind := s.dev.units_bindEvent about code
  have hlimit := (s.dev.bindEvent about code).units_limit p.val code unit
  unfold State.postPlyAt
  dsimp only
  split
  · exact hbind
  · split
    next e he =>
      erw [he] at hlimit
      exact hlimit.trans hbind
    next e he =>
      erw [he] at hlimit
      split
      · exact hlimit.trans hbind
      · refine (State.units_ite_putEvent ..).trans ?_
        split
        · exact (Dev.units_reportLost ..).trans (hlimit.trans hbind)
        · exact hlimit.trans hbind

@[simp] theorem State.units_postPly (s : State) (p : Fin 64) (about code unit : Nat) (data : List Byte) :
    (s.postPly p about code unit data).dev.units = s.dev.units := State.units_postPlyAt ..

@[simp] theorem State.units_postManager (s : State) (about code unit : Nat) (data : List Byte) : (s.postManager about code unit data).dev.units = s.dev.units := by
  unfold State.postManager
  dsimp only
  split
  · exact (Dev.units_logEvent ..).trans (s.dev.units_bindEvent about code)
  · exact s.dev.units_bindEvent about code

@[simp] theorem State.units_postBoth (s : State) (p : Fin 64) (code unit : Nat) (data : List Byte) : (s.postBoth p code unit data).dev.units = s.dev.units := by
  rw [State.postBoth, State.units_postManager, State.units_postPly]

end Sys2Proof.Machine

namespace Sys2Proof.Machine
open Sys2Proof.Claims

/-! Membership of the ring (R345-R350) -/

section RingMembership
variable {s : State}

theorem whlLoopTrained_answers (hr : Runs s) {q : Fin 2} {rate : Fin 4} (hon : s.dev.ringOn q = true) (hoff : (s.ringPort q).state = .off)
    (hrate : rate.val ≠ 0) : Answers (.whlLoopTrained q rate) s (s.updRingPort q fun p => { p with state := .loop, rate := rate.val }) := by
  simp only [Answers, exec_whlLoopTrained, execWhlLoopTrained, State.clocked_of_runs hr, if_pos (And.intro hon (And.intro hoff hrate))]

section Join
variable {o : Nat} {j : Journal} (hj : Managed s o 0x70 j)
include hj

/-- A JOIN that begins: the ports that it names link (R345). -/
theorem whlJoin_answers_begins (out : Option JoinOutcome) (hnew : j.begun = false) (hlow : 1 ≤ j.arg 0 1) (htop : j.arg 0 1 ≤ 3) (hid : j.arg 1 1 ≤ 15)
    (hw : s.dev.pkgW = true) (halone : s.dev.whorl.member = false) (hloop : ∀ q ∈ ringPorts (j.arg 0 1), (s.ringPort q).state = .loop) :
    Answers (.whlJoin o out) s (((ringPorts (j.arg 0 1)).foldl (fun u q =>
      u.updRingPort q fun p => { p with state := .linking, pin := true, rate := 0 }) s).hold j) := by
  have hargs : ¬(j.arg 0 1 = 0 ∨ 3 < j.arg 0 1 ∨ 15 < j.arg 1 1) := by omega
  have htrained : ((ringPorts (j.arg 0 1)).any fun q => (s.ringPort q).state != .loop) = false := by simpa using hloop
  simp only [Answers, exec_whlJoin, execWhlJoin, State.clocked_of_runs hj.1, State.managed_of_managed hj, hnew, hw, if_neg hargs, halone, htrained,
    Bool.not_true, Bool.false_eq_true, if_false]
  rfl

theorem whlJoin_answers_waits (hbegun : j.begun = true) : Answers (.whlJoin o none) s s := by
  simp only [Answers, exec_whlJoin, execWhlJoin, State.clocked_of_runs hj.1, State.managed_of_managed hj, hbegun, if_true]

/-- A JOIN under way ends with its outcome (R343, R348). -/
theorem whlJoin_answers (x : JoinOutcome) (hbegun : j.begun = true) :
    Answers (.whlJoin o (some x)) s (if (ringPorts (j.arg 0 1)).any fun q => (at' x.rates q).isNone then s.failJoin j (j.arg 0 1) 0x1A
      else if !(x.attested && s.dev.neighboursOk x.measures) then s.failJoin j (j.arg 0 1) mbNotAttested
      else if x.taken then s.failJoin j (j.arg 0 1) 0x19
      else s.completeJoin j (j.arg 0 1) (j.arg 1 1) x) := by
  simp only [Answers, exec_whlJoin, execWhlJoin, State.clocked_of_runs hj.1, State.managed_of_managed hj, hbegun, if_true, Bool.not_and, apply_ite Host.Outcome.next]

end Join

section Leave

theorem State.whorl_whorlRepair (s : State) (unit kind id chan : Nat) : (s.whorlRepair unit kind id chan).dev.whorl = s.dev.whorl :=
  Dev.whorl_of_units (State.units_postManager ..)

theorem State.ringPort_whorlRepair (s : State) (unit kind id chan : Nat) (q : Fin 2) : (s.whorlRepair unit kind id chan).ringPort q = s.ringPort q :=
  congrArg (fun w => at' (Whorl.ports w) q) (s.whorl_whorlRepair unit kind id chan)

theorem State.whorl_answer (s : State) (j : Journal) (status : Nat) (result : List Byte) : (s.answer j status result).dev.whorl = s.dev.whorl := by
  unfold State.answer
  extract_lets u
  split <;> rfl

/-- The end of a loop test leaves membership and channels. -/
theorem State.endProbe_whorl (s : State) (sel : Fin 2 → Bool) :
    (s.endProbe sel).dev.whorl.member = s.dev.whorl.member ∧ (s.endProbe sel).dev.whorl.chans = s.dev.whorl.chans := by
  unfold State.endProbe
  split
  · split
    · unfold State.answerOrder
      split
      · rw [State.whorl_answer]
        exact ⟨rfl, rfl⟩
      · exact ⟨rfl, rfl⟩
    · exact ⟨rfl, rfl⟩
  · exact ⟨rfl, rfl⟩

/-- A LEAVE stops its idle channels and the use of its ports (R345, R346). -/
def State.beginLeave (s : State) : State :=
  ((s.endProbe fun _ => true).each (allFin 2) fun s q => s.updRingPort q fun p => if p.state = .joined then { p with state := .leaving } else p).closeChans
    (fun c => c.busy.isNone) false

theorem State.beginLeave_whorl (s : State) :
    s.beginLeave.dev.whorl.member = s.dev.whorl.member ∧ s.beginLeave.dev.whorl.chans = s.dev.whorl.chans.filter (fun c => c.busy.isSome) := by
  obtain ⟨hmember, hchans⟩ := s.endProbe_whorl fun _ => true
  refine ⟨hmember, (congrArg (List.filter _) hchans).trans (List.filter_congr fun c _ => ?_)⟩
  rw [Option.not_isNone]

theorem State.ringPort_each_updRingPort (s : State) (f : WhlPort → WhlPort) (q : Fin 2) :
    (s.each (allFin 2) fun u q => u.updRingPort q f).ringPort q = f (s.ringPort q) := by
  match q with
  | 0 => exact (at'_upd_ne _ f (by decide)).trans (at'_upd_self ..)
  | 1 => exact (at'_upd_self _ 1 f).trans (congrArg f (at'_upd_ne _ f (by decide)))

/-- Both neighbours are told, and every port and its keys are dropped (R345, R350). -/
def State.leftPorts (s : State) : State :=
  let on := (allFin 2).filter fun q => (s.ringPort q).state == .leaving
  let u := s.each on fun u q => u.emit (.whorl q "leave" s.dev.whorl.ringId)
  u.each (allFin 2) fun v q => v.updRingPort q fun p => { p with state := .off, rate := 0, pin := false, nb := none, key := 0, standby := 0 }

/-- A LEAVE that no frame keeps ends the membership (R345, R350). -/
def State.endLeave (s : State) : State :=
  (s.leftPorts.updWhorl fun w => { Whorl.blank with ports := w.ports, follow := w.follow }).whorlRepair 0xFF 0x4 s.dev.whorl.ringId 0

theorem State.endLeave_whorl (s : State) : s.endLeave.dev.whorl.member = false ∧ s.endLeave.dev.whorl.chans = [] ∧
    ∀ q : Fin 2, (s.endLeave.ringPort q).state = .off ∧ (s.endLeave.ringPort q).pin = false ∧ (s.endLeave.ringPort q).key = 0 ∧
      (s.endLeave.ringPort q).standby = 0 := by
  refine ⟨congrArg Whorl.member (State.whorl_whorlRepair ..), congrArg Whorl.chans (State.whorl_whorlRepair ..), fun q => ?_⟩
  have hleft : s.endLeave.ringPort q = s.leftPorts.ringPort q := State.ringPort_whorlRepair ..
  rw [hleft, State.leftPorts, State.ringPort_each_updRingPort]
  exact ⟨rfl, rfl, rfl, rfl⟩

variable {o : Nat} {j : Journal} (hj : Managed s o 0x71 j)
include hj

theorem whlLeave_answers_noUnit (hw : s.dev.pkgW = false) : Answers (.whlLeave o) s (s.answer j mbNoUnit []) := by
  simp only [Answers, exec_whlLeave, execWhlLeave, State.clocked_of_runs hj.1, State.managed_of_managed hj, hw, Bool.not_false, if_true]

theorem whlLeave_answers_alone (hw : s.dev.pkgW = true) (halone : s.dev.whorl.member = false) : Answers (.whlLeave o) s (s.answer j mbBadState []) := by
  simp only [Answers, exec_whlLeave, execWhlLeave, State.clocked_of_runs hj.1, State.managed_of_managed hj, hw, halone, Bool.not_true, Bool.not_false,
    Bool.false_eq_true, if_false, if_true]

theorem whlLeave_answers (hw : s.dev.pkgW = true) (hmember : s.dev.whorl.member = true) :
    Answers (.whlLeave o) s (if s.beginLeave.dev.whorl.chans ≠ [] then s.beginLeave.hold j else s.beginLeave.endLeave.answer j mbOk []) := by
  simp only [Answers, exec_whlLeave, execWhlLeave, State.clocked_of_runs hj.1, State.managed_of_managed hj, hw, hmember, Bool.not_true,
    Bool.false_eq_true, if_false]
  rfl

end Leave

section Announce
variable (hr : Runs s) (hmember : s.dev.whorl.member = true)
include hr hmember

theorem whlAnnounce_answers_taken (q : Fin 2) (rates : Vector (Option Nat) 2) (reach : Vector (List Nat) 2) (closed : Bool) (maxTime : Nat) {id : Nat}
    (hid : id = s.dev.whorl.ringId) : Answers (.whlAnnounce q (.join id rates reach closed maxTime)) s (s.emit (.whorl q "ring ID in use" id)) := by
  simp only [Answers, exec_whlAnnounce, execWhlAnnounce, State.clocked_of_runs hr, hmember, if_pos hid, Bool.not_true, Bool.false_eq_true, if_false]

theorem whlAnnounce_answers_join (q : Fin 2) (rates : Vector (Option Nat) 2) (reach : Vector (List Nat) 2) (closed : Bool) (maxTime : Nat) {id : Nat}
    (hid : id ≠ s.dev.whorl.ringId) :
    let u := s.updWhorl fun w => { w with reach := reach, closed := closed }
    let linked := (allFin 2).filter fun q => (at' rates q).isSome && (u.ringPort q).state != .off
    let trained := u.each linked fun u q =>
      (u.updRingPort q fun p => { p with state := .joined, rate := min 3 ((at' rates q).getD 0), nb := (at' reach q).head? }).linkKeys q
    Answers (.whlAnnounce q (.join id rates reach closed maxTime)) s (((trained.whorlRepair q.val 0x3 id 0).elect true).takeRingTime maxTime) := by
  simp only [Answers, exec_whlAnnounce, execWhlAnnounce, State.clocked_of_runs hr, hmember, if_neg hid, Bool.not_true, Bool.false_eq_true, if_false]

theorem whlAnnounce_answers_leave (q : Fin 2) (id : Nat) (reach : Vector (List Nat) 2) (closed : Bool) :
    let u := s.updWhorl fun w => { w with reach := reach, closed := closed }
    Answers (.whlAnnounce q (.leave id reach closed)) s (((u.whorlRepair q.val 0x4 id 0).closeChans (fun c => c.peer == id) true).elect true) := by
  simp only [Answers, exec_whlAnnounce, execWhlAnnounce, State.clocked_of_runs hr, hmember, Bool.not_true, Bool.false_eq_true, if_false]

end Announce
end RingMembership

theorem ringMembershipResults : RingMembershipResults := by
  intro s hr
  refine ⟨fun _ _ => whlLoopTrained_answers hr, fun o j out hj => ?join, fun o j hj => ⟨whlLeave_answers_noUnit hj, whlLeave_answers_alone hj, fun hw hmember => ?leave⟩,
    fun q id maxTime rates reach closed hmember => ⟨whlAnnounce_answers_taken hr hmember q rates reach closed maxTime,
      whlAnnounce_answers_join hr hmember q rates reach closed maxTime, whlAnnounce_answers_leave hr hmember q id reach closed⟩⟩
  case join =>
    refine ⟨whlJoin_answers_begins hj out, fun hbegun hnone => hnone ▸ whlJoin_answers_waits hj hbegun, fun x hbegun hx => ?_⟩
    have hout := whlJoin_answers hj x hbegun
    rw [hx]
    refine ⟨fun ⟨q, hq, hnone⟩ => ?_, fun hall => ?_⟩
    · have hany : ((ringPorts (j.arg 0 1)).any fun q => (at' x.rates q).isNone) = true := List.any_eq_true.mpr ⟨q, hq, by rw [hnone]; rfl⟩
      simpa only [hany, if_true] using hout
    · have hany : ((ringPorts (j.arg 0 1)).any fun q => (at' x.rates q).isNone) = false :=
        List.any_eq_false.mpr fun q hq => by rw [Bool.not_eq_true, ← Option.not_isSome, hall q hq, Bool.not_true]
      simp only [hany, Bool.false_eq_true, if_false] at hout
      refine ⟨fun hno => ?_, fun hyes htaken => ?_, fun hyes hfree => ?_⟩
      · simpa only [hno, Bool.not_false, if_true] using hout
      · simpa only [hyes, htaken, Bool.not_true, Bool.false_eq_true, if_false, if_true] using hout
      · simpa only [hyes, hfree, Bool.not_true, Bool.false_eq_true, if_false] using hout
  case leave =>
    have hout := whlLeave_answers hj hw hmember
    obtain ⟨hbegun, hchans⟩ := s.beginLeave_whorl
    refine ⟨_, if s.beginLeave.dev.whorl.chans ≠ [] then s.beginLeave else s.beginLeave.endLeave, hout, fun hidle => ?_, fun hbusy => ?_⟩
    · have hnone : s.beginLeave.dev.whorl.chans = [] := by
        rw [hchans, List.filter_eq_nil_iff]
        exact fun c hc => by simpa using List.all_eq_true.mp hidle c hc
      rw [if_neg (not_not.mpr hnone), if_neg (not_not.mpr hnone)]
      exact ⟨rfl, s.beginLeave.endLeave_whorl⟩
    · have hsome : s.beginLeave.dev.whorl.chans ≠ [] := by
        rw [hchans, ne_eq, List.filter_eq_nil_iff]
        obtain ⟨c, hc, hcb⟩ := List.all_eq_false.mp hbusy
        exact fun h => h c hc (by simpa [Option.isSome_iff_ne_none] using hcb)
      rw [if_pos hsome, if_pos hsome]
      exact ⟨rfl, hbegun.trans hmember, hchans⟩

end Sys2Proof.Machine

namespace Sys2Proof.Machine
open Sys2Proof.Claims

/-! Ring time, repair and the loop test (R351, R352, R359-R362) -/

section RingService
variable {q : Fin 2} {s : State} (hr : Runs s)
include hr

section JoinedPort
variable (hport : (s.ringPort q).state = .joined)
include hport

theorem whlDelayMeasure_answers (n : Nat) : Answers (.whlDelayMeasure q n) s (s.updRingPort q fun p => { p with delay := n / 2 }) := by
  simp only [Answers, exec_whlDelayMeasure, execWhlDelayMeasure, State.clocked_of_runs hr, if_pos hport]

omit hr hport in
/-- A mark goes on through the other port, where that has joined (R352). -/
def State.passMark (s : State) (q : Fin 2) (t : Nat) : State :=
  if (s.ringPort (1 - q)).state = .joined then s.emit (.whorl (1 - q) "time mark" t) else s

theorem whlTimeMark_answers (time : Nat) (adopt : Option Nat) (hmember : s.dev.whorl.member = true) (hslave : s.dev.whorl.isMaster = false) :
    let t := time + (s.ringPort q).delay
    Answers (.whlTimeMark q time adopt) s ((s.updWhorl fun w =>
      { w with mark := (s.dev.devtime : Int) - t,
               adopt := match adopt with | some a => if a = s.dev.devtime then w.adopt else some a | none => w.adopt,
               timed := w.timed || adopt == some s.dev.devtime }).passMark q t) := by
  simp only [Answers, exec_whlTimeMark, execWhlTimeMark, State.clocked_of_runs hr, hport, hmember, hslave, Bool.not_true, bne_self_eq_false, Bool.or_self,
    Bool.false_eq_true, if_false]
  rfl

/-- A link that loses lock is DOWN, its loop test ends, and frames across the gap are lost (R359). -/
theorem whlLinkLoss_answers (hmember : s.dev.whorl.member = true) :
    Answers (.whlLinkLoss q) s (((s.updRingPort q fun p => { p with state := .down, rate := 0, nb := none, key := 0 }).endProbe fun p => p == q).updWhorl
      fun w => { w with chans := w.chans.map fun c => if c.port = q then { c with busy := none, row := 0, got := [] } else c }) := by
  simp only [Answers, exec_whlLinkLoss, execWhlLinkLoss, State.clocked_of_runs hr, if_pos (And.intro hmember hport)]

theorem whlProbeReceived_answers (nonce : Nat) (hmember : s.dev.whorl.member = true) : Answers (.whlProbeReceived q nonce) s
    ((s.emit (.whorl q "probe return" nonce)).emit (.whorl q "ring ID" s.dev.whorl.ringId)) := by
  simp only [Answers, exec_whlProbeReceived, execWhlProbeReceived, State.clocked_of_runs hr, if_pos (And.intro hmember hport)]

/-- A probe goes out with a fresh nonce, and the command waits for it (R362). -/
theorem whlLoopTest_answers {o : Nat} {j : Journal} (hj : Managed s o 0x74 j) (hnew : j.begun = false) (hw : s.dev.pkgW = true)
    (hq : fin? 2 (j.arg 0 1) = some q) (hhops : j.arg 1 1 ≤ 15) (hmember : s.dev.whorl.member = true) :
    Answers (.whlLoopTest o) s
      (((s.emit (.whorl q "probe" (Config.freeWord s.dev.fresh).toNat)).tick.updWhorl fun w => { w with probe := some (o, q) }).hold j) := by
  simp only [Answers, exec_whlLoopTest, execWhlLoopTest, State.clocked_of_runs hr, State.managed_of_managed hj, hnew, hw, hq, hmember, hport,
    if_neg (Nat.not_lt.mpr hhops), Bool.not_true, ne_eq, not_true_eq_false, Bool.false_eq_true, or_self, if_false]

end JoinedPort

theorem whlProbeReturn_answers {o : Nat} {j : Journal} (far delay : Nat) (hprobe : s.dev.whorl.probe = some (o, q)) (hcmd : s.command o 0x74 = some j) :
    Answers (.whlProbeReturn q far delay) s
      ((s.updWhorl fun w => { w with probe := none }).answer j mbOk (bytesOf 1 far ++ [0] ++ bytesOf 2 (min 65535 delay))) := by
  simp only [Answers, exec_whlProbeReturn, execWhlProbeReturn, State.clocked_of_runs hr, hprobe, hcmd, ne_eq, not_true_eq_false, if_false]

section Offset
variable (hmember : s.dev.whorl.member = true)
include hmember

omit hr hmember in
/-- A member's offset from the master is that of the last time mark (R351). -/
def State.measureOffset (s : State) : State := s.updWhorl fun x => { x with offset := clampInt (-32768) 32767 s.dev.whorl.mark }

omit hr hmember in
/-- A member too far off is no longer timed and drops frame lock (R351). -/
def State.dropTime (s : State) : State :=
  (s.updWhorl fun x => { x with timed := false, locked := Vector.replicate 8 false, relock := x.locked }).whorlRepair 0xFF 0x9 s.dev.whorl.ringId 0

theorem whlOffsetCheck_answers_member (hslave : s.dev.whorl.isMaster = false) :
    Answers .whlOffsetCheck s (if s.dev.whorl.timed = true ∧ 20 * s.dev.whorl.hops + 100 < s.dev.whorl.mark.natAbs then s.measureOffset.dropTime
      else s.measureOffset) := by
  simp only [Answers, exec_whlOffsetCheck, execWhlOffsetCheck, State.clocked_of_runs hr, hmember, hslave, Bool.not_true, Bool.false_eq_true, if_false,
    apply_ite Host.Outcome.next]
  rfl

omit hr hmember in
/-- Marks that go out leave DEVTIME as it is. -/
theorem State.each_emit_marks (l : List (Fin 2)) (s : State) :
    (s.each l fun u q => u.emit (.whorl q "time mark" u.dev.devtime)) = l.foldl (fun u q => u.emit (.whorl q "time mark" s.dev.devtime)) s := by
  induction l generalizing s with
  | nil => rfl
  | cons q l ih => exact ih (s.emit (.whorl q "time mark" s.dev.devtime))

/-- The master sends its time marks (R352). -/
theorem whlOffsetCheck_answers_master (hmaster : s.dev.whorl.isMaster = true) :
    Answers .whlOffsetCheck s ((([0, 1] : List (Fin 2)).filter fun q => (s.ringPort q).state == .joined).foldl
      (fun u q => u.emit (.whorl q "time mark" s.dev.devtime)) (s.updWhorl fun x => { x with offset := 0 })) := by
  simp only [Answers, exec_whlOffsetCheck, execWhlOffsetCheck, State.clocked_of_runs hr, hmember, hmaster, Bool.not_true, Bool.false_eq_true, if_false,
    if_true, State.each_emit_marks]
  rfl

end Offset

section Repair

/-- A port that is the end of an open chain has nothing to repair. -/
theorem whlRepairDone_answers_end (link : Option (Nat × Nat)) (gone : Fin 3) (hend : at' s.dev.whorl.reach q = []) :
    Answers (.whlRepairDone q link gone) s s := by
  simp only [Answers, exec_whlRepairDone, execWhlRepairDone, State.clocked_of_runs hr, hend, List.isEmpty_nil, Bool.or_true, if_true]

omit hr in
/-- The report of a repair: its event, the channels to the lost members, and the election (R349, R359-R361). -/
def State.endRepair (s : State) (q : Fin 2) (lost : List Nat) (kind : Nat) : State :=
  ((s.whorlRepair q.val kind (lost.headD 0) 0).closeChans (fun c => lost.contains c.peer) true).elect true

variable (hmember : s.dev.whorl.member = true) (hdown : (s.ringPort q).state = .down)
include hmember hdown

/-- The link trained with the next member: it takes the lost ones' place, under the standby key across one bypass (R343, R360). -/
theorem whlRepairDone_answers_linked {rate far : Nat} {gone : Fin 3} (hnext : (at' s.dev.whorl.reach q)[max 1 gone.val]? = some far) :
    let n := max 1 gone.val
    let lost := (at' s.dev.whorl.reach q).take n
    let u := ((s.updRingPort q fun p => { p with state := .joined, rate := min 3 rate, nb := some far, repairs := min 1023 (p.repairs + 1) }).updWhorl
      fun w => { w with reach := s.dev.whorl.reach.map fun l => l.filter fun i => !lost.contains i }).linkKeys q
    Answers (.whlRepairDone q (some (rate, far)) gone) s
      ((if n = 1 then u.updRingPort q fun p => { p with key := (s.ringPort q).standby } else u).endRepair q lost 0x1) := by
  have hsome : (at' s.dev.whorl.reach q).isEmpty = false :=
    List.isEmpty_eq_false_iff.mpr fun hnil => by simp only [hnil, List.getElem?_nil, reduceCtorEq] at hnext
  simp only [Answers, exec_whlRepairDone, execWhlRepairDone, State.clocked_of_runs hr, hmember, hdown, hsome, hnext, Bool.not_true, bne_self_eq_false,
    Bool.or_self, Bool.false_eq_true, if_false, if_true]
  rfl

/-- Without such a link the ring runs as an open chain (R349, R361). -/
theorem whlRepairDone_answers_chain {link : Option (Nat × Nat)} {gone : Fin 3} (hsome : at' s.dev.whorl.reach q ≠ [])
    (hnone : ∀ rate far, link = some (rate, far) → (at' s.dev.whorl.reach q)[max 1 gone.val]? ≠ some far) :
    let lost := (at' s.dev.whorl.reach q).take (max 1 gone.val)
    Answers (.whlRepairDone q link gone) s ((s.updWhorl fun w =>
      { w with reach := put (s.dev.whorl.reach.map fun l => l.filter fun i => !lost.contains i) q [], closed := false }).endRepair q lost 0x2) := by
  have hsome' : (at' s.dev.whorl.reach q).isEmpty = false := List.isEmpty_eq_false_iff.mpr hsome
  simp only [Answers, exec_whlRepairDone, execWhlRepairDone, State.clocked_of_runs hr, hmember, hdown, hsome', Bool.not_true, bne_self_eq_false,
    Bool.or_self, Bool.false_eq_true, if_false]
  split
  next rate far want hwant =>
    have hother : far ≠ want := fun hfar => hnone rate far rfl (hfar ▸ hwant)
    rw [if_neg hother]
    rfl
  next => rfl

end Repair
end RingService

theorem ringServiceResults : RingServiceResults := by
  intro q s hr w
  refine ⟨fun hport => ⟨whlDelayMeasure_answers hr hport, fun time hmember hslave => ?mark, whlLinkLoss_answers hr hport, whlProbeReceived_answers hr hport⟩,
    fun hmember hslave => ?offset, whlOffsetCheck_answers_master hr, fun link gone hmember hdown => ⟨whlRepairDone_answers_end hr link gone,
      fun hsome => ⟨fun rate far hlink hnext => hlink ▸ whlRepairDone_answers_linked hr hmember hdown hnext, whlRepairDone_answers_chain hr hmember hdown hsome⟩⟩,
    fun o j hj hnew hw hq hhops hmember hport => whlLoopTest_answers hr hport hj hnew hw hq hhops hmember, fun o far delay j => whlProbeReturn_answers hr far delay⟩
  case mark =>
    have hadopted := whlTimeMark_answers hr hport time (some s.dev.devtime) hmember hslave
    have hplain := whlTimeMark_answers hr hport time none hmember hslave
    simp only [beq_self_eq_true, Bool.or_true, if_true] at hadopted
    simp only [Option.none_beq_some, Bool.or_false] at hplain
    exact ⟨hadopted, hplain⟩
  case offset =>
    have hout := whlOffsetCheck_answers_member hr hmember hslave
    refine ⟨fun htimed hfar => ?_, fun hnot => ?_⟩
    · rwa [if_pos (And.intro htimed hfar)] at hout
    · have hkeeps : ¬(s.dev.whorl.timed = true ∧ 20 * s.dev.whorl.hops + 100 < s.dev.whorl.mark.natAbs) := fun ⟨htimed, hfar⟩ =>
        hnot.elim (ne_false_of_eq_true htimed) (Nat.not_le.mpr hfar)
      rwa [if_neg hkeeps] at hout

/-! Remote layers (R356-R358) -/

section RemoteLayers
variable {s : State} (hr : Runs s)

/-- What a sender's channel needs beside its port (R342, R356): an open receiver, and slots and payload on its path. -/
def State.pathFits (s : State) (c : Channel) (peerOpen : Bool) (transit : Nat × Nat) (free : Bool) : Prop :=
  let same := s.dev.whorl.chans.filter fun e => e.port == c.port && e.sender == c.sender
  peerOpen = true ∧ free = true ∧ same.length + transit.1 < 2 ∧
    (same.map (·.rate)).sum + transit.2 + c.rate ≤ ringPayload (s.ringPort c.port).rate

theorem whlChanOpen_answers {o : Nat} {j : Journal} {c : Channel} {peerOpen : Bool} {transit : Nat × Nat} {free : Bool} (hj : Managed s o 0x72 j)
    (hw : s.dev.pkgW = true) (hargs : channelArgs j = some c) (hpath : (s.dev.entry c.ply).ringPaths.contains (c.port.val, c.sender) = true)
    (hply : (s.ply c.ply).state ≠ .absent) (hmem : ∀ a ∈ c.bufs.toList, s.dev.ownsRange c.ply a c.span (!c.sender) = true)
    (hmember : s.dev.whorl.member = true) (hnew : s.dev.whorl.chans.any (·.id == c.id) = false) (hport : (s.ringPort c.port).state = .joined)
    (hfits : c.sender = true → s.pathFits c peerOpen transit free) :
    Answers (.whlChanOpen o peerOpen transit free) s ((s.updWhorl fun w => { w with chans := w.chans ++ [c] }).answer j mbOk (bytesOf 1 1)) := by
  have hmem' : (c.bufs.toList.any fun a => !s.dev.ownsRange c.ply a c.span (!c.sender)) = false :=
    List.any_eq_false.mpr fun a ha => by rw [hmem a ha]; exact Bool.false_ne_true
  simp only [Answers, exec_whlChanOpen, execWhlChanOpen, State.clocked_of_runs hj.1, State.managed_of_managed hj, hw, hargs, hpath, if_neg hply, hmem', hmember, hnew,
    hport, Bool.not_true, Bool.false_eq_true, or_self, ne_eq, not_true_eq_false, if_false]
  cases hsender : c.sender with
  | false => simp only [Bool.false_and, Bool.false_eq_true, if_false]
  | true =>
    obtain ⟨hopen, hfree, hslots, hload⟩ := hfits hsender
    rw [hsender] at hslots hload
    simp only [hopen, hfree, decide_eq_false (Nat.not_le.mpr hslots), decide_eq_false (Nat.not_lt.mpr hload), Bool.not_true, Bool.or_self, Bool.and_false,
      Bool.false_eq_true, if_false]

theorem whlChanClose_answers {o : Nat} {j : Journal} (hj : Managed s o 0x73 j) (hw : s.dev.pkgW = true) (hid : j.arg 0 1 ≤ 63)
    (hopen : s.dev.whorl.chans.any (·.id == j.arg 0 1) = true) :
    Answers (.whlChanClose o) s ((s.updWhorl fun w => { w with chans := w.chans.filter fun c => !(c.id == j.arg 0 1) }).answer j mbOk []) := by
  simp only [Answers, exec_whlChanClose, execWhlChanClose, State.clocked_of_runs hj.1, State.managed_of_managed hj, hw, hopen, if_neg (Nat.not_lt.mpr hid),
    Bool.not_true, Bool.false_eq_true, if_false]
  rfl

section Sender
variable {id : Nat} {c : Channel} (hfind : s.dev.whorl.chans.find? (fun c => c.id == id && c.sender) = some c)
include hr hfind

/-- An idle sender starts on SRC's newest value (R357). -/
theorem whlSendStart_answers (hidle : c.busy = none) (hnew : c.last < (s.ply c.ply).fence c.fence) (hport : (s.ringPort c.port).state = .joined)
    (hply : (s.ply c.ply).state = .active) :
    Answers (.whlSendStart id) s (s.updChannel id fun x => { x with busy := some ((s.ply c.ply).fence c.fence), row := 0, got := [] }) := by
  simp only [Answers, exec_whlSendStart, execWhlSendStart, State.clocked_of_runs hr, hfind, hidle, hport, hply, decide_eq_false (BitVec.not_le.mpr hnew),
    Option.isSome_none, bne_self_eq_false, Bool.or_self, Bool.false_eq_true, if_false]

theorem whlSendStart_answers_sent (hold : (s.ply c.ply).fence c.fence ≤ c.last) : Answers (.whlSendStart id) s s := by
  simp only [Answers, exec_whlSendStart, execWhlSendStart, State.clocked_of_runs hr, hfind, decide_eq_true hold, Bool.or_true, Bool.true_or, if_true]

/-- A frame whose rows are not all read waits, or has been given up (R46, R357). -/
theorem whlSendDone_answers_partly {v : DWord} {u : State} (hbusy : c.busy = some v)
    (hrows : State.sendRows c v ((List.range c.h).drop c.row) s = (u, false)) : Answers (.whlSendDone id) s u := by
  simp only [Answers, exec_whlSendDone, execWhlSendDone, State.clocked_of_runs hr, hfind, hbusy, hrows]

/-- The frame has gone out, and DONE is signalled (R357). -/
theorem whlSendDone_answers {v : DWord} {u : State} (hbusy : c.busy = some v)
    (hrows : State.sendRows c v ((List.range c.h).drop c.row) s = (u, true)) : Answers (.whlSendDone id) s
      ((((u.each (u.dev.whorl.chans.filter fun c => c.id == id && c.sender) fun (u : State) (c : Channel) =>
        u.emit (.whorlFrame c.port id v c.got)).dropFrame id).updChannel id fun c => { c with last := v }).signal c.ply c.done v) := by
  simp only [Answers, exec_whlSendDone, execWhlSendDone, State.clocked_of_runs hr, hfind, hbusy, hrows]

end Sender

section Receiver
variable {id : Nat} {v : DWord} {bytes : List Byte} {c : Channel} (hfind : s.dev.whorl.chans.find? (fun c => c.id == id && !c.sender) = some c)

/-- A layer uses the frame's buffer, or the ply is not ACTIVE (R358). -/
def State.bufferUsed (s : State) (c : Channel) (v : DWord) : Prop :=
  s.dev.layersRead c.ply (c.buf v) c.span = true ∨ (s.ply c.ply).state ≠ .active

/-- The rows of a received frame that are still to be written. -/
def State.writeFrame (s : State) (id : Nat) (c : Channel) (v : DWord) (bytes : List Byte) : State × Bool :=
  State.receiveRows c v (c.memRow bytes s.dev.fresh) ((List.range c.h).drop c.row) (s.tick.updChannel id fun c => { c with busy := some v })

include hr hfind

theorem whlReceiveDone_answers_dropped (hidle : c.busy = none) (hused : s.bufferUsed c v) :
    Answers (.whlReceiveDone id v bytes) s (s.updRingPort c.port fun p => { p with drops := min 1023 (p.drops + 1) }) := by
  have hused' : (s.dev.layersRead c.ply (c.buf v) c.span || (s.ply c.ply).state != .active) = true := by
    rwa [Bool.or_eq_true, bne_iff_ne]
  simp only [Answers, exec_whlReceiveDone, execWhlReceiveDone, State.clocked_of_runs hr, hfind, hidle, hused', Option.isNone_none, Bool.and_self, if_true]

/-- A frame that may be written is: DST is signalled once all of it is in DRAM (R358). -/
theorem whlReceiveDone_answers {u : State} {whole : Bool} (hgo : c.busy = none ∧ ¬ s.bufferUsed c v ∨ c.busy = some v)
    (hrows : s.writeFrame id c v bytes = (u, whole)) :
    Answers (.whlReceiveDone id v bytes) s (if whole then (u.dropFrame id).signal c.ply c.fence v else u) := by
  have hkept : (c.busy.isNone && (s.dev.layersRead c.ply (c.buf v) c.span || (s.ply c.ply).state != .active)) = false := by
    obtain ⟨hidle, hfree⟩ | hbusy := hgo
    · have hfree' : ¬(s.dev.layersRead c.ply (c.buf v) c.span || (s.ply c.ply).state != .active) = true := by rwa [Bool.or_eq_true, bne_iff_ne]
      rw [Bool.eq_false_iff.mpr hfree', Bool.and_false]
    · rw [hbusy, Option.isNone_some, Bool.false_and]
  have hsame : c.busy.any (· != v) = false := by
    obtain ⟨hidle, _⟩ | hbusy := hgo
    · rw [hidle, Option.any_none]
    · rw [hbusy, Option.any_some, bne_self_eq_false]
  simp only [Answers, exec_whlReceiveDone, execWhlReceiveDone, State.clocked_of_runs hr, hfind, hkept, hsame, Bool.false_eq_true, if_false]
  rw [State.writeFrame] at hrows
  rw [hrows]
  cases whole <;> rfl

end Receiver
end RemoteLayers

theorem remoteLayerResults : RemoteLayerResults := by
  intro s hr
  refine ⟨fun o j c peerOpen transit free hj hw hargs hpath hply hmem hmember hnew hport =>
      whlChanOpen_answers hj hw hargs hpath hply hmem hmember hnew hport,
    fun o j hj hw hid hopen => whlChanClose_answers hj hw hid hopen,
    fun id c hfind => ⟨whlSendStart_answers hr hfind, whlSendStart_answers_sent hr hfind, fun v hbusy =>
      ⟨fun u => whlSendDone_answers_partly hr hfind hbusy, fun u => whlSendDone_answers hr hfind hbusy⟩⟩,
    fun id v bytes c hfind => ⟨whlReceiveDone_answers_dropped hr hfind, fun hgo u => ⟨whlReceiveDone_answers hr hfind hgo, whlReceiveDone_answers hr hfind hgo⟩⟩⟩

/-- Settles O48: it holds, each clause by the lemma of its row. That JOIN completes in a second step with what the ring has answered, and corners of joining
and repair, are the model's choice (log entry 97), as are a loop test whose port goes and the keys of a link across two bypasses (entry 119). -/
theorem whorlResults : Obligations.WhorlResults := ⟨ringMembershipResults, ringServiceResults, remoteLayerResults⟩

end Sys2Proof.Machine

namespace Sys2Proof.Machine
open Sys2Proof.Claims

/-! Touch scans (R387-R401) -/

/-- While the touch and haptic island is up, a row of those front ends has its effect (R386, R431). -/
theorem State.sensing_of_senses {s : State} (hs : Senses s) (f : State → Res) : s.sensing f = f s := by
  obtain ⟨hr, hisland⟩ := hs
  rw [State.sensing, State.clocked_of_runs hr, if_pos hisland]

@[simp] theorem State.panel_updPanel_self (s : State) (n : Fin 4) (f : Panel → Panel) : (s.updPanel n f).panel n = f (s.panel n) := at'_upd_self ..

theorem State.panel_postPly (s : State) (p : Fin 64) (about code unit : Nat) (data : List Byte) (n : Fin 4) :
    (s.postPly p about code unit data).panel n = s.panel n :=
  congrArg (fun t => at' (Touch.panels t) n) (Dev.touch_of_units (s.units_postPly p about code unit data))

section TouchScan
variable {n : Fin 4} {s : State} (hs : Senses s)

section ScanStart

/-- A panel whose next scan is to start takes the block in force (R387, R395). -/
def Panel.configured (x : Panel) (b : List Byte) : Panel :=
  let fresh := x.next.isSome
  let y := { x with cfg := some b, next := none, recap := x.recap || (fresh && tcFlag b 6), first := x.first || !x.scanning, scanning := tcFlag b 0 }
  if fresh && tcDiv b y.freq.val = 0 then { y with freq := 0 } else y

/-- The mode of a scan is settled as it starts (R392). -/
def Panel.settled (x : Panel) (b : List Byte) : Panel :=
  let now := x.noiseTurn b
  { x with noise := now, low := if now == x.noise then x.low else 0, high := if now == x.noise then x.high else 0, half := if now then 0 else x.half }

/-- The passes of a scan in the mode settled (R391, R392). -/
def Panel.passes (x : Panel) (b : List Byte) : List (Fin 8) := if x.noise then x.noiseEntries b else [x.freq]

/-- The period of a panel's scans: a full scan's time at least (R388, R390). -/
def Dev.scanPeriod (d : Dev) (n : Fin 4) (x : Panel) (b : List Byte) : Nat :=
  max (1000000 / byteAt b 1) (((x.passes b).map fun e => passTime (d.drives n) (x.integ b) (tcDiv b e.val)).sum / 96)

/-- A panel whose scan has started. -/
def Dev.started (d : Dev) (n : Fin 4) (x : Panel) (b : List Byte) : Panel :=
  { x with scan := some { start := d.devtime, entries := x.passes b, recap := x.recap || x.first, done := none }, recap := false,
           periodUs := d.scanPeriod n x b, force := tcFlag b 1 }

end ScanStart

include hs

/-- The block waits for the panel's next scan (R387). -/
theorem tchConfig_answers {p : Fin 64} {r : Fin 4} {f : InFlight} (hready : s.ready p r 0x60 = some f) :
    Answers (.tchConfig p r) s ((s.updPanel f.tchPanel fun x => { x with next := some f.block }).finishDesc p r f.order 0 []) := by
  simp only [Answers, exec_tchConfig, execTchConfig, State.sensing_of_senses hs, hready]

/-- A scan starts with the block in force, or the panel goes idle where that block does not scan (R387, R390, R392). -/
def State.startScan (s : State) (n : Fin 4) (b : List Byte) : State :=
  let x := (s.panel n).configured b
  let y := x.settled b
  let t := s.updPanel n fun _ => s.dev.started n y b
  if !tcFlag b 0 then s.updPanel n fun _ => x.idle
  else if y.noise == x.noise then t else t.chargerNoise n (if y.noise then 1 else 2)

theorem touchScanStart_answers {b : List Byte} (hvalid : s.heldScans.dev.panelValid n = true) (hfree : (s.heldScans.panel n).scan = none)
    (hnone : s.heldScans.dev.touch.running = none) (hcomes : comes (s.heldScans.panel n) b) :
    Answers (.touchScanStart n) s (s.heldScans.startScan n b) := by
  have hblock : (s.heldScans.panel n).next.or (s.heldScans.panel n).cfg = some b := by
    obtain hnext | ⟨hnext, hcfg⟩ := hcomes
    · rw [hnext, Option.some_or]
    · rw [hnext, Option.none_or, hcfg]
  rw [Answers, exec_touchScanStart, execTouchScanStart, State.sensing_of_senses hs]
  extract_lets h x testing fresh
  have htesting : testing = false := by simp only [testing, h, hnone]
  have hgo : ¬(!h.dev.panelValid n || x.scan.isSome || testing) = true := by
    rw [htesting, hvalid, hfree]
    decide
  rw [if_neg hgo]
  split
  next hb => exact absurd (hblock.symm.trans hb) (by simp)
  next b' hb =>
    obtain rfl : b = b' := Option.some.inj (hblock.symm.trans hb)
    extract_lets on y1 x1 was now x2 entries time us x3 u
    have h1 : x1 = x.configured b := rfl
    have h2 : x2 = x1.settled b := rfl
    have h3 : x3 = h.dev.started n x2 b := rfl
    have hu : u = h.updPanel n fun _ => h.dev.started n ((x.configured b).settled b) b :=
      congrArg (fun y => h.updPanel n fun _ => y) (h3.trans (congrArg (fun y => h.dev.started n y b) (h2.trans (congrArg (fun y => y.settled b) h1))))
    rw [← apply_ite Host.Outcome.next, hu, h1]
    rfl

/-- Results wait while the class A panel's are there (R64). -/
theorem touchScanDone_answers (passes : List TouchPass) :
    Answers (.touchScanDone n passes) s (if s.dev.classAScanned n then
      s.updPanel n fun x => { x with scan := x.scan.map fun c => { c with done := some passes } } else (s.scanDone n passes).heldScans) := by
  simp only [Answers, exec_touchScanDone, execTouchScanDone, State.sensing_of_senses hs, apply_ite Host.Outcome.next]

section Persistent
variable {id : Nat} {c : Contact} (hfind : (s.panel n).contacts.find? (·.id == id) = some c)
include hfind

theorem persistentTouch_answers_early (hearly : s.dev.devtime < c.persist) : Answers (.persistentTouch n id) s s := by
  simp only [Answers, exec_persistentTouch, execPersistentTouch, State.sensing_of_senses hs, hfind, if_pos hearly]

theorem persistentTouch_answers (hdue : c.persist ≤ s.dev.devtime) :
    let u := s.updPanel n fun x =>
      { x with contacts := x.contacts.map fun e => if e.id = id then { e with persist := e.persist + 600000000000 } else e }
    Answers (.persistentTouch n id) s (u.postPly (u.dev.panelOwner n) (u.dev.panelOwner n).val 0x0C01 n.val
      (dataBytes [(16, 1, id), (20, 4, (u.dev.devtime - c.since) / 1000000000)])) := by
  simp only [Answers, exec_persistentTouch, execPersistentTouch, State.sensing_of_senses hs, hfind, if_neg (Nat.not_lt.mpr hdue)]

end Persistent
end TouchScan

theorem State.panel_chargerNoise (s : State) (n : Fin 4) (code : Nat) (m : Fin 4) : (s.chargerNoise n code).panel m = s.panel m :=
  State.panel_postPly ..

theorem State.panel_startScan_off (s : State) (n : Fin 4) {b : List Byte} (hoff : tcFlag b 0 = false) :
    (s.startScan n b).panel n = ((s.panel n).configured b).idle := by
  simp only [State.startScan, hoff, Bool.not_false, if_true, State.panel_updPanel_self]

theorem State.panel_startScan (s : State) (n : Fin 4) {b : List Byte} (hon : tcFlag b 0 = true) :
    (s.startScan n b).panel n = s.dev.started n (((s.panel n).configured b).settled b) b := by
  simp only [State.startScan, hon, Bool.not_true, Bool.false_eq_true, if_false, apply_ite (State.panel · n), State.panel_chargerNoise,
    State.panel_updPanel_self, ite_self]

theorem Panel.configured_fields (x : Panel) (b : List Byte) :
    (x.configured b).next = none ∧ (x.configured b).cfg = some b ∧ (x.configured b).scanning = tcFlag b 0 ∧ (x.configured b).scores = x.scores := by
  unfold Panel.configured
  extract_lets fresh y
  split <;> exact ⟨rfl, rfl, rfl, rfl⟩

theorem Panel.idle_fields (x : Panel) : x.idle.next = x.next ∧ x.idle.scan = none ∧ x.idle.scanning = false := ⟨rfl, rfl, rfl⟩

/-- The start of a scan leaves the block and what else came with it. -/
theorem Dev.started_settled (d : Dev) (n : Fin 4) (x : Panel) (b : List Byte) :
    (d.started n (x.settled b) b).next = x.next ∧ (d.started n (x.settled b) b).cfg = x.cfg ∧ (d.started n (x.settled b) b).scanning = x.scanning ∧
      (x.settled b).scores = x.scores :=
  ⟨rfl, rfl, rfl, rfl⟩

/-- A scan starts with the passes of the mode, and their time bounds the period (R388, R390). -/
theorem Dev.started_scan (d : Dev) (n : Fin 4) {x y : Panel} (h : y.scores = x.scores) (b : List Byte) :
    ∃ c : Scan, (d.started n y b).scan = some c ∧ c.start = d.devtime ∧ c.done = none ∧
      c.entries = (if (d.started n y b).noise then x.noiseEntries b else [(d.started n y b).freq]) ∧
      (d.started n y b).periodUs = max (1000000 / byteAt b 1)
        ((c.entries.map fun e => passTime (d.drives n) ((d.started n y b).integ b) (tcDiv b e.val)).sum / 96) := by
  have hentries : y.passes b = if y.noise then x.noiseEntries b else [y.freq] := by simp only [Panel.passes, Panel.noiseEntries, h]
  exact ⟨_, rfl, rfl, rfl, hentries, rfl⟩

theorem Panel.scored_fields (x : Panel) (b : List Byte) (c : Scan) (ps : List TouchPass) :
    (x.scored b c ps).scan = x.scan ∧ (x.scored b c ps).nodes = x.nodes ∧ (x.scored b c ps).drift = x.drift ∧ (x.scored b c ps).contacts = x.contacts := by
  unfold Panel.scored
  extract_lets scores score half y
  split <;> exact ⟨rfl, rfl, rfl, rfl⟩

section ScanDone
variable {n : Fin 4} {s : State} {c : Scan} {b : List Byte}

/-- The contacts of a scan's nodes (R398). -/
def State.scanContacts (s : State) (n : Fin 4) (c : Scan) (b : List Byte) (nodes : List Node) (raw : List Nat) : List Contact :=
  nextContacts c.start (s.panel n).contacts (findPeaks b (s.dev.drives n) (s.dev.senses n) nodes (deltas nodes raw))

/-- A panel after a scan that is no recapture, before any drift, with its contacts. -/
def Panel.afterScan (x : Panel) (b : List Byte) (nodes : List Node) (cs : List Contact) (told : Bool) : Panel :=
  { x with cfg := some b, scan := none, nodes := nodes, drift := x.drift + 1, first := false, ref := .none,
           contacts := cs.map fun (k : Contact) => { k with told := told } }

theorem State.scanDone_of_undrifted (passes : List TouchPass) (hscan : (s.panel n).scan = some c) (hcfg : (s.panel n).cfg = some b)
    (hlen : passes.length = c.entries.length) (hrecap : c.recap = false) (hnodes : (s.panel n).nodes.length = s.dev.drives n * s.dev.senses n)
    (hdrift : (s.panel n).drift + 1 < byteAt b 34) :
    let raw := scanRaw (s.dev.drives n * s.dev.senses n) passes
    let nodes := scanned (s.panel n) b raw
    let cs := s.scanContacts n c b nodes raw
    let t := s.updPanel n fun _ => ((s.panel n).afterScan b nodes cs (s.dev.panelReports n)).scored b c passes
    s.scanDone n passes = if s.dev.panelReports n then t.report n b c.start (s.panel n).contacts cs else t := by
  have hpasses : (passes ++ List.replicate c.entries.length ({ raw := [], listen := [] } : TouchPass)).take c.entries.length = passes := by
    rw [← hlen, List.take_left]
  unfold State.scanDone
  simp only [hscan, hcfg, hpasses, hrecap, hnodes, bne_self_eq_false, Bool.or_self, Bool.false_eq_true, if_false, decide_eq_false (Nat.not_le.mpr hdrift)]
  rfl

end ScanDone

theorem touchScanResults : TouchScanResults := by
  intro n s hs
  refine ⟨fun p r f => tchConfig_answers hs, fun b hvalid hfree hnone hcomes => ?start, fun passes hwaits => ?waits, fun passes hgo => ?processed,
    fun passes c b hscan hcfg hlen hrecap hnodes hdrift => ?done, fun id c hfind => ⟨persistentTouch_answers_early hs hfind, persistentTouch_answers hs hfind⟩⟩
  case start =>
    obtain ⟨hnext, hcfg, hscanning, hscores⟩ := (s.heldScans.panel n).configured_fields b
    obtain ⟨hidleNext, hidleScan, hidle⟩ := ((s.heldScans.panel n).configured b).idle_fields
    obtain ⟨hnext', hcfg', hscanning', hscores'⟩ := s.heldScans.dev.started_settled n ((s.heldScans.panel n).configured b) b
    refine ⟨_, touchScanStart_answers hs hvalid hfree hnone hcomes, ?_, fun hoff => ?_, fun hon => ?_⟩
    · cases hon : tcFlag b 0 with
      | false => rw [State.panel_startScan_off _ _ hon, hidleNext, hnext]
      | true => rw [State.panel_startScan _ _ hon, hnext', hnext]
    · rw [State.panel_startScan_off _ _ hoff]
      exact ⟨hidleScan, hidle⟩
    · rw [State.panel_startScan _ _ hon, hcfg', hscanning', hscanning]
      exact ⟨hcfg, hon, Dev.started_scan _ n (hscores'.trans hscores) b⟩
  case waits =>
    have hout := touchScanDone_answers (n := n) hs passes
    rwa [if_pos hwaits] at hout
  case processed =>
    have hout := touchScanDone_answers (n := n) hs passes
    rwa [if_neg (ne_true_of_eq_false hgo)] at hout
  case done =>
    intro nodes cs
    have hout := State.scanDone_of_undrifted passes hscan hcfg hlen hrecap hnodes hdrift
    obtain ⟨hyscan, hynodes, hydrift, hycontacts⟩ := ((s.panel n).afterScan b nodes cs (s.dev.panelReports n)).scored_fields b c passes
    exact ⟨_, hyscan, hynodes, hydrift, hycontacts, hout⟩

/-! Panel commands and the wake gesture (R395, R402-R405) -/

section PanelCommand
variable {q n : Fin 4} {s : State}

/-- A command is discarded while another runs, and where the manager does not send it (R402). -/
theorem State.tchCmd_of_discarded (h : s.dev.isManager q = false ∨ s.dev.touch.running.isSome = true) (code : Nat) (act : State → State) :
    s.tchCmd q n code act = .next s := by
  refine if_pos ?_
  obtain hman | hbusy := h
  · rw [hman, Bool.not_false, Bool.true_or]
  · rw [hbusy, Bool.or_true]

/-- TCH_CMD_STATUS names the command taken last (R402). -/
def State.noteTchCmd (s : State) (code : Nat) : State := s.updTouch fun t => { t with lastCmd := code, result := 0 }

theorem State.tchCmd_of_free (hman : s.dev.isManager q = true) (hfree : s.dev.touch.running = none) (code : Nat) (act : State → State) :
    s.tchCmd q n code act = .next (if !s.dev.panelValid n then (s.noteTchCmd code).updTouch fun t => { t with result := 3 }
      else act (s.noteTchCmd code)) := by
  simp only [State.tchCmd, hman, hfree, Option.isSome_none, Bool.not_true, Bool.or_self, Bool.false_eq_true, if_false]
  rfl

variable (hs : Senses s)
include hs

section Commands
variable (hman : s.dev.isManager q = true) (hfree : s.dev.touch.running = none)
include hman hfree

theorem recal_answers : Answers (.recal q n) s (if !s.dev.panelValid n then (s.noteTchCmd 1).updTouch fun t => { t with result := 3 }
    else (s.noteTchCmd 1).updPanel n fun x => { x with recap := true }) := by
  rw [Answers, exec_recal, execRecal, State.sensing_of_senses hs, State.tchCmd_of_free hman hfree]

theorem selftest_answers : Answers (.selftest q n) s (if !s.dev.panelValid n then (s.noteTchCmd 2).updTouch fun t => { t with result := 3 }
    else if s.dev.panelClassA n && (s.dev.ply (s.dev.panelOwner n)).state == .active then (s.noteTchCmd 2).updTouch fun t => { t with result := 1 }
    else ((s.noteTchCmd 2).updTouch fun t => { t with running := some (.selftest, n) }).updPanel n Panel.dropScan) := by
  rw [Answers, exec_selftest, execSelftest, State.sensing_of_senses hs, State.tchCmd_of_free hman hfree]
  rfl

theorem refStore_answers : Answers (.refStore q n) s (if !s.dev.panelValid n then (s.noteTchCmd 3).updTouch fun t => { t with result := 3 }
    else if !(s.panel n).contacts.isEmpty then (s.noteTchCmd 3).updTouch fun t => { t with result := 2 }
    else (s.noteTchCmd 3).updTouch fun t => { t with running := some (.refStore, n) }) := by
  rw [Answers, exec_refStore, execRefStore, State.sensing_of_senses hs, State.tchCmd_of_free hman hfree]
  rfl

end Commands

theorem tchCmdDone_answers_idle (m : TchMeasure) (ok : Bool) (hidle : s.dev.touch.running = none) : Answers (.tchCmdDone m ok) s s := by
  simp only [Answers, exec_tchCmdDone, execTchCmdDone, State.sensing_of_senses hs, hidle]

/-- A self-test reports the first 16 of its faults (R403). -/
theorem tchCmdDone_answers_selftest (m : TchMeasure) (ok : Bool) (hrun : s.dev.touch.running = some (.selftest, n)) :
    let fs := selfTestFaults (fld (s.dev.panelWord n 0) 21 16) (s.dev.drives n) (fld (s.dev.panelWord n 1) 22 16) (s.dev.senses n)
      (s.dev.startRef n .flash) m
    Answers (.tchCmdDone m ok) s (s.updTouch fun t => { t with running := none, result := 0, nFaults := min 31 fs.length, faults := fs.take 16 }) := by
  simp only [Answers, exec_tchCmdDone, execTchCmdDone, State.sensing_of_senses hs, hrun]

/-- The panel's baselines, with its map, as they are stored (R396). -/
def State.panelRef (s : State) (n : Fin 4) : TouchRef :=
  { panel0 := word (s.dev.panelWord n 0), panel1 := word (s.dev.panelWord n 1), base := (s.panel n).nodes.map (·.base) }

/-- A REF_STORE writes the baselines, or ends with FLASH_ERR (R402). -/
theorem tchCmdDone_answers_refStore (m : TchMeasure) (ok : Bool) (hrun : s.dev.touch.running = some (.refStore, n)) :
    Answers (.tchCmdDone m ok) s (if !ok || !s.dev.ccn.flash then s.updTouch fun t => { t with running := none, result := 4 }
      else s.updTouch fun t => { t with running := none, result := 0, stored := put t.stored n (some (s.panelRef n)) }) := by
  simp only [Answers, exec_tchCmdDone, execTchCmdDone, State.sensing_of_senses hs, hrun, ← apply_ite Host.Outcome.next]
  rfl

end PanelCommand

end Sys2Proof.Machine

namespace Sys2Proof.Machine
open Sys2Proof.Claims

section WakeScan
variable {s : State} (xs ys : List Nat)

/-- The wake gesture is on: the device is in WATCH with its supply and SLPCLK, and TCH_WAKE_CTL selects a gesture that is not blocked (R404, R405). -/
def State.wakeScans (s : State) : Prop :=
  s.dev.power.state = .watch ∧ s.dev.slpclk = true ∧ s.dev.power.vaonOk = true ∧ bit (s.dev.reg 0x19048) 31 = true ∧
    fld (s.dev.reg 0x19048) 27 26 ≠ 0 ∧ s.dev.touch.blocked = false

theorem wakeScan_answers_off (hoff : ¬ s.wakeScans) : Answers (.wakeScan xs ys) s s := by
  refine if_pos (Decidable.byContradiction fun hon => hoff ?_)
  simpa [State.wakeScans, and_assoc] using hon

/-- The gesture recognised, with where it began: a double tap is kind 1 and comes first, a swipe is kind 2 (R404). -/
def wakeHit : Option (Nat × Nat) → Option (Nat × Nat) → Option (Nat × Nat × Nat)
  | some p, _ => some (1, p)
  | none, some p => some (2, p)
  | none, none => none

theorem wakeHit_kind {tap sw : Option (Nat × Nat)} {kind : Nat} {p : Nat × Nat} (h : wakeHit tap sw = some (kind, p)) : kind = 1 ∨ kind = 2 := by
  cases tap with
  | some a =>
    cases h
    exact .inl rfl
  | none =>
    cases sw with
    | some a =>
      cases h
      exact .inr rfl
    | none => cases h

/-- A gesture recognised asserts WAKE_N, and its trail begins anew (R404). -/
def State.afterWakeScan (s : State) (t : Touch) : Option (Nat × Nat × Nat) → State
  | none => s.onDev fun d => { d with touch := t }
  | some (kind, p) => s.onDev fun d =>
    { d with touch := { t with woke := true, wakeKind := kind, wakeAt := p, trail := [] }, power := { d.power with wakeN := true } }

theorem wakeScan_answers (hon : s.wakeScans) :
    ∃ (t : Touch) (tap sw : Option (Nat × Nat)), t.trail ≠ [] ∧ t.woke = s.dev.touch.woke ∧
      Answers (.wakeScan xs ys) s (s.afterWakeScan t (wakeHit tap sw)) := by
  obtain ⟨hwatch, hclk, hvaon, hen, hsel, hfree⟩ := hon
  have hgo : (s.dev.power.state != .watch || !s.dev.slpclk || !s.dev.power.vaonOk || !bit (s.dev.reg 0x19048) 31 || fld (s.dev.reg 0x19048) 27 26 == 0 ||
      s.dev.touch.blocked) = false := by
    simp [hwatch, hclk, hvaon, hen, hsel, hfree]
  unfold Answers
  rw [exec_wakeScan, execWakeScan]
  extract_lets d c z
  rw [if_neg (ne_true_of_eq_false hgo)]
  split
  split
  next wx px _ _ wy py _ =>
  extract_lets pos trail tap sw t hit
  refine ⟨t, tap, sw, List.cons_ne_nil _ _, rfl, ?_⟩
  have hhit : hit = wakeHit tap sw := by
    simp only [hit]
    cases tap with
    | some p => rfl
    | none => cases sw <;> rfl
  rw [← hhit]
  cases hit with
  | none => rfl
  | some x => rfl

end WakeScan

theorem touchCommandResults : TouchCommandResults := by
  intro q n s
  refine ⟨fun hs => ⟨fun hno => ?discarded, fun hman hfree => ?taken, fun m ok => ⟨tchCmdDone_answers_idle hs m ok, tchCmdDone_answers_selftest hs m ok,
    fun hrun => ?stored⟩⟩, fun xs ys => ⟨fun hoff => wakeScan_answers_off xs ys ?off, fun hwatch hclk hvaon hen hsel hfree => ?wakes⟩⟩
  case discarded =>
    refine ⟨?_, ?_, ?_⟩
    · rw [Answers, exec_recal, execRecal, State.sensing_of_senses hs, State.tchCmd_of_discarded hno]
    · rw [Answers, exec_selftest, execSelftest, State.sensing_of_senses hs, State.tchCmd_of_discarded hno]
    · rw [Answers, exec_refStore, execRefStore, State.sensing_of_senses hs, State.tchCmd_of_discarded hno]
  case taken =>
    have hrecal := recal_answers (n := n) hs hman hfree
    have hself := selftest_answers (n := n) hs hman hfree
    have href := refStore_answers (n := n) hs hman hfree
    refine ⟨fun habsent => ?_, fun hvalid => ?_⟩
    · simp only [habsent, Bool.not_false, if_true] at hrecal hself href
      exact ⟨hrecal, hself, href⟩
    · simp only [hvalid, Bool.not_true, Bool.false_eq_true, if_false] at hrecal hself href
      refine ⟨hrecal, fun hshut => ?_, fun hopen => ?_, fun hheld => ?_, fun hnone => ?_⟩
      · rwa [if_pos hshut] at hself
      · rwa [if_neg (ne_true_of_eq_false hopen)] at hself
      · rwa [List.isEmpty_eq_false_iff.mpr hheld, Bool.not_false, if_pos rfl] at href
      · rwa [hnone, List.isEmpty_nil, Bool.not_true, if_neg Bool.false_ne_true] at href
  case stored =>
    have hout := tchCmdDone_answers_refStore hs m ok hrun
    refine ⟨fun hfails => ?_, fun hok hflash => ?_⟩
    · have hbad : (!ok || !s.dev.ccn.flash) = true := by simpa using hfails
      rwa [if_pos hbad] at hout
    · rw [hok, hflash, Bool.not_true, Bool.or_self, if_neg Bool.false_ne_true, State.panelRef] at hout
      rwa [hok]
  case off =>
    rintro ⟨hwatch, hclk, hvaon, hen, hsel, hfree⟩
    simp [hwatch, hclk, hvaon, hen, hsel, hfree] at hoff
  case wakes =>
    obtain ⟨t, tap, sw, htrail, hwoke, hout⟩ := wakeScan_answers xs ys ⟨hwatch, hclk, hvaon, hen, hsel, hfree⟩
    refine ⟨_, hout, ?_⟩
    cases hhit : wakeHit tap sw with
    | none => exact ⟨fun _ => ⟨rfl, hwoke⟩, fun hnil => absurd hnil htrail⟩
    | some x =>
      obtain ⟨kind, p⟩ := x
      exact ⟨fun h => absurd rfl h, fun _ => ⟨rfl, rfl, wakeHit_kind hhit⟩⟩

/-- Settles O49: it holds, each clause by the lemma of its row. That RECAL completes at once and the corners of scanning are the model's choice (log entry 99),
as are those of contacts, zones and the wake gesture (entry 100). -/
theorem touchResults : Obligations.TouchResults := ⟨touchScanResults, touchCommandResults⟩

end Sys2Proof.Machine

namespace Sys2Proof.Machine
open Sys2Proof.Claims

/-! Haptic loads and triggers (R410, R411, R414) -/

section HapticTrigger
variable {s : State} (hs : Senses s)

section Descriptor
variable {p : Fin 64} {r : Fin 4} {f : InFlight}
include hs

/-- The trigger reaches the channel for its next control tick (R414). -/
theorem hapPlay_answers (hready : s.ready p r 0x50 = some f) :
    Answers (.hapPlay p r) s ((s.dispatch p r f.order 0).onDev fun d => d.hapArrive f.hapChan
      { src := .desc p r f.order, slot := f.hapSlot, prio := byteAt f.bytes 34 % 16, gain := le16 f.bytes 36 }) := by
  simp only [Answers, exec_hapPlay, execHapPlay, State.sensing_of_senses hs, hready]

variable (hready : s.ready p r 0x51 = some f)
include hready

theorem hapLoad_answers_bad (hbad : hapRecord f.block (le32 f.bytes 48) = none) : Answers (.hapLoad p r) s (s.finishDesc p r f.order 0x02 []) := by
  simp only [Answers, exec_hapLoad, execHapLoad, State.sensing_of_senses hs, hready, hbad]

/-- A record that passes its checks goes to its slot where the pool holds it (R410). -/
theorem hapLoad_answers {e : Effect} (hrecord : hapRecord f.block (le32 f.bytes 48) = some e) :
    Answers (.hapLoad p r) s (if 16384 < (s.hap f.hapChan).sizeWith f.hapSlot e then s.finishDesc p r f.order 0x02 []
      else ((s.dispatch p r f.order 0).updHap f.hapChan fun x => { x with loads := x.loads ++ [(f.hapSlot, e, p, r, f.order)] }).settleLoads f.hapChan) := by
  simp only [Answers, exec_hapLoad, execHapLoad, State.sensing_of_senses hs, hready, hrecord, apply_ite Host.Outcome.next]

end Descriptor

section Pin
variable {pin : Fin 8} {rising : Bool}
include hs

theorem htrigEdge_answers_other (hother : bit (s.dev.reg (0x1A100 + 4 * pin.val)) 31 = false ∨ bit (s.dev.reg (0x1A100 + 4 * pin.val)) 30 = rising) :
    Answers (.htrigEdge pin rising) s s := by
  have hskip : (!bit (s.dev.reg (0x1A100 + 4 * pin.val)) 31 || bit (s.dev.reg (0x1A100 + 4 * pin.val)) 30 == rising) = true := by
    rw [Bool.or_eq_true, Bool.not_eq_true', beq_iff_eq]
    exact hother
  simp only [Answers, exec_htrigEdge, execHtrigEdge, State.sensing_of_senses hs, hskip, if_true]

omit hs in
/-- The trigger of a bound pin: its slot, priority and gain (R414). -/
def Dev.pinTrigger (d : Dev) (pin : Fin 8) (k : Fin 32) : Trigger :=
  { src := .pin, slot := k, prio := fld (d.reg (0x1A100 + 4 * pin.val)) 21 18, gain := fld (d.reg (0x1A100 + 4 * pin.val)) 15 0 }

/-- The bound edge of a pin triggers its effect, or finds the slot empty (R414). -/
theorem htrigEdge_answers (hen : bit (s.dev.reg (0x1A100 + 4 * pin.val)) 31 = true) (hedge : bit (s.dev.reg (0x1A100 + 4 * pin.val)) 30 = !rising)
    {c : Fin 8} {k : Fin 32} (hc : c.val = fld (s.dev.reg (0x1A100 + 4 * pin.val)) 29 27) (hk : k.val = fld (s.dev.reg (0x1A100 + 4 * pin.val)) 26 22) :
    Answers (.htrigEdge pin rising) s (if (at' (s.hap c).pool k).isNone then s.hapEvent c 0x0D02 []
      else s.onDev fun d => d.hapArrive c (s.dev.pinTrigger pin k)) := by
  have hgo : (!bit (s.dev.reg (0x1A100 + 4 * pin.val)) 31 || bit (s.dev.reg (0x1A100 + 4 * pin.val)) 30 == rising) = false := by
    rw [hen, hedge]
    cases rising <;> rfl
  obtain ⟨c, hlt⟩ := c
  obtain ⟨k, hlt'⟩ := k
  subst hc hk
  simp only [Answers, exec_htrigEdge, execHtrigEdge, State.sensing_of_senses hs, hgo, Bool.false_eq_true, if_false, apply_ite Host.Outcome.next]
  rfl

end Pin
end HapticTrigger

theorem hapticTriggerResults : HapticTriggerResults := by
  intro s hs
  refine ⟨fun p r f => hapPlay_answers hs, fun p r f hready => ⟨hapLoad_answers_bad hs hready, fun e hrecord => ?load⟩,
    fun pin rising => ⟨htrigEdge_answers_other hs, fun hen hedge c k hc hk => ?edge⟩⟩
  case load =>
    have hout := hapLoad_answers hs hready hrecord
    refine ⟨fun hfull => ?_, fun hfits => ?_⟩
    · rwa [if_pos hfull] at hout
    · rwa [if_neg (Nat.not_lt.mpr hfits)] at hout
  case edge =>
    have hout := htrigEdge_answers hs hen hedge hc hk
    refine ⟨fun hnone => ?_, fun hsome => ?_⟩
    · rwa [hnone, Option.isNone_none, if_pos rfl] at hout
    · rwa [Option.isNone_eq_false_iff.mpr (Option.isSome_iff_ne_none.mpr hsome), if_neg Bool.false_ne_true] at hout

/-! Haptic starts (R411, R415-R417, R419) -/

@[simp] theorem State.hap_updHap_self (s : State) (c : Fin 8) (f : HapChan → HapChan) : (s.updHap c f).hap c = f (s.hap c) := at'_upd_self ..

theorem State.hap_updHap_ne (s : State) {c k : Fin 8} (f : HapChan → HapChan) (h : k ≠ c) : (s.updHap c f).hap k = s.hap k := at'_upd_ne _ f h

/-- The HAP_PLAY that a start came from, if it came from one, completes with a status and no credits drawn (R414, R417, R419). -/
def State.finishSource (s : State) (src : HapSrc) (status : Nat) : State :=
  match src with
  | .desc p r o => s.finishDesc p r o status (bytesOf 4 0)
  | _ => s

theorem State.finishSource_of_other {s : State} {src : HapSrc} (h : ∀ p r o, src ≠ .desc p r o) (status : Nat) : s.finishSource src status = s := by
  cases src with
  | desc p r o => exact absurd rfl (h p r o)
  | pin => rfl
  | zone => rfl

@[simp] theorem State.hap_finishSource (s : State) (src : HapSrc) (status : Nat) (c : Fin 8) : (s.finishSource src status).hap c = s.hap c := by
  cases src <;> rfl

section Serve
variable {s : State} {c : Fin 8} {t : Trigger} {e : Effect}

theorem State.hapTrigger_of_tripped (h : (s.hap c).trips ≠ []) :
    s.hapTrigger c t = s.hapRefuse c t 0x0D 0x0D00 (hapLimitData (s.hap c).lastTrip t.slot.val) := by
  simp only [State.hapTrigger, List.isEmpty_eq_false_iff.mpr h, Bool.not_false, if_true]

variable (hclear : (s.hap c).trips = [])
include hclear

theorem State.hapTrigger_of_disabled (hoff : s.dev.hapEnabled c = false) : s.hapTrigger c t = s.hapRefused c t := by
  simp only [State.hapTrigger, hclear, hoff, List.isEmpty_nil, Bool.not_true, Bool.not_false, Bool.false_eq_true, if_false, if_true]

variable (hon : s.dev.hapEnabled c = true) (hslot : at' (s.hap c).pool t.slot = some e) (hnew : (s.hap c).wait = none)
include hon hslot hnew

/-- An effect of higher priority in its drive phase keeps the channel (R415). -/
theorem State.hapTrigger_of_lower {r : HapRun} (hrun : (s.hap c).run = some r) (hdrive : r.braking = false) (hlow : t.prio < r.trig.prio) :
    s.hapTrigger c t = s.hapRefused c t := by
  simp only [State.hapTrigger, hclear, hon, hslot, hnew, hrun, hdrive, decide_eq_true hlow, List.isEmpty_nil, Bool.not_true, Bool.not_false, Bool.and_self,
    Bool.false_eq_true, if_false, if_true]

/-- A start on an idle channel takes the next place of all that wait (R417). -/
theorem State.hapTrigger_of_idle (hrun : (s.hap c).run = none) : s.hapTrigger c t =
    (s.onDev fun d => { d with haptics := { d.haptics with place := d.haptics.place + 1 } }).hapServe c
      { trig := t, effect := e, since := s.dev.devtime, place := s.dev.haptics.place } := by
  simp only [State.hapTrigger, hclear, hon, hslot, hnew, hrun, List.isEmpty_nil, Bool.not_true, Bool.false_eq_true, if_false]

end Serve

/-- What the start of an effect makes of its channel (R409, R411). -/
def HapChan.begun (x : HapChan) (t : Trigger) (e : Effect) : HapChan :=
  { x with wait := none, run := some { trig := t, effect := e, drawn := e.cost t.gain, braking := false, k := 0, total := 0, energy := 0, stop := false },
           en := true, holding := none, slot := t.slot.val, prio := t.prio }

theorem State.updHap_updHap (s : State) (c : Fin 8) (f g : HapChan → HapChan) : (s.updHap c f).updHap c g = s.updHap c fun x => g (f x) :=
  congrArg (fun chans => s.onDev fun d => { d with haptics := { d.haptics with chans := chans } }) (upd_upd s.dev.haptics.chans c f g)

theorem State.hapEnd_of_idle {s : State} {c : Fin 8} (h : (s.hap c).run = none) (cause : Nat) : s.hapEnd c cause = s := by
  simp only [State.hapEnd, h]

theorem State.hapBegin_of_idle {s : State} {c : Fin 8} (hrun : (s.hap c).run = none) (t : Trigger) (e : Effect) :
    s.hapBegin c t e = (s.skein.takeHap c (e.cost t.gain)).map fun k => (({ s with skein := k } : State).updHap c fun x => x.begun t e) := by
  unfold State.hapBegin
  refine congrArg (fun f => Option.map f _) (funext fun k => ?_)
  extract_lets u cause v w
  have hidle : (v.hap c).run = none := by rw [State.hap_updHap_self]; exact hrun
  have hw : w = v := State.hapEnd_of_idle hidle cause
  rw [hw, State.updHap_updHap]
  rfl

theorem State.hapServe_of_first {s : State} {c : Fin 8} (hfirst : s.dev.hapPlaces = []) (w : HapWait) :
    s.hapServe c w = (s.hapBegin c w.trig w.effect).getD (s.updHap c fun x => { x with wait := some w }) := by
  simp only [State.hapServe, hfirst, List.any_nil, Bool.false_eq_true, if_false]
  cases s.hapBegin c w.trig w.effect <;> rfl

section HapticStart
variable {c : Fin 8} {s : State} (hs : Senses s)
include hs

theorem hapEffectStart_answers_nothing (hnone : (s.hap c).arrivals = []) (hwait : (s.hap c).wait = none) : Answers (.hapEffectStart c) s s := by
  simp only [Answers, exec_hapEffectStart, execHapEffectStart, State.sensing_of_senses hs, hnone, hwait, sortBy, List.foldr_nil]

/-- A lone trigger wins its tick (R415). -/
theorem hapEffectStart_answers {t : Trigger} (hone : (s.hap c).arrivals = [t]) :
    Answers (.hapEffectStart c) s ((s.updHap c fun x => { x with arrivals := [] }).hapTrigger c t) := by
  simp only [Answers, exec_hapEffectStart, execHapEffectStart, State.sensing_of_senses hs, hone, sortBy, List.foldr_cons, List.foldr_nil, insertBy,
    State.each_nil]

theorem hapEnergyTimeout_answers_early {w : HapWait} (hwait : (s.hap c).wait = some w) (hearly : s.dev.devtime < w.since + 2000000) :
    Answers (.hapEnergyTimeout c) s s := by
  simp only [Answers, exec_hapEnergyTimeout, execHapEnergyTimeout, State.sensing_of_senses hs, hwait, if_pos hearly]

/-- A start that has waited 2 ms is dropped (R417). -/
theorem hapEnergyTimeout_answers {w : HapWait} (hwait : (s.hap c).wait = some w) (hlate : w.since + 2000000 ≤ s.dev.devtime) :
    Answers (.hapEnergyTimeout c) s ((((s.updHap c fun x => { x with wait := none }).finishSource w.trig.src 0x0B).hapEvent c 0x0D01 []).settleLoads c) := by
  simp only [Answers, exec_hapEnergyTimeout, execHapEnergyTimeout, State.sensing_of_senses hs, hwait, if_neg (Nat.not_lt.mpr hlate)]
  cases hsrc : w.trig.src <;> rfl

end HapticStart

theorem State.hapPlaces_updHap {s : State} {c : Fin 8} {f : HapChan → HapChan} (h : (f (s.hap c)).wait = (s.hap c).wait) :
    (s.updHap c f).dev.hapPlaces = s.dev.hapPlaces := by
  refine List.filterMap_congr fun k _ => congrArg (Option.map _) ?_
  change ((s.updHap c f).hap k).wait = (s.hap k).wait
  by_cases hk : k = c
  · rw [hk, State.hap_updHap_self, h]
  · rw [State.hap_updHap_ne s f hk]

section Idle
variable {s : State} {c : Fin 8} {t : Trigger} {e : Effect}
variable (hclear : (s.hap c).trips = []) (hon : s.dev.hapEnabled c = true) (hslot : at' (s.hap c).pool t.slot = some e) (hnew : (s.hap c).wait = none)
  (hidle : (s.hap c).run = none) (hfirst : s.dev.hapPlaces = [])
include hclear hon hslot hnew hidle hfirst

/-- The start of an idle channel takes its credits and begins (R411, R417). -/
theorem State.hapTrigger_begins {k : Skein} (hcredits : s.skein.takeHap c (e.cost t.gain) = some k) :
    (s.hapTrigger c t).skein = k ∧ (s.hapTrigger c t).hap c = (s.hap c).begun t e := by
  rw [State.hapTrigger_of_idle hclear hon hslot hnew hidle, State.hapServe_of_first (by exact hfirst), State.hapBegin_of_idle (by exact hidle)]
  dsimp only [State.onDev]
  rw [hcredits]
  exact ⟨rfl, State.hap_updHap_self ..⟩

/-- The start of an idle channel whose credits the reservoir does not hold waits (R417). -/
theorem State.hapTrigger_waits (hcredits : s.skein.takeHap c (e.cost t.gain) = none) :
    (s.hapTrigger c t).skein = s.skein ∧
      (s.hapTrigger c t).hap c = { s.hap c with wait := some { trig := t, effect := e, since := s.dev.devtime, place := s.dev.haptics.place } } := by
  rw [State.hapTrigger_of_idle hclear hon hslot hnew hidle, State.hapServe_of_first (by exact hfirst), State.hapBegin_of_idle (by exact hidle)]
  dsimp only [State.onDev]
  rw [hcredits]
  exact ⟨rfl, State.hap_updHap_self ..⟩

end Idle

theorem hapticStartResults : HapticStartResults := by
  intro c s hs
  refine ⟨hapEffectStart_answers_nothing hs, fun t hone => ?trigger,
    fun w hwait => ⟨hapEnergyTimeout_answers_early hs hwait, fun hlate => ⟨fun p r o hsrc => ?dropped, fun hother => ?other⟩⟩⟩
  case trigger =>
    intro u
    have hu : u.hap c = { s.hap c with arrivals := [] } := State.hap_updHap_self ..
    have hplaces : u.dev.hapPlaces = s.dev.hapPlaces := State.hapPlaces_updHap rfl
    have hout : Answers (.hapEffectStart c) s (u.hapTrigger c t) := hapEffectStart_answers hs hone
    refine ⟨fun htrip => ?_, fun hclear hoff => ?_, fun hclear hon e hslot hnew => ?_⟩
    · rwa [State.hapTrigger_of_tripped (by rwa [hu]), hu] at hout
    · rwa [State.hapTrigger_of_disabled (s := u) (by rwa [hu]) hoff] at hout
    have hclear' : (u.hap c).trips = [] := by rwa [hu]
    have hslot' : at' (u.hap c).pool t.slot = some e := by rwa [hu]
    have hnew' : (u.hap c).wait = none := by rwa [hu]
    refine ⟨fun r hrun hdrive hlow => ?_, fun hidle hfirst => ?_⟩
    · rwa [State.hapTrigger_of_lower hclear' hon hslot' hnew' (by rwa [hu]) hdrive hlow] at hout
    have hidle' : (u.hap c).run = none := by rwa [hu]
    have hfirst' : u.dev.hapPlaces = [] := hplaces.trans hfirst
    refine ⟨fun k hk => ⟨_, hout, ?_⟩, fun hk => ⟨_, hout, ?_⟩⟩
    · obtain ⟨hskein, hhap⟩ := State.hapTrigger_begins hclear' hon hslot' hnew' hidle' hfirst' hk
      rw [hhap]
      exact ⟨hskein, rfl, rfl, rfl⟩
    · obtain ⟨hskein, hhap⟩ := State.hapTrigger_waits hclear' hon hslot' hnew' hidle' hfirst' hk
      rw [hhap]
      exact ⟨hskein, hidle', _, rfl, rfl, rfl⟩
  case dropped =>
    have hout := hapEnergyTimeout_answers hs hwait hlate
    rwa [hsrc] at hout
  case other =>
    have hout := hapEnergyTimeout_answers hs hwait hlate
    rwa [State.finishSource_of_other hother] at hout

/-! Haptic phases and trips (R409, R411, R412, R419, R421, R426) -/

section HapticPhase
variable {c : Fin 8} {s : State} (hs : Senses s)
include hs

section Running
variable {r : HapRun} (hrun : (s.hap c).run = some r)
include hrun

/-- The drive samples are out (R411). -/
theorem hapDriveEnd_answers (hdrive : r.braking = false) (hout : 8 * r.effect.samples.length ≤ r.k) :
    Answers (.hapDriveEnd c) s (s.updHap c fun x => { x with run := some { r with braking := true, k := 0 } }) := by
  simp only [Answers, exec_hapDriveEnd, execHapDriveEnd, State.sensing_of_senses hs, hrun, hdrive, decide_eq_false (Nat.not_lt.mpr hout), Bool.or_self,
    Bool.false_eq_true, if_false]

theorem hapDriveEnd_answers_early (hearly : r.braking = true ∨ r.k < 8 * r.effect.samples.length) : Answers (.hapDriveEnd c) s s := by
  have hskip : (r.braking || decide (r.k < 8 * r.effect.samples.length)) = true := by rwa [Bool.or_eq_true, decide_eq_true_iff]
  simp only [Answers, exec_hapDriveEnd, execHapDriveEnd, State.sensing_of_senses hs, hrun, hskip, if_true]

/-- Braking has run its time (R409, R411). -/
theorem hapBrakeEnd_answers (hbrake : r.braking = true) (hout : 96 * r.effect.brakeMs ≤ r.k) :
    Answers (.hapBrakeEnd c) s ((s.hapEnd c 0).updHap c fun x => { x with holding := some 0 }) := by
  simp only [Answers, exec_hapBrakeEnd, execHapBrakeEnd, State.sensing_of_senses hs, hrun, hbrake, decide_eq_false (Nat.not_lt.mpr hout), Bool.not_true,
    Bool.or_self, Bool.false_eq_true, if_false]

theorem hapBrakeEnd_answers_early (hearly : r.braking = false ∨ r.k < 96 * r.effect.brakeMs) : Answers (.hapBrakeEnd c) s s := by
  have hskip : (!r.braking || decide (r.k < 96 * r.effect.brakeMs)) = true := by rwa [Bool.or_eq_true, Bool.not_eq_true', decide_eq_true_iff]
  simp only [Answers, exec_hapBrakeEnd, execHapBrakeEnd, State.sensing_of_senses hs, hrun, hskip, if_true]

end Running

theorem hapEnHoldExpiry_answers {n : Nat} (hholding : (s.hap c).holding = some n) :
    Answers (.hapEnHoldExpiry c) s
      (if n < 96 * fld (s.dev.hapReg c 0) 7 4 then s else s.updHap c fun x => { x with holding := none, en := false }) := by
  simp only [Answers, exec_hapEnHoldExpiry, execHapEnHoldExpiry, State.sensing_of_senses hs, hholding, apply_ite Host.Outcome.next]

theorem hapTrip_answers_nothing (hdue : (s.hap c).due = none) : Answers (.hapTrip c) s s := by
  simp only [Answers, exec_hapTrip, execHapTrip, State.sensing_of_senses hs, hdue]

theorem hapTrip_answers {kind : Nat} (hdue : (s.hap c).due = some kind) : Answers (.hapTrip c) s (s.hapTrip c kind) := by
  simp only [Answers, exec_hapTrip, execHapTrip, State.sensing_of_senses hs, hdue]

theorem hapRearm_answers : Answers (.hapRearm c) s (s.updHap c fun x => { x with trips := x.trips.filter fun e => !s.dev.mayRearm c e }) := by
  simp only [Answers, exec_hapRearm, execHapRearm, State.sensing_of_senses hs]

theorem hapClear_answers (q : Fin 4) : Answers (.hapClear q c) s
    (if s.dev.isManager q = true then s.updHap c fun x => { x with trips := x.trips.filter fun e => e.1 != 1 } else s) := by
  cases hq : s.dev.isManager q <;> simp [Answers, exec_hapClear, execHapClear, State.sensing_of_senses hs, hq]

end HapticPhase

/-! A trip (R419) -/

@[simp] theorem State.devtime_finishSource (s : State) (src : HapSrc) (status : Nat) : (s.finishSource src status).dev.devtime = s.dev.devtime := by
  cases src <;> rfl

/-- Completing the loads that settle leaves every channel and DEVTIME alone. -/
theorem State.dev_completeLoads (s : State) (l : List (Fin 32 × Effect × Fin 64 × Fin 4 × Nat)) :
    (s.each l fun s l => s.finishDesc l.2.2.1 l.2.2.2.1 l.2.2.2.2 0 []).dev.haptics = s.dev.haptics ∧
      (s.each l fun s l => s.finishDesc l.2.2.1 l.2.2.2.1 l.2.2.2.2 0 []).dev.devtime = s.dev.devtime := by
  refine foldl_keeps (fun t : State => t.dev.haptics = s.dev.haptics ∧ t.dev.devtime = s.dev.devtime) _ (fun t l h => ?_) l s ⟨rfl, rfl⟩
  exact h

/-- Loads that settle change the pool and the loads that wait, nothing else of the channel (R410). -/
theorem State.hap_settleLoads (s : State) (c : Fin 8) : ∃ loads pool, (s.settleLoads c).hap c = { s.hap c with loads := loads, pool := pool } := by
  unfold State.settleLoads
  extract_lets x go u
  exact ⟨_, _, (congrArg (fun h : Haptics => at' h.chans c) (State.dev_completeLoads u go).1).trans (State.hap_updHap_self ..)⟩

@[simp] theorem State.devtime_settleLoads (s : State) (c : Fin 8) : (s.settleLoads c).dev.devtime = s.dev.devtime := (State.dev_completeLoads ..).2

@[simp] theorem State.hap_hapEvent (s : State) (c k : Fin 8) (code : Nat) (data : List Byte) : (s.hapEvent c code data).hap k = s.hap k := by
  have hunits : (s.hapEvent c code data).dev.units = s.dev.units := by
    unfold State.hapEvent
    split
    · exact State.units_postBoth ..
    · exact State.units_postManager ..
  exact congrArg (fun h : Haptics => at' h.chans k) (Dev.haptics_of_units hunits)

/-- An ended effect's HAP_PLAY, if it came from one, completes with the credits drawn (R411). -/
def State.finishRun (s : State) (r : HapRun) (cause : Nat) : State :=
  match r.trig.src with
  | .desc p g o =>
    if r.stop then s.finishDesc p g o stDiscarded []
    else s.finishDesc p g o (if cause = 3 then 0x0D else 0) (bytesOf 4 r.drawn ++ bytesOf 1 cause)
  | _ => s

theorem State.dev_finishRun (s : State) (r : HapRun) (cause : Nat) :
    (s.finishRun r cause).dev.haptics = s.dev.haptics ∧ (s.finishRun r cause).dev.devtime = s.dev.devtime := by
  unfold State.finishRun
  split
  · split <;> exact ⟨rfl, rfl⟩
  · exact ⟨rfl, rfl⟩

theorem State.hapEnd_of_run {s : State} {c : Fin 8} {r : HapRun} (hrun : (s.hap c).run = some r) (cause : Nat) :
    s.hapEnd c cause = ((s.updHap c fun x => { x with run := none, energy := s.dev.hapEnergy c r.energy }).finishRun r cause).settleLoads c := by
  rw [State.hapEnd, hrun]
  rfl

@[simp] theorem State.devtime_hapEnd (s : State) (c : Fin 8) (cause : Nat) : (s.hapEnd c cause).dev.devtime = s.dev.devtime := by
  cases hrun : (s.hap c).run with
  | none => rw [State.hapEnd_of_idle hrun]
  | some r =>
    rw [State.hapEnd_of_run hrun, State.devtime_settleLoads]
    exact (State.dev_finishRun ..).2

/-- A channel whose effect has ended runs none; what waits at it stays (R411). -/
theorem State.hap_hapEnd (s : State) (c : Fin 8) (cause : Nat) :
    ((s.hapEnd c cause).hap c).run = none ∧ ((s.hapEnd c cause).hap c).wait = (s.hap c).wait := by
  cases hrun : (s.hap c).run with
  | none =>
    rw [State.hapEnd_of_idle hrun]
    exact ⟨hrun, rfl⟩
  | some r =>
    rw [State.hapEnd_of_run hrun]
    have hended : ((s.updHap c fun x => { x with run := none, energy := s.dev.hapEnergy c r.energy }).finishRun r cause).hap c =
        { s.hap c with run := none, energy := s.dev.hapEnergy c r.energy } :=
      (congrArg (fun h : Haptics => at' h.chans c) (State.dev_finishRun ..).1).trans (State.hap_updHap_self ..)
    obtain ⟨loads, pool, hsettled⟩ := State.hap_settleLoads ((s.updHap c fun x =>
      { x with run := none, energy := s.dev.hapEnergy c r.energy }).finishRun r cause) c
    rw [hsettled, hended]
    exact ⟨rfl, rfl⟩

/-- What a trip makes of its channel, but for the loads that settle (R419). -/
def HapChan.tripped (x : HapChan) (kind time : Nat) : HapChan :=
  { x with en := false, holding := none, i := 0, u := 0, due := none, lastTrip := kind, trips := (kind, time) :: x.trips.filter fun e => e.1 != kind }

theorem State.hap_hapTrip (s : State) (c : Fin 8) (kind : Nat) :
    ∃ (x : HapChan) (loads : _) (pool : _), (s.hapTrip c kind).hap c = { x.tripped kind s.dev.devtime with loads := loads, pool := pool } ∧
      x.run = none ∧ x.wait = none := by
  unfold State.hapTrip
  extract_lets wait u v w y
  have hended := State.hap_hapEnd u c 3
  have htime : v.dev.devtime = s.dev.devtime := State.devtime_hapEnd ..
  have hw : w.hap c = (v.hap c).tripped kind s.dev.devtime := by rw [State.hap_updHap_self, htime]; rfl
  have hy : y.hap c = w.hap c := by
    cases hwait : wait with
    | none => simp only [y, hwait]
    | some q =>
      have hrefused : y = w.finishSource q.trig.src 0x0D := by
        simp only [y, hwait]
        rfl
      rw [hrefused, State.hap_finishSource]
  obtain ⟨loads, pool, hsettled⟩ := State.hap_settleLoads y c
  refine ⟨v.hap c, loads, pool, ?_, hended.1, hended.2.trans (congrArg HapChan.wait (State.hap_updHap_self ..))⟩
  rw [State.hap_hapEvent, hsettled, hy, hw]

/-! The control tick (R412) -/

/-- The drive codes that a control tick emits, 0 while HAPn_EN is low. -/
def State.driveCodes (s : State) : List Int := (allFin 8).map fun c => if (s.hap c).en then (s.hap c).u else 0

theorem State.length_driveCodes (s : State) : s.driveCodes.length = 8 := by simp [State.driveCodes, allFin]

theorem State.driveCodes_of_low {s : State} {k : Fin 8} (h : (s.hap k).en = false) : s.driveCodes[k.val]? = some 0 := by
  simp [State.driveCodes, allFin, h]

theorem hapControlTick_answers {s : State} (hs : Senses s) (io : Vector HapSample 8) :
    ∃ v : State, Answers (.hapControlTick io) s (v.emit (.haptic v.driveCodes)) := by
  simp only [Answers, exec_hapControlTick, execHapControlTick, State.sensing_of_senses hs]
  exact ⟨_, rfl⟩

theorem hapEnOneshotExpiry_answers (c : Fin 8) (s : State) : Answers (.hapEnOneshotExpiry c) s (s.updHap c fun x => { x with en := false, u := 0 }) :=
  exec_hapEnOneshotExpiry c s

theorem hapticPhaseResults : HapticPhaseResults := by
  intro c s
  refine ⟨fun hs => ⟨fun r hrun => ⟨hapDriveEnd_answers hs hrun, hapBrakeEnd_answers hs hrun, hapDriveEnd_answers_early hs hrun,
    hapBrakeEnd_answers_early hs hrun⟩, fun n hholding => ?hold, hapTrip_answers_nothing hs, fun kind hdue => ?trip, hapRearm_answers hs,
    fun q hq => ?other, fun q hq => ?manager, fun io => ?tick⟩, hapEnOneshotExpiry_answers c s⟩
  case hold =>
    have hout := hapEnHoldExpiry_answers hs hholding
    refine ⟨fun hearly => ?_, fun hlate => ?_⟩
    · rwa [if_pos hearly] at hout
    · rwa [if_neg (Nat.not_lt.mpr hlate)] at hout
  case trip =>
    obtain ⟨x, loads, pool, hhap, hrun, hwait⟩ := State.hap_hapTrip s c kind
    refine ⟨_, hapTrip_answers hs hdue, ?_⟩
    rw [hhap]
    exact ⟨rfl, rfl, rfl, hrun, hwait, rfl, List.mem_cons_self ..⟩
  case other =>
    have hout := hapClear_answers (c := c) hs q
    rwa [hq, if_neg Bool.false_ne_true] at hout
  case manager =>
    have hout := hapClear_answers (c := c) hs q
    rwa [if_pos hq] at hout
  case tick =>
    obtain ⟨v, hout⟩ := hapControlTick_answers hs io
    exact ⟨_, hout, v.driveCodes, rfl, v.length_driveCodes, fun k hlow => State.driveCodes_of_low hlow⟩

/-- Settles O50: it holds, each clause by the lemma of its row. Where R409 to R421 leave a reading open, it is the model's (log entry 101). -/
theorem hapticResults : Obligations.HapticResults := ⟨hapticTriggerResults, hapticStartResults, hapticPhaseResults⟩

end Sys2Proof.Machine
